-- ==== Sys2Proof/Word.lean ====
section
/-!
DEFINITION. The word types of the machine.
-/

namespace Sys2Proof

/-- A register, a token payload, a memory-mapped register: 32 bits (R15, R195). -/
abbrev Word := BitVec 32

/-- One byte of memory (R3). -/
abbrev Byte := BitVec 8

end Sys2Proof
end

