-- ==== Sys2Proof/Config.lean ====
section
/-!
DEFINITION. The free values: what the manual leaves open. None has a body, so no proof can see a value; a statement
that mentions one holds whatever it is. Each is applied to `State.free` (or to a name of what it decides).
-/

namespace Sys2Proof.Config

/-- Whether an event whose time the manual leaves open (a reply, a walk, a drain, a fetch, an eviction) happens in this
cycle. (R7, R38, R338; log 4.) -/
opaque happens : Nat → Bool

/-- The position at which a token, or a request of one cycle, is put among its rivals (R19, R219, R305; log 3). -/
opaque order : Nat → Nat

/-- Whether a byte newer in L2 had reached its stack before a trip (R440; log 7). -/
opaque reachedStack : Nat → Nat → Bool

/-- Whether a word of a faulting or aborted chunk had been written (R270, R272; log 9). -/
opaque wordWritten : Nat → Nat → Bool

/-- A byte of the host's memory behind an endpoint that the device has not written (R433; log 10). -/
opaque hostByte : Nat → Byte

/-- A byte of another package's memory that this package has not written (R451; log 10). -/
opaque farByte : Nat → Nat → Byte

/-- The value of a special function where the enclosure computed does not decide the rounding (R106; log 11). -/
opaque hardCase : Nat → Word → Word

/-- Which value a destination byte keeps that a copy maps twice (R264; log 12). -/
opaque lastWriter : Nat → Nat → Bool

/-- How many residue mismatches the next result of a unit meets: none, one, or (2) a second on the operation's repetition (R442; log 27). -/
opaque strikes : Nat → Nat

/-- Which of the cycles of a run of sixteen a throttle step skips (R438; log 13). -/
opaque skips : Nat → Nat → Bool

/-- An answer of the management sideband or of attestation, whose bytes the manual does not give (R436, R447; log 14). -/
opaque answer : Nat → Nat → Byte

/-- The bytes of a configuration completion, which the manual does not give (R425; log 14). -/
opaque configByte : Nat → Byte

/-- The bits of a configuration register that hold what is written, which the manual does not give (R425; log 14). -/
opaque configRw : Nat → Word

/-- Whether a step of bring-up succeeds (R448; log 15). -/
opaque works : Nat → Bool

/-- The hash of a public key (R445; log 15). -/
opaque keyHash : Nat → Nat

/-- Whether a signature verifies under a public key: of an image's type, security version and body (R445; log 15). -/
opaque signed (key sig kind version body : Nat) : Bool

/-- The version of the boot ROM (R447; log 77). -/
opaque romVersion : Nat

/-- Where the configuration space holds a register of a capability (R425; log 88). -/
opaque capAt : Nat → Nat

/-- What a read of a physical address that no stack holds returns (R335; log 16). -/
opaque nowhere : Nat → Byte

/-- The silicon stepping of the part (R427). -/
opaque stepping : BitVec 8

/-- The byte offset that a rejection names where no field of the record fails (R298, R430; log 18). -/
opaque failField : Nat → Nat

end Sys2Proof.Config
end

