-- ==== Sys2Proof/Syntax.lean ====
section
/-!
DEFINITION. The syntax: the parts of a rule word (R50 to R57) and `Instr`, one constructor for each row of
spec/opcode_table.json. The first 126 rows are the forms that a rule word encodes. The rows after them are events of the
device; they have no encoding and name what they act on by numbers.
-/

namespace Sys2Proof

/-- A channel condition of the guard (R50, CC). -/
inductive ChanCond where
  | ignore | data | control | any
  deriving DecidableEq, Repr, Inhabited

/-- The rule kind (R50, KIND). -/
inductive Kind where
  | normal | init | drain | idle
  deriving DecidableEq, Repr, Inhabited

/-- The guard word W0 (R50). -/
structure Guard where
  /-- Predicate care mask. -/
  pm : BitVec 8
  /-- Required values. -/
  pv : BitVec 8
  c0 : ChanCond
  c1 : ChanCond
  c2 : ChanCond
  c3 : ChanCond
  /-- Colour required of every required head (CE, CT). -/
  colour : Option (BitVec 4)
  kind : Kind
  deriving DecidableEq, Repr, Inhabited

/-- A source code (R54). -/
inductive Src where
  | chan (n : BitVec 2)
  | reg (n : BitVec 3)
  | imm | zero | pvec | sys
  deriving DecidableEq, Repr, Inhabited

/-- A data type code (R57). -/
inductive Ty where
  | i32 | u32 | i16x2 | u16x2 | i8x4 | u8x4 | f32 | bf16x2 | f16x2 | e4m3x4 | e5m2x4 | e2m1x8 | e8m0x4
  deriving DecidableEq, Repr, Inhabited

/-- A rounding mode (R65, R98). -/
inductive RMode where
  | rn | rz | rd | ru | sr
  deriving DecidableEq, Repr, Inhabited

/-- A rounding field (R65). -/
structure Rnd where
  mode : RMode
  sat : Bool
  deriving DecidableEq, Repr, Inhabited

/-- The conditions of ICMP (R127). -/
inductive ICond where
  | eq | ne | lt | le | gt | ge
  deriving DecidableEq, Repr, Inhabited

/-- The conditions of FCMP (R147). -/
inductive FCond where
  | eq | ne | lt | le | gt | ge | un | ord
  deriving DecidableEq, Repr, Inhabited

/-- The functions of PSET (R127). -/
inductive PFn where
  | and | or | xor | andn | mov | not | true | false
  deriving DecidableEq, Repr, Inhabited

/-- The forms of PACK (R132). -/
inductive PackFn where
  | lo | hi | sat (t : Ty)
  deriving DecidableEq, Repr, Inhabited

/-- The forms of SHUF (R134). -/
inductive ShufFn where
  | idx | up | dn | xor
  deriving DecidableEq, Repr, Inhabited

/-- The forms of TRED (R134); the first three take a type. -/
inductive TredFn where
  | add (t : Ty) | min (t : Ty) | max (t : Ty) | and | or | xor
  deriving DecidableEq, Repr, Inhabited

/-- The forms of FSGN (R146). -/
inductive SgnFn where
  | copy | neg | abs | xsgn
  deriving DecidableEq, Repr, Inhabited

/-- The functions of FSFU (R155). -/
inductive SfuFn where
  | rcp | rsq | sqrt | exp2 | log2 | sin | cos | sigm | tanh
  deriving DecidableEq, Repr, Inhabited

/-- The sizes of a sub-word access (R68): 1, 2 or 4 bytes. -/
inductive Size where
  | b | h | w
  deriving DecidableEq, Repr, Inhabited

/-- The filters of TEX (R414). -/
inductive TexFn where
  | pt | lin | tri
  deriving DecidableEq, Repr, Inhabited

/-- The forms of CLLCT (R454). -/
inductive CollFn where
  | arTree | arExact | rsTree | rsExact | ag | bc
  deriving DecidableEq, Repr, Inhabited

/-- What every rule word holds besides its operation: guard (W0), sources and dequeue mask (W1), destinations and
IMM16 (W2) (R50 to R52). -/
structure Rule where
  guard : Guard
  a : Src
  b : Src
  c : Src
  dq : BitVec 4
  om : BitVec 8
  dst : Option (BitVec 3)
  pdst : Option (BitVec 3)
  imm : BitVec 16
  deriving DecidableEq, Repr, Inhabited

/-- The name of a context: region number (32 × core + slot), logical element number
((8 × ty + tx) × 16 + 4 × ey + ex) and context number. -/
structure CtxId where
  region : Nat
  el : Nat
  k : Nat
  deriving DecidableEq, Repr, Inhabited

/-- What a fabric message from another package carries (R450, R451, R455). -/
inductive FabMsg where
  /-- A flit that carries nothing this package acts on. -/
  | idle
  /-- The words that rank `rank` of another package contributes to collective number `seq` of slot `slot` of die `die`,
  with the descriptor fields that R457 compares, the link failure that it has found, and whether it fails to perform its command. -/
  | contrib (die slot seq rank fn cnt dt op root : Nat) (words : List Word) (link : Option Nat) (bad : Bool)
  /-- Package `src`'s remote write of bytes at a physical address of this package (R451). -/
  | write (src pa : Nat) (bytes : List Byte)
  /-- Package `src`'s remote read of bytes at a physical address of this package (R451). -/
  | read (src pa len : Nat)
  /-- Another package acknowledges all the remote writes of a copy job's chunk (R451). -/
  | ack (core slot serial chunk : Nat)
  deriving DecidableEq, Repr, Inhabited

/-- The agents that apply the brake (R382). -/
inductive BrakeBy where
  | dispatcher | derailleur | izine
  deriving DecidableEq, Repr, Inhabited

/-- What one of a die's 64 junction sensors reads, in °C (R438). -/
structure SensorReading where
  sensor : Nat
  celsius : Nat
  deriving DecidableEq, Repr, Inhabited

/-- The memories that patrol scrubbing reads (R441, R198). -/
inductive ScrubAt where
  /-- A physical address of HBM. -/
  | hbm (pa : Nat)
  /-- A physical address held in L2. -/
  | l2 (pa : Nat)
  /-- A dirty line of a cluster cache, by home location. -/
  | cache (cluster loc : Nat)
  /-- A scratchpad byte, by physical key. -/
  | spad (key : Nat)
  /-- A tile-store word, by physical key. -/
  | tstore (key : Nat)
  deriving DecidableEq, Repr, Inhabited

/-- One constructor for each row of spec/opcode_table.json. -/
inductive Instr where
  -- 04_ops_integer.md
  | nop (r : Rule)
  | mov (r : Rule)
  | movh (r : Rule)
  | sel (p : BitVec 3) (r : Rule)
  | iadd (sat : Bool) (t : Ty) (r : Rule)
  | isub (sat : Bool) (t : Ty) (r : Rule)
  | imul (hi : Bool) (t : Ty) (r : Rule)
  | imad (sat : Bool) (t : Ty) (r : Rule)
  | imin (t : Ty) (r : Rule)
  | imax (t : Ty) (r : Rule)
  | iabs (sat : Bool) (t : Ty) (r : Rule)
  | iaddx (p : BitVec 3) (t : Ty) (r : Rule)
  | andw (r : Rule)
  | orw (r : Rule)
  | xorw (r : Rule)
  | andnw (r : Rule)
  | shl (r : Rule)
  | shr (r : Rule)
  | sar (r : Rule)
  | rot (r : Rule)
  | clz (r : Rule)
  | popc (r : Rule)
  | brev (r : Rule)
  | bfx (signed : Bool) (r : Rule)
  | bfi (r : Rule)
  | icmp (cc : ICond) (t : Ty) (r : Rule)
  | pset (f : PFn) (r : Rule)
  | pget (r : Rule)
  | idiv (rem : Bool) (t : Ty) (r : Rule)
  | sys (r : Rule)
  | cntCh (r : Rule)
  | cntCr (r : Rule)
  | idot (sat : Bool) (t : Ty) (r : Rule)
  | steer (r : Rule)
  | merge (r : Rule)
  | gate (onTrue : Bool) (r : Rule)
  | ctl (r : Rule)
  | sink (r : Rule)
  | sinkTag (r : Rule)
  | tagc (byReg : Bool) (r : Rule)
  | pack (f : PackFn) (r : Rule)
  | unpk (t : Ty) (r : Rule)
  | seq (down : Bool) (r : Rule)
  | perm (r : Rule)
  | shuf (f : ShufFn) (r : Rule)
  | tred (f : TredFn) (r : Rule)
  | trap (r : Rule)
  | brk (r : Rule)
  | ret (r : Rule)
  | delay (r : Rule)
  -- 05_ops_float.md
  | fadd (m : Rnd) (t : Ty) (r : Rule)
  | fsub (m : Rnd) (t : Ty) (r : Rule)
  | fmul (m : Rnd) (t : Ty) (r : Rule)
  | ffma (m : Rnd) (t : Ty) (r : Rule)
  | fmin (nan : Bool) (t : Ty) (r : Rule)
  | fmax (nan : Bool) (t : Ty) (r : Rule)
  | fsgn (f : SgnFn) (t : Ty) (r : Rule)
  | fcmp (cc : FCond) (t : Ty) (r : Rule)
  | fcvt (src : Ty) (dst : Ty) (sat : Bool) (r : Rule)
  | fdot (m : Rnd) (t : Ty) (r : Rule)
  | fsfu (f : SfuFn) (r : Rule)
  | fcls (t : Ty) (r : Rule)
  | fscl (m : Rnd) (t : Ty) (r : Rule)
  | frnd (m : RMode) (t : Ty) (r : Rule)
  | flrp (m : Rnd) (r : Rule)
  | fxqScale (t : Ty) (r : Rule)
  | fxqQ (t : Ty) (r : Rule)
  -- 08_ops_memory.md
  | ld (sz : Size) (t : Ty) (r : Rule)
  | ldS (sz : Size) (t : Ty) (r : Rule)
  | st (sz : Size) (r : Rule)
  | aadd (t : Ty) (r : Rule)
  | amin (t : Ty) (r : Rule)
  | amax (t : Ty) (r : Rule)
  | aand (t : Ty) (r : Rule)
  | aor (t : Ty) (r : Rule)
  | axor (t : Ty) (r : Rule)
  | aswap (t : Ty) (r : Rule)
  | amaxU64 (r : Rule)
  | axaddF32 (r : Rule)
  | acas (r : Rule)
  | xrd (r : Rule)
  | xrdClr (r : Rule)
  | waita (eq : Bool) (r : Rule)
  | fence (r : Rule)
  | lds (sz : Size) (t : Ty) (r : Rule)
  | sts (sz : Size) (r : Rule)
  | rpush (r : Rule)
  | rpushTry (r : Rule)
  | rpop (r : Rule)
  | rpopTry (r : Rule)
  | agset (n : BitVec 4) (r : Rule)
  | agctlStart (r : Rule)
  | agctlStop (r : Rule)
  | agctlRew (r : Rule)
  | agctlStat (r : Rule)
  | trd (r : Rule)
  | twr (r : Rule)
  | tex (f : TexFn) (r : Rule)
  -- 09_matrix.md, 10_engines_sync.md
  | wld (r : Rule)
  | sweep (r : Rule)
  | sweepSwap (r : Rule)
  | cturn (r : Rule)
  | copy (r : Rule)
  | semSig (r : Rule)
  | semRd (r : Rule)
  | barx (r : Rule)
  | bara (r : Rule)
  | barw (r : Rule)
  -- 13_cluster.md
  | qrsv (r : Rule)
  | qput (r : Rule)
  | qcan (r : Rule)
  | qpop (r : Rule)
  | launch (r : Rule)
  -- 16_die_memory.md
  | pdone (r : Rule)
  | pfail (r : Rule)
  | pstat (r : Rule)
  -- 18_graphics.md
  | isectBox4 (r : Rule)
  | isectTri (r : Rule)
  | isectRib (r : Rule)
  | isectTube (r : Rule)
  | isectBlp (r : Rule)
  | cover (r : Rule)
  -- 21_fabric.md, 08_ops_memory.md, 17_die_elastic.md
  | cllct (f : CollFn) (r : Rule)
  | tcpy (r : Rule)
  | dbgMark (r : Rule)
  | dbgDump (r : Rule)
  -- events of the device
  | maskedFiring (c : CtxId) (slot : Nat)
  | writeBack (id : Nat)
  | requestReply (id : Nat)
  | tokenArrive (id : Nat)
  | creditReturn (id : Nat)
  | faultRecordPost (id : Nat)
  | faultRecordForward (id : Nat)
  | faultRingRetest (id : Nat)
  | launchPacketAccept (die : Nat)
  | launchWaitMet (die : Nat) (id : Nat)
  | gangReady (gang : Nat)
  | dispatcherTry (die : Nat)
  | frameLoad (gang : Nat) (inst : Nat)
  | gangEnable (gang : Nat)
  | regionComplete (region : Nat)
  | gangComplete (gang : Nat)
  | resume (region : Nat)
  | kill (region : Nat)
  | killRelease (region : Nat)
  | roundOpen (region : Nat)
  | roundCommit (region : Nat)
  | drainEntry (region : Nat)
  | regionStalled (region : Nat)
  | starvation (c : CtxId) (slot : Nat)
  | genTokenDeliver (region : Nat) (gen : Nat)
  | genDemandReadComplete (region : Nat) (gen : Nat)
  | ringParkedServe (region : Nat) (ring : Nat)
  | lineWriteback (cluster : Nat) (line : Nat)
  | wideReleaseDone (id : Nat)
  | ccctlWb (cluster : Nat)
  | waitaWake (id : Nat)
  | waitaTimeout (id : Nat)
  | copyPacketAccept (core : Nat)
  | copyJobStart (core : Nat) (slot : Nat)
  | chunkComplete (core : Nat) (slot : Nat)
  | copyJobPause (core : Nat) (slot : Nat)
  | copyAbortFree (core : Nat) (slot : Nat)
  | cjctlAbort (core : Nat) (slot : Nat)
  | syncUnitPerform (id : Nat)
  | barwReturn (id : Nat)
  | sbcfgWrite (core : Nat) (bar : Nat) (v : Word)
  | systolicCommandArrival (id : Nat)
  | queueSend (region : Nat) (tile : Nat)
  | rowBusBeat (id : Nat)
  | wldTileLoaded (id : Nat)
  | sweepTokenTake (id : Nat) (tile : Nat)
  | sweepBeat (id : Nat) (tile : Nat)
  | sweepRowWrite (id : Nat) (tile : Nat)
  | ctNodeAccept (region : Nat) (tile : Nat)
  | ctNodeEmit (region : Nat) (tile : Nat)
  | queueParkedServe (die : Nat) (q : Nat)
  | qcfgEnable (die : Nat) (q : Nat) (v : Word)
  | queueClearDone (die : Nat) (q : Nat)
  | qcfgClose (die : Nat) (q : Nat) (v : Word)
  | apertureWrite (off : Nat) (bytes : List Byte)
  | apertureRead (off : Nat)
  | pageWalkEnd (core : Nat) (as : Nat) (va : Nat)
  | tigo (die : Nat) (v : Word)
  | invalidationDone (die : Nat)
  | fillSlotGrant (die : Nat)
  | fillTimeout (die : Nat) (slot : Nat)
  | evictionEnd (id : Nat)
  | derailleurSample (die : Nat)
  | brakeApply (region : Nat) (agent : BrakeBy)
  | regionSettle (region : Nat)
  | brakeFail (region : Nat)
  | restore (gang : Nat) (inst : Nat)
  | checkpointTokenPlace (region : Nat)
  | stepEnd (region : Nat)
  | traceConfigWrite (off : Nat) (v : Word)
  | collectiveComplete (die : Nat) (slot : Nat)
  | cscfgEnable (die : Nat) (slot : Nat) (v : Word)
  | linkFlitReceive (link : Nat) (good : Bool)
  | linkRetrainEnd (link : Nat) (ok : Bool)
  | portFlitReceive (port : Nat) (good : Bool) (msg : FabMsg)
  | pkgrst (v : Word)
  | submit (die : Nat) (v : Word)
  | submitDone (die : Nat)
  | gkill (v : Word)
  | hostBar4Access (write : Bool) (off : Nat) (len : Nat) (bytes : List Byte)
  | configRequest (write : Bool) (reg : Nat) (v : Word)
  | atsInvalidation (addr : Nat)
  | endpointTimeout (id : Nat)
  | currentSample (die : Nat) (milliamps : Nat) (millivolts : Nat)
  | throttleRecover (die : Nat)
  | thermalThrottle (die : Nat) (reading : SensorReading)
  | packageTrip
  | patrolScrub (at_ : ScrubAt) (uncorrectable : Bool)
  | lifetimeStoreWrite
  | mctpMessage (kind : Nat) (bytes : List Byte)
  | spdmRequest (code : Nat) (bytes : List Byte)
  | powerOnBringUp
  | registerWrite (off : Nat) (v : Word)
  | spuriousWake (id : Nat)
  | preemptionWaitExpiry (gang : Nat)
  | brakeRechoose (region : Nat)
  | msixCoalesceDeadline (ring : Nat)
  | remoteEndpointTimeout (id : Nat)
  | portRetrainEnd (port : Nat) (ok : Bool)
  | collectiveAccept (die : Nat)
  | collectiveBegin (die : Nat) (slot : Nat)
  | orderlyShutdown
  deriving DecidableEq, Repr, Inhabited

end Sys2Proof
end

