-- ==== Sys2Proof/WellFormed.lean ====
section
/-!
DEFINITION. When a rule word is legal by itself (R28, R55 to R58, R61 to R69 and the rules R58 lists). The checks that need
the frame image, the region or the context's mode stand in Machine/Loader.lean.
-/

namespace Sys2Proof

/-- The immediate roles of R55; `none` is the table's dash. -/
inductive ImmRole where
  | s | z | f | field | none
  deriving DecidableEq, Repr, Inhabited

/-- Which source fields a form reads, which destinations it may write, and its immediate role (R117, R140, R200). -/
structure Form where
  a : Bool
  b : Bool
  c : Bool
  d : Bool
  p : Bool
  o : Bool
  role : ImmRole
  deriving DecidableEq, Repr, Inhabited

namespace Form
/-- Reads the first `n` sources and may write every destination. -/
def full (n : Nat) (role : ImmRole) : Form :=
  { a := decide (1 ≤ n), b := decide (2 ≤ n), c := decide (3 ≤ n), d := true, p := true, o := true, role }
/-- Reads the first `n` sources and writes nothing. -/
def silent (n : Nat) (role : ImmRole) : Form :=
  { a := decide (1 ≤ n), b := decide (2 ≤ n), c := decide (3 ≤ n), d := false, p := false, o := false, role }
end Form

/-- The number of lanes of a type (R57). -/
def Ty.lanes : Ty → Nat
  | .i32 | .u32 | .f32 => 1
  | .i16x2 | .u16x2 | .bf16x2 | .f16x2 => 2
  | .i8x4 | .u8x4 | .e4m3x4 | .e5m2x4 | .e8m0x4 => 4
  | .e2m1x8 => 8

/-- The width of a lane in bits. -/
def Ty.width (t : Ty) : Nat := 32 / t.lanes

/-- The shorthand *int* of R62. -/
def Ty.isInt : Ty → Bool
  | .i32 | .u32 => true
  | _ => false

/-- The shorthand *pint* of R62. -/
def Ty.isPint : Ty → Bool
  | .i32 | .u32 | .i16x2 | .u16x2 | .i8x4 | .u8x4 => true
  | _ => false

/-- The shorthand *fp* of R62. -/
def Ty.isFp : Ty → Bool
  | .f32 | .bf16x2 | .f16x2 => true
  | _ => false

/-- The signed integer types of R121. -/
def Ty.isSigned : Ty → Bool
  | .i32 | .i16x2 | .i8x4 => true
  | _ => false

/-- Whether a PERM selector of `imm` names a byte of source B (R133). -/
def permReadsB (imm : BitVec 16) : Bool :=
  (List.range 4).any fun i =>
    let s := (imm.toNat >>> (4 * i)) % 16
    decide (4 ≤ s ∧ s ≤ 7)

/-- The pairs of FCVT (R153). -/
def fcvtPair : Ty → Ty → Bool
  | .f32, d => match d with
    | .f32 => false
    | _ => true
  | .bf16x2, d => d.isPint || d == .f32 || d == .f16x2 || d == .e4m3x4 || d == .e5m2x4 || d == .e2m1x8
  | .f16x2, d => d.isPint || d == .f32 || d == .bf16x2 || d == .e4m3x4 || d == .e5m2x4 || d == .e2m1x8
  | .e4m3x4, d => d.isFp || d == .e5m2x4
  | .e5m2x4, d => d.isFp || d == .e4m3x4
  | .e2m1x8, d => d.isFp
  | .e8m0x4, d => d == .f32
  | _, d => d.isFp

/-- The form of each rule instruction; an event of the device has none. -/
def Instr.form : Instr → Option (Form × Rule)
  | .nop r => some (.silent 0 .none, r)
  | .mov r => some (.full 1 .s, r)
  | .movh r => some (.full 1 .field, r)
  | .sel _ r => some (.full 2 .s, r)
  | .iadd _ _ r | .isub _ _ r | .imul _ _ r => some (.full 2 .s, r)
  | .imad _ _ r => some (.full 3 .s, r)
  | .imin _ r | .imax _ r => some (.full 2 .s, r)
  | .iabs _ _ r => some (.full 1 .none, r)
  | .iaddx _ _ r => some (.full 2 .s, r)
  | .andw r | .orw r | .xorw r | .andnw r => some (.full 2 .z, r)
  | .shl r | .shr r | .sar r | .rot r => some (.full 2 .z, r)
  | .clz r | .popc r | .brev r => some (.full 1 .none, r)
  | .bfx _ r => some (.full 1 .field, r)
  | .bfi r => some (.full 2 .field, r)
  | .icmp _ _ r => some (.full 2 .s, r)
  | .pset _ r => some (.full 0 .field, r)
  | .pget r => some (.full 1 .field, r)
  | .idiv _ _ r => some (.full 2 .s, r)
  | .sys r | .cntCh r | .cntCr r => some (.full 0 .field, r)
  | .idot _ _ r => some (.full 3 .none, r)
  | .steer r => some ({ Form.full 2 .field with d := false }, r)
  | .merge r => some (.full 3 .none, r)
  | .gate _ r => some (.full 2 .none, r)
  | .ctl r => some (.full 1 .s, r)
  | .sink r | .sinkTag r => some ({ Form.full 1 .none with o := false }, r)
  | .tagc byReg r => some (.full (if byReg then 2 else 1) .field, r)
  | .pack _ r => some (.full 2 .none, r)
  | .unpk _ r => some (.full 1 .field, r)
  | .seq _ r => some (.full 1 .field, r)
  | .perm r => some (.full (if permReadsB r.imm then 2 else 1) .field, r)
  | .shuf f r => some (.full (if f = .idx then 2 else 1) .field, r)
  | .tred _ r => some (.full 1 .none, r)
  | .trap r | .brk r => some (.silent 1 .field, r)
  | .ret r => some (.silent 0 .none, r)
  | .delay r => some (.full 1 .field, r)
  | .fadd _ _ r | .fsub _ _ r | .fmul _ _ r => some (.full 2 .f, r)
  | .ffma _ _ r => some (.full 3 .f, r)
  | .fmin _ _ r | .fmax _ _ r => some (.full 2 .f, r)
  | .fsgn f _ r => some (.full (if f = .copy ∨ f = .xsgn then 2 else 1) .f, r)
  | .fcmp _ _ r => some (.full 2 .f, r)
  | .fcvt s d _ r => some (.full (if s.lanes < d.lanes then 2 else 1) .field, r)
  | .fdot _ _ r => some (.full 3 .none, r)
  | .fsfu _ r => some (.full 1 .none, r)
  | .fcls _ r => some (.full 1 .none, r)
  | .fscl _ _ r => some (.full 2 .s, r)
  | .frnd _ _ r => some (.full 1 .none, r)
  | .flrp _ r => some (.full 3 .f, r)
  | .fxqScale _ r => some (.full 1 .none, r)
  | .fxqQ _ r => some (.full 3 .none, r)
  | .ld _ _ r | .ldS _ _ r => some (.full 1 .field, r)
  | .st _ r => some (.silent 2 .field, r)
  | .aadd _ r | .amin _ r | .amax _ r | .aand _ r | .aor _ r | .axor _ r | .aswap _ r => some (.full 2 .field, r)
  | .amaxU64 r => some (.full 3 .field, r)
  | .axaddF32 r => some (.full 2 .field, r)
  | .acas r => some (.full 3 .field, r)
  | .xrd r | .xrdClr r => some (.full 1 .field, r)
  | .waita _ r => some (.full 2 .field, r)
  | .fence r => some (.silent 0 .field, r)
  | .lds _ _ r => some (.full 1 .field, r)
  | .sts _ r => some (.silent 2 .field, r)
  | .rpush r | .rpushTry r => some (.full 1 .field, r)
  | .rpop r | .rpopTry r => some (.full 0 .field, r)
  | .agset _ r => some (.full 1 .field, r)
  | .agctlStart r | .agctlStop r | .agctlRew r | .agctlStat r => some (.full 0 .field, r)
  | .trd r => some (.full 1 .none, r)
  | .twr r => some (.silent 2 .none, r)
  | .tex _ r => some (.full 3 .field, r)
  | .wld r | .sweep r | .sweepSwap r => some (.silent 2 .none, r)
  | .cturn r => some (.silent 1 .none, r)
  | .copy r => some (.full 3 .none, r)
  | .semSig r => some (.silent 1 .field, r)
  | .semRd r => some (.full 0 .field, r)
  | .barx r => some (.silent 1 .field, r)
  | .bara r => some (.silent 0 .field, r)
  | .barw r => some (.full 1 .field, r)
  | .qrsv r => some (.full 0 .field, r)
  | .qput r => some (.silent 2 .field, r)
  | .qcan r => some (.silent 1 .field, r)
  | .qpop r => some (.full 1 .field, r)
  | .launch r => some (.full 2 .none, r)
  | .pdone r => some (.full 0 .none, r)
  | .pfail r => some (.full 1 .none, r)
  | .pstat r => some (.full 2 .none, r)
  | .isectBox4 r | .isectTri r | .isectRib r | .isectTube r | .isectBlp r | .cover r => some (.full 2 .none, r)
  | .cllct _ r => some (.silent 1 .field, r)
  | .tcpy r => some (.full 2 .none, r)
  | .dbgMark r => some (.silent 1 .field, r)
  | .dbgDump r => some (.silent 0 .field, r)
  | _ => none

/-- Whether the instruction is one that a rule word encodes. -/
def Instr.isRule (i : Instr) : Bool := i.form.isSome

/-- The channel condition for channel `n`. -/
def Guard.cc (g : Guard) : Nat → ChanCond
  | 0 => g.c0
  | 1 => g.c1
  | 2 => g.c2
  | 3 => g.c3
  | _ => .ignore

/-- The channels that the guard requires (R28). -/
def Guard.requires (g : Guard) (n : Nat) : Bool := g.cc n != .ignore

/-- The guard's own field rules (R28, R50): PV inside PM, and a required channel where a colour is required. -/
def Guard.wf (g : Guard) : Bool :=
  (g.pv &&& ~~~g.pm) == 0#8 && (g.colour.isNone || (List.range 4).any g.requires)

def Src.isImm (s : Src) : Bool := s == .imm
def Src.isSys (s : Src) : Bool := s == .sys

/-- The channel a source names. -/
def Src.chan? : Src → Option Nat
  | .chan n => some n.toNat
  | _ => none

/-- The code of an unread source field: zero, which is also the code of c0. -/
def Src.unread : Src := .chan 0#2

/-- The type that each form accepts (R63 to R69, R57). -/
def Instr.tyOk : Instr → Bool
  | .iadd _ t _ | .isub _ t _ => t.isPint
  | .imul hi t _ => if hi then t.isInt else t.isPint
  | .imad _ t _ => t.isInt || t == .i16x2 || t == .u16x2
  | .imin t _ | .imax t _ => t.isPint
  | .iabs _ t _ => t.isSigned
  | .iaddx _ t _ => t.isInt
  | .icmp _ t _ => t.isInt
  | .idiv _ t _ => t.isInt
  | .idot _ t _ => t == .i16x2 || t == .u16x2 || t == .i8x4 || t == .u8x4
  | .pack (.sat t) _ => t == .i16x2 || t == .u16x2
  | .unpk t _ => t == .i16x2 || t == .u16x2 || t == .i8x4 || t == .u8x4
  | .tred (.add t) _ | .tred (.min t) _ | .tred (.max t) _ => t.isInt || t == .f32
  | .fadd _ t _ | .fsub _ t _ | .fmul _ t _ | .ffma _ t _ => t.isFp
  | .fmin _ t _ | .fmax _ t _ | .fsgn _ t _ | .fcmp _ t _ | .fcls t _ | .fscl _ t _ | .frnd _ t _ => t.isFp
  | .fcvt s d _ _ => fcvtPair s d
  | .fdot _ t _ => t == .bf16x2 || t == .f16x2 || t == .e4m3x4 || t == .e5m2x4 || t == .e2m1x8
  | .fxqScale t _ | .fxqQ t _ => t == .e4m3x4 || t == .e5m2x4 || t == .e2m1x8
  | .ld _ t _ | .ldS _ t _ | .lds _ t _ => t.isInt
  | .aadd t _ | .amin t _ | .amax t _ | .aand t _ | .aor t _ | .axor t _ | .aswap t _ => t.isInt
  | _ => true

/-- The MERGE guard of R61: a control head on SA, data heads on SB and SC. -/
def mergeGuardOk (r : Rule) : Bool :=
  match r.a.chan?, r.b.chan?, r.c.chan? with
  | some a, some b, some c =>
    a == b || a == c || b == c ||
      (r.guard.cc a == .control && r.guard.cc b == .data && r.guard.cc c == .data)
  | _, _, _ => true

/-- A breach in W0 that shows only with the operation (R61). -/
def Instr.badW0 : Instr → Bool
  | .merge r => !mergeGuardOk r
  | _ => false

/-- The channels a rule reads through source fields that its form reads. -/
def Rule.readsChan (r : Rule) (f : Form) (n : Nat) : Bool :=
  (f.a && r.a.chan? == some n) || (f.b && r.b.chan? == some n) || (f.c && r.c.chan? == some n)

/-- A breach in W1: an unread source that is not zero, an immediate or SYS source where none may stand (R55, R56), a
source or dequeue of an unrequired channel (R28, R48), a type or form rule (R57, R61, R128). -/
def Instr.badW1 (i : Instr) : Bool :=
  match i.form with
  | none => false
  | some (f, r) =>
    !i.tyOk ||
    (!f.a && r.a != .unread) || (!f.b && r.b != .unread) || (!f.c && r.c != .unread) ||
    ((r.a.isImm || r.b.isImm || r.c.isImm) && (f.role == .field || f.role == .none)) ||
    ((r.a.isImm || r.b.isImm || r.c.isImm) && (r.a.isSys || r.b.isSys || r.c.isSys)) ||
    ((r.a.isSys || r.b.isSys || r.c.isSys) && f.role == .field) ||
    (List.range 4).any (fun n => (r.readsChan f n || r.dq.getLsbD n) && !r.guard.requires n) ||
    (match i with
      | .sinkTag r => r.a.chan?.isNone
      | .merge r => match r.a.chan?, r.b.chan?, r.c.chan? with
        | some a, some b, some c =>
          a == b || a == c || b == c || !(r.dq.getLsbD a && r.dq.getLsbD b && r.dq.getLsbD c)
        | _, _, _ => true
      | _ => false)

/-- The values of a global access's IMM16 that a form accepts: SCOPE 0 to 5 and the orders given (R67). -/
def globalImmOk (imm : BitVec 16) (ords : List Nat) : Bool :=
  decide (imm.toNat / 512 % 8 ≤ 5) && ords.contains (imm.toNat / 128 % 4)

/-- A prefetch: an LD with no destination (R210). -/
def Rule.noDest (r : Rule) : Bool := r.dst.isNone && r.pdst.isNone && r.om == 0#8

/-- The lane offset of FCVT (R154). -/
def fcvtOffOk (s d : Ty) (off : Nat) : Bool :=
  let ns := s.lanes
  let nd := d.lanes
  if ns < nd then decide (off % ns = 0 ∧ off + ns ≤ nd)
  else if nd < ns then decide (off % nd = 0 ∧ off + nd ≤ ns)
  else decide (off = 0)

/-- The field rules of IMM16 for the forms whose role is a field. -/
def Instr.immOk : Instr → Bool
  | .bfx _ r | .bfi r =>
    let w := r.imm.toNat / 32 % 64
    decide (r.imm.toNat / 2048 = 0 ∧ 1 ≤ w ∧ w ≤ 32 ∧ r.imm.toNat % 32 + w ≤ 32)
  | .pset f r =>
    decide (r.imm.toNat / 64 = 0) &&
      (match f with
        | .mov | .not => decide (r.imm.toNat / 8 = 0)
        | .true | .false => decide (r.imm.toNat = 0)
        | _ => true)
  | .pget r => decide (r.imm.toNat / 8 = 0)
  | .sys r => decide (r.imm.toNat ≤ 0x22)
  | .cntCh r => decide (r.imm.toNat / 4 = 0)
  | .cntCr r => decide (r.imm.toNat / 8 = 0)
  | .steer r | .delay r | .tex _ r | .semSig r | .semRd r | .cllct _ r | .dbgMark r | .dbgDump r =>
    decide (r.imm.toNat / 256 = 0)
  | .tagc byReg r => decide (r.imm.toNat / 32 = 0) && (!byReg || decide (r.imm.toNat % 16 = 0))
  | .unpk t r => decide (r.imm.toNat < t.lanes)
  | .perm r => (List.range 4).all fun i =>
      let s := (r.imm.toNat >>> (4 * i)) % 16
      decide (s ≠ 10 ∧ s ≠ 11)
  | .shuf f r => if f = .idx then decide (r.imm.toNat = 0) else decide (r.imm.toNat / 16 = 0 ∧ r.imm.toNat ≠ 0)
  | .fcvt s d _ r =>
    decide (r.imm.toNat % 8 ≤ 4 ∧ r.imm.toNat / 64 = 0) && fcvtOffOk s d (r.imm.toNat / 8 % 8)
  | .ld _ _ r => globalImmOk r.imm (if r.noDest then [0] else [0, 1])
  | .ldS _ _ r => globalImmOk r.imm [0] && r.pdst.isSome
  | .st _ r => globalImmOk r.imm [0, 2]
  | .aadd _ r | .amin _ r | .amax _ r | .aand _ r | .aor _ r | .axor _ r | .aswap _ r | .amaxU64 r | .axaddF32 r
  | .acas r | .xrdClr r => globalImmOk r.imm [0, 1, 2, 3]
  | .xrd r => globalImmOk r.imm [0, 1]
  | .waita _ r => globalImmOk r.imm [0, 1]
  | .fence r => globalImmOk r.imm [1, 2, 3] && decide (r.imm.toNat / 4096 = 0 ∧ r.imm.toNat % 128 = 0)
  | .rpush r | .rpushTry r | .rpop r | .rpopTry r => decide (r.imm.toNat / 64 = 0)
  | .agset _ r | .agctlStart r | .agctlStop r | .agctlRew r | .agctlStat r => decide (r.imm.toNat / 4 = 0)
  | .barx r | .bara r | .barw r => decide (r.imm.toNat < 96)
  | .qrsv r | .qput r | .qcan r | .qpop r => decide (r.imm.toNat / 4096 = 0)
  | _ => true

/-- The type that fixes how an S immediate widens (R55, R141): i8x4 and u8x4 take a byte. -/
def Instr.byteImm : Instr → Bool
  | .iadd _ t _ | .isub _ t _ | .imul _ t _ | .imin t _ | .imax t _ => t == .i8x4 || t == .u8x4
  | _ => false

/-- A breach in W2: a destination that the form does not write (R58), or an IMM16 rule (R55, R58, R119 and the entries). -/
def Instr.badW2 (i : Instr) : Bool :=
  match i.form with
  | none => false
  | some (f, r) =>
    let usesImm := r.a.isImm || r.b.isImm || r.c.isImm
    let usesSys := r.a.isSys || r.b.isSys || r.c.isSys
    (!f.d && r.dst.isSome) || (!f.p && r.pdst.isSome) || (!f.o && r.om != 0#8) ||
    (match f.role with
      | .none => r.imm != 0#16
      | .field => !i.immOk
      | _ => !usesImm && !usesSys && r.imm != 0#16) ||
    (usesImm && i.byteImm && decide (256 ≤ r.imm.toNat)) ||
    (usesSys && decide (0x22 < r.imm.toNat))

/-- A well-formed instruction: a rule word that breaks no field rule. An event of the device carries no word. -/
def Instr.wellFormed (i : Instr) : Bool :=
  match i.form with
  | none => true
  | some (_, r) => r.guard.wf && !i.badW0 && !i.badW1 && !i.badW2

/-- The forms that R70 bars from a rounded context. -/
def Instr.barredRounded : Instr → Bool
  | .aadd .. | .amin .. | .amax .. | .aand .. | .aor .. | .axor .. | .aswap .. | .amaxU64 _ | .axaddF32 _ | .acas _
  | .xrdClr _ | .waita .. | .barw _ | .qrsv _ | .qcan _ | .qpop _ => true
  | .qput r => r.a != .zero
  | _ => false

/-- The rounded commands that may have no destination (R232, R269, R302, R366). -/
def Instr.roundedNoDest : Instr → Bool
  | .tcpy r | .copy r | .launch r | .pdone r | .pfail r => !r.noDest
  | _ => false

end Sys2Proof
end

