-- ==== Sys2Proof/Decode.lean ====
section
/-!
DEFINITION. Decoding a rule word (R50 to R57, R62 to R69) and encoding one. Decoding is total; what is no legal rule word
is rejected by the word that fails first (R49).
-/

namespace Sys2Proof

/-- Why a word is no instruction: the first word that fails, in the order of R49, or too few bytes. -/
inductive DecodeError where
  | guardWord | operationWord | destinationWord | truncated
  deriving DecidableEq, Repr, Inhabited

/-- Bits [lo + n - 1 : lo] of a word. -/
def field (n lo : Nat) (w : Word) : BitVec n := w.extractLsb' lo n

def decChanCond (b : BitVec 2) : ChanCond :=
  match b.toNat with
  | 0 => .ignore
  | 1 => .data
  | 2 => .control
  | _ => .any

def encChanCond : ChanCond → BitVec 2
  | .ignore => 0
  | .data => 1
  | .control => 2
  | .any => 3

def decKind (b : BitVec 3) : Option Kind :=
  match b.toNat with
  | 0 => some .normal
  | 1 => some .init
  | 2 => some .drain
  | 3 => some .idle
  | _ => none

def encKind : Kind → BitVec 3
  | .normal => 0
  | .init => 1
  | .drain => 2
  | .idle => 3

/-- The guard word (R50); CT must be zero without CE (R58). -/
def decGuard (w0 : Word) : Option Guard :=
  match decKind (field 3 0 w0) with
  | none => none
  | some kind =>
    let ce := w0.getLsbD 3
    let ct := field 4 4 w0
    if !ce && ct != 0#4 then none
    else some
      { pm := field 8 24 w0, pv := field 8 16 w0,
        c0 := decChanCond (field 2 8 w0), c1 := decChanCond (field 2 10 w0),
        c2 := decChanCond (field 2 12 w0), c3 := decChanCond (field 2 14 w0),
        colour := if ce then some ct else none, kind }

def encGuard (g : Guard) : Word :=
  g.pm ++ g.pv ++ encChanCond g.c3 ++ encChanCond g.c2 ++ encChanCond g.c1 ++ encChanCond g.c0 ++
    (g.colour.getD 0#4) ++ BitVec.ofBool g.colour.isSome ++ encKind g.kind

/-- A source code (R54). -/
def decSrc (b : BitVec 4) : Src :=
  if b.toNat < 4 then .chan (b.setWidth 2)
  else if b.toNat < 12 then .reg (BitVec.ofNat 3 (b.toNat - 4))
  else if b.toNat = 12 then .imm
  else if b.toNat = 13 then .zero
  else if b.toNat = 14 then .pvec
  else .sys

def encSrc : Src → BitVec 4
  | .chan n => n.setWidth 4
  | .reg n => n.setWidth 4 + 4#4
  | .imm => 12
  | .zero => 13
  | .pvec => 14
  | .sys => 15

/-- A type code (R57). -/
def decTy (b : BitVec 4) : Option Ty :=
  match b.toNat with
  | 0 => some .i32
  | 1 => some .u32
  | 2 => some .i16x2
  | 3 => some .u16x2
  | 4 => some .i8x4
  | 5 => some .u8x4
  | 6 => some .f32
  | 7 => some .bf16x2
  | 8 => some .f16x2
  | 9 => some .e4m3x4
  | 10 => some .e5m2x4
  | 11 => some .e2m1x8
  | 12 => some .e8m0x4
  | _ => none

def encTy : Ty → BitVec 4
  | .i32 => 0
  | .u32 => 1
  | .i16x2 => 2
  | .u16x2 => 3
  | .i8x4 => 4
  | .u8x4 => 5
  | .f32 => 6
  | .bf16x2 => 7
  | .f16x2 => 8
  | .e4m3x4 => 9
  | .e5m2x4 => 10
  | .e2m1x8 => 11
  | .e8m0x4 => 12

def decMode (b : BitVec 3) : Option RMode :=
  match b.toNat with
  | 0 => some .rn
  | 1 => some .rz
  | 2 => some .rd
  | 3 => some .ru
  | 4 => some .sr
  | _ => none

def encMode : RMode → BitVec 3
  | .rn => 0
  | .rz => 1
  | .rd => 2
  | .ru => 3
  | .sr => 4

/-- The rounding field (R65). -/
def decRnd (fn : BitVec 5) : Option Rnd :=
  if fn.getLsbD 4 then none
  else match decMode (fn.setWidth 3) with
    | some mode => some { mode, sat := fn.getLsbD 3 }
    | none => none

def encRnd (m : Rnd) : BitVec 5 := 0#1 ++ BitVec.ofBool m.sat ++ encMode m.mode

def decSize (n : Nat) : Option Size :=
  match n with
  | 0 => some .b
  | 1 => some .h
  | 2 => some .w
  | _ => none

def encSize : Size → BitVec 5
  | .b => 0
  | .h => 1
  | .w => 2

def decICond (n : Nat) : Option ICond :=
  match n with
  | 0 => some .eq
  | 1 => some .ne
  | 2 => some .lt
  | 3 => some .le
  | 4 => some .gt
  | 5 => some .ge
  | _ => none

def encICond : ICond → BitVec 5
  | .eq => 0
  | .ne => 1
  | .lt => 2
  | .le => 3
  | .gt => 4
  | .ge => 5

def decFCond (n : Nat) : Option FCond :=
  match n with
  | 0 => some .eq
  | 1 => some .ne
  | 2 => some .lt
  | 3 => some .le
  | 4 => some .gt
  | 5 => some .ge
  | 6 => some .un
  | 7 => some .ord
  | _ => none

def encFCond : FCond → BitVec 5
  | .eq => 0
  | .ne => 1
  | .lt => 2
  | .le => 3
  | .gt => 4
  | .ge => 5
  | .un => 6
  | .ord => 7

def decPFn (n : Nat) : Option PFn :=
  match n with
  | 0 => some .and
  | 1 => some .or
  | 2 => some .xor
  | 3 => some .andn
  | 4 => some .mov
  | 5 => some .not
  | 6 => some .true
  | 7 => some .false
  | _ => none

def encPFn : PFn → BitVec 5
  | .and => 0
  | .or => 1
  | .xor => 2
  | .andn => 3
  | .mov => 4
  | .not => 5
  | .true => 6
  | .false => 7

def decSfu (n : Nat) : Option SfuFn :=
  match n with
  | 0 => some .rcp
  | 1 => some .rsq
  | 2 => some .sqrt
  | 3 => some .exp2
  | 4 => some .log2
  | 5 => some .sin
  | 6 => some .cos
  | 7 => some .sigm
  | 8 => some .tanh
  | _ => none

def encSfu : SfuFn → BitVec 5
  | .rcp => 0
  | .rsq => 1
  | .sqrt => 2
  | .exp2 => 3
  | .log2 => 4
  | .sin => 5
  | .cos => 6
  | .sigm => 7
  | .tanh => 8

def decSgn (n : Nat) : Option SgnFn :=
  match n with
  | 0 => some .copy
  | 1 => some .neg
  | 2 => some .abs
  | 3 => some .xsgn
  | _ => none

def encSgn : SgnFn → BitVec 5
  | .copy => 0
  | .neg => 1
  | .abs => 2
  | .xsgn => 3

def decShuf (n : Nat) : Option ShufFn :=
  match n with
  | 0 => some .idx
  | 1 => some .up
  | 2 => some .dn
  | 3 => some .xor
  | _ => none

def encShuf : ShufFn → BitVec 5
  | .idx => 0
  | .up => 1
  | .dn => 2
  | .xor => 3

def decTex (n : Nat) : Option TexFn :=
  match n with
  | 0 => some .pt
  | 1 => some .lin
  | 2 => some .tri
  | _ => none

def encTex : TexFn → BitVec 5
  | .pt => 0
  | .lin => 1
  | .tri => 2

def decColl (n : Nat) : Option CollFn :=
  match n with
  | 0 => some .arTree
  | 1 => some .arExact
  | 2 => some .rsTree
  | 3 => some .rsExact
  | 4 => some .ag
  | 5 => some .bc
  | _ => none

def encColl : CollFn → BitVec 5
  | .arTree => 0
  | .arExact => 1
  | .rsTree => 2
  | .rsExact => 3
  | .ag => 4
  | .bc => 5

/-- A form with the single function 0 and no type. -/
def only (fn ty : Nat) (i : Rule → Instr) : Option (Rule → Instr) :=
  if fn = 0 ∧ ty = 0 then some i else none

/-- A form with no type. -/
def untyped {α : Type} (ty : Nat) (f : Option α) (i : α → Rule → Instr) : Option (Rule → Instr) :=
  if ty = 0 then f.map i else none

/-- A form with a type. -/
def typed {α : Type} (ty : Option Ty) (f : Option α) (i : α → Ty → Rule → Instr) : Option (Rule → Instr) :=
  match ty, f with
  | some t, some x => some (i x t)
  | _, _ => none

/-- A yes/no function field. -/
def flag (fn : Nat) : Option Bool :=
  match fn with
  | 0 => some false
  | 1 => some true
  | _ => none

/-- The predicate that FN names (R63). -/
def predFn (fn : Nat) : Option (BitVec 3) := if fn < 8 then some (BitVec.ofNat 3 fn) else none

/-- The function 0 alone. -/
def zeroFn (fn : Nat) : Option Unit := if fn = 0 then some () else none

/-- The opcode map (R62 to R69): the operation of OPC, FN and TY, or nothing where the map lists none. Which types a form
accepts is checked by `Instr.tyOk`. -/
def decOp (opc : BitVec 7) (fn : BitVec 5) (ty : BitVec 4) : Option (Rule → Instr) :=
  let f := fn.toNat
  let t := ty.toNat
  let T := decTy ty
  match opc.toNat with
  | 0x00 => only f t .nop
  | 0x01 => only f t .mov
  | 0x02 => only f t .movh
  | 0x03 => untyped t (predFn f) .sel
  | 0x04 => typed T (flag f) .iadd
  | 0x05 => typed T (flag f) .isub
  | 0x06 => typed T (flag f) .imul
  | 0x07 => typed T (flag f) .imad
  | 0x08 => typed T (zeroFn f) fun _ => .imin
  | 0x09 => typed T (zeroFn f) fun _ => .imax
  | 0x0A => typed T (flag f) .iabs
  | 0x0B => typed T (predFn f) .iaddx
  | 0x0C => only f t .andw
  | 0x0D => only f t .orw
  | 0x0E => only f t .xorw
  | 0x0F => only f t .andnw
  | 0x10 => only f t .shl
  | 0x11 => only f t .shr
  | 0x12 => only f t .sar
  | 0x13 => only f t .rot
  | 0x14 => only f t .clz
  | 0x15 => only f t .popc
  | 0x16 => only f t .brev
  | 0x17 => untyped t (flag f) .bfx
  | 0x18 => only f t .bfi
  | 0x19 => typed T (decICond f) .icmp
  | 0x1A => untyped t (decPFn f) .pset
  | 0x1B => only f t .pget
  | 0x1C => typed T (flag f) .idiv
  | 0x1D => only f t .sys
  | 0x1E => untyped t (flag f) fun cr => if cr then .cntCr else .cntCh
  | 0x1F => typed T (flag f) .idot
  | 0x20 => only f t .steer
  | 0x21 => only f t .merge
  | 0x22 => untyped t ((flag f).map not) .gate
  | 0x23 => only f t .ctl
  | 0x24 => untyped t (flag f) fun tag => if tag then .sinkTag else .sink
  | 0x25 => untyped t (flag f) .tagc
  | 0x26 =>
    match f with
    | 0 => if t = 0 then some (.pack .lo) else none
    | 1 => if t = 0 then some (.pack .hi) else none
    | 2 => T.map fun ty => .pack (.sat ty)
    | _ => none
  | 0x27 => typed T (zeroFn f) fun _ => .unpk
  | 0x28 => untyped t (flag f) .seq
  | 0x29 => only f t .perm
  | 0x2A => untyped t (decShuf f) .shuf
  | 0x2B =>
    match f with
    | 0 => T.map fun ty => .tred (.add ty)
    | 1 => T.map fun ty => .tred (.min ty)
    | 2 => T.map fun ty => .tred (.max ty)
    | 3 => if t = 0 then some (.tred .and) else none
    | 4 => if t = 0 then some (.tred .or) else none
    | 5 => if t = 0 then some (.tred .xor) else none
    | _ => none
  | 0x2C => only f t .trap
  | 0x2D => only f t .brk
  | 0x2E => only f t .ret
  | 0x2F => only f t .delay
  | 0x30 => typed T (decRnd fn) .fadd
  | 0x31 => typed T (decRnd fn) .fsub
  | 0x32 => typed T (decRnd fn) .fmul
  | 0x33 => typed T (decRnd fn) .ffma
  | 0x34 => typed T (flag f) .fmin
  | 0x35 => typed T (flag f) .fmax
  | 0x36 => typed T (decSgn f) .fsgn
  | 0x37 => typed T (decFCond f) .fcmp
  | 0x38 =>
    match T, decTy (fn.setWidth 4) with
    | some s, some d => some (.fcvt s d (fn.getLsbD 4))
    | _, _ => none
  | 0x39 => typed T (decRnd fn) .fdot
  | 0x3A => if T = some .f32 then (decSfu f).map .fsfu else none
  | 0x3B => typed T (zeroFn f) fun _ => .fcls
  | 0x3C => typed T (decRnd fn) .fscl
  | 0x3D =>
    match T, decRnd fn with
    | some ty, some m => if m.sat then none else some (.frnd m.mode ty)
    | _, _ => none
  | 0x3E => if T = some .f32 then (decRnd fn).map .flrp else none
  | 0x3F => typed T (flag f) fun q => if q then .fxqQ else .fxqScale
  | 0x40 => if f < 4 then typed T (decSize f) .ld else typed T (decSize (f - 4)) .ldS
  | 0x41 => untyped t (decSize f) .st
  | 0x42 =>
    match f with
    | 0 => T.map .aadd
    | 1 => T.map .amin
    | 2 => T.map .amax
    | 3 => T.map .aand
    | 4 => T.map .aor
    | 5 => T.map .axor
    | 6 => T.map .aswap
    | 7 => if t = 0 then some .amaxU64 else none
    | 8 => if t = 0 then some .axaddF32 else none
    | _ => none
  | 0x43 => only f t .acas
  | 0x44 => untyped t (flag f) fun clr => if clr then .xrdClr else .xrd
  | 0x45 => untyped t (flag f) .waita
  | 0x46 => only f t .fence
  | 0x47 => typed T (decSize f) .lds
  | 0x48 => untyped t (decSize f) .sts
  | 0x49 => untyped t (flag f) fun tr => if tr then .rpushTry else .rpush
  | 0x4A => untyped t (flag f) fun tr => if tr then .rpopTry else .rpop
  | 0x4B => if f < 16 ∧ t = 0 then some (.agset (BitVec.ofNat 4 f)) else none
  | 0x4C =>
    if t = 0 then
      match f with
      | 0 => some .agctlStart
      | 1 => some .agctlStop
      | 2 => some .agctlRew
      | 3 => some .agctlStat
      | _ => none
    else none
  | 0x4D => only f t .trd
  | 0x4E => only f t .twr
  | 0x4F => untyped t (decTex f) .tex
  | 0x50 => only f t .wld
  | 0x51 => untyped t (flag f) fun sw => if sw then .sweepSwap else .sweep
  | 0x52 => only f t .cturn
  | 0x53 => only f t .copy
  | 0x54 => untyped t (flag f) fun rd => if rd then .semRd else .semSig
  | 0x55 =>
    if t = 0 then
      match f with
      | 0 => some .barx
      | 1 => some .bara
      | 2 => some .barw
      | _ => none
    else none
  | 0x56 => only f t .qrsv
  | 0x57 => untyped t (flag f) fun can => if can then .qcan else .qput
  | 0x58 => only f t .qpop
  | 0x59 => only f t .launch
  | 0x5A =>
    if t = 0 then
      match f with
      | 0 => some .pdone
      | 1 => some .pfail
      | 2 => some .pstat
      | _ => none
    else none
  | 0x5B =>
    if t = 0 then
      match f with
      | 0 => some .isectBox4
      | 1 => some .isectTri
      | 2 => some .isectRib
      | 3 => some .isectTube
      | 4 => some .isectBlp
      | _ => none
    else none
  | 0x5C => only f t .cover
  | 0x5D => untyped t (decColl f) .cllct
  | 0x5E => only f t .tcpy
  | 0x5F => untyped t (flag f) fun dump => if dump then .dbgDump else .dbgMark
  | _ => none

/-- Decode the three words of a rule (R49's order: W0, then W1, then W2). -/
def decode (w0 w1 w2 : Word) : Except DecodeError Instr :=
  match decGuard w0 with
  | none => .error .guardWord
  | some guard =>
    if !guard.wf then .error .guardWord
    else match decOp (field 7 25 w1) (field 5 20 w1) (field 4 0 w1) with
    | none => .error .operationWord
    | some op =>
      let i := op
        { guard, a := decSrc (field 4 16 w1), b := decSrc (field 4 12 w1), c := decSrc (field 4 8 w1),
          dq := field 4 4 w1, om := field 8 24 w2,
          dst := if w2.getLsbD 23 then some (field 3 20 w2) else none,
          pdst := if w2.getLsbD 19 then some (field 3 16 w2) else none,
          imm := field 16 0 w2 }
      if i.badW0 then .error .guardWord
      else if i.badW1 then .error .operationWord
      else if (!w2.getLsbD 23 && field 3 20 w2 != 0#3) || (!w2.getLsbD 19 && field 3 16 w2 != 0#3) || i.badW2 then
        .error .destinationWord
      else .ok i

/-- A little-endian 32-bit word at the head of a list of bytes (R3). -/
def takeWord : List Byte → Option (Word × List Byte)
  | b0 :: b1 :: b2 :: b3 :: rest => some (b3 ++ b2 ++ b1 ++ b0, rest)
  | _ => none

/-- Decode the 12 bytes of a stored rule (R53), answering the bytes that are left. -/
def decodeBytes (bs : List Byte) : Except DecodeError (Instr × List Byte) :=
  match takeWord bs with
  | none => .error .truncated
  | some (w0, r0) =>
    match takeWord r0 with
    | none => .error .truncated
    | some (w1, r1) =>
      match takeWord r1 with
      | none => .error .truncated
      | some (w2, r2) =>
        match decode w0 w1 w2 with
        | .ok i => .ok (i, r2)
        | .error e => .error e

/-- OPC, FN and TY of each rule instruction (R63 to R69). -/
def Instr.op : Instr → BitVec 7 × BitVec 5 × BitVec 4
  | .nop _ => (0x00, 0, 0)
  | .mov _ => (0x01, 0, 0)
  | .movh _ => (0x02, 0, 0)
  | .sel p _ => (0x03, p.setWidth 5, 0)
  | .iadd s t _ => (0x04, (BitVec.ofBool s).setWidth 5, encTy t)
  | .isub s t _ => (0x05, (BitVec.ofBool s).setWidth 5, encTy t)
  | .imul h t _ => (0x06, (BitVec.ofBool h).setWidth 5, encTy t)
  | .imad s t _ => (0x07, (BitVec.ofBool s).setWidth 5, encTy t)
  | .imin t _ => (0x08, 0, encTy t)
  | .imax t _ => (0x09, 0, encTy t)
  | .iabs s t _ => (0x0A, (BitVec.ofBool s).setWidth 5, encTy t)
  | .iaddx p t _ => (0x0B, p.setWidth 5, encTy t)
  | .andw _ => (0x0C, 0, 0)
  | .orw _ => (0x0D, 0, 0)
  | .xorw _ => (0x0E, 0, 0)
  | .andnw _ => (0x0F, 0, 0)
  | .shl _ => (0x10, 0, 0)
  | .shr _ => (0x11, 0, 0)
  | .sar _ => (0x12, 0, 0)
  | .rot _ => (0x13, 0, 0)
  | .clz _ => (0x14, 0, 0)
  | .popc _ => (0x15, 0, 0)
  | .brev _ => (0x16, 0, 0)
  | .bfx s _ => (0x17, (BitVec.ofBool s).setWidth 5, 0)
  | .bfi _ => (0x18, 0, 0)
  | .icmp c t _ => (0x19, encICond c, encTy t)
  | .pset f _ => (0x1A, encPFn f, 0)
  | .pget _ => (0x1B, 0, 0)
  | .idiv rm t _ => (0x1C, (BitVec.ofBool rm).setWidth 5, encTy t)
  | .sys _ => (0x1D, 0, 0)
  | .cntCh _ => (0x1E, 0, 0)
  | .cntCr _ => (0x1E, 1, 0)
  | .idot s t _ => (0x1F, (BitVec.ofBool s).setWidth 5, encTy t)
  | .steer _ => (0x20, 0, 0)
  | .merge _ => (0x21, 0, 0)
  | .gate onTrue _ => (0x22, (BitVec.ofBool !onTrue).setWidth 5, 0)
  | .ctl _ => (0x23, 0, 0)
  | .sink _ => (0x24, 0, 0)
  | .sinkTag _ => (0x24, 1, 0)
  | .tagc byReg _ => (0x25, (BitVec.ofBool byReg).setWidth 5, 0)
  | .pack .lo _ => (0x26, 0, 0)
  | .pack .hi _ => (0x26, 1, 0)
  | .pack (.sat t) _ => (0x26, 2, encTy t)
  | .unpk t _ => (0x27, 0, encTy t)
  | .seq d _ => (0x28, (BitVec.ofBool d).setWidth 5, 0)
  | .perm _ => (0x29, 0, 0)
  | .shuf f _ => (0x2A, encShuf f, 0)
  | .tred (.add t) _ => (0x2B, 0, encTy t)
  | .tred (.min t) _ => (0x2B, 1, encTy t)
  | .tred (.max t) _ => (0x2B, 2, encTy t)
  | .tred .and _ => (0x2B, 3, 0)
  | .tred .or _ => (0x2B, 4, 0)
  | .tred .xor _ => (0x2B, 5, 0)
  | .trap _ => (0x2C, 0, 0)
  | .brk _ => (0x2D, 0, 0)
  | .ret _ => (0x2E, 0, 0)
  | .delay _ => (0x2F, 0, 0)
  | .fadd m t _ => (0x30, encRnd m, encTy t)
  | .fsub m t _ => (0x31, encRnd m, encTy t)
  | .fmul m t _ => (0x32, encRnd m, encTy t)
  | .ffma m t _ => (0x33, encRnd m, encTy t)
  | .fmin n t _ => (0x34, (BitVec.ofBool n).setWidth 5, encTy t)
  | .fmax n t _ => (0x35, (BitVec.ofBool n).setWidth 5, encTy t)
  | .fsgn f t _ => (0x36, encSgn f, encTy t)
  | .fcmp c t _ => (0x37, encFCond c, encTy t)
  | .fcvt s d sat _ => (0x38, BitVec.ofBool sat ++ encTy d, encTy s)
  | .fdot m t _ => (0x39, encRnd m, encTy t)
  | .fsfu f _ => (0x3A, encSfu f, 6)
  | .fcls t _ => (0x3B, 0, encTy t)
  | .fscl m t _ => (0x3C, encRnd m, encTy t)
  | .frnd m t _ => (0x3D, encRnd { mode := m, sat := false }, encTy t)
  | .flrp m _ => (0x3E, encRnd m, 6)
  | .fxqScale t _ => (0x3F, 0, encTy t)
  | .fxqQ t _ => (0x3F, 1, encTy t)
  | .ld z t _ => (0x40, encSize z, encTy t)
  | .ldS z t _ => (0x40, encSize z + 4#5, encTy t)
  | .st z _ => (0x41, encSize z, 0)
  | .aadd t _ => (0x42, 0, encTy t)
  | .amin t _ => (0x42, 1, encTy t)
  | .amax t _ => (0x42, 2, encTy t)
  | .aand t _ => (0x42, 3, encTy t)
  | .aor t _ => (0x42, 4, encTy t)
  | .axor t _ => (0x42, 5, encTy t)
  | .aswap t _ => (0x42, 6, encTy t)
  | .amaxU64 _ => (0x42, 7, 0)
  | .axaddF32 _ => (0x42, 8, 0)
  | .acas _ => (0x43, 0, 0)
  | .xrd _ => (0x44, 0, 0)
  | .xrdClr _ => (0x44, 1, 0)
  | .waita e _ => (0x45, (BitVec.ofBool e).setWidth 5, 0)
  | .fence _ => (0x46, 0, 0)
  | .lds z t _ => (0x47, encSize z, encTy t)
  | .sts z _ => (0x48, encSize z, 0)
  | .rpush _ => (0x49, 0, 0)
  | .rpushTry _ => (0x49, 1, 0)
  | .rpop _ => (0x4A, 0, 0)
  | .rpopTry _ => (0x4A, 1, 0)
  | .agset n _ => (0x4B, n.setWidth 5, 0)
  | .agctlStart _ => (0x4C, 0, 0)
  | .agctlStop _ => (0x4C, 1, 0)
  | .agctlRew _ => (0x4C, 2, 0)
  | .agctlStat _ => (0x4C, 3, 0)
  | .trd _ => (0x4D, 0, 0)
  | .twr _ => (0x4E, 0, 0)
  | .tex f _ => (0x4F, encTex f, 0)
  | .wld _ => (0x50, 0, 0)
  | .sweep _ => (0x51, 0, 0)
  | .sweepSwap _ => (0x51, 1, 0)
  | .cturn _ => (0x52, 0, 0)
  | .copy _ => (0x53, 0, 0)
  | .semSig _ => (0x54, 0, 0)
  | .semRd _ => (0x54, 1, 0)
  | .barx _ => (0x55, 0, 0)
  | .bara _ => (0x55, 1, 0)
  | .barw _ => (0x55, 2, 0)
  | .qrsv _ => (0x56, 0, 0)
  | .qput _ => (0x57, 0, 0)
  | .qcan _ => (0x57, 1, 0)
  | .qpop _ => (0x58, 0, 0)
  | .launch _ => (0x59, 0, 0)
  | .pdone _ => (0x5A, 0, 0)
  | .pfail _ => (0x5A, 1, 0)
  | .pstat _ => (0x5A, 2, 0)
  | .isectBox4 _ => (0x5B, 0, 0)
  | .isectTri _ => (0x5B, 1, 0)
  | .isectRib _ => (0x5B, 2, 0)
  | .isectTube _ => (0x5B, 3, 0)
  | .isectBlp _ => (0x5B, 4, 0)
  | .cover _ => (0x5C, 0, 0)
  | .cllct f _ => (0x5D, encColl f, 0)
  | .tcpy _ => (0x5E, 0, 0)
  | .dbgMark _ => (0x5F, 0, 0)
  | .dbgDump _ => (0x5F, 1, 0)
  | _ => (0, 0, 0)

def encDest (d : Option (BitVec 3)) : BitVec 4 := BitVec.ofBool d.isSome ++ d.getD 0#3

/-- The operation word (R51). -/
def encW1 (op : BitVec 7 × BitVec 5 × BitVec 4) (r : Rule) : Word :=
  op.1 ++ op.2.1 ++ encSrc r.a ++ encSrc r.b ++ encSrc r.c ++ r.dq ++ op.2.2

/-- The destination word (R52). -/
def encW2 (r : Rule) : Word := r.om ++ encDest r.dst ++ encDest r.pdst ++ r.imm

/-- The three words of a rule instruction; an event of the device has none. -/
def encode (i : Instr) : Option (Word × Word × Word) :=
  match i.form with
  | none => none
  | some (_, r) => some (encGuard r.guard, encW1 i.op r, encW2 r)

/-- The words of an instruction whose bits are `w`: W0 is bits [31:0], W1 bits [63:32], W2 bits [95:64], each stored
little-endian, W0 at the lowest address (R53). Bits at and above `nbits` are zero. -/
def tableWords (nbits w : Nat) : Word × Word × Word :=
  let v := w % 2 ^ nbits
  (BitVec.ofNat 32 v, BitVec.ofNat 32 (v / 2 ^ 32), BitVec.ofNat 32 (v / 2 ^ 64))

/-- The instruction that the decoder reads from a word of the opcode table. -/
def decodeTableWord (nbits w : Nat) : Option Instr :=
  let (w0, w1, w2) := tableWords nbits w
  match decode w0 w1 w2 with
  | .ok i => some i
  | .error _ => none

end Sys2Proof
end

