-- ==== Sys2Proof/Machine/State.lean ====
section
/-!
DEFINITION. The state of the machine, as plain data, the reasons a step can stop, and the state after reset. INVENTORY.md
names for each piece the rule that gives it. Numbers that name hardware units:

* a region is 32 × core + slot, with the core numbered 0 to 63 within the package (R421);
* a logical tile is 8 × ty + tx, a logical element 16 × tile + 4 × ey + ex;
* a physical tile is 128 × core + 8 × ty + tx, a physical element 16 × physical tile + 4 × ey + ex;
* a generator of a region is 4 × logical tile + number;
* a memory location is stack × 48 GiB + byte within the stack (R336).
-/

namespace Sys2Proof.Machine

/-- A table: keys with their values, the keys ascending; an unlisted key reads as the reader's default. -/
abbrev Tab (α : Type) := List (Nat × α)

/-- Why the machine stops. -/
inductive Fault where
  /-- Raised by `step` when the words of a chosen slot are no instruction. The frame loader refuses such words (R58), so no
  state that a launch makes reaches it. Safe. -/
  | illegalWord (w0 w1 w2 : Word)
  deriving DecidableEq, Repr, Inhabited

/-- Why the model gives no meaning. -/
inductive Refusal where
  /-- Raised by an arm of `exec` whose instruction has no meaning yet, by name. Safe. -/
  | notModelled (mnemonic : String)
  deriving DecidableEq, Repr, Inhabited

/-- A predicate (R16). -/
inductive Pred where
  | f | t | pending
  deriving DecidableEq, Repr, Inhabited

/-- What a token came by: nothing (a token placed by a test), a route, a generator, or the corner-turn node of a logical memory
tile (R23, R168, R247). -/
inductive Via where
  | none
  | route (c : CtxId) (o : Nat)
  | gen (region g : Nat)
  | node (region tile : Nat)
  deriving DecidableEq, Repr, Inhabited

/-- A token in a channel (R10, R18). -/
structure Token where
  payload : Word
  tag : Byte
  via : Via := .none
  deriving DecidableEq, Repr, Inhabited

/-- A rule slot (R53). -/
structure Slot where
  w0 : Word
  w1 : Word
  w2 : Word
  deriving DecidableEq, Repr, Inhabited

/-- A fault record (R197); `info` is its bytes 0x20 to 0x2F. -/
structure Rec where
  cls : Nat
  flags : Nat := 0
  lease : Nat := 0
  seq : Nat := 0
  tx : Nat := 0
  ty : Nat := 0
  exy : Nat := 0
  ks : Nat := 0
  wsel : Nat := 15
  inst : Nat := 0
  round : Word := 0#32
  word : Word := 0#32
  va : Nat := 0
  info : List Byte := []
  lrec : Nat := 0
  cyc : Nat := 0
  deriving DecidableEq, Repr, Inhabited

/-- Why an element is frozen (R44 to R46). -/
inductive Freeze where
  | no
  /-- A trap or breakpoint of this cycle freezes the element from the next cycle; the record named (R136). -/
  | soon (id : Nat)
  /-- A firing of this cycle was cancelled by a fault: its element, or chain, is frozen from the next cycle (R44); the record named. -/
  | faulted (id : Nat)
  /-- A firing of this cycle was cancelled on a procedural fill: as `fill` from the next cycle (R45). -/
  | missed (c : CtxId) (slot : Nat)
  /-- The record named has not been posted yet. -/
  | waiting (id : Nat)
  /-- The record is posted; RESUME unfreezes. -/
  | posted
  /-- Waits on a procedural fill; the slot of the context re-issues its access when the fill ends. -/
  | fill (c : CtxId) (slot : Nat)
  deriving DecidableEq, Repr, Inhabited

/-- An element (R15): four channels, the context pointer, and its freeze, with the region whose firing froze it. -/
structure Elem where
  ch : List (List Token) := [[], [], [], []]
  ptr : Nat := 0
  freeze : Freeze := .no
  owner : Nat := 0
  /-- Earlier freezes that stand as well, each with its region (R45, R46). -/
  under : List (Freeze × Nat) := []
  /-- Has fired in this cycle (R29). -/
  spent : Bool := false
  deriving DecidableEq, Repr, Inhabited

/-- A context (R15). -/
structure Ctx where
  el : Nat
  k : Nat
  word : Word
  cred : Word := 0#32
  init : Word := 0#32
  routes : List Word := []
  slots : List Slot := []
  regs : List Word := List.replicate 8 0#32
  preds : List Pred := List.replicate 8 Pred.f
  /-- Registers with a write in flight (R36). -/
  busy : BitVec 8 := 0#8
  credits : List Nat := List.replicate 8 0
  armed : BitVec 16 := 0#16
  rot : Nat := 0
  /-- The rounding counter (R103). -/
  rcnt : Word := 0#32
  /-- The CYCL latch (R119). -/
  cych : Word := 0#32
  /-- Committed rounds (R180). -/
  rndn : Word := 0#32
  retired : Bool := false
  /-- A retirement fired in the open round, which takes effect at its commit (R138). -/
  retiring : Bool := false
  /-- Traps or breakpoints fired in the open round, whose records are posted at its commit (R136, R137). -/
  traps : List Rec := []
  /-- A trap or breakpoint record that waits for its resume stops the context (R136, R137). -/
  trapped : Bool := false
  actor : Nat := 0
  /-- The logical element of the launch's frame image (R9, R102). -/
  home : Nat := 0
  homeK : Nat := 0
  /-- Starvation counts by slot (R192). -/
  starv : List Nat := []
  /-- The slots that a chain leader fired in the last chain cycles, newest first (R40). -/
  hist : List (Option Nat) := []
  /-- In step mode, the members of the chain that still owe a firing of the present chain cycle (R393). -/
  owed : List Nat := []
  deriving DecidableEq, Repr, Inhabited

/-- A window (R201). -/
structure Window where
  base : Nat := 0
  limit : Nat := 0
  v : Bool := false
  ro : Bool := false
  deriving DecidableEq, Repr, Inhabited

/-- A scratchpad buffer: its logical memory tile, base and size (R76). -/
structure Buf where
  tile : Nat
  base : Nat
  size : Nat
  deriving DecidableEq, Repr, Inhabited

/-- The counters of a ring as one round set sees them, and the head of its last commit (R184). -/
structure RView where
  head : Word
  tail : Word
  committed : Word
  deriving DecidableEq, Repr, Inhabited

/-- A ring (R77, R167): the counters that agents outside a round set see, and the views of round sets, by region. -/
structure Ring where
  buf : Nat
  cap : Nat
  head : Word
  tail : Word
  views : Tab RView := []
  deriving DecidableEq, Repr, Inhabited

/-- Where a generator's demand read stands (R226, R282). -/
inductive Fetch where
  /-- No read is under way. -/
  | idle
  /-- The demand read of a token that came due has been issued, and is outstanding (R282). -/
  | reading
  /-- The token's word is at the generator. -/
  | ready (w : Word)
  /-- Stalled on a procedural fill. -/
  | fill
  deriving DecidableEq, Repr, Inhabited

/-- A generator (R168, R223). -/
structure Gen where
  p : List Word := List.replicate 16 0#32
  pos : Nat := 0
  running : Bool := false
  /-- Stopped by a fault; RESUME restarts it (R226). -/
  faulted : Bool := false
  quota : Nat := 0
  /-- Belongs to the round set (R168). -/
  rounded : Bool := false
  starter : CtxId := default
  slot : Nat := 0
  credits : Nat := 0
  fetch : Fetch := .idle
  /-- The read under way is of a stream that has been stopped since: it is outstanding, and its data is dropped (R282, log 89). -/
  old : Bool := false
  /-- The stack whose indirect stream engine holds a context for it (R349). -/
  eng : Option Nat := none
  deriving DecidableEq, Repr, Inhabited

/-- Who issued a command or an access, as its records and replies name it (R197, R256). -/
structure Origin where
  ctx : CtxId := default
  slot : Nat := 0
  lease : Nat := 0
  gang : Nat := 0
  inst : Nat := 0
  rounded : Bool := false
  deriving DecidableEq, Repr, Inhabited

/-- A command on its way to an engine (R256): the command's words, and the locator and adjust words it was made from.
`req` names the direct request it answers, zero for a drained entry. -/
structure Packet where
  id : Nat := 0
  opc : Nat
  fn : Nat := 0
  org : Origin := {}
  req : Nat := 0
  cmd : List Word := []
  loc : Word := 0#32
  adj : Word := 0#32
  /-- Its wait has been met (R258). -/
  met : Bool := false
  /-- A fault had paused it when it was saved: RESUME retries it in its new place too (R274, R457). -/
  paused : Bool := false
  deriving DecidableEq, Repr, Inhabited

/-- A corner-turn node that is attached (R247). -/
structure Node where
  pkt : Packet
  edge : Nat
  ctx : CtxId
  o : Nat
  n : Nat
  blk : Nat
  fifo : List Token := []
  store : List Token := []
  emitting : Bool := false
  pos : Nat := 0
  blocks : Nat := 0
  /-- Credits that the node holds at the target (R247). -/
  credits : Nat := 0
  /-- Its last block has been emitted: it detaches in the next cycle (R247). -/
  detached : Bool := false
  deriving DecidableEq, Repr, Inhabited

/-- The states of a shadow plane (R237); an active plane is `empty`, `ready` or `bad`. -/
inductive PlaneSt where
  | empty | loading | ready | bad | claimed
  deriving DecidableEq, Repr, Inhabited

/-- A weight plane (R236): 1,024 weight bytes and 64 scale bytes, its format and its state. -/
structure Plane where
  bytes : List Byte := []
  fmt : Nat := 0
  st : PlaneSt := .empty
  /-- Loaded without uncorrectable data. -/
  valid : Bool := false
  deriving DecidableEq, Repr, Inhabited

/-- A tile of a sweep (R241). `took` is the cycle in which it took the token, `beats` the beats taken, `rows` the results
on their way to the tile store with the cycle of their write, `dead` the first beat it does not perform; `next` is the earliest cycle
of its next beat, but for the lateness of that beat's row, and `last` the cycle of its last beat. -/
structure SweepTile where
  tile : Nat
  offered : Option Nat := none
  took : Option Nat := none
  beats : Nat := 0
  rows : List (Nat × Nat × List Word) := []
  dead : Option Nat := none
  next : Nat := 0
  last : Option Nat := none
  deriving DecidableEq, Repr, Inhabited

/-- A sweep that has been sent (R238, R241). -/
structure Sweep where
  id : Nat
  pkt : Packet
  serial : Nat
  sent : Nat
  /-- Rows sent on the row bus, each with its bytes and scales and the cycle it was sent. -/
  rows : List (Nat × List Byte × List Byte) := []
  /-- By how many cycles each row sent delays its beat, and every later one, at every tile (R241). -/
  lates : List Nat := []
  /-- The cycle of the last row sent. -/
  rowAt : Option Nat := none
  /-- The first row that is not sent because its data is uncorrectable (R250). -/
  badRow : Option Nat := none
  tiles : List SweepTile := []
  fault : Bool := false
  deriving DecidableEq, Repr, Inhabited

/-- A WLD that has been sent (R237, R243). -/
structure Load where
  id : Nat
  pkt : Packet
  start : Nat
  /-- Tiles still to load, in ascending i. -/
  tiles : List Nat
  done : Nat := 0
  /-- Beats of the present tile that its column bus has carried (R238). -/
  beats : Nat := 0
  fault : Bool := false
  deriving DecidableEq, Repr, Inhabited

/-- A global access past its checks (R202): the operation, its address, home location and size, and its operands. -/
inductive GOp where
  | ld (signed : Bool)
  | ldS (signed : Bool)
  | st
  | atom (f : Nat) (signed : Bool)
  | amax64
  | axadd
  | acas
  | xrd
  | xrdClr
  | waita (eq : Bool)
  | pop
  deriving DecidableEq, Repr, Inhabited

structure GAcc where
  op : GOp
  va : Nat
  loc : Nat
  size : Nat
  win : Nat := 0
  off : Nat := 0
  a : Word := 0#32
  b : Word := 0#32
  /-- A release at .die or wider (R290). -/
  wide : Bool := false
  deriving DecidableEq, Repr, Inhabited

/-- What a store-buffer entry performs at its drain (R182, R187). -/
inductive Held where
  /-- Bytes at a home location (ST): location, virtual address, bytes, and whether it is a wide release. -/
  | st (loc va : Nat) (bytes : List Byte) (wide : Bool)
  /-- Bytes of scratchpad, by physical key (STS, an accepting ISECT). -/
  | spad (key : Nat) (bytes : List Byte)
  /-- A tile-store word, by physical key (TWR). -/
  | twr (key : Nat) (w : Word)
  /-- A TCPY: row word and buffer word. -/
  | tcpy (rw bw : Word)
  /-- An engine command, LAUNCH or QPUT. -/
  | cmd (p : Packet)
  deriving DecidableEq, Repr, Inhabited

/-- One entry of a half of the store buffer. -/
structure Entry where
  /-- The firings of the machine in order, so that the newest of two entries is known (R183). -/
  age : Nat
  org : Origin
  size : Nat
  eff : Held
  /-- Its block has been evicted: it performs nothing at the drain (R365). -/
  lost : Bool := false
  deriving DecidableEq, Repr, Inhabited

/-- A half of the store buffer (R165, R185, R187). `wait` names the packet or wide release whose end the drain awaits. -/
structure Half where
  entries : List Entry := []
  bytes : Nat := 0
  wait : Option Nat := none
  /-- The wide release that the entry at the head calls for is complete (R290). -/
  released : Bool := false
  deriving DecidableEq, Repr, Inhabited

/-- A token on a route (R24), or a place that a firing has reserved for one (R19, R23). `own` names the firing. -/
structure Flit where
  id : Nat
  own : Nat
  ctx : CtxId
  o : Nat
  /-- The corner-turn node (region, logical tile) that the token travels to, if one was attached at the firing. -/
  node : Option (Nat × Nat) := none
  /-- The node has detached since: the token goes on from it to the route's target, this many cycles away (R247). -/
  past : Option Nat := none
  /-- It still waits, at that node, for a credit of the target (R247). -/
  owes : Bool := false
  filled : Bool := false
  payload : Word := 0#32
  tag : Byte := 0#8
  arrive : Nat := 0
  deriving DecidableEq, Repr, Inhabited

/-- What a commit records (R187). -/
structure Shadow where
  ctxs : List Ctx
  chans : List (Nat × List Token)
  /-- The generators of the round set; and those outside it that a firing of the open round has changed, as they were (R227). -/
  gens : Tab Gen
  nodes : Tab Node
  /-- Tokens left at nodes that have detached (R248). -/
  late : List Flit := []
  /-- Checkpoint tokens of the round set that were still to be placed (R389). -/
  ckpt : List (Via × List Token)
  deriving DecidableEq, Repr, Inhabited

/-- The round set's round (R180 to R189). -/
structure Round where
  /-- Rounds committed. -/
  n : Nat := 0
  isOpen : Bool := false
  /-- The round closed early (R185). -/
  early : Bool := false
  /-- Voided, and held until RESUME (R189). -/
  held : Bool := false
  /-- Voided by the brake without a record (R382): it opens again once the brake is off. -/
  quiet : Bool := false
  /-- Half that is drained first, then the other (R187). -/
  drain : List Nat := []
  h0 : Half := {}
  h1 : Half := {}
  shadow : Option Shadow := none
  deriving DecidableEq, Repr, Inhabited

/-- Who applied the brake, and when (R382, R384). -/
structure Brake where
  by_ : BrakeBy
  since : Nat
  deriving DecidableEq, Repr, Inhabited

/-- A placed region (R173 to R176). -/
structure Region where
  gang : Nat
  inst : Nat
  /-- 65,536 until the loader has assigned one (R193). -/
  lease : Nat
  /-- Contexts are enabled (cycle E of R174 has come). -/
  on : Bool := true
  /-- Killed: contexts fire nothing, and the core waits to release (R194). -/
  dead : Bool := false
  wx : Nat
  wy : Nat
  /-- Physical tile of each logical tile position, by 8 × ty + tx; positions outside the region are not listed. -/
  tmap : Tab Nat
  cog : Nat := 0
  ctxs : List Ctx := []
  wins : List Window := []
  bufs : List Buf := []
  rings : List Ring := []
  /-- Edge IDs with their names (R78). -/
  edges : List (Nat × List Byte) := []
  /-- First claimed row and number of rows in each compute tile, by logical tile (R171). -/
  rows : Nat := 0
  rowBase : Tab Nat := []
  gens : Tab Gen := []
  nodes : Tab Node := []
  /-- Systolic and corner-turn queues, by logical memory tile (R243). -/
  queues : Tab (List Packet) := []
  /-- Active and shadow planes, by logical tile (R237). -/
  active : Tab Plane := []
  shadow : Tab Plane := []
  /-- Row and column buses claimed (R172, R234). -/
  rowBus : List Nat := []
  colBus : List Nat := []
  round : Round := {}
  brake : Option Brake := none
  /-- Cycle from which the agent that braked chooses again, after a brake failure (R384). -/
  rechoose : Option (Nat × BrakeBy) := none
  /-- The gang for whose place the dispatcher braked the region (R373, R381). -/
  claimant : Option Nat := none
  /-- Cycles without progress (R191), and whether region stalled has been posted since the last firing. -/
  stall : Nat := 0
  stalled : Bool := false
  /-- Step mode (R393): a step may be taken; a step is under way; the region is held at the end of one. -/
  stepGo : Bool := false
  stepping : Bool := false
  stepHeld : Bool := false
  /-- Requests and write-backs of the step's one event have this name or a later one (R393). -/
  stepFrom : Nat := 0
  /-- Checkpoint tokens still to place (R389): the route or generator, and the tokens. -/
  ckpt : List (Via × List Token) := []
  /-- Whether any slot of the region fired in this cycle (R191). -/
  fired : Bool := false
  deriving DecidableEq, Repr, Inhabited

/-- The registers of a region slot that outlive the region (R195, R392). -/
structure RReg where
  state : Nat := 0
  lease : Nat := 0
  starve : Bool := false
  stall : Bool := false
  dlcfg : Word := 0x00001014#32
  drops : Nat := 0
  disc : Nat := 0
  fqcnt : Nat := 0
  rdbg : Word := 0#32
  deriving DecidableEq, Repr, Inhabited

/-- What a write-back writes (R35): the result, the predicate result, whether register and routes take it (R47), and the
kind, colour and routes of its tokens. -/
structure Done where
  res : Word := 0#32
  pres : Bool := false
  good : Bool := true
  om : BitVec 8 := 0#8
  control : Bool := false
  colour : BitVec 4 := 0#4
  deriving DecidableEq, Repr, Inhabited

/-- A firing that awaits its write-back at the end of cycle `due` (R35, R36). -/
structure WB where
  id : Nat
  ctx : CtxId
  slot : Nat
  due : Nat
  dst : Option (BitVec 3)
  pdst : Option (BitVec 3)
  om : BitVec 8
  done : Done
  idiv : Bool := false
  /-- Rounds under .sr: advances the rounding counter at its write-back (R103). -/
  sr : Bool := false
  /-- A memory firing of fixed latency, outstanding until then (R205); `read` says that it reads. -/
  mem : Bool := false
  read : Bool := false
  /-- The tile-store word of a TRD that waits for its tile's store (R230). -/
  port : Option Nat := none
  /-- Executed once more after a residue mismatch; whether that meets a second one (R442). -/
  redo : Option Bool := none
  deriving DecidableEq, Repr, Inhabited

/-- A credit on its way back to a route or generator (R23). -/
structure CredRet where
  id : Nat
  dest : Via
  at_ : Nat
  deriving DecidableEq, Repr, Inhabited

/-- What a parked request waits for (R220, R292, R308). -/
inductive Park where
  | push (region ring : Nat) (v : Word)
  | pop (region ring : Nat)
  /-- `woken` is the word that the waking write left (R293). -/
  | waita (acc : GAcc) (timeout : Nat) (woken : Option Word)
  | barw (core bar : Nat) (t : Word)
  | qrsv (die q : Nat)
  | qpop (die q : Nat) (loc : Word)
  | qput (die q : Nat) (item : List Byte)
  /-- A QPUT of a ticket, and a QCAN, which wait only for a queue's clear (R312). -/
  | qtick (die q : Nat) (t : Word) (item : List Byte)
  | qcan (die q : Nat) (t : Word)
  deriving DecidableEq, Repr, Inhabited

/-- What a request does once its wide release is complete (R290, R320). -/
inductive AfterWide where
  | access (acc : GAcc)
  /-- A FENCE; `acq` says that it waits for the replies of earlier reads (R205). -/
  | fence (acq : Bool)
  | send (p : Packet)
  | queue (p : Park)
  | pdone
  deriving DecidableEq, Repr, Inhabited

/-- Where an outstanding request stands (R38, R205). -/
inductive Stage where
  /-- Performed; the reply is on its way. -/
  | reply (d : Done)
  /-- Performed with a fault that is found at the reply (R47, R310, R424). -/
  | bad (r : Rec) (d : Done)
  /-- Performed; the acknowledgement is on its way. -/
  | ack
  /-- A TWR that waits for its tile's store: the word's key and value (R230). -/
  | store (key : Nat) (w : Word)
  /-- A direct TCPY (R232): the bytes it copies in all, DIR, the rows left, and the keys of the next row and of its bytes. -/
  | tcpy (bytes : Nat) (into : Bool) (left row buf : Nat)
  /-- An access that waits for its turn (R204) or for a link that retrains (R423). -/
  | held (acc : GAcc)
  /-- Waits for the wide release named. -/
  | wide (w : Nat) (next : AfterWide)
  | parked (p : Park)
  /-- Its packet waits for acceptance, or to be performed. -/
  | sent
  /-- Waits on a procedural fill (R207). -/
  | fill (acc : GAcc)
  /-- A TEX that waits on a procedural fill (R415). -/
  | texFill (f : TexFn) (slot : Nat) (u v l : Word)
  /-- An ISECT that waits on a procedural fill (R207): its form, locator and offset. -/
  | isectFill (fn : Nat) (ray off : Word)
  /-- Has not reached its queue: it waits for the end of the enable-time clear (R312) or of a link's retraining (R423). -/
  | queueClear (p : Park)
  /-- A FENCE; `acq` says that it waits for the replies of earlier reads (R205). -/
  | fence (acq : Bool)
  deriving DecidableEq, Repr, Inhabited

/-- An outstanding request of a firing (R205). -/
structure Req where
  id : Nat
  org : Origin
  dst : Option (BitVec 3)
  pdst : Option (BitVec 3)
  om : BitVec 8
  colour : BitVec 4
  /-- A read that fence.acq waits for. -/
  read : Bool
  /-- Blocks later memory firings while outstanding (.acq, .ar, fence). -/
  acq : Bool
  /-- Parks its context (R220). -/
  parks : Bool := false
  stage : Stage
  /-- The number of its arrival at a queue, or of its parking there or in the wait table (R292, R305, R312). -/
  at_ : Nat := 0
  deriving DecidableEq, Repr, Inhabited

/-- A fault record that has not been posted (R44, R196). `frozen` lists the physical elements that stay frozen until it is
posted; `held` says that it holds its region (R189). -/
structure PRec where
  id : Nat
  ctx : CtxId
  core : Nat
  ring : Nat
  frozen : List Nat := []
  rcd : Rec
  deriving DecidableEq, Repr, Inhabited

/-- A posted record that waits in a context's fault queue to be forwarded (R196, R428). -/
structure QRec where
  id : Nat
  ctx : CtxId
  core : Nat
  ring : Nat
  rcd : Rec
  /-- The full ring has been counted in WAITS. -/
  waited : Bool := false
  deriving DecidableEq, Repr, Inhabited

/-- What a member of a chain receives from a SHUF or TRED (R134): the value of a member, or the reduction. -/
inductive LaneWant where
  | from_ (j : Option Nat)
  | red (f : TredFn)
  deriving DecidableEq, Repr, Inhabited

/-- One member's firing of a SHUF or TRED slot: its value and its write-back, or nothing where it was masked. -/
structure LaneIn where
  member : Nat
  v : Word := 0#32
  want : LaneWant := .from_ none
  wb : Option WB := none
  deriving DecidableEq, Repr, Inhabited

/-- An exchange among the members of a chain (R134, R135): the firings of one slot that pair with one another. -/
structure Exch where
  lead : CtxId
  slot : Nat
  n : Nat
  got : List LaneIn := []
  deriving DecidableEq, Repr, Inhabited

/-- A wide release under way (R290): the lines still to be written back, as cluster × 2^40 + line. -/
inductive WideFor where
  | req (id : Nat)
  | drain (region half : Nat)
  | ccctl
  | gang (g : Nat)
  deriving DecidableEq, Repr, Inhabited

structure Wide where
  id : Nat
  lines : List Nat
  for_ : WideFor
  deriving DecidableEq, Repr, Inhabited

/-- The states of a copy job (R267). -/
inductive JobSt where
  | waiting | running | paused | aborting
  deriving DecidableEq, Repr, Inhabited

/-- A copy job in flight (R263 to R274). -/
structure Job where
  core : Nat
  slot : Nat
  serial : Nat
  pkt : Packet
  st : JobSt := .waiting
  /-- The scratchpad keys of the issuing region's buffers. -/
  home : List Nat := []
  chunk : Nat := 0
  /-- Edges into this job: slot and serial of the earlier job, and whether it is read after write. -/
  edges : List (Nat × Nat × Bool) := []
  /-- The faulting chunk's fault, found and not yet posted (R270). -/
  fault : Option Rec := none
  /-- Waits on a procedural fill. -/
  fill : Bool := false
  /-- May have issued writes of a chunk that has not completed (R272). -/
  begun : Bool := false
  /-- All of the chunk has been moved; another package has still to acknowledge its writes (R451). -/
  acks : Bool := false
  /-- It has acknowledged them. -/
  acked : Bool := false
  deriving DecidableEq, Repr, Inhabited

/-- What the sync unit performs (R257, R286). -/
inductive SyncDo where
  | sig (sem : Nat) (v : Word)
  | barx (bar : Nat) (n : Word)
  | bara (bar : Nat)
  deriving DecidableEq, Repr, Inhabited

structure SyncOp where
  id : Nat
  core : Nat
  org : Origin
  req : Nat
  due : Nat
  what : SyncDo
  deriving DecidableEq, Repr, Inhabited

/-- A semaphore (R261). -/
structure Sem where
  value : Word := 0#32
  abt : Bool := false
  aborts : Nat := 0
  deriving DecidableEq, Repr, Inhabited

/-- A stage barrier (R275). -/
structure Bar where
  exp : Nat := 0
  arr : Nat := 0
  phase : Nat := 0
  pend : Int := 0
  abt : Bool := false
  deriving DecidableEq, Repr, Inhabited

/-- Who holds a reservation (R306). -/
structure Holder where
  launch : Word
  inst : Nat
  actor : Nat
  el : Nat
  k : Nat
  deriving DecidableEq, Repr, Inhabited

/-- A hardware queue (R304, R312). Its slot states stand in memory. -/
structure HQueue where
  cfg : Word := 0#32
  blo : Word := 0#32
  bhi : Word := 0#32
  res : Word := 0#32
  head : Word := 0#32
  void : Nat := 0
  /-- Tickets held, with their holders. -/
  held : List (Word × Holder) := []
  /-- The enable-time clear is under way. -/
  clearing : Bool := false
  /-- The host's writes that the clear or a link holds, with the numbers of their arrivals (R312, R431). -/
  posted : List (Nat × List Byte) := []
  /-- Combined QPUTs of drains that wait here, each with its number: the second says that it has parked, at a full queue, and not waits for the
  clear or a link (R305, R308, R312). -/
  drains : List (Nat × Bool × Packet) := []
  deriving DecidableEq, Repr, Inhabited

/-- A TLB entry (R346): one leaf, of the page at `va`, in an address space; its level gives the size of the page. `core` names the TLB:
a core's, a generator's micro-TLB, or an indirect stream engine's (`microTlb`, `engineTlb`). -/
structure TlbEntry where
  core : Nat
  asid : Nat
  as_ : Nat
  va : Nat
  leaf : Nat
  level : Nat
  deriving DecidableEq, Repr, Inhabited

/-- What an invalidation under way waits for (R348): accesses, rounds (region and half) and running chunks (core, slot, serial and chunk)
that an entry it covers may have translated. -/
structure Inval where
  reqs : List Nat
  rounds : List (Nat × Nat)
  jobs : List (Nat × Nat × Nat × Nat)
  deriving DecidableEq, Repr, Inhabited

/-- What waits on a fill (R358). -/
inductive Waiter where
  /-- A frozen direct element, with the access that its record would name. -/
  | elem (c : CtxId) (slot : Nat) (kind size win off va : Nat)
  /-- A generator's read; `idx` says that it reads an index (R349). -/
  | gen (region g : Nat) (va : Nat) (idx : Bool)
  | job (core slot serial : Nat) (va : Nat)
  /-- A collective command that reads its source. -/
  | coll (id : Nat) (va : Nat)
  | req (id : Nat) (kind size win off va : Nat)
  /-- The completion of a gang, which decrements the PRED field of one of its successors (R300). -/
  | gang (g : Nat) (va : Nat)
  deriving DecidableEq, Repr, Inhabited

/-- A fill slot in use (R354, R356). -/
structure Fill where
  die : Nat
  slot : Nat
  as_ : Nat
  rng : Nat
  blk : Nat
  depth : Nat
  /-- Ancestor slots, nearest first, as die × 1,024 + slot. -/
  anc : List Nat
  gang : Nat
  since : Nat
  timeout : Nat
  waiters : List Waiter := []
  /-- Requests held for a full list (R358). -/
  extra : List Waiter := []
  /-- A generator's own record of class 0x09 or 0x0A decides the class of the charged records (R363). -/
  cls : Nat := 8
  cause : Nat := 0
  code : Word := 0#32
  /-- Cancelled, with its eviction under way. -/
  cancelled : Bool := false
  deriving DecidableEq, Repr, Inhabited

/-- A request in the slot queue of a fill directory (R354). -/
structure SlotWait where
  die : Nat
  as_ : Nat
  rng : Nat
  blk : Nat
  depth : Nat
  anc : List Nat
  w : Waiter
  deriving DecidableEq, Repr, Inhabited

/-- An eviction under way (R362, R365). -/
structure Evict where
  id : Nat
  die : Nat
  as_ : Nat
  rng : Nat
  blk : Nat
  /-- The cancelled slot, when a cancellation started it. -/
  slot : Option Nat := none
  /-- Requests that wait for the block to become EMPTY. -/
  waiters : List Waiter := []
  deriving DecidableEq, Repr, Inhabited

/-- A context block of a frame image (R74). -/
structure CtxImg where
  el : Nat
  k : Nat
  word : Word
  cred : Word
  init : Word
  routes : List Word
  regs : List Word
  slots : List Slot
  deriving DecidableEq, Repr, Inhabited

/-- A frame image as the loader reads it (R71 to R79). -/
structure Frame where
  va : Nat := 0
  wx : Nat := 1
  wy : Nat := 1
  ctxs : List CtxImg := []
  bufs : List Buf := []
  /-- Buffer, capacity, initial head and tail. -/
  rings : List (Nat × Nat × Word × Word) := []
  edges : List (Nat × List Byte) := []
  /-- Buffer, offset, length and source offset. -/
  datas : List (Nat × Nat × Nat × Nat) := []
  deriving DecidableEq, Repr, Inhabited

/-- A cassette (R375). -/
structure Cass where
  elv : Nat
  nact : Nat
  qin : Option Nat
  mini : Nat
  maxi : Nat
  hiwm : Nat
  lowm : Nat
  hyst : Nat
  /-- Frames of the cogs, and their actor maps. -/
  cogs : List Frame
  maps : List (List Word)
  deriving DecidableEq, Repr, Inhabited

/-- An endpoint binding (R433). -/
structure Ept where
  addr : Nat
  len : Nat
  flags : Nat
  deriving DecidableEq, Repr, Inhabited

/-- The saved set of a region (R385 to R387): the region as it stood, its channel tokens by the route or generator they
came by, and its copy jobs. -/
structure Saved where
  inst : Nat
  core : Nat
  region : Region
  rreg : RReg
  toks : List (Via × List Token)
  jobs : List Job
  colls : List Packet
  recs : List PRec
  fq : List QRec
  spad : List (Nat × List Byte)
  tstore : List (Nat × List Word)
  /-- Words of its buffers and rows that hold an uncorrectable error: by buffer or logical tile, with the place in it (R387). -/
  badSpad : List (Nat × Nat) := []
  badTs : List (Nat × Nat) := []
  frozen : List (Nat × Freeze)
  deriving DecidableEq, Repr, Inhabited

/-- Where an instance of a gang stands. -/
inductive InstSt where
  | none | loading | loaded | running | completed | failed | killed | saved
  deriving DecidableEq, Repr, Inhabited

/-- An instance of a gang: its index, its region, and where it stands. -/
structure Inst where
  inst : Nat
  region : Nat := 0
  st : InstSt := .none
  /-- The loader fault found, to be posted if it is the lowest (R298). -/
  fault : Option Rec := none
  deriving DecidableEq, Repr, Inhabited

/-- Where a gang stands (R298 to R300). -/
inductive GangSt where
  | pending | ready | loading | running | completing | saved | ended
  deriving DecidableEq, Repr, Inhabited

/-- A gang: an accepted launch record (R294 to R303). -/
structure Gang where
  id : Word
  die : Nat
  as_ : Nat
  recVA : Nat
  /-- The 64 words of the record, as read at acceptance. -/
  rcd : List Word
  /-- The argument address after ARGO and source B (R302). -/
  arg : Nat
  frame : Frame := {}
  cass : Option Cass := none
  cog : Nat := 0
  epts : List (Option Ept) := []
  st : GangSt
  /-- Acceptance order. -/
  order : Nat
  /-- Cycle since which it is ready, and since which it could not be placed (R371, R373). -/
  since : Nat := 0
  stuck : Option Nat := none
  placed : Nat := 0
  /-- Region and core whose LAUNCH made it, with the signal of the command (R302). -/
  from_ : Option Packet := none
  /-- The fill slot (die × 1,024 + slot) that it fills, for a generator gang. -/
  fill : Option Nat := none
  insts : List Inst := []
  /-- The clusters in which instances of it have run (R300). -/
  clusters : List Nat := []
  saved : List Saved := []
  /-- Growth and shrink counts (R377). -/
  grow : Nat := 0
  shrink : Nat := 0
  /-- A shrink brakes this instance to retire it (R379). -/
  retire : List Nat := []
  /-- A shift brakes this instance to move it (R381). -/
  shift : List Nat := []
  /-- The placement that its victims are to make room for (R373). -/
  want : List (Nat × Region) := []
  /-- The places of its victims, which nothing of a lower level takes while they settle (R373). -/
  freed : List (Nat × Region) := []
  /-- The level of completion reached (R300). -/
  step : Nat := 0
  /-- A write has left PRED zero (R299). -/
  predZero : Bool := false
  /-- The home location of the PRED field, where the record waits for it (R299). -/
  predLoc : Option Nat := none
  deriving DecidableEq, Repr, Inhabited

/-- A collective command at its engine (R452 to R457). -/
structure Coll where
  id : Nat
  die : Nat
  slot : Nat
  pkt : Packet
  begun : Bool := false
  seq : Nat := 0
  src : List Word := []
  /-- A translation fault has paused it (R457). -/
  paused : Bool := false
  /-- Its region was killed after it began: it runs to its end without a signal (R194). -/
  dead : Bool := false
  /-- It is aborted and will not be performed: in its turn it takes its number, and aborts the collective at every rank (R451, R457). -/
  failed : Bool := false
  deriving DecidableEq, Repr, Inhabited

/-- The words that a rank contributed to a collective (R455). -/
structure Contrib where
  die : Nat
  slot : Nat
  seq : Nat
  rank : Nat
  fn : Nat
  cnt : Nat
  dt : Nat
  op : Nat
  root : Nat
  words : List Word
  /-- The rank found a peer that it cannot reach: INFO 0x20 of class 0x12 (R457). -/
  link : Option Nat := none
  /-- The rank does not perform its command: the collective is aborted at every rank (R457). -/
  bad : Bool := false
  deriving DecidableEq, Repr, Inhabited

/-- The state of a die link or a fabric port (R423, R449). -/
structure Link where
  /-- Trained: false at reset, until bring-up has trained it (R448, R453). -/
  up : Bool := false
  /-- Replays in succession. -/
  run : Nat := 0
  retraining : Bool := false
  /-- When the present retraining began. -/
  since : Nat := 0
  /-- Times of failed retrainings. -/
  fails : List Nat := []
  failed : Bool := false
  retrains : Nat := 0
  replays : Nat := 0
  deriving DecidableEq, Repr, Inhabited

/-- A submission being read and checked (R430). -/
structure Sub where
  die : Nat
  lrec : Nat
  as_ : Nat
  deriving DecidableEq, Repr, Inhabited

/-- An MSI-X message that waits for others of its ring (R428). -/
structure Msix where
  ring : Nat
  vec : Nat
  /-- The network cycle, of the die given, in which the ring advanced (R428). -/
  since : Nat
  die : Nat := 0
  deriving DecidableEq, Repr, Inhabited

/-- The lifetime store of the module flash (R443). -/
structure Lifetime where
  /-- Power-on time, and time throttled, in periods of 4.0 GHz. -/
  hours : Nat := 0
  throttled : Nat := 0
  trips : Nat := 0
  /-- Correctable errors, by HBM bank and temperature bin: 2^16 × stack + 8 × bank + bin. -/
  hbm : Tab Nat := []
  /-- Replays and retrainings since the store began, by link: a package reset leaves them. -/
  links : Tab (Nat × Nat) := []
  /-- Residue mismatches, by core. -/
  residue : Tab Nat := []
  /-- Scrub corrections, by SRAM array. -/
  scrub : Tab Nat := []
  /-- The step of bring-up that failed, if one did (R448). -/
  failedStep : Nat := 0
  deriving DecidableEq, Repr, Inhabited

/-- An image in module flash (R445): its type, its security version, its public key, its body and its signature, each by a name of its
contents. -/
structure FwImage where
  kind : Nat := 0
  version : Nat := 0
  key : Nat := 0
  body : Nat := 0
  sig : Nat := 0
  deriving DecidableEq, Repr, Inhabited

/-- The certificates of the chain in module flash (R446). -/
inductive Cert where
  | root
  | model
  | device
  deriving DecidableEq, Repr, Inhabited

/-- The measurements (R447): the boot ROM's version; of an image its contents, whose hash the answer carries; the fuse counter, and what the
host has written to the configuration space; BPEN, STEP and TREN in use since boot. -/
structure Measurements where
  rom : Nat
  izine : Nat
  dies : List Nat
  fuse : Nat
  config : Tab Word
  debug : Word
  deriving DecidableEq, Repr, Inhabited

/-- The algorithms that attestation names (R447). -/
inductive Alg where
  | sha384
  | brainpoolP384
  deriving DecidableEq, Repr, Inhabited

/-- What an answer of attestation holds (R447); its encoding is the standard's. -/
inductive Attest where
  /-- The answer to a request that is none of the seven. -/
  | other
  | version
  /-- Whether it supports secure sessions. -/
  | capabilities (sessions : Bool)
  /-- The hash, the signature algorithms of BaseAsymAlgo, and those of the extended structure. -/
  | algorithms (hash : Alg) (base ext : List Alg)
  | digests (chain : List Cert)
  | certificate (chain : List Cert)
  /-- Signed with the key pair of this boot. -/
  | challenge (identity : Nat)
  | measurements (m : Measurements)
  deriving DecidableEq, Repr, Inhabited

/-- What an answer of the sideband holds (R436); its encoding is the standard's. -/
inductive Told where
  | other
  /-- PLDM Type 2: the last current sampled of each VCORE, in milliamperes; the temperatures of each die's junction sensors, in °C; and the
  dies with a sensor at 100 °C. -/
  | sensors (amps : List Nat) (temps : List (List Nat)) (hot : List Bool)
  /-- PLDM Type 5: the images of module flash. -/
  | firmware (images : List FwImage)
  /-- A Rharex vendor message: the lifetime store. -/
  | lifetime (l : Lifetime)
  deriving DecidableEq, Repr, Inhabited

/-- What the package shows to the host and the operator (R425 to R447). -/
inductive Out where
  | msix (vec : Nat)
  | bar4 (bytes : List Byte)
  | aperture (v : Word)
  | configRetry
  | config (v : Word)
  | mctp (what : Told) (bytes : List Byte)
  | spdm (what : Attest) (bytes : List Byte)
  | atsDone (addr : Nat)
  /-- A write through an endpoint to the host's memory, or to another package's. -/
  | hostWrite (addr : Nat) (bytes : List Byte)
  | farWrite (pkg pa : Nat) (bytes : List Byte)
  /-- A rank's words of a collective, sent to another package. -/
  | contrib (pkg : Nat) (c : Contrib)
  /-- The answer to another package's access of this package's memory: the bytes read, or the acknowledgement of a write. -/
  | farReply (pkg : Nat) (bytes : List Byte)
  /-- The answer to another package's read that met uncorrectable data (R337, R434). -/
  | farError (pkg : Nat)
  /-- A read of the host that met uncorrectable data, with its memory code (R337). -/
  | readError (code : Nat)
  deriving DecidableEq, Repr, Inhabited

/-- Who fires: a context, a slot, and whether it is a follower's due firing (R29, R40). -/
structure Firing where
  ctx : CtxId := default
  slot : Nat := 0
  follower : Bool := false
  deriving DecidableEq, Repr, Inhabited

/-- A step still to take in this cycle (log 2). -/
inductive Move where
  /-- One firing. -/
  | fire (f : Firing)
  /-- The firings of one chain in one cycle: all are cancelled if one faults (R44). -/
  | chain (fs : List Firing)
  /-- A request that waited on a procedural fill is issued again (R359). -/
  | replay (w : Waiter)
  /-- An event of the device. -/
  | event (i : Instr)
  /-- The signal of a copy job: an arrival at a barrier, which the credits of the cycle precede (R276). -/
  | signal (org : Origin) (cmd : List Word) (tag : Word)
  /-- The test of the stage barriers that follows the announcements and credits of a cycle (R276). -/
  | testBars
  deriving DecidableEq, Repr, Inhabited

/-- The elements and their fabric, with the requests and records of their firings. -/
structure Fab where
  elems : Tab Elem := []
  wbs : List WB := []
  flits : List Flit := []
  credRets : List CredRet := []
  lanes : List Exch := []
  reqs : List Req := []
  recs : List PRec := []
  fq : List QRec := []
  /-- Residue mismatches that the next result of a unit meets, 1 or 2 (R442, log 27): of a physical element's ALU, of a physical tile's
  MAC planes (2^18 on), of a collective slot (2^20 on). -/
  glitch : Tab Nat := []
  deriving DecidableEq, Repr, Inhabited

/-- The shared machinery of the cores. -/
structure Cores where
  /-- Next record number of each core (R196). -/
  seqs : Tab Nat := []
  sems : Tab Sem := []
  bars : Tab Bar := []
  syncs : List SyncOp := []
  copyIn : Tab (List Packet) := []
  jobs : List Job := []
  jobSerial : Tab Nat := []
  tlb : List TlbEntry := []
  /-- Commands on their way to a systolic queue (R243). -/
  going : List Packet := []
  loads : List Load := []
  sweeps : List Sweep := []
  /-- Serial of the next sweep, by region × 128 + memory tile (R238). -/
  serials : Tab Nat := []
  deriving DecidableEq, Repr, Inhabited

/-- The memories. -/
structure Store where
  /-- What the homes hold, HBM and L2 together (R336, R337). -/
  cells : List Host.Cell := []
  /-- Dirty bytes of the cluster caches, by cluster × 2^40 + location (R289). -/
  dirty : Tab Byte := []
  /-- Bytes whose stack still holds an older value than L2 (R440, R458). -/
  stale : Tab Byte := []
  /-- Sectors marked in error, with the memory code (R337). -/
  marks : Tab Nat := []
  /-- Lines that a cluster cache may hold, by cluster × 2^40 + location (R289, R424). -/
  copies : List Nat := []
  /-- Dirty cluster-cache sectors found uncorrectable, by cluster × 2^40 + location of the sector (R291). -/
  badDirty : List Nat := []
  wides : List Wide := []
  /-- Scratchpad bytes, by physical tile × 131,072 + offset (R166). -/
  spad : List Host.Cell := []
  /-- Tile-store words, by (physical tile × 256 + row) × 32 + column (R171). -/
  tstore : Tab Word := []
  /-- Scratchpad words and tile-store pairs that hold an uncorrectable error: 2 × key of a scratchpad byte, or
  2 × key of a tile-store word + 1. -/
  badWords : List Nat := []
  deriving DecidableEq, Repr, Inhabited

/-- The machinery of the dies. -/
structure Dies where
  queues : Tab HQueue := []
  inval : Tab Inval := []
  fills : List Fill := []
  slotQ : List SlotWait := []
  evicts : List Evict := []
  dispIn : Tab (List Packet) := []
  dispWait : Tab (List Packet) := []
  /-- Collective commands on their way to a die's engine (R454). -/
  collIn : Tab (List Packet) := []
  tptr : Tab Nat := []
  accepted : Tab Nat := []
  gangs : Tab Gang := []
  order : Nat := 0
  /-- Dies on which a placement or release has occurred since the dispatcher last tried (R372). -/
  due : List Nat := []
  colls : List Coll := []
  contribs : List Contrib := []
  /-- Non-leaf entries that a die's walkers have cached, by die × 2^60 + physical address (R346, R347). -/
  walks : Tab Nat := []
  deriving DecidableEq, Repr, Inhabited

/-- The package. -/
structure Pkg where
  links : List Link := [{}, {}, {}, {}]
  ports : List Link := [{}, {}, {}, {}, {}, {}, {}, {}]
  subs : List Sub := []
  msix : List Msix := []
  /-- The address translation cache: endpoint address and the use it was obtained for (R435). -/
  ats : List (Nat × Nat) := []
  /-- Bytes of the host's memory and of other packages' that this package has written. -/
  hostMem : Tab Byte := []
  farMem : Tab Byte := []
  /-- Memory-mapped registers that hold a value of their own, by BAR0 offset. -/
  mmio : Tab Word := []
  /-- Element-cycle counters, one for each die (R5, R119). -/
  cyc : List Nat := [0, 0, 0, 0]
  /-- Network cycles of each die that have occurred (R5, R439). -/
  net : List Nat := [0, 0, 0, 0]
  /-- Throttle steps of 1/16 and halved network clock, for each die (R438). -/
  throttle : List Nat := [0, 0, 0, 0]
  hot : List Bool := [false, false, false, false]
  /-- What each die's 64 junction sensors read, in °C (R436, R438). -/
  temps : List (List Nat) := List.replicate 4 (List.replicate 64 0)
  /-- Times, in periods of 4.0 GHz, of the samples of the last 10 ms that found a die's VCORE above its sustained current (R438). -/
  peaks : List (List Nat) := [[], [], [], []]
  /-- Dies whose element clock skips the present cycle (R438, R439). -/
  skipped : List Bool := [false, false, false, false]
  /-- Cycles that each die has skipped in the present run of 16 (R438). -/
  skips : List Nat := [0, 0, 0, 0]
  /-- Periods of 4.0 GHz since power-on, skipped cycles among them. -/
  now : Nat := 0
  /-- The rails are up: from power-on to a trip (R440, R443, R448). -/
  powered : Bool := false
  /-- Bring-up steps done (R448): READY at five. -/
  boot : Nat := 0
  bootErr : Bool := false
  /-- The identity key pair of this boot, by number (R446). -/
  identity : Nat := 0
  /-- The package has tripped (R440). -/
  tripped : Bool := false
  life : Lifetime := {}
  flash : Lifetime := {}
  fuse : Nat := 0
  /-- The hash of the root public key, in fuses (R445). -/
  rootHash : Nat := 0
  /-- Module flash: Izine's image, those of dies 1 to 3 and of the twelve base dies (R445), and the certificate chain (R446). -/
  images : List FwImage := (List.range 16).map fun i => { kind := if i = 0 then 0 else if i < 4 then 1 else 2, body := i }
  chain : List Cert := [.root, .model, .device]
  /-- The last current sampled of each VCORE, in milliamperes (R436, R438). -/
  amps : List Nat := [0, 0, 0, 0]
  /-- What Izine has set each VCORE to, in millivolts: at first the nominal value (R437). -/
  volts : List Nat := [675, 675, 675, 675]
  /-- What the host has written to the registers of the configuration space, MSI-X, AER, Resizable BAR and DOE among them (R425). -/
  config : Tab Word := []
  /-- BPEN, STEP and TREN in use since boot (R447). -/
  debugUsed : Word := 0#32
  /-- Errors that a die counts without a record (R209, R441, R442), by die. -/
  errors : Tab Nat := []
  out : List Out := []
  /-- Contributions that wait for a link or port that retrains (R423, R450): the sending die and the entry of the group table. -/
  held : List (Nat × Nat × Contrib) := []
  /-- Answers to other packages that wait for a link or port that retrains: the die, the package and the answer (R450). -/
  farOut : List (Nat × Nat × Out) := []
  /-- What has come from other packages and waits for a link that retrains: the die of the port, and the message (R423, R450). -/
  farIn : List (Nat × FabMsg) := []
  deriving DecidableEq, Repr, Inhabited

/-- The whole package. The fields from `agenda` on are the model's own (log 2). -/
structure State where
  fab : Fab
  regions : Tab Region
  rregs : Tab RReg
  cores : Cores
  store : Store
  dies : Dies
  pkg : Pkg
  /-- What is still to do in this part of the cycle. -/
  agenda : List Move
  /-- The part of the cycle to plan next: 0 arrivals and engines, 1 firings, 2 write-backs, 3 the clocks. -/
  part : Nat
  /-- What the outside world will do, in order. -/
  inputs : List Instr
  /-- Whose firing runs. -/
  cur : Firing
  /-- The next name for a pending thing. -/
  uid : Nat
  /-- The counter that free values are applied to. -/
  free : Nat
  deriving DecidableEq, Repr, Inhabited

/-- The machine right after reset, before its bring-up (R448, R458): no region, no request, every register at the value of
its table, memory with nothing listed. -/
def State.reset : State :=
  { fab := {}, regions := [], rregs := [], cores := {}, store := {}, dies := {}, pkg := {},
    agenda := [], part := 0, inputs := [], cur := {}, uid := 1, free := 0 }

end Sys2Proof.Machine
end

