-- ==== Sys2Proof/Machine/Tables.lean ====
section
/-!
DEFINITION. Reading and writing tables, lists and byte strings.
-/

namespace Sys2Proof.Machine

/-- What a table lists under a key. -/
def Tab.look {α : Type} : Tab α → Nat → Option α
  | [], _ => none
  | e :: r, k => if e.1 = k then some e.2 else Tab.look r k

/-- What a table lists under a key, or the default. -/
def Tab.lookD {α : Type} (t : Tab α) (k : Nat) (d : α) : α := (t.look k).getD d

/-- Lists a value under a key, keeping the keys ascending. -/
def Tab.put {α : Type} : Tab α → Nat → α → Tab α
  | [], k, v => [(k, v)]
  | e :: r, k, v =>
    if k < e.1 then (k, v) :: e :: r
    else if k = e.1 then (k, v) :: r
    else e :: Tab.put r k v

/-- Removes a key. -/
def Tab.drop {α : Type} (t : Tab α) (k : Nat) : Tab α := t.filter fun e => e.1 != k

/-- Changes a value that is listed. -/
def Tab.upd {α : Type} (t : Tab α) (k : Nat) (f : α → α) : Tab α :=
  t.map fun e => if e.1 = k then (e.1, f e.2) else e

/-- Changes a value, taking the default where none is listed. -/
def Tab.alter {α : Type} (t : Tab α) (k : Nat) (d : α) (f : α → α) : Tab α := t.put k (f (t.lookD k d))

/-- The byte that a canonical memory gives at an address: zero where none is listed (log 1). -/
def cellAt (m : List Host.Cell) (a : Nat) : Byte :=
  match m with
  | [] => 0#8
  | c :: r => if c.1 = a then c.2 else cellAt r a

/-- Writes one byte, keeping the addresses ascending and listing no zero byte. -/
def cellPut (m : List Host.Cell) (a : Nat) (v : Byte) : List Host.Cell :=
  match m with
  | [] => if v = 0#8 then [] else [(a, v)]
  | c :: r =>
    if a < c.1 then (if v = 0#8 then c :: r else (a, v) :: c :: r)
    else if a = c.1 then (if v = 0#8 then r else (a, v) :: r)
    else c :: cellPut r a v

/-- The canonical form of a memory: addresses strictly ascending, no zero byte listed. -/
def Memory.wf (m : List Host.Cell) : Bool :=
  match m with
  | [] => true
  | [c] => c.2 != 0#8
  | c :: d :: r => c.2 != 0#8 && decide (c.1 < d.1) && Memory.wf (d :: r)

/-- `n` bytes from an address. -/
def cellsAt (m : List Host.Cell) (a n : Nat) : List Byte := (List.range n).map fun i => cellAt m (a + i)

/-- Writes bytes from an address. -/
def cellsPut (m : List Host.Cell) (a : Nat) : List Byte → List Host.Cell
  | [] => m
  | b :: bs => cellsPut (cellPut m a b) (a + 1) bs

/-- The number whose little-endian bytes are given (R3). -/
def leNat : List Byte → Nat
  | [] => 0
  | b :: bs => b.toNat + 256 * leNat bs

/-- The word whose little-endian bytes are given. -/
def leWord (bs : List Byte) : Word := BitVec.ofNat 32 (leNat bs)

/-- The `n` little-endian bytes of a number. -/
def natLe : Nat → Nat → List Byte
  | 0, _ => []
  | n + 1, v => BitVec.ofNat 8 v :: natLe n (v / 256)

/-- The four bytes of a word. -/
def wordLe (w : Word) : List Byte := natLe 4 w.toNat

/-- The little-endian words of a byte string. -/
def leWords : Nat → List Byte → List Word
  | 0, _ => []
  | n + 1, bs => leWord (bs.take 4) :: leWords n (bs.drop 4)

/-- Bits [lo + n - 1 : lo] of a number. -/
def bitsOf (lo n v : Nat) : Nat := v / 2 ^ lo % 2 ^ n

/-- Bit `n` of a number. -/
def bitOf (n v : Nat) : Bool := v / 2 ^ n % 2 = 1

/-- Word `n` of a command or record. -/
def wordAt (ws : List Word) (n : Nat) : Word := ws.getD n 0#32

/-- The number held in bytes [off, off + n) of a list of words. -/
def fieldAt (ws : List Word) (off n : Nat) : Nat :=
  let v := (wordAt ws (off / 4)).toNat + 2 ^ 32 * (wordAt ws (off / 4 + 1)).toNat + 2 ^ 64 * (wordAt ws (off / 4 + 2)).toNat
  v / 2 ^ (8 * (off % 4)) % 2 ^ (8 * n)

/-- A signed reading of the low `n` bits. -/
def signedOf (n v : Nat) : Int :=
  let u := v % 2 ^ n
  if u < 2 ^ (n - 1) then (u : Int) else (u : Int) - 2 ^ n

/-- A 32-bit counter that saturates (R195, R311, R312). -/
def sat32 (n : Nat) : Nat := if n ≤ 0xFFFFFFFF then n else 0xFFFFFFFF

/-- The position of the first element that satisfies a test. -/
def firstIdx {α : Type} (p : α → Bool) : List α → Nat → Option Nat
  | [], _ => none
  | x :: r, n => if p x then some n else firstIdx p r (n + 1)

/-- The list of `n` entries that holds `v` at place `i` and what `l` holds at the others. -/
def setAt {α : Type} (n : Nat) (d : α) (l : List α) (i : Nat) (v : α) : List α :=
  (List.range n).map fun j => if j = i then v else l.getD j d

/-- Replaces the elements that satisfy a test. -/
def mapIf {α : Type} (p : α → Bool) (f : α → α) (l : List α) : List α := l.map fun x => if p x then f x else x

end Sys2Proof.Machine
end

