-- ==== Sys2Proof/Machine/Ops.lean ====
section
/-!
DEFINITION. The named operations over elements, contexts, channels, routes and requests that every meaning is written with:
looking things up (R8, R9, R173), popping and emitting (R23, R24), reserving and writing back (R34 to R37), outstanding
requests (R205), and fault records (R43, R44, R189, R196, R197).
-/

namespace Sys2Proof.Machine

/-- The core of a region key. -/
def coreOf (region : Nat) : Nat := region / 32
/-- The die of a core, and the cluster of a core within the package (R421). -/
def dieOfCore (core : Nat) : Nat := core / 16
def clusterOfCore (core : Nat) : Nat := core / 4
def dieOf (region : Nat) : Nat := dieOfCore (coreOf region)
def clusterOf (region : Nat) : Nat := clusterOfCore (coreOf region)

/-- Column and row of a logical or physical tile number. -/
def tileX (t : Nat) : Nat := t % 8
def tileY (t : Nat) : Nat := t / 8 % 16
/-- Whether the position is a compute tile (R8). -/
def isCompute (t : Nat) : Bool := (tileX t + tileY t) % 2 = 0

/-- The network cycles of a die that have occurred, and whether one occurs in the present period (R5, R438, R439): one of 2.0 GHz, or
of 1.0 GHz where the die is hot. -/
def State.netClk (s : State) (die : Nat) : Nat := s.pkg.net.getD die 0
def State.netCycle (s : State) (die : Nat) : Bool := decide (s.pkg.now % (if s.pkg.hot.getD die false then 4 else 2) = 0)
/-- A die's element-cycle counter (R5, R439). -/
def State.clk (s : State) (die : Nat) : Nat := s.pkg.cyc.getD die 0
def State.regionClk (s : State) (r : Nat) : Nat := s.clk (dieOf r)

def State.region (s : State) (r : Nat) : Option Region := s.regions.look r
def State.updRegion (s : State) (r : Nat) (f : Region → Region) : State := { s with regions := s.regions.upd r f }
def State.rreg (s : State) (r : Nat) : RReg := s.rregs.lookD r {}
def State.updRreg (s : State) (r : Nat) (f : RReg → RReg) : State := { s with rregs := s.rregs.alter r {} f }

/-- The context of a region at a logical element. -/
def Region.ctx (g : Region) (el k : Nat) : Option Ctx := g.ctxs.find? fun c => c.el = el ∧ c.k = k
def State.ctx (s : State) (c : CtxId) : Option Ctx := (s.region c.region).bind fun g => g.ctx c.el c.k
def Region.updCtx (g : Region) (el k : Nat) (f : Ctx → Ctx) : Region :=
  { g with ctxs := mapIf (fun c => c.el = el ∧ c.k = k) f g.ctxs }
def State.updCtx (s : State) (c : CtxId) (f : Ctx → Ctx) : State := s.updRegion c.region fun g => g.updCtx c.el c.k f

/-- The name of a context. -/
def Ctx.id (c : Ctx) (region : Nat) : CtxId := { region, el := c.el, k := c.k }

/-- The physical element of a logical element (R9, R173). -/
def Region.phys (g : Region) (el : Nat) : Nat := 16 * g.tmap.lookD (el / 16) 0 + el % 16
def State.physOf (s : State) (c : CtxId) : Nat := ((s.region c.region).map fun g => g.phys c.el).getD 0

def State.elem (s : State) (p : Nat) : Elem := s.fab.elems.lookD p {}
def State.updElem (s : State) (p : Nat) (f : Elem → Elem) : State :=
  { s with fab := { s.fab with elems := s.fab.elems.alter p {} f } }

/-- Takes a name for a pending thing. -/
def State.bump (s : State) : State := { s with uid := s.uid + 1 }

/-- A list begun elsewhere: which candidate a device tries first is its own choice. -/
def rotated {α : Type} (n : Nat) (l : List α) : List α :=
  let k := if l.length = 0 then 0 else n % l.length
  l.drop k ++ l.take k

/-- The next free choice. -/
def State.choice (s : State) : Bool × State := (Config.happens s.free, { s with free := s.free + 1 })

-- Context words (R25).

def Ctx.mode (c : Ctx) : Nat := bitsOf 29 2 c.word.toNat
def Ctx.isDirect (c : Ctx) : Bool := c.mode = 0
def Ctx.isRounded (c : Ctx) : Bool := c.mode = 1
def Ctx.isSystolic (c : Ctx) : Bool := c.mode = 2
def Ctx.en (c : Ctx) : Bool := bitOf 31 c.word.toNat
def Ctx.fol (c : Ctx) : Bool := bitOf 28 c.word.toNat
def Ctx.ldir (c : Ctx) : Nat := bitsOf 26 2 c.word.toNat
def Ctx.nr (c : Ctx) : Nat := bitsOf 21 5 c.word.toNat
def Ctx.rotSet (c : Ctx) : BitVec 16 := c.word.setWidth 16
/-- The credit count of the credit word (R75). -/
def Ctx.credOf (c : Ctx) (o : Nat) : Nat := bitsOf (3 * o) 3 c.cred.toNat

def Ctx.reg (c : Ctx) (n : BitVec 3) : Word := c.regs.getD n.toNat 0#32
def Ctx.setReg (c : Ctx) (n : BitVec 3) (v : Word) : Ctx := { c with regs := setAt 8 0#32 c.regs n.toNat v }
def Ctx.pred (c : Ctx) (n : BitVec 3) : Pred := c.preds.getD n.toNat .f
def Ctx.setPred (c : Ctx) (n : BitVec 3) (v : Pred) : Ctx := { c with preds := setAt 8 .f c.preds n.toNat v }
def Pred.ofBool (b : Bool) : Pred := if b then .t else .f

/-- The predicate vector (R17). -/
def Ctx.pvec (c : Ctx) : Word :=
  BitVec.ofNat 32 (((List.range 8).map fun n => if c.preds.getD n .f = .t then 2 ^ n else 0).sum)

-- Route words (R20).

/-- The signed tile offsets, target element, channel, context and edge of a route word. -/
def routeDtx (w : Word) : Int := signedOf 4 (bitsOf 28 4 w.toNat)
def routeDty (w : Word) : Int := signedOf 5 (bitsOf 23 5 w.toNat)
def routeEl (w : Word) : Nat := 4 * bitsOf 19 2 w.toNat + bitsOf 21 2 w.toNat
def routeCh (w : Word) : Nat := bitsOf 17 2 w.toNat
def routeKx (w : Word) : Nat := bitsOf 14 3 w.toNat
def routeEdge (w : Word) : Nat := bitsOf 0 14 w.toNat

/-- The logical element a route targets (R20), if its tile lies on the grid. -/
def routeTarget (el : Nat) (w : Word) : Option Nat :=
  let x := (tileX (el / 16) : Int) + routeDtx w
  let y := (tileY (el / 16) : Int) + routeDty w
  if 0 ≤ x ∧ x < 8 ∧ 0 ≤ y ∧ y < 16 then some (16 * (8 * y.toNat + x.toNat) + routeEl w) else none

/-- The hop latency between two physical tiles (R24): one cycle within a tile, two for each position crossed. -/
def hop (p q : Nat) : Nat :=
  if p = q then 1
  else 2 * ((tileX p - tileX q) + (tileX q - tileX p) + (tileY p - tileY q) + (tileY q - tileY p))

/-- The corner-turn node that serves a route, with its logical tile (R247). -/
def Region.nodeOf (g : Region) (el k o : Nat) : Option (Nat × Node) :=
  g.nodes.find? fun e => e.2.ctx.el = el ∧ e.2.ctx.k = k ∧ e.2.o = o

/-- The hop latency from a logical tile to the target of a route (R24, R247). -/
def Region.hopFrom (g : Region) (c : Ctx) (o t : Nat) : Nat :=
  match routeTarget c.el (c.routes.getD o 0#32) with
  | some el => hop (g.tmap.lookD t 0) (g.tmap.lookD (el / 16) 0)
  | none => 1
/-- The hop latency of a route, from the emitting tile to its target, or to the memory tile of the node given (R24, R247). -/
def Region.hopOf (g : Region) (c : Ctx) (o : Nat) (node : Option Nat) : Nat :=
  match node with
  | some t => hop (g.tmap.lookD (c.el / 16) 0) (g.tmap.lookD t 0)
  | none => g.hopFrom c o (c.el / 16)

/-- The nearest memory tile of a compute tile, among the positions of the region (R168). -/
def nearestMem (wx wy t : Nat) : Option Nat :=
  let x := tileX t
  let y := tileY t
  if x + 1 < wx then some (8 * y + x + 1)
  else if 1 ≤ x then some (8 * y + x - 1)
  else if y + 1 < wy then some (8 * (y + 1) + x)
  else if 1 ≤ y then some (8 * (y - 1) + x)
  else none

-- Tandem chains (R39).

/-- The element adjacent in a tile in the direction LDIR gives. -/
def adjacent (e dir : Nat) : Option Nat :=
  let x := e % 4
  let y := e / 4
  match dir with
  | 0 => if 1 ≤ y then some (e - 4) else none
  | 1 => if x + 1 < 4 then some (e + 1) else none
  | 2 => if y + 1 < 4 then some (e + 4) else none
  | _ => if 1 ≤ x then some (e - 1) else none

/-- The follower of an element for context k, if it has one. -/
def Region.followerOf (g : Region) (el k : Nat) : Option Ctx :=
  g.ctxs.find? fun c => c.k = k ∧ c.el / 16 = el / 16 ∧ c.fol ∧ (adjacent (c.el % 16) c.ldir).map (16 * (c.el / 16) + ·) = some el

/-- The members of the chain that starts at an element, in order, leader first; `n` bounds the walk. -/
def Region.chainFrom (g : Region) (k : Nat) : Nat → Nat → List Nat
  | 0, _ => []
  | n + 1, el => el :: match g.followerOf el k with
    | some c => g.chainFrom k n c.el
    | none => []

/-- The leader of an element's chain for context k. -/
def Region.leaderOf (g : Region) (k : Nat) : Nat → Nat → Nat
  | 0, el => el
  | n + 1, el => match g.ctx el k with
    | some c => if c.fol then
        match adjacent (el % 16) c.ldir with
        | some e => g.leaderOf k n (16 * (el / 16) + e)
        | none => el
      else el
    | none => el

/-- The logical elements of the chain that an element belongs to for context k. -/
def Region.chainOf (g : Region) (el k : Nat) : List Nat := g.chainFrom k 16 (g.leaderOf k 16 el)

/-- The position of an element in its chain. -/
def Region.laneOf (g : Region) (el k : Nat) : Nat := (firstIdx (· = el) (g.chainOf el k) 0).getD 0

-- Channels and credits.

/-- What an element is frozen by, newest first, each with the region whose firing froze it: it fires when none is left (R44 to R46). -/
def Elem.freezes (e : Elem) : List (Freeze × Nat) := if e.freeze = .no then [] else (e.freeze, e.owner) :: e.under
def Elem.withFreezes (e : Elem) : List (Freeze × Nat) → Elem
  | [] => { e with freeze := .no, under := [] }
  | (f, r) :: rest => { e with freeze := f, owner := r, under := rest }
/-- One freeze more. -/
def Elem.frozenBy (e : Elem) (f : Freeze) (r : Nat) : Elem := e.withFreezes ((f, r) :: e.freezes)
/-- The freezes that satisfy a condition are over. -/
def Elem.thaw (e : Elem) (ends : Freeze → Nat → Bool) : Elem := e.withFreezes (e.freezes.filter fun f => !ends f.1 f.2)
/-- Each freeze becomes another. -/
def Elem.mapFreeze (e : Elem) (f : Freeze → Freeze) : Elem := e.withFreezes (e.freezes.map fun x => (f x.1, x.2))

def Elem.chan (e : Elem) (n : Nat) : List Token := e.ch.getD n []
def Elem.head (e : Elem) (n : Nat) : Option Token := (e.chan n).head?
def Elem.popCh (e : Elem) (n : Nat) : Elem := { e with ch := setAt 4 [] e.ch n ((e.chan n).drop 1) }
def Elem.pushCh (e : Elem) (n : Nat) (t : Token) : Elem := { e with ch := setAt 4 [] e.ch n (e.chan n ++ [t]) }

def Token.ctx (t : Token) : Nat := t.tag.toNat % 8
def Token.isControl (t : Token) : Bool := t.tag.getLsbD 3
def Token.colour (t : Token) : BitVec 4 := t.tag.extractLsb' 4 4
/-- The tag byte (R10). -/
def mkTag (colour : BitVec 4) (control : Bool) (k : Nat) : Byte := colour ++ BitVec.ofBool control ++ BitVec.ofNat 3 k

/-- The hop latency of what a token came by, at which its credit returns (R23). -/
def State.viaHop (s : State) (v : Via) : Nat :=
  match v with
  | .none => 1
  | .route c o => match s.region c.region with
    | some g => match g.ctx c.el c.k with
      | some x => g.hopOf x o ((g.nodeOf c.el c.k o).map fun e => e.1)
      | none => 1
    | none => 1
  | .gen r g => match s.region r with
    | some reg => match reg.gens.look g with
      | some gn =>
        let w := (wordAt gn.p 10).toNat
        hop (reg.tmap.lookD (g / 4) 0) (reg.tmap.lookD (8 * bitsOf 3 4 w + bitsOf 0 3 w) 0)
      | none => 1
    | none => 1
  | .node r t => match s.region r with
    | some g => match g.nodes.look t with
      | some n => ((g.ctx n.ctx.el n.ctx.k).map fun c => g.hopFrom c n.o t).getD 1
      | none => 1
    | none => 1

/-- The region that a credit returns to. -/
def Via.region : Via → Nat
  | .none => 0
  | .route c _ => c.region
  | .gen r _ => r
  | .node r _ => r

/-- A credit starts on its way back (R23). -/
def State.returnCredit (s : State) (v : Via) : State :=
  match v with
  | .none => s
  | _ =>
    let at_ := s.clk (dieOf v.region) + s.viaHop v
    { s with fab := { s.fab with credRets := s.fab.credRets ++ [{ id := s.uid, dest := v, at_ }] }, uid := s.uid + 1 }

/-- Pops channel `n` of a physical element; the sending route regains its credit (R23, R34). -/
def State.pop (s : State) (p n : Nat) : State :=
  match (s.elem p).head n with
  | none => s
  | some t => (s.updElem p fun e => e.popCh n).returnCredit t.via

/-- The region and context that a physical element's context k belongs to. -/
def State.ownerOf (s : State) (p k : Nat) : Option (Nat × Ctx) :=
  s.regions.findSome? fun e => (e.2.ctxs.find? fun c => c.k = k && e.2.phys c.el = p).map fun c => (e.1, c)

/-- Whether tokens addressed to context k of an element are discarded: it has retired, or its region has been killed
(R138, R194). -/
def State.discards (s : State) (p k : Nat) : Option Nat :=
  match s.ownerOf p k with
  | some (r, c) => if c.retired || ((s.region r).map fun g => g.dead).getD false then some r else none
  | none => none

/-- Discards the heads of one channel that are addressed to retired contexts (R138). -/
def State.tidyCh (s : State) (p n : Nat) : Nat → State
  | 0 => s
  | m + 1 => match (s.elem p).head n with
    | none => s
    | some t => match s.discards p t.ctx with
      | some r => ((s.pop p n).updRreg r fun q => { q with disc := sat32 (q.disc + 1) }).tidyCh p n m
      | none => s

/-- Discards the heads of an element's channels that are addressed to retired contexts (R138). -/
def State.tidy (s : State) (p : Nat) : State := (List.range 4).foldl (fun s n => s.tidyCh p n 4) s

/-- Pops the channels of a mask. -/
def State.popMask (s : State) (p : Nat) (dq : BitVec 4) : State :=
  if dq = 0#4 then s
  else ((List.range 4).foldl (fun s n => if dq.getLsbD n then s.pop p n else s) s).tidy p

/-- Takes one credit from each route of a mask (R23). -/
def Ctx.spend (c : Ctx) (om : BitVec 8) : Ctx :=
  { c with credits := c.credits.mapIdx fun o n => if om.getLsbD o then n - 1 else n }

/-- Gives one credit back to a route. -/
def Ctx.refund (c : Ctx) (o : Nat) : Ctx :=
  { c with credits := setAt 8 0 c.credits o (c.credits.getD o 0 + 1) }

/-- The node that a token is to enter: none once its node has detached (R247). -/
def Flit.toNode (f : Flit) : Option (Nat × Nat) := if f.past.isSome then none else f.node

/-- Reserves a place on each route of a mask for the tokens of firing `own` (R19, R23). -/
def State.reserve (s : State) (c : CtxId) (own : Nat) (om : BitVec 8) : State :=
  (List.range 8).foldl (fun s o =>
    if om.getLsbD o then
      let node := ((s.region c.region).bind fun g => g.nodeOf c.el c.k o).map fun e => (c.region, e.1)
      { s with fab := { s.fab with flits := s.fab.flits ++ [{ id := s.uid, own, ctx := c, o, node }] }, uid := s.uid + 1 }
    else s) s

/-- A token left at a node that has detached takes a credit of the route, which counts places at the target again (R247). -/
def State.payDebt (s : State) (c : CtxId) (o : Nat) : State :=
  match s.fab.flits.find? fun f => f.ctx = c ∧ f.o = o ∧ f.owes with
  | none => s
  | some f =>
    if ((s.ctx c).map fun x => x.credits.getD o 0).getD 0 = 0 then s
    else
      let paid (x : Flit) : Flit := { x with owes := false, arrive := max x.arrive (s.regionClk c.region + x.past.getD 0) }
      ({ s with fab := { s.fab with flits := mapIf (fun x => x.id = f.id) paid s.fab.flits } } : State).updCtx c
        fun x => { x with credits := setAt 8 0 x.credits o (x.credits.getD o 0 - 1) }
/-- The tokens left at a node take what credits there are; a route holds at most four (R22). -/
def State.payDebts (s : State) (c : CtxId) (o : Nat) : State := (List.range 4).foldl (fun s _ => s.payDebt c o) s

/-- A route regains a credit (R23). -/
def State.regain (s : State) (c : CtxId) (o : Nat) : State := (s.updCtx c fun x => x.refund o).payDebts c o

/-- Gives back the credit of a reserved place: to the route, or to the node that has come to serve it since (R47, R247). -/
def State.refund (s : State) (f : Flit) : State :=
  if f.owes then s else match f.toNode, (s.region f.ctx.region).bind fun g => g.nodeOf f.ctx.el f.ctx.k f.o with
  | none, some e => s.updRegion f.ctx.region fun g =>
      { g with nodes := g.nodes.upd e.1 fun n => { n with credits := n.credits + 1 } }
  | _, _ => s.regain f.ctx f.o

/-- Gives back the places that firing `own` reserved and does not use; their credits return at once (R47, R128). -/
def State.release (s : State) (own : Nat) (keep : BitVec 8) : State :=
  let gone := s.fab.flits.filter fun f => f.own = own ∧ !f.filled ∧ !keep.getLsbD f.o
  let s := { s with fab := { s.fab with flits := s.fab.flits.filter fun f => !(f.own = own ∧ !f.filled ∧ !keep.getLsbD f.o) } }
  gone.foldl (fun s f => s.refund f) s

/-- The tokens of a firing leave on the routes of its mask (R24, R35): they are there for firings `hop` cycles after cycle `t`. -/
def State.emit (s : State) (c : CtxId) (own : Nat) (d : Done) (t : Nat) : State :=
  match s.region c.region with
  | none => s
  | some g => match g.ctx c.el c.k with
    | none => s
    | some x =>
      { s with fab := { s.fab with flits := mapIf (fun f => f.own = own ∧ d.om.getLsbD f.o) (fun f =>
          { f with filled := true, payload := d.res,
                   tag := mkTag d.colour d.control (routeKx (x.routes.getD f.o 0#32)),
                   arrive := t + g.hopOf x f.o (f.node.map fun e => e.2) + f.past.getD 0 }) s.fab.flits } }

-- Requests (R205).

/-- What comes from the placement that is given, killed or not (R193). -/
def Region.issued (g : Region) (r : Nat) (o : Origin) : Bool := o.ctx.region = r && o.lease = g.lease
/-- The packets and jobs of a placement. -/
def Region.owns (g : Region) (r : Nat) (p : Packet) : Bool := g.issued r p.org
/-- Whether a request's placement still stands (R193). -/
def State.current (s : State) (o : Origin) : Bool :=
  match s.region o.ctx.region with
  | some g => !g.dead && g.lease = o.lease
  | none => false

/-- The outstanding requests that a context has issued under a lease. -/
def State.reqsFrom (s : State) (c : CtxId) (lease : Nat) : List Req := s.fab.reqs.filter fun q => q.org.ctx = c && q.org.lease = lease
/-- The outstanding requests of a context: those that an earlier placement has left behind are none of them (R193, R194). -/
def State.reqsOf (s : State) (c : CtxId) : List Req :=
  match s.region c.region with
  | some g => s.reqsFrom c g.lease
  | none => []

/-- Whether a context is parked (R220). -/
def State.parked (s : State) (c : CtxId) : Bool := (s.reqsOf c).any fun q => q.parks

def State.updReq (s : State) (id : Nat) (f : Req → Req) : State :=
  { s with fab := { s.fab with reqs := mapIf (fun q => q.id = id) f s.fab.reqs } }
def State.req (s : State) (id : Nat) : Option Req := s.fab.reqs.find? fun q => q.id = id
def State.dropReq (s : State) (id : Nat) : State :=
  { s with fab := { s.fab with reqs := s.fab.reqs.filter fun q => q.id != id } }

/-- A request goes on to its reply. -/
def State.replyWith (s : State) (id : Nat) (d : Done) : State := s.updReq id fun q => { q with stage := .reply d }
def State.acked (s : State) (id : Nat) : State := s.updReq id fun q => { q with stage := .ack }

/-- The result of a request with the predicate rule of R37. -/
def Done.ofRes (w : Word) : Done := { res := w, pres := w != 0#32 }
def Done.mk2 (w : Word) (p : Bool) : Done := { res := w, pres := p }

-- Write-back.

/-- Marks the destinations of a firing as in flight (R34, R36). -/
def Ctx.claim (c : Ctx) (dst pdst : Option (BitVec 3)) : Ctx :=
  let c := match dst with
    | some n => { c with busy := c.busy ||| (1#8 <<< n.toNat) }
    | none => c
  match pdst with
  | some n => c.setPred n .pending
  | none => c

/-- Writes the destinations of a firing (R35); where the data was bad, the register keeps its value and the predicate is
false (R47). -/
def Ctx.write (c : Ctx) (dst pdst : Option (BitVec 3)) (d : Done) : Ctx :=
  let c := match dst with
    | some n => if d.good then { c.setReg n d.res with busy := c.busy &&& ~~~(1#8 <<< n.toNat) }
                else { c with busy := c.busy &&& ~~~(1#8 <<< n.toNat) }
    | none => c
  match pdst with
  | some n => c.setPred n (Pred.ofBool (d.good && d.pres))
  | none => c

/-- Register, predicate and emissions of a firing take effect together, before the firings of cycle `t` (R35). -/
def State.writeBack (s : State) (own : Nat) (c : CtxId) (dst pdst : Option (BitVec 3)) (d : Done) (t : Nat) : State :=
  let s := s.updCtx c fun x => x.write dst pdst d
  let s := if d.good then s.emit c own d t else s
  s.release own (if d.good then d.om else 0#8)

-- Fault records.

/-- The gang of a region, and the fields of its launch record that faults name. -/
def State.gang (s : State) (g : Nat) : Option Gang := s.dies.gangs.look g
def State.updGang (s : State) (g : Nat) (f : Gang → Gang) : State :=
  { s with dies := { s.dies with gangs := s.dies.gangs.upd g f } }
def Gang.fring (g : Gang) : Nat := fieldAt g.rcd 0x0E 2
def State.fringOf (s : State) (gang : Nat) : Nat := ((s.gang gang).map Gang.fring).getD 0
def State.lrecOf (s : State) (gang : Nat) : Nat := ((s.gang gang).map fun g => g.recVA).getD 0

/-- The origin of what a firing issues. -/
def State.origin (s : State) (f : Firing) (rounded : Bool) : Origin :=
  match s.region f.ctx.region with
  | some g => { ctx := f.ctx, slot := f.slot, lease := g.lease, gang := g.gang, inst := g.inst, rounded }
  | none => { ctx := f.ctx, slot := f.slot, rounded }

/-- TX, TY, EXY and KS of a context and slot (R197). -/
def recTx (c : CtxId) : Nat := tileX (c.el / 16)
def recTy (c : CtxId) : Nat := tileY (c.el / 16)
def recExy (c : CtxId) : Nat := c.el % 16
def recKs (c : CtxId) (slot : Nat) : Nat := c.k + 16 * slot

/-- The record of a fault that a firing or command of `org` raised (R197). -/
def State.mkRec (s : State) (org : Origin) (cls : Nat) (info : List Byte) (va : Nat := 0) (word : Word := 0#32) : Rec :=
  { cls, flags := if org.rounded then 1 else 0, lease := org.lease, tx := recTx org.ctx, ty := recTy org.ctx,
    exy := recExy org.ctx, ks := recKs org.ctx org.slot, inst := org.inst, word, va, info, lrec := s.lrecOf org.gang }

/-- INFO of uncorrectable data (R198): access kind and memory. -/
def badInfo (kind mem : Nat) : List Byte := [BitVec.ofNat 8 kind, BitVec.ofNat 8 mem]

/-- Gives a record over for posting; `frozen` are the elements that stay frozen until it is posted. -/
def State.giveRec (s : State) (c : CtxId) (core ring : Nat) (frozen : List Nat) (r : Rec) : State :=
  { s with fab := { s.fab with recs := s.fab.recs ++ [{ id := s.uid, ctx := c, core, ring, frozen, rcd := r }] },
           uid := s.uid + 1 }

/-- Posts an engine's fault to the issuing context; it freezes nothing and voids nothing (R271). -/
def State.engineFault (s : State) (org : Origin) (r : Rec) : State :=
  s.giveRec org.ctx (coreOf org.ctx.region) (s.fringOf org.gang) [] r

/-- The physical elements of a context's chain, or its own (R44). -/
def Region.membersOf (g : Region) (c : CtxId) : List Nat := (g.chainOf c.el c.k).map g.phys

/-- Gives the elements of a context's chain the freeze that `how` makes of the record's name, and the record over for posting. -/
def State.freezeBy (s : State) (how : Nat → Freeze) (c : CtxId) (r : Rec) : State :=
  match s.region c.region with
  | none => s
  | some g =>
    let els := g.membersOf c
    let r := if 1 < els.length then { r with flags := r.flags + 4 } else r
    let s := els.foldl (fun s p => s.updElem p fun e => e.frozenBy (how s.uid) c.region) s
    s.giveRec c (coreOf c.region) (s.fringOf g.gang) els r

/-- Freezes the element of a context, or its whole chain, at once, until the record given is posted (R44, R47). -/
def State.freezeFor (s : State) (c : CtxId) (r : Rec) : State := s.freezeBy .waiting c r
/-- Freezes the element of a context, or its whole chain, from the next cycle (R136). -/
def State.freezeNext (s : State) (c : CtxId) (r : Rec) : State := s.freezeBy .soon c r
/-- The element of a cancelled firing fires nothing else in its cycle (R29). -/
def State.spend (s : State) (c : CtxId) : State := s.updElem (s.physOf c) fun e => { e with spent := true }
/-- Freezes the element of a cancelled firing, or its whole chain, from the next cycle: a firing of another context in this cycle stands,
as R27 reads the state at its start (R44). -/
def State.freezeFault (s : State) (c : CtxId) (r : Rec) : State := (s.spend c).freezeBy .faulted c r

/-- As `freezeFault`, on a procedural fill (R45). -/
def State.freezeFill (s : State) (c : CtxId) (slot : Nat) : State :=
  match s.region c.region with
  | none => s
  | some g => (g.membersOf c).foldl (fun s p => s.updElem p fun e => e.frozenBy (.missed c slot) c.region) (s.spend c).bump

/-- A freeze on the procedural fill that a context's access has met. -/
def Freeze.fillOf (c : CtxId) : Freeze → Bool
  | .fill x _ | .missed x _ => x = c
  | _ => false
/-- The elements of a context's chain are no longer frozen on its fill; what else froze them stands (R45, R46). -/
def State.thawFill (s : State) (c : CtxId) : State :=
  match s.region c.region with
  | none => s
  | some g => (g.membersOf c).foldl (fun s p => s.updElem p fun e => e.thaw fun f _ => f.fillOf c) s

/-- A token that a detached node has left waits there for a place at the target: it is on no route (R247, R248). -/
def Flit.atNode (f : Flit) (clk : Nat) : Bool := f.owes && f.filled && decide (f.arrive ≤ clk)

/-- Whether a freeze stops firings in this cycle. -/
def Freeze.stops : Freeze → Bool
  | .no | .soon _ | .faulted _ | .missed .. => false
  | _ => true
/-- Whether an element fires nothing in this cycle. -/
def Elem.stopped (e : Elem) : Bool := e.freezes.any fun f => f.1.stops
/-- Whether a firing of this cycle was cancelled. -/
def Freeze.cancels : Freeze → Bool
  | .faulted _ | .missed .. => true
  | _ => false

-- Rounds.

/-- The half that round n + 1 uses, with n rounds committed (R180). -/
def Round.half (r : Round) : Half := if r.n % 2 = 0 then r.h0 else r.h1
def Round.setHalf (r : Round) (h : Half) : Round := if r.n % 2 = 0 then { r with h0 := h } else { r with h1 := h }

/-- The rounded contexts of a region. -/
def Region.roundSet (g : Region) : List Ctx := g.ctxs.filter Ctx.isRounded
def Region.isRoundCtx (g : Region) (c : CtxId) : Bool := g.ctxs.any fun x => x.el = c.el ∧ x.k = c.k ∧ x.isRounded

/-- Whether what a token came by belongs to the round set. -/
def Region.viaInRound (g : Region) (r : Nat) : Via → Bool
  | .none => false
  | .route c _ => c.region = r ∧ g.isRoundCtx c
  | .gen q n => q = r ∧ ((g.gens.look n).map fun x => x.rounded).getD false
  | .node q n => q = r ∧ ((g.nodes.look n).map fun x => g.isRoundCtx x.ctx).getD false

/-- The contexts, channels, generators and nodes that a commit records (R187). The credits recorded for a route count those on
their way back: the full count less the tokens held in the recorded channels and in a node's FIFO. -/
def State.checkpoint (s : State) (r : Nat) (g : Region) : Shadow :=
  let els := (g.roundSet.map fun c => c.el).dedup
  let chans := (els.map fun el => (List.range 4).map fun n => (4 * el + n, (s.elem (g.phys el)).chan n)).flatten
  let waiting (v : Via) : Nat :=
    ((chans.map fun e => (e.2.filter fun t => t.via = v).length).sum) +
    ((g.nodes.map fun e => (e.2.fifo.filter fun t => t.via = v).length).sum)
  { ctxs := g.roundSet.map fun c =>
      { c with credits := (List.range 8).map fun o => c.credOf o - waiting (.route (c.id r) o), busy := 0#8 },
    chans,
    gens := (g.gens.filter fun e => e.2.rounded).map fun e =>
      (e.1, { e.2 with credits := bitsOf 16 3 (wordAt e.2.p 10).toNat - waiting (.gen r e.1), fetch := .idle, old := false, eng := none }),
    nodes := (g.nodes.filter fun e => g.isRoundCtx e.2.ctx).map fun e =>
      let full := ((g.ctx e.2.ctx.el e.2.ctx.k).map fun c => c.credOf e.2.o).getD 0
      (e.1, { e.2 with credits := full - waiting (.node r e.1) }),
    late := s.fab.flits.filter fun f => f.owes && f.ctx.region = r && g.isRoundCtx f.ctx,
    ckpt := g.ckpt.filter fun e => g.viaInRound r e.1 }

/-- A node takes its place on its route (R247): the direct tokens of the route, and its checkpoint tokens that are still to be placed
(R389), count against the node's credits at the target, and the route's credits count places in its FIFO. -/
def State.seat (s : State) (r t : Nat) (n : Node) : State :=
  let retag (v : Via) : Via := if v = .route n.ctx n.o then .node r t else v
  let fab : Fab := { s.fab with
    elems := s.fab.elems.map fun e => (e.1, { e.2 with ch := e.2.ch.map fun q => q.map fun x => { x with via := retag x.via } }),
    credRets := s.fab.credRets.map fun x => { x with dest := retag x.dest } }
  let credits := ((s.ctx n.ctx).map fun c => c.credits.getD n.o 0).getD 0
  ({ s with fab }.updRegion r fun g => { g with
    nodes := g.nodes.put t { n with credits }, ckpt := g.ckpt.map fun (e : Via × List Token) => (retag e.1, e.2) }).updCtx n.ctx fun c =>
    { c with credits := setAt 8 0 c.credits n.o (c.credOf n.o) }

/-- Ring counters return to those of a round set's last commit (R189). -/
def Region.rewind (g : Region) (r : Nat) : Region :=
  { g with rings := g.rings.map fun q =>
      { q with views := q.views.upd r fun v => { v with head := v.committed, tail := q.tail } } }

/-- The tokens of a generator that are in channels or whose credits are on their way back. -/
def State.genOut (s : State) (r n : Nat) : Nat :=
  ((s.fab.elems.map fun e => (e.2.ch.map fun c => (c.filter fun t => t.via = .gen r n).length).sum).sum) +
  (s.fab.credRets.filter fun c => c.dest = .gen r n).length

/-- A generator as a voided round leaves it (R189, R227). One that stood outside the round set when a firing of the round changed it
holds the credits that its tokens leave it by now. -/
def State.genBack (s : State) (r : Nat) (sh : Shadow) (e : Nat × Gen) : Nat × Gen :=
  match sh.gens.look e.1 with
  | none => e
  | some x => (e.1, if x.rounded then x else { x with credits := bitsOf 16 3 (wordAt x.p 10).toNat - s.genOut r e.1 })

/-- A context as a voided round leaves it: its shadow's (R187), but the counts of starvation stand, which no shadow holds (R192). -/
def Shadow.ctxBack (sh : Shadow) (c : Ctx) : Ctx :=
  match sh.ctxs.find? fun x => x.el = c.el ∧ x.k = c.k with
  | none => c
  | some x => { x with starv := c.starv }

/-- A node as its attachment left it, without a token: a voided round discards what it has taken since (R189, R248). -/
def Node.anew (n : Node) : Node :=
  { n with fifo := [], store := [], emitting := false, pos := 0, blocks := 0, detached := false }

/-- Restores the checkpoint and discards the open half (R189, steps 1 to 4); the region is then held. A node that a drained CTURN has
attached since the commit stays attached (R187, R248). A recorded node is attached again as the record has it, also where it has detached and
signalled since, or another has been attached in its place, which is dropped (DESIGN CHOICE, log 99). -/
def State.voidRound (s : State) (r : Nat) : State :=
  match s.region r with
  | none => s
  | some g =>
    match g.round.shadow with
    | none => s.updRegion r fun g => { g with round := { g.round with isOpen := false, held := true } }
    | some sh =>
      let inRound (c : CtxId) : Bool := c.region = r ∧ g.isRoundCtx c
      let fab := { s.fab with
        wbs := s.fab.wbs.filter fun w => !inRound w.ctx,
        flits := s.fab.flits.filter (fun f => !inRound f.ctx) ++ sh.late,
        credRets := s.fab.credRets.filter fun c => !g.viaInRound r c.dest,
        lanes := s.fab.lanes.filter fun l => !inRound l.lead,
        reqs := s.fab.reqs.filter fun q => !(inRound q.org.ctx && q.org.rounded && q.org.lease = g.lease) }
      let s := { s with fab }
      let s := sh.chans.foldl (fun s e =>
        s.updElem (g.phys (e.1 / 4)) fun x => { x with ch := setAt 4 [] x.ch (e.1 % 4) e.2 }) s
      let s : State := { s with regions := s.regions.map fun (e : Nat × Region) => (e.1, e.2.rewind r) }
      let since := g.nodes.filter fun e => g.isRoundCtx e.2.ctx && (sh.nodes.look e.1).isNone
      let s := s.updRegion r fun (g : Region) =>
        { g with
          ctxs := g.ctxs.map sh.ctxBack,
          gens := g.gens.map (s.genBack r sh),
          nodes := sh.nodes.foldl (fun t (e : Nat × Node) => t.put e.1 e.2)
            (g.nodes.filter fun (e : Nat × Node) => !g.isRoundCtx e.2.ctx),
          ckpt := sh.ckpt ++ g.ckpt.filter fun (e : Via × List Token) => !g.viaInRound r e.1,
          round := { (g.round.setHalf {}) with isOpen := false, early := false, held := true } }
      let s := since.foldl (fun s e => s.seat r e.1 e.2.anew) s
      sh.late.foldl (fun s f => s.payDebts f.ctx f.o) s

/-- Raises a fault at a firing (R43, R44, R189): a direct firing is cancelled, and its element freezes; in a rounded context the
round is voided. -/
def State.raise (s : State) (f : Firing) (rounded : Bool) (r : Rec) : State :=
  if rounded then
    let chain := ((s.region f.ctx.region).map fun g => decide (1 < (g.chainOf f.ctx.el f.ctx.k).length)).getD false
    let s := s.voidRound f.ctx.region
    s.giveRec f.ctx (coreOf f.ctx.region) (s.fringOf (((s.region f.ctx.region).map fun g => g.gang).getD 0)) []
      { r with flags := r.flags ||| 2 ||| if chain then 4 else 0 }
  else s.freezeFault f.ctx r

end Sys2Proof.Machine
end

