-- ==== Sys2Proof/Machine/Mem.lean ====
section
/-!
DEFINITION. Memory: home locations (R335, R336), what homes and cluster caches hold (R288 to R291, R337), the die links that
requests cross (R422, R424), memory-mapped registers, address spaces and translation (R339 to R347), and procedural ranges
(R350 to R353).
-/

namespace Sys2Proof.Machine

-- Home locations.

def stackBytes : Nat := 48 * 2 ^ 30
def pkgBytes : Nat := 576 * 2 ^ 30

/-- The location of a physical address under an interleave: stack × 48 GiB + byte within the stack (R335). -/
def locOf (dieInter : Bool) (pa : Nat) : Option Nat :=
  if dieInter then
    let low := pa % 2 ^ 38
    if pa < 2 ^ 40 ∧ low < 144 * 2 ^ 30 then
      let g := low / 4096
      some ((3 * (pa / 2 ^ 38) + g % 3) * stackBytes + g / 3 * 4096 + pa % 4096)
    else none
  else if pa < pkgBytes then
    let g := pa / 4096
    some (g % 12 * stackBytes + g / 12 * 4096 + pa % 4096)
  else none

/-- The home die of a location (R334). -/
def homeDie (loc : Nat) : Nat := loc / stackBytes / 3

-- Links (R422, R424).

/-- The links that traffic from die a to die b takes. -/
def pathLinks (a b : Nat) : List Nat :=
  if a % 4 = b % 4 then []
  else if (a + 1) % 4 = b % 4 then [a % 4]
  else if (b + 1) % 4 = a % 4 then [b % 4]
  else [a % 4, (a + 1) % 4]

/-- The failed link, if any, on the path of a request and its reply. -/
def State.cut (s : State) (a b : Nat) : Option Nat :=
  (pathLinks a b ++ pathLinks b a).find? fun l => ((s.pkg.links[l]?).map fun x => x.failed).getD false

/-- A link on the way from die a to die b retrains, and carries nothing (R423). -/
def State.training (s : State) (a b : Nat) : Bool :=
  (pathLinks a b).any fun l => ((s.pkg.links[l]?).map fun x => x.retraining).getD false
/-- A link on the way of a request from die a to die b, or of its reply, retrains: both wait (R423). -/
def State.retrains (s : State) (a b : Nat) : Bool := s.training a b || s.training b a
/-- A link on the way from a die to some other die, or back, retrains: what the die's loader, dispatcher and fill directory read waits
until it is up (R423). -/
def State.dieWaits (s : State) (d : Nat) : Bool := (List.range 4).any (s.retrains d)

-- What the homes hold.

def State.homeByte (s : State) (loc : Nat) : Byte := cellAt s.store.cells loc
def State.homeBytes (s : State) (loc n : Nat) : List Byte := (List.range n).map fun i => s.homeByte (loc + i)

/-- The condition of a WAITA on the word it watches (R293). -/
def GAcc.cond (a : GAcc) (m : Word) : Bool :=
  match a.op with
  | .waita true => m = a.a
  | _ => m ≠ a.a

/-- A write to a sector re-evaluates the WAITA entries and the PRED fields that watch it (R293, R299). Of a sector that stays marked,
each WAITA receives the fault (R337). -/
def State.wake (s : State) (sec : Nat) : State :=
  let word (loc : Nat) : Word := leWord (s.homeBytes loc 4)
  let mark := s.store.marks.look sec
  let req (q : Req) : Req := match q.stage with
    | .parked (.waita a t none) =>
      if a.loc / 32 ≠ sec then q
      else match mark with
        | some code => { q with parks := false,
                                stage := .bad (s.mkRec q.org 0x0B (badInfo 0 code) a.va) { om := q.om, colour := q.colour, good := false } }
        | none => if a.cond (word a.loc) then { q with stage := .parked (.waita a t (some (word a.loc))) } else q
    | _ => q
  let gang (g : Gang) : Gang := match g.predLoc with
    | some l => if l / 32 = sec ∧ mark.isNone ∧ s.homeBytes l 2 = [0#8, 0#8] then { g with predZero := true } else g
    | none => g
  { s with fab := { s.fab with reqs := s.fab.reqs.map req },
           dies := { s.dies with gangs := s.dies.gangs.map fun e => (e.1, gang e.2) } }

/-- One write to a sector at its home: bytes by location. A write of all 32 bytes clears the sector's error mark (R337). The
stack's older bytes are remembered until L2 is written back (R440, R458). -/
def State.writeSector (s : State) (sec : Nat) (ws : List (Nat × Byte)) : State :=
  let st := s.store
  let stale := ws.foldl (fun t w => match t.look w.1 with
    | some _ => t
    | none => t.put w.1 (cellAt st.cells w.1)) st.stale
  let cells := ws.foldl (fun m w => cellPut m w.1 w.2) st.cells
  let marks := if ws.length = 32 then st.marks.drop sec else st.marks
  { s with store := { st with stale, cells, marks } }.wake sec

/-- Bytes with their locations. -/
def located (loc : Nat) (bs : List Byte) : List (Nat × Byte) := bs.mapIdx fun i b => (loc + i, b)

/-- Writes bytes at their home, one write for each sector. -/
def State.homePut (s : State) (loc : Nat) (bs : List Byte) : State :=
  (List.range ((loc + bs.length + 31) / 32 - loc / 32)).foldl (fun s i =>
    let sec := loc / 32 + i
    match (located loc bs).filter fun w => w.1 / 32 = sec with
    | [] => s
    | ws => s.writeSector sec ws) s

/-- The error mark of a sector: the memory code (R337). -/
def State.markOf (s : State) (loc : Nat) : Option Nat := s.store.marks.look (loc / 32)
def State.setMark (s : State) (sec code : Nat) : State :=
  { s with store := { s.store with marks := s.store.marks.put sec code } }

/-- Bytes at a physical address decoded with I = 0 (R335). -/
def State.physBytes (s : State) (pa n : Nat) : List Byte :=
  (List.range n).map fun i => match locOf false (pa + i) with
    | some l => s.homeByte l
    | none => Config.nowhere (pa + i)
/-- A write at a physical address; bytes that no stack holds go nowhere (log 16). -/
def State.physPut (s : State) (pa : Nat) (bs : List Byte) : State :=
  let ws := (bs.mapIdx fun i b => (pa + i, b)).filterMap fun w => (locOf false w.1).map fun l => (l, w.2)
  let secs := (ws.map fun w => w.1 / 32).dedup
  secs.foldl (fun s sec => s.writeSector sec (ws.filter fun w => w.1 / 32 = sec)) s
/-- The same by die `d`; what lies across a failed link is not written (R424). -/
def State.physPutFrom (s : State) (d pa : Nat) (bs : List Byte) : State :=
  let reached (a : Nat) : Bool := (locOf false a).all fun l => (s.cut d (homeDie l)).isNone
  let runs := (bs.mapIdx fun i b => (pa + i, b)).splitBy fun a b => reached a.1 == reached b.1
  runs.foldl (fun s r => match r.head? with
    | some (a, _) => if reached a then s.physPut a (r.map fun w => w.2) else s
    | none => s) s

-- Cluster caches (R288 to R291).

def dirtyKey (cl loc : Nat) : Nat := cl * 2 ^ 40 + loc

/-- A byte as the agents of a cluster read it. -/
def State.clusterByte (s : State) (cl loc : Nat) : Byte := (s.store.dirty.look (dirtyKey cl loc)).getD (s.homeByte loc)

/-- A store writes its bytes into the cluster cache (R289). -/
def State.dirtyPut (s : State) (cl loc : Nat) (bs : List Byte) : State :=
  { s with store := { s.store with dirty := (located loc bs).foldl (fun t w => t.put (dirtyKey cl w.1) w.2) s.store.dirty } }

/-- The dirty bytes of a sector in a cluster cache, by location. -/
def State.dirtyOf (s : State) (cl sec : Nat) : List (Nat × Byte) :=
  (List.range 32).filterMap fun i => (s.store.dirty.look (dirtyKey cl (32 * sec + i))).map fun b => (32 * sec + i, b)

/-- Wide releases no longer wait for a line of which no byte is dirty any more (R290). -/
def Store.prune (t : Store) (line : Nat) : Store :=
  if t.dirty.any fun e => e.1 / 128 * 128 = line then t
  else { t with wides := t.wides.map fun w => { w with lines := w.lines.filter fun l => l ≠ line } }

/-- Marks the sectors of a line in error, with the cluster cache's memory code (R291). -/
def State.markLine (s : State) (loc : Nat) : State := (List.range 4).foldl (fun s i => s.setMark (loc / 128 * 4 + i) 2) s

/-- Writes back the dirty bytes of a sector (R289); where they are uncorrectable, the line's sectors are marked instead (R291). -/
def State.writeBackSector (s : State) (cl sec : Nat) : State :=
  match s.dirtyOf cl sec with
  | [] => s
  | ws =>
    let key := dirtyKey cl (32 * sec)
    let bad := s.store.badDirty.contains key
    let s := { s with store := { s.store with dirty := s.store.dirty.filter fun e => e.1 / 32 ≠ key / 32,
                                              badDirty := s.store.badDirty.filter fun x => x ≠ key }.prune (key / 128 * 128) }
    if bad then s.markLine (32 * sec) else s.writeSector sec ws

/-- The lines that hold dirty bytes in a cluster cache, as cluster × 2^40 + location (R311). -/
def State.dirtyLines (s : State) (cl : Nat) : List Nat :=
  ((s.store.dirty.filter fun e => e.1 / 2 ^ 40 = cl).map fun e => e.1 / 128 * 128).dedup

/-- Writes back a line; the wide releases that wait for it go on (R289, R290). One of whose sectors is uncorrectable is marked whole,
whatever the others write (R291). -/
def State.writeBackLine (s : State) (line : Nat) : State :=
  let cl := line / 2 ^ 40
  let bad := s.store.badDirty.any fun k => k / 128 * 128 = line
  let s := (List.range 4).foldl (fun s i => s.writeBackSector cl (line % 2 ^ 40 / 32 + i)) s
  if bad then s.markLine (line % 2 ^ 40) else s

/-- The lines of a cluster cache: 16 MiB of 128 bytes (R288). -/
def clusterLines : Nat := 131072

/-- A line makes room where a cluster cache is full: which is open. Its dirty bytes are written back (R288, R290). -/
def State.makeRoom (s : State) (cl : Nat) : State :=
  let mine := s.store.copies.filter fun k => k / 2 ^ 40 = cl
  if mine.length < clusterLines then s
  else
    let may (k : Nat) : Bool := !s.training (cl / 4) (homeDie (k % 2 ^ 40)) && (s.cut (cl / 4) (homeDie (k % 2 ^ 40))).isNone
    match (rotated (Config.order s.free) mine).find? may with
    | none => s
    | some k =>
      let s := ({ s with free := s.free + 1 } : State).writeBackLine k
      { s with store := { s.store with copies := s.store.copies.filter fun x => x ≠ k } }

/-- Notes that a cluster cache may hold a line. -/
def State.touch (s : State) (cl loc : Nat) : State :=
  let k := dirtyKey cl (loc / 128 * 128)
  if s.store.copies.contains k then s
  else
    let s := s.makeRoom cl
    { s with store := { s.store with copies := k :: s.store.copies } }

/-- A store of an agent of a cluster: the line is in its cache, with the bytes dirty (R288, R289). -/
def State.cachePut (s : State) (cl loc : Nat) (bs : List Byte) : State := (s.touch cl loc).dirtyPut cl loc bs

/-- Begins a wide release of some clusters (R290), under the name `s.uid`. -/
def State.beginWide (s : State) (cls : List Nat) (for_ : WideFor) : State :=
  { s with store := { s.store with wides := s.store.wides ++
      [{ id := s.uid, lines := (cls.map s.dirtyLines).flatten, for_ }] }, uid := s.uid + 1 }

/-- What stands in the way of reading bytes of a sector from a cluster: the memory code of an uncorrectable error (R291, R337). -/
def State.readError (s : State) (cl loc : Nat) : Option Nat :=
  if s.store.badDirty.contains (dirtyKey cl (loc / 32 * 32)) then some 2 else s.markOf loc

/-- The held entries of a core (R183). -/
def State.heldOf (s : State) (core : Nat) : List Entry :=
  ((s.regions.filter fun e => coreOf e.1 = core).map fun e => e.2.round.h0.entries ++ e.2.round.h1.entries).flatten

/-- The newest value that an entry of a core holds, where `f` finds one (R183). -/
def State.newest {α : Type} (s : State) (core : Nat) (f : Held → Option α) : Option α :=
  ((s.heldOf core).foldl (fun (best : Option (Nat × α)) e => match f e.eff with
    | none => best
    | some v => match best with
      | some b => if b.1 ≤ e.age then some (e.age, v) else best
      | none => some (e.age, v)) none).map fun b => b.2

/-- The byte of a byte string that starts at `at_`, at position `x`. -/
def byteIn (at_ : Nat) (bs : List Byte) (x : Nat) : Option Byte := if at_ ≤ x then bs[x - at_]? else none

/-- The newest value that a core holds for a global byte (R183). -/
def State.heldByte (s : State) (core loc : Nat) : Option Byte :=
  s.newest core fun h => match h with
    | .st l _ bs _ => byteIn l bs loc
    | _ => none
/-- A global byte as an agent of a core reads it; an agent of a round set takes held bytes first (R183). -/
def State.readByte (s : State) (core : Nat) (rounded : Bool) (loc : Nat) : Byte :=
  let plain := s.clusterByte (clusterOfCore core) loc
  if rounded then (s.heldByte core loc).getD plain else plain
/-- A read of the round set takes every one of some bytes from held entries, and none from memory (R183). -/
def State.allHeld (s : State) (core : Nat) (rounded : Bool) (loc n : Nat) : Bool :=
  rounded && (List.range n).all fun i => (s.heldByte core (loc + i)).isSome
def State.readBytes (s : State) (core : Nat) (rounded : Bool) (loc n : Nat) : List Byte :=
  (List.range n).map fun i => s.readByte core rounded (loc + i)

-- Registers.

/-- The BAR0 offset of a die's block, and of its pages (R426, R429). -/
def dieBlock (d : Nat) : Nat := 0x100000 + 0x300000 * d
def memPage (d : Nat) : Nat := dieBlock d
def dispPage (d : Nat) : Nat := dieBlock d + 0x1000
def gfxPage (d : Nat) : Nat := dieBlock d + 0x2000
/-- Of a cluster of the package. -/
def clusterPage (cl : Nat) : Nat := dieBlock (cl / 4) + 0x10000 + 0x1000 * (cl % 4)
def queuePage (d : Nat) : Nat := dieBlock d + 0x20000
/-- Of a core of the package. -/
def regionPage (core : Nat) : Nat := dieBlock (dieOfCore core) + 0x40000 + 0x2000 * (core % 16)
def syncPage (core : Nat) : Nat := dieBlock (dieOfCore core) + 0x41000 + 0x2000 * (core % 16)

/-- A register that holds a value of its own, by BAR0 offset, with its reset value. -/
def State.mmio (s : State) (off : Nat) (reset : Word) : Word := s.pkg.mmio.lookD off reset
def State.mmioNat (s : State) (off reset : Nat) : Nat := (s.mmio off (BitVec.ofNat 32 reset)).toNat
def State.setMmio (s : State) (off : Nat) (v : Word) : State :=
  { s with pkg := { s.pkg with mmio := s.pkg.mmio.put off v } }
/-- A saturating counter. -/
def State.count (s : State) (off : Nat) : State := s.setMmio off (BitVec.ofNat 32 (sat32 (s.mmioNat off 0 + 1)))

-- Address spaces and page tables (R339 to R345).

structure ASpace where
  v : Bool
  asid : Nat
  nrng : Nat
  root : Nat
  rtab : Nat
  bad : Bool
  deriving DecidableEq, Repr, Inhabited

/-- A 64-bit number in memory. -/
def State.phys8 (s : State) (pa : Nat) : Nat := leNat (s.physBytes pa 8)

/-- The base of a die's address-space table, and its number of entries (R370). -/
def State.astBase (s : State) (d : Nat) : Nat :=
  s.mmioNat (memPage d) 0 + 2 ^ 32 * s.mmioNat (memPage d + 4) 0
def State.astN (s : State) (d : Nat) : Nat := s.mmioNat (memPage d + 8) 0

/-- Entry `n` of a die's address-space table, if the table has it (R339). -/
def State.aspace (s : State) (d n : Nat) : Option ASpace :=
  if n < s.astN d then
    let b := s.physBytes (s.astBase d + 32 * n) 32
    let nat (o k : Nat) : Nat := leNat ((b.drop o).take k)
    let root := nat 8 8
    let rtab := nat 16 8
    some { v := bitOf 0 (nat 0 4), asid := nat 4 2 % 4096, nrng := nat 6 1, root, rtab,
           bad := nat 0 4 / 2 ≠ 0 || 4096 ≤ nat 4 2 || nat 7 1 ≠ 0 || nat 24 8 ≠ 0 || 64 < nat 6 1 ||
             root % 2 ^ 17 ≠ 0 || pkgBytes ≤ root || rtab % 64 ≠ 0 || pkgBytes ≤ rtab }
  else none

/-- Why a translation fails: a class with its level and cause, or uncorrectable data in a table. -/
inductive Deny where
  | fault (cls level cause : Nat)
  | bad (code : Nat)
  /-- The link named has failed on the way to what a walk reads (R424). -/
  | link (l : Nat)
  /-- A link retrains on the way to what a walk reads: nothing happens, and the access is made again (R423). -/
  | wait
  deriving DecidableEq, Repr, Inhabited

/-- A leaf entry with the virtual base and size of its page. -/
structure Leaf where
  raw : Nat
  va : Nat
  size : Nat
  level : Nat
  deriving DecidableEq, Repr, Inhabited

def Leaf.r (l : Leaf) : Bool := bitOf 2 l.raw
def Leaf.w (l : Leaf) : Bool := bitOf 3 l.raw
def Leaf.x (l : Leaf) : Bool := bitOf 4 l.raw
def Leaf.pc (l : Leaf) : Bool := bitOf 5 l.raw
def Leaf.i (l : Leaf) : Bool := bitOf 6 l.raw
def Leaf.pa (l : Leaf) : Nat := bitsOf 18 34 l.raw * 2 ^ 18
/-- The location of an address in the page. -/
def Leaf.loc (l : Leaf) (va : Nat) : Option Nat := locOf l.i (l.pa + va % l.size)

/-- The bits of a virtual address below those that level `lv` indexes, and the size of its table (R341). -/
def pageShift (lv : Nat) : Nat :=
  match lv with
  | 0 => 42
  | 1 => 30
  | 2 => 24
  | _ => 18
def tableSize (lv : Nat) : Nat :=
  match lv with
  | 0 => 2 ^ 17
  | 1 => 2 ^ 15
  | _ => 512

/-- Whether an entry breaks R342 for its level. -/
def badEntry (lv e : Nat) : Bool :=
  bitsOf 52 4 e ≠ 0 || bitsOf 7 2 e ≠ 0 ||
  (if bitOf 1 e then lv = 0 || bitsOf 9 9 e ≠ 0 || bitsOf 18 34 e * 2 ^ 18 % 2 ^ pageShift lv ≠ 0
   else lv = 3 || bitsOf 2 5 e ≠ 0 || bitsOf 9 43 e * 512 % tableSize (lv + 1) ≠ 0 || pkgBytes ≤ bitsOf 9 43 e * 512)

/-- What stands between a reader on die `d` and bytes at a physical address: a failed link, a link that retrains, a sector in error
(R337, R423, R424). -/
def State.physDeny (s : State) (d pa n : Nat) : Option Deny :=
  match locOf false pa with
  | none => none
  | some loc =>
    match s.cut d (homeDie loc) with
    | some l => some (.link l)
    | none =>
      if s.retrains d (homeDie loc) then some .wait
      else (List.range ((loc % 32 + n + 31) / 32)).findSome? fun i => (s.markOf (loc + 32 * i)).map Deny.bad

/-- The entry that a walk of die `d` reads: a non-leaf entry that the walkers hold may be used until it is invalidated (R346, R347). -/
def walkKey (d pa : Nat) : Nat := d * 2 ^ 60 + pa
def State.walkEntry (s : State) (d lv pa : Nat) : Nat :=
  let e := s.phys8 pa
  match s.dies.walks.look (walkKey d pa) with
  | some old => if old ≠ e && Config.happens (s.free + 1 + lv) then old else e
  | none => e

/-- Where level `lv` of a walk lies in table `t`. -/
def walkPa (va lv t : Nat) : Nat := t + va / 2 ^ pageShift lv % (tableSize lv / 8) * 8

/-- The walk (R343): `n` levels are left, level `lv` is read from table `t`. -/
def State.walkFrom (s : State) (d va : Nat) : Nat → Nat → Nat → Except Deny Leaf
  | 0, _, _ => .error (.fault 0x01 3 1)
  | n + 1, lv, t =>
    let pa := walkPa va lv t
    match s.physDeny d pa 8 with
    | some x => .error x
    | none =>
      let e := s.walkEntry d lv pa
      if !bitOf 0 e then .error (.fault 0x01 lv 0)
      else if badEntry lv e then .error (.fault 0x01 lv 1)
      else if bitOf 1 e then
        let l : Leaf := { raw := e, va := va / 2 ^ pageShift lv * 2 ^ pageShift lv, size := 2 ^ pageShift lv, level := lv }
        if (locOf l.i l.pa).isNone then .error (.fault 0x01 lv 1) else .ok l
      else s.walkFrom d va n (lv + 1) (bitsOf 9 43 e * 512)

/-- The valid non-leaf entries that a walk reads, by address: the walkers may cache them (R346). -/
def State.walkSteps (s : State) (d va : Nat) : Nat → Nat → Nat → List (Nat × Nat)
  | 0, _, _ => []
  | n + 1, lv, t =>
    let pa := walkPa va lv t
    let e := s.walkEntry d lv pa
    if (s.physDeny d pa 8).isSome || !bitOf 0 e || badEntry lv e || bitOf 1 e then []
    else (pa, e) :: s.walkSteps d va n (lv + 1) (bitsOf 9 43 e * 512)

/-- The walk of an address in an address space, as a die reads its table (R343). -/
def State.walk (s : State) (d as_ va : Nat) : Except Deny Leaf :=
  match s.aspace d as_ with
  | none => .error (.fault 0x01 0xFF 2)
  | some a =>
    match s.physDeny d (s.astBase d + 32 * as_) 32 with
    | some x => .error x
    | none =>
      if !a.v then .error (.fault 0x01 0xFF 2)
      else if a.bad then .error (.fault 0x01 0xFF 1)
      else s.walkFrom d va 4 0 a.root

/-- A die's walkers make a walk: it is counted, and they keep the non-leaf entries it read (R346, R370). -/
def State.walked (s : State) (d as_ va : Nat) : State :=
  let steps := match s.aspace d as_ with
    | some a => s.walkSteps d va 4 0 a.root
    | none => []
  let walks := steps.foldl (fun (t : Tab Nat) e => t.put (walkKey d e.1) e.2) s.dies.walks
  { s with dies := { s.dies with walks }, free := s.free + steps.length + 1 }.count (memPage d + 0x28)

/-- The names of TLBs: a core's is its number; a generator's micro-TLB, by physical tile and generator; an indirect stream engine's, by
stack (R346). -/
def microTlb (tile n : Nat) : Nat := 64 + 4 * tile + n
def engineTlb (stack : Nat) : Nat := 32832 + stack
def tlbSize (k : Nat) : Nat := if k < 64 then 1024 else if k < 32832 then 16 else 4096

/-- Puts a leaf into a TLB; where it is full, the oldest entry goes (R346). -/
def State.fillTlb (s : State) (core as_ asid : Nat) (l : Leaf) : State :=
  let mine := s.cores.tlb.filter fun e => e.core = core
  let old := if tlbSize core ≤ mine.length then mine.head? else none
  { s with cores := { s.cores with tlb := (s.cores.tlb.filter fun e => some e ≠ old) ++
      [{ core, asid, as_, va := l.va, leaf := l.raw, level := l.level }] } }

/-- The size of the page that a TLB entry maps. -/
def TlbEntry.size (e : TlbEntry) : Nat := 2 ^ pageShift e.level

/-- The entry of a TLB that covers an address (R340, R346). -/
def State.tlbHit (s : State) (core as_ asid va : Nat) : Option TlbEntry :=
  s.cores.tlb.find? fun e => e.core = core && (e.asid = asid || e.as_ = as_) && e.va = va / e.size * e.size

/-- The leaf that an access uses. An entry that the tables no longer hold may still be used until it is invalidated (R347). -/
def State.leafFor (s : State) (d : Nat) (core : Option Nat) (as_ va : Nat) : Except Deny Leaf × State :=
  let fresh := s.walk d as_ va
  match core with
  | none => (fresh, s.walked d as_ va)
  | some k =>
    let asid := ((s.aspace d as_).map fun a => a.asid).getD 0
    match s.tlbHit k as_ asid va with
    | some e =>
      let l : Leaf := { raw := e.leaf, va := e.va, size := e.size, level := e.level }
      if fresh = .ok l then (fresh, s)
      else
        let (old, s) := s.choice
        if old then (.ok l, s)
        else
          let s := { s with cores := { s.cores with tlb := s.cores.tlb.filter fun x => x ≠ e } }
          match fresh with
          | .ok n => (fresh, (s.walked d as_ va).fillTlb k as_ asid n)
          | .error _ => (fresh, s.walked d as_ va)
    | none =>
      let s := s.walked d as_ va
      match fresh with
      | .ok n => (fresh, s.fillTlb k as_ asid n)
      | .error _ => (fresh, s)

-- Procedural ranges (R350 to R353).

structure Range where
  idx : Nat
  /-- The physical address of its descriptor. -/
  desc : Nat
  base : Nat
  len : Nat
  lbs : Nat
  depth : Nat
  waf : Bool
  tex : Bool
  evt : Bool
  scope : Nat
  budget : Nat
  grec : Nat
  garg : Nat
  fmap : Nat
  bad : Bool
  deriving DecidableEq, Repr, Inhabited

/-- Descriptor `n` of a range table (R350). -/
def State.rangeAt (s : State) (rtab n : Nat) : Range :=
  let pa := rtab + 64 * n
  let b := s.physBytes pa 64
  let nat (o k : Nat) : Nat := leNat ((b.drop o).take k)
  let flags := nat 0x12 1
  { idx := n, desc := pa, base := nat 0 8, len := nat 8 8, lbs := nat 0x10 1,
    depth := if nat 0x11 1 = 0 then 2 else nat 0x11 1, waf := bitOf 0 flags, tex := bitOf 1 flags, evt := bitOf 2 flags,
    scope := nat 0x13 1, budget := nat 0x14 4, grec := nat 0x18 8, garg := nat 0x20 8, fmap := nat 0x28 8,
    bad := nat 0 8 % 2 ^ 18 ≠ 0 || nat 8 8 = 0 || nat 8 8 % 2 ^ 18 ≠ 0 || 2 ^ 56 < nat 0 8 + nat 8 8 ||
      nat 0x10 1 < 12 || 18 < nat 0x10 1 || 4 < nat 0x11 1 || 8 ≤ flags || nat 0x13 1 < 3 || 5 < nat 0x13 1 ||
      nat 0x18 8 % 256 ≠ 0 || nat 0x28 8 % 64 ≠ 0 || pkgBytes ≤ nat 0x28 8 || nat 0x38 8 ≠ 0 }

/-- The number of blocks, and the block that holds an address. -/
def Range.nb (r : Range) : Nat := r.len / 2 ^ r.lbs
def Range.blockOf (r : Range) (va : Nat) : Nat := (va - r.base) / 2 ^ r.lbs
/-- The serving die (R351). -/
def Range.die (r : Range) : Nat := homeDie ((locOf false r.fmap).getD 0)

/-- The range of an address, as a reader on die `d` finds it: the lowest-numbered descriptor whose span holds it, or what stands in the
way of the descriptors before it (R351). -/
def State.rangeOf (s : State) (d as_ va : Nat) : Except Deny (Option Range) :=
  match s.aspace d as_ with
  | none => .ok none
  | some a =>
    let look (n : Nat) : Option (Except Deny (Option Range)) :=
      match s.physDeny d (a.rtab + 64 * n) 64 with
      | some x => some (.error x)
      | none =>
        let r := s.rangeAt a.rtab n
        if r.base ≤ va ∧ va < r.base + r.len then some (.ok (some r)) else none
    ((List.range a.nrng).findSome? look).getD (.ok none)

/-- The state of a block in the fill map: 0 EMPTY, 1 FILLING, 2 FULL, 3 EVICTING (R352). -/
def State.blockState (s : State) (r : Range) (b : Nat) : Nat :=
  bitsOf (2 * (b % 4)) 2 (leNat (s.physBytes (r.fmap + b / 4) 1))
/-- The fill directory changes a byte of a fill map; in a sector marked in error it makes no write, as of every read-modify-write there (R337,
log 87). -/
def State.mapPut (s : State) (pa : Nat) (b : Byte) : State :=
  if ((locOf false pa).bind s.markOf).isSome then s else s.physPut pa [b]
def State.setBlock (s : State) (r : Range) (b st : Nat) : State :=
  let old := leNat (s.physBytes (r.fmap + b / 4) 1)
  s.mapPut (r.fmap + b / 4) (BitVec.ofNat 8 (old - 4 ^ (b % 4) * bitsOf (2 * (b % 4)) 2 old + 4 ^ (b % 4) * st))
/-- The reference bit of a block (R352). -/
def Range.refPa (r : Range) (b : Nat) : Nat := r.fmap + 64 * ((r.nb + 255) / 256) + b / 8
def State.blockRef (s : State) (r : Range) (b : Nat) : Bool := bitOf (b % 8) (leNat (s.physBytes (r.refPa b) 1))
def State.setRef (s : State) (r : Range) (b : Nat) (v : Bool) : State :=
  let old := leNat (s.physBytes (r.refPa b) 1)
  let bit := 2 ^ (b % 8)
  let off := if bitOf (b % 8) old then old - bit else old
  s.mapPut (r.refPa b) (BitVec.ofNat 8 (if v then off + bit else off))

/-- The fill slot that a gang fills (R357), with its fill. -/
def State.fillOfGang (s : State) (g : Nat) : Option Fill :=
  ((s.gang g).bind fun x => x.fill).bind fun n =>
    s.dies.fills.find? fun f => f.die * 1024 + f.slot = n && f.gang = g && !f.cancelled
/-- The fill under way of a block. -/
def State.fillOf (s : State) (r : Range) (as_ b : Nat) : Option Fill :=
  s.dies.fills.find? fun f => f.die = r.die && f.as_ = as_ && f.rng = r.idx && f.blk = b && !f.cancelled

-- Translation for an access.

/-- What an access asks of Translate: where it comes from, its address space and address, the permissions it needs, and
whether it may start a fill. `w` with `r` is a read-modify-write. -/
structure Ask where
  die : Nat
  core : Option Nat := none
  as_ : Nat
  va : Nat
  r : Bool := false
  w : Bool := false
  x : Bool := false
  tex : Bool := false
  gang : Nat := 0xFFFFFFFF
  /-- A prefetch, LD.S or look-ahead: reads block states and changes none (R353). -/
  quiet : Bool := false
  deriving DecidableEq, Repr, Inhabited

inductive Xlat where
  | ok (loc : Nat)
  | deny (d : Deny)
  /-- The block is not FULL, and the access waits for its fill (R207). -/
  | fill (r : Range) (blk : Nat)
  deriving DecidableEq, Repr, Inhabited

/-- What stands between an access from die `d` and the state of block `b`, which its range's serving die keeps (R337, R423, R424). -/
def State.blockDeny (s : State) (d : Nat) (r : Range) (b : Nat) : Option Deny := s.physDeny d (r.fmap + b / 4) 1
/-- The same for the block's reference bit. -/
def State.refDeny (s : State) (d : Nat) (r : Range) (b : Nat) : Option Deny := s.physDeny d (r.refPa b) 1

/-- An access raises procedural write: a read-modify-write on a range that is not writable-after-fill, in every state; a plain write
unless its block is FULL on a range that is (R207, R270, log 67). -/
def Range.writeBarred (r : Range) (st : Nat) (rmw : Bool) : Bool := if rmw then !r.waf else !(r.waf && st = 2)

/-- What an access meets at a block of a range (R207, R209, R353, R357). -/
def State.procedural (s : State) (q : Ask) (l : Leaf) (loc : Nat) (r : Range) : Xlat × State :=
  if r.bad then (.deny (.fault 0x02 l.level 5), s)
  else if q.tex ∧ !r.tex then (.deny (.fault 0x02 l.level 6), s)
  else if r.scope = 3 ∧ q.die ≠ r.die then (.deny (.fault 0x02 l.level 7), s)
  else
    let b := r.blockOf q.va
    match s.blockDeny q.die r b with
    | some x => (.deny x, s)
    | none =>
      let st := s.blockState r b
      let mine : Bool := match s.fillOfGang q.gang, s.fillOf r q.as_ b with
        | some f, some g => f.die = g.die && f.slot = g.slot
        | _, _ => false
      if st = 1 ∧ mine ∧ !q.quiet then (.ok loc, s)
      else if q.w && r.writeBarred st q.r then (.deny (.fault 0x10 l.level 0), s)
      else if st = 2 then
        if q.w ∧ !l.w then (.deny (.fault 0x02 l.level 3), s)
        else if q.quiet ∨ q.w then (.ok loc, s)
        else match s.refDeny q.die r b with
          | some x => (.deny x, s)
          | none => (.ok loc, s.setRef r b true)
      else (.fill r b, s)

/-- Translate with the checks of R344 and the procedural checks of R207. -/
def State.xlate (s : State) (q : Ask) : Xlat × State :=
  if 2 ^ 56 ≤ q.va then (.deny (.fault 0x01 0xFF 1), s)
  else
    let (l, s) := s.leafFor q.die q.core q.as_ q.va
    match l with
    | .error d => (.deny d, s)
    | .ok l => match l.loc q.va with
      | none => (.deny (.fault 0x01 l.level 1), s)
      | some loc =>
        let lacks := (q.r && !l.r) || (q.x && !l.x) || (q.w && !l.w && !l.pc)
        if !l.pc then (if lacks then .deny (.fault 0x02 l.level 3) else .ok loc, s)
        else match s.rangeOf q.die q.as_ q.va with
          | .error x => (.deny (if lacks then .fault 0x02 l.level 3 else x), s)
          | .ok range =>
            -- A texel of a range without texture-allowed raises that first (R415).
            let untex := q.tex && range.any fun r => !r.bad && !r.tex
            if lacks && !untex then (.deny (.fault 0x02 l.level 3), s)
            else match range with
              | none => (.deny (.fault 0x02 l.level 4), s)
              | some r => s.procedural q l loc r

end Sys2Proof.Machine
end

