-- ==== Sys2Proof/Machine/HwQueue.lean ====
section
/-!
DEFINITION. Hardware queues: their storage, slots, reservations and head (R304 to R306, R312).
-/

namespace Sys2Proof.Machine

def queueKey (die q : Nat) : Nat := 4096 * die + q
def State.hq (s : State) (die q : Nat) : HQueue := s.dies.queues.lookD (queueKey die q) {}
def State.updHq (s : State) (die q : Nat) (f : HQueue → HQueue) : State :=
  { s with dies := { s.dies with queues := s.dies.queues.alter (queueKey die q) {} f } }

namespace HQueue

def en (q : HQueue) : Bool := bitOf 31 q.cfg.toNat
def closed (q : HQueue) : Bool := bitOf 30 q.cfg.toNat
/-- Item size; code 3 is treated as 2 (R312). -/
def isize (q : HQueue) : Nat :=
  match bitsOf 28 2 q.cfg.toNat with
  | 0 => 16
  | 1 => 32
  | _ => 64
/-- Capacity; exponents above 20 are treated as 20 (R312). -/
def cap (q : HQueue) : Nat := 2 ^ min 20 (bitsOf 0 5 q.cfg.toNat)
def base (q : HQueue) : Nat := q.blo.toNat / 4096 * 4096 + 2 ^ 32 * (q.bhi.toNat % 2 ^ 20)
/-- Items reserved and not yet passed by the head (R305). -/
def used (q : HQueue) : Nat := (q.res - q.head).toNat
def full (q : HQueue) : Bool := q.used = q.cap
/-- The physical address of an item, and of the byte that holds its slot's state (R304). -/
def itemPa (q : HQueue) (t : Word) : Nat := q.base + t.toNat % q.cap * q.isize
def statePa (q : HQueue) (t : Word) : Nat := q.base + q.cap * q.isize + t.toNat % q.cap / 4

/-- The dies whose stacks hold the item and the state of a slot. -/
def slotDies (q : HQueue) (t : Word) : List Nat := ([q.itemPa t, q.statePa t].filterMap (locOf false)).map homeDie

end HQueue

/-- Orders by rank; equals keep their order. -/
def rankInsert {α : Type} (x : Nat × α) : List (Nat × α) → List (Nat × α)
  | [] => [x]
  | y :: r => if x.1 ≤ y.1 then x :: y :: r else y :: rankInsert x r
def ranked {α : Type} (l : List (Nat × α)) : List α := (l.foldr rankInsert []).map fun e => e.2

/-- The failed link between an issuer and a queue, or between the queue and one of the dies that hold its slot (R424). -/
def State.queueCut (s : State) (src die : Nat) (homes : List Nat) : Option Nat :=
  (s.cut src die).orElse fun _ => homes.findSome? (s.cut die)
/-- A link there retrains (R423). -/
def State.queueWaits (s : State) (src die : Nat) (homes : List Nat) : Bool := s.retrains src die || homes.any (s.retrains die)

/-- A cluster writes back its own dirty bytes of a slot's sectors before its operation goes to the queue (R288). -/
def State.ownSlot (s : State) (cl : Nat) (q : HQueue) (t : Word) : State :=
  (((List.range ((q.isize + 31) / 32)).map fun i => q.itemPa t + 32 * i) ++ [q.statePa t]).foldl (fun s pa =>
    match locOf false pa with
    | some l => s.writeBackSector cl (l / 32)
    | none => s) s

/-- The state of a slot: 0 free, 1 reserved, 2 committed, 3 void (R304). -/
def State.slotState (s : State) (q : HQueue) (t : Word) : Nat :=
  bitsOf (2 * (t.toNat % q.cap % 4)) 2 (leNat (s.physBytes (q.statePa t) 1))
def State.setSlot (s : State) (q : HQueue) (t : Word) (v : Nat) : State :=
  let old := leNat (s.physBytes (q.statePa t) 1)
  let j := t.toNat % q.cap % 4
  s.physPut (q.statePa t) [BitVec.ofNat 8 (old - 4 ^ j * bitsOf (2 * j) 2 old + 4 ^ j * v)]

/-- HEAD advances past void slots (R305); `n` bounds the number passed. -/
def State.skipVoid (die q : Nat) : Nat → State → State
  | 0, s => s
  | n + 1, s =>
    let h := s.hq die q
    if h.head = h.res then s
    else if s.slotState h h.head = 3 then
      State.skipVoid die q n ((s.setSlot h h.head 0).updHq die q fun x =>
        { x with head := x.head + 1#32, void := sat32 (x.void + 1) })
    else s

/-- Makes a reserved slot void (R308). -/
def State.voidSlot (s : State) (die q : Nat) (t : Word) : State :=
  let s := s.setSlot (s.hq die q) t 3
  let s := s.updHq die q fun x => { x with held := x.held.filter fun e => e.1 ≠ t }
  State.skipVoid die q (s.hq die q).cap s

/-- The reservation that a context would hold (R306). -/
def State.holder (s : State) (c : CtxId) : Holder :=
  match s.region c.region with
  | some g =>
    let x := g.ctx c.el c.k
    { launch := BitVec.ofNat 32 g.gang, inst := g.inst, actor := (x.map fun x => x.actor).getD 0,
      el := (x.map fun x => x.home).getD c.el, k := (x.map fun x => x.homeK).getD c.k }
  | none => { launch := 0xFFFFFFFF#32, inst := 0, actor := 0, el := c.el, k := c.k }

/-- Every reservation of an instance becomes void (R306, R391). -/
def State.voidReservations (s : State) (gang inst : Nat) : State :=
  s.dies.queues.foldl (fun s e =>
    (e.2.held.filter fun h => h.2.launch.toNat = gang && h.2.inst = inst).foldl (fun s h =>
      s.voidSlot (e.1 / 4096) (e.1 % 4096) h.1) s) s

/-- A reservation is made: the ticket, and the state (R305). -/
def State.reserveSlot (s : State) (die q : Nat) (h : Option Holder) : Word × State :=
  let x := s.hq die q
  let t := x.res
  (t, (s.setSlot x t 1).updHq die q fun y =>
    { y with res := y.res + 1#32, held := match h with
      | some h => y.held ++ [(t, h)]
      | none => y.held })

/-- An item is written into its slot, which is then committed (R305, R308). -/
def State.commitSlot (s : State) (die q : Nat) (t : Word) (item : List Byte) : State :=
  let x := s.hq die q
  ((s.physPut (x.itemPa t) (item.take x.isize)).setSlot x t 2).updHq die q fun y =>
    { y with held := y.held.filter fun e => e.1 ≠ t }

end Sys2Proof.Machine
end

