-- ==== Sys2Proof/Machine/Operands.lean ====
section
/-!
DEFINITION. What a firing reads: its place, its sources (R34, R54, R55), the system values (R119), and what a launch record says
of its levels (R295, R296).
-/

namespace Sys2Proof.Machine

/-- How an operation widens IMM16 (R55). -/
inductive ImmW where
  | s32 | s16x2 | s8x4 | z | f32 | f16x2
  deriving DecidableEq, Repr, Inhabited

/-- Role S with a type (R55). -/
def immS (t : Ty) : ImmW :=
  match t with
  | .i16x2 | .u16x2 => .s16x2
  | .i8x4 | .u8x4 => .s8x4
  | _ => .s32

/-- Role F with a type (R55). -/
def immF (t : Ty) : ImmW :=
  match t with
  | .f32 => .f32
  | _ => .f16x2

/-- The value of source code 12 (R55). -/
def immValue (w : ImmW) (imm : BitVec 16) : Word :=
  match w with
  | .s32 => imm.signExtend 32
  | .s16x2 | .f16x2 => imm ++ imm
  | .s8x4 => let b := imm.setWidth 8; b ++ b ++ b ++ b
  | .z => imm.setWidth 32
  | .f32 => imm ++ 0#16

/-- The fields of hierarchy level `n` of a launch record: EXT, BASE, CNT, DOM and SCOPE (R295). -/
structure Level where
  ext : Nat
  base : Nat
  cnt : Nat
  dom : Nat
  scope : Nat
  deriving DecidableEq, Repr, Inhabited

def levelOf (rcd : List Word) (n : Nat) : Level :=
  let v := fieldAt rcd (0x40 + 8 * n) 8
  { ext := bitsOf 0 16 v, base := bitsOf 16 16 v, cnt := bitsOf 32 16 v, dom := bitsOf 48 3 v, scope := bitsOf 51 3 v }

def nlvOf (rcd : List Word) : Nat := fieldAt rcd 6 1

/-- The levels of a record, innermost first. -/
def levelsOf (rcd : List Word) : List Level := (List.range (nlvOf rcd)).map (levelOf rcd)

/-- The product of CNT over the levels of domain 2 and above that stand inside level `n`. -/
def innerCount (ls : List Level) (n : Nat) : Nat :=
  (ls.take n).foldl (fun p l => if 2 ≤ l.dom then p * l.cnt else p) 1

/-- The product of EXT over the levels of domain `d` that stand inside level `n`. -/
def innerExt (ls : List Level) (n d : Nat) : Nat :=
  (ls.take n).foldl (fun p l => if l.dom = d then p * l.ext else p) 1

/-- The local index of instance `inst` at level `n`, in mixed radix with the innermost level fastest (R296). -/
def localIndex (ls : List Level) (n inst : Nat) : Nat :=
  match ls[n]? with
  | some l => inst / innerCount ls n % l.cnt
  | none => 0

/-- A gang's levels, with the counts that its cassette allows (R296, R378). -/
def Gang.levels (g : Gang) : List Level :=
  let ls := levelsOf g.rcd
  match g.cass with
  | some c => ls.mapIdx fun i l => if i = c.elv then { l with cnt := c.maxi } else l
  | none => ls

/-- The number of a compute tile among those of a frame, in ascending (ty, tx) (R296). -/
def tileNumber (wx t : Nat) : Nat :=
  ((List.range t).filter fun u => isCompute u && decide (tileX u < wx)).length

/-- LIDXn and LEXTn (R296). -/
def lidx (ls : List Level) (wx home inst n : Nat) : Nat :=
  match ls[n]? with
  | none => 0
  | some l =>
    if l.dom = 0 then home % 16 / innerExt ls n 0 % l.ext
    else if l.dom = 1 then tileNumber wx (home / 16) / innerExt ls n 1 % l.ext
    else l.base + localIndex ls n inst
def lext (ls : List Level) (n : Nat) : Nat :=
  match ls[n]? with
  | some l => l.ext
  | none => 1

/-- ELIN (R119). -/
def elinOf (wx el : Nat) : Nat :=
  let t := el / 16
  let e := el % 16
  (4 * tileY t + e / 4) * 4 * wx + 4 * tileX t + e % 4

/-- The system value that a selector names (R119). -/
def sysValue (s : State) (r : Nat) (g : Region) (c : Ctx) (sel : Nat) : Word :=
  let gang := s.gang g.gang
  let rcd := (gang.map fun x => x.rcd).getD []
  let wx := (gang.map fun x => x.frame.wx).getD g.wx
  let t := c.el / 16
  match sel with
  | 0x00 => BitVec.ofNat 32 (tileX t)
  | 0x01 => BitVec.ofNat 32 (tileY t)
  | 0x02 => BitVec.ofNat 32 (c.el % 4)
  | 0x03 => BitVec.ofNat 32 (c.el % 16 / 4)
  | 0x04 => BitVec.ofNat 32 c.k
  | 0x05 => BitVec.ofNat 32 (elinOf g.wx c.el)
  | 0x06 => BitVec.ofNat 32 g.wx
  | 0x07 => BitVec.ofNat 32 g.wy
  | 0x08 => BitVec.ofNat 32 g.inst
  | 0x09 => BitVec.ofNat 32 (g.laneOf c.el c.k)
  | 0x0A => BitVec.ofNat 32 (g.chainOf c.el c.k).length
  | 0x0B => if c.isRounded then 1#32 else 0#32
  | 0x0C => c.rcnt
  | 0x0D => BitVec.ofNat 32 g.lease
  | 0x0E => wordAt rcd 4
  | 0x0F => BitVec.ofNat 32 c.actor
  | 0x20 => BitVec.ofNat 32 (s.regionClk r)
  | 0x21 => c.cych
  | 0x22 => c.rndn
  | n =>
    if 0x10 ≤ n ∧ n ≤ 0x17 then BitVec.ofNat 32 (lidx (((gang.map Gang.levels)).getD []) wx c.home g.inst (n - 0x10))
    else if 0x18 ≤ n ∧ n ≤ 0x1F then BitVec.ofNat 32 (lext (((gang.map Gang.levels)).getD []) (n - 0x18))
    else 0#32

/-- What a firing sees: who fires, its region, context and element, its rule, and the values of its sources at the start of the
cycle (R34). -/
structure View where
  f : Firing
  r : Nat
  g : Region
  x : Ctx
  p : Nat
  e : Elem
  rule : Rule
  a : Word
  b : Word
  c : Word
  deriving DecidableEq, Repr, Inhabited

/-- The value of a source (R34, R54). -/
def srcValue (s : State) (r : Nat) (g : Region) (x : Ctx) (e : Elem) (w : ImmW) (imm : BitVec 16) (src : Src) : Word :=
  match src with
  | .chan n => ((e.head n.toNat).map fun t => t.payload).getD 0#32
  | .reg n => x.reg n
  | .imm => immValue w imm
  | .zero => 0#32
  | .pvec => x.pvec
  | .sys => sysValue s r g x imm.toNat

/-- The view of the firing that runs, if its region and context are there. -/
def view (s : State) (rule : Rule) (w : ImmW) : Option View :=
  let f := s.cur
  match s.region f.ctx.region with
  | none => none
  | some g =>
    match g.ctx f.ctx.el f.ctx.k with
    | none => none
    | some x =>
      let p := g.phys f.ctx.el
      let e := s.elem p
      let rd := srcValue s f.ctx.region g x e w rule.imm
      some { f, r := f.ctx.region, g, x, p, e, rule, a := rd rule.a, b := rd rule.b, c := rd rule.c }

namespace View

/-- The clock of the firing's die. -/
def clk (v : View) (s : State) : Nat := s.regionClk v.r

/-- The colour of the head of the lowest-numbered required channel (R37). -/
def colour (v : View) : BitVec 4 :=
  match (List.range 4).find? v.rule.guard.requires with
  | some n => ((v.e.head n).map Token.colour).getD 0#4
  | none => 0#4

/-- Whether the firing reads SYS selector CYCL, as the opcode or as a source (R119). -/
def readsCycl (v : View) (opSys : Bool) : Bool :=
  v.rule.imm = 0x20#16 && (opSys || v.rule.a.isSys || v.rule.b.isSys || v.rule.c.isSys)

end View

end Sys2Proof.Machine
end

