-- ==== Sys2Proof/Machine/Image.lean ====
section
/-!
DEFINITION. The frame image: its layout (R71 to R79), the checks of its header, tables and data entries (R80), and the checks of
every configuration word (R21, R22, R26, R39, R48, R49, R70, R168, R178, R233).
-/

namespace Sys2Proof.Machine

/-- The little-endian number in bytes [off, off + n) of an image. -/
def imgNat (m : Array Byte) (off : Nat) : Nat → Nat
  | 0 => 0
  | n + 1 => (m.getD off 0#8).toNat + 256 * imgNat m (off + 1) n
def imgWord (m : Array Byte) (off : Nat) : Word := BitVec.ofNat 32 (imgNat m off 4)
def imgBytes (m : Array Byte) (off n : Nat) : List Byte := (List.range n).map fun i => m.getD (off + i) 0#8

-- The header (R72).

def hdrWx (m : Array Byte) : Nat := imgNat m 0x08 1
def hdrWy (m : Array Byte) : Nat := imgNat m 0x09 1
def hdrNel (m : Array Byte) : Nat := imgNat m 0x0A 2
def hdrLen (m : Array Byte) : Nat := imgNat m 0x0C 4
def hdrElOff (m : Array Byte) : Nat := imgNat m 0x10 4
def hdrBufOff (m : Array Byte) : Nat := imgNat m 0x14 4
def hdrNbuf (m : Array Byte) : Nat := imgNat m 0x18 2
def hdrNring (m : Array Byte) : Nat := imgNat m 0x1A 2
def hdrRingOff (m : Array Byte) : Nat := imgNat m 0x1C 4
def hdrEdgeOff (m : Array Byte) : Nat := imgNat m 0x20 4
def hdrNedge (m : Array Byte) : Nat := imgNat m 0x24 2
def hdrNdata (m : Array Byte) : Nat := imgNat m 0x26 2
def hdrDataOff (m : Array Byte) : Nat := imgNat m 0x28 4

-- Element records (R73, R74).

/-- An element record: its offset, header fields and context blocks' offsets. -/
structure ElRec where
  off : Nat
  tx : Nat
  ty : Nat
  exy : Nat
  kmask : Nat
  /-- Context numbers with the offsets of their blocks. -/
  blocks : List (Nat × Nat)
  last : Nat
  deriving DecidableEq, Repr, Inhabited

/-- The length of the context block at an offset (R74). -/
def blockLen (m : Array Byte) (off : Nat) : Nat := 76 + 12 * bitsOf 21 5 (imgNat m off 4)

/-- The context blocks of a mask from an offset, and the offset after them. -/
def blocksFrom (m : Array Byte) (mask : Nat) : List Nat → Nat → List (Nat × Nat) × Nat
  | [], off => ([], off)
  | k :: r, off =>
    if bitOf k mask then
      let (bs, e) := blocksFrom m mask r (off + blockLen m off)
      ((k, off) :: bs, e)
    else blocksFrom m mask r off

/-- `n` element records from an offset. -/
def elRecs (m : Array Byte) : Nat → Nat → List ElRec
  | 0, _ => []
  | n + 1, off =>
    let kmask := imgNat m (off + 3) 1
    let (blocks, last) := blocksFrom m kmask (List.range 8) (off + 4)
    { off, tx := imgNat m off 1, ty := imgNat m (off + 1) 1, exy := imgNat m (off + 2) 1, kmask, blocks, last } ::
      elRecs m n last

def imgEls (m : Array Byte) : List ElRec := elRecs m (hdrNel m) (hdrElOff m)

/-- The logical element of a record. -/
def ElRec.el (e : ElRec) : Nat := 16 * (8 * e.ty + e.tx) + e.exy % 16

/-- The context block at an offset (R74). -/
def imgCtx (m : Array Byte) (el k off : Nat) : CtxImg :=
  let word := imgWord m off
  { el, k, word, cred := imgWord m (off + 4), init := imgWord m (off + 8),
    routes := (List.range 8).map fun i => imgWord m (off + 12 + 4 * i),
    regs := (List.range 8).map fun i => imgWord m (off + 44 + 4 * i),
    slots := (List.range (bitsOf 21 5 word.toNat)).map fun i =>
      { w0 := imgWord m (off + 76 + 12 * i), w1 := imgWord m (off + 80 + 12 * i), w2 := imgWord m (off + 84 + 12 * i) } }

def imgCtxs (m : Array Byte) : List CtxImg :=
  ((imgEls m).map fun e => e.blocks.map fun b => imgCtx m e.el b.1 b.2).flatten

-- Tables (R76 to R79).

def imgBuf (m : Array Byte) (i : Nat) : Buf :=
  let o := hdrBufOff m + 16 * i
  { tile := 8 * imgNat m (o + 1) 1 + imgNat m o 1, base := imgNat m (o + 4) 4, size := imgNat m (o + 8) 4 }
def imgRing (m : Array Byte) (i : Nat) : Nat × Nat × Word × Word :=
  let o := hdrRingOff m + 16 * i
  (imgNat m o 1, imgNat m (o + 4) 4, imgWord m (o + 8), imgWord m (o + 12))
def imgEdge (m : Array Byte) (i : Nat) : Nat × List Byte :=
  let o := hdrEdgeOff m + 32 * i
  (imgNat m o 2, imgBytes m (o + 4) (imgNat m (o + 2) 2))
def imgData (m : Array Byte) (i : Nat) : Nat × Nat × Nat × Nat :=
  let o := hdrDataOff m + 16 * i
  (imgNat m o 2, imgNat m (o + 4) 4, imgNat m (o + 8) 4, imgNat m (o + 12) 4)

/-- The frame that an image describes. -/
def imgFrame (va : Nat) (m : Array Byte) : Frame :=
  { va, wx := hdrWx m, wy := hdrWy m, ctxs := imgCtxs m, bufs := (List.range (hdrNbuf m)).map (imgBuf m),
    rings := (List.range (hdrNring m)).map (imgRing m), edges := (List.range (hdrNedge m)).map (imgEdge m),
    datas := (List.range (hdrNdata m)).map (imgData m) }

-- Checks of the header and tables: the offsets of the fields that fail (R80).

/-- A name: ASCII characters padded with zero bytes. -/
def paddedName (bs : List Byte) : Bool :=
  bs.all (fun b => b.toNat < 128) && (bs.dropWhile fun b => b != 0#8).all fun b => b = 0#8

/-- The four tables after the element table: offset, length, and the later of their offset and count fields. -/
def tables (m : Array Byte) : List (Nat × Nat × Nat) :=
  [(hdrBufOff m, 16 * hdrNbuf m, 0x18), (hdrRingOff m, 16 * hdrNring m, 0x1C), (hdrEdgeOff m, 32 * hdrNedge m, 0x24),
   (hdrDataOff m, 16 * hdrNdata m, 0x28)]

def elTable (m : Array Byte) : Nat × Nat × Nat :=
  (hdrElOff m, ((imgEls m).getLast?.map fun e => e.last).getD 0 - hdrElOff m, 0x10)

/-- Two tables overlap. -/
def overlap (a b : Nat × Nat × Nat) : Bool := decide (0 < a.2.1 ∧ 0 < b.2.1 ∧ a.1 < b.1 + b.2.1 ∧ b.1 < a.1 + a.2.1)

/-- The header's fields that are wrong (R72). Of the fields of one check the latest is named, of all that it relates where these are more than
the two that R80 speaks of, and a LEN below 0x40 is named itself (DESIGN CHOICE, log 71). -/
def hdrFaults (m : Array Byte) : List Nat :=
  let bad (c : Bool) (o : Nat) : List Nat := if c then [o] else []
  let ts := elTable m :: tables m
  bad (imgNat m 0 4 ≠ 0x4D52464B) 0 ++ bad (imgNat m 4 2 ≠ 1) 4 ++ bad (imgNat m 6 2 ≠ 0x40) 6 ++
  bad (hdrWx m = 0 || 8 < hdrWx m) 8 ++ bad (hdrWy m = 0 || 16 < hdrWy m) 9 ++ bad (hdrNel m = 0 || 1024 < hdrNel m) 0xA ++
  bad (hdrLen m < 0x40) 0xC ++
  bad (hdrElOff m % 16 ≠ 0 || hdrElOff m < 0x40) 0x10 ++ bad (hdrBufOff m % 16 ≠ 0) 0x14 ++ bad (64 < hdrNbuf m) 0x18 ++
  bad (64 < hdrNring m) 0x1A ++ bad (hdrRingOff m % 16 ≠ 0) 0x1C ++ bad (hdrEdgeOff m % 16 ≠ 0) 0x20 ++
  bad (16383 < hdrNedge m) 0x24 ++ bad (hdrDataOff m % 16 ≠ 0) 0x28 ++
  bad (imgNat m 0x2C 4 ≠ 0) 0x2C ++ bad (!paddedName (imgBytes m 0x30 12)) 0x30 ++ bad (imgNat m 0x3C 4 ≠ 0) 0x3C ++
  ((tables m).map fun t =>
    if t.2.1 = 0 then bad (t.1 ≠ 0) t.2.2 else bad (t.1 < 0x40) (if t.2.2 = 0x18 then 0x14 else if t.2.2 = 0x24 then 0x20 else t.2.2)).flatten ++
  (ts.map fun t => bad (0 < t.2.1 && hdrLen m < t.1 + t.2.1) t.2.2).flatten ++
  (ts.mapIdx fun i t => ((ts.drop (i + 1)).map fun u => bad (overlap t u) (max t.2.2 u.2.2)).flatten).flatten

/-- Whether records stand in ascending (TY, TX, ey, ex); the field at which the second falls behind. -/
def elOrder (a b : ElRec) : Option Nat :=
  if b.ty < a.ty then some (b.off + 1)
  else if b.ty = a.ty ∧ b.tx < a.tx then some b.off
  else if b.ty = a.ty ∧ b.tx = a.tx ∧ b.exy % 16 ≤ a.exy % 16 then some (b.off + 2)
  else none

def elFaults (m : Array Byte) : List Nat :=
  let bad (c : Bool) (o : Nat) : List Nat := if c then [o] else []
  let els := imgEls m
  (els.map fun e =>
    bad (hdrWx m ≤ e.tx) e.off ++ bad (hdrWy m ≤ e.ty || (e.tx + e.ty) % 2 = 1) (e.off + 1) ++
    bad (16 ≤ e.exy) (e.off + 2) ++ bad (e.kmask = 0) (e.off + 3)).flatten ++
  (els.zip (els.drop 1)).filterMap fun p => elOrder p.1 p.2

/-- The failing fields of the buffer table. Of two buffers that overlap, the manual does not say which field fails: the model names SIZE of
the later (log 71). -/
def bufFaults (m : Array Byte) : List Nat :=
  let bad (c : Bool) (o : Nat) : List Nat := if c then [o] else []
  ((List.range (hdrNbuf m)).map fun i =>
    let o := hdrBufOff m + 16 * i
    let b := imgBuf m i
    let tx := imgNat m o 1
    let ty := imgNat m (o + 1) 1
    bad (hdrWx m ≤ tx) o ++ bad (hdrWy m ≤ ty || (tx + ty) % 2 = 0) (o + 1) ++ bad (imgNat m (o + 2) 2 ≠ 0) (o + 2) ++
    bad (b.base % 256 ≠ 0) (o + 4) ++
    bad (b.size % 256 ≠ 0 || b.size < 256 || 131072 < b.size || 131072 < b.base + b.size ||
      (List.range i).any fun j =>
        let c := imgBuf m j
        c.tile = b.tile && decide (c.base < b.base + b.size ∧ b.base < c.base + c.size)) (o + 8) ++
    bad (imgNat m (o + 12) 4 ≠ 0) (o + 12)).flatten

/-- The failing fields of the ring table. Of a second ring of a buffer, or a seventeenth of a memory tile, the manual does not say which
field fails: the model names BUF (log 71). -/
def ringFaults (m : Array Byte) : List Nat :=
  let bad (c : Bool) (o : Nat) : List Nat := if c then [o] else []
  ((List.range (hdrNring m)).map fun i =>
    let o := hdrRingOff m + 16 * i
    let (b, cap, h, t) := imgRing m i
    let tile (j : Nat) : Nat := (imgBuf m (imgRing m j).1).tile
    bad (hdrNbuf m ≤ b || (List.range i).any (fun j => (imgRing m j).1 = b) ||
      decide (16 ≤ ((List.range i).filter fun j => tile j = tile i).length)) o ++
    bad (imgNat m (o + 1) 3 ≠ 0) (o + 1) ++
    bad (cap < 4 || 2 ^ cap.log2 ≠ cap || (imgBuf m b).size < 4 * cap) (o + 4) ++
    bad (decide (cap < (t - h).toNat)) (o + 12)).flatten

/-- The failing fields of the edge table. Of a name that stands twice, the manual does not say which field fails: the model names NAME of
the later entry (log 71). -/
def edgeFaults (m : Array Byte) : List Nat :=
  let bad (c : Bool) (o : Nat) : List Nat := if c then [o] else []
  ((List.range (hdrNedge m)).map fun i =>
    let o := hdrEdgeOff m + 32 * i
    let (id, name) := imgEdge m i
    let len := imgNat m (o + 2) 2
    bad (id = 0 || 16383 < id || (0 < i && id ≤ (imgEdge m (i - 1)).1)) o ++ bad (len = 0 || 28 < len) (o + 2) ++
    bad (!paddedName (imgBytes m (o + 4) 28) || ((imgBytes m (o + 4) 28).takeWhile fun b => b != 0#8) ≠ name ||
      (List.range i).any fun j => (imgEdge m j).2 = name) (o + 4)).flatten

/-- The failing fields of the data entries. Of two entries that overlap, the manual does not say which field fails: the model names LEN of
the later (log 71). -/
def dataFaults (m : Array Byte) : List Nat :=
  let bad (c : Bool) (o : Nat) : List Nat := if c then [o] else []
  ((List.range (hdrNdata m)).map fun i =>
    let o := hdrDataOff m + 16 * i
    let (b, off, len, src) := imgData m i
    bad (hdrNbuf m ≤ b) o ++ bad (imgNat m (o + 2) 2 ≠ 0) (o + 2) ++ bad (off % 4 ≠ 0) (o + 4) ++
    bad (len % 4 ≠ 0 || (imgBuf m b).size < off + len ||
      (List.range i).any fun j =>
        let (b', off', len', _) := imgData m j
        b' = b && decide (0 < len ∧ 0 < len' ∧ off' < off + len ∧ off < off' + len')) (o + 8) ++
    bad (hdrLen m < src + len) (o + 12)).flatten

/-- The first failing field in ascending offset order (R80). -/
def imageFault (m : Array Byte) : Option Nat :=
  match hdrFaults m with
  | [] => (elFaults m ++ bufFaults m ++ ringFaults m ++ edgeFaults m ++ dataFaults m).min?
  | fs => fs.min?

-- Checks of configuration words (R48, R49).

/-- What a launch gives the checks beside the image: the queues it binds (R307). -/
structure WordEnv where
  fr : Frame
  queues : List (Nat × Nat) := []
  deriving DecidableEq, Repr, Inhabited

def CtxImg.mode (c : CtxImg) : Nat := bitsOf 29 2 c.word.toNat
def CtxImg.en (c : CtxImg) : Bool := bitOf 31 c.word.toNat
def CtxImg.fol (c : CtxImg) : Bool := bitOf 28 c.word.toNat
def CtxImg.ldir (c : CtxImg) : Nat := bitsOf 26 2 c.word.toNat
def CtxImg.nr (c : CtxImg) : Nat := bitsOf 21 5 c.word.toNat
def CtxImg.credOf (c : CtxImg) (o : Nat) : Nat := bitsOf (3 * o) 3 c.cred.toNat

def Frame.ctx (f : Frame) (el k : Nat) : Option CtxImg := f.ctxs.find? fun c => c.el = el ∧ c.k = k

/-- The routes that a context's rules use (R75): OM, and the false mask of a STEER. -/
def CtxImg.usedRoutes (c : CtxImg) : BitVec 8 :=
  c.slots.foldl (fun m r =>
    let m := m ||| r.w2.extractLsb' 24 8
    if r.w1.extractLsb' 25 7 = 0x20#7 then m ||| r.w2.setWidth 8 else m) 0#8

/-- The element that a follower's LDIR names, in its own tile (R39). -/
def leaderEl (el ldir : Nat) : Option Nat := (adjacent (el % 16) ldir).map (16 * (el / 16) + ·)

/-- Whether a follower's walk towards its leader ends at a leader within 15 steps (R39). -/
def reachesLeader (f : Frame) (k : Nat) : Nat → Nat → Bool
  | 0, _ => false
  | n + 1, el => match f.ctx el k with
    | none => false
    | some c => if c.fol then
        match leaderEl el c.ldir with
        | some e => reachesLeader f k n e
        | none => false
      else true

/-- A follower that breaks R39: its leader must be an enabled context. Where a leader has two followers, the manual does not say whose word
fails: the model names the later of the two in record order (log 71). -/
def badChain (f : Frame) (c : CtxImg) : Bool :=
  c.fol &&
  match leaderEl c.el c.ldir with
  | none => true
  | some e => match f.ctx e c.k with
    | none => true
    | some l => !l.en || l.mode ≠ c.mode || !reachesLeader f c.k 16 c.el ||
        -- An earlier follower of the same leader.
        (f.ctxs.takeWhile fun x => x ≠ c).any fun x => x.k = c.k && x.fol && leaderEl x.el x.ldir = some e

/-- Whether a context word fails (R25, R26, R39, R48, R178, R233). In an element that mixes rounded and direct contexts, the manual does
not say which word fails: the model names the context word of the higher of the two (log 71). -/
def badCtxWord (f : Frame) (c : CtxImg) : Bool :=
  let w := c.word.toNat
  let earlier := f.ctxs.filter fun x => x.el = c.el ∧ x.k < c.k
  !c.en || c.mode = 3 || 16 < c.nr || bitsOf 16 5 w ≠ 0 || bitsOf 0 16 w / 2 ^ c.nr ≠ 0 || (!c.fol && c.ldir ≠ 0) ||
  (c.mode = 2 && (c.nr ≠ 0 || c.fol || c.ldir ≠ 0 || bitsOf 0 16 w ≠ 0)) ||
  (c.mode = 2 && earlier.any fun x => x.mode = 2) ||
  (c.mode < 2 && earlier.any fun x => x.mode < 2 ∧ x.mode ≠ c.mode) ||
  badChain f c ||
  (c.mode = 2 &&
    let sys := ((f.ctxs.filter fun x => x.el / 16 = c.el / 16 ∧ x.mode = 2).map fun x => x.el).dedup
    sys.length ≠ 16 && sys.all fun e => c.el ≤ e)

/-- Whether a credit word fails (R75). -/
def badCredWord (c : CtxImg) : Bool :=
  bitsOf 24 8 c.cred.toNat ≠ 0 ||
  (List.range 8).any fun o =>
    let n := c.credOf o
    if c.usedRoutes.getLsbD o then n = 0 || 4 < n else n ≠ 0

/-- The element and channel that a route targets. -/
def routeChan (c : CtxImg) (o : Nat) : Option (Nat × Nat) :=
  let w := c.routes.getD o 0#32
  (routeTarget c.el w).map fun el => (el, routeCh w)

/-- The credits that the routes up to and with route `o` of context `c`, in the order of R49, hold into its channel (R22). -/
def creditsUpTo (f : Frame) (c : CtxImg) (o : Nat) : Nat :=
  let ch := routeChan c o
  let of (x : CtxImg) (n : Nat) : Nat :=
    ((List.range n).map fun i => if x.usedRoutes.getLsbD i ∧ routeChan x i = ch then x.credOf i else 0).sum
  ((f.ctxs.takeWhile fun x => x ≠ c).map fun x => of x 8).sum + of c (o + 1)

/-- Whether a route word fails (R21, R22, R75, R78, R178). -/
def badRoute (f : Frame) (c : CtxImg) (o : Nat) : Bool :=
  let w := c.routes.getD o 0#32
  if c.usedRoutes.getLsbD o then
    (routeEdge w = 0 || !(f.edges.any fun e => e.1 = routeEdge w)) ||
    (match (routeTarget c.el w).bind fun el => f.ctx el (routeKx w) with
      | none => true
      | some t => !t.en || decide (t.mode ≤ 1 ∧ c.mode ≤ 1 ∧ t.mode ≠ c.mode)) ||
    decide (4 < creditsUpTo f c o)
  else w ≠ 0#32

/-- The rule of a slot's words with an empty guard, for the checks of W1 alone. -/
def bareRule (s : Slot) : Rule :=
  { guard := { pm := 0, pv := 0, c0 := .any, c1 := .any, c2 := .any, c3 := .any, colour := none, kind := .normal },
    a := decSrc (field 4 16 s.w1), b := decSrc (field 4 12 s.w1), c := decSrc (field 4 8 s.w1), dq := field 4 4 s.w1,
    om := field 8 24 s.w2, dst := none, pdst := none, imm := field 16 0 s.w2 }

/-- A breach in W1 that the mode or the frame shows (R70, R168). Of an AGSET or AGCTL rule whose tile has no memory tile near, the manual
does not say which word fails: the model names W1 (log 71). -/
def badRuleW1 (env : WordEnv) (c : CtxImg) (i : Instr) : Bool :=
  (c.mode = 1 && i.barredRounded) ||
  (match i with
    | .agset .. | .agctlStart _ | .agctlStop _ | .agctlRew _ | .agctlStat _ => (nearestMem env.fr.wx env.fr.wy (c.el / 16)).isNone
    | _ => false)

/-- A breach in W2 that the mode or the frame shows (R219, R220, R232, R269, R302, R307, R366). -/
def badRuleW2 (env : WordEnv) (c : CtxImg) (i : Instr) : Bool :=
  (c.mode = 1 && i.roundedNoDest) ||
  (match i with
    | .lds _ _ r | .sts _ r => decide (env.fr.bufs.length ≤ r.imm.toNat / 1024)
    | .rpush r | .rpushTry r | .rpop r | .rpopTry r => decide (env.fr.rings.length ≤ r.imm.toNat)
    | .qrsv r | .qput r | .qcan r | .qpop r =>
      env.queues.all fun q => !decide (q.1 ≤ r.imm.toNat ∧ r.imm.toNat < q.1 + q.2)
    | _ => false)

/-- Which word of a rule fails first (R49, R58). -/
def badRuleWord (env : WordEnv) (c : CtxImg) (s : Slot) : Option Nat :=
  match decode s.w0 s.w1 s.w2 with
  | .error .guardWord => some 0
  | .error .operationWord => some 1
  | .error _ =>
    match decOp (field 7 25 s.w1) (field 5 20 s.w1) (field 4 0 s.w1) with
    | some op => if badRuleW1 env c (op (bareRule s)) then some 1 else some 2
    | none => some 1
  | .ok i => if badRuleW1 env c i then some 1 else if badRuleW2 env c i then some 2 else none

/-- A failing word: its context, its slot or 0xF, WSEL, and the word (R49, R197). -/
structure WordFault where
  el : Nat
  k : Nat
  slot : Nat
  wsel : Nat
  word : Word
  deriving DecidableEq, Repr, Inhabited

def ruleFaults (env : WordEnv) (c : CtxImg) : List Slot → Nat → Option WordFault
  | [], _ => none
  | s :: r, n => match badRuleWord env c s with
    | some w => some { el := c.el, k := c.k, slot := n, wsel := w,
                       word := if w = 0 then s.w0 else if w = 1 then s.w1 else s.w2 }
    | none => ruleFaults env c r (n + 1)

/-- The first failing word of a context, in the order of R49. -/
def ctxFault (env : WordEnv) (c : CtxImg) : Option WordFault :=
  if badCtxWord env.fr c then some { el := c.el, k := c.k, slot := 15, wsel := 3, word := c.word }
  else if badCredWord c then some { el := c.el, k := c.k, slot := 15, wsel := 4, word := c.cred }
  else if bitsOf 8 8 c.init.toNat ≠ 0 then some { el := c.el, k := c.k, slot := 15, wsel := 5, word := c.init }
  else match (List.range 8).find? (badRoute env.fr c) with
    | some o => some { el := c.el, k := c.k, slot := 15, wsel := 6 + o, word := c.routes.getD o 0#32 }
    | none => ruleFaults env c c.slots 0

/-- The first failing word of a frame (R49). -/
def wordFault (env : WordEnv) : Option WordFault := env.fr.ctxs.findSome? (ctxFault env)

end Sys2Proof.Machine
end

