-- ==== Sys2Proof/Machine/Sync.lean ====
section
/-!
DEFINITION. The sync unit's state and what engines do to it: engine headers (R252), waits (R258), signals and aborts (R259),
semaphores (R261) and stage barriers (R275 to R277).
-/

namespace Sys2Proof.Machine

-- Engine headers (R252).

def hdrWE (c : List Word) : Bool := bitOf 15 (fieldAt c 0 2)
def hdrWsem (c : List Word) : Nat := fieldAt c 0 2 % 256
def hdrWval (c : List Word) : Nat := fieldAt c 2 2
def hdrSE (c : List Word) : Bool := bitOf 15 (fieldAt c 4 2)
def hdrSbar (c : List Word) : Bool := bitOf 14 (fieldAt c 4 2)
def hdrSsem (c : List Word) : Nat := fieldAt c 4 2 % 256
def hdrSinc (c : List Word) : Nat := fieldAt c 6 2

/-- The offset of the first header field that breaks R252. -/
def badHeader (c : List Word) : Option Nat :=
  let w := fieldAt c 0 2
  let s := fieldAt c 4 2
  if (if hdrWE c then bitsOf 8 7 w ≠ 0 else w ≠ 0) then some 0
  else if !hdrWE c ∧ hdrWval c ≠ 0 then some 2
  else if (if hdrSE c then bitsOf 8 6 s ≠ 0 || (hdrSbar c && decide (96 ≤ hdrSsem c)) else s ≠ 0) then some 4
  else if (if hdrSE c then hdrSinc c = 0 || (hdrSbar c && hdrSinc c ≠ 1) else hdrSinc c ≠ 0) then some 6
  else none

-- Semaphores (R261).

def State.sem (s : State) (core n : Nat) : Sem := s.cores.sems.lookD (256 * core + n) {}
def State.updSem (s : State) (core n : Nat) (f : Sem → Sem) : State :=
  { s with cores := { s.cores with sems := s.cores.sems.alter (256 * core + n) {} f } }
def State.semAdd (s : State) (core n : Nat) (v : Word) : State := s.updSem core n fun x => { x with value := x.value + v }

/-- Where a command's wait stands (R258). -/
inductive WaitSt where
  | met | unmet | aborted
  deriving DecidableEq, Repr, Inhabited

def State.waitSt (s : State) (core : Nat) (c : List Word) : WaitSt :=
  if !hdrWE c then .met
  else
    let m := s.sem core (hdrWsem c)
    if m.abt then .aborted
    else if (m.value.toNat % 65536 + 65536 - hdrWval c) % 65536 < 32768 then .met
    else .unmet

/-- Where a command's wait stands: once met, it stays so (R258). -/
def State.waitOf (s : State) (p : Packet) : WaitSt := if p.met then .met else s.waitSt (coreOf p.org.ctx.region) p.cmd
/-- A command's wait is tested. -/
def State.testWait (s : State) (p : Packet) : Packet := { p with met := s.waitOf p == .met }

-- Stage barriers (R275 to R277).

def State.bar (s : State) (core n : Nat) : Bar := s.cores.bars.lookD (128 * core + n) {}
def State.updBar (s : State) (core n : Nat) (f : Bar → Bar) : State :=
  { s with cores := { s.cores with bars := s.cores.bars.alter (128 * core + n) {} f } }

/-- The phase completes when ARR = EXP and PEND = 0 (R276). -/
def Bar.tested (b : Bar) : Bar :=
  if b.arr = b.exp ∧ b.pend = 0 ∧ b.exp ≠ 0 then { b with phase := (b.phase + 1) % 65536, arr := 0 } else b

/-- The three events of a barrier (R276). -/
inductive BarEv where
  | announce (n : Nat) | credit (n : Nat) | arrive
  deriving DecidableEq, Repr, Inhabited

/-- The cause for which an event would break the barrier (R277). -/
def Bar.overrun (b : Bar) (e : BarEv) : Option Nat :=
  if b.exp = 0 then some 3
  else match e with
    | .announce n => if 2 ^ 31 - 1 < b.pend + n then some 2 else none
    | .credit n => if b.pend < n then some 0 else none
    | .arrive => if b.arr = b.exp then some 1 else none

/-- An event is taken. The test for completion follows each arrival, and once in a cycle its announcements and credits
(`State.testBars`). -/
def Bar.apply (b : Bar) (e : BarEv) : Bar :=
  match e with
  | .announce n => { b with pend := b.pend + n }
  | .credit n => { b with pend := b.pend - n }
  | .arrive => { b with arr := b.arr + 1 }.tested

/-- The bytes that an event offers; 1 for an arrival (R277). -/
def BarEv.offered : BarEv → Nat
  | .announce n | .credit n => n
  | .arrive => 1

/-- An event reaches a barrier; one that would break it is refused and posted to the context that issued it (R277). -/
def State.barEvent (s : State) (org : Origin) (core n : Nat) (e : BarEv) (tag : Word := 0#32) : State :=
  let b := s.bar core n
  match b.overrun e with
  | none => s.updBar core n fun x => x.apply e
  | some cause =>
    let info := [BitVec.ofNat 8 n, BitVec.ofNat 8 cause] ++ natLe 2 b.phase ++ wordLe (BitVec.ofInt 32 b.pend) ++ natLe 4 e.offered
    s.engineFault org (s.mkRec org 0x07 info 0 tag)

/-- The test that follows the announcements and credits of a cycle (R276). -/
def State.testBars (s : State) : State :=
  { s with cores := { s.cores with bars := s.cores.bars.map fun (e : Nat × Bar) => (e.1, e.2.tested) } }

-- Signals (R259).

/-- A command completes and raises its signal. -/
def State.signal (s : State) (org : Origin) (c : List Word) (tag : Word := 0#32) : State :=
  let core := coreOf org.ctx.region
  if !hdrSE c then s
  else if hdrSbar c then s.barEvent org core (hdrSsem c % 128) .arrive tag
  else s.semAdd core (hdrSsem c) (BitVec.ofNat 32 (hdrSinc c))

/-- A command is aborted: its semaphore or barrier records it instead of the signal. -/
def State.abortSignal (s : State) (org : Origin) (c : List Word) : State :=
  let core := coreOf org.ctx.region
  if !hdrSE c then s
  else if hdrSbar c then s.updBar core (hdrSsem c % 128) fun b => { b with abt := true }
  else s.updSem core (hdrSsem c) fun x => { x with abt := true, aborts := min 0xFFFF (x.aborts + 1) }

end Sys2Proof.Machine
end

