-- ==== Sys2Proof/Machine/Launch.lean ====
section
/-!
DEFINITION. Launch records: how a dispatcher reads and checks one (R294 to R299, R303, R307, R340, R428, R433), cassettes (R375,
R376), the region that an instance claims (R171, R173, R174, R234), and where a gang may stand (R297, R298, R374).
-/

namespace Sys2Proof.Machine

-- Reading virtual memory.

/-- What a read of virtual memory found: bytes, or the address at which it fails and why. -/
abbrev VRes := Except (Nat × Deny) (List Byte)

/-- The first sector of some bytes at their home that is marked in error, with its memory code (R337). -/
def State.marked (s : State) (loc n : Nat) : Option (Nat × Nat) :=
  (List.range ((loc + n + 31) / 32 - loc / 32)).findSome? fun i => (s.markOf (loc / 32 * 32 + 32 * i)).map fun c => (32 * i, c)

/-- Reads bytes of one 4 KiB interleave group at their home. -/
def State.vpage (s : State) (q : Ask) (va n : Nat) : VRes × State :=
  match s.xlate { q with va } with
  | (.ok loc, s) => match s.cut q.die (homeDie loc) with
    | some l => (.error (va, .link l), s)
    | none => (if s.retrains q.die (homeDie loc) then (.error (va, .wait), s) else match s.marked loc n with
      | some (o, code) => (.error (va + o, .bad code), s)
      | none => (.ok (s.homeBytes loc n), s))
  | (.deny d, s) => (.error (va, d), s)
  -- The manual gives the dispatcher and the loader no place among the waiters of a fill (log 17).
  | (.fill _ _, s) => (.error (va, .fault 0x02 0xFF 4), s)

/-- Reads `n` bytes at a virtual address; the first argument bounds the number of groups. -/
def State.vreadGo (q : Ask) : Nat → Nat → Nat → State → VRes × State
  | 0, _, _, s => (.ok [], s)
  | f + 1, va, n, s =>
    if n = 0 then (.ok [], s)
    else
      let k := min n (4096 - va % 4096)
      match s.vpage q va k with
      | (.error e, s) => (.error e, s)
      | (.ok bs, s) => match State.vreadGo q f (va + k) (n - k) s with
        | (.ok cs, s) => (.ok (bs ++ cs), s)
        | (.error e, s) => (.error e, s)
def State.vread (s : State) (q : Ask) (va n : Nat) : VRes × State := State.vreadGo q (n / 4096 + 2) va n s

-- Checks of a record (R294 to R297, R301, R303, R307).

/-- The least SCOPE of a domain (R297). -/
def minScope (dom : Nat) : Nat :=
  match dom with
  | 0 => 0
  | 1 | 2 => 1
  | 3 => 2
  | 4 => 3
  | 5 => 4
  | _ => 5

/-- The number of instances of a record (R296). -/
def instCount (ls : List Level) : Nat := innerCount ls ls.length

/-- Whether level `n` breaks R295 to R297 by itself or with the levels inside it. -/
def badLevel (raw : Nat) (ls : List Level) (n : Nat) : Bool :=
  match ls[n]? with
  | none => raw ≠ 0
  | some l =>
    bitsOf 54 10 raw ≠ 0 || 6 ≤ l.scope || l.cnt = 0 || l.ext = 0 || l.ext < l.base + l.cnt ||
    (l.dom < 2 && (l.cnt ≠ l.ext || l.base ≠ 0 || l.scope ≠ minScope l.dom)) ||
    (5 ≤ l.dom && l.cnt ≠ 1) || l.scope < minScope l.dom ||
    (match ls[n - 1]? with
      | some i => 0 < n && (l.dom < i.dom || l.scope < i.scope)
      | none => false) ||
    decide (512 < innerCount ls (n + 1)) || decide (16 < innerExt ls (n + 1) 0)

/-- An address field: its low bits and bits [63:56] are zero. -/
def badAddr (v align : Nat) : Bool := v % align ≠ 0 || 2 ^ 56 ≤ v

/-- A ring binding and a queue binding of a record (R303, R307). -/
def ringBind (rcd : List Word) (n : Nat) : Nat := fieldAt rcd (0xB0 + 4 * n) 4
def queueBind (rcd : List Word) (n : Nat) : Nat := fieldAt rcd (0xA0 + 4 * n) 4
/-- The bindings in force: ring and owner; first queue and count. -/
def ringBinds (rcd : List Word) : List (Nat × Nat) :=
  (((List.range 8).map (ringBind rcd)).filter fun b => bitOf 31 b).map fun b => (bitsOf 24 6 b, bitsOf 0 16 b)
def queueBinds (rcd : List Word) : List (Nat × Nat) :=
  (((List.range 4).map (queueBind rcd)).filter fun b => bitOf 31 b).map fun b => (bitsOf 0 12 b, bitsOf 16 13 b)

/-- The offset of the first field of a record that breaks its rule, PRED apart. -/
def recordFault (rcd : List Word) (gen : Bool) : Option Nat :=
  let f (o n : Nat) : Nat := fieldAt rcd o n
  let ls := levelsOf rcd
  let head : List (Nat × Bool) :=
    [(0, f 0 4 ≠ 0x48434C4B), (4, f 4 2 ≠ 1), (6, f 6 1 = 0 || 8 < f 6 1),
     (7, 8 ≤ f 7 1 || (!gen && f 7 1 = 7)), (0xA, 256 < f 0xA 2), (0x14, f 0x14 4 ≠ 0),
     (0x18, badAddr (f 0x18 8) 256), (0x20, badAddr (f 0x20 8) 1), (0x28, badAddr (f 0x28 8) 1),
     (0x30, badAddr (f 0x30 8) 1), (0x38, badAddr (f 0x38 8) 4)]
  let checks : List (Nat × Bool) :=
    head ++ (((List.range 8).map fun n => (0x40 + 8 * n, badLevel (f (0x40 + 8 * n) 8) ls n)) : List (Nat × Bool)) ++
    (((List.range 4).map fun n => (0x80 + 8 * n, badAddr (f (0x80 + 8 * n) 8) 256)) : List (Nat × Bool)) ++
    ((List.range 4).map fun n =>
      let b := queueBind rcd n
      (0xA0 + 4 * n, decide (bitsOf 29 2 b ≠ 0 ∨ bitsOf 12 4 b ≠ 0 ∨
        (bitOf 31 b ∧ (bitsOf 16 13 b = 0 ∨ 4096 < bitsOf 0 12 b + bitsOf 16 13 b))))) ++
    ((List.range 8).map fun n =>
      let b := ringBind rcd n
      (0xB0 + 4 * n, decide (bitOf 30 b ∨ bitsOf 16 8 b ≠ 0 ∨ (bitOf 31 b ∧ instCount ls ≤ bitsOf 0 16 b)))) ++
    [(0xD0, badAddr (f 0xD0 8) 256)] ++ ((List.range 10).map fun n => (0xD8 + 4 * n, decide (f (0xD8 + 4 * n) 4 ≠ 0)))
  (checks.find? fun c => c.2).map fun c => c.1

/-- What stands in the way of a die's read of entry `n` of a table of `len` entries of 32 bytes (R337, R423, R424). -/
def State.tableDeny (s : State) (die base n len : Nat) : Option Deny := if n < len then s.physDeny die (base + 32 * n) 32 else none

/-- The base of the host's fault-ring table (R428). -/
def State.ringTable (s : State) : Nat := s.mmioNat 0x10 0 + 2 ^ 32 * s.mmioNat 0x14 0
/-- Whether the fault ring that a record names exists (R428). -/
def State.badRing (s : State) (n : Nat) : Bool :=
  let base := s.ringTable
  let e := s.physBytes (base + 32 * n) 32
  let nat (o k : Nat) : Nat := leNat ((e.drop o).take k)
  s.mmioNat 0x18 0 ≤ n || !bitOf 0 (nat 9 1) || 4 ≤ nat 9 1 || nat 0 8 % 64 ≠ 0 || 2 ^ 52 ≤ nat 0 8 ||
  nat 8 1 < 4 || 16 < nat 8 1 || 2048 ≤ nat 0xA 2 || nat 0x1C 4 ≠ 0

-- Endpoints (R433).

def eptAt (m : Array Byte) (n : Nat) : Option Ept :=
  let o := 32 * n
  if bitOf 0 (imgNat m (o + 0x10) 4) then
    some { addr := imgNat m o 8, len := imgNat m (o + 8) 8, flags := imgNat m (o + 0x10) 4 }
  else none
/-- A die's fabric page (R453). -/
def fabPage (d : Nat) : Nat := dieBlock d + 0x3000
/-- Whether an endpoint lies in the fabric aperture as a die sees it (R451). -/
def State.isRemote (s : State) (d : Nat) (e : Ept) : Bool :=
  let c := s.mmioNat (fabPage d + 4) 0
  bitOf 0 c && e.addr / 2 ^ 62 = bitsOf 30 2 c
def State.badEpt (s : State) (d : Nat) (m : Array Byte) (n : Nat) : Bool :=
  let o := 32 * n
  16 ≤ imgNat m (o + 0x10) 4 || imgNat m (o + 0x14) 12 ≠ 0 ||
  match eptAt m n with
  | some e => e.addr % 4 ≠ 0 || e.len = 0 || 2 ^ 40 < e.len || (s.isRemote d e && bitOf 3 e.flags)
  | none => false

-- The region that an instance claims.

/-- The logical elements of a frame that the tandem chain of a leader holds, for its history (R40). -/
def Frame.chainLen (f : Frame) (k : Nat) : Nat → Nat → Nat
  | 0, _ => 0
  | n + 1, el => 1 + match f.ctxs.find? fun c => c.k = k && c.el / 16 = el / 16 && c.fol && leaderEl c.el c.ldir = some el with
    | some c => f.chainLen k n c.el
    | none => 0

/-- A context as the loader configures it (R174, R31, R75): `actor`, `home` and `homeK` as the caller finds them. -/
def CtxImg.load (c : CtxImg) (f : Frame) (actor home homeK : Nat) : Ctx :=
  { el := c.el, k := c.k, word := c.word, cred := c.cred, init := c.init, routes := c.routes, slots := c.slots, regs := c.regs,
    preds := (List.range 8).map fun n => Pred.ofBool (bitOf n c.init.toNat),
    credits := (List.range 8).map c.credOf, armed := 0xFFFF#16,
    rot := ((List.range 16).find? fun i => bitOf i c.word.toNat).getD 0,
    starv := c.slots.map fun _ => 0, actor, home, homeK,
    hist := if c.fol then [] else List.replicate (f.chainLen c.k 16 c.el) none }

/-- Whether every element of a logical tile holds a systolic context (R233). -/
def Region.systolic (g : Region) (t : Nat) : Bool :=
  (List.range 16).all fun e => g.ctxs.any fun c => c.el = 16 * t + e && c.isSystolic

/-- The actor, home element and home context of a context of cog `cog` (R102, R119, R375). -/
def actorOf (cass : Option Cass) (cog wx : Nat) (el k : Nat) : Nat × Nat × Nat :=
  match cass with
  | none => (8 * elinOf wx el + k, el, k)
  | some c =>
    let place (w : Word) : Nat × Nat :=
      let v := w.toNat
      (16 * (8 * bitsOf 4 4 v + bitsOf 0 3 v) + 4 * bitsOf 10 2 v + bitsOf 8 2 v, bitsOf 12 3 v)
    match firstIdx (fun w => place w = (el, k)) (c.maps.getD cog []) 0 with
    | some a => let h := place (wordAt (c.maps.getD 0 []) a); (a, h.1, h.2)
    | none => (0, el, k)

/-- The region that a frame makes at a place (R173, R174): its rows are still to be found. -/
def Frame.region (f : Frame) (cass : Option Cass) (cog gang inst core px py tsr : Nat) : Region :=
  let tiles := ((List.range f.wy).map fun ty => (List.range f.wx).map fun tx =>
    (8 * ty + tx, 128 * core + 8 * (py + ty) + px + tx)).flatten
  let g : Region :=
    { gang, inst, lease := 65536, on := false, wx := f.wx, wy := f.wy, tmap := tiles, cog,
      ctxs := f.ctxs.map fun c => let a := actorOf cass cog f.wx c.el c.k; c.load f a.1 a.2.1 a.2.2,
      bufs := f.bufs,
      rings := f.rings.map fun r => { buf := r.1, cap := r.2.1, head := r.2.2.1, tail := r.2.2.2 },
      edges := f.edges, rows := tsr }
  let sys := (tiles.map fun e => e.1).filter g.systolic
  { g with rowBus := (sys.map fun t => py + tileY t).dedup, colBus := (sys.map fun t => px + tileX t).dedup }

/-- The generators that a region's rules name, by logical memory tile (R168). -/
def Region.gensNamed (g : Region) : List Nat :=
  ((g.ctxs.map fun c => (c.slots.filter fun r =>
      let opc := r.w1.toNat / 2 ^ 25
      opc = 0x4B || opc = 0x4C).filterMap fun r =>
    (nearestMem g.wx g.wy (c.el / 16)).map fun t => 4 * t + r.w2.toNat % 4).flatten).dedup

/-- The credits that a region's routes and running generators hold into a channel, by physical element × 4 + channel (R22). -/
def Region.loads (g : Region) : List (Nat × Nat) :=
  ((g.ctxs.map fun c => (List.range 8).filterMap fun o =>
    let w := c.routes.getD o 0#32
    if c.credOf o = 0 then none
    else (routeTarget c.el w).map fun el => (4 * g.phys el + routeCh w, c.credOf o)).flatten) ++
  (g.gens.filter fun e => e.2.running).map fun e =>
    let w := (wordAt e.2.p 10).toNat
    (4 * g.phys (16 * (8 * bitsOf 3 4 w + bitsOf 0 3 w) + 4 * bitsOf 9 2 w + bitsOf 7 2 w) + bitsOf 11 2 w, bitsOf 16 3 w)

/-- Whether two regions may share a core (R173, R178), apart from the totals of credits, rings and rows. -/
def Region.agrees (g h : Region) : Bool :=
  let ctx (r : Region) : List (Nat × Ctx) := r.ctxs.map fun c => (r.phys c.el, c)
  ((ctx g).all fun a => (ctx h).all fun b => a.1 ≠ b.1 ||
    (a.2.k ≠ b.2.k && !(a.2.isSystolic && b.2.isSystolic) && !(a.2.isDirect && b.2.isRounded) &&
      !(a.2.isRounded && b.2.isDirect) && !(a.2.isRounded && b.2.isRounded))) &&
  (g.bufs.all fun a => h.bufs.all fun b => g.tmap.lookD a.tile 0 ≠ h.tmap.lookD b.tile 0 ||
    a.base + a.size ≤ b.base || b.base + b.size ≤ a.base) &&
  (g.gensNamed.all fun a => h.gensNamed.all fun b =>
    4 * g.tmap.lookD (a / 4) 0 + a % 4 ≠ 4 * h.tmap.lookD (b / 4) 0 + b % 4) &&
  (g.rowBus.all fun n => !h.rowBus.contains n) && (g.colBus.all fun n => !h.colBus.contains n)

/-- The physical memory tiles of a region's rings. -/
def Region.ringTiles (g : Region) : List Nat := g.rings.map fun r => g.tmap.lookD (g.bufs.getD r.buf default).tile 0

/-- The first row range of a compute tile that is free of the other regions' rows (R171). -/
def rowsFree (others : List Region) (tile n : Nat) : Option Nat :=
  let used := (others.map fun g => (g.tmap.filter fun e => e.2 = tile).filterMap fun e =>
    if g.rows = 0 then none else (g.rowBase.look e.1).map fun b => (b, g.rows)).flatten
  (0 :: used.map fun u => u.1 + u.2).find? fun b =>
    decide (b + n ≤ 256) && used.all fun u => decide (b + n ≤ u.1) || decide (u.1 + u.2 ≤ b)

/-- The region with its rows, if it may stand among the other regions of its core. What an image breaks by itself is its loader's to
find (R48, R80). -/
def Region.settleAmong (g : Region) (others : List Region) : Option Region :=
  let all := g :: others
  let credits := (all.map Region.loads).flatten
  let rings := (all.map Region.ringTiles).flatten
  let theirs := ((others.map Region.loads).flatten).map fun x => x.1
  let theirRings := (others.map Region.ringTiles).flatten
  if others.all g.agrees &&
      (g.loads.all fun e => !theirs.contains e.1 || decide (((credits.filter fun x => x.1 = e.1).map fun x => x.2).sum ≤ 4)) &&
      (g.ringTiles.all fun t => !theirRings.contains t || decide ((rings.filter fun x => x = t).length ≤ 16)) then
    if g.rows = 0 then some g
    else
      let tiles := g.tmap.filter fun e => isCompute e.1
      let bases := tiles.map fun e => (e.1, rowsFree others e.2 g.rows)
      if bases.all fun b => b.2.isSome then some { g with rowBase := bases.map fun b => (b.1, b.2.getD 0) } else none
  else none

-- Where a gang may stand.

/-- Two instances of a gang in two cores meet R297. -/
def spread (ls : List Level) (i ci j cj : Nat) : Bool :=
  (List.range ls.length).all fun n =>
    match ls[n]? with
    | none => true
    | some l =>
      let outer := (List.range ls.length).all fun m => m ≤ n || localIndex ls m i = localIndex ls m j
      l.dom < 2 || !outer ||
        ((match l.scope with
          | 0 | 1 => ci = cj
          | 2 => clusterOfCore ci = clusterOfCore cj
          | 3 => dieOfCore ci = dieOfCore cj
          | _ => true) &&
         (localIndex ls n i = localIndex ls n j ||
          (match l.dom with
            | 2 => true
            | 3 => ci ≠ cj
            | 4 => clusterOfCore ci ≠ clusterOfCore cj
            | _ => dieOfCore ci ≠ dieOfCore cj)))

/-- The frame of a gang's cog. -/
def Gang.cogFrame (g : Gang) (cog : Nat) : Frame :=
  match g.cass with
  | some c => c.cogs.getD cog g.frame
  | none => g.frame

/-- Level 7 belongs to the generator launches of fills (R301). -/
def Gang.isGen (g : Gang) : Bool := g.fill.isSome

/-- The cores that a gang may use on a die (R374). -/
def State.coresFor (s : State) (die : Nat) (gen : Bool) : List Nat :=
  let kept := if gen then 0 else min 16 (s.mmioNat (memPage die + 0x40) 0x1C01 % 32)
  (List.range (16 - kept)).map fun c => 16 * die + c

/-- One instance at one place among the regions given: its region slot and region. -/
def Gang.spot (g : Gang) (cog inst rot core px py : Nat) (others : List (Nat × Region)) : Option (Nat × Region) :=
  let mine := others.filter fun e => coreOf e.1 = core
  let ls := g.levels
  if (others.all fun e => e.2.gang ≠ g.id.toNat || spread ls inst core e.2.inst (coreOf e.1)) &&
      ((ringBinds g.rcd).isEmpty ||
        others.all fun e => e.2.gang ≠ g.id.toNat || clusterOf e.1 = clusterOfCore core) then
    match (rotated rot (List.range 32)).find? fun n => mine.all fun e => e.1 % 32 ≠ n with
    | none => none
    | some n =>
      (((g.cogFrame cog).region g.cass cog g.id.toNat inst core px py (fieldAt g.rcd 0x0A 2)).settleAmong
        (mine.map fun e => e.2)).map fun r => (32 * core + n, r)
  else none

/-- The places of a frame within a core (R173). -/
def Frame.places (f : Frame) : List (Nat × Nat) :=
  if f.wx = 0 ∨ f.wy = 0 then []
  else (((List.range (17 - f.wy)).map fun py => (List.range (9 - f.wx)).map fun px => (px, py)).flatten).filter
    fun p => (p.1 + p.2) % 2 = 0

/-- Places the instances given, one after another, beside the regions given (R298). -/
def Gang.search (g : Gang) (cog rot : Nat) (cores : List Nat) : List Nat → List (Nat × Region) → Option (List (Nat × Region))
  | [], _ => some []
  | i :: r, others =>
    let spots := (cores.map fun c => (g.cogFrame cog).places.map fun p => (c, p.1, p.2)).flatten
    (rotated rot spots).findSome? fun p =>
      match g.spot cog i rot p.1 p.2.1 p.2.2 others with
      | none => none
      | some e => (g.search cog rot cores r (e :: others)).map fun es => e :: es

-- Cassettes (R375, R376).

/-- The names of the edges that a context's used routes carry; of one that carries none, no name. -/
def CtxImg.usedNames (c : CtxImg) (f : Frame) : List (List Byte) :=
  (List.range 8).filterMap fun o =>
    if c.usedRoutes.getLsbD o then
      some (((f.edges.find? fun e => e.1 = routeEdge (c.routes.getD o 0#32)).map fun e => e.2).getD [])
    else none

/-- The context of a frame that an actor-map word names. -/
def Frame.actorCtx (f : Frame) (w : Word) : Option CtxImg :=
  let v := w.toNat
  if bitOf 3 v || bitsOf 15 17 v ≠ 0 then none
  else (f.ctx (16 * (8 * bitsOf 4 4 v + bitsOf 0 3 v) + 4 * bitsOf 10 2 v + bitsOf 8 2 v) (bitsOf 12 3 v)).filter CtxImg.en

/-- Whether the header and cog entries of a cassette break R375. -/
def badCassHdr (m : Array Byte) : Bool :=
  let n (o k : Nat) : Nat := imgNat m o k
  let entry (c : Nat) : Nat := 0x40 + 16 * c
  n 0 4 ≠ 0x43415343 || n 4 2 ≠ 1 || n 6 1 = 0 || 8 < n 6 1 || n 8 2 = 0 || 8192 < n 8 2 || bitsOf 12 3 (n 0xA 2) ≠ 0 ||
  n 0xC 2 = 0 || n 0xE 2 < n 0xC 2 || 512 < n 0xE 2 || n 0x10 4 ≤ n 0x14 4 ||
  n 0x18 1 = 0 || n 0x19 39 ≠ 0 ||
  (List.range (n 6 1)).any fun c =>
    badAddr (n (entry c) 8) 256 || n (entry c + 8) 4 % 4 ≠ 0 || n (entry c + 14) 2 ≠ 0 ||
    (0 < c && n (entry (c - 1) + 12) 2 ≤ n (entry c + 12) 2)

/-- Whether the cogs of a cassette break R376, or the record that names it. -/
def badCass (rcd : List Word) (c : Cass) (ntps : List Nat) : Bool :=
  let ls := levelsOf rcd
  let f0 := c.cogs.headD {}
  let m0 := c.maps.headD []
  fieldAt rcd 0x18 8 ≠ f0.va ||
  ((c.cogs.zip ntps).any fun p => p.1.wx * p.1.wy ≠ p.2) ||
  ((c.cogs.zip c.maps).any fun p =>
    let cs := p.2.map p.1.actorCtx
    !(cs.all Option.isSome) || !cs.Nodup || (p.1.ctxs.filter CtxImg.en).length ≠ c.nact ||
    (let names := (p.1.ctxs.map fun x => x.usedNames p.1).flatten; !names.Nodup || names.contains []) ||
    ((p.2.zip m0).any fun w =>
      match p.1.actorCtx w.1, f0.actorCtx w.2 with
      | some a, some b => a.mode ≠ b.mode || a.init ≠ b.init ||
          !((a.usedNames p.1).all fun x => (b.usedNames f0).contains x) ||
          !((b.usedNames f0).all fun x => (a.usedNames p.1).contains x)
      | _, _ => true) ||
    p.1.bufs.map (fun b => b.size) ≠ f0.bufs.map (fun b => b.size) || p.1.rings ≠ f0.rings) ||
  (c.elv ≠ 0xFF &&
    match ls[c.elv]? with
    | none => true
    | some l => l.dom < 2 || l.cnt < c.mini || c.maxi < l.cnt || l.ext - l.base < c.maxi ||
        (List.range ls.length).any fun i => i ≠ c.elv && decide (2 ≤ (ls.getD i default).dom ∧ (ls.getD i default).cnt ≠ 1))

-- Acceptance.

/-- Why a record is rejected: the class, the failing field, the reason of R299 where that rule gives one, and for a failed
read its address and what Translate or the memory said. -/
structure Reject where
  cls : Nat := 0x0F
  off : Nat
  sub : Nat := 0xFF
  va : Nat := 0
  deny : Option Deny := none
  deriving DecidableEq, Repr, Inhabited

/-- The rejection that a failed read gives. -/
def Reject.ofRead (off : Nat) (e : Nat × Deny) : Reject :=
  match e.2 with
  | .fault c _ _ => { cls := c, off, va := e.1, deny := some e.2 }
  | .bad _ => { cls := 0x0B, off, va := e.1, deny := some e.2 }
  | .link _ | .wait => { cls := 0x12, off, va := e.1, deny := some e.2 }

/-- The image of a frame: its length is read first (R72). -/
def State.readImage (s : State) (q : Ask) (va : Nat) : VRes × State :=
  match s.vread q va 64 with
  | (.error e, s) => (.error e, s)
  | (.ok h, s) => s.vread q va (max 64 (hdrLen h.toArray))

/-- The frame at an address, where it can be read and its header and tables are well formed. -/
def State.readFrame (s : State) (q : Ask) (va : Nat) : Option Frame × State :=
  match s.readImage q va with
  | (.error _, s) => (none, s)
  | (.ok bs, s) => (if (imageFault bs.toArray).isNone then some (imgFrame va bs.toArray) else none, s)

/-- The frames of a cassette's cogs, with their actor maps and NTP fields; `n` cogs from cog `c`. -/
def State.readCogs (q : Ask) (cva : Nat) (hdr : Array Byte) : Nat → Nat → State → Option (List (Frame × List Word)) × State
  | 0, _, s => (some [], s)
  | n + 1, c, s =>
    match s.readFrame q (imgNat hdr (0x40 + 16 * c) 8) with
    | (none, s) => (none, s)
    | (some f, s) => match s.vread q (cva + imgNat hdr (0x48 + 16 * c) 4) (4 * imgNat hdr 8 2) with
      | (.error _, s) => (none, s)
      | (.ok bs, s) => match State.readCogs q cva hdr n (c + 1) s with
        | (none, s) => (none, s)
        | (some r, s) => (some ((f, leWords (imgNat hdr 8 2) bs) :: r), s)

/-- The cassette that a record names, checked (R375, R376). -/
def State.readCass (s : State) (q : Ask) (rcd : List Word) : Except Reject Cass × State :=
  let va := fieldAt rcd 0xD0 8
  match s.vread q va (0x40 + 16 * 8) with
  | (.error e, s) => (.error (.ofRead 0xD0 e), s)
  | (.ok bs, s) =>
    let m := bs.toArray
    if badCassHdr m then (.error { off := 0xD0 }, s)
    else
      let n (o k : Nat) : Nat := imgNat m o k
      match State.readCogs q va m (n 6 1) 0 s with
      | (none, s) => (.error { off := 0xD0 }, s)
      | (some cs, s) =>
        let c : Cass := { elv := n 7 1, nact := n 8 2, qin := if bitOf 15 (n 0xA 2) then some (n 0xA 2 % 4096) else none,
                          mini := n 0xC 2, maxi := n 0xE 2, hiwm := n 0x10 4, lowm := n 0x14 4, hyst := n 0x18 1,
                          cogs := cs.map fun p => p.1, maps := cs.map fun p => p.2 }
        if badCass rcd c ((List.range (n 6 1)).map fun i => n (0x4C + 16 * i) 2) then (.error { off := 0xD0 }, s)
        else (.ok c, s)

/-- What is asked of a dispatcher: the record, the address space in which it is read, the gang's address space where the record's
TENANT does not give it (R340), the argument fields of a LAUNCH (R302), and the fill slot of a generator launch (R355). -/
structure Submission where
  die : Nat
  lrec : Nat
  recAs : Nat
  as_ : Option Nat := none
  argo : Nat := 0
  adj : Int := 0
  pkt : Option Packet := none
  fill : Option Nat := none
  garg : Nat := 0
  deriving DecidableEq, Repr, Inhabited

/-- The number of tiles in a frame's element table (R298). -/
def Frame.tilesUsed (f : Frame) : Nat := ((f.ctxs.map fun c => c.el / 16).dedup).length

/-- The argument address of a launch (R296, R302, R355). -/
def Submission.arg (a : Submission) (rcd : List Word) : Nat :=
  if a.fill.isSome then a.garg
  else
    let base := if a.argo ≠ 0 then a.argo else fieldAt rcd 0x20 8
    if base = 0 then 0 else (((base : Int) + a.adj) % 2 ^ 64).toNat

/-- The next launch ID of a die, and its acceptance count afterwards (R302). -/
def State.nextId (s : State) (die : Nat) : Word × Nat :=
  let n := s.dies.accepted.lookD die 0 % 2 ^ 30
  if die * 2 ^ 30 + n = 0xFFFFFFFF then (BitVec.ofNat 32 (die * 2 ^ 30), 1)
  else (BitVec.ofNat 32 (die * 2 ^ 30 + n), n + 1)

/-- Frame tests of acceptance (R298): the product limit of domain 1, the rings bound, and whether any placement exists on the
die with no other work. -/
def State.frameTest (s : State) (g : Gang) (f : Option Frame) : Option Nat :=
  let ls := levelsOf g.rcd
  let p1 := innerExt ls ls.length 1
  match f with
  | none => none
  | some f =>
    match (List.range 8).find? fun n => bitOf 31 (ringBind g.rcd n) && f.rings.length ≤ bitsOf 24 6 (ringBind g.rcd n) with
    | some n => some (0xB0 + 4 * n)
    | none =>
      if 1 < p1 ∧ f.tilesUsed < p1 then
        some (0x40 + 8 * ((firstIdx (fun n => decide (f.tilesUsed < innerExt ls (n + 1) 1)) (List.range ls.length) 0).getD 0))
      else if (g.search g.cog 0 (s.coresFor g.die g.isGen) (List.range (instCount ls)) []).isNone then
        some (Config.failField s.free)
      else none

/-- Checks a record that has been read (R298): the gang that it describes, without its identity. -/
def State.examine (s : State) (a : Submission) (rcd : List Word) (predLoc : Nat) : Except Reject Gang × State :=
  let gen := a.fill.isSome
  let tenant := fieldAt rcd 0x0C 2
  let as_ := a.as_.getD tenant
  match recordFault rcd gen with
  | some o => (.error { off := o }, s)
  | none =>
    let ring := fieldAt rcd 0x0E 2
    match if a.as_ = none then s.tableDeny a.die (s.astBase a.die) tenant (s.astN a.die) else none with
    | some d => (.error (.ofRead 0x0C (0, d)), s)
    | none =>
    if a.as_ = none ∧ !((s.aspace a.die tenant).map ASpace.v).getD false then (.error { off := 0x0C }, s)
    else match s.tableDeny a.die s.ringTable ring (s.mmioNat 0x18 0) with
    | some d => (.error (.ofRead 0x0E (0, d)), s)
    | none =>
    if s.badRing ring then (.error { off := 0x0E }, s)
    else
      let pred := fieldAt rcd 8 2
      let waiting := s.dies.gangs.filter fun e => e.2.st = .pending
      let pending := waiting.filter fun e => e.2.die = a.die
      if pred ≠ 0 ∧ gen then (.error { off := 8 }, s)
      else if pred ≠ 0 ∧ waiting.any (fun e => e.2.predLoc = some predLoc) then (.error { off := 8, sub := 2 }, s)
      else if pred ≠ 0 ∧ 1024 ≤ pending.length then (.error { off := 8, sub := 1 }, s)
      else
        let rd : Ask := { die := a.die, as_, va := 0, r := true }
        let fl : Ask := { die := a.die, as_, va := 0, x := true }
        let (epts, s) : Except Reject (List (Option Ept)) × State :=
          if fieldAt rcd 0x30 8 = 0 then (.ok [], s)
          else match s.vread rd (fieldAt rcd 0x30 8) 2048 with
            | (.error e, s) => (.error (.ofRead 0x30 e), s)
            | (.ok bs, s) =>
              if (List.range 64).any (s.badEpt a.die bs.toArray) then (.error { off := 0x30 }, s)
              else (.ok ((List.range 64).map (eptAt bs.toArray)), s)
        match epts with
        | .error e => (.error e, s)
        | .ok epts =>
          let (cass, s) : Except Reject (Option Cass) × State :=
            if fieldAt rcd 0xD0 8 = 0 then (.ok none, s)
            else match s.readCass fl rcd with
              | (.error e, s) => (.error e, s)
              | (.ok c, s) => (.ok (some c), s)
          match cass with
          | .error e => (.error e, s)
          | .ok cass =>
            let (frame, s) := s.readFrame fl (fieldAt rcd 0x18 8)
            let g : Gang :=
              { id := 0xFFFFFFFF#32, die := a.die, as_, recVA := a.lrec, rcd, arg := a.arg rcd,
                frame := frame.getD { va := fieldAt rcd 0x18 8 }, cass, epts,
                st := if pred = 0 then .ready else .pending, order := s.dies.order, since := s.clk a.die, from_ := a.pkt,
                fill := a.fill, predLoc := if pred = 0 then none else some predLoc,
                insts := (List.range (instCount (levelsOf rcd))).map fun i => { inst := i } }
            match s.frameTest g frame with
            | some o => (.error { off := o }, { s with free := s.free + 1 })
            | none => (.ok g, s)

/-- The dispatcher accepts a record, or rejects it (R298). -/
def State.accept (s : State) (a : Submission) : Except Reject Word × State :=
  let q : Ask := { die := a.die, as_ := a.recAs, va := 0, r := true }
  match s.vread q a.lrec 256 with
  | (.error e, s) => (.error (.ofRead (Config.failField s.free) e), { s with free := s.free + 1 })
  | (.ok bs, s) =>
    let loc := match (s.xlate { q with va := a.lrec }).1 with
      | .ok l => l
      | _ => 0
    match s.examine a (leWords 64 bs) (loc + 8) with
    | (.error e, s) => (.error e, s)
    | (.ok g, s) =>
      let (id, n) := s.nextId a.die
      (.ok id, { s with dies := { s.dies with
        accepted := s.dies.accepted.put a.die n, order := s.dies.order + 1, gangs := s.dies.gangs.put id.toNat { g with id },
        due := if g.st = .ready then (a.die :: s.dies.due).dedup else s.dies.due } })

end Sys2Proof.Machine
end

