-- ==== Sys2Proof/Machine/Procedural.lean ====
section
/-!
DEFINITION. Procedural fills (R353 to R365): joining a fill, starting one with its generator gang, cancelling it and charging
its waiters, the clock, and the end of an eviction; and what ends a region or gang at once (R194, R391).
-/

namespace Sys2Proof.Machine

-- Waiters (R358).

/-- The gang on whose behalf a waiter waits. -/
def State.waiterGang (s : State) (w : Waiter) : Nat :=
  let of (r : Nat) : Nat := ((s.region r).map fun g => g.gang).getD 0xFFFFFFFF
  match w with
  | .elem c .. => of c.region
  | .gen r .. => of r
  | .job core slot serial _ =>
    ((s.cores.jobs.find? fun j => j.core = core && j.slot = slot && j.serial = serial).map fun j => j.pkt.org.gang).getD 0xFFFFFFFF
  | .req id .. => ((s.req id).map fun q => q.org.gang).getD 0xFFFFFFFF
  | .coll id _ => ((s.dies.colls.find? fun c => c.id = id).map fun c => c.pkt.org.gang).getD 0xFFFFFFFF
  | .gang g _ => g

/-- The region of a waiter. -/
def State.waiterRegion (s : State) (w : Waiter) : Option Nat :=
  match w with
  | .elem c .. => some c.region
  | .gen r .. => some r
  | .job core slot serial _ =>
    (s.cores.jobs.find? fun j => j.core = core && j.slot = slot && j.serial = serial).map fun j => j.pkt.org.ctx.region
  | .req id .. => (s.req id).map fun q => q.org.ctx.region
  | .coll id _ => (s.dies.colls.find? fun c => c.id = id).map fun c => c.pkt.org.ctx.region
  | .gang .. => none
/-- The die that a waiter's access comes from. -/
def State.waiterDie (s : State) (w : Waiter) : Option Nat :=
  match w with
  | .gang g _ => (s.gang g).map fun x => x.die
  | w => (s.waiterRegion w).map dieOf

/-- Whether a waiter is of a region slot's placement. -/
def State.waiterIn (s : State) (r : Nat) (g : Region) (w : Waiter) : Bool :=
  match w with
  | .elem c .. => c.region = r
  | .gen x .. => x = r
  | .job core slot serial _ =>
    (s.cores.jobs.find? fun j => j.core = core && j.slot = slot && j.serial = serial).any fun j => g.owns r j.pkt
  | .req id .. => (s.req id).any fun q => g.issued r q.org
  | .coll id _ => (s.dies.colls.find? fun c => c.id = id).any fun c => g.owns r c.pkt
  | .gang .. => false

/-- Who a waiter is, whatever it waits for. -/
def Waiter.same : Waiter → Waiter → Bool
  | .elem c .., .elem d .. => c = d
  | .gen r g .., .gen q h .. => r = q && g = h
  | .job c n x _, .job d m y _ => c = d && n = m && x = y
  | .req i .., .req j .. => i = j
  | .coll i _, .coll j _ => i = j
  | .gang i _, .gang j _ => i = j
  | _, _ => false

/-- Removes waiters from every list (R358). -/
def State.unwait (s : State) (p : Waiter → Bool) : State :=
  let keep (l : List Waiter) : List Waiter := l.filter fun w => !p w
  { s with dies := { s.dies with
      fills := s.dies.fills.map fun f => { f with waiters := keep f.waiters, extra := keep f.extra },
      slotQ := s.dies.slotQ.filter fun q => !p q.w,
      evicts := s.dies.evicts.map fun e => { e with waiters := keep e.waiters } } }

/-- Whether a waiter stands in some list. -/
def State.waits (s : State) (w : Waiter) : Bool :=
  s.dies.fills.any (fun f => (f.waiters ++ f.extra).any w.same) || s.dies.slotQ.any (fun q => q.w.same w) ||
  s.dies.evicts.any fun e => e.waiters.any w.same

/-- INFO of a generator's record of a failed link (R283, R424). -/
def genLink (l pos : Nat) : List Byte := [BitVec.ofNat 8 l, 0#8, 0xFF#8, 0#8] ++ natLe 4 pos

/-- INFO 0x20 to 0x27 of a waiter's record (R271, R283, R363). -/
def State.waiterInfo (s : State) (w : Waiter) : List Byte :=
  match w with
  | .elem _ _ kind size win off _ | .req _ kind size win off _ =>
    [BitVec.ofNat 8 kind, BitVec.ofNat 8 size, BitVec.ofNat 8 win, 0#8] ++ natLe 4 off
  | .gen r n _ idx =>
    let x := (((s.region r).bind fun x => x.gens.look n)).getD {}
    [4#8, BitVec.ofNat 8 (if idx then bitsOf 24 2 (wordAt x.p 14).toNat else 2), 0xFF#8, 0#8] ++ natLe 4 x.pos
  | .job core slot serial _ => [6#8, 5#8, 0xFF#8, 0#8] ++ natLe 4
      (((s.cores.jobs.find? fun j => j.core = core && j.slot = slot && j.serial = serial).map fun j => j.chunk).getD 0)
  | .coll .. => [6#8, 5#8, 0xFF#8, 0#8] ++ natLe 4 0
  | .gang n _ => [2#8, if ((s.gang n).map fun g => g.step) = some 2 then 2#8 else 1#8, 0#8, 0#8] ++ natLe 4 0

/-- The address that a waiter accesses. -/
def Waiter.va : Waiter → Nat
  | .elem _ _ _ _ _ _ va | .gen _ _ va _ | .job _ _ _ va | .req _ _ _ _ _ va | .coll _ va | .gang _ va => va

/-- INFO of a record of classes 0x08 to 0x0A (R363). -/
def State.fillInfo (s : State) (w : Waiter) (rng depth cause blk : Nat) : List Byte :=
  s.waiterInfo w ++ [BitVec.ofNat 8 rng, BitVec.ofNat 8 depth, BitVec.ofNat 8 cause, 0#8] ++ natLe 4 blk

-- Faults of generators and jobs.

/-- The first rounded context of a region in element order (R189). -/
def Region.firstRounded (g : Region) : Option Ctx :=
  g.roundSet.foldl (fun best c => match best with
    | some b => if c.el < b.el ∨ (c.el = b.el ∧ c.k < b.k) then some c else best
    | none => some c) none

/-- A generator's fault (R189, R226, R282, R283): outside the round set it stops and posts to the context that started it;
in the round set it voids the round. -/
def State.genFault (s : State) (r n cls : Nat) (info : List Byte) (va : Nat) (flags : Nat := 0) (word : Word := 0#32) : State :=
  match s.region r with
  | none => s
  | some g => match g.gens.look n with
    | none => s
    | some x =>
      let c : CtxId := if x.rounded then (g.firstRounded.map fun c => c.id r).getD x.starter else x.starter
      let rcd : Rec := { cls, flags := (if x.rounded then 3 else 0) + 0x40 + flags, lease := g.lease, tx := tileX (n / 4),
                         ty := tileY (n / 4), exy := n % 4, ks := c.k, inst := g.inst, word, va, info, lrec := s.lrecOf g.gang }
      let s := if x.rounded then s.voidRound r
        else s.updRegion r fun g => { g with gens := g.gens.upd n fun x => { x with running := false, faulted := true, fetch := .idle, old := false, eng := none } }
      s.giveRec c (coreOf r) (s.fringOf g.gang) [] rcd

def State.updJob (s : State) (core slot : Nat) (f : Job → Job) : State :=
  { s with cores := { s.cores with jobs := mapIf (fun j => j.core = core ∧ j.slot = slot) f s.cores.jobs } }
def Job.tag (j : Job) : Word := BitVec.ofNat 32 (j.serial * 65536 + j.slot)

/-- A fault of a copy job's chunk is found (R270). -/
def State.jobFault (s : State) (j : Job) (cls : Nat) (info : List Byte) (va : Nat) (flags : Nat := 0) : State :=
  let rcd := s.mkRec j.pkt.org cls info va j.tag
  s.updJob j.core j.slot fun j => { j with fill := false, fault := some { rcd with flags := rcd.flags + flags } }

/-- An access of a collective faults: a translation fault pauses it; any other ends it at every rank, and its signal is aborted (R457). -/
def State.stopColl (s : State) (c : Coll) (r : Rec) : State :=
  let on (s : State) (f : Coll → Coll) : State := { s with dies := { s.dies with colls := mapIf (fun x => x.id = c.id) f s.dies.colls } }
  if r.cls = 0x01 ∨ r.cls = 0x02 then (on s fun x => { x with paused := true }).engineFault c.pkt.org r
  else (on (s.abortSignal c.pkt.org c.pkt.cmd) fun x => { x with failed := true, paused := false }).engineFault c.pkt.org r

/-- A record of a gang's completion: no context issued what failed (R300). -/
def Gang.doneRec (g : Gang) (cls va : Nat) (info : List Byte) : Rec :=
  { cls, flags := 0x10, tx := 0xFF, ty := 0xFF, exy := 0xFF, word := g.id, va, info, lrec := g.recVA }
def State.giveDone (s : State) (g : Gang) (r : Rec) : State :=
  s.giveRec { region := 512 * g.die, el := 65537, k := 0 } (16 * g.die) g.fring [] r
/-- The field of the launch record that a step of the completion comes from: step 2 increments CPLT, steps 3 to 6 decrement the PREDs of the
successors, and step 7 is the signal. -/
def doneField (step : Nat) : Nat := if step = 2 then 0x38 else 0x80 + 8 * (step - 3)
/-- A step of the completion that faults is not performed, and the next follows (R300). -/
def State.doneFails (s : State) (g : Gang) (va cls : Nat) (info : List Byte) (flags : Nat := 0) : State :=
  let r := g.doneRec cls va ((info ++ List.replicate 12 0#8).take 12 ++ natLe 4 (doneField g.step))
  (s.giveDone g { r with flags := r.flags + flags }).updGang g.id.toNat fun x => { x with step := x.step + 1 }

/-- A waiter receives a record in its own unit (R45, R189, R270, R300, R363). A generator that no longer waits receives none (log 89). -/
def State.chargeWaiter (s : State) (w : Waiter) (cls : Nat) (info : List Byte) (flags : Nat) (word : Word) : State :=
  match w with
  | .elem c slot .. =>
    let r := s.mkRec (s.origin { ctx := c, slot } false) cls info w.va word
    (s.thawFill c).freezeFor c { r with flags := r.flags + flags }
  | .gen r n va _ =>
    match (s.region r).bind fun g => g.gens.look n with
    | some x =>
      if x.fetch == .fill && !x.old && x.running then s.genFault r n cls info va flags word
      else s.updRegion r fun g => { g with gens := g.gens.upd n fun x => { x with fetch := if x.fetch == .fill then .idle else x.fetch, old := false } }
    | none => s
  | .job core slot serial _ =>
    match s.cores.jobs.find? fun j => j.core = core && j.slot = slot && j.serial = serial with
    | some j => s.jobFault j cls info w.va flags
    | none => s
  | .req id .. =>
    match s.req id with
    | some q =>
      let r := s.mkRec q.org cls info w.va word
      (s.dropReq id).raise { ctx := q.org.ctx, slot := q.org.slot } true { r with flags := r.flags + flags }
    | none => s
  | .coll id _ =>
    match s.dies.colls.find? fun c => c.id = id with
    | some c =>
      let r := s.mkRec c.pkt.org cls info w.va word
      s.stopColl c { r with flags := r.flags + flags }
    | none => s
  | .gang n va =>
    match s.gang n with
    | some g => if g.st = .completing then s.doneFails g va cls info flags else s
    | none => s

-- Fills.

/-- The range of a fill or eviction. -/
def State.rangeNo (s : State) (die as_ n : Nat) : Range := s.rangeAt (((s.aspace die as_).map fun a => a.rtab).getD 0) n

def fillKey (f : Fill) : Nat := 1024 * f.die + f.slot
def State.updFill (s : State) (key : Nat) (f : Fill → Fill) : State :=
  { s with dies := { s.dies with fills := mapIf (fun x => fillKey x = key) f s.dies.fills } }

/-- A counter of a die's memory page (R370). -/
def fdFill (d : Nat) : Nat := memPage d + 0x48
def fdMerge (d : Nat) : Nat := memPage d + 0x4C
def fdNest (d : Nat) : Nat := memPage d + 0x50
def fdFail (d : Nat) : Nat := memPage d + 0x54
def fdEvict (d : Nat) : Nat := memPage d + 0x58
def fdWovf (d : Nat) : Nat := memPage d + 0x5C

/-- The depth of a fill that a gang's access starts, and the slots it is then nested in: the gang's own and its ancestors (R360, R361). -/
def State.depthFor (s : State) (gang : Nat) : Nat := ((s.fillOfGang gang).map fun f => f.depth + 1).getD 1
def State.ancFor (s : State) (gang : Nat) : List Nat := ((s.fillOfGang gang).map fun f => fillKey f :: f.anc).getD []

/-- Whether a fill at a depth may take a slot (R354). -/
def State.slotFree (s : State) (die depth : Nat) : Bool :=
  decide (16 * (4 - depth) < 1024 - (s.dies.fills.filter fun f => f.die = die).length)

/-- The waiters of a fill leave the lists of other fills: it is the first of theirs to be cancelled (R415). -/
def State.claimWaiters (s : State) (f : Fill) : State :=
  let s := s.unwait fun w => f.waiters.any w.same
  s.updFill (fillKey f) fun x => { x with waiters := f.waiters }

/-- Cancels a fill (R362): the block becomes EVICTING; its waiters are charged when it is EMPTY. `cls` is the class that the
waiters receive (R363). -/
def State.cancelFill (s : State) (key cause cls : Nat) (code : Word) : State :=
  match s.dies.fills.find? fun f => fillKey f = key && !f.cancelled with
  | none => s
  | some f =>
    let s := (s.claimWaiters f).updFill key fun x => { x with cancelled := true, cause, code, cls }
    let s := (s.count (fdFail f.die)).setBlock (s.rangeNo f.die f.as_ f.rng) f.blk 3
    { s with dies := { s.dies with evicts := s.dies.evicts ++
        [{ id := s.uid, die := f.die, as_ := f.as_, rng := f.rng, blk := f.blk, slot := some f.slot }] }, uid := s.uid + 1 }

/-- Takes a slot: the block is FILLING, and the generator gang is accepted (R354, R355). -/
def State.startFill (s : State) (r : Range) (as_ blk depth : Nat) (anc : List Nat) (w : Waiter) : State :=
  let used := (s.dies.fills.filter fun f => f.die = r.die).map fun f => f.slot
  let slot := ((rotated (Config.order s.free) (List.range 1024)).find? fun n => !used.contains n).getD 0
  let s := { s with free := s.free + 1 }
  let s := s.setBlock r blk 1
  let f : Fill := { die := r.die, slot, as_, rng := r.idx, blk, depth, anc, gang := 0xFFFFFFFF, since := s.clk r.die,
                    timeout := min 31 (max 20 (bitsOf 8 5 (s.mmioNat (memPage r.die + 0x40) 0x1C01))), waiters := [w] }
  let s := { s with dies := { s.dies with fills := s.dies.fills ++ [f] } }
  let s := s.count (fdFill r.die)
  let s := if 2 ≤ depth then s.count (fdNest r.die) else s
  match s.accept { die := r.die, lrec := r.grec, recAs := as_, as_ := some as_, fill := some (fillKey f), garg := r.garg } with
  | (.ok id, s) => s.updFill (fillKey f) fun f => { f with gang := id.toNat }
  | (.error _, s) => s.cancelFill (fillKey f) 0xF5 8 0#32

/-- What a read-like access to a block that is not FULL meets (R353, R360, R361): nothing that stops it, or a fault of its own with
the depth of the fill it failed to start. -/
def State.joinFault (s : State) (r : Range) (as_ blk gang : Nat) : Option (Nat × Nat) :=
  match s.blockState r blk with
  | 0 => if r.depth < s.depthFor gang then some (0x09, s.depthFor gang) else none
  | 1 => match s.fillOf r as_ blk with
    | some f => if (s.ancFor gang).contains (fillKey f) then some (0x0A, f.depth) else none
    | none => none
  | _ => none

/-- A request starts or joins a block's fill, or waits for a slot or for the block to become EMPTY (R353, R354, R358). -/
def State.joinFill (s : State) (r : Range) (as_ blk : Nat) (w : Waiter) : State :=
  let gang := s.waiterGang w
  match s.blockState r blk with
  | 1 => match s.fillOf r as_ blk with
    | none => s
    | some f =>
      if f.waiters.length < 256 then
        (s.updFill (fillKey f) fun f => { f with waiters := f.waiters ++ [w] }).count (fdMerge r.die)
      else (s.updFill (fillKey f) fun f => { f with extra := f.extra ++ [w] }).count (fdWovf r.die)
  | 3 =>
    let evicts := mapIf (fun e => e.die = r.die ∧ e.as_ = as_ ∧ e.rng = r.idx ∧ e.blk = blk)
      (fun e => { e with waiters := e.waiters ++ [w] }) s.dies.evicts
    { s with dies := { s.dies with evicts } }
  | _ =>
    let depth := s.depthFor gang
    let anc := s.ancFor gang
    let queued := s.dies.slotQ.any fun q => q.die = r.die && q.as_ = as_ && q.rng = r.idx && q.blk = blk
    if !queued && s.slotFree r.die depth && !s.dieWaits r.die then s.startFill r as_ blk depth anc w
    else { s with dies := { s.dies with slotQ := s.dies.slotQ ++
        [{ die := r.die, as_, rng := r.idx, blk, depth, anc, w }] } }

/-- An access starts or joins the fills of several blocks at once (R415). Once one of them has been cancelled, as for a generator record that
is bad, it waits for the record of that one only. -/
def State.joinFills (s : State) (as_ : Nat) (ws : List (Range × Nat × Waiter)) : State :=
  ws.foldl (fun s w =>
    let t := s.joinFill w.1 as_ w.2.1 w.2.2
    match s.dies.fills.find? fun f => f.cancelled && f.waiters.any w.2.2.same with
    | some f => (t.unwait w.2.2.same).updFill (fillKey f) fun x => { x with waiters := f.waiters }
    | none => t) s

/-- A fault of a waiter's own, when its turn comes (R360, R361). -/
def State.ownFillFault (s : State) (r : Range) (blk : Nat) (w : Waiter) (f : Nat × Nat) : State :=
  s.chargeWaiter w f.1 (s.fillInfo w r.idx f.2 f.1 blk) 0 0#32

-- Evictions (R364, R365).

/-- The locations of a block's 4 KiB groups. -/
def State.blockGroups (s : State) (r : Range) (as_ blk : Nat) : List Nat :=
  (List.range (2 ^ r.lbs / 4096)).filterMap fun i =>
    let va := r.base + blk * 2 ^ r.lbs + 4096 * i
    match s.walk r.die as_ va with
    | .ok l => l.loc va
    | .error _ => none

/-- Whether a key, by cluster × 2^40 + location, lies in one of some 4 KiB groups. -/
def inGroups (groups : List Nat) (k : Nat) : Bool := groups.any fun g => g / 4096 = k % 2 ^ 40 / 4096

/-- The location of a direct access that has passed its checks and has still to be performed. -/
def Req.passed (q : Req) : Option Nat :=
  match q.stage with
  | .held a | .wide _ (.access a) => some a.loc
  | _ => none
/-- A block's invalidation waits: for an access that passed its FULL check before the block became EVICTING and is performed on the old data
(R365); for a link that retrains on its way, to its tables, or from a cluster cache that holds dirty bytes of it (R423). -/
def State.blockHeld (s : State) (r : Range) (as_ blk : Nat) : Bool :=
  let groups := s.blockGroups r as_ blk
  (s.fab.reqs.any fun q => q.passed.any (inGroups groups)) ||
  ((List.range (2 ^ r.lbs / 4096)).any fun i => s.walk r.die as_ (r.base + blk * 2 ^ r.lbs + 4096 * i) = .error .wait) ||
    s.store.dirty.any fun e => inGroups groups e.1 && s.retrains (e.1 / 2 ^ 40 / 4) (homeDie (e.1 % 2 ^ 40))

/-- Invalidates a block's lines (R365): the dirty bytes of every cluster cache are written back, and those of L2 to the stack; no cache
holds a copy. -/
def State.flushBlock (s : State) (r : Range) (as_ blk : Nat) : State :=
  let groups := s.blockGroups r as_ blk
  let hit := s.store.dirty.filter fun e => inGroups groups e.1
  let s := ((hit.map fun e => (e.1 / 2 ^ 40, e.1 % 2 ^ 40 / 32)).dedup).foldl (fun s e => s.writeBackSector e.1 e.2) s
  { s with store := { s.store with stale := s.store.stale.filter fun e => !inGroups groups e.1,
                                   copies := s.store.copies.filter fun k => !inGroups groups k } }

/-- Held stores of the block, which passed their FULL check before it became EVICTING, are performed on the old data, which is gone: their
writes are lost (R329, R365). -/
def State.loseHeld (s : State) (r : Range) (as_ blk : Nat) : State :=
  let groups := s.blockGroups r as_ blk
  let entry (e : Entry) : Entry := match e.eff with
    | .st loc .. => if inGroups groups loc then { e with lost := true } else e
    | _ => e
  let half (h : Half) : Half := { h with entries := h.entries.map entry }
  { s with regions := s.regions.map fun (e : Nat × Region) =>
      (e.1, { e.2 with round := { e.2.round with h0 := half e.2.round.h0, h1 := half e.2.round.h1 } }) }

def State.rcnt (s : State) (r : Range) : Nat := leNat (s.physBytes (r.desc + 0x30) 4)
def State.setRcnt (s : State) (r : Range) (v : Nat) : State := s.physPut (r.desc + 0x30) (natLe 4 v)
def State.hand (s : State) (r : Range) : Nat := leNat (s.physBytes (r.desc + 0x34) 4)

/-- The state or the reference bit of a block stands in a sector marked in error (R337). -/
def State.mapMarked (s : State) (r : Range) (b : Nat) : Bool :=
  [r.fmap + b / 4, r.refPa b].any fun pa => ((locOf false pa).bind s.markOf).isSome

/-- The clock (R364), which passes over blocks whose states it cannot change (log 87); two turns of the hand reach every block that it can evict. -/
def State.clock (r : Range) (as_ : Nat) : Nat → State → State
  | 0, s => s
  | n + 1, s =>
    if s.rcnt r ≤ r.budget then s
    else
      let b := s.hand r
      let s := s.physPut (r.desc + 0x34) (natLe 4 ((b + 1) % r.nb))
      let s := if s.blockState r b = 2 ∧ s.mapMarked r b = false then
          if s.blockRef r b then s.setRef r b false
          else
            let s := ((s.setBlock r b 3).setRcnt r (s.rcnt r - 1)).count (fdEvict r.die)
            { s with dies := { s.dies with evicts := s.dies.evicts ++ [{ id := s.uid, die := r.die, as_, rng := r.idx, blk := b }] },
                     uid := s.uid + 1 }
        else s
      State.clock r as_ n s

/-- A fill ends with data (R353, R359, R364, R367): the block is FULL, and its waiters replay in list order. -/
def State.fillDone (s : State) (f : Fill) : State :=
  let r := s.rangeNo f.die f.as_ f.rng
  let s := ((s.setBlock r f.blk 2).setRef r f.blk true).setRcnt r (s.rcnt r + 1)
  let s := { s with dies := { s.dies with fills := s.dies.fills.filter fun x => fillKey x ≠ fillKey f },
                    agenda := (f.waiters ++ f.extra).map .replay ++ s.agenda }
  if r.evt ∧ r.budget ≠ 0 then State.clock r f.as_ (2 * r.nb + 1) s else s

-- The end of a region or gang (R194, R391).

/-- The halves that are draining keep their entries; the others are discarded (R194). -/
def Round.killed (r : Round) : Round :=
  { r with isOpen := false, early := false, held := false, shadow := none,
           h0 := if r.drain.contains 0 then r.h0 else {}, h1 := if r.drain.contains 1 then r.h1 else {} }

/-- Whether a kill leaves a request standing (R179, R194, R325): it has been performed or sent, or it is a direct context's store, read,
read-modify-write or command that its firing has issued and that waits its turn, for its wide release, for a link or before its queue. What
is parked without an effect leaves its queue or table, since nothing would take its reply (log 82). -/
def Req.stands (q : Req) : Bool :=
  match q.stage with
  | .reply _ | .bad _ _ | .ack | .sent => true
  | .store .. | .tcpy .. => !q.org.rounded
  | .held a => !q.org.rounded && (match a.op with
    | .waita _ => false
    | _ => true)
  | .wide _ (.fence _) => false
  | .wide .. => !q.org.rounded
  | .parked p | .queueClear p => !q.org.rounded && (match p with
    | .qput .. | .qtick .. | .qcan .. => true
    | _ => false)
  | _ => false

/-- Whether any instance of a gang still runs, or is to be restored. -/
def Gang.alive (g : Gang) : Bool := g.insts.any fun i => i.st = .loading || i.st = .loaded || i.st = .running || i.st = .saved

/-- Ends a region at once (R194, R259, R272, R306, R358, R362). -/
def State.killRegion (s : State) (r : Nat) : State :=
  match s.region r with
  | none => s
  | some g =>
    if g.dead then s
    else
      let mine (c : CtxId) : Bool := c.region = r
      let s := s.unwait (s.waiterIn r g)
      let fab := { s.fab with
        elems := s.fab.elems.map fun e => (e.1, e.2.thaw fun _ o => o = r),
        wbs := s.fab.wbs.filter fun w => !mine w.ctx,
        flits := s.fab.flits.filter fun f => f.filled || !mine f.ctx,
        lanes := s.fab.lanes.filter fun l => !mine l.lead,
        reqs := s.fab.reqs.filter fun q => q.stands || !g.issued r q.org }
      let s := { s with fab }
      let cmds := (g.queues.map fun e => e.2).flatten ++ g.nodes.map fun e => e.2.pkt
      let sent := ((s.cores.loads.filter fun l => g.owns r l.pkt).map fun l => l.pkt) ++
        ((s.cores.sweeps.filter fun w => g.owns r w.pkt).map fun w => w.pkt)
      let colls := (s.dies.colls.filter fun c => g.owns r c.pkt && !c.failed).map fun c => c.pkt
      let s := (cmds ++ sent ++ colls).foldl (fun s p => s.abortSignal p.org p.cmd) s
      let left := s.dies.colls.map fun c =>
        if g.owns r c.pkt then (if c.begun then { c with dead := true } else { c with failed := true }) else c
      let s := { s with dies := { s.dies with colls := left } }
      let s := { s with cores := { s.cores with
        loads := s.cores.loads.filter fun l => !g.owns r l.pkt,
        sweeps := s.cores.sweeps.filter fun w => !g.owns r w.pkt,
        jobs := mapIf (fun j => g.owns r j.pkt) (fun j => { j with st := .aborting }) s.cores.jobs } }
      let s := s.updRegion r fun g => { g with
        dead := true, brake := none, rechoose := none, round := g.round.killed, nodes := [], queues := [], ckpt := [],
        gens := g.gens.map fun e => (e.1, { e.2 with running := false, faulted := false, fetch := .idle, old := false, eng := none }),
        ctxs := g.ctxs.map fun c => { c with trapped := false, traps := [] } }
      let s := s.updRreg r fun q => { q with state := 6 }
      let s := s.voidReservations g.gang g.inst
      let s := s.updGang g.gang fun x =>
        { x with insts := mapIf (fun i => i.inst = g.inst) (fun i => { i with st := .killed }) x.insts }
      -- A generator gang is killed with its last instance; until then its fill goes on (R300, R362).
      if ((s.gang g.gang).map Gang.alive).getD false then s
      else
        let s := s.updGang g.gang fun x => { x with st := .ended }
        match s.fillOfGang g.gang with
        | some f => s.cancelFill (fillKey f) 0xF2 8 0#32
        | none => s

/-- A gang's own signal is aborted (R302, R430). -/
def State.abortLaunch (s : State) (g : Gang) : State :=
  match g.from_ with
  | some p => s.abortSignal p.org p.cmd
  | none => s

/-- The name by which the edges of a core's jobs know a job: its slot, and its core where that is another (R266, R274). -/
def edgeName (core home slot : Nat) : Nat := if home = core then slot else 1000 * (home + 1) + slot
def edgeHome (core name : Nat) : Nat × Nat := if name < 1000 then (core, name) else (name / 1000 - 1, name % 1000)
/-- Whether an edge into a job of a core comes from a job. -/
def Job.isFrom (j : Job) (core : Nat) (e : Nat × Nat × Bool) : Bool := e.1 = edgeName core j.core j.slot && e.2.1 = j.serial
/-- A job without its edges from another, which ends; where that was aborted, a read-after-write edge aborts it. -/
def Job.without (x j : Job) (aborted : Bool) : Job :=
  { x with st := if aborted && x.edges.any (fun e => j.isFrom x.core e && e.2.2) then .aborting else x.st,
           edges := x.edges.filter fun e => !j.isFrom x.core e }
/-- Changes every job that is in flight, or saved. -/
def State.mapJobs (s : State) (f : Job → Job) : State :=
  let saved (v : Saved) : Saved := { v with jobs := v.jobs.map f }
  { s with cores := { s.cores with jobs := s.cores.jobs.map f },
           dies := { s.dies with gangs := s.dies.gangs.map fun (e : Nat × Gang) => (e.1, { e.2 with saved := e.2.saved.map saved }) } }
/-- Edges from a job are resolved; where it was aborted, its read-after-write edges abort their jobs (R266). -/
def State.resolveEdges (s : State) (j : Job) (aborted : Bool) : State := s.mapJobs fun x => x.without j aborted

/-- The collective slot that a CLLCT names: its ninth word (R454). -/
def Packet.slotNo (p : Packet) : Nat := (wordAt p.cmd 8).toNat
/-- A CLLCT that is aborted before it begins stays in its slot's list, so that the k-th command there stays that of the k-th collective (R451,
R457). -/
def State.failColl (s : State) (die : Nat) (p : Packet) : State :=
  { s.bump with dies := { s.dies with colls := s.dies.colls ++ [{ id := s.uid, die, slot := p.slotNo, pkt := p, failed := true }] } }

/-- Kills every running and saved instance of a gang, or removes one that has not been placed (R391, R430). -/
def State.killGang (s : State) (n : Nat) : State :=
  match s.gang n with
  | none => s
  | some g =>
    if g.st = .ended then s
    else
      let rs := (s.regions.filter fun e => e.2.gang = n).map fun e => e.1
      let s := rs.foldl State.killRegion s
      let s := g.saved.foldl (fun s v =>
        let cmds := v.jobs.map (fun j => j.pkt) ++ v.colls ++ (v.region.queues.map fun e => e.2).flatten ++ (v.region.nodes.map fun e => e.2.pkt)
        let s := v.jobs.foldl (fun s j => s.resolveEdges j true) s
        let s := v.colls.foldl (fun s p => s.failColl (dieOf p.org.ctx.region) p) s
        (cmds.foldl (fun s p => s.abortSignal p.org p.cmd) s).voidReservations n v.inst) s
      let s := (s.unwait (Waiter.gang n 0).same).updGang n fun x => { x with
        st := .ended, saved := [], predLoc := none,
        insts := mapIf (fun i => i.st = .saved) (fun i => { i with st := .killed }) x.insts }
      let s := s.abortLaunch g
      match s.fillOfGang n with
      | some f => s.cancelFill (fillKey f) 0xF2 8 0#32
      | none => s

/-- INFO of uncorrectable data that a waiter meets in a fill map: its unit's, with the memory code (R198, R271, R283, R337). -/
def State.waiterBad (s : State) (w : Waiter) (code : Nat) : List Byte :=
  let b := s.waiterInfo w
  b.take 1 ++ [BitVec.ofNat 8 code] ++ match w with
    | .elem .. | .req .. | .gang .. => []
    | .job .. | .coll .. => [0#8, 0#8] ++ b.drop 4
    | .gen _ _ _ idx => b.drop 2 ++ [0#8, 0#8, if idx then 1#8 else 0#8]

/-- A request that has waited for a slot, or for a block to become EMPTY, starts or joins the fill of the block, or raises a fault of its
own and waits on no other block (R337, R354, R360, R361, R415). -/
def State.rejoin (s : State) (r : Range) (as_ blk : Nat) (w : Waiter) : State :=
  match s.blockDeny r.die r blk with
  | some (.bad code) => (s.unwait w.same).chargeWaiter w 0x0B (s.waiterBad w code) 0 0#32
  | _ => match s.joinFault r as_ blk (s.waiterGang w) with
    | some f => (s.unwait w.same).ownFillFault r blk w f
    | none => s.joinFill r as_ blk w

/-- An eviction ends (R362, R363, R365): the block is EMPTY; a cancelled slot charges its waiters, lets held requests re-issue,
and kills its gang but after causes 0xF0 and 0xF1; requests that waited for EMPTY start or join the next fill. What a held store would still
write to the block is lost. -/
def State.evictDone (s : State) (e : Evict) : State :=
  let r := s.rangeNo e.die e.as_ e.rng
  let s := ((s.flushBlock r e.as_ e.blk).loseHeld r e.as_ e.blk).setBlock r e.blk 0
  let s := { s with dies := { s.dies with evicts := s.dies.evicts.filter fun x => x.id ≠ e.id } }
  let s := match e.slot.bind fun n => s.dies.fills.find? fun f => f.die = e.die && f.slot = n && f.cancelled with
    | none => s
    | some f =>
      let s := { s with dies := { s.dies with fills := s.dies.fills.filter fun x => fillKey x ≠ fillKey f } }
      let s := f.waiters.foldl (fun s w =>
        let s := s.unwait w.same
        s.chargeWaiter w f.cls (s.fillInfo w f.rng f.depth f.cause f.blk) 8 (if f.cause = 0xF0 then f.code else 0#32)) s
      let s := { s with agenda := f.extra.map .replay ++ s.agenda }
      if f.cause = 0xF0 ∨ f.cause = 0xF1 then s else s.killGang f.gang
  e.waiters.foldl (fun s w => s.rejoin r e.as_ e.blk w) s

end Sys2Proof.Machine
end

