-- ==== Sys2Proof/Machine/Bits.lean ====
section
/-!
DEFINITION. Integer lanes and the integer results of R118 to R133, as functions of the operands.
-/

namespace Sys2Proof.Machine

/-- The bits of lane `i` of a word (R3, R57). -/
def laneNat (t : Ty) (x : Word) (i : Nat) : Nat := x.toNat / 2 ^ (t.width * i) % 2 ^ t.width

/-- Lane `i` read as an integer: signed for i32, i16x2 and i8x4. -/
def lane (t : Ty) (x : Word) (i : Nat) : Int :=
  let v := laneNat t x i
  if t.isSigned && decide (2 ^ (t.width - 1) ≤ v) then (v : Int) - 2 ^ t.width else (v : Int)

/-- The range of a lane (R91). -/
def laneMin (t : Ty) : Int := if t.isSigned then -(2 ^ (t.width - 1) : Int) else 0
def laneMax (t : Ty) : Int := if t.isSigned then 2 ^ (t.width - 1) - 1 else 2 ^ t.width - 1

/-- The exact result clamped to the lane's range (R91). -/
def clampTo (lo hi v : Int) : Int := if v < lo then lo else if hi < v then hi else v

/-- `fit` of R117: wraps, or clamps for .sat. -/
def fit (t : Ty) (sat : Bool) (v : Int) : Int := if sat then clampTo (laneMin t) (laneMax t) v else v

/-- A word from the low bits of the lane results (put of R117). -/
def packLanes (t : Ty) (f : Nat → Int) : Word :=
  BitVec.ofNat 32 (((List.range t.lanes).map fun i => (f i % 2 ^ t.width).toNat * 2 ^ (t.width * i)).sum)

/-- The lane-wise results of R121. -/
def iaddFn (sat : Bool) (t : Ty) (a b : Word) : Word := packLanes t fun i => fit t sat (lane t a i + lane t b i)
def isubFn (sat : Bool) (t : Ty) (a b : Word) : Word := packLanes t fun i => fit t sat (lane t a i - lane t b i)
def iminFn (t : Ty) (a b : Word) : Word := packLanes t fun i => min (lane t a i) (lane t b i)
def imaxFn (t : Ty) (a b : Word) : Word := packLanes t fun i => max (lane t a i) (lane t b i)
def iabsFn (sat : Bool) (t : Ty) (a : Word) : Word := packLanes t fun i => fit t sat (lane t a i).natAbs
def imulFn (hi : Bool) (t : Ty) (a b : Word) : Word :=
  packLanes t fun i => if hi then (lane t a i * lane t b i) / 2 ^ 32 else lane t a i * lane t b i
def imadFn (sat : Bool) (t : Ty) (a b c : Word) : Word :=
  packLanes t fun i => fit t sat (lane t a i * lane t b i + lane t c i)

/-- The 32-bit type of a dot product's accumulator (R122). -/
def accTy (t : Ty) : Ty := if t.isSigned then .i32 else .u32

/-- IDOT (R122). -/
def idotFn (sat : Bool) (t : Ty) (a b c : Word) : Word :=
  let v := lane (accTy t) c 0 + ((List.range t.lanes).map fun i => lane t a i * lane t b i).sum
  packLanes (accTy t) fun _ => fit (accTy t) sat v

/-- The exact sum of IADDX (R123). -/
def iaddxSum (t : Ty) (cin : Bool) (a b : Word) : Int := lane t a 0 + lane t b 0 + (if cin then 1 else 0)
/-- Carry out for u32, signed overflow for i32 (R123). -/
def iaddxOut (t : Ty) (cin : Bool) (a b : Word) : Bool :=
  decide (iaddxSum t cin a b < laneMin t) || decide (laneMax t < iaddxSum t cin a b)

/-- IDIV (R124). -/
def idivFn (rem : Bool) (t : Ty) (a b : Word) : Word :=
  let x := lane t a 0
  let y := lane t b 0
  if y = 0 then (if rem then a else 0xFFFFFFFF#32)
  else if rem then BitVec.ofInt 32 (x.tmod y) else BitVec.ofInt 32 (x.tdiv y)

/-- The shifts of R125; the count is the whole word. -/
def shlFn (a b : Word) : Word := if b.toNat < 32 then a <<< b.toNat else 0#32
def shrFn (a b : Word) : Word := if b.toNat < 32 then a >>> b.toNat else 0#32
def sarFn (a b : Word) : Word := if b.toNat < 32 then a.sshiftRight b.toNat else a.sshiftRight 31
def rotFn (a b : Word) : Word := a.rotateLeft (b.toNat % 32)

/-- The number of leading zero bits, from bit `n - 1` down. -/
def leadingZeros (a : Word) : Nat → Nat
  | 0 => 0
  | n + 1 => if a.getLsbD n then 0 else 1 + leadingZeros a n
def clzFn (a : Word) : Word := BitVec.ofNat 32 (leadingZeros a 32)
def popcFn (a : Word) : Word := BitVec.ofNat 32 ((List.range 32).filter a.getLsbD).length
def brevFn (a : Word) : Word := a.reverse

/-- The lowest bit and width of a bit-field immediate (R126). -/
def bfLo (imm : BitVec 16) : Nat := imm.toNat % 32
def bfWidth (imm : BitVec 16) : Nat := imm.toNat / 32 % 64
/-- BFX and BFI (R126). -/
def bfxFn (signed : Bool) (imm : BitVec 16) (a : Word) : Word :=
  let w := bfWidth imm
  let f := a.toNat / 2 ^ bfLo imm % 2 ^ w
  if signed && decide (2 ^ (w - 1) ≤ f) then BitVec.ofInt 32 ((f : Int) - 2 ^ w) else BitVec.ofNat 32 f
def bfiFn (imm : BitVec 16) (a b : Word) : Word :=
  let m := BitVec.ofNat 32 ((2 ^ bfWidth imm - 1) * 2 ^ bfLo imm)
  (b &&& ~~~m) ||| ((a <<< bfLo imm) &&& m)

/-- PACK and UNPK (R132). -/
def packFn (f : PackFn) (a b : Word) : Word :=
  match f with
  | .lo => b.setWidth 16 ++ a.setWidth 16
  | .hi => b.extractLsb' 16 16 ++ a.extractLsb' 16 16
  | .sat t => packLanes t fun i => clampTo (laneMin t) (laneMax t) (if i = 0 then a.toInt else b.toInt)
def unpkFn (t : Ty) (imm : BitVec 16) (a : Word) : Word := BitVec.ofInt 32 (lane t a (imm.toNat % 4))

/-- Byte `n` of a word. -/
def byteOf (x : Word) (n : Nat) : BitVec 8 := x.extractLsb' (8 * n) 8
/-- One byte of PERM (R133). -/
def permByte (sel : Nat) (a b : Word) : BitVec 8 :=
  if sel < 4 then byteOf a sel
  else if sel < 8 then byteOf b (sel - 4)
  else if sel = 8 then 0x00#8
  else if sel = 9 then 0xFF#8
  else if 12 ≤ sel then (if (byteOf a (sel - 12)).getLsbD 7 then 0xFF#8 else 0x00#8)
  else 0x00#8
def permFn (imm : BitVec 16) (a b : Word) : Word :=
  let s (i : Nat) := permByte (imm.toNat / 2 ^ (4 * i) % 16) a b
  s 3 ++ s 2 ++ s 1 ++ s 0

/-- SEQ (R131): the step of a counter modulo IMM16, or 2^32 where that is zero, and whether it wraps. -/
def seqMod (imm : BitVec 16) : Nat := if imm.toNat = 0 then 2 ^ 32 else imm.toNat
def seqFn (down : Bool) (imm : BitVec 16) (a : Word) : Word :=
  let m := seqMod imm
  let v := a.toNat % m
  BitVec.ofNat 32 (if down then (v + m - 1) % m else (v + 1) % m)
def seqWraps (down : Bool) (imm : BitVec 16) (a : Word) : Bool :=
  let m := seqMod imm
  let v := a.toNat % m
  if down then v = 0 else v = m - 1

end Sys2Proof.Machine
end

