-- ==== Sys2Proof/Machine/Flags.lean ====
section
/-!
DEFINITION. The predicates: the results that instructions write to them (R37, R127) and the tests that guards make of them
(R16, R27, R59).
-/

namespace Sys2Proof.Machine

/-- The predicate result of R37: the result is not zero. -/
def presOf (res : Word) : Bool := res != 0#32

/-- A result with the predicate rule of R37, emitted on the routes of a mask with the colour of R37. -/
def View.data (v : View) (res : Word) : Done :=
  { res, pres := presOf res, om := v.rule.om, colour := v.colour }

/-- A result with a predicate result of its own. -/
def View.data2 (v : View) (res : Word) (pres : Bool) : Done :=
  { res, pres, om := v.rule.om, colour := v.colour }

/-- One predicate term of a guard (R27): not pending, and the value that PV requires. -/
def predTerm (p : Pred) (want : Bool) : Bool :=
  match p with
  | .pending => false
  | .t => want
  | .f => !want

/-- The predicate terms of a guard (R27). -/
def predsHold (g : Guard) (c : Ctx) : Bool :=
  (List.range 8).all fun n => !g.pm.getLsbD n || predTerm (c.preds.getD n .f) (g.pv.getLsbD n)

/-- No predicate that the guard tests is pending. -/
def predsSettled (g : Guard) (c : Ctx) : Bool :=
  (List.range 8).all fun n => !g.pm.getLsbD n || c.preds.getD n .f != .pending

/-- The functions of PSET on two predicates (R127). -/
def psetFn (f : PFn) (a b : Bool) : Bool :=
  match f with
  | .and => a && b
  | .or => a || b
  | .xor => a != b
  | .andn => a && !b
  | .mov => a
  | .not => !a
  | .true => true
  | .false => false

/-- The condition of ICMP on the exact values of its operands (R127). -/
def icondHolds (cc : ICond) (x y : Int) : Bool :=
  match cc with
  | .eq => decide (x = y)
  | .ne => decide (x ≠ y)
  | .lt => decide (x < y)
  | .le => decide (x ≤ y)
  | .gt => decide (y < x)
  | .ge => decide (y ≤ x)

end Sys2Proof.Machine
end

