-- ==== Sys2Proof/Machine/Float.lean ====
section
/-!
DEFINITION. The floating-point formats and their values (R92 to R95), the one rounding step RoundTo (R97 to R102), exact sums
and products (R100, R108), conversions (R114), MX scales (R104, R105) and XS256 (R111 to R113), all as functions of the operands.
-/

namespace Sys2Proof.Machine

/-- A binary format: width, fraction bits, bias, the code of its largest finite value, its infinity, its canonical NaN (R92, R95). -/
structure Fmt where
  bits : Nat
  m : Nat
  bias : Nat
  maxMag : Nat
  inf : Option Nat
  nan : Nat
  deriving DecidableEq, Repr, Inhabited

def fp32 : Fmt := { bits := 32, m := 23, bias := 127, maxMag := 0x7F7FFFFF, inf := some 0x7F800000, nan := 0x7FC00000 }
def bf16 : Fmt := { bits := 16, m := 7, bias := 127, maxMag := 0x7F7F, inf := some 0x7F80, nan := 0x7FC0 }
def fp16 : Fmt := { bits := 16, m := 10, bias := 15, maxMag := 0x7BFF, inf := some 0x7C00, nan := 0x7E00 }
def e5m2 : Fmt := { bits := 8, m := 2, bias := 15, maxMag := 0x7B, inf := some 0x7C, nan := 0x7E }
def e4m3 : Fmt := { bits := 8, m := 3, bias := 7, maxMag := 0x7E, inf := none, nan := 0x7F }
/-- E2M1 has neither infinity nor NaN; a NaN converts to +0 (R99). -/
def e2m1 : Fmt := { bits := 4, m := 1, bias := 1, maxMag := 0x7, inf := none, nan := 0 }

/-- The format of a floating-point lane type (R57). -/
def fmtOf : Ty → Fmt
  | .f32 => fp32
  | .bf16x2 => bf16
  | .f16x2 => fp16
  | .e4m3x4 => e4m3
  | .e5m2x4 => e5m2
  | .e2m1x8 => e2m1
  | _ => fp32

/-- A value: NaN, an infinity, or (−1)^neg × mag × 2^exp, a zero keeping its sign. -/
inductive Fv where
  | nan
  | inf (neg : Bool)
  | fin (neg : Bool) (mag : Nat) (exp : Int)
  deriving DecidableEq, Repr, Inhabited

/-- Bit `bits − 1` of a code. -/
def Fmt.sign (f : Fmt) (c : Nat) : Bool := c / 2 ^ (f.bits - 1) % 2 = 1
/-- The code without its sign. -/
def Fmt.mag (f : Fmt) (c : Nat) : Nat := c % 2 ^ (f.bits - 1)
def Fmt.isNan (f : Fmt) (c : Nat) : Bool :=
  match f.inf with
  | some i => decide (i < f.mag c)
  | none => decide (f.maxMag < f.mag c)

/-- The value of a code (R92). -/
def Fmt.val (f : Fmt) (c : Nat) : Fv :=
  let g := f.mag c
  if f.isNan c then .nan
  else if some g = f.inf then .inf (f.sign c)
  else
    let e := g / 2 ^ f.m
    let fr := g % 2 ^ f.m
    if e = 0 then .fin (f.sign c) fr (1 - f.bias - f.m : Int)
    else .fin (f.sign c) (2 ^ f.m + fr) ((e : Int) - f.bias - f.m)

/-- The value of an E8M0 code (R93). -/
def e8m0Val (c : Nat) : Fv := if c = 0xFF then .nan else .fin false 1 ((c : Int) - 127)

/-- The value of an integer. -/
def Fv.ofInt (v : Int) : Fv := .fin (decide (v < 0)) v.natAbs 0

def Fv.isNan : Fv → Bool
  | .nan => true
  | _ => false
def Fv.neg : Fv → Fv
  | .nan => .nan
  | .inf s => .inf !s
  | .fin s m e => .fin (!s) m e
def Fv.isZero : Fv → Bool
  | .fin _ 0 _ => true
  | _ => false

/-- A positive rational number × 2^e as a fraction. -/
def fracOf (m : Nat) (e : Int) : Nat × Nat := if 0 ≤ e then (m * 2 ^ e.toNat, 1) else (m, 2 ^ (-e).toNat)

/-- floor(log2(n / d)) for n, d > 0. -/
def floorLog2 (n d : Nat) : Int :=
  let k : Int := (n.log2 : Int) - d.log2
  let ge := if 0 ≤ k then d * 2 ^ k.toNat ≤ n else d ≤ n * 2 ^ (-k).toNat
  if ge then k else k - 1

/-- Whether a magnitude between a and b, at fraction `rn / rd` of the way, goes to b (R98, R101). `even` says that a tie goes to
a; `q` is the stochastic value of R102. A fraction of 1 or more means that the value lies at or beyond b. -/
def goesUp (mode : RMode) (neg : Bool) (q : Nat) (even : Bool) (rn rd : Nat) : Bool :=
  if rn = 0 then false
  else match mode with
    | .rn => decide (rd < 2 * rn) || (decide (2 * rn = rd) && !even)
    | .rz => false
    | .rd => neg
    | .ru => !neg
    | .sr => decide (q < rn * 2 ^ 32 / rd)

/-- The magnitude code that RoundTo chooses for n / d > 0; `maxMag + 1` means that the result overflows (R98). -/
def Fmt.roundMag (f : Fmt) (mode : RMode) (neg : Bool) (q : Nat) (n d : Nat) : Nat :=
  let qmin : Int := 1 - f.bias - f.m
  let e := max (floorLog2 n d - f.m) qmin
  let (n', d') := if 0 ≤ e then (n, d * 2 ^ e.toNat) else (n * 2 ^ (-e).toNat, d)
  let k := n' / d'
  let code := (e - qmin).toNat * 2 ^ f.m + k
  if f.maxMag < code then
    -- at or beyond M + ulp: a is M
    if goesUp mode neg q false 1 1 then f.maxMag + 1 else f.maxMag
  else
    let r := n' - k * d'
    if goesUp mode neg q (code % 2 = 0 && code != f.maxMag) r d' then code + 1 else code

/-- A sign bit over a magnitude code. -/
def Fmt.signed (f : Fmt) (neg : Bool) (g : Nat) : Nat := if neg then 2 ^ (f.bits - 1) + g else g

/-- What an overflowed or infinite result delivers (R99). -/
def Fmt.overflow (f : Fmt) (sat neg : Bool) : Nat :=
  match f.inf with
  | some i => f.signed neg (if sat then f.maxMag else i)
  | none => if sat || f.nan = 0 then f.signed neg f.maxMag else f.nan

/-- RoundTo of a positive or negative fraction (R97 to R99). -/
def Fmt.roundFrac (f : Fmt) (mode : RMode) (sat : Bool) (q : Nat) (neg : Bool) (n d : Nat) : Nat :=
  if n = 0 then f.signed neg 0
  else
    let g := f.roundMag mode neg q n d
    if f.maxMag < g then f.overflow sat neg else f.signed neg g

/-- RoundTo of a value (R97 to R100). -/
def Fmt.round (f : Fmt) (mode : RMode) (sat : Bool) (q : Nat) (v : Fv) : Nat :=
  match v with
  | .nan => f.nan
  | .inf s => f.overflow sat s
  | .fin s m e =>
    let (n, d) := fracOf m e
    f.roundFrac mode sat q s n d

/-- RoundTo E8M0 (R98, R99). -/
def roundE8m0 (mode : RMode) (sat : Bool) (q : Nat) (v : Fv) : Nat :=
  match v with
  | .nan => 0xFF
  | .inf s => if s then 0xFF else if sat then 0xFE else 0xFF
  | .fin s m e =>
    if s || m = 0 then 0xFF
    else
      let (n, d) := fracOf m e
      let k := floorLog2 n d
      if k < -127 then 0x00
      else
        let ov := if sat then 0xFE else 0xFF
        if 127 < k then (if goesUp mode false q false 1 1 then ov else 0xFE)
        else
          let code := (k + 127).toNat
          let (n', d') := if 0 ≤ k then (n, d * 2 ^ k.toNat) else (n * 2 ^ (-k).toNat, d)
          if goesUp mode false q (code % 2 = 0 && code != 0xFE) (n' - d') d' then
            (if code = 0xFE then ov else code + 1)
          else code

/-- The value rounded to an integer under a mode (R114, R150). -/
def roundInt (mode : RMode) (q : Nat) (neg : Bool) (n d : Nat) : Int :=
  let k := n / d
  let k := if goesUp mode neg q (k % 2 = 0) (n - k * d) d then k + 1 else k
  if neg then -(k : Int) else k

/-- Conversion to an integer lane (R114, R99). -/
def toIntLane (t : Ty) (mode : RMode) (q : Nat) (v : Fv) : Int :=
  match v with
  | .nan => 0
  | .inf s => if s then laneMin t else laneMax t
  | .fin s m e =>
    let (n, d) := fracOf m e
    clampTo (laneMin t) (laneMax t) (roundInt mode q s n d)

-- Exact products and sums (R100, R108).

def Fv.mul (a b : Fv) : Fv :=
  match a, b with
  | .nan, _ | _, .nan => .nan
  | .inf s, .inf u => .inf (s != u)
  | .inf s, .fin u m _ => if m = 0 then .nan else .inf (s != u)
  | .fin u m _, .inf s => if m = 0 then .nan else .inf (s != u)
  | .fin s m e, .fin u n f => .fin (s != u) (m * n) (e + f)

/-- The least exponent among finite terms. -/
def minExp : List Fv → Int → Int
  | [], z => z
  | .fin _ m e :: r, z => minExp r (if m ≠ 0 ∧ e < z then e else z)
  | _ :: r, z => minExp r z

/-- The sum of finite terms over 2^z. -/
def sumFin (z : Int) : List Fv → Int
  | [] => 0
  | .fin s m e :: r => (if s then -((m * 2 ^ (e - z).toNat : Nat) : Int) else ((m * 2 ^ (e - z).toNat : Nat) : Int)) + sumFin z r
  | _ :: r => sumFin z r

/-- The exact sum of terms, with the sign that R100 gives a zero; `rd` says that the mode is .rd. -/
def Fv.sum (rd : Bool) (ts : List Fv) : Fv :=
  if ts.any Fv.isNan then .nan
  else
    let pos := ts.any fun t => t = .inf false
    let neg := ts.any fun t => t = .inf true
    if pos && neg then .nan
    else if pos then .inf false
    else if neg then .inf true
    else
      let z := minExp ts 400
      let v := sumFin z ts
      if v = 0 then
        let allNeg := ts.all fun t => match t with
          | .fin s m _ => s && m = 0
          | _ => false
        let allPos := ts.all fun t => match t with
          | .fin s m _ => !s && m = 0
          | _ => false
        .fin (allNeg || (rd && !allPos)) 0 0
      else .fin (decide (v < 0)) v.natAbs z

-- Stochastic rounding (R102).

/-- The mixing step of R102. -/
def srQ (seed inst : Nat) (home homeK rcnt lane : Nat) : Nat :=
  let tx := home / 16 % 8
  let ty := home / 16 / 8 % 16
  let ey := home % 16 / 4
  let ex := home % 4
  let v := rcnt % 2 ^ 32 * 2 ^ 32 + inst % 2 ^ 15 * 2 ^ 17 + ty * 2 ^ 13 + tx * 2 ^ 10 + ey * 2 ^ 8 + ex * 2 ^ 6 +
    homeK % 8 * 2 ^ 3 + lane % 8
  let h := Nat.xor v (seed * 0x9E3779B97F4A7C15 % 2 ^ 64)
  let h := Nat.xor h (h / 2 ^ 30) * 0xBF58476D1CE4E5B9 % 2 ^ 64
  let h := Nat.xor h (h / 2 ^ 27) * 0x94D049BB133111EB % 2 ^ 64
  let h := Nat.xor h (h / 2 ^ 31)
  h / 2 ^ 32

-- Words of lanes.

/-- The value of lane `i` of a word of any type. -/
def laneVal (t : Ty) (x : Word) (i : Nat) : Fv :=
  match t with
  | .i32 | .u32 | .i16x2 | .u16x2 | .i8x4 | .u8x4 => Fv.ofInt (lane t x i)
  | .e8m0x4 => e8m0Val (laneNat t x i)
  | t => (fmtOf t).val (laneNat t x i)

/-- A word from lane codes. -/
def packCodes (t : Ty) (f : Nat → Nat) : Word :=
  BitVec.ofNat 32 (((List.range t.lanes).map fun i => f i % 2 ^ t.width * 2 ^ (t.width * i)).sum)

/-- The code that a value converts to in a lane type (R99, R114). -/
def convCode (t : Ty) (mode : RMode) (sat : Bool) (q : Nat) (v : Fv) : Nat :=
  match t with
  | .i32 | .u32 | .i16x2 | .u16x2 | .i8x4 | .u8x4 => (toIntLane t mode q v % 2 ^ t.width).toNat
  | .e8m0x4 => roundE8m0 mode sat q v
  | t => (fmtOf t).round mode sat q v

/-- The arithmetic of R144 on every lane: `terms` gives the exact terms of a lane, `q` the stochastic value of a lane. -/
def arithFn (m : Rnd) (t : Ty) (q : Nat → Nat) (terms : Nat → List Fv) : Word :=
  packCodes t fun i => (fmtOf t).round m.mode m.sat (q i) (match terms i with
    | [v] => v
    | ts => Fv.sum (m.mode == .rd) ts)

def faddFn (m : Rnd) (t : Ty) (q : Nat → Nat) (a b : Word) : Word := arithFn m t q fun i => [laneVal t a i, laneVal t b i]
def fsubFn (m : Rnd) (t : Ty) (q : Nat → Nat) (a b : Word) : Word := arithFn m t q fun i => [laneVal t a i, (laneVal t b i).neg]
def fmulFn (m : Rnd) (t : Ty) (q : Nat → Nat) (a b : Word) : Word := arithFn m t q fun i => [(laneVal t a i).mul (laneVal t b i)]
def ffmaFn (m : Rnd) (t : Ty) (q : Nat → Nat) (a b c : Word) : Word :=
  arithFn m t q fun i => [(laneVal t a i).mul (laneVal t b i), laneVal t c i]
/-- FDOT (R152). -/
def fdotFn (m : Rnd) (t : Ty) (q : Nat → Nat) (a b c : Word) : Word :=
  arithFn m .f32 q fun _ => laneVal .f32 c 0 :: (List.range t.lanes).map fun i => (laneVal t a i).mul (laneVal t b i)
/-- FLRP (R151); where t is 1, 1 − t is +0 under every mode. -/
def flrpFn (m : Rnd) (q : Nat → Nat) (a b c : Word) : Word :=
  arithFn m .f32 q fun _ =>
    let t := laneVal .f32 c 0
    let u := match t with
      | .nan => Fv.nan
      | .inf s => .inf (!s)
      | _ => Fv.sum false [.fin false 1 0, t.neg]
    [(laneVal .f32 a 0).mul u, (laneVal .f32 b 0).mul t]

/-- A key that orders the codes of a format by value, −0 below +0 (R145). -/
def Fmt.key (f : Fmt) (c : Nat) : Int := if f.sign c then -(f.mag c : Int) - 1 else f.mag c

/-- FMIN and FMAX on one lane (R145). -/
def fminmaxCode (f : Fmt) (nan max : Bool) (x y : Nat) : Nat :=
  match f.isNan x, f.isNan y with
  | true, true => f.nan
  | true, false => if nan then f.nan else y
  | false, true => if nan then f.nan else x
  | false, false =>
    if max then (if f.key x < f.key y then y else x) else (if f.key y < f.key x then y else x)
def fminmaxFn (nan max : Bool) (t : Ty) (a b : Word) : Word :=
  packCodes t fun i => fminmaxCode (fmtOf t) nan max (laneNat t a i) (laneNat t b i)

/-- FSGN (R146). -/
def fsgnFn (f : SgnFn) (t : Ty) (a b : Word) : Word :=
  packCodes t fun i =>
    let x := laneNat t a i
    let sx := (fmtOf t).sign x
    let sy := (fmtOf t).sign (laneNat t b i)
    (fmtOf t).signed (match f with
      | .copy => sy
      | .neg => !sx
      | .abs => false
      | .xsgn => sx != sy) ((fmtOf t).mag x)

/-- Whether x < y, for codes that are not NaN; −0 and +0 are equal (R147). -/
def Fmt.lt (f : Fmt) (x y : Nat) : Bool :=
  let v (c : Nat) : Int := if f.sign c then -(f.mag c : Int) else f.mag c
  decide (v x < v y)

/-- FCMP on one lane (R147). -/
def fcondHolds (f : Fmt) (cc : FCond) (x y : Nat) : Bool :=
  let un := f.isNan x || f.isNan y
  match cc with
  | .eq => !un && !f.lt x y && !f.lt y x
  | .ne => un || f.lt x y || f.lt y x
  | .lt => !un && f.lt x y
  | .le => !un && !f.lt y x
  | .gt => !un && f.lt y x
  | .ge => !un && !f.lt x y
  | .un => un
  | .ord => !un
def fcmpLane (cc : FCond) (t : Ty) (a b : Word) (i : Nat) : Bool := fcondHolds (fmtOf t) cc (laneNat t a i) (laneNat t b i)
def fcmpFn (cc : FCond) (t : Ty) (a b : Word) : Word :=
  packCodes t fun i => if fcmpLane cc t a b i then 2 ^ t.width - 1 else 0
def fcmpAll (cc : FCond) (t : Ty) (a b : Word) : Bool := (List.range t.lanes).all (fcmpLane cc t a b)

/-- The class bit of a code (R148). -/
def classBit (f : Fmt) (c : Nat) : Nat :=
  let g := f.mag c
  let s := f.sign c
  if f.isNan c then (if g / 2 ^ (f.m - 1) % 2 = 1 then 9 else 8)
  else if some g = f.inf then (if s then 0 else 7)
  else if g = 0 then (if s then 3 else 4)
  else if g / 2 ^ f.m = 0 then (if s then 2 else 5)
  else if s then 1 else 6
def fclsFn (t : Ty) (a : Word) : Word := packCodes t fun i => 2 ^ classBit (fmtOf t) (laneNat t a i)
def fclsAny (t : Ty) (a : Word) : Bool := (List.range t.lanes).any fun i => (fmtOf t).isNan (laneNat t a i)

/-- FSCL (R149). Beyond ±1,000 the exponent no longer changes what RoundTo delivers. -/
def fsclFn (m : Rnd) (t : Ty) (q : Nat → Nat) (a b : Word) : Word :=
  let n := clampTo (-1000) 1000 b.toInt
  arithFn m t q fun i => [match laneVal t a i with
    | .fin s g e => Fv.fin s g (e + n)
    | v => v]

/-- FRND (R150). -/
def frndFn (mode : RMode) (t : Ty) (q : Nat → Nat) (a : Word) : Word :=
  packCodes t fun i => match laneVal t a i with
    | .nan => (fmtOf t).nan
    | .inf _ => laneNat t a i
    | .fin s g e =>
      if 0 ≤ e ∨ g = 0 then laneNat t a i
      else
        let (n, d) := fracOf g e
        let k := (roundInt mode (q i) s n d).natAbs
        (fmtOf t).roundFrac .rn false 0 s k 1

/-- FCVT (R154); `q` gives the stochastic value of a destination lane. -/
def fcvtFn (src dst : Ty) (mode : RMode) (sat : Bool) (off : Nat) (q : Nat → Nat) (a b : Word) : Word :=
  let conv (i j : Nat) : Nat := convCode dst mode sat (q j) (laneVal src a i)
  if src.lanes < dst.lanes then
    packCodes dst fun j => if off ≤ j ∧ j < off + src.lanes then conv (j - off) j else laneNat dst b j
  else if dst.lanes < src.lanes then packCodes dst fun j => conv (off + j) j
  else packCodes dst fun j => conv j j

/-- The rounding mode of a code of IMM16[2:0] (R65). -/
def modeOf (n : Nat) : RMode :=
  match n with
  | 0 => .rn
  | 1 => .rz
  | 2 => .rd
  | 3 => .ru
  | _ => .sr

/-- The exponent of a format's largest finite value (R105). -/
def emaxOf : Ty → Int
  | .e4m3x4 => 8
  | .e5m2x4 => 15
  | _ => 2
/-- FXQ.scale (R105, R156). -/
def fxqScaleFn (t : Ty) (a : Word) : Word :=
  match laneVal .f32 a 0 with
  | .fin _ g e =>
    if g = 0 then 0x7F#32
    else BitVec.ofInt 32 (clampTo (-127) 127 ((g.log2 : Int) + e - emaxOf t) + 127)
  | _ => 0xFF#32
/-- FXQ.q (R157). -/
def fxqQFn (t : Ty) (x sc m : Word) : Word :=
  let n := sc.toNat % 256
  let e := if n = 0xFF then (match t with
      | .e4m3x4 => 0x7F
      | .e5m2x4 => 0x7E
      | _ => 0)
    else (fmtOf t).round .rn true 0 (match laneVal .f32 x 0 with
      | .fin s g e => Fv.fin s g (e - ((n : Int) - 127))
      | v => v)
  BitVec.ofNat 32 (m.toNat / 2 ^ t.width + e * 2 ^ (32 - t.width))

-- XS256 (R111 to R113).

/-- Whether an addend is outside the limits of R112: NaN, infinite, or of magnitude 2^126 or more. -/
def xsOutside (w : Word) : Bool :=
  match fp32.val w.toNat with
  | .fin _ m e =>
    let (n, d) := fracOf m e
    decide (d * 2 ^ 126 ≤ n)
  | _ => true
/-- The multiple of 2^−128 that an addend is truncated to (R112). -/
def xsOf (w : Word) : Int :=
  match fp32.val w.toNat with
  | .fin s m e =>
    let (n, d) := fracOf m (e + 128)
    let k : Int := (n / d : Nat)
    if s then -k else k
  | _ => 0
/-- Addition modulo 2^256 (R112). -/
def xsAdd (n : Nat) (w : Word) : Nat := (((n : Int) + xsOf w) % 2 ^ 256).toNat
/-- RoundTo(f32, N × 2^−128, .rn) (R113). -/
def xsRead (n : Nat) : Word :=
  let v := signedOfXs n
  BitVec.ofNat 32 (if v = 0 then 0 else fp32.roundFrac .rn false 0 (decide (v < 0)) v.natAbs (2 ^ 128))
where
  /-- N as a two's-complement integer (R111). -/
  signedOfXs (n : Nat) : Int := if n % 2 ^ 256 < 2 ^ 255 then ((n % 2 ^ 256 : Nat) : Int) else ((n % 2 ^ 256 : Nat) : Int) - 2 ^ 256

/-- TRED on f32 (R134): the exact sum rounded once, or the least or greatest operand that is no NaN. -/
def tredF32Sum (xs : List Word) : Word :=
  BitVec.ofNat 32 (fp32.round .rn false 0 (Fv.sum false (xs.map fun w => laneVal .f32 w 0)))
def tredF32Pick (max : Bool) (xs : List Word) : Word :=
  match xs.filter fun w => !fp32.isNan w.toNat with
  | [] => BitVec.ofNat 32 fp32.nan
  | x :: r => BitVec.ofNat 32 (r.foldl (fun m w => fminmaxCode fp32 false max m w.toNat) x.toNat)

end Sys2Proof.Machine
end

