-- ==== Sys2Proof/Machine/Lanes.lean ====
section
/-!
DEFINITION. The exchange of values among the members of a tandem chain (R134, R135): each member's firing of a SHUF or TRED
slot joins an exchange, and the firing of the last member gives every contributor its result, written back a cycle later.
-/

namespace Sys2Proof.Machine

/-- TRED over the values of the contributors (R134). -/
def tredFn (f : TredFn) (vs : List Word) : Word :=
  match f with
  | .add .f32 => tredF32Sum vs
  | .min .f32 => tredF32Pick false vs
  | .max .f32 => tredF32Pick true vs
  | .add _ => vs.foldl (· + ·) 0#32
  | .min t => vs.foldl (iminFn t) (vs.headD 0#32)
  | .max t => vs.foldl (imaxFn t) (vs.headD 0#32)
  | .and => vs.foldl (· &&& ·) 0xFFFFFFFF#32
  | .or => vs.foldl (· ||| ·) 0#32
  | .xor => vs.foldl (· ^^^ ·) 0#32

/-- The contributors of an exchange. -/
def Exch.contributors (x : Exch) : List LaneIn := x.got.filter fun i => i.wb.isSome

/-- What a contributor receives (R134). -/
def Exch.result (x : Exch) (i : LaneIn) : Word :=
  match i.want with
  | .red f => tredFn f (x.contributors.map fun c => c.v)
  | .from_ none => i.v
  | .from_ (some j) => ((x.contributors.find? fun c => c.member = j).map fun c => c.v).getD i.v

/-- The write-backs of a complete exchange whose last member fired in cycle `t` (R135). -/
def Exch.writeBacks (x : Exch) (t : Nat) : List WB :=
  x.got.filterMap fun i => i.wb.map fun w =>
    let v := x.result i
    { w with due := t + 1, done := { w.done with res := v, pres := presOf v } }

/-- Whether an exchange is the one that a member's firing of a slot belongs to: the first that lacks the member (R134). -/
def Exch.lacks (x : Exch) (lead : CtxId) (slot m : Nat) : Bool :=
  x.lead = lead && x.slot = slot && x.got.all fun i => i.member != m

/-- Adds a member's firing to its exchange, beginning one where `create` says so; answers the exchange that this completes.
The members before one that begins an exchange took no part in it. -/
def joinExch (lead : CtxId) (slot n : Nat) (i : LaneIn) (create : Bool) : List Exch → List Exch × Option Exch
  | [] =>
    if create then
      let x : Exch := { lead, slot, n, got := ((List.range i.member).map fun m => { member := m }) ++ [i] }
      if n ≤ x.got.length then ([], some x) else ([x], none)
    else ([], none)
  | x :: r =>
    if x.lacks lead slot i.member then
      let y := { x with got := x.got ++ [i] }
      if y.n ≤ y.got.length then (r, some y) else (y :: r, none)
    else
      let (r', c) := joinExch lead slot n i create r
      (x :: r', c)

/-- A member's firing of a slot joins its exchange in cycle `t`. -/
def State.joinLane (s : State) (lead : CtxId) (slot n : Nat) (i : LaneIn) (create : Bool) (t : Nat) : State :=
  let (xs, c) := joinExch lead slot n i create s.fab.lanes
  { s with fab := { s.fab with lanes := xs, wbs := s.fab.wbs ++ ((c.map fun x => x.writeBacks t).getD []) } }

end Sys2Proof.Machine
end

