-- ==== Sys2Proof/Machine/Fire.lean ====
section
/-!
DEFINITION. When a firing may happen (R27, R59 to R61, R185, R205) and what every firing does: pops, credits, the rotate pointer,
init arming, pending destinations, and the write-back it schedules (R34 to R36).
-/

namespace Sys2Proof.Machine

/-- The order of a memory firing (R205). -/
structure MemOrd where
  acq : Bool := false
  rel : Bool := false
  /-- A global access. -/
  wide : Bool := false
  deriving DecidableEq, Repr, Inhabited

/-- What an operation adds to the tests of R27. -/
structure Need where
  /-- Routes that must hold a credit (R23, R60). -/
  om : BitVec 8
  /-- Channels it dequeues. -/
  dq : BitVec 4
  /-- Predicates it reads other than through the guard (R59). -/
  preds : List (BitVec 3) := []
  /-- Tests the channels as MERGE does (R61). -/
  merge : Bool := false
  /-- A memory firing, with its order (R205). -/
  mem : Option MemOrd := none
  /-- Bytes of the store-buffer half that a rounded firing takes (R185). -/
  bytes : Nat := 0
  /-- Not pipelined (R124). -/
  idiv : Bool := false
  /-- A SHUF or TRED (R134). -/
  lane : Bool := false
  /-- Is never masked in a follower (RET, R138). -/
  unmasked : Bool := false
  deriving DecidableEq, Repr, Inhabited

/-- The needs of an operation with nothing special. -/
def needOf (r : Rule) : Need := { om := r.om, dq := r.dq }

/-- The test of one channel (R27), with or without the colour. -/
def chanTest (g : Guard) (e : Elem) (k n : Nat) (colour : Bool) : Bool :=
  match g.cc n with
  | .ignore => true
  | cc => match e.head n with
    | none => false
    | some t => t.ctx = k && !(cc == .data && t.isControl) && !(cc == .control && !t.isControl) &&
        (!colour || match g.colour with
          | some q => t.colour = q
          | none => true)

/-- The channel that a MERGE selects by its control head (R61, R130). -/
def View.mergePick (v : View) : Option Nat :=
  match v.rule.a.chan?, v.rule.b.chan?, v.rule.c.chan? with
  | some a, some b, some c => match v.e.head a with
    | some t => if t.payload != 0#32 then some b else some c
    | none => none
  | _, _, _ => none

/-- The channel tests of a firing (R27; for MERGE, R61). -/
def View.chansHold (v : View) (merge colour : Bool) : Bool :=
  if merge then
    match v.rule.a.chan?, v.mergePick with
    | some a, some n => chanTest v.rule.guard v.e v.x.k a colour && chanTest v.rule.guard v.e v.x.k n colour
    | _, _ => false
  else (List.range 4).all fun n => chanTest v.rule.guard v.e v.x.k n colour

/-- The registers that the rule reads or writes have no write in flight, and the predicate it writes, and the vector where it
reads that, are not pending (R27, R36). -/
def View.settled (v : View) (preds : List (BitVec 3)) : Bool :=
  let free (s : Src) : Bool := match s with
    | .reg n => !v.x.busy.getLsbD n.toNat
    | .pvec => v.x.preds.all fun p => p != .pending
    | _ => true
  free v.rule.a && free v.rule.b && free v.rule.c &&
  (match v.rule.dst with
    | some n => !v.x.busy.getLsbD n.toNat
    | none => true) &&
  (match v.rule.pdst with
    | some n => v.x.pred n != .pending
    | none => true) &&
  preds.all fun n => v.x.pred n != .pending

/-- Whether what checkpoint tokens are kept under is the route given, or the node that serves it (R389). -/
def Region.viaServes (g : Region) (c : CtxId) (o : Nat) : Via → Bool
  | .route x p => decide (x = c) && p = o
  | .node _ t => ((g.nodes.look t).map fun n => decide (n.ctx = c) && n.o = o).getD false
  | _ => false

/-- Every route of the mask holds a credit (R23), and no checkpoint token of its edge waits to be placed (R389). -/
def View.credited (v : View) (om : BitVec 8) : Bool :=
  (List.range 8).all fun o => !om.getLsbD o ||
    (decide (0 < v.x.credits.getD o 0) && v.g.ckpt.all fun e => !v.g.viaServes v.f.ctx o e.1)

/-- A TCPY that is moving its rows. -/
def Stage.copies : Stage → Bool
  | .tcpy .. => true
  | _ => false

/-- The conditions of R205 on a memory firing: no earlier acquire outstanding, and nothing outstanding before a release. A memory firing that is
no global access waits for its context's TCPY to end (R204, log 84). -/
def State.orderHolds (s : State) (c : CtxId) (m : MemOrd) : Bool :=
  let q := s.reqsOf c
  q.all (fun x => !x.acq) && (m.wide || q.all fun x => !x.stage.copies) && (!m.rel || (q.isEmpty && s.fab.wbs.all fun w => !(w.mem && w.ctx = c)))

/-- The context can fire at all: enabled, live, its element not frozen, not parked, its round open, and no step taken or held (R15,
R27, R44, R136, R138, R186, R220, R393). A follower that is due for a slot at or above its own NR cannot fire either, for which R48 lists no
check: its chain stalls for good (DESIGN CHOICE, log 72). -/
def View.live (v : View) (s : State) : Bool :=
  v.g.on && !v.g.dead && !v.g.stepping && !v.g.stepHeld && v.x.en && decide (v.f.slot < v.x.nr) && !v.x.retired && !v.x.trapped &&
  !v.e.stopped && !v.e.spent && !s.parked v.f.ctx && (!v.x.isRounded || (v.g.round.isOpen && !v.g.round.held)) &&
  v.f.follower == v.x.fol

/-- The rule kind lets the slot fire (R31, R32); a follower's kind is not evaluated (R40). -/
def View.kindHolds (v : View) : Bool :=
  v.f.follower || match v.rule.guard.kind with
    | .init => v.x.armed.getLsbD v.f.slot
    | .drain => v.g.brake.isSome
    | _ => true

/-- The bytes that ISECT firings of the round, which wait on fills, may still add to the half (R185). -/
def State.owedBytes (s : State) (r : Nat) (g : Region) : Nat :=
  16 * (s.fab.reqs.filter fun q => g.issued r q.org && q.org.rounded && (match q.stage with
    | .isectFill fn .. => decide (fn ≠ 0)
    | _ => false)).length

/-- Whether the firing may happen (R27, with R59 to R61, R124, R185 and R205). -/
def View.ready (v : View) (n : Need) (s : State) : Bool :=
  v.live s && v.kindHolds && predsSettled v.rule.guard v.x &&
  ((n.unmasked && v.f.follower) || predsHold v.rule.guard v.x) &&
  v.chansHold n.merge (!(n.unmasked && v.f.follower)) && v.settled n.preds && v.credited n.om &&
  (match n.mem with
    | some m => s.orderHolds v.f.ctx m
    | none => true) &&
  (!v.x.isRounded || decide (v.g.round.half.bytes + s.owedBytes v.r v.g + n.bytes ≤ 65536)) &&
  (!n.idiv || s.fab.wbs.all fun w => !(w.idiv && s.physOf w.ctx = v.p))

/-- The slot of a rotate set that follows another (R30). -/
def nextInSet (set : BitVec 16) (slot : Nat) : Nat :=
  (((List.range 16).map fun i => (slot + 1 + i) % 16).find? set.getLsbD).getD slot

/-- What a firing does to its context at once (R34): credits, rotate pointer, init arming, and destinations in flight when the
result comes later; its starvation count is reset (R192). -/
def View.stamp (v : View) (n : Need) (flight : Bool) (x : Ctx) : Ctx :=
  let x := x.spend n.om
  let x := if !v.f.follower && x.rotSet.getLsbD v.f.slot then
      { x with rot := nextInSet x.rotSet v.f.slot } else x
  let x := if v.rule.guard.kind = .init then { x with armed := x.armed &&& ~~~(1#16 <<< v.f.slot) } else x
  let x := { x with starv := x.starv.set v.f.slot 0 }
  if flight then x.claim v.rule.dst v.rule.pdst else x

/-- The leader of the firing's chain. -/
def View.lead (v : View) : CtxId := { v.f.ctx with el := v.g.leaderOf v.x.k 16 v.x.el }

/-- A follower that takes no part in the exchange its slot began (R134). -/
def State.laneSkip (s : State) (v : View) : State :=
  s.joinLane v.lead v.f.slot (v.g.chainOf v.x.el v.x.k).length { member := v.g.laneOf v.x.el v.x.k } false (v.clk s)

/-- The chain's history takes the slot that its leader fires (R40). -/
def Ctx.note (x : Ctx) (slot : Nat) : Ctx :=
  { x with hist := match x.hist with
      | [] => []
      | _ :: r => some slot :: r }

/-- The one event of a step has happened, under the name `own` (R393); a step of a round set is a round of its own. -/
def Region.stepTaken (own : Nat) (g : Region) : Region :=
  if g.stepGo then
    { g with stepGo := false, stepping := true, stepFrom := own,
             gens := g.gens.map fun e => (e.1, if e.2.rounded then { e.2 with quota := 0 } else e.2) }
  else g

/-- What a firing does at once, under the name `s.uid` that its later effects carry (R34, R23). -/
def View.commit (v : View) (n : Need) (flight : Bool) (s : State) : State :=
  let own := s.uid
  let s := s.bump
  let s := s.popMask v.p n.dq
  let s := s.updCtx v.f.ctx (v.stamp n flight)
  let s := s.updElem v.p fun e => { e with spent := true, ptr := if v.f.follower then e.ptr else (v.x.k + 1) % 8 }
  let s := if v.f.follower then s else s.updCtx v.f.ctx fun x => x.note v.f.slot
  let s := s.reserve v.f.ctx own n.om
  let s := s.updRegion v.r fun g => Region.stepTaken own { g with fired := g.fired || v.rule.guard.kind != .idle }
  if v.f.follower && !n.lane then s.laneSkip v else s

/-- Schedules the write-back of a firing at the end of cycle t + L − 1 (R35). A firing that writes nothing has none. -/
def View.schedule (v : View) (own lat : Nat) (d : Done) (om : BitVec 8) (s : State) (idiv sr mem read : Bool := false) : State :=
  if v.rule.dst = none ∧ v.rule.pdst = none ∧ om = 0#8 ∧ !sr ∧ !idiv ∧ !mem then s
  else
    { s with fab := { s.fab with wbs := s.fab.wbs ++
      [{ id := own, ctx := v.f.ctx, slot := v.f.slot, due := v.clk s + lat - 1, dst := v.rule.dst, pdst := v.rule.pdst, om,
         done := d, idiv, sr, mem, read }] } }

/-- A firing of fixed latency: when it may happen, it commits and schedules its write-back. -/
def fireAlu (r : Rule) (w : ImmW) (need : View → Need) (lat : Nat) (d : View → State → Done) (s : State)
    (idiv : Bool := false) (sr : View → Bool := fun _ => false) (latch : Bool := false) : State :=
  match view s r w with
  | none => s
  | some v =>
    let n := need v
    if v.ready n s then
      let t := v.commit n (decide (1 < lat)) s
      let t := if v.readsCycl latch then t.updCtx v.f.ctx fun x => { x with cych := BitVec.ofNat 32 (v.clk s / 2 ^ 32) } else t
      v.schedule s.uid lat (d v s) n.om t idiv (sr v)
    else s

/-- An operation of fixed latency whose result depends only on its sources. -/
def fireFn (r : Rule) (w : ImmW) (lat : Nat) (f : Word → Word → Word → Word) (s : State) : State :=
  fireAlu r w (fun v => needOf v.rule) lat (fun v _ => v.data (f v.a v.b v.c)) s

end Sys2Proof.Machine
end

