-- ==== Sys2Proof/Machine/Int.lean ====
section
/-!
DEFINITION. The integer, logic and predicate instructions (R118 to R127, R132, R133), one definition each over `fireFn` and
`fireAlu`.
-/

namespace Sys2Proof.Machine

abbrev Result := Host.Outcome State Fault Refusal

-- Moves and selection (R118, R119, R120).

def execMov (r : Rule) (s : State) : Result := .next (fireFn r .s32 1 (fun a _ _ => a) s)
def execMovh (r : Rule) (s : State) : Result := .next (fireFn r .s32 1 (fun a _ _ => r.imm ++ a.setWidth 16) s)
def execSel (p : BitVec 3) (r : Rule) (s : State) : Result :=
  .next (fireAlu r .s32 (fun v => { needOf v.rule with preds := [p] }) 1
    (fun v _ => v.data (if v.x.pred p = .t then v.a else v.b)) s)
/-- SYS (R119); reading CYCL latches the counter's high half. -/
def execSys (r : Rule) (s : State) : Result :=
  .next (fireAlu r .s32 (fun v => needOf v.rule) 1 (fun v s => v.data (sysValue s v.r v.g v.x r.imm.toNat)) s (latch := true))
/-- CNT.ch: the occupancy of a channel (R120). -/
def execCntCh (r : Rule) (s : State) : Result :=
  .next (fireAlu r .s32 (fun v => needOf v.rule) 1
    (fun v _ => v.data (BitVec.ofNat 32 (v.e.chan (r.imm.toNat % 4)).length)) s)
/-- CNT.cr: the credits of a route (R120). -/
def execCntCr (r : Rule) (s : State) : Result :=
  .next (fireAlu r .s32 (fun v => needOf v.rule) 1
    (fun v _ => v.data (BitVec.ofNat 32 (v.x.credits.getD (r.imm.toNat % 8) 0))) s)

-- Integer arithmetic (R121 to R124).

def execIadd (sat : Bool) (t : Ty) (r : Rule) (s : State) : Result := .next (fireFn r (immS t) 1 (fun a b _ => iaddFn sat t a b) s)
def execIsub (sat : Bool) (t : Ty) (r : Rule) (s : State) : Result := .next (fireFn r (immS t) 1 (fun a b _ => isubFn sat t a b) s)
def execImul (hi : Bool) (t : Ty) (r : Rule) (s : State) : Result := .next (fireFn r (immS t) 3 (fun a b _ => imulFn hi t a b) s)
def execImad (sat : Bool) (t : Ty) (r : Rule) (s : State) : Result := .next (fireFn r (immS t) 3 (fun a b c => imadFn sat t a b c) s)
def execImin (t : Ty) (r : Rule) (s : State) : Result := .next (fireFn r (immS t) 1 (fun a b _ => iminFn t a b) s)
def execImax (t : Ty) (r : Rule) (s : State) : Result := .next (fireFn r (immS t) 1 (fun a b _ => imaxFn t a b) s)
def execIabs (sat : Bool) (t : Ty) (r : Rule) (s : State) : Result := .next (fireFn r (immS t) 1 (fun a _ _ => iabsFn sat t a) s)
def execIaddx (p : BitVec 3) (t : Ty) (r : Rule) (s : State) : Result :=
  .next (fireAlu r (immS t) (fun v => { needOf v.rule with preds := [p] }) 1
    (fun v _ =>
      let cin := decide (v.x.pred p = .t)
      v.data2 (BitVec.ofInt 32 (iaddxSum t cin v.a v.b)) (iaddxOut t cin v.a v.b)) s)
def execIdiv (rem : Bool) (t : Ty) (r : Rule) (s : State) : Result :=
  .next (fireAlu r (immS t) (fun v => { needOf v.rule with idiv := true }) 18
    (fun v _ => v.data (idivFn rem t v.a v.b)) s (idiv := true))
def execIdot (sat : Bool) (t : Ty) (r : Rule) (s : State) : Result := .next (fireFn r .s32 3 (fun a b c => idotFn sat t a b c) s)

-- Logic, shifts and bit fields (R125, R126).

def execAndw (r : Rule) (s : State) : Result := .next (fireFn r .z 1 (fun a b _ => a &&& b) s)
def execOrw (r : Rule) (s : State) : Result := .next (fireFn r .z 1 (fun a b _ => a ||| b) s)
def execXorw (r : Rule) (s : State) : Result := .next (fireFn r .z 1 (fun a b _ => a ^^^ b) s)
def execAndnw (r : Rule) (s : State) : Result := .next (fireFn r .z 1 (fun a b _ => a &&& ~~~b) s)
def execShl (r : Rule) (s : State) : Result := .next (fireFn r .z 1 (fun a b _ => shlFn a b) s)
def execShr (r : Rule) (s : State) : Result := .next (fireFn r .z 1 (fun a b _ => shrFn a b) s)
def execSar (r : Rule) (s : State) : Result := .next (fireFn r .z 1 (fun a b _ => sarFn a b) s)
def execRot (r : Rule) (s : State) : Result := .next (fireFn r .z 1 (fun a b _ => rotFn a b) s)
def execClz (r : Rule) (s : State) : Result := .next (fireFn r .s32 1 (fun a _ _ => clzFn a) s)
def execPopc (r : Rule) (s : State) : Result := .next (fireFn r .s32 1 (fun a _ _ => popcFn a) s)
def execBrev (r : Rule) (s : State) : Result := .next (fireFn r .s32 1 (fun a _ _ => brevFn a) s)
def execBfx (signed : Bool) (r : Rule) (s : State) : Result := .next (fireFn r .s32 1 (fun a _ _ => bfxFn signed r.imm a) s)
def execBfi (r : Rule) (s : State) : Result := .next (fireFn r .s32 1 (fun a b _ => bfiFn r.imm a b) s)

-- Compares and predicates (R127).

def execIcmp (cc : ICond) (t : Ty) (r : Rule) (s : State) : Result :=
  .next (fireAlu r (immS t) (fun v => needOf v.rule) 1
    (fun v _ =>
      let h := icondHolds cc (lane t v.a 0) (lane t v.b 0)
      v.data2 (if h then 0xFFFFFFFF#32 else 0#32) h) s)
/-- The predicates that PSET reads (R127). -/
def psetReads (f : PFn) (imm : BitVec 16) : List (BitVec 3) :=
  match f with
  | .true | .false => []
  | .mov | .not => [imm.setWidth 3]
  | _ => [imm.setWidth 3, imm.extractLsb' 3 3]
def execPset (f : PFn) (r : Rule) (s : State) : Result :=
  .next (fireAlu r .s32 (fun v => { needOf v.rule with preds := psetReads f r.imm }) 1
    (fun v _ =>
      let h := psetFn f (decide (v.x.pred (r.imm.setWidth 3) = .t)) (decide (v.x.pred (r.imm.extractLsb' 3 3) = .t))
      v.data2 (if h then 1#32 else 0#32) h) s)
def execPget (r : Rule) (s : State) : Result :=
  .next (fireAlu r .s32 (fun v => { needOf v.rule with preds := [r.imm.setWidth 3] }) 1
    (fun v _ =>
      let p := decide (v.x.pred (r.imm.setWidth 3) = .t)
      v.data2 ((v.a <<< 1) ||| (if p then 1#32 else 0#32)) p) s)

-- Packing and permutation (R132, R133).

def execPack (f : PackFn) (r : Rule) (s : State) : Result := .next (fireFn r .s32 1 (fun a b _ => packFn f a b) s)
def execUnpk (t : Ty) (r : Rule) (s : State) : Result := .next (fireFn r .s32 1 (fun a _ _ => unpkFn t r.imm a) s)
def execPerm (r : Rule) (s : State) : Result := .next (fireFn r .s32 1 (fun a b _ => permFn r.imm a b) s)

end Sys2Proof.Machine
end

