-- ==== Sys2Proof/Machine/Token.lean ====
section
/-!
DEFINITION. The token-control instructions, the exchanges of a chain, traps and retirement (R128 to R139), and the events that
move tokens and results: masked firings (R40), write-backs (R35, R442), arrivals (R24) and credits (R23).
-/

namespace Sys2Proof.Machine

def execNop (r : Rule) (s : State) : Result := .next (fireFn r .z 1 (fun _ _ _ => 0#32) s)

/-- STEER (R129): the routes that the decision selects (R60). -/
def steerMask (v : View) : BitVec 8 := if v.a != 0#32 then v.rule.om else v.rule.imm.setWidth 8
def execSteer (r : Rule) (s : State) : Result :=
  .next (fireAlu r .z (fun v => { needOf v.rule with om := steerMask v }) 1
    (fun v _ => { v.data2 v.b (v.a != 0#32) with om := steerMask v }) s)

/-- The bit of a channel. -/
def chanBit (n : Nat) : BitVec 4 := 1#4 <<< n
/-- The channels that a MERGE dequeues: the control head and the selected head (R61, R130). -/
def mergePops (v : View) : BitVec 4 :=
  match v.rule.a.chan?, v.mergePick with
  | some a, some n => chanBit a ||| chanBit n
  | _, _ => 0#4
def execMerge (r : Rule) (s : State) : Result :=
  .next (fireAlu r .z (fun v => { needOf v.rule with dq := mergePops v, merge := true }) 1
    (fun v _ => match v.mergePick.bind v.e.head with
      | some t => { v.data t.payload with colour := t.colour }
      | none => v.data 0#32) s)
/-- GATE (R128): where pass fails, nothing is written or emitted but the predicate, which is false. -/
def execGate (onTrue : Bool) (r : Rule) (s : State) : Result :=
  .next (fireAlu r .z (fun v => needOf v.rule) 1
    (fun v _ =>
      let pass := (v.b != 0#32) == onTrue
      { v.data2 v.a pass with good := pass }) s)
def execCtl (r : Rule) (s : State) : Result :=
  .next (fireAlu r .s32 (fun v => needOf v.rule) 1 (fun v _ => { v.data v.a with control := true }) s)
def execSink (r : Rule) (s : State) : Result := .next (fireFn r .z 1 (fun a _ _ => a) s)
/-- SINK.tag (R128): the tag of the head that SA names. -/
def execSinkTag (r : Rule) (s : State) : Result :=
  .next (fireAlu r .z (fun v => needOf v.rule) 1
    (fun v _ => v.data ((((v.rule.a.chan?.bind v.e.head).map fun t => t.tag).getD 0#8).setWidth 32)) s)
def execTagc (byReg : Bool) (r : Rule) (s : State) : Result :=
  .next (fireAlu r .s32 (fun v => needOf v.rule) 1
    (fun v _ => { v.data v.a with
      colour := if byReg then v.b.setWidth 4 else v.rule.imm.setWidth 4, control := v.rule.imm.getLsbD 4 }) s)

def execSeq (down : Bool) (r : Rule) (s : State) : Result :=
  .next (fireAlu r .s32 (fun v => needOf v.rule) 1
    (fun v _ => v.data2 (seqFn down r.imm v.a) (seqWraps down r.imm v.a)) s)
def execDelay (r : Rule) (s : State) : Result :=
  .next (fireFn r .s32 (1 + r.imm.toNat % 256) (fun a _ _ => a) s)

-- Exchanges among the members of a chain (R134, R135).

/-- A firing of SHUF or TRED: the member joins the exchange, which schedules the write-backs when its last member fires. -/
def fireLane (r : Rule) (want : View → LaneWant) (s : State) : State :=
  match view s r .s32 with
  | none => s
  | some v =>
    let n : Need := { needOf v.rule with lane := true }
    if v.ready n s then
      let wb : WB := { id := s.uid, ctx := v.f.ctx, slot := v.f.slot, due := 0, dst := v.rule.dst, pdst := v.rule.pdst,
                       om := v.rule.om, done := v.data v.a }
      (v.commit n true s).joinLane v.lead v.f.slot (v.g.chainOf v.x.el v.x.k).length
        { member := v.g.laneOf v.x.el v.x.k, v := v.a, want := want v, wb := some wb } true (v.clk s)
    else s

/-- The member that a SHUF reads from (R134), if one exists. -/
def shufFrom (f : ShufFn) (imm : BitVec 16) (m : Nat) (b : Word) : Option Nat :=
  let d := imm.toNat % 16
  match f with
  | .idx => some b.toNat
  | .up => if d ≤ m then some (m - d) else none
  | .dn => some (m + d)
  | .xor => some (Nat.xor m d)
def execShuf (f : ShufFn) (r : Rule) (s : State) : Result :=
  .next (fireLane r (fun v => .from_ (shufFrom f r.imm (v.g.laneOf v.x.el v.x.k) v.b)) s)
def execTred (f : TredFn) (r : Rule) (s : State) : Result := .next (fireLane r (fun _ => .red f) s)

-- Traps, breakpoints and retirement (R136 to R138).

/-- What a TRAP or BRK that fires does besides dequeuing (R136): in a direct context the element or chain freezes from the
next cycle; in a rounded one the record waits for the commit. A follower's has no further effect. -/
def trapEffect (cls : Nat) (v : View) (s : State) : State :=
  if v.f.follower then s
  else
    let rcd := s.mkRec (s.origin v.f v.x.isRounded) cls (natLe 2 v.rule.imm.toNat) 0 v.a
    if v.x.isRounded then
      let rcd := if 1 < (v.g.chainOf v.x.el v.x.k).length then { rcd with flags := rcd.flags + 4 } else rcd
      s.updCtx v.f.ctx fun x => { x with traps := x.traps ++ [rcd] }
    else s.freezeNext v.f.ctx rcd

/-- A firing that writes nothing and has a further effect. -/
def fireThen (r : Rule) (w : ImmW) (need : View → Need) (eff : View → State → State) (s : State) : State :=
  match view s r w with
  | none => s
  | some v => if v.ready (need v) s then eff v (v.commit (need v) false s) else s

def execTrap (r : Rule) (s : State) : Result := .next (fireThen r .z (fun v => needOf v.rule) (trapEffect 0x0D) s)
/-- BRK (R137): a trap of class breakpoint where BPEN is set (R392). -/
def execBrk (r : Rule) (s : State) : Result :=
  .next (fireThen r .z (fun v => needOf v.rule)
    (fun v s => if (s.rreg v.r).rdbg.getLsbD 0 then trapEffect 0x0E v s else s) s)
/-- RET (R138). -/
def execRet (r : Rule) (s : State) : Result :=
  .next (fireThen r .z (fun v => { needOf v.rule with unmasked := true })
    (fun v s =>
      if v.x.isRounded then s.updCtx v.f.ctx fun x => { x with retiring := true }
      else (s.updCtx v.f.ctx fun x => { x with retired := true }).tidy v.p) s)

-- Masked firings (R40).

/-- The predicates that an operation reads other than through its guard (R59). -/
def predReads : Instr → List (BitVec 3)
  | .sel p _ => [p]
  | .iaddx p _ _ => [p]
  | .pset f r => psetReads f r.imm
  | .pget r => [r.imm.setWidth 3]
  | _ => []

/-- The slot that a follower is due to fire in this chain cycle (R40): the leader's history, whose first entry is this
cycle's. -/
def View.dueSlot (v : View) : Option Nat :=
  ((v.g.ctx (v.g.leaderOf v.x.k 16 v.x.el) v.x.k).bind fun c => (c.hist[v.g.laneOf v.x.el v.x.k]?).bind id)

def isMerge : Instr → Bool
  | .merge _ => true
  | _ => false
def isRet : Instr → Bool
  | .ret _ => true
  | _ => false

/-- The routes whose credits a firing needs (R27, R60). -/
def routesOf (i : Instr) (v : View) : BitVec 8 :=
  match i with
  | .steer _ => steerMask v
  | _ => v.rule.om

/-- Whether a follower's firing of instruction `i` is masked: its heads are there, its routes hold credits, nothing it names is in
flight, and a predicate or colour term of its guard fails (R40, R41). -/
def View.masked (v : View) (i : Instr) (s : State) : Bool :=
  v.live s && v.credited (routesOf i v) && predsSettled v.rule.guard v.x && v.chansHold (isMerge i) false && v.settled (predReads i) && !isRet i &&
  !(predsHold v.rule.guard v.x && v.chansHold (isMerge i) true)

/-- The view of slot `slot` of a context as the follower's due firing. -/
def slotView (s : State) (f : Firing) : Option (Instr × View) :=
  match (s.ctx f.ctx).bind fun c => c.slots[f.slot]? with
  | none => none
  | some w => match decode w.w0 w.w1 w.w2 with
    | .error _ => none
    | .ok i => match i.form with
      | none => none
      | some (_, r) => (view { s with cur := f } r .z).map fun v => (i, v)

/-- MASKED_FIRING (R40): dequeues the channels of its mask and nothing else. -/
def execMaskedFiring (c : CtxId) (slot : Nat) (s : State) : Result :=
  .next (match slotView s { ctx := c, slot, follower := true } with
    | none => s
    | some (i, v) =>
      if v.masked i s && v.dueSlot == some slot then
        let s := s.bump.popMask v.p (if isMerge i then mergePops v else v.rule.dq)
        let s := s.updElem v.p fun e => { e with spent := true }
        let s := s.laneSkip v
        s.updRegion v.r fun g => Region.stepTaken s.uid { g with fired := true }
      else s)

-- Write-back, arrivals and credits.

def State.dropWb (s : State) (id : Nat) : State :=
  { s with fab := { s.fab with wbs := s.fab.wbs.filter fun w => w.id != id } }

/-- A residue mismatch of a unit is counted, in the lifetime store of its core (R442, R443). -/
def State.takeGlitch (s : State) (key core : Nat) : State :=
  { s with fab := { s.fab with glitch := s.fab.glitch.drop key },
           pkg := { s.pkg with life := { s.pkg.life with residue := s.pkg.life.residue.alter core 0 (· + 1) } } }

/-- A write-back takes place at the end of the present cycle, and the rounding counter advances with it (R35, R103). -/
def State.deliver (s : State) (w : WB) (d : Done) : State :=
  let s := (s.dropWb w.id).writeBack w.id w.ctx w.dst w.pdst d (s.regionClk w.ctx.region + 1)
  if w.sr then s.updCtx w.ctx fun x => { x with rcnt := x.rcnt + 1#32 } else s

/-- Performs a write-back that is due, with what the residue check finds (R442): after one mismatch the operation is executed once more,
at a cost of 2 cycles in which its destinations stay in flight (R36); after a second its result is uncorrectable data. -/
def State.finish (s : State) (w : WB) : State :=
  let p := s.physOf w.ctx
  match w.redo, s.fab.glitch.look p with
  | none, some n =>
    let s := s.takeGlitch p (coreOf w.ctx.region)
    let later (x : WB) : WB := { x with due := x.due + 2, redo := some (n != 1) }
    ({ s with fab := { s.fab with wbs := mapIf (fun x => x.id = w.id) later s.fab.wbs } } : State).updCtx w.ctx
      fun x => x.claim w.dst w.pdst
  | some true, _ =>
    let s := s.takeGlitch p (coreOf w.ctx.region)
    let rounded := ((s.ctx w.ctx).map Ctx.isRounded).getD false
    let f : Firing := { ctx := w.ctx, slot := w.slot }
    let rcd := s.mkRec (s.origin f rounded) 0x0B (badInfo 0 8)
    (s.deliver w { w.done with good := false }).raise f rounded rcd
  | _, _ => s.deliver w w.done

/-- WRITE_BACK (R35): at the end of the cycle in which it is due. -/
def execWriteBack (id : Nat) (s : State) : Result :=
  .next (match s.fab.wbs.find? fun w => w.id = id with
    | some w => if w.due ≤ s.regionClk w.ctx.region then s.finish w else s
    | none => s)

/-- A token reaches the channel that its route targets, or the node that serves it (R18, R24, R247). -/
def State.land (s : State) (f : Flit) : State :=
  let s := { s with fab := { s.fab with flits := s.fab.flits.filter fun x => x.id != f.id } }
  let via : Via := match f.toNode, (s.region f.ctx.region).bind fun g => g.nodeOf f.ctx.el f.ctx.k f.o with
    | none, some e => .node f.ctx.region e.1
    | _, _ => .route f.ctx f.o
  let t : Token := { payload := f.payload, tag := f.tag, via }
  match f.toNode with
  | some (r, n) => s.updRegion r fun g => { g with nodes := g.nodes.upd n fun x => { x with fifo := x.fifo ++ [t] } }
  | none => match s.region f.ctx.region with
    | none => s
    | some g => match (g.ctx f.ctx.el f.ctx.k).bind fun c => routeTarget c.el (c.routes.getD f.o 0#32) with
      | some el =>
        let w := (((g.ctx f.ctx.el f.ctx.k).map fun c => c.routes.getD f.o 0#32).getD 0#32)
        (s.updElem (g.phys el) fun e => e.pushCh (routeCh w) t).tidy (g.phys el)
      | none => s

/-- TOKEN_ARRIVE (R24): the oldest token on its route, once its hops are done (R19) and the target has a place for it (R247). -/
def execTokenArrive (id : Nat) (s : State) : Result :=
  .next (match s.fab.flits.find? fun f => f.id = id with
    | none => s
    | some f =>
      let first := (s.fab.flits.find? fun x => x.ctx = f.ctx && x.o = f.o && x.toNode = f.toNode).map fun x => x.id
      if f.filled && !f.owes && f.arrive ≤ s.regionClk f.ctx.region && first == some id then s.land f else s)

/-- CREDIT_RETURN (R23). -/
def execCreditReturn (id : Nat) (s : State) : Result :=
  .next (match s.fab.credRets.find? fun c => c.id = id with
    | none => s
    | some c =>
      if c.at_ ≤ s.regionClk c.dest.region then
        let s := { s with fab := { s.fab with credRets := s.fab.credRets.filter fun x => x.id != id } }
        match c.dest with
        | .none => s
        | .route x o => s.regain x o
        | .gen r n => s.updRegion r fun g => { g with gens := g.gens.upd n fun x => { x with credits := x.credits + 1 } }
        | .node r n => s.updRegion r fun g => { g with nodes := g.nodes.upd n fun x => { x with credits := x.credits + 1 } }
      else s)

end Sys2Proof.Machine
end

