-- ==== Sys2Proof/Machine/Access.lean ====
section
/-!
DEFINITION. Global accesses (R201 to R217, R293, R319): their checks, how they are performed, and their requests; the events
that end requests, write lines back and complete wide releases (R38, R289, R290), and those of the wait table (R292, R293).
-/

namespace Sys2Proof.Machine

-- The fields of a global access's IMM16 (R67).

def immWin (i : BitVec 16) : Nat := bitsOf 12 4 i.toNat
def immScope (i : BitVec 16) : Nat := bitsOf 9 3 i.toNat
def immDisp (i : BitVec 16) : Nat := bitsOf 0 7 i.toNat
def immAcq (i : BitVec 16) : Bool := bitOf 7 i.toNat
def immRel (i : BitVec 16) : Bool := bitOf 8 i.toNat

/-- Whether the access is a release at .die or wider (R290). -/
def immWide (i : BitVec 16) : Bool := immRel i && decide (3 ≤ immScope i)

/-- The bytes of a size (R68). -/
def sizeBytes : Size → Nat
  | .b => 1
  | .h => 2
  | .w => 4

-- What checks before a commit find.

/-- What the checks of a firing find before it commits (R43). -/
inductive Pre (α : Type) where
  | go (x : α)
  | fault (cls : Nat) (info : List Byte) (va : Nat) (word : Word)
  /-- Blocks that are not FULL, with what a record would name: access kind, size, window, offset, address. -/
  | fill (bs : List (Range × Nat)) (kind size win off va : Nat)
  /-- A link retrains on the way of a walk: the firing is not made in this cycle (R423). -/
  | wait
  deriving Repr, Inhabited

/-- INFO of classes 0x01, 0x02, 0x04 and 0x10 (R198, R345). -/
def accInfo (kind size win off level cause idx : Nat) : List Byte :=
  [BitVec.ofNat 8 kind, BitVec.ofNat 8 size.log2, BitVec.ofNat 8 win, 0#8] ++ natLe 4 off ++
    [BitVec.ofNat 8 level, BitVec.ofNat 8 cause, BitVec.ofNat 8 idx]
/-- INFO of class 0x03 (R198, R434). -/
def limitInfo (kind what num off limit : Nat) : List Byte :=
  [BitVec.ofNat 8 kind, BitVec.ofNat 8 what, BitVec.ofNat 8 num, 0#8] ++ natLe 4 off ++ natLe 4 limit

/-- What a denied translation raises. -/
def Deny.pre {α : Type} (d : Deny) (kind size win off va : Nat) : Pre α :=
  match d with
  | .fault c l cause => .fault c (accInfo kind size win off l cause 0) va 0#32
  | .bad code => .fault 0x0B (badInfo kind code) va 0#32
  | .link l => .fault 0x12 [BitVec.ofNat 8 l] va 0#32
  | .wait => .wait

/-- Whether an operation writes for the purpose of RO, and for that of translation (R201, R344). -/
def GOp.noRO : GOp → Bool
  | .ld _ | .ldS _ | .xrd => false
  | _ => true
def GOp.writes : GOp → Bool
  | .ld _ | .ldS _ | .xrd | .waita _ => false
  | _ => true
def GOp.reads : GOp → Bool
  | .st => false
  | _ => true
/-- The access kind of R198. -/
def GOp.kind : GOp → Nat
  | .ld _ | .ldS _ | .xrd | .waita _ | .pop => 0
  | .st => 1
  | _ => 2
/-- Whether an operation must be naturally aligned (R202). -/
def GOp.aligned : GOp → Bool
  | .ld _ | .ldS _ | .st => false
  | _ => true

/-- What Translate is asked for an access of a view's context. -/
def View.ask (v : View) (s : State) (va : Nat) (r w quiet : Bool) : Ask :=
  { die := dieOf v.r, core := some (coreOf v.r), as_ := ((s.gang v.g.gang).map fun g => g.as_).getD 0, va, r, w,
    gang := v.g.gang, quiet }

/-- The checks of R202 and R207 on an access of `size` bytes with address operand `x`. -/
def View.checkG (v : View) (s : State) (op : GOp) (size : Nat) (x a b : Word) (quiet : Bool) : Pre GAcc × State :=
  let n := immWin v.rule.imm
  let w := v.g.wins.getD n {}
  let off := x.toNat + immDisp v.rule.imm * size
  let k := op.kind
  if !w.v || decide (w.limit < off + size - 1) then (.fault 0x03 (limitInfo k 0 n off w.limit) 0 0#32, s)
  else
    let va := w.base + off
    if va / 32 ≠ (va + size - 1) / 32 then (.fault 0x04 (accInfo k size n off 0 0 0) va 0#32, s)
    else if op.aligned && va % size ≠ 0 then (.fault 0x04 (accInfo k size n off 0 0 0) va 0#32, s)
    else if op.noRO && w.ro then (.fault 0x02 (accInfo k size n off 0xFF 3 0) va 0#32, s)
    else
      match s.xlate (v.ask s va op.reads op.writes quiet) with
      | (.ok loc, s) => (.go { op, va, loc, size, win := n, off, a, b, wide := immWide v.rule.imm && op.writes }, s)
      | (.deny d, s) => (d.pre k size n off va, s)
      | (.fill r blk, s) => (.fill [(r, blk)] k size n off va, s)

/-- The first fault of its own that an access to blocks that are not FULL meets. -/
def State.joinFaults (s : State) (as_ gang : Nat) (bs : List (Range × Nat)) : Option (Range × Nat × Nat × Nat) :=
  bs.findSome? fun e => (s.joinFault e.1 as_ e.2 gang).map fun f => (e.1, e.2, f.1, f.2)

/-- INFO of a fault of its own that an access meets at a fill (R363). -/
def ownFillInfo (kind size win off : Nat) (f : Range × Nat × Nat × Nat) : List Byte :=
  [BitVec.ofNat 8 kind, BitVec.ofNat 8 size.log2, BitVec.ofNat 8 win, 0#8] ++ natLe 4 off ++
    [BitVec.ofNat 8 f.1.idx, BitVec.ofNat 8 f.2.2.2, BitVec.ofNat 8 f.2.2.1, 0#8] ++ natLe 4 f.2.1

/-- A firing without checks of its own: `eff` commits and does the rest. -/
def fireGo (r : Rule) (w : ImmW) (need : View → Need) (eff : View → State → State) (s : State) : State :=
  match view s r w with
  | none => s
  | some v => if v.ready (need v) s then eff v s else s

/-- A firing whose checks come before its commit (R43, R45, R189, R207). `eff` commits and does the rest; `wait` commits and waits
in a rounded context on blocks that are not FULL. -/
def fireChecked {α : Type} (r : Rule) (w : ImmW) (need : View → Need) (pre : View → State → Pre α × State)
    (eff : View → α → State → State) (wait : View → State → State) (s : State) : State :=
  match view s r w with
  | none => s
  | some v =>
    if v.ready (need v) s then
      let raise (s : State) (cls : Nat) (info : List Byte) (va : Nat) (word : Word) : State :=
        s.raise v.f v.x.isRounded (s.mkRec (s.origin v.f v.x.isRounded) cls info va word)
      match pre v s with
      | (.go x, t) => eff v x t
      | (.fault cls info va word, t) => raise t cls info va word
      | (.wait, _) => s
      | (.fill bs kind size win off va, t) =>
        let as_ := ((t.gang v.g.gang).map fun g => g.as_).getD 0
        match t.joinFaults as_ v.g.gang bs with
        | some f => raise t f.2.2.1 (ownFillInfo kind size win off f) va 0#32
        | none =>
          if v.x.isRounded then
            let id := t.uid
            (wait v t).joinFills as_ (bs.map fun b => (b.1, b.2, .req id kind size.log2 win off va))
          else
            (t.freezeFill v.f.ctx v.f.slot).joinFills as_ (bs.map fun b => (b.1, b.2, .elem v.f.ctx v.f.slot kind size.log2 win off va))
    else s

-- Requests.

/-- The request that a firing leaves outstanding, under the name of its commit. -/
def View.req (v : View) (s : State) (id : Nat) (read acq : Bool) (stage : Stage) (parks : Bool := false) : Req :=
  { id, org := s.origin v.f v.x.isRounded, dst := v.rule.dst, pdst := v.rule.pdst, om := v.rule.om, colour := v.colour, read, acq,
    parks, stage }
def State.addReq (s : State) (q : Req) : State := { s with fab := { s.fab with reqs := s.fab.reqs ++ [q] } }

/-- The write-back of a request with a result. -/
def Req.done (q : Req) (res : Word) (pres : Bool) : Done := { res, pres, om := q.om, colour := q.colour }

-- The store buffer (R165, R182, R185).

/-- The quota of every generator of the round set is cut to the tokens delivered (R185). -/
def Region.cutQuotas (g : Region) : Region :=
  { g with gens := g.gens.map fun e => (e.1, if e.2.rounded then { e.2 with quota := 0 } else e.2) }

/-- A rounded firing's effect is held in the round's half; past 49,152 bytes the round closes early (R182, R185). -/
def Region.charge (g : Region) (size : Nat) : Region :=
  let h := g.round.half
  let b := h.bytes + size
  let g := { g with round := g.round.setHalf { h with bytes := b } }
  if 49152 < b && !g.round.early then { g.cutQuotas with round := { g.round with early := true } } else g
/-- An entry takes its place among those of the half, in firing order (R182). -/
def Region.putEntry (g : Region) (e : Entry) : Region :=
  let h := g.round.half
  let (a, b) := h.entries.span fun x => x.age ≤ e.age
  { g with round := g.round.setHalf { h with entries := a ++ e :: b } }
def State.hold (s : State) (v : View) (size : Nat) (eff : Held) : State :=
  let e : Entry := { age := s.uid, org := s.origin v.f true, size, eff }
  s.updRegion v.r fun g => (g.charge size).putEntry e

-- Performing an access.

/-- Widens the bytes of a load (R208). -/
def loadExt (signed : Bool) (size : Nat) (bs : List Byte) : Word :=
  if signed then BitVec.ofInt 32 (signedOf (8 * size) (leNat bs)) else BitVec.ofNat 32 (leNat bs)

/-- The new word of an atomic (R212). -/
def atomNew (f : Nat) (signed : Bool) (m v : Word) : Word :=
  match f with
  | 0 => m + v
  | 1 => if signed then (if m.toInt ≤ v.toInt then m else v) else (if m.toNat ≤ v.toNat then m else v)
  | 2 => if signed then (if m.toInt ≤ v.toInt then v else m) else (if m.toNat ≤ v.toNat then v else m)
  | 3 => m &&& v
  | 4 => m ||| v
  | 5 => m ^^^ v
  | _ => v

/-- What an operation at the home makes of the bytes it reads: the bytes it writes, if any, the result and the predicate
(R212 to R216). -/
def GAcc.apply (a : GAcc) (bs : List Byte) : Option (List Byte) × Word × Bool :=
  let m := leNat bs
  let w := BitVec.ofNat 32 m
  match a.op with
  | .atom f signed => (some (wordLe (atomNew f signed w a.a)), w, w != 0#32)
  | .amax64 =>
    let x := a.b.toNat * 2 ^ 32 + a.a.toNat
    if m < x then (some (natLe 8 x), 1#32, true) else (none, 0#32, false)
  | .axadd => (some (natLe 32 (xsAdd m a.a)), a.a, a.a != 0#32)
  | .acas => (if w = a.a then some (wordLe a.b) else none, w, w = a.a)
  | .xrd => (none, xsRead m, xsRead m != 0#32)
  | .xrdClr => (some (natLe 32 0), xsRead m, xsRead m != 0#32)
  | _ => (none, w, w != 0#32)

/-- What stands in the way of an access from a die to a home (R291, R337, R424): class, INFO and none, or nothing. -/
def State.obstacle (s : State) (die cl loc kind : Nat) (cached : Bool) : Option (Nat × List Byte) :=
  match s.cut die (homeDie loc) with
  | some l => some (0x12, [BitVec.ofNat 8 l])
  | none => (if cached then s.readError cl loc else s.markOf loc).map fun c => (0x0B, badInfo kind c)

/-- What stands in the way of a read of some bytes of a sector; of those that are held, nothing (R183). -/
def State.readStop (s : State) (core : Nat) (rounded : Bool) (kind loc n : Nat) : Option (Nat × List Byte) :=
  if s.allHeld core rounded loc n then none else s.obstacle (dieOfCore core) (clusterOfCore core) loc kind true

/-- The parts of some bytes in each of their sectors: location and length. -/
def sectorsOf (loc n : Nat) : List (Nat × Nat) :=
  (List.range ((loc % 32 + n + 31) / 32)).map fun i =>
    let a := max loc (loc / 32 * 32 + 32 * i)
    (a, min (loc + n) (loc / 32 * 32 + 32 * i + 32) - a)

/-- A write at the home from a cluster: the cluster's own dirty bytes of the sector go first (R288). -/
def State.homeWrite (s : State) (cl loc : Nat) (bs : List Byte) : State :=
  (s.writeBackSector cl (loc / 32)).homePut loc bs

/-- How an access that has been performed goes on. -/
inductive Perf where
  | done (res : Word) (pres : Bool)
  | ack
  | bad (cls : Nat) (info : List Byte)
  deriving DecidableEq, Repr, Inhabited

/-- Performs a load, store, atomic, ACAS or XRD of a core (R203, R208 to R217, R288, R289). A wide release is performed at its home
(R318). -/
def State.perform (s : State) (core : Nat) (rounded : Bool) (a : GAcc) : Perf × State :=
  let die := dieOfCore core
  let cl := clusterOfCore core
  match a.op with
  | .ld signed =>
    match s.readStop core rounded 0 a.loc a.size with
    | some e => (.bad e.1 e.2, s)
    | none =>
      let w := loadExt signed a.size (s.readBytes core rounded a.loc a.size)
      (.done w (w != 0#32), s.touch cl a.loc)
  | .ldS signed =>
    match s.readStop core rounded 0 a.loc a.size with
    | some _ => (.done 0#32 false, { s with pkg := { s.pkg with errors := s.pkg.errors.alter die 0 (· + 1) } })
    | none => (.done (loadExt signed a.size (s.readBytes core rounded a.loc a.size)) true, s.touch cl a.loc)
  | .st =>
    let bs := natLe a.size a.b.toNat
    match s.cut die (homeDie a.loc) with
    | some l => (.bad 0x12 [BitVec.ofNat 8 l], s)
    | none => (.ack, if a.wide then s.homeWrite cl a.loc bs else s.cachePut cl a.loc bs)
  | _ =>
    let s := s.writeBackSector cl (a.loc / 32)
    match if a.op = .xrd && s.allHeld core rounded a.loc a.size then none else s.obstacle die cl a.loc a.op.kind false with
    | some e => (.bad e.1 e.2, s)
    | none =>
      let bytes : List Byte := match a.op with
        | .xrd => s.readBytes core rounded a.loc a.size
        | _ => s.homeBytes a.loc a.size
      let (wr, res, pres) := a.apply bytes
      match wr with
      | some bs => (.done res pres, s.homePut a.loc bs)
      | none => (.done res pres, s)

/-- Where a request stands once its access at `va` has been performed. -/
def State.stageOf (s : State) (q : Req) (va : Nat) : Perf → Stage
  | .done r p => .reply (q.done r p)
  | .ack => .ack
  | .bad cls info => .bad (s.mkRec q.org cls info va) { q.done 0#32 false with good := false }

/-- Performs the access of a request and moves it on to its reply. -/
def State.performReq (s : State) (id : Nat) (a : GAcc) : State :=
  match s.req id with
  | none => s
  | some q =>
    let (p, s) := s.perform (coreOf q.org.ctx.region) q.org.rounded a
    s.updReq id fun q => { q with stage := s.stageOf q a.va p }

/-- What a request has still to access, if anything: it waits for its wide release, for its turn, or on a fill. -/
def Stage.toDo? : Stage → Option GAcc
  | .wide _ (.access a) | .held a | .fill a => some a
  | _ => none

/-- A request has still to access the sector of a location, by whatever address (R336). One that waits on a fill has no location yet. -/
def Stage.owes (va loc : Nat) : Stage → Bool
  | .wide _ (.access b) | .held b => b.loc / 32 = loc / 32
  | .fill b => b.va / 32 = va / 32
  | _ => false
/-- Of a context's requests before `id`, one has still to access the sector of a location (R204, R317). -/
def State.ownFirst (s : State) (c : CtxId) (lease id va loc : Nat) : Bool :=
  (s.reqsFrom c lease).any fun x => decide (x.id < id) && x.stage.owes va loc
/-- A request of the same cluster to the same far die, sent before, waits for a link or is about to go on after one: messages from one unit to
another arrive in the order sent (R422, R423). -/
def State.behind (s : State) (q : Req) (loc : Nat) : Bool :=
  dieOf q.org.ctx.region ≠ homeDie loc && s.fab.reqs.any fun x =>
    decide (x.id < q.id) && clusterOf x.org.ctx.region = clusterOf q.org.ctx.region && match x.stage with
      | .held b => homeDie b.loc = homeDie loc && !s.ownFirst x.org.ctx x.org.lease x.id b.va b.loc
      | _ => false
/-- An access waits for its turn: an earlier access of its context to the sector has not been performed (R204, R317), a link on its way
retrains, or another that was sent before it is held for that link (R422, R423). -/
def State.mustWait (s : State) (q : Req) (a : GAcc) : Bool :=
  s.retrains (dieOf q.org.ctx.region) (homeDie a.loc) || s.ownFirst q.org.ctx q.org.lease q.id a.va a.loc || s.behind q a.loc

-- The wait table (R292, R293).

/-- Sets the wait-table counters of a cluster (R311). -/
def wtEvc (cl : Nat) : Nat := clusterPage cl + 0x08
def wtTmo (cl : Nat) : Nat := clusterPage cl + 0x0C
/-- The wait timeout exponent (R311). -/
def State.wtx (s : State) (cl : Nat) : Nat := min 30 (max 12 (s.mmioNat (clusterPage cl) 24 % 32))

/-- The parked WAITA requests of a cluster, in the order they parked. -/
def State.waiting (s : State) (cl : Nat) : List Req :=
  ranked ((s.fab.reqs.filter fun q => clusterOf q.org.ctx.region = cl && match q.stage with
    | .parked (.waita ..) => true
    | _ => false).map fun q => (q.at_, q))

/-- A parked WAITA wakes spuriously, with the word read at the wake (R293); one that a write has woken already keeps that word. -/
def State.wakeNow (s : State) (id : Nat) : State :=
  match s.req id with
  | some q => match q.stage with
    | .parked (.waita a _ (some w)) => s.replyWith id (q.done w (a.cond w))
    | .parked (.waita a _ none) =>
      match s.obstacle (dieOf q.org.ctx.region) 0 a.loc 0 false with
      | some e => s.updReq id fun q => { q with stage := .bad (s.mkRec q.org e.1 e.2 a.va) { q.done 0#32 false with good := false } }
      | none => let w := leWord (s.homeBytes a.loc 4); s.replyWith id (q.done w (a.cond w))
    | _ => s
  | none => s

/-- The test of a WAITA at its home, and its parking (R292, R293). -/
def State.testWaita (s : State) (q : Req) (a : GAcc) : State :=
  let cl := clusterOf q.org.ctx.region
  let s := s.writeBackSector cl (a.loc / 32)
  let toStage (s : State) (st : Stage) : State := s.updReq q.id fun q => { q with stage := st }
  match s.obstacle (dieOf q.org.ctx.region) cl a.loc 0 false with
  | some e => toStage s (s.stageOf q a.va (.bad e.1 e.2))
  | none =>
    let m := leWord (s.homeBytes a.loc 4)
    if a.cond m then toStage s (.reply (q.done m true))
    else
      let s := match s.waiting cl with
        | old :: rest => if 4096 ≤ rest.length + 1 then (s.count (wtEvc cl)).wakeNow old.id else s
        | [] => s
      { s.updReq q.id fun q =>
          { q with parks := true, at_ := s.uid, stage := .parked (.waita a (s.regionClk q.org.ctx.region + 2 ^ s.wtx cl) none) } with
        uid := s.uid + 1 }

/-- The access of a request whose turn has come is performed; of a WAITA, the test is made. -/
def State.actReq (s : State) (id : Nat) (a : GAcc) : State :=
  match s.req id with
  | none => s
  | some q =>
    if s.mustWait q a then s
    else match a.op with
      | .waita _ => s.testWaita q a
      | _ => s.performReq id a

/-- Leaves a request outstanding, and makes its access as soon as its turn comes. -/
def State.performNew (s : State) (q : Req) (a : GAcc) : State := (s.addReq { q with stage := .held a }).actReq q.id a

/-- Commits a firing and issues its access; a wide release waits for the write-back of its cluster first (R290). -/
def View.issue (v : View) (n : Need) (a : GAcc) (s : State) : State :=
  let id := s.uid
  let s := v.commit n true s
  let q := v.req s id a.op.reads (immAcq v.rule.imm) .sent
  if a.wide then (s.addReq { q with stage := .wide s.uid (.access a) }).beginWide [clusterOf v.r] (.req id)
  else s.performNew q a

-- The memory instructions' firings.

/-- The order of a global access (R205). -/
def View.gOrd (v : View) : MemOrd := { acq := immAcq v.rule.imm, rel := immRel v.rule.imm, wide := true }
def gNeed (v : View) : Need := { needOf v.rule with mem := some v.gOrd }

/-- In a rounded context, a read that waits on a fill stays outstanding (R207). -/
def View.waitFill (v : View) (op : GOp) (size : Nat) (x a b : Word) (s : State) : State :=
  let id := s.uid
  let off := x.toNat + immDisp v.rule.imm * size
  let win := immWin v.rule.imm
  let acc : GAcc :=
    { op, va := (v.g.wins.getD win {}).base + off, loc := 0, size, win, off, a, b, wide := immWide v.rule.imm && op.writes }
  let s := v.commit (gNeed v) true s
  s.addReq (v.req s id true (immAcq v.rule.imm) (.fill acc))

/-- A global access other than a prefetch, LD.S or a held store. `x` is the address operand. -/
def fireGlobal (r : Rule) (op : GOp) (size : Nat) (operands : View → Word × Word) (s : State) : State :=
  fireChecked r .s32 gNeed (fun v s => v.checkG s op size v.a (operands v).1 (operands v).2 false)
    (fun v a s => v.issue (gNeed v) a s) (fun v s => v.waitFill op size v.a (operands v).1 (operands v).2 s) s

-- The memory instructions.

/-- A load with no destination is a prefetch (R210). -/
def isPrefetch (r : Rule) : Bool := r.dst = none ∧ r.pdst = none ∧ r.om = 0#8
/-- A prefetch has no effect but its dequeues. -/
def firePrefetch (r : Rule) (s : State) : State := fireThen r .s32 (fun v => needOf v.rule) (fun _ s => s) s

def execLd (sz : Size) (t : Ty) (r : Rule) (s : State) : Result :=
  .next (if isPrefetch r then firePrefetch r s
    else fireGlobal r (.ld t.isSigned) (sizeBytes sz) (fun _ => (0#32, 0#32)) s)

/-- LD.S (R209): every failure answers 0 and false. -/
def execLdS (sz : Size) (t : Ty) (r : Rule) (s : State) : Result :=
  .next (match view s r .s32 with
    | none => s
    | some v =>
      let n : Need := { needOf v.rule with mem := some {} }
      if v.ready n s then
        let (p, t) := v.checkG s (.ldS t.isSigned) (sizeBytes sz) v.a 0#32 0#32 true
        let id := t.uid
        let c := v.commit n true t
        let q := v.req c id true false .sent
        match p with
        | .go a => c.performNew q a
        | .wait => s
        | _ => c.addReq { q with stage := .reply (q.done 0#32 false) }
      else s)

/-- ST (R211): in a rounded context it is held (R182). -/
def execSt (sz : Size) (r : Rule) (s : State) : Result :=
  .next (fireChecked r .s32 (fun v => { gNeed v with bytes := if v.x.isRounded then 16 else 0,
                                                     mem := some (if v.x.isRounded then {} else v.gOrd) })
    (fun v s => v.checkG s .st (sizeBytes sz) v.a 0#32 v.b false)
    (fun v a s =>
      if v.x.isRounded then
        let n : Need := { gNeed v with bytes := 16 }
        (v.commit n false s).hold v 16
          (.st a.loc a.va (natLe a.size v.b.toNat) a.wide)
      else v.issue (gNeed v) a s)
    (fun v s => (v.waitFill .st (sizeBytes sz) v.a 0#32 v.b s).updRegion v.r fun g => g.charge 16) s)

def fireAtom (f : Nat) (t : Ty) (r : Rule) (s : State) : State :=
  fireGlobal r (.atom f t.isSigned) 4 (fun v => (v.b, 0#32)) s
def execAadd (t : Ty) (r : Rule) (s : State) : Result := .next (fireAtom 0 t r s)
def execAmin (t : Ty) (r : Rule) (s : State) : Result := .next (fireAtom 1 t r s)
def execAmax (t : Ty) (r : Rule) (s : State) : Result := .next (fireAtom 2 t r s)
def execAand (t : Ty) (r : Rule) (s : State) : Result := .next (fireAtom 3 t r s)
def execAor (t : Ty) (r : Rule) (s : State) : Result := .next (fireAtom 4 t r s)
def execAxor (t : Ty) (r : Rule) (s : State) : Result := .next (fireAtom 5 t r s)
def execAswap (t : Ty) (r : Rule) (s : State) : Result := .next (fireAtom 6 t r s)
def execAmaxU64 (r : Rule) (s : State) : Result := .next (fireGlobal r .amax64 8 (fun v => (v.b, v.c)) s)
def execAcas (r : Rule) (s : State) : Result := .next (fireGlobal r .acas 4 (fun v => (v.b, v.c)) s)
def execXrd (r : Rule) (s : State) : Result := .next (fireGlobal r .xrd 32 (fun _ => (0#32, 0#32)) s)
def execXrdClr (r : Rule) (s : State) : Result := .next (fireGlobal r .xrdClr 32 (fun _ => (0#32, 0#32)) s)

/-- AXADD.F32 (R214): an addend outside the limits cancels the firing with exact range. -/
def execAxaddF32 (r : Rule) (s : State) : Result :=
  .next (fireChecked r .s32 gNeed
    (fun v s => match v.checkG s .axadd 32 v.a v.b 0#32 false with
      | (.go a, s) => if xsOutside v.b then (.fault 0x13 [] a.va 0#32, s) else (.go a, s)
      | e => e)
    (fun v a s => v.issue (gNeed v) a s) (fun _ s => s) s)

/-- FENCE (R319): in a direct context later memory firings wait while it is outstanding, whatever its ORD; in a rounded one it orders reads as
R205 says. -/
def execFence (r : Rule) (s : State) : Result :=
  .next (fireGo r .z gNeed
    (fun v s =>
      let id := s.uid
      let wide := immWide v.rule.imm && !v.x.isRounded
      let s := v.commit (gNeed v) false s
      let acq := immAcq v.rule.imm
      let s := s.addReq (v.req s id false (acq || !v.x.isRounded) (if wide then .wide s.uid (.fence acq) else .fence acq))
      if wide then s.beginWide [clusterOf v.r] (.req id) else s) s)

-- WAITA (R292, R293).

def execWaita (eq : Bool) (r : Rule) (s : State) : Result :=
  .next (fireChecked r .s32 gNeed (fun v s => v.checkG s (.waita eq) 4 v.a v.b 0#32 false)
    (fun v a s => v.issue (gNeed v) a s) (fun _ s => s) s)

/-- A link retrains on the way to the home of the word that a parked WAITA watches (R423). -/
def State.homeWaits (s : State) (id : Nat) : Bool :=
  (s.req id).any fun q => match q.stage with
    | .parked (.waita a ..) => s.retrains (dieOf q.org.ctx.region) (homeDie a.loc)
    | _ => false

/-- WAITA_WAKE (R293): a write has made the condition hold. The wake comes from the home, and waits for a link that retrains (R423). -/
def execWaitaWake (id : Nat) (s : State) : Result :=
  .next (if s.homeWaits id then s else match s.req id with
    | some q => match q.stage with
      | .parked (.waita _ _ (some w)) => s.replyWith id (q.done w true)
      | _ => s
    | none => s)

/-- WAITA_TIMEOUT (R292). -/
def execWaitaTimeout (id : Nat) (s : State) : Result :=
  .next (match s.req id with
    | some q => match q.stage with
      | .parked (.waita _ t _) =>
        if t ≤ s.regionClk q.org.ctx.region ∧ !s.homeWaits id then (s.count (wtTmo (clusterOf q.org.ctx.region))).wakeNow id else s
      | _ => s
    | none => s)

/-- SPURIOUS_WAKE (R292). -/
def execSpuriousWake (id : Nat) (s : State) : Result := .next (if s.homeWaits id then s else s.wakeNow id)

-- Requests that waited on a fill (R207, R359).

/-- A rounded request issues its access again, as a fresh access. -/
def State.redoReq (s : State) (w : Waiter) (id : Nat) : State :=
  match s.req id with
  | none => s
  | some q => match q.stage with
    | .fill a =>
      let as_ := ((s.gang q.org.gang).map fun g => g.as_).getD 0
      match s.xlate { die := dieOf q.org.ctx.region, core := some (coreOf q.org.ctx.region), as_, va := a.va, r := a.op.reads,
                      w := a.op.writes, gang := q.org.gang } with
      | (.ok loc, s) =>
        if a.op = .st then
          (s.dropReq id).updRegion q.org.ctx.region fun g =>
            g.putEntry { age := id, org := q.org, size := 16, eff := .st loc a.va (natLe a.size a.b.toNat) a.wide }
        else (s.updReq id fun q => { q with stage := .held { a with loc } }).actReq id { a with loc }
      | (.deny d, s) => match (d.pre a.op.kind a.size a.win a.off a.va : Pre Unit) with
        | .fault cls info va word =>
          (s.dropReq id).raise { ctx := q.org.ctx, slot := q.org.slot } true (s.mkRec q.org cls info va word)
        | _ => s
      | (.fill r b, s) => s.rejoin r as_ b w
    | _ => s

/-- The waiter that a request waiting on a fill is. -/
def Req.waiter (q : Req) (a : GAcc) : Waiter := .req q.id a.op.kind a.size.log2 a.win a.off a.va

-- Replies (R38, R47, R193).

/-- Whether an earlier read of the context is outstanding (R205). -/
def State.readsBefore (s : State) (c : CtxId) (id : Nat) : Bool :=
  (s.reqsOf c).any (fun q => q.read && decide (q.id < id)) || s.fab.wbs.any fun w => w.read && w.ctx = c && decide (w.id < id)

/-- Data that is bad, or a failed link, found at the reply (R47, R189, R310, R424). -/
def State.badReply (s : State) (q : Req) (r : Rec) (d : Done) : State :=
  let s := s.dropReq q.id
  if q.org.rounded then s.raise { ctx := q.org.ctx, slot := q.org.slot } true r
  else (s.writeBack q.id q.org.ctx q.dst q.pdst d (s.regionClk q.org.ctx.region)).freezeFor q.org.ctx r

/-- REQUEST_REPLY: a reply or acknowledgement reaches its element; one for a placement that is gone is dropped (R193). An access that
waited for its turn is made, be its region killed since (R179, R194). -/
def execRequestReply (id : Nat) (s : State) : Result :=
  .next (match s.req id with
    | none => s
    | some q =>
      if s.current q.org then
        match q.stage with
        | .reply d => (s.dropReq id).writeBack id q.org.ctx q.dst q.pdst d (s.regionClk q.org.ctx.region)
        | .bad r d => s.badReply q r d
        | .ack => s.dropReq id
        | .fence acq => if acq && s.readsBefore q.org.ctx id then s else s.dropReq id
        | .held a => s.actReq id a
        | .fill a => if s.waits (q.waiter a) then s else s.redoReq (q.waiter a) id
        | _ => s
      else match q.stage with
        | .reply _ | .bad .. | .ack => (s.dropReq id).updRreg q.org.ctx.region fun x => { x with drops := sat32 (x.drops + 1) }
        | .held a => s.actReq id a
        | _ => s)

-- Write-backs and wide releases (R289, R290).

/-- LINE_WRITEBACK (R289). A line across a failed link stays until the failure discards it (R424). -/
def execLineWriteback (cluster line : Nat) (s : State) : Result :=
  .next (if (s.cut (cluster / 4) (homeDie line)).isSome || s.training (cluster / 4) (homeDie line) then s else s.writeBackLine (dirtyKey cluster (line / 128 * 128)))

/-- CCCTL.WB (R311). -/
def execCcctlWb (cluster : Nat) (s : State) : Result := .next (s.beginWide [cluster] .ccctl)

end Sys2Proof.Machine
end

