-- ==== Sys2Proof/Machine/Local.lean ====
section
/-!
DEFINITION. Scratchpad accesses (R219), rings (R167, R184, R220 to R222, R303), generators' blocks and control (R223 to R227), and
the tile store (R228 to R232).
-/

namespace Sys2Proof.Machine

-- Scratchpad.

/-- The physical key of a byte of a region's buffer (R166). -/
def Region.spadKey (g : Region) (buf off : Nat) : Nat :=
  let b := g.bufs.getD buf default
  131072 * g.tmap.lookD b.tile 0 + b.base + off
def Region.bufSize (g : Region) (buf : Nat) : Nat := ((g.bufs[buf]?).map fun b => b.size).getD 0

def State.spadPut (s : State) (key : Nat) (bs : List Byte) : State :=
  { s with store := { s.store with spad := cellsPut s.store.spad key bs } }
/-- The newest value that a core holds for a scratchpad byte (R183). -/
def State.spadHeld (s : State) (core key : Nat) : Option Byte :=
  s.newest core fun h => match h with
    | .spad k bs => byteIn k bs key
    | _ => none
/-- A scratchpad byte as an agent of a core reads it; the round set takes held bytes first (R183). -/
def State.spadByte (s : State) (core : Nat) (rounded : Bool) (key : Nat) : Byte :=
  let plain := cellAt s.store.spad key
  if rounded then (s.spadHeld core key).getD plain else plain
def State.spadBytes (s : State) (core : Nat) (rounded : Bool) (key n : Nat) : List Byte :=
  (List.range n).map fun i => s.spadByte core rounded (key + i)
/-- Whether some bytes touch a scratchpad word that is uncorrectable (R166). -/
def State.spadBad (s : State) (key n : Nat) : Bool :=
  (List.range (n + 7)).any fun i => s.store.badWords.contains (2 * ((key + i) / 8 * 8)) && decide ((key + i) / 8 * 8 < key + n)

/-- A read of some scratchpad bytes takes one of an uncorrectable word from memory; held bytes come in preference to memory (R166, R183). -/
def State.spadReadBad (s : State) (core : Nat) (rounded : Bool) (key n : Nat) : Bool :=
  s.spadBad key n && (!rounded || (List.range n).any fun i => s.spadBad (key + i) 1 && (s.spadHeld core (key + i)).isNone)

/-- The fields of a scratchpad IMM16 (R67). -/
def immBuf (i : BitVec 16) : Nat := i.toNat / 1024
def immOff (i : BitVec 16) : Nat := i.toNat % 1024

/-- The checks of R219: the offset. The limit that a record names is the last byte (log 68). -/
def View.checkS (v : View) (kind size : Nat) : Pre Nat :=
  let n := immBuf v.rule.imm
  let off := v.a.toNat + immOff v.rule.imm * size
  let sz := v.g.bufSize n
  if sz ≤ off + size - 1 then .fault 0x03 (limitInfo kind 1 n off (sz - 1)) 0 0#32
  else if off % size ≠ 0 then .fault 0x04 (accInfo kind size n off 0 0 0) 0 0#32
  else .go off

def memNeed (v : View) : Need := { needOf v.rule with mem := some {} }

/-- A direct or rounded firing that leaves a request which is answered with a result, or with bad data (R47). -/
def View.answer (v : View) (n : Need) (read acq : Bool) (res : Word) (pres : Bool) (bad : Option (List Byte)) (s : State) : State :=
  let id := s.uid
  let q := v.req s id read acq .sent
  let s := v.commit n true s
  let stage : Stage := match bad with
    | none => .reply (q.done res pres)
    | some info => .bad (s.mkRec q.org 0x0B info) { q.done 0#32 false with good := false }
  s.addReq { q with stage }

def execLds (sz : Size) (t : Ty) (r : Rule) (s : State) : Result :=
  .next (fireChecked r .s32 memNeed (fun v s => (v.checkS 0 (sizeBytes sz), s))
    (fun v off s =>
      let key := v.g.spadKey (immBuf v.rule.imm) off
      let w := loadExt t.isSigned (sizeBytes sz) (s.spadBytes (coreOf v.r) v.x.isRounded key (sizeBytes sz))
      v.answer (memNeed v) true false w (w != 0#32) (if s.spadReadBad (coreOf v.r) v.x.isRounded key (sizeBytes sz) then some (badInfo 0 3) else none) s)
    (fun _ s => s) s)

def execSts (sz : Size) (r : Rule) (s : State) : Result :=
  .next (fireChecked r .s32 (fun v => { memNeed v with bytes := if v.x.isRounded then 16 else 0 })
    (fun v s => (v.checkS 1 (sizeBytes sz), s))
    (fun v off s =>
      let key := v.g.spadKey (immBuf v.rule.imm) off
      let bs := natLe (sizeBytes sz) v.b.toNat
      let id := s.uid
      let s := v.commit (memNeed v) false s
      if v.x.isRounded then s.hold v 16 (.spad key bs)
      else (s.spadPut key bs).addReq (v.req s id false false .ack))
    (fun _ s => s) s)

-- Rings.

/-- The number that stands for the region of an instance that is not placed at present. -/
def awayRegion (inst : Nat) : Nat := 1000000 + inst

/-- The region and number of the ring that a region's ring number reaches (R303). -/
def State.ringOf (s : State) (r n : Nat) : Nat × Nat :=
  match s.region r with
  | none => (r, n)
  | some g => match s.gang g.gang with
    | none => (r, n)
    | some x => match (ringBinds x.rcd).find? fun b => b.1 = n with
      | some b =>
        if b.2 = g.inst then (r, n)
        else match s.regions.find? fun e => e.2.gang = g.gang && e.2.inst = b.2 with
          | some e => (e.1, n)
          | none => (awayRegion b.2, n)
      | none => (r, n)

def State.ring (s : State) (r n : Nat) : Option Ring := (s.region r).bind fun g => g.rings[n]?
def State.updRing (s : State) (r n : Nat) (f : Ring → Ring) : State :=
  s.updRegion r fun g => { g with rings := g.rings.mapIdx fun i q => if i = n then f q else q }
/-- The counters that an agent sees: those of a round set, or the outside ones (R184). -/
def Ring.sees (q : Ring) (set : Option Nat) : RView :=
  let plain : RView := { head := q.head, tail := q.tail, committed := q.head }
  match set with
  | some r => q.views.lookD r plain
  | none => plain

/-- A round set keeps counters of its own for every ring that it reaches, from when its region is enabled: as they stand then, they are those of
its last commit (R184). -/
def State.viewRings (s : State) : State :=
  (s.regions.filter fun e => e.2.on && !e.2.roundSet.isEmpty).foldl (fun s e =>
    ((List.range e.2.rings.length).map (s.ringOf e.1)).foldl (fun s x =>
      s.updRing x.1 x.2 fun q => if (q.views.look e.1).isSome then q else { q with views := q.views.put e.1 (q.sees none) }) s) s

/-- The round set of a request: its region, where its context is rounded. -/
def Origin.roundSet (o : Origin) : Option Nat := if o.rounded then some o.ctx.region else none

/-- A ring is full, or empty, to an agent (R167, R184). -/
def Ring.full (q : Ring) (set : Option Nat) : Bool := ((q.sees set).tail - (q.sees set).committed).toNat = q.cap
def Ring.empty (q : Ring) (set : Option Nat) : Bool := (q.sees set).tail = (q.sees set).head

/-- The scratchpad key of an entry (R167). -/
def State.entryKey (s : State) (r : Nat) (q : Ring) (n : Word) : Nat :=
  ((s.region r).map fun g => g.spadKey q.buf (4 * (n.toNat % q.cap))).getD 0

/-- Views that have not pushed follow the outside tail. -/
def Ring.follow (q : Ring) (t : Word) : Tab RView := q.views.map fun e => (e.1, if e.2.tail = q.tail then { e.2 with tail := t } else e.2)

/-- Pushes an entry (R167, R184): the old tail. -/
def State.pushRing (s : State) (set : Option Nat) (r n : Nat) (w : Word) : Word × State :=
  match s.ring r n with
  | none => (0#32, s)
  | some q =>
    let t := (q.sees set).tail
    let s := s.spadPut (s.entryKey r q t) (wordLe w)
    (t, s.updRing r n fun q => match set with
      | none => { q with tail := t + 1#32, views := q.follow (t + 1#32) }
      | some k => { q with views := q.views.put k { q.sees set with tail := t + 1#32 } })
/-- Pops an entry for an agent of a core (R167, R183, R184). -/
def State.popRing (s : State) (core : Nat) (set : Option Nat) (r n : Nat) : Word × Bool × State :=
  match s.ring r n with
  | none => (0#32, false, s)
  | some q =>
    let h := (q.sees set).head
    let key := s.entryKey r q h
    (leWord (s.spadBytes core set.isSome key 4), s.spadReadBad core set.isSome key 4, s.updRing r n fun q => match set with
      | none => { q with head := h + 1#32 }
      | some k => { q with views := q.views.put k { q.sees set with head := h + 1#32 } })

/-- Where a pop's request stands. -/
def State.popStage (s : State) (q : Req) (w : Word) (bad : Bool) : Stage :=
  if bad then .bad (s.mkRec q.org 0x0B (badInfo 0 3)) { q.done 0#32 false with good := false } else .reply (q.done w true)

/-- The reply of a pop. -/
def State.popReply (s : State) (id : Nat) (w : Word) (bad : Bool) : State :=
  s.updReq id fun q => { q with stage := s.popStage q w bad }

/-- Serves a parked request if the ring lets it (R167). -/
def State.serve (s : State) (q : Req) : Option State :=
  match q.stage with
  | .parked (.push r n v) => match s.ring r n with
    | some x =>
      if x.full q.org.roundSet then none
      else
        let (t, s) := s.pushRing q.org.roundSet r n v
        some (s.replyWith q.id (q.done t true))
    | none => none
  | .parked (.pop r n) => match s.ring r n with
    | some x =>
      if x.empty q.org.roundSet then none
      else
        let (w, bad, s) := s.popRing (coreOf q.org.ctx.region) q.org.roundSet r n
        some (s.popReply q.id w bad)
    | none => none
  | _ => none

/-- The parked requests of a ring: writers, or readers, in park order. -/
def State.parkedOn (s : State) (r n : Nat) (push : Bool) : List Req :=
  s.fab.reqs.filter fun q => match q.stage with
    | .parked (.push x m _) => push && x = r && m = n
    | .parked (.pop x m) => !push && x = r && m = n
    | _ => false

/-- Serves the first parked writer, or else the first parked reader, that the ring lets go on (R167). -/
def State.serveRing (s : State) (r n : Nat) : State :=
  match (((s.parkedOn r n true).head?).bind s.serve) with
  | some s => s
  | none => (((s.parkedOn r n false).head?).bind s.serve).getD s

/-- RING_PARKED_SERVE. -/
def execRingParkedServe (region ring : Nat) (s : State) : Result := .next (s.serveRing region ring)

/-- The parked requests of one kind that find a slot are served before a later request (R222). -/
def State.serveAll (r n : Nat) (push : Bool) : Nat → State → State
  | 0, s => s
  | k + 1, s => match ((s.parkedOn r n push).head?).bind s.serve with
    | some t => State.serveAll r n push k t
    | none => s

/-- A ring request that a firing issues (R220 to R222, R382): `block` parks it where it cannot go on. -/
def View.ringReq (v : View) (push block : Bool) (s : State) : State :=
  let (r, n) := s.ringOf v.r v.rule.imm.toNat
  let q := v.req s s.uid (!push) false .sent
  let s := v.commit (memNeed v) true s
  if v.g.brake.isSome then s.addReq { q with stage := .reply (q.done 1#32 false) }
  else
    let s := State.serveAll r n push (s.parkedOn r n push).length s
    let set := q.org.roundSet
    let room := match s.ring r n with
      | some x => if push then !x.full set else !x.empty set
      | none => false
    if (s.parkedOn r n push).isEmpty && room then
      if push then
        let (t, s) := s.pushRing set r n v.a
        s.addReq { q with stage := .reply (if block then q.done t true else q.done 1#32 true) }
      else
        let (w, bad, s) := s.popRing (coreOf v.r) set r n
        s.addReq { q with stage := s.popStage q w bad }
    else if block then
      s.addReq { q with parks := true, stage := .parked (if push then .push r n v.a else .pop r n) }
    else s.addReq { q with stage := .reply (q.done 0#32 false) }

def execRpush (r : Rule) (s : State) : Result := .next (fireGo r .s32 memNeed (fun v s => v.ringReq true true s) s)
def execRpushTry (r : Rule) (s : State) : Result := .next (fireGo r .s32 memNeed (fun v s => v.ringReq true false s) s)
def execRpop (r : Rule) (s : State) : Result := .next (fireGo r .s32 memNeed (fun v s => v.ringReq false true s) s)
def execRpopTry (r : Rule) (s : State) : Result := .next (fireGo r .s32 memNeed (fun v s => v.ringReq false false s) s)

/-- A round set's commit publishes its ring counters (R184, R187). -/
def Ring.publish (q : Ring) (r : Nat) : Ring :=
  match q.views.look r with
  | none => q
  | some v =>
    let head := if v.head = v.committed then q.head else v.head
    let views := (q.follow v.tail).put r { head, tail := v.tail, committed := head }
    { q with head, tail := v.tail, views }

-- Generators (R223 to R227).

/-- The generator that a rule's IMM16 names, as 4 × logical memory tile + number (R168). -/
def View.genOf (v : View) : Nat := 4 * ((nearestMem v.g.wx v.g.wy (v.x.el / 16)).getD 0) + v.rule.imm.toNat % 4

/-- Fields of a parameter block. -/
def gw (p : List Word) (n : Nat) : Nat := (wordAt p n).toNat
def genSrc (p : List Word) : Nat := bitsOf 30 2 (gw p 1)
def genEp (p : List Word) : Nat := bitsOf 24 6 (gw p 1)
def genBase (p : List Word) : Nat := gw p 0 + 2 ^ 32 * bitsOf 0 24 (gw p 1)
def genCnt (p : List Word) (i : Nat) : Nat := gw p (2 + i)
def genStr (p : List Word) (i : Nat) : Int := (wordAt p (6 + i)).toInt
def genTotal (p : List Word) : Nat := genCnt p 0 * genCnt p 1 * genCnt p 2 * genCnt p 3
/-- The logical element, channel and context of the target, and the credits (R223). -/
def genEl (p : List Word) : Nat :=
  16 * (8 * bitsOf 3 4 (gw p 10) + bitsOf 0 3 (gw p 10)) + 4 * bitsOf 9 2 (gw p 10) + bitsOf 7 2 (gw p 10)
def genCh (p : List Word) : Nat := bitsOf 11 2 (gw p 10)
def genKx (p : List Word) : Nat := bitsOf 13 3 (gw p 10)
def genCred (p : List Word) : Nat := bitsOf 16 3 (gw p 10)
def genQuota (p : List Word) : Nat := bitsOf 0 16 (gw p 11)
def genLook (p : List Word) : Nat := bitsOf 0 11 (gw p 12)
def genIdxBase (p : List Word) : Nat := gw p 13 + 2 ^ 32 * bitsOf 0 24 (gw p 14)
def genIsz (p : List Word) : Nat := bitsOf 24 2 (gw p 14)

/-- Whether a parameter block breaks R223 or R224 (R225, status 4). The reserved ISZ of 3 is one only where SRC is 2, whose field it is
(DESIGN CHOICE, log 96). -/
def badBlock (p : List Word) (rounded : Bool) (bound : Nat → Bool) : Bool :=
  let src := genSrc p
  src = 3 || (List.range 4).any (fun i => genCnt p i = 0 || genStr p i % 4 ≠ 0) || 2 ^ 32 ≤ genTotal p ||
  genTotal p ≤ gw p 15 || genBase p % 4 ≠ 0 || (src = 1 && !bound (genEp p)) || bitsOf 24 8 (gw p 10) ≠ 0 ||
  genCred p = 0 || 4 < genCred p || bitsOf 16 16 (gw p 11) ≠ 0 || (rounded && genQuota p = 0) ||
  bitsOf 11 21 (gw p 12) ≠ 0 || 1024 < genLook p || bitsOf 26 6 (gw p 14) ≠ 0 ||
  (src = 2 && (genIsz p = 3 || genIdxBase p % 2 ^ genIsz p ≠ 0 ||
    (List.range 3).any fun i => genCnt p (i + 1) ≠ 1 || genStr p (i + 1) ≠ 0))

/-- The status of AGCTL.start (R225). -/
def View.startCode (v : View) (s : State) (n : Nat) (x : Gen) : Nat :=
  let bound (e : Nat) : Bool := (((s.gang v.g.gang).bind fun g => g.epts[e]?).bind id).isSome
  if x.running then 1
  else if badBlock x.p v.x.isRounded bound then 4
  else
    let el := genEl x.p
    match v.g.ctx el (genKx x.p) with
    | none => 2
    | some t =>
      if !(isCompute (el / 16) && t.en && (t.isDirect || t.isRounded)) then 2
      else if t.isRounded ≠ v.x.isRounded then 5
      else
        let ch := 4 * v.g.phys el + genCh x.p
        let held := ((s.regions.filter fun e => coreOf e.1 = coreOf v.r).map fun e =>
          ((({ e.2 with gens := e.2.gens.filter fun y => !(e.1 = v.r && y.1 = n) } : Region).loads.filter fun l => l.1 = ch).map
            fun l => l.2).sum).sum
        if 4 < held + genCred x.p then 3 else 0

/-- The quota that a round gives a generator (R181); outside the round set QUOTA is ignored (R223). -/
def Gen.grant (x : Gen) : Nat :=
  if x.rounded then min (genQuota x.p) (genTotal x.p - x.pos) else genTotal x.p - x.pos

def State.updGen (s : State) (r n : Nat) (f : Gen → Gen) : State :=
  s.updRegion r fun g => { g with gens := g.gens.alter n {} f }

/-- The generator as the first firing of a round finds it that changes it: a void restores what no commit of the round set has recorded
(R227, log 75). -/
def Round.keepGen (r : Round) (n : Nat) (x : Gen) : Round :=
  { r with shadow := r.shadow.map fun h => if (h.gens.look n).isSome then h else { h with gens := h.gens.put n x } }

/-- The stack whose engine takes an indirect stream: that of index 0, as the tables stand; where index 0 has no home, which stack it is
stays open (R349, log 90). -/
def State.engineOf (s : State) (r : Nat) (g : Region) (p : List Word) : Nat :=
  let open_ := Config.order (2 ^ 64 + s.uid) % 12
  match s.walk (dieOf r) (((s.gang g.gang).map fun x => x.as_).getD 0) (genIdxBase p) with
  | .ok l => ((l.loc (genIdxBase p)).map fun loc => loc / stackBytes).getD open_
  | .error _ => open_
/-- The generators whose running streams an engine holds. -/
def State.streamsOf (s : State) (e : Nat) : Nat :=
  (s.regions.map fun g => (g.2.gens.filter fun x => x.2.running && x.2.eng = some e).length).sum
/-- The engine that an indirect stream claims, if that has a context free. -/
def State.claimEngine (s : State) (r : Nat) (g : Region) (p : List Word) : Option Nat :=
  if genSrc p = 2 ∧ s.streamsOf (s.engineOf r g p) < 128 then some (s.engineOf r g p) else none

/-- A firing on a generator: `f` gives the result, the predicate and the generator after it. -/
def fireGen (r : Rule) (f : View → State → Nat → Gen → Word × Bool × Gen) (s : State) : State :=
  fireGo r .z memNeed (fun v s =>
    let n := v.genOf
    let old := v.g.gens.lookD n {}
    let (res, pres, x) := f v s n old
    let own := s.uid
    let s := (v.commit (memNeed v) true s).updRegion v.r fun g =>
      if v.x.isRounded && x != old then { g with round := g.round.keepGen n old } else g
    let s := s.updGen v.r n fun _ => x
    v.schedule own 2 (v.data2 res pres) v.rule.om s (mem := true)) s

def execAgset (n : BitVec 4) (r : Rule) (s : State) : Result :=
  .next (fireGen r (fun v _ _ x =>
    if x.running then (1#32, false, x)
    else (0#32, true, { x with p := setAt 16 0#32 x.p n.toNat v.a })) s)
/-- A read that is under way as its stream stops or another starts: it stays outstanding. -/
def Gen.outlive (x : Gen) : Gen :=
  { x with fetch := if x.fetch == .reading || x.fetch == .fill then x.fetch else .idle, old := x.fetch == .reading || x.fetch == .fill }
/-- AGCTL.start (R225): an indirect stream claims an engine (R349); under the brake a generator of the round set receives no quota
(R382). -/
def execAgctlStart (r : Rule) (s : State) : Result :=
  .next (fireGen r (fun v s n x =>
    let c := v.startCode s n x
    if c = 0 then
      let y := { x.outlive with
                        pos := gw x.p 15, running := true, faulted := false, rounded := v.x.isRounded, starter := v.f.ctx,
                        slot := v.f.slot, credits := genCred x.p - s.genOut v.r n, eng := s.claimEngine v.r v.g x.p }
      (0#32, true, { y with quota := if y.rounded && v.g.brake.isSome then 0 else y.grant })
    else (BitVec.ofNat 32 c, false, x)) s)
/-- A generator stops, and POS becomes the position given (R225). -/
def Gen.stop (x : Gen) (pos : Nat) : Gen :=
  { x.outlive with running := false, faulted := false, eng := none, pos, p := setAt 16 0#32 x.p 15 (BitVec.ofNat 32 pos) }
def execAgctlStop (r : Rule) (s : State) : Result := .next (fireGen r (fun _ _ _ x => (0#32, true, x.stop x.pos)) s)
def execAgctlRew (r : Rule) (s : State) : Result := .next (fireGen r (fun _ _ _ x => (0#32, true, x.stop 0)) s)
def execAgctlStat (r : Rule) (s : State) : Result :=
  .next (fireGen r (fun _ _ _ x => (BitVec.ofNat 32 x.pos, x.running, x)) s)

-- The tile store (R228 to R232).

/-- The physical key of a tile-store word of a region, by its row within the claim (R171). -/
def Region.rowKey (g : Region) (tile row col : Nat) : Nat :=
  (256 * g.tmap.lookD tile 0 + g.rowBase.lookD tile 0 + row) * 32 + col
def State.tsWord (s : State) (key : Nat) : Word := s.store.tstore.lookD key 0#32
def State.tsPut (s : State) (key : Nat) (w : Word) : State :=
  { s with store := { s.store with tstore := if w = 0#32 then s.store.tstore.drop key else s.store.tstore.put key w } }
def State.tsBad (s : State) (key : Nat) : Bool := s.store.badWords.contains (2 * (key / 2 * 2) + 1)

/-- A sweep beat uses the store of a physical tile in the present cycle: it takes C values, or writes a row (R230, R241). -/
def State.storeBusy (s : State) (phys : Nat) : Bool :=
  s.cores.sweeps.any fun w =>
    let r := w.pkt.org.ctx.region
    (s.region r).any fun g => w.tiles.any fun x =>
      g.tmap.lookD x.tile 0 = phys && (x.last = some (s.regionClk r) || x.rows.any fun e => decide (e.2.1 ≤ s.regionClk r))

/-- A TRD waits a cycle for its tile's store (R230). -/
def State.portWait (s : State) (own key : Nat) : State :=
  { s with fab := { s.fab with wbs := mapIf (fun w => w.id = own) (fun w => { w with due := w.due + 1, port := some key }) s.fab.wbs } }

/-- The row check of R228: row and column. The limit that a record names is the last claimed row (log 68). -/
def View.checkT (v : View) (kind : Nat) : Pre (Nat × Nat) :=
  let a := v.a.toNat
  if v.g.rows ≤ a % 256 ∨ a / 8192 ≠ 0 then .fault 0x03 (limitInfo kind 2 0 a (v.g.rows - 1)) 0 0#32
  else .go (a % 256, bitsOf 8 5 a)

def execTrd (r : Rule) (s : State) : Result :=
  .next (fireChecked r .z memNeed (fun v s => (v.checkT 0, s))
    (fun v a s =>
      let key := v.g.rowKey (v.x.el / 16) a.1 a.2
      let held := if v.x.isRounded then s.newest (coreOf v.r) (fun h => match h with
        | .twr k w => if k = key then some w else none
        | _ => none) else none
      let w := held.getD (s.tsWord key)
      if held.isNone && s.tsBad key then v.answer (memNeed v) true false w true (some (badInfo 0 4)) s
      else
        let own := s.uid
        let t := v.schedule own 3 (v.data w) v.rule.om (v.commit (memNeed v) true s) (mem := true) (read := true)
        if held.isNone && s.storeBusy (key / 8192) then t.portWait own key else t)
    (fun _ s => s) s)

def execTwr (r : Rule) (s : State) : Result :=
  .next (fireChecked r .z (fun v => { memNeed v with bytes := if v.x.isRounded then 16 else 0 }) (fun v s => (v.checkT 1, s))
    (fun v a s =>
      let key := v.g.rowKey (v.x.el / 16) a.1 a.2
      let id := s.uid
      let s := v.commit (memNeed v) false s
      if v.x.isRounded then s.hold v 16 (.twr key v.b)
      else if s.storeBusy (key / 8192) then s.addReq (v.req s id false false (.store key v.b))
      else (s.tsPut key v.b).addReq (v.req s id false false .ack))
    (fun _ s => s) s)

/-- A TRD or TWR that waits for its tile's store in the present cycle, by the name of its firing (R230): the store is free, or it waits
a cycle more. -/
def State.portGo (s : State) (id : Nat) : State :=
  match s.fab.wbs.find? fun w => w.id = id, s.req id with
  | some w, _ => match w.port with
    | none => s
    | some key =>
      if s.storeBusy (key / 8192) then s.portWait id key
      else if s.tsBad key then
        let q : Req := { id, org := s.origin { ctx := w.ctx, slot := w.slot } (((s.ctx w.ctx).map Ctx.isRounded).getD false), dst := w.dst,
                         pdst := w.pdst, om := w.om, colour := w.done.colour, read := true, acq := false, stage := .sent }
        ({ s with fab := { s.fab with wbs := s.fab.wbs.filter fun x => x.id ≠ id } } : State).addReq
          { q with stage := .bad (s.mkRec q.org 0x0B (badInfo 0 4)) { q.done 0#32 false with good := false } }
      else
        let v := s.tsWord key
        let got (x : WB) : WB := { x with port := none, done := { x.done with res := v, pres := v != 0#32 } }
        { s with fab := { s.fab with wbs := mapIf (fun x => x.id = id) got s.fab.wbs } }
  | none, some q => match q.stage with
    | .store key w => if s.storeBusy (key / 8192) then s else (s.tsPut key w).acked id
    | _ => s
  | none, none => s

/-- The accesses that wait for their tiles' stores, in firing order (R204, R230). -/
def State.portsGo (s : State) : State :=
  let ids := (s.fab.wbs.filter fun w => w.port.isSome).map (fun w => w.id) ++
    (s.fab.reqs.filter fun q => match q.stage with
      | .store .. => true
      | _ => false).map fun q => q.id
  (ids.mergeSort fun a b => decide (a ≤ b)).foldl State.portGo s

-- TCPY (R231, R232).

def tcDir (rw : Word) : Bool := bitOf 31 rw.toNat
def tcCount (rw : Word) : Nat := bitsOf 8 9 rw.toNat
def tcRow (rw : Word) : Nat := bitsOf 0 8 rw.toNat
def tcBuf (bw : Word) : Nat := bitsOf 23 6 bw.toNat
def tcOff (bw : Word) : Nat := bitsOf 0 17 bw.toNat

/-- INFO of a malformed-command record found before a commit (R250, R251). -/
def malInfo (opc : Nat) (loc adj : Word) : List Byte :=
  [BitVec.ofNat 8 opc, 0xFF#8, 0xFF#8, 0xFF#8] ++ natLe 4 0 ++ wordLe loc ++ wordLe adj

/-- The checks of R231, with the records of R228 and R219: the row word, or the offset. -/
def View.checkTcpy (v : View) : Pre Unit :=
  let sz := v.g.bufSize (tcBuf v.b)
  let n := tcCount v.a
  if v.g.rows < tcRow v.a + n then .fault 0x03 (limitInfo 6 2 0 v.a.toNat (v.g.rows - 1)) 0 0#32
  else if v.g.bufs.length ≤ tcBuf v.b ∨ sz < tcOff v.b + 128 * n then
    .fault 0x03 (limitInfo 6 1 (tcBuf v.b) (tcOff v.b) (sz - 1)) 0 0#32
  else if bitsOf 17 14 v.a.toNat ≠ 0 ∨ bitsOf 29 3 v.b.toNat ≠ 0 ∨ bitsOf 17 6 v.b.toNat ≠ 0 ∨ n = 0 ∨ 256 < n ∨ tcOff v.b % 16 ≠ 0 then
    .fault 0x0F (malInfo 0x5E v.b 0#32) 0 0#32
  else .go ()

/-- Moves one row of a TCPY, in ascending order up to a word that is uncorrectable; answers its memory code. `into` is DIR; `row` and `buf` are
the keys of the row and of its bytes. -/
def State.tcopyRow (s : State) (into : Bool) (row buf : Nat) : Option Nat × State :=
  (List.range 32).foldl (fun (acc : Option Nat × State) i =>
    match acc with
    | (some c, s) => (some c, s)
    | (none, s) =>
      if into then
        if s.spadBad (buf + 4 * i) 4 then (some 3, s) else (none, s.tsPut (row + i) (leWord (cellsAt s.store.spad (buf + 4 * i) 4)))
      else if s.tsBad (row + i) then (some 4, s) else (none, s.spadPut (buf + 4 * i) (wordLe (s.tsWord (row + i))))) (none, s)

/-- A TCPY moves its next row in a cycle that no sweep beat takes (R232); after the last, or at a word that is uncorrectable, it replies. -/
def State.tcpyGo (s : State) (id : Nat) : State :=
  match s.req id with
  | none => s
  | some q => match q.stage with
    | .tcpy n into left row buf =>
      if s.storeBusy (row / 8192) then s
      else match s.tcopyRow into row buf with
        | (some code, s) => s.updReq id fun q =>
            { q with stage := .bad (s.mkRec q.org 0x0B (badInfo 0 code)) { q.done 0#32 false with good := false } }
        | (none, s) =>
          if left ≤ 1 then s.replyWith id (q.done (BitVec.ofNat 32 n) true)
          else s.updReq id fun q => { q with stage := .tcpy n into (left - 1) (row + 32) (buf + 128) }
    | _ => s

/-- The rows that the TCPYs under way move in a cycle. -/
def State.tcpysGo (s : State) : State :=
  (s.fab.reqs.filter fun q => match q.stage with
    | .tcpy .. => true
    | _ => false).foldl (fun s q => s.tcpyGo q.id) s

def execTcpy (r : Rule) (s : State) : Result :=
  .next (fireChecked r .z
    (fun v => { needOf v.rule with mem := some { rel := !v.x.isRounded }, bytes := if v.x.isRounded then 32 else 0 })
    (fun v s => (v.checkTcpy, s))
    (fun v _ s =>
      if v.x.isRounded then (v.commit (memNeed v) false s).hold v 32 (.tcpy v.a v.b)
      else
        let id := s.uid
        let n := tcCount v.a
        let stage : Stage := .tcpy (128 * n) (tcDir v.a) n (v.g.rowKey (v.x.el / 16) (tcRow v.a) 0) (v.g.spadKey (tcBuf v.b) (tcOff v.b))
        (v.commit (memNeed v) true s).addReq (v.req s id true false stage))
    (fun _ s => s) s)

end Sys2Proof.Machine
end

