-- ==== Sys2Proof/Machine/Command.lean ====
section
/-!
DEFINITION. Engine commands as rules issue them: locator words and their checks (R251), the firing that reads a descriptor and
sends it or holds it (R182, R251, R256), and the acceptance that ends a direct firing's outstanding period (R257).
-/

namespace Sys2Proof.Machine

-- Locator words (R251).

def locBuf (w : Word) : Nat := bitsOf 23 6 w.toNat
def locOff (w : Word) : Nat := bitsOf 0 17 w.toNat
def locBad (w : Word) (align : Nat) : Bool := bitsOf 29 3 w.toNat ≠ 0 || bitsOf 17 6 w.toNat ≠ 0 || locOff w % align ≠ 0

/-- The checks of R251 on a locator that names `size` bytes, and on an adjust word: the scratchpad key of the record. -/
def View.checkLoc (v : View) (opc : Nat) (loc : Word) (size align : Nat) (adj : Word) (adjAlign : Nat) : Pre Nat :=
  let sz := v.g.bufSize (locBuf loc)
  if v.g.bufs.length ≤ locBuf loc ∨ sz < locOff loc + size then
    .fault 0x03 (limitInfo 6 1 (locBuf loc) (locOff loc) (sz - 1)) 0 0#32
  else if locBad loc align ∨ adj.toNat % adjAlign ≠ 0 then .fault 0x0F (malInfo opc loc adj) 0 0#32
  else .go (v.g.spadKey (locBuf loc) (locOff loc))

/-- What a command needs: its order in a direct context, and its entry in a rounded one (R182). -/
def cmdNeed (ord : MemOrd) (v : View) : Need :=
  { needOf v.rule with mem := some (if v.x.isRounded then {} else ord), bytes := if v.x.isRounded then 64 else 0 }

/-- A firing sends a packet in a direct context, and holds it as an entry in a rounded one. -/
def View.sendOrHold (v : View) (n : Need) (p : Packet) (acq : Bool) (send : Packet → State → State) (s : State) : State :=
  if v.x.isRounded then (v.commit n false s).hold v 64 (.cmd p)
  else send p ((v.commit n true s).addReq (v.req s p.req false acq .sent))

/-- The packet of a firing, under the name that its commit takes. -/
def View.packet (v : View) (s : State) (opc fn : Nat) (cmd : List Word) (adj : Word) : Packet :=
  { id := s.uid, opc, fn, org := s.origin v.f v.x.isRounded, req := if v.x.isRounded then 0 else s.uid, cmd, loc := v.a, adj }

/-- A firing that reads a record of `size` bytes and issues it as a command, a release at .core (R326); `extra` words go with it. -/
def fireCommand (r : Rule) (opc fn size align : Nat) (adj : View → Word) (adjAlign : Nat) (extra : View → List Word)
    (send : Packet → State → State) (s : State) : State :=
  fireChecked r .s32 (cmdNeed { rel := true }) (fun v s => (v.checkLoc opc v.a size align (adj v) adjAlign, s))
    (fun v key s =>
      let ws := leWords (size / 4) (s.spadBytes (coreOf v.r) v.x.isRounded key size)
      if s.spadReadBad (coreOf v.r) v.x.isRounded key size then v.answer (cmdNeed { rel := true } v) true false 0#32 false (some (badInfo 0 3)) s
      else v.sendOrHold (cmdNeed { rel := true } v) (v.packet s opc fn (ws ++ extra v) (adj v)) false send s)
    (fun _ s => s) s

/-- A half that waits for the thing named goes on (R187, R257). -/
def Half.done (h : Half) (id : Nat) : Half := if h.wait = some id then { h with wait := none } else h
def State.halfDone (s : State) (id : Nat) : State :=
  { s with regions := s.regions.map fun (e : Nat × Region) =>
      (e.1, { e.2 with round := { e.2.round with h0 := e.2.round.h0.done id, h1 := e.2.round.h1.done id } }) }

/-- A packet has been accepted, performed or dropped: its firing is no longer outstanding, or its drain goes on (R257). -/
def State.opDone (s : State) (id req : Nat) : State := if req = 0 then s.halfDone id else s.dropReq req
def State.packetDone (s : State) (p : Packet) : State := s.opDone p.id p.req
/-- The same for a firing with a result. -/
def State.packetReply (s : State) (p : Packet) (res : Word) (pres : Bool) : State :=
  match s.req p.req with
  | some q => if p.req = 0 then s.halfDone p.id else s.replyWith q.id (q.done res pres)
  | none => s.halfDone p.id

/-- A field of a packet's command. -/
def Packet.f (p : Packet) (off n : Nat) : Nat := fieldAt p.cmd off n
/-- Engine-hold (R394). -/
def State.engHold (s : State) (r : Nat) : Bool := (s.rreg r).rdbg.getLsbD 2

end Sys2Proof.Machine
end

