-- ==== Sys2Proof/Machine/Endpoint.lean ====
section
/-!
DEFINITION. Accesses through endpoints (R433 to R435) and to other packages (R450, R451).
-/

namespace Sys2Proof.Machine

/-- Where an endpoint access goes: the host's memory, by bus address (untranslated addresses stand above 2^64), or a physical
address of another package. -/
inductive EpPlace where
  | host (key : Nat)
  | far (pkg pa : Nat)
  deriving DecidableEq, Repr, Inhabited

/-- Why an endpoint access fails (R434, R451). -/
inductive EpDeny where
  | limit
  | perm
  | ats
  | link (code : Nat)
  deriving DecidableEq, Repr, Inhabited

/-- The endpoint that a gang binds under a number. -/
def State.eptOf (s : State) (gang n : Nat) : Option Ept := ((s.gang gang).bind fun g => g.epts[n]?).bind id

/-- The port on which a die's messages for a package leave (R450), if there is one. -/
def State.routePort (s : State) (d pkg : Nat) : Option Nat :=
  let tab := s.mmioNat (fabPage d + 8) 0 / 1024 * 1024 + 2 ^ 32 * (s.mmioNat (fabPage d + 12) 0 % 2 ^ 20)
  let b := (s.physBytes (tab + pkg) 1).headD 0#8
  if b = 0xFF#8 ∨ pkg = s.mmioNat (fabPage d) 0 % 1024 then none else some b.toNat

/-- What stands in the way of messages to a package (R424, R450, R451): INFO 0x20 of class 0x12. -/
def State.farCut (s : State) (d pkg : Nat) : Option Nat :=
  match s.routePort d pkg with
  | none => some 0xFF
  | some p => match s.pkg.ports[p]? with
    | none => some 0xFF
    | some l => if l.failed then some (0x80 + p) else s.cut d (p / 2)

/-- Obtains a translation of a bus address, or is denied one by the host (R435). -/
def State.atsFor (s : State) (addr : Nat) : Bool × State :=
  if s.pkg.ats.any fun e => e.1 = addr / 4096 then (true, s)
  else
    let (denied, s) := s.choice
    if denied then (false, s)
    else
      let old := if 256 ≤ s.pkg.ats.length then s.pkg.ats.drop 1 else s.pkg.ats
      (true, { s with pkg := { s.pkg with ats := old ++ [(addr / 4096, s.uid)] } })

/-- Checks an access of `n` bytes at offset `off` of an endpoint (R434, R451). -/
def State.epCheck (s : State) (d : Nat) (e : Ept) (off : Int) (n : Nat) (w : Bool) : Except EpDeny EpPlace × State :=
  if off < 0 ∨ (e.len : Int) < off + n then (.error .limit, s)
  else if !(if w then bitOf 2 e.flags else bitOf 1 e.flags) then (.error .perm, s)
  else if s.isRemote d e then
    match s.farCut d (bitsOf 52 10 e.addr) with
    | some c => (.error (.link c), s)
    | none => (.ok (.far (bitsOf 52 10 e.addr) (bitsOf 0 52 e.addr + off.toNat)), s)
  else if bitOf 3 e.flags then
    match s.atsFor (e.addr + off.toNat) with
    | (true, s) => (.ok (.host (2 ^ 64 + e.addr + off.toNat)), s)
    | (false, s) => (.error .ats, s)
  else (.ok (.host (e.addr + off.toNat)), s)

/-- The port that messages for a package leave by, or a die link on their way, retrains: they wait (R423, R449, R450). -/
def State.farWaits (s : State) (d pkg : Nat) : Bool :=
  (s.routePort d pkg).any fun p => ((s.pkg.ports[p]?).map fun l => l.retraining).getD false || s.retrains d (p / 2)
/-- An access through an endpoint waits for a link or port that retrains; which die the host link leaves from is not said, and none of
its accesses waits. -/
def State.epWaits (s : State) (d : Nat) : EpPlace → Bool
  | .far pkg _ => s.farWaits d pkg
  | .host _ => false

/-- The bytes at an endpoint's place (log 10). -/
def State.epRead (s : State) (p : EpPlace) (n : Nat) : List Byte :=
  (List.range n).map fun i => match p with
    | .host k => (Tab.look s.pkg.hostMem (k + i)).getD (Config.hostByte (k + i))
    | .far q a => (s.pkg.farMem.look (2 ^ 52 * q + a + i)).getD (Config.farByte q (a + i))
def State.epWrite (s : State) (p : EpPlace) (bs : List Byte) : State :=
  match p with
  | .host k => { s with pkg := { s.pkg with
      hostMem := (located k bs).foldl (fun (t : Tab Byte) w => t.put w.1 w.2) s.pkg.hostMem,
      out := s.pkg.out ++ [.hostWrite k bs] } }
  | .far q a => { s with pkg := { s.pkg with
      farMem := (located (2 ^ 52 * q + a) bs).foldl (fun t w => t.put w.1 w.2) s.pkg.farMem,
      out := s.pkg.out ++ [.farWrite q a bs] } }

/-- Class and INFO of a denied endpoint access, after the eight bytes that the unit gives (R434). -/
def EpDeny.fault (d : EpDeny) (unit : List Byte) (len : Nat) : Nat × List Byte :=
  match d with
  | .limit => (0x03, unit.take 1 ++ [3#8] ++ unit.drop 2 ++ natLe 4 (len - 1))
  | .perm => (0x02, unit ++ [0xFF#8, 9#8, 0#8])
  | .ats => (0x01, unit ++ [0xFF#8, 8#8, 0#8])
  | .link c => (0x12, [BitVec.ofNat 8 c])

/-- VA of an access to a buffer or endpoint (R271). -/
def spVa (sp sel off : Nat) : Nat := sp * 2 ^ 62 + sel * 2 ^ 56 + off % 2 ^ 56

end Sys2Proof.Machine
end

