-- ==== Sys2Proof/Machine/Engines.lean ====
section
/-!
DEFINITION. The core's engines (R256 to R281): semaphores and stage barriers as rules and the sync unit use them, and the copy
engine with its jobs.
-/

namespace Sys2Proof.Machine

-- Semaphores and barriers (R257, R262, R279, R286).

/-- A direct firing's order .ar at .core. -/
def arOrd : MemOrd := { acq := true, rel := true }

/-- The words of a command of the sync unit, as a held entry: the semaphore or barrier, and the operand. -/
def SyncDo.words : SyncDo → List Word
  | .sig n v => [BitVec.ofNat 32 n, v]
  | .barx n v => [BitVec.ofNat 32 n, v]
  | .bara n => [BitVec.ofNat 32 n]
def SyncDo.opc : SyncDo → Nat
  | .sig .. => 0x54
  | _ => 0x55
def SyncDo.fn : SyncDo → Nat
  | .bara _ => 1
  | _ => 0
/-- The operation that a held entry of the sync unit performs. -/
def Packet.syncDo (p : Packet) : SyncDo :=
  let n := (wordAt p.cmd 0).toNat
  if p.opc = 0x54 then .sig n (wordAt p.cmd 1) else if p.fn = 0 then .barx n (wordAt p.cmd 1) else .bara n

/-- An operation goes to the sync unit, to be performed from cycle `due` on. -/
def State.toSync (s : State) (p : Packet) (due : Nat) : State :=
  { s with cores := { s.cores with syncs := s.cores.syncs ++
      [{ id := p.id, core := coreOf p.org.ctx.region, org := p.org, req := p.req, due, what := p.syncDo }] } }

def fireSync (r : Rule) (what : View → SyncDo) (s : State) : State :=
  fireGo r .s32 (cmdNeed arOrd) (fun v s =>
    let w := what v
    let p := v.packet s w.opc w.fn w.words 0#32
    v.sendOrHold (cmdNeed arOrd v) p true (fun p s => s.toSync p (s.regionClk v.r + 2)) s) s

def immNat (v : View) : Nat := v.rule.imm.toNat

def execSemSig (r : Rule) (s : State) : Result := .next (fireSync r (fun v => .sig (immNat v) v.a) s)
def execBarx (r : Rule) (s : State) : Result := .next (fireSync r (fun v => .barx (immNat v) v.a) s)
def execBara (r : Rule) (s : State) : Result := .next (fireSync r (fun v => .bara (immNat v)) s)

/-- SEM.rd (R262). -/
def execSemRd (r : Rule) (s : State) : Result :=
  .next (fireGo r .z memNeed (fun v s =>
    let m := s.sem (coreOf v.r) (immNat v)
    v.answer (memNeed v) true true m.value (!m.abt) none s) s)

/-- Whether a BARW that waits for `t` returns (R279). -/
def Bar.past (b : Bar) (t : Word) : Bool := b.abt || decide ((b.phase + 65536 - t.toNat % 65536) % 65536 < 32768)

def execBarw (r : Rule) (s : State) : Result :=
  .next (fireGo r .z memNeed (fun v s =>
    let core := coreOf v.r
    let b := s.bar core (immNat v)
    if b.past v.a then v.answer (memNeed v) true true (BitVec.ofNat 32 b.phase) (!b.abt) none s
    else
      let id := s.uid
      (v.commit (memNeed v) true s).addReq (v.req s id true true (.parked (.barw core (immNat v) v.a)) true)) s)

/-- BARW_RETURN (R276). -/
def execBarwReturn (id : Nat) (s : State) : Result :=
  .next (match s.req id with
    | some q => match q.stage with
      | .parked (.barw core n t) =>
        let b := s.bar core n
        if b.past t then s.replyWith id (q.done (BitVec.ofNat 32 b.phase) (!b.abt)) else s
      | _ => s
    | none => s)

/-- SYNC_UNIT_PERFORM (R261, R276, R286). -/
def execSyncUnitPerform (id : Nat) (s : State) : Result :=
  .next (match s.cores.syncs.find? fun o => o.id = id with
    | none => s
    | some o =>
      if o.due ≤ s.clk (dieOfCore o.core) then
        let s := { s with cores := { s.cores with syncs := s.cores.syncs.filter fun x => x.id ≠ id } }
        let s := match o.what with
          | .sig n v => s.semAdd o.core n v
          | .barx n v => s.barEvent o.org o.core n (.announce v.toNat)
          | .bara n => s.barEvent o.org o.core n .arrive
        s.opDone id o.req
      else s)

/-- SBCFG_WRITE (R280): a 1 in ABT clears it; EXP is set, ARR and PEND are zeroed. -/
def State.writeSbcfg (s : State) (core bar : Nat) (v : Word) : State :=
  s.updBar core bar fun b => { b with exp := v.toNat % 65536, arr := 0, pend := 0, abt := b.abt && !bitOf 31 v.toNat }
def execSbcfgWrite (core bar : Nat) (v : Word) (s : State) : Result := .next (s.writeSbcfg core bar v)

-- Cards (R263 to R265).

/-- COPY (R269): the card, with the two adjusts after it. Of a core's packets the first 16 stand in the inbox, and the others wait for room
(R257). -/
def sendCopy (p : Packet) (s : State) : State :=
  { s with cores := { s.cores with copyIn := s.cores.copyIn.alter (coreOf p.org.ctx.region) [] fun l => l ++ [p] } }
def execCopy (r : Rule) (s : State) : Result :=
  .next (fireCommand r 0x53 0 64 64 (fun _ => 0#32) 64 (fun v => [v.b, v.c]) sendCopy s)

/-- One side of a card: its space (0 virtual, 1 buffer, 2 endpoint), selector, adjusted address and strides. -/
structure CSide where
  sp : Nat
  sel : Nat
  addr : Int
  str1 : Int
  str2 : Int
  str3 : Int
  deriving DecidableEq, Repr, Inhabited

def Packet.side (p : Packet) (dst : Bool) : CSide :=
  let a := p.f (if dst then 0x10 else 0x08) 8
  let st (i : Nat) : Int := (wordAt p.cmd ((if dst then 12 else 9) + i)).toInt
  { sp := a / 2 ^ 62, sel := bitsOf 56 6 a, addr := (a % 2 ^ 56 : Int) + (wordAt p.cmd (if dst then 17 else 16)).toInt,
    str1 := st 0, str2 := st 1, str3 := st 2 }
def Packet.cnt0 (p : Packet) : Nat := p.f 0x18 4
def Packet.cnt1 (p : Packet) : Nat := p.f 0x1C 2
def Packet.cnt2 (p : Packet) : Nat := p.f 0x1E 2
def Packet.cnt3 (p : Packet) : Nat := p.f 0x20 2
def Packet.barc (p : Packet) : Nat := p.f 0x22 2
def Packet.total (p : Packet) : Nat := p.cnt0 * p.cnt1 * p.cnt2 * p.cnt3

/-- The address of byte position `n` of a side (R264). -/
def Packet.at_ (p : Packet) (c : CSide) (n : Nat) : Int :=
  let j := n % p.cnt0
  let q := n / p.cnt0
  c.addr + (q % p.cnt1 : Nat) * c.str1 + (q / p.cnt1 % p.cnt2 : Nat) * c.str2 + (q / (p.cnt1 * p.cnt2) : Nat) * c.str3 + j
/-- The least and greatest byte that a side reaches (R265). -/
def Packet.least (p : Packet) (c : CSide) : Int :=
  c.addr + min 0 (((p.cnt1 : Int) - 1) * c.str1) + min 0 (((p.cnt2 : Int) - 1) * c.str2) + min 0 (((p.cnt3 : Int) - 1) * c.str3)
def Packet.greatest (p : Packet) (c : CSide) : Int :=
  c.addr + max 0 (((p.cnt1 : Int) - 1) * c.str1) + max 0 (((p.cnt2 : Int) - 1) * c.str2) + max 0 (((p.cnt3 : Int) - 1) * c.str3) +
    p.cnt0 - 1

/-- The space of a side as overlaps see it: two sides lie in one space when their keys are equal, and the last part makes buffer offsets
physical. An address space is the same on every die (R339). -/
def State.spaceOf (s : State) (org : Origin) (home : List Nat) (c : CSide) : Nat × Nat × Nat × Int :=
  match c.sp with
  | 0 => (0, 0, ((s.gang org.gang).map fun g => g.as_).getD 0, 0)
  | 1 => (1, 0, 0, (home.getD c.sel 0 : Nat))
  | _ => (2, org.gang, c.sel, 0)

/-- The scratchpad keys of a region's buffers. -/
def Region.homes (g : Region) : List Nat := (List.range g.bufs.length).map fun i => g.spadKey i 0

/-- Two sides of jobs overlap (R265). -/
def State.sidesMeet (s : State) (p : Packet) (hp : List Nat) (c : CSide) (q : Packet) (hq : List Nat) (d : CSide) : Bool :=
  let (a1, a2, a3, da) := s.spaceOf p.org hp c
  let (b1, b2, b3, db) := s.spaceOf q.org hq d
  a1 = b1 && a2 = b2 && a3 = b3 &&
    decide (p.least c + da ≤ q.greatest d + db ∧ q.least d + db ≤ p.greatest c + da)

/-- A card has an extent of zero: its sides reach no byte, and no interval is checked. -/
def Packet.noBytes (p : Packet) : Bool := p.total = 0

/-- What is wrong with one side of a card, at its field: class and, for a window limit, INFO 0x21 and the limit. -/
def State.badSide (s : State) (g : Region) (p : Packet) (c : CSide) : Option (Nat × Nat × Nat) :=
  let out (n : Nat) : Bool := !p.noBytes && decide (p.least c < 0 ∨ (n : Int) ≤ p.greatest c)
  if c.sp = 3 ∨ (c.sp = 0 ∧ c.sel ≠ 0) ∨ c.addr % 4 ≠ 0 then some (0x0F, 0, 0)
  else if c.sp = 1 then
    match g.bufs[c.sel]? with
    | none => some (0x0F, 0, 0)
    | some b => if out b.size then some (0x03, 1, b.size - 1) else none
  else if c.sp = 2 then
    match s.eptOf p.org.gang c.sel with
    | none => some (0x0F, 0, 0)
    | some e => if out e.len then some (0x03, 3, e.len - 1) else none
  else if out (2 ^ 56) then some (0x0F, 0, 0)
  else none

/-- The read and the write region of a card overlap, which fails at SRC (R269, R271); a side that is malformed has no region. -/
def State.overlaps (s : State) (g : Region) (p : Packet) : Bool :=
  !p.noBytes && (s.badSide g p (p.side true)).isNone && s.sidesMeet p g.homes (p.side false) p g.homes (p.side true)

/-- The first failing field of a card (R269): its offset, and the class with INFO 0x21 and the limit. -/
def State.badCard (s : State) (g : Region) (p : Packet) : Option (Nat × Nat × Nat × Nat) :=
  let mal (o : Nat) : Option (Nat × Nat × Nat × Nat) := some (o, 0x0F, 0, 0)
  let str (o : Nat) : Bool := p.f o 4 % 4 ≠ 0
  let big (n : Nat) : Bool := decide (2 ^ 40 < n)
  match badHeader p.cmd with
  | some o => mal o
  | none => match s.badSide g p (p.side false) with
    | some e => some (0x08, e)
    | none =>
      if s.overlaps g p then some (0x08, 0x11, 0, 0)
      else if (p.side true).sp = 2 ∧ (p.side false).sp = 2 then mal 0x10
      else match s.badSide g p (p.side true) with
        | some e => some (0x10, e)
        | none =>
          if p.cnt0 = 0 ∨ p.cnt0 % 4 ≠ 0 then mal 0x18
          else if p.cnt1 = 0 || big (p.cnt0 * p.cnt1) then mal 0x1C
          else if p.cnt2 = 0 || big (p.cnt0 * p.cnt1 * p.cnt2) then mal 0x1E
          else if p.cnt3 = 0 || big p.total then mal 0x20
          else if (if bitOf 15 p.barc then bitsOf 7 8 p.barc ≠ 0 ∨ 96 ≤ p.barc % 128 else p.barc ≠ 0) then mal 0x22
          else match [0x24, 0x28, 0x2C, 0x30, 0x34, 0x38].find? str with
            | some o => mal o
            | none =>
              if p.f 0x3C 4 ≠ 0 then mal 0x3C else none

-- Acceptance (R266, R267).

/-- The jobs of a core. -/
def State.jobsOf (s : State) (core : Nat) : List Job := s.cores.jobs.filter fun j => j.core = core

/-- A card is dropped (R259, R269, R271). -/
def State.dropCard (s : State) (p : Packet) (e : Nat × Nat × Nat × Nat) : State :=
  let c := p.side (e.1 = 0x10)
  let info := if e.2.1 = 0x03 then
      [6#8, BitVec.ofNat 8 e.2.2.1, BitVec.ofNat 8 (if c.sp = 1 then c.sel else 0), 0#8] ++ wordLe (BitVec.ofInt 32 (p.greatest c)) ++ natLe 4 e.2.2.2
    else [0x53#8, BitVec.ofNat 8 e.1, 0xFF#8, 0xFF#8] ++ natLe 4 0 ++ wordLe p.loc
  let va := if e.2.1 = 0x03 then spVa c.sp c.sel ((p.greatest c) % 2 ^ 56).toNat else 0
  ((s.abortSignal p.org p.cmd).engineFault p.org (s.mkRec p.org e.2.1 info va 0xFFFFFFFF#32)).packetReply p 0xFFFFFFFF#32 false

/-- Accepts a card into a slot, with its edges. -/
def State.takeCard (s : State) (core slot : Nat) (g : Region) (p : Packet) : State :=
  let serial := s.cores.jobSerial.lookD core 0
  let home := g.homes
  let edges := (s.jobsOf core).filterMap fun i =>
    let meet (a b : Bool) : Bool := s.sidesMeet i.pkt i.home (i.pkt.side a) p home (p.side b)
    if meet true false || meet false true || meet true true then some (i.slot, i.serial, meet true false) else none
  let j : Job := { core, slot, serial, pkt := p, home, edges }
  let s := { s with cores := { s.cores with jobs := s.cores.jobs ++ [j],
                                            jobSerial := s.cores.jobSerial.put core ((serial + 1) % 65536) } }
  s.packetReply p j.tag true

/-- The buffers that a packet's card may name: those of the placement that sent it, while it stands. -/
def State.bufsOf (s : State) (o : Origin) : Region :=
  match s.region o.ctx.region with
  | some g => if g.lease = o.lease then g else default
  | none => default

/-- COPY_PACKET_ACCEPT: the packet at the head of the inbox (R267, R269). No lease is checked: a packet that is sent stands (R256). -/
def execCopyPacketAccept (core : Nat) (s : State) : Result :=
  .next (match s.cores.copyIn.lookD core [] with
    | [] => s
    | p :: rest =>
      let t := { s with cores := { s.cores with copyIn := s.cores.copyIn.put core rest } }
      let g := s.bufsOf p.org
      match s.badCard g p with
      | some e => t.dropCard p e
      | none => match (List.range 96).find? fun n => (s.jobsOf core).all fun j => j.slot ≠ n with
        | some n => t.takeCard core n g p
        | none => s)

-- Start and end of jobs (R258, R259, R266, R267, R272).

def State.job (s : State) (core slot : Nat) : Option Job := s.cores.jobs.find? fun j => j.core = core && j.slot = slot

/-- A job leaves its slot. -/
def State.freeJob (s : State) (j : Job) : State :=
  { s with cores := { s.cores with jobs := s.cores.jobs.filter fun x => !(x.core = j.core && x.slot = j.slot) } }
/-- Whether a waiting job's wait, edges and holds let it start (R267, R274, R394). -/
def State.startable (s : State) (j : Job) : Bool :=
  j.st = .waiting && s.waitOf j.pkt = .met && j.edges.isEmpty && !(s.current j.pkt.org && s.engHold j.pkt.org.ctx.region) &&
    match s.region j.pkt.org.ctx.region with
    | some g => g.lease ≠ j.pkt.org.lease || g.brake.isNone
    | none => true

/-- COPY_JOB_START (R258, R267). -/
def execCopyJobStart (core slot : Nat) (s : State) : Result :=
  .next (match s.job core slot with
    | none => s
    | some j =>
      if j.st = .waiting ∧ s.waitOf j.pkt = .aborted then s.updJob core slot fun j => { j with st := .aborting }
      else
        let running := ((s.jobsOf core).filter fun x => x.st = .running).length
        let first := ((s.jobsOf core).find? s.startable).map fun x => x.slot
        if first = some slot ∧ running < 32 then s.updJob core slot fun j => { j with st := .running, begun := true } else s)

-- Chunks (R268, R270, R273).

def chunkBytes : Nat := 262144
def Job.chunks (j : Job) : Nat := (j.pkt.total + chunkBytes - 1) / chunkBytes
/-- The byte positions of the words of a chunk. -/
def Job.words (j : Job) (c : Nat) : List Nat :=
  (List.range ((min chunkBytes (j.pkt.total - c * chunkBytes)) / 4)).map fun i => c * chunkBytes + 4 * i

/-- Where a word of a job lies once its access has passed its checks. -/
inductive CPlace where
  | mem (loc : Nat)
  | spad (key : Nat)
  | ept (p : EpPlace)
  deriving DecidableEq, Repr, Inhabited

/-- What the check of an access of a job finds. -/
inductive CRes where
  | ok (p : CPlace)
  | fault (cls : Nat) (info : List Byte) (va : Nat)
  | fill (r : Range) (blk va : Nat)
  /-- A link or port on its way retrains (R423). -/
  | wait
  deriving Repr, Inhabited

/-- The first eight bytes of INFO of a job's records (R271). -/
def Job.info (c : Nat) : List Byte := [6#8, 5#8, 0xFF#8, 0#8] ++ natLe 4 c

/-- Checks one word's access (R270, R434, R423, R424). -/
def State.checkWord (s : State) (j : Job) (c : Nat) (d : CSide) (a : Int) (w : Bool) : CRes × State :=
  let die := dieOfCore j.core
  let bad (code va : Nat) : CRes := .fault 0x0B ([6#8, BitVec.ofNat 8 code, 0#8, 0#8] ++ natLe 4 c) va
  match d.sp with
  | 0 =>
    let va := a.toNat
    let q : Ask := { die, core := some j.core, as_ := ((s.gang j.pkt.org.gang).map fun g => g.as_).getD 0, va, r := !w, w,
                     gang := j.pkt.org.gang }
    match s.xlate q with
    | (.ok loc, s) => match s.cut die (homeDie loc) with
      | some l => (.fault 0x12 [BitVec.ofNat 8 l] va, s)
      | none => match if w then none else s.readError (clusterOfCore j.core) loc with
        | some code => (bad code va, s)
        | none => (if s.retrains die (homeDie loc) then .wait else .ok (.mem loc), s)
    | (.deny (.fault cls l cause), s) => (.fault cls (Job.info c ++ [BitVec.ofNat 8 l, BitVec.ofNat 8 cause, 0#8]) va, s)
    | (.deny (.bad code), s) => (bad code va, s)
    | (.deny (.link l), s) => (.fault 0x12 [BitVec.ofNat 8 l] va, s)
    | (.deny .wait, s) => (.wait, s)
    | (.fill r b, s) => (.fill r b va, s)
  | 1 =>
    let key := j.home.getD d.sel 0 + a.toNat
    if !w && s.spadBad key 4 then (bad 3 (spVa 1 d.sel a.toNat), s) else (.ok (.spad key), s)
  | _ => match s.eptOf j.pkt.org.gang d.sel with
    | none => (.fault 0x0F [] 0, s)
    | some e => match s.epCheck die e a 4 w with
      | (.ok p, s) => (if s.epWaits die p then .wait else .ok (.ept p), s)
      | (.error x, s) =>
        let (cls, info) := x.fault (Job.info c) e.len
        (.fault cls info (spVa 2 d.sel a.toNat), s)

def State.readPlace (s : State) (core : Nat) : CPlace → List Byte
  | .mem loc => s.readBytes core false loc 4
  | .spad key => cellsAt s.store.spad key 4
  | .ept p => s.epRead p 4
def State.writePlace (s : State) (core : Nat) (bs : List Byte) : CPlace → State
  | .mem loc => s.cachePut (clusterOfCore core) loc bs
  | .spad key => s.spadPut key bs
  | .ept p => s.epWrite p bs

/-- A word of a chunk that has been checked: its position, the word, and where it goes. -/
abbrev CWord := Nat × List Byte × CPlace

/-- Checks the words of a chunk in turn and reads those that pass; the first failure of a word is kept, and every block that is
not FULL. -/
def State.chunkGo (s : State) (j : Job) (c : Nat) : List Nat → List CWord × List CRes × State
  | [] => ([], [], s)
  | n :: rest =>
    let src := j.pkt.side false
    let dst := j.pkt.side true
    let (a, s) := s.checkWord j c src (j.pkt.at_ src n) false
    let (b, s) := s.checkWord j c dst (j.pkt.at_ dst n) true
    let (ws, es, s) := s.chunkGo j c rest
    match a, b with
    | .ok x, .ok y => ((n, s.readPlace j.core x, y) :: ws, es, s)
    | .ok _, e => (ws, e :: es, s)
    | e, _ => (ws, e :: es, s)

/-- Writes checked words; of values that map onto one word, which is kept is open (R264, log 12). -/
def State.putWords (s : State) (j : Job) (ws : List CWord) : State :=
  let many := decide (1 < j.pkt.cnt1 * j.pkt.cnt2 * j.pkt.cnt3)
  let dst := j.pkt.side true
  let key := j.serial * 65536 + j.slot + 2 ^ 32 * j.core
  ws.foldl (fun s w =>
    if many && (List.range (w.1 / 4)).any (fun i => j.pkt.at_ dst (4 * i) = j.pkt.at_ dst w.1) && !Config.lastWriter key w.1 then s
    else s.writePlace j.core w.2.1 w.2.2) s

/-- Some of the checked words of a chunk are written, others not (R270, R272, log 9). -/
def State.putSome (s : State) (j : Job) (ws : List CWord) : State :=
  let k := s.free
  { s with free := s.free + 1 }.putWords j (ws.filter fun w => Config.wordWritten k w.1)

/-- The job completes: its signal follows the last credit (R268); an arrival at a barrier follows every credit of the cycle (R276). -/
def State.jobEnd (s : State) (j : Job) : State :=
  let s := (s.freeJob j).resolveEdges j false
  if hdrSE j.pkt.cmd && hdrSbar j.pkt.cmd then { s with agenda := s.agenda ++ [.signal j.pkt.org j.pkt.cmd j.tag] }
  else s.signal j.pkt.org j.pkt.cmd j.tag

/-- An access of the chunk waits for a link or port. -/
def CRes.waits : CRes → Bool
  | .wait => true
  | _ => false

/-- A word goes to another package. -/
def CPlace.isFar : CPlace → Bool
  | .ept (.far _ _) => true
  | _ => false

/-- A chunk of a job completes: its bytes are credited, and the next follows, or the job ends (R268). -/
def State.chunkDone (s : State) (j : Job) : State :=
  let c := j.chunk
  let s := if bitOf 15 j.pkt.barc then
      s.barEvent j.pkt.org j.core (j.pkt.barc % 128) (.credit (4 * (j.words c).length)) j.tag
    else s
  if c + 1 = j.chunks then s.jobEnd j else s.updJob j.core j.slot fun x => { x with chunk := c + 1, acked := false }

/-- Another package acknowledges all the writes of a job's chunk (R451). -/
def State.farAck (s : State) (core slot serial chunk : Nat) : State :=
  match s.job core slot with
  | some j =>
    if j.acks && j.serial = serial && j.chunk = chunk then s.updJob core slot fun x => { x with acks := false, acked := true } else s
  | none => s

/-- A chunk is attempted: it completes, faults, or waits on fills (R268, R270), or is left until the links on its way are up (R423);
one that has written to another package completes when that has acknowledged it (R451). -/
def State.runChunk (s₀ : State) (j : Job) : State :=
  let c := j.chunk
  let order := rotated (Config.order s₀.free) (j.words c)
  let (ws, es, s) := ({ s₀ with free := s₀.free + 1 } : State).chunkGo j c order
  if es.any CRes.waits then s₀ else
  let as_ := ((s.gang j.pkt.org.gang).map fun g => g.as_).getD 0
  match es with
  | [] =>
    let s := s.putWords j (ws.mergeSort fun a b => decide (a.1 ≤ b.1))
    if ws.any fun w => w.2.2.isFar then s.updJob j.core j.slot fun x => { x with acks := true } else s.chunkDone j
  | .fault cls info va :: _ => (s.putSome j ws).jobFault j cls info va
  | .ok _ :: _ | .wait :: _ => s
  | .fill r b va :: _ =>
    let w : Waiter := .job j.core j.slot j.serial va
    match s.joinFault r as_ b j.pkt.org.gang with
    | some f => s.ownFillFault r b w f
    | none => (s.updJob j.core j.slot fun x => { x with fill := true }).joinFill r as_ b w

/-- CHUNK_COMPLETE: the next chunk of a running job. -/
def execChunkComplete (core slot : Nat) (s : State) : Result :=
  .next (match s.job core slot with
    | none => s
    | some j => if j.st = .running && j.fault.isNone && !j.fill && !j.acks then (if j.acked then s.chunkDone j else s.runChunk j) else s)

/-- COPY_JOB_PAUSE (R270, R271). -/
def execCopyJobPause (core slot : Nat) (s : State) : Result :=
  .next (match s.job core slot with
    | none => s
    | some j => match j.st, j.fault with
      | .running, some r =>
        (s.updJob core slot fun j => { j with st := .paused, fault := none, begun := false }).engineFault j.pkt.org r
      | _, _ => s)

/-- CJCTL_ABORT (R272, R281). -/
def State.cjctl (s : State) (core slot : Nat) : State :=
  if slot < 96 then s.updJob core slot fun j => { j with st := .aborting } else s
def execCjctlAbort (core slot : Nat) (s : State) : Result := .next (s.cjctl core slot)

/-- What an aborted job had issued is performed or not, word by word, in up to `n` chunks from `c` on; a chunk follows only where every
access of the one before it passes its checks (R268, R272). -/
def State.abortChunks (s : State) (j : Job) (c : Nat) : Nat → State
  | 0 => s
  | n + 1 =>
    let (ws, es, s) := s.chunkGo j c (j.words c)
    let s := s.putSome j ws
    if es.isEmpty then s.abortChunks j (c + 1) n else s

/-- COPY_ABORT_FREE (R272): once what the job has written to another package is acknowledged. -/
def execCopyAbortFree (core slot : Nat) (s : State) : Result :=
  .next (match s.job core slot with
    | none => s
    | some j =>
      if j.st = .aborting && !j.acks then
        let c := j.chunk + if j.acked then 1 else 0
        let s := if j.begun then s.abortChunks j c (min 4 (j.chunks - c)) else s
        let s := s.unwait fun w => match w with
          | .job c n x _ => c = core && n = slot && x = j.serial
          | _ => false
        ((s.freeJob j).resolveEdges j true).abortSignal j.pkt.org j.pkt.cmd
      else s)

end Sys2Proof.Machine
end

