-- ==== Sys2Proof/Machine/Queues.lean ====
section
/-!
DEFINITION. The queue forms QRSV, QPUT, QCAN and QPOP (R305 to R310), queue registers' events (R309, R312), and the host's queue
apertures (R431).
-/

namespace Sys2Proof.Machine

-- What the queue unit does with a request.

def Park.queue : Park → Option (Nat × Nat)
  | .qrsv d q | .qpop d q _ | .qput d q _ | .qtick d q _ _ | .qcan d q _ => some (d, q)
  | _ => none
/-- Waits for room, or for an item, among the parked requests of one kind (R305). -/
def Park.kind : Park → Nat
  | .qrsv .. | .qput .. => 1
  | .qpop .. => 2
  | _ => 0
def Park.opc : Park → Nat
  | .qrsv .. => 0x56
  | .qpop .. => 0x58
  | _ => 0x57
def Park.ticket : Park → Word
  | .qtick _ _ t _ | .qcan _ _ t => t
  | _ => 0#32
/-- The slot that a request works on. -/
def Park.slot (h : HQueue) : Park → Word
  | .qpop .. => h.head
  | .qtick _ _ t _ | .qcan _ _ t => t
  | _ => h.res
/-- The dies that the request's way goes on to from its queue. -/
def Park.homes (p : Park) (h : HQueue) : List Nat := if h.en then h.slotDies (p.slot h) else []

/-- Queue misuse (R310). -/
def misuseRec (s : State) (org : Origin) (opc q reason : Nat) (t : Word) : Rec :=
  s.mkRec org 0x0C ([BitVec.ofNat 8 opc, BitVec.ofNat 8 reason] ++ natLe 2 q ++ wordLe t) 0 t
def State.misuse (s : State) (id : Nat) (p : Park) (q reason : Nat) : State :=
  s.updReq id fun x =>
    let stage : Stage := .bad (misuseRec s x.org p.opc q reason p.ticket) { x.done 0#32 false with good := false }
    { x with stage }

/-- Whether a context holds a ticket (R306, R310). -/
def HQueue.holds (q : HQueue) (t : Word) (h : Holder) : Bool := q.held.any fun e => e.1 = t && e.2 = h

/-- Serves a request at its queue; none where it must wait (R305, R308 to R310, R423, R424). -/
def State.serveQueue (s : State) (id : Nat) (p : Park) : Option State :=
  match s.req id, p.queue with
  | some x, some (d, n) =>
    let reply (s : State) (w : Word) (ok : Bool) : State := s.replyWith id (x.done w ok)
    let fail (s : State) (r : Rec) : State := s.updReq id fun q =>
      let stage : Stage := .bad r { q.done 0#32 false with good := false }
      { q with stage }
    let h := s.hq d n
    let die := dieOf x.org.ctx.region
    let own (s : State) (t : Word) : State := s.ownSlot (clusterOf x.org.ctx.region) h t
    if s.queueWaits die d (p.homes h) then none
    else if let some l := s.queueCut die d (p.homes h) then some (fail s (s.mkRec x.org 0x12 [BitVec.ofNat 8 l]))
    else if !h.en then some (s.misuse id p n 0)
    else match p with
      | .qrsv .. =>
        if h.closed then some (reply s 0#32 false)
        else if h.full then none
        else
          let (t, s) := (own s h.res).reserveSlot d n (some (s.holder x.org.ctx))
          some (reply s t true)
      | .qput _ _ item =>
        if h.closed then some (s.misuse id p n 2)
        else if h.full then none
        else
          let (t, s) := (own s h.res).reserveSlot d n none
          some ((s.commitSlot d n t item).dropReq id)
      | .qtick _ _ t item =>
        if h.holds t (s.holder x.org.ctx) then some (((own s t).commitSlot d n t item).dropReq id) else some (s.misuse id p n 1)
      | .qcan _ _ t =>
        if h.holds t (s.holder x.org.ctx) then some (((own s t).voidSlot d n t).dropReq id) else some (s.misuse id p n 1)
      | .qpop _ _ loc =>
        let s := State.skipVoid d n h.cap s
        let h := s.hq d n
        if h.head = h.res then (if h.closed then some (reply s 0#32 false) else none)
        else if s.slotState h h.head = 2 then
          let s := own s h.head
          let item := s.physBytes (h.itemPa h.head) h.isize
          let bad := (locOf false (h.itemPa h.head)).bind fun l => s.marked l h.isize
          let s := (s.setSlot h h.head 0).updHq d n fun y => { y with head := y.head + 1#32 }
          let s := State.skipVoid d n h.cap s
          match bad with
          | some e => some (fail s (s.mkRec x.org 0x0B (badInfo 0 e.2)))
          | none =>
            let key := ((s.region x.org.ctx.region).map fun g => g.spadKey (locBuf loc) (locOff loc)).getD 0
            some (reply (s.spadPut key item) (leWord item) true)
        else none
      | _ => none
  | _, _ => none

/-- The queue of a held QPUT: the launch's die, and the number. -/
def State.drainQueue (s : State) (p : Packet) : Nat × Nat :=
  (((s.gang p.org.gang).map fun g => g.die).getD (dieOf p.org.ctx.region), p.adj.toNat)

/-- The combined QPUT of a drain at its queue: the item goes in, or it is dropped for misuse or a failed link; none where the queue or a
retraining makes it wait (R308, R310, R423, R424). -/
def State.drainQput (s : State) (p : Packet) : Option State :=
  let (d, n) := s.drainQueue p
  let h := s.hq d n
  let item := (p.cmd.map wordLe).flatten
  let drop (reason : Nat) : State := s.engineFault p.org (misuseRec s p.org 0x57 n reason 0#32)
  let die := dieOf p.org.ctx.region
  let homes := if h.en then h.slotDies h.res else []
  if h.clearing || s.queueWaits die d homes then none
  else if let some l := s.queueCut die d homes then some (s.engineFault p.org (s.mkRec p.org 0x12 [BitVec.ofNat 8 l]))
  else if !h.en then some (drop 0)
  else if h.closed then some (drop 2)
  else if h.full then none
  else
    let (t, s) := (s.ownSlot (clusterOf p.org.ctx.region) h h.res).reserveSlot d n none
    some (s.commitSlot d n t item)

/-- What waits at a queue: a request, the combined QPUT of a drain, or a write of the host. -/
inductive Queuer where
  | req (id : Nat) (p : Park)
  | drain (p : Packet)
  | host (bytes : List Byte)
  deriving DecidableEq, Repr, Inhabited

/-- What is parked at a queue, of one kind, in park order: requests, and for room the QPUTs of drains. -/
def State.queueParked (s : State) (d n kind : Nat) : List Queuer :=
  ranked ((s.fab.reqs.filterMap fun q => match q.stage with
    | .parked p => if p.queue = some (d, n) ∧ p.kind = kind then some (q.at_, .req q.id p) else none
    | _ => none) ++ (if kind = 1 then (s.hq d n).drains.filterMap fun e => if e.2.1 then some (e.1, .drain e.2.2) else none else []))

/-- Serves one that is parked, if the queue lets it go on; a drain that waited on it goes on too. -/
def State.serveQueuer (s : State) (d n : Nat) : Queuer → Option State
  | .req id p => s.serveQueue id p
  | .drain p => (s.drainQput p).map fun t =>
      (t.updHq d n fun x => { x with drains := x.drains.filter fun e => e.2.2.id ≠ p.id }).packetDone p
  | .host _ => none

/-- Serves parked requests of one kind in park order, as far as the queue lets them go on. -/
def State.servePark (d n kind : Nat) : Nat → State → State
  | 0, s => s
  | k + 1, s => match ((s.queueParked d n kind).head?).bind (s.serveQueuer d n) with
    | some s => State.servePark d n kind k s
    | none => s
/-- All of one kind that can go on. -/
def State.serveKind (s : State) (d n kind : Nat) : State := State.servePark d n kind (s.queueParked d n kind).length s

/-- A number for an arrival or a parking; a request that has its arrival's keeps it. -/
def State.numbered (s : State) (id : Nat) (f : Req → Req) : State :=
  let n := s.uid
  { s.updReq id fun q =>
      let at_ := match q.stage with
        | .queueClear _ => q.at_
        | _ => n
      { f q with at_ } with uid := n + 1 }

/-- A request goes to its queue: it waits out a clear or a retraining on its way, is served after the parked ones, or parks (R305, R312,
R423). -/
def State.toQueue (s : State) (id : Nat) (p : Park) : State :=
  match p.queue with
  | none => s
  | some (d, n) =>
    let src := ((s.req id).map fun q => dieOf q.org.ctx.region).getD d
    if (s.hq d n).clearing || s.queueWaits src d (p.homes (s.hq d n)) then
      s.numbered id fun q => { q with stage := .queueClear p, parks := q.parks || p.kind ≠ 0 }
    else
      let s := if p.kind = 0 then s else s.serveKind d n p.kind
      match if p.kind ≠ 0 ∧ !(s.queueParked d n p.kind).isEmpty ∧ (s.hq d n).en then none else s.serveQueue id p with
      | some s => s
      | none => { s.updReq id fun q => { q with parks := true, stage := .parked p, at_ := s.uid } with uid := s.uid + 1 }

/-- The combined QPUT of a drain goes to its queue, with the number of an earlier arrival if it has one: whether it waits there, and the state.
It keeps its place as a request does (R305, R308, R312). -/
def State.drainArrives (s : State) (at_ : Option Nat) (p : Packet) : Bool × State :=
  let (d, n) := s.drainQueue p
  let h := s.hq d n
  let wait (s : State) (at_ : Nat) (parked : Bool) : Bool × State :=
    (true, { s.updHq d n fun x => { x with drains := x.drains ++ [(at_, parked, p)] } with uid := s.uid + 1 })
  if h.clearing || s.queueWaits (dieOf p.org.ctx.region) d (if h.en then h.slotDies h.res else []) then wait s (at_.getD s.uid) false
  else
    let s := s.serveKind d n 1
    match if !(s.queueParked d n 1).isEmpty ∧ (s.hq d n).en then none else s.drainQput p with
    | some s => (false, s)
    | none => wait s s.uid true

/-- The host's write reaches its queue, with the number of its arrival: it waits out a clear or a link that retrains (R312, R423), puts one
item in, or is dropped and counted; so is one whose way a failed link crosses (R424, R431, log 86). -/
def State.takePosted (s : State) (d n at_ : Nat) (bytes : List Byte) : State :=
  let h := s.hq d n
  let homes := if h.en then h.slotDies h.res else []
  if h.clearing || s.queueWaits 0 d homes then s.updHq d n fun x => { x with posted := x.posted ++ [(at_, bytes)] }
  else
    let s := s.serveKind d n 1
    let h := s.hq d n
    if !h.en || h.closed || h.full || (s.queueCut 0 d homes).isSome then s.count 0x64
    else
      let (t, s) := s.reserveSlot d n none
      s.commitSlot d n t bytes

/-- What waits before a queue, in arrival order with its numbers: requests, QPUTs of drains, and the host's writes (R312). -/
def State.queueArrivals (s : State) (d n : Nat) : List (Nat × Queuer) :=
  let reqs : List (Nat × Queuer) := s.fab.reqs.filterMap fun q => match q.stage with
    | .queueClear p => if p.queue = some (d, n) then some (q.at_, .req q.id p) else none
    | _ => none
  let h := s.hq d n
  let writes : List (Nat × Queuer) := h.posted.map fun e => (e.1, .host e.2)
  let drains : List (Nat × Queuer) := h.drains.filterMap fun e => if e.2.1 then none else some (e.1, .drain e.2.2)
  ranked ((reqs ++ writes ++ drains).map fun e => (e.1, e))
/-- They are served, as far as the links let them. -/
def State.serveArrivals (s : State) (d n : Nat) : State :=
  (s.queueArrivals d n).foldl (fun s e => match e.2 with
    | .req id p => s.toQueue id p
    | .drain p =>
      let (waits, s) := s.drainArrives (some e.1) p
      if waits then s else s.packetDone p
    | .host bytes => s.takePosted d n e.1 bytes)
    (s.updHq d n fun x => { x with posted := [], drains := x.drains.filter fun e => e.2.1 })

/-- QUEUE_PARKED_SERVE: the first parked reservation, or else the first parked pop, that can go on; or else what has come to the queue
since its clear ended or a link was trained. -/
def execQueueParkedServe (die q : Nat) (s : State) : Result :=
  .next (match ((s.queueParked die q 1).head?).bind (s.serveQueuer die q) with
    | some s => s
    | none => match ((s.queueParked die q 2).head?).bind (s.serveQueuer die q) with
      | some s => s
      | none => if (s.hq die q).clearing then s else s.serveArrivals die q)

-- The queue forms (R308).

/-- The die of a launch's queues (R304). -/
def View.queueDie (v : View) (s : State) : Nat := ((s.gang v.g.gang).map fun g => g.die).getD (dieOf v.r)
def View.queueNo (v : View) : Nat := v.rule.imm.toNat % 4096

def execQrsv (r : Rule) (s : State) : Result :=
  .next (fireGo r .z memNeed (fun v s =>
    let id := s.uid
    ((v.commit (memNeed v) true s).addReq (v.req s id true false .sent)).toQueue id (.qrsv (v.queueDie s) v.queueNo)) s)
def execQcan (r : Rule) (s : State) : Result :=
  .next (fireGo r .z memNeed (fun v s =>
    let id := s.uid
    ((v.commit (memNeed v) true s).addReq (v.req s id false false .sent)).toQueue id (.qcan (v.queueDie s) v.queueNo v.a)) s)

def execQpop (r : Rule) (s : State) : Result :=
  .next (fireChecked r .z memNeed (fun v s => (v.checkLoc 0x58 v.a 64 16 0#32 1, s))
    (fun v _ s =>
      let id := s.uid
      ((v.commit (memNeed v) true s).addReq (v.req s id true true .sent)).toQueue id (.qpop (v.queueDie s) v.queueNo v.a))
    (fun _ s => s) s)

/-- QPUT: a release at .pkg (R290, R308); in a rounded context the item is held. -/
def execQput (r : Rule) (s : State) : Result :=
  .next (fireChecked r .z (cmdNeed { rel := true }) (fun v s => (v.checkLoc 0x57 v.b 64 16 0#32 1, s))
    (fun v key s =>
      let n := cmdNeed { rel := true } v
      let item := s.spadBytes (coreOf v.r) v.x.isRounded key 64
      let size := (s.hq (v.queueDie s) v.queueNo).isize
      if s.spadReadBad (coreOf v.r) v.x.isRounded key size then v.answer n true false 0#32 false (some (badInfo 0 3)) s
      else if v.x.isRounded then
        (v.commit n false s).hold v 64 (.cmd { v.packet s 0x57 0 (leWords 16 item) (BitVec.ofNat 32 v.queueNo) with loc := v.b })
      else
        let id := s.uid
        let d := v.queueDie s
        let p : Park := if v.rule.a = .zero then .qput d v.queueNo item else .qtick d v.queueNo v.a item
        let s := v.commit n true s
        (s.addReq (v.req s id false false (.wide s.uid (.queue p)))).beginWide [clusterOf v.r] (.req id))
    (fun _ s => s) s)

-- Registers' events (R309, R312).

/-- Bits of QCFG that a write keeps. -/
def qcfgMask (v : Word) : Word := v &&& 0xF000001F#32
/-- Bits of a QCFG that is enabled, but for CLOSED, which stays. -/
def qcfgKeep (old v : Word) : Word := (old &&& 0xB000001F#32) ||| (v &&& 0x40000000#32)

/-- QCFG_ENABLE: a write that sets EN. -/
def State.enableQueue (s : State) (die q : Nat) (v : Word) : State :=
  s.updHq die q fun x => { x with cfg := qcfgMask v, res := 0#32, head := 0#32, held := [], clearing := true }
def execQcfgEnable (die q : Nat) (v : Word) (s : State) : Result :=
  .next (if (s.hq die q).en || !bitOf 31 v.toNat then s else s.enableQueue die q v)

/-- QUEUE_CLEAR_DONE: every slot state is free, and what the clear has held is served in arrival order (R312). The clear waits for a link on its
way that retrains (R423). -/
def execQueueClearDone (die q : Nat) (s : State) : Result :=
  .next (
    let h := s.hq die q
    let at_ := h.base + h.cap * h.isize
    let n := (h.cap + 3) / 4
    let homes := (((List.range n).filterMap fun i => locOf false (at_ + i)).map homeDie).dedup
    if h.clearing && !(homes.any (s.retrains die)) then
      let s := s.physPutFrom die at_ (List.replicate n 0#8)
      let s := s.updHq die q fun x => { x with clearing := false }
      s.serveArrivals die q
    else s)

/-- QCFG_CLOSE: parked reservations, and the parked pops of an empty queue, return (R309). -/
def State.closeQueue (s : State) (die q : Nat) : State :=
  let s := s.updHq die q fun x => { x with cfg := x.cfg ||| 0x40000000#32 }
  (s.serveKind die q 1).serveKind die q 2
def execQcfgClose (die q : Nat) (v : Word) (s : State) : Result :=
  .next (if bitOf 30 v.toNat && (s.hq die q).en && bitOf 31 v.toNat then s.closeQueue die q else s)

-- Apertures (R431).

/-- APERTURE_WRITE. Parked reservations that the queue has room for go first (R305). -/
def execApertureWrite (off : Nat) (bytes : List Byte) (s : State) : Result :=
  .next (
    let d := off / 0x40000
    let n := off % 0x40000 / 64
    let h := s.hq d n
    if off % 64 ≠ 0 || bytes.length ≠ h.isize || !h.en || 4 ≤ d then s.count 0x64
    else s.bump.takePosted d n s.uid bytes)

/-- APERTURE_READ. -/
def execApertureRead (off : Nat) (s : State) : Result :=
  .next (
    let h := s.hq (off / 0x40000) (off % 0x40000 / 64)
    let v := if off % 64 = 0 then h.res - h.head else 0#32
    { s with pkg := { s.pkg with out := s.pkg.out ++ [.aperture v] } })

end Sys2Proof.Machine
end

