-- ==== Sys2Proof/Machine/Pfill.lean ====
section
/-!
DEFINITION. PFILL (R366 to R369), the fill directory's events (R354, R362, R365), page walks and TLB invalidation (R343 to R348).
-/

namespace Sys2Proof.Machine

-- PFILL.

/-- The status of a PDONE or PFAIL of a gang (R367). -/
def State.fillStatus (s : State) (gang : Nat) : Nat :=
  match (s.gang gang).bind fun g => g.fill with
  | none => 1
  | some _ => if (s.fillOfGang gang).isSome then 0 else 2

/-- PDONE is performed: its status, and the fill's end (R367). -/
def State.pdone (s : State) (gang : Nat) : Nat × State :=
  match s.fillOfGang gang with
  | some f => (0, s.fillDone f)
  | none => (s.fillStatus gang, s)
/-- PFAIL is performed (R368). -/
def State.pfail (s : State) (gang : Nat) (code : Word) : Nat × State :=
  match s.fillOfGang gang with
  | some f => (0, s.cancelFill (fillKey f) 0xF0 8 code)
  | none => (s.fillStatus gang, s)

/-- Replies to a request with a status. -/
def State.statusReply (s : State) (id n : Nat) : State :=
  match s.req id with
  | some q => s.replyWith id (q.done (BitVec.ofNat 32 n) (n = 0))
  | none => s

/-- PDONE: a release at the range's SCOPE, which is .die or wider (R350, R367). -/
def execPdone (r : Rule) (s : State) : Result :=
  .next (fireGo r .z (cmdNeed { rel := true }) (fun v s =>
    let n := cmdNeed { rel := true } v
    if v.x.isRounded then (v.commit n false s).hold v 64 (.cmd (v.packet s 0x5A 0 [] 0#32))
    else
      let id := s.uid
      let gang := v.g.gang
      let s := v.commit n true s
      let s := s.addReq (v.req s id true false .sent)
      if s.fillStatus gang = 0 then
        (s.updReq id fun q => { q with stage := .wide s.uid .pdone }).beginWide [clusterOf v.r] (.req id)
      else s.statusReply id (s.fillStatus gang)) s)

/-- PFAIL (R368). -/
def execPfail (r : Rule) (s : State) : Result :=
  .next (fireGo r .s32 (cmdNeed {}) (fun v s =>
    let n := cmdNeed {} v
    if v.x.isRounded then (v.commit n false s).hold v 64 (.cmd (v.packet s 0x5A 1 [v.a] 0#32))
    else
      let id := s.uid
      let s := v.commit n true s
      let (st, s) := (s.addReq (v.req s id true false .sent)).pfail v.g.gang v.a
      s.statusReply id st) s)

/-- What PSTAT answers (R369). -/
def State.pstat (s : State) (die as_ rng blk : Nat) : Word × Bool :=
  match s.aspace die as_ with
  | none => (0xFFFFFFFF#32, false)
  | some a =>
    let r := s.rangeAt a.rtab rng
    if a.nrng ≤ rng ∨ r.bad ∨ r.nb ≤ blk then (0xFFFFFFFF#32, false)
    else
      let st := s.blockState r blk
      (BitVec.ofNat 32 (st + if s.blockRef r blk then 4 else 0), st = 2)
/-- What stands in the way of a PSTAT's reads of the address space's entry, of the descriptor, and of the block's state and reference bit
(R337, R423, R424). -/
def State.pstatDeny (s : State) (die as_ rng blk : Nat) : Option Deny :=
  (s.physDeny die (s.astBase die + 32 * as_) 32).or (match s.aspace die as_ with
    | none => none
    | some a =>
      if a.nrng ≤ rng then none
      else (s.physDeny die (a.rtab + 64 * rng) 64).or
        (let r := s.rangeAt a.rtab rng
         if r.bad ∨ r.nb ≤ blk then none else (s.blockDeny die r blk).or (s.refDeny die r blk)))
def execPstat (r : Rule) (s : State) : Result :=
  .next (fireGo r .s32 memNeed (fun v s =>
    let as_ := ((s.gang v.g.gang).map fun g => g.as_).getD 0
    let (w, ok) := s.pstat (dieOf v.r) as_ v.a.toNat v.b.toNat
    match s.pstatDeny (dieOf v.r) as_ v.a.toNat v.b.toNat with
    | some .wait => s
    | some (.link l) =>
      let q := v.req s s.uid true false .sent
      let bad : Stage := .bad (s.mkRec q.org 0x12 [BitVec.ofNat 8 l]) { q.done 0#32 false with good := false }
      (v.commit (memNeed v) true s).addReq { q with stage := bad }
    | some (.bad code) => v.answer (memNeed v) true false 0#32 false (some (badInfo 0 code)) s
    | _ => v.answer (memNeed v) true false w ok none s) s)

-- The fill directory.

/-- FILL_SLOT_GRANT: the first request of the slot queue that may take a slot, or whose block is FILLING by now (R354). -/
def execFillSlotGrant (die : Nat) (s : State) : Result :=
  .next (
    let ready (q : SlotWait) : Bool :=
      q.die = die && ((s.slotFree die q.depth && !s.dieWaits die) || s.blockState (s.rangeNo die q.as_ q.rng) q.blk ≠ 0)
    match s.dies.slotQ.find? ready with
    | none => s
    | some q =>
      let (a, b) := s.dies.slotQ.span fun x => !ready x
      let rest := a ++ b.drop 1
      -- Later requests for the block stay behind it.
      let behind (x : SlotWait) : Bool := x.die = die && x.as_ = q.as_ && x.rng = q.rng && x.blk = q.blk
      let s := { s with dies := { s.dies with slotQ := rest.filter fun x => !behind x } }
      let s := s.rejoin (s.rangeNo die q.as_ q.rng) q.as_ q.blk q.w
      { s with dies := { s.dies with slotQ :=
        (rest.filter fun x => behind x || s.dies.slotQ.contains x) ++ s.dies.slotQ.filter fun x => !rest.contains x } })

/-- FILL_TIMEOUT (R362, R370). -/
def execFillTimeout (die slot : Nat) (s : State) : Result :=
  .next (match s.dies.fills.find? fun f => f.die = die && f.slot = slot && !f.cancelled with
    | some f => if f.since + 2 ^ f.timeout ≤ s.clk die then s.cancelFill (fillKey f) 0xF3 8 0#32 else s
    | none => s)

/-- EVICTION_END (R365). -/
def execEvictionEnd (id : Nat) (s : State) : Result :=
  .next (match s.dies.evicts.find? fun e => e.id = id with
    | some e => if s.blockHeld (s.rangeNo e.die e.as_ e.rng) e.as_ e.blk then s else s.evictDone e
    | none => s)

-- Walks and invalidation.

/-- PAGE_WALK_END: a walk that finds a leaf puts it into the core's TLB; what it denies, the access that needed it raises (R343 to
R346). One that a link keeps waiting has not ended (R423). -/
def execPageWalkEnd (core as_ va : Nat) (s : State) : Result :=
  .next (
    let die := dieOfCore core
    let t := s.walked die as_ va
    match s.walk die as_ va with
    | .ok l => t.fillTlb core as_ (((s.aspace die as_).map fun a => a.asid).getD 0) l
    | .error .wait => s
    | .error _ => t)

/-- Registers of an invalidation (R370). -/
def tivalo (d : Nat) : Nat := memPage d + 0x10
def ticnt (d : Nat) : Nat := memPage d + 0x18
def tictl (d : Nat) : Nat := memPage d + 0x1C
/-- Invalidations completed (TISTAT.DONE). -/
def tidone (d : Nat) : Nat := memPage d + 0x24

/-- Whether an invalidation covers a TLB entry (R347, R370). -/
def State.covers (s : State) (d : Nat) (e : TlbEntry) : Bool :=
  let c := s.mmioNat (tictl d) 0
  let va := s.mmioNat (tivalo d) 0 / 2 ^ 18 * 2 ^ 18 + 2 ^ 32 * (s.mmioNat (tivalo d + 4) 0 % 2 ^ 24)
  let n := s.mmioNat (ticnt d) 0
  let type := bitsOf 28 2 c
  type = 0 || (e.asid = c % 4096 && (type = 1 || n = 0 || decide (e.va < va + n * 2 ^ 18 ∧ va < e.va + e.size)))

/-- Whether an entry that an invalidation covers may have translated an address in [lo, hi] of an address space: one that a TLB still holds,
or one of the pages named. -/
def State.staleAt (s : State) (d as_ : Nat) (lo hi : Int) : Bool :=
  let c := s.mmioNat (tictl d) 0
  let va : Nat := s.mmioNat (tivalo d) 0 / 2 ^ 18 * 2 ^ 18 + 2 ^ 32 * (s.mmioNat (tivalo d + 4) 0 % 2 ^ 24)
  let n := s.mmioNat (ticnt d) 0
  let type := bitsOf 28 2 c
  type = 0 || (((s.aspace d as_).any fun a => a.asid = c % 4096) && (type = 1 || n = 0 || decide (lo < ((va + n * 2 ^ 18 : Nat) : Int) ∧ (va : Int) ≤ hi))) ||
    s.cores.tlb.any fun e => s.covers d e && e.as_ = as_ && decide (lo < ((e.va + e.size : Nat) : Int) ∧ (e.va : Int) ≤ hi)

/-- The access of a request that has been translated and not been performed. -/
def Req.translated (q : Req) : Option GAcc :=
  match q.stage with
  | .held a | .wide _ (.access a) | .parked (.waita a _ _) => some a
  | _ => none
def State.asOf (s : State) (gang : Nat) : Nat := ((s.gang gang).map fun g => g.as_).getD 0
def State.staleReq (s : State) (d : Nat) (q : Req) : Bool :=
  q.translated.any fun a => s.staleAt d (s.asOf q.org.gang) a.va ((a.va + a.size - 1 : Nat) : Int)
/-- A half of a store buffer holds a store that a covered entry may have translated. -/
def State.staleHalf (s : State) (d : Nat) (g : Region) (h : Nat) : Bool :=
  (if h = 0 then g.round.h0 else g.round.h1).entries.any fun e => match e.eff with
    | .st _ va bytes _ => s.staleAt d (s.asOf g.gang) va ((va + bytes.length - 1 : Nat) : Int)
    | _ => false
/-- A running job reads or writes where a covered entry may have translated. -/
def State.staleJob (s : State) (d : Nat) (j : Job) : Bool :=
  (j.st = .running || j.st = .aborting) && [false, true].any fun b =>
    let c := j.pkt.side b
    c.sp = 0 && s.staleAt d (s.asOf j.pkt.org.gang) (j.pkt.least c) (j.pkt.greatest c)

/-- TIGO: covered entries of every TLB are used no more, nor what the walkers have cached; what used them is waited for (R348). -/
def State.invalidate (s : State) (die : Nat) : State :=
  let rounds := s.regions.flatMap fun e =>
    ((e.2.round.drain ++ if e.2.round.isOpen then [e.2.round.n % 2] else []).filter (s.staleHalf die e.2)).map fun h => (e.1, h)
  let jobs := (s.cores.jobs.filter (s.staleJob die)).map fun j => (j.core, j.slot, j.serial, j.chunk)
  let w : Inval := { reqs := (s.fab.reqs.filter (s.staleReq die)).map fun q => q.id, rounds, jobs }
  { s with cores := { s.cores with tlb := s.cores.tlb.filter fun e => !s.covers die e },
           dies := { s.dies with inval := s.dies.inval.put die w, walks := [] } }
/-- A write of TIGO while an invalidation is in progress is ignored. -/
def State.writeTigo (s : State) (die : Nat) (v : Word) : State :=
  if !v.getLsbD 0 || (s.dies.inval.look die).isSome then s else s.invalidate die
def execTigo (die : Nat) (v : Word) (s : State) : Result := .next (s.writeTigo die v)

/-- INVALIDATION_DONE: BUSY clears once all that R348 waits for has ended. -/
def execInvalidationDone (die : Nat) (s : State) : Result :=
  .next (match s.dies.inval.look die with
    | none => s
    | some w =>
      let half (r h : Nat) : Bool := match s.region r with
        | some g => g.round.drain.contains h || (g.round.isOpen && g.round.n % 2 = h)
        | none => false
      if (w.reqs.any fun i => (s.req i).any fun q => q.translated.isSome) || (w.rounds.any fun e => half e.1 e.2) ||
          (w.jobs.any fun e => (s.cores.jobs.any fun j => (j.core, j.slot, j.serial, j.chunk) = e && j.st ≠ .paused)) then s
      else
        ({ s with dies := { s.dies with inval := s.dies.inval.drop die } } : State).setMmio (tidone die)
          (BitVec.ofNat 32 ((s.mmioNat (tidone die) 0 + 1) % 65536)))

end Sys2Proof.Machine
end

