-- ==== Sys2Proof/Machine/Streams.lean ====
section
/-!
DEFINITION. What generators do by themselves: the addresses of their tokens, the read of the due token, and its delivery (R224, R226,
R282, R349).
-/

namespace Sys2Proof.Machine

-- Addresses (R224).

/-- A(i) of an affine stream. -/
def genAddr (p : List Word) (i : Nat) : Int :=
  let c (n : Nat) : Nat := genCnt p n
  (genBase p : Int) + (i % c 0 : Nat) * genStr p 0 + (i / c 0 % c 1 : Nat) * genStr p 1 +
    (i / (c 0 * c 1) % c 2 : Nat) * genStr p 2 + (i / (c 0 * c 1 * c 2) : Nat) * genStr p 3

/-- The token of a generator is due (R282): running, quota unspent, a credit held, its round open; not under the brake (R382), nor
while its checkpoint tokens wait (R389). -/
def Region.genDue (g : Region) (r n : Nat) (x : Gen) : Bool :=
  g.on && !g.dead && !g.stepping && !g.stepHeld && x.running && decide (0 < x.quota) && decide (0 < x.credits) && g.brake.isNone &&
    (!x.rounded || (g.round.isOpen && !g.round.held)) && (g.ckpt.all fun e => e.1 != .gen r n)

-- The read of a token.

/-- What the read of a token finds. -/
inductive GRead where
  | word (w : Word)
  | fault (cls : Nat) (info : List Byte) (va : Nat)
  /-- `idx` says that an index was read. -/
  | fill (r : Range) (blk va : Nat) (idx : Bool)
  /-- A link retrains on the way: the read goes on later (R423). -/
  | wait
  deriving Repr, Inhabited

/-- The first eight bytes of INFO of a generator's record (R283). -/
def genInfo (what pos : Nat) : List Byte := [4#8, BitVec.ofNat 8 what, 0xFF#8, 0#8] ++ natLe 4 pos
/-- What reads for a generator: the memory tile's generator itself, with its micro-TLB, or the engine of a stack, which reads homes
(R346, R349). -/
structure GReader where
  die : Nat
  tlb : Nat
  home : Bool
  deriving DecidableEq, Repr, Inhabited
def Region.reader (g : Region) (r n : Nat) (x : Gen) : GReader :=
  if genSrc x.p = 2 then
    { die := x.eng.getD 0 / 3, tlb := engineTlb (x.eng.getD 0), home := true }
  else { die := dieOf r, tlb := microTlb (g.tmap.lookD (n / 4) 0) (n % 4), home := false }

/-- Reads `n` bytes of virtual memory for a generator; `idx` says that they are an index. -/
def State.genBytes (s : State) (r : Nat) (g : Region) (k : GReader) (pos : Nat) (a : Int) (n : Nat) (idx : Bool) :
    Except GRead (List Byte) × State :=
  let i : Nat := if idx then 1 else 0
  let plain (b : List Byte) : List Byte := b ++ [0#8, 0#8, BitVec.ofNat 8 i]
  let fault (cls level cause va : Nat) : GRead :=
    .fault cls (genInfo n.log2 pos ++ [BitVec.ofNat 8 level, BitVec.ofNat 8 cause, BitVec.ofNat 8 i]) va
  if a < 0 ∨ (2 ^ 56 : Int) < a + n then (.error (fault 0x01 0xFF 1 (a % 2 ^ 64).toNat), s)
  else
    let va := a.toNat
    let q : Ask := { die := k.die, core := some k.tlb, as_ := ((s.gang g.gang).map fun x => x.as_).getD 0, va, r := true, gang := g.gang }
    match s.xlate q with
    | (.deny (.fault c l cause), s) => (.error (fault c l cause va), s)
    | (.deny (.bad code), s) => (.error (.fault 0x0B (plain (genInfo code pos)) va), s)
    | (.deny (.link l), s) => (.error (.fault 0x12 (plain (genLink l pos)) va), s)
    | (.deny .wait, s) => (.error .wait, s)
    | (.fill rg b, s) => (.error (.fill rg b va idx), s)
    | (.ok loc, s) =>
      if s.retrains k.die (homeDie loc) || s.retrains (dieOf r) k.die then (.error .wait, s)
      else match (s.cut k.die (homeDie loc)).or (s.cut (dieOf r) k.die) with
        | some l => (.error (.fault 0x12 (plain (genLink l pos)) va), s)
        | none => match if k.home then s.markOf loc else s.readError (clusterOf r) loc with
          | some code => (.error (.fault 0x0B (plain (genInfo code pos)) va), s)
          | none => (.ok (if k.home then s.homeBytes loc n else s.readBytes (coreOf r) false loc n), s)

/-- Reads the word of token `x.pos` of generator `n` (R224, R226, R434). -/
def State.genRead (s : State) (r : Nat) (g : Region) (n : Nat) (x : Gen) : GRead × State :=
  let k := g.reader r n x
  let word (e : Except GRead (List Byte) × State) : GRead × State := match e with
    | (.ok bs, s) => (.word (leWord bs), s)
    | (.error f, s) => (f, s)
  match genSrc x.p with
  | 0 => word (s.genBytes r g k x.pos (genAddr x.p x.pos) 4 false)
  | 1 => match s.eptOf g.gang (genEp x.p) with
    | none => (.fault 0x0F [] 0, s)
    | some e =>
      let a := genAddr x.p x.pos
      match s.epCheck (dieOf r) e a 4 false with
      | (.ok p, s) => if s.epWaits (dieOf r) p then (.wait, s) else (.word (leWord (s.epRead p 4)), s)
      | (.error d, s) =>
        let (cls, info) := match d with
          | .link c => (0x12, genLink c x.pos)
          | d => d.fault (genInfo 2 x.pos) e.len
        (.fault cls info (spVa 2 (genEp x.p) (a % 2 ^ 56).toNat), s)
  | _ =>
    let sz : Nat := 2 ^ genIsz x.p
    match s.genBytes r g k x.pos ((genIdxBase x.p : Int) + x.pos * sz) sz true with
    | (.ok bs, s) => word (s.genBytes r g k x.pos ((genBase x.p : Int) + leNat bs * genStr x.p 0) 4 false)
    | (.error f, s) => (f, s)

/-- The demand read of a token that is due is issued, and is outstanding from now on (R282); an indirect stream waits until its engine
has a context for it (R349). -/
def State.issueRead (s : State) (r n : Nat) : State :=
  match s.region r with
  | none => s
  | some g => match g.gens.look n with
    | none => s
    | some x =>
      if !(g.genDue r n x && x.fetch == .idle) then s
      else if genSrc x.p ≠ 2 || x.eng.isSome then s.updGen r n fun x => { x with fetch := .reading }
      else match s.claimEngine r g x.p with
        | some e => s.updGen r n fun x => { x with fetch := .reading, eng := some e }
        | none => s

/-- The reads of the tokens that are due in the present cycle, in the regions given. -/
def State.issueReads (s : State) (rs : List (Nat × Region)) : State :=
  rs.foldl (fun s e => e.2.gens.foldl (fun s x => s.issueRead e.1 x.1) s) s

/-- GEN_DEMAND_READ_COMPLETE (R226, R282): the data, a fault, or a stall on a fill; the read of a stream that has been stopped since leaves
nothing. -/
def execGenDemandReadComplete (region gen : Nat) (s : State) : Result :=
  .next (match s.region region with
    | none => s
    | some g => match g.gens.look gen with
      | none => s
      | some x =>
        if x.fetch == .reading && (x.old || !x.running) then s.updGen region gen fun x => { x with fetch := .idle, old := false }
        else if x.fetch == .reading then
          match s.genRead region g gen x with
          | (.word w, s) => s.updGen region gen fun x => { x with fetch := .ready w }
          | (.fault cls info va, s) => s.genFault region gen cls info va
          | (.wait, _) => s
          | (.fill rg b va idx, s) =>
            let as_ := ((s.gang g.gang).map fun y => y.as_).getD 0
            let w : Waiter := .gen region gen va idx
            match s.joinFault rg as_ b g.gang with
            | some f => s.ownFillFault rg b w f
            | none => (s.updGen region gen fun x => { x with fetch := .fill }).joinFill rg as_ b w
        else s)

/-- GEN_TOKEN_DELIVER (R23, R224). -/
def execGenTokenDeliver (region gen : Nat) (s : State) : Result :=
  .next (match s.region region with
    | none => s
    | some g => match g.gens.look gen with
      | none => s
      | some x => match g.genDue region gen x, x.fetch with
        | true, .ready w =>
          let c := gw x.p 10
          let t : Token := { payload := w, tag := mkTag (BitVec.ofNat 4 (bitsOf 20 4 c)) (bitOf 19 c) (genKx x.p),
                             via := .gen region gen }
          let p := g.phys (genEl x.p)
          let s := (s.updGen region gen fun x =>
            { x with pos := x.pos + 1, quota := x.quota - 1, credits := x.credits - 1, fetch := .idle,
                     running := x.running && decide (x.pos + 1 < genTotal x.p) }).updRegion region (Region.stepTaken s.uid)
          (s.updElem p fun e => e.pushCh (genCh x.p) t).tidy p
        | _, _ => s)

end Sys2Proof.Machine
end

