-- ==== Sys2Proof/Machine/Brake.lean ====
section
/-!
DEFINITION. Rounds as they open (R181, R188), and the brake as it is applied to a region and leaves it again (R382, R384).
-/

namespace Sys2Proof.Machine

/-- The quota that a generator receives for a round, or for good outside the round set (R181, R382). -/
def Region.grantFor (g : Region) (x : Gen) : Nat := if g.brake.isSome then 0 else x.grant

/-- Whether the next round may open (R136, R181, R188, R189, R393). -/
def Region.mayOpen (g : Region) : Bool :=
  g.on && !g.dead && !g.round.isOpen && !g.round.held && !g.stepping && !g.stepHeld &&
    g.roundSet.any (fun c => !c.retired) && g.roundSet.all (fun c => !c.trapped) &&
    !g.round.drain.contains (g.round.n % 2) && g.round.half.entries.isEmpty

/-- A round opens (R181), and the round set has a view of each ring that it reaches (R184): init slots are armed again, generators of the round set receive their quotas, and step mode begins or ends
(R393). -/
def State.openRound (s : State) (r : Nat) : State :=
  (s.updRegion r fun g => { g with
    round := { g.round with isOpen := true, early := false, held := false, quiet := false }
    stepGo := (s.rreg r).rdbg.getLsbD 1
    ctxs := mapIf Ctx.isRounded (fun c => { c with armed := 0xFFFF#16 }) g.ctxs
    gens := g.gens.map fun e => (e.1, if e.2.rounded && e.2.running then { e.2 with quota := g.grantFor e.2 } else e.2) }).viewRings

/-- The exponents of the dispatcher page (R397). -/
def State.dscfg (s : State) (d : Nat) : Nat := s.mmioNat (dispPage d) 0x140010
def State.btx (s : State) (d : Nat) : Nat := min 30 (max 12 (bitsOf 16 5 (s.dscfg d)))
def State.pwx (s : State) (d : Nat) : Nat := min 30 (max 12 (bitsOf 0 5 (s.dscfg d)))

/-- A request of the round set that waits on a fill. -/
def Req.waitsFill (q : Req) : Bool :=
  match q.stage with
  | .fill _ | .texFill .. | .isectFill .. => true
  | _ => false

/-- The requests of a braked region that wait on fills leave the waiter lists (R382): a generator's is to be made again, an element stays
frozen on its fill (R45), and a round that holds one is voided without a record. -/
def State.shedFills (s : State) (r : Nat) : State :=
  match s.region r with
  | none => s
  | some g =>
  let voids := s.fab.reqs.any fun q => q.org.ctx.region = r && q.org.rounded && q.waitsFill
  let s := s.unwait fun w => match w with
    | .job .. | .coll .. => false
    | w => s.waiterIn r g w
  let s := s.updRegion r fun g => { g with
    gens := g.gens.map fun e => (e.1, if e.2.fetch = .fill then { e.2 with fetch := .idle, old := false } else e.2) }
  if voids then
    (s.voidRound r).updRegion r fun g => { g with round := { g.round with quiet := true } }
  else s

/-- What the brake does to a parked request (R309, R382). -/
def State.brakeReq (s : State) (q : Req) : State :=
  match q.stage with
  | .parked (.push ..) | .parked (.pop ..) | .parked (.qrsv ..) | .parked (.qpop ..) => s.replyWith q.id (q.done 1#32 false)
  | .parked (.waita ..) => s.wakeNow q.id
  | .parked (.barw core n _) => s.replyWith q.id (q.done (BitVec.ofNat 32 (s.bar core n).phase) false)
  | _ => s

/-- What the brake does for as long as it lasts: parked requests return, those that park after it too, and what waits on fills leaves. -/
def State.brakeHolds (s : State) (r : Nat) : State :=
  ((s.fab.reqs.filter fun q => q.org.ctx.region = r).foldl State.brakeReq s).shedFills r

/-- The brake is applied to a region (R382). -/
def State.brakeRegion (s : State) (r : Nat) (agent : BrakeBy) : State :=
  match s.region r with
  | none => s
  | some g =>
    if !g.on || g.dead || g.brake.isSome then s
    else
      let b : Brake := { by_ := agent, since := s.regionClk r }
      let s := s.updRegion r fun g => { g with
        brake := some b, rechoose := none, gens := g.gens.map fun e => (e.1, { e.2 with quota := 0 }) }
      let s := s.updRreg r fun q => { q with state := 3 }
      s.brakeHolds r

/-- The accesses that elements of a region, frozen on a fill, are to issue again (R45). -/
def State.refires (s : State) (r : Nat) : List Move :=
  s.fab.elems.flatMap fun (e : Nat × Elem) => e.2.freezes.filterMap fun f => match f.1 with
    | .fill c slot => if f.2 = r && s.physOf c = e.1 then some (.replay (.elem c slot 0 0 0 0 0)) else none
    | _ => none

/-- The brake leaves a region, which runs on (R379, R384): a generator outside the round set delivers what is left of its stream, one
of the round set what its next round grants. -/
def State.unbrake (s : State) (r : Nat) : State :=
  let s : State := { s with agenda := s.agenda ++ s.refires r }
  (s.updRegion r fun g => { g with
    brake := none
    round := if g.round.quiet then { g.round with held := false, quiet := false } else g.round
    gens := g.gens.map fun e => (e.1, if e.2.running && !e.2.rounded then { e.2 with quota := e.2.grant } else e.2) }).updRreg r
    fun q => { q with state := 2 }

/-- BRAKE_APPLY (R382). -/
def execBrakeApply (region : Nat) (agent : BrakeBy) (s : State) : Result := .next (s.brakeRegion region agent)

end Sys2Proof.Machine
end

