-- ==== Sys2Proof/Machine/Dispatcher.lean ====
section
/-!
DEFINITION. The dispatcher: LAUNCH and its packets (R302), pending records (R299), the order in which ready gangs are placed (R371,
R372, R374), and pre-emption (R373, R381).
-/

namespace Sys2Proof.Machine

-- LAUNCH (R302).

/-- A packet goes to the dispatcher of the issuing core's die. -/
def sendLaunch (p : Packet) (s : State) : State :=
  { s with dies := { s.dies with dispIn := s.dies.dispIn.alter (dieOf p.org.ctx.region) [] fun l => l ++ [p] } }

def execLaunch (r : Rule) (s : State) : Result :=
  .next (fireChecked r .s32 (cmdNeed { rel := true }) (fun v s => (v.checkLoc 0x59 v.a 32 32 v.b 1, s))
    (fun v key s =>
      let n := cmdNeed { rel := true } v
      let ws := leWords 8 (s.spadBytes (coreOf v.r) v.x.isRounded key 32)
      let p := v.packet s 0x59 0 ws v.b
      if s.spadReadBad (coreOf v.r) v.x.isRounded key 32 then v.answer n true false 0#32 false (some (badInfo 0 3)) s
      else if v.x.isRounded then (v.commit n false s).hold v 64 (.cmd p)
      else
        let id := s.uid
        let s := v.commit n true s
        (s.addReq (v.req s id false false (.wide s.uid (.send p)))).beginWide [clusterOf v.r] (.req id))
    (fun _ s => s) s)

/-- The first field of a launch command that breaks its layout. -/
def badLaunch (p : Packet) : Option Nat :=
  match badHeader p.cmd with
  | some o => some o
  | none =>
    if badAddr (p.f 8 8) 256 then some 8
    else if 2 ^ 56 ≤ p.f 0x10 8 then some 0x10
    else if p.f 0x18 8 ≠ 0 then some 0x18
    else none

/-- INFO of a rejected LAUNCH (R271, R302). -/
def Reject.info (e : Reject) (loc : Word) : List Byte :=
  match e.deny with
  | none => [0x59#8, BitVec.ofNat 8 e.off, BitVec.ofNat 8 e.sub, 0xFF#8] ++ natLe 4 0 ++ wordLe loc
  | some (.bad code) => [0x59#8, BitVec.ofNat 8 code]
  | some (.link l) => [BitVec.ofNat 8 l]
  | some .wait => []
  | some (.fault _ l c) => [0x59#8, 5#8, 0xFF#8, 0#8] ++ natLe 4 0 ++ [BitVec.ofNat 8 l, BitVec.ofNat 8 c]

/-- A LAUNCH is rejected. -/
def State.rejectLaunch (s : State) (p : Packet) (e : Reject) : State :=
  ((s.abortSignal p.org p.cmd).engineFault p.org (s.mkRec p.org e.cls (e.info p.loc) e.va 0xFFFFFFFF#32)).packetReply p
    0xFFFFFFFF#32 false

/-- A LAUNCH whose wait is met is read and accepted, or rejected (R298, R302). -/
def State.takeLaunch (s : State) (die : Nat) (p : Packet) : State :=
  let as_ := ((s.gang p.org.gang).map fun g => g.as_).getD 0
  match s.accept { die, lrec := p.f 8 8, recAs := as_, as_ := some as_, argo := p.f 0x10 8, adj := p.adj.toInt, pkt := some p } with
  | (.ok id, s) => s.packetReply p id true
  | (.error e, s) => s.rejectLaunch p e

/-- A LAUNCH whose wait is aborted (R259, R302). -/
def State.abortWait (s : State) (p : Packet) : State := (s.abortSignal p.org p.cmd).packetReply p 0xFFFFFFFF#32 false

/-- LAUNCH_PACKET_ACCEPT: the packet at the head of the inbox. While a link that the die uses retrains, nothing is read (R423). -/
def execLaunchPacketAccept (die : Nat) (s : State) : Result :=
  .next (if s.dieWaits die then s else match s.dies.dispIn.lookD die [] with
    | [] => s
    | p :: rest =>
      let t := { s with dies := { s.dies with dispIn := s.dies.dispIn.put die rest } }
      match badLaunch p with
      | some o => t.rejectLaunch p { off := o }
      | none => match s.waitOf p with
        | .met => t.takeLaunch die p
        | .aborted => t.abortWait p
        | .unmet =>
          if (s.dies.dispWait.lookD die []).length < 256 then
            let t := { t with dies := { t.dies with dispWait := t.dies.dispWait.alter die [] fun l => l ++ [p] } }
            -- The packet has left its inbox, so that a drain goes on (R257).
            if p.req = 0 then t.halfDone p.id else t
          else s)

/-- LAUNCH_WAIT_MET: the first packet of the wait list whose wait is met or aborted. -/
def execLaunchWaitMet (die id : Nat) (s : State) : Result :=
  .next (if s.dieWaits die then s else
    let l := s.dies.dispWait.lookD die []
    let st (p : Packet) : WaitSt := s.waitOf p
    match l.find? fun p => st p ≠ .unmet with
    | some p =>
      if p.id = id then
        let t := { s with dies := { s.dies with dispWait := s.dies.dispWait.put die (l.filter fun x => x.id ≠ id) } }
        if st p = .met then t.takeLaunch die p else t.abortWait p
      else s
    | none => s)

/-- GANG_READY: a write has left PRED zero (R299). -/
def execGangReady (gang : Nat) (s : State) : Result :=
  .next (match s.gang gang with
    | some g =>
      if g.st = .pending ∧ g.predZero then
        let s := s.updGang gang fun g => { g with st := .ready, predLoc := none, since := s.clk g.die }
        { s with dies := { s.dies with due := (g.die :: s.dies.due).dedup } }
      else s
    | none => s)

-- Ready gangs (R371, R388, R394).

/-- The instances that a gang would have placed: all of a ready gang; of one that runs or is saved, those that are saved, once
no region of it is under the brake. -/
def State.unplaced (s : State) (g : Gang) : List Nat :=
  match g.st with
  | .ready => g.insts.map fun i => i.inst
  | .running | .saved =>
    if s.regions.any fun e => e.2.gang = g.id.toNat && e.2.brake.isSome then []
    else (g.insts.filter fun i => i.st = .saved).map fun i => i.inst
  | _ => []

/-- Launch-hold: the region whose LAUNCH made the gang has LHOLD set (R394). -/
def State.launchHeld (s : State) (g : Gang) : Bool :=
  match g.from_ with
  | none => false
  | some p =>
    let r := ((s.regions.find? fun e => e.2.gang = p.org.gang && e.2.inst = p.org.inst).map fun e => e.1).getD p.org.ctx.region
    (s.rreg r).rdbg.getLsbD 3

def State.isReady (s : State) (g : Gang) : Bool := !(s.unplaced g).isEmpty && !s.launchHeld g

/-- The base PRIO, and the effective level (R371). -/
def Gang.base (g : Gang) : Nat := if g.isGen then 7 else fieldAt g.rcd 7 1
def State.levelOf (s : State) (g : Gang) : Nat := if g.isGen then 7 else min 6 (g.base + (s.clk g.die - g.since) / 65536)
def Gang.tenant (g : Gang) : Nat := fieldAt g.rcd 0x0C 2
/-- The weight of a tenant (R372, R397). -/
def State.weight (s : State) (d u : Nat) : Nat :=
  let b := s.mmioNat (dispPage d + 4) 0 + 2 ^ 32 * s.mmioNat (dispPage d + 8) 0
  if b = 0 then 1 else max 1 (leNat (s.physBytes (b + u) 1))

/-- Gangs that a die's dispatcher holds, in acceptance order. -/
def State.readyGangs (s : State) (d : Nat) : List Gang :=
  ((s.dies.gangs.map fun e => e.2).filter fun g => g.die = d && s.isReady g).mergeSort fun a b => decide (a.order ≤ b.order)

-- Placement (R298, R371 to R374, R387, R388).

/-- A gang of level 6 that has been unplaceable on a die for 2^PWX cycles holds back lower levels there (R372). -/
def State.heldBack (s : State) (d lv : Nat) : Bool :=
  lv < 6 && (s.readyGangs d).any fun g => s.levelOf g = 6 && match g.stuck with
    | some t => decide (t + 2 ^ s.pwx d ≤ s.clk d)
    | none => false

/-- The cores among which a gang looks for its place: of its own die, or of every die for a saved gang (R388), and of none where it is held
back. -/
def State.coresOf (s : State) (g : Gang) : List Nat :=
  (if g.st = .ready then s.coresFor g.die g.isGen
  else rotated g.die ((List.range 4).map fun d => s.coresFor d g.isGen) |>.flatten).filter
    fun c => !s.heldBack (dieOfCore c) (s.levelOf g)

/-- Places saved instances, one after another, each in cog 0 or else in the cog that it had (R381, R388). -/
def Gang.searchSaved (g : Gang) (rot : Nat) (cores : List Nat) : List Nat → List (Nat × Region) → Option (List (Nat × Region))
  | [], _ => some []
  | i :: rest, others =>
    let own := ((g.saved.find? fun v => v.inst = i).map fun v => v.region.cog).getD 0
    [0, own].dedup.findSome? fun c => match g.search c rot cores [i] others with
      | some [e] => (g.searchSaved rot cores rest (e :: others)).map fun es => e :: es
      | _ => none

/-- A placement of the unplaced instances of a gang beside the regions given, with the cog of the first. -/
def State.fit (s : State) (g : Gang) (others : List (Nat × Region)) : Option (Nat × List (Nat × Region)) :=
  (if g.st = .ready then g.search g.cog (Config.order s.free) (s.coresOf g) (s.unplaced g) others
   else g.searchSaved (Config.order s.free) (s.coresOf g) (s.unplaced g) others).map fun es =>
    (((es.head?).map fun e => e.2.cog).getD g.cog, es)

/-- Claims a placement: its instances load, or are restored (R174, R388). -/
def State.claim (s : State) (g : Gang) (cog : Nat) (es : List (Nat × Region)) : State :=
  let s : State := { s with regions := es.foldl (fun t e => t.put e.1 e.2) s.regions, free := s.free + 1 }
  let s := es.foldl (fun s e => s.updRreg e.1 fun q => { q with state := 1 }) s
  let at_ (i : Inst) : Inst := match es.find? fun e => e.2.inst = i.inst with
    | some e => { i with region := e.1, st := .loading, fault := none }
    | none => i
  s.updGang g.id.toNat fun x =>
    { x with insts := x.insts.map at_, st := .loading, cog, placed := s.clk g.die, stuck := none, want := [], freed := [] }

/-- What a gang keeps while its victims settle (R373): the place that it waits for, and the places that its victims have freed already. -/
def State.keeps (s : State) (x : Gang) : List (Nat × Region) :=
  x.want ++ x.freed.filter fun e => s.regions.all fun o => o.1 ≠ e.1 || o.2.claimant ≠ some x.id.toNat
/-- What gangs ahead of one, of whatever die, keep. -/
def State.wanted (s : State) (g : Gang) : List (Nat × Region) :=
  (((List.range 4).flatMap s.readyGangs).filter fun x => x.id ≠ g.id &&
    (s.levelOf g < s.levelOf x || (s.levelOf g = s.levelOf x && x.order < g.order))).flatMap s.keeps
/-- A victim of a gang is still to settle. -/
def State.awaits (s : State) (gang : Nat) : Bool := s.regions.any fun e => e.2.claimant = some gang

/-- Places a gang if it can be placed. -/
def State.tryPlace (s : State) (g : Gang) : Option State :=
  (s.fit g (s.wanted g ++ s.regions)).map fun e => s.claim g e.1 e.2

/-- Up to `n` gangs of a tenant at a level are placed; answers how many. -/
def State.tryTenant (d lv u : Nat) : Nat → State → Nat × State
  | 0, s => (0, s)
  | n + 1, s =>
    match (((s.readyGangs d).filter fun g => s.levelOf g = lv && g.tenant = u).findSome? s.tryPlace) with
    | none => (0, s)
    | some t => let (k, t) := State.tryTenant d lv u n t; (k + 1, t)

/-- One try of a level (R372); answers whether a gang was placed. -/
def State.tryLevel (s : State) (d lv : Nat) : Bool × State :=
  let us := (((s.readyGangs d).filter fun g => s.levelOf g = lv).map Gang.tenant).dedup.mergeSort fun a b => decide (a ≤ b)
  let p := s.dies.tptr.lookD (8 * d + lv) 0
  let (last, s) := ((us.filter fun u => p ≤ u) ++ us.filter fun u => u < p).foldl (fun (acc : Option Nat × State) u =>
    match State.tryTenant d lv u (acc.2.weight d u) acc.2 with
    | (0, s) => (acc.1, s)
    | (_, s) => (some u, s)) (none, s)
  match last with
  | none => (false, s)
  | some u => (true, { s with dies := { s.dies with tptr := s.dies.tptr.put (8 * d + lv) ((u + 1) % 65536) } })

-- Pre-emption (R373, R381).

/-- The regions of a gang, by instance, the highest first. -/
def State.regionsOf (s : State) (gang : Nat) : List (Nat × Region) :=
  (s.regions.filter fun e => e.2.gang = gang).mergeSort fun a b => decide (b.2.inst ≤ a.2.inst)

/-- The gangs that a gang may pre-empt, in the order in which they are chosen. -/
def State.victims (s : State) (x : Gang) : List Gang :=
  ((s.dies.gangs.map fun e => e.2).filter fun g =>
    let rs := s.regionsOf g.id.toNat
    g.st = .running && g.base < x.base && rs.any (fun e => dieOf e.1 = x.die) &&
      rs.all fun e => e.2.brake.isNone && e.2.rechoose.isNone && e.2.claimant.isNone && !e.2.dead).mergeSort
    fun a b => decide (a.base < b.base) || (a.base = b.base && decide (b.placed ≤ a.placed))

/-- Shifts and retirements of an elastic gang's instances that free enough for `x` (R381): the instances shifted, those retired, and
the place of `x`. `n` instances run; `others` are the regions that stand. -/
def State.partly (s : State) (x g : Gang) : List (Nat × Region) → Nat → List Nat → List (Nat × Region) →
    Option (List Nat × List Nat × List (Nat × Region))
  | [], _, _, _ => none
  | e :: rest, n, gone, others =>
    let without := others.filter fun o => o.1 ≠ e.1
    let place := s.fit x without
    let cogs := (List.range ((g.cass.map fun c => c.cogs.length).getD 1)).filter fun c => e.2.cog < c
    match place with
    | some (_, es) =>
      if cogs.any fun c => (g.search c (Config.order s.free) [coreOf e.1] [e.2.inst] (es ++ without)).isSome then some ([e.2.inst], gone, es)
      else if ((g.cass.map fun c => c.mini).getD 1) < n then some ([], gone ++ [e.2.inst], es)
      else s.partly x g rest n gone others
    | none =>
      if ((g.cass.map fun c => c.mini).getD 1) < n then s.partly x g rest (n - 1) (gone ++ [e.2.inst]) without
      else s.partly x g rest n gone others

/-- Brakes regions for the dispatcher, to make place for a gang, which keeps what they free; one that still loads is braked as it starts. -/
def State.brakeAll (s : State) (x : Nat) (rs : List Nat) : State :=
  let freed := (s.regions.filter fun e => rs.contains e.1).map fun e => (e.1, { e.2 with gang := x })
  let s := s.updGang x fun g => { g with freed := g.freed ++ freed }
  rs.foldl (fun s r => (s.brakeRegion r .dispatcher).updRegion r fun g => { g with claimant := some x }) s

/-- Victims are taken one after another until a place is there; answers the gangs braked whole and the last with its actions. -/
def State.choose (s : State) (x : Gang) : List Gang → List Gang → List (Nat × Region) →
    Option (List Gang × Option (Gang × List Nat × List Nat) × List (Nat × Region))
  | [], _, _ => none
  | g :: rest, whole, others =>
    let elastic := (g.cass.map fun c => c.elv != 0xFF).getD false
    let rs := s.regionsOf g.id.toNat
    match if elastic then s.partly x g rs rs.length [] others else none with
    | some (sh, re, es) => some (whole, some (g, sh, re), es)
    | none =>
      let without := others.filter fun o => o.2.gang ≠ g.id.toNat
      match s.fit x without with
      | some (_, es) => some (whole ++ [g], none, es)
      | none => s.choose x rest (whole ++ [g]) without

/-- A ready gang pre-empts, once it has been unplaceable for 2^PWX cycles. -/
def State.preempt (s : State) (gang : Nat) : State :=
  match s.gang gang with
  | none => s
  | some x =>
    let ripe := match x.stuck with
      | some t => decide (t + 2 ^ s.pwx x.die ≤ s.clk x.die)
      | none => false
    if !ripe || !s.isReady x || !x.want.isEmpty then s
    else match s.choose x (s.victims x) [] s.regions with
      | none => s
      | some (whole, part, es) =>
        let s := s.updGang gang fun g => { g with want := es }
        let s := whole.foldl (fun s g => s.brakeAll gang ((s.regionsOf g.id.toNat).map fun e => e.1)) s
        match part with
        | none => s
        | some (g, sh, re) =>
          let s := s.updGang g.id.toNat fun y => { y with shift := y.shift ++ sh, retire := y.retire ++ re }
          s.brakeAll gang (((s.regionsOf g.id.toNat).filter fun e => (sh ++ re).contains e.2.inst).map fun e => e.1)

/-- Gangs that a try has left unplaced are unplaceable from now on (R373). -/
def State.markStuck (s : State) (d : Nat) : State :=
  (s.readyGangs d).foldl (fun s g => s.updGang g.id.toNat fun x => { x with stuck := some (x.stuck.getD (s.clk d)) }) s

/-- A gang whose victims have all settled, and that has had its try, keeps nothing more. -/
def State.dropKept (s : State) (d : Nat) : State :=
  (s.readyGangs d).foldl (fun s g =>
    if s.awaits g.id.toNat then s else s.updGang g.id.toNat fun x => { x with want := [], freed := [] }) s

/-- DISPATCHER_TRY (R372): every level, from 7 down; a placement calls for another try in the next network cycle. -/
def execDispatcherTry (die : Nat) (s : State) : Result :=
  .next (if !s.dies.due.contains die then s
    else
      let (any, s) := [7, 6, 5, 4, 3, 2, 1, 0].foldl (fun (acc : Bool × State) lv =>
        let (b, s) := acc.2.tryLevel die lv
        (acc.1 || b, s)) (false, s)
      let s := (s.markStuck die).dropKept die
      let s := (s.readyGangs die).foldl (fun s g => s.preempt g.id.toNat) s
      { s with dies := { s.dies with due := (s.dies.due.filter fun d => d ≠ die) ++ if any then [die] else [] } })

/-- PREEMPTION_WAIT_EXPIRY (R373). -/
def execPreemptionWaitExpiry (gang : Nat) (s : State) : Result := .next (s.preempt gang)

end Sys2Proof.Machine
end

