-- ==== Sys2Proof/Machine/Collective.lean ====
section
/-!
DEFINITION. The collective engines (R452 to R457): slots and group tables, CLLCT and its acceptance, what a rank contributes, and the
result.
-/

namespace Sys2Proof.Machine

-- Slots (R452, R453).

def cscfg (d n : Nat) : Nat := fabPage d + 0x100 + 16 * n
def csst (d n : Nat) : Nat := fabPage d + 0x104 + 16 * n
def State.slotOn (s : State) (d n : Nat) : Bool := bitOf 31 (s.mmioNat (cscfg d n) 0)
/-- The number of ranks of a slot. -/
def State.ranks (s : State) (d n : Nat) : Nat := s.mmioNat (cscfg d n) 0 % 4096 + 1
/-- This die's rank in a slot. -/
def State.rankOf (s : State) (d n : Nat) : Nat := bitsOf 16 12 (s.mmioNat (csst d n) 0)
/-- Collectives begun. -/
def State.collSeq (s : State) (d n : Nat) : Nat := s.mmioNat (csst d n) 0 % 65536
def State.groupBase (s : State) (d n : Nat) : Nat :=
  s.mmioNat (fabPage d + 0x108 + 16 * n) 0 + 2 ^ 32 * (s.mmioNat (fabPage d + 0x10C + 16 * n) 0 % 2 ^ 20)
/-- Entry `r` of a slot's group table (R452). -/
def State.groupEntry (s : State) (d n r : Nat) : Nat := leNat (s.physBytes (s.groupBase d n + 4 * r) 4)
/-- The fabric ID of the package as a die holds it. -/
def State.fabid (s : State) (d : Nat) : Nat := s.mmioNat (fabPage d) 0 % 1024

/-- Whether the group table of a slot is bad (R452, R453). -/
def State.badGroup (s : State) (d n ranks rank : Nat) : Bool :=
  s.groupBase d n % 4 ≠ 0 || ranks ≤ rank || s.groupEntry d n rank ≠ 2 ^ 31 + 2 ^ 14 * d + s.fabid d ||
  (List.range ranks).any fun r =>
    let e := s.groupEntry d n r
    !bitOf 31 e || bitsOf 16 15 e ≠ 0 || bitsOf 10 4 e ≠ 0

/-- CSCFG_ENABLE: a write that sets EN clears SEQ, and leaves EN clear where the table is bad (R452, R453). -/
def State.enableSlot (s : State) (d n : Nat) (v : Word) : State :=
  let rank := s.rankOf d n
  let bad := s.badGroup d n (v.toNat % 4096 + 1) rank
  (s.setMmio (cscfg d n) (if bad then v &&& 0xFFF#32 else v &&& 0x80000FFF#32)).setMmio (csst d n)
    (BitVec.ofNat 32 ((if bad then 2 ^ 31 else 0) + 2 ^ 16 * rank))
def execCscfgEnable (die slot : Nat) (v : Word) (s : State) : Result :=
  .next (if bitOf 31 v.toNat && slot < 256 then s.enableSlot die slot v else s)

-- CLLCT (R454).

def collFn : CollFn → Nat
  | .arTree => 0
  | .arExact => 1
  | .rsTree => 2
  | .rsExact => 3
  | .ag => 4
  | .bc => 5

/-- A command goes to the engine of the issuing core's die; its slot is its ninth word. -/
def sendColl (p : Packet) (s : State) : State :=
  { s with dies := { s.dies with collIn := s.dies.collIn.alter (dieOf p.org.ctx.region) [] fun l => l ++ [p] } }
def execCllct (f : CollFn) (r : Rule) (s : State) : Result :=
  .next (fireCommand r 0x5D (collFn f) 32 32 (fun _ => 0#32) 32 (fun v => [BitVec.ofNat 32 (v.rule.imm.toNat % 256)]) sendColl s)

def Packet.count (p : Packet) : Nat := p.f 0x18 4
def Packet.exact (p : Packet) : Bool := p.fn = 1 || p.fn = 3

/-- The first field of a descriptor that breaks R454; 0xFF for a slot that is not enabled (R457). -/
def State.badColl (s : State) (d : Nat) (p : Packet) : Option Nat :=
  let n := s.ranks d p.slotNo
  match badHeader p.cmd with
  | some o => some o
  | none =>
    (([(0x08, badAddr (p.f 8 8) 4), (0x10, badAddr (p.f 0x10 8) 4), (0x18, p.count = 0 || decide (2 ^ 24 < p.count)),
      (0x1C, decide (2 < p.f 0x1C 1) || (p.exact && p.f 0x1C 1 ≠ 0)),
      (0x1D, decide (2 < p.f 0x1D 1) || (decide (p.fn = 1 ∨ 3 ≤ p.fn) && p.f 0x1D 1 ≠ 0)),
      (0x1E, if p.fn = 5 then decide (n ≤ p.f 0x1E 2) else p.f 0x1E 2 ≠ 0),
      (0xFF, !s.slotOn d p.slotNo)] : List (Nat × Bool)).find? fun c => c.2).map fun c => c.1

/-- INFO of a malformed collective (R271, R457). -/
def collInfo (p : Packet) (field seq : Nat) : List Byte :=
  [0x5D#8, BitVec.ofNat 8 field, 0xFF#8, 0xFF#8] ++ natLe 4 seq ++ wordLe p.loc
def State.dropColl (s : State) (p : Packet) (cls : Nat) (info : List Byte) (va : Nat := 0) : State :=
  (s.abortSignal p.org p.cmd).engineFault p.org (s.mkRec p.org cls info va 0xFFFFFFFF#32)

/-- COLLECTIVE_ACCEPT: the command at the head of the inbox (R454, R457). One that is dropped takes its turn at its slot all the same, also
where the slot is not enabled (log 91). -/
def execCollectiveAccept (die : Nat) (s : State) : Result :=
  .next (match s.dies.collIn.lookD die [] with
    | [] => s
    | p :: rest =>
      let s := ({ s with dies := { s.dies with collIn := s.dies.collIn.put die rest } } : State).packetDone p
      if !s.current p.org then (s.failColl die p).abortSignal p.org p.cmd
      else match s.badColl die p with
        | some o => (s.failColl die p).dropColl p 0x0F (collInfo p o 0)
        | none =>
          { s.bump with dies := { s.dies with colls := s.dies.colls ++ [{ id := s.uid, die, slot := p.slotNo, pkt := p, paused := p.paused }] } })

-- A rank's part.

/-- The bytes that an engine command of an issuing core reads or writes in virtual memory. -/
def Packet.ask (s : State) (p : Packet) (va : Nat) (w : Bool) : Ask :=
  { die := dieOf p.org.ctx.region, core := some (coreOf p.org.ctx.region),
    as_ := ((s.gang p.org.gang).map fun g => g.as_).getD 0, va, r := !w, w, gang := p.org.gang }

/-- The place of one word, or what stands in the way. -/
def State.collWord (s : State) (p : Packet) (va : Nat) (w : Bool) : CRes × State :=
  let die := dieOf p.org.ctx.region
  match s.xlate (p.ask s va w) with
  | (.ok loc, s) => match s.cut die (homeDie loc) with
    | some l => (.fault 0x12 [BitVec.ofNat 8 l] va, s)
    | none => if s.retrains die (homeDie loc) then (.wait, s) else (match if w then none else s.readError (clusterOf p.org.ctx.region) loc with
      | some code => (.fault 0x0B ([6#8, BitVec.ofNat 8 code, 0#8, 0#8] ++ natLe 4 0) va, s)
      | none => (.ok (.mem loc), s))
  | (.deny (.fault cls l cause), s) => (.fault cls (Job.info 0 ++ [BitVec.ofNat 8 l, BitVec.ofNat 8 cause, 0#8]) va, s)
  | (.deny (.bad code), s) => (.fault 0x0B ([6#8, BitVec.ofNat 8 code, 0#8, 0#8] ++ natLe 4 0) va, s)
  | (.deny (.link l), s) => (.fault 0x12 [BitVec.ofNat 8 l] va, s)
  | (.deny .wait, s) => (.wait, s)
  | (.fill r b, s) => (.fill r b va, s)

/-- The places of `n` words from an address, or the first failure. -/
def State.collWords (p : Packet) (w : Bool) : Nat → Nat → State → Except CRes (List CPlace) × State
  | 0, _, s => (.ok [], s)
  | n + 1, va, s => match s.collWord p va w with
    | (.ok x, s) => match State.collWords p w n (va + 4) s with
      | (.ok xs, s) => (.ok (x :: xs), s)
      | e => e
    | (e, s) => (.error e, s)

/-- Words of SRC that a rank reads, and of DST that it writes, of `n` ranks (R454). -/
def Packet.srcWords (p : Packet) (n rank : Nat) : Nat :=
  match p.fn with
  | 2 | 3 => n * p.count
  | 5 => if rank = p.f 0x1E 2 then p.count else 0
  | _ => p.count
def Packet.dstWords (p : Packet) (n : Nat) : Nat := if p.fn = 4 then n * p.count else p.count

def State.updColl (s : State) (id : Nat) (f : Coll → Coll) : State :=
  { s with dies := { s.dies with colls := mapIf (fun c => c.id = id) f s.dies.colls } }
def State.freeColl (s : State) (id : Nat) : State :=
  { s with dies := { s.dies with colls := s.dies.colls.filter fun c => c.id ≠ id } }

/-- An access of a collective fails: it stops, or waits on a fill (R207, R457) or for a link (R423). -/
def State.collStop (s : State) (c : Coll) (e : CRes) : State :=
  match e with
  | .fault cls info va => s.stopColl c (s.mkRec c.pkt.org cls info va 0#32)
  | .fill r b va =>
    let w : Waiter := .coll c.id va
    match s.joinFault r (c.pkt.ask s va false).as_ b c.pkt.org.gang with
    | some f => s.ownFillFault r b w f
    | none => s.joinFill r (c.pkt.ask s va false).as_ b w
  | .ok _ | .wait => s

/-- What a rank contributes with a command, but for its words. -/
def Packet.part (p : Packet) (die slot rank seq : Nat) : Contrib :=
  { die, slot, seq, rank, fn := p.fn, cnt := p.count, dt := p.f 0x1C 1, op := p.f 0x1D 1, root := p.f 0x1E 2, words := [] }
/-- A rank's contribution stands with the others; one that tells of a failure goes before what the rank has sent already. -/
def Contrib.join (k : Contrib) (ks : List Contrib) : List Contrib := if k.bad || k.link.isSome then k :: ks else ks ++ [k]

/-- A rank's words, on the way to a rank of this package, which receives them at once, or of another; the entry of the group table names
it. What a failed link or port cuts off does not go (R451). -/
def State.sendContrib (s : State) (d e : Nat) (c : Contrib) : State :=
  let x := { c with die := bitsOf 14 2 e }
  if e % 1024 = s.fabid d then
    if (s.cut d (bitsOf 14 2 e)).isSome then s else { s with dies := { s.dies with contribs := x.join s.dies.contribs } }
  else if (s.farCut d (e % 1024)).isSome then s
  else { s with pkg := { s.pkg with out := s.pkg.out ++ [.contrib (e % 1024) x] } }
/-- A link or port on the way to a rank retrains (R423, R450). -/
def State.entryWaits (s : State) (d e : Nat) : Bool :=
  if e % 1024 = s.fabid d then s.retrains d (bitsOf 14 2 e) else s.farWaits d (e % 1024)
/-- A rank's words go to a rank, or wait; what waits already for the same rank goes before them. -/
def State.sendOrWait (s : State) (d e : Nat) (c : Contrib) : State :=
  if s.entryWaits d e || s.pkg.held.any fun x => x.1 = d && x.2.1 = e then
    { s with pkg := { s.pkg with held := s.pkg.held ++ [(d, e, c)] } }
  else s.sendContrib d e c
/-- What has waited goes on, in order, where its way is open again. -/
def State.sendHeld (s : State) : State :=
  s.pkg.held.foldl (fun s x => s.sendOrWait x.1 x.2.1 x.2.2) { s with pkg := { s.pkg with held := [] } }

/-- A rank's words go to every rank that the group table names; that of an enabled slot names all (R452). -/
def State.contribute (s : State) (d : Nat) (c : Contrib) : State :=
  (((List.range (s.ranks d c.slot)).map (s.groupEntry d c.slot)).filter (bitOf 31)).foldl (fun s e => s.sendOrWait d e c) s

/-- INFO 0x20 of the link failure that a rank finds on the way to some peer (R424, R451, R457). -/
def State.unreachable (s : State) (d n : Nat) : Option Nat :=
  (List.range (s.ranks d n)).findSome? fun r =>
    let e := s.groupEntry d n r
    if e % 1024 = s.fabid d then s.cut d (bitsOf 14 2 e) else s.farCut d (e % 1024)

/-- The first command of a slot. -/
def State.collHead (s : State) (die slot : Nat) : Option Coll := s.dies.colls.find? fun c => c.die = die && c.slot = slot

/-- This rank's part in the collective that begins at its slot, numbered SEQ, goes to every rank; what a collective that ended early has left
behind goes (R453). -/
def State.openColl (s : State) (k : Contrib) : State :=
  let old (x : Contrib) : Bool := x.die = k.die && x.slot = k.slot && (k.seq + 65536 - x.seq) % 65536 < 32768 && x.seq ≠ k.seq
  let s := s.setMmio (csst k.die k.slot) (BitVec.ofNat 32 (s.mmioNat (csst k.die k.slot) 0 / 65536 * 65536 + (k.seq + 1) % 65536))
  let s : State := { s with dies := { s.dies with contribs := s.dies.contribs.filter fun x => !old x } }
  s.contribute k.die k
/-- The slot's first command is not performed: it takes its number, and every rank hears of it (R457). -/
def State.passColl (s : State) (c : Coll) : State :=
  (s.freeColl c.id).openColl { c.pkt.part c.die c.slot (s.rankOf c.die c.slot) (s.collSeq c.die c.slot) with bad := true }

/-- COLLECTIVE_BEGIN: the slot's first command, once its wait is met and no brake or engine-hold keeps it (R258, R382, R394, R454); SRC
is read (R456). A command that is aborted only counts. -/
def execCollectiveBegin (die slot : Nat) (s : State) : Result :=
  .next (match s.collHead die slot with
    | none => s
    | some c =>
      let p := c.pkt
      let r := p.org.ctx.region
      let braked := s.current p.org && ((s.region r).map fun g => g.brake.isSome).getD false
      if c.failed && !c.begun then s.passColl c
      else if c.begun || c.paused || braked || s.engHold r || s.waits (.coll c.id 0) then s
      else match s.waitOf p with
        | .unmet => s
        | .aborted => (s.abortSignal p.org p.cmd).passColl c
        | .met =>
          let n := s.ranks die slot
          let rank := s.rankOf die slot
          match State.collWords p false (p.srcWords n rank) (p.f 8 8) s with
          | (.error .wait, _) => s
          | (.error e, s) => s.collStop c e
          | (.ok xs, s) =>
            let seq := s.collSeq die slot
            let words := xs.map fun x => leWord (s.readPlace (coreOf r) x)
            let k : Contrib := { p.part die slot rank seq with words, link := s.unreachable die slot }
            (s.updColl c.id fun x => { x with begun := true, seq, src := words }).openColl k)

-- The result (R455).

/-- comb. -/
def combFn (dt op : Nat) (a b : Word) : Word :=
  match dt, op with
  | 0, 0 => faddFn { mode := .rn, sat := false } .f32 (fun _ => 0) a b
  | 0, n => fminmaxFn false (n = 2) .f32 a b
  | _, 0 => a + b
  | 1, n => if n = 2 then imaxFn .i32 a b else iminFn .i32 a b
  | _, n => if n = 2 then imaxFn .u32 a b else iminFn .u32 a b

/-- T over the values of some ranks; `n` bounds its depth. -/
def treeFn (dt op : Nat) : Nat → List Word → Word
  | 0, vs => vs.headD 0#32
  | n + 1, vs =>
    if vs.length ≤ 1 then vs.headD 0#32
    else
      let m := 2 ^ (vs.length - 1).log2
      combFn dt op (treeFn dt op n (vs.take m)) (treeFn dt op n (vs.drop m))

/-- Element `i` of the ranks' words. -/
def elems (cs : List Contrib) (i : Nat) : List Word := cs.map fun c => wordAt c.words i

/-- The words of the result at a rank; `cs` are the ranks' words in order (R454, R455). -/
def collResult (fn cnt dt op root rank : Nat) (cs : List Contrib) : List Word :=
  let reduce (i : Nat) : Word :=
    let vs := elems cs i
    if fn = 1 ∨ fn = 3 then xsRead (vs.foldl xsAdd 0) else treeFn dt op (vs.length + 1) vs
  match fn with
  | 0 | 1 => (List.range cnt).map reduce
  | 2 | 3 => (List.range cnt).map fun i => reduce (rank * cnt + i)
  | 4 => (cs.map fun c => (List.range cnt).map fun i => wordAt c.words i).flatten
  | _ => (List.range cnt).map fun i => wordAt (((cs[root]?).map fun c => c.words).getD []) i

/-- What makes a collective fail at a rank: class and INFO, if it posts a record there (R455, R457). -/
def Coll.failure (c : Coll) (cs : List Contrib) : Option (Option (Nat × List Byte)) :=
  match cs.findSome? fun x => x.link with
  | some l => some (some (0x12, [BitVec.ofNat 8 l]))
  | none =>
    if cs.any fun x => x.bad then some none else
    let key (x : Contrib) : Nat × Nat × Nat × Nat × Nat := (x.fn, x.cnt, x.dt, x.op, x.root)
    if cs.any fun x => key x ≠ (c.pkt.fn, c.pkt.count, c.pkt.f 0x1C 1, c.pkt.f 0x1D 1, c.pkt.f 0x1E 2) then
      some (some (0x0F, collInfo c.pkt 0xFF c.seq))
    else if c.pkt.exact && cs.any fun x => x.words.any xsOutside then
      some (if c.src.any xsOutside then some (0x13, []) else none)
    else none

/-- The residue mismatches that the result of a slot's collective meets stand under this name (R442). -/
def collKey (die slot : Nat) : Nat := 2 ^ 20 + 256 * die + slot
/-- A residue mismatch of the engine is counted. -/
def State.takeCollGlitch (s : State) (die slot core : Nat) : State :=
  if (s.fab.glitch.look (collKey die slot)).isSome then s.takeGlitch (collKey die slot) core else s

/-- COLLECTIVE_COMPLETE: once every rank's words are there, DST is written and the signal raised; a failure aborts it (R455 to R457), as
does a second residue mismatch of the result (R442) or a fault of a write of DST, at every rank that has not completed. -/
def execCollectiveComplete (die slot : Nat) (s : State) : Result :=
  .next (match s.collHead die slot with
    | none => s
    | some c =>
      let n := s.ranks die slot
      let all := s.dies.contribs.filter fun x => x.die = die && x.slot = slot && x.seq = c.seq
      let cs := (List.range n).filterMap fun r => all.find? fun x => x.rank = r
      let gone (s : State) : State :=
        { s with dies := { s.dies with contribs := s.dies.contribs.filter fun x => !(x.die = die && x.slot = slot && x.seq = c.seq) } }
      let bad : Contrib := { c.pkt.part die slot (s.rankOf die slot) c.seq with bad := true }
      if c.begun && c.failed then gone ((s.freeColl c.id).contribute die bad)
      else if !c.begun || c.paused || (cs.length ≠ n && !(cs.any fun x => x.link.isSome || x.bad)) || s.waits (.coll c.id 0) then s
      else match c.failure cs with
        | some rcd =>
          let s := gone (s.freeColl c.id)
          if c.dead then s
          else match rcd with
            | some (cls, info) => s.dropColl c.pkt cls info
            | none => s.abortSignal c.pkt.org c.pkt.cmd
        | none =>
          match State.collWords c.pkt true (c.pkt.dstWords n) (c.pkt.f 0x10 8) s with
          | (.error .wait, _) => s
          | (.error e, s) => s.collStop c e
          | (.ok ps, s) =>
            let core := coreOf c.pkt.org.ctx.region
            if s.fab.glitch.look (collKey die slot) = some 2 then
              let s := gone (((s.takeCollGlitch die slot core).freeColl c.id).contribute die bad)
              if c.dead then s else s.dropColl c.pkt 0x0B (badInfo 6 8)
            else
            let s := s.takeCollGlitch die slot core
            let ws := collResult c.pkt.fn c.pkt.count (c.pkt.f 0x1C 1) (c.pkt.f 0x1D 1) (c.pkt.f 0x1E 2) (s.rankOf die slot) cs
            let s := (ps.zip ws).foldl (fun s e => s.writePlace core (wordLe e.2) e.1) s
            let s := gone (s.freeColl c.id)
            if c.dead then s else s.signal c.pkt.org c.pkt.cmd)

end Sys2Proof.Machine
end

