-- ==== Sys2Proof/Machine/Cover.lean ====
section
/-!
DEFINITION. COVER (R402 to R404): coverage of a block of pixels, and the classification of a triangle by area.
-/

namespace Sys2Proof.Machine

/-- A point in units of 1/256 pixel. -/
abbrev Pt := Int × Int

/-- E_ij(p) (R402). -/
def edgeFn (i j p : Pt) : Int := (j.1 - i.1) * (p.2 - i.2) - (j.2 - i.2) * (p.1 - i.1)

/-- The centre of a pixel, on the inner side of an edge or on a top-left edge (R402). -/
def edgeHolds (i j p : Pt) : Bool :=
  let e := edgeFn i j p
  let dx := j.1 - i.1
  let dy := j.2 - i.2
  decide (0 < e) || (decide (e = 0) && (decide (dy < 0) || (decide (dy = 0) && decide (0 < dx))))

/-- Whether a triangle covers pixel (x, y) (R402). -/
def isCovered (v0 v1 v2 : Pt) (x y : Nat) : Bool :=
  let a := edgeFn v0 v1 v2
  let p : Pt := (256 * (x : Int) + 128, 256 * (y : Int) + 128)
  let in_ (u v w : Pt) : Bool := edgeHolds u v p && edgeHolds v w p && edgeHolds w u p
  if a = 0 then false else if a < 0 then in_ v0 v2 v1 else in_ v0 v1 v2

/-- The vertices of a primitive record (R399). -/
def recVerts (bs : List Byte) : Pt × Pt × Pt :=
  let w (n : Nat) : Int := (leWord (bs.drop (4 * n))).toInt
  ((w 0, w 1), (w 2, w 3), (w 4, w 5))

/-- The result and predicate of COVER (R403): `thr` is the classifier threshold. -/
def coverFn (bs : List Byte) (blk : Word) (thr : Nat) : Word × Bool :=
  let (v0, v1, v2) := recVerts bs
  if blk = 0xFFFFFFFF#32 then
    let a := (edgeFn v0 v1 v2).natAbs
    (BitVec.ofNat 32 (a / 131072), decide (131072 * thr ≤ a))
  else
    let b := blk.toNat
    let x := 8 * bitsOf 0 12 b
    let y := 8 * bitsOf 16 12 b + 4 * bitsOf 31 1 b
    let m := ((List.range 32).map fun i => if isCovered v0 v1 v2 (x + i % 8) (y + i / 8) then 2 ^ i else 0).sum
    (BitVec.ofNat 32 m, m ≠ 0)

/-- Registers of a die's graphics page (R404). -/
def gfxCfg (d : Nat) : Nat := gfxPage d
def cvCnt (d : Nat) : Nat := gfxPage d + 4

def execCover (r : Rule) (s : State) : Result :=
  .next (fireChecked r .z memNeed
    (fun v s => match v.checkLoc 0x5C v.a 24 32 0#32 1 with
      | .go key =>
        if v.b ≠ 0xFFFFFFFF#32 ∧ (bitsOf 28 3 v.b.toNat ≠ 0 ∨ bitsOf 12 4 v.b.toNat ≠ 0) then
          (.fault 0x0F (malInfo 0x5C v.a 0#32) 0 0#32, s)
        else (.go key, s)
      | e => (e, s))
    (fun v key s =>
      let bs := s.spadBytes (coreOf v.r) v.x.isRounded key 24
      let die := dieOf v.r
      let (w, p) := coverFn bs v.b (s.mmioNat (gfxCfg die) 64 % 65536)
      let bad := s.spadReadBad (coreOf v.r) v.x.isRounded key 24
      v.answer (memNeed v) true false w p (if bad then some (badInfo 0 3) else none) (s.count (cvCnt die)))
    (fun _ s => s) s)

end Sys2Proof.Machine
end

