-- ==== Sys2Proof/Machine/Debug.lean ====
section
/-!
DEFINITION. Debugging: DBG and the trace ring (R396, R397), and the end of a step (R393).
-/

namespace Sys2Proof.Machine

/-- The trace ring of a die (R397). -/
def trTail (d : Nat) : Nat := dispPage d + 0x50
def State.trSlots (s : State) (d : Nat) : Nat := 2 ^ min 20 (max 6 (s.mmioNat (dispPage d + 0x48) 6 % 32))
def State.trBase (s : State) (d : Nat) : Nat :=
  s.mmioNat (dispPage d + 0x40) 0 / 4096 * 4096 + 2 ^ 32 * (s.mmioNat (dispPage d + 0x44) 0 % 2 ^ 20)

/-- A record is written to the trace ring, or dropped and counted where the ring is full (R397). -/
def State.trace (s : State) (d : Nat) (rcd : List Byte) : State :=
  let tail := s.mmio (trTail d) 0#32
  if (tail - s.mmio (dispPage d + 0x4C) 0#32).toNat = s.trSlots d then s.count (dispPage d + 0x54)
  else (s.physPut (s.trBase d + 64 * (tail.toNat % s.trSlots d)) rcd).setMmio (trTail d) (tail + 1#32)

/-- A trace record without its clock (R396). -/
def View.traceRec (v : View) (dump : Bool) : List Byte :=
  [v.rule.imm.setWidth 8, if dump then 1#8 else 0#8] ++ natLe 2 v.g.lease ++
    [BitVec.ofNat 8 (recTx v.f.ctx), BitVec.ofNat 8 (recTy v.f.ctx), BitVec.ofNat 8 (recExy v.f.ctx),
     BitVec.ofNat 8 (recKs v.f.ctx v.f.slot)] ++
    natLe 2 v.g.inst ++ [v.x.pvec.setWidth 8, 0#8] ++ wordLe (if dump then 0#32 else v.a) ++
    (if dump then (v.x.regs.map wordLe).flatten else List.replicate 32 0#8) ++ natLe 8 0 ++ wordLe v.x.rndn ++ natLe 4 0
/-- The record with the clock of a die. -/
def State.stamped (s : State) (d : Nat) (rcd : List Byte) : List Byte := rcd.take 0x30 ++ natLe 8 (s.clk d) ++ rcd.drop 0x38

/-- DBG writes a record where TREN is set (R392, R396). -/
def State.tracing (s : State) (r : Nat) : Bool := (s.rreg r).rdbg.getLsbD 4
def dbgNeed (s : State) (v : View) : Need :=
  { needOf v.rule with bytes := if v.x.isRounded && s.tracing v.r then 64 else 0 }
def fireDbg (r : Rule) (dump : Bool) (s : State) : State :=
  fireGo r .z (dbgNeed s) (fun v s =>
    let p : Packet := { v.packet s 0x5F 0 (leWords 16 (v.traceRec dump)) 0#32 with req := 0 }
    let t := v.commit (dbgNeed s v) false s
    if !s.tracing v.r then t
    else if v.x.isRounded then t.hold v 64 (.cmd p)
    else t.trace (dieOf v.r) (s.stamped (dieOf v.r) (v.traceRec dump))) s

def execDbgMark (r : Rule) (s : State) : Result := .next (fireDbg r false s)
def execDbgDump (r : Rule) (s : State) : Result := .next (fireDbg r true s)

/-- TRACE_CONFIG_WRITE: a write to TRLO, TRHI or TRCFG of some die sets TAIL to zero (R397). -/
def State.writeTrace (s : State) (off : Nat) (v : Word) : State :=
  let d := (off - 0x101000) / 0x300000
  let keep : Option Word :=
    if 4 ≤ d then none
    else if off = dispPage d + 0x40 then some (v &&& 0xFFFFF000#32)
    else if off = dispPage d + 0x44 then some (v &&& 0x000FFFFF#32)
    else if off = dispPage d + 0x48 then some (BitVec.ofNat 32 (min 20 (max 6 (v.toNat % 32))))
    else none
  match keep with
  | some w => (s.setMmio off w).setMmio (trTail d) 0#32
  | none => s
def execTraceConfigWrite (off : Nat) (v : Word) (s : State) : Result := .next (s.writeTrace off v)

/-- Nothing of a region's last step is under way: its own write-backs and requests, and its round (R393). -/
def State.stepOver (s : State) (r : Nat) (g : Region) : Bool :=
  (s.fab.wbs.all fun w => w.ctx.region ≠ r || decide (w.id < g.stepFrom)) &&
    (s.fab.reqs.all fun q => !g.issued r q.org || decide (q.id < g.stepFrom)) &&
    (g.roundSet.isEmpty || (!g.round.isOpen && g.round.drain.isEmpty))

/-- STEP_END: the region is held (R393). -/
def execStepEnd (region : Nat) (s : State) : Result :=
  .next (match s.region region with
    | some g =>
      if g.stepping && s.stepOver region g then
        s.updRegion region fun g => { g with stepping := false, stepHeld := true }
      else s
    | none => s)

end Sys2Proof.Machine
end

