-- ==== Sys2Proof/Machine/Sfu.lean ====
section
/-!
DEFINITION. The special functions of FSFU (R106, R107, R155). Each is enclosed between two fixed-point numbers with 256 bits after
the point; RoundTo of both ends decides the result, and where they differ (they never should) it is a free value
(`Config.hardCase`, log 11).
-/

namespace Sys2Proof.Machine

/-- 2^256, the unit of the fixed-point numbers below. -/
def fx : Nat := 2 ^ 256
/-- floor(ln 2 × 2^256). -/
def ln2Fx : Nat := 0xB17217F7D1CF79ABC9E3B39803F2F6AF40F343267298B62D8A0D175B8BAAFA2B
/-- floor(π × 2^448). -/
def piFx448 : Nat := 0x3243F6A8885A308D313198A2E03707344A4093822299F31D0082EFA98EC4E6C89452821E638D01377BE5466CF34E90C6CC0AC29B7C97C50DD

/-- floor(√n), bit by bit from bit `k − 1` down. -/
def isqrtFrom (n : Nat) : Nat → Nat → Nat
  | 0, r => r
  | k + 1, r => let t := r + 2 ^ k; isqrtFrom n k (if t * t ≤ n then t else r)
def isqrt (n : Nat) : Nat := isqrtFrom n (n.log2 / 2 + 1) 0

/-- An enclosure: the value lies between `lo` and `hi` over 2^256. -/
structure Iv where
  lo : Int
  hi : Int
  deriving DecidableEq, Repr, Inhabited

def Iv.widen (v : Iv) (n : Nat) : Iv := { lo := v.lo - n, hi := v.hi + n }
def Iv.neg (v : Iv) : Iv := { lo := -v.hi, hi := -v.lo }
/-- The part of an enclosure at or above zero. -/
def Iv.pos (v : Iv) : Iv := { lo := max 0 v.lo, hi := max 0 v.hi }

/-- The sum 1 + t + t²/2! + …, with t over 2^256 and 0 ≤ t < 2^256, truncated at each term. -/
def expSum (t : Nat) : Nat → Nat → Nat → Nat
  | 0, _, acc => acc
  | n + 1, term, acc => expSum t n (term * t / fx / (80 - n)) (acc + term)

/-- e^t for 0 ≤ t < 1: 80 terms, each short by less than 2. -/
def expSmall (t : Nat) : Iv := let s := expSum t 80 fx 0; { lo := s, hi := s + 256 }

/-- 2^f for f over 2^256, 0 ≤ f < 1. -/
def exp2Frac (f : Nat) : Iv := let v := expSmall (f * ln2Fx / fx); { v with hi := v.hi + 16 }

/-- e^−y for y ≥ 0 over 2^256; from y = 200 on it lies between 0 and 2^−256 × 2^8. -/
def expNeg (y : Nat) : Iv :=
  if 200 * fx ≤ y then { lo := 0, hi := 2 ^ 8 }
  else
    -- y = n ln 2 − r with 0 ≤ r < ln 2; the error of n ln 2 is below 300 units
    let n := y / ln2Fx + 1
    let r := n * ln2Fx - y
    let v := expSmall r
    { lo := v.lo / 2 ^ n - 2, hi := (v.hi + 2048) / 2 ^ n + 2 }

/-- The series z + z³/3 + z⁵/5 + …, with z² over 2^256. -/
def atanhSum (z2 : Nat) : Nat → Nat → Nat → Nat → Nat
  | 0, _, _, acc => acc
  | n + 1, k, p, acc => atanhSum z2 n (k + 2) (p * z2 / fx) (acc + p / k)
/-- ln m for 1 ≤ m < 2 over 2^256, as 2 atanh((m − 1) / (m + 1)). -/
def lnSmall (m : Nat) : Iv :=
  let z := (m - fx) * fx / (m + fx)
  let s := 2 * atanhSum (z * z / fx) 100 1 z 0
  { lo := s, hi := s + 2048 }

/-- The sine and cosine series for 0 ≤ r < 1, over 2^256: alternating terms from `term`, each divided by k (k + 1). -/
def trigSum (r2 : Nat) : Nat → Nat → Int → Nat → Int → Int
  | 0, _, _, _, acc => acc
  | n + 1, k, sg, term, acc => trigSum r2 n (k + 2) (-sg) (term * r2 / fx / (k * (k + 1))) (acc + sg * term)
def sinSmall (r : Nat) : Iv := let v := trigSum (r * r / fx) 50 2 1 r 0; (Iv.mk v v).widen 256
def cosSmall (r : Nat) : Iv := let v := trigSum (r * r / fx) 50 1 1 fx 0; (Iv.mk v v).widen 256

/-- Reduces x = m × 2^e ≥ 0 by multiples of π/2: the quadrant, and the remainder between −π/4 and π/4 over 2^256. The error of
π leaves the remainder within 2 units. -/
def reduce (m : Nat) (e : Int) : Nat × Int :=
  -- x over 2^448
  let x := if 0 ≤ e + 448 then m * 2 ^ (e + 448).toNat else m / 2 ^ (-(e + 448)).toNat
  -- the nearest multiple n of π/2; 2x − nπ over 2^448 is twice the remainder
  let n := (4 * x + piFx448) / (2 * piFx448)
  let r : Int := ((2 * x : Nat) : Int) - ((n * piFx448 : Nat) : Int)
  (n % 4, r / 2 ^ 193)

/-- sin of a reduced argument in a quadrant; cos is one quadrant on. -/
def trig (quad : Nat) (r : Int) : Iv :=
  let a := r.natAbs
  let s := (sinSmall a).widen 8
  let s := if r < 0 then s.neg else s
  let c := (cosSmall a).widen 8
  match quad % 4 with
  | 0 => s
  | 1 => c
  | 2 => s.neg
  | _ => c.neg

/-- The code that an end of an enclosure rounds to. -/
def roundEnd (v : Int) : Nat :=
  if v = 0 then 0 else fp32.roundFrac .rn false 0 (decide (v < 0)) v.natAbs fx

/-- RoundTo of an enclosed value, the function number and operand naming the free value of an undecided case. -/
def decideIv (fn : Nat) (x : Word) (v : Iv) : Word :=
  let a := roundEnd v.lo
  if a = roundEnd v.hi then BitVec.ofNat 32 a else Config.hardCase fn x

/-- The result of an exact fraction. -/
def exactFrac (neg : Bool) (n d : Nat) : Word := BitVec.ofNat 32 (fp32.roundFrac .rn false 0 neg n d)

def nanW : Word := 0x7FC00000#32
def oneW : Word := 0x3F800000#32
def infW (neg : Bool) : Word := if neg then 0xFF800000#32 else 0x7F800000#32
def zeroW (neg : Bool) : Word := if neg then 0x80000000#32 else 0#32

/-- √x of x = m × 2^e > 0. -/
def sfuSqrt (x : Word) (m : Nat) (e : Int) : Word :=
  let t := m * 2 ^ (e + 512).toNat
  let r := isqrt t
  if r * r = t then exactFrac false r fx else decideIv 2 x { lo := r, hi := r + 1 }

/-- 1/√x, as √(2^−e / m). -/
def sfuRsq (x : Word) (m : Nat) (e : Int) : Word :=
  let t := 2 ^ (512 - e).toNat
  let r := isqrt (t / m)
  if r * r * m = t then exactFrac false r fx else decideIv 1 x { lo := r, hi := r + 1 }

/-- 2^x, with x = i + f and 0 ≤ f < 1. -/
def sfuExp2 (x : Word) (s : Bool) (m : Nat) (e : Int) : Word :=
  let (n, d) := fracOf m e
  if 200 * d ≤ n then (if s then zeroW false else infW false)
  else
    let q := n / d
    let rem := n - q * d
    let i : Int := if s then -(q : Int) - (if rem = 0 then 0 else 1) else q
    let fr := if rem = 0 then 0 else if s then d - rem else rem
    if fr = 0 then (let (a, b) := fracOf 1 i; exactFrac false a b)
    else
      let v := exp2Frac (fr * fx / d)
      let sc (z : Int) : Int := if 0 ≤ i then z * 2 ^ i.toNat else z / 2 ^ (-i).toNat
      decideIv 3 x { lo := sc v.lo - 1, hi := sc (v.hi + 16) + 1 }

/-- log2 x = i + log2 m' with 1 ≤ m' < 2. -/
def sfuLog2 (x : Word) (m : Nat) (e : Int) : Word :=
  let k := m.log2
  let i : Int := e + k
  let m' := m * fx / 2 ^ k
  if m' = fx then BitVec.ofNat 32 (fp32.round .rn false 0 (Fv.ofInt i))
  else
    let v := lnSmall m'
    decideIv 4 x { lo := i * fx + v.lo * fx / ((ln2Fx : Int) + 1), hi := i * fx + v.hi * fx / (ln2Fx : Int) + 1 }

/-- 1/(1 + e^−x): for negative x, e^−|x|/(1 + e^−|x|). -/
def sfuSigm (x : Word) (s : Bool) (m : Nat) (e : Int) : Word :=
  let (n, d) := fracOf m e
  let ev := ((expNeg (n * fx / d)).widen 4).pos
  decideIv 7 x (if s then (Iv.mk (ev.lo * fx / (fx + ev.lo) - 2) (ev.hi * fx / (fx + ev.hi) + 2)).pos
    else { lo := fx * fx / (fx + ev.hi) - 2, hi := fx * fx / (fx + ev.lo) + 2 })

/-- tanh |x| = (1 − e^−2|x|)/(1 + e^−2|x|). -/
def sfuTanh (x : Word) (s : Bool) (m : Nat) (e : Int) : Word :=
  let (n, d) := fracOf m e
  let ev := ((expNeg (2 * n * fx / d)).widen 4).pos
  let v : Iv := { lo := ((fx : Int) - ev.hi) * fx / (fx + ev.hi) - 2, hi := ((fx : Int) - ev.lo) * fx / (fx + ev.lo) + 2 }
  decideIv 8 x (if s then v.neg else v)

/-- FSFU on a nonzero finite operand (R106). -/
def sfuFinite (f : SfuFn) (x : Word) (s : Bool) (m : Nat) (e : Int) : Word :=
  match f with
  | .rcp => let (n, d) := fracOf m e; exactFrac s d n
  | .sqrt => if s then nanW else sfuSqrt x m e
  | .rsq => if s then nanW else sfuRsq x m e
  | .exp2 => sfuExp2 x s m e
  | .log2 => if s then nanW else sfuLog2 x m e
  | .sin =>
    let (q, r) := reduce m e
    decideIv 5 x (if s then (trig q r).neg else trig q r)
  | .cos => let (q, r) := reduce m e; decideIv 6 x (trig (q + 1) r)
  | .sigm => sfuSigm x s m e
  | .tanh => sfuTanh x s m e

/-- FSFU on an infinity (R107). -/
def sfuInf (f : SfuFn) (s : Bool) : Word :=
  match f with
  | .rcp => zeroW s
  | .rsq => if s then nanW else zeroW false
  | .sqrt | .log2 => if s then nanW else infW false
  | .exp2 => if s then zeroW false else infW false
  | .sigm => if s then zeroW false else oneW
  | .sin | .cos => nanW
  | .tanh => if s then 0xBF800000#32 else oneW

/-- FSFU on a zero (R107). -/
def sfuZero (f : SfuFn) (s : Bool) : Word :=
  match f with
  | .rcp | .rsq => infW s
  | .sqrt | .sin | .tanh => zeroW s
  | .exp2 | .cos => oneW
  | .log2 => infW true
  | .sigm => 0x3F000000#32

/-- FSFU (R106, R107). -/
def sfuFn (f : SfuFn) (x : Word) : Word :=
  match fp32.val x.toNat with
  | .nan => nanW
  | .inf s => sfuInf f s
  | .fin s m e => if m = 0 then sfuZero f s else sfuFinite f x s m e

/-- The latency of FSFU (R155). -/
def sfuLat : SfuFn → Nat
  | .rcp | .rsq => 8
  | .sqrt | .exp2 => 10
  | .log2 => 12
  | .sin | .cos => 16
  | .sigm | .tanh => 14

end Sys2Proof.Machine
end

