-- ==== Sys2Proof/Machine/Exact.lean ====
section
/-!
DEFINITION. The exact real numbers that the intersection tests need (R409): fractions, and the numbers a + b√r with a, b and r
fractions, with their order and their rounding to f32.
-/

namespace Sys2Proof.Machine

-- Fractions.

/-- A fraction; its denominator is positive. -/
structure Fr where
  n : Int := 0
  d : Nat := 1
  deriving DecidableEq, Repr, Inhabited

/-- The fraction n / d in lowest terms, for d ≠ 0. -/
def Fr.of (n d : Int) : Fr :=
  let g : Int := Nat.gcd n.natAbs d.natAbs
  let n := if d < 0 then -n else n
  { n := n / g, d := d.natAbs / g.natAbs }
def Fr.int (n : Int) : Fr := { n }
def Fr.add (x y : Fr) : Fr := Fr.of (x.n * y.d + y.n * x.d) (x.d * y.d : Nat)
def Fr.neg (x : Fr) : Fr := { x with n := -x.n }
def Fr.sub (x y : Fr) : Fr := x.add y.neg
def Fr.mul (x y : Fr) : Fr := Fr.of (x.n * y.n) (x.d * y.d : Nat)
/-- The quotient, for y ≠ 0. -/
def Fr.div (x y : Fr) : Fr := Fr.of (x.n * y.d) (x.d * y.n)
def Fr.sgn (x : Fr) : Int := x.n.sign
def Fr.le (x y : Fr) : Bool := (x.sub y).sgn ≤ 0
def Fr.isZero (x : Fr) : Bool := x.n = 0
def Fr.min (x y : Fr) : Fr := if x.le y then x else y
def Fr.max (x y : Fr) : Fr := if x.le y then y else x

/-- The value of a finite code; 0 for one that is not finite. -/
def Fr.ofF32 (w : Word) : Fr :=
  match fp32.val w.toNat with
  | .fin s m e => let (n, d) := fracOf m e; Fr.of (if s then -(n : Int) else n) d
  | _ => {}

-- Vectors.

structure V3 where
  x : Fr
  y : Fr
  z : Fr
  deriving DecidableEq, Repr, Inhabited

def V3.add (a b : V3) : V3 := ⟨a.x.add b.x, a.y.add b.y, a.z.add b.z⟩
def V3.sub (a b : V3) : V3 := ⟨a.x.sub b.x, a.y.sub b.y, a.z.sub b.z⟩
def V3.dot (a b : V3) : Fr := ((a.x.mul b.x).add (a.y.mul b.y)).add (a.z.mul b.z)
def V3.cross (a b : V3) : V3 :=
  ⟨(a.y.mul b.z).sub (a.z.mul b.y), (a.z.mul b.x).sub (a.x.mul b.z), (a.x.mul b.y).sub (a.y.mul b.x)⟩
def V3.isZero (a : V3) : Bool := a.x.isZero && a.y.isZero && a.z.isZero

-- Numbers a + b√r.

structure Qr where
  a : Fr := {}
  b : Fr := {}
  r : Fr := {}
  deriving DecidableEq, Repr, Inhabited

def Qr.fr (a : Fr) : Qr := { a }
/-- The radicand of two numbers that share one. -/
def Qr.rad (x y : Qr) : Fr := if x.b.isZero then y.r else x.r
def Qr.add (x y : Qr) : Qr := { a := x.a.add y.a, b := x.b.add y.b, r := x.rad y }
def Qr.neg (x : Qr) : Qr := { x with a := x.a.neg, b := x.b.neg }
def Qr.sub (x y : Qr) : Qr := x.add y.neg
def Qr.mul (x y : Qr) : Qr :=
  let r := x.rad y
  { a := (x.a.mul y.a).add ((x.b.mul y.b).mul r), b := (x.a.mul y.b).add (x.b.mul y.a), r }
/-- The reciprocal of a nonzero number whose radicand is no square. -/
def Qr.inv (x : Qr) : Qr :=
  let n := (x.a.mul x.a).sub ((x.b.mul x.b).mul x.r)
  { a := x.a.div n, b := x.b.neg.div n, r := x.r }

/-- The sign of a + b√r. -/
def sgn1 (a b r : Fr) : Int :=
  let sa := a.sgn
  let sb := if r.isZero then 0 else b.sgn
  if sb = 0 then sa else if sa = 0 then sb else if sa = sb then sa
  else ((a.mul a).sub ((b.mul b).mul r)).sgn * sa
def Qr.sgn (x : Qr) : Int := sgn1 x.a x.b x.r

/-- The sign of x − y; their radicands may differ. -/
def Qr.cmp (x y : Qr) : Int :=
  let a := x.a.sub y.a
  let b := x.b
  let c := y.b.neg
  let bb := (b.mul b).mul x.r
  let cc := (c.mul c).mul y.r
  let sb := if bb.isZero then 0 else b.sgn
  let sc := if cc.isZero then 0 else c.sgn
  let su := if sb = 0 then sc else if sc = 0 then sb else if sb = sc then sb else (bb.sub cc).sgn * sb
  let sa := a.sgn
  if su = 0 then sa else if sa = 0 then su else if sa = su then sa
  else sgn1 (((a.mul a).sub bb).sub cc) ((Fr.int (-2)).mul (b.mul c)) (x.r.mul y.r) * sa
def Qr.le (x y : Qr) : Bool := x.cmp y ≤ 0
def Qr.isZero (x : Qr) : Bool := x.sgn = 0

/-- The square root of a fraction that is not negative. -/
def Qr.root (r : Fr) : Qr :=
  let m := r.n.natAbs * r.d
  let q := isqrt m
  if q * q = m then .fr (Fr.of q r.d) else { b := { n := 1 }, r }

/-- The real roots of p·x² + q·x + r; none where it is constant. -/
def roots (p q r : Fr) : List Qr :=
  if p.isZero then (if q.isZero then [] else [.fr (r.neg.div q)])
  else
    let disc := (q.mul q).sub ((Fr.int 4).mul (p.mul r))
    if disc.sgn < 0 then []
    else
      let w := Qr.root disc
      let k := Qr.fr ((Fr.int 1).div ((Fr.int 2).mul p))
      [((Qr.fr q.neg).add w).mul k, ((Qr.fr q.neg).sub w).mul k]

/-- floor(x·2^160) of a number that is not negative. -/
def Qr.floor160 (x : Qr) : Nat :=
  let c := x.a.d * x.b.d * x.r.d
  let p : Int := x.a.n * (x.b.d * x.r.d : Nat) * 2 ^ 160
  let n := x.b.n.natAbs ^ 2 * x.a.d ^ 2 * (x.r.n.natAbs * x.r.d) * 2 ^ 320
  let q := isqrt n
  let s : Int := if 0 ≤ x.b.n then q else if q * q = n then -(q : Int) else -(q : Int) - 1
  ((p + s) / c).toNat

/-- RoundTo(f32, x, .rn) (R97): 2^−150 divides every midpoint of two f32 values. -/
def Qr.toF32 (x : Qr) : Word :=
  let neg := decide (x.sgn < 0)
  let y := if neg then x.neg else x
  let q := y.floor160
  let exact := y.cmp (.fr (Fr.of q (2 ^ 160))) = 0
  BitVec.ofNat 32 (fp32.roundFrac .rn false 0 neg (2 * q + if exact then 0 else 1) (2 ^ 161))

end Sys2Proof.Machine
end

