-- ==== Sys2Proof/Machine/Isect.lean ====
section
/-!
DEFINITION. ISECT (R408 to R411): the intersection of a ray with four boxes, a triangle, a cubic curve as a ribbon or a round
tube, and a bilinear patch, in exact arithmetic.
-/

namespace Sys2Proof.Machine

-- Records.

/-- Word `n` of a record. -/
def recWord (bs : List Byte) (n : Nat) : Word := leWord (bs.drop (4 * n))
def recV3 (bs : List Byte) (n : Nat) : V3 :=
  ⟨.ofF32 (recWord bs n), .ofF32 (recWord bs (n + 1)), .ofF32 (recWord bs (n + 2))⟩

def wordNan (w : Word) : Bool := fp32.isNan w.toNat
def wordInf (w : Word) : Bool := w &&& 0x7FFFFFFF#32 = 0x7F800000#32

/-- The size of a form's record (R408). -/
def isectSize (fn : Nat) : Nat :=
  match fn with
  | 0 => 128
  | 1 => 48
  | 4 => 64
  | _ => 80
/-- The words of a record that its test reads as f32. -/
def isectReads (fn : Nat) : Nat :=
  match fn with
  | 0 => 24
  | 1 => 9
  | 4 => 12
  | _ => 16
/-- The offset of a record's ID. -/
def isectId (fn : Nat) : Nat :=
  match fn with
  | 1 => 9
  | 4 => 12
  | _ => 16
/-- The offset of the first reserved field that is not zero, or of an SG above 4 (R411). -/
def badIsect (fn : Nat) (bs : List Byte) : Option Nat :=
  let nz (n : Nat) : Bool := recWord bs n ≠ 0#32
  let first (l : List Nat) : Option Nat := (l.find? nz).map fun n => 4 * n
  match fn with
  | 0 => none
  | 1 => first [10, 11]
  | 4 => first [13, 14, 15]
  | _ => if 4 < (recWord bs 17).toNat then some 0x44 else first [18, 19]

-- Boxes (R410).

/-- A bound of an interval. -/
inductive Bound where
  | neg | fin (x : Fr) | pos
  deriving DecidableEq, Repr, Inhabited
def Bound.ofF32 (w : Word) : Bound :=
  if wordInf w then (if w.toNat < 2 ^ 31 then .pos else .neg) else .fin (.ofF32 w)
def Bound.le : Bound → Bound → Bool
  | .neg, _ | _, .pos => true
  | .fin x, .fin y => x.le y
  | _, _ => false
/-- (x − o) ÷ d for d ≠ 0. -/
def Bound.at_ (x : Bound) (o d : Fr) : Bound :=
  match x with
  | .fin x => .fin ((x.sub o).div d)
  | .neg => if 0 < d.sgn then .neg else .pos
  | .pos => if 0 < d.sgn then .pos else .neg
/-- The slab of an axis, or nothing. Of an infinite coordinate of O, only a zero D makes one. -/
def slab (lo hi o : Bound) (d : Fr) : Option (Bound × Bound) :=
  if d.isZero then (if lo.le o && o.le hi then some (.neg, .pos) else none)
  else match o with
    | .fin o =>
      let a := lo.at_ o d
      let b := hi.at_ o d
      some (if 0 < d.sgn then (a, b) else (b, a))
    | _ => some (.neg, .pos)
/-- The intersection of two intervals. -/
def meet (a b : Bound × Bound) : Bound × Bound :=
  (if a.1.le b.1 then b.1 else a.1, if a.2.le b.2 then a.2 else b.2)

/-- The entry distance of box `i` of a node, if the ray hits it as far as the axes tell that are known. -/
def boxEntry (known : Nat → Bool) (o : Nat → Bound) (d : V3) (t : Bound × Bound) (node : List Byte) (i : Nat) : Option Bound :=
  let w (n : Nat) : Word := recWord node (6 * i + n)
  if (List.range 6).any (fun n => wordNan (w n)) || (List.range 3).any (fun n => !(Bound.ofF32 (w n)).le (.ofF32 (w (n + 3)))) then none
  else
    let s (n : Nat) (d : Fr) : Option (Bound × Bound) :=
      if known n then slab (.ofF32 (w n)) (.ofF32 (w (n + 3))) (o n) d else some (.neg, .pos)
    match s 0 d.x, s 1 d.y, s 2 d.z with
    | some a, some b, some c =>
      let r := meet (meet a b) (meet c t)
      if r.1.le r.2 && r.1 != .pos && r.2 != .neg then some r.1 else none
    | _, _, _ => none

/-- The mask and order that .box4 answers, from the entry distances of the boxes hit. -/
def boxRes (es : List (Option Bound)) : Word :=
  let hit := (List.range 4).filter fun i => ((es.getD i none).isSome : Bool)
  let le (i j : Nat) : Bool := match es.getD i none, es.getD j none with
    | some a, some b => a.le b
    | _, _ => true
  let order := hit.mergeSort le ++ (List.range 4).filter fun i => !hit.contains i
  BitVec.ofNat 32 ((hit.map fun i => 2 ^ i).sum + (order.mapIdx fun n i => i * 2 ^ (4 + 2 * n)).sum)

-- Hits of primitives (R409, R411).

/-- A point of a primitive on the ray: t, its segment, and its two coordinates. -/
structure Hit where
  t : Qr
  seg : Nat := 0
  a : Qr
  b : Qr
  deriving DecidableEq, Repr, Inhabited

/-- The order of t, then segment, then coordinates. -/
def Hit.le (x y : Hit) : Bool :=
  let c := x.t.cmp y.t
  let d := x.a.cmp y.a
  if c ≠ 0 then c < 0
  else if x.seg ≠ y.seg then x.seg < y.seg
  else if d ≠ 0 then d < 0
  else x.b.le y.b

/-- The first of some hits. -/
def firstHit : List Hit → Option Hit
  | [] => none
  | h :: r => some (r.foldl (fun m x => if m.le x then m else x) h)

def unit_ (x : Qr) : Bool := 0 ≤ x.sgn && x.le (.fr (.int 1))
/-- t is not below TMIN; none is minus infinity. -/
def fromMin (tmin : Option Fr) (t : Qr) : Bool :=
  match tmin with
  | some m => (Qr.fr m).le t
  | none => true

/-- The closed triangle. A ray in its plane meets it in an interval. -/
def triHit (o d v0 v1 v2 : V3) (tmin : Option Fr) : Option Hit :=
  let e1 := v1.sub v0
  let e2 := v2.sub v0
  let n := e1.cross e2
  let det := d.dot n
  let w := o.sub v0
  if n.isZero then none
  else
    -- The weights of V1 and V2 at t are c.1 + c.2·t.
    let nn := n.dot n
    let u : Fr × Fr := (((w.cross e2).dot n).div nn, ((d.cross e2).dot n).div nn)
    let v : Fr × Fr := (((e1.cross w).dot n).div nn, ((e1.cross d).dot n).div nn)
    let at_ (c : Fr × Fr) (t : Fr) : Fr := c.1.add (c.2.mul t)
    let base : List (Fr × Fr) := [u, v, (((Fr.int 1).sub u.1).sub v.1, (u.2.add v.2).neg)]
    let cs : List (Fr × Fr) := match tmin with
      | some m => (m.neg, Fr.int 1) :: base
      | none => base
    let ok (t : Fr) : Bool := cs.all fun c => 0 ≤ (at_ c t).sgn
    let hit (t : Fr) : Option Hit :=
      if ok t then some { t := .fr t, a := .fr (at_ u t), b := .fr (at_ v t) } else none
    if !det.isZero then hit (((v0.sub o).dot n).div det)
    else if !(w.dot n).isZero then none
    else match (cs.filter fun c => 0 < c.2.sgn).map fun c => c.1.neg.div c.2 with
      | [] => none
      | x :: r => hit (r.foldl Fr.max x)

/-- A point of a cubic Bézier at i ÷ n, rounded to f32 (R411). -/
def bezier (p : Nat → Fr) (i n : Nat) : Fr :=
  let t : Int := i
  let u : Int := (n : Int) - i
  let c (k : Int) (j : Nat) : Fr := (p j).mul (Fr.of k ((n : Int) ^ 3))
  let x := (((c (u * u * u) 0).add (c (3 * t * u * u) 1)).add (c (3 * t * t * u) 2)).add (c (t * t * t) 3)
  .ofF32 (Qr.fr x).toF32
/-- The points and radii of a curve. -/
def curvePts (bs : List Byte) : List (V3 × Fr) :=
  let n := 2 ^ (recWord bs 17).toNat
  (List.range (n + 1)).map fun i =>
    let c (k : Nat) : Fr := bezier (fun j => .ofF32 (recWord bs (4 * j + k))) i n
    (⟨c 0, c 1, c 2⟩, c 3)

/-- The hits of one quad of a ribbon. -/
def ribHits (o d : V3) (tmin : Option Fr) (j : Nat) (p q : V3 × Fr) : List Hit :=
  let e := q.1.sub p.1
  let m := d.cross e
  let w := o.sub p.1
  if m.isZero then []
  else
    -- w + t·d − a·e is parallel to m.
    let mm := m.dot m
    let dd := d.dot d
    let ee := e.dot e
    let de := d.dot e
    let wd := w.dot d
    let we := w.dot e
    let t := ((de.mul we).sub (ee.mul wd)).div mm
    let a := ((dd.mul we).sub (de.mul wd)).div mm
    let r := p.2.add (a.mul (q.2.sub p.2))
    let h := w.dot m
    let room := (r.mul r).mul mm
    if unit_ (.fr a) && fromMin tmin (.fr t) && (h.mul h).le room then
      let b : Qr :=
        if r.isZero then .fr (.int (-1))
        else
          let x := Qr.root ((h.mul h).div room)
          if h.sgn * r.sgn < 0 then x.neg else x
      [{ t := .fr t, seg := j, a := .fr a, b }]
    else []

/-- The hits of one segment of a tube that can be the first: the spheres' surfaces (log 30). F(t, a) = |w + t·d − a·e|² − r(a)². -/
def tubeHits (o d : V3) (tmin : Option Fr) (j : Nat) (p q : V3 × Fr) : List Hit :=
  let e := q.1.sub p.1
  let w := o.sub p.1
  let r0 := p.2
  let g := q.2.sub p.2
  let two (x : Fr) : Fr := x.add x
  let dd := d.dot d
  let ww := w.dot w
  let wd := w.dot d
  let we := w.dot e
  let de := d.dot e
  let k := (e.dot e).sub (g.mul g)
  -- F = dd·t² + 2·wd·t + ww − 2a·(we + t·de + g·r0) + k·a² − r0².
  let c := we.add (g.mul r0)
  let f0 := ww.sub (r0.mul r0)
  let val (t a : Qr) : Qr :=
    let f (x : Fr) : Qr := .fr x
    ((((f dd).mul (t.mul t)).add ((f (two wd)).mul t)).add (f f0)).add
      (((f k).mul (a.mul a)).sub ((a.mul ((f c).add ((f de).mul t))).mul (f (.int 2))))
  let radius (a : Qr) : Qr := (Qr.fr r0).add ((Qr.fr g).mul a)
  -- Points with a fixed: its ends, and where the radius vanishes.
  let ends : List Fr := [Fr.int 0, Fr.int 1] ++ if g.isZero then [] else [r0.neg.div g]
  let sides := (ends.map fun a =>
    (roots dd (two (wd.sub (a.mul de))) ((f0.sub (two (a.mul c))).add (k.mul (a.mul a)))).map fun t => (t, Qr.fr a)).flatten
  -- Points where the curve F = 0 turns in t: k·a = c + t·de.
  let turns : List (Qr × Qr) :=
    if k.isZero then []
    else
      (roots (dd.sub ((de.mul de).div k)) (two (wd.sub ((c.mul de).div k))) (f0.sub ((c.mul c).div k))).map fun t =>
        (t, ((Qr.fr c).add ((Qr.fr de).mul t)).mul (.fr ((Fr.int 1).div k)))
  let starts : List (Qr × Qr) := match tmin with
    | none => []
    | some m =>
      ((roots k (two (c.add (de.mul m))).neg (((dd.mul (m.mul m)).add (two (wd.mul m))).add f0)).map fun a => (Qr.fr m, a)) ++
        ends.map fun a => (Qr.fr m, Qr.fr a)
  ((sides ++ turns ++ starts).filter fun x =>
    unit_ x.2 && fromMin tmin x.1 && (val x.1 x.2).isZero && 0 ≤ (radius x.2).sgn).map fun x =>
      { t := x.1, seg := j, a := x.2, b := .fr {} }

/-- A bilinear function of (u, v): constant, u, v, uv. -/
abbrev Bil := Fr × Fr × Fr × Fr
def Bil.val (f : Bil) (u v : Qr) : Qr :=
  (((Qr.fr f.1).add ((Qr.fr f.2.1).mul u)).add ((Qr.fr f.2.2.1).mul v)).add ((Qr.fr f.2.2.2).mul (u.mul v))
def Bil.isZero (f : Bil) : Bool := f.1.isZero && f.2.1.isZero && f.2.2.1.isZero && f.2.2.2.isZero
/-- The value at v = 0 and the slope in v, at u. -/
def Bil.inV (f : Bil) (u : Qr) : Qr × Qr := (f.val u (.fr {}), (Qr.fr f.2.2.1).add ((Qr.fr f.2.2.2).mul u))

/-- The hits of a bilinear patch that can be the first. -/
def patchHits (o d p00 p10 p01 p11 : V3) (tmin : Option Fr) : List Hit :=
  let bil (n : V3) : Bil :=
    let f (p : V3) : Fr := (p.sub o).dot n
    (f p00, (f p10).sub (f p00), (f p01).sub (f p00), ((f p11).sub (f p10)).sub ((f p01).sub (f p00)))
  -- Two vectors across the ray: the patch meets the ray where fa = fb = 0, and t = ft.
  let z : Fr := {}
  let (na, nb) : V3 × V3 :=
    if !d.x.isZero then (⟨d.y.neg, d.x, z⟩, ⟨d.z.neg, z, d.x⟩)
    else if !d.y.isZero then (⟨d.y, z, z⟩, ⟨z, d.z.neg, d.y⟩)
    else (⟨d.z, z, z⟩, ⟨z, d.z, z⟩)
  let fa := bil na
  let fb := bil nb
  let k := (Fr.int 1).div (d.dot d)
  let ft : Bil := let f := bil d; (f.1.mul k, f.2.1.mul k, f.2.2.1.mul k, f.2.2.2.mul k)
  let one : Qr := .fr (.int 1)
  let zero : Qr := .fr {}
  -- v in [0, 1] at u: the ends of v, and where t is TMIN.
  let column (u : Qr) : List (Qr × Qr) :=
    let (c, m) := ft.inV u
    [(u, zero), (u, one)] ++ match tmin with
      | some t => if m.isZero then [] else [(u, ((Qr.fr t).sub c).mul m.inv)]
      | none => []
  -- v from f = 0 at u.
  let solve (f : Bil) (u : Qr) : List (Qr × Qr) :=
    let (c, m) := f.inV u
    if m.isZero then [] else [(u, c.neg.mul m.inv)]
  let res : Fr × Fr × Fr :=
    let (a0, a1, a2, a3) := fa
    let (b0, b1, b2, b3) := fb
    ((a1.mul b3).sub (b1.mul a3), (((a0.mul b3).add (a1.mul b2)).sub (b0.mul a3)).sub (b1.mul a2), (a0.mul b2).sub (b0.mul a2))
  let us (p q r : Fr) : List Qr := roots p q r
  let cand : List (Qr × Qr) :=
    if fa.isZero && fb.isZero then
      -- The whole patch lies on the ray's line.
      let edge (f : Bil) (g : Fr → Qr → Qr × Qr) (v : Fr) : List (Qr × Qr) := match tmin with
        | some t =>
          let c := f.1.add (v.mul f.2.2.1)
          let m := f.2.1.add (v.mul f.2.2.2)
          if m.isZero then [] else [g v (.fr ((t.sub c).div m))]
        | none => []
      column zero ++ column one ++ edge ft (fun v u => (u, .fr v)) {} ++ edge ft (fun v u => (u, .fr v)) (.int 1)
    else if !(res.1.isZero && res.2.1.isZero && res.2.2.isZero) then
      ((us res.1 res.2.1 res.2.2).map fun u => solve fa u ++ solve fb u ++ column u).flatten
    else
      let f : Bil := if fa.isZero then fb else fa
      let (f0, f1, f2, f3) := f
      let (t0, t1, t2, t3) := ft
      -- Lines of f at one u, and at one v.
      let uLines := (us {} f1 f0) ++ us {} f3 f2
      let vLine : List Qr := us {} f3 f1 ++ us {} f2 f0
      let onV (v : Qr) : List (Qr × Qr) :=
        let c := ft.val zero v
        let m := (ft.val one v).sub c
        [(zero, v), (one, v)] ++ match tmin with
          | some t => if m.isZero then [] else [(((Qr.fr t).sub c).mul m.inv, v)]
          | none => []
      -- Along v = −(f0 + f1·u) ÷ (f2 + f3·u), t is (n0 + n1·u + n2·u²) ÷ (f2 + f3·u).
      let n0 := (t0.mul f2).sub (t2.mul f0)
      let n1 := (((t0.mul f3).add (t1.mul f2)).sub (t2.mul f1)).sub (t3.mul f0)
      let n2 := (t1.mul f3).sub (t3.mul f1)
      let turn := us (n2.mul f3) ((Fr.int 2).mul (n2.mul f2)) ((n1.mul f2).sub (n0.mul f3))
      let start : List Qr := match tmin with
        | some t => us n2 (n1.sub (t.mul f3)) (n0.sub (t.mul f2))
        | none => []
      let on := [zero, one] ++ us {} f1 f0 ++ us {} (f1.add f3) (f0.add f2) ++ turn ++ start
      (uLines.map column).flatten ++ (vLine.map onV).flatten ++ (on.map (solve f)).flatten
  (cand.filter fun x =>
    unit_ x.1 && unit_ x.2 && (fa.val x.1 x.2).isZero && (fb.val x.1 x.2).isZero && fromMin tmin (ft.val x.1 x.2)).map fun x =>
      { t := ft.val x.1 x.2, a := x.1, b := x.2 }

/-- The first hit of a form's primitive: t, HITU and HITV. -/
def primHit (fn : Nat) (o d : V3) (tmin : Option Fr) (bs : List Byte) : Option (Qr × Qr × Qr) :=
  match fn with
  | 1 => (triHit o d (recV3 bs 0) (recV3 bs 3) (recV3 bs 6) tmin).map fun h => (h.t, h.a, h.b)
  | 4 => (firstHit (patchHits o d (recV3 bs 0) (recV3 bs 3) (recV3 bs 6) (recV3 bs 9) tmin)).map fun h => (h.t, h.a, h.b)
  | _ =>
    let ps := curvePts bs
    let f := if fn = 2 then ribHits o d tmin else tubeHits o d tmin
    let hs := ((ps.zip (ps.drop 1)).mapIdx fun j p => f j p.1 p.2).flatten
    let n := Fr.of 1 ((ps.length : Int) - 1)
    (firstHit hs).map fun h => (h.t, ((Qr.fr (.int h.seg)).add h.a).mul (.fr n), h.b)

/-- What a test finds: a hit with tr, HITU and HITV, none, or operands for which the manual states no result (infinite
coordinates: log 31). -/
inductive Test where
  | none
  | hit (t u v : Word)
  | unstated
  deriving DecidableEq, Repr, Inhabited

/-- Whether the conditions of R409 under which there is no hit hold for a ray record, and the words that the test reads of the
primitive. -/
def noHit (ray bs : List Byte) (n : Nat) : Bool :=
  let w (i : Nat) : Word := recWord ray i
  [0, 1, 2, 3, 4, 5, 6, 8].any (fun i => wordNan (w i)) || (List.range n).any (fun i => wordNan (recWord bs i)) ||
  ((recV3 ray 4).isZero && !([4, 5, 6].any fun i => wordInf (w i))) || fp32.lt (w 8).toNat (w 3).toNat
def tMin (ray : List Byte) : Bound := .ofF32 (recWord ray 3)

/-- The test of a primitive form (R409, R411). -/
def isectTest (fn : Nat) (ray bs : List Byte) : Test :=
  let n := isectReads fn
  if noHit ray bs n || tMin ray = .pos then .none
  else if [0, 1, 2, 4, 5, 6].any (fun i => wordInf (recWord ray i)) || (List.range n).any (fun i => wordInf (recWord bs i)) then .unstated
  else
    let tmin : Option Fr := match tMin ray with
      | .fin x => some x
      | _ => Option.none
    match primHit fn (recV3 ray 0) (recV3 ray 4) tmin bs with
    | some (t, u, v) => .hit t.toF32 u.toF32 v.toF32
    | Option.none => .none

/-- The result of .box4 (R410). R409's rule on a zero D is one of primitives; a box's slabs say what a zero D finds. With an infinite
coordinate of the ray, other than one of O beside a zero D, the manual states no slab of that axis: which of the boxes are hit that the other axes let be, and in which order,
is free (log 31). -/
def isectBox (k : Nat) (ray node : List Byte) : Word :=
  if [0, 1, 2, 3, 4, 5, 6, 8].any (fun i => wordNan (recWord ray i)) || fp32.lt (recWord ray 8).toNat (recWord ray 3).toNat then boxRes []
  else
    let o (n : Nat) : Bound := .ofF32 (recWord ray n)
    let known (n : Nat) : Bool :=
      !wordInf (recWord ray (4 + n)) && (!wordInf (recWord ray n) || (recWord ray (4 + n)).toNat % 2 ^ 31 = 0)
    let t : Bound × Bound := (tMin ray, .ofF32 (recWord ray 8))
    let es := (List.range 4).map (boxEntry known o (recV3 ray 4) t node)
    if (List.range 3).all known then boxRes es
    else boxRes (es.mapIdx fun i e =>
      if e.isSome && Config.happens (k + i) then some (.fin (.int (Config.order (k + i)))) else none)

-- The instruction (R408).

/-- What an ISECT does to its ray record: the result, and the 16 bytes that an acceptance writes. -/
def isectDo (k fn : Nat) (ray bs : List Byte) : Word × Option (List Byte) :=
  if fn = 0 then (isectBox k ray bs, none)
  else
    let id := recWord bs (isectId fn)
    let accept (t u v : Word) : Word × Option (List Byte) :=
      let tm := recWord ray 8
      if fp32.lt t.toNat tm.toNat || (!fp32.lt tm.toNat t.toNat && id.toNat < (recWord ray 9).toNat) then
        (1#32, some (wordLe t ++ wordLe id ++ wordLe u ++ wordLe v))
      else (0#32, none)
    match isectTest fn ray bs with
    | .none => (0#32, none)
    | .hit t u v => accept t u v
    | .unstated =>
      if Config.happens k then accept (Config.hardCase k 0#32) (Config.hardCase k 1#32) (Config.hardCase k 2#32) else (0#32, none)

/-- What the accesses of an ISECT find: a fault, a block that is not FULL, or the ray record's key with the bytes of both
records, and what is found at the reply. -/
inductive IsectRes where
  | fault (cls : Nat) (info : List Byte) (va : Nat)
  | fill (r : Range) (blk win off va : Nat)
  | go (key : Nat) (ray bs : List Byte) (bad : Option (Nat × List Byte × Nat))
  /-- A link on its way retrains (R423): it is tried again. -/
  | wait
  deriving Repr, Inhabited

/-- Translates the pieces of a primitive record: locations with their lengths. -/
def State.isectXlate (q : Ask) : List (Nat × Nat) → State → Except Xlat (List (Nat × Nat)) × State
  | [], s => (.ok [], s)
  | (a, n) :: rest, s => match s.xlate { q with va := a } with
    | (.ok loc, s) => match State.isectXlate q rest s with
      | (.ok ls, s) => (.ok ((loc, n) :: ls), s)
      | e => e
    | (e, s) => (.error e, s)

/-- The accesses of an ISECT, once its locator has passed (R202, R408, R411): of context `c`, whose requests before `id` come first (R204). -/
def State.isectGo (s : State) (r : Nat) (g : Region) (rounded : Bool) (fn : Nat) (loc off : Word) (c : CtxId) (id : Nat) : IsectRes × State :=
  let core := coreOf r
  let key := g.spadKey (locBuf loc) (locOff loc)
  if s.spadReadBad core rounded key 48 then (.go key [] [] (some (0x0B, badInfo 0 3, 0)), s)
  else
    let ray := s.spadBytes core rounded key 48
    let win := bitsOf 4 4 (recWord ray 7).toNat
    let size := isectSize fn
    let w := g.wins.getD win {}
    let o := off.toNat
    let va := w.base + o
    if !w.v || decide (w.limit < o + size - 1) then (.fault 0x03 (limitInfo 0 0 win o w.limit) 0, s)
    else if o % 16 ≠ 0 then (.fault 0x04 (accInfo 0 size win o 0 0 0) va, s)
    else
      let q : Ask := { die := dieOf r, core := some core, as_ := ((s.gang g.gang).map fun x => x.as_).getD 0, va, r := true, gang := g.gang }
      let k := min size (4096 - va % 4096)
      let ps := if k = size then [(va, size)] else [(va, k), (va + k, size - k)]
      match State.isectXlate q ps s with
      | (.error (.deny (.fault c lv cause)), s) => (.fault c (accInfo 0 size win o lv cause 0) va, s)
      | (.error (.deny (.bad code)), s) => (.fault 0x0B (badInfo 0 code) va, s)
      | (.error (.deny (.link l)), s) => (.fault 0x12 [BitVec.ofNat 8 l] va, s)
      | (.error (.deny .wait), s) => (.wait, s)
      | (.error (.fill rg b), s) => (.fill rg b win o va, s)
      | (.error (.ok _), s) => (.fault 0x0F [] va, s)
      | (.ok ls, s) =>
        let secs := (ps.zip ls).flatMap fun p => (sectorsOf p.2.1 p.2.2).map fun e => (p.1.1 + (e.1 - p.2.1), e)
        if (ls.any fun l => s.retrains (dieOf r) (homeDie l.1)) || secs.any (fun e => s.ownFirst c g.lease id e.1 e.2.1) then (.wait, s) else
        match secs.findSome? fun e => s.readStop core rounded 0 e.2.1 e.2.2 with
        | some e => (.go key [] [] (some (e.1, e.2, va)), s)
        | none =>
          let bs := (ls.map fun l => s.readBytes core rounded l.1 l.2).flatten
          let s := ls.foldl (fun s l => s.touch (clusterOf r) l.1) s
          match badIsect fn bs with
          | some field => (.fault 0x0F ([0x5B#8, BitVec.ofNat 8 field, 0xFF#8, 0xFF#8] ++ natLe 4 0 ++ wordLe loc) 0, s)
          | none => (.go key ray bs none, s)

/-- The reply of an ISECT; an acceptance writes the record, or is held under the firing's age (R182, R408). -/
def State.isectReply (s : State) (id fn key : Nat) (ray bs : List Byte) (bad : Option (Nat × List Byte × Nat)) : State :=
  match s.req id with
  | none => s
  | some q => match bad with
    | some (c, i, va) =>
      s.updReq id fun q => { q with stage := .bad (s.mkRec q.org c i va) { q.done 0#32 false with good := false } }
    | none =>
      let (res, wr) := isectDo s.free fn ray bs
      let s := { s with free := s.free + 4 }
      let s := match wr with
        | none => s
        | some x =>
          if q.org.rounded then
            s.updRegion q.org.ctx.region fun g => (g.charge 16).putEntry { age := id, org := q.org, size := 16, eff := .spad (key + 32) x }
          else s.spadPut (key + 32) x
      s.replyWith id (q.done res (res != 0#32))

/-- An ISECT in a rounded context may hold an entry of 16 bytes (R182). -/
def isectNeed (fn : Nat) (v : View) : Need := { memNeed v with bytes := if v.x.isRounded && fn ≠ 0 then 16 else 0 }

def fireIsect (fn : Nat) (r : Rule) (s : State) : State :=
  match view s r .z with
  | none => s
  | some v =>
    let n := isectNeed fn v
    if v.ready n s then
      let raise (s : State) (c : Nat) (i : List Byte) (va : Nat) : State :=
        s.raise v.f v.x.isRounded (s.mkRec (s.origin v.f v.x.isRounded) c i va)
      match v.checkLoc 0x5B v.a 64 64 0#32 1 with
      | .fault c i va _ => raise s c i va
      | _ => match s.isectGo v.r v.g v.x.isRounded fn v.a v.b v.f.ctx s.uid with
        | (.fault c i va, s) => raise s c i va
        | (.fill rg b win o va, s) =>
          let size := isectSize fn
          let as_ := ((s.gang v.g.gang).map fun g => g.as_).getD 0
          match s.joinFault rg as_ b v.g.gang with
          | some f => raise s f.1 (ownFillInfo 0 size win o (rg, b, f.1, f.2)) va
          | none =>
            if v.x.isRounded then
              let id := s.uid
              ((v.commit n true s).addReq (v.req s id true false (.isectFill fn v.a v.b))).joinFill rg as_ b
                (.req id 0 size.log2 win o va)
            else (s.freezeFill v.f.ctx v.f.slot).joinFill rg as_ b (.elem v.f.ctx v.f.slot 0 size.log2 win o va)
        | (.wait, _) => s
        | (.go key ray bs bad, s) =>
          let id := s.uid
          ((v.commit n true s).addReq (v.req s id true false .sent)).isectReply id fn key ray bs bad
    else s

/-- An ISECT of a round that waited on a fill is issued again (R359). -/
def State.redoIsect (s : State) (id : Nat) : State :=
  match s.req id with
  | none => s
  | some q => match q.stage with
    | .isectFill fn loc off =>
      let drop (s : State) (c : Nat) (i : List Byte) (va : Nat) : State :=
        (s.dropReq id).raise { ctx := q.org.ctx, slot := q.org.slot } true (s.mkRec q.org c i va)
      match s.region q.org.ctx.region with
      | none => s
      | some g => match s.isectGo q.org.ctx.region g true fn loc off q.org.ctx id with
        | (.fault c i va, s) => drop s c i va
        | (.fill rg b win o va, s) =>
          let as_ := ((s.gang q.org.gang).map fun g => g.as_).getD 0
          match s.joinFault rg as_ b q.org.gang with
          | some f => drop s f.1 (ownFillInfo 0 (isectSize fn) win o (rg, b, f.1, f.2)) va
          | none => s.joinFill rg as_ b (.req id 0 (isectSize fn).log2 win o va)
        | (.wait, _) => s
        | (.go key ray bs bad, s) => s.isectReply id fn key ray bs bad
    | _ => s

def execIsectBox4 (r : Rule) (s : State) : Result := .next (fireIsect 0 r s)
def execIsectTri (r : Rule) (s : State) : Result := .next (fireIsect 1 r s)
def execIsectRib (r : Rule) (s : State) : Result := .next (fireIsect 2 r s)
def execIsectTube (r : Rule) (s : State) : Result := .next (fireIsect 3 r s)
def execIsectBlp (r : Rule) (s : State) : Result := .next (fireIsect 4 r s)

end Sys2Proof.Machine
end

