-- ==== Sys2Proof/Machine/Systolic.lean ====
section
/-!
DEFINITION. Matrix work (R233 to R255): the queues of the memory tiles, weight planes, sweeps and their beats, and corner-turn
nodes.
-/

namespace Sys2Proof.Machine

-- Formats (R235, R236, R238).

def fmtClass (f : Nat) : Nat := if f < 2 then 0 else if f < 4 then 1 else 2
/-- K indices for each element row. -/
def fmtKe (f : Nat) : Nat := if f < 2 then 8 else if f < 4 then 4 else 16
/-- The value at position `i` of packed bytes. -/
def packedVal (f i : Nat) (bs : List Byte) : Fv :=
  let b (n : Nat) : Nat := (bs.getD n 0#8).toNat
  match f with
  | 0 => e4m3.val (b i)
  | 1 => e5m2.val (b i)
  | 2 => bf16.val (b (2 * i) + 256 * b (2 * i + 1))
  | 3 => fp16.val (b (2 * i) + 256 * b (2 * i + 1))
  | _ => e2m1.val (bitsOf (4 * (i % 2)) 4 (b (i / 2)))
/-- A scale of block `k / 32`, where the format has one. -/
def scaleVal (f code : Nat) : Fv := if fmtClass f = 1 then .fin false 1 0 else e8m0Val code

/-- The products of element row `ey` for column `n` (R239). -/
def beatTerms (af : Nat) (row scales : List Byte) (p : Plane) (n ey : Nat) : List Fv :=
  (List.range (fmtKe af)).map fun j =>
    let k := ey * fmtKe af + j
    let sa := scaleVal af (scales.getD (k / 32) 0#8).toNat
    let sb := scaleVal p.fmt (p.bytes.getD (1024 + 32 * (k / 32) + n) 0#8).toNat
    (sa.mul (packedVal af k row)).mul (sb.mul (packedVal p.fmt (32 * k + n) p.bytes))
/-- The result of a beat in column `n`, from the partial sum `c` (R109, R239). -/
def beatResult (af : Nat) (row scales : List Byte) (p : Plane) (n : Nat) (c : Nat) : Nat :=
  (List.range 4).foldl (fun s ey => fp32.round .rn false 0 (Fv.sum false (fp32.val s :: beatTerms af row scales p n ey))) c

-- Descriptors (R252 to R255).

/-- The adjust word as a signed number. -/
def Packet.b (p : Packet) : Int := p.adj.toInt
def Packet.nt (p : Packet) : Nat := p.f 0x0A 1
def Packet.swap (p : Packet) : Bool := p.fn = 1
def Packet.rowsM (p : Packet) : Nat := p.f 0x0E 2
/-- The tiles that a WLD or SWEEP names, as columns and rows (R253, R254). -/
def Packet.targets (p : Packet) : List (Nat × Nat) :=
  (List.range p.nt).map fun i => if p.opc = 0x50 then (p.f 8 1, p.f 9 1 + 2 * i) else (p.f 8 1 + 2 * i, p.f 9 1)
/-- The same as logical tile numbers. -/
def Packet.tiles (p : Packet) : List Nat := p.targets.map fun t => 8 * t.2 + t.1
/-- The tile of the queue that a command goes to (R243). -/
def Region.queueTile (g : Region) (p : Packet) : Nat :=
  if p.opc = 0x52 then 8 * p.f 9 1 + p.f 8 1 else ((g.bufs[p.f 0x0C 1]?).map fun b => b.tile).getD 0
/-- Buffer offsets that a command reaches: images, rows and scales. -/
def Packet.dataOff (p : Packet) : Int := (p.f 0x10 4 : Int) + p.b
def Packet.scaleOff (p : Packet) : Int := (p.f 0x14 4 : Int) + p.b / 16

/-- Whether a position is a systolic tile of the region (R233). -/
def Region.isSysAt (g : Region) (t : Nat × Nat) : Bool := t.1 < g.wx && t.2 < g.wy && g.systolic (8 * t.2 + t.1)

/-- The used routes of a region that carry an edge (R247). -/
def Region.edgeRoutes (g : Region) (edge : Nat) : List (Ctx × Nat) :=
  (g.ctxs.map fun c => ((List.range 8).filter fun o =>
    c.credOf o ≠ 0 && routeEdge (c.routes.getD o 0#32) = edge).map fun o => (c, o)).flatten

/-- The first descriptor field that breaks R252 to R255, with the tile that it concerns. -/
def Region.badDescriptor (g : Region) (p : Packet) : Option (Nat × Option (Nat × Nat)) :=
  let first (l : List (Nat × Bool)) : Option (Nat × Option (Nat × Nat)) := (l.find? fun c => c.2).map fun c => (c.1, none)
  match badHeader p.cmd with
  | some o => some (o, none)
  | none =>
    if p.opc = 0x52 then
      let n := g.edgeRoutes (p.f 0x0C 2)
      first [(0x08, decide (g.wx ≤ p.f 8 1)), (0x09, decide (g.wy ≤ p.f 9 1 ∨ (p.f 8 1 + p.f 9 1) % 2 = 0)),
        (0x0A, decide (p.f 0xA 1 = 0 ∨ 32 < p.f 0xA 1)), (0x0B, decide (p.f 0xB 1 ≠ 0)),
        (0x0C, decide (16384 ≤ p.f 0x0C 2 ∨ n.length ≠ 1) || g.nodes.any fun e => e.2.edge = p.f 0x0C 2),
        (0x10, decide (p.f 0x10 8 ≠ 0 ∨ p.f 0x18 8 ≠ 0))]
    else
      let most := if p.opc = 0x50 then 8 else 4
      let badNt := p.nt = 0 || decide (most < p.nt)
      let tile := (g.bufs[p.f 0x0C 1]?).map fun b => b.tile
      match if badNt then none else p.targets.find? fun t => !g.isSysAt t with
      | some t => some (0x08, some t)
      | none =>
        let f := p.f 0x0B 1
        if p.opc = 0x50 then
          first [(0x0A, badNt), (0x0B, decide (4 < f)), (0x0C, tile.map tileX ≠ some (p.f 8 1)),
            (0x0D, decide (p.f 0x0D 3 ≠ 0)), (0x10, decide (p.f 0x10 4 % 32 ≠ 0)), (0x14, decide (p.f 0x14 8 ≠ 0 ∨ p.f 0x1C 4 ≠ 0))]
        else
          first [(0x0A, badNt), (0x0B, decide (4 < f)), (0x0C, tile.map tileY ≠ some (p.f 9 1)),
            (0x0D, decide (2 ≤ p.f 0x0D 1)), (0x0E, decide (p.rowsM = 0 ∨ 256 < p.rowsM)), (0x10, decide (p.f 0x10 4 % 32 ≠ 0)),
            (0x14, if fmtClass f = 1 then decide (p.f 0x14 4 ≠ 0) else decide (p.f 0x14 4 % 2 ≠ 0)),
            (0x19, decide (p.f 0x19 7 ≠ 0))]

/-- The first bound that a command breaks: INFO 0x21 and 0x22, the offset or row, and the limit (R250). The bounds of
ASOFF are tested for the formats that have scales only (DESIGN CHOICE, log 100). -/
def Region.badBound (g : Region) (p : Packet) : Option (Nat × Nat × Int × Nat) :=
  let buf := p.f 0x0C 1
  let size := g.bufSize buf
  let span (a : Int) (n : Nat) : Option (Nat × Nat × Int × Nat) :=
    if a < 0 then some (1, buf, a, size - 1)
    else if (size : Int) < a + n then some (1, buf, a + n - 1, size - 1)
    else none
  if p.opc = 0x52 then none
  else if p.opc = 0x50 then span p.dataOff (1088 * p.nt)
  else
    ((span p.dataOff (32 * p.rowsM)).or
      (if fmtClass (p.f 0x0B 1) = 1 then none else span p.scaleOff (2 * p.rowsM))).or
      (if g.rows < p.f 0x18 1 + p.rowsM then some (2, 0, (p.f 0x18 1 + p.rowsM : Int) - 1, g.rows - 1) else none)

-- Faults (R250).

/-- INFO of classes 0x0F and 0x0B. -/
def sysInfo (p : Packet) (what : Nat) (t : Option (Nat × Nat)) (idx : Nat) : List Byte :=
  [BitVec.ofNat 8 p.opc, BitVec.ofNat 8 what, BitVec.ofNat 8 ((t.map fun t => t.1).getD 0xFF),
   BitVec.ofNat 8 ((t.map fun t => t.2).getD 0xFF)] ++ natLe 4 idx ++ wordLe p.loc ++ wordLe p.adj
def State.sysFault (s : State) (p : Packet) (cls what : Nat) (t : Option (Nat × Nat)) (idx : Nat) : State :=
  s.engineFault p.org (s.mkRec p.org cls (sysInfo p what t idx))

-- Issue (R251).

/-- A command leaves for its queue. -/
def sendSystolic (p : Packet) (s : State) : State := { s with cores := { s.cores with going := s.cores.going ++ [p] } }

def execWld (r : Rule) (s : State) : Result :=
  .next (fireCommand r 0x50 0 32 32 (fun v => v.b) 32 (fun _ => []) sendSystolic s)
def execSweep (r : Rule) (s : State) : Result :=
  .next (fireCommand r 0x51 0 32 32 (fun v => v.b) 32 (fun _ => []) sendSystolic s)
def execSweepSwap (r : Rule) (s : State) : Result :=
  .next (fireCommand r 0x51 1 32 32 (fun v => v.b) 32 (fun _ => []) sendSystolic s)
def execCturn (r : Rule) (s : State) : Result :=
  .next (fireCommand r 0x52 0 32 32 (fun _ => 0#32) 32 (fun _ => []) sendSystolic s)

-- Arrival (R243, R250).

/-- The regions that place a logical tile of theirs on the physical tile given, with that tile. -/
def State.sharing (s : State) (phys : Nat) : List (Nat × Region × Nat) :=
  s.regions.filterMap fun e => (e.2.tmap.find? fun t => t.2 = phys).map fun t => (e.1, e.2, t.1)
/-- The commands that the queue of a physical memory tile holds. -/
def State.queued (s : State) (phys : Nat) : List (Nat × Packet) :=
  ((s.sharing phys).map fun e => (e.2.1.queues.lookD e.2.2 []).map fun p => (e.1, p)).flatten

/-- A command arrives at its queue, which checks it; one whose placement is gone is aborted (R193, R250, R259). -/
def State.arrive (s : State) (p : Packet) : State :=
  let s := { s with cores := { s.cores with going := s.cores.going.filter fun x => x.id ≠ p.id } }
  let s := s.packetDone p
  let r := p.org.ctx.region
  match s.region r with
  | none => s.abortSignal p.org p.cmd
  | some g =>
    if !s.current p.org then s.abortSignal p.org p.cmd
    else match g.badDescriptor p with
      | some e => (s.abortSignal p.org p.cmd).sysFault p 0x0F e.1 e.2 0
      | none => match g.badBound p with
        | some (what, n, off, limit) =>
          let info := [6#8, BitVec.ofNat 8 what, BitVec.ofNat 8 n, 0#8] ++ wordLe (BitVec.ofInt 32 off) ++ natLe 4 limit
          (s.abortSignal p.org p.cmd).engineFault p.org (s.mkRec p.org 0x03 info)
        | none =>
          let q := g.queueTile p
          let p := { p with id := s.uid }
          s.bump.updRegion r fun g => { g with queues := g.queues.alter q [] fun l => l ++ [p] }

/-- SYSTOLIC_COMMAND_ARRIVAL: in firing order of one context at one queue, where the queue has room (R243). -/
def execSystolicCommandArrival (id : Nat) (s : State) : Result :=
  .next (match s.cores.going.find? fun p => p.id = id with
    | none => s
    | some p =>
      match s.region p.org.ctx.region with
      | none => s.arrive p
      | some g =>
        let q := g.queueTile p
        let first := (s.cores.going.find? fun x => x.org.ctx = p.org.ctx && g.queueTile x = q).map fun x => x.id
        if first = some id ∧ (s.queued (g.tmap.lookD q 0)).length < 8 then s.arrive p else s)

-- Sending (R244).

def Region.shadowOf (g : Region) (t : Nat) : Plane := g.shadow.lookD t {}
def Region.activeOf (g : Region) (t : Nat) : Plane := g.active.lookD t {}
def Region.setShadow (g : Region) (t : Nat) (f : Plane → Plane) : Region := { g with shadow := g.shadow.alter t {} f }

/-- The condition of R244 at every tile. A memory tile has one node, whichever of the regions that share the tile uses it (R164,
R173). -/
def State.sendable (s : State) (g : Region) (p : Packet) (queue : Nat) : Bool :=
  if p.opc = 0x52 then (s.sharing (g.tmap.lookD queue 0)).all fun e => (e.2.1.nodes.look e.2.2).isNone
  else p.tiles.all fun t =>
    let st := (g.shadowOf t).st
    if p.opc = 0x50 then st = .empty else !p.swap || st = .ready || st = .bad

/-- The cycle in which a sweep's token reaches a tile that has not taken it, if no tile holds it from now on (R241). -/
def Sweep.reaches (w : Sweep) (clk t : Nat) : Option Nat :=
  (w.tiles.foldl (fun (acc : Nat × Option Nat) x =>
    let at_ := x.offered.getD (max clk acc.1 + 2)
    (at_, if x.tile = t && x.took.isNone then some at_ else acc.2)) (0, none)).2

/-- The plane that a sweep, sent now, will use at its tile `i` (R237, R250): a claimed shadow that the token of its own sweep swaps in no
later than this one's reaches the tile (log 93). -/
def State.planeFor (s : State) (r : Nat) (g : Region) (swap : Bool) (i t : Nat) : Plane :=
  let sh := g.shadowOf t
  let clk := s.regionClk r
  let later := s.cores.sweeps.any fun w => w.pkt.org.ctx.region = r && w.pkt.swap &&
    (w.reaches clk t).any fun a => decide (clk + 2 + 2 * i < a)
  if swap || (sh.st = .claimed && !later) then sh else g.activeOf t

/-- Attaches a node to the route that carries its edge (R247). -/
def State.attach (s : State) (r t : Nat) (p : Packet) : State :=
  match s.region r with
  | none => s
  | some g => match (g.edgeRoutes (p.f 0x0C 2)).head? with
    | none => s
    | some (c, o) =>
      s.seat r t { pkt := p, edge := p.f 0x0C 2, ctx := c.id r, o, n := p.f 0xA 1, blk := p.f 0xE 2 }

/-- Sends the command at the head of a queue, which is removed. -/
def State.send (s : State) (r t : Nat) (g : Region) (p : Packet) : State :=
  let s := s.updRegion r fun g => { g with queues := g.queues.upd t fun l => l.drop 1 }
  let clk := s.regionClk r
  if p.opc = 0x52 then s.attach r t p
  else if p.opc = 0x50 then
    let s := s.updRegion r fun g => p.tiles.foldl (fun g t => g.setShadow t fun x => { x with st := .loading }) g
    { s with cores := { s.cores with loads := s.cores.loads ++ [{ id := p.id, pkt := p, start := clk, tiles := p.tiles }] } }
  else
    match (p.targets.mapIdx fun i x => (x, s.planeFor r g p.swap i (8 * x.2 + x.1))).find? fun x =>
        x.2.st ≠ .empty && fmtClass x.2.fmt ≠ fmtClass (p.f 0x0B 1) with
    | some (x, _) => (s.abortSignal p.org p.cmd).sysFault p 0x0F 0x0B (some x) 0
    | none =>
      let s := if p.swap then
          s.updRegion r fun g => p.tiles.foldl (fun g t => g.setShadow t fun x => { x with st := .claimed }) g
        else s
      let key := 128 * r + t
      let serial := s.cores.serials.lookD key 0
      let tiles : List SweepTile := p.tiles.mapIdx fun i t => { tile := t, offered := if i = 0 then some (clk + 2) else none }
      { s with cores := { s.cores with
          serials := s.cores.serials.put key ((serial + 1) % 256),
          sweeps := s.cores.sweeps ++ [{ id := p.id, pkt := p, serial, sent := clk, tiles }] } }

/-- QUEUE_SEND: the command that the physical queue serves first, once its wait and R244 are met; an aborted wait aborts it; a
braked or held region sends none (R249, R394). -/
def execQueueSend (region tile : Nat) (s : State) : Result :=
  .next (match s.region region with
    | none => s
    | some g => match (g.queues.lookD tile []).head? with
      | none => s
      | some p =>
        let ahead := (s.queued (g.tmap.lookD tile 0)).any fun e =>
          e.2.id < p.id && !s.engHold e.1 && ((s.region e.1).map fun x => x.brake.isNone).getD false
        if g.brake.isSome || g.dead || s.engHold region || ahead then s
        else match s.waitOf p with
          | .aborted => (s.updRegion region fun g => { g with queues := g.queues.upd tile fun l => l.drop 1 }).abortSignal p.org p.cmd
          | .unmet => s
          | .met => if s.sendable g p tile then s.send region tile g p else s)

-- WLD (R236, R237, R245).

/-- The columns on whose bus a sweep of a region sends its token in the present cycle (R241). -/
def State.tokenCols (s : State) (r : Nat) : List Nat :=
  (s.cores.sweeps.filter fun w => w.pkt.org.ctx.region = r && w.sent = s.regionClk r).filterMap fun w =>
    (w.tiles.head?).map fun x => tileX x.tile
/-- The load that a column bus carries a beat of in the present cycle: none where a token takes the bus (R238); which of several that
share it is left open (log 59). -/
def State.colGrant (s : State) (r col : Nat) : Option Nat :=
  let ls := s.cores.loads.filter fun l => l.pkt.org.ctx.region = r && (l.tiles.head?).map tileX = some col && l.beats < 34
  if (s.tokenCols r).contains col then none else (ls[Config.order (s.free + col) % ls.length]?).map fun l => l.id
/-- The column buses of the regions of awake dies carry their beats (R238). -/
def State.columnBeats (s : State) (awake : Nat → Bool) : State :=
  let won := (s.regions.filter fun e => awake (dieOf e.1)).flatMap fun e => (List.range 8).filterMap (s.colGrant e.1)
  { s with cores := { s.cores with loads := mapIf (fun l => won.contains l.id) (fun l => { l with beats := l.beats + 1 }) s.cores.loads },
           free := s.free + 8 }

/-- WLD_TILE_LOADED: the last of a tile's 34 beats has arrived (R243). INFO 0x24 of uncorrectable data in its image is zero
(DESIGN CHOICE, log 101). -/
def execWldTileLoaded (id : Nat) (s : State) : Result :=
  .next (match s.cores.loads.find? fun l => l.id = id with
    | none => s
    | some l =>
      let r := l.pkt.org.ctx.region
      match s.region r, l.tiles with
      | some g, t :: rest =>
        if 34 ≤ l.beats then
          let key := g.spadKey (l.pkt.f 0x0C 1) ((l.pkt.dataOff + 1088 * l.done).toNat)
          let bad := s.spadBad key 1088
          let st : PlaneSt := if bad then .bad else .ready
          let plane : Plane := { bytes := cellsAt s.store.spad key 1088, fmt := l.pkt.f 0x0B 1, st, valid := !bad }
          let s := s.updRegion r fun g => g.setShadow t fun _ => plane
          let s := if bad then s.sysFault l.pkt 0x0B 3 (some (tileX t, tileY t)) 0 else s
          let fault := l.fault || bad
          if rest.isEmpty then
            let s := { s with cores := { s.cores with loads := s.cores.loads.filter fun x => x.id ≠ id } }
            if fault then s.abortSignal l.pkt.org l.pkt.cmd else s.signal l.pkt.org l.pkt.cmd
          else
            let on (x : Load) : Load := { x with tiles := rest, done := x.done + 1, beats := 0, fault }
            let loads := mapIf (fun x => x.id = id) on s.cores.loads
            { s with cores := { s.cores with loads } }
        else s
      | _, _ => s)

-- Sweeps (R238 to R242).

def State.updSweep (s : State) (id : Nat) (f : Sweep → Sweep) : State :=
  { s with cores := { s.cores with sweeps := mapIf (fun w => w.id = id) f s.cores.sweeps } }
def Sweep.updTile (w : Sweep) (t : Nat) (f : SweepTile → SweepTile) : Sweep :=
  { w with tiles := mapIf (fun x => x.tile = t) f w.tiles }
def Sweep.region (w : Sweep) : Nat := w.pkt.org.ctx.region
/-- The beats that a tile performs. -/
def Sweep.quota (w : Sweep) (x : SweepTile) : Nat := min ((x.dead).getD w.pkt.rowsM) (w.badRow.getD w.pkt.rowsM)
/-- A tile has taken its last row. -/
def Sweep.rowsTaken (w : Sweep) (x : SweepTile) : Bool := x.took.isSome && decide (w.quota x ≤ x.beats)
/-- A tile has done all that it does for a sweep. -/
def Sweep.tileDone (w : Sweep) (clk : Nat) (x : SweepTile) : Bool :=
  w.rowsTaken x && x.rows.isEmpty && (!w.pkt.swap || (x.took.map fun t => decide (t + 7 ≤ clk)).getD false)

/-- A sweep that every tile has done raises its signal, or aborts it after a fault (R245). -/
def State.sweepEnd (s : State) (id : Nat) : State :=
  match s.cores.sweeps.find? fun w => w.id = id with
  | none => s
  | some w =>
    if w.tiles.all (w.tileDone (s.regionClk w.region)) && (w.badRow.isSome || w.rows.length = w.pkt.rowsM ||
        w.tiles.all fun x => x.dead.isSome) then
      let s := { s with cores := { s.cores with sweeps := s.cores.sweeps.filter fun x => x.id ≠ id } }
      if w.fault then s.abortSignal w.pkt.org w.pkt.cmd else s.signal w.pkt.org w.pkt.cmd
    else s

/-- The clock: a swapped shadow is EMPTY from the eighth cycle after its token was taken (R241), and sweeps that end without a write
end. -/
def State.sweepClock (s : State) : State :=
  s.cores.sweeps.foldl (fun s w =>
    let s := if w.pkt.swap then
        w.tiles.foldl (fun s x => match x.took with
          | some t =>
            if t + 7 = s.regionClk w.region then
              s.updRegion w.region fun g => g.setShadow x.tile fun p => if p.st = .claimed then {} else p
            else s
          | none => s) s
      else s
    s.sweepEnd w.id) s

/-- Rows in a tile's buffer, of all the sweeps of the region (R238). -/
def State.rowsBuffered (s : State) (r t : Nat) : Nat :=
  ((s.cores.sweeps.filter fun w => w.region = r).map fun w =>
    ((w.tiles.filter fun x => x.tile = t).map fun x => min w.rows.length (w.quota x) - x.beats).sum).sum

/-- The logical memory tile whose sequencer runs a sweep (R243). -/
def Region.seqTile (g : Region) (w : Sweep) : Nat := (g.bufs.getD (w.pkt.f 0x0C 1) default).tile

/-- A sweep has a row to send that every tile has room for (R238). -/
def State.rowReady (s : State) (w : Sweep) : Bool :=
  decide (w.rows.length < w.pkt.rowsM) && w.badRow.isNone && decide (w.sent + w.rows.length ≤ s.regionClk w.region) &&
    w.tiles.all fun x => x.dead.isSome || decide (s.rowsBuffered w.region x.tile < 8)

/-- The sweep whose rows a sequencer sends: the first, in command order, that has rows left (R243). -/
def State.sending (s : State) (g : Region) (region tile : Nat) : Option Sweep :=
  s.cores.sweeps.find? fun v => v.region = region && g.seqTile v = tile && v.rows.length < v.pkt.rowsM && v.badRow.isNone

/-- The row bus takes a row of the sweep in this cycle: one row a cycle, and alternate rows of two sequencers of a tile row (R238). -/
def State.busGrants (s : State) (g : Region) (w : Sweep) : Bool :=
  let mine := g.seqTile w
  let row := s.cores.sweeps.filter fun v => v.region = w.region && tileY (g.seqTile v) = tileY mine
  let last (p : Sweep → Bool) : Nat := ((row.filter p).map fun v => (v.rowAt.map (· + 1)).getD 0).foldl max 0
  let own := last fun v => g.seqTile v = mine
  let rivals := (row.map g.seqTile).filter fun t => t ≠ mine && ((s.sending g w.region t).map s.rowReady).getD false
  (row.all fun v => v.rowAt ≠ some (s.regionClk w.region)) &&
    rivals.all fun t => decide (own ≤ last fun v => g.seqTile v = t) && (own ≠ 0 || mine < t || last (fun v => g.seqTile v = t) ≠ 0)

/-- By how many cycles the next row is late: past the first cycle in which a tile that has taken the token wants it (R241). -/
def Sweep.lateness (w : Sweep) (clk : Nat) : Nat :=
  let m := w.rows.length
  ((w.tiles.filter fun x => x.took.isSome && x.dead.isNone).map fun x =>
    clk - (x.next + (m - x.beats) + ((w.lates.drop x.beats).sum))).foldl max 0

/-- ROW_BUS_BEAT: the next row, with its scales (R238, R250). -/
def execRowBusBeat (id : Nat) (s : State) : Result :=
  .next (match s.cores.sweeps.find? fun w => w.id = id with
    | none => s
    | some w =>
      let m := w.rows.length
      match s.region w.region with
      | none => s
      | some g =>
        if s.rowReady w && ((s.sending g w.region (g.seqTile w)).map fun v => v.id) = some id && s.busGrants g w then
          let key := g.spadKey (w.pkt.f 0x0C 1) (w.pkt.dataOff.toNat + 32 * m)
          let skey := g.spadKey (w.pkt.f 0x0C 1) (w.pkt.scaleOff.toNat + 2 * m)
          let mx := fmtClass (w.pkt.f 0x0B 1) ≠ 1
          if s.spadBad key 32 || (mx && s.spadBad skey 2) then
            ((s.updSweep id fun w => { w with badRow := some m, fault := true }).sysFault w.pkt 0x0B 3 none m).sweepEnd id
          else
            let row := (m, cellsAt s.store.spad key 32, if mx then cellsAt s.store.spad skey 2 else [])
            s.updSweep id fun w =>
              { w with rows := w.rows ++ [row], lates := w.lates ++ [w.lateness (s.regionClk w.region)], rowAt := some (s.regionClk w.region) }
        else s)

/-- Every beat of a sweep that takes its token now, one a cycle, comes after the writes of the sweeps before it to the same row (R242); so too those of
a sweep with ZC, which read no row (DESIGN CHOICE, log 97). -/
def State.rowsClear (s : State) (w : Sweep) (tile clk : Nat) : Bool :=
  let row0 := w.pkt.f 0x18 1
  (s.cores.sweeps.filter fun v => v.id != w.id && v.region = w.region).all fun v => v.tiles.all fun y =>
    y.tile ≠ tile || y.rows.all fun e => e.1 < row0 || row0 + w.pkt.rowsM ≤ e.1 || decide (e.2.1 < clk + (e.1 - row0))

/-- SWEEP_TOKEN_TAKE (R241, R242): the swap goes with the token; an active plane that is EMPTY or BAD performs no beat (R250), and waits for
no row. -/
def execSweepTokenTake (id tile : Nat) (s : State) : Result :=
  .next (match s.cores.sweeps.find? fun w => w.id = id with
    | none => s
    | some w => match w.tiles.find? fun x => x.tile = tile with
      | none => s
      | some x =>
        let clk := s.regionClk w.region
        let earlier := s.cores.sweeps.any fun v => v.id != id && v.region = w.region && v.tiles.any fun y =>
          y.tile = tile && ((y.took.isSome && !(v.rowsTaken y && decide (y.next ≤ clk) && y.took ≠ some clk)) ||
            (y.took.isNone && match y.offered, x.offered with
              | some a, some b => decide (a < b)
              | _, _ => false))
        match x.offered, x.took with
        | some at_, none =>
          let ready := ((s.region w.region).map fun (g : Region) =>
            if w.pkt.swap then (g.shadowOf tile).valid else (g.activeOf tile).st = .ready).getD false
          if at_ ≤ clk && !earlier && (!ready || s.rowsClear w tile clk) then
            let s := if w.pkt.swap then
                s.updRegion w.region fun g =>
                  let sh := g.shadowOf tile
                  { g with active := g.active.put tile { sh with st := if sh.valid then .ready else .bad } }
              else s
            let plane : Plane := ((s.region w.region).map fun (g : Region) => g.activeOf tile).getD {}
            let bad : Bool := plane.st ≠ .ready
            let next := ((w.tiles.dropWhile fun y => y.tile ≠ tile).drop 1).head?
            let s := s.updSweep id fun w =>
              let w := w.updTile tile fun y => { y with took := some clk, next := clk, dead := if bad then some 0 else y.dead }
              let w := match next with
                | some n => w.updTile n.tile fun y => { y with offered := some (clk + 2) }
                | none => w
              { w with fault := w.fault || bad }
            if bad then s.sysFault w.pkt 0x0F 0xFF (some (tileX tile, tileY tile)) 0 else s
          else s
        | _, _ => s)

/-- The residue mismatches that a physical tile's MAC planes meet in a beat, 1 or 2 (R442), and the name that they stand under. -/
def macKey (phys : Nat) : Nat := 2 ^ 18 + phys
def State.tileGlitch (s : State) (phys : Nat) : Option Nat := s.fab.glitch.look (macKey phys)

/-- SWEEP_BEAT: a tile takes its next row and its C values (R239 to R242, R250). Under ZC it waits for earlier writes of its row all the same
(DESIGN CHOICE, log 97). -/
def execSweepBeat (id tile : Nat) (s : State) : Result :=
  .next (match s.cores.sweeps.find? fun w => w.id = id with
    | none => s
    | some w => match w.tiles.find? fun x => x.tile = tile, s.region w.region with
      | some x, some g =>
        let clk := s.regionClk w.region
        let m := x.beats
        let crow := w.pkt.f 0x18 1 + m
        let pending := s.cores.sweeps.any fun v => v.id != id && v.region = w.region &&
          v.tiles.any fun y => y.tile = tile && y.rows.any fun e => e.1 = crow
        match x.took, w.rows[m]? with
        | some _, some (_, row, scales) =>
          let late := w.lates.getD m 0
          if m < w.quota x && x.next + late ≤ clk && pending then
            -- The wait moves the beat and the tile's later ones (R242).
            s.updSweep id fun w => w.updTile tile fun y => { y with next := clk + 1 - late }
          else if m < w.quota x && x.next + late ≤ clk then
            let keys := (List.range 32).map fun n => g.rowKey tile crow n
            let zc := bitOf 0 (w.pkt.f 0x0D 1)
            let phys := g.tmap.lookD tile 0
            let glitch := s.tileGlitch phys
            let s := match glitch with
              | some _ => s.takeGlitch (macKey phys) (coreOf w.region)
              | none => s
            let mem : Option Nat := match glitch with
              | some 2 => some 8
              | _ => if !zc && keys.any s.tsBad then some 4 else none
            match mem with
            | some code =>
              let stop (w : Sweep) : Sweep := { w.updTile tile (fun y => { y with dead := some m }) with fault := true }
              ((s.updSweep id stop).sysFault w.pkt 0x0B code (some (tileX tile, tileY tile)) m).sweepEnd id
            | none =>
              let af := w.pkt.f 0x0B 1
              let plane := g.activeOf tile
              let res := keys.mapIdx fun n k =>
                BitVec.ofNat 32 (beatResult af row scales plane n (if zc then 0x80000000 else (s.tsWord k).toNat))
              let due := clk + 8 + if glitch.isSome then 2 else 0
              s.updSweep id fun w => w.updTile tile fun y =>
                { y with beats := m + 1, rows := y.rows ++ [(crow, due, res)], next := clk + 1, last := some clk }
          else s
        | _, _ => s
      | _, _ => s)

/-- SWEEP_ROW_WRITE: a beat's results are written at the end of their cycle (R241), and the sweep's signal follows the last. -/
def execSweepRowWrite (id tile : Nat) (s : State) : Result :=
  .next (match s.cores.sweeps.find? fun w => w.id = id with
    | none => s
    | some w => match w.tiles.find? fun x => x.tile = tile, s.region w.region with
      | some x, some g => match x.rows with
        | (crow, due, ws) :: rest =>
          if due ≤ s.regionClk w.region then
            let s := ((List.range 32).zip ws).foldl (fun s e => s.tsPut (g.rowKey tile crow e.1) e.2) s
            (s.updSweep id fun w => w.updTile tile fun y => { y with rows := rest }).sweepEnd id
          else s
        | [] => s
      | _, _ => s)

-- Corner-turn nodes (R247).

/-- The tokens that a node holds as it detaches go on from it, one a cycle, each under a credit of the target (R247). -/
def Node.leftover (n : Node) (uid at_ hops : Nat) : List Flit :=
  n.fifo.mapIdx fun i t =>
    { id := uid + i, own := 0, ctx := n.ctx, o := n.o, past := some hops, owes := true, filled := true, payload := t.payload, tag := t.tag,
      arrive := at_ + i + hops }

/-- A node detaches (R247): the target's credits are the route's again, but for those that the tokens in the node, or on their way to it,
take first. -/
def State.detach (s : State) (r t : Nat) (n : Node) : State :=
  let retag (v : Via) : Via := if v = .node r t then .route n.ctx n.o else v
  let hops := s.viaHop (.node r t)
  let coming (f : Flit) : Bool := f.node = some (r, t)
  let on (f : Flit) : Flit := { f with past := some hops, owes := true, arrive := if f.filled then f.arrive + hops else f.arrive }
  let fab := { s.fab with
    elems := s.fab.elems.map fun (e : Nat × Elem) =>
      (e.1, { e.2 with ch := e.2.ch.map fun q => q.map fun (x : Token) => { x with via := retag x.via } }),
    credRets := (s.fab.credRets.filter fun x => x.dest ≠ .route n.ctx n.o).map fun x => { x with dest := retag x.dest },
    flits := s.fab.flits.filter (fun f => !coming f) ++ n.leftover s.uid (s.regionClk r) hops ++ (s.fab.flits.filter coming).map on }
  let s := { s with fab, uid := s.uid + n.fifo.length }
  ((s.updRegion r fun g => { g with nodes := g.nodes.drop t, ckpt := g.ckpt.map fun e => (retag e.1, e.2) }).updCtx n.ctx fun c =>
    { c with credits := setAt 8 0 c.credits n.o n.credits }).payDebts n.ctx n.o

/-- CT_NODE_ACCEPT: a token of the FIFO goes into the store; a braked region's nodes accept none (R249). -/
def execCtNodeAccept (region tile : Nat) (s : State) : Result :=
  .next (match s.region region with
    | none => s
    | some g => match g.nodes.look tile with
      | none => s
      | some n => match n.fifo with
        | [] => s
        | tok :: rest =>
          if n.emitting || n.detached || g.brake.isSome then s
          else
            let store := n.store ++ [tok]
            let full (n : Node) : Node := { n with fifo := rest, store, emitting := store.length = n.n * n.n }
            (s.updRegion region fun g => { g with nodes := g.nodes.upd tile full }).returnCredit tok.via)

/-- A node emits one token towards the target of its route. -/
def State.nodeEmit (s : State) (r t : Nat) (n : Node) (tok : Token) : State :=
  let hops := s.viaHop (.node r t)
  let flit : Flit := { id := s.uid, own := 0, ctx := n.ctx, o := n.o, filled := true, payload := tok.payload, tag := tok.tag,
                       arrive := s.regionClk r + hops }
  ({ s.bump with fab := { s.fab with flits := s.fab.flits ++ [flit] } }).updRegion r fun g =>
    { g with nodes := g.nodes.upd t fun n => { n with credits := n.credits - 1 } }

/-- CT_NODE_EMIT: the next token of a full block, in column order; in the cycle after the last of BLK blocks the node detaches and
signals (R247). It waits for the checkpoint tokens of its edge (R389). -/
def execCtNodeEmit (region tile : Nat) (s : State) : Result :=
  .next (match s.region region, (s.region region).bind fun g => g.nodes.look tile with
    | some g, some n =>
      if n.detached then (s.detach region tile n).signal n.pkt.org n.pkt.cmd
      else if n.credits = 0 || !(g.ckpt.all fun e => !g.viaServes n.ctx n.o e.1) then s
      else if n.emitting then
        let i := n.pos
        let s := s.nodeEmit region tile n (n.store.getD (i % n.n * n.n + i / n.n) default)
        let upd (f : Node → Node) (s : State) : State := s.updRegion region fun g => { g with nodes := g.nodes.upd tile f }
        if i + 1 < n.n * n.n then upd (fun n => { n with pos := i + 1 }) s
        else
          let over_ := n.blk ≠ 0 ∧ n.blocks + 1 = n.blk
          upd (fun n => { n with pos := 0, store := [], emitting := false, blocks := n.blocks + 1, detached := over_ }) s
      else s
    | _, _ => s)

end Sys2Proof.Machine
end

