-- ==== Sys2Proof/Machine/Tex.lean ====
section
/-!
DEFINITION. TEX (R413 to R417): texture descriptors, the texels of a sample with their weights, and the filtered result.
-/

namespace Sys2Proof.Machine

-- Descriptors (R413).

structure TexDesc where
  base : Nat
  wl : Nat
  hl : Nat
  nl : Nat
  fmt : Nat
  am : Nat
  deriving DecidableEq, Repr, Inhabited

def texDesc (bs : List Byte) : TexDesc :=
  let b (n : Nat) : Nat := (bs.getD n 0#8).toNat
  { base := leNat (bs.take 8), wl := b 8, hl := b 9, nl := b 10, fmt := b 11, am := b 12 }
/-- The byte offset of the first field that breaks R413. -/
def badTexDesc (bs : List Byte) : Option Nat :=
  let d := texDesc bs
  let checks : List (Nat × Bool) :=
    [(0, badAddr d.base 256), (8, decide (14 < d.wl)), (9, decide (14 < d.hl)),
     (10, decide (d.nl = 0 ∨ 1 + max d.wl d.hl < d.nl)), (11, decide (3 < d.fmt)), (12, decide (3 < d.am)),
     (13, (bs.drop 13).any fun b => b ≠ 0#8)]
  (checks.find? fun c => c.2).map fun c => c.1

/-- The width and height of a level, and its base. -/
def TexDesc.w (d : TexDesc) (l : Nat) : Nat := 2 ^ (d.wl - l)
def TexDesc.h (d : TexDesc) (l : Nat) : Nat := 2 ^ (d.hl - l)
def TexDesc.levelBase (d : TexDesc) : Nat → Nat
  | 0 => d.base
  | l + 1 => d.levelBase l + 256 * ((4 * d.w l * d.h l + 255) / 256)

-- Texels and weights (R414). A value of f32 is a whole number of units of 2^−149.

/-- A coordinate in units of 2^−149; NaN and infinities are +0. -/
def texCoord (w : Word) : Int :=
  match fp32.val w.toNat with
  | .fin s m e => let n : Int := (m * 2 ^ (e + 149).toNat : Nat); if s then -n else n
  | _ => 0

/-- One unit of 2^−149, as a scale. -/
def texOne : Int := 2 ^ 149

/-- The nearest integer to a coordinate, ties to even. -/
def texRound (x : Int) : Int :=
  let q := x / texOne
  let r := x % texOne
  if 2 * r < texOne ∨ (2 * r = texOne ∧ q % 2 = 0) then q else q + 1

/-- A texel index under an address mode. -/
def texAddr (wrap : Bool) (i : Int) (n : Nat) : Nat := if wrap then (i % n).toNat else (clampTo 0 ((n : Int) - 1) i).toNat
/-- The virtual address of a texel. -/
def TexDesc.texel (d : TexDesc) (l : Nat) (i j : Int) : Nat :=
  d.levelBase l + 4 * (texAddr (bitOf 1 d.am) j (d.h l) * d.w l + texAddr (bitOf 0 d.am) i (d.w l))

/-- The four texels of a bilinear sample at a level, with weights in units of 2^−300. -/
def TexDesc.linear (d : TexDesc) (l : Nat) (u v : Int) : List (Nat × Int) :=
  let one : Int := 2 ^ 150
  let x := 2 * u * d.w l - texOne
  let y := 2 * v * d.h l - texOne
  let i := x / one
  let j := y / one
  let fx := x % one
  let fy := y % one
  [(d.texel l i j, (one - fx) * (one - fy)), (d.texel l (i + 1) j, fx * (one - fy)), (d.texel l i (j + 1), (one - fx) * fy),
   (d.texel l (i + 1) (j + 1), fx * fy)]

/-- The texels of a sample, with weights in units of 2^−449; those of weight zero are left out. -/
def TexDesc.taps (d : TexDesc) (f : TexFn) (u v lod : Word) : List (Nat × Int) :=
  let x := texCoord u
  let y := texCoord v
  let z := texCoord lod
  let top : Int := (d.nl : Int) - 1
  let near := (clampTo 0 top (texRound z)).toNat
  let all : List (Nat × Int) := match f with
    | .pt => [(d.texel near (x * d.w near / texOne) (y * d.h near / texOne), 2 ^ 449)]
    | .lin => (d.linear near x y).map fun t => (t.1, t.2 * texOne)
    | .tri =>
      let c := clampTo 0 (top * texOne) z
      let l0 := (c / texOne).toNat
      let g := c % texOne
      ((d.linear l0 x y).map fun t => (t.1, t.2 * (texOne - g))) ++
        (d.linear (min (l0 + 1) (d.nl - 1)) x y).map fun t => (t.1, t.2 * g)
  all.filter fun t => t.2 ≠ 0

/-- The nearest integer to a fraction of 2^449, ties to even. -/
def nearest449 (n : Nat) : Nat :=
  let q := n / 2 ^ 449
  let r := n % 2 ^ 449
  if 2 * r < 2 ^ 449 ∨ (2 * r = 2 ^ 449 ∧ q % 2 = 0) then q else q + 1

/-- The filtered word from texel words with their weights. -/
def texResult (fmt : Nat) (ts : List (Word × Int)) : Word :=
  let chans (t : Ty) : Word := packCodes t fun i =>
    (fmtOf t).round .rn false 0 (Fv.sum false (ts.map fun x => (laneVal t x.1 i).mul (.fin false x.2.toNat (-449))))
  match fmt with
  | 0 => chans .f32
  | 1 => chans .f16x2
  | 2 => chans .bf16x2
  | _ => packCodes .u8x4 fun i => nearest449 ((ts.map fun x => laneNat .u8x4 x.1 i * x.2.toNat).sum)

-- The accesses of a TEX (R415, R417).

/-- A block that a TEX waits for, with what its record names: size, window, offset and address. -/
structure TexWait where
  r : Range
  blk : Nat
  size : Nat
  win : Nat
  off : Nat
  va : Nat
  deriving DecidableEq, Repr, Inhabited

/-- What a TEX finds: a fault, blocks that are not FULL, or its result with what is found at the reply (R47, R424): class,
INFO and address. -/
inductive TexRes where
  | fault (cls : Nat) (info : List Byte) (va : Nat)
  | fills (ws : List TexWait)
  | go (res : Word) (bad : Option (Nat × List Byte × Nat))
  /-- A link on its way retrains (R423): it is tried again. -/
  | wait
  deriving Repr, Inhabited

/-- INFO of a TEX's record of classes 0x01 and 0x02. -/
def texInfo (size win off level cause : Nat) : List Byte := accInfo 5 size win off level cause 0

/-- The texels' addresses with their translations, or the first cause of each kind. -/
structure TexGot where
  locs : List (Nat × Nat) := []
  notTex : Option (Nat × Nat) := none
  deny : Option (Nat × Deny) := none
  fills : List (Range × Nat × Nat) := []
  deriving Repr, Inhabited

/-- Translates texel addresses in ascending order. -/
def State.texXlate (q : Ask) : List Nat → TexGot → State → TexGot × State
  | [], g, s => (g, s)
  | va :: rest, g, s =>
    match s.xlate { q with va } with
    | (.ok loc, s) => State.texXlate q rest { g with locs := g.locs ++ [(va, loc)] } s
    | (.deny (.fault 0x02 lv 6), s) => State.texXlate q rest { g with notTex := g.notTex.or (some (va, lv)) } s
    | (.deny d, s) => State.texXlate q rest { g with deny := g.deny.or (some (va, d)) } s
    | (.fill r b, s) => State.texXlate q rest
        { g with fills := if g.fills.any fun f => f.1 = r && f.2.1 = b then g.fills else g.fills ++ [(r, b, va)] } s

/-- The pieces of the descriptor in its 4 KiB groups. -/
def pieces (va n : Nat) : List (Nat × Nat) :=
  let k := min n (4096 - va % 4096)
  if k = n then [(va, n)] else [(va, k), (va + k, n - k)]

/-- Reads the descriptor at an address. -/
def State.texRead (s : State) (q : Ask) (core off : Nat) (rounded : Bool) (first : Nat → Nat → Bool) (va : Nat) : List (Nat × Nat) → Except TexRes (List Byte) × State
  | [] => (.ok [], s)
  | (a, n) :: rest =>
    match s.xlate { q with va := a } with
    | (.deny (.fault c l cause), s) => (.error (.fault c (texInfo 32 15 off l cause) va), s)
    | (.deny (.bad code), s) => (.error (.fault 0x0B ([5#8, BitVec.ofNat 8 code, 0#8, 0#8] ++ natLe 4 off) va), s)
    | (.deny (.link l), s) => (.error (.fault 0x12 [BitVec.ofNat 8 l] va), s)
    | (.deny .wait, s) => (.error .wait, s)
    | (.fill r blk, s) => (.error (.fills [{ r, blk, size := 32, win := 15, off, va }]), s)
    | (.ok loc, s) =>
      let secs := sectorsOf loc n
      if s.retrains (dieOfCore core) (homeDie loc) || secs.any (fun e => first (a + (e.1 - loc)) e.1) then (.error .wait, s) else
      match secs.findSome? fun e => s.readStop core rounded 5 e.1 e.2 with
      | some (0x0B, i) => (.error (.fault 0x0B ((i ++ [0#8, 0#8]).take 4 ++ natLe 4 off) va), s)
      | some (c, i) => (.error (.fault c i va), s)
      | none =>
        let bs := s.readBytes core rounded loc n
        match s.texRead q core off rounded first va rest with
        | (.ok cs, s) => (.ok (bs ++ cs), s)
        | e => e

/-- Performs a TEX up to its result (R413 to R415, R417): of context `c`, whose requests before `id` come first (R204). -/
def State.texGo (s : State) (r gang : Nat) (rounded : Bool) (f : TexFn) (slot : Nat) (u v lod : Word) (c : CtxId) (lease id : Nat) :
    TexRes × State :=
  let first (va loc : Nat) : Bool := s.ownFirst c lease id va loc
  let core := coreOf r
  let x := s.gang gang
  let arg := (x.map fun g => g.arg).getD 0
  let off := 0xC000 + 32 * slot
  let mal (field : Nat) : TexRes := .fault 0x0F ([0x4F#8, BitVec.ofNat 8 field, 0#8, 0#8] ++ natLe 4 off) 0
  let q : Ask := { die := dieOf r, core := some core, as_ := (x.map fun g => g.as_).getD 0, va := 0, r := true, gang }
  if arg = 0 then (mal 0xFF, s)
  else match s.texRead q core off rounded first (arg + off) (pieces (arg + off) 32) with
    | (.error e, s) => (e, s)
    | (.ok bs, s) => match badTexDesc bs with
      | some o => (mal o, s)
      | none =>
        let d := texDesc bs
        let taps := d.taps f u v lod
        let (g, s) := State.texXlate { q with tex := true } ((taps.map fun t => t.1).dedup.mergeSort fun a b => decide (a ≤ b)) {} s
        let tail (va : Nat) : List Byte := [0xFF#8, 0#8] ++ natLe 4 (va - d.base)
        match g.notTex, g.deny, g.fills with
        | some (va, lv), _, _ => (.fault 0x02 (texInfo 4 0xFF (va - d.base) lv 6) va, s)
        | none, some (va, .fault c lv cause), _ => (.fault c (texInfo 4 0xFF (va - d.base) lv cause) va, s)
        | none, some (va, .bad code), _ => (.fault 0x0B ([5#8, BitVec.ofNat 8 code] ++ tail va) va, s)
        | none, some (va, .link l), _ => (.fault 0x12 [BitVec.ofNat 8 l] va, s)
        | none, some (_, .wait), _ => (.wait, s)
        | none, none, w :: ws =>
          (.fills ((w :: ws).map fun w => { r := w.1, blk := w.2.1, size := 4, win := 0xFF, off := w.2.2 - d.base, va := w.2.2 }), s)
        | none, none, [] =>
          if g.locs.any fun t => s.retrains (dieOf r) (homeDie t.2) || first t.1 t.2 then (.wait, s) else
          let bad := g.locs.findSome? fun t =>
            (s.readStop core rounded 5 t.2 4).map fun e =>
              (e.1, if e.1 = 0x0B then e.2.take 2 ++ tail t.1 else e.2, t.1)
          let word (va : Nat) : Word := ((g.locs.find? fun t => t.1 = va).map fun t => leWord (s.readBytes core rounded t.2 4)).getD 0#32
          let s := g.locs.foldl (fun s t => s.touch (clusterOf r) t.2) s
          (.go (texResult d.fmt (taps.map fun t => (word t.1, t.2))) bad, s)

/-- The first fault of its own that a TEX meets at the fills it needs (R360, R361, R363). -/
def State.texOwn (s : State) (as_ gang : Nat) (ws : List TexWait) : Option (Nat × List Byte × Nat) :=
  ws.findSome? fun w => (s.joinFault w.r as_ w.blk gang).map fun f =>
    (f.1, ownFillInfo 5 w.size w.win w.off (w.r, w.blk, f.1, f.2), w.va)

/-- The reply of a TEX that has been performed. -/
def State.texReply (s : State) (id : Nat) (res : Word) (bad : Option (Nat × List Byte × Nat)) : State :=
  s.updReq id fun q =>
    let stage : Stage := match bad with
      | none => .reply (q.done res (res != 0#32))
      | some (c, i, va) => .bad (s.mkRec q.org c i va) { q.done 0#32 false with good := false }
    { q with stage }

def execTex (f : TexFn) (r : Rule) (s₀ : State) : Result :=
  let s := s₀
  .next (match view s r .f32 with
    | none => s
    | some v =>
      let slot := r.imm.toNat % 256
      let n := memNeed v
      if v.ready n s then
        let (x, s) := s.texGo v.r v.g.gang v.x.isRounded f slot v.a v.b v.c v.f.ctx v.g.lease s.uid
        let raise (s : State) (c : Nat) (i : List Byte) (va : Nat) : State :=
          s.raise v.f v.x.isRounded (s.mkRec (s.origin v.f v.x.isRounded) c i va)
        match x with
        | .fault c i va => raise s c i va
        | .wait => s₀
        | .go res bad =>
          let id := s.uid
          ((v.commit n true s).addReq (v.req s id true false .sent)).texReply id res bad
        | .fills ws =>
          let as_ := ((s.gang v.g.gang).map fun g => g.as_).getD 0
          match s.texOwn as_ v.g.gang ws with
          | some (c, i, va) => raise s c i va
          | none =>
            if v.x.isRounded then
              let id := s.uid
              let s := (v.commit n true s).addReq (v.req s id true false (.texFill f slot v.a v.b v.c))
              s.joinFills as_ (ws.map fun w => (w.r, w.blk, .req id 5 w.size.log2 w.win w.off w.va))
            else
              (s.freezeFill v.f.ctx v.f.slot).joinFills as_
                (ws.map fun w => (w.r, w.blk, .elem v.f.ctx v.f.slot 5 w.size.log2 w.win w.off w.va))
      else s)

/-- A TEX of a round that waited on fills is issued again (R359, R415). -/
def State.redoTex (s : State) (id : Nat) : State :=
  match s.req id with
  | none => s
  | some q => match q.stage with
    | .texFill f slot u v lod =>
      let r := q.org.ctx.region
      let drop (s : State) (c : Nat) (i : List Byte) (va : Nat) : State :=
        (s.dropReq id).raise { ctx := q.org.ctx, slot := q.org.slot } true (s.mkRec q.org c i va)
      match s.texGo r q.org.gang true f slot u v lod q.org.ctx q.org.lease id with
      | (.fault c i va, s) => drop s c i va
      | (.go res bad, s) => s.texReply id res bad
      | (.wait, _) => s
      | (.fills ws, s) =>
        let as_ := ((s.gang q.org.gang).map fun g => g.as_).getD 0
        match s.texOwn as_ q.org.gang ws with
        | some (c, i, va) => drop s c i va
        | none => s.joinFills as_ (ws.map fun w => (w.r, w.blk, .req id 5 w.size.log2 w.win w.off w.va))
    | _ => s

end Sys2Proof.Machine
end

