-- ==== Sys2Proof/Machine/Eligible.lean ====
section
/-!
DEFINITION. Which firings may happen (R27, R40, R41): the needs of every instruction, as its meaning tests them.
-/

namespace Sys2Proof.Machine

/-- What an instruction adds to the tests of R27. -/
def needFor (s : State) (v : View) : Instr → Need
  | .sel p _ | .iaddx p _ _ => { needOf v.rule with preds := [p] }
  | .pset f r => { needOf v.rule with preds := psetReads f r.imm }
  | .pget r => { needOf v.rule with preds := [r.imm.setWidth 3] }
  | .idiv .. => { needOf v.rule with idiv := true }
  | .steer _ => { needOf v.rule with om := steerMask v }
  | .merge _ => { needOf v.rule with dq := mergePops v, merge := true }
  | .shuf .. | .tred .. => { needOf v.rule with lane := true }
  | .ret _ => { needOf v.rule with unmasked := true }
  | .ld _ _ r => if isPrefetch r then needOf v.rule else gNeed v
  | .st .. => { gNeed v with bytes := if v.x.isRounded then 16 else 0, mem := some (if v.x.isRounded then {} else v.gOrd) }
  | .aadd .. | .amin .. | .amax .. | .aand .. | .aor .. | .axor .. | .aswap .. | .amaxU64 _ | .axaddF32 _ | .acas _ | .xrd _
  | .xrdClr _ | .waita .. | .fence _ => gNeed v
  | .ldS .. | .lds .. | .rpush _ | .rpushTry _ | .rpop _ | .rpopTry _ | .agset .. | .agctlStart _ | .agctlStop _ | .agctlRew _
  | .agctlStat _ | .trd _ | .tex .. | .semRd _ | .barw _ | .qrsv _ | .qcan _ | .qpop _ | .pstat _ | .cover _ => memNeed v
  | .sts .. | .twr _ => { memNeed v with bytes := if v.x.isRounded then 16 else 0 }
  | .tcpy _ => { needOf v.rule with mem := some { rel := !v.x.isRounded }, bytes := if v.x.isRounded then 32 else 0 }
  | .wld _ | .sweep _ | .sweepSwap _ | .cturn _ | .copy _ | .cllct .. | .qput _ | .launch _ | .pdone _ => cmdNeed { rel := true } v
  | .pfail _ => cmdNeed {} v
  | .semSig _ | .barx _ | .bara _ => cmdNeed arOrd v
  | .isectBox4 _ => isectNeed 0 v
  | .isectTri _ | .isectRib _ | .isectTube _ | .isectBlp _ => isectNeed 1 v
  | .dbgMark _ | .dbgDump _ => dbgNeed s v
  | _ => needOf v.rule

/-- A firing may happen (R27), or as a follower's due firing (R40). -/
def State.fireable (s : State) (f : Firing) : Bool :=
  match slotView s f with
  | some (i, v) => v.ready (needFor s v i) s
  | none => false
/-- A follower's due firing is masked (R40). -/
def State.maskedAt (s : State) (f : Firing) : Bool :=
  match slotView s { f with follower := true } with
  | some (i, v) => v.masked i s
  | none => false

/-- The slots of a context that may fire, with whether they are idle (R27, R33). -/
def State.eligible (s : State) (c : CtxId) : List (Nat × Bool) :=
  match s.ctx c with
  | none => []
  | some x =>
    if x.fol || x.isSystolic then []
    else ((List.range x.slots.length).filter fun n => s.fireable { ctx := c, slot := n }).map fun n =>
      (n, match slotView s { ctx := c, slot := n } with
        | some (_, v) => v.rule.guard.kind == .idle
        | none => false)

/-- The members of a leader's chain that are due in the next chain cycle, with their slots (R40): member m fires what the leader fired m
chain cycles before. Members that still owe a firing of the present one come alone (R393). -/
def Region.dues (g : Region) (r : Nat) (x : Ctx) : List (Nat × Firing) :=
  let els := g.chainFrom x.k 16 x.el
  let of (m slot : Nat) : Nat × Firing := (m, { ctx := { region := r, el := els.getD m x.el, k := x.k }, slot, follower := true })
  if x.owed.isEmpty then
    ((List.range els.length).drop 1).filterMap fun m => ((x.hist[m - 1]?).bind id).map (of m)
  else x.owed.filterMap fun m => ((x.hist[m]?).bind id).map (of m)

/-- The leaders of a region's chains. -/
def Region.leaders (g : Region) : List Ctx := g.ctxs.filter fun x => !x.fol && decide (1 < x.hist.length)

/-- Nothing of a region's context set may fire, and no follower is due (R186, R383). While a step is under way, which is one event,
what followers still owe waits for later steps (R393). -/
def State.still (s : State) (r : Nat) (g : Region) (cs : List Ctx) : Bool :=
  cs.all fun x => (s.eligible (x.id r)).isEmpty && (g.stepping || !g.leaders.contains x || (g.dues r x).isEmpty)

end Sys2Proof.Machine
end

