-- ==== Sys2Proof/Machine/Rounds.lean ====
section
/-!
DEFINITION. The rounds of a region (R180 to R190): when one opens, when it is quiescent, its commit, and the drain of a half; and what
follows a wide release (R290).
-/

namespace Sys2Proof.Machine

/-- The half with the number given. -/
def Round.halfNo (r : Round) (h : Nat) : Half := if h = 0 then r.h0 else r.h1
def Round.setHalfNo (r : Round) (h : Nat) (x : Half) : Round := if h = 0 then { r with h0 := x } else { r with h1 := x }

/-- ROUND_OPEN (R181, R188). -/
def execRoundOpen (region : Nat) (s : State) : Result :=
  .next (match s.region region with
    | some g => if g.mayOpen then s.openRound region else s
    | none => s)

/-- The round is quiescent (R186). -/
def State.quiescent (s : State) (r : Nat) (g : Region) : Bool :=
  let mine (c : CtxId) : Bool := c.region = r && g.isRoundCtx c
  g.round.isOpen && !g.dead &&
    (g.gens.all fun e => !(e.2.rounded && e.2.running) || e.2.quota = 0) &&
    (g.gens.all fun e => !e.2.rounded || !(e.2.fetch = .reading || e.2.fetch = .fill)) &&
    s.still r g g.roundSet &&
    (s.fab.wbs.all fun w => !mine w.ctx) && (s.fab.flits.all fun f => !mine f.ctx || f.atNode (s.regionClk r)) &&
    (s.fab.lanes.all fun l => !mine l.lead) &&
    s.fab.reqs.all fun q => !(mine q.org.ctx && q.org.rounded)

/-- What a commit does to a context (R138, R180, R187). -/
def Ctx.commit (c : Ctx) : Ctx :=
  { c with rndn := c.rndn + 1#32, retired := c.retired || c.retiring, retiring := false, trapped := !c.traps.isEmpty, traps := [] }

/-- ROUND_COMMIT (R187): contexts, ring counters and retirements take effect, records of traps are given over, the checkpoint is taken,
and the half begins to drain. -/
def State.commitRound (s : State) (r : Nat) (g : Region) : State :=
  let s := g.roundSet.foldl (fun s c => c.traps.foldl (fun s rcd => s.giveRec (c.id r) (coreOf r) (s.fringOf g.gang) [] rcd) s) s
  let s := s.updRegion r fun g => { g with ctxs := mapIf Ctx.isRounded Ctx.commit g.ctxs }
  let s := (g.roundSet.map fun c => g.phys c.el).dedup.foldl State.tidy s
  let s : State := { s with regions := s.regions.map fun (e : Nat × Region) => (e.1, { e.2 with rings := e.2.rings.map fun q => q.publish r }) }
  let h := g.round.n % 2
  let s := s.updRegion r fun g => { g with round :=
    { g.round with n := g.round.n + 1, isOpen := false, early := false,
                   drain := if (g.round.halfNo h).entries.isEmpty then g.round.drain else g.round.drain ++ [h] } }
  let s := s.updRegion r fun g =>
    if (g.round.halfNo h).entries.isEmpty then { g with round := g.round.setHalfNo h {} } else g
  match s.region r with
  | none => s
  | some g =>
    let sh := s.checkpoint r g
    let sh := { sh with ctxs := sh.ctxs.map fun c => { c with trapped := false } }
    s.updRegion r fun g => { g with round := { g.round with shadow := some sh } }

def execRoundCommit (region : Nat) (s : State) : Result :=
  .next (match s.region region with
    | some g => if s.quiescent region g then s.commitRound region g else s
    | none => s)

-- Draining (R187, R206, R257, R324).

/-- Entries that are releases at .die or wider (R290). -/
def Held.wide : Held → Bool
  | .st _ _ _ w => w
  | .cmd p => p.opc = 0x57 || p.opc = 0x59 || (p.opc = 0x5A && p.fn = 0)
  | _ => false

/-- A held entry meets a failed link: it is dropped, and the record posted (R424). -/
def State.dropEntry (s : State) (e : Entry) (l va : Nat) : State :=
  s.engineFault e.org (s.mkRec e.org 0x12 [BitVec.ofNat 8 l] va)

/-- A row of a held TCPY is moved, in a cycle that no sweep beat takes (R232): what is left of the copy, and the state; a word that is
uncorrectable ends it. -/
def State.drainRow (s : State) (r : Nat) (e : Entry) (rw bw : Word) : Option (Option Held × State) :=
  match s.region r with
  | none => some (none, s)
  | some g =>
    let row := g.rowKey (e.org.ctx.el / 16) (tcRow rw) 0
    if s.storeBusy (row / 8192) then none
    else match s.tcopyRow (tcDir rw) row (g.spadKey (tcBuf bw) (tcOff bw)) with
      | (some code, s) => some (none, s.engineFault e.org (s.mkRec e.org 0x0B (badInfo 0 code)))
      | (none, s) => some (if tcCount rw ≤ 1 then none else some (.tcpy (rw - 0xFF#32) (bw + 128#32)), s)

/-- Performs an entry: the packet whose acceptance the drain awaits, what is left of the entry (R232), and the state after it; none where it
must wait (R308, R423). -/
def State.performEntry (s : State) (r : Nat) (e : Entry) : Option (Option Nat × Option Held × State) :=
  let core := coreOf r
  match e.eff with
  | .st loc va bytes wide =>
    if e.lost then some (none, none, s) else
    match s.cut (dieOf r) (homeDie loc) with
    | some l => some (none, none, s.dropEntry e l va)
    | none =>
      let cl := clusterOf r
      if !wide then some (none, none, s.cachePut cl loc bytes)
      else if s.retrains (dieOf r) (homeDie loc) then none
      else some (none, none, s.homeWrite cl loc bytes)
  | .spad key bytes => some (none, none, s.spadPut key bytes)
  | .twr key w => if s.storeBusy (key / 8192) then none else some (none, none, s.tsPut key w)
  | .tcpy rw bw => (s.drainRow r e rw bw).map fun t => (none, t)
  | .cmd p =>
    match p.opc with
    | 0x50 | 0x51 | 0x52 => some (some p.id, none, sendSystolic p s)
    | 0x53 => some (some p.id, none, sendCopy p s)
    | 0x54 | 0x55 => some (some p.id, none, s.toSync p (s.clk (dieOfCore core)))
    | 0x57 =>
      let (waits, s) := s.drainArrives none p
      some (if waits then some p.id else none, none, s)
    | 0x59 => some (some p.id, none, sendLaunch p s)
    | 0x5A => some (none, none, if p.fn = 0 then (s.pdone p.org.gang).2 else (s.pfail p.org.gang (wordAt p.cmd 0)).2)
    | 0x5D => some (some p.id, none, sendColl p s)
    | _ => some (none, none, s.trace (dieOf r) (s.stamped (dieOf r) ((p.cmd.map wordLe).flatten)))

def State.updHalf (s : State) (r h : Nat) (f : Half → Half) : State :=
  s.updRegion r fun g => { g with round := g.round.setHalfNo h (f (g.round.halfNo h)) }

/-- DRAIN_ENTRY: the next entry of the half that drains is performed; after the last, the half is empty and free (R187, R188). -/
def execDrainEntry (region : Nat) (s : State) : Result :=
  .next (match s.region region with
    | none => s
    | some g => match g.round.drain with
      | [] => s
      | h :: _ =>
        let x := g.round.halfNo h
        if x.wait.isSome then s
        else match x.entries with
          | [] => s.updRegion region fun g => { g with round := { g.round.setHalfNo h {} with drain := g.round.drain.drop 1 } }
          | e :: rest =>
            if e.eff.wide && !x.released then
              (s.updHalf region h fun x => { x with wait := some s.uid }).beginWide [clusterOf region] (.drain region h)
            else match s.performEntry region e with
              | none => s
              | some (wait, left, t) => t.updHalf region h fun x =>
                  { x with entries := (left.map fun f => { e with eff := f }).toList ++ rest, wait, released := false })

-- Wide releases (R290).

/-- What a request does once its wide release is complete. -/
def State.afterWide (s : State) (id : Nat) (a : AfterWide) : State :=
  match s.req id with
  | none => s
  | some q =>
    let toStage (st : Stage) : State := s.updReq id fun q => { q with stage := st }
    match a with
    | .access acc => (toStage (.held acc)).actReq id acc
    | .fence acq => toStage (.fence acq)
    | .send p => sendLaunch p (toStage .sent)
    | .queue p => (toStage .sent).toQueue id p
    | .pdone =>
      let (n, s) := s.pdone q.org.gang
      s.statusReply id n

/-- WIDE_RELEASE_DONE: every line that was dirty at its start has been written back. A gang's completion goes on to its next step. -/
def execWideReleaseDone (id : Nat) (s : State) : Result :=
  .next (match s.store.wides.find? fun w => w.id = id with
    | none => s
    | some w =>
      if w.lines.isEmpty then
        let s := { s with store := { s.store with wides := s.store.wides.filter fun x => x.id ≠ id } }
        match w.for_ with
        | .req n => match s.req n with
          | some q => match q.stage with
            | .wide k a => if k = id then s.afterWide n a else s
            | _ => s
          | none => s
        | .drain r h => s.updHalf r h fun x => if x.wait = some id then { x with wait := none, released := true } else x
        | .ccctl => s
        | .gang g => s.updGang g fun x => { x with step := 2 }
      else s)

end Sys2Proof.Machine
end

