-- ==== Sys2Proof/Machine/Loader.lean ====
section
/-!
DEFINITION. The frame loader (R174, R193, R201, R296, R355, R356), the end of a launch that fails (R298), the cycle in which a gang's
contexts are enabled (R174, R298), and the release of a region (R176).
-/

namespace Sys2Proof.Machine

-- Release (R176, R372).

/-- A placement or release has occurred: every dispatcher tries again in the next network cycle (R372). -/
def State.wakeDispatchers (s : State) : State := { s with dies := { s.dies with due := [0, 1, 2, 3] } }

/-- Removes the tokens in channels that are addressed to a region's contexts, and tells how many there were. -/
def State.dropTokens (s : State) (g : Region) : Nat × State :=
  let mine (p : Nat) (t : Token) : Bool := g.ctxs.any fun c => g.phys c.el = p && c.k = t.ctx
  let count (e : Nat × Elem) : Nat := (e.2.ch.map fun q => (q.filter (mine e.1)).length).sum
  let keep (e : Nat × Elem) : Nat × Elem := (e.1, { e.2 with ch := e.2.ch.map fun q => q.filter fun t => !mine e.1 t })
  ((s.fab.elems.map count).sum, { s with fab := { s.fab with elems := s.fab.elems.map keep } })

/-- A region leaves its slot, with everything that it claimed; `code` is what RSTAT.STATE reads from then on. -/
def State.releaseRegion (s : State) (r code : Nat) : State :=
  match s.region r with
  | none => s
  | some g =>
    let (n, s) := s.dropTokens g
    let thaw (e : Nat × Elem) : Nat × Elem := (e.1, e.2.thaw fun _ o => o = r)
    let fab := { s.fab with elems := s.fab.elems.map thaw, credRets := s.fab.credRets.filter fun c => c.dest.region ≠ r }
    let other (e : Nat × Region) : Nat × Region := (e.1, { e.2 with rings := e.2.rings.map fun q => { q with views := q.views.drop r } })
    let s : State := { s with fab, regions := (Tab.drop s.regions r).map other }
    (s.updRreg r fun q => { q with state := code, disc := sat32 (q.disc + n) }).wakeDispatchers

def State.updInst (s : State) (gang inst : Nat) (f : Inst → Inst) : State :=
  s.updGang gang fun g => { g with insts := mapIf (fun i => i.inst = inst) f g.insts }

-- Leases (R193).

/-- A lease number that no placement of the core has, and no reply on its way names, nor what will still give rise to one. -/
def State.newLease (s : State) (core : Nat) : Nat × State :=
  let used := ((s.regions.filter fun e => coreOf e.1 = core).map fun e => e.2.lease) ++
    (s.fab.reqs.map (fun q => q.org) ++ s.cores.jobs.map (fun j => j.pkt.org) ++ s.dies.colls.map (fun c => c.pkt.org) ++
      (s.cores.copyIn ++ s.dies.dispIn ++ s.dies.dispWait ++ s.dies.collIn).flatMap fun e => e.2.map fun p => p.org).filterMap fun o =>
        if coreOf o.ctx.region = core then some o.lease else none
  let from_ := Config.order s.free
  let n := ((List.range (used.length + 1)).map fun i => (from_ + i) % 65536).find? fun n => !used.contains n
  (n.getD 0, { s with free := s.free + 1 })

-- Loader faults (R80, R174, R198, R201).

/-- The record of an image fault, or of a read that failed. -/
def Gang.loadRec (g : Gang) (lease inst cls : Nat) (info : List Byte) (va : Nat := 0) : Rec :=
  { cls, flags := 0x20, lease, tx := 0xFF, ty := 0xFF, exy := 0xFF, ks := 0xF0, inst, va, info, lrec := g.recVA }
/-- The record of a word that fails its check (R49). -/
def Gang.wordRec (g : Gang) (lease inst : Nat) (w : WordFault) : Rec :=
  { g.loadRec lease inst 0x05 [] with
    tx := tileX (w.el / 16), ty := tileY (w.el / 16), exy := w.el % 16, ks := w.k + 16 * w.slot, wsel := w.wsel, word := w.word }
/-- The record of a read that failed, with its access kind; the size of the loader's accesses is open (log 19). -/
def State.denyRec (s : State) (g : Gang) (lease inst kind base : Nat) (e : Nat × Deny) : Rec :=
  match e.2 with
  | .link l => g.loadRec lease inst 0x12 [BitVec.ofNat 8 l] e.1
  | .wait => g.loadRec lease inst 0x12 [] e.1
  | .fault c l cause => g.loadRec lease inst c
      ([BitVec.ofNat 8 kind, BitVec.ofNat 8 (Config.failField s.free), 0#8, 0#8] ++ natLe 4 (e.1 - base) ++
        [BitVec.ofNat 8 l, BitVec.ofNat 8 cause]) e.1
  | .bad code => g.loadRec lease inst 0x0B (badInfo kind code) e.1

-- Windows (R201, R296, R355).

def winAt (m : Array Byte) (n : Nat) : Window :=
  { base := imgNat m (16 * n) 8, limit := imgNat m (16 * n + 8) 4, v := bitOf 0 (imgNat m (16 * n + 12) 4),
    ro := bitOf 1 (imgNat m (16 * n + 12) 4) }
/-- The first field of a window table that fails. -/
def badWindow (m : Array Byte) (arg gen : Bool) : Option Nat :=
  ((List.range 16).map fun n =>
    (if 2 ^ 56 ≤ imgNat m (16 * n) 8 ∨ imgNat m (16 * n) 8 % 32 ≠ 0 then [16 * n] else []) ++
    (if 4 ≤ imgNat m (16 * n + 12) 4 ∨ ((winAt m n).v ∧ ((arg ∧ n = 15) ∨ (gen ∧ n = 14))) then [16 * n + 12] else [])).flatten.head?

/-- The fill that a generator gang was accepted for, whatever has become of it. -/
def State.fillFor (s : State) (g : Gang) : Option Fill := s.dies.fills.find? fun f => some (fillKey f) = g.fill && f.gang = g.id.toNat

/-- The windows that the loader installs. -/
def State.windowsFor (s : State) (g : Gang) (table : List Window) : List Window :=
  let ws := if g.arg ≠ 0 then table.set 15 { base := g.arg, limit := 0xFFFF, v := true, ro := true } else table
  match s.fillFor g with
  | some f =>
    let r := s.rangeNo f.die f.as_ f.rng
    ws.set 14 { base := r.base + f.blk * 2 ^ r.lbs, limit := 2 ^ r.lbs - 1, v := true, ro := false }
  | none => ws

/-- The fill record (R356). -/
def State.fillRecord (s : State) (f : Fill) : List Byte :=
  let r := s.rangeNo f.die f.as_ f.rng
  natLe 4 f.blk ++ [BitVec.ofNat 8 f.rng, BitVec.ofNat 8 f.depth] ++ natLe 2 (fillKey f) ++ natLe 8 (r.base + f.blk * 2 ^ r.lbs) ++
    natLe 8 r.base ++ [BitVec.ofNat 8 r.lbs] ++ List.replicate 7 0#8

-- Buffers (R79, R174).

/-- Zeroes a region's buffers; the words are whole again. -/
def State.zeroBufs (s : State) (g : Region) : State :=
  let inside (k : Nat) : Bool := g.bufs.any fun b =>
    let at_ := 131072 * g.tmap.lookD b.tile 0 + b.base
    decide (at_ ≤ k ∧ k < at_ + b.size)
  { s with store := { s.store with
      spad := s.store.spad.filter fun c => !inside c.1,
      badWords := s.store.badWords.filter fun w => !(w % 2 = 0 && inside (w / 2)) } }
/-- Copies the data entries of an image. -/
def State.copyDatas (s : State) (g : Region) (f : Frame) (m : Array Byte) : State :=
  f.datas.foldl (fun s d => s.spadPut (g.spadKey d.1 d.2.1) (imgBytes m d.2.2.2 d.2.2.1)) s

-- Loading.

/-- The claims of the instances that load are released. -/
def State.unclaim (s : State) (g : Gang) (code : Nat) : State :=
  (g.insts.filter fun i => i.st = .loading || i.st = .loaded).foldl (fun s i => s.releaseRegion i.region code) s

/-- The frame of a gang's cog is another by now. -/
def Gang.setFrame (g : Gang) (cog : Nat) (f : Frame) : Gang :=
  { g with frame := if cog = 0 then f else g.frame, cass := g.cass.map fun c => { c with cogs := c.cogs.set cog f } }

/-- The image has changed since its acceptance, and the claim does not hold it: the gang waits for a place again. -/
def State.replace (s : State) (g : Gang) (cog : Nat) (f : Frame) : State :=
  let kept (i : Inst) : Bool := g.saved.any fun v => v.inst = i.inst
  let back (i : Inst) : Inst :=
    if i.st = .loading || i.st = .loaded then { i with st := if kept i then .saved else .none, fault := none } else i
  ((s.unclaim g 0).updGang g.id.toNat fun g =>
    { g.setFrame cog f with
      st := if g.st ≠ .loading then g.st else if g.saved.isEmpty then .ready else .saved,
      insts := if g.st = .loading then g.insts.map back else (g.insts.map back).filter fun i => i.st ≠ .none }).wakeDispatchers

/-- The region that a frame makes where another stands, among the others of its core. -/
def State.reclaim (s : State) (g : Gang) (r : Nat) (old : Region) (f : Frame) : Option Region :=
  if f = g.cogFrame old.cog then some old
  else Option.map (fun (x : Region) => { x with claimant := old.claimant }) <|
    let t := old.tmap.lookD 0 0
    let others := (s.regions.filter fun e => coreOf e.1 = coreOf r && e.1 ≠ r).map fun e => e.2
    (f.region g.cass old.cog old.gang old.inst (coreOf r) (tileX t) (tileY t) (fieldAt g.rcd 0x0A 2)).settleAmong others

/-- What the loader finds in its image: a loader fault, or the frame. -/
def State.loadFrame (s : State) (g : Gang) (r lease : Nat) (old : Region) : Except Rec (Frame × Array Byte) × State :=
  let inst := old.inst
  let va := (g.cogFrame old.cog).va
  match s.readImage { die := dieOf r, core := some (coreOf r), as_ := g.as_, va, x := true } va with
  | (.error e, s) => (.error (s.denyRec g lease inst 3 va e), { s with free := s.free + 1 })
  | (.ok bs, s) =>
    let m := bs.toArray
    let noBuf := if g.isGen && hdrNbuf m = 0 then [0x18] else []
    match ((imageFault m).toList ++ noBuf).min? with
    | some o => (.error (g.loadRec lease inst 0x05 (natLe 4 o)), s)
    | none => match wordFault { fr := imgFrame va m, queues := queueBinds g.rcd } with
      | some w => (.error (g.wordRec lease inst w), s)
      | none => (.ok (imgFrame va m, m), s)

/-- The windows of an instance, or a loader fault (R201). -/
def State.loadWins (s : State) (g : Gang) (r lease inst : Nat) : Except Rec (List Window) × State :=
  let wint := fieldAt g.rcd 0x28 8
  if wint = 0 then (.ok (s.windowsFor g (List.replicate 16 {})), s)
  else match s.vread { die := dieOf r, core := some (coreOf r), as_ := g.as_, va := wint, r := true } wint 256 with
    | (.error e, s) => (.error (s.denyRec g lease inst 0 wint e), { s with free := s.free + 1 })
    | (.ok ws, s) =>
      (match badWindow ws.toArray (g.arg ≠ 0) g.isGen with
        | some o => .error (g.loadRec lease inst 0x05 (natLe 4 o))
        | none => .ok (s.windowsFor g ((List.range 16).map (winAt ws.toArray))), s)

/-- FRAME_LOAD (R174): steps 1 to 6 for one instance; a fault is kept until every instance has loaded (R298). While a link that the die
uses retrains, nothing is read (R423). The sticky bits STARVE and STALL and DLCFG of the slot stay as they are (log 74). -/
def execFrameLoad (gang inst : Nat) (s : State) : Result :=
  .next (match s.gang gang with
    | none => s
    | some g => match g.insts.find? fun i => i.inst = inst && i.st = .loading && g.saved.all fun v => v.inst ≠ inst with
      | none => s
      | some i =>
        let r := i.region
        if s.dieWaits (dieOf r) then s else
        match s.region r with
        | none => s
        | some old =>
          let (lease, s) := s.newLease (coreOf r)
          let s := s.updRreg r fun q => { q with lease, drops := 0, disc := 0, fqcnt := 0 }
          let bad (rcd : Rec) (s : State) : State := s.updInst gang inst fun i => { i with st := .loaded, fault := some rcd }
          match s.loadFrame g r lease old with
          | (.error rcd, s) => bad rcd s
          | (.ok (f, m), s) => match s.loadWins g r lease inst with
            | (.error rcd, s) => bad rcd s
            | (.ok wins, s) => match s.reclaim g r old f with
              | none => s.replace g old.cog f
              | some new =>
                let new := { new with lease, wins }
                let s := ({ s with regions := s.regions.put r new }.zeroBufs new).copyDatas new f m
                let s := match s.fillFor g with
                  | some x => s.spadPut (new.spadKey 0 0) (s.fillRecord x)
                  | none => s
                s.updInst gang inst fun i => { i with st := .loaded })

-- Enabling (R174, R298, R388).

/-- A launch has failed (R298, R302, R355): the lowest instance's record is posted, and every claim released. -/
def State.launchFails (s : State) (g : Gang) (i : Inst) (rcd : Rec) : State :=
  let n := g.id.toNat
  let s := s.giveRec { region := i.region, el := 65536, k := 0 } (coreOf i.region) g.fring [] rcd
  let grown := g.st ≠ .loading && g.saved.isEmpty
  let s := s.unclaim g (if grown then 0 else 5)
  if grown then s.updGang n fun g => { g with insts := g.insts.filter fun i => i.st ≠ .loading && i.st ≠ .loaded }
  else if g.saved.isEmpty then
    let s := s.updGang n fun g => { g with st := .ended, insts := g.insts.map fun i => { i with st := .failed } }
    let s := s.abortLaunch g
    match s.fillOfGang n with
    | some f => s.cancelFill (fillKey f) 0xF5 8 0#32
    | none => s
  else s.killGang n

/-- The context pointers of a region's elements stand at k0, but on an element that another region's contexts use as well (R15);
so too at a restore, for which R15 and R385 say nothing of the pointer (DESIGN CHOICE, log 94). -/
def State.resetPtrs (s : State) (r : Nat) (g : Region) : State :=
  let shared (p : Nat) : Bool := s.regions.any fun e => e.1 ≠ r && e.2.on && e.2.ctxs.any fun c => e.2.phys c.el = p
  (((g.ctxs.map fun c => g.phys c.el).dedup).filter fun p => !shared p).foldl (fun s p => s.updElem p fun e => { e with ptr := 0 }) s

/-- A region starts in cycle E (R174, R388): its contexts are enabled, what a commit would record is recorded, and round 1 opens
(R181). -/
def State.enableRegion (s : State) (r : Nat) : State :=
  let s := (s.updRegion r fun g => { g with on := true, stepGo := g.roundSet.isEmpty && (s.rreg r).rdbg.getLsbD 1 }).updRreg r
    fun q => { q with state := 2 }
  match s.region r with
  | none => s
  | some g =>
    let s := if g.roundSet.isEmpty then s
      else s.updRegion r fun g => { g with round := { g.round with shadow := some (s.checkpoint r g) } }
    let s := s.resetPtrs r g
    let s := (s.updGang g.gang fun x => { x with clusters := (clusterOf r :: x.clusters).dedup }).viewRings
    let s := if g.mayOpen then s.openRound r else s
    { s with agenda := s.agenda ++ s.refires r }

/-- GANG_ENABLE: once every instance has passed step 6. An instance whose place has been claimed meanwhile is braked at once (R373). -/
def execGangEnable (gang : Nat) (s : State) : Result :=
  .next (match s.gang gang with
    | none => s
    | some g =>
      let ls := g.insts.filter fun i => i.st = .loaded
      if ls.isEmpty || g.insts.any fun i => i.st = .loading then s
      else match (ls.mergeSort fun a b => decide (a.inst ≤ b.inst)).findSome? fun i => i.fault.map fun f => (i, f) with
        | some (i, f) => s.launchFails g i f
        | none =>
          let s := ls.foldl (fun s i => s.enableRegion i.region) s
          let s := s.updGang gang fun g => { g with
            st := .running,
            saved := g.saved.filter fun v => ls.all fun i => i.inst ≠ v.inst,
            insts := g.insts.map fun i => if i.st = .loaded then { i with st := .running } else i }
          (ls.filter fun i => (s.region i.region).any fun x => x.claimant.isSome).foldl (fun s i => s.brakeRegion i.region .dispatcher) s)

end Sys2Proof.Machine
end

