-- ==== Sys2Proof/Machine/Records.lean ====
section
/-!
DEFINITION. Fault records on their way: their posting (R44, R136, R196, R197, R362), their forwarding to a fault ring and its messages
(R428); and what the device posts on its own account: region stalled (R191) and starvation (R192).
-/

namespace Sys2Proof.Machine

-- Posting.

/-- The 64 bytes of a record (R197). -/
def Rec.bytes (r : Rec) : List Byte :=
  natLe 1 r.cls ++ natLe 1 r.flags ++ natLe 2 r.lease ++ natLe 4 r.seq ++ natLe 1 r.tx ++ natLe 1 r.ty ++ natLe 1 r.exy ++
    natLe 1 r.ks ++ natLe 1 r.wsel ++ [0#8] ++ natLe 2 r.inst ++ wordLe r.round ++ wordLe r.word ++ natLe 8 r.va ++
    (r.info ++ List.replicate 16 0#8).take 16 ++ natLe 8 r.lrec ++ natLe 8 r.cyc

/-- The region that a record speaks of, where its placement still stands. -/
def State.recRegion (s : State) (p : PRec) : Option Region :=
  (s.region p.ctx.region).filter fun g => g.lease = p.rcd.lease && decide (p.ctx.el < 65536)

/-- Every member that an exchange still lacks can make its due firing: no member of the chain that is due, or lacking, is frozen. -/
def State.exchGoes (s : State) (x : Exch) : Bool :=
  (s.region x.lead.region).any fun g =>
    let els := g.chainOf x.lead.el x.lead.k
    let lacking := (List.range x.n).filter fun m => x.got.all fun i => i.member != m
    let due := ((g.ctx x.lead.el x.lead.k).map fun c => (g.dues x.lead.region c).map fun d => d.1).getD []
    (lacking ++ due).all fun m => (els[m]?).all fun el => (s.elem (g.phys el)).freeze == .no

/-- An operation fired before record `id` on a frozen element has not written back (R44). An exchange of a chain is waited for while its
other members can still complete it; one that waits for a frozen member cannot complete before the resume, and holds no record up
(DESIGN CHOICE, log 81). -/
def State.unwhole (s : State) (p : PRec) : Bool :=
  let here (c : CtxId) : Bool := p.frozen.contains (s.physOf c)
  (s.fab.lanes.any fun x => s.exchGoes x && x.got.any fun i => i.wb.any fun w => decide (w.id < p.id) && here w.ctx) ||
  (s.fab.wbs.any fun w => decide (w.id < p.id) && here w.ctx) ||
    s.fab.reqs.any fun q => decide (q.id < p.id) && here q.org.ctx && (q.dst.isSome || q.pdst.isSome || q.om != 0#8)

/-- A record may be posted: room in its context's queue (R196), every earlier firing whole (R44), and a breakpoint of step mode at the
end of its step (R395). -/
def State.postable (s : State) (p : PRec) : Bool :=
  decide ((s.fab.fq.filter fun q => q.ctx = p.ctx && q.core = p.core).length < 4) && !s.unwhole p &&
    !(p.rcd.cls = 0x0E && ((s.recRegion p).map fun g => g.stepping).getD false)

/-- The freezes that awaited a record. -/
def Freeze.post (id : Nat) (f : Freeze) : Freeze := if f = .waiting id ∨ f = .soon id ∨ f = .faulted id then .posted else f

/-- FAULT_RECORD_POST. A trap's record awaits a resume from now on (R195); a fault of a generator gang cancels its fill (R362). -/
def execFaultRecordPost (id : Nat) (s : State) : Result :=
  .next (match s.fab.recs.find? fun p => p.id = id with
    | none => s
    | some p =>
      if !s.postable p then s
      else
        let seq := s.cores.seqs.lookD p.core 0
        let r := { p.rcd with seq, round := ((s.ctx p.ctx).map fun c => c.rndn).getD 0#32, cyc := s.clk (dieOfCore p.core) }
        let fab := { s.fab with
          recs := s.fab.recs.filter fun x => x.id ≠ id,
          fq := s.fab.fq ++ [{ id := s.uid, ctx := p.ctx, core := p.core, ring := p.ring, rcd := r }],
          elems := s.fab.elems.map fun (e : Nat × Elem) => (e.1, e.2.mapFreeze (Freeze.post id)) }
        let s := { s.bump with fab, cores := { s.cores with seqs := s.cores.seqs.put p.core ((seq + 1) % 2 ^ 32) } }
        match s.recRegion p with
        | none => s
        | some g =>
          let s := s.updRreg p.ctx.region fun q => { q with fqcnt := q.fqcnt + 1 }
          let s := if r.cls = 0x0D ∨ r.cls = 0x0E then s.updCtx p.ctx fun x => { x with trapped := true } else s
          match s.fillOfGang g.gang with
          | some f =>
            if r.cls = 6 ∨ r.cls = 0x0E then s
            else s.cancelFill (fillKey f) r.cls (if r.cls = 9 ∨ r.cls = 0x0A then r.cls else 8) 0#32
          | none => s)

-- Forwarding (R428).

/-- The physical address of an entry of the fault-ring table. -/
def State.frEntry (s : State) (n : Nat) : Nat := s.mmioNat 0x10 0 + 2 ^ 32 * s.mmioNat 0x14 0 + 32 * n
/-- A field of an entry. -/
def State.frField (s : State) (n off len : Nat) : Nat := leNat (s.physBytes (s.frEntry n + off) len)

/-- The host has enabled MSI-X, and not masked it (R425, log 88). -/
def State.msixOn (s : State) : Bool :=
  let c := s.pkg.config.lookD (Config.capAt 0) 0#32
  c.getLsbD 31 && !c.getLsbD 30

/-- A message of a ring is sent at once, or waits for others, by the network cycles of the forwarder's die (R428); while MSI-X is not enabled
it is pending. -/
def State.msix (s : State) (die ring vec : Nat) : State :=
  let (now, s) := s.choice
  if now && s.msixOn then
    { s with pkg := { s.pkg with out := s.pkg.out ++ [.msix vec], msix := s.pkg.msix.filter fun m => m.ring ≠ ring } }
  else if s.pkg.msix.any fun m => m.ring = ring then s
  else { s with pkg := { s.pkg with msix := s.pkg.msix ++ [{ ring, vec, since := s.netClk die, die }] } }

/-- A record reserves the next slot of its ring, is written, and is published; then the message. -/
def State.forward (s : State) (q : QRec) : State :=
  let n := q.ring
  let e := s.frEntry n
  let rsv := s.frField n 0x10 4
  let base := s.frField n 0 8
  let lc := s.frField n 8 1
  let next := natLe 4 (rsv + 1)
  let s := ((s.physPut (e + 0x10) next).physPut (base + 64 * (rsv % 2 ^ lc)) q.rcd.bytes).physPut (e + 0x14) next
  let s := { s with fab := { s.fab with fq := s.fab.fq.filter fun x => x.id ≠ q.id } }
  if bitOf 1 (s.frField n 9 1) then s.msix (dieOfCore q.core) n (s.frField n 0xA 2) else s

/-- The home of a physical address lies across a failed link from a die, or a link on the way retrains. -/
def State.outOfReach (s : State) (d pa : Nat) : Bool :=
  (locOf false pa).any fun l => (s.cut d (homeDie l)).isSome || s.retrains d (homeDie l)
/-- The forwarder of a core cannot reach the entry of its ring, or the slot that is next: its records wait, since none is lost (R196, R423,
R424). -/
def State.ringAway (s : State) (q : QRec) : Bool :=
  let d := dieOfCore q.core
  let n := q.ring
  s.outOfReach d (s.frEntry n) || s.outOfReach d (s.frField n 0 8 + 64 * (s.frField n 0x10 4 % 2 ^ s.frField n 8 1))

/-- The ring has a free slot. -/
def State.ringRoom (s : State) (n : Nat) : Bool :=
  decide ((s.frField n 0x10 4 + 2 ^ 32 - s.frField n 0xC 4) % 2 ^ 32 < 2 ^ s.frField n 8 1)

/-- The first record of its core goes to its ring; one that finds the ring full is counted once, and one that finds no valid entry
waits. -/
def State.tryForward (s : State) (id : Nat) : State :=
  match s.fab.fq.find? fun q => q.id = id with
  | none => s
  | some q =>
    if ((s.fab.fq.find? fun x => x.core = q.core).map fun x => x.id) ≠ some id || s.badRing q.ring || s.ringAway q then s
    else if s.ringRoom q.ring then s.forward q
    else if q.waited then s
    else
      let s := { s with fab := { s.fab with fq := mapIf (fun x => x.id = id) (fun x => { x with waited := true }) s.fab.fq } }
      s.physPut (s.frEntry q.ring + 0x18) (natLe 4 (sat32 (s.frField q.ring 0x18 4 + 1)))

/-- FAULT_RECORD_FORWARD. -/
def execFaultRecordForward (id : Nat) (s : State) : Result := .next (s.tryForward id)
/-- FAULT_RING_RETEST: a forwarder that waits reads its entry again. -/
def execFaultRingRetest (id : Nat) (s : State) : Result := .next (s.tryForward id)

/-- MSIX_COALESCE_DEADLINE. -/
def execMsixCoalesceDeadline (ring : Nat) (s : State) : Result :=
  .next (match s.pkg.msix.find? fun m => m.ring = ring with
    | none => s
    | some m =>
      if !s.msixOn then s else
      { s with pkg := { s.pkg with out := s.pkg.out ++ [.msix m.vec], msix := s.pkg.msix.filter fun x => x.ring ≠ ring } })

-- Region stalled (R191, R198).

/-- What keeps a region from going on: the context named, the resource code, its index, INFO 0x26, INFO 0x28 and WORD. -/
structure Blocker where
  ctx : CtxId
  code : Nat
  idx : Nat
  tag : Byte := 0#8
  pend : Word := 0#32
  word : Word := 0#32
  deriving DecidableEq, Repr, Inhabited

def Blocker.before (a b : Blocker) : Bool :=
  let key (x : Blocker) : List Nat := [x.ctx.el, x.ctx.k, x.code, x.idx]
  decide (key a ≤ key b)

/-- The blockers of a region. A channel is one where any token in it is addressed to a live context; the context named is that of its
head (R198). A command at the head of a queue is one whatever holds it, as in R191 (DESIGN CHOICE beside R244, log 98). -/
def State.blockers (s : State) (r : Nat) (g : Region) : List Blocker :=
  let live (el k : Nat) : Bool := g.ctxs.any fun c => c.el = el && c.k = k && !c.retired
  let chans := (g.ctxs.map fun c => c.el).dedup.flatMap fun el => (List.range 4).filterMap fun n =>
    let e := s.elem (g.phys el)
    if (e.chan n).any fun t => live el t.ctx then
      (e.head n).map fun t => ({ ctx := { region := r, el, k := t.ctx }, code := 0, idx := n, tag := t.tag, word := t.payload } : Blocker)
    else none
  let parked := s.fab.reqs.filterMap fun q =>
    if g.issued r q.org then
      match q.stage with
      | .parked (.push _ n _) | .parked (.pop _ n) => some { ctx := q.org.ctx, code := 1, idx := n : Blocker }
      | .parked (.barw core b _) =>
        some { ctx := q.org.ctx, code := 2, idx := b, pend := BitVec.ofInt 32 (s.bar core b).pend : Blocker }
      | _ => none
    else none
  let gens := g.gens.filterMap fun e =>
    if e.2.running && decide (0 < e.2.quota) then some { ctx := e.2.starter, code := 3, idx := e.1 % 4 : Blocker } else none
  let nodes := g.nodes.filterMap fun e =>
    if e.2.store.isEmpty then none else some { ctx := e.2.pkt.org.ctx, code := 4, idx := e.1 : Blocker }
  let queues := g.queues.filterMap fun e => e.2.head?.map fun p => ({ ctx := p.org.ctx, code := 5, idx := e.1 } : Blocker)
  let jobs := (s.cores.jobs.filter fun j => g.owns r j.pkt && j.st = .waiting).map fun j =>
    ({ ctx := j.pkt.org.ctx, code := 6, idx := j.slot, word := j.tag } : Blocker)
  (chans ++ parked ++ gens ++ nodes ++ queues ++ jobs).mergeSort Blocker.before

/-- A request that does not count as outstanding, but as what keeps tokens present: its context is parked on a ring or on BARW (R191). -/
def Stage.isParked : Stage → Bool
  | .parked (.push ..) | .parked (.pop ..) | .parked (.barw ..) => true
  | _ => false

/-- A request of the region is outstanding (R191): of a firing, of a generator (R282), a running or paused job (R267), or the access of an
element that is frozen on a fill (R359). -/
def State.outstanding (s : State) (r : Nat) (g : Region) : Bool :=
  (s.fab.reqs.any fun q => g.issued r q.org && !q.stage.isParked) ||
    (s.fab.wbs.any fun w => w.ctx.region = r && w.mem) ||
    (g.gens.any fun e => e.2.fetch = .reading || e.2.fetch = .fill) ||
    (s.cores.jobs.any fun j => g.owns r j.pkt && (j.st = .running || j.st = .paused)) ||
    s.fab.elems.any fun e => e.2.freezes.any fun f => match f.1 with
      | .fill c _ | .missed c _ => c.region = r
      | _ => false

/-- The three conditions of R191 in a cycle whose firings are done; a region held at the end of a step does not count (R393). -/
def State.stallCounts (s : State) (r : Nat) (g : Region) : Bool :=
  g.on && !g.dead && !g.stepHeld && !g.fired && g.round.drain.isEmpty && !(s.blockers r g).isEmpty &&
    !s.outstanding r g

/-- The stall and starvation exponents (R195). -/
def State.dlx (s : State) (r : Nat) : Nat := min 30 (max 12 ((s.rreg r).dlcfg.toNat % 32))
def State.svx (s : State) (r : Nat) : Nat := min 24 (max 10 (bitsOf 8 5 (s.rreg r).dlcfg.toNat))

/-- REGION_STALLED (R191). The slot that KS names is open (log 20). R161's example has the record name M's c0 where R191's order names an
earlier element: the order is followed (log 73). -/
def execRegionStalled (region : Nat) (s : State) : Result :=
  .next (match s.region region with
    | none => s
    | some g => match s.blockers region g with
      | [] => s
      | b :: _ =>
        if g.stall < 2 ^ s.dlx region ∨ g.stalled then s
        else
          let ks := b.ctx.k + 16 * (Config.failField s.free % 16)
          let full := ((g.ctxs.map fun c => g.phys c.el).dedup.map fun p =>
            ((List.range 4).filter fun n => !((s.elem p).chan n).isEmpty).length).sum
          let who : List Byte := [BitVec.ofNat 8 (recTx b.ctx), BitVec.ofNat 8 (recTy b.ctx), BitVec.ofNat 8 (recExy b.ctx), BitVec.ofNat 8 ks]
          let rcd : Rec :=
            { cls := 6, flags := 0x10 + if g.isRoundCtx b.ctx then 1 else 0, lease := g.lease, tx := recTx b.ctx, ty := recTy b.ctx,
              exy := recExy b.ctx, ks, inst := g.inst, word := b.word,
              info := who ++ [BitVec.ofNat 8 b.code, BitVec.ofNat 8 b.idx, b.tag, BitVec.ofNat 8 full] ++ wordLe b.pend,
              lrec := s.lrecOf g.gang }
          let s := { s with free := s.free + 1 }
          let s := (s.updRegion region fun g => { g with stalled := true }).updRreg region fun q => { q with stall := true }
          s.giveRec b.ctx (coreOf region) (s.fringOf g.gang) [] rcd)

-- Starvation (R192).

/-- STARVATION, at the end of the cycle in which the count reaches its limit: STARVE is set, and where SVTRAP is 1 the context traps as if by a TRAP of its own (R136).
R192 has the count reach 2^SVX; where SVX is lowered below a count that runs, the slot reports only after the count has begun anew
(DESIGN CHOICE, log 95). -/
def execStarvation (c : CtxId) (slot : Nat) (s : State) : Result :=
  .next (match s.region c.region, s.ctx c with
    | some g, some x =>
      if x.starv.getD slot 0 ≠ 2 ^ s.svx c.region then s
      else
        let s := (s.updRreg c.region fun q => { q with starve := true }).updCtx c fun x => { x with starv := x.starv.set slot (2 ^ 24 + 1) }
        if !(s.rreg c.region).dlcfg.getLsbD 16 then s
        else
          let rcd := s.mkRec (s.origin { ctx := c, slot } x.isRounded) 0x0D (natLe 2 0xFFFE)
          let rcd := { rcd with flags := rcd.flags + 0x10 }
          if x.isRounded then
            let rcd := if 1 < (g.chainOf x.el x.k).length then { rcd with flags := rcd.flags + 4 } else rcd
            s.updCtx c fun x => { x with traps := x.traps ++ [rcd] }
          else s.freezeFor c rcd
    | _, _ => s)

end Sys2Proof.Machine
end

