-- ==== Sys2Proof/Machine/Regions.lean ====
section
/-!
DEFINITION. How regions and gangs end and go on: completion (R176, R300), kills (R194, R391), resumes (R46, R179, R189, R226, R272, R393,
R457).
-/

namespace Sys2Proof.Machine

-- Completion of a region (R176).

/-- Nothing of a region is under way: requests, tokens on routes, copy jobs (R267), and what its systolic tiles do. A node that is attached
keeps nothing open: its command has left the queue (R285). -/
def State.quietRegion (s : State) (r : Nat) (g : Region) : Bool :=
  let mine (p : Packet) : Bool := g.owns r p
  (s.fab.reqs.all fun q => !g.issued r q.org) && (s.fab.flits.all fun f => f.ctx.region ≠ r) &&
    (s.fab.wbs.all fun w => w.ctx.region ≠ r) && (s.cores.going.all fun p => !mine p) && (g.queues.all fun e => e.2.isEmpty) &&
    (s.cores.loads.all fun l => !mine l.pkt) && (s.cores.sweeps.all fun w => !mine w.pkt) &&
    s.cores.jobs.all fun j => !mine j.pkt

/-- The region is complete (R176). -/
def State.isComplete (s : State) (r : Nat) (g : Region) : Bool :=
  g.on && !g.dead && (g.ctxs.all fun c => c.isSystolic || c.retired) && !g.round.isOpen && g.round.drain.isEmpty &&
    g.round.h0.entries.isEmpty && g.round.h1.entries.isEmpty && s.quietRegion r g

/-- An instance has ended; a gang that can no longer complete ends with its last (R300). -/
def State.instanceEnds (s : State) (gang inst : Nat) : State :=
  (s.updInst gang inst fun i => { i with st := .completed }).updGang gang fun x =>
    if x.alive || x.insts.all (fun i => i.st = .completed) then x else { x with st := .ended }

/-- REGION_COMPLETE. -/
def execRegionComplete (region : Nat) (s : State) : Result :=
  .next (match s.region region with
    | some g => if s.isComplete region g then (s.releaseRegion region 4).instanceEnds g.gang g.inst else s
    | none => s)

-- Completion of a gang (R300).

/-- An atomic of a step of the completion on `n` bytes, which `f` gives their new value: the value before it; none, with the state after it,
where it is not performed. It waits for a link (R423), and as a read-modify-write on a writable-after-fill block for the fill (R207). -/
inductive DoneGo where
  | old (m : Nat) (s : State)
  | failed (s : State)
  | waits (s : State)

def State.doneAtomic (s : State) (g : Gang) (va n : Nat) (f : Nat → Option Nat) : DoneGo :=
  let n0 : List Byte := [2#8, BitVec.ofNat 8 n.log2, 0#8, 0#8] ++ natLe 4 0
  let fail (s : State) (cls : Nat) (info : List Byte) : DoneGo := .failed (s.doneFails g va cls info)
  match s.xlate { die := g.die, as_ := g.as_, va, r := true, w := true, gang := g.id.toNat } with
  | (.deny (.fault c l cause), s) => fail s c (n0 ++ [BitVec.ofNat 8 l, BitVec.ofNat 8 cause])
  | (.deny (.bad code), s) => fail s 0x0B (badInfo 2 code)
  | (.deny (.link l), s) => fail s 0x12 [BitVec.ofNat 8 l]
  | (.deny .wait, _) => .waits s
  | (.fill r b, s) =>
    let w : Waiter := .gang g.id.toNat va
    match s.joinFault r g.as_ b g.id.toNat with
    | some x => fail s x.1 (s.fillInfo w r.idx x.2 x.1 b)
    | none => .waits (s.joinFill r g.as_ b w)
  | (.ok loc, s) => match s.cut g.die (homeDie loc) with
    | some l => fail s 0x12 [BitVec.ofNat 8 l]
    | none => match s.markOf loc with
      | some code => fail s 0x0B (badInfo 2 code)
      | none =>
        let m := leNat (s.homeBytes loc n)
        .old m (match f m with
          | some v => s.homePut loc (natLe n v)
          | none => s)

/-- The next step of a gang's completion is due. -/
def State.nextStep (s : State) (g : Gang) : State := s.updGang g.id.toNat fun x => { x with step := x.step + 1 }

/-- Step 2, which increments CPLT, or one of steps 3 to 6, which decrement the PREDs of the successors: whether it has been done with. A
decrement that finds zero is posted. -/
def State.doneStep (s : State) (g : Gang) : Bool × State :=
  let va := fieldAt g.rcd (doneField g.step) 8
  if va = 0 then (true, s.nextStep g)
  else if g.step = 2 then
    match s.doneAtomic g va 4 fun m => some (m + 1) with
    | .old _ s => (true, s.nextStep g)
    | .failed s => (true, s)
    | .waits s => (false, s)
  else
    match s.doneAtomic g (va + 8) 2 fun m => if m = 0 then none else some (m - 1) with
    | .old m s => (true, ((if m = 0 then s.giveDone g (g.doneRec 0x0F va [0x59#8, 8#8]) else s)).nextStep g)
    | .failed s => (true, s)
    | .waits s => (false, s)

/-- The last step: the signal, and the end of the gang; a generator gang whose block is still FILLING has failed (R362). -/
def State.doneLast (s : State) (g : Gang) : State :=
  let s := match g.from_ with
    | some p => s.signal p.org p.cmd
    | none => s
  let s := match s.fillOfGang g.id.toNat with
    | some f => s.cancelFill (fillKey f) 0xF1 8 0#32
    | none => s
  s.updGang g.id.toNat fun x => { x with st := .ended }

/-- Steps 2 to 7, each after the one before it, as far as none of them waits. -/
def State.doneSteps (gang : Nat) : Nat → State → State
  | 0, s => s
  | n + 1, s => match s.gang gang with
    | none => s
    | some g =>
      if 7 ≤ g.step then s.doneLast g
      else match s.doneStep g with
        | (true, s) => State.doneSteps gang n s
        | (false, s) => s

/-- GANG_COMPLETE: the release at .sys of every cluster cache that held an instance begins; once it is complete, the other steps follow.
While a link that its dispatcher's die uses retrains, they wait (R423). -/
def execGangComplete (gang : Nat) (s : State) : Result :=
  .next (match s.gang gang with
    | none => s
    | some g =>
      if g.st = .running ∧ g.saved.isEmpty ∧ (g.insts.all fun i => i.st = .completed) then
        let cls := (g.clusters ++ g.insts.map fun i => clusterOf i.region).dedup
        (s.updGang gang fun x => { x with st := .completing, step := 1 }).beginWide cls (.gang gang)
      else if g.st = .completing ∧ 2 ≤ g.step ∧ s.dieWaits g.die = false ∧ s.waits (.gang gang 0) = false then
        State.doneSteps gang 6 s
      else s)

-- Kills (R194).

def execKill (region : Nat) (s : State) : Result := .next (s.killRegion region)

/-- KILL_RELEASE: no token of the region is on a route, and its drain has ended. -/
def execKillRelease (region : Nat) (s : State) : Result :=
  .next (match s.region region with
    | some g =>
      if g.dead && (s.fab.flits.all fun f => f.ctx.region ≠ region) && g.round.drain.isEmpty then s.releaseRegion region 6 else s
    | none => s)

-- Resumes (R179).

/-- A record of the region's own waits to be posted: of a voided round, or of a context's trap. -/
def State.unposted (s : State) (r : Nat) : Bool := s.fab.recs.any fun p => p.ctx.region = r && bitOf 1 p.rcd.flags
def State.unpostedOf (s : State) (c : CtxId) : Bool := s.fab.recs.any fun p => p.ctx = c && (p.rcd.cls = 0x0D || p.rcd.cls = 0x0E)

/-- A region's paused jobs run again as far as 32 run at once (R267); the others of them wait for their turn, with their waits met. -/
def resumeJobs (mine : Packet → Bool) (jobs : List Job) : List Job :=
  jobs.foldl (fun done j =>
    if mine j.pkt && j.st = .paused then
      let others := done ++ jobs.drop done.length
      let busy := (others.filter fun x => x.core = j.core && x.st = .running).length
      done ++ [if busy < 32 then { j with st := .running, begun := true } else { j with st := .waiting, pkt := { j.pkt with met := true } }]
    else done ++ [j]) []

/-- RESUME: elements whose records are posted unfreeze, a held region may open its round again, stopped generators, paused jobs and
collectives go on, and a step is taken. The deadlock detector is armed again (R191). An element that two regions share is thawed by the one
whose firing froze it (log 74). -/
def State.resume (s : State) (r : Nat) : State :=
  match s.region r with
  | none => s
  | some g =>
    if g.dead then s
    else
      let mine (p : Packet) : Bool := g.owns r p
      let thaw (e : Nat × Elem) : Nat × Elem := (e.1, e.2.thaw fun f o => o = r && f == .posted)
      let held := g.round.held && s.unposted r
      let s : State := { s with
        fab := { s.fab with elems := s.fab.elems.map thaw },
        cores := { s.cores with jobs := resumeJobs mine s.cores.jobs },
        dies := { s.dies with colls := mapIf (fun c => mine c.pkt) (fun c => { c with paused := false }) s.dies.colls } }
      let step := (s.rreg r).rdbg.getLsbD 1
      s.updRegion r fun g => { g with
        round := { g.round with held, quiet := g.round.quiet && held },
        ctxs := g.ctxs.map fun c => if s.unpostedOf (c.id r) then c else { c with trapped := false },
        gens := g.gens.map fun e => (e.1, if e.2.faulted then { e.2 with faulted := false, running := true } else e.2),
        stalled := false, stepHeld := false,
        stepGo := if g.stepHeld && g.roundSet.isEmpty then step else g.stepGo }

def execResume (region : Nat) (s : State) : Result := .next (s.resume region)

end Sys2Proof.Machine
end

