-- ==== Sys2Proof/Machine/Elastic.lean ====
section
/-!
DEFINITION. Elastic gangs and the context switch: the derailleur (R377 to R379, R381), brakes that fail (R384), settlement and the saved
set (R383, R385 to R387, R249, R274), and the relinker (R388 to R390).
-/

namespace Sys2Proof.Machine

-- The derailleur.

/-- Counters of the dispatcher page (R397). -/
def dsPre (d : Nat) : Nat := dispPage d + 0x10
def dsBrkf (d : Nat) : Nat := dispPage d + 0x14
def dsGrow (d : Nat) : Nat := dispPage d + 0x18
def dsShrk (d : Nat) : Nat := dispPage d + 0x1C
def dsShift (d : Nat) : Nat := dispPage d + 0x20

/-- One instance is placed beside the others of its gang: it loads, or is restored. -/
def State.claimInst (s : State) (gang : Nat) (e : Nat × Region) : State :=
  let s : State := { s with regions := s.regions.put e.1 e.2 }
  let i : Inst := { inst := e.2.inst, region := e.1, st := .loading }
  (s.updRreg e.1 fun q => { q with state := 1 }).updGang gang fun g =>
    { g with insts := (g.insts.filter fun x => x.inst ≠ e.2.inst) ++ [i] }

/-- What the claimants of a region that is shifted keep (R373, R381): the places of all ready gangs, and what the victims of gangs other
than the region's claimant free. -/
def State.wants (s : State) (claimant : Option Nat) : List (Nat × Region) :=
  ((List.range 4).flatMap s.readyGangs).flatMap fun x => if claimant = some x.id.toNat then x.want else s.keeps x

/-- Where an instance stands that holds no index (R378): it has not been placed, or it has ended. -/
def InstSt.over : InstSt → Bool
  | .none | .completed | .failed | .killed => true
  | _ => false
/-- The cog that a gang's instances run; where a shift has left them in different cogs, that of the lowest index (R378, log 76). -/
def State.cogOf (s : State) (g : Gang) : Nat := (((s.regionsOf g.id.toNat).getLast?).map fun e => e.2.cog).getD g.cog

/-- Grows a gang by the lowest index that is free, where a placement fits (R378) beside what ready gangs that are not below it keep (R373). -/
def State.grow (s : State) (g : Gang) (c : Cass) : State :=
  let free := (List.range c.maxi).find? fun i => g.insts.all fun x => x.inst ≠ i || x.st.over
  let kept := (((List.range 4).flatMap s.readyGangs).filter fun x => decide (g.base ≤ s.levelOf x)).flatMap s.keeps
  match free.bind fun i => g.search (s.cogOf g) (Config.order s.free) (s.coresOf g) [i] (kept ++ s.regions) with
  | some [e] => ({ s with free := s.free + 1 }.claimInst g.id.toNat e).count (dsGrow g.die)
  | _ => { s with free := s.free + 1 }

/-- Brakes the running instance of the highest index, so that it can end (R379); one that is under the brake already is left to it, and
after a brake that failed the derailleur waits (R384). -/
def State.shrinkGang (s : State) (g : Gang) : State :=
  match (s.regionsOf g.id.toNat).find? fun e => e.2.on && !e.2.dead with
  | some e =>
    if e.2.brake.isSome || e.2.rechoose.isSome then s
    else (s.updGang g.id.toNat fun x => { x with retire := x.retire ++ [e.2.inst] }).brakeRegion e.1 .derailleur
  | none => s

/-- The running instances of a gang, and what a sample of its queue finds (R377). -/
def Gang.running (g : Gang) : Nat := (g.insts.filter fun i => i.st = .running).length
def State.shrinks (s : State) (g : Gang) : Bool :=
  match g.cass with
  | none => false
  | some c => g.st = .running && c.elv ≠ 0xFF && c.mini < g.running && c.qin.any fun q => decide ((s.hq g.die q).used < c.lowm)

/-- One sample of a gang (R377). -/
def State.sample (s : State) (g : Gang) : State :=
  match g.cass with
  | none => s
  | some c => match c.qin with
    | none => s
    | some q =>
      if g.st ≠ .running ∨ c.elv = 0xFF then s
      else
        let d := (s.hq g.die q).used
        let n := g.running
        let set (grow shrink : Nat) (s : State) : State := s.updGang g.id.toNat fun x => { x with grow, shrink }
        if c.hiwm < d ∧ n < c.maxi then
          if c.hyst ≤ g.grow + 1 then (set 0 0 s).grow g c else set (g.grow + 1) 0 s
        else if d < c.lowm ∧ c.mini < n then
          if c.hyst ≤ g.shrink + 1 then (set 0 0 s).shrinkGang g else set 0 (g.shrink + 1) s
        else set 0 0 s

/-- DERAILLEUR_SAMPLE. -/
def execDerailleurSample (die : Nat) (s : State) : Result :=
  .next ((s.dies.gangs.filter fun e => e.2.die = die).foldl (fun s e => match s.gang e.1 with
    | some g => s.sample g
    | none => s) s)

-- Brakes that fail (R384).

/-- A region does not free its place: the gang that claims it chooses anew, once no other victim of its choice is still to settle. -/
def State.dropWant (s : State) (r : Nat) (g : Region) : State :=
  let s := s.updRegion r fun g => { g with claimant := none }
  match g.claimant with
  | some x => if s.awaits x then s else s.updGang x fun x => { x with want := [], freed := [] }
  | none => s
/-- An instance is no longer to be retired or shifted. -/
def State.spare (s : State) (gang inst : Nat) : State :=
  s.updGang gang fun x => { x with retire := x.retire.filter fun i => i ≠ inst, shift := x.shift.filter fun i => i ≠ inst }

/-- BRAKE_FAIL: the region runs on; the gang that it was to make place for keeps its choice until the agent chooses anew. -/
def execBrakeFail (region : Nat) (s : State) : Result :=
  .next (match s.region region with
    | none => s
    | some g => match g.brake with
      | none => s
      | some b =>
        let d := dieOf region
        if s.clk d < b.since + 2 ^ s.btx d then s
        else
          let s := ((s.unbrake region).spare g.gang g.inst).count (dsBrkf d)
          s.updRegion region fun g => { g with rechoose := some (s.clk d + 2 ^ s.pwx d, b.by_) })

/-- BRAKE_RECHOOSE: the agent chooses anew (R384): the dispatcher for its ready gangs, the derailleur for the gang that was to shrink, if
its queue still calls for that. -/
def execBrakeRechoose (region : Nat) (s : State) : Result :=
  .next (match s.region region with
    | none => s
    | some g => match g.rechoose with
      | none => s
      | some (t, by_) =>
        let d := dieOf region
        if s.clk d < t then s
        else
          let s := (s.dropWant region g).updRegion region fun g => { g with rechoose := none }
          match by_ with
          | .dispatcher => (s.readyGangs d).foldl (fun s x => s.preempt x.id.toNat) s
          | .derailleur => match s.gang g.gang with
            | some x => if s.shrinks x then s.shrinkGang x else s
            | none => s
          | _ => s)

-- Settlement (R383).

/-- The region is settled. A collective that has begun is waited for as a copy job is, and a ring's uncommitted views (log 21). -/
def State.settled (s : State) (r : Nat) (g : Region) : Bool :=
  let held := g.round.held
  g.brake.isSome && !g.dead && s.still r { g with stepping := false } g.ctxs && (s.fab.wbs.all fun w => w.ctx.region ≠ r) &&
    (s.fab.flits.all fun f => f.ctx.region ≠ r || f.atNode (s.regionClk r)) && (s.fab.lanes.all fun l => l.lead.region ≠ r) &&
    (s.fab.reqs.all fun q => !g.issued r q.org) && (g.gens.all fun e => e.2.fetch != .reading) &&
    (s.cores.jobs.all fun j => !(g.owns r j.pkt && (j.st = .running || j.st = .aborting))) &&
    (s.dies.colls.all fun c => !(g.owns r c.pkt && c.begun)) &&
    (held || (!g.round.isOpen && g.round.drain.isEmpty && g.round.h0.entries.isEmpty && g.round.h1.entries.isEmpty)) &&
    (s.cores.going.all fun p => !g.owns r p) && (s.cores.loads.all fun l => !g.owns r l.pkt) &&
    (s.cores.sweeps.all fun w => !g.owns r w.pkt) &&
    g.rings.all fun q => q.views.all fun v => v.1 = r || (v.2.head = v.2.committed && v.2.tail = q.tail)

-- Saving (R385 to R387).

/-- Adds a token to the checkpoint buffer of what it came by. -/
def addTok (b : List (Via × List Token)) (v : Via) (ts : List Token) : List (Via × List Token) :=
  if b.any fun e => e.1 = v then b.map fun e => if e.1 = v then (v, e.2 ++ ts) else e else b ++ [(v, ts)]

/-- The checkpoint buffers of a region: the tokens of its channels, then those that detached nodes have left and those of an earlier restore
that still wait (R247, R386, R389). -/
def State.buffers (s : State) (r : Nat) (g : Region) : List (Via × List Token) :=
  let late := s.fab.flits.filter fun f => f.ctx.region = r && f.atNode (s.regionClk r)
  let toks := (g.ctxs.map fun c => c.el).dedup.flatMap fun el => (List.range 4).flatMap fun n =>
    ((s.elem (g.phys el)).chan n).filter fun t => g.ctxs.any fun c => c.el = el && c.k = t.ctx
  let b := toks.foldl (fun b t => addTok b t.via [t]) []
  let b := late.foldl (fun b f => addTok b (.route f.ctx f.o) [{ payload := f.payload, tag := f.tag, via := .route f.ctx f.o }]) b
  g.ckpt.foldl (fun b e => addTok b e.1 e.2) b

/-- The bytes of a region's buffers and the words of its rows (R387). -/
def State.savedSpad (s : State) (g : Region) : List (Nat × List Byte) :=
  g.bufs.mapIdx fun i b => (i, cellsAt s.store.spad (g.spadKey i 0) b.size)
def State.savedRows (s : State) (g : Region) : List (Nat × List Word) :=
  g.rowBase.map fun e => (e.1, (List.range (32 * g.rows)).map fun i => s.tsWord (g.rowKey e.1 (i / 32) (i % 32)))

/-- The uncorrectable words among them: by buffer or tile, with the place in it. -/
def State.savedBadSpad (s : State) (g : Region) : List (Nat × Nat) :=
  (List.range g.bufs.length).flatMap fun i =>
    let at_ := g.spadKey i 0
    s.store.badWords.filterMap fun w =>
      if w % 2 = 0 ∧ at_ ≤ w / 2 ∧ w / 2 < at_ + g.bufSize i then some (i, w / 2 - at_) else none
def State.savedBadTs (s : State) (g : Region) : List (Nat × Nat) :=
  g.rowBase.flatMap fun e => (List.range (32 * g.rows)).filterMap fun i =>
    if s.tsBad (g.rowKey e.1 (i / 32) (i % 32)) then some (e.1, i) else none

/-- A relinked context releases at .sys (R325): its cluster writes back what it can. -/
def State.flushCluster (s : State) (cl : Nat) : State :=
  (s.dirtyLines cl).foldl (fun s l => if (s.cut (cl / 4) (homeDie (l % 2 ^ 40))).isSome then s else s.writeBackLine l) s

/-- The saved set of a region is written, and its slot released (R385, R387). Its storage is copied at once (log 22). -/
def State.save (s : State) (r : Nat) (g : Region) : State :=
  let s := s.flushCluster (clusterOf r)
  let mine (c : CtxId) (lease : Nat) : Bool := c.region = r && decide (c.el < 65536) && lease = g.lease
  let logical (p : Nat) : Option Nat := (g.ctxs.find? fun c => g.phys c.el = p).map fun c => c.el
  let frozen := s.fab.elems.flatMap fun (e : Nat × Elem) =>
    (e.2.freezes.filter fun f => f.2 = r).filterMap fun f => (logical e.1).map fun el => (el, f.1)
  let recs := (s.fab.recs.filter fun p => mine p.ctx p.rcd.lease).map fun p => { p with frozen := p.frozen.filterMap logical }
  let fq := s.fab.fq.filter fun q => mine q.ctx q.rcd.lease
  let jobs := s.cores.jobs.filter fun j => g.owns r j.pkt
  let colls := ((s.dies.colls.filter fun c => g.owns r c.pkt && !c.failed).map fun c => { c.pkt with paused := c.paused }) ++
    (s.dies.collIn.lookD (dieOf r) []).filter fun p => g.owns r p
  let own : Region := { g with rings := g.rings.map fun q => { q with views := q.views.filter fun v => v.1 = r } }
  let v : Saved := { inst := g.inst, core := coreOf r, region := own, rreg := s.rreg r, toks := s.buffers r g, jobs, colls, recs, fq,
                     spad := s.savedSpad g, tstore := s.savedRows g, badSpad := s.savedBadSpad g, badTs := s.savedBadTs g, frozen }
  let s := jobs.foldl State.freeJob s
  let away (q : Req) : Req := match q.stage with
    | .parked (.push x n w) => if x = r then { q with stage := .parked (.push (awayRegion g.inst) n w) } else q
    | .parked (.pop x n) => if x = r then { q with stage := .parked (.pop (awayRegion g.inst) n) } else q
    | _ => q
  let s := { s with
    fab := { s.fab with
      recs := s.fab.recs.filter fun p => !mine p.ctx p.rcd.lease,
      fq := s.fab.fq.filter fun q => !mine q.ctx q.rcd.lease,
      flits := s.fab.flits.filter fun f => f.ctx.region ≠ r,
      reqs := s.fab.reqs.map away },
    dies := { s.dies with colls := s.dies.colls.filter (fun c => !g.owns r c.pkt || c.failed),
                          collIn := s.dies.collIn.alter (dieOf r) [] fun l => l.filter fun p => !g.owns r p } }
  let s := s.unwait (s.waiterIn r g)
  let s := ((s.dropTokens g).2.releaseRegion r 0).updGang g.gang fun x =>
    { x with saved := x.saved ++ [v], insts := mapIf (fun i => i.inst = g.inst) (fun i => { i with st := .saved }) x.insts }
  if s.regions.any fun e => e.2.gang = g.gang then s
  else s.updGang g.gang fun x => { x with st := .saved, since := s.clk x.die, stuck := none }

/-- A gang that the dispatcher has saved whole is counted (R397). -/
def State.countPre (s : State) (g : Region) : State :=
  match s.gang g.gang, g.brake with
  | some x, some b => if x.st = .saved && b.by_ = .dispatcher then s.count (dsPre x.die) else s
  | _, _ => s

/-- A shifted instance is placed at once in the next smaller cog that fits on its core (R381). -/
def State.shiftTo (s : State) (r : Nat) (g : Region) : State :=
  match s.gang g.gang with
  | none => s
  | some x =>
    let cogs := (List.range ((x.cass.map fun c => c.cogs.length).getD 0)).filter fun c => g.cog < c
    let t := { s with free := s.free + 1 }
    match cogs.findSome? fun c => x.search c (Config.order s.free) [coreOf r] [g.inst] (s.wants g.claimant ++ s.regions) with
    | some [e] =>
      let t := t.claimInst g.gang e
      (t.updGang g.gang fun y => if y.st = .saved then { y with st := .loading } else y).count (dsShift x.die)
    | _ => t

/-- Whether an instance that settles may end (R379). -/
def State.mayEnd (s : State) (r : Nat) (g : Region) : Bool :=
  (s.buffers r g).isEmpty && (s.cores.jobs.all fun j => !g.owns r j.pkt) &&
    (s.dies.queues.all fun e => e.2.held.all fun h => !(h.2.launch.toNat = g.gang && h.2.inst = g.inst)) &&
    g.bufs.isEmpty && g.rows = 0 && g.active.isEmpty && g.shadow.isEmpty

/-- REGION_SETTLE: an instance that is to be retired ends or runs on (R379); another is saved, and one that is shifted placed again. -/
def execRegionSettle (region : Nat) (s : State) : Result :=
  .next (match s.region region with
    | none => s
    | some g =>
      if !s.settled region g then s
      else match s.gang g.gang with
        | none => s
        | some x =>
          let t := s.spare g.gang g.inst
          if x.retire.contains g.inst then
            if s.mayEnd region g then
              ((t.releaseRegion region 4).instanceEnds g.gang g.inst).count (dsShrk x.die)
            else (t.unbrake region).dropWant region g
          else if x.shift.contains g.inst then (t.save region g).shiftTo region g
          else (t.save region g).countPre g)

-- Restoring (R388).

/-- The place of an actor of an old region in a new one. -/
def Region.moved (old new : Region) (el k : Nat) : Option Ctx :=
  (old.ctx el k).bind fun c => new.ctxs.find? fun x => x.actor = c.actor
def Region.movedId (old new : Region) (r : Nat) (c : CtxId) : CtxId :=
  match old.moved new c.el c.k with
  | some x => x.id r
  | none => { c with region := r }

/-- The name of the edge of a route. -/
def Region.edgeName (g : Region) (c : Ctx) (o : Nat) : Option (List Byte) :=
  (g.edges.find? fun e => e.1 = routeEdge (c.routes.getD o 0#32)).map fun e => e.2
/-- The route of the new place that carries the edge of an old route. -/
def Region.movedRoute (old new : Region) (c : CtxId) (o : Nat) : Nat :=
  match old.ctx c.el c.k, old.moved new c.el c.k with
  | some a, some b =>
    ((List.range 8).find? fun i => b.credOf i ≠ 0 && new.edgeName b i = old.edgeName a o).getD o
  | _, _ => o

/-- A generator of the memory tile of a context that names it goes with that context. -/
def Region.movedGen (old new : Region) (n : Nat) (x : Gen) : Nat :=
  let names (c : Ctx) : Bool := nearestMem old.wx old.wy (c.el / 16) = some (n / 4) && c.slots.any fun r =>
    (r.w1.toNat / 2 ^ 25 = 0x4B || r.w1.toNat / 2 ^ 25 = 0x4C) && r.w2.toNat % 4 = n % 4
  let users := old.ctxs.filter names
  match (users.find? fun c => c.el = x.starter.el && c.k = x.starter.k).or users.head? with
  | some c => match (old.moved new c.el c.k).bind fun y => nearestMem new.wx new.wy (y.el / 16) with
    | some t => 4 * t + n % 4
    | none => n
  | none => n

/-- A generator's block with its target in the new place (R385). -/
def Region.movedBlock (old new : Region) (p : List Word) : List Word :=
  match old.moved new (genEl p) (genKx p) with
  | some c =>
    let w := gw p 10
    let t := c.el / 16
    let e := c.el % 16
    setAt 16 0#32 p 10 (BitVec.ofNat 32 (w / 2 ^ 16 * 2 ^ 16 + c.k * 2 ^ 13 + bitsOf 11 2 w * 2 ^ 11 + e / 4 * 2 ^ 9 + e % 4 * 2 ^ 7 +
      tileY t * 2 ^ 3 + tileX t))
  | none => p

/-- The tile of a node in the new place: the one that its command names, or where a smaller cog has none there, that of the first buffer of
the old tile (log 92). -/
def Region.movedTile (old new : Region) (t : Nat) : Nat :=
  if tileX t < new.wx ∧ tileY t < new.wy then t
  else match firstIdx (fun (b : Buf) => b.tile = t) old.bufs 0 with
    | some i => ((new.bufs[i]?).map fun b => b.tile).getD t
    | none => t
/-- The tile of the queue of a command in the new place: that of the command's own buffer, which is followed (R243, R274). -/
def Region.movedQueue (old new : Region) (p : Packet) : Nat :=
  if p.opc = 0x52 then old.movedTile new (old.queueTile p) else new.queueTile p

/-- The compute tile that the actors of an old one stand in, in the new place: its rows and planes go with them, those of a systolic tile
with its systolic contexts (R249, R381, log 92). -/
def Region.movedSys (old new : Region) (t : Nat) : Nat :=
  let mine := old.ctxs.filter fun c => c.el / 16 = t && (c.isSystolic || !old.systolic t)
  ((mine.findSome? fun c => old.moved new c.el c.k).map fun c => c.el / 16).getD t
/-- The rows of a tile go to the new place: not where a systolic tile's take the place of those of a tile that is none (log 92). -/
def Region.rowsGo (old new : Region) (t : Nat) : Bool :=
  (new.rowBase.look (old.movedSys new t)).isSome &&
    (old.systolic t || old.rowBase.all fun e => !(old.systolic e.1 && old.movedSys new e.1 = old.movedSys new t))

/-- What a token came by, in the new place. -/
def Region.movedVia (old new : Region) (r : Nat) : Via → Via
  | .none => .none
  | .route c o => .route (old.movedId new r c) (old.movedRoute new c o)
  | .gen _ n => .gen r (old.movedGen new n ((old.gens.look n).getD {}))
  | .node _ t => .node r (old.movedTile new t)

/-- An origin in the new place. -/
def Region.movedOrg (old new : Region) (r : Nat) (o : Origin) : Origin := { o with ctx := old.movedId new r o.ctx, lease := new.lease }
def Region.movedPkt (old new : Region) (r : Nat) (p : Packet) : Packet := { p with org := old.movedOrg new r p.org }

/-- A context with its saved state (R385): registers and predicates of the live mask; the others as the image gives them. -/
def Ctx.revive (c o : Ctx) : Ctx :=
  let live (lo n : Nat) : Bool := bitOf (lo + n) c.init.toNat
  { c with
    regs := c.regs.mapIdx fun n w => if live 16 n then o.regs.getD n w else w,
    preds := c.preds.mapIdx fun n p => if live 24 n then o.preds.getD n p else p,
    rcnt := o.rcnt, rndn := o.rndn, armed := o.armed, rot := o.rot, retired := o.retired, trapped := o.trapped }

/-- A region as the relinker makes it from its frame and its saved set. -/
def Region.revive (new : Region) (r : Nat) (v : Saved) : Region :=
  let old := v.region
  let ctxs := new.ctxs.map fun (c : Ctx) => match old.ctxs.find? fun (x : Ctx) => x.actor = c.actor with
    | some o => c.revive o
    | none => c
  let node (e : Nat × Node) : Nat × Node :=
    let n := e.2
    let id := old.movedId new r n.ctx
    let o := old.movedRoute new n.ctx n.o
    let full := ((new.ctx id.el id.k).map fun c => c.credOf o).getD 0
    (old.movedTile new e.1, { n with
      pkt := old.movedPkt new r n.pkt, ctx := id, o,
      edge := ((new.ctx id.el id.k).map fun c => routeEdge (c.routes.getD o 0#32)).getD n.edge,
      fifo := n.fifo.map fun (t : Token) => { t with via := old.movedVia new r t.via }, credits := full })
  let nodes := old.nodes.map node
  let fifo (c : Ctx) (o : Nat) : Nat := (nodes.map fun e => (e.2.fifo.filter fun t => t.via = .route (c.id r) o).length).sum
  { new with
    ctxs := ctxs.map fun c => { c with credits := c.credits.mapIdx fun o n => n - fifo c o },
    wins := old.wins,
    rings := (new.rings.zip old.rings).map fun (p : Ring × Ring) => 
      { p.1 with head := p.2.head, tail := p.2.tail, views := p.2.views.map fun e => (r, e.2) },
    gens := old.gens.foldl (fun (t : Tab Gen) e =>
      let p := old.movedBlock new e.2.p
      let x := { e.2 with p, credits := genCred p, starter := old.movedId new r e.2.starter, fetch := .idle, old := false, eng := none }
      t.put (old.movedGen new e.1 e.2) { x with quota := if x.running && !x.rounded then x.grant else 0 }) [],
    nodes,
    queues := ((old.queues.flatMap fun e => e.2).mergeSort fun a b => decide (a.id ≤ b.id)).foldl
      (fun (t : Tab (List Packet)) p => t.alter (old.movedQueue new p) [] fun l => l ++ [old.movedPkt new r p]) [],
    active := old.active.map fun e => (old.movedSys new e.1, e.2),
    shadow := old.shadow.map fun e => (old.movedSys new e.1, e.2),
    round := { n := old.round.n, held := old.round.held && !old.round.quiet },
    stepHeld := old.stepHeld || old.stepping,
    ckpt := v.toks.map fun e => (old.movedVia new r e.1, e.2) }

/-- A job's name, across cores, and the jobs that it waits on. -/
def Job.key (j : Job) : Nat × Nat × Nat := (j.core, j.slot, j.serial)
def Job.sources (j : Job) : List (Nat × Nat × Nat) := j.edges.map fun e =>
  let (c, n) := edgeHome j.core e.1
  (c, n, e.2.1)
/-- The jobs in flight that wait on one of those named, directly or through others. -/
def State.followersOf (s : State) : Nat → List (Nat × Nat × Nat) → List (Nat × Nat × Nat)
  | 0, ids => ids
  | n + 1, ids => s.followersOf n (ids ++ (s.cores.jobs.filter fun x => x.sources.any ids.contains).map Job.key).dedup
/-- Edges from a job that has a new name. -/
def Job.renamed (x old new : Job) : Job :=
  { x with edges := x.edges.map fun e =>
      if old.isFrom x.core e then (edgeName x.core new.core new.slot, new.serial, e.2.2) else e }
/-- A saved job takes the place of its former self in the order of its core: edges into it that are not resolved stay, jobs that waited on
it wait on it by its new name, and it does not wait on those (R266, R274). -/
def State.keepOrder (s : State) (old : Job) (core slot : Nat) : State :=
  match s.job core slot with
  | none => s
  | some new =>
    let after := s.followersOf s.cores.jobs.length [old.key]
    let kept := old.edges.map fun e =>
      let (c, n) := edgeHome old.core e.1
      (edgeName core c n, e.2)
    let fresh := new.edges.filter fun e =>
      let (c, n) := edgeHome core e.1
      !after.contains (c, n, e.2.1) && !kept.contains e
    (s.updJob core slot fun x => { x with edges := kept ++ fresh }).mapJobs fun x => x.renamed old new

/-- Saved jobs are issued again, in their former order, with new slots and serials (R274); a paused one at its faulting chunk. One that a
read-after-write edge has aborted meanwhile is aborted in its new place. -/
def State.reissue (s : State) (r : Nat) (old new : Region) (j : Job) : Option Job × State :=
  let core := coreOf r
  match (List.range 96).find? fun n => (s.jobsOf core).all fun x => x.slot ≠ n with
  | none => (none, s)
  | some n =>
    let st : JobSt := if j.st = .paused || j.st = .aborting then j.st else .waiting
    let s := ((s.takeCard core n new { old.movedPkt new r j.pkt with req := 0, id := s.uid }).bump.updJob core n fun x =>
      { x with chunk := j.chunk, st }).keepOrder j core n
    (s.job core n, s)
/-- All of them; those that are still to come wait on one by its new name. -/
def State.reissueAll (s : State) (r : Nat) (old new : Region) (js : List Job) : State :=
  (js.foldl (fun (acc : List (Job × Job) × State) j =>
    let j := acc.1.foldl (fun j e => j.renamed e.1 e.2) j
    match acc.2.reissue r old new j with
    | (some x, s) => (acc.1 ++ [(j, x)], s)
    | (none, s) => (acc.1, s)) ([], s)).2

/-- Writes a saved set's storage into its new place, uncorrectable words as such (R387). -/
def State.putStorage (s : State) (new : Region) (v : Saved) : State :=
  let s := v.spad.foldl (fun s e => s.spadPut (new.spadKey e.1 0) e.2) (s.zeroBufs new)
  let tile (t : Nat) : Nat := v.region.movedSys new t
  let tstore := v.tstore.filter fun e => v.region.rowsGo new e.1
  let s := tstore.foldl (fun s e =>
    ((List.range e.2.length).zip e.2).foldl (fun s w => s.tsPut (new.rowKey (tile e.1) (w.1 / 32) (w.1 % 32)) w.2) s) s
  let bad := v.badSpad.map (fun e => 2 * (new.spadKey e.1 0 + e.2)) ++
    (v.badTs.filter fun e => v.region.rowsGo new e.1).map fun e => 2 * (new.rowKey (tile e.1) (e.2 / 32) (e.2 % 32) / 2 * 2) + 1
  let rows := tstore.flatMap fun e => (List.range e.2.length).map fun i => new.rowKey (tile e.1) (i / 32) (i % 32)
  { s with store := { s.store with
      badWords := (bad ++ s.store.badWords.filter fun w => !(w % 2 = 1 && rows.contains (w / 2))).dedup } }

/-- Freezes, records and the requests of others that wait on its rings come with a region. -/
def State.bringBack (s : State) (r : Nat) (new : Region) (v : Saved) : State :=
  let old := v.region
  let els (el : Nat) : List Nat := ((old.ctxs.filter fun c => c.el = el).filterMap fun c => old.moved new c.el c.k).map fun c => new.phys c.el
  let freeze : Freeze → Freeze
    | .fill c n => .fill (old.movedId new r c) n
    | f => f
  let s := v.frozen.reverse.foldl (fun s e => (els e.1).foldl (fun s p => s.updElem p fun x => x.frozenBy (freeze e.2) r) s) s
  let rcd (x : Rec) : Rec := { x with lease := new.lease }
  let recs := v.recs.map fun (p : PRec) =>
    { p with ctx := old.movedId new r p.ctx, core := coreOf r, frozen := p.frozen.flatMap els, rcd := rcd p.rcd }
  let fq := v.fq.map fun (q : QRec) => { q with ctx := old.movedId new r q.ctx, core := coreOf r }
  let back (q : Req) : Req :=
    if q.org.gang ≠ new.gang then q
    else match q.stage with
      | .parked (.push x n w) => if x = awayRegion new.inst then { q with stage := .parked (.push r n w) } else q
      | .parked (.pop x n) => if x = awayRegion new.inst then { q with stage := .parked (.pop r n) } else q
      | _ => q
  { s with fab := { s.fab with recs := s.fab.recs ++ recs, fq := s.fab.fq ++ fq, reqs := s.fab.reqs.map back } }

/-- RESTORE: steps 1 to 5 of R388 for one instance. -/
def execRestore (gang inst : Nat) (s : State) : Result :=
  .next (match s.gang gang with
    | none => s
    | some g => match g.insts.find? (fun i => i.inst = inst && i.st = .loading), g.saved.find? fun v => v.inst = inst with
      | some i, some v =>
        let r := i.region
        if s.dieWaits (dieOf r) then s else
        match s.region r with
        | none => s
        | some place =>
          if 96 < (s.jobsOf (coreOf r)).length + v.jobs.length then s
          else
            let (lease, s) := s.newLease (coreOf r)
            let s := s.updRreg r fun q => { q with
              lease, drops := v.rreg.drops, disc := v.rreg.disc, fqcnt := v.rreg.fqcnt, rdbg := v.rreg.rdbg }
            match s.loadFrame g r lease place with
            | (.error rcd, s) => s.updInst gang inst fun i => { i with st := .loaded, fault := some rcd }
            | (.ok (f, _), s) => match s.reclaim g r place f with
              | none => s.replace g place.cog f
              | some new =>
                let new := Region.revive { new with lease } r v
                let s : State := { s with regions := s.regions.put r new }
                let s := (s.putStorage new v).bringBack r new v
                let s := s.reissueAll r v.region new v.jobs
                let s := v.colls.foldl (fun s p => sendColl { v.region.movedPkt new r p with req := 0, id := s.uid } s.bump) s
                s.updInst gang inst fun i => { i with st := .loaded }
      | _, _ => s)

-- Checkpoint tokens (R389).

/-- The route or generator holds a credit. -/
def Region.holdsCredit (g : Region) : Via → Bool
  | .none => true
  | .route c o => ((g.ctx c.el c.k).map fun x => decide (0 < x.credits.getD o 0)).getD false
  | .gen _ n => ((g.gens.look n).map fun x => decide (0 < x.credits)).getD false
  | .node _ t => ((g.nodes.look t).map fun x => decide (0 < x.credits)).getD false

/-- Takes a credit, and tells the element, channel and context that a token goes to. -/
def Region.takeCredit (g : Region) (v : Via) : Option (Nat × Nat × Nat) × Region :=
  let target (c : CtxId) (o : Nat) : Option (Nat × Nat × Nat) := (g.ctx c.el c.k).bind fun x =>
    let w := x.routes.getD o 0#32
    (routeTarget x.el w).map fun el => (el, routeCh w, routeKx w)
  match v with
  | .none => (none, g)
  | .route c o => (target c o, g.updCtx c.el c.k fun x => x.spend (1#8 <<< o))
  | .gen _ n => ((g.gens.look n).map fun x => (genEl x.p, genCh x.p, genKx x.p),
                 { g with gens := g.gens.upd n fun x => { x with credits := x.credits - 1 } })
  | .node _ t => ((g.nodes.look t).bind fun x => target x.ctx x.o,
                  { g with nodes := g.nodes.upd t fun x => { x with credits := x.credits - 1 } })

/-- CHECKPOINT_TOKEN_PLACE: the next token of some buffer whose route or generator holds a credit. -/
def execCheckpointTokenPlace (region : Nat) (s : State) : Result :=
  .next (match s.region region with
    | none => s
    | some g =>
      if !g.on then s
      else match (rotated (Config.order s.free) g.ckpt).find? fun e => g.holdsCredit e.1 with
        | some (v, t :: rest) =>
          let ckpt := (g.ckpt.map fun e => if e.1 = v then (v, rest) else e).filter fun e => !e.2.isEmpty
          let (at_, g) := Region.takeCredit { g with ckpt } v
          let s : State := { s with regions := s.regions.put region g, free := s.free + 1 }
          (match at_ with
            | some (el, ch, k) =>
              let p := g.phys el
              (s.updElem p fun e => e.pushCh ch { t with tag := mkTag t.colour t.isControl k, via := v }).tidy p
            | none => s)
        | _ => s)

end Sys2Proof.Machine
end

