-- ==== Sys2Proof/Machine/Fp.lean ====
section
/-!
DEFINITION. The floating-point instructions (R140 to R157), one definition each, over the lane functions of Float.lean and
Sfu.lean.
-/

namespace Sys2Proof.Machine

/-- The stochastic value of each lane of a firing (R102, R143): the counter as it stands, plus the context's stochastic
firings in flight. -/
def srOf (s : State) (v : View) (lane : Nat) : Nat :=
  let ahead := (s.fab.wbs.filter fun w => w.sr ∧ w.ctx = v.f.ctx).length
  let seed := (((s.gang v.g.gang).map fun g => wordAt g.rcd 4).getD 0#32).toNat
  srQ seed v.g.inst v.x.home v.x.homeK (v.x.rcnt.toNat + ahead) lane

/-- A firing of latency 4 that rounds under a mode: `f` takes the stochastic values of the lanes and the sources. -/
def fireRnd (r : Rule) (w : ImmW) (mode : RMode) (f : (Nat → Nat) → Word → Word → Word → Word) (s : State) : State :=
  fireAlu r w (fun v => needOf v.rule) 4
    (fun v s => v.data (f (fun i => if mode = .sr then srOf s v i else 0) v.a v.b v.c)) s (sr := fun _ => mode == .sr)

def execFadd (m : Rnd) (t : Ty) (r : Rule) (s : State) : Result :=
  .next (fireRnd r (immF t) m.mode (fun q a b _ => faddFn m t q a b) s)
def execFsub (m : Rnd) (t : Ty) (r : Rule) (s : State) : Result :=
  .next (fireRnd r (immF t) m.mode (fun q a b _ => fsubFn m t q a b) s)
def execFmul (m : Rnd) (t : Ty) (r : Rule) (s : State) : Result :=
  .next (fireRnd r (immF t) m.mode (fun q a b _ => fmulFn m t q a b) s)
def execFfma (m : Rnd) (t : Ty) (r : Rule) (s : State) : Result :=
  .next (fireRnd r (immF t) m.mode (fun q a b c => ffmaFn m t q a b c) s)
def execFmin (nan : Bool) (t : Ty) (r : Rule) (s : State) : Result :=
  .next (fireFn r (immF t) 4 (fun a b _ => fminmaxFn nan false t a b) s)
def execFmax (nan : Bool) (t : Ty) (r : Rule) (s : State) : Result :=
  .next (fireFn r (immF t) 4 (fun a b _ => fminmaxFn nan true t a b) s)
def execFsgn (f : SgnFn) (t : Ty) (r : Rule) (s : State) : Result :=
  .next (fireFn r (immF t) 4 (fun a b _ => fsgnFn f t a b) s)
def execFcmp (cc : FCond) (t : Ty) (r : Rule) (s : State) : Result :=
  .next (fireAlu r (immF t) (fun v => needOf v.rule) 4
    (fun v _ => v.data2 (fcmpFn cc t v.a v.b) (fcmpAll cc t v.a v.b)) s)
def execFcvt (src dst : Ty) (sat : Bool) (r : Rule) (s : State) : Result :=
  let mode := modeOf (r.imm.toNat % 8)
  .next (fireRnd r .s32 mode (fun q a b _ => fcvtFn src dst mode sat (r.imm.toNat / 8 % 8) q a b) s)
def execFdot (m : Rnd) (t : Ty) (r : Rule) (s : State) : Result :=
  .next (fireRnd r .s32 m.mode (fun q a b c => fdotFn m t q a b c) s)
def execFsfu (f : SfuFn) (r : Rule) (s : State) : Result :=
  .next (fireFn r .s32 (sfuLat f) (fun a _ _ => sfuFn f a) s)
def execFcls (t : Ty) (r : Rule) (s : State) : Result :=
  .next (fireAlu r .s32 (fun v => needOf v.rule) 4 (fun v _ => v.data2 (fclsFn t v.a) (fclsAny t v.a)) s)
def execFscl (m : Rnd) (t : Ty) (r : Rule) (s : State) : Result :=
  .next (fireRnd r .s32 m.mode (fun q a b _ => fsclFn m t q a b) s)
def execFrnd (m : RMode) (t : Ty) (r : Rule) (s : State) : Result :=
  .next (fireRnd r .s32 m (fun q a _ _ => frndFn m t q a) s)
def execFlrp (m : Rnd) (r : Rule) (s : State) : Result :=
  .next (fireRnd r .f32 m.mode (fun q a b c => flrpFn m q a b c) s)
def execFxqScale (t : Ty) (r : Rule) (s : State) : Result :=
  .next (fireFn r .s32 4 (fun a _ _ => fxqScaleFn t a) s)
def execFxqQ (t : Ty) (r : Rule) (s : State) : Result :=
  .next (fireFn r .s32 4 (fun a b c => fxqQFn t a b c) s)

end Sys2Proof.Machine
end

