-- ==== Sys2Proof/Machine/Links.lean ====
section
/-!
DEFINITION. Die links and fabric ports: replay, retraining and failure (R422 to R424, R449), and what another package sends (R450, R451).
-/

namespace Sys2Proof.Machine

-- Replay and retraining (R423, R449).

/-- A flit is replayed at time `now`; the eighth replay in succession starts a retraining. -/
def Link.replay (now : Nat) (l : Link) : Link :=
  if 7 ≤ l.run then
    { l with replays := sat32 (l.replays + 1), run := 0, up := false, retraining := true, since := now, retrains := l.retrains + 1 }
  else { l with replays := sat32 (l.replays + 1), run := l.run + 1 }

/-- A flit arrives; a link that retrains or has failed carries nothing. -/
def Link.receive (now : Nat) (good : Bool) (l : Link) : Link :=
  if l.failed || l.retraining then l else if good then { l with run := 0 } else l.replay now

/-- One second, in periods of 4.0 GHz; and the 50 µs that a retraining lasts at most. -/
def second : Nat := 4 * 10 ^ 9
def retrainTime : Nat := 200000
/-- A retraining has lasted as long as it may. -/
def Link.outlasted (now : Nat) (l : Link) : Bool := l.retraining && decide (l.since + retrainTime ≤ now)

/-- A retraining ends at time `now`: it succeeds, is tried again, or is the third to fail within one second. -/
def Link.retrained (now : Nat) (ok : Bool) (l : Link) : Link :=
  if !l.retraining then l
  else if ok then { l with retraining := false, up := true }
  else
    let fails := now :: l.fails.filter fun t => decide (now ≤ t + second)
    if 3 ≤ fails.length then { l with fails, retraining := false, failed := true }
    else { l with fails, since := now, retrains := l.retrains + 1 }

def State.link (s : State) (n : Nat) : Link := s.pkg.links.getD n {}
def State.port (s : State) (n : Nat) : Link := s.pkg.ports.getD n {}
def State.setLink (s : State) (n : Nat) (l : Link) : State := { s with pkg := { s.pkg with links := setAt 4 {} s.pkg.links n l } }
def State.setPort (s : State) (n : Nat) (l : Link) : State := { s with pkg := { s.pkg with ports := setAt 8 {} s.pkg.ports n l } }

/-- A link goes on to another state; its replays and retrainings are counted for the lifetime store (R443). -/
def State.linkTo (s : State) (n : Nat) (l : Link) (replays : Nat) : State :=
  let more := l.retrains - (s.link n).retrains
  { (s.setLink n l) with pkg := { (s.setLink n l).pkg with
      life := { s.pkg.life with links := s.pkg.life.links.alter n (0, 0) fun c => (c.1 + replays, c.2 + more) } } }

/-- LINK_FLIT_RECEIVE (R423). -/
def execLinkFlitReceive (link : Nat) (good : Bool) (s : State) : Result :=
  .next (
    let l := s.link link
    s.linkTo link (l.receive s.pkg.now good) (if good || l.failed || l.retraining then 0 else 1))

-- A link fails (R424).

/-- The home's directory marks every line that a cluster across the failed link holds, and the cluster discards its copies. -/
def State.loseLines (s : State) : State :=
  let far (k : Nat) : Bool := (s.cut (k / 2 ^ 40 / 4) (homeDie (k % 2 ^ 40))).isSome
  let held : List Nat := s.store.copies ++ s.store.dirty.map fun (e : Nat × Byte) => e.1 / 128 * 128
  let lost : List Nat := (held.dedup).filter far
  let s := lost.foldl (fun (s : State) k => (List.range 4).foldl (fun (s : State) i => s.setMark (k % 2 ^ 40 / 32 + i) 9) s) s
  let gone (k : Nat) : Bool := lost.contains (k / 128 * 128)
  let store := { s.store with
    dirty := s.store.dirty.filter fun (e : Nat × Byte) => !gone e.1,
    badDirty := s.store.badDirty.filter fun k => !gone k,
    copies := s.store.copies.filter fun k => !gone k,
    wides := s.store.wides.map fun w => { w with lines := w.lines.filter fun k => !gone k } }
  { s with store }

/-- What waits on fills that another die serves, with the failed link in between. -/
def State.waitersCut (s : State) : List (Waiter × Nat) :=
  let of (d : Nat) (w : Waiter) : Option (Waiter × Nat) :=
    (s.waiterDie w).bind fun x => (s.cut x d).map fun l => (w, l)
  (s.dies.fills.map fun f => (f.waiters ++ f.extra).filterMap (of f.die)).flatten ++
    s.dies.slotQ.filterMap (fun q => of q.die q.w) ++ (s.dies.evicts.map fun e => e.waiters.filterMap (of e.die)).flatten

/-- INFO of the link failure of a waiter's access (R283, R424). -/
def State.waiterLink (s : State) (w : Waiter) (l : Nat) : List Byte :=
  match w with
  | .gen r n _ idx => genLink l ((((s.region r).bind fun x => x.gens.look n).getD {}).pos) ++ [0#8, 0#8, if idx then 1#8 else 0#8]
  | _ => [BitVec.ofNat 8 l]

/-- Requests that wait across the failed link complete with link failure: WAITA entries, and waiters on fills. -/
def State.failWaits (s : State) : State :=
  let req (q : Req) : Req := match q.stage with
    | .parked (.waita a _ _) => match s.cut (dieOf q.org.ctx.region) (homeDie a.loc) with
      | some l => { q with stage := .bad (s.mkRec q.org 0x12 [BitVec.ofNat 8 l] a.va) { q.done 0#32 false with good := false } }
      | none => q
    | _ => q
  let ws := s.waitersCut
  let s : State := { s with fab := { s.fab with reqs := s.fab.reqs.map req } }
  let s := s.unwait fun w => ws.any fun e => e.1.same w
  ws.foldl (fun s e => s.chargeWaiter e.1 0x12 (s.waiterLink e.1 e.2) 0 0#32) s

/-- A collective that has begun finds a peer out of reach: its rank tells every rank that it reaches (R457). -/
def State.failColls (s : State) : State :=
  (s.dies.colls.filter fun c => c.begun).foldl (fun s c => match s.unreachable c.die c.slot with
    | none => s
    | some l =>
      s.contribute c.die { c.pkt.part c.die c.slot (s.rankOf c.die c.slot) c.seq with words := c.src, link := some l }) s

/-- Link `n` has failed: lines are lost, requests across it fail, and Izine kills every gang with an instance on either die, a saved one
with its parked storage there among them (R387). -/
def State.linkFails (s : State) (n : Nat) : State :=
  let s := s.loseLines.failWaits.failColls
  let near (d : Nat) : Bool := d = n || d = (n + 1) % 4
  let on (e : Nat × Gang) : Bool :=
    s.regions.any (fun x => x.2.gang = e.1 && near (dieOf x.1)) || e.2.saved.any fun v => near (dieOfCore v.core)
  (s.dies.gangs.filter fun e => e.2.alive && on e).foldl (fun s e => s.killGang e.1) s

-- What other packages send (R450, R451).

/-- An answer to another package leaves by the route of a die's messages for it, or is lost where there is none. -/
def State.farSend (s : State) (d pkg : Nat) (o : Out) : State :=
  if (s.farCut d pkg).isSome then s else { s with pkg := { s.pkg with out := s.pkg.out ++ [o] } }
/-- An answer leaves, or waits for a link or port that retrains, behind those for the same package that wait there. -/
def State.farAnswer (s : State) (d pkg : Nat) (o : Out) : State :=
  if s.farWaits d pkg || s.pkg.farOut.any fun x => x.1 = d && x.2.1 = pkg then
    { s with pkg := { s.pkg with farOut := s.pkg.farOut ++ [(d, pkg, o)] } }
  else s.farSend d pkg o

/-- The answer to a read of another package. -/
def State.farRead (s : State) (src pa n : Nat) : Out :=
  match (locOf false pa).bind fun l => s.marked l n with
  | some _ => .farError src
  | none => .farReply src (s.physBytes pa n)

/-- The die that a message is for; `d` is that of its port. -/
def farDie (m : FabMsg) (d : Nat) : Nat :=
  match m with
  | .idle => d
  | .contrib die .. => die
  | .write _ pa _ | .read _ pa _ => ((locOf false pa).map homeDie).getD d
  | .ack core .. => dieOfCore core

/-- What another package sends is taken at its die, `d` where no die is its own. -/
def State.farMessage (s : State) (d : Nat) (m : FabMsg) : State :=
  match m with
  | .idle => s
  | .contrib die slot seq rank fn cnt dt op root words link bad =>
    let k : Contrib := { die, slot, seq, rank, fn, cnt, dt, op, root, words, link, bad }
    { s with dies := { s.dies with contribs := k.join s.dies.contribs } }
  | .write src pa bytes => (s.physPut pa bytes).farAnswer (farDie m d) src (.farReply src [])
  | .read src pa len => s.farAnswer (farDie m d) src (s.farRead src pa len)
  | .ack core slot serial chunk => s.farAck core slot serial chunk

/-- A message crosses the die links from its port, on the path of R422: it waits for one that retrains, behind those that wait there for
the same die, and is lost where one has failed. -/
def State.farArrives (s : State) (d : Nat) (m : FabMsg) : State :=
  let die := farDie m d
  if s.retrains d die || s.pkg.farIn.any fun x => x.1 = d && farDie x.2 x.1 = die then
    { s with pkg := { s.pkg with farIn := s.pkg.farIn ++ [(d, m)] } }
  else if (s.cut d die).isSome then s
  else s.farMessage d m

/-- What has waited goes on, in order, where its way is open again. -/
def State.passOn (s : State) : State :=
  let s := s.pkg.farIn.foldl (fun s x => s.farArrives x.1 x.2) { s with pkg := { s.pkg with farIn := [] } }
  s.pkg.farOut.foldl (fun s x => s.farAnswer x.1 x.2.1 x.2.2) { s with pkg := { s.pkg with farOut := [] } }

/-- LINK_RETRAIN_END (R423, R424): what a rank's words have waited for goes on. -/
def execLinkRetrainEnd (link : Nat) (ok : Bool) (s : State) : Result :=
  .next (
    let l := (s.link link).retrained s.pkg.now ok
    let t := s.linkTo link l 0
    let t := if l.failed && !(s.link link).failed then t.linkFails link else t
    if l.retraining then t else t.sendHeld.passOn)

-- Ports (R449).

/-- PORT_FLIT_RECEIVE. -/
def execPortFlitReceive (port : Nat) (good : Bool) (msg : FabMsg) (s : State) : Result :=
  .next (
    let l := s.port port
    let t := s.setPort port (l.receive s.pkg.now good)
    if good && !l.failed && !l.retraining && port < 8 then t.farArrives (port / 2) msg else t)

/-- PORT_RETRAIN_END: a port that fails makes packages unreachable (R449, R457). -/
def execPortRetrainEnd (port : Nat) (ok : Bool) (s : State) : Result :=
  .next (
    let l := (s.port port).retrained s.pkg.now ok
    let t := s.setPort port l
    let t := if l.failed && !(s.port port).failed then t.failColls else t
    if l.retraining then t else t.sendHeld.passOn)

end Sys2Proof.Machine
end

