-- ==== Sys2Proof/Machine/Package.lean ====
section
/-!
DEFINITION. The package as a whole: reset (R458), bring-up (R445, R446, R448), trips and throttling (R438, R440), scrubbing (R441), the
lifetime store (R443), and the management sideband (R436, R447).
-/

namespace Sys2Proof.Machine

-- Reset (R458).

/-- Everything that is reset, with what outlasts it: HBM contents and error marks, what the outside holds, what is measured there, fuses and
module flash (log 47). -/
def State.fresh (s : State) : State :=
  { State.reset with
    store := { cells := s.store.cells, marks := s.store.marks },
    pkg := { hostMem := s.pkg.hostMem, farMem := s.pkg.farMem, now := s.pkg.now, life := s.pkg.life, flash := s.pkg.flash,
             fuse := s.pkg.fuse, rootHash := s.pkg.rootHash, images := s.pkg.images, chain := s.pkg.chain, amps := s.pkg.amps,
             volts := s.pkg.volts, temps := s.pkg.temps, hot := s.pkg.hot, peaks := s.pkg.peaks, powered := s.pkg.powered, identity := s.pkg.identity,
             out := s.pkg.out },
    inputs := s.inputs, uid := s.uid, free := s.free }

/-- A package reset: L2 is written back, what cluster caches hold is lost, and bring-up runs again from its second step. -/
def State.packageReset (s : State) : State := { s.fresh with pkg := { s.fresh.pkg with boot := 1 } }

/-- PKGRST: a write without the key is ignored. -/
def State.writePkgrst (s : State) (v : Word) : State :=
  if bitsOf 16 16 v.toNat = 0xA5A5 && v.getLsbD 0 && !s.pkg.tripped then s.packageReset else s
def execPkgrst (v : Word) (s : State) : Result := .next (s.writePkgrst v)

-- Bring-up (R445, R448).

/-- The images that a step verifies: Izine's, then those of dies 1 to 3 and of the twelve base dies. -/
def bootImages (step : Nat) : List Nat :=
  match step with
  | 2 => [0]
  | 3 => (List.range 15).map (· + 1)
  | _ => []

/-- A step fails: READY stays clear, and the lifetime store records the step. -/
def State.bootFails (s : State) (step : Nat) (refused : Bool) : State :=
  { s with pkg := { s.pkg with boot := 0, bootErr := refused, life := { s.pkg.life with failedStep := step },
                               flash := { s.pkg.flash with failedStep := step } } }

/-- Links and ports are trained (R448, log 32). -/
def State.trainLinks (s : State) : State :=
  { s with pkg := { s.pkg with links := s.pkg.links.map fun l => { l with up := true },
                               ports := s.pkg.ports.map fun l => { l with up := true } } }

/-- An image verifies: its public key is the one whose hash the fuses hold, and its signature is of its type, security version and body
(R445, log 15). -/
def State.verifies (s : State) (x : FwImage) : Bool :=
  decide (Config.keyHash x.key = s.pkg.rootHash) && Config.signed x.key x.sig x.kind x.version x.body
/-- An image is refused where its security version is below the fuse counter, or where it does not verify (R445). -/
def State.refuses (s : State) (i : Nat) : Bool :=
  let x := s.pkg.images.getD i {}
  decide (x.version < s.pkg.fuse) || !s.verifies x

/-- The steps of bring-up from the one after `boot`, at most `n` of them; whether a step succeeds is the part's (log 15). -/
def State.bringUp : Nat → State → State
  | 0, s => s
  | n + 1, s =>
    let step := s.pkg.boot + 1
    if 5 < step then s
    else
      let refused := (bootImages step).any s.refuses
      let works := Config.works s.free
      let s := { s with free := s.free + 1 }
      if refused || !works then s.bootFails step refused
      else
        let s := if step = 4 then s.trainLinks else s
        State.bringUp n { s with pkg := { s.pkg with boot := step } }

/-- POWER_ON_BRING_UP: the steps that are left; from the first where power comes on, when a key pair is derived anew (R446). -/
def execPowerOnBringUp (s : State) : Result :=
  .next (
    if 5 ≤ s.pkg.boot then s
    else
      let s := if s.pkg.boot = 0 then s.fresh else s
      State.bringUp 5 { s with pkg := { s.pkg with powered := true, identity := s.pkg.identity + 1 } })

-- Power and temperature (R438, R440).

/-- One step of 1/16 more is skipped; at most fifteen. -/
def State.slower (s : State) (die : Nat) : State :=
  { s with pkg := { s.pkg with throttle := setAt 4 0 s.pkg.throttle die (min 15 (s.pkg.throttle.getD die 0 + 1)) } }

/-- 10 ms, in periods of 4.0 GHz; the samples in it, each of 1 µs, that make 1 ms (R438). -/
def tenMs : Nat := 40000000
def samplesOfMs : Nat := 1000
/-- The times of the samples above the sustained current, with a present one, of those in the last 10 ms. -/
def State.overTimes (s : State) (die milliamps : Nat) : List Nat :=
  (if 1400000 < milliamps then [s.pkg.now] else []) ++ (s.pkg.peaks.getD die []).filter fun t => decide (s.pkg.now < t + tenMs)

/-- The voltage that Izine sets a VCORE to, within its range (R437). -/
def inRange (millivolts : Nat) : Nat := max 600 (min 750 millivolts)
/-- CURRENT_SAMPLE: over the peak at any time, or over the sustained current for more than 1 ms in 10 ms (R437, R438). The sample comes with the
voltage that Izine has set the rail to (log 102). -/
def execCurrentSample (die milliamps millivolts : Nat) (s : State) : Result :=
  .next (
    let peaks := s.overTimes die milliamps
    let s := { s with pkg := { s.pkg with amps := setAt 4 0 s.pkg.amps die milliamps, peaks := setAt 4 [] s.pkg.peaks die peaks,
                                          volts := setAt 4 675 s.pkg.volts die (inRange millivolts) } }
    if 2250000 < milliamps || (1400000 < milliamps && decide (samplesOfMs < peaks.length)) then s.slower die else s)

/-- THROTTLE_RECOVER. A die that is still at 100 °C does not recover. -/
def execThrottleRecover (die : Nat) (s : State) : Result :=
  .next (if s.pkg.hot.getD die false then s
    else { s with pkg := { s.pkg with throttle := setAt 4 0 s.pkg.throttle die (s.pkg.throttle.getD die 0 - 1) } })

/-- A die's sensors as one of them reads a temperature. -/
def State.tempsOf (s : State) (die sensor celsius : Nat) : List Nat := setAt 64 0 (s.pkg.temps.getD die []) sensor celsius

/-- THERMAL_THROTTLE: a junction sensor reads a temperature; the element clock skips, and the network clock halves, while a sensor is at
100 °C. -/
def execThermalThrottle (die : Nat) (reading : SensorReading) (s : State) : Result :=
  .next (
    let ts := s.tempsOf die reading.sensor reading.celsius
    let hot := ts.any fun t => decide (100 ≤ t)
    let s := if hot then s.slower die else s
    { s with pkg := { s.pkg with hot := setAt 4 false s.pkg.hot die hot, temps := setAt 4 [] s.pkg.temps die ts } })

/-- What the stacks hold when L2 is lost: of a byte newer in L2, the newer or the older value (R440, log 7). -/
def State.dropL2 (s : State) : State :=
  let back (m : List Host.Cell) (e : Nat × Byte) : List Host.Cell := if Config.reachedStack s.free e.1 then m else cellPut m e.1 e.2
  { s with store := { s.store with cells := s.store.stale.foldl back s.store.cells, stale := [] }, free := s.free + 1 }

/-- PACKAGE_TRIP. -/
def execPackageTrip (s : State) : Result :=
  .next (
    if s.pkg.tripped then s
    else
      let life := { s.pkg.flash with trips := s.pkg.flash.trips + 1 }
      let s := s.dropL2.fresh
      { s with pkg := { s.pkg with tripped := true, powered := false, life, flash := life } })

-- Scrubbing (R166, R441).

/-- The array that a corrected word of SRAM is counted under: its kind, and its unit of that kind. -/
def scrubArray (a : ScrubAt) : Nat :=
  match a with
  | .hbm _ => 0
  | .l2 pa => 2 ^ 20 + ((locOf false pa).map homeDie).getD 0
  | .cache cl _ => 2 * 2 ^ 20 + cl
  | .spad key => 3 * 2 ^ 20 + key / 131072
  | .tstore key => 4 * 2 ^ 20 + key / 8192

/-- A corrected word is written back and counted; which bank of its stack an HBM word is in, and how warm that is, is the part's (log
23). -/
def State.corrected (s : State) (a : ScrubAt) : State :=
  let l := s.pkg.life
  let life := match a with
    | .hbm pa =>
      let stack := ((locOf false pa).map fun x => x / stackBytes).getD 0
      { l with hbm := l.hbm.alter (2 ^ 16 * stack + Config.order s.free % 2 ^ 16) 0 (· + 1) }
    | _ => { l with scrub := l.scrub.alter (scrubArray a) 0 (· + 1) }
  { s with pkg := { s.pkg with life }, free := s.free + 1 }

/-- A word found uncorrectable marks its sector, or is itself remembered where it is no word of global memory. -/
def State.spoiled (s : State) (a : ScrubAt) : State :=
  let bad (n : Nat) : State := { s with store := { s.store with badWords := n :: s.store.badWords.filter fun x => x ≠ n } }
  match a with
  | .hbm pa => ((locOf false pa).map fun l => s.setMark (l / 32) 0).getD s
  | .l2 pa => ((locOf false pa).map fun l => s.setMark (l / 32) 1).getD s
  | .cache cl loc =>
    let key := dirtyKey cl (loc / 32 * 32)
    let s := s.setMark (loc / 32) 2
    if (s.dirtyOf cl (loc / 32)).isEmpty then s
    else { s with store := { s.store with badDirty := key :: s.store.badDirty.filter fun x => x ≠ key } }
  | .spad key => bad (2 * (key / 8 * 8))
  | .tstore key => bad (2 * (key / 2 * 2) + 1)

/-- PATROL_SCRUB. -/
def execPatrolScrub (at_ : ScrubAt) (uncorrectable : Bool) (s : State) : Result :=
  .next (if uncorrectable then s.spoiled at_ else s.corrected at_)

-- The lifetime store (R443).

/-- Izine writes its counts. -/
def State.saveLife (s : State) : State := { s with pkg := { s.pkg with flash := s.pkg.life } }
def execLifetimeStoreWrite (s : State) : Result := .next s.saveLife
def execOrderlyShutdown (s : State) : Result := .next s.saveLife

-- The sideband and attestation (R436, R447).

/-- An answer whose bytes and length the manual does not give (log 14). -/
def State.answerBytes (s : State) : List Byte := (List.range (Config.order s.free % 256)).map fun i => Config.answer s.free i
def State.said (s : State) (o : Out) : State := { s with pkg := { s.pkg with out := s.pkg.out ++ [o] }, free := s.free + 1 }

/-- A PLDM firmware-update message: Izine raises the fuse counter where it is told to, or an image of module flash is replaced; what the
message tells is in bytes that the manual does not give (R436, R445; log 14). -/
def State.firmware (s : State) (n : Nat) : State :=
  if Config.happens n then { s with pkg := { s.pkg with fuse := s.pkg.fuse + 1 } }
  else
    let i := Config.order n % 32
    if i < 16 then
      let image : FwImage := { kind := Config.order (n + 1), version := Config.order (n + 2), key := Config.order (n + 3),
                               body := Config.order (n + 4), sig := Config.order (n + 5) }
      { s with pkg := { s.pkg with images := setAt 16 {} s.pkg.images i image } }
    else s

/-- What a message of the kind given is told: PLDM Type 2 and Type 5, and the vendor message types of MCTP, 0x7E and 0x7F (log 77). -/
def State.told (s : State) (kind : Nat) : Told :=
  if kind = 2 then .sensors s.pkg.amps s.pkg.temps s.pkg.hot
  else if kind = 5 then .firmware s.pkg.images
  else if kind = 0x7E ∨ kind = 0x7F then .lifetime s.pkg.flash
  else .other

/-- MCTP_MESSAGE (R436). -/
def execMctpMessage (kind : Nat) (bytes : List Byte) (s : State) : Result :=
  .next (
    let s := if kind = 5 then s.firmware (s.free + bytes.length) else s
    s.said (.mctp (s.told kind) s.answerBytes))

/-- The measurements of the package (R447). -/
def State.measure (s : State) : Measurements :=
  { rom := Config.romVersion, izine := (s.pkg.images.getD 0 {}).body, dies := (s.pkg.images.drop 1).map fun i => i.body,
    fuse := s.pkg.fuse, config := s.pkg.config, debug := s.pkg.debugUsed }

/-- What the seven requests of R447 are answered, by the codes of SPDM 1.3 (log 77). -/
def State.attest (s : State) (code : Nat) : Attest :=
  match code with
  | 0x84 => .version
  | 0xE1 => .capabilities false
  | 0xE3 => .algorithms .sha384 [] [.brainpoolP384]
  | 0x81 => .digests s.pkg.chain
  | 0x82 => .certificate s.pkg.chain
  | 0x83 => .challenge s.pkg.identity
  | 0xE0 => .measurements s.measure
  | _ => .other

/-- SPDM_REQUEST, over DOE, which answers only once READY is set (R425). -/
def execSpdmRequest (code : Nat) (bytes : List Byte) (s : State) : Result :=
  .next (if s.pkg.boot < 5 then s.said .configRetry
    else { s with free := s.free + code + bytes.length }.said (.spdm (s.attest code) s.answerBytes))

end Sys2Proof.Machine
end

