-- ==== Sys2Proof/Machine/HostPort.lean ====
section
/-!
DEFINITION. What the host does, but for register writes: submissions and kills (R427, R430), BAR4 (R432), configuration (R425), ATS
invalidations (R435), and endpoint accesses that are not answered (R434, R451).
-/

namespace Sys2Proof.Machine

-- Submissions (R430).

def sublo (d : Nat) : Nat := 0x20 + 16 * d
def subres (d : Nat) : Nat := 0x28 + 16 * d
def subst_ (d : Nat) : Nat := 0x2C + 16 * d
def subas (d : Nat) : Nat := 0x68 + 4 * d

/-- A submission of a die is being read and checked: SUBST.BUSY. -/
def State.subBusy (s : State) (die : Nat) : Bool := s.pkg.subs.any fun x => x.die = die

/-- A write to SUBHI submits; it is ignored while BUSY is set. -/
def State.submit (s : State) (die : Nat) (v : Word) : State :=
  if s.subBusy die || 4 ≤ die then s
  else
    let hi := v.toNat % 2 ^ 24
    let s := s.setMmio (sublo die + 4) (BitVec.ofNat 32 hi)
    let lrec := s.mmioNat (sublo die) 0 / 256 * 256 + 2 ^ 32 * hi
    { s with pkg := { s.pkg with subs := s.pkg.subs ++ [{ die, lrec, as_ := s.mmioNat (subas die) 0 % 2 ^ 17 }] } }
def execSubmit (die : Nat) (v : Word) (s : State) : Result := .next (s.submit die v)

/-- The entry that SUBAS names is not valid, or not in the table. -/
def State.badSubas (s : State) (x : Sub) : Bool :=
  match s.aspace x.die x.as_ with
  | some a => !a.v
  | none => true

/-- The class of what SUBAS alone makes a submission fail with: a bad entry, or one that cannot be read (R337, R424). -/
def State.subasFault (s : State) (x : Sub) : Option Nat :=
  match s.tableDeny x.die (s.astBase x.die) x.as_ (s.astN x.die) with
  | some (.link _) => some 0x12
  | some (.bad _) => some 0x0B
  | _ => if s.badSubas x then some 0x0F else none

/-- SUBMIT_DONE: SUBRES and SUBST are set, and BUSY clears; what the die reads waits for a link that retrains (R423). -/
def execSubmitDone (die : Nat) (s : State) : Result :=
  .next (match s.pkg.subs.find? fun x => x.die = die with
    | none => s
    | some x =>
      if s.dieWaits die then s else
      let s := { s with pkg := { s.pkg with subs := s.pkg.subs.filter fun y => y.die ≠ die } }
      let answer (s : State) (res : Word) (off cls : Nat) : State :=
        (s.setMmio (subres die) res).setMmio (subst_ die) (BitVec.ofNat 32 (2 ^ 16 * (off % 2 ^ 16) + 2 ^ 8 * cls))
      match s.subasFault x with
      | some cls => answer s 0xFFFFFFFF#32 0xFFFF cls
      | none => match s.accept { die, lrec := x.lrec, recAs := x.as_ } with
        | (.ok id, s) => answer s id 0 0
        | (.error e, s) => answer s 0xFFFFFFFF#32 e.off e.cls)

/-- GKILL: an ID that names no live gang is ignored. -/
def execGkill (v : Word) (s : State) : Result := .next (s.killGang v.toNat)

-- BAR4 (R432).

/-- HOST_BAR4_ACCESS: at the homes; beyond 576 GiB reads are ones and writes are discarded. -/
def execHostBar4Access (write : Bool) (off len : Nat) (bytes : List Byte) (s : State) : Result :=
  .next (
    let pa := 2 ^ 20 * s.mmioNat 0x1C 0 + off
    if write then s.physPut pa bytes
    else
      let marked := ((List.range len).filterMap fun i => locOf false (pa + i)).findSome? s.markOf
      let bs := (List.range len).map fun i => match locOf false (pa + i) with
        | some l => s.homeByte l
        | none => 0xFF#8
      let o : Out := match marked with
        | some code => .readError code
        | none => .bar4 bs
      { s with pkg := { s.pkg with out := s.pkg.out ++ [o] } })

-- Configuration (R425).

/-- A register of a capability of the configuration space: bits that have a value of their own, and bits that hold what is written. Where the
capability stands, and the places of its fields, are the standard's (log 88). -/
structure CapReg where
  num : Nat
  fixed : Word
  val : Word
  rw : Word
  deriving DecidableEq, Repr, Inhabited

/-- What R425 and R426 give of the capabilities: MSI-X with 2,048 vectors, its enable and mask; a payload of at most 512 bytes, with the
payload and the read request size in use; and BAR4 resizable from 2^30 to 2^40 bytes, with its size in use. -/
def capRegs : List CapReg :=
  [{ num := 0, fixed := 0x07FF0000#32, val := 0x07FF0000#32, rw := 0xC0000000#32 },
   { num := 1, fixed := 0x00000007#32, val := 0x00000002#32, rw := 0#32 },
   { num := 2, fixed := 0#32, val := 0#32, rw := 0x000070E0#32 },
   { num := 3, fixed := 0xFFFFFFF0#32, val := 0x01FFC000#32, rw := 0#32 },
   { num := 4, fixed := 0x00000007#32, val := 0x00000004#32, rw := 0x00003F00#32 }]
/-- The greatest read request, in bytes, and what the device asks for under the size that the host has set (R425). -/
def maxReadRequest : Nat := 4096
def State.readRequest (s : State) : Nat := min maxReadRequest (2 ^ (7 + bitsOf 12 3 (s.pkg.config.lookD (Config.capAt 2) 0#32).toNat))

/-- A configuration register: the bits that hold what is written, those of the capabilities, and the others, which are the standard's and
not the manual's (log 14). -/
def State.configWord (s : State) (reg : Nat) : Word :=
  let held := s.pkg.config.lookD reg 0#32
  let plain := (held &&& Config.configRw reg) |||
    (leWord ((List.range 4).map fun i => Config.configByte (4 * (s.free + reg) + i)) &&& ~~~Config.configRw reg)
  (capRegs.filter fun c => Config.capAt c.num = reg).foldl (fun w c =>
    (w &&& ~~~(c.fixed ||| c.rw)) ||| c.val ||| (held &&& c.rw)) plain

/-- CONFIG_REQUEST: retry status until READY. -/
def execConfigRequest (write : Bool) (reg : Nat) (v : Word) (s : State) : Result :=
  .next (if s.pkg.boot < 5 then s.said .configRetry
    else
      let s := if write then { s with pkg := { s.pkg with config := s.pkg.config.put reg v } } else s
      s.said (.config (s.configWord reg)))

-- Endpoints (R434, R435, R451).

/-- ATS_INVALIDATION: the entry goes, and the invalidation completes. Every access through an endpoint is performed within one event,
so none that used the entry is outstanding between events. -/
def execAtsInvalidation (addr : Nat) (s : State) : Result :=
  .next { s with pkg := { s.pkg with ats := s.pkg.ats.filter fun e => e.1 ≠ addr / 4096, out := s.pkg.out ++ [.atsDone addr] } }

/-- The endpoint number of one side of a card. -/
def CSide.endpoint (c : CSide) : Option Nat := if c.sp = 2 then some c.sel else none

/-- The agents with accesses of endpoints outstanding: a generator is 2 × (512 × region + generator) + 1, a job 2 × (128 × core + slot),
and the collective of a slot 2^32 + 256 × die + slot.
The fault that an access without answer raises; `f` tells class and INFO from the endpoint, and the memory code's or unit's first bytes. -/
def State.unanswered (s : State) (id : Nat) (f : Nat → Ept → Bool → Nat → Option (Nat × List Byte)) : State :=
  let n := id / 2
  if id % 2 = 1 then
    match s.region (n / 512) with
    | none => s
    | some g => match g.gens.look (n % 512) with
      | none => s
      | some x => match s.eptOf g.gang (genEp x.p) with
        | none => s
        | some e =>
          if x.running && !x.old && genSrc x.p = 1 && x.fetch == .reading then
            match f (dieOf (n / 512)) e true x.pos with
            | some (cls, info) => s.genFault (n / 512) (n % 512) cls info (spVa 2 (genEp x.p) (genAddr x.p x.pos % 2 ^ 56).toNat)
            | none => s
          else s
  else
    match s.job (n / 128) (n % 128) with
    | none => s
    | some j =>
      let c := if (j.pkt.side true).sp = 2 then j.pkt.side true else j.pkt.side false
      match c.endpoint.bind fun i => s.eptOf j.pkt.org.gang i with
      | none => s
      | some e =>
        if j.st = .aborting && j.acks then s.updJob j.core j.slot fun x => { x with acks := false, acked := true }
        else if j.st = .running && j.fault.isNone && !j.fill && !j.acked then
          match f (dieOfCore j.core) e false j.chunk with
          | some (cls, info) =>
            if j.acks then
              (s.updJob j.core j.slot fun x => { x with acks := false }).jobFault j cls info
                (spVa 2 c.sel (j.pkt.at_ c ((j.words j.chunk).headD 0) % 2 ^ 56).toNat)
            else
            -- Which word of the chunk had no answer is open, and so is what of it has been written (log 9).
            let words := j.words j.chunk
            let w := (rotated (Config.order s.free) words).headD 0
            let (ws, _, s) := s.chunkGo j j.chunk words
            (s.putSome j ws).jobFault j cls info (spVa 2 c.sel (j.pkt.at_ c w % 2 ^ 56).toNat)
          | none => s
        else s

/-- ENDPOINT_TIMEOUT: no completion in 50 ms, or one that reports an error (R434), as another package's may (R451). -/
def execEndpointTimeout (id : Nat) (s : State) : Result :=
  .next (s.unanswered id fun _ _ gen pos => some (0x0B, if gen then genInfo 7 pos else [6#8, 7#8, 0#8, 0#8] ++ natLe 4 pos))

/-- INFO 0x20 of a package's failure to reply (R451): its port, or 0xFF where no route exists. -/
def State.farCode (s : State) (d pkg : Nat) : Nat := ((s.routePort d pkg).map fun p => 0x80 + p).getD 0xFF

/-- The collective that a slot performs has no reply of some other package: its rank tells every rank (R451, R457, log 85). -/
def State.collUnanswered (s : State) (die slot : Nat) : State :=
  match s.collHead die slot with
  | none => s
  | some c =>
    let got (r : Nat) : Bool := s.dies.contribs.any fun x => x.die = die && x.slot = slot && x.seq = c.seq && x.rank = r
    let far := ((List.range (s.ranks die slot)).filter fun r => !got r).findSome? fun r =>
      let e := s.groupEntry die slot r
      if e % 1024 = s.fabid die then none else some (e % 1024)
    match far with
    | none => s
    | some pkg =>
      if c.begun && !c.failed then
        s.contribute die { c.pkt.part die slot (s.rankOf die slot) c.seq with words := c.src, link := some (s.farCode die pkg) }
      else s

/-- REMOTE_ENDPOINT_TIMEOUT: no reply of the other package in 50 ms (R451, R457). -/
def execRemoteEndpointTimeout (id : Nat) (s : State) : Result :=
  .next (if 2 ^ 32 ≤ id then s.collUnanswered (id % 2 ^ 32 / 256) (id % 256)
    else s.unanswered id fun d e gen pos =>
      if s.isRemote d e then
        let code := s.farCode d (bitsOf 52 10 e.addr)
        some (0x12, if gen then genLink code pos else [BitVec.ofNat 8 code])
      else none)

end Sys2Proof.Machine
end

