-- ==== Sys2Proof/Machine/Registers.lean ====
section
/-!
DEFINITION. The memory-mapped registers of BAR0: where each lies (R426, R429), what a write does (R6 with the tables of R195, R280, R281,
R311, R312, R370, R392, R397, R404, R427, R453), and what a read returns.
-/

namespace Sys2Proof.Machine

-- Places (R426, R429).

/-- The page of a BAR0 offset, with the offset in it. -/
inductive Page where
  | global (o : Nat)
  | mem (die o : Nat)
  | disp (die o : Nat)
  | gfx (die o : Nat)
  | fab (die o : Nat)
  /-- A cluster of the package. -/
  | cluster (cl o : Nat)
  | queue (die q o : Nat)
  /-- A region slot of a core. -/
  | region (r o : Nat)
  | sync (core o : Nat)
  | nothing
  deriving DecidableEq, Repr, Inhabited

def pageOf (off : Nat) : Page :=
  if off < 0x1000 then .global off
  else if off < 0x100000 ∨ 0xD00000 ≤ off then .nothing
  else
    let d := (off - 0x100000) / 0x300000
    let o := (off - 0x100000) % 0x300000
    if o < 0x1000 then .mem d o
    else if o < 0x2000 then .disp d (o - 0x1000)
    else if o < 0x3000 then .gfx d (o - 0x2000)
    else if o < 0x10000 then .fab d (o - 0x3000)
    else if o < 0x14000 then .cluster (4 * d + (o - 0x10000) / 0x1000) (o % 0x1000)
    else if o < 0x20000 then .nothing
    else if o < 0x40000 then .queue d ((o - 0x20000) / 0x20) (o % 0x20)
    else if o < 0x60000 then
      let core := 16 * d + (o - 0x40000) / 0x2000
      if o % 0x2000 < 0x800 then .region (32 * core + o % 0x2000 / 0x40) (o % 0x40)
      else if 0x1000 ≤ o % 0x2000 then .sync core (o % 0x1000)
      else .nothing
    else .nothing

-- Writes.

/-- A field held between limits. -/
def clampBits (lo n least most : Nat) (v : Word) : Word := BitVec.ofNat 32 (2 ^ lo * min most (max least (bitsOf lo n v.toNat)))

/-- A write to the global page. -/
def State.writeGlobal (s : State) (o : Nat) (v : Word) : State :=
  let d := (o - 0x20) / 16
  if o = 0x08 then s.writePkgrst v
  else if o = 0x10 then s.setMmio o (v &&& 0xFFFFF000#32)
  else if o = 0x14 then s.setMmio o (v &&& 0x000FFFFF#32)
  else if o = 0x18 then s.setMmio o (v &&& 0x0001FFFF#32)
  else if o = 0x1C then s.setMmio o v
  else if 0x20 ≤ o ∧ o < 0x60 ∧ o % 16 = 0 then (if s.subBusy d then s else s.setMmio o (v &&& 0xFFFFFF00#32))
  else if 0x20 ≤ o ∧ o < 0x60 ∧ o % 16 = 4 then s.submit d v
  else if o = 0x60 then s.killGang v.toNat
  else if 0x68 ≤ o ∧ o < 0x78 ∧ o % 4 = 0 then s.setMmio o (v &&& 0x0001FFFF#32)
  else s

/-- A write to the memory page of a die. -/
def State.writeMem (s : State) (d o : Nat) (v : Word) : State :=
  let put (w : Word) : State := s.setMmio (memPage d + o) w
  match o with
  | 0x00 => put (v &&& 0xFFFFF000#32)
  | 0x04 => put (v &&& 0x000FFFFF#32)
  | 0x08 => put (v &&& 0x0001FFFF#32)
  | 0x10 => put (v &&& 0xFFFC0000#32)
  | 0x14 => put (v &&& 0x00FFFFFF#32)
  | 0x18 => put v
  | 0x1C => put (v &&& 0x30000FFF#32)
  | 0x20 => s.writeTigo d v
  | 0x40 => put (clampBits 8 5 20 31 v ||| clampBits 0 5 0 16 v)
  | _ => s

/-- A write to the dispatcher page of a die. -/
def State.writeDisp (s : State) (d o : Nat) (v : Word) : State :=
  let put (w : Word) : State := s.setMmio (dispPage d + o) w
  match o with
  | 0x00 => put (clampBits 16 5 12 30 v ||| clampBits 0 5 12 30 v)
  | 0x04 => put v
  | 0x08 => put (v &&& 0x000FFFFF#32)
  | 0x4C => put v
  | _ => s.writeTrace (dispPage d + o) v

/-- A write to the fabric page of a die. -/
def State.writeFab (s : State) (d o : Nat) (v : Word) : State :=
  let put (w : Word) : State := s.setMmio (fabPage d + o) w
  if o < 0x100 then
    match o with
    | 0x00 => put (v &&& 0x000003FF#32)
    | 0x04 => put (v &&& 0xC0000001#32)
    | 0x08 => put (v &&& 0xFFFFFC00#32)
    | 0x0C => put (v &&& 0x000FFFFF#32)
    | _ => s
  else if o < 0x1100 then
    match o % 16 with
    | 0 => if bitOf 31 v.toNat then s.enableSlot d ((o - 0x100) / 16) v else put (v &&& 0x00000FFF#32)
    | 4 => put ((s.mmio (fabPage d + o) 0#32 &&& 0x8000FFFF#32) ||| (v &&& 0x0FFF0000#32))
    | 8 => put v
    | 12 => put (v &&& 0x000FFFFF#32)
    | _ => s
  else s

/-- A write to QCFG: it enables the queue; while that is enabled, it closes, reopens or disables it and nothing else (R312). -/
def State.writeQcfg (s : State) (d q : Nat) (v : Word) : State :=
  if !(s.hq d q).en then
    if bitOf 31 v.toNat then s.enableQueue d q v else s.updHq d q fun x => { x with cfg := qcfgMask v }
  else if !bitOf 31 v.toNat then
    s.updHq d q fun x => { x with cfg := qcfgKeep x.cfg v &&& 0x7FFFFFFF#32 }
  else if bitOf 30 v.toNat then s.closeQueue d q
  else s.updHq d q fun x => { x with cfg := qcfgKeep x.cfg v }

/-- A write to a queue's registers. -/
def State.writeQueue (s : State) (d q o : Nat) (v : Word) : State :=
  match o with
  | 0x00 => s.writeQcfg d q v
  | 0x04 => if (s.hq d q).en then s else s.updHq d q fun x => { x with blo := v &&& 0xFFFFF000#32 }
  | 0x08 => if (s.hq d q).en then s else s.updHq d q fun x => { x with bhi := v &&& 0x000FFFFF#32 }
  | _ => s

/-- A write to RCTL (R195): a kill goes before a resume; any write arms the
deadlock detector again (R191), whose count starts anew (log 74). -/
def State.writeRctl (s : State) (r : Nat) (v : Word) : State :=
  let s := s.updRegion r fun g => { g with stalled := false, stall := 0 }
  let s := if v.getLsbD 1 then s.killRegion r else s
  if v.getLsbD 0 then s.resume r else s

/-- A write to RDBG (R392 to R394): a direct region changes to stepping at once; clearing a hold releases what it held. -/
def State.writeRdbg (s : State) (r : Nat) (v : Word) : State :=
  let v := v &&& 0x0000001F#32
  let s := { s with pkg := { s.pkg with debugUsed := s.pkg.debugUsed ||| (v &&& 0x00000013#32) } }
  let step := v.getLsbD 1
  let s := (s.updRreg r fun x => { x with rdbg := v }).updRegion r fun g =>
    if g.roundSet.isEmpty && !g.stepping && !g.stepHeld then { g with stepGo := step && g.on } else g
  s.wakeDispatchers

/-- A write to a region slot's registers. -/
def State.writeRegion (s : State) (r o : Nat) (v : Word) : State :=
  match o with
  | 0x00 => s.updRreg r fun x => { x with starve := x.starve && !v.getLsbD 12, stall := x.stall && !v.getLsbD 11 }
  | 0x04 => s.writeRctl r v
  | 0x08 => s.updRreg r fun x => { x with dlcfg := (v &&& 0x00010000#32) ||| clampBits 8 5 10 24 v ||| clampBits 0 5 12 30 v }
  | 0x18 => s.writeRdbg r v
  | _ => s

/-- A write to a core's sync page. -/
def State.writeSync (s : State) (core o : Nat) (v : Word) : State :=
  if o < 0x800 then
    match o % 8 with
    | 0 => s.updSem core (o / 8) fun x => { x with value := v }
    | 4 => s.updSem core (o / 8) fun x => { x with abt := x.abt && !v.getLsbD 31 }
    | _ => s
  else if o < 0xE00 then
    if o % 16 = 0 then s.writeSbcfg core ((o - 0x800) / 16) v else s
  else if o = 0xE00 ∧ v.getLsbD 31 then s.cjctl core (v.toNat % 128)
  else s

/-- A write of a register by its BAR0 offset; a write elsewhere is ignored. -/
def State.writeReg (s : State) (off : Nat) (v : Word) : State :=
  match pageOf off with
  | .global o => s.writeGlobal o v
  | .mem d o => s.writeMem d o v
  | .disp d o => s.writeDisp d o v
  | .gfx d o => if o = 0 then s.setMmio (gfxPage d) (v &&& 0x0000FFFF#32) else s
  | .fab d o => s.writeFab d o v
  | .cluster cl o =>
    if o = 0 then s.setMmio (clusterPage cl) (clampBits 0 5 12 30 v)
    else if o = 0x10 ∧ v.getLsbD 0 then s.beginWide [cl] .ccctl
    else s
  | .queue d q o => s.writeQueue d q o v
  | .region r o => s.writeRegion r o v
  | .sync core o => s.writeSync core o v
  | .nothing => s

/-- REGISTER_WRITE (R6). -/
def execRegisterWrite (off : Nat) (v : Word) (s : State) : Result := .next (s.writeReg off v)

-- Reads.

def bit (n : Nat) (b : Bool) : Nat := if b then 2 ^ n else 0
def ofNat32 (n : Nat) : Word := BitVec.ofNat 32 n

/-- RSTAT and its neighbours (R195, R392). A frozen element that two regions share is the one's whose firing froze it (log 74). -/
def State.readRegion (s : State) (r o : Nat) : Word :=
  let x := s.rreg r
  let g := s.region r
  let is (p : Region → Bool) : Bool := (g.map p).getD false
  let frozen := s.fab.elems.any fun e => g.isSome && e.2.freezes.any fun f => f.2 = r
  match o with
  | 0x00 => ofNat32 (2 ^ 16 * x.lease + bit 12 x.starve + bit 11 x.stall + bit 10 (is fun g => g.ctxs.any fun c => c.trapped) +
      bit 9 frozen + bit 8 (is fun g => g.round.held || g.stepHeld) + 2 ^ 4 * x.state)
  | 0x08 => x.dlcfg
  | 0x0C => ofNat32 x.drops
  | 0x10 => ofNat32 x.disc
  | 0x14 => ofNat32 x.fqcnt
  | 0x18 => x.rdbg ||| ofNat32 (bit 7 (is fun g => g.stepHeld))
  | _ => 0#32

/-- The sync page (R280, R281). -/
def State.readSync (s : State) (core o : Nat) : Word :=
  if o < 0x800 then
    let m := s.sem core (o / 8)
    match o % 8 with
    | 0 => m.value
    | 4 => ofNat32 (bit 31 m.abt + m.aborts)
    | _ => 0#32
  else if o < 0xE00 then
    let b := s.bar core ((o - 0x800) / 16)
    match o % 16 with
    | 0 => ofNat32 (bit 31 b.abt + b.exp)
    | 4 => ofNat32 (2 ^ 16 * b.phase + b.arr)
    | 8 => BitVec.ofInt 32 b.pend
    | _ => 0#32
  else if o = 0xE04 then
    let js := s.jobsOf core
    ofNat32 (2 ^ 16 * min 16 (s.cores.copyIn.lookD core []).length + 2 ^ 8 * (js.filter fun j => j.st = .paused).length + js.length)
  else 0#32

/-- A queue's registers (R312). -/
def State.readQueue (s : State) (d q o : Nat) : Word :=
  let h := s.hq d q
  match o with
  | 0x00 => h.cfg
  | 0x04 => h.blo
  | 0x08 => h.bhi
  | 0x0C => h.res
  | 0x10 => h.head
  | 0x14 => ofNat32 (2 ^ 16 * min 0xFFFF (s.queueParked d q 2).length + min 0xFFFF (s.queueParked d q 1).length)
  | 0x18 => ofNat32 h.void
  | _ => 0#32

/-- DEVSTAT (R427). -/
def State.devstat (s : State) : Word :=
  ofNat32 (bit 31 (5 ≤ s.pkg.boot) + bit 30 s.pkg.bootErr + bit 29 (s.pkg.throttle.any (· ≠ 0) || s.pkg.hot.any id) +
    (s.pkg.links.mapIdx fun i l => bit i l.failed).sum)

/-- The global page (R427). -/
def State.readGlobal (s : State) (o : Nat) : Word :=
  let d := (o - 0x20) / 16
  if o = 0x00 then 0x48000000#32 ||| (Config.stepping.setWidth 32 <<< 8)
  else if o = 0x04 then s.devstat
  else if o = 0x08 ∨ o = 0x60 then 0#32
  else if 0x20 ≤ o ∧ o < 0x60 ∧ o % 16 = 12 then s.mmio o 0#32 ||| ofNat32 (bit 0 (s.subBusy d))
  else if 0x80 ≤ o ∧ o < 0x90 ∧ o % 4 = 0 then ofNat32 (s.link ((o - 0x80) / 4)).replays
  else s.mmio o 0#32

/-- A register's value by its BAR0 offset. -/
def State.readReg (s : State) (off : Nat) : Word :=
  match pageOf off with
  | .global o => s.readGlobal o
  | .mem d o => match o with
    | 0x20 => 0#32
    | 0x24 => ofNat32 (2 ^ 16 * s.mmioNat (tidone d) 0 + bit 0 (s.dies.inval.look d).isSome)
    | 0x40 => s.mmio off 0x1C01#32
    | 0x44 => ofNat32 (s.dies.fills.filter fun f => f.die = d).length
    | _ => s.mmio off 0#32
  | .disp d o => match o with
    | 0x00 => s.mmio off 0x140010#32
    | 0x0C => ofNat32 (s.dies.gangs.filter fun e => e.2.die = d && (e.2.st = .ready || e.2.st = .saved)).length
    | 0x48 => s.mmio off 6#32
    | _ => s.mmio off 0#32
  | .gfx _ o => s.mmio off (if o = 0 then 64#32 else 0#32)
  | .fab d o =>
    let l := s.port (2 * d + o % 8 / 4)
    if o = 0x10 ∨ o = 0x14 then ofNat32 (bit 31 l.up + bit 30 l.failed + min 0xFFFF l.retrains)
    else if o = 0x18 ∨ o = 0x1C then ofNat32 l.replays
    else s.mmio off 0#32
  | .cluster cl o => match o with
    | 0x00 => s.mmio off 24#32
    | 0x04 => ofNat32 (s.waiting cl).length
    | 0x10 => 0#32
    | 0x14 => ofNat32 (s.dirtyLines cl).length
    | _ => s.mmio off 0#32
  | .queue d q o => s.readQueue d q o
  | .region r o => s.readRegion r o
  | .sync core o => s.readSync core o
  | .nothing => 0#32

end Sys2Proof.Machine
end

