-- ==== Sys2Proof/Machine/Dispatch.lean ====
section
/-!
DEFINITION. The meaning of every instruction, one arm for each row of spec/opcode_table.json.
-/

namespace Sys2Proof.Machine

/-- Performs an instruction: a rule instruction is a firing of `s.cur`; an event of the device is that event. -/
def exec (i : Instr) (s : State) : Host.Outcome State Fault Refusal :=
  match i with
  | .nop r => Sys2Proof.Machine.execNop r s
  | .mov r => Sys2Proof.Machine.execMov r s
  | .movh r => Sys2Proof.Machine.execMovh r s
  | .sel p r => Sys2Proof.Machine.execSel p r s
  | .iadd sat t r => Sys2Proof.Machine.execIadd sat t r s
  | .isub sat t r => Sys2Proof.Machine.execIsub sat t r s
  | .imul hi t r => Sys2Proof.Machine.execImul hi t r s
  | .imad sat t r => Sys2Proof.Machine.execImad sat t r s
  | .imin t r => Sys2Proof.Machine.execImin t r s
  | .imax t r => Sys2Proof.Machine.execImax t r s
  | .iabs sat t r => Sys2Proof.Machine.execIabs sat t r s
  | .iaddx p t r => Sys2Proof.Machine.execIaddx p t r s
  | .andw r => Sys2Proof.Machine.execAndw r s
  | .orw r => Sys2Proof.Machine.execOrw r s
  | .xorw r => Sys2Proof.Machine.execXorw r s
  | .andnw r => Sys2Proof.Machine.execAndnw r s
  | .shl r => Sys2Proof.Machine.execShl r s
  | .shr r => Sys2Proof.Machine.execShr r s
  | .sar r => Sys2Proof.Machine.execSar r s
  | .rot r => Sys2Proof.Machine.execRot r s
  | .clz r => Sys2Proof.Machine.execClz r s
  | .popc r => Sys2Proof.Machine.execPopc r s
  | .brev r => Sys2Proof.Machine.execBrev r s
  | .bfx signed r => Sys2Proof.Machine.execBfx signed r s
  | .bfi r => Sys2Proof.Machine.execBfi r s
  | .icmp cc t r => Sys2Proof.Machine.execIcmp cc t r s
  | .pset f r => Sys2Proof.Machine.execPset f r s
  | .pget r => Sys2Proof.Machine.execPget r s
  | .idiv rem t r => Sys2Proof.Machine.execIdiv rem t r s
  | .sys r => Sys2Proof.Machine.execSys r s
  | .cntCh r => Sys2Proof.Machine.execCntCh r s
  | .cntCr r => Sys2Proof.Machine.execCntCr r s
  | .idot sat t r => Sys2Proof.Machine.execIdot sat t r s
  | .steer r => Sys2Proof.Machine.execSteer r s
  | .merge r => Sys2Proof.Machine.execMerge r s
  | .gate onTrue r => Sys2Proof.Machine.execGate onTrue r s
  | .ctl r => Sys2Proof.Machine.execCtl r s
  | .sink r => Sys2Proof.Machine.execSink r s
  | .sinkTag r => Sys2Proof.Machine.execSinkTag r s
  | .tagc byReg r => Sys2Proof.Machine.execTagc byReg r s
  | .pack f r => Sys2Proof.Machine.execPack f r s
  | .unpk t r => Sys2Proof.Machine.execUnpk t r s
  | .seq down r => Sys2Proof.Machine.execSeq down r s
  | .perm r => Sys2Proof.Machine.execPerm r s
  | .shuf f r => Sys2Proof.Machine.execShuf f r s
  | .tred f r => Sys2Proof.Machine.execTred f r s
  | .trap r => Sys2Proof.Machine.execTrap r s
  | .brk r => Sys2Proof.Machine.execBrk r s
  | .ret r => Sys2Proof.Machine.execRet r s
  | .delay r => Sys2Proof.Machine.execDelay r s
  | .fadd m t r => Sys2Proof.Machine.execFadd m t r s
  | .fsub m t r => Sys2Proof.Machine.execFsub m t r s
  | .fmul m t r => Sys2Proof.Machine.execFmul m t r s
  | .ffma m t r => Sys2Proof.Machine.execFfma m t r s
  | .fmin nan t r => Sys2Proof.Machine.execFmin nan t r s
  | .fmax nan t r => Sys2Proof.Machine.execFmax nan t r s
  | .fsgn f t r => Sys2Proof.Machine.execFsgn f t r s
  | .fcmp cc t r => Sys2Proof.Machine.execFcmp cc t r s
  | .fcvt src dst sat r => Sys2Proof.Machine.execFcvt src dst sat r s
  | .fdot m t r => Sys2Proof.Machine.execFdot m t r s
  | .fsfu f r => Sys2Proof.Machine.execFsfu f r s
  | .fcls t r => Sys2Proof.Machine.execFcls t r s
  | .fscl m t r => Sys2Proof.Machine.execFscl m t r s
  | .frnd m t r => Sys2Proof.Machine.execFrnd m t r s
  | .flrp m r => Sys2Proof.Machine.execFlrp m r s
  | .fxqScale t r => Sys2Proof.Machine.execFxqScale t r s
  | .fxqQ t r => Sys2Proof.Machine.execFxqQ t r s
  | .ld sz t r => Sys2Proof.Machine.execLd sz t r s
  | .ldS sz t r => Sys2Proof.Machine.execLdS sz t r s
  | .st sz r => Sys2Proof.Machine.execSt sz r s
  | .aadd t r => Sys2Proof.Machine.execAadd t r s
  | .amin t r => Sys2Proof.Machine.execAmin t r s
  | .amax t r => Sys2Proof.Machine.execAmax t r s
  | .aand t r => Sys2Proof.Machine.execAand t r s
  | .aor t r => Sys2Proof.Machine.execAor t r s
  | .axor t r => Sys2Proof.Machine.execAxor t r s
  | .aswap t r => Sys2Proof.Machine.execAswap t r s
  | .amaxU64 r => Sys2Proof.Machine.execAmaxU64 r s
  | .axaddF32 r => Sys2Proof.Machine.execAxaddF32 r s
  | .acas r => Sys2Proof.Machine.execAcas r s
  | .xrd r => Sys2Proof.Machine.execXrd r s
  | .xrdClr r => Sys2Proof.Machine.execXrdClr r s
  | .waita eq r => Sys2Proof.Machine.execWaita eq r s
  | .fence r => Sys2Proof.Machine.execFence r s
  | .lds sz t r => Sys2Proof.Machine.execLds sz t r s
  | .sts sz r => Sys2Proof.Machine.execSts sz r s
  | .rpush r => Sys2Proof.Machine.execRpush r s
  | .rpushTry r => Sys2Proof.Machine.execRpushTry r s
  | .rpop r => Sys2Proof.Machine.execRpop r s
  | .rpopTry r => Sys2Proof.Machine.execRpopTry r s
  | .agset n r => Sys2Proof.Machine.execAgset n r s
  | .agctlStart r => Sys2Proof.Machine.execAgctlStart r s
  | .agctlStop r => Sys2Proof.Machine.execAgctlStop r s
  | .agctlRew r => Sys2Proof.Machine.execAgctlRew r s
  | .agctlStat r => Sys2Proof.Machine.execAgctlStat r s
  | .trd r => Sys2Proof.Machine.execTrd r s
  | .twr r => Sys2Proof.Machine.execTwr r s
  | .tex f r => Sys2Proof.Machine.execTex f r s
  | .wld r => Sys2Proof.Machine.execWld r s
  | .sweep r => Sys2Proof.Machine.execSweep r s
  | .sweepSwap r => Sys2Proof.Machine.execSweepSwap r s
  | .cturn r => Sys2Proof.Machine.execCturn r s
  | .copy r => Sys2Proof.Machine.execCopy r s
  | .semSig r => Sys2Proof.Machine.execSemSig r s
  | .semRd r => Sys2Proof.Machine.execSemRd r s
  | .barx r => Sys2Proof.Machine.execBarx r s
  | .bara r => Sys2Proof.Machine.execBara r s
  | .barw r => Sys2Proof.Machine.execBarw r s
  | .qrsv r => Sys2Proof.Machine.execQrsv r s
  | .qput r => Sys2Proof.Machine.execQput r s
  | .qcan r => Sys2Proof.Machine.execQcan r s
  | .qpop r => Sys2Proof.Machine.execQpop r s
  | .launch r => Sys2Proof.Machine.execLaunch r s
  | .pdone r => Sys2Proof.Machine.execPdone r s
  | .pfail r => Sys2Proof.Machine.execPfail r s
  | .pstat r => Sys2Proof.Machine.execPstat r s
  | .isectBox4 r => Sys2Proof.Machine.execIsectBox4 r s
  | .isectTri r => Sys2Proof.Machine.execIsectTri r s
  | .isectRib r => Sys2Proof.Machine.execIsectRib r s
  | .isectTube r => Sys2Proof.Machine.execIsectTube r s
  | .isectBlp r => Sys2Proof.Machine.execIsectBlp r s
  | .cover r => Sys2Proof.Machine.execCover r s
  | .cllct f r => Sys2Proof.Machine.execCllct f r s
  | .tcpy r => Sys2Proof.Machine.execTcpy r s
  | .dbgMark r => Sys2Proof.Machine.execDbgMark r s
  | .dbgDump r => Sys2Proof.Machine.execDbgDump r s
  | .maskedFiring cx slot => Sys2Proof.Machine.execMaskedFiring cx slot s
  | .writeBack id => Sys2Proof.Machine.execWriteBack id s
  | .requestReply id => Sys2Proof.Machine.execRequestReply id s
  | .tokenArrive id => Sys2Proof.Machine.execTokenArrive id s
  | .creditReturn id => Sys2Proof.Machine.execCreditReturn id s
  | .faultRecordPost id => Sys2Proof.Machine.execFaultRecordPost id s
  | .faultRecordForward id => Sys2Proof.Machine.execFaultRecordForward id s
  | .faultRingRetest id => Sys2Proof.Machine.execFaultRingRetest id s
  | .launchPacketAccept die => Sys2Proof.Machine.execLaunchPacketAccept die s
  | .launchWaitMet die id => Sys2Proof.Machine.execLaunchWaitMet die id s
  | .gangReady gang => Sys2Proof.Machine.execGangReady gang s
  | .dispatcherTry die => Sys2Proof.Machine.execDispatcherTry die s
  | .frameLoad gang inst => Sys2Proof.Machine.execFrameLoad gang inst s
  | .gangEnable gang => Sys2Proof.Machine.execGangEnable gang s
  | .regionComplete region => Sys2Proof.Machine.execRegionComplete region s
  | .gangComplete gang => Sys2Proof.Machine.execGangComplete gang s
  | .resume region => Sys2Proof.Machine.execResume region s
  | .kill region => Sys2Proof.Machine.execKill region s
  | .killRelease region => Sys2Proof.Machine.execKillRelease region s
  | .roundOpen region => Sys2Proof.Machine.execRoundOpen region s
  | .roundCommit region => Sys2Proof.Machine.execRoundCommit region s
  | .drainEntry region => Sys2Proof.Machine.execDrainEntry region s
  | .regionStalled region => Sys2Proof.Machine.execRegionStalled region s
  | .starvation cx slot => Sys2Proof.Machine.execStarvation cx slot s
  | .genTokenDeliver region gen => Sys2Proof.Machine.execGenTokenDeliver region gen s
  | .genDemandReadComplete region gen => Sys2Proof.Machine.execGenDemandReadComplete region gen s
  | .ringParkedServe region ring => Sys2Proof.Machine.execRingParkedServe region ring s
  | .lineWriteback cluster line => Sys2Proof.Machine.execLineWriteback cluster line s
  | .wideReleaseDone id => Sys2Proof.Machine.execWideReleaseDone id s
  | .ccctlWb cluster => Sys2Proof.Machine.execCcctlWb cluster s
  | .waitaWake id => Sys2Proof.Machine.execWaitaWake id s
  | .waitaTimeout id => Sys2Proof.Machine.execWaitaTimeout id s
  | .copyPacketAccept core => Sys2Proof.Machine.execCopyPacketAccept core s
  | .copyJobStart core slot => Sys2Proof.Machine.execCopyJobStart core slot s
  | .chunkComplete core slot => Sys2Proof.Machine.execChunkComplete core slot s
  | .copyJobPause core slot => Sys2Proof.Machine.execCopyJobPause core slot s
  | .copyAbortFree core slot => Sys2Proof.Machine.execCopyAbortFree core slot s
  | .cjctlAbort core slot => Sys2Proof.Machine.execCjctlAbort core slot s
  | .syncUnitPerform id => Sys2Proof.Machine.execSyncUnitPerform id s
  | .barwReturn id => Sys2Proof.Machine.execBarwReturn id s
  | .sbcfgWrite core bar v => Sys2Proof.Machine.execSbcfgWrite core bar v s
  | .systolicCommandArrival id => Sys2Proof.Machine.execSystolicCommandArrival id s
  | .queueSend region tile => Sys2Proof.Machine.execQueueSend region tile s
  | .rowBusBeat id => Sys2Proof.Machine.execRowBusBeat id s
  | .wldTileLoaded id => Sys2Proof.Machine.execWldTileLoaded id s
  | .sweepTokenTake id tile => Sys2Proof.Machine.execSweepTokenTake id tile s
  | .sweepBeat id tile => Sys2Proof.Machine.execSweepBeat id tile s
  | .sweepRowWrite id tile => Sys2Proof.Machine.execSweepRowWrite id tile s
  | .ctNodeAccept region tile => Sys2Proof.Machine.execCtNodeAccept region tile s
  | .ctNodeEmit region tile => Sys2Proof.Machine.execCtNodeEmit region tile s
  | .queueParkedServe die q => Sys2Proof.Machine.execQueueParkedServe die q s
  | .qcfgEnable die q v => Sys2Proof.Machine.execQcfgEnable die q v s
  | .queueClearDone die q => Sys2Proof.Machine.execQueueClearDone die q s
  | .qcfgClose die q v => Sys2Proof.Machine.execQcfgClose die q v s
  | .apertureWrite off bytes => Sys2Proof.Machine.execApertureWrite off bytes s
  | .apertureRead off => Sys2Proof.Machine.execApertureRead off s
  | .pageWalkEnd core as va => Sys2Proof.Machine.execPageWalkEnd core as va s
  | .tigo die v => Sys2Proof.Machine.execTigo die v s
  | .invalidationDone die => Sys2Proof.Machine.execInvalidationDone die s
  | .fillSlotGrant die => Sys2Proof.Machine.execFillSlotGrant die s
  | .fillTimeout die slot => Sys2Proof.Machine.execFillTimeout die slot s
  | .evictionEnd id => Sys2Proof.Machine.execEvictionEnd id s
  | .derailleurSample die => Sys2Proof.Machine.execDerailleurSample die s
  | .brakeApply region agent => Sys2Proof.Machine.execBrakeApply region agent s
  | .regionSettle region => Sys2Proof.Machine.execRegionSettle region s
  | .brakeFail region => Sys2Proof.Machine.execBrakeFail region s
  | .restore gang inst => Sys2Proof.Machine.execRestore gang inst s
  | .checkpointTokenPlace region => Sys2Proof.Machine.execCheckpointTokenPlace region s
  | .stepEnd region => Sys2Proof.Machine.execStepEnd region s
  | .traceConfigWrite off v => Sys2Proof.Machine.execTraceConfigWrite off v s
  | .collectiveComplete die slot => Sys2Proof.Machine.execCollectiveComplete die slot s
  | .cscfgEnable die slot v => Sys2Proof.Machine.execCscfgEnable die slot v s
  | .linkFlitReceive link good => Sys2Proof.Machine.execLinkFlitReceive link good s
  | .linkRetrainEnd link ok => Sys2Proof.Machine.execLinkRetrainEnd link ok s
  | .portFlitReceive port good msg => Sys2Proof.Machine.execPortFlitReceive port good msg s
  | .pkgrst v => Sys2Proof.Machine.execPkgrst v s
  | .submit die v => Sys2Proof.Machine.execSubmit die v s
  | .submitDone die => Sys2Proof.Machine.execSubmitDone die s
  | .gkill v => Sys2Proof.Machine.execGkill v s
  | .hostBar4Access write off len bytes => Sys2Proof.Machine.execHostBar4Access write off len bytes s
  | .configRequest write reg v => Sys2Proof.Machine.execConfigRequest write reg v s
  | .atsInvalidation addr => Sys2Proof.Machine.execAtsInvalidation addr s
  | .endpointTimeout id => Sys2Proof.Machine.execEndpointTimeout id s
  | .currentSample die milliamps millivolts => Sys2Proof.Machine.execCurrentSample die milliamps millivolts s
  | .throttleRecover die => Sys2Proof.Machine.execThrottleRecover die s
  | .thermalThrottle die reading => Sys2Proof.Machine.execThermalThrottle die reading s
  | .packageTrip => Sys2Proof.Machine.execPackageTrip s
  | .patrolScrub x uncorrectable => Sys2Proof.Machine.execPatrolScrub x uncorrectable s
  | .lifetimeStoreWrite => Sys2Proof.Machine.execLifetimeStoreWrite s
  | .mctpMessage kind bytes => Sys2Proof.Machine.execMctpMessage kind bytes s
  | .spdmRequest code bytes => Sys2Proof.Machine.execSpdmRequest code bytes s
  | .powerOnBringUp => Sys2Proof.Machine.execPowerOnBringUp s
  | .registerWrite off v => Sys2Proof.Machine.execRegisterWrite off v s
  | .spuriousWake id => Sys2Proof.Machine.execSpuriousWake id s
  | .preemptionWaitExpiry gang => Sys2Proof.Machine.execPreemptionWaitExpiry gang s
  | .brakeRechoose region => Sys2Proof.Machine.execBrakeRechoose region s
  | .msixCoalesceDeadline ring => Sys2Proof.Machine.execMsixCoalesceDeadline ring s
  | .remoteEndpointTimeout id => Sys2Proof.Machine.execRemoteEndpointTimeout id s
  | .portRetrainEnd port ok => Sys2Proof.Machine.execPortRetrainEnd port ok s
  | .collectiveAccept die => Sys2Proof.Machine.execCollectiveAccept die s
  | .collectiveBegin die slot => Sys2Proof.Machine.execCollectiveBegin die slot s
  | .orderlyShutdown => Sys2Proof.Machine.execOrderlyShutdown s

end Sys2Proof.Machine
end

