-- ==== Sys2Proof/Machine/Schedule.lean ====
section
/-!
DEFINITION. What happens in a cycle, and in what order (log 2, log 3): arrivals, engines and the outside world; the choice of firings (R29,
R30, R33, R40, R41, R393); write-backs; and the clocks, with the counts that follow them (R191, R192, R438).
-/

namespace Sys2Proof.Machine

/-- Whether a die's element clock runs in the present cycle (R439). -/
def State.awake (s : State) (die : Nat) : Bool := !s.pkg.skipped.getD die false

/-- A list in an order that is left open. -/
def shuffled {α : Type} (n : Nat) (l : List α) : List α :=
  ((l.mapIdx fun i x => (Config.order (n + i), x)).mergeSort fun a b => decide (a.1 ≤ b.1)).map fun e => e.2

/-- The elements of a list whose time has come, where that is left open. -/
def timely {α : Type} (n : Nat) (l : List α) : List α :=
  (l.mapIdx fun i x => (Config.happens (n + i), x)).filterMap fun e => if e.1 then some e.2 else none

-- Chains (R39 to R41).

/-- A member's due firing can be made, masked or not. Of a follower that has retired, where its own slot held RET and its leader's did not,
the manual does not say what a further due firing does: the model lets its chain stall (log 72). -/
def State.dueOk (s : State) (f : Firing) : Bool := s.fireable f || s.maskedAt f

/-- A chain in a cycle: its leader, its members' firings, and whether the leader may not fire. -/
structure Chain where
  lead : CtxId
  dues : List Firing
  stalled : Bool
  deriving DecidableEq, Repr, Inhabited

/-- The members that make their due firings, as far as their own state tells; none where the chain stalls. A member that still owes a
firing of a step comes alone. -/
def State.dueNow (s : State) (r : Nat) (g : Region) (x : Ctx) : Option (List Firing) :=
  let ds := (g.dues r x).map fun d => d.2
  if x.owed.isEmpty then (if ds.all s.dueOk then some ds else none) else some (ds.filter s.dueOk)

/-- In step mode, the first element of a region that has a firing to make (R393). -/
def State.stepEl (s : State) (r : Nat) (g : Region) : Option Nat :=
  let dues := g.leaders.flatMap fun x => (((s.dueNow r g x).getD []).map fun f => f.ctx.el)
  let lone (x : Ctx) : Bool := !g.leaders.contains x || (x.owed.isEmpty && (s.dueNow r g x).isSome)
  let els := (g.ctxs.filter fun x => lone x && !(s.eligible (x.id r)).isEmpty).map fun x => x.el
  (dues ++ els).min?

/-- The chains of the regions given, those of lower contexts first: a due follower takes its element's cycle, and a chain whose due member
finds it taken stalls (R29, R41). `taken` lists elements taken. -/
def State.chainsGo (s : State) : List (Nat × Region × Ctx) → List Nat → List Chain
  | [], _ => []
  | (r, g, x) :: rest, taken =>
    let step := g.stepGo
    match s.dueNow r g x with
    | none => { lead := x.id r, dues := [], stalled := true } :: s.chainsGo rest taken
    | some ds =>
      let el := if step then s.stepEl r g else none
      let ds := if step then (ds.filter fun f => some f.ctx.el = el).take 1 else ds
      let at_ := ds.map fun f => g.phys f.ctx.el
      if at_.any taken.contains then { lead := x.id r, dues := [], stalled := true } :: s.chainsGo rest taken
      else { lead := x.id r, dues := ds, stalled := !x.owed.isEmpty || (step && !ds.isEmpty) } :: s.chainsGo rest (at_ ++ taken)

def State.chains (s : State) (rs : List (Nat × Region)) : List Chain :=
  let all : List (Nat × Region × Ctx) := rs.flatMap fun e => e.2.leaders.map fun x => (e.1, e.2, x)
  s.chainsGo (all.mergeSort fun a b => decide (a.2.2.k ≤ b.2.2.k)) []

-- The choice of an element (R29, R30, R33).

/-- A slot that may fire on a physical element. -/
structure Cand where
  p : Nat
  ctx : CtxId
  slot : Nat
  idle : Bool
  deriving DecidableEq, Repr, Inhabited

/-- What may fire in a region. -/
def State.candsOf (s : State) (cs : List Chain) (r : Nat) (g : Region) : List Cand :=
  let el := if g.stepGo then s.stepEl r g else none
  let out (x : Ctx) : Bool := cs.any fun c => c.lead = x.id r && c.stalled
  (g.ctxs.filter fun x => !out x && (!g.stepGo || some x.el = el)).flatMap fun x =>
    (s.eligible (x.id r)).map fun e => { p := g.phys x.el, ctx := x.id r, slot := e.1, idle := e.2 }

/-- The slot that a context fires among those eligible, in ascending order (R30). -/
def Ctx.prefer (x : Ctx) (slots : List Nat) : Option Nat :=
  let rot := slots.filter x.rotSet.getLsbD
  let other := (slots.filter fun n => !x.rotSet.getLsbD n).head?
  match rot.head? with
  | none => other
  | some first =>
    let low := ((List.range 16).find? x.rotSet.getLsbD).getD 0
    match other with
    | some n => if n < low then some n else some ((rot.find? fun m => x.rot ≤ m).getD first)
    | none => some ((rot.find? fun m => x.rot ≤ m).getD first)

/-- The class of slots that step 2 of R29 selects; no idle slot where a follower of the element is due, stalled or not (R33). -/
def classOf (due : Bool) (l : List Cand) : List Cand := if due || l.any fun c => !c.idle then l.filter fun c => !c.idle else l

/-- The firing of an element that no follower takes (R29). -/
def State.pick (s : State) (due : List Nat) (l : List Cand) (p : Nat) : Option Cand :=
  let mine := classOf (due.contains p) (l.filter fun c => c.p = p)
  let ptr := (s.elem p).ptr
  ((List.range 8).map fun i => (ptr + i) % 8).findSome? fun k =>
    let cs := mine.filter fun c => c.ctx.k = k
    match cs.head? with
    | none => none
    | some c => ((s.ctx c.ctx).bind fun x => x.prefer (cs.map fun c => c.slot)).bind fun n => cs.find? fun c => c.slot = n

/-- The slots of an element that are passed over for another firing (R192). -/
def passedOver (due : List Nat) (l : List Cand) (p : Nat) (taken : Bool) (chosen : Option Cand) : List Cand :=
  let mine := classOf (due.contains p) (l.filter fun c => c.p = p)
  if taken || chosen.isSome then mine.filter fun c => some c ≠ chosen else []

/-- One more cycle in which a slot was passed over. -/
def State.starve (s : State) (c : Cand) : State :=
  s.updCtx c.ctx fun x => { x with starv := x.starv.set c.slot (min (2 ^ 24 + 1) (x.starv.getD c.slot 0 + 1)) }

/-- A chain cycle passes in which nothing is fired. -/
def Ctx.shift (x : Ctx) : Ctx := { x with hist := (none :: x.hist).take x.hist.length }

/-- The regions whose elements fire in the present cycle. -/
def State.firing (s : State) : List (Nat × Region) := s.regions.filter fun e => s.awake (dieOf e.1) && e.2.on && !e.2.dead

/-- The physical elements that have a follower due (R33). -/
def dueEls (rs : List (Nat × Region)) : List Nat :=
  rs.flatMap fun e => e.2.leaders.flatMap fun x => (e.2.dues e.1 x).map fun d => e.2.phys d.2.ctx.el

/-- The firings of a cycle (R29, R40), and the rounds that are quiescent in it (R186); before them, the reads of the generators' tokens that
come due (R282), the tile stores' ports (R230) and the rows of TCPYs (R232). -/
def State.planFirings (s : State) : State :=
  let s := (s.issueReads s.firing).portsGo.tcpysGo
  let rs := s.firing
  let due := dueEls rs
  let cs := s.chains rs
  let cands := rs.flatMap fun e => s.candsOf cs e.1 e.2
  let taken := cs.flatMap fun c => c.dues.map fun f => s.physOf f.ctx
  let els := (cands.map fun c => c.p).dedup
  let picks := (els.filter fun p => !taken.contains p).filterMap (s.pick due cands)
  let firing (c : Cand) : Firing := { ctx := c.ctx, slot := c.slot }
  let of (c : Chain) : List Firing := (picks.filter fun x => x.ctx = c.lead).map firing ++ c.dues
  let chains := (cs.filter fun c => !(of c).isEmpty).map fun c => Move.chain (of c)
  let lone := (picks.filter fun x => cs.all fun c => c.lead ≠ x.ctx).map fun x => Move.fire (firing x)
  let quiet := (rs.filter fun e => s.quiescent e.1 e.2).map fun e => Move.event (.roundCommit e.1)
  let idle := cs.filter fun c => !c.stalled && (of c).isEmpty
  let over_ := els.flatMap fun p => passedOver due cands p (taken.contains p) (picks.find? fun c => c.p = p)
  let s := idle.foldl (fun s c => s.updCtx c.lead Ctx.shift) (over_.foldl State.starve s)
  let moves := chains ++ lone
  { s with agenda := shuffled s.free moves ++ quiet, free := s.free + moves.length }

-- A chain's cycle (R40, R44).

/-- The state after the firing of a slot, whatever it is. -/
def State.tryFire (s : State) (f : Firing) : State :=
  match (s.ctx f.ctx).bind fun c => c.slots[f.slot]? with
  | none => s
  | some w => match decode w.w0 w.w1 w.w2 with
    | .ok i => match exec i { s with cur := f } with
      | .next t => t
      | _ => s
    | .error _ => s

/-- A firing would be cancelled: it freezes its element. -/
def State.wouldFreeze (s : State) (f : Firing) : Bool :=
  let p := s.physOf f.ctx
  let after := ((s.tryFire f).elem p).freeze
  after.cancels && decide (after ≠ (s.elem p).freeze)
/-- A firing goes on: it is masked, or it happens. -/
def State.goesOn (s : State) (f : Firing) : Bool := (f.follower && s.maskedAt f) || (s.tryFire f).uid != s.uid

/-- The history of a chain, and what its members still owe in step mode, as some members fire. -/
def Ctx.advance (x : Ctx) (dues : List Nat) (fired : List Nat) (step : Bool) : Ctx :=
  let y := if x.owed.isEmpty then x.shift else x
  { y with owed := if step then dues.filter fun m => !fired.contains m else [] }

/-- The firings of one chain in one cycle: where one would be cancelled, all others are (R44), and the chain cycle has not passed; neither
has it where one of them cannot happen (R41). -/
def State.chainMove (s : State) (fs : List Firing) : State :=
  match fs.head? with
  | none => s
  | some f => match s.region f.ctx.region with
    | none => s
    | some g =>
      match fs.find? s.wouldFreeze with
      | some f => { s with agenda := .fire f :: s.agenda }
      | none =>
        if !fs.all s.goesOn then s else
        let lead := g.leaderOf f.ctx.k 16 f.ctx.el
        let move (f : Firing) : Move := if f.follower && s.maskedAt f then .event (.maskedFiring f.ctx f.slot) else .fire f
        match g.ctx lead f.ctx.k with
        | none => s
        | some x =>
          let dues := (g.dues f.ctx.region x).map fun d => d.1
          let fired := fs.map fun f => g.laneOf f.ctx.el f.ctx.k
          let s := s.updCtx (x.id f.ctx.region) fun y => y.advance dues fired g.stepGo
          { s with agenda := fs.map move ++ s.agenda }

-- Replays (R45, R359).

/-- What an element does again that was frozen on a fill: the firing of its slot, in a chain with the due firings of the others. -/
def State.refire (s : State) (c : CtxId) (slot : Nat) : List Move :=
  match s.region c.region, s.ctx c with
  | some g, some x =>
    if (g.chainOf c.el c.k).length ≤ 1 then [.fire { ctx := c, slot }]
    else match g.ctx (g.leaderOf c.k 16 c.el) c.k with
      | none => []
      | some lead =>
        let ds := (g.dues c.region lead).map fun d => d.2
        let fs := if x.fol then ds else { ctx := c, slot } :: ds
        if g.stepGo then [.chain [{ ctx := c, slot, follower := x.fol }]]
        else if ds.all s.dueOk then [.chain fs] else []
  | _, _ => []

/-- A request that waited on a fill is issued again as a fresh access, in its turn (R359), unless it waits again already. -/
def State.replay (s : State) (w : Waiter) : State :=
  if s.waits w then s
  else match w with
    | .elem c slot .. =>
      let s := s.thawFill c
      { s with agenda := s.refire c slot ++ s.agenda }
    | .gen r g .. =>
      let s := s.updGen r g fun x => if x.fetch = .fill then { x with fetch := .reading } else x
      { s with agenda := .event (.genDemandReadComplete r g) :: s.agenda }
    | .job core slot serial _ =>
      if ((s.job core slot).map fun j => j.serial) = some serial then
        let s := s.updJob core slot fun j => { j with fill := false }
        { s with agenda := .event (.chunkComplete core slot) :: s.agenda }
      else s
    | .req id .. =>
      match s.req id with
      | none => s
      | some q => match q.stage with
        | .fill _ => s.redoReq w id
        | .texFill .. => s.redoTex id
        | .isectFill .. => s.redoIsect id
        | _ => s
    | .coll id _ =>
      match s.dies.colls.find? fun c => c.id = id with
      | some c => { s with agenda := .event (if c.begun then .collectiveComplete c.die c.slot else .collectiveBegin c.die c.slot) :: s.agenda }
      | none => s
    | .gang g _ => { s with agenda := .event (.gangComplete g) :: s.agenda }

-- Arrivals, engines and the outside world.

/-- Requests that are parked, by what they wait for. -/
def State.parkedBy {α : Type} (s : State) (f : Req → Park → Option α) : List α :=
  s.fab.reqs.filterMap fun q => match q.stage with
    | .parked p => f q p
    | _ => none

/-- An event that is to happen where a condition holds. -/
def onlyIf (c : Bool) (i : Instr) : List Instr := if c then [i] else []

/-- The operations of the sync unit that are due, of those that its inbox holds (R257); announcements come first (R276). -/
def State.syncEvents (s : State) (announce : Bool) : List Instr :=
  let held (o : SyncOp) : Bool := decide (((s.cores.syncs.takeWhile fun x => x.id != o.id).filter fun x => x.core = o.core).length < 16)
  (s.cores.syncs.filter fun o => held o && decide (o.due ≤ s.clk (dieOfCore o.core)) && (match o.what with
    | .barx .. => true
    | _ => false) == announce).map fun o => .syncUnitPerform o.id

/-- Arrivals in the order given, but for those of one route, which keep the order in which they were sent (R19, R24). -/
def routeOrder : List Flit → List Flit → List Flit
  | [], _ => []
  | f :: l, sent =>
    let g := (sent.find? fun x => x.ctx = f.ctx && x.o = f.o && x.toNode = f.toNode).getD f
    g :: routeOrder l (sent.filter fun x => x.id ≠ g.id)

/-- What the fabric does: steps that are over end, and settled regions settle, so that no round opens over them (R383, R393); then rounds, tokens and credits. -/
def State.fabricEvents (s : State) (rs : List (Nat × Region)) : List Instr :=
  List.flatten [
    (rs.filter fun e => e.2.stepping).map fun e => .stepEnd e.1,
    (rs.filter fun e => s.settled e.1 e.2).map fun e => .regionSettle e.1,
    (rs.filter fun e => e.2.mayOpen).map fun e => .roundOpen e.1,
    let come := s.fab.flits.filter fun f => f.filled && decide (f.arrive ≤ s.regionClk f.ctx.region)
    (routeOrder (shuffled s.free come) come).map fun f => .tokenArrive f.id,
    (s.fab.credRets.filter fun c => decide (c.at_ ≤ s.regionClk c.dest.region)).map fun c => .creditReturn c.id]

/-- A generator has the word of its token. -/
def Fetch.isReady : Fetch → Bool
  | .ready _ => true
  | _ => false

/-- What the memory tiles and systolic tiles do in a cycle; a generator delivers the token that is due in the cycle after its word has come. -/
def State.tileEvents (s : State) (rs : List (Nat × Region)) : List Instr :=
  List.flatten [
    s.cores.loads.map fun l => .wldTileLoaded l.id,
    s.cores.sweeps.flatMap fun w => .rowBusBeat w.id :: w.tiles.flatMap fun t =>
      onlyIf (t.took.isNone && t.offered.isSome) (.sweepTokenTake w.id t.tile) ++ [.sweepBeat w.id t.tile],
    rs.flatMap fun e => List.flatten [
      e.2.nodes.flatMap fun n => [.ctNodeAccept e.1 n.1, .ctNodeEmit e.1 n.1],
      (e.2.queues.filter fun q => !q.2.isEmpty).map fun q => .queueSend e.1 q.1,
      (e.2.gens.filter fun x => e.2.genDue e.1 x.1 x.2 && !e.2.stepGo && x.2.fetch.isReady).map fun x => .genTokenDeliver e.1 x.1]]

/-- The parked BARWs are tested again at the start of a cycle, before the arrivals of that cycle (R276). -/
def State.barrierEvents (s : State) : List Instr :=
  s.parkedBy fun q p => match p with
    | .barw .. => some (.barwReturn q.id)
    | _ => none

/-- What waits for something that has come: waits of commands, rings and queues (R258, R222, R305), and timeouts (R292). -/
def State.waitEvents (s : State) : List Instr :=
  List.flatten [
    (s.cores.jobs.filter fun j => j.st = .waiting).map fun j => .copyJobStart j.core j.slot,
    s.dies.dispWait.flatMap fun e => ((e.2.filter fun p => s.waitOf p ≠ .unmet).take 1).map fun p => .launchWaitMet e.1 p.id,
    s.parkedBy fun q p => match p with
      | .barw .. => none
      | .push r n _ | .pop r n => some (.ringParkedServe r n)
      | .waita _ t _ => if t ≤ s.regionClk q.org.ctx.region then some (.waitaTimeout q.id) else none
      | p => p.queue.map fun e => .queueParkedServe e.1 e.2,
    s.fab.reqs.filterMap (fun q => match q.stage with
      | .queueClear p => p.queue.map fun e => .queueParkedServe e.1 e.2
      | _ => none),
    (s.dies.queues.filter fun e => !e.2.drains.isEmpty || !e.2.posted.isEmpty).map fun e => .queueParkedServe (e.1 / 4096) (e.1 % 4096)]

/-- What the dispatchers, the derailleurs and Izine do (R176, R194, R298 to R300, R371 to R384). -/
def State.gangEvents (s : State) (rs : List (Nat × Region)) : List Instr :=
  let ripe (g : Gang) (t : Nat) : Bool := decide (t + 2 ^ s.pwx g.die ≤ s.clk g.die) && g.want.isEmpty
  List.flatten [
    s.dies.gangs.flatMap fun e => List.flatten [
      onlyIf (decide (e.2.st = .pending) && e.2.predZero) (.gangReady e.1),
      onlyIf (e.2.insts.any fun i => i.st = .loaded) (.gangEnable e.1),
      onlyIf (decide (e.2.st = .completing) || (decide (e.2.st = .running) && e.2.insts.all fun i => i.st = .completed)) (.gangComplete e.1),
      onlyIf (e.2.stuck.any (ripe e.2)) (.preemptionWaitExpiry e.1)],
    rs.flatMap fun e => List.flatten [
      onlyIf (s.isComplete e.1 e.2) (.regionComplete e.1),
      onlyIf e.2.dead (.killRelease e.1),
      onlyIf (e.2.brake.any fun b => decide (b.since + 2 ^ s.btx (dieOf e.1) ≤ s.regionClk e.1)) (.brakeFail e.1),
      onlyIf (e.2.rechoose.any fun x => decide (x.1 ≤ s.regionClk e.1)) (.brakeRechoose e.1)],
    (s.dies.due.filter s.netCycle).map fun d => .dispatcherTry d,
    ((List.range 4).filter fun d => s.awake d && s.clk d % 2 ^ 14 = 0).map fun d => .derailleurSample d]

/-- What comes due by a count of its own: fills (R362), messages and waiting records (R428), throttles (R438), retrainings
that have lasted their time (R423), the lifetime store (R443). -/
def State.timedEvents (s : State) : List Instr :=
  List.flatten [
    (s.dies.fills.filter fun f => !f.cancelled && decide (f.since + 2 ^ f.timeout ≤ s.clk f.die)).map fun f => .fillTimeout f.die f.slot,
    (s.pkg.msix.filter fun m => decide (m.since + 256 ≤ s.netClk m.die)).map fun m => .msixCoalesceDeadline m.ring,
    if s.pkg.now % 4096 = 0 then s.fab.fq.map fun q => .faultRingRetest q.id else [],
    if s.pkg.now % 40000 = 0 then ((List.range 4).filter fun d => s.pkg.throttle.getD d 0 ≠ 0).map fun d => .throttleRecover d else [],
    onlyIf (decide (s.pkg.now % (600 * second) = 0) && decide (s.pkg.now ≠ 0)) .lifetimeStoreWrite,
    (s.cores.jobs.filter fun j => j.fault.isSome && j.st = .running).map fun j => .copyJobPause j.core j.slot,
    (s.store.wides.filter fun w => w.lines.isEmpty).map fun w => .wideReleaseDone w.id,
    ((List.range 4).filter fun l => (s.link l).outlasted s.pkg.now).map fun l => .linkRetrainEnd l (Config.happens (s.free + 10000 + l)),
    ((List.range 8).filter fun p => (s.port p).outlasted s.pkg.now).map fun p => .portRetrainEnd p (Config.happens (s.free + 20000 + p))]

/-- Chunks of copy jobs; when one has been performed is left open (R268). -/
def State.chunkEvents (s : State) : List Instr :=
  (s.cores.jobs.filter fun j => j.st = .running && j.fault.isNone && !j.fill && !j.acks).map fun j => .chunkComplete j.core j.slot

/-- The first record of each core's queues that has not been forwarded. -/
def State.firstRecords (s : State) : List Nat :=
  (s.fab.fq.filter fun q => ((s.fab.fq.find? fun x => x.core = q.core).map fun x => x.id) = some q.id).map fun q => q.id

/-- What a region does at a time that is left open: drains, and what its generators read. -/
def regionOpen (e : Nat × Region) : List Instr :=
  List.flatten [
    onlyIf (!e.2.round.drain.isEmpty) (.drainEntry e.1),
    onlyIf (!e.2.ckpt.isEmpty) (.checkpointTokenPlace e.1),
    e.2.gens.flatMap fun x => match x.2.fetch with
      | .reading => [.genDemandReadComplete e.1 x.1]
      | _ => []]

/-- What the dies do by themselves at a time that is left open. -/
def State.dieOpen (s : State) : List Instr :=
  List.flatten [
    (s.dies.dispIn.filter fun e => !e.2.isEmpty).map fun e => .launchPacketAccept e.1,
    (s.dies.collIn.filter fun e => !e.2.isEmpty).map fun e => .collectiveAccept e.1,
    s.dies.colls.map fun c => if c.begun then .collectiveComplete c.die c.slot else .collectiveBegin c.die c.slot,
    s.dies.gangs.flatMap fun e => (e.2.insts.filter fun i => i.st = .loading).map fun i =>
      if e.2.saved.any fun v => v.inst = i.inst then .restore e.1 i.inst else .frameLoad e.1 i.inst,
    s.pkg.subs.map fun x => .submitDone x.die,
    s.dies.inval.map fun e => .invalidationDone e.1,
    (s.dies.queues.filter fun e => e.2.clearing).map fun e => .queueClearDone (e.1 / 4096) (e.1 % 4096),
    (s.dies.slotQ.map fun q => q.die).dedup.map fun d => .fillSlotGrant d,
    s.dies.evicts.map fun e => .evictionEnd e.id,
    ((List.range 4).filter fun l => (s.link l).retraining && !(s.link l).outlasted s.pkg.now).map fun l => .linkRetrainEnd l (Config.happens (s.free + 10000 + l)),
    ((List.range 8).filter fun p => (s.port p).retraining && !(s.port p).outlasted s.pkg.now).map fun p => .portRetrainEnd p (Config.happens (s.free + 20000 + p))]

/-- What happens at a time that is left open (R7, R38, R338): replies, write-backs of lines, drains, reads of generators, arrivals at
engines, loads, and the ends of what the dies do by themselves. -/
def State.openEvents (s : State) (rs : List (Nat × Region)) : List Instr :=
  List.flatten [
    (s.fab.reqs.filter fun q => s.awake (dieOf q.org.ctx.region)).filterMap fun q => match q.stage with
      | .parked (.waita _ _ (some _)) => some (.waitaWake q.id)
      | .parked (.waita _ _ none) => some (.spuriousWake q.id)
      | .parked _ => none
      | _ => some (.requestReply q.id),
    (s.store.dirty.map fun e => e.1 / 128 * 128).dedup.map fun k => .lineWriteback (k / 2 ^ 40) (k % 2 ^ 40),
    s.fab.recs.map fun p => .faultRecordPost p.id,
    s.firstRecords.map fun id => .faultRecordForward id,
    rs.flatMap regionOpen,
    (s.cores.jobs.filter fun j => j.st = .aborting).map fun j => .copyAbortFree j.core j.slot,
    (s.cores.copyIn.filter fun e => !e.2.isEmpty).map fun e => .copyPacketAccept e.1,
    s.cores.going.map fun p => .systolicCommandArrival p.id,
    s.dieOpen]

/-- TEX and ISECT firings that have waited for a link that retrains, and do not wait on a fill, try again (R423). -/
def State.retries (s : State) : List Move :=
  s.fab.reqs.filterMap fun q => match q.stage with
    | .texFill .. | .isectFill .. =>
      let w : Waiter := .req q.id 0 0 0 0 0
      if s.waits w then none else some (.replay w)
    | _ => none

/-- What the package takes from outside in its present state: the sideband works from the auxiliary rail alone (R436); power comes on;
before READY, BAR0 and configuration alone are open (R425, R445), and what Izine measures, trips and a shutdown are heard wherever power is
on (R438, R440, R443). -/
def State.hears (s : State) : Instr → Bool
  | .powerOnBringUp | .mctpMessage .. => true
  | .configRequest .. | .spdmRequest .. | .registerWrite .. | .pkgrst _ => !s.pkg.tripped
  | .packageTrip | .currentSample .. | .thermalThrottle .. | .orderlyShutdown => s.pkg.powered || decide (5 ≤ s.pkg.boot)
  | _ => decide (5 ≤ s.pkg.boot)

/-- A posted write or a submission of the host that comes behind a write which a queue's clear still holds (R312, R330, R430). -/
def State.behindPosted (s : State) (i : Instr) : Bool :=
  let holds (k : Nat) : Bool := s.dies.queues.any fun e => e.1 ≠ k && !e.2.posted.isEmpty
  match i with
  | .apertureWrite off _ => holds (queueKey (off / 0x40000) (off % 0x40000 / 64))
  | .submit .. => holds (queueKey 4 0)
  | .registerWrite off _ => ((List.range 4).any fun d => off = sublo d + 4) && holds (queueKey 4 0)
  | _ => false

/-- The next thing that the outside world does. -/
def State.takeInput (s : State) : State :=
  match s.inputs with
  | [] => s
  | i :: rest =>
    if s.behindPosted i then s else
    let s := { s with inputs := rest }
    if s.hears i then { s with agenda := s.agenda ++ [.event i] } else s

/-- Residue mismatches of the next results of the units named (R442, log 27). -/
def State.strike (s : State) (units : List Nat) : State :=
  let hit (i p : Nat) : Option (Nat × Nat) :=
    let n := Config.strikes (s.free + i) % 3
    if n = 0 then none else some (p, n)
  { s with fab := { s.fab with glitch := ((units.mapIdx hit).filterMap id).foldl (fun (t : Tab Nat) e => t.put e.1 e.2) s.fab.glitch },
           free := s.free + units.length }

/-- The MAC planes and the collective engines that work in this cycle. -/
def State.working (s : State) : List Nat :=
  (s.cores.sweeps.flatMap fun w => (w.tiles.filter fun x => x.took.isSome || x.offered.isSome).map fun x =>
    macKey (((s.region w.region).map fun g => g.tmap.lookD x.tile 0).getD 0)) ++
    (s.dies.colls.filter fun c => c.begun).map fun c => collKey c.die c.slot

/-- The first part of a cycle. -/
def State.planArrivals (s : State) : State :=
  let s := s.strike s.working
  let rs := s.regions.filter fun e => s.awake (dieOf e.1)
  let first : List Instr := s.barrierEvents ++ s.fabricEvents (rs.filter fun e => e.2.on) ++ s.syncEvents true
  let chunks := timely s.free s.chunkEvents
  let rest := s.syncEvents false ++ s.tileEvents rs ++ s.waitEvents ++ s.gangEvents rs ++ s.timedEvents
  let openly := timely (s.free + s.cores.jobs.length + 1) (s.openEvents rs)
  let n := s.free + s.cores.jobs.length + 1 + (s.openEvents rs).length + s.fab.flits.length
  let again := timely (n + 1) s.retries
  let s := { s with free := n + 1 + s.retries.length }
  let s := if Config.happens n then s.takeInput else s
  { s with agenda := s.agenda ++ (first ++ chunks).map .event ++ .testBars :: (rest ++ openly).map .event ++ again }

-- The end of a cycle.

/-- The results that are due at the end of a cycle (R35, R241). -/
def State.planWrites (s : State) : State :=
  let due := s.fab.wbs.filter fun w => decide (w.due ≤ s.regionClk w.ctx.region) && s.awake (dieOf w.ctx.region)
  let s := s.strike ((due.filter fun w => w.redo.isNone && w.port.isNone).map fun w => s.physOf w.ctx)
  let wbs := due.map fun w => Instr.writeBack w.id
  let rows := s.cores.sweeps.flatMap fun w => (w.tiles.filter fun t => match t.rows with
    | (_, due, _) :: _ => decide (due ≤ s.regionClk w.region)
    | [] => false).map fun t => Instr.sweepRowWrite w.id t.tile
  { s with agenda := (wbs ++ rows).map .event }

/-- The deadlock detector of a region (R191). -/
def State.detect (s : State) (e : Nat × Region) : Nat × Region :=
  let g := e.2
  if !s.awake (dieOf e.1) then e
  else (e.1, { g with stall := if s.stallCounts e.1 g then g.stall + 1 else 0, stalled := g.stalled && !g.fired, fired := false })

/-- A gang that launch-hold keeps, saved or not yet placed, does not age (R394); `more` says by how many cycles each die's clock goes on. -/
def State.ageless (s : State) (more : Nat → Nat) (e : Nat × Gang) : Nat × Gang :=
  if !(s.unplaced e.2).isEmpty && s.launchHeld e.2 then (e.1, { e.2 with since := e.2.since + more e.2.die }) else e

/-- Waits that are met in this cycle stay so (R258). -/
def State.noteWaits (s : State) : State :=
  let queue (q : Nat × List Packet) : Nat × List Packet := (q.1, match q.2 with
    | [] => []
    | p :: r => s.testWait p :: r)
  { s with
    regions := s.regions.map fun (e : Nat × Region) => (e.1, { e.2 with queues := e.2.queues.map queue }),
    cores := { s.cores with jobs := s.cores.jobs.map fun j => { j with pkt := s.testWait j.pkt } },
    dies := { s.dies with dispWait := s.dies.dispWait.map fun (e : Nat × List Packet) => (e.1, e.2.map s.testWait),
                          colls := s.dies.colls.map fun c => { c with pkt := s.testWait c.pkt } } }

/-- Elements may fire again; traps and faults of this cycle freeze from the next (R44, R45, R136). -/
def Elem.nextCycle (e : Elem) : Elem :=
  ({ e with spent := false } : Elem).mapFreeze fun f => match f with
    | .soon id | .faulted id => .waiting id
    | .missed c n => .fill c n
    | f => f

/-- The cycles that a die has skipped in the run of sixteen that the next period belongs to. -/
def State.skipCount (s : State) (d : Nat) : Nat := if (s.pkg.now + 1) % 16 = 0 then 0 else s.pkg.skips.getD d 0
/-- A die skips the next period: as many of each run of sixteen as its throttle step says, but which of them is left open (R438, log 13). -/
def State.skipsNext (s : State) (d : Nat) : Bool :=
  let n := s.pkg.throttle.getD d 0
  let need := n - s.skipCount d
  decide (need ≠ 0) && (decide (16 ≤ need + (s.pkg.now + 1) % 16) || Config.skips (s.free + d) n)

/-- The time for which the package has power, and for which a clock is reduced, counts (R443). -/
def State.aged (s : State) : Lifetime :=
  let slow := s.pkg.throttle.any (· ≠ 0) || s.pkg.hot.any id
  { s.pkg.life with hours := s.pkg.life.hours + 1, throttled := s.pkg.life.throttled + if slow then 1 else 0 }
/-- Izine writes the lifetime store, every 10 minutes. -/
def State.savesLife (s : State) : Bool := decide (s.pkg.now % (600 * second) = 0) && decide (s.pkg.now ≠ 0)

/-- The clocks go on: a throttled die may skip the next cycle, and the network clock of a hot one has half its cycles (R438, R439). -/
def State.tick (s : State) : State :=
  let s := (s.regions.filter fun e => e.2.brake.isSome).foldl (fun s e => s.brakeHolds e.1) s.noteWaits
  let s := s.sweepClock.columnBeats s.awake
  let skip := (List.range 4).map s.skipsNext
  let skips := (List.range 4).map fun d => s.skipCount d + if skip.getD d false then 1 else 0
  let more (d : Nat) : Nat := if skip.getD d false then 0 else 1
  let cyc := (List.range 4).map fun d => s.clk d + more d
  let next : State := { s with pkg := { s.pkg with now := s.pkg.now + 1 } }
  let net := (List.range 4).map fun d => s.netClk d + if next.netCycle d then 1 else 0
  { s with
    fab := { s.fab with elems := s.fab.elems.map fun (e : Nat × Elem) => (e.1, e.2.nextCycle) },
    regions := s.regions.map s.detect,
    dies := { s.dies with gangs := s.dies.gangs.map (s.ageless more) },
    pkg := { s.pkg with cyc, net, skipped := skip, skips, now := s.pkg.now + 1, life := s.aged },
    free := s.free + 4 }

/-- The reports of counts that have come to their limits (R191, R192). -/
def State.reports (s : State) : List Instr :=
  s.regions.flatMap fun e =>
    onlyIf (decide (2 ^ s.dlx e.1 ≤ e.2.stall) && !e.2.stalled) (.regionStalled e.1) ++
    e.2.ctxs.flatMap fun x => ((List.range x.starv.length).filter fun n => x.starv.getD n 0 = 2 ^ s.svx e.1).map fun n =>
      Instr.starvation (x.id e.1) n

/-- A region that takes a step and has no firing to make delivers the token of its first generator that has one due (R393). -/
def State.stepTokens (s : State) : List Move :=
  (s.regions.filter fun e => e.2.stepGo && s.awake (dieOf e.1) && (s.stepEl e.1 e.2).isNone).filterMap fun e =>
    ((e.2.gens.find? fun x => e.2.genDue e.1 x.1 x.2).bind fun x => match x.2.fetch with
      | .ready _ => some (Move.event (.genTokenDeliver e.1 x.1))
      | _ => none)

/-- Plans the next part of the cycle. Before READY the package does nothing but what it hears; after a package reset it brings itself up
(R448, R458). -/
def State.plan (s : State) : State :=
  if s.pkg.boot < 5 then
    let life := if s.pkg.powered then s.aged else s.pkg.life
    let s := { s with part := 0, pkg := { s.pkg with now := s.pkg.now + 1, life } }.takeInput
    let s := if s.pkg.powered && s.savesLife then { s with agenda := s.agenda ++ [.event .lifetimeStoreWrite] } else s
    if s.pkg.boot = 1 then { s with agenda := s.agenda ++ [.event .powerOnBringUp] } else s
  else match s.part with
    | 0 => { s.planArrivals with part := 1 }
    | 1 =>
      let tokens := s.stepTokens
      let s := s.planFirings
      { s with part := 2, agenda := s.agenda ++ tokens }
    | 2 => { s.planWrites with part := 3 }
    | _ =>
      let s := s.tick
      { s with part := 0, agenda := s.reports.map .event }

end Sys2Proof.Machine
end

