-- ==== Sys2Proof/Machine/Step.lean ====
section
/-!
DEFINITION. One step of the machine (log 2): the next move of the agenda, or, where the agenda is empty, the planning of the
next part of the cycle.
-/

namespace Sys2Proof.Machine

/-- The words of the slot that a firing fires. -/
def State.slotWords (s : State) (f : Firing) : Option Slot := (s.ctx f.ctx).bind fun c => c.slots[f.slot]?

/-- One step: a firing runs the instruction that its slot's words decode to; an event runs as it is. -/
def step (s : State) : Host.Outcome State Fault Refusal :=
  match s.agenda with
  | [] => .next s.plan
  | .fire f :: rest =>
    match s.slotWords f with
    | none => .next { s with agenda := rest }
    | some w => match decode w.w0 w.w1 w.w2 with
      | .ok i => exec i { s with agenda := rest, cur := f }
      | .error _ => .fault (.illegalWord w.w0 w.w1 w.w2)
  | .replay w :: rest => .next (({ s with agenda := rest } : State).replay w)
  | .chain fs :: rest => .next (({ s with agenda := rest } : State).chainMove fs)
  | .event i :: rest => exec i { s with agenda := rest }
  | .signal org cmd tag :: rest => .next (({ s with agenda := rest } : State).signal org cmd tag)
  | .testBars :: rest => .next ({ s with agenda := rest } : State).testBars

/-- Where `withFetchWord` places its instruction: slot s0 of context k0 of element (0, 0) in region slot 0 of core 0. -/
def fetchCtx : CtxId := { region := 0, el := 0, k := 0 }

/-- A one-tile region of core 0 whose one direct context holds the rule words given in slot s0 (log 5). -/
def fetchRegion (w0 w1 w2 : Word) : Region :=
  { gang := 0xFFFFFFFF, inst := 0, lease := 0, wx := 1, wy := 1, tmap := [(0, 0)],
    ctxs := [{ el := 0, k := 0, word := 0x80200000#32, routes := List.replicate 8 0#32,
               slots := [{ w0, w1, w2 }], armed := 1#16, starv := [0] }] }

/-- The state in which the next step fires the instruction whose bits are `w`: it stands for a launch that has placed the
rule (log 5). -/
def State.withFetchWord (s : State) (nbits w : Nat) : State :=
  let ws := tableWords nbits w
  { s with regions := s.regions.put 0 (fetchRegion ws.1 ws.2.1 ws.2.2),
           agenda := [.fire { ctx := fetchCtx, slot := 0 }] }

end Sys2Proof.Machine
end

