-- ==== Sys2Proof/Safety.lean ====
section
/-!
DEFINITION. What a safe run is, and the form that every state of a run keeps.
-/

namespace Sys2Proof

/-- The memories are in their canonical form: what the homes hold (R336), and the scratchpads (R166). -/
def Machine.State.memoryOk (s : Machine.State) : Prop :=
  Machine.Memory.wf s.store.cells = true ∧ Machine.Memory.wf s.store.spad = true

/-- A state from which `n` steps run without a fault and without a refusal. -/
def safeFor (n : Nat) (s : Machine.State) : Prop := ∃ t, core.run n s = .next t

/-- A safe state: no run from it ends in a fault or a refusal. -/
def Safe (s : Machine.State) : Prop := ∀ n, safeFor n s

end Sys2Proof
end

