-- ==== Sys2Proof/Claims.lean ====
section
/-!
DEFINITION. The words that the statements are written in: what a firing does, and the lanes and values of operands.
-/

namespace Sys2Proof.Claims

open Sys2Proof.Machine

-- Firings.

/-- The firing `s.cur` of instruction `i`, whose rule is `r` and whose IMM16 widens as `w` says, may happen in `s`, and `v` is
what it reads (R27, R34). -/
def MayFire (i : Instr) (r : Rule) (w : ImmW) (s : State) (v : View) : Prop :=
  view s r w = some v ∧ v.ready (needFor s v i) s = true

/-- What a firing does at once (R23, R29, R34, R36), and that it does nothing else. -/
structure Commits (s t : State) (v : View) (n : Need) (flight : Bool) : Prop where
  /-- Memory, engines, dies and package stand as before. -/
  rest : t = { s with fab := t.fab, regions := t.regions, rregs := t.rregs, uid := t.uid }
  /-- So do requests, records and what the residue checks will find. -/
  fabric : t.fab = { s.fab with elems := t.fab.elems, wbs := t.fab.wbs, flits := t.fab.flits, credRets := t.fab.credRets,
                                lanes := t.fab.lanes }
  /-- Other elements stand as before. -/
  elements : ∀ p, p ≠ v.p → t.elem p = s.elem p
  /-- The element has fired in this cycle; a leader's or lone element's context pointer moves past the context (R29). -/
  element : (t.elem v.p).spent = true ∧ (t.elem v.p).freeze = (s.elem v.p).freeze ∧ (t.elem v.p).owner = (s.elem v.p).owner ∧
    (t.elem v.p).under = (s.elem v.p).under ∧
    (t.elem v.p).ptr = if v.f.follower then (s.elem v.p).ptr else (v.x.k + 1) % 8
  /-- The heads of the channels it dequeues are popped, and no others, but for tokens whose context discards them (R138). -/
  channels : ∀ c, c < 4 → (∀ k, s.discards v.p k = none) →
    (t.elem v.p).chan c = if n.dq.getLsbD c then ((s.elem v.p).chan c).drop 1 else (s.elem v.p).chan c
  /-- The other regions stand as before. -/
  regions : ∀ r, r ≠ v.r → t.region r = s.region r
  /-- In its region, only its own context changes, with what a step of step mode is (R393). -/
  region : ∃ g, t.region v.r = some g ∧
    g = { v.g with ctxs := g.ctxs, fired := g.fired, stepGo := g.stepGo, stepping := g.stepping, stepFrom := g.stepFrom, gens := g.gens } ∧
    (v.g.stepGo = false → g.gens = v.g.gens ∧ g.stepGo = false ∧ g.stepping = v.g.stepping ∧ g.stepFrom = v.g.stepFrom) ∧
    (∀ el k, (el, k) ≠ (v.x.el, v.x.k) → g.ctx el k = v.g.ctx el k) ∧
    ∃ x, g.ctx v.x.el v.x.k = some x ∧
      x = { v.x with credits := x.credits, rot := x.rot, armed := x.armed, starv := x.starv, hist := x.hist, busy := x.busy,
                     preds := x.preds, cych := x.cych } ∧
      -- One credit of each route of the mask is taken (R23).
      (∀ o, o < 8 → x.credits.getD o 0 = if n.om.getLsbD o then v.x.credits.getD o 0 - 1 else v.x.credits.getD o 0) ∧
      -- An init rule fires once (R31).
      x.armed = (if v.rule.guard.kind = .init then v.x.armed &&& ~~~(1#16 <<< v.f.slot) else v.x.armed) ∧
      -- Where the result comes later, its destinations are in flight (R36).
      (∀ q : BitVec 3, x.pred q = if flight ∧ v.rule.pdst = some q then Pred.pending else v.x.pred q) ∧
      (∀ q : BitVec 3, x.busy.getLsbD q.toNat = (v.x.busy.getLsbD q.toNat || (flight && decide (v.rule.dst = some q)))) ∧
      -- The counter's high half is latched only where CYCL is read (R119).
      (v.rule.imm ≠ 0x20#16 → x.cych = v.x.cych)
  /-- A place is reserved on each route of the mask, behind the tokens already on it (R19, R23). -/
  places : ∃ fs, t.fab.flits = s.fab.flits ++ fs ∧ fs.map (fun f => f.o) = (List.range 8).filter n.om.getLsbD ∧
    ∀ f ∈ fs, f.own = s.uid ∧ f.ctx = v.f.ctx ∧ f.filled = false

/-- What the firing writes at the end of cycle t + L − 1 (R35), in a machine state `t` just after the firing: nothing, where it has no
destination. -/
def Writes (s t : State) (v : View) (lat : Nat) (om : BitVec 8) (d : Done) : Prop :=
  (v.rule.dst = none ∧ v.rule.pdst = none ∧ om = 0#8) ∨
  ∃ b ∈ t.fab.wbs, b.id = s.uid ∧ b.ctx = v.f.ctx ∧ b.slot = v.f.slot ∧ b.due + 1 = s.regionClk v.r + lat ∧
    b.dst = v.rule.dst ∧ b.pdst = v.rule.pdst ∧ b.om = om ∧ b.done = d

/-- The firing completes: it does what every firing does at once, and after `lat` cycles it writes `res` and `pres`, and emits
data tokens with the colour of R37 (R34, R35, R37). -/
def Delivers (i : Instr) (s : State) (v : View) (lat : Nat) (res : Word) (pres : Bool) : Prop :=
  ∃ t, exec i s = .next t ∧ Commits s t v (needFor s v i) (decide (1 < lat)) ∧
    Writes s t v lat v.rule.om { res, pres, om := v.rule.om, colour := v.colour }

/-- The firing completes as `Delivers` says, but what it writes and emits is `d`. -/
def Completes (i : Instr) (s : State) (v : View) (lat : Nat) (d : Done) : Prop :=
  ∃ t, exec i s = .next t ∧ Commits s t v (needFor s v i) (decide (1 < lat)) ∧ Writes s t v lat v.rule.om d

-- Lanes (R3, R57, R90, R91, R117).

/-- The types that R121 calls pint. -/
def pint : List Ty := [.i32, .u32, .i16x2, .u16x2, .i8x4, .u8x4]

/-- w(t) and nl(t) of an integer type. -/
def laneWidth : Ty → Nat
  | .i16x2 | .u16x2 => 16
  | .i8x4 | .u8x4 => 8
  | _ => 32
def laneCount : Ty → Nat
  | .i16x2 | .u16x2 => 2
  | .i8x4 | .u8x4 => 4
  | _ => 1
def laneSigned : Ty → Bool
  | .i32 | .i16x2 | .i8x4 => true
  | _ => false

/-- Lane `i` of a word as a mathematical integer. -/
def laneInt (t : Ty) (x : Word) (i : Nat) : Int :=
  if laneSigned t then (x.extractLsb' (laneWidth t * i) (laneWidth t)).toInt
  else ((x.extractLsb' (laneWidth t * i) (laneWidth t)).toNat : Int)

/-- Each lane of a word holds the low bits of the integer that `f` gives. -/
def LanesAre (t : Ty) (x : Word) (f : Nat → Int) : Prop :=
  ∀ i, i < laneCount t → x.extractLsb' (laneWidth t * i) (laneWidth t) = BitVec.ofInt (laneWidth t) (f i)

/-- `fit`: a .sat form takes the value of the lane's range nearest to `v`. -/
def limited (t : Ty) (sat : Bool) (v : Int) : Int :=
  let lo : Int := if laneSigned t then -(2 ^ (laneWidth t - 1)) else 0
  let hi : Int := if laneSigned t then 2 ^ (laneWidth t - 1) - 1 else 2 ^ laneWidth t - 1
  if sat then max lo (min hi v) else v

/-- A word is true as a predicate result where it is not zero (R37). -/
def isSet (x : Word) : Bool := x != 0#32

/-- A predicate holds. -/
def Holds (v : View) (p : BitVec 3) : Prop := v.x.preds.getD p.toNat .f = .t

-- Traps (R136, R197, R198).

/-- The trap or breakpoint record that a leader's or lone element's firing gives over. -/
def TrapRecord (s : State) (v : View) (cls : Nat) (r : Rec) : Prop :=
  r.cls = cls ∧ r.info = [v.rule.imm.extractLsb' 0 8, v.rule.imm.extractLsb' 8 8] ∧ r.word = v.a ∧ r.va = 0 ∧
  r.tx = v.x.el / 16 % 8 ∧ r.ty = v.x.el / 16 / 8 % 16 ∧ r.exy = v.x.el % 16 ∧ r.ks = v.x.k + 16 * v.f.slot ∧
  r.lease = v.g.lease ∧ r.inst = v.g.inst ∧ r.lrec = s.lrecOf v.g.gang ∧
  (r.flags.testBit 0 = v.x.isRounded) ∧ (r.flags.testBit 2 = decide (1 < (v.g.chainOf v.x.el v.x.k).length))

/-- What a trap of class `cls` does in a context that leads a chain or stands alone, beside its commit. -/
def Traps (s t : State) (v : View) (n : Need) (cls : Nat) : Prop :=
  ∃ u, Commits s u v n false ∧
    (v.x.isRounded = false →
      -- Every element of the chain freezes from the next cycle, until the record is posted.
      ∃ q, t.fab.recs = u.fab.recs ++ [q] ∧ q.ctx = v.f.ctx ∧ TrapRecord s v cls q.rcd ∧
        (∀ el ∈ v.g.chainOf v.x.el v.x.k, (t.elem (v.g.phys el)).freeze = .soon q.id) ∧ t.regions = u.regions) ∧
    (v.x.isRounded = true →
      -- The record waits for the commit of the round.
      ∃ r, TrapRecord s v cls r ∧ t = u.updCtx v.f.ctx fun x => { x with traps := x.traps ++ [r] })

-- Floating point (R92 to R102, R108).

/-- A value as the exact arithmetic sees it: a finite one carries its sign, which a zero has too. -/
inductive Ext where
  | nan
  | inf (neg : Bool)
  | fin (neg : Bool) (x : ℚ)
  deriving DecidableEq

/-- The magnitude of a code (R92). One past the largest finite code, this is M + ulp (R98). -/
def magValue (f : Fmt) (g : Nat) : ℚ :=
  let e : Int := (g / 2 ^ f.m : Nat)
  let fr : ℚ := (g % 2 ^ f.m : Nat)
  if e = 0 then fr / 2 ^ f.m * 2 ^ (1 - (f.bias : Int)) else (1 + fr / 2 ^ f.m) * 2 ^ (e - (f.bias : Int))

/-- The value of a code (R92). -/
def codeExt (f : Fmt) (c : Nat) : Ext :=
  let g := c % 2 ^ (f.bits - 1)
  let neg := decide (c / 2 ^ (f.bits - 1) % 2 = 1)
  let fin := Ext.fin neg (if neg then -magValue f g else magValue f g)
  match f.inf with
  | some i => if g = i then .inf neg else if i < g then .nan else fin
  | none => if f.maxMag < g then .nan else fin

/-- A magnitude code under a sign. -/
def signCode (f : Fmt) (neg : Bool) (g : Nat) : Nat := if neg then 2 ^ (f.bits - 1) + g else g

/-- Whether a magnitude at fraction `frac` of the way from a to b goes to b (R98, R101); a tie goes to the even one, and to b where
`even` is false; `q` is the value of R102. -/
def toUpper (mode : RMode) (neg : Bool) (q : Nat) (even : Bool) (frac : ℚ) : Bool :=
  decide (frac ≠ 0) && match mode with
    | .rn => decide (1 / 2 < frac) || (decide (frac = 1 / 2) && !even)
    | .rz => false
    | .rd => neg
    | .ru => !neg
    | .sr => decide ((q : Int) < ⌊frac * 2 ^ 32⌋)

/-- What an overflowed or infinite result delivers (R99). -/
def overflowCode (f : Fmt) (sat neg : Bool) : Nat :=
  match f.inf with
  | some i => signCode f neg (if sat then f.maxMag else i)
  | none => if f = e2m1 ∨ sat = true then signCode f neg f.maxMag else f.nan

/-- `c` is RoundTo of a finite `x` that is not zero (R97 to R99, R101). -/
def RoundsTo (f : Fmt) (mode : RMode) (sat : Bool) (q : Nat) (x : ℚ) (c : Nat) : Prop :=
  ∃ g, g ≤ f.maxMag ∧ magValue f g ≤ |x| ∧ (|x| < magValue f (g + 1) ∨ g = f.maxMag) ∧
    let neg := decide (x < 0)
    let frac := (|x| - magValue f g) / (magValue f (g + 1) - magValue f g)
    c = if toUpper mode neg q (decide (g % 2 = 0 ∧ g ≠ f.maxMag)) frac then
          (if g = f.maxMag then overflowCode f sat neg else signCode f neg (g + 1))
        else signCode f neg g

/-- `c` is what a format takes for a value (R95, R97 to R101). -/
def Rounded (f : Fmt) (mode : RMode) (sat : Bool) (q : Nat) (v : Ext) (c : Nat) : Prop :=
  match v with
  | .nan => c = f.nan
  | .inf neg => c = overflowCode f sat neg
  | .fin neg x => if x = 0 then c = signCode f neg 0 else RoundsTo f mode sat q x c

def Ext.opp : Ext → Ext
  | .nan => .nan
  | .inf s => .inf !s
  | .fin s x => .fin (!s) (-x)

/-- The exact product (R100, R108). -/
def Ext.prod : Ext → Ext → Ext
  | .fin s x, .fin u y => .fin (s != u) (x * y)
  | .inf s, .inf u => .inf (s != u)
  | .inf s, .fin u y => if y = 0 then .nan else .inf (s != u)
  | .fin s x, .inf u => if x = 0 then .nan else .inf (s != u)
  | _, _ => .nan

/-- The number that a finite value is. -/
def Ext.num : Ext → ℚ
  | .fin _ x => x
  | _ => 0

/-- The exact sum, with the sign of R100 where it is zero; `rd` says that the mode is .rd. -/
def Ext.sum (rd : Bool) (ts : List Ext) : Ext :=
  if .nan ∈ ts ∨ (.inf true ∈ ts ∧ .inf false ∈ ts) then .nan
  else if .inf true ∈ ts then .inf true
  else if .inf false ∈ ts then .inf false
  else
    let x := (ts.map Ext.num).sum
    if x ≠ 0 then .fin (decide (x < 0)) x
    else .fin (if ∀ t ∈ ts, t = .fin true 0 then true else if ∀ t ∈ ts, t = .fin false 0 then false else rd) 0

/-- Whether one value is less than another; a NaN is not. -/
def Ext.less : Ext → Ext → Bool
  | .inf true, .inf false => true
  | .inf true, .fin .. => true
  | .fin .., .inf false => true
  | .fin _ x, .fin _ y => decide (x < y)
  | _, _ => false

/-- One value lies below another; −0 below +0. -/
def Ext.Below (a b : Ext) : Prop := a.less b = true ∨ (a = .fin true 0 ∧ b = .fin false 0)

/-- The code in a lane of a floating-point type, and its value. -/
def fpCode (t : Ty) (x : Word) (i : Nat) : Nat := (x.extractLsb' ((fmtOf t).bits * i) (fmtOf t).bits).toNat
def fpLane (t : Ty) (x : Word) (i : Nat) : Ext := codeExt (fmtOf t) (fpCode t x i)
def fpLanes (t : Ty) : Nat := 32 / (fmtOf t).bits

/-- The 64-bit mixing step of R102. -/
def srMix (seed inst tx ty ex ey k rcnt lane : Nat) : Nat :=
  let v : BitVec 64 := (BitVec.ofNat 64 rcnt <<< 32) ||| (BitVec.ofNat 64 (inst % 2 ^ 15) <<< 17) ||| (BitVec.ofNat 64 (ty % 16) <<< 13) |||
    (BitVec.ofNat 64 (tx % 8) <<< 10) ||| (BitVec.ofNat 64 (ey % 4) <<< 8) ||| (BitVec.ofNat 64 (ex % 4) <<< 6) |||
    (BitVec.ofNat 64 (k % 8) <<< 3) ||| BitVec.ofNat 64 (lane % 8)
  let h := v ^^^ (BitVec.ofNat 64 seed * 0x9E3779B97F4A7C15#64)
  let h := (h ^^^ (h >>> 30)) * 0xBF58476D1CE4E5B9#64
  let h := (h ^^^ (h >>> 27)) * 0x94D049BB133111EB#64
  ((h ^^^ (h >>> 31)) >>> 32).toNat

/-- The value q of a lane of a firing (R102, R103, R143): the seed of the launch record, the instance, the home coordinates of the
context's actor, and the rounding counter advanced by the context's stochastic firings in flight. -/
def srValue (s : State) (v : View) (lane : Nat) : Nat :=
  let seed := (((s.gang v.g.gang).map fun g => g.rcd.getD 4 0#32).getD 0#32).toNat
  let flying := (s.fab.wbs.filter fun w => w.sr && decide (w.ctx = v.f.ctx)).length
  let t := v.x.home / 16
  srMix seed v.g.inst (t % 8) (t / 8 % 16) (v.x.home % 4) (v.x.home % 16 / 4) v.x.homeK (v.x.rcnt + BitVec.ofNat 32 flying).toNat lane

/-- Every lane of a word is what its format takes for the value that `f` gives. -/
def LanesRound (s : State) (v : View) (m : Rnd) (t : Ty) (res : Word) (f : Nat → Ext) : Prop :=
  ∀ i, i < fpLanes t → Rounded (fmtOf t) m.mode m.sat (srValue s v i) (f i) (fpCode t res i)

/-- The integer that a value rounds to (R114, R150). -/
def intRound (mode : RMode) (q : Nat) (x : ℚ) : Int :=
  let a := ⌊|x|⌋
  let k := if toUpper mode (decide (x < 0)) q (decide (a % 2 = 0)) (|x| - a) then a + 1 else a
  if x < 0 then -k else k

/-- The value of a lane of any type (R92, R93). -/
def anyLane (t : Ty) (x : Word) (i : Nat) : Ext :=
  match t with
  | .i32 | .u32 | .i16x2 | .u16x2 | .i8x4 | .u8x4 => .fin (decide (laneInt t x i < 0)) (laneInt t x i)
  | .e8m0x4 =>
    let n := (x.extractLsb' (8 * i) 8).toNat
    if n = 0xFF then .nan else .fin false (2 ^ ((n : Int) - 127))
  | _ => fpLane t x i

/-- The width of a lane of any type, and the number of lanes. -/
def anyWidth : Ty → Nat
  | .i32 | .u32 | .f32 => 32
  | .i16x2 | .u16x2 | .bf16x2 | .f16x2 => 16
  | .e2m1x8 => 4
  | _ => 8
def anyLanes (t : Ty) : Nat := 32 / anyWidth t

/-- `c` is the code that a value converts to (R98, R99, R114, R154). -/
def Converts (t : Ty) (mode : RMode) (sat : Bool) (q : Nat) (v : Ext) (c : Nat) : Prop :=
  match t with
  | .i32 | .u32 | .i16x2 | .u16x2 | .i8x4 | .u8x4 =>
    let lo : Int := if laneSigned t then -(2 ^ (laneWidth t - 1)) else 0
    let hi : Int := if laneSigned t then 2 ^ (laneWidth t - 1) - 1 else 2 ^ laneWidth t - 1
    (c : Int) = (match v with
      | .nan => 0
      | .inf neg => if neg then lo else hi
      | .fin _ x => max lo (min hi (intRound mode q x))) % 2 ^ laneWidth t
  | .e8m0x4 => match v with
    | .nan => c = 0xFF
    | .inf neg => c = if neg = false ∧ sat = true then 0xFE else 0xFF
    | .fin _ x =>
      if x ≤ 0 then c = 0xFF
      else if x < 2 ^ (-127 : Int) then c = 0x00
      else ∃ n, n ≤ 0xFE ∧ (2 : ℚ) ^ ((n : Int) - 127) ≤ x ∧ (x < 2 ^ ((n : Int) - 126) ∨ n = 0xFE) ∧
        c = if toUpper mode false q (decide (n % 2 = 0 ∧ n ≠ 0xFE)) (x / 2 ^ ((n : Int) - 127) - 1) then
            (if n = 0xFE then (if sat then 0xFE else 0xFF) else n + 1) else n
  | _ => Rounded (fmtOf t) mode sat q v c

-- Chains (R134, R135).

/-- The firing of `v` is the last that an exchange of its chain lacks; `prior` are the firings of the members before it. -/
def LastMember (s : State) (v : View) (prior : List LaneIn) : Prop :=
  let m := v.g.laneOf v.x.el v.x.k
  let n := (v.g.chainOf v.x.el v.x.k).length
  n = prior.length + 1 ∧
  ((prior = [] ∧ m = 0 ∧ ∀ y ∈ s.fab.lanes, y.lacks v.lead v.f.slot m = false) ∨
   ∃ pre x post, s.fab.lanes = pre ++ x :: post ∧ x.got = prior ∧ x.n = n ∧ x.lacks v.lead v.f.slot m = true ∧
     ∀ y ∈ pre, y.lacks v.lead v.f.slot m = false)

/-- A contributor's destinations are written at the end of the cycle after this one. -/
def Receives (s t : State) (r : Nat) (id : Nat) (c : CtxId) (dst pdst : Option (BitVec 3)) (res : Word) : Prop :=
  ∃ b ∈ t.fab.wbs, b.id = id ∧ b.ctx = c ∧ b.due = s.regionClk r + 1 ∧ b.dst = dst ∧ b.pdst = pdst ∧ b.done.res = res ∧
    b.done.pres = isSet res

/-- The firing of `v`, which gives `i`, joins an exchange of its chain that still lacks others, or begins one, in which the members before it
take no part: of the exchanges `ls` it makes `ls'`. -/
def JoinsLane (v : View) (i : LaneIn) (ls ls' : List Exch) : Prop :=
  let n := (v.g.chainOf v.x.el v.x.k).length
  (i.member + 1 < n ∧ (∀ y ∈ ls, y.lacks v.lead v.f.slot i.member = false) ∧
    ls' = ls ++ [{ lead := v.lead, slot := v.f.slot, n, got := ((List.range i.member).map fun m => { member := m }) ++ [i] }]) ∨
  ∃ pre x post, ls = pre ++ x :: post ∧ x.got.length + 1 < x.n ∧ x.lacks v.lead v.f.slot i.member = true ∧
    (∀ y ∈ pre, y.lacks v.lead v.f.slot i.member = false) ∧ ls' = pre ++ { x with got := x.got ++ [i] } :: post

/-- The value of a contributor of a SHUF: that of the member it names, where that is one of the contributors `cs`, or else its own. -/
def Shuffled (cs : List (Nat × Word)) (from_ : Option Nat) (own res : Word) : Prop :=
  (∃ j, from_ = some j ∧ (j, res) ∈ cs) ∨ (res = own ∧ ∀ j y, from_ = some j → (j, y) ∉ cs)

/-- The least or greatest of f32 values, that `better` orders; NaN operands are ignored. -/
def PicksF32 (better : Ext → Ext → Prop) (vs : List Word) (res : Word) : Prop :=
  ((∀ x ∈ vs, fpLane .f32 x 0 = .nan) → res = 0x7FC00000#32) ∧
  ((∃ x ∈ vs, fpLane .f32 x 0 ≠ .nan) → res ∈ vs ∧ fpLane .f32 res 0 ≠ .nan ∧
    ∀ x ∈ vs, fpLane .f32 x 0 ≠ .nan → ¬better (fpLane .f32 x 0) (fpLane .f32 res 0))

/-- The reduction of the contributors' values (R134): a sum of f32 values is exact, and rounded once. -/
def Reduces (f : TredFn) (vs : List Word) (res : Word) : Prop :=
  match f with
  | .add .f32 => Rounded fp32 .rn false 0 (Ext.sum false (vs.map fun x => fpLane .f32 x 0)) res.toNat
  | .min .f32 => PicksF32 Ext.Below vs res
  | .max .f32 => PicksF32 (fun a b => b.Below a) vs res
  | .add .i32 | .add .u32 => res = BitVec.ofNat 32 ((vs.map BitVec.toNat).sum)
  | .min .i32 => res ∈ vs ∧ ∀ x ∈ vs, res.toInt ≤ x.toInt
  | .min .u32 => res ∈ vs ∧ ∀ x ∈ vs, res.toNat ≤ x.toNat
  | .max .i32 => res ∈ vs ∧ ∀ x ∈ vs, x.toInt ≤ res.toInt
  | .max .u32 => res ∈ vs ∧ ∀ x ∈ vs, x.toNat ≤ res.toNat
  | .and => ∀ i, i < 32 → (res.getLsbD i = true ↔ ∀ x ∈ vs, x.getLsbD i = true)
  | .or => ∀ i, i < 32 → (res.getLsbD i = true ↔ ∃ x ∈ vs, x.getLsbD i = true)
  | .xor => ∀ i, i < 32 → (res.getLsbD i = true ↔ (vs.filter fun x => x.getLsbD i).length % 2 = 1)
  | _ => False

-- Global memory (R67, R201 to R217).

/-- The window that a firing names, its offset into it, and the address of an access of `size` bytes. -/
def winOf (v : View) : Window := v.g.wins.getD (v.rule.imm.toNat / 2 ^ 12) {}
def offOf (v : View) (size : Nat) : Nat := v.a.toNat + v.rule.imm.toNat % 2 ^ 7 * size
def vaOf (v : View) (size : Nat) : Nat := (winOf v).base + offOf v size

/-- Whether the access is a release at .die or wider (R290). -/
def wideRelease (v : View) : Bool := v.rule.imm.getLsbD 8 && decide (3 ≤ v.rule.imm.toNat / 2 ^ 9 % 8)

/-- The checks of R202 that come before translation. -/
def InWindow (v : View) (size : Nat) (aligned limited : Bool) : Prop :=
  (winOf v).v = true ∧ offOf v size + size - 1 ≤ (winOf v).limit ∧ vaOf v size % 32 + size ≤ 32 ∧
  (aligned = true → vaOf v size % size = 0) ∧ (limited = true → (winOf v).ro = false)

/-- An access reaches location `loc`: the checks of R202 and R207 pass, and its translation leaves `u`. -/
def Reaches (s : State) (v : View) (size : Nat) (aligned limited r w quiet : Bool) (loc : Nat) (u : State) : Prop :=
  InWindow v size aligned limited ∧ s.xlate (v.ask s (vaOf v size) r w quiet) = (.ok loc, u)

/-- No failed link and no uncorrectable error stands between the agents of a region's cluster and a location (R291, R337, R424). -/
def Unhindered (s : State) (r loc : Nat) : Prop :=
  s.cut (dieOf r) (homeDie loc) = none ∧ s.store.marks.look (loc / 32) = none ∧
  dirtyKey (clusterOf r) (loc / 32 * 32) ∉ s.store.badDirty

/-- The names of requests lie below the next name. -/
def Fresh (s : State) : Prop := ∀ q ∈ s.fab.reqs, q.id < s.uid

/-- The turn of an access of request `id` has come: no link on its way retrains (R423), no earlier access of its context to the sector, by
whatever address, has still to be performed (R204, R317, R336), and nothing that its cluster has sent to the same far die before it is held for
a link (R422). -/
def Turn (s : State) (c : CtxId) (lease id va loc : Nat) : Prop :=
  s.retrains (dieOf c.region) (homeDie loc) = false ∧
  (∀ q ∈ s.fab.reqs, q.id < id → q.org.ctx = c → q.org.lease = lease → q.stage.owes va loc = false) ∧
  (dieOf c.region = homeDie loc ∨ ∀ q ∈ s.fab.reqs, q.id < id → clusterOf q.org.ctx.region = clusterOf c.region → ∀ b, q.stage = .held b →
    homeDie b.loc = homeDie loc → s.ownFirst q.org.ctx q.org.lease q.id b.va b.loc = true)

/-- A firing's access is performed at once. -/
def AtOnce (s : State) (v : View) (va loc : Nat) : Prop := Turn s v.f.ctx v.g.lease s.uid va loc

/-- A cluster cache holds the line of a location already, or has room for it (R288). -/
def Room (s : State) (cl loc : Nat) : Prop :=
  dirtyKey cl (loc / 128 * 128) ∈ s.store.copies ∨ (s.store.copies.filter fun k => k / 2 ^ 40 = cl).length < 131072

/-- The request that a firing leaves outstanding (R205). -/
structure Request (u : State) (v : View) (q : Req) (read acq : Bool) (stage : Stage) : Prop where
  name : q.id = u.uid
  issuer : q.org.ctx = v.f.ctx ∧ q.org.slot = v.f.slot ∧ q.org.lease = v.g.lease ∧ q.org.gang = v.g.gang ∧ q.org.inst = v.g.inst ∧
    q.org.rounded = v.x.isRounded
  dests : q.dst = v.rule.dst ∧ q.pdst = v.rule.pdst ∧ q.om = v.rule.om ∧ q.colour = v.colour
  order : q.read = read ∧ q.acq = acq
  /-- A request that is parked parks its context (R220). -/
  parks : q.parks = match stage with
    | .parked _ => true
    | _ => false
  stage : q.stage = stage

/-- From `u`, the firing commits and leaves a request; beside that only what `store` holds may have changed. -/
def Asks (u t : State) (v : View) (n : Need) (flight read acq : Bool) (stage : Stage) : Prop :=
  ∃ c q, Commits u c v n flight ∧ Request u v q read acq stage ∧
    t = { c with fab := { c.fab with reqs := c.fab.reqs ++ [q] }, store := t.store, uid := t.uid }

/-- As `Asks`, where a write at a home may also wake parked WAITAs and meet a gang's predicate (R293, R299). -/
def AsksHome (u t : State) (v : View) (n : Need) (flight read acq : Bool) (stage : Stage) : Prop :=
  ∃ c q woken, Commits u c v n flight ∧ Request u v q read acq stage ∧
    (∀ x : Req, woken x = x ∨ ∃ a tm w, x.stage = .parked (.waita a tm none) ∧ woken x = { x with stage := .parked (.waita a tm (some w)) }) ∧
    (∀ g, (t.gang g).map (fun x => { x with predZero := false }) = (u.gang g).map fun x => { x with predZero := false }) ∧
    t = { c with fab := { c.fab with reqs := c.fab.reqs.map woken ++ [q] }, store := t.store, dies := { c.dies with gangs := t.dies.gangs },
                 uid := t.uid }

/-- What goes on to a reply with a result and a predicate. -/
def replies (v : View) (res : Word) (pres : Bool) : Stage := .reply { res, pres, om := v.rule.om, colour := v.colour }

/-- `size` bytes widened to a word. -/
def Widened (signed : Bool) (size : Nat) (byte : Nat → Byte) (res : Word) : Prop :=
  ∀ n, n < 32 → res.getLsbD n = if n < 8 * size then (byte (n / 8)).getLsbD (n % 8) else signed && (byte (size - 1)).getLsbD 7

/-- The number that `n` bytes from a location of a cluster's view hold. -/
def clusterNat (s : State) (cl loc n : Nat) : Nat := ((List.range n).map fun i => (s.clusterByte cl (loc + i)).toNat * 256 ^ i).sum

/-- A write of `n` bytes of `x` at the home, by a cluster whose own bytes of the sector go home first: every other byte, as any cluster
sees it, stands as before; a wide release waits no longer for a line that this leaves clean (R290). -/
def WritesHome (s t : State) (cl loc n x : Nat) : Prop :=
  (∀ i, i < n → t.homeByte (loc + i) = BitVec.ofNat 8 (x / 256 ^ i) ∧ t.clusterByte cl (loc + i) = BitVec.ofNat 8 (x / 256 ^ i)) ∧
  (∀ a, a < loc ∨ loc + n ≤ a → t.homeByte a = if a / 32 = loc / 32 then s.clusterByte cl a else s.homeByte a) ∧
  (∀ a c, a < 2 ^ 40 → a < loc ∨ loc + n ≤ a → (c = cl ∨ a / 32 ≠ loc / 32 → t.clusterByte c a = s.clusterByte c a)) ∧
  (t.store.wides = s.store.wides ∨
    t.store.wides = s.store.wides.map fun w => { w with lines := w.lines.filter fun l => l ≠ dirtyKey cl (loc / 128 * 128) }) ∧
  t.store = { s.store with cells := t.store.cells, stale := t.store.stale, marks := t.store.marks, dirty := t.store.dirty,
                           badDirty := t.store.badDirty, wides := t.store.wides }

/-- The size of a memory form in bytes (R68). -/
def bytesOf : Size → Nat
  | .b => 1
  | .h => 2
  | .w => 4

/-- The record of a fault that a firing raises (R43, R44, R189, R197). -/
def FaultRecord (s : State) (v : View) (cls : Nat) (info : List Byte) (va : Nat) (r : Rec) : Prop :=
  r.cls = cls ∧ r.info = info ∧ r.va = va ∧
  r.tx = v.x.el / 16 % 8 ∧ r.ty = v.x.el / 16 / 8 % 16 ∧ r.exy = v.x.el % 16 ∧ r.ks = v.x.k + 16 * v.f.slot ∧
  r.lease = v.g.lease ∧ r.inst = v.g.inst ∧ r.lrec = s.lrecOf v.g.gang ∧
  r.flags.testBit 0 = v.x.isRounded ∧ r.flags.testBit 1 = v.x.isRounded ∧ r.flags.testBit 3 = false ∧ r.flags.testBit 4 = false ∧
  r.flags.testBit 2 = decide (1 < (v.g.chainOf v.x.el v.x.k).length)

/-- From `u`, a fault of class `cls` cancels the firing and freezes the element, or the whole chain, from the next cycle (R43, R44); the
element fires nothing else in its cycle (R29). In a rounded context it voids the round (R189). -/
def Faults (u t : State) (v : View) (cls : Nat) (info : List Byte) (va : Nat) : Prop :=
  ∃ q, q.ctx = v.f.ctx ∧ q.core = v.r / 32 ∧ FaultRecord u v cls info va q.rcd ∧
    (v.x.isRounded = false →
      t = { u with fab := { u.fab with elems := t.fab.elems, recs := u.fab.recs ++ [q] }, uid := t.uid } ∧
      (∀ el ∈ v.g.chainOf v.x.el v.x.k, (t.elem (v.g.phys el)).freeze = .faulted q.id) ∧ (t.elem v.p).spent = true ∧
      (∀ p, p ≠ v.p → (∀ el ∈ v.g.chainOf v.x.el v.x.k, p ≠ v.g.phys el) → t.elem p = u.elem p) ∧
      ∀ p, (t.elem p).ch = (u.elem p).ch ∧ (t.elem p).ptr = (u.elem p).ptr) ∧
    (v.x.isRounded = true →
      t.fab.recs = u.fab.recs ++ [q] ∧ t.store = u.store ∧ (t.region v.r).map (fun g => (g.round.isOpen, g.round.held)) = some (false, true))

/-- From `u`, a rounded firing commits, and its effect is held in the half of its round (R182, R185): nothing else changes. -/
def HeldIn (u t : State) (v : View) (n : Need) (size : Nat) (eff : Held → Prop) : Prop :=
  ∃ c g h e pre post, Commits u c v n false ∧ t = { c with regions := t.regions } ∧ (∀ q, q ≠ v.r → t.region q = c.region q) ∧
    c.region v.r = some g ∧ t.region v.r = some h ∧
    e.size = size ∧ eff e.eff ∧ e.org.ctx = v.f.ctx ∧ e.org.slot = v.f.slot ∧
    g.round.half.entries = pre ++ post ∧ h.round.half.entries = pre ++ e :: post ∧ (∀ x ∈ pre, x.age ≤ e.age) ∧
    h.round.half.bytes = g.round.half.bytes + size ∧
    h = { g with round := h.round, gens := h.gens } ∧ h.round.n = g.round.n ∧ h.round.isOpen = g.round.isOpen ∧
    h.round.early = (g.round.early || decide (49152 < g.round.half.bytes + size)) ∧
    (h.round.early = g.round.early → h.gens = g.gens)

/-- The global forms: access kind, size in bytes, whether the address must be aligned, whether RO forbids it, and the permissions it needs,
to read and to write (R198, R201, R202, R344). -/
def globalForm : Instr → Option (Nat × Nat × Bool × Bool × Bool × Bool)
  | .ld sz _ _ => some (0, bytesOf sz, false, false, true, false)
  | .st sz _ => some (1, bytesOf sz, false, true, false, true)
  | .aadd .. | .amin .. | .amax .. | .aand .. | .aor .. | .axor .. | .aswap .. | .acas _ => some (2, 4, true, true, true, true)
  | .amaxU64 _ => some (2, 8, true, true, true, true)
  | .axaddF32 _ | .xrdClr _ => some (2, 32, true, true, true, true)
  | .xrd _ => some (0, 32, true, false, true, false)
  | .waita .. => some (0, 4, true, true, true, false)
  | _ => none

/-- A kill leaves a request standing: what has been performed or sent, and what a direct context's firing has issued and that waits for its
turn, for its wide release, for a link or at its queue; no WAITA and no FENCE (R179, R194, R325). -/
def Standing (q : Req) : Prop :=
  match q.stage with
  | .reply _ | .bad .. | .ack | .sent => True
  | .store .. | .tcpy .. => q.org.rounded = false
  | .held a => q.org.rounded = false ∧ ∀ eq, a.op ≠ .waita eq
  | .wide _ a => q.org.rounded = false ∧ ∀ acq, a ≠ .fence acq
  | .parked p | .queueClear p => q.org.rounded = false ∧
      ((∃ d n i, p = .qput d n i) ∨ (∃ d n t i, p = .qtick d n t i) ∨ ∃ d n t, p = .qcan d n t)
  | _ => False

/-- What a request's commit is joined with: `rest` relates the state with the commit and the request to what follows. -/
def AsksAnd (u t : State) (v : View) (n : Need) (flight read acq : Bool) (stage : Stage) (rest : State → State → Prop) : Prop :=
  ∃ c q, Commits u c v n flight ∧ Request u v q read acq stage ∧ rest { c with fab := { c.fab with reqs := c.fab.reqs ++ [q] } } t

/-- The bytes that a firing stores into scratchpad, and that every other byte stands (R219). -/
def SpadBytes (s t : State) (key n x : Nat) : Prop :=
  (∀ i, i < n → cellAt t.store.spad (key + i) = BitVec.ofNat 8 (x / 256 ^ i)) ∧
  (∀ a, a < key ∨ key + n ≤ a → cellAt t.store.spad a = cellAt s.store.spad a) ∧ t.store = { s.store with spad := t.store.spad }

/-- One ring of one region changes. -/
def RingMoves (s t : State) (r n : Nat) (f : Ring → Ring → Prop) : Prop :=
  t = { s with regions := t.regions, store := t.store } ∧ (∀ q, q ≠ r → t.region q = s.region q) ∧
  ∃ g x y, s.region r = some g ∧ g.rings[n]? = some x ∧ t.region r = some { g with rings := g.rings.set n y } ∧ f x y

/-- A ring as an agent outside round sets, or the round set of a region, sees it. -/
def ringHead (x : Ring) (set : Option Nat) : Word := match set with
  | some r => ((x.views.look r).map fun w => w.head).getD x.head
  | none => x.head
def ringTail (x : Ring) (set : Option Nat) : Word := match set with
  | some r => ((x.views.look r).map fun w => w.tail).getD x.tail
  | none => x.tail
/-- The head that a ring's space is counted from: that of the last commit, in a round set (R184). -/
def ringBase (x : Ring) (set : Option Nat) : Word := match set with
  | some r => ((x.views.look r).map fun w => w.committed).getD x.head
  | none => x.head
/-- A push or a pop as its agent counts it: the others' counters stand (R167, R184). -/
def Advances (set : Option Nat) (push : Bool) (x y : Ring) : Prop :=
  y.buf = x.buf ∧ y.cap = x.cap ∧
  ringTail y set = (if push then ringTail x set + 1#32 else ringTail x set) ∧
  ringHead y set = (if push then ringHead x set else ringHead x set + 1#32) ∧
  (set.isSome = true → y.head = x.head ∧ y.tail = x.tail)

/-- A firing on a generator of its region (R225): a result and a predicate after two cycles, and the generator as `f` makes it. -/
def OnGen (i : Instr) (s : State) (v : View) (res : Word) (pres : Bool) (f : Gen → Gen) : Prop :=
  ∃ c t g h b, exec i s = .next t ∧ Commits s c v (needFor s v i) true ∧
    t = { c with regions := t.regions, fab := { c.fab with wbs := c.fab.wbs ++ [b] } } ∧
    (∀ q, q ≠ v.r → t.region q = c.region q) ∧ c.region v.r = some g ∧ t.region v.r = some h ∧
    h = { g with gens := h.gens, round := h.round } ∧ h.round = { g.round with shadow := h.round.shadow } ∧
    -- A voided round finds the generator as the round found it: what no commit has recorded is recorded now (R227).
    (v.x.isRounded = false ∨ f (v.g.gens.lookD v.genOf {}) = v.g.gens.lookD v.genOf {} → h.round = g.round) ∧
    (∀ sh, v.x.isRounded = true → f (v.g.gens.lookD v.genOf {}) ≠ v.g.gens.lookD v.genOf {} → g.round.shadow = some sh →
      ∃ sh', h.round.shadow = some sh' ∧ sh' = { sh with gens := sh'.gens } ∧
        ∀ k, sh'.gens.look k = if k = v.genOf ∧ sh.gens.look k = none then some (v.g.gens.lookD k {}) else sh.gens.look k) ∧
    (∀ k, h.gens.look k = if k = v.genOf then some (f (v.g.gens.lookD k {})) else g.gens.look k) ∧
    b.id = s.uid ∧ b.ctx = v.f.ctx ∧ b.due = s.regionClk v.r + 1 ∧ b.dst = v.rule.dst ∧ b.pdst = v.rule.pdst ∧
    b.done = { res, pres, om := v.rule.om, colour := v.colour }

/-- A result reaches its context before the firings of cycle `cyc` (R35, R37, R47): register, predicate and emissions take effect together;
where the data was bad the register keeps its value and the predicate is false; reserved places that are not used give their credits back,
to the route where no corner-turn node stands, and no token that a node has left waits for one (R247). -/
structure WritesBack (s t : State) (own : Nat) (c : CtxId) (dst pdst : Option (BitVec 3)) (d : Done) (cyc : Nat) : Prop where
  rest : t = { s with fab := { s.fab with flits := t.fab.flits }, regions := t.regions }
  context : ∀ g x, s.region c.region = some g → g.ctx c.el c.k = some x → ∃ y, t.ctx c = some y ∧
    (∀ n, y.reg n = if d.good = true ∧ dst = some n then d.res else x.reg n) ∧
    (∀ n, y.pred n = if pdst = some n then (if d.good && d.pres then Pred.t else Pred.f) else x.pred n) ∧
    (∀ n : BitVec 3, y.busy.getLsbD n.toNat = (x.busy.getLsbD n.toNat && decide (dst ≠ some n))) ∧
    y = { x with regs := y.regs, preds := y.preds, busy := y.busy, credits := y.credits } ∧
    (g.nodes = [] → (∀ f ∈ s.fab.flits, f.owes = false) → ∀ o, o < 8 → y.credits.getD o 0 = x.credits.getD o 0 +
      (s.fab.flits.filter fun f => decide (f.own = own ∧ f.ctx = c ∧ f.o = o) && !f.filled && !(d.good && d.om.getLsbD f.o)).length)
  /-- The tokens leave on the routes of the mask, and arrive after their hops (R24), or after those to the node that they were meant for and on
  from there (R247). -/
  tokens : ∀ g x, s.region c.region = some g → g.ctx c.el c.k = some x → (∀ f ∈ s.fab.flits, f.owes = false) →
    t.fab.flits = (if d.good then s.fab.flits.map fun f =>
        if f.own = own ∧ d.om.getLsbD f.o = true then
          { f with filled := true, payload := d.res, tag := mkTag d.colour d.control (routeKx (x.routes.getD f.o 0#32)),
                   arrive := cyc + g.hopOf x f.o (f.node.map fun e => e.2) + f.past.getD 0 }
        else f
      else s.fab.flits).filter fun f => !(decide (f.own = own) && !f.filled && !(d.good && d.om.getLsbD f.o))
  others : (∀ f ∈ s.fab.flits, f.own = own → f.ctx = c) → ∀ k, k ≠ c → t.ctx k = s.ctx k

-- Graphics (R402, R409 to R411, R414).

/-- Whether a triangle covers a pixel. -/
def Covers (v : Nat → Int × Int) (x y : Nat) : Prop :=
  let e (i j p : Int × Int) : Int := (j.1 - i.1) * (p.2 - i.2) - (j.2 - i.2) * (p.1 - i.1)
  let topLeft (i j : Int × Int) : Prop := j.2 - i.2 < 0 ∨ (j.2 = i.2 ∧ 0 < j.1 - i.1)
  let p : Int × Int := (256 * (x : Int) + 128, 256 * (y : Int) + 128)
  let area := e (v 0) (v 1) (v 2)
  let w (n : Nat) : Int × Int := if area < 0 ∧ n = 1 then v 2 else if area < 0 ∧ n = 2 then v 1 else v n
  area ≠ 0 ∧ ∀ n, n < 3 → 0 < e (w n) (w ((n + 1) % 3)) p ∨ (e (w n) (w ((n + 1) % 3)) p = 0 ∧ topLeft (w n) (w ((n + 1) % 3)))

/-- A value that is not finite counts as zero. -/
def realOf (w : Word) : ℚ := match fpLane .f32 w 0 with
  | .fin _ x => x
  | _ => 0
/-- The nearest integer, a tie going to the even one. -/
def nearestEven (x : ℚ) : Int :=
  let q := ⌊x⌋
  if x - q < 1 / 2 ∨ (x - q = 1 / 2 ∧ q % 2 = 0) then q else q + 1

/-- The texels of a sample, by virtual address, with their weights (R413, R414). -/
def texelAt (d : TexDesc) (l : Nat) (i j : Int) : Nat :=
  let w : Int := 2 ^ (d.wl - l)
  let h : Int := 2 ^ (d.hl - l)
  let x := if d.am % 2 = 1 then i % w else min (max i 0) (w - 1)
  let y := if d.am / 2 % 2 = 1 then j % h else min (max j 0) (h - 1)
  d.levelBase l + 4 * (y * w + x).toNat
def linearTaps (d : TexDesc) (l : Nat) (u v : ℚ) : List (Nat × ℚ) :=
  let x := u * 2 ^ (d.wl - l) - 1 / 2
  let y := v * 2 ^ (d.hl - l) - 1 / 2
  let fx := x - ⌊x⌋
  let fy := y - ⌊y⌋
  [(texelAt d l ⌊x⌋ ⌊y⌋, (1 - fx) * (1 - fy)), (texelAt d l (⌊x⌋ + 1) ⌊y⌋, fx * (1 - fy)), (texelAt d l ⌊x⌋ (⌊y⌋ + 1), (1 - fx) * fy),
   (texelAt d l (⌊x⌋ + 1) (⌊y⌋ + 1), fx * fy)]
def texTaps (d : TexDesc) (f : TexFn) (u v lod : ℚ) : List (Nat × ℚ) :=
  let near := (max 0 (min ((d.nl : Int) - 1) (nearestEven lod))).toNat
  let c := max 0 (min ((d.nl : ℚ) - 1) lod)
  let l0 := ⌊c⌋.toNat
  let all : List (Nat × ℚ) := match f with
    | .pt => [(texelAt d near ⌊u * 2 ^ (d.wl - near)⌋ ⌊v * 2 ^ (d.hl - near)⌋, 1)]
    | .lin => linearTaps d near u v
    | .tri => (linearTaps d l0 u v).map (fun t => (t.1, t.2 * (1 - (c - ⌊c⌋)))) ++
        (linearTaps d (min (l0 + 1) (d.nl - 1)) u v).map fun t => (t.1, t.2 * (c - ⌊c⌋))
  all.filter fun t => t.2 ≠ 0

/-- The filtered word of a sample over the words of its texels. -/
def Filters (fmt : Nat) (ts : List (Word × ℚ)) (res : Word) : Prop :=
  match fmt with
  | 3 => ∀ i, i < 4 → ((res.extractLsb' (8 * i) 8).toNat : Int) = nearestEven ((ts.map fun t => t.2 * ((t.1.extractLsb' (8 * i) 8).toNat : ℚ)).sum)
  | _ =>
    let t : Ty := if fmt = 0 then .f32 else if fmt = 1 then .f16x2 else .bf16x2
    ∀ i, i < fpLanes t → Rounded (fmtOf t) .rn false 0 (Ext.sum false (ts.map fun x => (fpLane t x.1 i).prod (.fin false x.2))) (fpCode t res i)

/-- Word `n` of a record as a value, and its point from that word on. -/
def recAt (bs : List Byte) (n : Nat) : Word := leWord (bs.drop (4 * n))
def Finite (w : Word) : Prop := ∃ neg x, fpLane .f32 w 0 = .fin neg x
/-- Coordinate `a` of the point of a ray at `t`. -/
def rayAt (ray : List Byte) (t : ℚ) (a : Nat) : ℚ := realOf (recAt ray a) + t * realOf (recAt ray (4 + a))

/-- What an ISECT answers, and what it writes into its ray record: at once, or into the store buffer in a rounded context (R182, R408, R411). -/
def Intersects (s : State) (v : View) (i : Instr) (key : Nat) (u : State) (res : Word) (wr : Option (List Byte)) : Prop :=
  ∃ t w, exec i s = .next t ∧ Asks u w v (needFor s v i) true true false (replies v res (isSet res)) ∧ w.store = u.store ∧
    t = { w with store := t.store, regions := t.regions, free := u.free + 4 } ∧
    (wr = none ∨ v.x.isRounded = true → t.store = u.store) ∧ (wr = none ∨ v.x.isRounded = false → t.regions = w.regions) ∧
    (∀ bs, wr = some bs → v.x.isRounded = false → t.store = { u.store with spad := t.store.spad } ∧
      (∀ n, n < 16 → cellAt t.store.spad (key + 32 + n) = bs.getD n 0#8) ∧
      ∀ a, a < key + 32 ∨ key + 48 ≤ a → cellAt t.store.spad a = cellAt u.store.spad a) ∧
    ∀ bs, wr = some bs → v.x.isRounded = true → ∃ g e, t.region v.r = some g ∧ e ∈ g.round.half.entries ∧ e.size = 16 ∧ e.age = u.uid ∧
      e.eff = .spad (key + 32) bs

/-- No link on the way from an issuer on die `src` to a queue of die `d`, and on to the slot of ticket `w`, has failed or retrains (R423,
R424). -/
def NoLink (s : State) (src d : Nat) (h : HQueue) (w : Word) : Prop :=
  let homes := if h.en then h.slotDies w else []
  s.queueWaits src d homes = false ∧ s.queueCut src d homes = none

-- Signals of commands (R252, R259).

/-- A command's completion: SINC is added to its semaphore, or one arrival reaches its barrier; nothing, where SE is 0. Every other semaphore
and barrier stands. -/
def Signals (s t : State) (core : Nat) (c : List Word) : Prop :=
  let w := fieldAt c 4 2
  let at_ (bar : Bool) (k n : Nat) : Prop := w.testBit 15 = true ∧ w.testBit 14 = bar ∧ k = core ∧ n = w % if bar then 128 else 256
  (∀ k n, n < 256 → ¬at_ false k n → t.sem k n = s.sem k n) ∧
  (∀ k n, n < 96 → ¬at_ true k n → t.bar k n = s.bar k n) ∧
  (∀ k n, at_ false k n → t.sem k n = { s.sem k n with value := (s.sem k n).value + BitVec.ofNat 32 (fieldAt c 6 2) }) ∧
  ∀ k n, n < 96 → at_ true k n →
    let b := s.bar k n
    b.exp ≠ 0 → b.arr ≠ b.exp →
      t.bar k n = if b.arr + 1 = b.exp ∧ b.pend = 0 then { b with phase := (b.phase + 1) % 65536, arr := 0 } else { b with arr := b.arr + 1 }

/-- A command is aborted: its semaphore or its barrier records it in place of the signal. -/
def Aborts (s t : State) (core : Nat) (c : List Word) : Prop :=
  let w := fieldAt c 4 2
  let at_ (bar : Bool) (k n : Nat) : Prop := w.testBit 15 = true ∧ w.testBit 14 = bar ∧ k = core ∧ n = w % if bar then 128 else 256
  (∀ k n, n < 256 → t.sem k n = open Classical in
    if at_ false k n then { s.sem k n with abt := true, aborts := min 0xFFFF ((s.sem k n).aborts + 1) } else s.sem k n) ∧
  ∀ k n, n < 96 → t.bar k n = open Classical in if at_ true k n then { s.bar k n with abt := true } else s.bar k n

/-- A command's firing gets its reply, or its drain goes on (R257). -/
def Replied (s t : State) (p : Packet) (res : Word) (pres : Bool) : Prop :=
  (∀ q, p.req ≠ 0 → s.req p.req = some q → t.req p.req = some { q with stage := .reply { res, pres, om := q.om, colour := q.colour } }) ∧
  (p.req = 0 → ∀ r g, t.region r = some g → g.round.h0.wait ≠ some p.id ∧ g.round.h1.wait ≠ some p.id)
/-- The same for a firing without a result, which is outstanding until its packet's acceptance, or its performance (R205, R257, R286). -/
def Acked (_s t : State) (p : Packet) : Prop :=
  (p.req ≠ 0 → t.req p.req = none) ∧
  (p.req = 0 → ∀ r g, t.region r = some g → g.round.h0.wait ≠ some p.id ∧ g.round.h1.wait ≠ some p.id)

/-- Where a command's wait stands (R252, R258). -/
def WaitAborted (s : State) (p : Packet) : Prop :=
  p.met = false ∧ (fieldAt p.cmd 0 2).testBit 15 = true ∧ (s.sem (coreOf p.org.ctx.region) (fieldAt p.cmd 0 2 % 256)).abt = true
def WaitMet (s : State) (p : Packet) : Prop :=
  let m := s.sem (coreOf p.org.ctx.region) (fieldAt p.cmd 0 2 % 256)
  p.met = true ∨ (fieldAt p.cmd 0 2).testBit 15 = false ∨
    (m.abt = false ∧ (m.value.toNat % 65536 + 65536 - fieldAt p.cmd 2 2) % 65536 < 32768)

/-- One record more is to be posted, for an engine's fault: it freezes nothing and voids nothing (R271). -/
def Posts (s t : State) (org : Origin) (cls : Nat) (info : List Byte) : Prop :=
  ∃ q, t.fab.recs = s.fab.recs ++ [q] ∧ t.fab.elems = s.fab.elems ∧ q.ctx = org.ctx ∧ q.frozen = [] ∧ q.rcd.cls = cls ∧ q.rcd.info = info ∧
    q.rcd.lease = org.lease ∧ q.rcd.inst = org.inst ∧ q.rcd.tx = org.ctx.el / 16 % 8 ∧ q.rcd.ty = org.ctx.el / 16 / 8 % 16 ∧
    q.rcd.exy = org.ctx.el % 16 ∧ q.rcd.ks = org.ctx.k + 16 * org.slot ∧ q.rcd.flags.testBit 0 = org.rounded

-- Matrix work (R235 to R239).

/-- The value at place `i` of packed bytes, in a format code of R235. -/
def packedExt (f i : Nat) (bs : List Byte) : Ext :=
  let b (n : Nat) : Nat := (bs.getD n 0#8).toNat
  if f = 0 then codeExt e4m3 (b i)
  else if f = 1 then codeExt e5m2 (b i)
  else if f = 2 then codeExt bf16 (b (2 * i) + 256 * b (2 * i + 1))
  else if f = 3 then codeExt fp16 (b (2 * i) + 256 * b (2 * i + 1))
  else codeExt e2m1 (b (i / 2) / 16 ^ (i % 2) % 16)
/-- A scale code; the 16-bit formats have none. -/
def scaleExt (f code : Nat) : Ext :=
  if f = 2 ∨ f = 3 then .fin false 1 else if code = 0xFF then .nan else .fin false (2 ^ ((code : Int) - 127))

/-- One beat in column `n`: each of the four element rows adds its products exactly and rounds once (R239). -/
def BeatOf (af : Nat) (row scales : List Byte) (p : Plane) (n c res : Nat) : Prop :=
  let ke := if af < 2 then 8 else if af < 4 then 4 else 16
  let term (k : Nat) : Ext :=
    ((scaleExt af (scales.getD (k / 32) 0#8).toNat).prod (packedExt af k row)).prod
      ((scaleExt p.fmt (p.bytes.getD (1024 + 32 * (k / 32) + n) 0#8).toNat).prod (packedExt p.fmt (32 * k + n) p.bytes))
  ∃ x : Nat → Nat, x 0 = c ∧ x 4 = res ∧ ∀ ey, ey < 4 →
    Rounded fp32 .rn false 0 (Ext.sum false (codeExt fp32 (x ey) :: (List.range ke).map fun j => term (ey * ke + j))) (x (ey + 1))

/-- A request goes on to a reply with a result and a predicate. -/
def replyOf (q : Req) (res : Word) (pres : Bool) : Stage := .reply { res, pres, om := q.om, colour := q.colour }

end Sys2Proof.Claims
end

