-- ==== Sys2Proof/Certificates/Slice0/Obligations.lean ====
section
/-!
DEFINITION. The statements for the provers. Each statement's docstring names the rules of spec/ that it formalises.
-/

open Sys2Proof Sys2Proof.Machine Sys2Proof.Claims

-- The machine as a whole.

/-- After reset every semaphore and every field of every barrier is zero, no region is placed, no queue is enabled, every byte of memory
and of scratchpad reads as zero (log 1: the model's choice) and READY is clear (R261, R275, R427). -/
def Obligations.ResetState : Prop :=
  (∀ core n, (State.reset.sem core n).value = 0#32 ∧ (State.reset.sem core n).abt = false ∧ (State.reset.sem core n).aborts = 0) ∧
  (∀ core n, State.reset.bar core n = { exp := 0, arr := 0, phase := 0, pend := 0, abt := false }) ∧
  (∀ r, State.reset.region r = none) ∧ (∀ d q, (State.reset.hq d q).cfg.getLsbD 31 = false) ∧
  (∀ a, cellAt State.reset.store.cells a = 0#8 ∧ cellAt State.reset.store.spad a = 0#8) ∧
  (State.reset.readReg 0x04).getLsbD 31 = false

/-- Every register of BAR0 reads its Reset column after reset (the tables of R195, R280, R281, R311, R312, R370, R392, R397, R404, R427,
R453): those whose Reset is not zero are named, and all others read zero. -/
def Obligations.ResetRegisters : Prop :=
  ∀ off, off < 0x1000000 → off % 4 = 0 → off ≠ 0 →
    let o := (off - 0x100000) % 0x300000
    State.reset.readReg off =
      if off < 0x100000 ∨ 0xD00000 ≤ off then 0#32
      else if o = 0x40 then 0x00001C01#32 -- FDCFG: FDTX 28, GEN 1
      else if o = 0x1000 then 0x00140010#32 -- DSCFG: BTX 20, PWX 16
      else if o = 0x1048 then 6#32 -- TRCFG: TRLC 6
      else if o = 0x2000 then 64#32 -- GFXCFG: THR 64
      else if 0x10000 ≤ o ∧ o < 0x14000 ∧ o % 0x1000 = 0 then 24#32 -- WTCFG: WTX 24
      else if 0x40000 ≤ o ∧ o < 0x60000 ∧ o % 0x2000 < 0x800 ∧ o % 0x40 = 0x08 then 0x00001014#32 -- DLCFG: SVX 16, DLX 20
      else 0#32

/-- The memories of the state after reset have their canonical form, and no request is listed under a name that is still to be given. The
canonical form and the request names are the model's own. -/
def Obligations.ResetMeetsInvariants : Prop := State.reset.memoryOk ∧ Fresh State.reset

/-- Every step keeps the canonical form of memory and scratchpad: addresses strictly ascending, no zero byte listed. The canonical form
is the model's own way to hold memory. -/
def Obligations.StepKeepsMemoryCanonical : Prop :=
  ∀ s t : State, s.memoryOk → step s = .next t → t.memoryOk

/-- Every step keeps the names of requests below the next name, so that a new request never takes the name of one that is outstanding.
Names are the model's own. -/
def Obligations.StepKeepsRequestNames : Prop :=
  ∀ s t : State, Fresh s → step s = .next t → Fresh t

/-- Where the next move is a firing whose slot's words decode to an instruction, or an event of the device, the step is what `exec` does
with that instruction (R29, R34, R53; log 2). -/
def Obligations.StepRunsDecoded : Prop :=
  ∀ (s : State) (rest : List Move),
    (∀ f w i, s.agenda = .fire f :: rest → s.slotWords f = some w → decode w.w0 w.w1 w.w2 = .ok i →
      step s = exec i { s with agenda := rest, cur := f }) ∧
    (∀ i, s.agenda = .event i :: rest → step s = exec i { s with agenda := rest })

/-- A step never refuses, and it faults only at a chosen slot whose words are no instruction, which no image that the loader accepts
holds (R49, R58, R80). -/
def Obligations.StepFaultsOnlyOnIllegalWords : Prop :=
  ∀ s : State, (∀ q, step s ≠ .refused q) ∧
    ∀ e, (step s = .fault e ↔ ∃ f rest w, s.agenda = .fire f :: rest ∧ s.slotWords f = some w ∧
      e = .illegalWord w.w0 w.w1 w.w2 ∧ ∀ i, decode w.w0 w.w1 w.w2 ≠ .ok i)

-- Encoding.

/-- Decoding the words of a well-formed rule instruction gives the instruction back, whatever its operands (R50 to R57, R62 to R69). -/
def Obligations.DecodeOfEncode : Prop :=
  ∀ (i : Instr) (w0 w1 w2 : Word), i.wellFormed = true → encode i = some (w0, w1, w2) → decode w0 w1 w2 = .ok i

/-- Only the words of an instruction decode to it: what decodes, encodes to the words it was read from (R58). -/
def Obligations.EncodeOfDecode : Prop :=
  ∀ (i : Instr) (w0 w1 w2 : Word), decode w0 w1 w2 = .ok i → encode i = some (w0, w1, w2) ∧ i.wellFormed = true

/-- Words that the spec writes out decode to the instructions they stand for (the examples of R118, R121, R129 and R135). -/
def Obligations.SpecWordsDecode : Prop :=
  let g : Guard := { pm := 0#8, pv := 0#8, c0 := .ignore, c1 := .ignore, c2 := .ignore, c3 := .ignore, colour := none, kind := .normal }
  -- movh d0 <- d0, #0x4049
  decode 0x00000000#32 0x04040000#32 0x00804049#32 =
    .ok (.movh { guard := g, a := .reg 0, b := .chan 0, c := .chan 0, dq := 0#4, om := 0#8, dst := some 0, pdst := none,
                 imm := 0x4049#16 }) ∧
  -- [c0 c1] imad.sat.i16x2 d2, o1 <- c0, c1, d2
  decode 0x00000500#32 0x0E101632#32 0x02A00000#32 =
    .ok (.imad true .i16x2 { guard := { g with c0 := .data, c1 := .data }, a := .chan 0, b := .chan 1, c := .reg 2, dq := 3#4,
                             om := 2#8, dst := some 2, pdst := none, imm := 0#16 }) ∧
  -- [c0 c1] steer o0 <- c1, c0 else o1
  decode 0x00000500#32 0x40010030#32 0x01000002#32 =
    .ok (.steer { guard := { g with c0 := .data, c1 := .data }, a := .chan 1, b := .chan 0, c := .chan 0, dq := 3#4, om := 1#8,
                  dst := none, pdst := none, imm := 2#16 }) ∧
  -- [p0] tred.add.i32 d1 <- d0
  decode 0x01010000#32 0x56040000#32 0x00900000#32 =
    .ok (.tred (.add .i32) { guard := { g with pm := 1#8, pv := 1#8 }, a := .reg 0, b := .chan 0, c := .chan 0, dq := 0#4, om := 0#8,
                             dst := some 1, pdst := none, imm := 0#16 }) ∧
  -- [p0] shuf.xor d2 <- d0, #1
  decode 0x01010000#32 0x54340000#32 0x00A00001#32 =
    .ok (.shuf .xor { guard := { g with pm := 1#8, pv := 1#8 }, a := .reg 0, b := .chan 0, c := .chan 0, dq := 0#4, om := 0#8,
                      dst := some 2, pdst := none, imm := 1#16 })

/-- OPC values 0x60 to 0x7F are reserved: no word with one of them is an instruction (R62). KIND values 4 to 7 of the guard, and a colour
without CE, are rejected (R50, R58). -/
def Obligations.ReservedWordsRejected : Prop :=
  (∀ w0 w1 w2 : Word, 0x60 ≤ w1.toNat / 2 ^ 25 → ∀ i, decode w0 w1 w2 ≠ .ok i) ∧
  (∀ w0 w1 w2 : Word, (4 ≤ w0.toNat % 8 ∨ (w0.getLsbD 3 = false ∧ w0.toNat / 16 % 16 ≠ 0)) → decode w0 w1 w2 = .error .guardWord)

-- Firings.

/-- A slot whose guard, operands, credits or element do not let it fire has no effect (R15, R23, R27, R36, R44, R138): the state stays
as it was. (STEER's credits and MERGE's channels have tests of their own, R60 and R61, and a follower's due RET is never masked.) -/
def Obligations.IneligibleSlotsDoNothing : Prop :=
  ∀ (i : Instr) (fm : Form) (r : Rule) (s : State) (v : View),
    i.form = some (fm, r) → view s r .z = some v →
    let g := r.guard
    (v.x.word.getLsbD 31 = false ∨ v.x.retired = true ∨ (s.elem v.p).freeze = .posted ∨
     (v.f.follower = false ∧ v.x.word.getLsbD 28 = true) ∨
     (v.f.follower = false ∧ g.kind = .init ∧ v.x.armed.getLsbD v.f.slot = false) ∨
     (∃ n, n < 8 ∧ g.pm.getLsbD n = true ∧
       (v.x.preds.getD n .f = .pending ∨
        (v.f.follower = false ∧ (v.x.preds.getD n .f = .t ∧ g.pv.getLsbD n = false ∨ v.x.preds.getD n .f = .f ∧ g.pv.getLsbD n = true)))) ∨
     (∃ n, n < 4 ∧ (∀ q, i ≠ .merge q) ∧ g.cc n ≠ .ignore ∧
       (((s.elem v.p).chan n = []) ∨ ∃ k, (s.elem v.p).head n = some k ∧
         (k.tag.toNat % 8 ≠ v.x.k ∨ (g.cc n = .data ∧ k.tag.getLsbD 3 = true) ∨ (g.cc n = .control ∧ k.tag.getLsbD 3 = false) ∨
          (v.f.follower = false ∧ ∃ q, g.colour = some q ∧ k.tag.extractLsb' 4 4 ≠ q)))) ∨
     (∃ n : BitVec 3, (r.a = .reg n ∨ r.b = .reg n ∨ r.c = .reg n ∨ r.dst = some n) ∧ v.x.busy.getLsbD n.toNat = true) ∨
     (∃ n : BitVec 3, r.pdst = some n ∧ v.x.preds.getD n.toNat .f = .pending) ∨
     (∃ o, o < 8 ∧ (∀ q, i ≠ .steer q) ∧ r.om.getLsbD o = true ∧ v.x.credits.getD o 0 = 0)) →
    exec i s = .next s

/-- The values that sources name (R54, R55): a channel's head, a register, the immediate widened as the opcode's role gives, zero, and
the predicates as a vector (R17). -/
def Obligations.SourceValues : Prop :=
  ∀ (s : State) (r : Rule) (w : ImmW) (v : View), view s r w = some v →
    ∀ src x, (src, x) ∈ [(r.a, v.a), (r.b, v.b), (r.c, v.c)] →
      (∀ n k, src = .chan n → (s.elem v.p).head n.toNat = some k → x = k.payload) ∧
      (∀ n, src = .reg n → x = v.x.regs.getD n.toNat 0#32) ∧
      (src = .imm → match w with
        | .s32 => x.toInt = r.imm.toInt
        | .z => x.toNat = r.imm.toNat
        | .f32 => x.toNat = r.imm.toNat * 2 ^ 16
        | .s16x2 | .f16x2 => x.extractLsb' 0 16 = r.imm ∧ x.extractLsb' 16 16 = r.imm
        | .s8x4 => ∀ i, i < 4 → x.extractLsb' (8 * i) 8 = r.imm.extractLsb' 0 8) ∧
      (src = .zero → x = 0#32) ∧
      (src = .pvec → ∀ n, n < 32 → (x.getLsbD n = true ↔ n < 8 ∧ v.x.preds.getD n .f = .t))

/-- MOV, MOVH and SEL (R118): the value, the low half under a new high half, and the one of two values that a predicate picks. ICMP, PSET and
PGET deliver a condition as their predicate (R127). -/
def Obligations.SelectionAndPredicates : Prop :=
  (∀ (s : State) (v : View) (r : Rule) (p : BitVec 3),
     (MayFire (.mov r) r .s32 s v → Delivers (.mov r) s v 1 v.a (isSet v.a)) ∧
     (MayFire (.movh r) r .s32 s v →
       ∃ res : Word, res.toNat = r.imm.toNat * 2 ^ 16 + v.a.toNat % 2 ^ 16 ∧ Delivers (.movh r) s v 1 res (isSet res)) ∧
     (MayFire (.sel p r) r .s32 s v → Holds v p → Delivers (.sel p r) s v 1 v.a (isSet v.a)) ∧
     (MayFire (.sel p r) r .s32 s v → ¬Holds v p → Delivers (.sel p r) s v 1 v.b (isSet v.b))) ∧
  (∀ (s : State) (v : View) (r : Rule) (t : Ty), t = .i32 ∨ t = .u32 →
     let x := laneInt t v.a 0
     let y := laneInt t v.b 0
     let pa := Holds v (r.imm.extractLsb' 0 3)
     let pb := Holds v (r.imm.extractLsb' 3 3)
     (∀ cc c, (cc, c) ∈ [(ICond.eq, decide (x = y)), (.ne, decide (x ≠ y)), (.lt, decide (x < y)), (.le, decide (x ≤ y)),
         (.gt, decide (x > y)), (.ge, decide (x ≥ y))] →
       MayFire (.icmp cc t r) r .s32 s v → Delivers (.icmp cc t r) s v 1 (if c then 0xFFFFFFFF#32 else 0#32) c) ∧
     (∀ (f : PFn) (c : Bool),
       (c = true ↔ match f with
         | .and => pa ∧ pb | .or => pa ∨ pb | .xor => (pa ∧ ¬pb) ∨ (¬pa ∧ pb) | .andn => pa ∧ ¬pb
         | .mov => pa | .not => ¬pa | .true => True | .false => False) →
       MayFire (.pset f r) r .s32 s v → Delivers (.pset f r) s v 1 (if c then 1#32 else 0#32) c) ∧
     (∀ c : Bool, (c = true ↔ pa) → MayFire (.pget r) r .s32 s v →
       ∃ res : Word, res.toNat = v.a.toNat * 2 % 2 ^ 32 + c.toNat ∧ Delivers (.pget r) s v 1 res c))

/-- IADD, ISUB, IMIN, IMAX, IABS, IMUL and IMAD act lane by lane; every form, type and operand (R121, with the latencies of R38). -/
def Obligations.IntegerLanes : Prop :=
  ∀ (s : State) (v : View) (r : Rule) (t : Ty) (sat : Bool), t ∈ pint →
    let x := laneInt t v.a
    let y := laneInt t v.b
    let z := laneInt t v.c
    (MayFire (.iadd sat t r) r (immS t) s v → ∃ res, LanesAre t res (fun i => limited t sat (x i + y i)) ∧
      Delivers (.iadd sat t r) s v 1 res (isSet res)) ∧
    (MayFire (.isub sat t r) r (immS t) s v → ∃ res, LanesAre t res (fun i => limited t sat (x i - y i)) ∧
      Delivers (.isub sat t r) s v 1 res (isSet res)) ∧
    (MayFire (.imin t r) r (immS t) s v → ∃ res, LanesAre t res (fun i => if x i ≤ y i then x i else y i) ∧
      Delivers (.imin t r) s v 1 res (isSet res)) ∧
    (MayFire (.imax t r) r (immS t) s v → ∃ res, LanesAre t res (fun i => if x i ≤ y i then y i else x i) ∧
      Delivers (.imax t r) s v 1 res (isSet res)) ∧
    (laneSigned t = true → MayFire (.iabs sat t r) r (immS t) s v →
      ∃ res, LanesAre t res (fun i => limited t sat (if 0 ≤ x i then x i else -x i)) ∧
        Delivers (.iabs sat t r) s v 1 res (isSet res)) ∧
    (MayFire (.imul false t r) r (immS t) s v → ∃ res, LanesAre t res (fun i => x i * y i) ∧
      Delivers (.imul false t r) s v 3 res (isSet res)) ∧
    (laneCount t = 1 → MayFire (.imul true t r) r (immS t) s v → ∃ res, LanesAre t res (fun i => (x i * y i) / 2 ^ 32) ∧
      Delivers (.imul true t r) s v 3 res (isSet res)) ∧
    (laneCount t ≤ 2 → MayFire (.imad sat t r) r (immS t) s v → ∃ res, LanesAre t res (fun i => limited t sat (x i * y i + z i)) ∧
      Delivers (.imad sat t r) s v 3 res (isSet res))

/-- IDOT adds an exact sum of products to a 32-bit accumulator (R122); IADDX adds with a carry in, and its predicate is the carry out or the
signed overflow (R123). IDIV (R124): division by zero, and otherwise the quotient and the remainder, where x = q·y + m, m is smaller than y
in size, and m is zero or has the sign of x; eighteen cycles (R38). -/
def Obligations.WideArithmetic : Prop :=
  (∀ (s : State) (v : View) (r : Rule) (t : Ty) (sat : Bool) (p : BitVec 3),
     (2 ≤ laneCount t → MayFire (.idot sat t r) r .s32 s v →
       let acc : Ty := if laneSigned t then .i32 else .u32
       let sum := laneInt acc v.c 0 + ((List.range (laneCount t)).map fun i => laneInt t v.a i * laneInt t v.b i).sum
       let res := BitVec.ofInt 32 (limited acc sat sum)
       Delivers (.idot sat t r) s v 3 res (isSet res)) ∧
     (∀ c : Int, (c = 0 ∧ ¬Holds v p ∨ c = 1 ∧ Holds v p) →
       (MayFire (.iaddx p .u32 r) r .s32 s v →
         let sum := (v.a.toNat : Int) + v.b.toNat + c
         Delivers (.iaddx p .u32 r) s v 1 (BitVec.ofInt 32 sum) (decide (2 ^ 32 ≤ sum))) ∧
       (MayFire (.iaddx p .i32 r) r .s32 s v →
         let sum := v.a.toInt + v.b.toInt + c
         Delivers (.iaddx p .i32 r) s v 1 (BitVec.ofInt 32 sum) (decide (sum < -2 ^ 31 ∨ 2 ^ 31 - 1 < sum))))) ∧
  (∀ (s : State) (v : View) (r : Rule) (t : Ty), t = .i32 ∨ t = .u32 →
     let x := laneInt t v.a 0
     let y := laneInt t v.b 0
     (y = 0 → MayFire (.idiv false t r) r .s32 s v → Delivers (.idiv false t r) s v 18 0xFFFFFFFF#32 true) ∧
     (y = 0 → MayFire (.idiv true t r) r .s32 s v → Delivers (.idiv true t r) s v 18 v.a (isSet v.a)) ∧
     (y ≠ 0 → ∃ q m : Int, x = q * y + m ∧ m.natAbs < y.natAbs ∧ (0 ≤ x → 0 ≤ m) ∧ (x ≤ 0 → m ≤ 0) ∧
       (MayFire (.idiv false t r) r .s32 s v →
         Delivers (.idiv false t r) s v 18 (BitVec.ofInt 32 q) (isSet (BitVec.ofInt 32 q))) ∧
       (MayFire (.idiv true t r) r .s32 s v →
         Delivers (.idiv true t r) s v 18 (BitVec.ofInt 32 m) (isSet (BitVec.ofInt 32 m)))))

/-- The logic and shift operations, bit by bit or as numbers (R125); the bit counts and bit fields: leading zeros, ones, reversal, extraction
with either extension, insertion (R125, R126). -/
def Obligations.BitwiseOperations : Prop :=
  (∀ (s : State) (v : View) (r : Rule),
     let n := v.b.toNat
     (MayFire (.andw r) r .z s v → ∃ res : Word, (∀ i, i < 32 → res.getLsbD i = (v.a.getLsbD i && v.b.getLsbD i)) ∧
       Delivers (.andw r) s v 1 res (isSet res)) ∧
     (MayFire (.orw r) r .z s v → ∃ res : Word, (∀ i, i < 32 → res.getLsbD i = (v.a.getLsbD i || v.b.getLsbD i)) ∧
       Delivers (.orw r) s v 1 res (isSet res)) ∧
     (MayFire (.xorw r) r .z s v → ∃ res : Word, (∀ i, i < 32 → res.getLsbD i = (v.a.getLsbD i != v.b.getLsbD i)) ∧
       Delivers (.xorw r) s v 1 res (isSet res)) ∧
     (MayFire (.andnw r) r .z s v → ∃ res : Word, (∀ i, i < 32 → res.getLsbD i = (v.a.getLsbD i && !v.b.getLsbD i)) ∧
       Delivers (.andnw r) s v 1 res (isSet res)) ∧
     (MayFire (.shl r) r .z s v → ∃ res : Word, res.toNat = (if n < 32 then v.a.toNat * 2 ^ n % 2 ^ 32 else 0) ∧
       Delivers (.shl r) s v 1 res (isSet res)) ∧
     (MayFire (.shr r) r .z s v → ∃ res : Word, res.toNat = (if n < 32 then v.a.toNat / 2 ^ n else 0) ∧
       Delivers (.shr r) s v 1 res (isSet res)) ∧
     (MayFire (.sar r) r .z s v →
       ∃ res : Word, res.toInt = (if n < 32 then v.a.toInt / 2 ^ n else if v.a.getLsbD 31 then -1 else 0) ∧
         Delivers (.sar r) s v 1 res (isSet res)) ∧
     (MayFire (.rot r) r .z s v → ∃ res : Word, (∀ i, i < 32 → res.getLsbD ((i + n) % 32) = v.a.getLsbD i) ∧
       Delivers (.rot r) s v 1 res (isSet res))) ∧
  (∀ (s : State) (v : View) (r : Rule),
     (MayFire (.clz r) r .s32 s v → ∃ n, n ≤ 32 ∧ (∀ j, j < n → v.a.getLsbD (31 - j) = false) ∧
       (n < 32 → v.a.getLsbD (31 - n) = true) ∧ Delivers (.clz r) s v 1 (BitVec.ofNat 32 n) (decide (n ≠ 0))) ∧
     (MayFire (.popc r) r .s32 s v → ∃ n, n = ((Finset.range 32).filter fun i => v.a.getLsbD i = true).card ∧
       Delivers (.popc r) s v 1 (BitVec.ofNat 32 n) (decide (n ≠ 0))) ∧
     (MayFire (.brev r) r .s32 s v → ∃ res : Word, (∀ i, i < 32 → res.getLsbD (31 - i) = v.a.getLsbD i) ∧
       Delivers (.brev r) s v 1 res (isSet res)) ∧
     (∀ lo w, r.imm.toNat = lo + 32 * w → lo < 32 → 1 ≤ w → lo + w ≤ 32 →
       (∀ signed, MayFire (.bfx signed r) r .s32 s v →
         ∃ res : Word, (∀ i, i < 32 → res.getLsbD i = if i < w then v.a.getLsbD (lo + i) else signed && v.a.getLsbD (lo + w - 1)) ∧
           Delivers (.bfx signed r) s v 1 res (isSet res)) ∧
       (MayFire (.bfi r) r .s32 s v →
         ∃ res : Word, (∀ i, i < 32 → res.getLsbD i = if lo ≤ i ∧ i < lo + w then v.a.getLsbD (i - lo) else v.b.getLsbD i) ∧
           Delivers (.bfi r) s v 1 res (isSet res))))

/-- CNT reads occupancy and credits (R120). SYS returns the system value that its selector names, and reading CYCL latches the counter's high
half (R119); SEED is word 0x10 of the launch record of the gang. LANE, CLEN, and the levels' LIDXn and LEXTn are left to their own definitions. -/
def Obligations.SystemValuesAndOccupancy : Prop :=
  (∀ (s : State) (v : View) (r : Rule),
     (∀ n, n < 4 → r.imm = BitVec.ofNat 16 n → MayFire (.cntCh r) r .s32 s v → ((s.elem v.p).chan n).length ≤ 4 →
       Delivers (.cntCh r) s v 1 (BitVec.ofNat 32 ((s.elem v.p).chan n).length) (decide (((s.elem v.p).chan n) ≠ []))) ∧
     (∀ n, n < 8 → r.imm = BitVec.ofNat 16 n → MayFire (.cntCr r) r .s32 s v → v.x.credits.getD n 0 ≤ 4 →
       Delivers (.cntCr r) s v 1 (BitVec.ofNat 32 (v.x.credits.getD n 0)) (decide (0 < v.x.credits.getD n 0)))) ∧
  (∀ (s : State) (v : View) (r : Rule), MayFire (.sys r) r .s32 s v →
     let t := v.x.el / 16
     let e := v.x.el % 16
     (∀ sel n, (sel, n) ∈ [(0x00, t % 8), (0x01, t / 8 % 16), (0x02, e % 4), (0x03, e / 4), (0x04, v.x.k),
         (0x05, (4 * (t / 8 % 16) + e / 4) * 4 * v.g.wx + 4 * (t % 8) + e % 4), (0x06, v.g.wx), (0x07, v.g.wy), (0x08, v.g.inst),
         (0x0B, if v.x.mode = 1 then 1 else 0), (0x0C, v.x.rcnt.toNat), (0x0D, v.g.lease),
         (0x0E, (((s.gang v.g.gang).map fun g => g.rcd.getD 4 0#32).getD 0#32).toNat), (0x0F, v.x.actor),
         (0x20, s.pkg.cyc.getD (v.r / 512) 0), (0x21, v.x.cych.toNat), (0x22, v.x.rndn.toNat)] →
       r.imm = BitVec.ofNat 16 sel → Delivers (.sys r) s v 1 (BitVec.ofNat 32 n) (isSet (BitVec.ofNat 32 n))) ∧
     (r.imm = 0x20#16 → ∃ u x, exec (.sys r) s = .next u ∧ u.ctx v.f.ctx = some x ∧
       x.cych = BitVec.ofNat 32 (s.pkg.cyc.getD (v.r / 512) 0 / 2 ^ 32)))

/-- NOP, STEER, GATE, CTL, SINK, TAGC and DELAY (R128, R129, R139): what is emitted, on which routes, of which kind and colour. -/
def Obligations.TokenControl : Prop :=
  ∀ (s : State) (v : View) (r : Rule),
    -- NOP writes nothing.
    (MayFire (.nop r) r .z s v → r.dst = none → r.pdst = none → r.om = 0#8 →
      ∃ t : State, exec (.nop r) s = .next t ∧ Commits s t v (needFor s v (.nop r)) false) ∧
    -- STEER reserves and emits only on the mask that the decision selects (R60).
    (∀ m, m = (if v.a = 0#32 then r.imm.extractLsb' 0 8 else r.om) → MayFire (.steer r) r .z s v →
      ∃ t : State, exec (.steer r) s = .next t ∧ Commits s t v { needOf r with om := m } false ∧
        Writes s t v 1 m { res := v.b, pres := isSet v.a, om := m, colour := v.colour }) ∧
    -- GATE: where pass fails, only the predicate is written (R128).
    (∀ onTrue pass, (pass = true ↔ (v.b ≠ 0#32 ↔ onTrue = true)) → MayFire (.gate onTrue r) r .z s v →
      Completes (.gate onTrue r) s v 1 { res := v.a, pres := pass, good := pass, om := r.om, colour := v.colour }) ∧
    (MayFire (.ctl r) r .s32 s v →
      Completes (.ctl r) s v 1 { res := v.a, pres := isSet v.a, om := r.om, control := true, colour := v.colour }) ∧
    (MayFire (.sink r) r .z s v → Delivers (.sink r) s v 1 v.a (isSet v.a)) ∧
    (∀ n k, r.a = .chan n → (s.elem v.p).head n.toNat = some k → MayFire (.sinkTag r) r .z s v →
      Delivers (.sinkTag r) s v 1 (k.tag.setWidth 32) (isSet (k.tag.setWidth 32))) ∧
    (∀ byReg, MayFire (.tagc byReg r) r .s32 s v →
      Completes (.tagc byReg r) s v 1
        { res := v.a, pres := isSet v.a, om := r.om, control := r.imm.getLsbD 4,
          colour := if byReg then v.b.extractLsb' 0 4 else r.imm.extractLsb' 0 4 }) ∧
    (∀ n, n < 256 → r.imm = BitVec.ofNat 16 n → MayFire (.delay r) r .s32 s v → Delivers (.delay r) s v (1 + n) v.a (isSet v.a))

/-- MERGE takes the head of the channel that its control head selects, and pops that and the control head only (R61, R130); SEQ steps a
counter modulo m, true where it wraps (R131); PACK, UNPK and PERM (R132, R133). -/
def Obligations.SequenceAndPacking : Prop :=
  (∀ (s : State) (v : View) (r : Rule),
     (∀ a b c k d, r.a = .chan a → r.b = .chan b → r.c = .chan c → (s.elem v.p).head a.toNat = some k →
       (s.elem v.p).head (if k.payload = 0#32 then c else b).toNat = some d → MayFire (.merge r) r .z s v →
       ∃ t : State, exec (.merge r) s = .next t ∧
         (∀ n : Need, n.dq = (1#4 <<< a.toNat) ||| (1#4 <<< (if k.payload = 0#32 then c else b).toNat) → n.om = r.om →
           Commits s t v n false) ∧
         Writes s t v 1 r.om { res := d.payload, pres := isSet d.payload, om := r.om, colour := d.tag.extractLsb' 4 4 }) ∧
     (∀ m, m = (if r.imm = 0#16 then 2 ^ 32 else r.imm.toNat) →
       let n := v.a.toNat % m
       (MayFire (.seq false r) r .s32 s v →
         Delivers (.seq false r) s v 1 (BitVec.ofNat 32 ((n + 1) % m)) (decide (n = m - 1))) ∧
       (MayFire (.seq true r) r .s32 s v →
         Delivers (.seq true r) s v 1 (BitVec.ofNat 32 ((n + m - 1) % m)) (decide (n = 0))))) ∧
  (∀ (s : State) (v : View) (r : Rule),
     (MayFire (.pack .lo r) r .s32 s v → ∃ res : Word, res.toNat = v.b.toNat % 2 ^ 16 * 2 ^ 16 + v.a.toNat % 2 ^ 16 ∧
       Delivers (.pack .lo r) s v 1 res (isSet res)) ∧
     (MayFire (.pack .hi r) r .s32 s v → ∃ res : Word, res.toNat = v.b.toNat / 2 ^ 16 * 2 ^ 16 + v.a.toNat / 2 ^ 16 ∧
       Delivers (.pack .hi r) s v 1 res (isSet res)) ∧
     (∀ t, t = .i16x2 ∨ t = .u16x2 → MayFire (.pack (.sat t) r) r .s32 s v →
       ∃ res, LanesAre t res (fun i => limited t true (if i = 0 then v.a.toInt else v.b.toInt)) ∧
         Delivers (.pack (.sat t) r) s v 1 res (isSet res)) ∧
     (∀ t i, t ∈ pint → 2 ≤ laneCount t → i < laneCount t → r.imm = BitVec.ofNat 16 i → MayFire (.unpk t r) r .s32 s v →
       ∃ res : Word, res = BitVec.ofInt 32 (laneInt t v.a i) ∧ Delivers (.unpk t r) s v 1 res (isSet res)) ∧
     (MayFire (.perm r) r .s32 s v → ∃ res : Word,
       (∀ i, i < 4 → ∀ n, n = r.imm.toNat / 2 ^ (4 * i) % 16 →
         let byte := res.extractLsb' (8 * i) 8
         (n < 4 → byte = v.a.extractLsb' (8 * n) 8) ∧ (4 ≤ n ∧ n < 8 → byte = v.b.extractLsb' (8 * (n - 4)) 8) ∧
         (n = 8 → byte = 0x00#8) ∧ (n = 9 → byte = 0xFF#8) ∧
         (12 ≤ n → byte = if v.a.getLsbD (8 * (n - 12) + 7) then 0xFF#8 else 0x00#8)) ∧
       Delivers (.perm r) s v 1 res (isSet res)))

/-- TRED: when the last member of a chain fires, every contributor receives the reduction of all contributors' values at the end of the next
cycle; SHUF: each receives the value of the member it names, where that is a contributor, or else its own. The firing of a member that is
not the last writes nothing yet: it joins the exchange of its slot, its destinations in flight (R134, R135). -/
def Obligations.ChainOperations : Prop :=
  (∀ (s : State) (v : View) (r : Rule) (f : TredFn) (prior : List LaneIn) (res : Word),
     MayFire (.tred f r) r .s32 s v → LastMember s v prior →
     Reduces f ((prior.filter fun i => i.wb.isSome).map (fun i => i.v) ++ [v.a]) res →
     ∃ t : State, exec (.tred f r) s = .next t ∧ Commits s t v (needFor s v (.tred f r)) true ∧
       Receives s t v.r s.uid v.f.ctx r.dst r.pdst res ∧
       ∀ i ∈ prior, ∀ w, i.wb = some w → i.want = .red f → Receives s t v.r w.id w.ctx w.dst w.pdst res) ∧
  (∀ (s : State) (v : View) (r : Rule) (f : ShufFn) (prior : List LaneIn) (j : Nat) (res : Word),
     MayFire (.shuf f r) r .s32 s v → LastMember s v prior →
     let m := v.g.laneOf v.x.el v.x.k
     let d := r.imm.toNat % 16
     (match f with
       | .idx => j = v.b.toNat
       | .up => (j + d = m) ∨ (m < d ∧ j = m)
       | .dn => j = m + d
       | .xor => j = Nat.xor m d) →
     (prior.map fun i => i.member).Nodup → (∀ i ∈ prior, i.member ≠ m) →
     (res = v.a ∧ (∀ i ∈ prior, i.wb.isSome = true → i.member ≠ j) ∨ ∃ i ∈ prior, i.wb.isSome = true ∧ i.member = j ∧ res = i.v) →
     ∃ t : State, exec (.shuf f r) s = .next t ∧ Commits s t v (needFor s v (.shuf f r)) true ∧
       Receives s t v.r s.uid v.f.ctx r.dst r.pdst res ∧
       ∀ i ∈ prior, ∀ w jo x, i.wb = some w → i.want = .from_ jo →
         Shuffled (((prior.filter fun y => y.wb.isSome).map fun y => (y.member, y.v)) ++ [(m, v.a)]) jo i.v x →
         Receives s t v.r w.id w.ctx w.dst w.pdst x) ∧
  (∀ (s : State) (v : View) (r : Rule) (want : LaneWant) (ls : List Exch),
     let m := v.g.laneOf v.x.el v.x.k
     let d := r.imm.toNat % 16
     let wb : WB := { id := s.uid, ctx := v.f.ctx, slot := v.f.slot, due := 0, dst := r.dst, pdst := r.pdst, om := r.om,
                      done := { res := v.a, pres := isSet v.a, om := r.om, colour := v.colour } }
     let i : LaneIn := { member := m, v := v.a, want, wb := some wb }
     JoinsLane v i s.fab.lanes ls →
     (∀ f, want = .red f → MayFire (.tred f r) r .s32 s v →
       ∃ t : State, exec (.tred f r) s = .next t ∧ Commits s t v (needFor s v (.tred f r)) true ∧ t.fab.wbs = s.fab.wbs ∧ t.fab.lanes = ls) ∧
     (∀ f, want = .from_ (match f with
         | .idx => some v.b.toNat
         | .up => if d ≤ m then some (m - d) else none
         | .dn => some (m + d)
         | .xor => some (Nat.xor m d)) → MayFire (.shuf f r) r .s32 s v →
       ∃ t : State, exec (.shuf f r) s = .next t ∧ Commits s t v (needFor s v (.shuf f r)) true ∧ t.fab.wbs = s.fab.wbs ∧
         t.fab.lanes = ls))

/-- TRAP and BRK dequeue and trap, in a leader or a lone element; a BRK whose region does not enable breakpoints, and a follower's TRAP or BRK,
only dequeue (R136, R137, R197, R198). RET retires its context: at once where it is direct, at the commit of the round where it is rounded;
registers, predicates and all of memory stand as before, and so do the other contexts (R138). -/
def Obligations.TrapsAndRetirement : Prop :=
  (∀ (s : State) (v : View) (r : Rule),
     (MayFire (.trap r) r .z s v →
       ∃ t : State, exec (.trap r) s = .next t ∧
         (v.f.follower = true → Commits s t v (needOf r) false) ∧
         (v.f.follower = false → Traps s t v (needOf r) 0x0D)) ∧
     (MayFire (.brk r) r .z s v →
       ∃ t : State, exec (.brk r) s = .next t ∧
         (v.f.follower = true ∨ (s.rreg v.r).rdbg.getLsbD 0 = false → Commits s t v (needOf r) false) ∧
         (v.f.follower = false ∧ (s.rreg v.r).rdbg.getLsbD 0 = true → Traps s t v (needOf r) 0x0E))) ∧
  (∀ (s : State) (v : View) (r : Rule), MayFire (.ret r) r .z s v →
     ∃ t x, exec (.ret r) s = .next t ∧ t.ctx v.f.ctx = some x ∧ x.regs = v.x.regs ∧ x.preds = v.x.preds ∧
       (v.x.isRounded = false → x.retired = true) ∧ (v.x.isRounded = true → x.retiring = true ∧ x.retired = v.x.retired) ∧
       t.store = s.store ∧ (∀ c, c ≠ v.f.ctx → t.ctx c = s.ctx c))

/-- FADD, FSUB, FMUL, FFMA, FDOT, FSCL and FLRP deliver the exact real result rounded once, with the special values, the saturation
and the stochastic key of R94 to R103, in every mode, type and lane (R97, R108, R141, R143, R144, R149, R151, R152). -/
def Obligations.ArithmeticRoundsOnce : Prop :=
  ∀ (s : State) (v : View) (r : Rule) (m : Rnd) (t : Ty),
    let rd := decide (m.mode = .rd)
    let x := fpLane t v.a
    let y := fpLane t v.b
    let z := fpLane t v.c
    (t = .f32 ∨ t = .bf16x2 ∨ t = .f16x2 →
      (MayFire (.fadd m t r) r (immF t) s v → ∃ res, LanesRound s v m t res (fun i => Ext.sum rd [x i, y i]) ∧
        Delivers (.fadd m t r) s v 4 res (isSet res)) ∧
      (MayFire (.fsub m t r) r (immF t) s v → ∃ res, LanesRound s v m t res (fun i => Ext.sum rd [x i, (y i).opp]) ∧
        Delivers (.fsub m t r) s v 4 res (isSet res)) ∧
      (MayFire (.fmul m t r) r (immF t) s v → ∃ res, LanesRound s v m t res (fun i => (x i).prod (y i)) ∧
        Delivers (.fmul m t r) s v 4 res (isSet res)) ∧
      (MayFire (.ffma m t r) r (immF t) s v → ∃ res, LanesRound s v m t res (fun i => Ext.sum rd [(x i).prod (y i), z i]) ∧
        Delivers (.ffma m t r) s v 4 res (isSet res)) ∧
      (MayFire (.fscl m t r) r .s32 s v →
        ∃ res, LanesRound s v m t res (fun i => match x i with
            | .fin neg w => .fin neg (w * 2 ^ v.b.toInt)
            | e => e) ∧
          Delivers (.fscl m t r) s v 4 res (isSet res))) ∧
    (t = .bf16x2 ∨ t = .f16x2 ∨ t = .e4m3x4 ∨ t = .e5m2x4 ∨ t = .e2m1x8 → MayFire (.fdot m t r) r .s32 s v →
      ∃ res, LanesRound s v m .f32 res (fun _ =>
          Ext.sum rd (fpLane .f32 v.c 0 :: (List.range (fpLanes t)).map fun i => (x i).prod (y i))) ∧
        Delivers (.fdot m t r) s v 4 res (isSet res)) ∧
    (MayFire (.flrp m r) r .f32 s v →
      let a := fpLane .f32 v.a 0
      let b := fpLane .f32 v.b 0
      let c := fpLane .f32 v.c 0
      ∃ res, LanesRound s v m .f32 res (fun _ => Ext.sum rd [a.prod (Ext.sum false [.fin false 1, c.opp]), b.prod c]) ∧
        Delivers (.flrp m r) s v 4 res (isSet res))


/-- FMIN and FMAX return one operand's bits, −0 below +0, with the two treatments of NaN (R145); FSGN moves sign bits and keeps every
other bit (R146). -/
def Obligations.MinMaxAndSigns : Prop :=
  ∀ (s : State) (v : View) (r : Rule) (t : Ty) (nan : Bool) (f : SgnFn), t = .f32 ∨ t = .bf16x2 ∨ t = .f16x2 →
    let x := fpLane t v.a
    let y := fpLane t v.b
    let below (a b : Ext) : Prop := a.less b = true ∨ (a = .fin true 0 ∧ b = .fin false 0)
    let picks (res : Word) (i : Nat) (takesY : Prop) : Prop :=
      (x i = .nan ∧ y i = .nan → fpCode t res i = (fmtOf t).nan) ∧
      (x i = .nan ∧ y i ≠ .nan → fpCode t res i = if nan then (fmtOf t).nan else fpCode t v.b i) ∧
      (x i ≠ .nan ∧ y i = .nan → fpCode t res i = if nan then (fmtOf t).nan else fpCode t v.a i) ∧
      (x i ≠ .nan ∧ y i ≠ .nan → (takesY → fpCode t res i = fpCode t v.b i) ∧ (¬takesY → fpCode t res i = fpCode t v.a i))
    (MayFire (.fmin nan t r) r (immF t) s v → ∃ res, (∀ i, i < fpLanes t → picks res i (below (y i) (x i))) ∧
      Delivers (.fmin nan t r) s v 4 res (isSet res)) ∧
    (MayFire (.fmax nan t r) r (immF t) s v → ∃ res, (∀ i, i < fpLanes t → picks res i (below (x i) (y i))) ∧
      Delivers (.fmax nan t r) s v 4 res (isSet res)) ∧
    (MayFire (.fsgn f t r) r (immF t) s v → ∃ res : Word, Delivers (.fsgn f t r) s v 4 res (isSet res) ∧
      ∀ n, n < 32 →
        let w := (fmtOf t).bits
        res.getLsbD n =
          if n % w = w - 1 then
            (match f with
              | .copy => v.b.getLsbD n
              | .neg => !v.a.getLsbD n
              | .abs => false
              | .xsgn => v.a.getLsbD n != v.b.getLsbD n)
          else v.a.getLsbD n)

/-- FCMP fills the lanes in which its condition holds with ones, and its predicate says whether it holds in every lane (R147); FCLS gives the
class of each lane, and its predicate whether some lane is NaN (R148). -/
def Obligations.CompareAndClassify : Prop :=
  ∀ (s : State) (v : View) (r : Rule) (t : Ty), t = .f32 ∨ t = .bf16x2 ∨ t = .f16x2 →
    let x := fpLane t v.a
    let y := fpLane t v.b
    let f := fmtOf t
    (∀ (cc : FCond) (h : Nat → Bool),
      (∀ i, i < fpLanes t → h i = match cc with
        | .eq => decide (x i ≠ .nan ∧ y i ≠ .nan) && !(x i).less (y i) && !(y i).less (x i)
        | .ne => decide (x i = .nan ∨ y i = .nan) || (x i).less (y i) || (y i).less (x i)
        | .lt => (x i).less (y i)
        | .le => decide (x i ≠ .nan ∧ y i ≠ .nan) && !(y i).less (x i)
        | .gt => (y i).less (x i)
        | .ge => decide (x i ≠ .nan ∧ y i ≠ .nan) && !(x i).less (y i)
        | .un => decide (x i = .nan ∨ y i = .nan)
        | .ord => decide (x i ≠ .nan ∧ y i ≠ .nan)) →
      MayFire (.fcmp cc t r) r (immF t) s v →
      ∃ res, (∀ i, i < fpLanes t → fpCode t res i = if h i then 2 ^ f.bits - 1 else 0) ∧
        Delivers (.fcmp cc t r) s v 4 res (decide (∀ i, i < fpLanes t → h i = true))) ∧
    (MayFire (.fcls t r) r .s32 s v →
      ∃ res, Delivers (.fcls t r) s v 4 res (decide (∃ i, i < fpLanes t ∧ x i = .nan)) ∧
        ∀ i, i < fpLanes t →
          let c := fpCode t v.a i % 2 ^ (f.bits - 1)
          fpCode t res i = 2 ^ (match x i with
            | .inf neg => if neg then 0 else 7
            | .fin neg w => if w = 0 then (if neg then 3 else 4) else if c < 2 ^ f.m then (if neg then 2 else 5) else (if neg then 1 else 6)
            | .nan => if c / 2 ^ (f.m - 1) % 2 = 1 then 9 else 8))

/-- FCVT converts lanes by RoundTo or to integers, merging into source B where it narrows and selecting lanes where it widens (R99, R114, R153,
R154). FRND rounds each lane to an integral value of its format: NaN gives the canonical NaN, infinities and integral values are unchanged,
and a zero result keeps the operand's sign (R150). -/
def Obligations.ConversionsAndRounding : Prop :=
  (∀ (s : State) (v : View) (r : Rule) (src dst : Ty) (sat : Bool) (mode : RMode) (off code : Nat),
     fcvtPair src dst = true → (mode, code) ∈ [(RMode.rn, 0), (.rz, 1), (.rd, 2), (.ru, 3), (.sr, 4)] → r.imm = BitVec.ofNat 16 (8 * off + code) →
     off < 8 → (anyLanes src < anyLanes dst → off + anyLanes src ≤ anyLanes dst) → (anyLanes dst < anyLanes src → off + anyLanes dst ≤ anyLanes src) →
     (anyLanes src = anyLanes dst → off = 0) → MayFire (.fcvt src dst sat r) r .s32 s v →
     ∃ res : Word, Delivers (.fcvt src dst sat r) s v 4 res (isSet res) ∧
       ∀ i, i < anyLanes dst →
         let c := (res.extractLsb' (anyWidth dst * i) (anyWidth dst)).toNat
         if anyLanes src < anyLanes dst ∧ ¬(off ≤ i ∧ i < off + anyLanes src) then
           c = (v.b.extractLsb' (anyWidth dst * i) (anyWidth dst)).toNat
         else
           let j := if anyLanes src < anyLanes dst then i - off else if anyLanes dst < anyLanes src then off + i else i
           Converts dst mode sat (srValue s v i) (anyLane src v.a j) c) ∧
  (∀ (s : State) (v : View) (r : Rule) (mode : RMode) (t : Ty), t = .f32 ∨ t = .bf16x2 ∨ t = .f16x2 →
     MayFire (.frnd mode t r) r .s32 s v →
     ∃ res, Delivers (.frnd mode t r) s v 4 res (isSet res) ∧
       ∀ i, i < fpLanes t → match fpLane t v.a i with
         | .nan => fpCode t res i = (fmtOf t).nan
         | .inf _ => fpCode t res i = fpCode t v.a i
         | .fin neg x => fpLane t res i = .fin neg (intRound mode (srValue s v i) x))

/-- FSFU: the latency of each function (R155), the special values of R107, the correctly rounded reciprocal, and exact results delivered
exactly (R106, R107). -/
def Obligations.SpecialFunctions : Prop :=
  ∀ (s : State) (v : View) (r : Rule) (f : SfuFn), MayFire (.fsfu f r) r .s32 s v →
    let lat := match f with
      | .rcp | .rsq => 8
      | .sqrt | .exp2 => 10
      | .log2 => 12
      | .sin | .cos => 16
      | .sigm | .tanh => 14
    ∃ res : Word, Delivers (.fsfu f r) s v lat res (isSet res) ∧
      match fpLane .f32 v.a 0 with
      | .nan => res = 0x7FC00000#32
      | .inf neg => res = (match f with
          | .rcp => if neg then 0x80000000#32 else 0#32
          | .rsq => if neg then 0x7FC00000#32 else 0#32
          | .sqrt | .log2 => if neg then 0x7FC00000#32 else 0x7F800000#32
          | .exp2 => if neg then 0#32 else 0x7F800000#32
          | .sin | .cos => 0x7FC00000#32
          | .sigm => if neg then 0#32 else 0x3F800000#32
          | .tanh => if neg then 0xBF800000#32 else 0x3F800000#32)
      | .fin neg x =>
        if x = 0 then
          res = (match f with
            | .rcp | .rsq => if neg then 0xFF800000#32 else 0x7F800000#32
            | .sqrt | .sin | .tanh => if neg then 0x80000000#32 else 0#32
            | .exp2 | .cos => 0x3F800000#32
            | .log2 => 0xFF800000#32
            | .sigm => 0x3F000000#32)
        else
          (f = .rcp → RoundsTo fp32 .rn false 0 (1 / x) res.toNat) ∧
          ((f = .rsq ∨ f = .sqrt ∨ f = .log2) ∧ neg = true → res = 0x7FC00000#32) ∧
          (∀ y : ℚ, 0 < y → f = .sqrt → x = y * y → fpLane .f32 res 0 = .fin false y) ∧
          (∀ n : Int, -149 ≤ n → n ≤ 127 → f = .exp2 → x = n → fpLane .f32 res 0 = .fin false (2 ^ n)) ∧
          (∀ n : Int, f = .log2 → x = 2 ^ n → fpLane .f32 res 0 = .fin (decide (n < 0)) n)

/-- FXQ.scale gives a block's scale code, and FXQ.q quantises against one and shifts the element in (R105, R156, R157). -/
def Obligations.BlockQuantisation : Prop :=
  ∀ (s : State) (v : View) (r : Rule) (t : Ty) (emax : Int), (t, emax) ∈ [(Ty.e4m3x4, 8), (.e5m2x4, 15), (.e2m1x8, 2)] →
    (MayFire (.fxqScale t r) r .s32 s v →
      ∃ res : Word, Delivers (.fxqScale t r) s v 4 res (isSet res) ∧
        match fpLane .f32 v.a 0 with
        | .fin _ x =>
          if x = 0 then res = 0x7F#32
          else ∃ n : Int, (2 : ℚ) ^ n ≤ |x| ∧ |x| < 2 ^ (n + 1) ∧ (res.toNat : Int) = max (-127) (min 127 (n - emax)) + 127
        | _ => res = 0xFF#32) ∧
    (MayFire (.fxqQ t r) r .s32 s v →
      let n := v.b.toNat % 256
      let w := (fmtOf t).bits
      ∃ (res : Word) (e : Nat), Delivers (.fxqQ t r) s v 4 res (isSet res) ∧
        res.toNat = v.c.toNat / 2 ^ w + e * 2 ^ (32 - w) ∧
        (n = 0xFF → e = if t = .e4m3x4 then 0x7F else if t = .e5m2x4 then 0x7E else 0) ∧
        (n ≠ 0xFF → Rounded (fmtOf t) .rn true 0 (match fpLane .f32 v.a 0 with
          | .fin neg x => .fin neg (x / 2 ^ ((n : Int) - 127))
          | z => z) e))


-- Global memory.

/-- LD reads the bytes that its context sees and widens them; LD.S answers as LD does, or with 0 and false where a check, translation or
the data fails it; a load with no destination is a prefetch and only dequeues. Memory stands as before, where the line has room (R183, R208,
R209, R210). A load waits for an earlier access of its context to the sector and for a link that retrains (R204, R423); that it is performed
at its firing otherwise is log 8. -/
def Obligations.Loads : Prop :=
  ∀ (s : State) (v : View) (r : Rule) (sz : Size) (t : Ty), t = .i32 ∨ t = .u32 → Fresh s →
    let n := bytesOf sz
    let prefetch : Prop := r.dst = none ∧ r.pdst = none ∧ r.om = 0#8
    let gives (u : State) (loc : Nat) (res : Word) : Prop :=
      Widened (laneSigned t) n (fun i => u.readByte (coreOf v.r) v.x.isRounded (loc + i)) res
    (∀ u loc, ¬prefetch → MayFire (.ld sz t r) r .s32 s v → Reaches s v n false false true false false loc u →
      let acq := v.rule.imm.getLsbD 7
      (Unhindered u v.r loc → AtOnce u v (vaOf v n) loc →
        ∃ t' res, exec (.ld sz t r) s = .next t' ∧ gives u loc res ∧
          (∃ q ∈ t'.fab.reqs, Request u v q true acq (replies v res (isSet res))) ∧
          (Room u (clusterOf v.r) loc → t'.store = { u.store with copies := t'.store.copies } ∧
            Asks u t' v (needFor s v (.ld sz t r)) true true acq (replies v res (isSet res)))) ∧
      (¬AtOnce u v (vaOf v n) loc →
        ∃ t' a, exec (.ld sz t r) s = .next t' ∧ a.va = vaOf v n ∧ a.loc = loc ∧ t'.store = u.store ∧
          Asks u t' v (needFor s v (.ld sz t r)) true true acq (.held a))) ∧
    (prefetch → MayFire (.ld sz t r) r .s32 s v →
      ∃ t', exec (.ld sz t r) s = .next t' ∧ Commits s t' v (needOf r) false) ∧
    (MayFire (.ldS sz t r) r .s32 s v →
      let need := needFor s v (.ldS sz t r)
      (∀ u loc, Reaches s v n false false true false true loc u →
        (Unhindered u v.r loc → AtOnce u v (vaOf v n) loc → ∃ t' res, exec (.ldS sz t r) s = .next t' ∧ gives u loc res ∧
          (∃ q ∈ t'.fab.reqs, Request u v q true false (replies v res true)) ∧
          (Room u (clusterOf v.r) loc → t'.store = { u.store with copies := t'.store.copies } ∧
            Asks u t' v need true true false (replies v res true))) ∧
        (¬AtOnce u v (vaOf v n) loc → ∃ t' a, exec (.ldS sz t r) s = .next t' ∧ a.va = vaOf v n ∧ a.loc = loc ∧ t'.store = u.store ∧
          Asks u t' v need true true false (.held a)) ∧
        -- Bad data, or a failed link, is counted with the die's errors.
        (¬Unhindered u v.r loc → u.allHeld (coreOf v.r) v.x.isRounded loc n = false → AtOnce u v (vaOf v n) loc →
          ∃ w t', exec (.ldS sz t r) s = .next t' ∧ w.store = u.store ∧
          Asks u w v need true true false (replies v 0#32 false) ∧
          t' = { w with pkg := { w.pkg with errors := w.pkg.errors.alter (dieOf v.r) 0 (· + 1) } })) ∧
      (¬InWindow v n false false →
        ∃ t', exec (.ldS sz t r) s = .next t' ∧ t'.store = s.store ∧ Asks s t' v need true true false (replies v 0#32 false)) ∧
      -- While a link on the way of the walk retrains, the firing is not made (R423).
      (InWindow v n false false → (s.xlate (v.ask s (vaOf v n) true false true)).1 = .deny .wait → exec (.ldS sz t r) s = .next s) ∧
      (InWindow v n false false → ∀ u x, s.xlate (v.ask s (vaOf v n) true false true) = (x, u) → (∀ loc, x ≠ .ok loc) → x ≠ .deny .wait →
        ∃ t', exec (.ldS sz t r) s = .next t' ∧ t'.store = u.store ∧ Asks u t' v need true true false (replies v 0#32 false)))

/-- ST writes the low bytes of source B: at once into its cluster's cache, at the home after the cluster's write-back where it is a wide
release, or into the store buffer in a rounded context; a store waits as a load does (R182, R204, R211, R289, R290, R423). -/
def Obligations.Stores : Prop :=
  ∀ (s u : State) (v : View) (r : Rule) (sz : Size) (loc : Nat), Fresh s →
    let n := bytesOf sz
    let need := needFor s v (.st sz r)
    let cl := clusterOf v.r
    MayFire (.st sz r) r .s32 s v → Reaches s v n false true false true false loc u →
    (v.x.isRounded = false → wideRelease v = false → u.cut (dieOf v.r) (homeDie loc) = none → AtOnce u v (vaOf v n) loc →
      ∃ t : State, exec (.st sz r) s = .next t ∧ (∃ q ∈ t.fab.reqs, Request u v q false (v.rule.imm.getLsbD 7) .ack) ∧
        (∀ i, i < n → t.clusterByte cl (loc + i) = v.b.extractLsb' (8 * i) 8) ∧
        (Room u cl loc → Asks u t v need true false (v.rule.imm.getLsbD 7) .ack ∧
          (∀ c a, a < 2 ^ 40 → t.clusterByte c a =
            if c = cl ∧ loc ≤ a ∧ a < loc + n then v.b.extractLsb' (8 * (a - loc)) 8 else u.clusterByte c a) ∧
          t.store = { u.store with dirty := t.store.dirty, copies := t.store.copies })) ∧
    (v.x.isRounded = false → wideRelease v = false → ¬AtOnce u v (vaOf v n) loc →
      ∃ t a, exec (.st sz r) s = .next t ∧ a.op = .st ∧ a.va = vaOf v n ∧ a.loc = loc ∧ a.b = v.b ∧ t.store = u.store ∧
        Asks u t v need true false (v.rule.imm.getLsbD 7) (.held a)) ∧
    (v.x.isRounded = false → wideRelease v = true →
      ∃ t w a, exec (.st sz r) s = .next t ∧ Asks u t v need true false (v.rule.imm.getLsbD 7) (.wide w (.access a)) ∧
        a.op = .st ∧ a.loc = loc ∧ a.va = vaOf v n ∧ a.size = n ∧ a.b = v.b ∧ a.wide = true ∧
        t.store = { u.store with wides := u.store.wides ++ [{ id := w, lines := u.dirtyLines cl, for_ := .req u.uid }] }) ∧
    (v.x.isRounded = true →
      ∃ t : State, exec (.st sz r) s = .next t ∧
        HeldIn u t v need 16 fun h => h = .st loc (vaOf v n) (natLe n v.b.toNat) (wideRelease v))

/-- The word atomics, AMAX.u64 and ACAS act on what their cluster sees, at the home, in one step, and return what R212, R213 and R215
give; every other byte stands. A release at .die or wider waits for its cluster's write-back first, and any for an earlier access to the
sector and for a link that retrains (R203, R204, R288, R290, R423). That an atomic is performed at its firing otherwise is log 8, the
model's choice. -/
def Obligations.Atomics : Prop :=
  ∀ (s u : State) (v : View) (r : Rule) (t : Ty) (loc : Nat), t = .i32 ∨ t = .u32 → s.memoryOk → Fresh s →
    let acq := v.rule.imm.getLsbD 7
    let cl := clusterOf v.r
    let m : Word := BitVec.ofNat 32 (clusterNat u cl loc 4)
    let less (x y : Word) : Bool := if t = .i32 then decide (x.toInt < y.toInt) else decide (x.toNat < y.toNat)
    (∀ i new, (i, new) ∈ [(Instr.aadd t r, m + v.b), (.amin t r, if less v.b m then v.b else m), (.amax t r, if less m v.b then v.b else m),
        (.aand t r, m &&& v.b), (.aor t r, m ||| v.b), (.axor t r, m ^^^ v.b), (.aswap t r, v.b)] →
      MayFire i r .s32 s v → Reaches s v 4 true true true true false loc u → Unhindered u v.r loc → wideRelease v = false →
      AtOnce u v (vaOf v 4) loc →
      ∃ t', exec i s = .next t' ∧ AsksHome u t' v (needFor s v i) true true acq (replies v m (isSet m)) ∧
        WritesHome u t' cl loc 4 new.toNat) ∧
    (MayFire (.acas r) r .s32 s v → Reaches s v 4 true true true true false loc u → Unhindered u v.r loc → wideRelease v = false →
      AtOnce u v (vaOf v 4) loc →
      ∃ t', exec (.acas r) s = .next t' ∧ AsksHome u t' v (needFor s v (.acas r)) true true acq (replies v m (decide (m = v.b))) ∧
        WritesHome u t' cl loc 4 (if m = v.b then v.c else m).toNat) ∧
    (MayFire (.amaxU64 r) r .s32 s v → Reaches s v 8 true true true true false loc u → Unhindered u v.r loc → wideRelease v = false →
      AtOnce u v (vaOf v 8) loc →
      let old := clusterNat u cl loc 8
      let new := v.c.toNat * 2 ^ 32 + v.b.toNat
      ∃ t', exec (.amaxU64 r) s = .next t' ∧
        AsksHome u t' v (needFor s v (.amaxU64 r)) true true acq
          (if old < new then replies v 1#32 true else replies v 0#32 false) ∧
        WritesHome u t' cl loc 8 (max old new)) ∧
    (∀ i size kind, globalForm i = some (kind, size, true, true, true, true) → (∀ q, i ≠ .axaddF32 q) → (∃ fm, i.form = some (fm, r)) →
      MayFire i r .s32 s v → Reaches s v size true true true true false loc u →
      (wideRelease v = true →
        ∃ t' w a, exec i s = .next t' ∧ Asks u t' v (needFor s v i) true true acq (.wide w (.access a)) ∧ a.loc = loc ∧ a.size = size ∧
          a.wide = true ∧
          t'.store = { u.store with wides := u.store.wides ++ [{ id := w, lines := u.dirtyLines cl, for_ := .req u.uid }] }) ∧
      (wideRelease v = false → ¬AtOnce u v (vaOf v size) loc →
        ∃ t' a, exec i s = .next t' ∧ Asks u t' v (needFor s v i) true true acq (.held a) ∧ a.loc = loc ∧ a.va = vaOf v size ∧
          t'.store = u.store))

/-- AXADD.F32 adds an FP32 value to an XS256 sector, exactly modulo 2^256, or faults outside the limits; XRD delivers the sector's value
rounded once, and XRD.clr also clears it (R111 to R113, R214, R216). That they are performed at their firing, where nothing makes them
wait, is log 8, the model's choice. -/
def Obligations.ExactSums : Prop :=
  ∀ (s u : State) (v : View) (r : Rule) (loc : Nat), s.memoryOk → Fresh s →
    let acq := v.rule.imm.getLsbD 7
    let cl := clusterOf v.r
    let sum := clusterNat u cl loc 32
    let reads (n : Nat) (res : Word) : Prop :=
      Rounded fp32 .rn false 0 (.fin (decide (2 ^ 255 ≤ n)) ((if n < 2 ^ 255 then (n : ℚ) else (n : ℚ) - 2 ^ 256) / 2 ^ 128)) res.toNat
    (MayFire (.axaddF32 r) r .s32 s v → Reaches s v 32 true true true true false loc u →
      match fpLane .f32 v.b 0 with
      | .fin neg x =>
        (|x| < 2 ^ 126 → Unhindered u v.r loc → wideRelease v = false → AtOnce u v (vaOf v 32) loc →
          ∃ (t : State) (new : Nat), exec (.axaddF32 r) s = .next t ∧
            AsksHome u t v (needFor s v (.axaddF32 r)) true true acq (replies v v.b (isSet v.b)) ∧
            (new : Int) = (sum + (if neg then -⌊|x| * 2 ^ 128⌋ else ⌊|x| * 2 ^ 128⌋)) % 2 ^ 256 ∧ WritesHome u t cl loc 32 new) ∧
        (2 ^ 126 ≤ |x| → ∃ t : State, exec (.axaddF32 r) s = .next t ∧ Faults u t v 0x13 [] (vaOf v 32))
      | _ => ∃ t : State, exec (.axaddF32 r) s = .next t ∧ Faults u t v 0x13 [] (vaOf v 32)) ∧
    (MayFire (.xrdClr r) r .s32 s v → Reaches s v 32 true true true true false loc u → Unhindered u v.r loc → wideRelease v = false →
      AtOnce u v (vaOf v 32) loc →
      ∃ t res, exec (.xrdClr r) s = .next t ∧ reads sum res ∧
        AsksHome u t v (needFor s v (.xrdClr r)) true true acq (replies v res (isSet res)) ∧ WritesHome u t cl loc 32 0) ∧
    (MayFire (.xrd r) r .s32 s v → Reaches s v 32 true false true false false loc u → Unhindered u v.r loc → AtOnce u v (vaOf v 32) loc →
      let n := if v.x.isRounded then ((List.range 32).map fun i => (u.readByte (coreOf v.r) true (loc + i)).toNat * 256 ^ i).sum else sum
      ∃ t res, exec (.xrd r) s = .next t ∧ reads n res ∧
        AsksHome u t v (needFor s v (.xrd r)) true true acq (replies v res (isSet res)) ∧ WritesHome u t cl loc 32 sum)

/-- The checks of a global access, in their order: the first that fails cancels the firing and freezes the element, or voids the round, with
the record's class, layout and address as R198 and R202 give. -/
def Obligations.AccessChecks : Prop :=
  ∀ (s : State) (v : View) (i : Instr) (r : Rule) (kind size : Nat) (aligned limited rd wr : Bool),
    globalForm i = some (kind, size, aligned, limited, rd, wr) → (∃ fm, i.form = some (fm, r)) →
    (∀ sz t, i = .ld sz t r → ¬(r.dst = none ∧ r.pdst = none ∧ r.om = 0#8)) → MayFire i r .s32 s v →
    let w := winOf v
    let off := offOf v size
    let va := vaOf v size
    let log2 := if size = 32 then 5 else size / 2 - size / 8
    let head : List Byte := [BitVec.ofNat 8 kind, BitVec.ofNat 8 log2, BitVec.ofNat 8 (r.imm.toNat / 2 ^ 12), 0#8] ++ natLe 4 off
    let info (level cause : Nat) : List Byte := head ++ [BitVec.ofNat 8 level, BitVec.ofNat 8 cause, 0#8]
    if w.v = false ∨ w.limit < off + size - 1 then
      ∃ t : State, exec i s = .next t ∧
        Faults s t v 0x03 ([BitVec.ofNat 8 kind, 0#8, BitVec.ofNat 8 (r.imm.toNat / 2 ^ 12), 0#8] ++ natLe 4 off ++ natLe 4 w.limit) 0
    else if 32 < va % 32 + size ∨ (aligned = true ∧ va % size ≠ 0) then ∃ t : State, exec i s = .next t ∧ Faults s t v 0x04 (info 0 0) va
    else if limited = true ∧ w.ro = true then ∃ t : State, exec i s = .next t ∧ Faults s t v 0x02 (info 0xFF 3) va
    else if 2 ^ 56 ≤ va then ∃ t : State, exec i s = .next t ∧ Faults s t v 0x01 (info 0xFF 1) va
    else
      -- A link on the way of the walk has failed; while one retrains the firing is not made (R423, R424).
      (∀ l u, s.xlate (v.ask s va rd wr false) = (.deny (.link l), u) →
        ∃ t : State, exec i s = .next t ∧ Faults u t v 0x12 [BitVec.ofNat 8 l] va) ∧
      ((s.xlate (v.ask s va rd wr false)).1 = .deny .wait → exec i s = .next s) ∧
      (∀ cls level cause u, s.xlate (v.ask s va rd wr false) = (.deny (.fault cls level cause), u) →
        ∃ t : State, exec i s = .next t ∧ Faults u t v cls (info level cause) va) ∧
      ∀ code u, s.xlate (v.ask s va rd wr false) = (.deny (.bad code), u) →
        ∃ t : State, exec i s = .next t ∧ Faults u t v 0x0B [BitVec.ofNat 8 kind, BitVec.ofNat 8 code] va

-- Scratchpad, tile store and rings.

/-- LDS, STS, TRD, TWR and TCPY on scratchpad and the tile store, in both modes, and their checks (R183, R219, R228 to R232): a read of the
round set takes held bytes first; a direct TCPY moves a row in a cycle that no sweep beat takes. The limit in INFO 0x28 of a window-limit
record is log 68, the layout of a malformed TCPY's record is log 51, and what a TCPY under way keeps waiting is log 84: the model's choices. -/
def Obligations.LocalStorage : Prop :=
  ∀ (s : State) (v : View) (r : Rule), s.memoryOk →
    (∀ sz, let n := bytesOf sz
      let buf := r.imm.toNat / 2 ^ 10
      let off := v.a.toNat + r.imm.toNat % 2 ^ 10 * n
      let key := v.g.spadKey buf off
      (∀ t, t = .i32 ∨ t = .u32 → MayFire (.lds sz t r) r .s32 s v → off + n ≤ v.g.bufSize buf → off % n = 0 →
        s.spadReadBad (coreOf v.r) v.x.isRounded key n = false →
        ∃ t' res, exec (.lds sz t r) s = .next t' ∧
          Widened (laneSigned t) n (fun i => s.spadByte (coreOf v.r) v.x.isRounded (key + i)) res ∧ t'.store = s.store ∧
          Asks s t' v (needFor s v (.lds sz t r)) true true false (replies v res (isSet res))) ∧
      (MayFire (.sts sz r) r .s32 s v → off + n ≤ v.g.bufSize buf → off % n = 0 →
        ∃ t : State, exec (.sts sz r) s = .next t ∧
          (v.x.isRounded = false → SpadBytes s t key n v.b.toNat ∧ Asks s t v (needFor s v (.sts sz r)) false false false .ack) ∧
          (v.x.isRounded = true → HeldIn s t v (needFor s v (.sts sz r)) 16 fun h => h = .spad key (natLe n v.b.toNat))) ∧
      (∀ i kind, (i, kind) ∈ [(Instr.lds sz .i32 r, 0), (.lds sz .u32 r, 0), (.sts sz r, 1)] → MayFire i r .s32 s v →
        (v.g.bufSize buf < off + n → ∃ t : State, exec i s = .next t ∧
          Faults s t v 0x03 ([BitVec.ofNat 8 kind, 1#8, BitVec.ofNat 8 buf, 0#8] ++ natLe 4 off ++ natLe 4 (v.g.bufSize buf - 1)) 0) ∧
        (off + n ≤ v.g.bufSize buf → off % n ≠ 0 → ∃ t : State, exec i s = .next t ∧
          Faults s t v 0x04 ([BitVec.ofNat 8 kind, BitVec.ofNat 8 (n / 2), BitVec.ofNat 8 buf, 0#8] ++ natLe 4 off ++ [0#8, 0#8, 0#8]) 0))) ∧
    (let row := v.a.toNat % 256
      let key := v.g.rowKey (v.x.el / 16) row (v.a.toNat / 256 % 32)
      let held : Option Word := s.newest (coreOf v.r) fun h => match h with
        | .twr k w => if k = key then some w else none
        | _ => none
      (∀ w, MayFire (.trd r) r .z s v → v.a.toNat < 2 ^ 13 → row < v.g.rows → v.x.isRounded = true → held = some w →
        Delivers (.trd r) s v 3 w (isSet w)) ∧
      (MayFire (.trd r) r .z s v → v.a.toNat < 2 ^ 13 → row < v.g.rows → v.x.isRounded = false ∨ held = none →
        (s.storeBusy (key / 8192) = false → s.tsBad key = false → Delivers (.trd r) s v 3 (s.tsWord key) (isSet (s.tsWord key))) ∧
        -- A sweep's beat uses the store in this cycle: the access waits a cycle (R230).
        (s.storeBusy (key / 8192) = true → s.tsBad key = false → ∃ t : State, exec (.trd r) s = .next t ∧
          ∃ b ∈ t.fab.wbs, b.id = s.uid ∧ b.due + 1 = s.regionClk v.r + 4 ∧ b.port = some key)) ∧
      (MayFire (.twr r) r .z s v → v.a.toNat < 2 ^ 13 → row < v.g.rows →
        ∃ t : State, exec (.twr r) s = .next t ∧
          (v.x.isRounded = false → s.storeBusy (key / 8192) = false → (∀ k, t.tsWord k = if k = key then v.b else s.tsWord k) ∧
            t.store = { s.store with tstore := t.store.tstore } ∧ Asks s t v (needFor s v (.twr r)) false false false .ack) ∧
          (v.x.isRounded = false → s.storeBusy (key / 8192) = true → t.store = s.store ∧
            Asks s t v (needFor s v (.twr r)) false false false (.store key v.b)) ∧
          (v.x.isRounded = true → HeldIn s t v (needFor s v (.twr r)) 16 fun h => h = .twr key v.b)) ∧
      (∀ i kind, (i, kind) ∈ [(Instr.trd r, 0), (.twr r, 1)] → MayFire i r .z s v → v.g.rows ≤ row ∨ 2 ^ 13 ≤ v.a.toNat →
        ∃ t : State, exec i s = .next t ∧
          Faults s t v 0x03 ([BitVec.ofNat 8 kind, 2#8, 0#8, 0#8] ++ natLe 4 v.a.toNat ++ natLe 4 (v.g.rows - 1)) 0)) ∧
    -- TCPY: row, number of rows and direction in source A; buffer and offset in source B.
    (let count := v.a.toNat / 2 ^ 8 % 2 ^ 9
      let row := v.a.toNat % 2 ^ 8
      let buf := v.b.toNat / 2 ^ 23 % 2 ^ 6
      let off := v.b.toNat % 2 ^ 17
      let reserved : Prop := v.a.toNat / 2 ^ 17 % 2 ^ 14 ≠ 0 ∨ v.b.toNat / 2 ^ 29 ≠ 0 ∨ v.b.toNat / 2 ^ 17 % 2 ^ 6 ≠ 0
      MayFire (.tcpy r) r .z s v → ∃ t : State, exec (.tcpy r) s = .next t ∧
        if v.g.rows < row + count then
          Faults s t v 0x03 ([6#8, 2#8, 0#8, 0#8] ++ natLe 4 v.a.toNat ++ natLe 4 (v.g.rows - 1)) 0
        else if v.g.bufs.length ≤ buf ∨ v.g.bufSize buf < off + 128 * count then
          Faults s t v 0x03 ([6#8, 1#8, BitVec.ofNat 8 buf, 0#8] ++ natLe 4 off ++ natLe 4 (v.g.bufSize buf - 1)) 0
        else if reserved ∨ count = 0 ∨ 256 < count ∨ off % 16 ≠ 0 then
          Faults s t v 0x0F ([0x5E#8, 0xFF#8, 0xFF#8, 0xFF#8] ++ natLe 4 0 ++ natLe 4 v.b.toNat ++ natLe 4 0) 0
        else
          (v.x.isRounded = true → HeldIn s t v (needFor s v (.tcpy r)) 32 fun h => h = .tcpy v.a v.b) ∧
          (v.x.isRounded = false → t.store = s.store ∧ Asks s t v (needFor s v (.tcpy r)) true true false
            (.tcpy (128 * count) (v.a.getLsbD 31) count (v.g.rowKey (v.x.el / 16) row 0) (v.g.spadKey buf off)))) ∧
    -- The next row of a TCPY under way; after the last it replies.
    (∀ id q n into left row buf, s.req id = some q → q.stage = .tcpy n into left row buf →
      let t := s.tcpyGo id
      (s.storeBusy (row / 8192) = true → t = s) ∧
      (s.storeBusy (row / 8192) = false → s.store.badWords = [] →
        t = { s with store := t.store, fab := { s.fab with reqs := t.fab.reqs } } ∧
        (left ≤ 1 → t.req id = some { q with stage := replyOf q (BitVec.ofNat 32 n) true }) ∧
        (1 < left → t.req id = some { q with stage := .tcpy n into (left - 1) (row + 32) (buf + 128) }) ∧
        (into = true → t.store = { s.store with tstore := t.store.tstore } ∧
          (∀ c, c < 32 → t.tsWord (row + c) = leWord (cellsAt s.store.spad (buf + 4 * c) 4)) ∧
          ∀ k, k < row ∨ row + 32 ≤ k → t.tsWord k = s.tsWord k) ∧
        (into = false → t.store = { s.store with spad := t.store.spad } ∧
          (∀ c, c < 32 → leWord (cellsAt t.store.spad (buf + 4 * c) 4) = s.tsWord (row + c)) ∧
          ∀ a, a < buf ∨ buf + 128 ≤ a → cellAt t.store.spad a = cellAt s.store.spad a)))

/-- RPUSH and RPOP move a ring on, park where it is full or empty, or answer at once where they are .try forms; a brake turns them away; a
parked request is served when the ring lets it (R167, R184, R220 to R222, R382). -/
def Obligations.Rings : Prop :=
  ∀ (s : State) (v : View) (r : Rule) (rr n : Nat) (x : Ring), s.memoryOk → s.ringOf v.r r.imm.toNat = (rr, n) → s.ring rr n = some x →
    let set := if v.x.isRounded then some v.r else none
    let full := decide ((ringTail x set - ringBase x set).toNat = x.cap)
    let empty := decide (ringTail x set = ringHead x set)
    let keyOf (w : Word) := s.entryKey rr x w
    (∀ i try_, (i, try_) ∈ [(Instr.rpush r, false), (.rpushTry r, true)] → MayFire i r .s32 s v → v.g.brake = none →
      s.parkedOn rr n true = [] →
      ∃ t : State, exec i s = .next t ∧
        (full = false → AsksAnd s t v (needFor s v i) true false false
          (if try_ then replies v 1#32 true else replies v (ringTail x set) true)
          fun c t => RingMoves c t rr n (Advances set true) ∧ SpadBytes s t (keyOf (ringTail x set)) 4 v.a.toNat) ∧
        (full = true → try_ = true → Asks s t v (needFor s v i) true false false (replies v 0#32 false) ∧ t.store = s.store) ∧
        (full = true → try_ = false → Asks s t v (needFor s v i) true false false (.parked (.push rr n v.a)) ∧ t.store = s.store)) ∧
    (∀ i try_, (i, try_) ∈ [(Instr.rpop r, false), (.rpopTry r, true)] → MayFire i r .s32 s v → v.g.brake = none →
      s.parkedOn rr n false = [] →
      ∃ t : State, exec i s = .next t ∧
        (empty = false → s.spadReadBad (coreOf v.r) v.x.isRounded (keyOf (ringHead x set)) 4 = false →
          ∃ res, Widened false 4 (fun i => s.spadByte (coreOf v.r) v.x.isRounded (keyOf (ringHead x set) + i)) res ∧
            AsksAnd s t v (needFor s v i) true true false (replies v res true)
              fun c t => RingMoves c t rr n (Advances set false) ∧ t.store = s.store) ∧
        (empty = true → try_ = true → Asks s t v (needFor s v i) true true false (replies v 0#32 false) ∧ t.store = s.store) ∧
        (empty = true → try_ = false → Asks s t v (needFor s v i) true true false (.parked (.pop rr n)) ∧ t.store = s.store)) ∧
    (∀ i pop, (i, pop) ∈ [(Instr.rpush r, false), (.rpushTry r, false), (.rpop r, true), (.rpopTry r, true)] → MayFire i r .s32 s v →
      v.g.brake.isSome = true →
      ∃ t : State, exec i s = .next t ∧ t.store = s.store ∧ Asks s t v (needFor s v i) true pop false (replies v 1#32 false)) ∧
    (∀ q w rest, s.parkedOn rr n true = q :: rest → q.stage = .parked (.push rr n w) →
      let set := if q.org.rounded then some q.org.ctx.region else none
      (ringTail x set - ringBase x set).toNat ≠ x.cap →
      ∃ t c, exec (.ringParkedServe rr n) s = .next t ∧ RingMoves s c rr n (Advances set true) ∧
        SpadBytes s c (s.entryKey rr x (ringTail x set)) 4 w.toNat ∧
        t = c.updReq q.id fun y => { y with stage := .reply { res := ringTail x set, pres := true, om := q.om, colour := q.colour } }) ∧
    -- A parked reader is served where no parked writer can be.
    (∀ q rest, (∀ p w ps, s.parkedOn rr n true = p :: ps → p.stage = .parked (.push rr n w) →
        let set := if p.org.rounded then some p.org.ctx.region else none
        (ringTail x set - ringBase x set).toNat = x.cap) →
      s.parkedOn rr n false = q :: rest →
      let set := if q.org.rounded then some q.org.ctx.region else none
      let core := coreOf q.org.ctx.region
      let key := s.entryKey rr x (ringHead x set)
      ringTail x set ≠ ringHead x set → s.spadReadBad core q.org.rounded key 4 = false →
      ∃ t c res, exec (.ringParkedServe rr n) s = .next t ∧ RingMoves s c rr n (Advances set false) ∧ c.store = s.store ∧
        Widened false 4 (fun i => s.spadByte core q.org.rounded (key + i)) res ∧
        t = c.updReq q.id fun y => { y with stage := replyOf q res true })

/-- WAITA tests the word at its home and answers, or parks until a write makes its condition hold, its time runs out or it wakes
spuriously; FENCE stays outstanding, after a wide release where it is one, and in a direct context later memory firings wait for it whatever its
ORD (R205, R290, R292, R293, R319). -/
def Obligations.WaitsAndFences : Prop :=
  ∀ (s : State) (v : View) (r : Rule), s.memoryOk → Fresh s →
    let acq := v.rule.imm.getLsbD 7
    let cl := clusterOf v.r
    (∀ u loc eq, MayFire (.waita eq r) r .s32 s v → Reaches s v 4 true true true false false loc u → Unhindered u v.r loc →
      AtOnce u v (vaOf v 4) loc →
      let m : Word := BitVec.ofNat 32 (clusterNat u cl loc 4)
      let met : Prop := m = v.b ↔ eq = true
      ∃ t : State, exec (.waita eq r) s = .next t ∧ (met → WritesHome u t cl loc 4 m.toNat ∧
          AsksHome u t v (needFor s v (.waita eq r)) true true acq (replies v m true)) ∧
        (¬met → (u.waiting cl).length < 4096 → WritesHome u t cl loc 4 m.toNat ∧ ∃ a, a.op = .waita eq ∧ a.loc = loc ∧ a.a = v.b ∧
          AsksHome u t v (needFor s v (.waita eq r)) true true acq (.parked (.waita a (u.regionClk v.r + 2 ^ u.wtx cl) none)))) ∧
    (∀ id q a tm, s.req id = some q →
      let answer (u : State) (w : Word) (p : Bool) : State :=
        u.updReq id fun y => { y with stage := .reply { res := w, pres := p, om := q.om, colour := q.colour } }
      (∀ w, q.stage = .parked (.waita a tm (some w)) →
        exec (.waitaWake id) s = .next (if s.retrains (dieOf q.org.ctx.region) (homeDie a.loc) then s else answer s w true)) ∧
      -- While a link on the way to the word retrains, the request stays parked (R423).
      (q.stage = .parked (.waita a tm none) → s.retrains (dieOf q.org.ctx.region) (homeDie a.loc) = true →
        exec (.spuriousWake id) s = .next s ∧ exec (.waitaTimeout id) s = .next s) ∧
      (q.stage = .parked (.waita a tm none) → s.cut (dieOf q.org.ctx.region) (homeDie a.loc) = none → s.markOf a.loc = none →
        s.retrains (dieOf q.org.ctx.region) (homeDie a.loc) = false →
        let w := leWord (s.homeBytes a.loc 4)
        exec (.spuriousWake id) s = .next (answer s w (a.cond w)) ∧
        (s.regionClk q.org.ctx.region < tm → exec (.waitaTimeout id) s = .next s) ∧
        (tm ≤ s.regionClk q.org.ctx.region →
          exec (.waitaTimeout id) s = .next (answer (s.count (clusterPage (clusterOf q.org.ctx.region) + 0x0C)) w (a.cond w))))) ∧
    (MayFire (.fence r) r .z s v →
      ∃ t : State, exec (.fence r) s = .next t ∧
        (v.x.isRounded = true ∨ wideRelease v = false → t.store = s.store ∧
          Asks s t v (needFor s v (.fence r)) false false (acq || !v.x.isRounded) (.fence acq)) ∧
        (v.x.isRounded = false → wideRelease v = true → ∃ w, Asks s t v (needFor s v (.fence r)) false false true (.wide w (.fence acq)) ∧
          t.store = { s.store with wides := s.store.wides ++ [{ id := w, lines := s.dirtyLines cl, for_ := .req s.uid }] })) ∧
    -- What a fence leaves outstanding keeps every memory firing of its context from firing.
    ((∃ q ∈ s.reqsOf v.f.ctx, q.acq = true) → ∀ n : Need, n.mem.isSome = true → v.ready n s = false)

/-- A line's write-back moves the cluster's dirty bytes home and changes no byte that the cluster reads; CCCTL.WB begins a wide release; a
wide release whose lines are all written back lets what waits for it go on (R289, R290, R311). -/
def Obligations.WriteBacksAndReleases : Prop :=
  ∀ (s : State), s.memoryOk →
    (∀ cl line, cl < 16 → line < pkgBytes → s.cut (cl / 4) (homeDie line) = none → s.training (cl / 4) (homeDie line) = false →
      s.store.badDirty = [] →
      let base := line / 128 * 128
      ∃ t : State, exec (.lineWriteback cl line) s = .next t ∧
        (∀ a, t.homeByte a = if base ≤ a ∧ a < base + 128 then s.clusterByte cl a else s.homeByte a) ∧
        (∀ a, a < 2 ^ 40 → t.store.dirty.look (dirtyKey cl a) =
          if base ≤ a ∧ a < base + 128 then none else s.store.dirty.look (dirtyKey cl a)) ∧
        (∀ c a, c ≠ cl → a < 2 ^ 40 → t.store.dirty.look (dirtyKey c a) = s.store.dirty.look (dirtyKey c a)) ∧
        -- Wide releases wait no longer for a line whose dirty bytes are all written back.
        t.store.wides = if (List.range 128).any (fun i => (s.store.dirty.look (dirtyKey cl (base + i))).isSome) then
          s.store.wides.map fun w => { w with lines := w.lines.filter fun l => l ≠ dirtyKey cl base } else s.store.wides) ∧
    (∀ cl, exec (.ccctlWb cl) s = .next { s with uid := s.uid + 1, store := { s.store with
      wides := s.store.wides ++ [{ id := s.uid, lines := s.dirtyLines cl, for_ := .ccctl }] } }) ∧
    (∀ id w, s.store.wides.find? (fun x => x.id = id) = some w →
      let past : State := { s with store := { s.store with wides := s.store.wides.filter fun x => x.id ≠ id } }
      (w.lines ≠ [] → exec (.wideReleaseDone id) s = .next s) ∧
      (w.lines = [] → w.for_ = .ccctl → exec (.wideReleaseDone id) s = .next past) ∧
      (∀ g, w.lines = [] → w.for_ = .gang g → exec (.wideReleaseDone id) s = .next (past.updGang g fun x => { x with step := 2 })) ∧
      (∀ n q acq, w.lines = [] → w.for_ = .req n → s.req n = some q → q.stage = .wide id (.fence acq) →
        exec (.wideReleaseDone id) s = .next (past.updReq n fun y => { y with stage := .fence acq })) ∧
      (∀ n q a, w.lines = [] → w.for_ = .req n → s.req n = some q → q.stage = .wide id (.access a) → a.op = .st → a.wide = true →
        s.cut (dieOf q.org.ctx.region) (homeDie a.loc) = none → a.loc < pkgBytes → a.loc % 32 + a.size ≤ 32 → 0 < a.size → a.size ≤ 4 →
        dirtyKey (clusterOf q.org.ctx.region) (a.loc / 32 * 32) ∉ s.store.badDirty →
        Turn s q.org.ctx q.org.lease n a.va a.loc →
        ∃ t : State, exec (.wideReleaseDone id) s = .next t ∧ (∀ y ∈ t.fab.reqs, y.id = n → y.stage = .ack) ∧
          WritesHome past t (clusterOf q.org.ctx.region) a.loc a.size a.b.toNat))

-- Tokens and replies.

/-- A due write-back, a reply, an acknowledgement and bad data reach their context; tokens arrive behind those on their channel; credits
return; a masked follower only dequeues (R23, R24, R35, R40, R47, R193, R205, R442). -/
def Obligations.TokensAndReplies : Prop :=
  ∀ (s : State),
    (∀ id w, s.fab.wbs.find? (fun x => x.id = id) = some w →
      (s.regionClk w.ctx.region < w.due → exec (.writeBack id) s = .next s) ∧
      (w.due ≤ s.regionClk w.ctx.region → (w.redo = none ∧ s.fab.glitch.look (s.physOf w.ctx) = none) ∨ w.redo = some false →
        ∃ u t, exec (.writeBack id) s = .next t ∧
          WritesBack { s with fab := { s.fab with wbs := s.fab.wbs.filter fun x => x.id != id } } u w.id w.ctx w.dst w.pdst w.done
            (s.regionClk w.ctx.region + 1) ∧
          t = if w.sr then u.updCtx w.ctx (fun x => { x with rcnt := x.rcnt + 1#32 }) else u) ∧
      -- A mismatch: the operation is executed once more, at a cost of two cycles in which its destinations stay in flight.
      (∀ n, w.due ≤ s.regionClk w.ctx.region → w.redo = none → s.fab.glitch.look (s.physOf w.ctx) = some n →
        ∃ t : State, exec (.writeBack id) s = .next t ∧ t.store = s.store ∧ t.fab.glitch.look (s.physOf w.ctx) = none ∧
          (t.fab.wbs = s.fab.wbs.map fun x => if x.id = w.id then { x with due := x.due + 2, redo := some (decide (n ≠ 1)) } else x) ∧
          ∀ x, s.ctx w.ctx = some x → ∃ y, t.ctx w.ctx = some y ∧ y = { x with busy := y.busy, preds := y.preds } ∧
            (∀ q : BitVec 3, y.busy.getLsbD q.toNat = (x.busy.getLsbD q.toNat || decide (w.dst = some q))) ∧
            ∀ q, y.pred q = if w.pdst = some q then Pred.pending else x.pred q) ∧
      -- A second mismatch: uncorrectable data; nothing is written but a false predicate, and the element freezes.
      (∀ g x, w.due ≤ s.regionClk w.ctx.region → w.redo = some true → s.region w.ctx.region = some g → g.ctx w.ctx.el w.ctx.k = some x →
        x.isRounded = false →
        ∃ (t : State) (q : PRec), exec (.writeBack id) s = .next t ∧ t.fab.recs = s.fab.recs ++ [q] ∧ q.rcd.cls = 0x0B ∧
          q.rcd.info = [0#8, 8#8] ∧ (∀ el ∈ g.chainOf w.ctx.el w.ctx.k, (t.elem (g.phys el)).freeze = .faulted q.id) ∧
          ∃ y, t.ctx w.ctx = some y ∧ (∀ n, y.reg n = x.reg n) ∧ ∀ n, w.pdst = some n → y.pred n = Pred.f)) ∧
    (∀ id q, s.req id = some q →
      let gone : State := { s with fab := { s.fab with reqs := s.fab.reqs.filter fun x => x.id != id } }
      let placed : Prop := ∃ g : Region, s.region q.org.ctx.region = some g ∧ g.dead = false ∧ g.lease = q.org.lease
      (∀ d, placed → q.stage = .reply d →
        ∃ t : State, exec (.requestReply id) s = .next t ∧ WritesBack gone t id q.org.ctx q.dst q.pdst d (s.regionClk q.org.ctx.region)) ∧
      (placed → q.stage = .ack → exec (.requestReply id) s = .next gone) ∧
      (placed → q.stage = .fence false → exec (.requestReply id) s = .next gone) ∧
      (placed → q.stage = .fence true → exec (.requestReply id) s = .next (if s.readsBefore q.org.ctx id then s else gone)) ∧
      (∀ rcd d, placed → q.stage = .bad rcd d → d.good = false → q.org.rounded = false →
        ∃ u t, exec (.requestReply id) s = .next t ∧ WritesBack gone u id q.org.ctx q.dst q.pdst d (s.regionClk q.org.ctx.region) ∧
          ∃ g p, u.region q.org.ctx.region = some g ∧ t.fab.recs = s.fab.recs ++ [p] ∧ p.rcd.cls = rcd.cls ∧ p.rcd.info = rcd.info ∧
            ∀ el ∈ g.chainOf q.org.ctx.el q.org.ctx.k, (t.elem (g.phys el)).freeze = .waiting p.id) ∧
      -- The reply of a placement that is gone is dropped, and counted.
      (∀ d, ¬placed → q.stage = .reply d → exec (.requestReply id) s =
        .next (gone.updRreg q.org.ctx.region fun x => { x with drops := min (x.drops + 1) 0xFFFFFFFF }))) ∧
    (∀ id f, s.fab.flits.find? (fun x => x.id = id) = some f → f.filled = true → f.owes = false → f.arrive ≤ s.regionClk f.ctx.region →
      (∀ x ∈ s.fab.flits.takeWhile (fun x => x.id != id), ¬(x.ctx = f.ctx ∧ x.o = f.o ∧ x.toNode = f.toNode)) →
      ∃ t : State, exec (.tokenArrive id) s = .next t ∧ t.store = s.store ∧ t.fab.flits = s.fab.flits.filter (fun x => x.id != id) ∧
        (∀ g x el, f.toNode = none → s.region f.ctx.region = some g → g.ctx f.ctx.el f.ctx.k = some x →
          routeTarget x.el (x.routes.getD f.o 0#32) = some el → (∀ k, s.discards (g.phys el) k = none) →
          let p := g.phys el
          let ch := routeCh (x.routes.getD f.o 0#32)
          (∃ k, k.payload = f.payload ∧ k.tag = f.tag ∧ (t.elem p).chan ch = (s.elem p).chan ch ++ [k]) ∧
          (∀ q c, q ≠ p ∨ (c ≠ ch ∧ c < 4) → (t.elem q).chan c = (s.elem q).chan c) ∧ t.regions = s.regions) ∧
        (∀ r n g x, f.toNode = some (r, n) → s.region r = some g → g.nodes.look n = some x →
          ∃ h y k, t.region r = some h ∧ h.nodes.look n = some y ∧ k.payload = f.payload ∧ k.tag = f.tag ∧ y.fifo = x.fifo ++ [k])) ∧
    (∀ id c, s.fab.credRets.find? (fun x => x.id = id) = some c →
      (s.regionClk c.dest.region < c.at_ → exec (.creditReturn id) s = .next s) ∧
      -- No token that a detached node has left waits for the credit (R247).
      (c.at_ ≤ s.regionClk c.dest.region → (∀ f ∈ s.fab.flits, f.owes = false) → ∃ t : State, exec (.creditReturn id) s = .next t ∧
        t = { s with fab := { s.fab with credRets := s.fab.credRets.filter fun x => x.id != id }, regions := t.regions } ∧
        (∀ k o x, c.dest = .route k o → o < 8 → s.ctx k = some x →
          ∃ y, t.ctx k = some y ∧ y = { x with credits := y.credits } ∧
            ∀ n, n < 8 → y.credits.getD n 0 = if n = o then x.credits.getD n 0 + 1 else x.credits.getD n 0) ∧
        (∀ r n g x, c.dest = .gen r n → s.region r = some g → g.gens.look n = some x →
          ∃ h : Region, t.region r = some h ∧ h.gens.look n = some { x with credits := x.credits + 1 }) ∧
        (∀ r n g x, c.dest = .node r n → s.region r = some g → g.nodes.look n = some x →
          ∃ h : Region, t.region r = some h ∧ h.nodes.look n = some { x with credits := x.credits + 1 }))) ∧
    (∀ c slot i v, slotView s { ctx := c, slot, follower := true } = some (i, v) → v.masked i s = true → v.dueSlot = some slot →
      ∃ t : State, exec (.maskedFiring c slot) s = .next t ∧ t.store = s.store ∧ t.fab.reqs = s.fab.reqs ∧
        t.ctx c = s.ctx c ∧ (t.elem v.p).spent = true ∧
        ((∀ k, s.discards v.p k = none) → (∀ q, i ≠ .merge q) → ∀ n, n < 4 →
          (t.elem v.p).chan n = if v.rule.dq.getLsbD n then ((s.elem v.p).chan n).drop 1 else (s.elem v.p).chan n))

/-- Generators: AGSET and AGCTL answer and act as R225 says; the read that a due token has under way finds the word at A(i) (R224, R282), and
its delivery moves the generator on and puts the token behind those on its channel (R168, R226). A read under way as its stream stops stays
outstanding (log 89), an indirect stream claims an engine as it starts (R349, log 90), and that a rounded firing records a generator which no
commit has recorded is log 75: the model's choices. -/
def Obligations.Generators : Prop :=
  ∀ (s : State) (v : View) (r : Rule),
    let x := v.g.gens.lookD v.genOf {}
    let reads (y : Gen) : Bool := y.fetch == .reading || y.fetch == .fill
    let halt (pos : Nat) (y : Gen) : Gen :=
      { y with running := false, faulted := false, fetch := if reads y then y.fetch else .idle, old := reads y, eng := none, pos,
               p := setAt 16 0#32 y.p 15 (BitVec.ofNat 32 pos) }
    let start := v.startCode s v.genOf x
    (∀ n, MayFire (.agset n r) r .z s v →
      (x.running = true → OnGen (.agset n r) s v 1#32 false id) ∧
      (x.running = false → OnGen (.agset n r) s v 0#32 true fun y =>
        { y with p := setAt 16 0#32 y.p n.toNat v.a })) ∧
    (MayFire (.agctlStart r) r .z s v →
      (x.running = true → start = 1) ∧
      (start ≠ 0 → OnGen (.agctlStart r) s v (BitVec.ofNat 32 start) false id) ∧
      (start = 0 → ∃ left, left = genTotal x.p - (wordAt x.p 15).toNat ∧
        OnGen (.agctlStart r) s v 0#32 true fun y =>
          { y with pos := (wordAt x.p 15).toNat, running := true, faulted := false, rounded := v.x.isRounded, starter := v.f.ctx,
                   slot := v.f.slot, credits := genCred x.p - s.genOut v.r v.genOf, fetch := if reads y then y.fetch else .idle,
                   old := reads y, eng := s.claimEngine v.r v.g x.p,
                   quota := if v.x.isRounded then (if v.g.brake.isSome then 0 else min (genQuota x.p) left) else left })) ∧
    (MayFire (.agctlStop r) r .z s v → OnGen (.agctlStop r) s v 0#32 true (halt x.pos)) ∧
    (MayFire (.agctlRew r) r .z s v → OnGen (.agctlRew r) s v 0#32 true (halt 0)) ∧
    (MayFire (.agctlStat r) r .z s v → OnGen (.agctlStat r) s v (BitVec.ofNat 32 x.pos) x.running id) ∧
    (∀ rr n g y u loc, s.region rr = some g → g.gens.look n = some y → y.running = true → y.fetch = .reading → y.old = false → genSrc y.p = 0 →
      ∀ i0 i1 i2 i3, i0 < genCnt y.p 0 → i1 < genCnt y.p 1 → i2 < genCnt y.p 2 →
      y.pos = i0 + genCnt y.p 0 * (i1 + genCnt y.p 1 * (i2 + genCnt y.p 2 * i3)) →
      let a := (genBase y.p : Int) + i0 * genStr y.p 0 + i1 * genStr y.p 1 + i2 * genStr y.p 2 + i3 * genStr y.p 3
      0 ≤ a → a + 4 ≤ 2 ^ 56 →
      s.xlate { die := dieOf rr, core := some (microTlb (g.tmap.lookD (n / 4) 0) (n % 4)), as_ := ((s.gang g.gang).map fun z => z.as_).getD 0,
                va := a.toNat, r := true, gang := g.gang } = (.ok loc, u) → Unhindered u rr loc →
      u.retrains (dieOf rr) (homeDie loc) = false →
      exec (.genDemandReadComplete rr n) s =
        .next (u.updGen rr n fun z => { z with fetch := .ready (BitVec.ofNat 32 (clusterNat u (clusterOf rr) loc 4)) })) ∧
    (∀ rr n g y w, s.region rr = some g → g.gens.look n = some y → g.genDue rr n y = true → y.fetch = .ready w →
      ∃ t h z, exec (.genTokenDeliver rr n) s = .next t ∧ t.region rr = some h ∧ h.gens.look n = some z ∧ t.store = s.store ∧
        z.pos = y.pos + 1 ∧ z.credits = y.credits - 1 ∧ z.p = y.p ∧ (g.stepGo = false → z.quota = y.quota - 1) ∧
        (z.running = true ↔ y.pos + 1 < genTotal y.p) ∧ z.fetch = .idle ∧
        ((∀ k, s.discards (g.phys (genEl y.p)) k = none) →
          let p := g.phys (genEl y.p)
          ∃ k, k.payload = w ∧ k.via = .gen rr n ∧ k.tag.toNat % 8 = genKx y.p ∧
            (t.elem p).chan (genCh y.p) = (s.elem p).chan (genCh y.p) ++ [k]))

-- Graphics and tracing.

/-- COVER gives the covered pixels of a block, or the area of a triangle (R402 to R404). -/
def Obligations.Coverage : Prop :=
  ∀ (s : State) (v : View) (r : Rule),
    let buf := v.a.toNat / 2 ^ 23 % 2 ^ 6
    let off := v.a.toNat % 2 ^ 17
    let key := v.g.spadKey buf off
    let bs := (List.range 24).map fun i => s.spadByte (coreOf v.r) v.x.isRounded (key + i)
    let vert (n : Nat) : Int × Int := ((leWord (bs.drop (8 * n))).toInt, (leWord (bs.drop (8 * n + 4))).toInt)
    let area := (((vert 1).1 - (vert 0).1) * ((vert 2).2 - (vert 0).2) - ((vert 1).2 - (vert 0).2) * ((vert 2).1 - (vert 0).1)).natAbs
    let thr := s.mmioNat (gfxPage (dieOf v.r)) 64 % 65536
    MayFire (.cover r) r .z s v → buf < v.g.bufs.length → off + 24 ≤ v.g.bufSize buf → v.a.toNat / 2 ^ 29 = 0 →
    v.a.toNat / 2 ^ 17 % 2 ^ 6 = 0 → off % 32 = 0 →
    s.spadReadBad (coreOf v.r) v.x.isRounded key 24 = false →
    (v.b = 0xFFFFFFFF#32 →
      ∃ t : State, exec (.cover r) s = .next t ∧ t.store = s.store ∧
        Asks (s.count (gfxPage (dieOf v.r) + 4)) t v (needFor s v (.cover r)) true true false
          (replies v (BitVec.ofNat 32 (area / 131072)) (decide (131072 * thr ≤ area)))) ∧
    (v.b ≠ 0xFFFFFFFF#32 → v.b.toNat / 2 ^ 28 % 8 = 0 → v.b.toNat / 2 ^ 12 % 16 = 0 →
      ∃ t res, exec (.cover r) s = .next t ∧ t.store = s.store ∧
        (∀ i, i < 32 → (res.getLsbD i = true ↔
          Covers vert (8 * (v.b.toNat % 4096) + i % 8) (8 * (v.b.toNat / 2 ^ 16 % 4096) + 4 * (v.b.toNat / 2 ^ 31) + i / 8))) ∧
        Asks (s.count (gfxPage (dieOf v.r) + 4)) t v (needFor s v (.cover r)) true true false (replies v res (isSet res)))

/-- TEX gives the exact weighted sum of its texels, rounded once (R413, R414), where descriptor and texels translate from the core's
TLB, no link on the way retrains (R423), and no earlier access of its context to their sectors has still to be performed (R204). That it waits
for these at its firing is log 83, the model's choice. -/
def Obligations.TextureSamples : Prop :=
  ∀ (s : State) (v : View) (r : Rule) (f : TexFn) (loc : Nat → Nat), MayFire (.tex f r) r .f32 s v → Fresh s →
    let arg := ((s.gang v.g.gang).map fun g => g.arg).getD 0
    let at_ := arg + 0xC000 + 32 * (r.imm.toNat % 256)
    let bytes (a n : Nat) : List Byte := (List.range n).map fun i => s.readByte (coreOf v.r) v.x.isRounded (loc a + i)
    let d := texDesc (bytes at_ 32)
    let taps := texTaps d f (realOf v.a) (realOf v.b) (realOf v.c)
    let ask (a : Nat) (tex : Bool) : Ask :=
      { die := dieOf v.r, core := some (coreOf v.r), as_ := ((s.gang v.g.gang).map fun g => g.as_).getD 0, va := a, r := true,
        gang := v.g.gang, tex }
    arg ≠ 0 → at_ % 4096 + 32 ≤ 4096 → badTexDesc (bytes at_ 32) = none →
    let clear (a l : Nat) : Prop := Unhindered s v.r l ∧ s.retrains (dieOf v.r) (homeDie l) = false ∧
      ∀ q ∈ s.fab.reqs, q.id < s.uid → q.org.ctx = v.f.ctx → q.org.lease = v.g.lease → q.stage.owes a l = false
    s.xlate (ask at_ false) = (.ok (loc at_), s) → (∀ k, k < 32 → clear (at_ + k) (loc at_ + k)) →
    (∀ t ∈ taps, s.xlate (ask t.1 true) = (.ok (loc t.1), s) ∧ clear t.1 (loc t.1)) →
    ∃ t res, exec (.tex f r) s = .next t ∧ Filters d.fmt (taps.map fun x => (leWord (bytes x.1 4), x.2)) res ∧
      (∃ q ∈ t.fab.reqs, Request s v q true false (replies v res (isSet res))) ∧
      -- The cluster's cache has room for the lines of eight texels.
      ((s.store.copies.filter fun k => k / 2 ^ 40 = clusterOf v.r).length + 8 ≤ 131072 →
        Asks { s with store := t.store } t v (needFor s v (.tex f r)) true true false (replies v res (isSet res)) ∧
        t.store = { s.store with copies := t.store.copies })

/-- ISECT.box4 gives the boxes that a ray meets; a primitive form accepts a hit that is nearer than the best, or as near with a lower ID,
and for a triangle the hit is the least point of the ray that lies in it (R408 to R411). A box is tested by R410's slabs
also where D is the zero vector, which R409 is read to exclude for primitives only: log 31, the model's reading. -/
def Obligations.Intersections : Prop :=
  ∀ (s u : State) (v : View) (r : Rule) (key : Nat) (ray bs : List Byte), s.memoryOk → Fresh s →
    let locator : Prop := v.a.toNat / 2 ^ 23 % 2 ^ 6 < v.g.bufs.length ∧
      v.a.toNat % 2 ^ 17 + 64 ≤ v.g.bufSize (v.a.toNat / 2 ^ 23 % 2 ^ 6) ∧ v.a.toNat / 2 ^ 29 = 0 ∧ v.a.toNat / 2 ^ 17 % 2 ^ 6 = 0 ∧
      v.a.toNat % 64 = 0
    let bounded : Prop := Finite (recAt ray 3) ∧ Finite (recAt ray 8) ∧ realOf (recAt ray 3) ≤ realOf (recAt ray 8) ∧
      ∀ n, n < 3 → Finite (recAt ray n) ∧ Finite (recAt ray (4 + n))
    let ranged : Prop := bounded ∧ ∃ n, n < 3 ∧ realOf (recAt ray (4 + n)) ≠ 0
    let nearer (t : Word) (id : Word) : Prop := (fpLane .f32 t 0).less (fpLane .f32 (recAt ray 8) 0) = true ∨
      ((fpLane .f32 (recAt ray 8) 0).less (fpLane .f32 t 0) = false ∧ id.toNat < (recAt ray 9).toNat)
    (MayFire (.isectBox4 r) r .z s v → locator → s.isectGo v.r v.g v.x.isRounded 0 v.a v.b v.f.ctx s.uid = (.go key ray bs none, u) → bounded →
      ∃ res, Intersects s v (.isectBox4 r) key u res none ∧ ∀ i, i < 4 → (∀ n, n < 6 → Finite (recAt bs (6 * i + n))) →
        (res.getLsbD i = true ↔ ∃ t : ℚ, realOf (recAt ray 3) ≤ t ∧ t ≤ realOf (recAt ray 8) ∧
          ∀ a, a < 3 → realOf (recAt bs (6 * i + a)) ≤ rayAt ray t a ∧ rayAt ray t a ≤ realOf (recAt bs (6 * i + 3 + a)))) ∧
    (∀ i fn id, (i, fn, id) ∈ [(Instr.isectTri r, 1, recAt bs 9), (.isectRib r, 2, recAt bs 16), (.isectTube r, 3, recAt bs 16),
        (.isectBlp r, 4, recAt bs 12)] →
      MayFire i r .z s v → locator → s.isectGo v.r v.g v.x.isRounded fn v.a v.b v.f.ctx s.uid = (.go key ray bs none, u) →
      (isectTest fn ray bs = .none → Intersects s v i key u 0#32 none) ∧
      (∀ t a b, isectTest fn ray bs = .hit t a b →
        (nearer t id → Intersects s v i key u 1#32 (some (wordLe t ++ wordLe id ++ wordLe a ++ wordLe b))) ∧
        (¬nearer t id → Intersects s v i key u 0#32 none))) ∧
    (MayFire (.isectTri r) r .z s v → locator → s.isectGo v.r v.g v.x.isRounded 1 v.a v.b v.f.ctx s.uid = (.go key ray bs none, u) → ranged →
      (∀ n, n < 9 → Finite (recAt bs n)) →
      let p (n a : Nat) : ℚ := realOf (recAt bs (3 * n + a))
      let inside (t x y : ℚ) : Prop := 0 ≤ x ∧ 0 ≤ y ∧ x + y ≤ 1 ∧
        ∀ a, a < 3 → rayAt ray t a = p 0 a + x * (p 1 a - p 0 a) + y * (p 2 a - p 0 a)
      -- The vertices are not collinear.
      (∃ a b, a < 3 ∧ b < 3 ∧ (p 1 a - p 0 a) * (p 2 b - p 0 b) ≠ (p 1 b - p 0 b) * (p 2 a - p 0 a)) →
      ((∀ t x y, realOf (recAt ray 3) ≤ t → ¬inside t x y) → Intersects s v (.isectTri r) key u 0#32 none) ∧
      (∀ t x y, realOf (recAt ray 3) ≤ t → inside t x y → (∀ t' x' y', realOf (recAt ray 3) ≤ t' → inside t' x' y' → t ≤ t') →
        ∃ wt wa wb : Word, (∀ z w, (z, w) ∈ [(t, wt), (x, wa), (y, wb)] → Rounded fp32 .rn false 0 (.fin (decide (z < 0)) z) w.toNat) ∧
          (nearer wt (recAt bs 9) →
            Intersects s v (.isectTri r) key u 1#32 (some (wordLe wt ++ wordLe (recAt bs 9) ++ wordLe wa ++ wordLe wb))) ∧
          (¬nearer wt (recAt bs 9) → Intersects s v (.isectTri r) key u 0#32 none)))

/-- DBG writes a trace record of 64 bytes where the region traces, holds it in a rounded context, drops it into a full ring, and otherwise does
nothing but fire (R392, R396, R397). A step of step mode is over once nothing of it is under way, and the region is held (R393). Trace
configuration writes clear the ring's tail (R397). -/
def Obligations.TracesAndStepMode : Prop :=
  (∀ (s : State) (v : View) (r : Rule) (i : Instr) (dump : Bool), (i, dump) ∈ [(Instr.dbgMark r, false), (.dbgDump r, true)] →
     MayFire i r .z s v → s.memoryOk → v.x.regs.length = 8 →
     let d := dieOf v.r
     let page := dispPage d
     let on := (s.rreg v.r).rdbg.getLsbD 4
     let slots := 2 ^ min 20 (max 6 ((s.mmio (page + 0x48) 6#32).toNat % 32))
     let base := (s.mmio (page + 0x40) 0#32).toNat / 4096 * 4096 + 2 ^ 32 * ((s.mmio (page + 0x44) 0#32).toNat % 2 ^ 20)
     let tail := s.mmio (page + 0x50) 0#32
     let full := decide ((tail - s.mmio (page + 0x4C) 0#32).toNat = slots)
     let preds := BitVec.ofNat 8 (((List.range 8).map fun n => if v.x.pred (BitVec.ofNat 3 n) = .t then 2 ^ n else 0).sum)
     let body : List Byte := [v.rule.imm.extractLsb' 0 8, if dump then 1#8 else 0#8] ++ natLe 2 v.g.lease ++
       [BitVec.ofNat 8 (v.x.el / 16 % 8), BitVec.ofNat 8 (v.x.el / 16 / 8 % 16), BitVec.ofNat 8 (v.x.el % 16),
        BitVec.ofNat 8 (v.x.k + 16 * v.f.slot)] ++ natLe 2 v.g.inst ++ [preds, 0#8] ++ natLe 4 (if dump then 0 else v.a.toNat) ++
       (if dump then (v.x.regs.map fun w => natLe 4 w.toNat).flatten else List.replicate 32 0#8)
     let record := body ++ natLe 8 (s.clk d) ++ natLe 4 v.x.rndn.toNat ++ natLe 4 0
     ∃ t : State, exec i s = .next t ∧
       (on = false → Commits s t v (needFor s v i) false) ∧
       (on = true → v.x.isRounded = true → HeldIn s t v (needFor s v i) 64 fun h => ∃ p, h = .cmd p ∧ p.opc = 0x5F ∧
         (p.cmd.map fun w => natLe 4 w.toNat).flatten = body ++ natLe 8 0 ++ natLe 4 v.x.rndn.toNat ++ natLe 4 0) ∧
       (on = true → v.x.isRounded = false → full = false → base + 64 * slots ≤ pkgBytes →
         t.mmio (page + 0x50) 0#32 = tail + 1#32 ∧ t.physBytes (base + 64 * (tail.toNat % slots)) 64 = record ∧
         ∀ a, a < base + 64 * (tail.toNat % slots) ∨ base + 64 * (tail.toNat % slots) + 64 ≤ a → t.physBytes a 1 = s.physBytes a 1) ∧
       (on = true → v.x.isRounded = false → full = true →
         t.store = s.store ∧ t.mmio (page + 0x50) 0#32 = tail ∧
         (t.mmio (page + 0x54) 0#32).toNat = min ((s.mmio (page + 0x54) 0#32).toNat + 1) 0xFFFFFFFF)) ∧
  (∀ s : State,
     (∀ (r : Nat) (g : Region), s.region r = some g →
       -- What stood before the step's event is none of it.
       let over_ : Prop := g.stepping = true ∧ (∀ w ∈ s.fab.wbs, w.ctx.region = r → w.id < g.stepFrom) ∧
         (∀ q ∈ s.fab.reqs, q.org.ctx.region = r → q.org.lease = g.lease → q.id < g.stepFrom) ∧
         ((∃ c ∈ g.ctxs, c.isRounded = true) → g.round.isOpen = false ∧ g.round.drain = [])
       (over_ → exec (.stepEnd r) s = .next (s.updRegion r fun h => { h with stepping := false, stepHeld := true })) ∧
       (¬over_ → exec (.stepEnd r) s = .next s)) ∧
     (∀ (d : Nat) (v : Word) (off : Nat) (w : Word), d < 4 → (off, w) ∈ [(0x40, v &&& 0xFFFFF000#32), (0x44, v &&& 0x000FFFFF#32),
         (0x48, BitVec.ofNat 32 (min 20 (max 6 (v.toNat % 32))))] →
       let page := 0x100000 + 0x300000 * d + 0x1000
       ∃ t : State, exec (.traceConfigWrite (page + off) v) s = .next t ∧ t.readReg (page + off) = w ∧ t.readReg (page + 0x50) = 0#32 ∧
         t = { s with pkg := { s.pkg with mmio := t.pkg.mmio } } ∧
         ∀ o, o ≠ page + off → o ≠ page + 0x50 → t.readReg o = s.readReg o))
-- Engine commands.

/-- WLD, SWEEP, CTURN, COPY, CLLCT, LAUNCH, QPUT, PDONE and PFAIL read their record and go on their way, after a wide release where they are one,
or are held in a rounded context; a locator that breaks R251 cancels the firing (R182, R251, R256, R290, R302, R308, R366 to R368). The adjust
word in the INFO of a malformed command's record, zero for COPY, COVER, QPUT, QPOP and CTURN and source B for LAUNCH, is log 51, and what a
marked sector of a fill map does to a cancelled fill is log 87: the model's choices. -/
def Obligations.EngineCommands : Prop :=
  ∀ (s : State) (v : View) (r : Rule), s.memoryOk → Fresh s →
    let bufOf (w : Word) := w.toNat / 2 ^ 23 % 2 ^ 6
    let offOf (w : Word) := w.toNat % 2 ^ 17
    let keyOf (w : Word) := v.g.spadKey (bufOf w) (offOf w)
    let reaches (w : Word) (size : Nat) : Prop := bufOf w < v.g.bufs.length ∧ offOf w + size ≤ v.g.bufSize (bufOf w)
    let clean (w : Word) (align : Nat) : Prop := w.toNat / 2 ^ 29 = 0 ∧ w.toNat / 2 ^ 17 % 2 ^ 6 = 0 ∧ offOf w % align = 0
    let byteAt (w : Word) (n : Nat) : Byte := s.spadByte (coreOf v.r) v.x.isRounded (keyOf w + n)
    let reads (p : Packet) (w : Word) (size : Nat) (extra : List Word) : Prop :=
      (∀ j, j < size / 4 → p.cmd.getD j 0#32 = leWord ((List.range 4).map fun b => byteAt w (4 * j + b))) ∧ p.cmd.drop (size / 4) = extra
    let from_ (p : Packet) : Prop := p.org.ctx = v.f.ctx ∧ p.org.slot = v.f.slot ∧ p.org.lease = v.g.lease
    let waits (t : State) (w : Nat) : Prop :=
      t.store = { s.store with wides := s.store.wides ++ [{ id := w, lines := s.dirtyLines (clusterOf v.r), for_ := .req s.uid }] }
    -- The commands that engines take.
    (∀ i opc fn size adj extra, (i, opc, fn, size, adj, extra) ∈ [(Instr.wld r, 0x50, 0, 32, v.b, []), (.sweep r, 0x51, 0, 32, v.b, []),
        (.sweepSwap r, 0x51, 1, 32, v.b, []), (.cturn r, 0x52, 0, 32, 0#32, []), (.copy r, 0x53, 0, 64, 0#32, [v.b, v.c])] ++
        ([(CollFn.arTree, 0), (.arExact, 1), (.rsTree, 2), (.rsExact, 3), (.ag, 4), (.bc, 5)].map fun f =>
          (Instr.cllct f.1 r, 0x5D, f.2, 32, 0#32, [BitVec.ofNat 32 (r.imm.toNat % 256)])) →
      MayFire i r .s32 s v → reaches v.a size → clean v.a size → adj.toNat % size = 0 → s.spadReadBad (coreOf v.r) v.x.isRounded (keyOf v.a) size = false →
      ∃ t p, exec i s = .next t ∧ p.opc = opc ∧ p.fn = fn ∧ p.loc = v.a ∧ p.adj = adj ∧ from_ p ∧ reads p v.a size extra ∧ p.id = s.uid ∧
        (v.x.isRounded = true → p.req = 0 ∧ HeldIn s t v (needFor s v i) 64 fun h => h = .cmd p) ∧
        (v.x.isRounded = false → p.req = s.uid ∧ AsksAnd s t v (needFor s v i) true false false .sent fun c t =>
          (opc < 0x53 → t = { c with cores := { c.cores with going := c.cores.going ++ [p] } }) ∧
          (opc = 0x53 → t = { c with cores := { c.cores with copyIn := t.cores.copyIn } } ∧
            ∀ k, t.cores.copyIn.lookD k [] = c.cores.copyIn.lookD k [] ++ if k = coreOf v.r then [p] else []) ∧
          (opc = 0x5D → t = { c with dies := { c.dies with collIn := t.dies.collIn } } ∧
            ∀ k, t.dies.collIn.lookD k [] = c.dies.collIn.lookD k [] ++ if k = dieOf v.r then [p] else []))) ∧
    (MayFire (.launch r) r .s32 s v → reaches v.a 32 → clean v.a 32 → s.spadReadBad (coreOf v.r) v.x.isRounded (keyOf v.a) 32 = false →
      ∃ t p, exec (.launch r) s = .next t ∧ p.opc = 0x59 ∧ p.loc = v.a ∧ p.adj = v.b ∧ from_ p ∧ reads p v.a 32 [] ∧
        (v.x.isRounded = true → HeldIn s t v (needFor s v (.launch r)) 64 fun h => h = .cmd p) ∧
        (v.x.isRounded = false → ∃ w, Asks s t v (needFor s v (.launch r)) true false false (.wide w (.send p)) ∧ waits t w)) ∧
    (let d := ((s.gang v.g.gang).map fun g => g.die).getD (dieOf v.r)
      let q := r.imm.toNat % 4096
      let item := (List.range 64).map (byteAt v.b)
      MayFire (.qput r) r .z s v → reaches v.b 64 → clean v.b 16 → s.spadReadBad (coreOf v.r) v.x.isRounded (keyOf v.b) (s.hq d q).isize = false →
      ∃ t : State, exec (.qput r) s = .next t ∧
        (v.x.isRounded = true → HeldIn s t v (needFor s v (.qput r)) 64 fun h => ∃ p, h = .cmd p ∧ p.opc = 0x57 ∧ from_ p ∧
          p.adj.toNat = q ∧ (p.cmd.map wordLe).flatten = item) ∧
        (v.x.isRounded = false → ∃ w, waits t w ∧ Asks s t v (needFor s v (.qput r)) true false false
          (.wide w (.queue (if r.a = .zero then .qput d q item else .qtick d q v.a item))))) ∧
    -- The checks of R251 on locators and adjusts.
    (∀ i w opc loc size align adj adjAlign, (i, w, opc, loc, size, align, adj, adjAlign) ∈
        [(Instr.wld r, ImmW.s32, 0x50, v.a, 32, 32, v.b, 32), (.sweep r, .s32, 0x51, v.a, 32, 32, v.b, 32),
         (.sweepSwap r, .s32, 0x51, v.a, 32, 32, v.b, 32), (.cturn r, .s32, 0x52, v.a, 32, 32, 0#32, 1),
         (.copy r, .s32, 0x53, v.a, 64, 64, 0#32, 1), (.launch r, .s32, 0x59, v.a, 32, 32, v.b, 1),
         (.qput r, .z, 0x57, v.b, 64, 16, 0#32, 1), (.qpop r, .z, 0x58, v.a, 64, 16, 0#32, 1), (.cover r, .z, 0x5C, v.a, 24, 32, 0#32, 1)] →
      MayFire i r w s v →
      (¬reaches loc size → ∃ t : State, exec i s = .next t ∧ Faults s t v 0x03
        ([6#8, 1#8, BitVec.ofNat 8 (bufOf loc), 0#8] ++ natLe 4 (offOf loc) ++ natLe 4 (v.g.bufSize (bufOf loc) - 1)) 0) ∧
      (reaches loc size → ¬(clean loc align ∧ adj.toNat % adjAlign = 0) → ∃ t : State, exec i s = .next t ∧ Faults s t v 0x0F
        ([BitVec.ofNat 8 opc, 0xFF#8, 0xFF#8, 0xFF#8] ++ natLe 4 0 ++ wordLe loc ++ wordLe adj) 0)) ∧
    -- PDONE and PFAIL, whose launch fills a block, has filled it or its fill is gone, or fills none.
    (let fills := ((s.gang v.g.gang).bind fun g => g.fill).isSome
      let status : Nat := if fills then 2 else 1
      (MayFire (.pdone r) r .z s v → ∃ t : State, exec (.pdone r) s = .next t ∧
        (v.x.isRounded = true → HeldIn s t v (needFor s v (.pdone r)) 64 fun h => ∃ p, h = .cmd p ∧ p.opc = 0x5A ∧ p.fn = 0 ∧ from_ p) ∧
        (v.x.isRounded = false → s.fillOfGang v.g.gang = none → t.store = s.store ∧
          Asks s t v (needFor s v (.pdone r)) true true false (replies v (BitVec.ofNat 32 status) false)) ∧
        (v.x.isRounded = false → (s.fillOfGang v.g.gang).isSome = true →
          ∃ w, Asks s t v (needFor s v (.pdone r)) true true false (.wide w .pdone) ∧ waits t w)) ∧
      (MayFire (.pfail r) r .s32 s v → ∃ t : State, exec (.pfail r) s = .next t ∧
        (v.x.isRounded = true → HeldIn s t v (needFor s v (.pfail r)) 64 fun h => ∃ p, h = .cmd p ∧ p.opc = 0x5A ∧ p.fn = 1 ∧
          p.cmd = [v.a] ∧ from_ p) ∧
        (v.x.isRounded = false → s.fillOfGang v.g.gang = none → t.store = s.store ∧
          Asks s t v (needFor s v (.pfail r)) true true false (replies v (BitVec.ofNat 32 status) false)) ∧
        (∀ f, v.x.isRounded = false → s.fillOfGang v.g.gang = some f →
          (∀ g ∈ s.dies.fills, fillKey g = fillKey f → g.cancelled = false → g = f) →
          (∃ q ∈ t.fab.reqs, Request s v q true false (replies v 0#32 true)) ∧
          (∃ g ∈ t.dies.fills, fillKey g = fillKey f ∧ g.cancelled = true ∧ g.cause = 0xF0 ∧ g.code = v.a) ∧
          let rg := s.rangeNo f.die f.as_ f.rng
          -- A sector that is marked in error keeps its bytes (log 87).
          (∀ l, locOf false (rg.fmap + f.blk / 4) = some l → s.markOf l = none → t.blockState rg f.blk = 3))))

/-- The sync unit: SEM.sig, BARX and BARA go to it or are held; SEM.rd and BARW answer; its operations are performed two cycles later; a stage
barrier's phase completes when all have arrived and nothing is pending, which is tested after each arrival, and once after the announcements and
credits of a cycle; SBCFG configures one (R257, R261, R262, R275 to R280, R286). -/
def Obligations.SyncUnit : Prop :=
  ∀ (s : State),
    (∀ (v : View) (r : Rule), let n := r.imm.toNat
      let core := coreOf v.r
      (∀ i what, (i, what) ∈ [(Instr.semSig r, SyncDo.sig n v.a), (.barx r, .barx n v.a), (.bara r, .bara n)] → MayFire i r .s32 s v →
        ∃ t : State, exec i s = .next t ∧
          (v.x.isRounded = true → HeldIn s t v (needFor s v i) 64 fun h => ∃ p, h = .cmd p ∧ p.org.ctx = v.f.ctx ∧ p.req = 0 ∧
            p.opc = (if i = .semSig r then 0x54 else 0x55) ∧ p.syncDo = what) ∧
          (v.x.isRounded = false → AsksAnd s t v (needFor s v i) true false true .sent fun c t =>
            ∃ o : SyncOp, t = { c with cores := { c.cores with syncs := c.cores.syncs ++ [o] } } ∧ o.id = s.uid ∧ o.req = s.uid ∧ o.core = core ∧
              o.org.ctx = v.f.ctx ∧ o.due = s.regionClk v.r + 2 ∧ o.what = what)) ∧
      (MayFire (.semRd r) r .z s v → ∃ t : State, exec (.semRd r) s = .next t ∧ t.store = s.store ∧
        Asks s t v (needFor s v (.semRd r)) true true true (replies v (s.sem core n).value (!(s.sem core n).abt))) ∧
      (MayFire (.barw r) r .z s v →
        let b := s.bar core n
        let past : Prop := b.abt = true ∨ (b.phase + 65536 - v.a.toNat % 65536) % 65536 < 32768
        ∃ t : State, exec (.barw r) s = .next t ∧ t.store = s.store ∧
          (past → Asks s t v (needFor s v (.barw r)) true true true (replies v (BitVec.ofNat 32 b.phase) (!b.abt))) ∧
          (¬past → Asks s t v (needFor s v (.barw r)) true true true (.parked (.barw core n v.a))))) ∧
    (∀ id q core n w, s.req id = some q → q.stage = .parked (.barw core n w) →
      let b := s.bar core n
      let past : Prop := b.abt = true ∨ (b.phase + 65536 - w.toNat % 65536) % 65536 < 32768
      (past → exec (.barwReturn id) s = .next (s.updReq id fun y =>
          { y with stage := .reply { res := BitVec.ofNat 32 b.phase, pres := !b.abt, om := q.om, colour := q.colour } })) ∧
      (¬past → exec (.barwReturn id) s = .next s)) ∧
    (∀ id o, s.cores.syncs.find? (fun x => x.id = id) = some o →
      (s.clk (o.core / 16) < o.due → exec (.syncUnitPerform id) s = .next s) ∧
      (o.due ≤ s.clk (o.core / 16) →
        ∃ t : State, exec (.syncUnitPerform id) s = .next t ∧ t.cores.syncs = s.cores.syncs.filter (fun x => x.id ≠ id) ∧ t.store = s.store ∧
          -- Its firing is no longer outstanding, or its drain goes on.
          (o.req ≠ 0 → t.fab.reqs = s.fab.reqs.filter fun q => q.id != o.req) ∧
          (o.req = 0 → t.fab.reqs = s.fab.reqs ∧ ∀ k g, s.region k = some g → ∃ h : Region, t.region k = some h ∧ h.round.h0.wait ≠ some id ∧
            h.round.h1.wait ≠ some id) ∧
          (∀ n w, o.what = .sig n w → n < 256 → ∀ c m, m < 256 → t.sem c m =
            if c = o.core ∧ m = n then { s.sem c m with value := (s.sem c m).value + w } else s.sem c m) ∧
          (∀ n, n < 96 → ∀ add : Nat, (o.what = .bara n ∧ add = 0 ∨ ∃ w, o.what = .barx n w ∧ add = w.toNat) →
            let b := s.bar o.core n
            let arr := if o.what = .bara n then b.arr + 1 else b.arr
            let pend := b.pend + add
            let breaks : Prop := b.exp = 0 ∨ 2 ^ 31 - 1 < pend ∨ (o.what = .bara n ∧ b.arr = b.exp)
            (∀ c m, m < 96 → (c, m) ≠ (o.core, n) → t.bar c m = s.bar c m) ∧
            (breaks → (o.what = .bara n → b.pend ≤ 2 ^ 31 - 1) → t.bar o.core n = b ∧ ∃ p, t.fab.recs = s.fab.recs ++ [p] ∧ p.rcd.cls = 0x07) ∧
            (¬breaks → t.fab.recs = s.fab.recs ∧ t.bar o.core n =
              if o.what = .bara n ∧ arr = b.exp ∧ pend = 0 then { b with phase := (b.phase + 1) % 65536, arr := 0, pend := 0 }
              else { b with arr, pend })))) ∧
    (∀ core n, n < 96 → let b := s.bar core n
      s.testBars.bar core n = if b.arr = b.exp ∧ b.pend = 0 ∧ b.exp ≠ 0 then { b with phase := (b.phase + 1) % 65536, arr := 0 } else b) ∧
    (∀ core n w, core < 64 → n < 96 → ∃ t : State, exec (.sbcfgWrite core n w) s = .next t ∧ t = { s with cores := { s.cores with bars := t.cores.bars } } ∧
      (∀ c m, m < 96 → (c, m) ≠ (core, n) → t.bar c m = s.bar c m) ∧
      t.bar core n = { s.bar core n with exp := w.toNat % 65536, arr := 0, pend := 0, abt := (s.bar core n).abt && !w.getLsbD 31 })

/-- Hardware queues: reservations, items, cancellations and pops keep their order; a full or empty queue parks, a closed one turns away, one that is
not enabled is misused; an issuer's cluster writes its own bytes of the slot back first; the registers enable, clear and close one; the host's
apertures reach it, and a clear holds their writes (R288, R304 to R312, R369, R431). A link that retrains holds a request back (R423); that a
write of the host whose way a failed link crosses is dropped and counted is log 86, the model's choice. -/
def Obligations.HardwareQueues : Prop :=
  ∀ (s : State), s.memoryOk → Fresh s →
    let fits (h : HQueue) : Prop := h.base + h.cap * h.isize + (h.cap + 3) / 4 ≤ pkgBytes
    let others (u t : State) (d n : Nat) (w : Word) : Prop :=
      (∀ e m, (e, m) ≠ (d, n) → m < 4096 → n < 4096 → t.hq e m = u.hq e m) ∧
      ∀ k : Word, k.toNat % (u.hq d n).cap ≠ w.toNat % (u.hq d n).cap → t.slotState (u.hq d n) k = u.slotState (u.hq d n) k
    let puts (u t : State) (d n : Nat) (w : Word) (item : List Byte) : Prop :=
      t.slotState (u.hq d n) w = 2 ∧ t.physBytes ((u.hq d n).itemPa w) (u.hq d n).isize = item.take (u.hq d n).isize
    (∀ (v : View) (r : Rule), let d := ((s.gang v.g.gang).map fun g => g.die).getD (dieOf v.r)
      let n := r.imm.toNat % 4096
      let h := s.hq d n
      let cl := clusterOf v.r
      (∀ i p, (i, p) ∈ [(Instr.qrsv r, Park.qrsv d n), (.qcan r, .qcan d n v.a)] → MayFire i r .z s v → h.clearing = false →
        s.queueWaits (dieOf v.r) d (p.homes h) = true →
        ∃ t : State, exec i s = .next t ∧ t.store = s.store ∧ t.dies = s.dies ∧ ∃ q ∈ t.fab.reqs, q.id = s.uid ∧ q.stage = .queueClear p) ∧
      (MayFire (.qrsv r) r .z s v → h.clearing = false → NoLink s (dieOf v.r) d h h.res →
        ∃ t : State, exec (.qrsv r) s = .next t ∧
          (h.en = false → ∃ q ∈ t.fab.reqs, ∃ e x, Request s v q true false (.bad e x) ∧ e.cls = 0x0C ∧ x.good = false) ∧
          (h.en = true → h.closed = true → t.store = s.store ∧ (s.queueParked d n 1 = [] →
            Asks s t v (needFor s v (.qrsv r)) true true false (replies v 0#32 false))) ∧
          (h.en = true → h.closed = false → h.full = true → s.queueParked d n 1 = [] →
            t.store = s.store ∧ Asks s t v (needFor s v (.qrsv r)) true true false (.parked (.qrsv d n))) ∧
          (h.en = true → h.closed = false → h.full = false → s.queueParked d n 1 = [] → fits h →
            (∃ q ∈ t.fab.reqs, Request s v q true false (replies v h.res true)) ∧
            t.hq d n = { h with res := h.res + 1#32, held := h.held ++ [(h.res, s.holder v.f.ctx)] } ∧
            t.slotState h h.res = 1 ∧ others (s.ownSlot cl h h.res) t d n h.res)) ∧
      (MayFire (.qcan r) r .z s v → h.clearing = false → h.en = true → NoLink s (dieOf v.r) d h v.a →
        ∃ t : State, exec (.qcan r) s = .next t ∧
          (h.holds v.a (s.holder v.f.ctx) = false → ∃ q ∈ t.fab.reqs, ∃ e x, Request s v q false false (.bad e x) ∧ e.cls = 0x0C ∧ x.good = false) ∧
          -- Once it is performed it is outstanding no longer (R205).
          (let u := s.ownSlot cl h v.a
           h.holds v.a (s.holder v.f.ctx) = true → h.head ≠ v.a → fits h →
            (h.head = h.res ∨ u.slotState h h.head ≠ 3) → h.head.toNat % h.cap ≠ v.a.toNat % h.cap →
            t.req s.uid = none ∧ t.hq d n = { h with held := h.held.filter fun e => e.1 ≠ v.a } ∧
            t.slotState h v.a = 3 ∧ others u t d n v.a)) ∧
      (MayFire (.qpop r) r .z s v → h.clearing = false → h.en = true → s.queueParked d n 2 = [] → NoLink s (dieOf v.r) d h h.head →
        let buf := v.a.toNat / 2 ^ 23 % 2 ^ 6
        let off := v.a.toNat % 2 ^ 17
        let key := v.g.spadKey buf off
        buf < v.g.bufs.length → off + 64 ≤ v.g.bufSize buf → v.a.toNat / 2 ^ 29 = 0 → v.a.toNat / 2 ^ 17 % 2 ^ 6 = 0 → off % 16 = 0 →
        ∃ t : State, exec (.qpop r) s = .next t ∧
          (h.head = h.res → h.closed = true → t.store = s.store ∧ Asks s t v (needFor s v (.qpop r)) true true true (replies v 0#32 false)) ∧
          (h.head = h.res → h.closed = false → t.store = s.store ∧
            Asks s t v (needFor s v (.qpop r)) true true true (.parked (.qpop d n v.a))) ∧
          (let u := s.ownSlot cl h h.head
           h.head ≠ h.res → s.slotState h h.head = 2 → fits h → u.store.marks = [] →
            (h.head + 1#32 = h.res ∨ (u.slotState h (h.head + 1#32) ≠ 3 ∧ 1 < h.cap)) →
            let item := u.physBytes (h.itemPa h.head) h.isize
            (∃ q ∈ t.fab.reqs, Request s v q true true (replies v (leWord item) true)) ∧ t.hq d n = { h with head := h.head + 1#32 } ∧
            t.slotState h h.head = 0 ∧ others u t d n h.head ∧ cellsAt t.store.spad key h.isize = item)) ∧
      (MayFire (.pstat r) r .s32 s v →
        let as_ := ((s.gang v.g.gang).map fun g => g.as_).getD 0
        (s.pstatDeny (dieOf v.r) as_ v.a.toNat v.b.toNat = some .wait → exec (.pstat r) s = .next s) ∧
        (s.pstatDeny (dieOf v.r) as_ v.a.toNat v.b.toNat = none →
        ∃ t w ok, exec (.pstat r) s = .next t ∧ t.store = s.store ∧ Asks s t v (needFor s v (.pstat r)) true true false (replies v w ok) ∧
          ∀ a, s.aspace (dieOf v.r) as_ = some a →
            let rg := s.rangeAt a.rtab v.a.toNat
            (a.nrng ≤ v.a.toNat ∨ rg.bad = true ∨ rg.nb ≤ v.b.toNat → w = 0xFFFFFFFF#32 ∧ ok = false) ∧
            (v.a.toNat < a.nrng → rg.bad = false → v.b.toNat < rg.nb →
              w.toNat = s.blockState rg v.b.toNat + (if s.blockRef rg v.b.toNat then 4 else 0) ∧
              ok = decide (s.blockState rg v.b.toNat = 2))))) ∧
    -- A QPUT at its queue, after its release.
    (∀ id w d n q item, n < 4096 → s.store.wides.find? (fun x => x.id = id) = some w → w.lines = [] → w.for_ = .req q.id → s.req q.id = some q →
      q.stage = .wide id (.queue (.qput d n item)) → (s.hq d n).clearing = false → (s.hq d n).en = true → (s.hq d n).closed = false →
      (s.hq d n).full = false → s.queueParked d n 1 = [] → fits (s.hq d n) → 64 ≤ item.length →
      NoLink s (dieOf q.org.ctx.region) d (s.hq d n) (s.hq d n).res →
      let u := s.ownSlot (clusterOf q.org.ctx.region) (s.hq d n) (s.hq d n).res
      ∃ t : State, exec (.wideReleaseDone id) s = .next t ∧ puts u t d n (s.hq d n).res item ∧ others u t d n (s.hq d n).res ∧
        (t.hq d n).res = (s.hq d n).res + 1#32 ∧ (t.hq d n).head = (s.hq d n).head ∧ t.req q.id = none) ∧
    (∀ d n h id q rest, h = s.hq d n → n < 4096 → s.queueParked d n 1 = .req id (.qrsv d n) :: rest → s.req id = some q →
      h.en = true → h.closed = false → h.full = false → fits h → NoLink s (dieOf q.org.ctx.region) d h h.res →
      ∃ t : State, exec (.queueParkedServe d n) s = .next t ∧ t.slotState h h.res = 1 ∧
        t.hq d n = { h with res := h.res + 1#32, held := h.held ++ [(h.res, s.holder q.org.ctx)] } ∧
        ∀ y ∈ t.fab.reqs, y.id = id → y.stage = .reply { res := h.res, pres := true, om := q.om, colour := q.colour }) ∧
    (∀ d n w, n < 4096 →
      let h := s.hq d n
      (∃ t : State, exec (.qcfgEnable d n w) s = .next t ∧
        (h.en = true ∨ w.getLsbD 31 = false → t = s) ∧
        (h.en = false → w.getLsbD 31 = true → t = { s with dies := { s.dies with queues := t.dies.queues } } ∧
          (∀ e m, (e, m) ≠ (d, n) → m < 4096 → t.hq e m = s.hq e m) ∧
          t.hq d n = { h with cfg := w &&& 0xF000001F#32, res := 0#32, head := 0#32, held := [], clearing := true })) ∧
      -- A clear that no link holds up, with nothing held before the queue.
      (h.clearing = true → fits h → h.posted = [] → (∀ e ∈ h.drains, e.2.1 = true) → (∀ q ∈ s.fab.reqs, ∀ p, q.stage ≠ .queueClear p) →
        (∀ e, s.retrains d e = false ∧ s.cut d e = none) →
        ∃ t : State, exec (.queueClearDone d n) s = .next t ∧ t.hq d n = { h with clearing := false } ∧ ∀ k, t.slotState h k = 0) ∧
      (h.en = true → w.getLsbD 31 = true → w.getLsbD 30 = true → s.queueParked d n 1 = [] → s.queueParked d n 2 = [] →
        exec (.qcfgClose d n w) s = .next (s.updHq d n fun x => { x with cfg := x.cfg ||| 0x40000000#32 }))) ∧
    (∀ d n bytes, d < 4 → n < 4096 →
      let h := s.hq d n
      let off := 0x40000 * d + 64 * n
      (h.en = true → h.clearing = false → bytes.length = h.isize → h.closed = false → h.full = false → s.queueParked d n 1 = [] → fits h →
        NoLink s 0 d h h.res →
        ∃ t : State, exec (.apertureWrite off bytes) s = .next t ∧ puts s t d n h.res bytes ∧ others s t d n h.res ∧
          (t.hq d n).res = h.res + 1#32) ∧
      (h.en = false ∨ bytes.length ≠ h.isize → exec (.apertureWrite off bytes) s = .next (s.count 0x64)) ∧
      (h.en = true → bytes.length = h.isize → h.clearing = false → s.queueWaits 0 d (h.slotDies h.res) = false → s.queueParked d n 1 = [] →
        h.closed = true ∨ h.full = true ∨ (s.queueCut 0 d (h.slotDies h.res)).isSome = true →
        exec (.apertureWrite off bytes) s = .next (({ s with uid := s.uid + 1 } : State).count 0x64)) ∧
      -- Under the queue's clear, or while a link retrains, the write is held, behind those before it.
      (h.en = true → bytes.length = h.isize → h.clearing = true ∨ s.queueWaits 0 d (h.slotDies h.res) = true →
        ∃ k, exec (.apertureWrite off bytes) s =
        .next { s.updHq d n fun x => { x with posted := h.posted ++ [(k, bytes)] } with uid := s.uid + 1 }) ∧
      exec (.apertureRead off) s = .next { s with pkg := { s.pkg with out := s.pkg.out ++ [.aperture (h.res - h.head)] } })

-- Fault records, and how regions and gangs end.

/-- A record is posted once its context's queue has room, everything fired before it on its frozen elements is whole, and a breakpoint's
step has ended: it takes its number, round and cycle, and its elements stay frozen until RESUME; a fault in a generator gang cancels the
fill (R44, R136, R137, R196, R362, R395). The first record of a core is written into its ring and then published, with the ring's message
at once or later; a full ring is counted once and tried again (R428), and a ring beyond a link that fails or retrains keeps its records
waiting (R423, R424). Region stalled and starvation are posted as R191 and R192 say. The
slot of a region-stalled record is free (log 20), what a posting waits for is log 44 and, of an exchange of a chain, log 81, and how the host
enables MSI-X is log 88: the model's choices. -/
def Obligations.FaultRecords : Prop :=
  ∀ s : State,
    (∀ (id : Nat) (p : PRec), s.fab.recs.find? (fun x => x.id = id) = some p →
      let stuck : Prop := 4 ≤ (s.fab.fq.filter fun q => decide (q.ctx = p.ctx ∧ q.core = p.core)).length ∨
        (∃ w ∈ s.fab.wbs, w.id < p.id ∧ s.physOf w.ctx ∈ p.frozen) ∨
        (∃ q ∈ s.fab.reqs, q.id < p.id ∧ s.physOf q.org.ctx ∈ p.frozen ∧ ¬(q.dst = none ∧ q.pdst = none ∧ q.om = 0#8)) ∨
        -- An exchange of a chain that its other members can still complete.
        (∃ x ∈ s.fab.lanes, s.exchGoes x = true ∧ ∃ i ∈ x.got, ∃ w, i.wb = some w ∧ w.id < p.id ∧ s.physOf w.ctx ∈ p.frozen) ∨
        (p.rcd.cls = 0x0E ∧ ∃ g : Region, s.region p.ctx.region = some g ∧ g.lease = p.rcd.lease ∧ p.ctx.el < 65536 ∧ g.stepping = true)
      (stuck → exec (.faultRecordPost id) s = .next s) ∧
      (¬stuck → ∃ (t : State) (r : Rec), exec (.faultRecordPost id) s = .next t ∧
        r = { p.rcd with seq := s.cores.seqs.lookD p.core 0, round := ((s.ctx p.ctx).map fun c => c.rndn).getD 0#32, cyc := s.clk (p.core / 16) } ∧
        t.fab.recs = s.fab.recs.filter (fun x => x.id ≠ id) ∧
        t.fab.fq = s.fab.fq ++ [{ id := s.uid, ctx := p.ctx, core := p.core, ring := p.ring, rcd := r }] ∧
        (∀ k : Nat, t.cores.seqs.lookD k 0 = if k = p.core then (r.seq + 1) % 2 ^ 32 else s.cores.seqs.lookD k 0) ∧
        (∀ e : Nat, (t.elem e).freezes = (s.elem e).freezes.map fun f =>
            (if f.1 = .waiting id ∨ f.1 = .soon id ∨ f.1 = .faulted id then .posted else f.1, f.2)) ∧
        (∀ e : Nat, (t.elem e).ch = (s.elem e).ch ∧ (t.elem e).ptr = (s.elem e).ptr ∧ (t.elem e).spent = (s.elem e).spent) ∧
        (∀ g : Region, s.region p.ctx.region = some g → g.lease = p.rcd.lease → p.ctx.el < 65536 →
          (t.rreg p.ctx.region).fqcnt = (s.rreg p.ctx.region).fqcnt + 1 ∧
          (p.rcd.cls = 0x0D ∨ p.rcd.cls = 0x0E → ∀ x : Ctx, s.ctx p.ctx = some x → t.ctx p.ctx = some { x with trapped := true }) ∧
          ∀ f : Fill, s.fillOfGang g.gang = some f → p.rcd.cls ≠ 6 → p.rcd.cls ≠ 0x0E →
            (∀ g ∈ s.dies.fills, fillKey g = fillKey f → g.cancelled = false → g = f) →
            ∃ g ∈ t.dies.fills, fillKey g = fillKey f ∧ g.cancelled = true ∧ g.cause = p.rcd.cls ∧
              g.cls = if p.rcd.cls = 9 ∨ p.rcd.cls = 0x0A then p.rcd.cls else 8))) ∧
    -- The 64 bytes of a record (R197).
    (∀ r : Rec, r.bytes.length = 64 ∧ (∀ off n v : Nat, (off, n, v) ∈ [(0x00, 1, r.cls), (0x01, 1, r.flags), (0x02, 2, r.lease), (0x04, 4, r.seq),
        (0x08, 1, r.tx), (0x09, 1, r.ty), (0x0A, 1, r.exy), (0x0B, 1, r.ks), (0x0C, 1, r.wsel), (0x0D, 1, 0), (0x0E, 2, r.inst),
        (0x10, 4, r.round.toNat), (0x14, 4, r.word.toNat), (0x18, 8, r.va), (0x30, 8, r.lrec), (0x38, 8, r.cyc)] →
      leNat ((r.bytes.drop off).take n) = v % 256 ^ n) ∧ ∀ n, n < 16 → r.bytes.getD (0x20 + n) 0#8 = r.info.getD n 0#8) ∧
    -- Forwarding.
    (∀ (id : Nat) (q : QRec), s.fab.fq.find? (fun x => x.id = id) = some q → s.fab.fq.find? (fun x => x.core = q.core) = some q →
      let e := s.frEntry q.ring
      let f (off len : Nat) : Nat := s.frField q.ring off len
      let slot := f 0 8 + 64 * (f 0x10 4 % 2 ^ f 8 1)
      let full : Prop := 2 ^ f 8 1 ≤ (f 0x10 4 + 2 ^ 32 - f 0xC 4) % 2 ^ 32
      ∀ i : Instr, i = .faultRecordForward id ∨ i = .faultRingRetest id →
        (s.badRing q.ring = true ∨ s.ringAway q = true ∨ (full ∧ q.waited = true) → exec i s = .next s) ∧
        (s.badRing q.ring = false → s.ringAway q = false → s.memoryOk → e + 32 ≤ pkgBytes →
          (¬full → slot + 64 ≤ pkgBytes → (slot + 64 ≤ e ∨ e + 32 ≤ slot) →
            ∃ t : State, exec i s = .next t ∧ t.physBytes slot 64 = q.rcd.bytes ∧ t.fab.fq = s.fab.fq.filter (fun x => x.id ≠ id) ∧
              t.frField q.ring 0x10 4 = (f 0x10 4 + 1) % 2 ^ 32 ∧ t.frField q.ring 0x14 4 = (f 0x10 4 + 1) % 2 ^ 32 ∧
              (bitOf 1 (f 9 1) = false → t.pkg = s.pkg) ∧
              (bitOf 1 (f 9 1) = true → (t.pkg.out = s.pkg.out ++ [.msix (f 0xA 2)] ∧ ∀ m ∈ t.pkg.msix, m.ring ≠ q.ring) ∨
                (t.pkg.out = s.pkg.out ∧ ∃ m ∈ t.pkg.msix, m.ring = q.ring))) ∧
          (full → q.waited = false → ∃ t : State, exec i s = .next t ∧ t.frField q.ring 0x18 4 = min 0xFFFFFFFF (f 0x18 4 + 1) ∧
            t.fab.fq = s.fab.fq.map fun x => if x.id = id then { x with waited := true } else x))) ∧
    (∀ (ring : Nat) (m : Msix), s.pkg.msix.find? (fun x => x.ring = ring) = some m →
      (s.msixOn = false → exec (.msixCoalesceDeadline ring) s = .next s) ∧
      (s.msixOn = true → exec (.msixCoalesceDeadline ring) s = .next
        { s with pkg := { s.pkg with out := s.pkg.out ++ [.msix m.vec], msix := s.pkg.msix.filter fun x => x.ring ≠ ring } })) ∧
    (∀ (r : Nat) (g : Region) (b : Blocker) (rest : List Blocker), s.region r = some g → s.blockers r g = b :: rest → 2 ^ s.dlx r ≤ g.stall → g.stalled = false →
      ∃ (t : State) (q : PRec), exec (.regionStalled r) s = .next t ∧ t.fab = { s.fab with recs := s.fab.recs ++ [q] } ∧ t.store = s.store ∧
        t.region r = some { g with stalled := true } ∧ t.rreg r = { s.rreg r with stall := true } ∧
        q.ctx = b.ctx ∧ q.frozen = [] ∧ q.rcd.cls = 6 ∧ q.rcd.lease = g.lease ∧ q.rcd.inst = g.inst ∧ q.rcd.tx = b.ctx.el / 16 % 8 ∧
        q.rcd.ty = b.ctx.el / 16 / 8 % 16 ∧ q.rcd.exy = b.ctx.el % 16 ∧ q.rcd.word = b.word) ∧
    (∀ (c : CtxId) (slot : Nat) (g : Region) (x : Ctx), s.region c.region = some g → g.ctx c.el c.k = some x → slot < x.starv.length → x.starv.getD slot 0 = 2 ^ s.svx c.region →
      ∃ t : State, exec (.starvation c slot) s = .next t ∧ (t.rreg c.region) = { s.rreg c.region with starve := true } ∧ t.store = s.store ∧
        ((s.rreg c.region).dlcfg.getLsbD 16 = false → t.fab = s.fab) ∧
        ((s.rreg c.region).dlcfg.getLsbD 16 = true →
          let is (r : Rec) : Prop := r.cls = 0x0D ∧ r.info = [0xFE#8, 0xFF#8] ∧ r.tx = c.el / 16 % 8 ∧ r.ty = c.el / 16 / 8 % 16 ∧
            r.exy = c.el % 16 ∧ r.ks = c.k + 16 * slot ∧ r.lease = g.lease
          (x.isRounded = false → ∃ q : PRec, t.fab.recs = s.fab.recs ++ [q] ∧ q.ctx = c ∧ is q.rcd ∧
            ∀ el ∈ g.chainOf c.el c.k, (t.elem (g.phys el)).freeze = .waiting q.id) ∧
          (x.isRounded = true → t.fab = s.fab ∧ ∃ (y : Ctx) (r : Rec), t.ctx c = some y ∧ y.traps = x.traps ++ [r] ∧ is r)))

/-- A region whose contexts have retired and that has nothing under way is complete and leaves its slot, and its gang completes once all
its instances have: a release, then its counter, its successors and its signal (R176, R300, R302, R362). A kill ends a region at once,
which leaves its slot once its tokens and its drain are gone (R194). RESUME lets elements, rounds, generators, jobs and contexts go on
(R46, R179, R189, R226, R272). What a kill leaves behind is log 61, which requests stand after it is log 82, and whose a shared frozen element
is, by the region whose firing froze it, is log 74: the model's choices. -/
def Obligations.EndsAndResumes : Prop :=
  ∀ s : State,
    let leaves (t : State) (r : Nat) (g : Region) (code : Nat) : Prop :=
      t.region r = none ∧ (t.rreg r).state = code ∧ (t.rreg r).lease = (s.rreg r).lease ∧ t.store = s.store ∧ t.dies.due = [0, 1, 2, 3] ∧
      (∀ (q : Nat) (h : Region), q ≠ r → s.region q = some h → ∃ k : Region, t.region q = some k ∧ k = { h with rings := k.rings }) ∧
      (∀ p : Nat, (t.elem p).ptr = (s.elem p).ptr ∧ (t.elem p).freezes = (s.elem p).freezes.filter (fun f => f.2 ≠ r) ∧
        ∀ n, (t.elem p).chan n = ((s.elem p).chan n).filter fun k => !g.ctxs.any fun c => decide (g.phys c.el = p ∧ c.k = k.tag.toNat % 8))
    (∀ (r : Nat) (g : Region), s.region r = some g →
      let complete : Prop := g.on = true ∧ g.dead = false ∧ (∀ c ∈ g.ctxs, c.isSystolic = true ∨ c.retired = true) ∧ g.round.isOpen = false ∧
        g.round.drain = [] ∧ g.round.h0.entries = [] ∧ g.round.h1.entries = [] ∧ s.quietRegion r g = true
      (¬complete → exec (.regionComplete r) s = .next s) ∧
      (complete → ∃ t : State, exec (.regionComplete r) s = .next t ∧ leaves t r g 4 ∧
        ∀ x : Gang, s.gang g.gang = some x → ∃ y : Gang, t.gang g.gang = some y ∧
          y.insts = (x.insts.map fun i => if i.inst = g.inst then { i with st := .completed } else i) ∧
          (y.st = x.st ∨ (y.st = .ended ∧ ∃ i ∈ y.insts, i.st ≠ .completed)))) ∧
    (∀ (n : Nat) (g : Gang), s.gang n = some g →
      (g.st = .running → g.saved = [] → (∀ i ∈ g.insts, i.st = .completed) →
        ∃ t : State, exec (.gangComplete n) s = .next t ∧ t.gang n = some { g with st := .completing, step := 1 } ∧
          t.store = { s.store with wides := t.store.wides } ∧ ∃ w : Wide, t.store.wides = s.store.wides ++ [w] ∧ w.for_ = .gang n ∧
            -- Of every cluster that an instance has stood in.
            ∀ c, (c ∈ g.clusters ∨ ∃ i ∈ g.insts, c = clusterOf i.region) → ∀ l ∈ s.dirtyLines c, l ∈ w.lines) ∧
      (g.st = .completing → s.dieWaits g.die = true ∨ s.waits (.gang n 0) = true → exec (.gangComplete n) s = .next s) ∧
      (g.st = .completing → g.step = 2 → g.id.toNat = n → s.dieWaits g.die = false → s.waits (.gang n 0) = false → (∀ k : Nat, k < 4 → fieldAt g.rcd (0x80 + 8 * k) 8 = 0) → s.fillOfGang n = none →
        (fieldAt g.rcd 0x38 8 = 0 → g.from_ = none → exec (.gangComplete n) s = .next (s.updGang n fun x => { x with step := 7, st := .ended })) ∧
        (∀ (loc : Nat) (u : State), fieldAt g.rcd 0x38 8 ≠ 0 → g.from_ = none → s.memoryOk →
          s.xlate { die := g.die, as_ := g.as_, va := fieldAt g.rcd 0x38 8, r := true, w := true, gang := g.id.toNat } = (.ok loc, u) →
          u.cut g.die (homeDie loc) = none → u.store.marks.look (loc / 32) = none → loc % 4 = 0 →
          ∃ t : State, exec (.gangComplete n) s = .next t ∧ (t.gang n).map (fun x => x.st) = some .ended ∧
            t.homeBytes loc 4 = natLe 4 (leNat (u.homeBytes loc 4) + 1)) ∧
        (∀ p : Packet, fieldAt g.rcd 0x38 8 = 0 → g.from_ = some p →
          ∃ t : State, exec (.gangComplete n) s = .next t ∧ (t.gang n).map (fun x => x.st) = some .ended ∧ t.store = s.store ∧
            Signals s t (coreOf p.org.ctx.region) p.cmd))) ∧
    (∀ (r : Nat) (g : Region), s.region r = some g →
      let mine (o : Origin) : Prop := o.ctx.region = r ∧ o.lease = g.lease
      (g.dead = true → exec (.kill r) s = .next s) ∧
      (g.dead = false → ∃ (t : State) (h : Region), exec (.kill r) s = .next t ∧ t.region r = some h ∧ h.dead = true ∧ h.queues = [] ∧ h.nodes = [] ∧ h.brake = none ∧
        (∀ e ∈ h.gens, e.2.running = false) ∧ h.round.isOpen = false ∧ h.round.drain = g.round.drain ∧
        (0 ∉ g.round.drain → h.round.h0.entries = []) ∧ (1 ∉ g.round.drain → h.round.h1.entries = []) ∧
        (t.rreg r).state = 6 ∧ (∀ q : Nat, q ≠ r → t.region q = s.region q) ∧
        (∀ w ∈ t.fab.wbs, w.ctx.region ≠ r) ∧ (∀ f ∈ t.fab.flits, f.ctx.region = r → f.filled = true) ∧
        (∀ q ∈ t.fab.reqs, mine q.org → Standing q) ∧ (∀ q ∈ s.fab.reqs, Standing q → q ∈ t.fab.reqs) ∧
        (∀ p : Nat, (t.elem p).freezes = (s.elem p).freezes.filter fun f => f.2 ≠ r) ∧ (∀ l ∈ t.cores.loads, ¬mine l.pkt.org) ∧
        (∀ w ∈ t.cores.sweeps, ¬mine w.pkt.org) ∧
        t.cores.jobs = (s.cores.jobs.map fun j => if j.pkt.org.ctx.region = r ∧ j.pkt.org.lease = g.lease then { j with st := .aborting } else j) ∧
        ∀ x : Gang, s.gang g.gang = some x → ∃ y : Gang, t.gang g.gang = some y ∧
          y.insts = x.insts.map fun i => if i.inst = g.inst then { i with st := .killed } else i) ∧
      (∀ gone : Prop, gone = (g.dead = true ∧ (∀ f ∈ s.fab.flits, f.ctx.region ≠ r) ∧ g.round.drain = []) →
        (¬gone → exec (.killRelease r) s = .next s) ∧ (gone → ∃ t : State, exec (.killRelease r) s = .next t ∧ leaves t r g 6)) ∧
      (g.dead = false → ∃ (t : State) (h : Region), exec (.resume r) s = .next t ∧ t.region r = some h ∧ t.store = s.store ∧ (∀ q : Nat, q ≠ r → t.region q = s.region q) ∧
        (∀ p : Nat, (t.elem p).ch = (s.elem p).ch ∧ (t.elem p).ptr = (s.elem p).ptr ∧
          (t.elem p).freezes = (s.elem p).freezes.filter fun f => decide (¬(f.2 = r ∧ f.1 = .posted))) ∧
        (h.round.held = true ↔ g.round.held = true ∧ ∃ p ∈ s.fab.recs, p.ctx.region = r ∧ p.rcd.flags.testBit 1 = true) ∧
        (∀ e ∈ g.gens, e.2.faulted = true → (e.1, { e.2 with faulted := false, running := true }) ∈ h.gens) ∧
        (∀ c ∈ g.ctxs, (∀ p ∈ s.fab.recs, p.ctx ≠ c.id r) → { c with trapped := false } ∈ h.ctxs) ∧
        h.stalled = false ∧ h.stepHeld = false ∧
        -- As many of its paused jobs run again as 32 at once allow; the others wait for their turn.
        (∀ j ∈ s.cores.jobs, j.pkt.org.ctx.region = r → j.pkt.org.lease = g.lease → j.st = .paused →
          ((s.cores.jobs.filter fun x => decide (x.core = j.core ∧ (x.st = .running ∨ x.st = .paused))).length ≤ 32 →
            { j with st := .running, begun := true } ∈ t.cores.jobs) ∧
          ({ j with st := .running, begun := true } ∈ t.cores.jobs ∨
            { j with st := .waiting, pkt := { j.pkt with met := true } } ∈ t.cores.jobs)) ∧
        ∀ c ∈ s.dies.colls, c.pkt.org.ctx.region = r → c.pkt.org.lease = g.lease → { c with paused := false } ∈ t.dies.colls))

-- Launches and rounds.

/-- A LAUNCH packet is rejected, waits, is aborted, or has its record accepted; a gang's record waits for its PRED; a ready gang is
placed where it fits, loads, and is enabled once all of it has loaded; one that cannot be placed pre-empts gangs of lower PRIO (R174,
R258, R259, R296 to R302, R371 to R373). A dispatcher and a loader read nothing while a link of their die retrains (R423). The order among placements is free (log 25). -/
def Obligations.Launches : Prop :=
  ∀ s : State,
    let taken (die : Nat) (p : Packet) (u t : State) : Prop :=
      let as_ := ((s.gang p.org.gang).map fun g => g.as_).getD 0
      let a : Submission :=
        { die, lrec := fieldAt p.cmd 8 8, recAs := as_, as_ := some as_, argo := fieldAt p.cmd 0x10 8, adj := p.adj.toInt, pkt := some p }
      ∀ (id : Word) (v : State), u.accept a = (.ok id, v) → Replied v t p id true ∧ t.dies = v.dies
    (∀ (die : Nat) (p : Packet) (rest : List Packet), s.dies.dispIn.lookD die [] = p :: rest →
      let f (off n : Nat) : Nat := fieldAt p.cmd off n
      let core := coreOf p.org.ctx.region
      let u : State := { s with dies := { s.dies with dispIn := s.dies.dispIn.put die rest } }
      let waiting := s.dies.dispWait.lookD die []
      let sound : Prop := badHeader p.cmd = none ∧ f 8 8 % 256 = 0 ∧ f 8 8 < 2 ^ 56 ∧ f 0x10 8 < 2 ^ 56 ∧ f 0x18 8 = 0
      (s.dieWaits die = true → exec (.launchPacketAccept die) s = .next s) ∧
      (s.dieWaits die = false → ∃ t : State, exec (.launchPacketAccept die) s = .next t ∧
        (∀ o : Nat, (badHeader p.cmd = some o ∨ (badHeader p.cmd = none ∧
            (if f 8 8 % 256 ≠ 0 ∨ 2 ^ 56 ≤ f 8 8 then o = 8 else if 2 ^ 56 ≤ f 0x10 8 then o = 0x10 else f 0x18 8 ≠ 0 ∧ o = 0x18))) →
          t.dies.dispIn.lookD die [] = rest ∧ Aborts s t core p.cmd ∧ Replied s t p 0xFFFFFFFF#32 false ∧
          Posts s t p.org 0x0F ([0x59#8, BitVec.ofNat 8 o, 0xFF#8, 0xFF#8] ++ natLe 4 0 ++ wordLe p.loc)) ∧
        (sound → WaitMet s p → taken die p u t) ∧
        (sound → WaitAborted s p → t.dies.dispIn.lookD die [] = rest ∧ Aborts s t core p.cmd ∧ Replied s t p 0xFFFFFFFF#32 false ∧
          t.fab.recs = s.fab.recs) ∧
        (sound → ¬WaitMet s p → ¬WaitAborted s p →
          (waiting.length < 256 → t.dies.dispIn.lookD die [] = rest ∧ t.dies.dispWait.lookD die [] = waiting ++ [p]) ∧
          (256 ≤ waiting.length → t = s)))) ∧
    (∀ (die : Nat) (p : Packet) (pre post : List Packet), s.dies.dispWait.lookD die [] = pre ++ p :: post → (∀ x ∈ pre, ¬WaitMet s x ∧ ¬WaitAborted s x) →
      (∀ x ∈ pre ++ post, x.id ≠ p.id) → s.dieWaits die = false →
      ∃ t : State, exec (.launchWaitMet die p.id) s = .next t ∧
        (WaitMet s p → taken die p { s with dies := { s.dies with dispWait := s.dies.dispWait.put die (pre ++ post) } } t) ∧
        (WaitAborted s p → t.dies.dispWait.lookD die [] = pre ++ post ∧ Aborts s t (coreOf p.org.ctx.region) p.cmd ∧
          Replied s t p 0xFFFFFFFF#32 false ∧ t.fab.recs = s.fab.recs) ∧
        (¬WaitMet s p → ¬WaitAborted s p → t = s)) ∧
    -- What is accepted (R298, R299, R302).
    (∀ (a : Submission) (id : Word) (u : State), s.accept a = (.ok id, u) → ∃ g : Gang, u.gang id.toNat = some g ∧ g.id = id ∧ g.die = a.die ∧ g.recVA = a.lrec ∧ g.from_ = a.pkt ∧
      g.fill = a.fill ∧ g.order = s.dies.order ∧ u.dies.order = s.dies.order + 1 ∧
      (let n := a.die * 2 ^ 30 + s.dies.accepted.lookD a.die 0 % 2 ^ 30
       n ≠ 0xFFFFFFFF → id = BitVec.ofNat 32 n) ∧
      (fieldAt g.rcd 8 2 = 0 → g.st = .ready ∧ a.die ∈ u.dies.due) ∧ (fieldAt g.rcd 8 2 ≠ 0 → g.st = .pending ∧ g.predLoc.isSome = true) ∧
      g.insts = (List.range (instCount (levelsOf g.rcd))).map (fun i => { inst := i }) ∧ g.saved = []) ∧
    (∀ (n : Nat) (g : Gang), s.gang n = some g →
      (g.st = .pending ∧ g.predZero = true → ∃ t : State, exec (.gangReady n) s = .next t ∧ g.die ∈ t.dies.due ∧
        t.gang n = some { g with st := .ready, predLoc := none, since := s.clk g.die }) ∧
      (¬(g.st = .pending ∧ g.predZero = true) → exec (.gangReady n) s = .next s)) ∧
    -- A dispatcher with one ready gang places it, if it fits.
    (∀ die : Nat, (die ∉ s.dies.due → exec (.dispatcherTry die) s = .next s) ∧
      (die ∈ s.dies.due → ∃ t : State, exec (.dispatcherTry die) s = .next t ∧
        (s.readyGangs die = [] → t = { s with dies := { s.dies with due := s.dies.due.filter fun d => d ≠ die } }) ∧
        (∀ (g : Gang) (n c : Nat) (es : List (Nat × Region)), s.readyGangs die = [g] → s.gang n = some g → g.id.toNat = n → (∀ e ∈ s.dies.gangs, e.2.id.toNat = e.1) →
          s.wanted g = [] → s.fit g s.regions = some (c, es) →
          ∃ x : Gang, t.gang n = some x ∧ x.st = .loading ∧ x.cog = c ∧ (∀ e ∈ es, (t.region e.1).isSome = true) ∧
            x.insts = g.insts.map fun i => match es.find? fun e => e.2.inst = i.inst with
              | some e => { i with region := e.1, st := .loading, fault := none }
              | none => i))) ∧
    (∀ (n i : Nat) (g : Gang) (x : Inst) (old : Region), s.gang n = some g → g.insts.find? (fun y => y.inst = i && y.st = .loading) = some x → (∀ v ∈ g.saved, v.inst ≠ i) →
      s.region x.region = some old →
      let r := x.region
      let lease := (s.newLease (coreOf r)).1
      let u := (s.newLease (coreOf r)).2.updRreg r fun q => { q with lease, drops := 0, disc := 0, fqcnt := 0 }
      (s.dieWaits (dieOf r) = true → exec (.frameLoad n i) s = .next s) ∧
      let loaded (t : State) (f : Inst → Option Rec) : Prop := ∃ y : Gang, t.gang n = some y ∧
        y.insts = (g.insts.map fun j => if j.inst = i then { j with st := .loaded, fault := f j } else j)
      (s.dieWaits (dieOf r) = false → ∃ t : State, exec (.frameLoad n i) s = .next t ∧
        (∀ (rcd : Rec) (u' : State), u.loadFrame g r lease old = (.error rcd, u') → loaded t (fun _ => some rcd) ∧ rcd.flags = 0x20) ∧
        (∀ (f : Frame) (m : Array Byte) (u' : State) (rcd : Rec) (w : State), u.loadFrame g r lease old = (.ok (f, m), u') → u'.loadWins g r lease i = (.error rcd, w) →
          loaded t (fun _ => some rcd) ∧ rcd.flags = 0x20) ∧
        (∀ (f : Frame) (m : Array Byte) (u' : State) (wins : List Window) (w : State) (h : Region), u.loadFrame g r lease old = (.ok (f, m), u') → u'.loadWins g r lease i = (.ok wins, w) →
          w.reclaim g r old f = some h → loaded t (fun j => j.fault) ∧ t.region r = some { h with lease, wins } ∧ (t.rreg r).lease = lease ∧
          (w.fillFor g = none → ∀ b off : Nat, b < h.bufs.length → off < h.bufSize b →
            (∀ d ∈ f.datas, h.spadKey b off < h.spadKey d.1 d.2.1 ∨ h.spadKey d.1 d.2.1 + d.2.2.1 ≤ h.spadKey b off) →
            cellAt t.store.spad (h.spadKey b off) = 0#8)))) ∧
    (∀ (n : Nat) (g : Gang), s.gang n = some g → (∃ i ∈ g.insts, i.st = .loaded) → (∀ i ∈ g.insts, i.st ≠ .loading) →
      ∃ t : State, exec (.gangEnable n) s = .next t ∧
        ((∀ i ∈ g.insts, i.st = .loaded → i.fault = none ∧ (s.region i.region).isSome = true) →
          (∃ x : Gang, t.gang n = some x ∧ x.st = .running ∧
            x.insts = g.insts.map fun i => if i.st = .loaded then { i with st := .running } else i) ∧
          -- An instance whose place has been claimed meanwhile is braked at once (R373).
          ∀ i ∈ g.insts, i.st = .loaded → ∃ h : Region, t.region i.region = some h ∧ h.on = true ∧
            ∀ k : Region, s.region i.region = some k → (k.claimant = none → (t.rreg i.region).state = 2) ∧
              (k.claimant.isSome = true → k.dead = false → k.brake = none → (t.rreg i.region).state = 3 ∧ h.brake.isSome = true)) ∧
        (∀ (i : Inst) (rcd : Rec), i ∈ g.insts → i.st = .loaded → i.fault = some rcd → g.st = .loading → g.saved = [] → g.id.toNat = n →
          (∀ j ∈ g.insts, j.st = .loaded → j = i ∨ i.inst < j.inst) →
          (∃ q, t.fab.recs = s.fab.recs ++ [q] ∧ q.rcd = rcd) ∧ (∀ j ∈ g.insts, j.st = .loaded → t.region j.region = none) ∧
          (∃ x : Gang, t.gang n = some x ∧ x.st = .ended ∧ ∀ j ∈ x.insts, j.st = .failed) ∧
          ∀ p, g.from_ = some p → Aborts s t (coreOf p.org.ctx.region) p.cmd)) ∧
    (∀ (n : Nat) (x : Gang), s.gang n = some x →
      let ripe : Prop := ∃ t0, x.stuck = some t0 ∧ t0 + 2 ^ s.pwx x.die ≤ s.clk x.die
      (¬ripe → exec (.preemptionWaitExpiry n) s = .next s) ∧
      (∀ (whole : List Gang) (part : Option (Gang × List Nat × List Nat)) (es : List (Nat × Region)), ripe → s.isReady x = true → x.want = [] → s.choose x (s.victims x) [] s.regions = some (whole, part, es) →
        ∃ t : State, exec (.preemptionWaitExpiry n) s = .next t ∧ (∀ v ∈ whole, v ∈ s.victims x ∧ v.st = .running ∧ v.base < x.base) ∧
          ∀ v ∈ whole, ∀ (r : Nat) (h : Region), s.region r = some h → h.gang = v.id.toNat → h.on = true → h.dead = false →
            ∃ k : Region, t.region r = some k ∧ k.brake.isSome = true))

/-- A round opens once the one before it has committed and its half of the store buffer is free: init slots are armed and generators receive their
quotas, and the round set has a view of every ring that it reaches (R181, R184, R188). A quiescent round commits: contexts count it, retirements and ring counters take effect, the checkpoint is taken and its half
drains (R138, R180, R186, R187). Entries drain one by one, in order (R187, R219, R290); a held
TCPY moves one row in a cycle that no sweep beat takes (R232). What a commit publishes of a ring's head where agents inside and outside the round
set pop it is the model's reading (log 35). -/
def Obligations.Rounds : Prop :=
  ∀ s : State, s.memoryOk → ∀ (r : Nat) (g : Region), s.region r = some g →
    let mayOpen : Prop := g.on = true ∧ g.dead = false ∧ g.round.isOpen = false ∧ g.round.held = false ∧ g.stepping = false ∧ g.stepHeld = false ∧
      (∃ c ∈ g.ctxs, c.isRounded = true ∧ c.retired = false) ∧ (∀ c ∈ g.ctxs, c.isRounded = true → c.trapped = false) ∧
      g.round.n % 2 ∉ g.round.drain ∧ g.round.half.entries = []
    -- Where another round set reaches a ring of which it had no view yet, it has one from now on; nothing else of another region changes.
    let viewed (x y : Region) : Prop := y = { x with rings := y.rings } ∧ y.rings.length = x.rings.length ∧
      ∀ (n : Nat) (a b : Ring), x.rings[n]? = some a → y.rings[n]? = some b → b = { a with views := b.views } ∧
        ∀ (k : Nat) (v : RView), (a.views.look k = some v → b.views.look k = some v) ∧
          (a.views.look k = none → b.views.look k = some v → v = { head := a.head, tail := a.tail, committed := a.head })
    (mayOpen → ∃ (t : State) (h : Region), exec (.roundOpen r) s = .next t ∧ t = { s with regions := t.regions } ∧ t.region r = some h ∧
      (∀ q : Nat, q ≠ r → (s.region q = none → t.region q = none) ∧
        ∀ x : Region, s.region q = some x → ∃ y : Region, t.region q = some y ∧ viewed x y) ∧
      (∀ (m : Nat) (x : Ring), m < g.rings.length → t.ring (s.ringOf r m).1 (s.ringOf r m).2 = some x → (x.views.look r).isSome = true) ∧
      h.round.isOpen = true ∧ h.round.n = g.round.n ∧
      h.ctxs = (g.ctxs.map fun c => if c.isRounded then { c with armed := 0xFFFF#16 } else c) ∧
      ∀ e ∈ g.gens, e.2.rounded = true → e.2.running = true →
        (e.1, { e.2 with quota := if g.brake.isSome then 0 else e.2.grant }) ∈ h.gens) ∧
    (¬mayOpen → exec (.roundOpen r) s = .next s) ∧
    (s.quiescent r g = false → exec (.roundCommit r) s = .next s) ∧
    (s.quiescent r g = true → ∃ (t : State) (h : Region), exec (.roundCommit r) s = .next t ∧ t.region r = some h ∧ t.store = s.store ∧
      h.round.n = g.round.n + 1 ∧ h.round.isOpen = false ∧
      h.round.drain = (if g.round.half.entries = [] then g.round.drain else g.round.drain ++ [g.round.n % 2]) ∧
      h.round.half = (if g.round.n % 2 = 0 then g.round.h1 else g.round.h0) ∧
      h.ctxs.length = g.ctxs.length ∧
      (∀ c ∈ g.ctxs, c.isRounded = false → ∃ d ∈ h.ctxs, d.el = c.el ∧ d.k = c.k ∧ d.regs = c.regs ∧ d.rndn = c.rndn ∧ d.retired = c.retired) ∧
      (∀ c ∈ g.ctxs, c.isRounded = true → ∃ d ∈ h.ctxs, d.el = c.el ∧ d.k = c.k ∧ d.regs = c.regs ∧ d.preds = c.preds ∧
        d.rndn = c.rndn + 1#32 ∧ d.retired = (c.retired || c.retiring) ∧ d.trapped = decide (c.traps ≠ []) ∧ d.traps = []) ∧
      (∀ c ∈ g.ctxs, c.isRounded = true → ∀ x ∈ c.traps, ∃ q ∈ t.fab.recs, q.rcd = x ∧ q.ctx = c.id r) ∧
      (∀ (n : Nat) (x : Ring) (w : RView), g.rings.drop n = x :: g.rings.drop (n + 1) → x.views.look r = some w →
        ∃ (y : Ring) (v : RView), h.rings.drop n = y :: h.rings.drop (n + 1) ∧ y.tail = w.tail ∧ y.head = (if w.head = w.committed then x.head else w.head) ∧
          y.views.look r = some v ∧ v.head = y.head ∧ v.tail = w.tail ∧ v.committed = y.head) ∧
      ∃ sh : Shadow, h.round.shadow = some sh ∧ sh.ctxs.map (fun c => (c.el, c.k, c.regs, c.preds)) =
        (h.ctxs.filter fun c => c.isRounded).map fun c => (c.el, c.k, c.regs, c.preds)) ∧
    -- The drain.
    (g.round.drain = [] → exec (.drainEntry r) s = .next s) ∧
    (∀ (n : Nat) (rest : List Nat), g.round.drain = n :: rest → n < 2 →
      let x : Half := if n = 0 then g.round.h0 else g.round.h1
      let now (t : State) (f : Half → Prop) : Prop := ∃ h : Region, t.region r = some h ∧ f (if n = 0 then h.round.h0 else h.round.h1)
      (x.wait.isSome = true → exec (.drainEntry r) s = .next s) ∧
      (x.wait = none → x.entries = [] → ∃ (t : State) (h : Region), exec (.drainEntry r) s = .next t ∧ t.region r = some h ∧ h.round.drain = rest ∧
        (if n = 0 then h.round.h0 else h.round.h1) = {} ∧ t.store = s.store) ∧
      (∀ (e : Entry) (es : List Entry), x.wait = none → x.entries = e :: es →
        (∀ (key : Nat) (bs : List Byte), e.eff = .spad key bs → ∃ t : State, exec (.drainEntry r) s = .next t ∧ now t (fun y => y.entries = es ∧ y.wait = none) ∧
          cellsAt t.store.spad key bs.length = bs) ∧
        (∀ (key : Nat) (w : Word), e.eff = .twr key w → s.storeBusy (key / 8192) = true → exec (.drainEntry r) s = .next s) ∧
        (∀ (key : Nat) (w : Word), e.eff = .twr key w → s.storeBusy (key / 8192) = false → ∃ t : State, exec (.drainEntry r) s = .next t ∧ now t (fun y => y.entries = es ∧ y.wait = none) ∧
          t.store.tstore.lookD key 0#32 = w) ∧
        (∀ rw bw : Word, e.eff = .tcpy rw bw →
          let row := g.rowKey (e.org.ctx.el / 16) (tcRow rw) 0
          (s.storeBusy (row / 8192) = true → exec (.drainEntry r) s = .next s) ∧
          (∀ u : State, s.storeBusy (row / 8192) = false → s.tcopyRow (tcDir rw) row (g.spadKey (tcBuf bw) (tcOff bw)) = (none, u) →
            ∃ t : State, exec (.drainEntry r) s = .next t ∧ t.store = u.store ∧ now t (fun y => y.wait = none ∧
              y.entries = (if tcCount rw ≤ 1 then es else { e with eff := .tcpy (rw - 0xFF#32) (bw + 128#32) } :: es)))) ∧
        (∀ (loc va : Nat) (bs : List Byte) (wide : Bool), e.eff = .st loc va bs wide → s.cut (dieOf r) (homeDie loc) = none → loc % 32 + bs.length ≤ 32 →
          loc + bs.length ≤ 2 ^ 40 →
          (e.lost = true → (wide = false ∨ x.released = true) → ∃ t : State, exec (.drainEntry r) s = .next t ∧
            now t (fun y => y.entries = es ∧ y.wait = none) ∧ t.store = s.store) ∧
          (wide = true → x.released = false → ∃ (t : State) (w : Nat), exec (.drainEntry r) s = .next t ∧
            now t (fun y => y.entries = e :: es ∧ y.wait = some w) ∧
            t.store.wides = s.store.wides ++ [{ id := w, lines := s.dirtyLines (clusterOf r), for_ := .drain r n }]) ∧
          (wide = true → e.lost = false → x.released = true → s.retrains (dieOf r) (homeDie loc) = true → exec (.drainEntry r) s = .next s) ∧
          (e.lost = false → wide = false ∨ (x.released = true ∧ s.retrains (dieOf r) (homeDie loc) = false) → ∃ t : State, exec (.drainEntry r) s = .next t ∧ now t (fun y => y.entries = es ∧ y.wait = none) ∧
            (∀ i, i < bs.length → t.clusterByte (clusterOf r) (loc + i) = bs.getD i 0#8) ∧
            (wide = true → ∀ i, i < bs.length → t.homeByte (loc + i) = bs.getD i 0#8) ∧
            (wide = false → Room s (clusterOf r) loc → t.store.cells = s.store.cells))) ∧
        (∀ p : Packet, e.eff = .cmd p →
          (p.opc = 0x50 ∨ p.opc = 0x51 ∨ p.opc = 0x52 → ∃ t : State, exec (.drainEntry r) s = .next t ∧
            t.cores.going = s.cores.going ++ [p] ∧ now t (fun y => y.entries = es ∧ y.wait = some p.id)) ∧
          (p.opc = 0x53 → ∃ t : State, exec (.drainEntry r) s = .next t ∧ now t (fun y => y.entries = es ∧ y.wait = some p.id) ∧
            t.cores.copyIn.lookD (coreOf p.org.ctx.region) [] = s.cores.copyIn.lookD (coreOf p.org.ctx.region) [] ++ [p]) ∧
          (p.opc = 0x54 ∨ p.opc = 0x55 → ∃ (t : State) (o : SyncOp), exec (.drainEntry r) s = .next t ∧ now t (fun y => y.entries = es ∧ y.wait = some p.id) ∧
            t.cores.syncs = s.cores.syncs ++ [o] ∧ o.what = p.syncDo ∧ o.due = s.regionClk r))))

-- Engines.

/-- Copy jobs: a well-formed card takes a free slot and its tag answers, whatever has become of the placement that sent it (R256), and a malformed
one is dropped; a job whose wait and edges let it starts; a chunk
between buffers copies its bytes, credits its barrier, and the last raises the signal; a fault pauses the job; an aborted one leaves its slot (R258, R259,
R264, R266 to R272, R281, R451). -/
def Obligations.CopyJobs : Prop :=
  ∀ s : State, s.memoryOk → ∀ core : Nat,
    (∀ (p : Packet) (rest : List Packet), s.cores.copyIn.lookD core [] = p :: rest →
      let arrived (t : State) : Prop := t.cores.copyIn.lookD core [] = rest
      let g : Region := s.bufsOf p.org
      ((∀ off a b : Nat, s.badCard g p = some (off, 0x0F, a, b) → ∃ t : State, exec (.copyPacketAccept core) s = .next t ∧ arrived t ∧
          Aborts s t (coreOf p.org.ctx.region) p.cmd ∧ Replied s t p 0xFFFFFFFF#32 false ∧ t.cores.jobs = s.cores.jobs ∧
          Posts s t p.org 0x0F ([0x53#8, BitVec.ofNat 8 off, 0xFF#8, 0xFF#8] ++ natLe 4 0 ++ wordLe p.loc)) ∧
        (s.badCard g p = none →
          (∀ n : Nat, n < 96 → (∀ j ∈ s.cores.jobs, j.core = core → j.slot ≠ n) → (∀ m : Nat, m < n → ∃ j ∈ s.cores.jobs, j.core = core ∧ j.slot = m) →
            ∃ (t : State) (j : Job), exec (.copyPacketAccept core) s = .next t ∧ arrived t ∧ t.cores.jobs = s.cores.jobs ++ [j] ∧ j.core = core ∧ j.slot = n ∧
              j.pkt = p ∧ j.st = .waiting ∧ j.serial = s.cores.jobSerial.lookD core 0 ∧
              t.cores.jobSerial.lookD core 0 = (j.serial + 1) % 65536 ∧
              Replied s t p (BitVec.ofNat 32 (j.serial * 65536 + n)) true) ∧
          ((∀ n : Nat, n < 96 → ∃ j ∈ s.cores.jobs, j.core = core ∧ j.slot = n) → exec (.copyPacketAccept core) s = .next s)))) ∧
    (∀ (slot : Nat) (j : Job), s.job core slot = some j → (∀ x ∈ s.cores.jobs, x.core = core → x.slot = slot → x = j) →
      let becomes (t : State) (k : Job) : Prop := t = { s with cores := { s.cores with jobs := s.cores.jobs.map fun x => if x = j then k else x } }
      let others (t : State) : Prop := ∀ x ∈ s.cores.jobs, x.core ≠ core → x ∈ t.cores.jobs
      -- Starting.
      (j.st = .waiting → WaitAborted s j.pkt →
        ∃ t : State, exec (.copyJobStart core slot) s = .next t ∧ becomes t { j with st := .aborting }) ∧
      (s.startable j = true → (∀ x ∈ s.cores.jobs, x.core = core → s.startable x = true → x = j) →
        (s.cores.jobs.filter fun x => decide (x.core = core ∧ x.st = .running)).length < 32 →
        ∃ t : State, exec (.copyJobStart core slot) s = .next t ∧ becomes t { j with st := .running, begun := true }) ∧
      (j.st = .waiting → (¬WaitMet s j.pkt ∧ ¬WaitAborted s j.pkt) ∨ (WaitMet s j.pkt ∧ j.edges ≠ []) →
        exec (.copyJobStart core slot) s = .next s) ∧
      -- A chunk of a job between buffers, in one dimension.
      (let f (off n : Nat) : Nat := fieldAt j.pkt.cmd off n
        let adj (n : Nat) : Int := (wordAt j.pkt.cmd n).toInt
        let from_ : Int := j.home.getD (f 0x08 8 / 2 ^ 56 % 64) 0 + ((f 0x08 8 % 2 ^ 56 : Nat) + adj 16)
        let to_ : Int := j.home.getD (f 0x10 8 / 2 ^ 56 % 64) 0 + ((f 0x10 8 % 2 ^ 56 : Nat) + adj 17)
        let at_ := 262144 * j.chunk
        let n := min 262144 (f 0x18 4 - at_)
        ∀ a b : Nat, j.st = .running → j.fault = none → j.fill = false → j.acks = false → j.acked = false → f 0x08 8 / 2 ^ 62 = 1 → f 0x10 8 / 2 ^ 62 = 1 →
          f 0x1C 2 = 1 → f 0x1E 2 = 1 → f 0x20 2 = 1 → f 0x18 4 % 4 = 0 → at_ < f 0x18 4 →
          0 ≤ (f 0x08 8 % 2 ^ 56 : Nat) + adj 16 → 0 ≤ (f 0x10 8 % 2 ^ 56 : Nat) + adj 17 →
          (a : Int) = from_ + at_ → (b : Int) = to_ + at_ → (a + n ≤ b ∨ b + n ≤ a) → s.store.badWords = [] →
          ∃ t : State, exec (.chunkComplete core slot) s = .next t ∧ (∀ i : Nat, i < n → cellAt t.store.spad (b + i) = cellAt s.store.spad (a + i)) ∧
            (∀ x : Nat, x < b ∨ b + n ≤ x → cellAt t.store.spad x = cellAt s.store.spad x) ∧ t.store = { s.store with spad := t.store.spad } ∧ others t ∧
            (at_ + n < f 0x18 4 → { j with chunk := j.chunk + 1 } ∈ t.cores.jobs) ∧
            (at_ + n = f 0x18 4 → t.job core slot = none ∧
              -- An arrival at a barrier follows every credit of the cycle (R276).
              (f 0x22 2 = 0 → 0xC000 ≤ f 4 2 → t.agenda = s.agenda ++ [.signal j.pkt.org j.pkt.cmd j.tag]) ∧
              (f 0x22 2 = 0 → f 4 2 < 0xC000 → Signals s t (coreOf j.pkt.org.ctx.region) j.pkt.cmd)) ∧
            (∀ q : Bar, q = s.bar core (f 0x22 2 % 128) → (f 0x22 2).testBit 15 = true → f 0x22 2 % 128 < 96 → q.exp ≠ 0 → (n : Int) ≤ q.pend → at_ + n < f 0x18 4 →
              t.bar core (f 0x22 2 % 128) = { q with pend := q.pend - n })) ∧
      -- A chunk that has written to another package completes when that package has acknowledged every write (R451).
      (j.acks = true → exec (.chunkComplete core slot) s = .next s ∧ exec (.copyAbortFree core slot) s = .next s ∧
        s.farAck core slot j.serial j.chunk = { s with cores := { s.cores with jobs := s.cores.jobs.map fun x =>
          if x = j then { j with acks := false, acked := true } else x } }) ∧
      (j.st = .running → j.fault = none → j.fill = false → j.acks = false → j.acked = true → j.chunk + 1 < (j.pkt.total + 262143) / 262144 →
        fieldAt j.pkt.cmd 0x22 2 = 0 → ∃ t : State, exec (.chunkComplete core slot) s = .next t ∧ becomes t { j with chunk := j.chunk + 1, acked := false }) ∧
      (∀ x : Rec, j.st = .running → j.fault = some x →
        ∃ (t : State) (q : PRec), exec (.copyJobPause core slot) s = .next t ∧ { j with st := .paused, fault := none, begun := false } ∈ t.cores.jobs ∧ others t ∧
          t.store = s.store ∧ t.fab.recs = s.fab.recs ++ [q] ∧ q.rcd = x ∧ q.ctx = j.pkt.org.ctx ∧ q.frozen = []) ∧
      (slot < 96 → ∃ t : State, exec (.cjctlAbort core slot) s = .next t ∧ becomes t { j with st := .aborting }) ∧
      (j.st = .aborting → j.acks = false → j.begun = false → ∃ t : State, exec (.copyAbortFree core slot) s = .next t ∧ t.job core slot = none ∧ others t ∧
        t.store = s.store ∧ Aborts s t (coreOf j.pkt.org.ctx.region) j.pkt.cmd ∧
        (∀ x ∈ s.cores.jobs, x.core = core → x ≠ j → (j.slot, j.serial, true) ∈ x.edges →
          ∃ y ∈ t.cores.jobs, y.core = core ∧ y.slot = x.slot ∧ y.st = .aborting)) ∧
      (j.st = .aborting → j.acks = false → j.begun = true → ∃ t : State, exec (.copyAbortFree core slot) s = .next t ∧ t.job core slot = none ∧ others t))

/-- Systolic commands: a command arrives at the queue of its memory tile, or is dropped; its queue sends it in order, once its wait is
met; a WLD fills shadow planes; a sweep takes its tokens, its rows and its C values, and writes the beats' results; its signal follows
the last (R236 to R245, R250). Corner-turn nodes take blocks and emit them turned (R247). The order of the checks is log 49, and the row
bus log 48; which plane a sweep is checked against as it is sent is log 93, the row writes that a beat waits for log 97, and the bounds of a
command without scales log 100. -/
def Obligations.Systolic : Prop :=
  ∀ s : State, s.memoryOk →
    (∀ (id : Nat) (p : Packet), s.cores.going.find? (fun x => x.id = id) = some p →
      let gone (t : State) : Prop := t.cores.going = s.cores.going.filter fun x => x.id ≠ id
      let core := coreOf p.org.ctx.region
      (s.region p.org.ctx.region = none → ∃ t : State, exec (.systolicCommandArrival id) s = .next t ∧ gone t ∧ Acked s t p ∧ Aborts s t core p.cmd) ∧
      (∀ g : Region, s.region p.org.ctx.region = some g → s.current p.org = true →
        s.cores.going.find? (fun x => x.org.ctx = p.org.ctx && g.queueTile x = g.queueTile p) = some p →
        (s.queued (g.tmap.lookD (g.queueTile p) 0)).length < 8 →
        ∃ t : State, exec (.systolicCommandArrival id) s = .next t ∧ gone t ∧ Acked s t p ∧
          (∀ (off : Nat) (tile : Option (Nat × Nat)), g.badDescriptor p = some (off, tile) → Aborts s t core p.cmd ∧ ∃ info : List Byte, Posts s t p.org 0x0F info ∧
            info.take 2 = [BitVec.ofNat 8 p.opc, BitVec.ofNat 8 off] ∧ info.drop 8 = wordLe p.loc ++ wordLe p.adj) ∧
          (∀ (what n : Nat) (off : Int) (limit : Nat), g.badDescriptor p = none → g.badBound p = some (what, n, off, limit) → Aborts s t core p.cmd ∧
            Posts s t p.org 0x03 ([6#8, BitVec.ofNat 8 what, BitVec.ofNat 8 n, 0#8] ++ wordLe (BitVec.ofInt 32 off) ++ natLe 4 limit)) ∧
          (g.badDescriptor p = none → g.badBound p = none → t.fab.recs = s.fab.recs ∧ ∃ h : Region, t.region p.org.ctx.region = some h ∧
            h.queues.lookD (g.queueTile p) [] = g.queues.lookD (g.queueTile p) [] ++ [{ p with id := s.uid }]))) ∧
    (∀ (r tile : Nat) (g : Region) (p : Packet) (rest : List Packet), s.region r = some g → g.queues.look tile = some (p :: rest) → p.org.ctx.region = r → g.brake = none → g.dead = false →
      (s.rreg r).rdbg.getLsbD 2 = false →
      s.queued (g.tmap.lookD tile 0) = (p :: rest).map (fun x => (r, x)) → (∀ x ∈ rest, p.id ≤ x.id) →
      let sent (t : State) : Prop := ∃ h : Region, t.region r = some h ∧ h.queues.look tile = some rest
      let clk := s.regionClk r
      let empty (x : Nat × Nat) : Prop := (g.shadow.lookD (8 * x.2 + x.1) {}).st = .empty
      (¬WaitMet s p → ¬WaitAborted s p → exec (.queueSend r tile) s = .next s) ∧
      (WaitAborted s p → ∃ t : State, exec (.queueSend r tile) s = .next t ∧ sent t ∧ Aborts s t (coreOf r) p.cmd) ∧
      (WaitMet s p → p.opc = 0x50 →
        ((∃ x ∈ p.targets, ¬empty x) → exec (.queueSend r tile) s = .next s) ∧
        ((∀ x ∈ p.targets, empty x) → ∃ t : State, exec (.queueSend r tile) s = .next t ∧ sent t ∧
          t.cores.loads = s.cores.loads ++ [{ id := p.id, pkt := p, start := clk, tiles := p.tiles }] ∧
          ∀ h : Region, t.region r = some h → ∀ x ∈ p.tiles, (h.shadow.lookD x {}).st = .loading)) ∧
      (WaitMet s p → p.opc = 0x51 → s.sendable g p tile = true →
        (∀ i x : Nat, p.tiles[i]? = some x →
          (s.planeFor r g p.swap i x).st = .empty ∨ fmtClass (s.planeFor r g p.swap i x).fmt = fmtClass (fieldAt p.cmd 0x0B 1)) →
        ∃ (t : State) (w : Sweep), exec (.queueSend r tile) s = .next t ∧ sent t ∧ t.cores.sweeps = s.cores.sweeps ++ [w] ∧ w.id = p.id ∧ w.pkt = p ∧ w.sent = clk ∧
          w.rows = [] ∧ w.tiles.map (fun x => x.tile) = p.tiles ∧ (∀ x ∈ w.tiles, x.took = none ∧ x.beats = 0) ∧
          (∀ x : SweepTile, w.tiles.head? = some x → x.offered = some (clk + 2)) ∧ (∀ x ∈ w.tiles.drop 1, x.offered = none) ∧
          (p.swap = true → ∀ h : Region, t.region r = some h → ∀ x ∈ p.tiles, (h.shadow.lookD x {}).st = .claimed)) ∧
      (∀ (c : Ctx) (o : Nat), WaitMet s p → p.opc = 0x52 → s.sendable g p tile = true → g.edgeRoutes (fieldAt p.cmd 0x0C 2) = [(c, o)] →
        ∃ (t : State) (h : Region) (n : Node), exec (.queueSend r tile) s = .next t ∧ sent t ∧ t.region r = some h ∧ h.nodes.look tile = some n ∧ n.ctx = c.id r ∧ n.o = o ∧
          n.n = fieldAt p.cmd 0x0A 1 ∧ n.blk = fieldAt p.cmd 0x0E 2 ∧ n.fifo = [] ∧ n.store = [])) ∧
    (∀ (id : Nat) (l : Load) (r : Nat) (g : Region) (x : Nat) (rest : List Nat), s.cores.loads.find? (fun x => x.id = id) = some l → r = l.pkt.org.ctx.region → s.region r = some g → l.tiles = x :: rest →
      let key := g.spadKey (fieldAt l.pkt.cmd 0x0C 1) ((l.pkt.dataOff + 1088 * l.done).toNat)
      let bad := s.spadBad key 1088
      -- 34 beats of the column bus a tile.
      (l.beats < 34 → exec (.wldTileLoaded id) s = .next s) ∧
      (34 ≤ l.beats → ∃ (t : State) (h : Region) (p : Plane), exec (.wldTileLoaded id) s = .next t ∧ t.region r = some h ∧ t.store = s.store ∧
        h.shadow.lookD x {} = p ∧ p.bytes = cellsAt s.store.spad key 1088 ∧ p.fmt = fieldAt l.pkt.cmd 0x0B 1 ∧
        p.st = (if bad then .bad else .ready) ∧ (∀ y : Nat, y ≠ x → h.shadow.lookD y {} = g.shadow.lookD y {}) ∧ h.active = g.active ∧
        (bad = true → ∃ info : List Byte, Posts s t l.pkt.org 0x0B info) ∧ (bad = false → rest ≠ [] → t.fab.recs = s.fab.recs) ∧
        (rest ≠ [] → { l with tiles := rest, done := l.done + 1, beats := 0, fault := l.fault || bad } ∈ t.cores.loads) ∧
        (rest = [] → (∀ y ∈ t.cores.loads, y.id ≠ id) ∧
          (l.fault = false → bad = false → Signals s t (coreOf r) l.pkt.cmd) ∧ (l.fault = true ∨ bad = true → Aborts s t (coreOf r) l.pkt.cmd)))) ∧
    (∀ (id : Nat) (w : Sweep) (g : Region), s.cores.sweeps.find? (fun x => x.id = id) = some w → s.region w.region = some g →
      let r := w.region
      let clk := s.regionClk r
      let f (off n : Nat) : Nat := fieldAt w.pkt.cmd off n
      let buf := f 0x0C 1
      let mx := f 0x0B 1 ≠ 2 ∧ f 0x0B 1 ≠ 3
      -- Row m goes out on the row bus.
      (let m := w.rows.length
        let key := g.spadKey buf (w.pkt.dataOff.toNat + 32 * m)
        let skey := g.spadKey buf (w.pkt.scaleOff.toNat + 2 * m)
        s.rowReady w = true → s.sending g r (g.seqTile w) = some w → s.busGrants g w = true → s.spadBad key 32 = false →
        (mx → s.spadBad skey 2 = false) →
        ∃ (t : State) (y : Sweep), exec (.rowBusBeat id) s = .next t ∧ y ∈ t.cores.sweeps ∧ t.store = s.store ∧ t.fab = s.fab ∧
          ∃ sc : List Byte, y = { w with rows := w.rows ++ [(m, cellsAt s.store.spad key 32, sc)], lates := w.lates ++ [w.lateness clk], rowAt := some clk } ∧
            (mx → sc = cellsAt s.store.spad skey 2)) ∧
      (∀ (tile : Nat) (x : SweepTile), w.tiles.find? (fun x => x.tile = tile) = some x →
        -- A token is taken, once every beat of a plane that performs any comes after the earlier writes of its row (R242).
        let ready : Prop := if w.pkt.swap then (g.shadow.lookD tile {}).valid = true else (g.active.lookD tile {}).st = .ready
        let rowsClear : Prop := ∀ v ∈ s.cores.sweeps, v.id ≠ id → v.region = r → ∀ y ∈ v.tiles, y.tile = tile → ∀ e ∈ y.rows,
          f 0x18 1 ≤ e.1 → e.1 < f 0x18 1 + w.pkt.rowsM → e.2.1 < clk + (e.1 - f 0x18 1)
        (ready → ¬rowsClear → exec (.sweepTokenTake id tile) s = .next s) ∧
        (∀ at_ : Nat, (ready → rowsClear) → x.offered = some at_ → x.took = none → at_ ≤ clk →
          (∀ v ∈ s.cores.sweeps, v.id ≠ id → v.region = r → ∀ y ∈ v.tiles, y.tile = tile →
            (y.took.isSome = true → v.rowsTaken y = true ∧ y.next ≤ clk ∧ y.took ≠ some clk) ∧ (y.took = none → ∀ b : Nat, y.offered = some b → at_ ≤ b)) →
          ∃ (t : State) (h : Region), exec (.sweepTokenTake id tile) s = .next t ∧ t.region r = some h ∧ t.store = s.store ∧
            (w.pkt.swap = false → h = g) ∧
            (w.pkt.swap = true → (h.active.lookD tile {}).bytes = (g.shadow.lookD tile {}).bytes ∧
              (h.active.lookD tile {}).fmt = (g.shadow.lookD tile {}).fmt ∧
              (h.active.lookD tile {}).st = if (g.shadow.lookD tile {}).valid then .ready else .bad) ∧
            (∃ v ∈ t.cores.sweeps, v.id = id ∧ ∀ y ∈ v.tiles, y.tile = tile → y.took = some clk ∧ y.next = clk ∧
              ((h.active.lookD tile {}).st ≠ .ready → y.dead = some 0 ∧ v.fault = true)) ∧
            ((h.active.lookD tile {}).st = .ready → t.fab.recs = s.fab.recs) ∧
            ((h.active.lookD tile {}).st ≠ .ready → ∃ info : List Byte, Posts s t w.pkt.org 0x0F info)) ∧
        -- A beat: the next row and the C values of its row; where another sweep has still to write that row, this and the later beats move.
        (∀ (t0 m : Nat) (row : Nat × List Byte × List Byte) (rest : List (Nat × List Byte × List Byte)), m = x.beats → x.took = some t0 →
          w.rows.drop m = row :: rest → m < w.quota x → x.next + w.lates.getD m 0 ≤ clk →
          (∃ v ∈ s.cores.sweeps, v.id ≠ id ∧ v.region = r ∧ ∃ y ∈ v.tiles, y.tile = tile ∧ ∃ e ∈ y.rows, e.1 = f 0x18 1 + m) →
          exec (.sweepBeat id tile) s = .next (s.updSweep id fun v => v.updTile tile fun y => { y with next := clk + 1 - w.lates.getD m 0 })) ∧
        (∀ (t0 m : Nat) (row scales : List Byte) (rest : List (Nat × List Byte × List Byte)), m = x.beats → x.took = some t0 → w.rows.drop m = (m, row, scales) :: rest → m < w.quota x → x.next + w.lates.getD m 0 ≤ clk →
          (∀ v ∈ s.cores.sweeps, v.id ≠ id → v.region = r → ∀ y ∈ v.tiles, y.tile = tile → ∀ e ∈ y.rows, e.1 ≠ f 0x18 1 + m) →
          s.fab.glitch = [] → s.store.badWords = [] →
          ∃ (t : State) (v : Sweep) (y : SweepTile) (res : List Word), exec (.sweepBeat id tile) s = .next t ∧ t.store = s.store ∧ t.fab = s.fab ∧ t.regions = s.regions ∧ v ∈ t.cores.sweeps ∧
            v.id = id ∧ y ∈ v.tiles ∧ y = { x with beats := m + 1, rows := x.rows ++ [(f 0x18 1 + m, clk + 8, res)], next := clk + 1, last := some clk } ∧ res.length = 32 ∧
            ∀ n : Nat, n < 32 → BeatOf (f 0x0B 1) row scales (g.active.lookD tile {}) n
              (if (f 0x0D 1).testBit 0 then 0x80000000 else (s.store.tstore.lookD (g.rowKey tile (f 0x18 1 + m) n) 0#32).toNat)
              (res.getD n 0#32).toNat) ∧
        -- Its results are written at the end of their cycle.
        (∀ (crow due : Nat) (ws : List Word) (rest : List (Nat × Nat × List Word)), x.rows = (crow, due, ws) :: rest → ws.length = 32 →
          (clk < due → exec (.sweepRowWrite id tile) s = .next s) ∧
          (due ≤ clk → ∃ t : State, exec (.sweepRowWrite id tile) s = .next t ∧
            (∀ n : Nat, n < 32 → t.store.tstore.lookD (g.rowKey tile crow n) 0#32 = ws.getD n 0#32) ∧
            (∀ k : Nat, (∀ n : Nat, n < 32 → k ≠ g.rowKey tile crow n) → t.store.tstore.lookD k 0#32 = s.store.tstore.lookD k 0#32) ∧
            (w.tiles = [x] → rest = [] → w.pkt.swap = false → x.took.isSome = true → x.dead = none → w.badRow = none → x.beats = w.pkt.rowsM →
              w.rows.length = w.pkt.rowsM → w.fault = false → (∀ v ∈ s.cores.sweeps, v.id = id → v = w) →
              (∀ v ∈ t.cores.sweeps, v.id ≠ id) ∧ Signals s t (coreOf r) w.pkt.cmd))))) ∧
    (∀ (r tile : Nat) (g : Region) (n : Node), s.region r = some g → g.nodes.look tile = some n →
      (∀ (tok : Token) (rest : List Token), n.fifo = tok :: rest → n.emitting = false → n.detached = false → g.brake = none →
        ∃ (t : State) (h : Region), exec (.ctNodeAccept r tile) s = .next t ∧ t.region r = some h ∧ t.store = s.store ∧
          h.nodes.look tile = some { n with fifo := rest, store := n.store ++ [tok], emitting := decide (n.store.length + 1 = n.n * n.n) }) ∧
      (n.credits = 0 → n.detached = false → exec (.ctNodeEmit r tile) s = .next s) ∧
      -- The cycle after the last of its blocks: it is gone, and signals.
      (n.detached = true → ∃ (t : State) (h : Region), exec (.ctNodeEmit r tile) s = .next t ∧ t.region r = some h ∧ h.nodes.look tile = none ∧
        t.store = s.store ∧ Signals s t (coreOf n.pkt.org.ctx.region) n.pkt.cmd) ∧
      (0 < n.credits → (∀ e ∈ g.ckpt, g.viaServes n.ctx n.o e.1 = false) → n.emitting = true → n.detached = false → n.pos < n.n * n.n → n.store.length = n.n * n.n →
        ∃ (t : State) (q : Flit), exec (.ctNodeEmit r tile) s = .next t ∧ q.ctx = n.ctx ∧ q.o = n.o ∧ q.filled = true ∧ q ∈ t.fab.flits ∧
          -- Column by column of a block that came in row by row.
          (∀ (tok : Token) (rest : List Token), n.store.drop (n.pos % n.n * n.n + n.pos / n.n) = tok :: rest → q.payload = tok.payload ∧ q.tag = tok.tag) ∧
          (n.pos + 1 < n.n * n.n → t.fab.flits = s.fab.flits ++ [q] ∧ ∃ h : Region, t.region r = some h ∧
            h.nodes.look tile = some { n with credits := n.credits - 1, pos := n.pos + 1 }) ∧
          (n.pos + 1 = n.n * n.n → n.blk = 0 → ∃ h : Region, t.region r = some h ∧
            h.nodes.look tile = some { n with credits := n.credits - 1, pos := 0, store := [], emitting := false, blocks := n.blocks + 1 }) ∧
          (n.pos + 1 = n.n * n.n → n.blk = n.blocks + 1 → ∃ h : Region, t.region r = some h ∧
            h.nodes.look tile = some { n with credits := n.credits - 1, pos := 0, store := [], emitting := false, blocks := n.blocks + 1, detached := true })))

-- Translation and procedural memory.

/-- A walk that finds a leaf fills the core's TLB; TIGO drops what it covers, and its invalidation is done once what may have used the old
entries has ended (R343, R346 to R348, R370). A queued request takes a free fill slot; a fill that takes too long is cancelled; an eviction leaves its block EMPTY, and a
cancelled fill charges its waiters (R354, R362, R363, R365). -/
def Obligations.TranslationAndFills : Prop :=
  ∀ s : State, s.memoryOk →
    (∀ core as_ va : Nat, let die := core / 16
      ∃ t : State, exec (.pageWalkEnd core as_ va) s = .next t ∧ t.store = s.store ∧ t.fab = s.fab ∧ t.regions = s.regions ∧
        (∀ (l : Leaf) (a : ASpace), s.aspace die as_ = some a → s.walk die as_ va = .ok l → ∃ e ∈ t.cores.tlb, e.core = core ∧ e.as_ = as_ ∧
          e.asid = a.asid ∧ e.va = l.va ∧ e.leaf = l.raw ∧ e.level = l.level) ∧
        (∀ e : Deny, s.walk die as_ va = .error e → t.cores = s.cores)) ∧
    (∀ (die : Nat) (v : Word), let busy := (s.dies.inval.look die).isSome
      (v.getLsbD 0 = false ∨ busy = true → exec (.tigo die v) s = .next s) ∧
      (v.getLsbD 0 = true → busy = false → ∃ (t : State) (w : Inval), exec (.tigo die v) s = .next t ∧ t.dies.inval.look die = some w ∧
        -- What a covered entry may have translated is waited for.
        (∀ q ∈ s.fab.reqs, s.staleReq die q = true → q.id ∈ w.reqs) ∧
        (∀ j ∈ s.cores.jobs, s.staleJob die j = true → (j.core, j.slot, j.serial, j.chunk) ∈ w.jobs) ∧
        (∀ (r : Nat) (g : Region) (h : Nat), (r, g) ∈ s.regions → h ∈ g.round.drain ∨ (g.round.isOpen = true ∧ g.round.n % 2 = h) →
          s.staleHalf die g h = true → (r, h) ∈ w.rounds) ∧
        t.dies.walks = [] ∧ (∀ e ∈ s.cores.tlb, e ∈ t.cores.tlb ↔ s.covers die e = false) ∧
        (∀ e ∈ t.cores.tlb, e ∈ s.cores.tlb) ∧ t.store = s.store ∧ t.fab = s.fab ∧ t.regions = s.regions)) ∧
    (∀ (die : Nat) (e : TlbEntry), let c := s.mmioNat (tictl die) 0
      let first := s.mmioNat (tivalo die) 0 / 2 ^ 18 * 2 ^ 18 + 2 ^ 32 * (s.mmioNat (tivalo die + 4) 0 % 2 ^ 24)
      let count := s.mmioNat (ticnt die) 0
      (s.covers die e = true ↔ c / 2 ^ 28 % 4 = 0 ∨ (e.asid = c % 4096 ∧
        (c / 2 ^ 28 % 4 = 1 ∨ count = 0 ∨ (e.va < first + count * 2 ^ 18 ∧ first < e.va + e.size))))) ∧
    (∀ (die : Nat) (w : Inval), s.dies.inval.look die = some w →
      let half (r h : Nat) : Prop := ∃ g : Region, s.region r = some g ∧ (h ∈ g.round.drain ∨ (g.round.isOpen = true ∧ g.round.n % 2 = h))
      let waits : Prop := (∃ i ∈ w.reqs, ∃ q, s.req i = some q ∧ q.translated.isSome = true) ∨ (∃ e ∈ w.rounds, half e.1 e.2) ∨
        (∃ e ∈ w.jobs, ∃ j ∈ s.cores.jobs, (j.core, j.slot, j.serial, j.chunk) = e ∧ j.st ≠ .paused)
      (waits → exec (.invalidationDone die) s = .next s) ∧
      (¬waits → ∃ t : State, exec (.invalidationDone die) s = .next t ∧ t.dies.inval.look die = none ∧ t.store = s.store ∧
        t.mmioNat (tidone die) 0 = (s.mmioNat (tidone die) 0 + 1) % 65536)) ∧
    -- The fill directory.
    (∀ die : Nat, (∀ q ∈ s.dies.slotQ, q.die ≠ die) → exec (.fillSlotGrant die) s = .next s) ∧
    (∀ die : Nat, s.dieWaits die = true → (∀ q ∈ s.dies.slotQ, q.die = die → s.blockState (s.rangeNo die q.as_ q.rng) q.blk = 0) →
      exec (.fillSlotGrant die) s = .next s) ∧
    (∀ (die : Nat) (q : SlotWait), s.dies.slotQ = [q] → q.die = die →
      let rg := s.rangeNo die q.as_ q.rng
      rg.die = die → rg.idx = q.rng → s.slotFree die q.depth = true → s.blockState rg q.blk = 0 → s.depthFor (s.waiterGang q.w) = q.depth →
      q.depth ≤ rg.depth → (∀ g ∈ s.dies.fills, g.slot < 1024 ∧ ∀ w ∈ g.waiters ++ g.extra, q.w.same w = false) → s.dieWaits die = false →
      -- Uncorrectable data in the fill map charges it (R337).
      (∀ (code : Nat) (c : CtxId) (slot kind size win off va : Nat), s.blockDeny die rg q.blk = some (.bad code) →
        q.w = .elem c slot kind size win off va → (s.region c.region).isSome = true →
        ∃ t : State, exec (.fillSlotGrant die) s = .next t ∧ t.dies.slotQ = [] ∧ t.dies.fills.length = s.dies.fills.length ∧
          ∃ x ∈ t.fab.recs, x.ctx = c ∧ x.rcd.cls = 0x0B ∧ x.rcd.va = va) ∧
      ((∀ code : Nat, s.blockDeny die rg q.blk ≠ some (.bad code)) → ∃ (t : State) (f : Fill), exec (.fillSlotGrant die) s = .next t ∧ t.dies.slotQ = [] ∧ t.dies.fills = s.dies.fills ++ [f] ∧ f.die = die ∧ f.as_ = q.as_ ∧
        f.blk = q.blk ∧ f.rng = q.rng ∧ f.depth = q.depth ∧ f.since = s.clk die ∧ f.waiters = [q.w] ∧
        (f.cancelled = false ∨ f.cause = 0xF5) ∧ ∀ g ∈ s.dies.fills, g.die = die → g.slot ≠ f.slot)) ∧
    (∀ (die slot : Nat) (f : Fill), s.dies.fills.find? (fun f => f.die = die && f.slot = slot && !f.cancelled) = some f →
      (s.clk die < f.since + 2 ^ f.timeout → exec (.fillTimeout die slot) s = .next s) ∧
      (f.since + 2 ^ f.timeout ≤ s.clk die → slot < 1024 → (∀ g ∈ s.dies.fills, fillKey g = fillKey f → g.cancelled = false → g = f) →
        -- Its waiters wait in no other list.
        let others (l : List Waiter) : List Waiter := l.filter fun w => !f.waiters.any w.same
        ∃ (t : State) (e : Evict), exec (.fillTimeout die slot) s = .next t ∧
          { f with cancelled := true, cause := 0xF3, code := 0#32, cls := 8, extra := others f.extra } ∈ t.dies.fills ∧
          t.dies.evicts = (s.dies.evicts.map fun x => { x with waiters := others x.waiters }) ++ [e] ∧ e.die = die ∧ e.blk = f.blk ∧ e.slot = some slot ∧
          ((locOf false ((s.rangeNo die f.as_ f.rng).fmap + f.blk / 4)).isSome = true →
            t.blockState (s.rangeNo die f.as_ f.rng) f.blk = 3))) ∧
    (∀ (id : Nat) (e : Evict), s.dies.evicts.find? (fun x => x.id = id) = some e → e.waiters = [] →
      let rg := s.rangeNo e.die e.as_ e.rng
      (s.blockHeld rg e.as_ e.blk = true → exec (.evictionEnd id) s = .next s) ∧
      -- An access that has passed its FULL check is performed first, on the old data; a held store that has writes nothing (R365).
      (∀ q ∈ s.fab.reqs, ∀ a : GAcc, (q.stage = .held a ∨ ∃ k : Nat, q.stage = .wide k (.access a)) →
        inGroups (s.blockGroups rg e.as_ e.blk) a.loc = true → s.blockHeld rg e.as_ e.blk = true) ∧
      (s.blockHeld rg e.as_ e.blk = false → e.slot = none → ∃ t : State, exec (.evictionEnd id) s = .next t ∧
        ∀ (r : Nat) (g : Region), s.region r = some g → ∃ h : Region, t.region r = some h ∧ h.ctxs = g.ctxs ∧
          ∀ x ∈ g.round.h0.entries ++ g.round.h1.entries, ∀ (loc va : Nat) (bs : List Byte) (w : Bool), x.eff = .st loc va bs w →
            (if inGroups ((s.flushBlock rg e.as_ e.blk).blockGroups rg e.as_ e.blk) loc then { x with lost := true } else x) ∈
              h.round.h0.entries ++ h.round.h1.entries) ∧
      (s.blockHeld rg e.as_ e.blk = false → ∃ t : State, exec (.evictionEnd id) s = .next t ∧ (∀ x ∈ t.dies.evicts, x.id ≠ id ∨ s.uid ≤ x.id) ∧
        (e.slot = none → (locOf false (rg.fmap + e.blk / 4)).isSome = true → t.blockState rg e.blk = 0) ∧
        (∀ (n : Nat) (f : Fill), e.slot = some n → s.dies.fills.find? (fun f => f.die = e.die && f.slot = n && f.cancelled) = some f →
          (∀ g ∈ t.dies.fills, fillKey g ≠ fillKey f) ∧
          ∀ (c : CtxId) (slot kind size win off va : Nat), Waiter.elem c slot kind size win off va ∈ f.waiters → (s.region c.region).isSome = true →
            ∃ q ∈ t.fab.recs, q.ctx = c ∧ q.rcd.cls = f.cls ∧ q.rcd.va = va ∧ q.rcd.flags.testBit 3 = true)))

-- Elastic gangs, the context switch and debugging.

/-- The brake stops a region's sources and withdraws what is parked (R309, R382); a settled region is saved and its slot released (R383,
R385, R386), or, where it is to be retired and is empty, ends (R379); a brake that takes too long fails, and its agent chooses anew later
(R384). What a settlement waits for beside R383 is log 21, and saving at once is log 22. -/
def Obligations.BrakesAndSettlement : Prop :=
  ∀ (s : State) (r : Nat) (g : Region), s.region r = some g →
    (∀ by_ : BrakeBy, (g.on = false ∨ g.dead = true ∨ g.brake.isSome = true → exec (.brakeApply r by_) s = .next s) ∧
      (g.on = true → g.dead = false → g.brake = none → (∀ q ∈ s.fab.reqs, q.org.ctx.region = r → q.waitsFill = false) →
        ∃ (t : State) (h : Region), exec (.brakeApply r by_) s = .next t ∧ t.region r = some h ∧ h.brake = some { by_, since := s.regionClk r } ∧
          (t.rreg r).state = 3 ∧ (∀ e ∈ h.gens, e.2.quota = 0) ∧ h.ctxs = g.ctxs ∧ t.store = s.store ∧ (∀ q : Nat, q ≠ r → t.region q = s.region q) ∧
          -- Parked requests are withdrawn.
          ∀ q ∈ s.fab.reqs, (∀ y ∈ s.fab.reqs, y.id = q.id → y = q) → q.org.ctx.region = r →
            (∀ (x n : Nat) (w : Word), q.stage = .parked (.push x n w) → { q with stage := replyOf q 1#32 false } ∈ t.fab.reqs) ∧
            (∀ x n : Nat, q.stage = .parked (.pop x n) → { q with stage := replyOf q 1#32 false } ∈ t.fab.reqs) ∧
            (∀ d n : Nat, q.stage = .parked (.qrsv d n) → { q with stage := replyOf q 1#32 false } ∈ t.fab.reqs) ∧
            (∀ (d n : Nat) (l : Word), q.stage = .parked (.qpop d n l) → { q with stage := replyOf q 1#32 false } ∈ t.fab.reqs) ∧
            (∀ (core n : Nat) (w : Word), q.stage = .parked (.barw core n w) →
              { q with stage := replyOf q (BitVec.ofNat 32 (s.bar core n).phase) false } ∈ t.fab.reqs))) ∧
    (s.settled r g = false → exec (.regionSettle r) s = .next s) ∧
    (∀ x : Gang, s.settled r g = true → s.gang g.gang = some x → (∀ e ∈ s.regions, e.1 = r → e.2 = g) →
      (g.inst ∉ x.retire → g.inst ∉ x.shift →
        ∃ (t : State) (y : Gang) (v : Saved), exec (.regionSettle r) s = .next t ∧ t.region r = none ∧ (t.rreg r).state = 0 ∧ t.gang g.gang = some y ∧
          y.saved = x.saved ++ [v] ∧ v.inst = g.inst ∧
          v.region = { g with rings := g.rings.map fun q => { q with views := q.views.filter fun e => e.1 = r } } ∧ v.rreg = s.rreg r ∧ v.jobs = s.cores.jobs.filter (fun j => g.owns r j.pkt) ∧
          (∀ (n : Nat) (b : List Buf), b = g.bufs.drop n → ∀ (hd : Buf) (tl : List Buf), b = hd :: tl → ∃ bs : List Byte, (n, bs) ∈ v.spad ∧ bs.length = hd.size ∧
            ∀ i : Nat, i < hd.size → bs.getD i 0#8 = cellAt s.store.spad (g.spadKey n i)) ∧
          (∀ q : Nat, q ≠ r → (t.region q).map (fun h => h.ctxs) = (s.region q).map fun h => h.ctxs) ∧
          (∀ i ∈ x.insts, i.inst = g.inst → { i with st := .saved } ∈ y.insts) ∧
          (∀ j ∈ t.cores.jobs, g.owns r j.pkt = false) ∧
          -- Collectives that have not begun come along, those still on their way to the dispatcher too (R454, R457).
          (∀ c ∈ s.dies.colls, g.owns r c.pkt = true → c.failed = false → { c.pkt with paused := c.paused } ∈ v.colls) ∧
          (∀ p ∈ s.dies.collIn.lookD (dieOf r) [], g.owns r p = true → p ∈ v.colls ∧ p ∉ t.dies.collIn.lookD (dieOf r) [])) ∧
      (g.inst ∈ x.retire → s.mayEnd r g = true → ∃ t : State, exec (.regionSettle r) s = .next t ∧ t.region r = none ∧ (t.rreg r).state = 4 ∧
        (∀ y : Gang, t.gang g.gang = some y → ∀ i ∈ y.insts, i.inst = g.inst → i.st = .completed)) ∧
      (g.inst ∈ x.retire → s.mayEnd r g = false → ∃ (t : State) (h : Region), exec (.regionSettle r) s = .next t ∧ t.region r = some h ∧ h.brake = none ∧
        (t.rreg r).state = 2 ∧ h.ctxs = g.ctxs ∧ (∀ e ∈ g.gens, e.2.running = true → e.2.rounded = false →
          (e.1, { e.2 with quota := e.2.grant }) ∈ h.gens))) ∧
    (∀ b : Brake, g.brake = some b → let d := dieOf r
      (s.clk d < b.since + 2 ^ s.btx d → exec (.brakeFail r) s = .next s) ∧
      (b.since + 2 ^ s.btx d ≤ s.clk d → ∃ (t : State) (h : Region), exec (.brakeFail r) s = .next t ∧ t.region r = some h ∧ h.brake = none ∧ (t.rreg r).state = 2 ∧
        h.ctxs = g.ctxs ∧ t.mmioNat (dsBrkf d) 0 = min 0xFFFFFFFF (s.mmioNat (dsBrkf d) 0 + 1) ∧
        h.rechoose = some (s.clk d + 2 ^ s.pwx d, b.by_))) ∧
    (∀ (at_ : Nat) (by_ : BrakeBy), g.rechoose = some (at_, by_) →
      (s.clk (dieOf r) < at_ → exec (.brakeRechoose r) s = .next s) ∧
      (at_ ≤ s.clk (dieOf r) →
        let u := (s.dropWant r g).updRegion r fun h => { h with rechoose := none }
        ∃ t : State, exec (.brakeRechoose r) s = .next t ∧ (∃ h : Region, t.region r = some h ∧ h.rechoose = none) ∧
          (by_ ≠ .dispatcher → by_ ≠ .derailleur → t = u) ∧
          -- The derailleur brakes another instance, if the queue of its gang still calls for that.
          (∀ x : Gang, by_ = .derailleur → u.gang g.gang = some x → (u.shrinks x = false → t = u) ∧
            ∀ (q : Nat) (h : Region), u.shrinks x = true → u.region q = some h → h.brake = none → h.rechoose = none →
              (u.regionsOf x.id.toNat).find? (fun e => e.2.on && !e.2.dead) = some (q, h) → ∃ k : Region, t.region q = some k ∧ k.brake.isSome = true)))

/-- The derailleur counts samples above HIWM and below LOWM, and grows a gang or brakes its highest instance to retire it (R377 to R379, R384).
A sample that lets one count go on starts the other again (log 58); a gang grows by the lowest index that no instance holds (log 64), and where a shift
has left its instances in different cogs, in that of the lowest index (log 76). Planes and rows follow their systolic actors (log 92). An instance is restored
with its registers, predicates, counters, rings, planes and storage, and its tokens are placed again as credits allow (R385 to R389). -/
def Obligations.ElasticGangs : Prop :=
  ∀ s : State, s.memoryOk →
    (∀ (die n : Nat) (g : Gang) (c : Cass) (q : Nat), s.dies.gangs.filter (fun e => e.2.die = die) = [(n, g)] → s.gang n = some g → g.id.toNat = n → g.cass = some c → c.qin = some q →
      g.st = .running → c.elv ≠ 0xFF →
      let d := (s.hq die q).used
      let k := (g.insts.filter fun i => i.st = .running).length
      let counted (grow shrink : Nat) : State := s.updGang n fun x => { x with grow, shrink }
      (¬(c.hiwm < d ∧ k < c.maxi) → ¬(d < c.lowm ∧ c.mini < k) → exec (.derailleurSample die) s = .next (counted 0 0)) ∧
      (c.hiwm < d → k < c.maxi → g.grow + 1 < c.hyst → exec (.derailleurSample die) s = .next (counted (g.grow + 1) 0)) ∧
      (∀ es : Nat × Region, c.hiwm < d → k < c.maxi → c.hyst ≤ g.grow + 1 →
        ∀ i : Nat, i < c.maxi → (∀ x ∈ g.insts, x.inst ≠ i) → (∀ j : Nat, j < i → ∃ x ∈ g.insts, x.inst = j ∧ x.st.over = false) →
        -- It finds a place beside what the ready gangs that are not below it keep (R373).
        let kept := (((List.range 4).flatMap (counted 0 0).readyGangs).filter fun x => decide (g.base ≤ (counted 0 0).levelOf x)).flatMap (counted 0 0).keeps
        g.search (s.cogOf g) (Config.order s.free) (s.coresOf g) [i] (kept ++ s.regions) = some [es] → es.2.inst = i →
        ∃ (t : State) (y : Gang), exec (.derailleurSample die) s = .next t ∧ t.gang n = some y ∧ y.grow = 0 ∧
          y.insts = g.insts ++ [{ inst := i, region := es.1, st := .loading }] ∧ t.region es.1 = some es.2 ∧ (t.rreg es.1).state = 1) ∧
      (¬(c.hiwm < d ∧ k < c.maxi) → d < c.lowm → c.mini < k → g.shrink + 1 < c.hyst →
        exec (.derailleurSample die) s = .next (counted 0 (g.shrink + 1))) ∧
      (∀ (r : Nat) (h : Region), ¬(c.hiwm < d ∧ k < c.maxi) → d < c.lowm → c.mini < k → c.hyst ≤ g.shrink + 1 → s.region r = some h →
        (s.regionsOf n).find? (fun e => e.2.on && !e.2.dead) = some (r, h) →
        -- One that settles already, or whose brake has failed a while ago, is left to it.
        (h.brake.isSome = true ∨ h.rechoose.isSome = true → exec (.derailleurSample die) s = .next (counted 0 0)) ∧
        (h.brake = none → h.rechoose = none → ∃ (t : State) (y : Gang) (x : Region), exec (.derailleurSample die) s = .next t ∧ t.gang n = some y ∧
          y.retire = g.retire ++ [h.inst] ∧ t.region r = some x ∧ x.brake.isSome = true))) ∧
    (∀ die : Nat, (∀ e ∈ s.dies.gangs, e.2.die ≠ die) → exec (.derailleurSample die) s = .next s) ∧
    (∀ (n k : Nat) (g : Gang) (i : Inst) (v : Saved) (r : Nat) (place : Region), s.gang n = some g → g.insts.find? (fun x => x.inst = k && x.st = .loading) = some i → g.saved.find? (fun v => v.inst = k) = some v →
      r = i.region → s.region r = some place → (s.jobsOf (coreOf r)).length + v.jobs.length ≤ 96 →
      let lease := (s.newLease (coreOf r)).1
      let u := (s.newLease (coreOf r)).2.updRreg r fun q =>
        { q with lease, drops := v.rreg.drops, disc := v.rreg.disc, fqcnt := v.rreg.fqcnt, rdbg := v.rreg.rdbg }
      let loaded (t : State) (f : Inst → Option Rec) : Prop := ∃ y : Gang, t.gang n = some y ∧
        y.insts = (g.insts.map fun j => if j.inst = k then { j with st := .loaded, fault := f j } else j)
      (s.dieWaits (dieOf r) = true → exec (.restore n k) s = .next s) ∧
      (s.dieWaits (dieOf r) = false →
        (∀ (rcd : Rec) (w : State), u.loadFrame g r lease place = (.error rcd, w) →
          ∃ t : State, exec (.restore n k) s = .next t ∧ loaded t fun _ => some rcd) ∧
        (∀ (f : Frame) (m : Array Byte) (w : State) (new : Region), u.loadFrame g r lease place = (.ok (f, m), w) → w.reclaim g r place f = some new →
          ∃ t : State, exec (.restore n k) s = .next t ∧ loaded t (fun j => j.fault) ∧ (t.rreg r).lease = lease ∧ (t.rreg r).drops = v.rreg.drops ∧ (t.rreg r).rdbg = v.rreg.rdbg ∧
          ∃ h : Region, t.region r = some h ∧ h.lease = lease ∧ h.wins = v.region.wins ∧
            -- Planes go with the actors of their tile.
            h.active = (v.region.active.map fun e => (v.region.movedSys new e.1, e.2)) ∧
            h.shadow = (v.region.shadow.map fun e => (v.region.movedSys new e.1, e.2)) ∧
            h.round.n = v.region.round.n ∧ h.ctxs.length = new.ctxs.length ∧
            (∀ c ∈ new.ctxs, ∀ o : Ctx, v.region.ctxs.find? (fun x => x.actor = c.actor) = some o → ∃ x ∈ h.ctxs, x.el = c.el ∧ x.k = c.k ∧
              (∀ j : Nat, j < c.regs.length → c.init.getLsbD (16 + j) = true → j < o.regs.length → x.regs.getD j 0#32 = o.regs.getD j 0#32) ∧
              (∀ j : Nat, j < c.regs.length → c.init.getLsbD (16 + j) = false → x.regs.getD j 0#32 = c.regs.getD j 0#32) ∧
              (∀ j : Nat, j < c.preds.length → c.init.getLsbD (24 + j) = true → j < o.preds.length → x.preds.getD j .f = o.preds.getD j .f) ∧
              x.rcnt = o.rcnt ∧ x.rndn = o.rndn ∧ x.armed = o.armed ∧ x.rot = o.rot ∧ x.retired = o.retired) ∧
            (h.rings.map fun q => (q.buf, q.cap, q.head, q.tail)) = ((new.rings.zip v.region.rings).map fun p => (p.1.buf, p.1.cap, p.2.head, p.2.tail)) ∧
            -- A step that was under way is over; jobs are issued again.
            h.stepHeld = (v.region.stepHeld || v.region.stepping) ∧ t.cores.jobs.length = s.cores.jobs.length + v.jobs.length ∧
            (v.spad = [] → v.tstore = [] → t.store.tstore = w.store.tstore)))) ∧
    (∀ (r : Nat) (g : Region), s.region r = some g →
      (g.on = false ∨ g.ckpt = [] → exec (.checkpointTokenPlace r) s = .next s) ∧
      (∀ (c : CtxId) (o : Nat) (x : Ctx) (k : Token) (rest : List Token) (el : Nat), g.on = true → g.ckpt = [(.route c o, k :: rest)] → c.region = r → g.ctx c.el c.k = some x → o < 8 → 0 < x.credits.getD o 0 →
        routeTarget x.el (x.routes.getD o 0#32) = some el →
        let p := g.phys el
        let ch := routeCh (x.routes.getD o 0#32)
        (∀ k, s.discards p k = none) → (s.regions.map fun e => e.1).Pairwise (fun a b => a < b) →
        ∃ (t : State) (h : Region) (y : Ctx) (tok : Token), exec (.checkpointTokenPlace r) s = .next t ∧ t.region r = some h ∧ h.ctx c.el c.k = some y ∧
          y.credits.getD o 0 = x.credits.getD o 0 - 1 ∧ h.ckpt = (if rest = [] then [] else [(.route c o, rest)]) ∧
          (t.elem p).chan ch = (s.elem p).chan ch ++ [tok] ∧ tok.payload = k.payload ∧ tok.tag.toNat / 8 = k.tag.toNat / 8 ∧
          tok.tag.toNat % 8 = routeKx (x.routes.getD o 0#32) ∧ tok.via = .route c o) ∧
      -- A token of a generator goes where its block says.
      (∀ (n : Nat) (y : Gen) (k : Token) (rest : List Token), g.on = true → g.ckpt = [(.gen r n, k :: rest)] → g.gens.look n = some y → 0 < y.credits →
        let p := g.phys (genEl y.p)
        (∀ k, s.discards p k = none) → (s.regions.map fun e => e.1).Pairwise (fun a b => a < b) →
        ∃ (t : State) (h : Region) (tok : Token), exec (.checkpointTokenPlace r) s = .next t ∧ t.region r = some h ∧
          h.gens.look n = some { y with credits := y.credits - 1 } ∧ h.ckpt = (if rest = [] then [] else [(.gen r n, rest)]) ∧
          (t.elem p).chan (genCh y.p) = (s.elem p).chan (genCh y.p) ++ [tok] ∧ tok.payload = k.payload ∧ tok.tag.toNat / 8 = k.tag.toNat / 8 ∧
          tok.tag.toNat % 8 = genKx y.p ∧ tok.via = .gen r n) ∧
      -- Nothing is placed while no route or generator has a credit for it.
      (g.on = true → (∀ e ∈ g.ckpt, g.holdsCredit e.1 = false) → exec (.checkpointTokenPlace r) s = .next s))


-- The fabric.

/-- Collectives: a command joins its slot's list, begins in order once its wait is met by contributing its words, and completes once every rank's words are
there; one that a rank does not perform only takes its number, and is aborted at every rank; a group table that is not right keeps its slot
disabled (R258, R259, R451 to R457). How the ranks hear of it is the model's (log 53), and that one whose slot is not
enabled takes its turn there all the same is its reading (log 91). -/
def Obligations.Collectives : Prop :=
  ∀ s : State,
    (∀ die p rest, s.dies.collIn.lookD die [] = p :: rest →
      ∃ t : State, exec (.collectiveAccept die) s = .next t ∧ t.dies.collIn.lookD die [] = rest ∧ Acked s t p ∧
        let counted : Prop := t.dies.colls = s.dies.colls ++ [{ id := s.uid, die, slot := (wordAt p.cmd 8).toNat, pkt := p, failed := true }]
        (s.current p.org = false → Aborts s t (coreOf p.org.ctx.region) p.cmd ∧ counted) ∧
        (∀ o, s.current p.org = true → s.badColl die p = some o → Aborts s t (coreOf p.org.ctx.region) p.cmd ∧ counted ∧
          Posts s t p.org 0x0F ([0x5D#8, BitVec.ofNat 8 o, 0xFF#8, 0xFF#8] ++ natLe 4 0 ++ wordLe p.loc)) ∧
        (s.current p.org = true → s.badColl die p = none →
          t.dies.colls = s.dies.colls ++ [{ id := s.uid, die, slot := (wordAt p.cmd 8).toNat, pkt := p, paused := p.paused }])) ∧
    (∀ die slot c, s.collHead die slot = some c → (∀ x ∈ s.dies.colls, x.id = c.id → x = c) →
      let r := c.pkt.org.ctx.region
      let stopped : Prop := c.begun = true ∨ c.paused = true ∨ (s.current c.pkt.org = true ∧ ∃ g : Region, s.region r = some g ∧ g.brake.isSome = true) ∨
        (s.rreg r).rdbg.getLsbD 2 = true ∨ s.waits (.coll c.id 0) = true
      -- What goes to a rank of this package over open links is there.
      let reaches (t : State) (n : Nat) (k : Contrib) : Prop := s.groupEntry die slot n / 2 ^ 31 % 2 = 1 → s.groupEntry die slot n % 1024 = s.fabid die →
        s.cut die (s.groupEntry die slot n / 2 ^ 14 % 4) = none → s.retrains die (s.groupEntry die slot n / 2 ^ 14 % 4) = false →
        (∀ x ∈ s.pkg.held, ¬(x.1 = die ∧ x.2.1 = s.groupEntry die slot n)) → { k with die := s.groupEntry die slot n / 2 ^ 14 % 4 } ∈ t.dies.contribs
      -- The command only takes its number, and every rank hears of it.
      let passes (t : State) : Prop := t.dies.colls = (s.dies.colls.filter fun x => x.id ≠ c.id) ∧
        (die < 4 → slot < 256 → t.collSeq die slot = (s.collSeq die slot + 1) % 65536 ∧
          ∀ n, n < s.ranks die slot → reaches t n { c.pkt.part die slot (s.rankOf die slot) (s.collSeq die slot) with bad := true })
      (c.failed = true → c.begun = false → ∃ t : State, exec (.collectiveBegin die slot) s = .next t ∧ passes t ∧ t.cores = s.cores ∧ t.fab = s.fab ∧ t.regions = s.regions) ∧
      (c.failed = false → stopped ∨ (¬WaitMet s c.pkt ∧ ¬WaitAborted s c.pkt) → exec (.collectiveBegin die slot) s = .next s) ∧
      (c.failed = false → ¬stopped → WaitAborted s c.pkt → ∃ t : State, exec (.collectiveBegin die slot) s = .next t ∧ Aborts s t (coreOf r) c.pkt.cmd ∧ passes t) ∧
      (∀ xs u, c.failed = false → ¬stopped → WaitMet s c.pkt → die < 4 → slot < 256 →
        State.collWords c.pkt false (c.pkt.srcWords (s.ranks die slot) (s.rankOf die slot)) (fieldAt c.pkt.cmd 8 8) s = (.ok xs, u) →
        let words := xs.map fun x => leWord (u.readPlace (coreOf r) x)
        ∃ t : State, exec (.collectiveBegin die slot) s = .next t ∧ u.collSeq die slot < 65536 ∧
          t.collSeq die slot = (u.collSeq die slot + 1) % 65536 ∧
          { c with begun := true, seq := u.collSeq die slot, src := words } ∈ t.dies.colls ∧
          ∀ n, n < s.ranks die slot →
            reaches t n { c.pkt.part die slot (s.rankOf die slot) (u.collSeq die slot) with words, link := u.unreachable die slot }) ∧
      -- A translation fault of a read pauses it; any other fault ends it, and its signal is aborted (R457).
      (∀ cls info va u, c.failed = false → ¬stopped → WaitMet s c.pkt →
        State.collWords c.pkt false (c.pkt.srcWords (s.ranks die slot) (s.rankOf die slot)) (fieldAt c.pkt.cmd 8 8) s = (.error (.fault cls info va), u) →
        ∃ t : State, exec (.collectiveBegin die slot) s = .next t ∧ Posts u t c.pkt.org cls info ∧
          (cls = 0x01 ∨ cls = 0x02 → { c with paused := true } ∈ t.dies.colls ∧ t.cores = u.cores) ∧
          (cls ≠ 0x01 → cls ≠ 0x02 → { c with failed := true, paused := false } ∈ t.dies.colls ∧ Aborts u t (coreOf r) c.pkt.cmd)) ∧
      -- One that has ended so after it began is over here, and every other rank hears of it.
      (c.failed = true → c.begun = true → ∃ t : State, exec (.collectiveComplete die slot) s = .next t ∧ (∀ x ∈ t.dies.colls, x.id ≠ c.id) ∧
        t.cores = s.cores ∧ t.fab = s.fab ∧ ∀ n, n < s.ranks die slot → s.groupEntry die slot n / 2 ^ 14 % 4 ≠ die →
          reaches t n { c.pkt.part die slot (s.rankOf die slot) c.seq with bad := true })) ∧
    -- A failure at any rank aborts it here; only a rank that finds the failure posts a record.
    (∀ die slot c, s.collHead die slot = some c → c.begun = true → c.failed = false → c.paused = false → s.waits (.coll c.id 0) = false → c.dead = false →
      let core := coreOf c.pkt.org.ctx.region
      let told (k : Contrib) : Prop := k ∈ s.dies.contribs ∧ k.die = die ∧ k.slot = slot ∧ k.seq = c.seq ∧ k.rank < s.ranks die slot ∧
        ∀ x ∈ s.dies.contribs, x.die = die → x.slot = slot → x.seq = c.seq → x.rank = k.rank → x = k
      let quiet : Prop := ∀ x ∈ s.dies.contribs, x.die = die → x.slot = slot → x.seq = c.seq → x.link = none
      (∀ k, told k → k.bad = true → quiet → ∃ t : State, exec (.collectiveComplete die slot) s = .next t ∧ Aborts s t core c.pkt.cmd ∧
        (∀ x ∈ t.dies.colls, x.id ≠ c.id) ∧ t.fab.recs = s.fab.recs ∧ t.store = s.store) ∧
      (∀ k, told k → k.link.isSome = true → ∃ (t : State) (l : Nat), exec (.collectiveComplete die slot) s = .next t ∧ Aborts s t core c.pkt.cmd ∧
        (∃ x ∈ s.dies.contribs, x.link = some l) ∧ Posts s t c.pkt.org 0x12 [BitVec.ofNat 8 l] ∧ (∀ x ∈ t.dies.colls, x.id ≠ c.id))) ∧
    (∀ die slot c (cs : List Contrib), s.collHead die slot = some c → c.begun = true → c.failed = false → c.paused = false → s.waits (.coll c.id 0) = false → c.dead = false →
      let f (off n : Nat) : Nat := fieldAt c.pkt.cmd off n
      let n := s.ranks die slot
      -- One contribution of each rank, in order.
      cs.length = n → (∀ i k rest, cs.drop i = k :: rest →
        (s.dies.contribs.filter fun x => x.die = die && x.slot = slot && x.seq = c.seq).find? (fun x => x.rank = i) = some k ∧ k.link = none ∧ k.bad = false ∧
        k.fn = c.pkt.fn ∧ k.cnt = f 0x18 4 ∧ k.dt = f 0x1C 1 ∧ k.op = f 0x1D 1 ∧ k.root = f 0x1E 2 ∧ k.words.any xsOutside = false) →
      ∀ ps u, State.collWords c.pkt true (c.pkt.dstWords n) (f 0x10 8) s = (.ok ps, u) → ps.Nodup → (∀ x ∈ ps, ∃ loc, x = .mem loc ∧ loc % 4 = 0) →
        let core := coreOf c.pkt.org.ctx.region
        -- A second residue mismatch aborts it (R442).
        (s.fab.glitch.look (collKey die slot) = some 2 → ∃ (t : State) (info : List Byte), exec (.collectiveComplete die slot) s = .next t ∧
          Aborts s t core c.pkt.cmd ∧ Posts s t c.pkt.org 0x0B info ∧ (∀ x ∈ t.dies.colls, x.id ≠ c.id)) ∧
        (s.fab.glitch.look (collKey die slot) ≠ some 2 → s.store.badDirty = [] →
        let got (t : State) (i : Nat) (w : Word) : Prop := ∀ x rest, ps.drop i = x :: rest → t.readPlace core x = wordLe w
        ∃ t : State, exec (.collectiveComplete die slot) s = .next t ∧ Signals s t core c.pkt.cmd ∧ (∀ x ∈ t.dies.colls, x.id ≠ c.id) ∧
          -- AR and RS: integer sums.
          (c.pkt.fn = 0 → f 0x1C 1 ≠ 0 → f 0x1D 1 = 0 → ∀ i, i < f 0x18 4 → got t i (BitVec.ofNat 32 ((cs.map fun k => (wordAt k.words i).toNat).sum))) ∧
          (c.pkt.fn = 2 → f 0x1C 1 ≠ 0 → f 0x1D 1 = 0 → ∀ i, i < f 0x18 4 →
            got t i (BitVec.ofNat 32 ((cs.map fun k => (wordAt k.words (s.rankOf die slot * f 0x18 4 + i)).toNat).sum))) ∧
          -- AR and RS of f32: the tree of R455, or the exact sum.
          (c.pkt.fn = 0 → f 0x1C 1 = 0 → ∀ i, i < f 0x18 4 →
            got t i (treeFn 0 (f 0x1D 1) (cs.length + 1) (cs.map fun k => wordAt k.words i))) ∧
          (c.pkt.fn = 1 → ∀ i, i < f 0x18 4 → got t i (xsRead ((cs.map fun k => wordAt k.words i).foldl xsAdd 0))) ∧
          -- AG and BC.
          (c.pkt.fn = 4 → ∀ j k rest i, cs.drop j = k :: rest → i < f 0x18 4 → got t (j * f 0x18 4 + i) (wordAt k.words i)) ∧
          (c.pkt.fn = 5 → ∀ k rest i, cs.drop (f 0x1E 2) = k :: rest → i < f 0x18 4 → got t i (wordAt k.words i)))) ∧
    (∀ vs : List Word, vs.length = 1 → ∀ op n, treeFn 0 op n vs = vs.headD 0#32) ∧
    (∀ (vs : List Word) (op n k : Nat), 2 ^ k < vs.length → vs.length ≤ 2 ^ (k + 1) → vs.length < n →
      treeFn 0 op n vs = combFn 0 op (treeFn 0 op n (vs.take (2 ^ k))) (treeFn 0 op n (vs.drop (2 ^ k)))) ∧
    (∀ d n v, d < 4 →
      (v.getLsbD 31 = false ∨ 256 ≤ n → exec (.cscfgEnable d n v) s = .next s) ∧
      (v.getLsbD 31 = true → n < 256 →
        let ranks := v.toNat % 4096 + 1
        let rank := s.rankOf d n
        let bad : Prop := s.groupBase d n % 4 ≠ 0 ∨ ranks ≤ rank ∨ s.groupEntry d n rank ≠ 2 ^ 31 + 2 ^ 14 * d + s.fabid d ∨
          ∃ r, r < ranks ∧ ¬(s.groupEntry d n r / 2 ^ 31 % 2 = 1 ∧ s.groupEntry d n r / 2 ^ 16 % 2 ^ 15 = 0 ∧ s.groupEntry d n r / 2 ^ 10 % 16 = 0)
        ∃ t : State, exec (.cscfgEnable d n v) s = .next t ∧ t.store = s.store ∧ t.ranks d n = ranks ∧ t.collSeq d n = 0 ∧ t.rankOf d n = rank ∧
          (t.slotOn d n = true ↔ ¬bad) ∧ ((t.mmio (csst d n) 0#32).getLsbD 31 = true ↔ bad)))

/-- Links and ports: the eighth replay in succession starts a retraining; a retraining that ends well makes the link usable, when what has waited for
it goes on, and the third that fails within a second makes it fail, when gangs with instances on either die end (R423, R424, R449); the lifetime store
counts a link's replays and retrainings (R443); a port delivers what another package sends, which crosses die links to its die, and its answer
leaves by the route to that package (R450, R451); an endpoint access that is not answered, or answered with an error, faults the generator or the
job that made it, and a collective's rank that has no reply tells the others (R434, R451, R457). That a port delivers a whole message with each good
flit is log 40, what waits for a link that retrains log 78, and what a rank does without a reply log 85, the model's readings. -/
def Obligations.LinksPortsAndEndpoints : Prop :=
  ∀ s : State, s.memoryOk →
    let received (l m : Link) (good : Bool) : Prop :=
      (l.failed = true ∨ l.retraining = true → m = l) ∧
      (l.failed = false → l.retraining = false →
        (good = true → m = { l with run := 0 }) ∧
        (good = false → m.replays = min 0xFFFFFFFF (l.replays + 1) ∧
          (l.run < 7 → m = { l with replays := m.replays, run := l.run + 1 }) ∧
          (7 ≤ l.run → m = { l with replays := m.replays, run := 0, up := false, retraining := true, since := s.pkg.now, retrains := l.retrains + 1 })))
    let retrained (l m : Link) (ok : Bool) : Prop :=
      let recent := s.pkg.now :: l.fails.filter fun t => decide (s.pkg.now ≤ t + 4000000000)
      (l.retraining = false → m = l) ∧
      (l.retraining = true →
        (ok = true → m = { l with retraining := false, up := true }) ∧
        (ok = false → recent.length < 3 → m = { l with fails := recent, since := s.pkg.now, retrains := l.retrains + 1 }) ∧
        (ok = false → 3 ≤ recent.length → m = { l with fails := recent, retraining := false, failed := true }))
    let counted (t : State) (n replays : Nat) : Prop := t.pkg.life.links.lookD n (0, 0) =
      ((s.pkg.life.links.lookD n (0, 0)).1 + replays, (s.pkg.life.links.lookD n (0, 0)).2 + ((t.link n).retrains - (s.link n).retrains))
    (∀ n good, n < 4 → ∃ t : State, exec (.linkFlitReceive n good) s = .next t ∧
      t = { s with pkg := { s.pkg with links := t.pkg.links, life := { s.pkg.life with links := t.pkg.life.links } } } ∧
      counted t n (if good = true ∨ (s.link n).failed = true ∨ (s.link n).retraining = true then 0 else 1) ∧
      received (s.link n) (t.link n) good ∧ ∀ m, m < 4 → m ≠ n → t.link m = s.link m) ∧
    (∀ n ok, n < 4 → ∃ t : State, exec (.linkRetrainEnd n ok) s = .next t ∧ retrained (s.link n) (t.link n) ok ∧
      (∀ m, m < 4 → m ≠ n → t.link m = s.link m) ∧
      counted t n 0 ∧
      ((t.link n).failed = (s.link n).failed →
        let u : State := { s with pkg := { s.pkg with links := t.pkg.links, life := { s.pkg.life with links := t.pkg.life.links } } }
        t = if (t.link n).retraining = true then u else u.sendHeld.passOn) ∧
      -- A gang ends that has an instance on either die, running or saved with its storage parked there (R387, R424).
      ((t.link n).failed = true → (s.link n).failed = false → ∀ k g, s.gang k = some g → g.alive = true →
        (∃ e ∈ s.regions, e.2.gang = k ∧ (dieOf e.1 = n ∨ dieOf e.1 = (n + 1) % 4)) ∨
          (∃ v ∈ g.saved, v.core / 16 = n ∨ v.core / 16 = (n + 1) % 4) → (t.gang k).map (fun x => x.st) = some .ended)) ∧
    (∀ n good msg, n < 8 → ∃ t : State, exec (.portFlitReceive n good msg) s = .next t ∧ received (s.port n) (t.port n) good ∧
      (∀ m, m < 8 → m ≠ n → t.port m = s.port m) ∧
      let takes : Prop := good = true ∧ (s.port n).failed = false ∧ (s.port n).retraining = false
      let u : State := { s with pkg := { s.pkg with ports := t.pkg.ports } }
      -- The path from the port's die to the message's own.
      let d := n / 2
      let die := farDie msg d
      let behind : Prop := s.retrains d die = true ∨ ∃ x ∈ s.pkg.farIn, x.1 = d ∧ farDie x.2 x.1 = die
      let comes : Prop := takes ∧ ¬behind ∧ s.cut d die = none
      (¬takes → t = u) ∧
      (takes → behind → t = { u with pkg := { u.pkg with farIn := s.pkg.farIn ++ [(d, msg)] } }) ∧
      (takes → ¬behind → (s.cut d die).isSome = true ∨ msg = .idle → t = u) ∧
      (∀ src pa bytes, comes → msg = .write src pa bytes → pa + bytes.length ≤ pkgBytes →
        t = (u.physPut pa bytes).farAnswer die src (.farReply src []) ∧ t.physBytes pa bytes.length = bytes) ∧
      (∀ src pa len, comes → msg = .read src pa len → t = u.farAnswer die src (u.farRead src pa len) ∧ t.store = s.store ∧
        (s.store.marks = [] → u.farRead src pa len = .farReply src (s.physBytes pa len)) ∧
        (∀ l code, locOf false pa = some l → s.marked l len = some code → u.farRead src pa len = .farError src)) ∧
      (∀ core slot serial chunk, comes → msg = .ack core slot serial chunk → t = u.farAck core slot serial chunk) ∧
      (∀ die slot seq rank fn cnt dt op root words link bad, comes → msg = .contrib die slot seq rank fn cnt dt op root words link bad →
        let k : Contrib := { die, slot, seq, rank, fn, cnt, dt, op, root, words, link, bad }
        t.dies.contribs = if bad = true ∨ link ≠ none then k :: s.dies.contribs else s.dies.contribs ++ [k])) ∧
    (∀ n ok, n < 8 → ∃ t : State, exec (.portRetrainEnd n ok) s = .next t ∧ retrained (s.port n) (t.port n) ok ∧
      (∀ m, m < 8 → m ≠ n → t.port m = s.port m) ∧
      ((t.port n).failed = (s.port n).failed →
        let u : State := { s with pkg := { s.pkg with ports := t.pkg.ports } }
        t = if (t.port n).retraining = true then u else u.sendHeld.passOn) ∧
      (s.pkg.farIn = [] → t.store = s.store ∧ t.fab = s.fab ∧ t.regions = s.regions)) ∧
    -- An answer to another package.
    (∀ d pkg o,
      let waits : Prop := s.farWaits d pkg = true ∨ ∃ x ∈ s.pkg.farOut, x.1 = d ∧ x.2.1 = pkg
      (waits → s.farAnswer d pkg o = { s with pkg := { s.pkg with farOut := s.pkg.farOut ++ [(d, pkg, o)] } }) ∧
      (¬waits → s.farCut d pkg = none → s.farAnswer d pkg o = { s with pkg := { s.pkg with out := s.pkg.out ++ [o] } }) ∧
      (¬waits → (s.farCut d pkg).isSome = true → s.farAnswer d pkg o = s)) ∧
    -- Endpoints.
    (∀ r n g x e, s.region r = some g → g.gens.look n = some x → r < 2048 → n < 512 → x.running = true → x.old = false → x.rounded = false → genSrc x.p = 1 → x.fetch = .reading →
      s.eptOf g.gang (genEp x.p) = some e →
      let id := 2 * (512 * r + n) + 1
      let faults (i : Instr) (cls : Nat) (info : List Byte) : Prop := ∃ t q h, exec i s = .next t ∧ t.fab = { s.fab with recs := s.fab.recs ++ [q] } ∧ t.store = s.store ∧
        q.rcd.cls = cls ∧ q.rcd.info = info ∧ q.ctx = x.starter ∧ q.rcd.lease = g.lease ∧ t.region r = some h ∧
        h.gens.look n = some { x with running := false, faulted := true, fetch := .idle, eng := none }
      faults (.endpointTimeout id) 0x0B ([4#8, 7#8, 0xFF#8, 0#8] ++ natLe 4 x.pos) ∧
      (s.isRemote (dieOf r) e = false → exec (.remoteEndpointTimeout id) s = .next s) ∧
      (s.isRemote (dieOf r) e = true → faults (.remoteEndpointTimeout id) 0x12
        ([BitVec.ofNat 8 (s.farCode (dieOf r) (e.addr / 2 ^ 52 % 2 ^ 10)), 0#8, 0xFF#8, 0#8] ++ natLe 4 x.pos))) ∧
    (∀ core slot j e, s.job core slot = some j → core < 64 → slot < 128 → j.fault = none → j.fill = false → j.acked = false → (j.pkt.side true).sp = 2 →
      s.eptOf j.pkt.org.gang (j.pkt.side true).sel = some e →
      let id := 2 * (128 * core + slot)
      let faults (i : Instr) (cls : Nat) : Prop := ∃ t k x, exec i s = .next t ∧ t.job core slot = some k ∧ k.fault = some x ∧ x.cls = cls ∧
        x.lease = j.pkt.org.lease ∧ k.st = .running
      (j.st = .running → faults (.endpointTimeout id) 0x0B) ∧
      (j.st = .running → s.isRemote (core / 16) e = true → faults (.remoteEndpointTimeout id) 0x12) ∧
      -- A job that is being aborted waits no longer for what the other package has not acknowledged.
      (j.st = .aborting → j.acks = true → (∀ x ∈ s.cores.jobs, x.core = core → x.slot = slot → x = j) →
        exec (.remoteEndpointTimeout id) s = .next { s with cores := { s.cores with jobs := s.cores.jobs.map fun x =>
          if x = j then { j with acks := false, acked := true } else x } })) ∧
    -- The rank of a collective.
    (∀ die slot c, die < 4 → slot < 256 → s.collHead die slot = some c → c.begun = true → c.failed = false →
      let missing : Prop := ∃ r, r < s.ranks die slot ∧ s.groupEntry die slot r % 1024 ≠ s.fabid die ∧
        ∀ x ∈ s.dies.contribs, ¬(x.die = die ∧ x.slot = slot ∧ x.seq = c.seq ∧ x.rank = r)
      (¬missing → exec (.remoteEndpointTimeout (2 ^ 32 + 256 * die + slot)) s = .next s) ∧
      (missing → ∃ l, exec (.remoteEndpointTimeout (2 ^ 32 + 256 * die + slot)) s = .next
        (s.contribute die { c.pkt.part die slot (s.rankOf die slot) c.seq with words := c.src, link := some l })))

-- The package and the host.

/-- What the host does: a write to SUBHI submits unless BUSY is set, and SUBMIT_DONE answers it in SUBRES and SUBST; GKILL ends a live gang;
BAR4 reads and writes the homes, ones and nothing beyond 576 GiB; an ATS invalidation completes; a configuration register keeps what is written in it,
and those of MSI-X, payload, read request and BAR size have the values of R425; the sideband tells sensors, images and the lifetime store, and attestation its measurements; until READY is set, configuration is answered with retry status
(R423, R425, R430, R432, R435, R436, R447). Codes of messages are log 77, the layout of the capabilities
log 88, and the encoding of the answers is free (log 14). -/
def Obligations.HostRequests : Prop :=
  ∀ s : State,
    let tells (t : State) (o : Out) : Prop := t = { s with pkg := { s.pkg with out := s.pkg.out ++ [o] }, free := t.free }
    (∀ (die : Nat) (v : Word),
      (4 ≤ die ∨ (∃ x ∈ s.pkg.subs, x.die = die) → exec (.submit die v) s = .next s) ∧
      (die < 4 → (∀ x ∈ s.pkg.subs, x.die ≠ die) → ∃ t : State, exec (.submit die v) s = .next t ∧
        t.pkg.subs = s.pkg.subs ++ [({ die, lrec := (s.readReg (0x20 + 16 * die)).toNat / 256 * 256 + 2 ^ 32 * (v.toNat % 2 ^ 24),
                                       as_ := (s.readReg (0x68 + 4 * die)).toNat % 2 ^ 17 } : Sub)] ∧
        t.readReg (0x24 + 16 * die) = v &&& 0x00FFFFFF#32 ∧ (t.readReg (0x2C + 16 * die)).getLsbD 0 = true ∧
        t = { s with pkg := { s.pkg with subs := t.pkg.subs, mmio := t.pkg.mmio } })) ∧
    (∀ die : Nat, ((∀ x ∈ s.pkg.subs, x.die ≠ die) → exec (.submitDone die) s = .next s) ∧
      (s.dieWaits die = true → exec (.submitDone die) s = .next s) ∧
      (∀ x : Sub, die < 4 → s.dieWaits die = false → s.pkg.subs.find? (fun y => y.die = die) = some x →
        let u : State := { s with pkg := { s.pkg with subs := s.pkg.subs.filter fun y => y.die ≠ die } }
        -- What stands between the die and the entry that SUBAS names (R337, R424).
        let deny := s.tableDeny die (s.astBase die) x.as_ (s.astN die)
        let reads : Prop := (∀ l, deny ≠ some (.link l)) ∧ ∀ code, deny ≠ some (.bad code)
        let valid : Prop := ∃ a : ASpace, s.aspace die x.as_ = some a ∧ a.v = true
        let bad (t : State) (w : Word) : Prop :=
          t.readReg (0x28 + 16 * die) = 0xFFFFFFFF#32 ∧ t.readReg (0x2C + 16 * die) = w ∧ t.dies = s.dies ∧ t.store = s.store
        ∃ t : State, exec (.submitDone die) s = .next t ∧ (t.readReg (0x2C + 16 * die)).getLsbD 0 = false ∧
          (∀ l, deny = some (.link l) → bad t 0xFFFF1200#32) ∧ (∀ code, deny = some (.bad code) → bad t 0xFFFF0B00#32) ∧
          (reads → ¬valid → bad t 0xFFFF0F00#32) ∧
          (∀ (id : Word) (v : State), reads → valid → u.accept { die, lrec := x.lrec, recAs := x.as_ } = (.ok id, v) →
            t.readReg (0x28 + 16 * die) = id ∧ t.readReg (0x2C + 16 * die) = 0#32 ∧ t.dies = v.dies) ∧
          (∀ (e : Reject) (v : State), reads → valid → u.accept { die, lrec := x.lrec, recAs := x.as_ } = (.error e, v) → e.cls < 256 →
            t.readReg (0x28 + 16 * die) = 0xFFFFFFFF#32 ∧ (t.readReg (0x2C + 16 * die)).toNat = 65536 * (e.off % 65536) + 256 * e.cls ∧ t.dies = v.dies))) ∧
    (∀ v : Word,
      ((∀ g : Gang, s.gang v.toNat = some g → g.st = .ended) → exec (.gkill v) s = .next s) ∧
      (∀ g : Gang, s.gang v.toNat = some g → g.st ≠ .ended → ∃ (t : State) (h : Gang), exec (.gkill v) s = .next t ∧
        t.gang v.toNat = some h ∧ h.st = .ended ∧ h.saved = [] ∧
        ∀ (r : Nat) (x : Region), s.region r = some x → (x.gang = v.toNat → ∃ y : Region, t.region r = some y ∧ y.dead = true) ∧
          ((∀ e ∈ s.regions, e.1 = r → e.2.gang ≠ v.toNat) → t.region r = s.region r))) ∧
    (∀ (off len : Nat) (bytes : List Byte),
      let pa := 2 ^ 20 * (s.readReg 0x1C).toNat + off
      (s.memoryOk → ∃ t : State, exec (.hostBar4Access true off len bytes) s = .next t ∧ t.pkg = s.pkg ∧ t.store.dirty = s.store.dirty ∧
        (∀ (i l : Nat) (b : Byte) (rest : List Byte), bytes.drop i = b :: rest → locOf false (pa + i) = some l → t.homeByte l = b) ∧
        (∀ a : Nat, (∀ i, i < bytes.length → locOf false (pa + i) ≠ some a) → t.homeByte a = s.homeByte a)) ∧
      ((∀ i, i < len → ∀ l, locOf false (pa + i) = some l → s.store.marks.look (l / 32) = none) →
        ∃ (t : State) (bs : List Byte), exec (.hostBar4Access false off len bytes) s = .next t ∧ tells t (.bar4 bs) ∧ bs.length = len ∧
          ∀ i, i < len → (576 * 2 ^ 30 ≤ pa + i → bs.getD i 0#8 = 0xFF#8) ∧
            (∀ l, locOf false (pa + i) = some l → bs.getD i 0#8 = s.homeByte l))) ∧
    (∀ (write : Bool) (reg : Nat) (v : Word), ∃ t : State, exec (.configRequest write reg v) s = .next t ∧
      (s.pkg.boot < 5 → tells t .configRetry) ∧ (5 ≤ s.pkg.boot →
        let held := if write then v else s.pkg.config.lookD reg 0#32
        -- Bits that hold what is written, and those of the capabilities that R425 and R426 give values (log 88).
        ∃ w : Word, ((∀ c ∈ capRegs, Config.capAt c.num ≠ reg) → w &&& Config.configRw reg = held &&& Config.configRw reg) ∧
          (∀ c ∈ capRegs, Config.capAt c.num = reg → (∀ x ∈ capRegs, c.num < x.num → Config.capAt x.num ≠ reg) →
            w &&& c.fixed = c.val ∧ w &&& c.rw = held &&& c.rw) ∧
          t = { s with pkg := { s.pkg with config := t.pkg.config, out := s.pkg.out ++ [.config w] }, free := t.free } ∧
          t.pkg.config.lookD reg 0#32 = held ∧ ∀ o, o ≠ reg → t.pkg.config.lookD o 0#32 = s.pkg.config.lookD o 0#32)) ∧
    -- They say 2,048 vectors of MSI-X, and a payload of 512 bytes.
    (∀ c ∈ capRegs, ∀ w : Word, w &&& c.fixed = c.val →
      (c.num = 0 → w.toNat / 2 ^ 16 % 2 ^ 11 + 1 = 2048) ∧ (c.num = 1 → 2 ^ (7 + w.toNat % 8) = 512)) ∧
    (∀ addr : Nat, ∃ t : State, exec (.atsInvalidation addr) s = .next t ∧ (∀ e ∈ t.pkg.ats, e.1 ≠ addr / 4096) ∧
      t = { s with pkg := { s.pkg with ats := t.pkg.ats, out := s.pkg.out ++ [.atsDone addr] } }) ∧
    (∀ (kind : Nat) (bytes : List Byte), ∃ (t : State) (told : Told) (bs : List Byte), exec (.mctpMessage kind bytes) s = .next t ∧
      t = { s with pkg := { s.pkg with out := s.pkg.out ++ [.mctp told bs], fuse := t.pkg.fuse, images := t.pkg.images }, free := t.free } ∧
      s.pkg.fuse ≤ t.pkg.fuse ∧ t.pkg.fuse ≤ s.pkg.fuse + 1 ∧ (kind ≠ 5 → t.pkg.fuse = s.pkg.fuse ∧ t.pkg.images = s.pkg.images) ∧
      (kind = 2 → told = .sensors s.pkg.amps s.pkg.temps s.pkg.hot) ∧ (kind = 5 → told = .firmware t.pkg.images) ∧
      (kind = 0x7E ∨ kind = 0x7F → told = .lifetime s.pkg.flash)) ∧
    (∀ (code : Nat) (bytes : List Byte), ∃ t : State, exec (.spdmRequest code bytes) s = .next t ∧
      (s.pkg.boot < 5 → tells t .configRetry) ∧ (5 ≤ s.pkg.boot → ∃ (a : Attest) (bs : List Byte), tells t (.spdm a bs) ∧
        (code = 0x81 → a = .digests s.pkg.chain) ∧ (code = 0x82 → a = .certificate s.pkg.chain) ∧ (code = 0x83 → a = .challenge s.pkg.identity) ∧
        (code = 0x84 → a = .version) ∧ (code = 0xE1 → a = .capabilities false) ∧ (code = 0xE3 → a = .algorithms .sha384 [] [.brainpoolP384]) ∧
        (code = 0xE0 → ∃ m : Measurements, a = .measurements m ∧ m.rom = Config.romVersion ∧ m.config = s.pkg.config ∧ m.fuse = s.pkg.fuse ∧
          m.debug = s.pkg.debugUsed ∧
          ∀ (i : FwImage) (rest : List FwImage), s.pkg.images = i :: rest → m.izine = i.body ∧ m.dies = rest.map fun j => j.body)))

/-- The package's own care: PKGRST resets all but HBM and its marks and leaves bring-up at its second step; bring-up ends with READY set,
or clear with the step recorded; currents and temperatures throttle a die in steps, which it recovers; a trip stops all and loses what
only L2 held; scrubbing counts a corrected word and marks an uncorrectable one; the lifetime store goes to flash (R437, R438, R440, R441,
R443, R445, R448, R458). What a trip leaves of L2 is free (log 7), and so are whether a step of bring-up works, and what a signature
verifies (log 15); that a sample brings the rail's voltage is log 102; what PKGRST keeps, that a hot die recovers no step, and the rest of a failure of bring-up are log 47, the model's readings. -/
def Obligations.PackageCare : Prop :=
  ∀ s : State,
    let cleared (t : State) : Prop :=
      t.fab = State.reset.fab ∧ t.regions = State.reset.regions ∧ t.rregs = State.reset.rregs ∧ t.cores = State.reset.cores ∧
      t.dies = State.reset.dies ∧ (t.readReg 0x04).getLsbD 31 = false ∧ t.store.marks = s.store.marks ∧
      t.store.dirty = [] ∧ t.store.spad = State.reset.store.spad
    let throttled (t : State) (die n : Nat) : Prop :=
      t.pkg.throttle.getD die 0 = n ∧ ∀ e, e < 4 → e ≠ die → t.pkg.throttle.getD e 0 = s.pkg.throttle.getD e 0
    let x (die : Nat) : Nat := s.pkg.throttle.getD die 0
    (∀ v : Word,
      let takes : Prop := v.toNat / 65536 = 0xA5A5 ∧ v.getLsbD 0 = true ∧ s.pkg.tripped = false
      (¬takes → exec (.pkgrst v) s = .next s) ∧
      (takes → ∃ t : State, exec (.pkgrst v) s = .next t ∧ cleared t ∧ (∀ a, t.homeByte a = s.homeByte a) ∧ t.pkg.boot = 1 ∧
        t.pkg.flash = s.pkg.flash ∧ t.pkg.fuse = s.pkg.fuse ∧ t.pkg.images = s.pkg.images ∧ t.pkg.temps = s.pkg.temps ∧ t.pkg.hot = s.pkg.hot)) ∧
    (5 ≤ s.pkg.boot → exec .powerOnBringUp s = .next s) ∧
    (s.pkg.boot < 4 → ∃ t : State, exec .powerOnBringUp s = .next t ∧ (∀ a, t.homeByte a = s.homeByte a) ∧ (s.pkg.boot = 0 → t.regions = [] ∧ t.pkg.tripped = false) ∧
      ((t.pkg.boot = 5 ∧ ((∀ l ∈ s.pkg.links, l.failed = false) → (t.readReg 0x04).getLsbD 31 = true) ∧ (∀ l ∈ t.pkg.links, l.up = true) ∧ (∀ l ∈ t.pkg.ports, l.up = true) ∧
          -- Every image that was still to be verified has a security version that the fuses allow, and verifies under the fused key (R445).
          ∀ i, i < 16 → s.pkg.boot < (if i = 0 then 2 else 3) → let x := s.pkg.images.getD i {}
            s.pkg.fuse ≤ x.version ∧ Config.keyHash x.key = s.pkg.rootHash ∧ Config.signed x.key x.sig x.kind x.version x.body = true) ∨
       (t.pkg.boot = 0 ∧ ((∀ l ∈ s.pkg.links, l.failed = false) → (t.readReg 0x04).getLsbD 31 = false) ∧ s.pkg.boot < t.pkg.flash.failedStep ∧ t.pkg.flash.failedStep ≤ 5))) ∧
    (∀ die milliamps millivolts : Nat, die < 4 →
      -- The samples, one a microsecond, above 1,400 A in the last 10 ms: more than 1 ms of them.
      let recent := (if 1400000 < milliamps then [s.pkg.now] else []) ++ (s.pkg.peaks.getD die []).filter fun t => decide (s.pkg.now < t + 40000000)
      let high : Prop := 2250000 < milliamps ∨ (1400000 < milliamps ∧ 1000 < recent.length)
      ∃ t : State, exec (.currentSample die milliamps millivolts) s = .next t ∧
        t = { s with pkg := { s.pkg with throttle := t.pkg.throttle, amps := t.pkg.amps, peaks := t.pkg.peaks, volts := t.pkg.volts } } ∧
        -- Izine sets the rail within its range (R437).
        t.pkg.volts.getD die 0 = max 600 (min 750 millivolts) ∧ (∀ e, e < 4 → e ≠ die → t.pkg.volts.getD e 675 = s.pkg.volts.getD e 675) ∧
        t.pkg.peaks.getD die [] = recent ∧ (∀ e, e < 4 → e ≠ die → t.pkg.peaks.getD e [] = s.pkg.peaks.getD e []) ∧
        t.pkg.amps.getD die 0 = milliamps ∧ (∀ e, e < 4 → e ≠ die → t.pkg.amps.getD e 0 = s.pkg.amps.getD e 0) ∧
        (¬high → t.pkg.throttle = s.pkg.throttle) ∧ (high → throttled t die (min 15 (x die + 1)))) ∧
    (∀ die : Nat, die < 4 →
      (s.pkg.hot.getD die false = true → exec (.throttleRecover die) s = .next s) ∧
      (s.pkg.hot.getD die false = false → ∃ t : State, exec (.throttleRecover die) s = .next t ∧ throttled t die (x die - 1) ∧
        t = { s with pkg := { s.pkg with throttle := t.pkg.throttle } }) ∧
      ∀ sensor celsius : Nat, sensor < 64 → ∃ (t : State) (hot : Bool), exec (.thermalThrottle die { sensor, celsius }) s = .next t ∧ t.pkg.hot.getD die false = hot ∧
        -- The 64 junction sensors of the die.
        (∀ n, n < 64 → (t.pkg.temps.getD die []).getD n 0 = if n = sensor then celsius else (s.pkg.temps.getD die []).getD n 0) ∧
        (∀ e, e < 4 → e ≠ die → t.pkg.temps.getD e [] = s.pkg.temps.getD e []) ∧
        (hot = true ↔ ∃ n, n < 64 ∧ 100 ≤ (t.pkg.temps.getD die []).getD n 0) ∧
        (hot = true → throttled t die (min 15 (x die + 1)) ∧ ((∀ l ∈ s.pkg.links, l.failed = false) → (t.readReg 0x04).getLsbD 29 = true)) ∧ (hot = false → t.pkg.throttle = s.pkg.throttle) ∧
        t = { s with pkg := { s.pkg with throttle := t.pkg.throttle, hot := t.pkg.hot, temps := t.pkg.temps } }) ∧
    (s.pkg.tripped = true → exec .packageTrip s = .next s) ∧
    (s.memoryOk → s.pkg.tripped = false → ∃ t : State, exec .packageTrip s = .next t ∧ t.pkg.tripped = true ∧ t.pkg.powered = false ∧ cleared t ∧
      t.pkg.flash.trips = s.pkg.flash.trips + 1 ∧ ∀ a, t.homeByte a = s.homeByte a ∨ (a, t.homeByte a) ∈ s.store.stale) ∧
    (∀ at_ : ScrubAt, ∃ t : State, exec (.patrolScrub at_ false) s = .next t ∧ t.store = s.store ∧
      t = { s with pkg := { s.pkg with life := t.pkg.life }, free := t.free } ∧
      (∀ pa, at_ = .hbm pa → t.pkg.life.scrub = s.pkg.life.scrub ∧ ∃ n, t.pkg.life.hbm.lookD n 0 = s.pkg.life.hbm.lookD n 0 + 1 ∧
        ∀ m, m ≠ n → t.pkg.life.hbm.lookD m 0 = s.pkg.life.hbm.lookD m 0) ∧
      ((∀ pa, at_ ≠ .hbm pa) → t.pkg.life.hbm = s.pkg.life.hbm ∧ ∃ n, t.pkg.life.scrub.lookD n 0 = s.pkg.life.scrub.lookD n 0 + 1 ∧
        ∀ m, m ≠ n → t.pkg.life.scrub.lookD m 0 = s.pkg.life.scrub.lookD m 0)) ∧
    (∀ at_ : ScrubAt, ∃ t : State, exec (.patrolScrub at_ true) s = .next t ∧ t.pkg = s.pkg ∧ t.store.cells = s.store.cells ∧
      (∀ pa l, at_ = .hbm pa → locOf false pa = some l →
        t = { s with store := { s.store with marks := t.store.marks } } ∧ t.store.marks.look (l / 32) = some 0 ∧
        ∀ n, n ≠ l / 32 → t.store.marks.look n = s.store.marks.look n) ∧
      (∀ key, at_ = .spad key → t = { s with store := { s.store with badWords := t.store.badWords } } ∧
        (∀ n, n ∈ t.store.badWords ↔ n = 2 * (key / 8 * 8) ∨ n ∈ s.store.badWords))) ∧
    (∀ i : Instr, i = .lifetimeStoreWrite ∨ i = .orderlyShutdown → ∃ t : State, exec i s = .next t ∧
      t = { s with pkg := { s.pkg with flash := s.pkg.life } })

/-- Register writes: a plain register holds what is written, but for its reserved bits, and no other register's value changes; a field with
limits takes the nearest value; what is read-only, and what is no register, ignores a write; of RCTL's commands KILL goes before RESUME (R194);
the rest do what their events do (the tables of R195, R280, R281, R311, R312, R370, R392, R397, R404, R427, R453). That a write to RCTL starts
the count of the deadlock detector again is log 74, and how reserved bits and fields with limits are stored log 60: the model's choices. -/
def Obligations.RegisterWrites : Prop :=
  ∀ (s : State) (v : Word),
    let die (d : Nat) : Nat := 0x100000 + 0x300000 * d
    let write (off : Nat) : Host.Outcome State Fault Refusal := exec (.registerWrite off v) s
    let holds (off : Nat) (w : Word) : Prop := ∃ t : State, write off = .next t ∧ t = { s with pkg := { s.pkg with mmio := t.pkg.mmio } } ∧
      t.readReg off = w ∧ ∀ o, o ≠ off → t.readReg o = s.readReg o
    let field (lo n : Nat) : Nat := v.toNat / 2 ^ lo % 2 ^ n
    let fit (lo hi x : Nat) : Nat := max lo (min hi x)
    -- Plain registers.
    (∀ e ∈ ([(0x10, 0xFFFFF000#32), (0x14, 0x000FFFFF#32), (0x18, 0x0001FFFF#32), (0x1C, 0xFFFFFFFF#32), (0x68, 0x0001FFFF#32),
             (0x6C, 0x0001FFFF#32), (0x70, 0x0001FFFF#32), (0x74, 0x0001FFFF#32)] : List (Nat × Word)), holds e.1 (v &&& e.2)) ∧
    (∀ d, d < 4 → (∀ x ∈ s.pkg.subs, x.die ≠ d) → holds (0x20 + 16 * d) (v &&& 0xFFFFFF00#32)) ∧
    (∀ d, d < 4 → ∀ e ∈ ([(0x0000, 0xFFFFF000#32), (0x0004, 0x000FFFFF#32), (0x0008, 0x0001FFFF#32), (0x0010, 0xFFFC0000#32),
                          (0x0014, 0x00FFFFFF#32), (0x0018, 0xFFFFFFFF#32), (0x001C, 0x30000FFF#32), (0x1004, 0xFFFFFFFF#32),
                          (0x1008, 0x000FFFFF#32), (0x104C, 0xFFFFFFFF#32), (0x2000, 0x0000FFFF#32), (0x3000, 0x000003FF#32),
                          (0x3004, 0xC0000001#32), (0x3008, 0xFFFFFC00#32), (0x300C, 0x000FFFFF#32)] : List (Nat × Word)),
      holds (die d + e.1) (v &&& e.2)) ∧
    -- Fields with limits.
    (∀ d, d < 4 →
      holds (die d + 0x40) (BitVec.ofNat 32 (2 ^ 8 * fit 20 31 (field 8 5) + fit 0 16 (field 0 5))) ∧
      holds (die d + 0x1000) (BitVec.ofNat 32 (2 ^ 16 * fit 12 30 (field 16 5) + fit 12 30 (field 0 5))) ∧
      (∀ c, c < 4 → holds (die d + 0x10000 + 0x1000 * c) (BitVec.ofNat 32 (fit 12 30 (field 0 5)))) ∧
      (∀ core slot, core < 16 → slot < 32 →
        let r := 32 * (16 * d + core) + slot
        let off := die d + 0x40000 + 0x2000 * core + 0x40 * slot
        ∃ t : State, write (off + 8) = .next t ∧ t = { s with rregs := t.rregs } ∧ (∀ q, q ≠ r → t.rreg q = s.rreg q) ∧
          t.rreg r = { s.rreg r with dlcfg := t.readReg (off + 8) } ∧
          t.readReg (off + 8) = BitVec.ofNat 32 (2 ^ 16 * field 16 1 + 2 ^ 8 * fit 10 24 (field 8 5) + fit 12 30 (field 0 5)))) ∧
    -- RCTL, RDBG and RSTAT.
    (∀ d core slot, d < 4 → core < 16 → slot < 32 →
      let r := 32 * (16 * d + core) + slot
      let off := die d + 0x40000 + 0x2000 * core + 0x40 * slot
      let u := s.updRegion r fun g => { g with stalled := false, stall := 0 }
      -- KILL goes before RESUME (R194). That the count of the deadlock detector starts again is log 74, the model's choice.
      (v.getLsbD 1 = true → write (off + 4) = exec (.kill r) u) ∧
      (v.getLsbD 1 = false → v.getLsbD 0 = true → write (off + 4) = exec (.resume r) u) ∧
      (v.getLsbD 1 = false → v.getLsbD 0 = false → write (off + 4) = .next u) ∧
      (∃ t : State, write (off + 0x18) = .next t ∧ t.store = s.store ∧ (t.rreg r).rdbg = v &&& 0x1F#32 ∧ ∀ q, q ≠ r → t.rreg q = s.rreg q) ∧
      (∃ t : State, write off = .next t ∧ t = { s with rregs := t.rregs } ∧ (∀ q, q ≠ r → t.rreg q = s.rreg q) ∧
        t.rreg r = { s.rreg r with starve := (s.rreg r).starve && !v.getLsbD 12, stall := (s.rreg r).stall && !v.getLsbD 11 })) ∧
    -- The sync page.
    (∀ d core n, d < 4 → core < 16 → n < 256 →
      let off := die d + 0x41000 + 0x2000 * core + 8 * n
      let c := 16 * d + core
      let only (t : State) : Prop := (∀ k m, m < 256 → (k, m) ≠ (c, n) → t.sem k m = s.sem k m) ∧ t.store = s.store ∧ t.fab = s.fab ∧ t.regions = s.regions
      (∃ t : State, write off = .next t ∧ t.sem c n = { s.sem c n with value := v } ∧ only t) ∧
      (∃ t : State, write (off + 4) = .next t ∧ t.sem c n = { s.sem c n with abt := (s.sem c n).abt && !v.getLsbD 31 } ∧ only t) ∧
      (n < 96 → write (die d + 0x41800 + 0x2000 * core + 16 * n) = exec (.sbcfgWrite c n v) s) ∧
      (v.getLsbD 31 = true → write (die d + 0x41E00 + 0x2000 * core) = exec (.cjctlAbort c (v.toNat % 128)) s)) ∧
    -- Registers that do what an event does.
    write 0x08 = exec (.pkgrst v) s ∧ write 0x60 = exec (.gkill v) s ∧
    (∀ d, d < 4 → write (0x24 + 16 * d) = exec (.submit d v) s ∧ write (die d + 0x20) = exec (.tigo d v) s ∧
      (∀ o, o ∈ [0x1040, 0x1044, 0x1048] → write (die d + o) = exec (.traceConfigWrite (die d + o) v) s) ∧
      (∀ c, c < 4 → v.getLsbD 0 = true → write (die d + 0x10000 + 0x1000 * c + 0x10) = exec (.ccctlWb (4 * d + c)) s) ∧
      (∀ n, n < 256 → v.getLsbD 31 = true → write (die d + 0x3100 + 16 * n) = exec (.cscfgEnable d n v) s) ∧
      (∀ q, q < 4096 →
        let off := die d + 0x20000 + 0x20 * q
        ((s.hq d q).en = false → v.getLsbD 31 = true → write off = exec (.qcfgEnable d q v) s) ∧
        ((s.hq d q).en = true → v.getLsbD 31 = true → v.getLsbD 30 = true → write off = exec (.qcfgClose d q v) s) ∧
        ((s.hq d q).en = true → write (off + 4) = .next s ∧ write (off + 8) = .next s))) ∧
    -- What takes no write.
    (∀ off, off < 0x100000 → off ∉ [0x08, 0x10, 0x14, 0x18, 0x1C, 0x60, 0x68, 0x6C, 0x70, 0x74] → ¬(0x20 ≤ off ∧ off < 0x60 ∧ off % 16 ∈ [0, 4]) →
      write off = .next s) ∧
    (∀ off, 0xD00000 ≤ off → write off = .next s) ∧
    -- Registers of the die pages that are read-only, and what is none.
    (∀ d o, d < 4 →
      (o < 0x1000 → o ∉ [0x00, 0x04, 0x08, 0x10, 0x14, 0x18, 0x1C, 0x20, 0x40] → write (die d + o) = .next s) ∧
      (o < 0x1000 → o ∉ [0x00, 0x04, 0x08, 0x40, 0x44, 0x48, 0x4C] → write (die d + 0x1000 + o) = .next s) ∧
      (0 < o → o < 0x1000 → write (die d + 0x2000 + o) = .next s) ∧
      (o < 0x100 → o ∉ [0x00, 0x04, 0x08, 0x0C] → write (die d + 0x3000 + o) = .next s) ∧
      (∀ c, c < 4 → o < 0x1000 → o ≠ 0 → (o = 0x10 → v.getLsbD 0 = false) → write (die d + 0x10000 + 0x1000 * c + o) = .next s) ∧
      (∀ q, q < 4096 → o < 0x20 → o ∉ [0x00, 0x04, 0x08] → write (die d + 0x20000 + 0x20 * q + o) = .next s) ∧
      (∀ core slot, core < 16 → slot < 32 → o < 0x40 → o ∉ [0x00, 0x04, 0x08, 0x18] →
        write (die d + 0x40000 + 0x2000 * core + 0x40 * slot + o) = .next s) ∧
      -- Among these is CJCTL with ABORT clear.
      (∀ core, core < 16 → 0x800 ≤ o → o < 0x1000 → (o < 0xE00 → o % 16 ≠ 0) → (o = 0xE00 → v.getLsbD 31 = false) →
        write (die d + 0x41000 + 0x2000 * core + o) = .next s))
end

