-- ==== Sys2Proof/Laws/Fire.lean ====
section
/-!
SUPPORT. Tables, and what a firing does at once: one lemma for each thing that `View.commit` leaves or changes.
-/

namespace Sys2Proof.Machine

variable {α : Type}

-- Tables.

theorem Tab.look_put_same (t : Tab α) (k : Nat) (v : α) : (t.put k v).look k = some v := by
  induction t with
  | nil => simp [Tab.put, Tab.look]
  | cons e r ih =>
    simp only [Tab.put]
    split
    · simp [Tab.look]
    · split
      · simp [Tab.look]
      · next h => simp only [Tab.look]; rw [if_neg (by omega)]; exact ih

theorem Tab.look_put_other (t : Tab α) {j k : Nat} (h : j ≠ k) (v : α) : (t.put k v).look j = t.look j := by
  induction t with
  | nil => simp [Tab.put, Tab.look, h.symm]
  | cons e r ih =>
    simp only [Tab.put]
    split
    · simp [Tab.look, h.symm]
    · split
      · next hk => subst hk; simp [Tab.look, h.symm]
      · simp only [Tab.look]; split
        · rfl
        · exact ih

theorem Tab.look_upd (t : Tab α) (j k : Nat) (f : α → α) :
    (t.upd k f).look j = if j = k then (t.look j).map f else t.look j := by
  induction t with
  | nil => simp [Tab.upd, Tab.look]
  | cons e r ih =>
    have hm : Tab.upd (e :: r) k f = (if e.1 = k then (e.1, f e.2) else e) :: Tab.upd r k f := rfl
    rw [hm]
    by_cases h : e.1 = k <;> by_cases hj : e.1 = j
    · subst h; subst hj; simp [Tab.look]
    · have hjk : ¬ j = k := fun e' => hj (h.trans e'.symm)
      simp only [if_pos h, Tab.look, if_neg hj, ih]
    · have hjk : ¬ j = k := fun e' => h (hj.trans e')
      simp only [if_neg h, Tab.look, if_pos hj, if_neg hjk]
    · simp only [if_neg h, Tab.look, if_neg hj, ih]

theorem Tab.lookD_alter_same (t : Tab α) (k : Nat) (d : α) (f : α → α) :
    (t.alter k d f).lookD k d = f (t.lookD k d) := by
  simp [Tab.alter, Tab.lookD, Tab.look_put_same]

theorem Tab.lookD_alter_other (t : Tab α) {j k : Nat} (h : j ≠ k) (d : α) (f : α → α) :
    (t.alter k d f).lookD j d = t.lookD j d := by
  simp [Tab.alter, Tab.lookD, Tab.look_put_other _ h]

theorem getD_setAt (n : Nat) (d : α) (l : List α) (i : Nat) (v : α) (j : Nat) (h : j < n) :
    (setAt n d l i v).getD j d = if j = i then v else l.getD j d := by
  simp [setAt, List.getD_eq_getElem?_getD, h]

-- Regions, contexts and elements.

theorem State.region_updRegion (s : State) (r q : Nat) (f : Region → Region) :
    (s.updRegion r f).region q = if q = r then (s.region q).map f else s.region q := Tab.look_upd ..

theorem State.elem_updElem_same (s : State) (p : Nat) (f : Elem → Elem) : (s.updElem p f).elem p = f (s.elem p) :=
  Tab.lookD_alter_same ..

theorem State.elem_updElem_other (s : State) {p q : Nat} (h : q ≠ p) (f : Elem → Elem) : (s.updElem p f).elem q = s.elem q :=
  Tab.lookD_alter_other _ h ..

theorem Region.ctx_updCtx (g : Region) (el k el' k' : Nat) (f : Ctx → Ctx) (hf : ∀ c, (f c).el = c.el ∧ (f c).k = c.k) :
    (g.updCtx el k f).ctx el' k' = if el' = el ∧ k' = k then (g.ctx el' k').map f else g.ctx el' k' := by
  simp only [Region.ctx, Region.updCtx, mapIf]
  induction g.ctxs with
  | nil => simp
  | cons c cs ih =>
    simp only [List.map_cons, List.find?_cons]
    by_cases hc : c.el = el ∧ c.k = k
    · simp only [hc, and_self, decide_true, if_true, (hf c).1, (hf c).2]
      by_cases hd : el' = el ∧ k' = k
      · simp [hd]
      · have : ¬(el = el' ∧ k = k') := fun h => hd ⟨h.1.symm, h.2.symm⟩
        simp only [hd, if_false, this, decide_false] at ih ⊢
        exact ih
    · simp only [hc, decide_false, Bool.false_eq_true, if_false]
      by_cases hd : c.el = el' ∧ c.k = k'
      · have : ¬(el' = el ∧ k' = k) := fun h => hc ⟨hd.1.trans h.1, hd.2.trans h.2⟩
        simp [hd, this]
      · simp only [hd, decide_false]; exact ih

theorem Region.ctx_spec {g : Region} {el k : Nat} {x : Ctx} (h : g.ctx el k = some x) : x.el = el ∧ x.k = k := by
  have := List.find?_some h
  simpa using this

/-- What a view says of its state. -/
theorem view_spec {s : State} {r : Rule} {w : ImmW} {v : View} (h : view s r w = some v) :
    v.f = s.cur ∧ v.r = s.cur.ctx.region ∧ s.region v.r = some v.g ∧ v.g.ctx s.cur.ctx.el s.cur.ctx.k = some v.x ∧
    v.x.el = s.cur.ctx.el ∧ v.x.k = s.cur.ctx.k ∧ v.p = v.g.phys s.cur.ctx.el ∧ v.e = s.elem v.p ∧ v.rule = r := by
  simp only [view] at h
  split at h
  · cases h
  · next g hg =>
    split at h
    · cases h
    · next x hx =>
      cases h
      exact ⟨rfl, rfl, hg, hx, (Region.ctx_spec hx).1, (Region.ctx_spec hx).2, rfl, rfl, rfl⟩

-- Popping.

/-- What popping changes: an element's channels, credits on their way back, names, and the counts of discards. -/
structure Pops (s t : State) (p : Nat) : Prop where
  rest : t = { s with fab := t.fab, rregs := t.rregs, uid := t.uid }
  fabric : t.fab = { s.fab with elems := t.fab.elems, credRets := t.fab.credRets }
  others : ∀ q, q ≠ p → t.elem q = s.elem q
  element : t.elem p = { s.elem p with ch := (t.elem p).ch }

theorem Pops.refl (s : State) (p : Nat) : Pops s s p := ⟨rfl, rfl, fun _ _ => rfl, rfl⟩

theorem Pops.trans {s t u : State} {p : Nat} (h : Pops s t p) (k : Pops t u p) : Pops s u p := by
  refine ⟨?_, ?_, fun q hq => (k.others q hq).trans (h.others q hq), ?_⟩
  · have := k.rest; rw [h.rest] at this; exact this
  · have := k.fabric; rw [h.fabric] at this; exact this
  · have := k.element; rw [h.element] at this; exact this

theorem Pops.pop (s : State) (p n : Nat) : Pops s (s.pop p n) p := by
  simp only [State.pop]
  split
  · exact Pops.refl s p
  · next t _ =>
    have hr : ∀ u : State, Pops s u p → Pops s (u.returnCredit t.via) p := by
      intro u hu
      refine hu.trans ?_
      simp only [State.returnCredit]
      split
      · exact Pops.refl ..
      · exact ⟨rfl, rfl, fun _ _ => rfl, rfl⟩
    refine hr _ ⟨rfl, rfl, fun q hq => State.elem_updElem_other s hq _, ?_⟩
    rw [State.elem_updElem_same]; rfl

theorem Pops.updRreg (s : State) (p r : Nat) (f : RReg → RReg) : Pops s (s.updRreg r f) p :=
  ⟨rfl, rfl, fun _ _ => rfl, rfl⟩

theorem Pops.tidyCh (s : State) (p n m : Nat) : Pops s (s.tidyCh p n m) p := by
  induction m generalizing s with
  | zero => exact Pops.refl s p
  | succ m ih =>
    simp only [State.tidyCh]
    split
    · exact Pops.refl s p
    · split
      · exact ((Pops.pop s p n).trans (Pops.updRreg ..)).trans (ih _)
      · exact Pops.refl s p

theorem Pops.foldl (p : Nat) (f : State → Nat → State) (hf : ∀ s n, Pops s (f s n) p) (l : List Nat) (s : State) :
    Pops s (l.foldl f s) p := by
  induction l generalizing s with
  | nil => exact Pops.refl s p
  | cons n l ih => exact (hf s n).trans (ih _)

theorem Pops.popMask (s : State) (p : Nat) (dq : BitVec 4) : Pops s (s.popMask p dq) p := by
  simp only [State.popMask]
  split
  · exact Pops.refl s p
  · refine (Pops.foldl p _ (fun s n => ?_) _ s).trans (Pops.foldl p _ (fun s n => Pops.tidyCh s p n 4) _ _)
    split
    · exact Pops.pop s p n
    · exact Pops.refl s p

theorem State.ownerOf_congr {s t : State} (h : t.regions = s.regions) (p k : Nat) : t.ownerOf p k = s.ownerOf p k := by
  simp [State.ownerOf, h]

theorem State.discards_congr {s t : State} (h : t.regions = s.regions) (p k : Nat) : t.discards p k = s.discards p k := by
  simp [State.discards, State.ownerOf_congr h, State.region, h]

theorem Pops.discards {s t : State} {p : Nat} (h : Pops s t p) (q k : Nat) : t.discards q k = s.discards q k :=
  State.discards_congr (by rw [h.rest]) q k

theorem State.tidyCh_none (s : State) (p n m : Nat) (h : ∀ k, s.discards p k = none) : s.tidyCh p n m = s := by
  cases m with
  | zero => rfl
  | succ m =>
    simp only [State.tidyCh]
    split
    · rfl
    · simp [h]

theorem State.tidy_none (s : State) (p : Nat) (h : ∀ k, s.discards p k = none) : s.tidy p = s := by
  simp only [State.tidy]
  induction List.range 4 with
  | nil => rfl
  | cons n l ih => rw [List.foldl_cons, State.tidyCh_none _ _ _ _ h]; exact ih

theorem State.chan_pop (s : State) (p n c : Nat) (hc : c < 4) :
    ((s.pop p n).elem p).chan c = if c = n then ((s.elem p).chan c).drop 1 else (s.elem p).chan c := by
  simp only [State.pop]
  split
  · next h =>
    split
    · next hn => subst hn; simp only [Elem.head, List.head?_eq_none_iff] at h; simp [h]
    · rfl
  · next t _ =>
    have : ∀ u : State, (u.returnCredit t.via).elem p = u.elem p := by
      intro u; simp only [State.returnCredit]; split <;> rfl
    rw [this, State.elem_updElem_same]
    simp only [Elem.popCh, Elem.chan, getD_setAt _ _ _ _ _ _ hc]
    split
    · next h => subst h; rfl
    · rfl

/-- The channels after the pops of a mask, where nothing is discarded. -/
theorem State.chan_popMask (s : State) (p : Nat) (dq : BitVec 4) (c : Nat) (hc : c < 4) (h : ∀ k, s.discards p k = none) :
    ((s.popMask p dq).elem p).chan c = if dq.getLsbD c then ((s.elem p).chan c).drop 1 else (s.elem p).chan c := by
  simp only [State.popMask]
  split
  · next hd => subst hd; simp
  · have step : ∀ (l : List Nat) (u : State), Pops s u p →
        ((l.foldl (fun s n => if dq.getLsbD n then s.pop p n else s) u).elem p).chan c =
          ((fun (x : List Token) => x.drop (l.filter fun n => dq.getLsbD n && decide (c = n)).length) ((u.elem p).chan c)) := by
      intro l
      induction l with
      | nil => intro u _; simp
      | cons n l ih =>
        intro u hu
        simp only [List.foldl_cons]
        by_cases hn : dq.getLsbD n = true
        · rw [if_pos hn, ih _ (hu.trans (Pops.pop u p n)), State.chan_pop _ _ _ _ hc]
          by_cases hcn : c = n
          · subst hcn; simp [hn, Nat.add_comm]
          · simp [hn, hcn]
        · rw [if_neg hn, ih _ hu]; simp [hn]
    rw [State.tidy_none, step _ _ (Pops.refl s p)]
    · have : ∀ c, c < 4 → ((List.range 4).filter fun n => dq.getLsbD n && decide (c = n)).length = if dq.getLsbD c then 1 else 0 := by
        intro c hc
        have : (List.range 4).filter (fun n => dq.getLsbD n && decide (c = n)) = if dq.getLsbD c then [c] else [] := by
          have h4 : c = 0 ∨ c = 1 ∨ c = 2 ∨ c = 3 := by omega
          rcases h4 with rfl | rfl | rfl | rfl <;> simp [List.range, List.range.loop, List.filter] <;> split <;> simp_all
        rw [this]; split <;> rfl
      simp only [this c hc]
      split <;> simp
    · intro k
      have : Pops s ((List.range 4).foldl (fun s n => if dq.getLsbD n then s.pop p n else s) s) p :=
        Pops.foldl p _ (fun s n => by split; exacts [Pops.pop s p n, Pops.refl s p]) _ s
      rw [this.discards]; exact h k

-- Reserving places.

/-- What reserving changes, and the places it adds. -/
theorem State.reserve_spec (s : State) (c : CtxId) (own : Nat) (om : BitVec 8) :
    (s.reserve c own om) = { s with fab := (s.reserve c own om).fab, uid := (s.reserve c own om).uid } ∧
    (s.reserve c own om).fab = { s.fab with flits := (s.reserve c own om).fab.flits } ∧
    ∃ fs, (s.reserve c own om).fab.flits = s.fab.flits ++ fs ∧ fs.map (fun f => f.o) = (List.range 8).filter om.getLsbD ∧
      ∀ f ∈ fs, f.own = own ∧ f.ctx = c ∧ f.filled = false := by
  simp only [State.reserve]
  generalize List.range 8 = l
  induction l generalizing s with
  | nil => exact ⟨rfl, rfl, [], by simp⟩
  | cons o l ih =>
    rw [List.foldl_cons]
    by_cases h : om.getLsbD o = true
    · rw [if_pos h]
      obtain ⟨h1, h2, fs, h3, h4, h5⟩ := ih _
      refine ⟨h1, h2, { id := s.uid, own := own, ctx := c, o := o,
                        node := ((s.region c.region).bind fun g => g.nodeOf c.el c.k o).map fun e => (c.region, e.1) } :: fs, ?_, ?_, ?_⟩
      · rw [h3, List.append_assoc]; rfl
      · simp [h4, h]
      · intro f hf
        rcases List.mem_cons.mp hf with rfl | hf
        · exact ⟨rfl, rfl, rfl⟩
        · exact h5 f hf
    · rw [if_neg h]
      obtain ⟨h1, h2, fs, h3, h4, h5⟩ := ih s
      exact ⟨h1, h2, fs, h3, by simp [h4, h], h5⟩

theorem State.joinLane_spec (s : State) (lead : CtxId) (slot n : Nat) (i : LaneIn) (create : Bool) (t : Nat) :
    (s.joinLane lead slot n i create t) = { s with fab := (s.joinLane lead slot n i create t).fab } ∧
    (s.joinLane lead slot n i create t).fab = { s.fab with lanes := (s.joinLane lead slot n i create t).fab.lanes,
                                                           wbs := (s.joinLane lead slot n i create t).fab.wbs } ∧
    ∃ ws, (s.joinLane lead slot n i create t).fab.wbs = s.fab.wbs ++ ws := by
  unfold State.joinLane
  exact ⟨rfl, rfl, _, rfl⟩

-- The commit of a firing.

/-- The stamp of a firing, field by field. -/
theorem View.stamp_eq (v : View) (n : Need) (fl : Bool) (x : Ctx) :
    v.stamp n fl x =
      { x with credits := (x.spend n.om).credits,
               rot := if !v.f.follower && x.rotSet.getLsbD v.f.slot then nextInSet x.rotSet v.f.slot else x.rot,
               armed := if v.rule.guard.kind = .init then x.armed &&& ~~~(1#16 <<< v.f.slot) else x.armed,
               starv := x.starv.set v.f.slot 0,
               busy := if fl then (x.claim v.rule.dst v.rule.pdst).busy else x.busy,
               preds := if fl then (x.claim v.rule.dst v.rule.pdst).preds else x.preds } := by
  have hr : (x.spend n.om).rotSet = x.rotSet := rfl
  simp only [View.stamp, hr]
  by_cases h1 : (!v.f.follower && x.rotSet.getLsbD v.f.slot) = true <;> by_cases h2 : v.rule.guard.kind = .init <;> cases fl <;>
    cases v.rule.dst <;> cases v.rule.pdst <;> simp only [h1, h2, if_true, if_false, Bool.false_eq_true] <;> rfl

theorem View.stamp_place (v : View) (n : Need) (fl : Bool) (x : Ctx) :
    (v.stamp n fl x).el = x.el ∧ (v.stamp n fl x).k = x.k := by
  rw [View.stamp_eq]; exact ⟨rfl, rfl⟩

theorem Ctx.pred_setPred (c : Ctx) (n q : BitVec 3) (p : Pred) : (c.setPred n p).pred q = if q = n then p else c.pred q := by
  have h : q.toNat < 8 := q.isLt
  simp only [Ctx.pred, Ctx.setPred, getD_setAt _ _ _ _ _ _ h, BitVec.toNat_inj]

/-- What the stamp of a firing leaves, and what it changes. -/
theorem View.stamp_spec (v : View) (n : Need) (fl : Bool) (x : Ctx) :
    v.stamp n fl x = { x with credits := (v.stamp n fl x).credits, rot := (v.stamp n fl x).rot, armed := (v.stamp n fl x).armed,
                                 starv := (v.stamp n fl x).starv, busy := (v.stamp n fl x).busy, preds := (v.stamp n fl x).preds } ∧
    (∀ o, o < 8 → (v.stamp n fl x).credits.getD o 0 = if n.om.getLsbD o then x.credits.getD o 0 - 1 else x.credits.getD o 0) ∧
    (v.stamp n fl x).armed = (if v.rule.guard.kind = .init then x.armed &&& ~~~(1#16 <<< v.f.slot) else x.armed) ∧
    (∀ q : BitVec 3, (v.stamp n fl x).pred q = if fl = true ∧ v.rule.pdst = some q then Pred.pending else x.pred q) ∧
    (∀ q : BitVec 3, (v.stamp n fl x).busy.getLsbD q.toNat = (x.busy.getLsbD q.toNat || (fl && decide (v.rule.dst = some q)))) := by
  rw [View.stamp_eq]
  refine ⟨rfl, ?_, rfl, ?_, ?_⟩
  · intro o _
    simp only [Ctx.spend, List.getD_eq_getElem?_getD, List.getElem?_mapIdx]
    cases x.credits[o]? <;> simp
  · intro q
    have h0 : (x.claim v.rule.dst v.rule.pdst).pred q = if v.rule.pdst = some q then Pred.pending else x.pred q := by
      simp only [Ctx.claim]
      cases hp : v.rule.pdst with
      | none => cases v.rule.dst <;> simp [Ctx.pred]
      | some m =>
        simp only [Ctx.pred_setPred]
        have : (q = m) = (m = q) := propext ⟨Eq.symm, Eq.symm⟩
        cases v.rule.dst <;> simp [Ctx.pred, this]
    cases fl
    · simp [Ctx.pred]
    · simp only [Ctx.pred] at h0 ⊢
      simpa using h0
  · intro q
    have hset : ∀ (c : Ctx) (p : BitVec 3) (z : Pred), (c.setPred p z).busy = c.busy := fun _ _ _ => rfl
    have h0 : (x.claim v.rule.dst v.rule.pdst).busy.getLsbD q.toNat =
        (x.busy.getLsbD q.toNat || decide (v.rule.dst = some q)) := by
      simp only [Ctx.claim]
      cases hd : v.rule.dst with
      | none => cases v.rule.pdst <;> simp [hset]
      | some m =>
        have hb : (x.busy ||| 1#8 <<< m.toNat).getLsbD q.toNat = (x.busy.getLsbD q.toNat || decide (some m = some q)) := by
          rw [BitVec.getLsbD_or]
          congr 1
          have : ∀ m q : BitVec 3, (1#8 <<< m.toNat).getLsbD q.toNat = decide (some m = some q) := by decide
          exact this m q
        cases v.rule.pdst <;> simp only [hset] <;> exact hb
    cases fl
    · simp
    · simpa using h0

theorem State.region_updCtx (s : State) (c : CtxId) (q : Nat) (f : Ctx → Ctx) :
    (s.updCtx c f).region q = if q = c.region then (s.region q).map fun g => g.updCtx c.el c.k f else s.region q :=
  State.region_updRegion ..

/-- A step of step mode leaves contexts and all but generators and its own marks. -/
theorem Region.stepTaken_spec (own : Nat) (g : Region) :
    g.stepTaken own = { g with stepGo := (g.stepTaken own).stepGo, stepping := (g.stepTaken own).stepping,
                               stepFrom := (g.stepTaken own).stepFrom, gens := (g.stepTaken own).gens } ∧
    (g.stepGo = false → g.stepTaken own = g) := by
  simp only [Region.stepTaken]
  split
  · next h => exact ⟨rfl, fun h' => by simp [h'] at h⟩
  · exact ⟨rfl, fun _ => rfl⟩

/-- What every firing does at once, and that it does nothing else. -/
theorem View.commit_spec {s : State} {r : Rule} {w : ImmW} {v : View} (hv : view s r w = some v) (n : Need) (fl : Bool) :
    Claims.Commits s (v.commit n fl s) v n fl := by
  obtain ⟨hf, hr, hg, hx, hel, hk, hp, he, hrule⟩ := view_spec hv
  have hreg : v.f.ctx.region = v.r := by rw [hf, hr]
  have hfel : v.f.ctx.el = v.x.el := by rw [hf, hel]
  have hfk : v.f.ctx.k = v.x.k := by rw [hf, hk]
  -- The states of the commit, one after the other.
  generalize hs1 : s.bump.popMask v.p n.dq = s1
  generalize hs2 : s1.updCtx v.f.ctx (v.stamp n fl) = s2
  generalize hs3 : s2.updElem v.p (fun e => { e with spent := true, ptr := if v.f.follower then e.ptr else (v.x.k + 1) % 8 }) = s3
  generalize hs4 : (if v.f.follower then s3 else s3.updCtx v.f.ctx fun x => x.note v.f.slot) = s4
  generalize hs5 : s4.reserve v.f.ctx s.uid n.om = s5
  generalize hs6 : s5.updRegion v.r (fun g => Region.stepTaken s.uid { g with fired := g.fired || v.rule.guard.kind != .idle }) = s6
  have hc : v.commit n fl s = if v.f.follower && !n.lane then s6.laneSkip v else s6 := by
    simp only [View.commit, hs1, hs2, hs3, hs4, hs5, hs6]
  have p1 : Pops s s1 v.p := by
    have hb : Pops s s.bump v.p := ⟨rfl, rfl, fun _ _ => rfl, rfl⟩
    rw [← hs1]
    exact hb.trans (Pops.popMask s.bump v.p n.dq)
  obtain ⟨r5, f5, fs, l5, o5, w5⟩ := State.reserve_spec s4 v.f.ctx s.uid n.om
  rw [hs5] at r5 f5 l5
  -- The last state.
  obtain ⟨r7, f7⟩ : v.commit n fl s = { s6 with fab := (v.commit n fl s).fab } ∧
      (v.commit n fl s).fab = { s6.fab with lanes := (v.commit n fl s).fab.lanes, wbs := (v.commit n fl s).fab.wbs } := by
    rw [hc]
    split
    · obtain ⟨a, b, _⟩ := State.joinLane_spec s6 v.lead v.f.slot (v.g.chainOf v.x.el v.x.k).length
        { member := v.g.laneOf v.x.el v.x.k } false (v.clk s6)
      exact ⟨a, b⟩
    · exact ⟨rfl, rfl⟩
  generalize v.commit n fl s = u at r7 f7 ⊢
  have q2 : s2 = { s1 with regions := s2.regions } := by rw [← hs2]; rfl
  have q3 : s3 = { s2 with fab := { s2.fab with elems := s3.fab.elems } } := by rw [← hs3]; rfl
  have q4 : s4 = { s3 with regions := s4.regions } := by rw [← hs4]; split <;> rfl
  have q6 : s6 = { s5 with regions := s6.regions } := by rw [← hs6]; rfl
  -- Elements.
  have e6 : ∀ p, u.elem p = s3.elem p := by
    intro p
    have : u.fab.elems = s3.fab.elems := by
      rw [f7]; change s6.fab.elems = _; rw [q6]; change s5.fab.elems = _; rw [f5]; change s4.fab.elems = _; rw [q4]
    simp only [State.elem, this]
  have e2 : ∀ p, s2.elem p = s1.elem p := by intro p; rw [q2]; rfl
  have e3 : s3.elem v.p = { s1.elem v.p with spent := true, ptr := if v.f.follower then (s1.elem v.p).ptr else (v.x.k + 1) % 8 } := by
    rw [← hs3, State.elem_updElem_same, e2]
  have e3' : ∀ p, p ≠ v.p → s3.elem p = s1.elem p := by
    intro p h; rw [← hs3, State.elem_updElem_other _ h, e2]
  -- Regions.
  have g1 : ∀ r, s1.region r = s.region r := by intro r; rw [p1.rest]; rfl
  have g2 : ∀ r, r ≠ v.r → s2.region r = s.region r := by
    intro r h; rw [← hs2, State.region_updCtx, hreg, if_neg h, g1]
  have g2' : s2.region v.r = some (v.g.updCtx v.x.el v.x.k (v.stamp n fl)) := by
    rw [← hs2, State.region_updCtx, hreg, if_pos rfl, g1, hg, hfel, hfk]; rfl
  have g3 : ∀ r, s3.region r = s2.region r := by intro r; rw [q3]; rfl
  have g4 : ∀ r, r ≠ v.r → s4.region r = s.region r := by
    intro r h; rw [← hs4]; split
    · rw [g3, g2 r h]
    · rw [State.region_updCtx, hreg, if_neg h, g3, g2 r h]
  have g4' : s4.region v.r = some (if v.f.follower then v.g.updCtx v.x.el v.x.k (v.stamp n fl)
      else (v.g.updCtx v.x.el v.x.k (v.stamp n fl)).updCtx v.x.el v.x.k fun x => x.note v.f.slot) := by
    rw [← hs4]; split
    · rw [g3, g2']
    · rw [State.region_updCtx, hreg, if_pos rfl, g3, g2', hfel, hfk]; rfl
  generalize hG : (if v.f.follower then v.g.updCtx v.x.el v.x.k (v.stamp n fl)
      else (v.g.updCtx v.x.el v.x.k (v.stamp n fl)).updCtx v.x.el v.x.k fun x => x.note v.f.slot) = G at g4'
  have g5 : ∀ r, s5.region r = s4.region r := by intro r; rw [r5]; rfl
  have g6 : ∀ r, r ≠ v.r → u.region r = s.region r := by
    intro r h; rw [r7]; change s6.region r = _; rw [← hs6, State.region_updRegion, if_neg h, g5, g4 r h]
  have g6' : u.region v.r = some (Region.stepTaken s.uid { G with fired := G.fired || v.rule.guard.kind != .idle }) := by
    rw [r7]; change s6.region v.r = _; rw [← hs6, State.region_updRegion, if_pos rfl, g5, g4']; rfl
  have note_place : ∀ c : Ctx, (c.note v.f.slot).el = c.el ∧ (c.note v.f.slot).k = c.k := fun _ => ⟨rfl, rfl⟩
  have hGr : G = { v.g with ctxs := G.ctxs } := by rw [← hG]; split <;> rfl
  have hGo : ∀ el k, (el, k) ≠ (v.x.el, v.x.k) → G.ctx el k = v.g.ctx el k := by
    intro el k h
    have h' : ¬(el = v.x.el ∧ k = v.x.k) := fun ⟨a, b⟩ => h (by rw [a, b])
    rw [← hG]; split
    · rw [Region.ctx_updCtx _ _ _ _ _ _ (View.stamp_place v n fl), if_neg h']
    · rw [Region.ctx_updCtx _ _ _ _ _ _ note_place, if_neg h', Region.ctx_updCtx _ _ _ _ _ _ (View.stamp_place v n fl), if_neg h']
  have hx' : v.g.ctx v.x.el v.x.k = some v.x := by rw [hel, hk]; exact hx
  have hGx : G.ctx v.x.el v.x.k = some (if v.f.follower then v.stamp n fl v.x else (v.stamp n fl v.x).note v.f.slot) := by
    have : (v.g.updCtx v.x.el v.x.k (v.stamp n fl)).ctx v.x.el v.x.k = some (v.stamp n fl v.x) := by
      rw [Region.ctx_updCtx _ _ _ _ _ _ (View.stamp_place v n fl), if_pos ⟨rfl, rfl⟩, hx']; rfl
    rw [← hG]; split
    · exact this
    · rw [Region.ctx_updCtx _ _ _ _ _ _ note_place, if_pos ⟨rfl, rfl⟩, this]; rfl
  obtain ⟨t1, t2⟩ := Region.stepTaken_spec s.uid { G with fired := G.fired || v.rule.guard.kind != .idle }
  generalize Region.stepTaken s.uid { G with fired := G.fired || v.rule.guard.kind != .idle } = H at g6' t1 t2
  have hHc : ∀ el k, H.ctx el k = G.ctx el k := by intro el k; rw [t1]; rfl
  obtain ⟨m1, m2, m3, m4, m5⟩ := View.stamp_spec v n fl v.x
  refine ⟨?_, ?_, ?_, ?_, ?_, g6, ⟨H, g6', ?_, ?_, ?_,
    if v.f.follower then v.stamp n fl v.x else (v.stamp n fl v.x).note v.f.slot, ?_, ?_, ?_, ?_, ?_, ?_, ?_⟩, ⟨fs, ?_, o5, w5⟩⟩
  · rw [r7, q6, r5, q4, q3, q2, p1.rest]
  · rw [f7, q6]; dsimp only; rw [f5, q4, q3, q2]; dsimp only; rw [p1.fabric]
  · intro p h; rw [e6, e3' p h, p1.others p h]
  · rw [e6, e3, p1.element]; exact ⟨rfl, rfl, rfl, rfl, rfl⟩
  · intro c hc hd
    rw [e6, e3]
    change (s1.elem v.p).chan c = _
    rw [← hs1]
    exact State.chan_popMask s.bump v.p n.dq c hc (fun k => hd k)
  · rw [t1]; rw [hGr]
  · intro h
    have : ({ G with fired := G.fired || v.rule.guard.kind != .idle } : Region).stepGo = false := by rw [hGr]; exact h
    rw [t2 this, hGr]; exact ⟨rfl, h, rfl, rfl⟩
  · intro el k h; rw [hHc, hGo el k h]
  · rw [hHc, hGx]
  · split
    · rw [m1]
    · rw [m1]; rfl
  · intro o ho; split <;> exact m2 o ho
  · split <;> exact m3
  · intro q; split <;> exact m4 q
  · intro q; split <;> exact m5 q
  · intro _
    split <;> rw [m1] <;> rfl
  · rw [f7]; change s6.fab.flits = _; rw [q6]; change s5.fab.flits = _; rw [l5, q4, q3, q2]; dsimp only; rw [p1.fabric]

/-- A further write-back scheduled after a commit changes nothing else that a commit fixes. -/
theorem Commits.schedule {s t : State} {v : View} {n : Need} {fl : Bool} (h : Claims.Commits s t v n fl) (own lat : Nat) (d : Done)
    (om : BitVec 8) (a b c e : Bool) : Claims.Commits s (v.schedule own lat d om t a b c e) v n fl := by
  simp only [View.schedule]
  split
  · exact h
  · refine ⟨?_, ?_, h.elements, h.element, h.channels, h.regions, h.region, h.places⟩
    · have := h.rest; rw [this]
    · have := h.fabric; dsimp only; rw [this]

/-- Latching the counter's high half changes nothing else that a commit fixes. -/
theorem Commits.latch {s t : State} {v : View} {n : Need} {fl : Bool} (h : Claims.Commits s t v n fl) (hi : v.rule.imm = 0x20#16)
    (hc : v.f.ctx.region = v.r ∧ v.f.ctx.el = v.x.el ∧ v.f.ctx.k = v.x.k) (z : Word) :
    Claims.Commits s (t.updCtx v.f.ctx fun x => { x with cych := z }) v n fl := by
  obtain ⟨g, hg, h1, h2, h3, x, hx, h4, h5, h6, h7, h8, h9⟩ := h.region
  have hp : ∀ c : Ctx, ({ c with cych := z } : Ctx).el = c.el ∧ ({ c with cych := z } : Ctx).k = c.k := fun _ => ⟨rfl, rfl⟩
  refine ⟨?_, h.fabric, h.elements, h.element, h.channels, ?_, ?_, h.places⟩
  · have := h.rest; rw [this]; rfl
  · intro r hr; rw [State.region_updCtx, hc.1, if_neg hr]; exact h.regions r hr
  · refine ⟨g.updCtx v.x.el v.x.k fun x => { x with cych := z }, ?_, ?_, ?_, ?_, { x with cych := z }, ?_, ?_, h5, h6, h7, h8, ?_⟩
    · rw [State.region_updCtx, hc.1, if_pos rfl, hg, hc.2.1, hc.2.2]; rfl
    · rw [h1]; rfl
    · exact h2
    · intro el k hk
      have : ¬(el = v.x.el ∧ k = v.x.k) := fun ⟨a, b⟩ => hk (by rw [a, b])
      rw [Region.ctx_updCtx _ _ _ _ _ _ hp, if_neg this]; exact h3 el k hk
    · rw [Region.ctx_updCtx _ _ _ _ _ _ hp, if_pos ⟨rfl, rfl⟩, hx]; rfl
    · rw [h4]
    · intro hn; exact absurd hi hn

/-- Everything that an operation of fixed latency does when it may fire. -/
theorem fireAlu_spec {r : Rule} {w : ImmW} {need : View → Need} {lat : Nat} {d : View → State → Done} {s : State} {v : View}
    (idiv : Bool) (sr : View → Bool) (latch : Bool) (hv : view s r w = some v) (hr : v.ready (need v) s = true) (hl : 1 ≤ lat) :
    Claims.Commits s (fireAlu r w need lat d s idiv sr latch) v (need v) (decide (1 < lat)) ∧
    Claims.Writes s (fireAlu r w need lat d s idiv sr latch) v lat (need v).om (d v s) := by
  obtain ⟨hf, hreg, -, -, hel, hk, -, -, -⟩ := view_spec hv
  simp only [fireAlu, hv, hr, if_true]
  constructor
  · apply Commits.schedule
    have h := View.commit_spec hv (need v) (decide (1 < lat))
    split
    · next hc =>
      simp only [View.readsCycl, Bool.and_eq_true, decide_eq_true_eq] at hc
      exact Commits.latch h hc.1 ⟨by rw [hf, hreg], by rw [hf, hel], by rw [hf, hk]⟩ _
    · exact h
  · simp only [View.schedule]
    split
    · next h => exact .inl ⟨h.1, h.2.1, h.2.2.1⟩
    · have hclk : ∀ a b : State, a.pkg = b.pkg → v.clk a = b.regionClk v.r := by
        intro a b h; simp only [View.clk, State.regionClk, State.clk, h]
      refine .inr ⟨_, List.mem_append_right _ (List.mem_singleton.mpr rfl), rfl, rfl, rfl, ?_, rfl, rfl, rfl, rfl⟩
      dsimp only
      rw [hclk _ s]
      · omega
      · have h := (View.commit_spec hv (need v) (decide (1 < lat))).rest
        split
        · change (v.commit (need v) (decide (1 < lat)) s).pkg = _; rw [h]
        · rw [h]

/-- A firing that may not happen leaves the state as it was. -/
theorem fireAlu_idle {r : Rule} {w : ImmW} {need : View → Need} {lat : Nat} {d : View → State → Done} {s : State}
    (idiv : Bool) (sr : View → Bool) (latch : Bool) (h : ∀ v, view s r w = some v → v.ready (need v) s = false) :
    fireAlu r w need lat d s idiv sr latch = s := by
  simp only [fireAlu]
  split
  · rfl
  · next v hv => simp [h v hv]

end Sys2Proof.Machine
end

