-- ==== Sys2Proof/Laws/Memory.lean ====
section
/-!
SUPPORT. Reading and writing memory: what a write changes, and that every memory operation keeps the canonical form.
-/

namespace Sys2Proof.Machine

/-- All addresses of a canonical memory lie above an address. -/
def cellsAbove (a : Nat) (m : List Host.Cell) : Prop := ∀ c ∈ m, a < c.1

theorem Memory.wf_cons {c : Host.Cell} {m : List Host.Cell} :
    Memory.wf (c :: m) = true ↔ c.2 ≠ 0#8 ∧ cellsAbove c.1 m ∧ Memory.wf m = true := by
  induction m generalizing c with
  | nil => simp [Memory.wf, cellsAbove]
  | cons d r ih =>
    simp only [Memory.wf, Bool.and_eq_true, bne_iff_ne, ne_eq, decide_eq_true_eq]
    constructor
    · rintro ⟨⟨h1, h2⟩, h3⟩
      refine ⟨h1, ?_, h3⟩
      intro e he
      rcases List.mem_cons.mp he with rfl | he
      · exact h2
      · exact Nat.lt_trans h2 ((ih.mp h3).2.1 e he)
    · rintro ⟨h1, h2, h3⟩
      exact ⟨⟨h1, h2 d (List.mem_cons_self ..)⟩, h3⟩

theorem cellAt_above {a : Nat} {m : List Host.Cell} (h : cellsAbove a m) : cellAt m a = 0#8 := by
  induction m with
  | nil => rfl
  | cons c r ih =>
    have := h c (List.mem_cons_self ..)
    simp only [cellAt]
    rw [if_neg (by omega)]
    exact ih fun e he => h e (List.mem_cons_of_mem _ he)

theorem cellPut_above {a b : Nat} {v : Byte} {m : List Host.Cell} (h : cellsAbove b m) (hb : b < a) :
    cellsAbove b (cellPut m a v) := by
  induction m with
  | nil =>
    simp only [cellPut]
    split <;> intro e he <;> simp_all
  | cons c r ih =>
    have hr : cellsAbove b r := fun e he => h e (List.mem_cons_of_mem _ he)
    simp only [cellPut]
    split
    · split
      · exact h
      · intro e he
        rcases List.mem_cons.mp he with rfl | he
        · exact hb
        · exact h e he
    · split
      · split
        · exact hr
        · intro e he
          rcases List.mem_cons.mp he with rfl | he
          · exact hb
          · exact hr e he
      · intro e he
        rcases List.mem_cons.mp he with rfl | he
        · exact h _ (List.mem_cons_self ..)
        · exact ih hr e he

/-- Writing a byte keeps the canonical form. -/
theorem cellPut_wf {m : List Host.Cell} (h : Memory.wf m = true) (a : Nat) (v : Byte) : Memory.wf (cellPut m a v) = true := by
  induction m with
  | nil => simp only [cellPut]; split <;> simp_all [Memory.wf]
  | cons c r ih =>
    obtain ⟨h1, h2, h3⟩ := Memory.wf_cons.mp h
    simp only [cellPut]
    split
    · rename_i hac
      split
      · exact h
      · rename_i hv
        refine Memory.wf_cons.mpr ⟨hv, ?_, h⟩
        intro e he
        rcases List.mem_cons.mp he with rfl | he
        · exact hac
        · exact Nat.lt_trans hac (h2 e he)
    · split
      · rename_i hac
        split
        · exact h3
        · rename_i hv
          exact Memory.wf_cons.mpr ⟨hv, by rw [hac]; exact h2, h3⟩
      · exact Memory.wf_cons.mpr ⟨h1, cellPut_above h2 (by omega), ih h3⟩

/-- A byte written reads back. -/
theorem cellAt_cellPut_same {m : List Host.Cell} (h : Memory.wf m = true) (a : Nat) (v : Byte) : cellAt (cellPut m a v) a = v := by
  induction m with
  | nil => simp only [cellPut]; split <;> simp_all [cellAt]
  | cons c r ih =>
    obtain ⟨-, h2, h3⟩ := Memory.wf_cons.mp h
    simp only [cellPut]
    split
    · rename_i hac
      split
      · rename_i hv
        subst hv
        refine cellAt_above fun e he => ?_
        rcases List.mem_cons.mp he with rfl | he
        · exact hac
        · exact Nat.lt_trans hac (h2 e he)
      · simp [cellAt]
    · split
      · rename_i hac
        split
        · rename_i hv
          subst hv hac
          exact cellAt_above h2
        · simp [cellAt]
      · rename_i h4 h5
        simp only [cellAt]
        rw [if_neg (by omega)]
        exact ih h3

/-- Every other byte reads as before. -/
theorem cellAt_cellPut_other (m : List Host.Cell) {a b : Nat} (v : Byte) (h : b ≠ a) : cellAt (cellPut m a v) b = cellAt m b := by
  induction m with
  | nil =>
    simp only [cellPut]
    split
    · rfl
    · simp [cellAt, h.symm]
  | cons c r ih =>
    simp only [cellPut]
    split
    · split
      · rfl
      · rw [cellAt, if_neg h.symm]
    · split
      · rename_i hac
        subst hac
        split
        · rw [cellAt, if_neg h.symm]
        · rw [cellAt, cellAt, if_neg h.symm, if_neg h.symm]
      · simp only [cellAt]
        split
        · rfl
        · exact ih

theorem cellsPut_wf {m : List Host.Cell} (h : Memory.wf m = true) (a : Nat) (bs : List Byte) : Memory.wf (cellsPut m a bs) = true := by
  induction bs generalizing m a with
  | nil => exact h
  | cons b bs ih => exact ih (cellPut_wf h a b) (a + 1)

/-- Bytes outside those written read as before. -/
theorem cellAt_cellsPut_other (m : List Host.Cell) (a : Nat) (bs : List Byte) {b : Nat} (h : b < a ∨ a + bs.length ≤ b) :
    cellAt (cellsPut m a bs) b = cellAt m b := by
  induction bs generalizing m a with
  | nil => rfl
  | cons v bs ih =>
    simp only [List.length_cons] at h
    simp only [cellsPut]
    rw [ih _ (a + 1) (by omega), cellAt_cellPut_other m v (by omega)]

/-- Bytes written read back. -/
theorem cellAt_cellsPut_same {m : List Host.Cell} (h : Memory.wf m = true) (a : Nat) (bs : List Byte) {i : Nat} (hi : i < bs.length) :
    cellAt (cellsPut m a bs) (a + i) = bs[i] := by
  induction bs generalizing m a i with
  | nil => simp at hi
  | cons v bs ih =>
    simp only [cellsPut]
    cases i with
    | zero =>
      rw [cellAt_cellsPut_other _ _ _ (by omega)]
      exact cellAt_cellPut_same h a v
    | succ i =>
      have := ih (cellPut_wf h a v) (a + 1) (i := i) (by simpa using hi)
      rw [show a + (i + 1) = a + 1 + i by omega, this]
      simp

/-- Taking cells out keeps the canonical form. -/
theorem Memory.filter_wf {m : List Host.Cell} (h : Memory.wf m = true) (p : Host.Cell → Bool) : Memory.wf (m.filter p) = true := by
  induction m with
  | nil => rfl
  | cons c r ih =>
    obtain ⟨h1, h2, h3⟩ := Memory.wf_cons.mp h
    simp only [List.filter_cons]
    split
    · exact Memory.wf_cons.mpr ⟨h1, fun e he => h2 e (List.mem_of_mem_filter he), ih h3⟩
    · exact ih h3

theorem foldl_cells_wf {α : Type} (f : List Host.Cell → α → List Host.Cell) (hf : ∀ m x, Memory.wf m = true → Memory.wf (f m x) = true)
    (l : List α) {m : List Host.Cell} (h : Memory.wf m = true) : Memory.wf (l.foldl f m) = true := by
  induction l generalizing m with
  | nil => exact h
  | cons x l ih => exact ih (hf m x h)

/-- A fold of operations that keep a property of the state keeps it. -/
theorem foldl_keeps {σ α : Type} (P : σ → Prop) (f : σ → α → σ) (hf : ∀ s x, P s → P (f s x)) (l : List α) {s : σ} (h : P s) :
    P (l.foldl f s) := by
  induction l generalizing s with
  | nil => exact h
  | cons x l ih => exact ih (hf s x h)

@[simp] theorem State.wake_store (s : State) (sec : Nat) : (s.wake sec).store = s.store := rfl

theorem State.writeSector_memoryOk {s : State} (h : s.memoryOk) (sec : Nat) (ws : List (Nat × Byte)) : (s.writeSector sec ws).memoryOk :=
  ⟨foldl_cells_wf _ (fun _ _ hm => cellPut_wf hm _ _) ws h.1, h.2⟩

theorem State.homePut_memoryOk {s : State} (h : s.memoryOk) (loc : Nat) (bs : List Byte) : (s.homePut loc bs).memoryOk := by
  unfold State.homePut
  refine foldl_keeps State.memoryOk _ (fun s i hs => ?_) _ h
  dsimp only
  split
  · exact hs
  · exact writeSector_memoryOk hs _ _

theorem State.physPut_memoryOk {s : State} (h : s.memoryOk) (pa : Nat) (bs : List Byte) : (s.physPut pa bs).memoryOk :=
  foldl_keeps State.memoryOk _ (fun _ _ hs => writeSector_memoryOk hs _ _) _ h

theorem State.spadPut_memoryOk {s : State} (h : s.memoryOk) (key : Nat) (bs : List Byte) : (s.spadPut key bs).memoryOk :=
  ⟨h.1, cellsPut_wf h.2 key bs⟩

theorem State.zeroBufs_memoryOk {s : State} (h : s.memoryOk) (g : Region) : (s.zeroBufs g).memoryOk :=
  ⟨h.1, Memory.filter_wf h.2 _⟩

/-- Pruning the wide releases changes no byte. -/
@[simp] theorem Store.prune_cells (t : Store) (line : Nat) : (t.prune line).cells = t.cells := by
  unfold Store.prune; split <;> rfl
@[simp] theorem Store.prune_spad (t : Store) (line : Nat) : (t.prune line).spad = t.spad := by
  unfold Store.prune; split <;> rfl

theorem State.markLine_memoryOk {s : State} (h : s.memoryOk) (loc : Nat) : (s.markLine loc).memoryOk :=
  foldl_keeps State.memoryOk (fun s i => s.setMark (loc / 128 * 4 + i) 2) (fun _ _ hs => hs) _ h

theorem State.writeBackSector_memoryOk {s : State} (h : s.memoryOk) (cl sec : Nat) : (s.writeBackSector cl sec).memoryOk := by
  unfold State.writeBackSector
  split
  · exact h
  · dsimp only
    split
    · exact markLine_memoryOk (by simpa [State.memoryOk] using h) _
    · exact writeSector_memoryOk (by simpa [State.memoryOk] using h) sec _

/-- Making room, noting a line and storing into a cluster cache keep the canonical form. -/
theorem State.writeBackLine_memoryOk {s : State} (h : s.memoryOk) (line : Nat) : (s.writeBackLine line).memoryOk := by
  have hl := foldl_keeps State.memoryOk (fun s i => s.writeBackSector (line / 2 ^ 40) (line % 2 ^ 40 / 32 + i))
    (fun _ _ hs => writeBackSector_memoryOk hs _ _) (List.range 4) h
  unfold State.writeBackLine
  dsimp only
  split
  · exact markLine_memoryOk hl _
  · exact hl

theorem State.makeRoom_memoryOk {s : State} (h : s.memoryOk) (cl : Nat) : (s.makeRoom cl).memoryOk := by
  unfold State.makeRoom
  dsimp only
  split
  · exact h
  · split
    · exact h
    · rename_i k _
      exact writeBackLine_memoryOk (s := { s with free := s.free + 1 }) h k

theorem State.touch_memoryOk {s : State} (h : s.memoryOk) (cl loc : Nat) : (s.touch cl loc).memoryOk := by
  unfold State.touch
  dsimp only
  split
  · exact h
  · exact makeRoom_memoryOk h cl

theorem State.cachePut_memoryOk {s : State} (h : s.memoryOk) (cl loc : Nat) (bs : List Byte) : (s.cachePut cl loc bs).memoryOk :=
  touch_memoryOk h cl loc

theorem State.dropL2_memoryOk {s : State} (h : s.memoryOk) : s.dropL2.memoryOk := by
  refine ⟨foldl_cells_wf _ (fun m e hm => ?_) _ h.1, h.2⟩
  split
  · exact hm
  · exact cellPut_wf hm _ _

/-- The memory after reset lists nothing. -/
theorem State.reset_memoryOk : State.reset.memoryOk := ⟨rfl, rfl⟩

end Sys2Proof.Machine
end

