-- ==== Sys2Proof/Laws/State.lean ====
section
/-!
SUPPORT. What each plain update of the state leaves as it was: one lemma for each field and update.
-/

namespace Sys2Proof.Machine

-- State.addReq
@[simp] theorem State.addReq_fab_elems (s : State) (q : Req) : (State.addReq s q).fab.elems = s.fab.elems := rfl
@[simp] theorem State.addReq_fab_wbs (s : State) (q : Req) : (State.addReq s q).fab.wbs = s.fab.wbs := rfl
@[simp] theorem State.addReq_fab_flits (s : State) (q : Req) : (State.addReq s q).fab.flits = s.fab.flits := rfl
@[simp] theorem State.addReq_fab_credRets (s : State) (q : Req) : (State.addReq s q).fab.credRets = s.fab.credRets := rfl
@[simp] theorem State.addReq_fab_lanes (s : State) (q : Req) : (State.addReq s q).fab.lanes = s.fab.lanes := rfl
@[simp] theorem State.addReq_fab_recs (s : State) (q : Req) : (State.addReq s q).fab.recs = s.fab.recs := rfl
@[simp] theorem State.addReq_fab_fq (s : State) (q : Req) : (State.addReq s q).fab.fq = s.fab.fq := rfl
@[simp] theorem State.addReq_fab_glitch (s : State) (q : Req) : (State.addReq s q).fab.glitch = s.fab.glitch := rfl
@[simp] theorem State.addReq_regions (s : State) (q : Req) : (State.addReq s q).regions = s.regions := rfl
@[simp] theorem State.addReq_rregs (s : State) (q : Req) : (State.addReq s q).rregs = s.rregs := rfl
@[simp] theorem State.addReq_cores (s : State) (q : Req) : (State.addReq s q).cores = s.cores := rfl
@[simp] theorem State.addReq_store (s : State) (q : Req) : (State.addReq s q).store = s.store := rfl
@[simp] theorem State.addReq_dies (s : State) (q : Req) : (State.addReq s q).dies = s.dies := rfl
@[simp] theorem State.addReq_pkg (s : State) (q : Req) : (State.addReq s q).pkg = s.pkg := rfl
@[simp] theorem State.addReq_agenda (s : State) (q : Req) : (State.addReq s q).agenda = s.agenda := rfl
@[simp] theorem State.addReq_part (s : State) (q : Req) : (State.addReq s q).part = s.part := rfl
@[simp] theorem State.addReq_inputs (s : State) (q : Req) : (State.addReq s q).inputs = s.inputs := rfl
@[simp] theorem State.addReq_cur (s : State) (q : Req) : (State.addReq s q).cur = s.cur := rfl
@[simp] theorem State.addReq_uid (s : State) (q : Req) : (State.addReq s q).uid = s.uid := rfl
@[simp] theorem State.addReq_free (s : State) (q : Req) : (State.addReq s q).free = s.free := rfl

-- sendColl
@[simp] theorem sendColl_fab (p : Packet) (s : State) : (sendColl p s).fab = s.fab := rfl
@[simp] theorem sendColl_regions (p : Packet) (s : State) : (sendColl p s).regions = s.regions := rfl
@[simp] theorem sendColl_rregs (p : Packet) (s : State) : (sendColl p s).rregs = s.rregs := rfl
@[simp] theorem sendColl_cores (p : Packet) (s : State) : (sendColl p s).cores = s.cores := rfl
@[simp] theorem sendColl_store (p : Packet) (s : State) : (sendColl p s).store = s.store := rfl
@[simp] theorem sendColl_dies_queues (p : Packet) (s : State) : (sendColl p s).dies.queues = s.dies.queues := rfl
@[simp] theorem sendColl_dies_inval (p : Packet) (s : State) : (sendColl p s).dies.inval = s.dies.inval := rfl
@[simp] theorem sendColl_dies_fills (p : Packet) (s : State) : (sendColl p s).dies.fills = s.dies.fills := rfl
@[simp] theorem sendColl_dies_slotQ (p : Packet) (s : State) : (sendColl p s).dies.slotQ = s.dies.slotQ := rfl
@[simp] theorem sendColl_dies_evicts (p : Packet) (s : State) : (sendColl p s).dies.evicts = s.dies.evicts := rfl
@[simp] theorem sendColl_dies_dispIn (p : Packet) (s : State) : (sendColl p s).dies.dispIn = s.dies.dispIn := rfl
@[simp] theorem sendColl_dies_dispWait (p : Packet) (s : State) : (sendColl p s).dies.dispWait = s.dies.dispWait := rfl
@[simp] theorem sendColl_dies_tptr (p : Packet) (s : State) : (sendColl p s).dies.tptr = s.dies.tptr := rfl
@[simp] theorem sendColl_dies_accepted (p : Packet) (s : State) : (sendColl p s).dies.accepted = s.dies.accepted := rfl
@[simp] theorem sendColl_dies_gangs (p : Packet) (s : State) : (sendColl p s).dies.gangs = s.dies.gangs := rfl
@[simp] theorem sendColl_dies_order (p : Packet) (s : State) : (sendColl p s).dies.order = s.dies.order := rfl
@[simp] theorem sendColl_dies_due (p : Packet) (s : State) : (sendColl p s).dies.due = s.dies.due := rfl
@[simp] theorem sendColl_dies_colls (p : Packet) (s : State) : (sendColl p s).dies.colls = s.dies.colls := rfl
@[simp] theorem sendColl_dies_contribs (p : Packet) (s : State) : (sendColl p s).dies.contribs = s.dies.contribs := rfl
@[simp] theorem sendColl_dies_walks (p : Packet) (s : State) : (sendColl p s).dies.walks = s.dies.walks := rfl
@[simp] theorem sendColl_pkg (p : Packet) (s : State) : (sendColl p s).pkg = s.pkg := rfl
@[simp] theorem sendColl_agenda (p : Packet) (s : State) : (sendColl p s).agenda = s.agenda := rfl
@[simp] theorem sendColl_part (p : Packet) (s : State) : (sendColl p s).part = s.part := rfl
@[simp] theorem sendColl_inputs (p : Packet) (s : State) : (sendColl p s).inputs = s.inputs := rfl
@[simp] theorem sendColl_cur (p : Packet) (s : State) : (sendColl p s).cur = s.cur := rfl
@[simp] theorem sendColl_uid (p : Packet) (s : State) : (sendColl p s).uid = s.uid := rfl
@[simp] theorem sendColl_free (p : Packet) (s : State) : (sendColl p s).free = s.free := rfl

-- State.updColl
@[simp] theorem State.updColl_fab (s : State) (id : Nat) (f : Coll → Coll) : (State.updColl s id f).fab = s.fab := rfl
@[simp] theorem State.updColl_regions (s : State) (id : Nat) (f : Coll → Coll) : (State.updColl s id f).regions = s.regions := rfl
@[simp] theorem State.updColl_rregs (s : State) (id : Nat) (f : Coll → Coll) : (State.updColl s id f).rregs = s.rregs := rfl
@[simp] theorem State.updColl_cores (s : State) (id : Nat) (f : Coll → Coll) : (State.updColl s id f).cores = s.cores := rfl
@[simp] theorem State.updColl_store (s : State) (id : Nat) (f : Coll → Coll) : (State.updColl s id f).store = s.store := rfl
@[simp] theorem State.updColl_dies_queues (s : State) (id : Nat) (f : Coll → Coll) : (State.updColl s id f).dies.queues = s.dies.queues := rfl
@[simp] theorem State.updColl_dies_inval (s : State) (id : Nat) (f : Coll → Coll) : (State.updColl s id f).dies.inval = s.dies.inval := rfl
@[simp] theorem State.updColl_dies_fills (s : State) (id : Nat) (f : Coll → Coll) : (State.updColl s id f).dies.fills = s.dies.fills := rfl
@[simp] theorem State.updColl_dies_slotQ (s : State) (id : Nat) (f : Coll → Coll) : (State.updColl s id f).dies.slotQ = s.dies.slotQ := rfl
@[simp] theorem State.updColl_dies_evicts (s : State) (id : Nat) (f : Coll → Coll) : (State.updColl s id f).dies.evicts = s.dies.evicts := rfl
@[simp] theorem State.updColl_dies_dispIn (s : State) (id : Nat) (f : Coll → Coll) : (State.updColl s id f).dies.dispIn = s.dies.dispIn := rfl
@[simp] theorem State.updColl_dies_dispWait (s : State) (id : Nat) (f : Coll → Coll) : (State.updColl s id f).dies.dispWait = s.dies.dispWait := rfl
@[simp] theorem State.updColl_dies_collIn (s : State) (id : Nat) (f : Coll → Coll) : (State.updColl s id f).dies.collIn = s.dies.collIn := rfl
@[simp] theorem State.updColl_dies_tptr (s : State) (id : Nat) (f : Coll → Coll) : (State.updColl s id f).dies.tptr = s.dies.tptr := rfl
@[simp] theorem State.updColl_dies_accepted (s : State) (id : Nat) (f : Coll → Coll) : (State.updColl s id f).dies.accepted = s.dies.accepted := rfl
@[simp] theorem State.updColl_dies_gangs (s : State) (id : Nat) (f : Coll → Coll) : (State.updColl s id f).dies.gangs = s.dies.gangs := rfl
@[simp] theorem State.updColl_dies_order (s : State) (id : Nat) (f : Coll → Coll) : (State.updColl s id f).dies.order = s.dies.order := rfl
@[simp] theorem State.updColl_dies_due (s : State) (id : Nat) (f : Coll → Coll) : (State.updColl s id f).dies.due = s.dies.due := rfl
@[simp] theorem State.updColl_dies_contribs (s : State) (id : Nat) (f : Coll → Coll) : (State.updColl s id f).dies.contribs = s.dies.contribs := rfl
@[simp] theorem State.updColl_dies_walks (s : State) (id : Nat) (f : Coll → Coll) : (State.updColl s id f).dies.walks = s.dies.walks := rfl
@[simp] theorem State.updColl_pkg (s : State) (id : Nat) (f : Coll → Coll) : (State.updColl s id f).pkg = s.pkg := rfl
@[simp] theorem State.updColl_agenda (s : State) (id : Nat) (f : Coll → Coll) : (State.updColl s id f).agenda = s.agenda := rfl
@[simp] theorem State.updColl_part (s : State) (id : Nat) (f : Coll → Coll) : (State.updColl s id f).part = s.part := rfl
@[simp] theorem State.updColl_inputs (s : State) (id : Nat) (f : Coll → Coll) : (State.updColl s id f).inputs = s.inputs := rfl
@[simp] theorem State.updColl_cur (s : State) (id : Nat) (f : Coll → Coll) : (State.updColl s id f).cur = s.cur := rfl
@[simp] theorem State.updColl_uid (s : State) (id : Nat) (f : Coll → Coll) : (State.updColl s id f).uid = s.uid := rfl
@[simp] theorem State.updColl_free (s : State) (id : Nat) (f : Coll → Coll) : (State.updColl s id f).free = s.free := rfl

-- State.freeColl
@[simp] theorem State.freeColl_fab (s : State) (id : Nat) : (State.freeColl s id).fab = s.fab := rfl
@[simp] theorem State.freeColl_regions (s : State) (id : Nat) : (State.freeColl s id).regions = s.regions := rfl
@[simp] theorem State.freeColl_rregs (s : State) (id : Nat) : (State.freeColl s id).rregs = s.rregs := rfl
@[simp] theorem State.freeColl_cores (s : State) (id : Nat) : (State.freeColl s id).cores = s.cores := rfl
@[simp] theorem State.freeColl_store (s : State) (id : Nat) : (State.freeColl s id).store = s.store := rfl
@[simp] theorem State.freeColl_dies_queues (s : State) (id : Nat) : (State.freeColl s id).dies.queues = s.dies.queues := rfl
@[simp] theorem State.freeColl_dies_inval (s : State) (id : Nat) : (State.freeColl s id).dies.inval = s.dies.inval := rfl
@[simp] theorem State.freeColl_dies_fills (s : State) (id : Nat) : (State.freeColl s id).dies.fills = s.dies.fills := rfl
@[simp] theorem State.freeColl_dies_slotQ (s : State) (id : Nat) : (State.freeColl s id).dies.slotQ = s.dies.slotQ := rfl
@[simp] theorem State.freeColl_dies_evicts (s : State) (id : Nat) : (State.freeColl s id).dies.evicts = s.dies.evicts := rfl
@[simp] theorem State.freeColl_dies_dispIn (s : State) (id : Nat) : (State.freeColl s id).dies.dispIn = s.dies.dispIn := rfl
@[simp] theorem State.freeColl_dies_dispWait (s : State) (id : Nat) : (State.freeColl s id).dies.dispWait = s.dies.dispWait := rfl
@[simp] theorem State.freeColl_dies_collIn (s : State) (id : Nat) : (State.freeColl s id).dies.collIn = s.dies.collIn := rfl
@[simp] theorem State.freeColl_dies_tptr (s : State) (id : Nat) : (State.freeColl s id).dies.tptr = s.dies.tptr := rfl
@[simp] theorem State.freeColl_dies_accepted (s : State) (id : Nat) : (State.freeColl s id).dies.accepted = s.dies.accepted := rfl
@[simp] theorem State.freeColl_dies_gangs (s : State) (id : Nat) : (State.freeColl s id).dies.gangs = s.dies.gangs := rfl
@[simp] theorem State.freeColl_dies_order (s : State) (id : Nat) : (State.freeColl s id).dies.order = s.dies.order := rfl
@[simp] theorem State.freeColl_dies_due (s : State) (id : Nat) : (State.freeColl s id).dies.due = s.dies.due := rfl
@[simp] theorem State.freeColl_dies_contribs (s : State) (id : Nat) : (State.freeColl s id).dies.contribs = s.dies.contribs := rfl
@[simp] theorem State.freeColl_dies_walks (s : State) (id : Nat) : (State.freeColl s id).dies.walks = s.dies.walks := rfl
@[simp] theorem State.freeColl_pkg (s : State) (id : Nat) : (State.freeColl s id).pkg = s.pkg := rfl
@[simp] theorem State.freeColl_agenda (s : State) (id : Nat) : (State.freeColl s id).agenda = s.agenda := rfl
@[simp] theorem State.freeColl_part (s : State) (id : Nat) : (State.freeColl s id).part = s.part := rfl
@[simp] theorem State.freeColl_inputs (s : State) (id : Nat) : (State.freeColl s id).inputs = s.inputs := rfl
@[simp] theorem State.freeColl_cur (s : State) (id : Nat) : (State.freeColl s id).cur = s.cur := rfl
@[simp] theorem State.freeColl_uid (s : State) (id : Nat) : (State.freeColl s id).uid = s.uid := rfl
@[simp] theorem State.freeColl_free (s : State) (id : Nat) : (State.freeColl s id).free = s.free := rfl

-- State.halfDone
@[simp] theorem State.halfDone_fab (s : State) (id : Nat) : (State.halfDone s id).fab = s.fab := rfl
@[simp] theorem State.halfDone_rregs (s : State) (id : Nat) : (State.halfDone s id).rregs = s.rregs := rfl
@[simp] theorem State.halfDone_cores (s : State) (id : Nat) : (State.halfDone s id).cores = s.cores := rfl
@[simp] theorem State.halfDone_store (s : State) (id : Nat) : (State.halfDone s id).store = s.store := rfl
@[simp] theorem State.halfDone_dies (s : State) (id : Nat) : (State.halfDone s id).dies = s.dies := rfl
@[simp] theorem State.halfDone_pkg (s : State) (id : Nat) : (State.halfDone s id).pkg = s.pkg := rfl
@[simp] theorem State.halfDone_agenda (s : State) (id : Nat) : (State.halfDone s id).agenda = s.agenda := rfl
@[simp] theorem State.halfDone_part (s : State) (id : Nat) : (State.halfDone s id).part = s.part := rfl
@[simp] theorem State.halfDone_inputs (s : State) (id : Nat) : (State.halfDone s id).inputs = s.inputs := rfl
@[simp] theorem State.halfDone_cur (s : State) (id : Nat) : (State.halfDone s id).cur = s.cur := rfl
@[simp] theorem State.halfDone_uid (s : State) (id : Nat) : (State.halfDone s id).uid = s.uid := rfl
@[simp] theorem State.halfDone_free (s : State) (id : Nat) : (State.halfDone s id).free = s.free := rfl

-- sendLaunch
@[simp] theorem sendLaunch_fab (p : Packet) (s : State) : (sendLaunch p s).fab = s.fab := rfl
@[simp] theorem sendLaunch_regions (p : Packet) (s : State) : (sendLaunch p s).regions = s.regions := rfl
@[simp] theorem sendLaunch_rregs (p : Packet) (s : State) : (sendLaunch p s).rregs = s.rregs := rfl
@[simp] theorem sendLaunch_cores (p : Packet) (s : State) : (sendLaunch p s).cores = s.cores := rfl
@[simp] theorem sendLaunch_store (p : Packet) (s : State) : (sendLaunch p s).store = s.store := rfl
@[simp] theorem sendLaunch_dies_queues (p : Packet) (s : State) : (sendLaunch p s).dies.queues = s.dies.queues := rfl
@[simp] theorem sendLaunch_dies_inval (p : Packet) (s : State) : (sendLaunch p s).dies.inval = s.dies.inval := rfl
@[simp] theorem sendLaunch_dies_fills (p : Packet) (s : State) : (sendLaunch p s).dies.fills = s.dies.fills := rfl
@[simp] theorem sendLaunch_dies_slotQ (p : Packet) (s : State) : (sendLaunch p s).dies.slotQ = s.dies.slotQ := rfl
@[simp] theorem sendLaunch_dies_evicts (p : Packet) (s : State) : (sendLaunch p s).dies.evicts = s.dies.evicts := rfl
@[simp] theorem sendLaunch_dies_dispWait (p : Packet) (s : State) : (sendLaunch p s).dies.dispWait = s.dies.dispWait := rfl
@[simp] theorem sendLaunch_dies_collIn (p : Packet) (s : State) : (sendLaunch p s).dies.collIn = s.dies.collIn := rfl
@[simp] theorem sendLaunch_dies_tptr (p : Packet) (s : State) : (sendLaunch p s).dies.tptr = s.dies.tptr := rfl
@[simp] theorem sendLaunch_dies_accepted (p : Packet) (s : State) : (sendLaunch p s).dies.accepted = s.dies.accepted := rfl
@[simp] theorem sendLaunch_dies_gangs (p : Packet) (s : State) : (sendLaunch p s).dies.gangs = s.dies.gangs := rfl
@[simp] theorem sendLaunch_dies_order (p : Packet) (s : State) : (sendLaunch p s).dies.order = s.dies.order := rfl
@[simp] theorem sendLaunch_dies_due (p : Packet) (s : State) : (sendLaunch p s).dies.due = s.dies.due := rfl
@[simp] theorem sendLaunch_dies_colls (p : Packet) (s : State) : (sendLaunch p s).dies.colls = s.dies.colls := rfl
@[simp] theorem sendLaunch_dies_contribs (p : Packet) (s : State) : (sendLaunch p s).dies.contribs = s.dies.contribs := rfl
@[simp] theorem sendLaunch_dies_walks (p : Packet) (s : State) : (sendLaunch p s).dies.walks = s.dies.walks := rfl
@[simp] theorem sendLaunch_pkg (p : Packet) (s : State) : (sendLaunch p s).pkg = s.pkg := rfl
@[simp] theorem sendLaunch_agenda (p : Packet) (s : State) : (sendLaunch p s).agenda = s.agenda := rfl
@[simp] theorem sendLaunch_part (p : Packet) (s : State) : (sendLaunch p s).part = s.part := rfl
@[simp] theorem sendLaunch_inputs (p : Packet) (s : State) : (sendLaunch p s).inputs = s.inputs := rfl
@[simp] theorem sendLaunch_cur (p : Packet) (s : State) : (sendLaunch p s).cur = s.cur := rfl
@[simp] theorem sendLaunch_uid (p : Packet) (s : State) : (sendLaunch p s).uid = s.uid := rfl
@[simp] theorem sendLaunch_free (p : Packet) (s : State) : (sendLaunch p s).free = s.free := rfl

-- State.toSync
@[simp] theorem State.toSync_fab (s : State) (p : Packet) (due : Nat) : (State.toSync s p due).fab = s.fab := rfl
@[simp] theorem State.toSync_regions (s : State) (p : Packet) (due : Nat) : (State.toSync s p due).regions = s.regions := rfl
@[simp] theorem State.toSync_rregs (s : State) (p : Packet) (due : Nat) : (State.toSync s p due).rregs = s.rregs := rfl
@[simp] theorem State.toSync_cores_seqs (s : State) (p : Packet) (due : Nat) : (State.toSync s p due).cores.seqs = s.cores.seqs := rfl
@[simp] theorem State.toSync_cores_sems (s : State) (p : Packet) (due : Nat) : (State.toSync s p due).cores.sems = s.cores.sems := rfl
@[simp] theorem State.toSync_cores_bars (s : State) (p : Packet) (due : Nat) : (State.toSync s p due).cores.bars = s.cores.bars := rfl
@[simp] theorem State.toSync_cores_copyIn (s : State) (p : Packet) (due : Nat) : (State.toSync s p due).cores.copyIn = s.cores.copyIn := rfl
@[simp] theorem State.toSync_cores_jobs (s : State) (p : Packet) (due : Nat) : (State.toSync s p due).cores.jobs = s.cores.jobs := rfl
@[simp] theorem State.toSync_cores_jobSerial (s : State) (p : Packet) (due : Nat) : (State.toSync s p due).cores.jobSerial = s.cores.jobSerial := rfl
@[simp] theorem State.toSync_cores_tlb (s : State) (p : Packet) (due : Nat) : (State.toSync s p due).cores.tlb = s.cores.tlb := rfl
@[simp] theorem State.toSync_cores_going (s : State) (p : Packet) (due : Nat) : (State.toSync s p due).cores.going = s.cores.going := rfl
@[simp] theorem State.toSync_cores_loads (s : State) (p : Packet) (due : Nat) : (State.toSync s p due).cores.loads = s.cores.loads := rfl
@[simp] theorem State.toSync_cores_sweeps (s : State) (p : Packet) (due : Nat) : (State.toSync s p due).cores.sweeps = s.cores.sweeps := rfl
@[simp] theorem State.toSync_cores_serials (s : State) (p : Packet) (due : Nat) : (State.toSync s p due).cores.serials = s.cores.serials := rfl
@[simp] theorem State.toSync_store (s : State) (p : Packet) (due : Nat) : (State.toSync s p due).store = s.store := rfl
@[simp] theorem State.toSync_dies (s : State) (p : Packet) (due : Nat) : (State.toSync s p due).dies = s.dies := rfl
@[simp] theorem State.toSync_pkg (s : State) (p : Packet) (due : Nat) : (State.toSync s p due).pkg = s.pkg := rfl
@[simp] theorem State.toSync_agenda (s : State) (p : Packet) (due : Nat) : (State.toSync s p due).agenda = s.agenda := rfl
@[simp] theorem State.toSync_part (s : State) (p : Packet) (due : Nat) : (State.toSync s p due).part = s.part := rfl
@[simp] theorem State.toSync_inputs (s : State) (p : Packet) (due : Nat) : (State.toSync s p due).inputs = s.inputs := rfl
@[simp] theorem State.toSync_cur (s : State) (p : Packet) (due : Nat) : (State.toSync s p due).cur = s.cur := rfl
@[simp] theorem State.toSync_uid (s : State) (p : Packet) (due : Nat) : (State.toSync s p due).uid = s.uid := rfl
@[simp] theorem State.toSync_free (s : State) (p : Packet) (due : Nat) : (State.toSync s p due).free = s.free := rfl

-- sendCopy
@[simp] theorem sendCopy_fab (p : Packet) (s : State) : (sendCopy p s).fab = s.fab := rfl
@[simp] theorem sendCopy_regions (p : Packet) (s : State) : (sendCopy p s).regions = s.regions := rfl
@[simp] theorem sendCopy_rregs (p : Packet) (s : State) : (sendCopy p s).rregs = s.rregs := rfl
@[simp] theorem sendCopy_cores_seqs (p : Packet) (s : State) : (sendCopy p s).cores.seqs = s.cores.seqs := rfl
@[simp] theorem sendCopy_cores_sems (p : Packet) (s : State) : (sendCopy p s).cores.sems = s.cores.sems := rfl
@[simp] theorem sendCopy_cores_bars (p : Packet) (s : State) : (sendCopy p s).cores.bars = s.cores.bars := rfl
@[simp] theorem sendCopy_cores_syncs (p : Packet) (s : State) : (sendCopy p s).cores.syncs = s.cores.syncs := rfl
@[simp] theorem sendCopy_cores_jobs (p : Packet) (s : State) : (sendCopy p s).cores.jobs = s.cores.jobs := rfl
@[simp] theorem sendCopy_cores_jobSerial (p : Packet) (s : State) : (sendCopy p s).cores.jobSerial = s.cores.jobSerial := rfl
@[simp] theorem sendCopy_cores_tlb (p : Packet) (s : State) : (sendCopy p s).cores.tlb = s.cores.tlb := rfl
@[simp] theorem sendCopy_cores_going (p : Packet) (s : State) : (sendCopy p s).cores.going = s.cores.going := rfl
@[simp] theorem sendCopy_cores_loads (p : Packet) (s : State) : (sendCopy p s).cores.loads = s.cores.loads := rfl
@[simp] theorem sendCopy_cores_sweeps (p : Packet) (s : State) : (sendCopy p s).cores.sweeps = s.cores.sweeps := rfl
@[simp] theorem sendCopy_cores_serials (p : Packet) (s : State) : (sendCopy p s).cores.serials = s.cores.serials := rfl
@[simp] theorem sendCopy_store (p : Packet) (s : State) : (sendCopy p s).store = s.store := rfl
@[simp] theorem sendCopy_dies (p : Packet) (s : State) : (sendCopy p s).dies = s.dies := rfl
@[simp] theorem sendCopy_pkg (p : Packet) (s : State) : (sendCopy p s).pkg = s.pkg := rfl
@[simp] theorem sendCopy_agenda (p : Packet) (s : State) : (sendCopy p s).agenda = s.agenda := rfl
@[simp] theorem sendCopy_part (p : Packet) (s : State) : (sendCopy p s).part = s.part := rfl
@[simp] theorem sendCopy_inputs (p : Packet) (s : State) : (sendCopy p s).inputs = s.inputs := rfl
@[simp] theorem sendCopy_cur (p : Packet) (s : State) : (sendCopy p s).cur = s.cur := rfl
@[simp] theorem sendCopy_uid (p : Packet) (s : State) : (sendCopy p s).uid = s.uid := rfl
@[simp] theorem sendCopy_free (p : Packet) (s : State) : (sendCopy p s).free = s.free := rfl

-- State.freeJob
@[simp] theorem State.freeJob_fab (s : State) (j : Job) : (State.freeJob s j).fab = s.fab := rfl
@[simp] theorem State.freeJob_regions (s : State) (j : Job) : (State.freeJob s j).regions = s.regions := rfl
@[simp] theorem State.freeJob_rregs (s : State) (j : Job) : (State.freeJob s j).rregs = s.rregs := rfl
@[simp] theorem State.freeJob_cores_seqs (s : State) (j : Job) : (State.freeJob s j).cores.seqs = s.cores.seqs := rfl
@[simp] theorem State.freeJob_cores_sems (s : State) (j : Job) : (State.freeJob s j).cores.sems = s.cores.sems := rfl
@[simp] theorem State.freeJob_cores_bars (s : State) (j : Job) : (State.freeJob s j).cores.bars = s.cores.bars := rfl
@[simp] theorem State.freeJob_cores_syncs (s : State) (j : Job) : (State.freeJob s j).cores.syncs = s.cores.syncs := rfl
@[simp] theorem State.freeJob_cores_copyIn (s : State) (j : Job) : (State.freeJob s j).cores.copyIn = s.cores.copyIn := rfl
@[simp] theorem State.freeJob_cores_jobSerial (s : State) (j : Job) : (State.freeJob s j).cores.jobSerial = s.cores.jobSerial := rfl
@[simp] theorem State.freeJob_cores_tlb (s : State) (j : Job) : (State.freeJob s j).cores.tlb = s.cores.tlb := rfl
@[simp] theorem State.freeJob_cores_going (s : State) (j : Job) : (State.freeJob s j).cores.going = s.cores.going := rfl
@[simp] theorem State.freeJob_cores_loads (s : State) (j : Job) : (State.freeJob s j).cores.loads = s.cores.loads := rfl
@[simp] theorem State.freeJob_cores_sweeps (s : State) (j : Job) : (State.freeJob s j).cores.sweeps = s.cores.sweeps := rfl
@[simp] theorem State.freeJob_cores_serials (s : State) (j : Job) : (State.freeJob s j).cores.serials = s.cores.serials := rfl
@[simp] theorem State.freeJob_store (s : State) (j : Job) : (State.freeJob s j).store = s.store := rfl
@[simp] theorem State.freeJob_dies (s : State) (j : Job) : (State.freeJob s j).dies = s.dies := rfl
@[simp] theorem State.freeJob_pkg (s : State) (j : Job) : (State.freeJob s j).pkg = s.pkg := rfl
@[simp] theorem State.freeJob_agenda (s : State) (j : Job) : (State.freeJob s j).agenda = s.agenda := rfl
@[simp] theorem State.freeJob_part (s : State) (j : Job) : (State.freeJob s j).part = s.part := rfl
@[simp] theorem State.freeJob_inputs (s : State) (j : Job) : (State.freeJob s j).inputs = s.inputs := rfl
@[simp] theorem State.freeJob_cur (s : State) (j : Job) : (State.freeJob s j).cur = s.cur := rfl
@[simp] theorem State.freeJob_uid (s : State) (j : Job) : (State.freeJob s j).uid = s.uid := rfl
@[simp] theorem State.freeJob_free (s : State) (j : Job) : (State.freeJob s j).free = s.free := rfl

-- State.updHq
@[simp] theorem State.updHq_fab (s : State) (die q : Nat) (f : HQueue → HQueue) : (State.updHq s die q f).fab = s.fab := rfl
@[simp] theorem State.updHq_regions (s : State) (die q : Nat) (f : HQueue → HQueue) : (State.updHq s die q f).regions = s.regions := rfl
@[simp] theorem State.updHq_rregs (s : State) (die q : Nat) (f : HQueue → HQueue) : (State.updHq s die q f).rregs = s.rregs := rfl
@[simp] theorem State.updHq_cores (s : State) (die q : Nat) (f : HQueue → HQueue) : (State.updHq s die q f).cores = s.cores := rfl
@[simp] theorem State.updHq_store (s : State) (die q : Nat) (f : HQueue → HQueue) : (State.updHq s die q f).store = s.store := rfl
@[simp] theorem State.updHq_dies_inval (s : State) (die q : Nat) (f : HQueue → HQueue) : (State.updHq s die q f).dies.inval = s.dies.inval := rfl
@[simp] theorem State.updHq_dies_fills (s : State) (die q : Nat) (f : HQueue → HQueue) : (State.updHq s die q f).dies.fills = s.dies.fills := rfl
@[simp] theorem State.updHq_dies_slotQ (s : State) (die q : Nat) (f : HQueue → HQueue) : (State.updHq s die q f).dies.slotQ = s.dies.slotQ := rfl
@[simp] theorem State.updHq_dies_evicts (s : State) (die q : Nat) (f : HQueue → HQueue) : (State.updHq s die q f).dies.evicts = s.dies.evicts := rfl
@[simp] theorem State.updHq_dies_dispIn (s : State) (die q : Nat) (f : HQueue → HQueue) : (State.updHq s die q f).dies.dispIn = s.dies.dispIn := rfl
@[simp] theorem State.updHq_dies_dispWait (s : State) (die q : Nat) (f : HQueue → HQueue) : (State.updHq s die q f).dies.dispWait = s.dies.dispWait := rfl
@[simp] theorem State.updHq_dies_collIn (s : State) (die q : Nat) (f : HQueue → HQueue) : (State.updHq s die q f).dies.collIn = s.dies.collIn := rfl
@[simp] theorem State.updHq_dies_tptr (s : State) (die q : Nat) (f : HQueue → HQueue) : (State.updHq s die q f).dies.tptr = s.dies.tptr := rfl
@[simp] theorem State.updHq_dies_accepted (s : State) (die q : Nat) (f : HQueue → HQueue) : (State.updHq s die q f).dies.accepted = s.dies.accepted := rfl
@[simp] theorem State.updHq_dies_gangs (s : State) (die q : Nat) (f : HQueue → HQueue) : (State.updHq s die q f).dies.gangs = s.dies.gangs := rfl
@[simp] theorem State.updHq_dies_order (s : State) (die q : Nat) (f : HQueue → HQueue) : (State.updHq s die q f).dies.order = s.dies.order := rfl
@[simp] theorem State.updHq_dies_due (s : State) (die q : Nat) (f : HQueue → HQueue) : (State.updHq s die q f).dies.due = s.dies.due := rfl
@[simp] theorem State.updHq_dies_colls (s : State) (die q : Nat) (f : HQueue → HQueue) : (State.updHq s die q f).dies.colls = s.dies.colls := rfl
@[simp] theorem State.updHq_dies_contribs (s : State) (die q : Nat) (f : HQueue → HQueue) : (State.updHq s die q f).dies.contribs = s.dies.contribs := rfl
@[simp] theorem State.updHq_dies_walks (s : State) (die q : Nat) (f : HQueue → HQueue) : (State.updHq s die q f).dies.walks = s.dies.walks := rfl
@[simp] theorem State.updHq_pkg (s : State) (die q : Nat) (f : HQueue → HQueue) : (State.updHq s die q f).pkg = s.pkg := rfl
@[simp] theorem State.updHq_agenda (s : State) (die q : Nat) (f : HQueue → HQueue) : (State.updHq s die q f).agenda = s.agenda := rfl
@[simp] theorem State.updHq_part (s : State) (die q : Nat) (f : HQueue → HQueue) : (State.updHq s die q f).part = s.part := rfl
@[simp] theorem State.updHq_inputs (s : State) (die q : Nat) (f : HQueue → HQueue) : (State.updHq s die q f).inputs = s.inputs := rfl
@[simp] theorem State.updHq_cur (s : State) (die q : Nat) (f : HQueue → HQueue) : (State.updHq s die q f).cur = s.cur := rfl
@[simp] theorem State.updHq_uid (s : State) (die q : Nat) (f : HQueue → HQueue) : (State.updHq s die q f).uid = s.uid := rfl
@[simp] theorem State.updHq_free (s : State) (die q : Nat) (f : HQueue → HQueue) : (State.updHq s die q f).free = s.free := rfl

-- State.setLink
@[simp] theorem State.setLink_fab (s : State) (n : Nat) (l : Link) : (State.setLink s n l).fab = s.fab := rfl
@[simp] theorem State.setLink_regions (s : State) (n : Nat) (l : Link) : (State.setLink s n l).regions = s.regions := rfl
@[simp] theorem State.setLink_rregs (s : State) (n : Nat) (l : Link) : (State.setLink s n l).rregs = s.rregs := rfl
@[simp] theorem State.setLink_cores (s : State) (n : Nat) (l : Link) : (State.setLink s n l).cores = s.cores := rfl
@[simp] theorem State.setLink_store (s : State) (n : Nat) (l : Link) : (State.setLink s n l).store = s.store := rfl
@[simp] theorem State.setLink_dies (s : State) (n : Nat) (l : Link) : (State.setLink s n l).dies = s.dies := rfl
@[simp] theorem State.setLink_pkg_ports (s : State) (n : Nat) (l : Link) : (State.setLink s n l).pkg.ports = s.pkg.ports := rfl
@[simp] theorem State.setLink_pkg_subs (s : State) (n : Nat) (l : Link) : (State.setLink s n l).pkg.subs = s.pkg.subs := rfl
@[simp] theorem State.setLink_pkg_msix (s : State) (n : Nat) (l : Link) : (State.setLink s n l).pkg.msix = s.pkg.msix := rfl
@[simp] theorem State.setLink_pkg_ats (s : State) (n : Nat) (l : Link) : (State.setLink s n l).pkg.ats = s.pkg.ats := rfl
@[simp] theorem State.setLink_pkg_hostMem (s : State) (n : Nat) (l : Link) : (State.setLink s n l).pkg.hostMem = s.pkg.hostMem := rfl
@[simp] theorem State.setLink_pkg_farMem (s : State) (n : Nat) (l : Link) : (State.setLink s n l).pkg.farMem = s.pkg.farMem := rfl
@[simp] theorem State.setLink_pkg_mmio (s : State) (n : Nat) (l : Link) : (State.setLink s n l).pkg.mmio = s.pkg.mmio := rfl
@[simp] theorem State.setLink_pkg_cyc (s : State) (n : Nat) (l : Link) : (State.setLink s n l).pkg.cyc = s.pkg.cyc := rfl
@[simp] theorem State.setLink_pkg_net (s : State) (n : Nat) (l : Link) : (State.setLink s n l).pkg.net = s.pkg.net := rfl
@[simp] theorem State.setLink_pkg_throttle (s : State) (n : Nat) (l : Link) : (State.setLink s n l).pkg.throttle = s.pkg.throttle := rfl
@[simp] theorem State.setLink_pkg_hot (s : State) (n : Nat) (l : Link) : (State.setLink s n l).pkg.hot = s.pkg.hot := rfl
@[simp] theorem State.setLink_pkg_temps (s : State) (n : Nat) (l : Link) : (State.setLink s n l).pkg.temps = s.pkg.temps := rfl
@[simp] theorem State.setLink_pkg_peaks (s : State) (n : Nat) (l : Link) : (State.setLink s n l).pkg.peaks = s.pkg.peaks := rfl
@[simp] theorem State.setLink_pkg_skipped (s : State) (n : Nat) (l : Link) : (State.setLink s n l).pkg.skipped = s.pkg.skipped := rfl
@[simp] theorem State.setLink_pkg_skips (s : State) (n : Nat) (l : Link) : (State.setLink s n l).pkg.skips = s.pkg.skips := rfl
@[simp] theorem State.setLink_pkg_now (s : State) (n : Nat) (l : Link) : (State.setLink s n l).pkg.now = s.pkg.now := rfl
@[simp] theorem State.setLink_pkg_powered (s : State) (n : Nat) (l : Link) : (State.setLink s n l).pkg.powered = s.pkg.powered := rfl
@[simp] theorem State.setLink_pkg_boot (s : State) (n : Nat) (l : Link) : (State.setLink s n l).pkg.boot = s.pkg.boot := rfl
@[simp] theorem State.setLink_pkg_bootErr (s : State) (n : Nat) (l : Link) : (State.setLink s n l).pkg.bootErr = s.pkg.bootErr := rfl
@[simp] theorem State.setLink_pkg_identity (s : State) (n : Nat) (l : Link) : (State.setLink s n l).pkg.identity = s.pkg.identity := rfl
@[simp] theorem State.setLink_pkg_tripped (s : State) (n : Nat) (l : Link) : (State.setLink s n l).pkg.tripped = s.pkg.tripped := rfl
@[simp] theorem State.setLink_pkg_life (s : State) (n : Nat) (l : Link) : (State.setLink s n l).pkg.life = s.pkg.life := rfl
@[simp] theorem State.setLink_pkg_flash (s : State) (n : Nat) (l : Link) : (State.setLink s n l).pkg.flash = s.pkg.flash := rfl
@[simp] theorem State.setLink_pkg_fuse (s : State) (n : Nat) (l : Link) : (State.setLink s n l).pkg.fuse = s.pkg.fuse := rfl
@[simp] theorem State.setLink_pkg_rootHash (s : State) (n : Nat) (l : Link) : (State.setLink s n l).pkg.rootHash = s.pkg.rootHash := rfl
@[simp] theorem State.setLink_pkg_images (s : State) (n : Nat) (l : Link) : (State.setLink s n l).pkg.images = s.pkg.images := rfl
@[simp] theorem State.setLink_pkg_chain (s : State) (n : Nat) (l : Link) : (State.setLink s n l).pkg.chain = s.pkg.chain := rfl
@[simp] theorem State.setLink_pkg_amps (s : State) (n : Nat) (l : Link) : (State.setLink s n l).pkg.amps = s.pkg.amps := rfl
@[simp] theorem State.setLink_pkg_config (s : State) (n : Nat) (l : Link) : (State.setLink s n l).pkg.config = s.pkg.config := rfl
@[simp] theorem State.setLink_pkg_debugUsed (s : State) (n : Nat) (l : Link) : (State.setLink s n l).pkg.debugUsed = s.pkg.debugUsed := rfl
@[simp] theorem State.setLink_pkg_errors (s : State) (n : Nat) (l : Link) : (State.setLink s n l).pkg.errors = s.pkg.errors := rfl
@[simp] theorem State.setLink_pkg_out (s : State) (n : Nat) (l : Link) : (State.setLink s n l).pkg.out = s.pkg.out := rfl
@[simp] theorem State.setLink_pkg_held (s : State) (n : Nat) (l : Link) : (State.setLink s n l).pkg.held = s.pkg.held := rfl
@[simp] theorem State.setLink_pkg_farOut (s : State) (n : Nat) (l : Link) : (State.setLink s n l).pkg.farOut = s.pkg.farOut := rfl
@[simp] theorem State.setLink_pkg_farIn (s : State) (n : Nat) (l : Link) : (State.setLink s n l).pkg.farIn = s.pkg.farIn := rfl
@[simp] theorem State.setLink_agenda (s : State) (n : Nat) (l : Link) : (State.setLink s n l).agenda = s.agenda := rfl
@[simp] theorem State.setLink_part (s : State) (n : Nat) (l : Link) : (State.setLink s n l).part = s.part := rfl
@[simp] theorem State.setLink_inputs (s : State) (n : Nat) (l : Link) : (State.setLink s n l).inputs = s.inputs := rfl
@[simp] theorem State.setLink_cur (s : State) (n : Nat) (l : Link) : (State.setLink s n l).cur = s.cur := rfl
@[simp] theorem State.setLink_uid (s : State) (n : Nat) (l : Link) : (State.setLink s n l).uid = s.uid := rfl
@[simp] theorem State.setLink_free (s : State) (n : Nat) (l : Link) : (State.setLink s n l).free = s.free := rfl

-- State.setPort
@[simp] theorem State.setPort_fab (s : State) (n : Nat) (l : Link) : (State.setPort s n l).fab = s.fab := rfl
@[simp] theorem State.setPort_regions (s : State) (n : Nat) (l : Link) : (State.setPort s n l).regions = s.regions := rfl
@[simp] theorem State.setPort_rregs (s : State) (n : Nat) (l : Link) : (State.setPort s n l).rregs = s.rregs := rfl
@[simp] theorem State.setPort_cores (s : State) (n : Nat) (l : Link) : (State.setPort s n l).cores = s.cores := rfl
@[simp] theorem State.setPort_store (s : State) (n : Nat) (l : Link) : (State.setPort s n l).store = s.store := rfl
@[simp] theorem State.setPort_dies (s : State) (n : Nat) (l : Link) : (State.setPort s n l).dies = s.dies := rfl
@[simp] theorem State.setPort_pkg_links (s : State) (n : Nat) (l : Link) : (State.setPort s n l).pkg.links = s.pkg.links := rfl
@[simp] theorem State.setPort_pkg_subs (s : State) (n : Nat) (l : Link) : (State.setPort s n l).pkg.subs = s.pkg.subs := rfl
@[simp] theorem State.setPort_pkg_msix (s : State) (n : Nat) (l : Link) : (State.setPort s n l).pkg.msix = s.pkg.msix := rfl
@[simp] theorem State.setPort_pkg_ats (s : State) (n : Nat) (l : Link) : (State.setPort s n l).pkg.ats = s.pkg.ats := rfl
@[simp] theorem State.setPort_pkg_hostMem (s : State) (n : Nat) (l : Link) : (State.setPort s n l).pkg.hostMem = s.pkg.hostMem := rfl
@[simp] theorem State.setPort_pkg_farMem (s : State) (n : Nat) (l : Link) : (State.setPort s n l).pkg.farMem = s.pkg.farMem := rfl
@[simp] theorem State.setPort_pkg_mmio (s : State) (n : Nat) (l : Link) : (State.setPort s n l).pkg.mmio = s.pkg.mmio := rfl
@[simp] theorem State.setPort_pkg_cyc (s : State) (n : Nat) (l : Link) : (State.setPort s n l).pkg.cyc = s.pkg.cyc := rfl
@[simp] theorem State.setPort_pkg_net (s : State) (n : Nat) (l : Link) : (State.setPort s n l).pkg.net = s.pkg.net := rfl
@[simp] theorem State.setPort_pkg_throttle (s : State) (n : Nat) (l : Link) : (State.setPort s n l).pkg.throttle = s.pkg.throttle := rfl
@[simp] theorem State.setPort_pkg_hot (s : State) (n : Nat) (l : Link) : (State.setPort s n l).pkg.hot = s.pkg.hot := rfl
@[simp] theorem State.setPort_pkg_temps (s : State) (n : Nat) (l : Link) : (State.setPort s n l).pkg.temps = s.pkg.temps := rfl
@[simp] theorem State.setPort_pkg_peaks (s : State) (n : Nat) (l : Link) : (State.setPort s n l).pkg.peaks = s.pkg.peaks := rfl
@[simp] theorem State.setPort_pkg_skipped (s : State) (n : Nat) (l : Link) : (State.setPort s n l).pkg.skipped = s.pkg.skipped := rfl
@[simp] theorem State.setPort_pkg_skips (s : State) (n : Nat) (l : Link) : (State.setPort s n l).pkg.skips = s.pkg.skips := rfl
@[simp] theorem State.setPort_pkg_now (s : State) (n : Nat) (l : Link) : (State.setPort s n l).pkg.now = s.pkg.now := rfl
@[simp] theorem State.setPort_pkg_powered (s : State) (n : Nat) (l : Link) : (State.setPort s n l).pkg.powered = s.pkg.powered := rfl
@[simp] theorem State.setPort_pkg_boot (s : State) (n : Nat) (l : Link) : (State.setPort s n l).pkg.boot = s.pkg.boot := rfl
@[simp] theorem State.setPort_pkg_bootErr (s : State) (n : Nat) (l : Link) : (State.setPort s n l).pkg.bootErr = s.pkg.bootErr := rfl
@[simp] theorem State.setPort_pkg_identity (s : State) (n : Nat) (l : Link) : (State.setPort s n l).pkg.identity = s.pkg.identity := rfl
@[simp] theorem State.setPort_pkg_tripped (s : State) (n : Nat) (l : Link) : (State.setPort s n l).pkg.tripped = s.pkg.tripped := rfl
@[simp] theorem State.setPort_pkg_life (s : State) (n : Nat) (l : Link) : (State.setPort s n l).pkg.life = s.pkg.life := rfl
@[simp] theorem State.setPort_pkg_flash (s : State) (n : Nat) (l : Link) : (State.setPort s n l).pkg.flash = s.pkg.flash := rfl
@[simp] theorem State.setPort_pkg_fuse (s : State) (n : Nat) (l : Link) : (State.setPort s n l).pkg.fuse = s.pkg.fuse := rfl
@[simp] theorem State.setPort_pkg_rootHash (s : State) (n : Nat) (l : Link) : (State.setPort s n l).pkg.rootHash = s.pkg.rootHash := rfl
@[simp] theorem State.setPort_pkg_images (s : State) (n : Nat) (l : Link) : (State.setPort s n l).pkg.images = s.pkg.images := rfl
@[simp] theorem State.setPort_pkg_chain (s : State) (n : Nat) (l : Link) : (State.setPort s n l).pkg.chain = s.pkg.chain := rfl
@[simp] theorem State.setPort_pkg_amps (s : State) (n : Nat) (l : Link) : (State.setPort s n l).pkg.amps = s.pkg.amps := rfl
@[simp] theorem State.setPort_pkg_config (s : State) (n : Nat) (l : Link) : (State.setPort s n l).pkg.config = s.pkg.config := rfl
@[simp] theorem State.setPort_pkg_debugUsed (s : State) (n : Nat) (l : Link) : (State.setPort s n l).pkg.debugUsed = s.pkg.debugUsed := rfl
@[simp] theorem State.setPort_pkg_errors (s : State) (n : Nat) (l : Link) : (State.setPort s n l).pkg.errors = s.pkg.errors := rfl
@[simp] theorem State.setPort_pkg_out (s : State) (n : Nat) (l : Link) : (State.setPort s n l).pkg.out = s.pkg.out := rfl
@[simp] theorem State.setPort_pkg_held (s : State) (n : Nat) (l : Link) : (State.setPort s n l).pkg.held = s.pkg.held := rfl
@[simp] theorem State.setPort_pkg_farOut (s : State) (n : Nat) (l : Link) : (State.setPort s n l).pkg.farOut = s.pkg.farOut := rfl
@[simp] theorem State.setPort_pkg_farIn (s : State) (n : Nat) (l : Link) : (State.setPort s n l).pkg.farIn = s.pkg.farIn := rfl
@[simp] theorem State.setPort_agenda (s : State) (n : Nat) (l : Link) : (State.setPort s n l).agenda = s.agenda := rfl
@[simp] theorem State.setPort_part (s : State) (n : Nat) (l : Link) : (State.setPort s n l).part = s.part := rfl
@[simp] theorem State.setPort_inputs (s : State) (n : Nat) (l : Link) : (State.setPort s n l).inputs = s.inputs := rfl
@[simp] theorem State.setPort_cur (s : State) (n : Nat) (l : Link) : (State.setPort s n l).cur = s.cur := rfl
@[simp] theorem State.setPort_uid (s : State) (n : Nat) (l : Link) : (State.setPort s n l).uid = s.uid := rfl
@[simp] theorem State.setPort_free (s : State) (n : Nat) (l : Link) : (State.setPort s n l).free = s.free := rfl

-- State.wakeDispatchers
@[simp] theorem State.wakeDispatchers_fab (s : State) : (State.wakeDispatchers s).fab = s.fab := rfl
@[simp] theorem State.wakeDispatchers_regions (s : State) : (State.wakeDispatchers s).regions = s.regions := rfl
@[simp] theorem State.wakeDispatchers_rregs (s : State) : (State.wakeDispatchers s).rregs = s.rregs := rfl
@[simp] theorem State.wakeDispatchers_cores (s : State) : (State.wakeDispatchers s).cores = s.cores := rfl
@[simp] theorem State.wakeDispatchers_store (s : State) : (State.wakeDispatchers s).store = s.store := rfl
@[simp] theorem State.wakeDispatchers_dies_queues (s : State) : (State.wakeDispatchers s).dies.queues = s.dies.queues := rfl
@[simp] theorem State.wakeDispatchers_dies_inval (s : State) : (State.wakeDispatchers s).dies.inval = s.dies.inval := rfl
@[simp] theorem State.wakeDispatchers_dies_fills (s : State) : (State.wakeDispatchers s).dies.fills = s.dies.fills := rfl
@[simp] theorem State.wakeDispatchers_dies_slotQ (s : State) : (State.wakeDispatchers s).dies.slotQ = s.dies.slotQ := rfl
@[simp] theorem State.wakeDispatchers_dies_evicts (s : State) : (State.wakeDispatchers s).dies.evicts = s.dies.evicts := rfl
@[simp] theorem State.wakeDispatchers_dies_dispIn (s : State) : (State.wakeDispatchers s).dies.dispIn = s.dies.dispIn := rfl
@[simp] theorem State.wakeDispatchers_dies_dispWait (s : State) : (State.wakeDispatchers s).dies.dispWait = s.dies.dispWait := rfl
@[simp] theorem State.wakeDispatchers_dies_collIn (s : State) : (State.wakeDispatchers s).dies.collIn = s.dies.collIn := rfl
@[simp] theorem State.wakeDispatchers_dies_tptr (s : State) : (State.wakeDispatchers s).dies.tptr = s.dies.tptr := rfl
@[simp] theorem State.wakeDispatchers_dies_accepted (s : State) : (State.wakeDispatchers s).dies.accepted = s.dies.accepted := rfl
@[simp] theorem State.wakeDispatchers_dies_gangs (s : State) : (State.wakeDispatchers s).dies.gangs = s.dies.gangs := rfl
@[simp] theorem State.wakeDispatchers_dies_order (s : State) : (State.wakeDispatchers s).dies.order = s.dies.order := rfl
@[simp] theorem State.wakeDispatchers_dies_colls (s : State) : (State.wakeDispatchers s).dies.colls = s.dies.colls := rfl
@[simp] theorem State.wakeDispatchers_dies_contribs (s : State) : (State.wakeDispatchers s).dies.contribs = s.dies.contribs := rfl
@[simp] theorem State.wakeDispatchers_dies_walks (s : State) : (State.wakeDispatchers s).dies.walks = s.dies.walks := rfl
@[simp] theorem State.wakeDispatchers_pkg (s : State) : (State.wakeDispatchers s).pkg = s.pkg := rfl
@[simp] theorem State.wakeDispatchers_agenda (s : State) : (State.wakeDispatchers s).agenda = s.agenda := rfl
@[simp] theorem State.wakeDispatchers_part (s : State) : (State.wakeDispatchers s).part = s.part := rfl
@[simp] theorem State.wakeDispatchers_inputs (s : State) : (State.wakeDispatchers s).inputs = s.inputs := rfl
@[simp] theorem State.wakeDispatchers_cur (s : State) : (State.wakeDispatchers s).cur = s.cur := rfl
@[simp] theorem State.wakeDispatchers_uid (s : State) : (State.wakeDispatchers s).uid = s.uid := rfl
@[simp] theorem State.wakeDispatchers_free (s : State) : (State.wakeDispatchers s).free = s.free := rfl

-- State.spadPut
@[simp] theorem State.spadPut_fab (s : State) (key : Nat) (bs : List Byte) : (State.spadPut s key bs).fab = s.fab := rfl
@[simp] theorem State.spadPut_regions (s : State) (key : Nat) (bs : List Byte) : (State.spadPut s key bs).regions = s.regions := rfl
@[simp] theorem State.spadPut_rregs (s : State) (key : Nat) (bs : List Byte) : (State.spadPut s key bs).rregs = s.rregs := rfl
@[simp] theorem State.spadPut_cores (s : State) (key : Nat) (bs : List Byte) : (State.spadPut s key bs).cores = s.cores := rfl
@[simp] theorem State.spadPut_store_cells (s : State) (key : Nat) (bs : List Byte) : (State.spadPut s key bs).store.cells = s.store.cells := rfl
@[simp] theorem State.spadPut_store_dirty (s : State) (key : Nat) (bs : List Byte) : (State.spadPut s key bs).store.dirty = s.store.dirty := rfl
@[simp] theorem State.spadPut_store_stale (s : State) (key : Nat) (bs : List Byte) : (State.spadPut s key bs).store.stale = s.store.stale := rfl
@[simp] theorem State.spadPut_store_marks (s : State) (key : Nat) (bs : List Byte) : (State.spadPut s key bs).store.marks = s.store.marks := rfl
@[simp] theorem State.spadPut_store_copies (s : State) (key : Nat) (bs : List Byte) : (State.spadPut s key bs).store.copies = s.store.copies := rfl
@[simp] theorem State.spadPut_store_badDirty (s : State) (key : Nat) (bs : List Byte) : (State.spadPut s key bs).store.badDirty = s.store.badDirty := rfl
@[simp] theorem State.spadPut_store_wides (s : State) (key : Nat) (bs : List Byte) : (State.spadPut s key bs).store.wides = s.store.wides := rfl
@[simp] theorem State.spadPut_store_tstore (s : State) (key : Nat) (bs : List Byte) : (State.spadPut s key bs).store.tstore = s.store.tstore := rfl
@[simp] theorem State.spadPut_store_badWords (s : State) (key : Nat) (bs : List Byte) : (State.spadPut s key bs).store.badWords = s.store.badWords := rfl
@[simp] theorem State.spadPut_dies (s : State) (key : Nat) (bs : List Byte) : (State.spadPut s key bs).dies = s.dies := rfl
@[simp] theorem State.spadPut_pkg (s : State) (key : Nat) (bs : List Byte) : (State.spadPut s key bs).pkg = s.pkg := rfl
@[simp] theorem State.spadPut_agenda (s : State) (key : Nat) (bs : List Byte) : (State.spadPut s key bs).agenda = s.agenda := rfl
@[simp] theorem State.spadPut_part (s : State) (key : Nat) (bs : List Byte) : (State.spadPut s key bs).part = s.part := rfl
@[simp] theorem State.spadPut_inputs (s : State) (key : Nat) (bs : List Byte) : (State.spadPut s key bs).inputs = s.inputs := rfl
@[simp] theorem State.spadPut_cur (s : State) (key : Nat) (bs : List Byte) : (State.spadPut s key bs).cur = s.cur := rfl
@[simp] theorem State.spadPut_uid (s : State) (key : Nat) (bs : List Byte) : (State.spadPut s key bs).uid = s.uid := rfl
@[simp] theorem State.spadPut_free (s : State) (key : Nat) (bs : List Byte) : (State.spadPut s key bs).free = s.free := rfl

-- State.tsPut
@[simp] theorem State.tsPut_fab (s : State) (key : Nat) (w : Word) : (State.tsPut s key w).fab = s.fab := rfl
@[simp] theorem State.tsPut_regions (s : State) (key : Nat) (w : Word) : (State.tsPut s key w).regions = s.regions := rfl
@[simp] theorem State.tsPut_rregs (s : State) (key : Nat) (w : Word) : (State.tsPut s key w).rregs = s.rregs := rfl
@[simp] theorem State.tsPut_cores (s : State) (key : Nat) (w : Word) : (State.tsPut s key w).cores = s.cores := rfl
@[simp] theorem State.tsPut_store_cells (s : State) (key : Nat) (w : Word) : (State.tsPut s key w).store.cells = s.store.cells := rfl
@[simp] theorem State.tsPut_store_dirty (s : State) (key : Nat) (w : Word) : (State.tsPut s key w).store.dirty = s.store.dirty := rfl
@[simp] theorem State.tsPut_store_stale (s : State) (key : Nat) (w : Word) : (State.tsPut s key w).store.stale = s.store.stale := rfl
@[simp] theorem State.tsPut_store_marks (s : State) (key : Nat) (w : Word) : (State.tsPut s key w).store.marks = s.store.marks := rfl
@[simp] theorem State.tsPut_store_copies (s : State) (key : Nat) (w : Word) : (State.tsPut s key w).store.copies = s.store.copies := rfl
@[simp] theorem State.tsPut_store_badDirty (s : State) (key : Nat) (w : Word) : (State.tsPut s key w).store.badDirty = s.store.badDirty := rfl
@[simp] theorem State.tsPut_store_wides (s : State) (key : Nat) (w : Word) : (State.tsPut s key w).store.wides = s.store.wides := rfl
@[simp] theorem State.tsPut_store_spad (s : State) (key : Nat) (w : Word) : (State.tsPut s key w).store.spad = s.store.spad := rfl
@[simp] theorem State.tsPut_store_badWords (s : State) (key : Nat) (w : Word) : (State.tsPut s key w).store.badWords = s.store.badWords := rfl
@[simp] theorem State.tsPut_dies (s : State) (key : Nat) (w : Word) : (State.tsPut s key w).dies = s.dies := rfl
@[simp] theorem State.tsPut_pkg (s : State) (key : Nat) (w : Word) : (State.tsPut s key w).pkg = s.pkg := rfl
@[simp] theorem State.tsPut_agenda (s : State) (key : Nat) (w : Word) : (State.tsPut s key w).agenda = s.agenda := rfl
@[simp] theorem State.tsPut_part (s : State) (key : Nat) (w : Word) : (State.tsPut s key w).part = s.part := rfl
@[simp] theorem State.tsPut_inputs (s : State) (key : Nat) (w : Word) : (State.tsPut s key w).inputs = s.inputs := rfl
@[simp] theorem State.tsPut_cur (s : State) (key : Nat) (w : Word) : (State.tsPut s key w).cur = s.cur := rfl
@[simp] theorem State.tsPut_uid (s : State) (key : Nat) (w : Word) : (State.tsPut s key w).uid = s.uid := rfl
@[simp] theorem State.tsPut_free (s : State) (key : Nat) (w : Word) : (State.tsPut s key w).free = s.free := rfl

-- State.portWait
@[simp] theorem State.portWait_fab_elems (s : State) (own key : Nat) : (State.portWait s own key).fab.elems = s.fab.elems := rfl
@[simp] theorem State.portWait_fab_flits (s : State) (own key : Nat) : (State.portWait s own key).fab.flits = s.fab.flits := rfl
@[simp] theorem State.portWait_fab_credRets (s : State) (own key : Nat) : (State.portWait s own key).fab.credRets = s.fab.credRets := rfl
@[simp] theorem State.portWait_fab_lanes (s : State) (own key : Nat) : (State.portWait s own key).fab.lanes = s.fab.lanes := rfl
@[simp] theorem State.portWait_fab_reqs (s : State) (own key : Nat) : (State.portWait s own key).fab.reqs = s.fab.reqs := rfl
@[simp] theorem State.portWait_fab_recs (s : State) (own key : Nat) : (State.portWait s own key).fab.recs = s.fab.recs := rfl
@[simp] theorem State.portWait_fab_fq (s : State) (own key : Nat) : (State.portWait s own key).fab.fq = s.fab.fq := rfl
@[simp] theorem State.portWait_fab_glitch (s : State) (own key : Nat) : (State.portWait s own key).fab.glitch = s.fab.glitch := rfl
@[simp] theorem State.portWait_regions (s : State) (own key : Nat) : (State.portWait s own key).regions = s.regions := rfl
@[simp] theorem State.portWait_rregs (s : State) (own key : Nat) : (State.portWait s own key).rregs = s.rregs := rfl
@[simp] theorem State.portWait_cores (s : State) (own key : Nat) : (State.portWait s own key).cores = s.cores := rfl
@[simp] theorem State.portWait_store (s : State) (own key : Nat) : (State.portWait s own key).store = s.store := rfl
@[simp] theorem State.portWait_dies (s : State) (own key : Nat) : (State.portWait s own key).dies = s.dies := rfl
@[simp] theorem State.portWait_pkg (s : State) (own key : Nat) : (State.portWait s own key).pkg = s.pkg := rfl
@[simp] theorem State.portWait_agenda (s : State) (own key : Nat) : (State.portWait s own key).agenda = s.agenda := rfl
@[simp] theorem State.portWait_part (s : State) (own key : Nat) : (State.portWait s own key).part = s.part := rfl
@[simp] theorem State.portWait_inputs (s : State) (own key : Nat) : (State.portWait s own key).inputs = s.inputs := rfl
@[simp] theorem State.portWait_cur (s : State) (own key : Nat) : (State.portWait s own key).cur = s.cur := rfl
@[simp] theorem State.portWait_uid (s : State) (own key : Nat) : (State.portWait s own key).uid = s.uid := rfl
@[simp] theorem State.portWait_free (s : State) (own key : Nat) : (State.portWait s own key).free = s.free := rfl

-- State.setMark
@[simp] theorem State.setMark_fab (s : State) (sec code : Nat) : (State.setMark s sec code).fab = s.fab := rfl
@[simp] theorem State.setMark_regions (s : State) (sec code : Nat) : (State.setMark s sec code).regions = s.regions := rfl
@[simp] theorem State.setMark_rregs (s : State) (sec code : Nat) : (State.setMark s sec code).rregs = s.rregs := rfl
@[simp] theorem State.setMark_cores (s : State) (sec code : Nat) : (State.setMark s sec code).cores = s.cores := rfl
@[simp] theorem State.setMark_store_cells (s : State) (sec code : Nat) : (State.setMark s sec code).store.cells = s.store.cells := rfl
@[simp] theorem State.setMark_store_dirty (s : State) (sec code : Nat) : (State.setMark s sec code).store.dirty = s.store.dirty := rfl
@[simp] theorem State.setMark_store_stale (s : State) (sec code : Nat) : (State.setMark s sec code).store.stale = s.store.stale := rfl
@[simp] theorem State.setMark_store_copies (s : State) (sec code : Nat) : (State.setMark s sec code).store.copies = s.store.copies := rfl
@[simp] theorem State.setMark_store_badDirty (s : State) (sec code : Nat) : (State.setMark s sec code).store.badDirty = s.store.badDirty := rfl
@[simp] theorem State.setMark_store_wides (s : State) (sec code : Nat) : (State.setMark s sec code).store.wides = s.store.wides := rfl
@[simp] theorem State.setMark_store_spad (s : State) (sec code : Nat) : (State.setMark s sec code).store.spad = s.store.spad := rfl
@[simp] theorem State.setMark_store_tstore (s : State) (sec code : Nat) : (State.setMark s sec code).store.tstore = s.store.tstore := rfl
@[simp] theorem State.setMark_store_badWords (s : State) (sec code : Nat) : (State.setMark s sec code).store.badWords = s.store.badWords := rfl
@[simp] theorem State.setMark_dies (s : State) (sec code : Nat) : (State.setMark s sec code).dies = s.dies := rfl
@[simp] theorem State.setMark_pkg (s : State) (sec code : Nat) : (State.setMark s sec code).pkg = s.pkg := rfl
@[simp] theorem State.setMark_agenda (s : State) (sec code : Nat) : (State.setMark s sec code).agenda = s.agenda := rfl
@[simp] theorem State.setMark_part (s : State) (sec code : Nat) : (State.setMark s sec code).part = s.part := rfl
@[simp] theorem State.setMark_inputs (s : State) (sec code : Nat) : (State.setMark s sec code).inputs = s.inputs := rfl
@[simp] theorem State.setMark_cur (s : State) (sec code : Nat) : (State.setMark s sec code).cur = s.cur := rfl
@[simp] theorem State.setMark_uid (s : State) (sec code : Nat) : (State.setMark s sec code).uid = s.uid := rfl
@[simp] theorem State.setMark_free (s : State) (sec code : Nat) : (State.setMark s sec code).free = s.free := rfl

-- State.dirtyPut
@[simp] theorem State.dirtyPut_fab (s : State) (cl loc : Nat) (bs : List Byte) : (State.dirtyPut s cl loc bs).fab = s.fab := rfl
@[simp] theorem State.dirtyPut_regions (s : State) (cl loc : Nat) (bs : List Byte) : (State.dirtyPut s cl loc bs).regions = s.regions := rfl
@[simp] theorem State.dirtyPut_rregs (s : State) (cl loc : Nat) (bs : List Byte) : (State.dirtyPut s cl loc bs).rregs = s.rregs := rfl
@[simp] theorem State.dirtyPut_cores (s : State) (cl loc : Nat) (bs : List Byte) : (State.dirtyPut s cl loc bs).cores = s.cores := rfl
@[simp] theorem State.dirtyPut_store_cells (s : State) (cl loc : Nat) (bs : List Byte) : (State.dirtyPut s cl loc bs).store.cells = s.store.cells := rfl
@[simp] theorem State.dirtyPut_store_stale (s : State) (cl loc : Nat) (bs : List Byte) : (State.dirtyPut s cl loc bs).store.stale = s.store.stale := rfl
@[simp] theorem State.dirtyPut_store_marks (s : State) (cl loc : Nat) (bs : List Byte) : (State.dirtyPut s cl loc bs).store.marks = s.store.marks := rfl
@[simp] theorem State.dirtyPut_store_copies (s : State) (cl loc : Nat) (bs : List Byte) : (State.dirtyPut s cl loc bs).store.copies = s.store.copies := rfl
@[simp] theorem State.dirtyPut_store_badDirty (s : State) (cl loc : Nat) (bs : List Byte) : (State.dirtyPut s cl loc bs).store.badDirty = s.store.badDirty := rfl
@[simp] theorem State.dirtyPut_store_wides (s : State) (cl loc : Nat) (bs : List Byte) : (State.dirtyPut s cl loc bs).store.wides = s.store.wides := rfl
@[simp] theorem State.dirtyPut_store_spad (s : State) (cl loc : Nat) (bs : List Byte) : (State.dirtyPut s cl loc bs).store.spad = s.store.spad := rfl
@[simp] theorem State.dirtyPut_store_tstore (s : State) (cl loc : Nat) (bs : List Byte) : (State.dirtyPut s cl loc bs).store.tstore = s.store.tstore := rfl
@[simp] theorem State.dirtyPut_store_badWords (s : State) (cl loc : Nat) (bs : List Byte) : (State.dirtyPut s cl loc bs).store.badWords = s.store.badWords := rfl
@[simp] theorem State.dirtyPut_dies (s : State) (cl loc : Nat) (bs : List Byte) : (State.dirtyPut s cl loc bs).dies = s.dies := rfl
@[simp] theorem State.dirtyPut_pkg (s : State) (cl loc : Nat) (bs : List Byte) : (State.dirtyPut s cl loc bs).pkg = s.pkg := rfl
@[simp] theorem State.dirtyPut_agenda (s : State) (cl loc : Nat) (bs : List Byte) : (State.dirtyPut s cl loc bs).agenda = s.agenda := rfl
@[simp] theorem State.dirtyPut_part (s : State) (cl loc : Nat) (bs : List Byte) : (State.dirtyPut s cl loc bs).part = s.part := rfl
@[simp] theorem State.dirtyPut_inputs (s : State) (cl loc : Nat) (bs : List Byte) : (State.dirtyPut s cl loc bs).inputs = s.inputs := rfl
@[simp] theorem State.dirtyPut_cur (s : State) (cl loc : Nat) (bs : List Byte) : (State.dirtyPut s cl loc bs).cur = s.cur := rfl
@[simp] theorem State.dirtyPut_uid (s : State) (cl loc : Nat) (bs : List Byte) : (State.dirtyPut s cl loc bs).uid = s.uid := rfl
@[simp] theorem State.dirtyPut_free (s : State) (cl loc : Nat) (bs : List Byte) : (State.dirtyPut s cl loc bs).free = s.free := rfl

-- State.beginWide
@[simp] theorem State.beginWide_fab (s : State) (cls : List Nat) (for_ : WideFor) : (State.beginWide s cls for_).fab = s.fab := rfl
@[simp] theorem State.beginWide_regions (s : State) (cls : List Nat) (for_ : WideFor) : (State.beginWide s cls for_).regions = s.regions := rfl
@[simp] theorem State.beginWide_rregs (s : State) (cls : List Nat) (for_ : WideFor) : (State.beginWide s cls for_).rregs = s.rregs := rfl
@[simp] theorem State.beginWide_cores (s : State) (cls : List Nat) (for_ : WideFor) : (State.beginWide s cls for_).cores = s.cores := rfl
@[simp] theorem State.beginWide_store_cells (s : State) (cls : List Nat) (for_ : WideFor) : (State.beginWide s cls for_).store.cells = s.store.cells := rfl
@[simp] theorem State.beginWide_store_dirty (s : State) (cls : List Nat) (for_ : WideFor) : (State.beginWide s cls for_).store.dirty = s.store.dirty := rfl
@[simp] theorem State.beginWide_store_stale (s : State) (cls : List Nat) (for_ : WideFor) : (State.beginWide s cls for_).store.stale = s.store.stale := rfl
@[simp] theorem State.beginWide_store_marks (s : State) (cls : List Nat) (for_ : WideFor) : (State.beginWide s cls for_).store.marks = s.store.marks := rfl
@[simp] theorem State.beginWide_store_copies (s : State) (cls : List Nat) (for_ : WideFor) : (State.beginWide s cls for_).store.copies = s.store.copies := rfl
@[simp] theorem State.beginWide_store_badDirty (s : State) (cls : List Nat) (for_ : WideFor) : (State.beginWide s cls for_).store.badDirty = s.store.badDirty := rfl
@[simp] theorem State.beginWide_store_spad (s : State) (cls : List Nat) (for_ : WideFor) : (State.beginWide s cls for_).store.spad = s.store.spad := rfl
@[simp] theorem State.beginWide_store_tstore (s : State) (cls : List Nat) (for_ : WideFor) : (State.beginWide s cls for_).store.tstore = s.store.tstore := rfl
@[simp] theorem State.beginWide_store_badWords (s : State) (cls : List Nat) (for_ : WideFor) : (State.beginWide s cls for_).store.badWords = s.store.badWords := rfl
@[simp] theorem State.beginWide_dies (s : State) (cls : List Nat) (for_ : WideFor) : (State.beginWide s cls for_).dies = s.dies := rfl
@[simp] theorem State.beginWide_pkg (s : State) (cls : List Nat) (for_ : WideFor) : (State.beginWide s cls for_).pkg = s.pkg := rfl
@[simp] theorem State.beginWide_agenda (s : State) (cls : List Nat) (for_ : WideFor) : (State.beginWide s cls for_).agenda = s.agenda := rfl
@[simp] theorem State.beginWide_part (s : State) (cls : List Nat) (for_ : WideFor) : (State.beginWide s cls for_).part = s.part := rfl
@[simp] theorem State.beginWide_inputs (s : State) (cls : List Nat) (for_ : WideFor) : (State.beginWide s cls for_).inputs = s.inputs := rfl
@[simp] theorem State.beginWide_cur (s : State) (cls : List Nat) (for_ : WideFor) : (State.beginWide s cls for_).cur = s.cur := rfl
@[simp] theorem State.beginWide_free (s : State) (cls : List Nat) (for_ : WideFor) : (State.beginWide s cls for_).free = s.free := rfl

-- State.setMmio
@[simp] theorem State.setMmio_fab (s : State) (off : Nat) (v : Word) : (State.setMmio s off v).fab = s.fab := rfl
@[simp] theorem State.setMmio_regions (s : State) (off : Nat) (v : Word) : (State.setMmio s off v).regions = s.regions := rfl
@[simp] theorem State.setMmio_rregs (s : State) (off : Nat) (v : Word) : (State.setMmio s off v).rregs = s.rregs := rfl
@[simp] theorem State.setMmio_cores (s : State) (off : Nat) (v : Word) : (State.setMmio s off v).cores = s.cores := rfl
@[simp] theorem State.setMmio_store (s : State) (off : Nat) (v : Word) : (State.setMmio s off v).store = s.store := rfl
@[simp] theorem State.setMmio_dies (s : State) (off : Nat) (v : Word) : (State.setMmio s off v).dies = s.dies := rfl
@[simp] theorem State.setMmio_pkg_links (s : State) (off : Nat) (v : Word) : (State.setMmio s off v).pkg.links = s.pkg.links := rfl
@[simp] theorem State.setMmio_pkg_ports (s : State) (off : Nat) (v : Word) : (State.setMmio s off v).pkg.ports = s.pkg.ports := rfl
@[simp] theorem State.setMmio_pkg_subs (s : State) (off : Nat) (v : Word) : (State.setMmio s off v).pkg.subs = s.pkg.subs := rfl
@[simp] theorem State.setMmio_pkg_msix (s : State) (off : Nat) (v : Word) : (State.setMmio s off v).pkg.msix = s.pkg.msix := rfl
@[simp] theorem State.setMmio_pkg_ats (s : State) (off : Nat) (v : Word) : (State.setMmio s off v).pkg.ats = s.pkg.ats := rfl
@[simp] theorem State.setMmio_pkg_hostMem (s : State) (off : Nat) (v : Word) : (State.setMmio s off v).pkg.hostMem = s.pkg.hostMem := rfl
@[simp] theorem State.setMmio_pkg_farMem (s : State) (off : Nat) (v : Word) : (State.setMmio s off v).pkg.farMem = s.pkg.farMem := rfl
@[simp] theorem State.setMmio_pkg_cyc (s : State) (off : Nat) (v : Word) : (State.setMmio s off v).pkg.cyc = s.pkg.cyc := rfl
@[simp] theorem State.setMmio_pkg_net (s : State) (off : Nat) (v : Word) : (State.setMmio s off v).pkg.net = s.pkg.net := rfl
@[simp] theorem State.setMmio_pkg_throttle (s : State) (off : Nat) (v : Word) : (State.setMmio s off v).pkg.throttle = s.pkg.throttle := rfl
@[simp] theorem State.setMmio_pkg_hot (s : State) (off : Nat) (v : Word) : (State.setMmio s off v).pkg.hot = s.pkg.hot := rfl
@[simp] theorem State.setMmio_pkg_temps (s : State) (off : Nat) (v : Word) : (State.setMmio s off v).pkg.temps = s.pkg.temps := rfl
@[simp] theorem State.setMmio_pkg_peaks (s : State) (off : Nat) (v : Word) : (State.setMmio s off v).pkg.peaks = s.pkg.peaks := rfl
@[simp] theorem State.setMmio_pkg_skipped (s : State) (off : Nat) (v : Word) : (State.setMmio s off v).pkg.skipped = s.pkg.skipped := rfl
@[simp] theorem State.setMmio_pkg_skips (s : State) (off : Nat) (v : Word) : (State.setMmio s off v).pkg.skips = s.pkg.skips := rfl
@[simp] theorem State.setMmio_pkg_now (s : State) (off : Nat) (v : Word) : (State.setMmio s off v).pkg.now = s.pkg.now := rfl
@[simp] theorem State.setMmio_pkg_powered (s : State) (off : Nat) (v : Word) : (State.setMmio s off v).pkg.powered = s.pkg.powered := rfl
@[simp] theorem State.setMmio_pkg_boot (s : State) (off : Nat) (v : Word) : (State.setMmio s off v).pkg.boot = s.pkg.boot := rfl
@[simp] theorem State.setMmio_pkg_bootErr (s : State) (off : Nat) (v : Word) : (State.setMmio s off v).pkg.bootErr = s.pkg.bootErr := rfl
@[simp] theorem State.setMmio_pkg_identity (s : State) (off : Nat) (v : Word) : (State.setMmio s off v).pkg.identity = s.pkg.identity := rfl
@[simp] theorem State.setMmio_pkg_tripped (s : State) (off : Nat) (v : Word) : (State.setMmio s off v).pkg.tripped = s.pkg.tripped := rfl
@[simp] theorem State.setMmio_pkg_life (s : State) (off : Nat) (v : Word) : (State.setMmio s off v).pkg.life = s.pkg.life := rfl
@[simp] theorem State.setMmio_pkg_flash (s : State) (off : Nat) (v : Word) : (State.setMmio s off v).pkg.flash = s.pkg.flash := rfl
@[simp] theorem State.setMmio_pkg_fuse (s : State) (off : Nat) (v : Word) : (State.setMmio s off v).pkg.fuse = s.pkg.fuse := rfl
@[simp] theorem State.setMmio_pkg_rootHash (s : State) (off : Nat) (v : Word) : (State.setMmio s off v).pkg.rootHash = s.pkg.rootHash := rfl
@[simp] theorem State.setMmio_pkg_images (s : State) (off : Nat) (v : Word) : (State.setMmio s off v).pkg.images = s.pkg.images := rfl
@[simp] theorem State.setMmio_pkg_chain (s : State) (off : Nat) (v : Word) : (State.setMmio s off v).pkg.chain = s.pkg.chain := rfl
@[simp] theorem State.setMmio_pkg_amps (s : State) (off : Nat) (v : Word) : (State.setMmio s off v).pkg.amps = s.pkg.amps := rfl
@[simp] theorem State.setMmio_pkg_config (s : State) (off : Nat) (v : Word) : (State.setMmio s off v).pkg.config = s.pkg.config := rfl
@[simp] theorem State.setMmio_pkg_debugUsed (s : State) (off : Nat) (v : Word) : (State.setMmio s off v).pkg.debugUsed = s.pkg.debugUsed := rfl
@[simp] theorem State.setMmio_pkg_errors (s : State) (off : Nat) (v : Word) : (State.setMmio s off v).pkg.errors = s.pkg.errors := rfl
@[simp] theorem State.setMmio_pkg_out (s : State) (off : Nat) (v : Word) : (State.setMmio s off v).pkg.out = s.pkg.out := rfl
@[simp] theorem State.setMmio_pkg_held (s : State) (off : Nat) (v : Word) : (State.setMmio s off v).pkg.held = s.pkg.held := rfl
@[simp] theorem State.setMmio_pkg_farOut (s : State) (off : Nat) (v : Word) : (State.setMmio s off v).pkg.farOut = s.pkg.farOut := rfl
@[simp] theorem State.setMmio_pkg_farIn (s : State) (off : Nat) (v : Word) : (State.setMmio s off v).pkg.farIn = s.pkg.farIn := rfl
@[simp] theorem State.setMmio_agenda (s : State) (off : Nat) (v : Word) : (State.setMmio s off v).agenda = s.agenda := rfl
@[simp] theorem State.setMmio_part (s : State) (off : Nat) (v : Word) : (State.setMmio s off v).part = s.part := rfl
@[simp] theorem State.setMmio_inputs (s : State) (off : Nat) (v : Word) : (State.setMmio s off v).inputs = s.inputs := rfl
@[simp] theorem State.setMmio_cur (s : State) (off : Nat) (v : Word) : (State.setMmio s off v).cur = s.cur := rfl
@[simp] theorem State.setMmio_uid (s : State) (off : Nat) (v : Word) : (State.setMmio s off v).uid = s.uid := rfl
@[simp] theorem State.setMmio_free (s : State) (off : Nat) (v : Word) : (State.setMmio s off v).free = s.free := rfl

-- State.updRegion
@[simp] theorem State.updRegion_fab (s : State) (r : Nat) (f : Region → Region) : (State.updRegion s r f).fab = s.fab := rfl
@[simp] theorem State.updRegion_rregs (s : State) (r : Nat) (f : Region → Region) : (State.updRegion s r f).rregs = s.rregs := rfl
@[simp] theorem State.updRegion_cores (s : State) (r : Nat) (f : Region → Region) : (State.updRegion s r f).cores = s.cores := rfl
@[simp] theorem State.updRegion_store (s : State) (r : Nat) (f : Region → Region) : (State.updRegion s r f).store = s.store := rfl
@[simp] theorem State.updRegion_dies (s : State) (r : Nat) (f : Region → Region) : (State.updRegion s r f).dies = s.dies := rfl
@[simp] theorem State.updRegion_pkg (s : State) (r : Nat) (f : Region → Region) : (State.updRegion s r f).pkg = s.pkg := rfl
@[simp] theorem State.updRegion_agenda (s : State) (r : Nat) (f : Region → Region) : (State.updRegion s r f).agenda = s.agenda := rfl
@[simp] theorem State.updRegion_part (s : State) (r : Nat) (f : Region → Region) : (State.updRegion s r f).part = s.part := rfl
@[simp] theorem State.updRegion_inputs (s : State) (r : Nat) (f : Region → Region) : (State.updRegion s r f).inputs = s.inputs := rfl
@[simp] theorem State.updRegion_cur (s : State) (r : Nat) (f : Region → Region) : (State.updRegion s r f).cur = s.cur := rfl
@[simp] theorem State.updRegion_uid (s : State) (r : Nat) (f : Region → Region) : (State.updRegion s r f).uid = s.uid := rfl
@[simp] theorem State.updRegion_free (s : State) (r : Nat) (f : Region → Region) : (State.updRegion s r f).free = s.free := rfl

-- State.updRreg
@[simp] theorem State.updRreg_fab (s : State) (r : Nat) (f : RReg → RReg) : (State.updRreg s r f).fab = s.fab := rfl
@[simp] theorem State.updRreg_regions (s : State) (r : Nat) (f : RReg → RReg) : (State.updRreg s r f).regions = s.regions := rfl
@[simp] theorem State.updRreg_cores (s : State) (r : Nat) (f : RReg → RReg) : (State.updRreg s r f).cores = s.cores := rfl
@[simp] theorem State.updRreg_store (s : State) (r : Nat) (f : RReg → RReg) : (State.updRreg s r f).store = s.store := rfl
@[simp] theorem State.updRreg_dies (s : State) (r : Nat) (f : RReg → RReg) : (State.updRreg s r f).dies = s.dies := rfl
@[simp] theorem State.updRreg_pkg (s : State) (r : Nat) (f : RReg → RReg) : (State.updRreg s r f).pkg = s.pkg := rfl
@[simp] theorem State.updRreg_agenda (s : State) (r : Nat) (f : RReg → RReg) : (State.updRreg s r f).agenda = s.agenda := rfl
@[simp] theorem State.updRreg_part (s : State) (r : Nat) (f : RReg → RReg) : (State.updRreg s r f).part = s.part := rfl
@[simp] theorem State.updRreg_inputs (s : State) (r : Nat) (f : RReg → RReg) : (State.updRreg s r f).inputs = s.inputs := rfl
@[simp] theorem State.updRreg_cur (s : State) (r : Nat) (f : RReg → RReg) : (State.updRreg s r f).cur = s.cur := rfl
@[simp] theorem State.updRreg_uid (s : State) (r : Nat) (f : RReg → RReg) : (State.updRreg s r f).uid = s.uid := rfl
@[simp] theorem State.updRreg_free (s : State) (r : Nat) (f : RReg → RReg) : (State.updRreg s r f).free = s.free := rfl

-- State.updElem
@[simp] theorem State.updElem_fab_wbs (s : State) (p : Nat) (f : Elem → Elem) : (State.updElem s p f).fab.wbs = s.fab.wbs := rfl
@[simp] theorem State.updElem_fab_flits (s : State) (p : Nat) (f : Elem → Elem) : (State.updElem s p f).fab.flits = s.fab.flits := rfl
@[simp] theorem State.updElem_fab_credRets (s : State) (p : Nat) (f : Elem → Elem) : (State.updElem s p f).fab.credRets = s.fab.credRets := rfl
@[simp] theorem State.updElem_fab_lanes (s : State) (p : Nat) (f : Elem → Elem) : (State.updElem s p f).fab.lanes = s.fab.lanes := rfl
@[simp] theorem State.updElem_fab_reqs (s : State) (p : Nat) (f : Elem → Elem) : (State.updElem s p f).fab.reqs = s.fab.reqs := rfl
@[simp] theorem State.updElem_fab_recs (s : State) (p : Nat) (f : Elem → Elem) : (State.updElem s p f).fab.recs = s.fab.recs := rfl
@[simp] theorem State.updElem_fab_fq (s : State) (p : Nat) (f : Elem → Elem) : (State.updElem s p f).fab.fq = s.fab.fq := rfl
@[simp] theorem State.updElem_fab_glitch (s : State) (p : Nat) (f : Elem → Elem) : (State.updElem s p f).fab.glitch = s.fab.glitch := rfl
@[simp] theorem State.updElem_regions (s : State) (p : Nat) (f : Elem → Elem) : (State.updElem s p f).regions = s.regions := rfl
@[simp] theorem State.updElem_rregs (s : State) (p : Nat) (f : Elem → Elem) : (State.updElem s p f).rregs = s.rregs := rfl
@[simp] theorem State.updElem_cores (s : State) (p : Nat) (f : Elem → Elem) : (State.updElem s p f).cores = s.cores := rfl
@[simp] theorem State.updElem_store (s : State) (p : Nat) (f : Elem → Elem) : (State.updElem s p f).store = s.store := rfl
@[simp] theorem State.updElem_dies (s : State) (p : Nat) (f : Elem → Elem) : (State.updElem s p f).dies = s.dies := rfl
@[simp] theorem State.updElem_pkg (s : State) (p : Nat) (f : Elem → Elem) : (State.updElem s p f).pkg = s.pkg := rfl
@[simp] theorem State.updElem_agenda (s : State) (p : Nat) (f : Elem → Elem) : (State.updElem s p f).agenda = s.agenda := rfl
@[simp] theorem State.updElem_part (s : State) (p : Nat) (f : Elem → Elem) : (State.updElem s p f).part = s.part := rfl
@[simp] theorem State.updElem_inputs (s : State) (p : Nat) (f : Elem → Elem) : (State.updElem s p f).inputs = s.inputs := rfl
@[simp] theorem State.updElem_cur (s : State) (p : Nat) (f : Elem → Elem) : (State.updElem s p f).cur = s.cur := rfl
@[simp] theorem State.updElem_uid (s : State) (p : Nat) (f : Elem → Elem) : (State.updElem s p f).uid = s.uid := rfl
@[simp] theorem State.updElem_free (s : State) (p : Nat) (f : Elem → Elem) : (State.updElem s p f).free = s.free := rfl

-- State.bump
@[simp] theorem State.bump_fab (s : State) : (State.bump s).fab = s.fab := rfl
@[simp] theorem State.bump_regions (s : State) : (State.bump s).regions = s.regions := rfl
@[simp] theorem State.bump_rregs (s : State) : (State.bump s).rregs = s.rregs := rfl
@[simp] theorem State.bump_cores (s : State) : (State.bump s).cores = s.cores := rfl
@[simp] theorem State.bump_store (s : State) : (State.bump s).store = s.store := rfl
@[simp] theorem State.bump_dies (s : State) : (State.bump s).dies = s.dies := rfl
@[simp] theorem State.bump_pkg (s : State) : (State.bump s).pkg = s.pkg := rfl
@[simp] theorem State.bump_agenda (s : State) : (State.bump s).agenda = s.agenda := rfl
@[simp] theorem State.bump_part (s : State) : (State.bump s).part = s.part := rfl
@[simp] theorem State.bump_inputs (s : State) : (State.bump s).inputs = s.inputs := rfl
@[simp] theorem State.bump_cur (s : State) : (State.bump s).cur = s.cur := rfl
@[simp] theorem State.bump_free (s : State) : (State.bump s).free = s.free := rfl

-- State.updReq
@[simp] theorem State.updReq_fab_elems (s : State) (id : Nat) (f : Req → Req) : (State.updReq s id f).fab.elems = s.fab.elems := rfl
@[simp] theorem State.updReq_fab_wbs (s : State) (id : Nat) (f : Req → Req) : (State.updReq s id f).fab.wbs = s.fab.wbs := rfl
@[simp] theorem State.updReq_fab_flits (s : State) (id : Nat) (f : Req → Req) : (State.updReq s id f).fab.flits = s.fab.flits := rfl
@[simp] theorem State.updReq_fab_credRets (s : State) (id : Nat) (f : Req → Req) : (State.updReq s id f).fab.credRets = s.fab.credRets := rfl
@[simp] theorem State.updReq_fab_lanes (s : State) (id : Nat) (f : Req → Req) : (State.updReq s id f).fab.lanes = s.fab.lanes := rfl
@[simp] theorem State.updReq_fab_recs (s : State) (id : Nat) (f : Req → Req) : (State.updReq s id f).fab.recs = s.fab.recs := rfl
@[simp] theorem State.updReq_fab_fq (s : State) (id : Nat) (f : Req → Req) : (State.updReq s id f).fab.fq = s.fab.fq := rfl
@[simp] theorem State.updReq_fab_glitch (s : State) (id : Nat) (f : Req → Req) : (State.updReq s id f).fab.glitch = s.fab.glitch := rfl
@[simp] theorem State.updReq_regions (s : State) (id : Nat) (f : Req → Req) : (State.updReq s id f).regions = s.regions := rfl
@[simp] theorem State.updReq_rregs (s : State) (id : Nat) (f : Req → Req) : (State.updReq s id f).rregs = s.rregs := rfl
@[simp] theorem State.updReq_cores (s : State) (id : Nat) (f : Req → Req) : (State.updReq s id f).cores = s.cores := rfl
@[simp] theorem State.updReq_store (s : State) (id : Nat) (f : Req → Req) : (State.updReq s id f).store = s.store := rfl
@[simp] theorem State.updReq_dies (s : State) (id : Nat) (f : Req → Req) : (State.updReq s id f).dies = s.dies := rfl
@[simp] theorem State.updReq_pkg (s : State) (id : Nat) (f : Req → Req) : (State.updReq s id f).pkg = s.pkg := rfl
@[simp] theorem State.updReq_agenda (s : State) (id : Nat) (f : Req → Req) : (State.updReq s id f).agenda = s.agenda := rfl
@[simp] theorem State.updReq_part (s : State) (id : Nat) (f : Req → Req) : (State.updReq s id f).part = s.part := rfl
@[simp] theorem State.updReq_inputs (s : State) (id : Nat) (f : Req → Req) : (State.updReq s id f).inputs = s.inputs := rfl
@[simp] theorem State.updReq_cur (s : State) (id : Nat) (f : Req → Req) : (State.updReq s id f).cur = s.cur := rfl
@[simp] theorem State.updReq_uid (s : State) (id : Nat) (f : Req → Req) : (State.updReq s id f).uid = s.uid := rfl
@[simp] theorem State.updReq_free (s : State) (id : Nat) (f : Req → Req) : (State.updReq s id f).free = s.free := rfl

-- State.dropReq
@[simp] theorem State.dropReq_fab_elems (s : State) (id : Nat) : (State.dropReq s id).fab.elems = s.fab.elems := rfl
@[simp] theorem State.dropReq_fab_wbs (s : State) (id : Nat) : (State.dropReq s id).fab.wbs = s.fab.wbs := rfl
@[simp] theorem State.dropReq_fab_flits (s : State) (id : Nat) : (State.dropReq s id).fab.flits = s.fab.flits := rfl
@[simp] theorem State.dropReq_fab_credRets (s : State) (id : Nat) : (State.dropReq s id).fab.credRets = s.fab.credRets := rfl
@[simp] theorem State.dropReq_fab_lanes (s : State) (id : Nat) : (State.dropReq s id).fab.lanes = s.fab.lanes := rfl
@[simp] theorem State.dropReq_fab_recs (s : State) (id : Nat) : (State.dropReq s id).fab.recs = s.fab.recs := rfl
@[simp] theorem State.dropReq_fab_fq (s : State) (id : Nat) : (State.dropReq s id).fab.fq = s.fab.fq := rfl
@[simp] theorem State.dropReq_fab_glitch (s : State) (id : Nat) : (State.dropReq s id).fab.glitch = s.fab.glitch := rfl
@[simp] theorem State.dropReq_regions (s : State) (id : Nat) : (State.dropReq s id).regions = s.regions := rfl
@[simp] theorem State.dropReq_rregs (s : State) (id : Nat) : (State.dropReq s id).rregs = s.rregs := rfl
@[simp] theorem State.dropReq_cores (s : State) (id : Nat) : (State.dropReq s id).cores = s.cores := rfl
@[simp] theorem State.dropReq_store (s : State) (id : Nat) : (State.dropReq s id).store = s.store := rfl
@[simp] theorem State.dropReq_dies (s : State) (id : Nat) : (State.dropReq s id).dies = s.dies := rfl
@[simp] theorem State.dropReq_pkg (s : State) (id : Nat) : (State.dropReq s id).pkg = s.pkg := rfl
@[simp] theorem State.dropReq_agenda (s : State) (id : Nat) : (State.dropReq s id).agenda = s.agenda := rfl
@[simp] theorem State.dropReq_part (s : State) (id : Nat) : (State.dropReq s id).part = s.part := rfl
@[simp] theorem State.dropReq_inputs (s : State) (id : Nat) : (State.dropReq s id).inputs = s.inputs := rfl
@[simp] theorem State.dropReq_cur (s : State) (id : Nat) : (State.dropReq s id).cur = s.cur := rfl
@[simp] theorem State.dropReq_uid (s : State) (id : Nat) : (State.dropReq s id).uid = s.uid := rfl
@[simp] theorem State.dropReq_free (s : State) (id : Nat) : (State.dropReq s id).free = s.free := rfl

-- State.updGang
@[simp] theorem State.updGang_fab (s : State) (g : Nat) (f : Gang → Gang) : (State.updGang s g f).fab = s.fab := rfl
@[simp] theorem State.updGang_regions (s : State) (g : Nat) (f : Gang → Gang) : (State.updGang s g f).regions = s.regions := rfl
@[simp] theorem State.updGang_rregs (s : State) (g : Nat) (f : Gang → Gang) : (State.updGang s g f).rregs = s.rregs := rfl
@[simp] theorem State.updGang_cores (s : State) (g : Nat) (f : Gang → Gang) : (State.updGang s g f).cores = s.cores := rfl
@[simp] theorem State.updGang_store (s : State) (g : Nat) (f : Gang → Gang) : (State.updGang s g f).store = s.store := rfl
@[simp] theorem State.updGang_dies_queues (s : State) (g : Nat) (f : Gang → Gang) : (State.updGang s g f).dies.queues = s.dies.queues := rfl
@[simp] theorem State.updGang_dies_inval (s : State) (g : Nat) (f : Gang → Gang) : (State.updGang s g f).dies.inval = s.dies.inval := rfl
@[simp] theorem State.updGang_dies_fills (s : State) (g : Nat) (f : Gang → Gang) : (State.updGang s g f).dies.fills = s.dies.fills := rfl
@[simp] theorem State.updGang_dies_slotQ (s : State) (g : Nat) (f : Gang → Gang) : (State.updGang s g f).dies.slotQ = s.dies.slotQ := rfl
@[simp] theorem State.updGang_dies_evicts (s : State) (g : Nat) (f : Gang → Gang) : (State.updGang s g f).dies.evicts = s.dies.evicts := rfl
@[simp] theorem State.updGang_dies_dispIn (s : State) (g : Nat) (f : Gang → Gang) : (State.updGang s g f).dies.dispIn = s.dies.dispIn := rfl
@[simp] theorem State.updGang_dies_dispWait (s : State) (g : Nat) (f : Gang → Gang) : (State.updGang s g f).dies.dispWait = s.dies.dispWait := rfl
@[simp] theorem State.updGang_dies_collIn (s : State) (g : Nat) (f : Gang → Gang) : (State.updGang s g f).dies.collIn = s.dies.collIn := rfl
@[simp] theorem State.updGang_dies_tptr (s : State) (g : Nat) (f : Gang → Gang) : (State.updGang s g f).dies.tptr = s.dies.tptr := rfl
@[simp] theorem State.updGang_dies_accepted (s : State) (g : Nat) (f : Gang → Gang) : (State.updGang s g f).dies.accepted = s.dies.accepted := rfl
@[simp] theorem State.updGang_dies_order (s : State) (g : Nat) (f : Gang → Gang) : (State.updGang s g f).dies.order = s.dies.order := rfl
@[simp] theorem State.updGang_dies_due (s : State) (g : Nat) (f : Gang → Gang) : (State.updGang s g f).dies.due = s.dies.due := rfl
@[simp] theorem State.updGang_dies_colls (s : State) (g : Nat) (f : Gang → Gang) : (State.updGang s g f).dies.colls = s.dies.colls := rfl
@[simp] theorem State.updGang_dies_contribs (s : State) (g : Nat) (f : Gang → Gang) : (State.updGang s g f).dies.contribs = s.dies.contribs := rfl
@[simp] theorem State.updGang_dies_walks (s : State) (g : Nat) (f : Gang → Gang) : (State.updGang s g f).dies.walks = s.dies.walks := rfl
@[simp] theorem State.updGang_pkg (s : State) (g : Nat) (f : Gang → Gang) : (State.updGang s g f).pkg = s.pkg := rfl
@[simp] theorem State.updGang_agenda (s : State) (g : Nat) (f : Gang → Gang) : (State.updGang s g f).agenda = s.agenda := rfl
@[simp] theorem State.updGang_part (s : State) (g : Nat) (f : Gang → Gang) : (State.updGang s g f).part = s.part := rfl
@[simp] theorem State.updGang_inputs (s : State) (g : Nat) (f : Gang → Gang) : (State.updGang s g f).inputs = s.inputs := rfl
@[simp] theorem State.updGang_cur (s : State) (g : Nat) (f : Gang → Gang) : (State.updGang s g f).cur = s.cur := rfl
@[simp] theorem State.updGang_uid (s : State) (g : Nat) (f : Gang → Gang) : (State.updGang s g f).uid = s.uid := rfl
@[simp] theorem State.updGang_free (s : State) (g : Nat) (f : Gang → Gang) : (State.updGang s g f).free = s.free := rfl

-- State.giveRec
@[simp] theorem State.giveRec_fab_elems (s : State) (c : CtxId) (core ring : Nat) (frozen : List Nat) (r : Rec) : (State.giveRec s c core ring frozen r).fab.elems = s.fab.elems := rfl
@[simp] theorem State.giveRec_fab_wbs (s : State) (c : CtxId) (core ring : Nat) (frozen : List Nat) (r : Rec) : (State.giveRec s c core ring frozen r).fab.wbs = s.fab.wbs := rfl
@[simp] theorem State.giveRec_fab_flits (s : State) (c : CtxId) (core ring : Nat) (frozen : List Nat) (r : Rec) : (State.giveRec s c core ring frozen r).fab.flits = s.fab.flits := rfl
@[simp] theorem State.giveRec_fab_credRets (s : State) (c : CtxId) (core ring : Nat) (frozen : List Nat) (r : Rec) : (State.giveRec s c core ring frozen r).fab.credRets = s.fab.credRets := rfl
@[simp] theorem State.giveRec_fab_lanes (s : State) (c : CtxId) (core ring : Nat) (frozen : List Nat) (r : Rec) : (State.giveRec s c core ring frozen r).fab.lanes = s.fab.lanes := rfl
@[simp] theorem State.giveRec_fab_reqs (s : State) (c : CtxId) (core ring : Nat) (frozen : List Nat) (r : Rec) : (State.giveRec s c core ring frozen r).fab.reqs = s.fab.reqs := rfl
@[simp] theorem State.giveRec_fab_fq (s : State) (c : CtxId) (core ring : Nat) (frozen : List Nat) (r : Rec) : (State.giveRec s c core ring frozen r).fab.fq = s.fab.fq := rfl
@[simp] theorem State.giveRec_fab_glitch (s : State) (c : CtxId) (core ring : Nat) (frozen : List Nat) (r : Rec) : (State.giveRec s c core ring frozen r).fab.glitch = s.fab.glitch := rfl
@[simp] theorem State.giveRec_regions (s : State) (c : CtxId) (core ring : Nat) (frozen : List Nat) (r : Rec) : (State.giveRec s c core ring frozen r).regions = s.regions := rfl
@[simp] theorem State.giveRec_rregs (s : State) (c : CtxId) (core ring : Nat) (frozen : List Nat) (r : Rec) : (State.giveRec s c core ring frozen r).rregs = s.rregs := rfl
@[simp] theorem State.giveRec_cores (s : State) (c : CtxId) (core ring : Nat) (frozen : List Nat) (r : Rec) : (State.giveRec s c core ring frozen r).cores = s.cores := rfl
@[simp] theorem State.giveRec_store (s : State) (c : CtxId) (core ring : Nat) (frozen : List Nat) (r : Rec) : (State.giveRec s c core ring frozen r).store = s.store := rfl
@[simp] theorem State.giveRec_dies (s : State) (c : CtxId) (core ring : Nat) (frozen : List Nat) (r : Rec) : (State.giveRec s c core ring frozen r).dies = s.dies := rfl
@[simp] theorem State.giveRec_pkg (s : State) (c : CtxId) (core ring : Nat) (frozen : List Nat) (r : Rec) : (State.giveRec s c core ring frozen r).pkg = s.pkg := rfl
@[simp] theorem State.giveRec_agenda (s : State) (c : CtxId) (core ring : Nat) (frozen : List Nat) (r : Rec) : (State.giveRec s c core ring frozen r).agenda = s.agenda := rfl
@[simp] theorem State.giveRec_part (s : State) (c : CtxId) (core ring : Nat) (frozen : List Nat) (r : Rec) : (State.giveRec s c core ring frozen r).part = s.part := rfl
@[simp] theorem State.giveRec_inputs (s : State) (c : CtxId) (core ring : Nat) (frozen : List Nat) (r : Rec) : (State.giveRec s c core ring frozen r).inputs = s.inputs := rfl
@[simp] theorem State.giveRec_cur (s : State) (c : CtxId) (core ring : Nat) (frozen : List Nat) (r : Rec) : (State.giveRec s c core ring frozen r).cur = s.cur := rfl
@[simp] theorem State.giveRec_free (s : State) (c : CtxId) (core ring : Nat) (frozen : List Nat) (r : Rec) : (State.giveRec s c core ring frozen r).free = s.free := rfl

-- State.bootFails
@[simp] theorem State.bootFails_fab (s : State) (step : Nat) (refused : Bool) : (State.bootFails s step refused).fab = s.fab := rfl
@[simp] theorem State.bootFails_regions (s : State) (step : Nat) (refused : Bool) : (State.bootFails s step refused).regions = s.regions := rfl
@[simp] theorem State.bootFails_rregs (s : State) (step : Nat) (refused : Bool) : (State.bootFails s step refused).rregs = s.rregs := rfl
@[simp] theorem State.bootFails_cores (s : State) (step : Nat) (refused : Bool) : (State.bootFails s step refused).cores = s.cores := rfl
@[simp] theorem State.bootFails_store (s : State) (step : Nat) (refused : Bool) : (State.bootFails s step refused).store = s.store := rfl
@[simp] theorem State.bootFails_dies (s : State) (step : Nat) (refused : Bool) : (State.bootFails s step refused).dies = s.dies := rfl
@[simp] theorem State.bootFails_pkg_links (s : State) (step : Nat) (refused : Bool) : (State.bootFails s step refused).pkg.links = s.pkg.links := rfl
@[simp] theorem State.bootFails_pkg_ports (s : State) (step : Nat) (refused : Bool) : (State.bootFails s step refused).pkg.ports = s.pkg.ports := rfl
@[simp] theorem State.bootFails_pkg_subs (s : State) (step : Nat) (refused : Bool) : (State.bootFails s step refused).pkg.subs = s.pkg.subs := rfl
@[simp] theorem State.bootFails_pkg_msix (s : State) (step : Nat) (refused : Bool) : (State.bootFails s step refused).pkg.msix = s.pkg.msix := rfl
@[simp] theorem State.bootFails_pkg_ats (s : State) (step : Nat) (refused : Bool) : (State.bootFails s step refused).pkg.ats = s.pkg.ats := rfl
@[simp] theorem State.bootFails_pkg_hostMem (s : State) (step : Nat) (refused : Bool) : (State.bootFails s step refused).pkg.hostMem = s.pkg.hostMem := rfl
@[simp] theorem State.bootFails_pkg_farMem (s : State) (step : Nat) (refused : Bool) : (State.bootFails s step refused).pkg.farMem = s.pkg.farMem := rfl
@[simp] theorem State.bootFails_pkg_mmio (s : State) (step : Nat) (refused : Bool) : (State.bootFails s step refused).pkg.mmio = s.pkg.mmio := rfl
@[simp] theorem State.bootFails_pkg_cyc (s : State) (step : Nat) (refused : Bool) : (State.bootFails s step refused).pkg.cyc = s.pkg.cyc := rfl
@[simp] theorem State.bootFails_pkg_net (s : State) (step : Nat) (refused : Bool) : (State.bootFails s step refused).pkg.net = s.pkg.net := rfl
@[simp] theorem State.bootFails_pkg_throttle (s : State) (step : Nat) (refused : Bool) : (State.bootFails s step refused).pkg.throttle = s.pkg.throttle := rfl
@[simp] theorem State.bootFails_pkg_hot (s : State) (step : Nat) (refused : Bool) : (State.bootFails s step refused).pkg.hot = s.pkg.hot := rfl
@[simp] theorem State.bootFails_pkg_temps (s : State) (step : Nat) (refused : Bool) : (State.bootFails s step refused).pkg.temps = s.pkg.temps := rfl
@[simp] theorem State.bootFails_pkg_peaks (s : State) (step : Nat) (refused : Bool) : (State.bootFails s step refused).pkg.peaks = s.pkg.peaks := rfl
@[simp] theorem State.bootFails_pkg_skipped (s : State) (step : Nat) (refused : Bool) : (State.bootFails s step refused).pkg.skipped = s.pkg.skipped := rfl
@[simp] theorem State.bootFails_pkg_skips (s : State) (step : Nat) (refused : Bool) : (State.bootFails s step refused).pkg.skips = s.pkg.skips := rfl
@[simp] theorem State.bootFails_pkg_now (s : State) (step : Nat) (refused : Bool) : (State.bootFails s step refused).pkg.now = s.pkg.now := rfl
@[simp] theorem State.bootFails_pkg_powered (s : State) (step : Nat) (refused : Bool) : (State.bootFails s step refused).pkg.powered = s.pkg.powered := rfl
@[simp] theorem State.bootFails_pkg_identity (s : State) (step : Nat) (refused : Bool) : (State.bootFails s step refused).pkg.identity = s.pkg.identity := rfl
@[simp] theorem State.bootFails_pkg_tripped (s : State) (step : Nat) (refused : Bool) : (State.bootFails s step refused).pkg.tripped = s.pkg.tripped := rfl
@[simp] theorem State.bootFails_pkg_fuse (s : State) (step : Nat) (refused : Bool) : (State.bootFails s step refused).pkg.fuse = s.pkg.fuse := rfl
@[simp] theorem State.bootFails_pkg_rootHash (s : State) (step : Nat) (refused : Bool) : (State.bootFails s step refused).pkg.rootHash = s.pkg.rootHash := rfl
@[simp] theorem State.bootFails_pkg_images (s : State) (step : Nat) (refused : Bool) : (State.bootFails s step refused).pkg.images = s.pkg.images := rfl
@[simp] theorem State.bootFails_pkg_chain (s : State) (step : Nat) (refused : Bool) : (State.bootFails s step refused).pkg.chain = s.pkg.chain := rfl
@[simp] theorem State.bootFails_pkg_amps (s : State) (step : Nat) (refused : Bool) : (State.bootFails s step refused).pkg.amps = s.pkg.amps := rfl
@[simp] theorem State.bootFails_pkg_config (s : State) (step : Nat) (refused : Bool) : (State.bootFails s step refused).pkg.config = s.pkg.config := rfl
@[simp] theorem State.bootFails_pkg_debugUsed (s : State) (step : Nat) (refused : Bool) : (State.bootFails s step refused).pkg.debugUsed = s.pkg.debugUsed := rfl
@[simp] theorem State.bootFails_pkg_errors (s : State) (step : Nat) (refused : Bool) : (State.bootFails s step refused).pkg.errors = s.pkg.errors := rfl
@[simp] theorem State.bootFails_pkg_out (s : State) (step : Nat) (refused : Bool) : (State.bootFails s step refused).pkg.out = s.pkg.out := rfl
@[simp] theorem State.bootFails_pkg_held (s : State) (step : Nat) (refused : Bool) : (State.bootFails s step refused).pkg.held = s.pkg.held := rfl
@[simp] theorem State.bootFails_pkg_farOut (s : State) (step : Nat) (refused : Bool) : (State.bootFails s step refused).pkg.farOut = s.pkg.farOut := rfl
@[simp] theorem State.bootFails_pkg_farIn (s : State) (step : Nat) (refused : Bool) : (State.bootFails s step refused).pkg.farIn = s.pkg.farIn := rfl
@[simp] theorem State.bootFails_agenda (s : State) (step : Nat) (refused : Bool) : (State.bootFails s step refused).agenda = s.agenda := rfl
@[simp] theorem State.bootFails_part (s : State) (step : Nat) (refused : Bool) : (State.bootFails s step refused).part = s.part := rfl
@[simp] theorem State.bootFails_inputs (s : State) (step : Nat) (refused : Bool) : (State.bootFails s step refused).inputs = s.inputs := rfl
@[simp] theorem State.bootFails_cur (s : State) (step : Nat) (refused : Bool) : (State.bootFails s step refused).cur = s.cur := rfl
@[simp] theorem State.bootFails_uid (s : State) (step : Nat) (refused : Bool) : (State.bootFails s step refused).uid = s.uid := rfl
@[simp] theorem State.bootFails_free (s : State) (step : Nat) (refused : Bool) : (State.bootFails s step refused).free = s.free := rfl

-- State.trainLinks
@[simp] theorem State.trainLinks_fab (s : State) : (State.trainLinks s).fab = s.fab := rfl
@[simp] theorem State.trainLinks_regions (s : State) : (State.trainLinks s).regions = s.regions := rfl
@[simp] theorem State.trainLinks_rregs (s : State) : (State.trainLinks s).rregs = s.rregs := rfl
@[simp] theorem State.trainLinks_cores (s : State) : (State.trainLinks s).cores = s.cores := rfl
@[simp] theorem State.trainLinks_store (s : State) : (State.trainLinks s).store = s.store := rfl
@[simp] theorem State.trainLinks_dies (s : State) : (State.trainLinks s).dies = s.dies := rfl
@[simp] theorem State.trainLinks_pkg_subs (s : State) : (State.trainLinks s).pkg.subs = s.pkg.subs := rfl
@[simp] theorem State.trainLinks_pkg_msix (s : State) : (State.trainLinks s).pkg.msix = s.pkg.msix := rfl
@[simp] theorem State.trainLinks_pkg_ats (s : State) : (State.trainLinks s).pkg.ats = s.pkg.ats := rfl
@[simp] theorem State.trainLinks_pkg_hostMem (s : State) : (State.trainLinks s).pkg.hostMem = s.pkg.hostMem := rfl
@[simp] theorem State.trainLinks_pkg_farMem (s : State) : (State.trainLinks s).pkg.farMem = s.pkg.farMem := rfl
@[simp] theorem State.trainLinks_pkg_mmio (s : State) : (State.trainLinks s).pkg.mmio = s.pkg.mmio := rfl
@[simp] theorem State.trainLinks_pkg_cyc (s : State) : (State.trainLinks s).pkg.cyc = s.pkg.cyc := rfl
@[simp] theorem State.trainLinks_pkg_net (s : State) : (State.trainLinks s).pkg.net = s.pkg.net := rfl
@[simp] theorem State.trainLinks_pkg_throttle (s : State) : (State.trainLinks s).pkg.throttle = s.pkg.throttle := rfl
@[simp] theorem State.trainLinks_pkg_hot (s : State) : (State.trainLinks s).pkg.hot = s.pkg.hot := rfl
@[simp] theorem State.trainLinks_pkg_temps (s : State) : (State.trainLinks s).pkg.temps = s.pkg.temps := rfl
@[simp] theorem State.trainLinks_pkg_peaks (s : State) : (State.trainLinks s).pkg.peaks = s.pkg.peaks := rfl
@[simp] theorem State.trainLinks_pkg_skipped (s : State) : (State.trainLinks s).pkg.skipped = s.pkg.skipped := rfl
@[simp] theorem State.trainLinks_pkg_skips (s : State) : (State.trainLinks s).pkg.skips = s.pkg.skips := rfl
@[simp] theorem State.trainLinks_pkg_now (s : State) : (State.trainLinks s).pkg.now = s.pkg.now := rfl
@[simp] theorem State.trainLinks_pkg_powered (s : State) : (State.trainLinks s).pkg.powered = s.pkg.powered := rfl
@[simp] theorem State.trainLinks_pkg_boot (s : State) : (State.trainLinks s).pkg.boot = s.pkg.boot := rfl
@[simp] theorem State.trainLinks_pkg_bootErr (s : State) : (State.trainLinks s).pkg.bootErr = s.pkg.bootErr := rfl
@[simp] theorem State.trainLinks_pkg_identity (s : State) : (State.trainLinks s).pkg.identity = s.pkg.identity := rfl
@[simp] theorem State.trainLinks_pkg_tripped (s : State) : (State.trainLinks s).pkg.tripped = s.pkg.tripped := rfl
@[simp] theorem State.trainLinks_pkg_life (s : State) : (State.trainLinks s).pkg.life = s.pkg.life := rfl
@[simp] theorem State.trainLinks_pkg_flash (s : State) : (State.trainLinks s).pkg.flash = s.pkg.flash := rfl
@[simp] theorem State.trainLinks_pkg_fuse (s : State) : (State.trainLinks s).pkg.fuse = s.pkg.fuse := rfl
@[simp] theorem State.trainLinks_pkg_rootHash (s : State) : (State.trainLinks s).pkg.rootHash = s.pkg.rootHash := rfl
@[simp] theorem State.trainLinks_pkg_images (s : State) : (State.trainLinks s).pkg.images = s.pkg.images := rfl
@[simp] theorem State.trainLinks_pkg_chain (s : State) : (State.trainLinks s).pkg.chain = s.pkg.chain := rfl
@[simp] theorem State.trainLinks_pkg_amps (s : State) : (State.trainLinks s).pkg.amps = s.pkg.amps := rfl
@[simp] theorem State.trainLinks_pkg_config (s : State) : (State.trainLinks s).pkg.config = s.pkg.config := rfl
@[simp] theorem State.trainLinks_pkg_debugUsed (s : State) : (State.trainLinks s).pkg.debugUsed = s.pkg.debugUsed := rfl
@[simp] theorem State.trainLinks_pkg_errors (s : State) : (State.trainLinks s).pkg.errors = s.pkg.errors := rfl
@[simp] theorem State.trainLinks_pkg_out (s : State) : (State.trainLinks s).pkg.out = s.pkg.out := rfl
@[simp] theorem State.trainLinks_pkg_held (s : State) : (State.trainLinks s).pkg.held = s.pkg.held := rfl
@[simp] theorem State.trainLinks_pkg_farOut (s : State) : (State.trainLinks s).pkg.farOut = s.pkg.farOut := rfl
@[simp] theorem State.trainLinks_pkg_farIn (s : State) : (State.trainLinks s).pkg.farIn = s.pkg.farIn := rfl
@[simp] theorem State.trainLinks_agenda (s : State) : (State.trainLinks s).agenda = s.agenda := rfl
@[simp] theorem State.trainLinks_part (s : State) : (State.trainLinks s).part = s.part := rfl
@[simp] theorem State.trainLinks_inputs (s : State) : (State.trainLinks s).inputs = s.inputs := rfl
@[simp] theorem State.trainLinks_cur (s : State) : (State.trainLinks s).cur = s.cur := rfl
@[simp] theorem State.trainLinks_uid (s : State) : (State.trainLinks s).uid = s.uid := rfl
@[simp] theorem State.trainLinks_free (s : State) : (State.trainLinks s).free = s.free := rfl

-- State.slower
@[simp] theorem State.slower_fab (s : State) (die : Nat) : (State.slower s die).fab = s.fab := rfl
@[simp] theorem State.slower_regions (s : State) (die : Nat) : (State.slower s die).regions = s.regions := rfl
@[simp] theorem State.slower_rregs (s : State) (die : Nat) : (State.slower s die).rregs = s.rregs := rfl
@[simp] theorem State.slower_cores (s : State) (die : Nat) : (State.slower s die).cores = s.cores := rfl
@[simp] theorem State.slower_store (s : State) (die : Nat) : (State.slower s die).store = s.store := rfl
@[simp] theorem State.slower_dies (s : State) (die : Nat) : (State.slower s die).dies = s.dies := rfl
@[simp] theorem State.slower_pkg_links (s : State) (die : Nat) : (State.slower s die).pkg.links = s.pkg.links := rfl
@[simp] theorem State.slower_pkg_ports (s : State) (die : Nat) : (State.slower s die).pkg.ports = s.pkg.ports := rfl
@[simp] theorem State.slower_pkg_subs (s : State) (die : Nat) : (State.slower s die).pkg.subs = s.pkg.subs := rfl
@[simp] theorem State.slower_pkg_msix (s : State) (die : Nat) : (State.slower s die).pkg.msix = s.pkg.msix := rfl
@[simp] theorem State.slower_pkg_ats (s : State) (die : Nat) : (State.slower s die).pkg.ats = s.pkg.ats := rfl
@[simp] theorem State.slower_pkg_hostMem (s : State) (die : Nat) : (State.slower s die).pkg.hostMem = s.pkg.hostMem := rfl
@[simp] theorem State.slower_pkg_farMem (s : State) (die : Nat) : (State.slower s die).pkg.farMem = s.pkg.farMem := rfl
@[simp] theorem State.slower_pkg_mmio (s : State) (die : Nat) : (State.slower s die).pkg.mmio = s.pkg.mmio := rfl
@[simp] theorem State.slower_pkg_cyc (s : State) (die : Nat) : (State.slower s die).pkg.cyc = s.pkg.cyc := rfl
@[simp] theorem State.slower_pkg_net (s : State) (die : Nat) : (State.slower s die).pkg.net = s.pkg.net := rfl
@[simp] theorem State.slower_pkg_hot (s : State) (die : Nat) : (State.slower s die).pkg.hot = s.pkg.hot := rfl
@[simp] theorem State.slower_pkg_temps (s : State) (die : Nat) : (State.slower s die).pkg.temps = s.pkg.temps := rfl
@[simp] theorem State.slower_pkg_peaks (s : State) (die : Nat) : (State.slower s die).pkg.peaks = s.pkg.peaks := rfl
@[simp] theorem State.slower_pkg_skipped (s : State) (die : Nat) : (State.slower s die).pkg.skipped = s.pkg.skipped := rfl
@[simp] theorem State.slower_pkg_skips (s : State) (die : Nat) : (State.slower s die).pkg.skips = s.pkg.skips := rfl
@[simp] theorem State.slower_pkg_now (s : State) (die : Nat) : (State.slower s die).pkg.now = s.pkg.now := rfl
@[simp] theorem State.slower_pkg_powered (s : State) (die : Nat) : (State.slower s die).pkg.powered = s.pkg.powered := rfl
@[simp] theorem State.slower_pkg_boot (s : State) (die : Nat) : (State.slower s die).pkg.boot = s.pkg.boot := rfl
@[simp] theorem State.slower_pkg_bootErr (s : State) (die : Nat) : (State.slower s die).pkg.bootErr = s.pkg.bootErr := rfl
@[simp] theorem State.slower_pkg_identity (s : State) (die : Nat) : (State.slower s die).pkg.identity = s.pkg.identity := rfl
@[simp] theorem State.slower_pkg_tripped (s : State) (die : Nat) : (State.slower s die).pkg.tripped = s.pkg.tripped := rfl
@[simp] theorem State.slower_pkg_life (s : State) (die : Nat) : (State.slower s die).pkg.life = s.pkg.life := rfl
@[simp] theorem State.slower_pkg_flash (s : State) (die : Nat) : (State.slower s die).pkg.flash = s.pkg.flash := rfl
@[simp] theorem State.slower_pkg_fuse (s : State) (die : Nat) : (State.slower s die).pkg.fuse = s.pkg.fuse := rfl
@[simp] theorem State.slower_pkg_rootHash (s : State) (die : Nat) : (State.slower s die).pkg.rootHash = s.pkg.rootHash := rfl
@[simp] theorem State.slower_pkg_images (s : State) (die : Nat) : (State.slower s die).pkg.images = s.pkg.images := rfl
@[simp] theorem State.slower_pkg_chain (s : State) (die : Nat) : (State.slower s die).pkg.chain = s.pkg.chain := rfl
@[simp] theorem State.slower_pkg_amps (s : State) (die : Nat) : (State.slower s die).pkg.amps = s.pkg.amps := rfl
@[simp] theorem State.slower_pkg_config (s : State) (die : Nat) : (State.slower s die).pkg.config = s.pkg.config := rfl
@[simp] theorem State.slower_pkg_debugUsed (s : State) (die : Nat) : (State.slower s die).pkg.debugUsed = s.pkg.debugUsed := rfl
@[simp] theorem State.slower_pkg_errors (s : State) (die : Nat) : (State.slower s die).pkg.errors = s.pkg.errors := rfl
@[simp] theorem State.slower_pkg_out (s : State) (die : Nat) : (State.slower s die).pkg.out = s.pkg.out := rfl
@[simp] theorem State.slower_pkg_held (s : State) (die : Nat) : (State.slower s die).pkg.held = s.pkg.held := rfl
@[simp] theorem State.slower_pkg_farOut (s : State) (die : Nat) : (State.slower s die).pkg.farOut = s.pkg.farOut := rfl
@[simp] theorem State.slower_pkg_farIn (s : State) (die : Nat) : (State.slower s die).pkg.farIn = s.pkg.farIn := rfl
@[simp] theorem State.slower_agenda (s : State) (die : Nat) : (State.slower s die).agenda = s.agenda := rfl
@[simp] theorem State.slower_part (s : State) (die : Nat) : (State.slower s die).part = s.part := rfl
@[simp] theorem State.slower_inputs (s : State) (die : Nat) : (State.slower s die).inputs = s.inputs := rfl
@[simp] theorem State.slower_cur (s : State) (die : Nat) : (State.slower s die).cur = s.cur := rfl
@[simp] theorem State.slower_uid (s : State) (die : Nat) : (State.slower s die).uid = s.uid := rfl
@[simp] theorem State.slower_free (s : State) (die : Nat) : (State.slower s die).free = s.free := rfl

-- State.saveLife
@[simp] theorem State.saveLife_fab (s : State) : (State.saveLife s).fab = s.fab := rfl
@[simp] theorem State.saveLife_regions (s : State) : (State.saveLife s).regions = s.regions := rfl
@[simp] theorem State.saveLife_rregs (s : State) : (State.saveLife s).rregs = s.rregs := rfl
@[simp] theorem State.saveLife_cores (s : State) : (State.saveLife s).cores = s.cores := rfl
@[simp] theorem State.saveLife_store (s : State) : (State.saveLife s).store = s.store := rfl
@[simp] theorem State.saveLife_dies (s : State) : (State.saveLife s).dies = s.dies := rfl
@[simp] theorem State.saveLife_pkg_links (s : State) : (State.saveLife s).pkg.links = s.pkg.links := rfl
@[simp] theorem State.saveLife_pkg_ports (s : State) : (State.saveLife s).pkg.ports = s.pkg.ports := rfl
@[simp] theorem State.saveLife_pkg_subs (s : State) : (State.saveLife s).pkg.subs = s.pkg.subs := rfl
@[simp] theorem State.saveLife_pkg_msix (s : State) : (State.saveLife s).pkg.msix = s.pkg.msix := rfl
@[simp] theorem State.saveLife_pkg_ats (s : State) : (State.saveLife s).pkg.ats = s.pkg.ats := rfl
@[simp] theorem State.saveLife_pkg_hostMem (s : State) : (State.saveLife s).pkg.hostMem = s.pkg.hostMem := rfl
@[simp] theorem State.saveLife_pkg_farMem (s : State) : (State.saveLife s).pkg.farMem = s.pkg.farMem := rfl
@[simp] theorem State.saveLife_pkg_mmio (s : State) : (State.saveLife s).pkg.mmio = s.pkg.mmio := rfl
@[simp] theorem State.saveLife_pkg_cyc (s : State) : (State.saveLife s).pkg.cyc = s.pkg.cyc := rfl
@[simp] theorem State.saveLife_pkg_net (s : State) : (State.saveLife s).pkg.net = s.pkg.net := rfl
@[simp] theorem State.saveLife_pkg_throttle (s : State) : (State.saveLife s).pkg.throttle = s.pkg.throttle := rfl
@[simp] theorem State.saveLife_pkg_hot (s : State) : (State.saveLife s).pkg.hot = s.pkg.hot := rfl
@[simp] theorem State.saveLife_pkg_temps (s : State) : (State.saveLife s).pkg.temps = s.pkg.temps := rfl
@[simp] theorem State.saveLife_pkg_peaks (s : State) : (State.saveLife s).pkg.peaks = s.pkg.peaks := rfl
@[simp] theorem State.saveLife_pkg_skipped (s : State) : (State.saveLife s).pkg.skipped = s.pkg.skipped := rfl
@[simp] theorem State.saveLife_pkg_skips (s : State) : (State.saveLife s).pkg.skips = s.pkg.skips := rfl
@[simp] theorem State.saveLife_pkg_now (s : State) : (State.saveLife s).pkg.now = s.pkg.now := rfl
@[simp] theorem State.saveLife_pkg_powered (s : State) : (State.saveLife s).pkg.powered = s.pkg.powered := rfl
@[simp] theorem State.saveLife_pkg_boot (s : State) : (State.saveLife s).pkg.boot = s.pkg.boot := rfl
@[simp] theorem State.saveLife_pkg_bootErr (s : State) : (State.saveLife s).pkg.bootErr = s.pkg.bootErr := rfl
@[simp] theorem State.saveLife_pkg_identity (s : State) : (State.saveLife s).pkg.identity = s.pkg.identity := rfl
@[simp] theorem State.saveLife_pkg_tripped (s : State) : (State.saveLife s).pkg.tripped = s.pkg.tripped := rfl
@[simp] theorem State.saveLife_pkg_life (s : State) : (State.saveLife s).pkg.life = s.pkg.life := rfl
@[simp] theorem State.saveLife_pkg_fuse (s : State) : (State.saveLife s).pkg.fuse = s.pkg.fuse := rfl
@[simp] theorem State.saveLife_pkg_rootHash (s : State) : (State.saveLife s).pkg.rootHash = s.pkg.rootHash := rfl
@[simp] theorem State.saveLife_pkg_images (s : State) : (State.saveLife s).pkg.images = s.pkg.images := rfl
@[simp] theorem State.saveLife_pkg_chain (s : State) : (State.saveLife s).pkg.chain = s.pkg.chain := rfl
@[simp] theorem State.saveLife_pkg_amps (s : State) : (State.saveLife s).pkg.amps = s.pkg.amps := rfl
@[simp] theorem State.saveLife_pkg_config (s : State) : (State.saveLife s).pkg.config = s.pkg.config := rfl
@[simp] theorem State.saveLife_pkg_debugUsed (s : State) : (State.saveLife s).pkg.debugUsed = s.pkg.debugUsed := rfl
@[simp] theorem State.saveLife_pkg_errors (s : State) : (State.saveLife s).pkg.errors = s.pkg.errors := rfl
@[simp] theorem State.saveLife_pkg_out (s : State) : (State.saveLife s).pkg.out = s.pkg.out := rfl
@[simp] theorem State.saveLife_pkg_held (s : State) : (State.saveLife s).pkg.held = s.pkg.held := rfl
@[simp] theorem State.saveLife_pkg_farOut (s : State) : (State.saveLife s).pkg.farOut = s.pkg.farOut := rfl
@[simp] theorem State.saveLife_pkg_farIn (s : State) : (State.saveLife s).pkg.farIn = s.pkg.farIn := rfl
@[simp] theorem State.saveLife_agenda (s : State) : (State.saveLife s).agenda = s.agenda := rfl
@[simp] theorem State.saveLife_part (s : State) : (State.saveLife s).part = s.part := rfl
@[simp] theorem State.saveLife_inputs (s : State) : (State.saveLife s).inputs = s.inputs := rfl
@[simp] theorem State.saveLife_cur (s : State) : (State.saveLife s).cur = s.cur := rfl
@[simp] theorem State.saveLife_uid (s : State) : (State.saveLife s).uid = s.uid := rfl
@[simp] theorem State.saveLife_free (s : State) : (State.saveLife s).free = s.free := rfl

-- State.said
@[simp] theorem State.said_fab (s : State) (o : Out) : (State.said s o).fab = s.fab := rfl
@[simp] theorem State.said_regions (s : State) (o : Out) : (State.said s o).regions = s.regions := rfl
@[simp] theorem State.said_rregs (s : State) (o : Out) : (State.said s o).rregs = s.rregs := rfl
@[simp] theorem State.said_cores (s : State) (o : Out) : (State.said s o).cores = s.cores := rfl
@[simp] theorem State.said_store (s : State) (o : Out) : (State.said s o).store = s.store := rfl
@[simp] theorem State.said_dies (s : State) (o : Out) : (State.said s o).dies = s.dies := rfl
@[simp] theorem State.said_pkg_links (s : State) (o : Out) : (State.said s o).pkg.links = s.pkg.links := rfl
@[simp] theorem State.said_pkg_ports (s : State) (o : Out) : (State.said s o).pkg.ports = s.pkg.ports := rfl
@[simp] theorem State.said_pkg_subs (s : State) (o : Out) : (State.said s o).pkg.subs = s.pkg.subs := rfl
@[simp] theorem State.said_pkg_msix (s : State) (o : Out) : (State.said s o).pkg.msix = s.pkg.msix := rfl
@[simp] theorem State.said_pkg_ats (s : State) (o : Out) : (State.said s o).pkg.ats = s.pkg.ats := rfl
@[simp] theorem State.said_pkg_hostMem (s : State) (o : Out) : (State.said s o).pkg.hostMem = s.pkg.hostMem := rfl
@[simp] theorem State.said_pkg_farMem (s : State) (o : Out) : (State.said s o).pkg.farMem = s.pkg.farMem := rfl
@[simp] theorem State.said_pkg_mmio (s : State) (o : Out) : (State.said s o).pkg.mmio = s.pkg.mmio := rfl
@[simp] theorem State.said_pkg_cyc (s : State) (o : Out) : (State.said s o).pkg.cyc = s.pkg.cyc := rfl
@[simp] theorem State.said_pkg_net (s : State) (o : Out) : (State.said s o).pkg.net = s.pkg.net := rfl
@[simp] theorem State.said_pkg_throttle (s : State) (o : Out) : (State.said s o).pkg.throttle = s.pkg.throttle := rfl
@[simp] theorem State.said_pkg_hot (s : State) (o : Out) : (State.said s o).pkg.hot = s.pkg.hot := rfl
@[simp] theorem State.said_pkg_temps (s : State) (o : Out) : (State.said s o).pkg.temps = s.pkg.temps := rfl
@[simp] theorem State.said_pkg_peaks (s : State) (o : Out) : (State.said s o).pkg.peaks = s.pkg.peaks := rfl
@[simp] theorem State.said_pkg_skipped (s : State) (o : Out) : (State.said s o).pkg.skipped = s.pkg.skipped := rfl
@[simp] theorem State.said_pkg_skips (s : State) (o : Out) : (State.said s o).pkg.skips = s.pkg.skips := rfl
@[simp] theorem State.said_pkg_now (s : State) (o : Out) : (State.said s o).pkg.now = s.pkg.now := rfl
@[simp] theorem State.said_pkg_powered (s : State) (o : Out) : (State.said s o).pkg.powered = s.pkg.powered := rfl
@[simp] theorem State.said_pkg_boot (s : State) (o : Out) : (State.said s o).pkg.boot = s.pkg.boot := rfl
@[simp] theorem State.said_pkg_bootErr (s : State) (o : Out) : (State.said s o).pkg.bootErr = s.pkg.bootErr := rfl
@[simp] theorem State.said_pkg_identity (s : State) (o : Out) : (State.said s o).pkg.identity = s.pkg.identity := rfl
@[simp] theorem State.said_pkg_tripped (s : State) (o : Out) : (State.said s o).pkg.tripped = s.pkg.tripped := rfl
@[simp] theorem State.said_pkg_life (s : State) (o : Out) : (State.said s o).pkg.life = s.pkg.life := rfl
@[simp] theorem State.said_pkg_flash (s : State) (o : Out) : (State.said s o).pkg.flash = s.pkg.flash := rfl
@[simp] theorem State.said_pkg_fuse (s : State) (o : Out) : (State.said s o).pkg.fuse = s.pkg.fuse := rfl
@[simp] theorem State.said_pkg_rootHash (s : State) (o : Out) : (State.said s o).pkg.rootHash = s.pkg.rootHash := rfl
@[simp] theorem State.said_pkg_images (s : State) (o : Out) : (State.said s o).pkg.images = s.pkg.images := rfl
@[simp] theorem State.said_pkg_chain (s : State) (o : Out) : (State.said s o).pkg.chain = s.pkg.chain := rfl
@[simp] theorem State.said_pkg_amps (s : State) (o : Out) : (State.said s o).pkg.amps = s.pkg.amps := rfl
@[simp] theorem State.said_pkg_config (s : State) (o : Out) : (State.said s o).pkg.config = s.pkg.config := rfl
@[simp] theorem State.said_pkg_debugUsed (s : State) (o : Out) : (State.said s o).pkg.debugUsed = s.pkg.debugUsed := rfl
@[simp] theorem State.said_pkg_errors (s : State) (o : Out) : (State.said s o).pkg.errors = s.pkg.errors := rfl
@[simp] theorem State.said_pkg_held (s : State) (o : Out) : (State.said s o).pkg.held = s.pkg.held := rfl
@[simp] theorem State.said_pkg_farOut (s : State) (o : Out) : (State.said s o).pkg.farOut = s.pkg.farOut := rfl
@[simp] theorem State.said_pkg_farIn (s : State) (o : Out) : (State.said s o).pkg.farIn = s.pkg.farIn := rfl
@[simp] theorem State.said_agenda (s : State) (o : Out) : (State.said s o).agenda = s.agenda := rfl
@[simp] theorem State.said_part (s : State) (o : Out) : (State.said s o).part = s.part := rfl
@[simp] theorem State.said_inputs (s : State) (o : Out) : (State.said s o).inputs = s.inputs := rfl
@[simp] theorem State.said_cur (s : State) (o : Out) : (State.said s o).cur = s.cur := rfl
@[simp] theorem State.said_uid (s : State) (o : Out) : (State.said s o).uid = s.uid := rfl

-- State.updJob
@[simp] theorem State.updJob_fab (s : State) (core slot : Nat) (f : Job → Job) : (State.updJob s core slot f).fab = s.fab := rfl
@[simp] theorem State.updJob_regions (s : State) (core slot : Nat) (f : Job → Job) : (State.updJob s core slot f).regions = s.regions := rfl
@[simp] theorem State.updJob_rregs (s : State) (core slot : Nat) (f : Job → Job) : (State.updJob s core slot f).rregs = s.rregs := rfl
@[simp] theorem State.updJob_cores_seqs (s : State) (core slot : Nat) (f : Job → Job) : (State.updJob s core slot f).cores.seqs = s.cores.seqs := rfl
@[simp] theorem State.updJob_cores_sems (s : State) (core slot : Nat) (f : Job → Job) : (State.updJob s core slot f).cores.sems = s.cores.sems := rfl
@[simp] theorem State.updJob_cores_bars (s : State) (core slot : Nat) (f : Job → Job) : (State.updJob s core slot f).cores.bars = s.cores.bars := rfl
@[simp] theorem State.updJob_cores_syncs (s : State) (core slot : Nat) (f : Job → Job) : (State.updJob s core slot f).cores.syncs = s.cores.syncs := rfl
@[simp] theorem State.updJob_cores_copyIn (s : State) (core slot : Nat) (f : Job → Job) : (State.updJob s core slot f).cores.copyIn = s.cores.copyIn := rfl
@[simp] theorem State.updJob_cores_jobSerial (s : State) (core slot : Nat) (f : Job → Job) : (State.updJob s core slot f).cores.jobSerial = s.cores.jobSerial := rfl
@[simp] theorem State.updJob_cores_tlb (s : State) (core slot : Nat) (f : Job → Job) : (State.updJob s core slot f).cores.tlb = s.cores.tlb := rfl
@[simp] theorem State.updJob_cores_going (s : State) (core slot : Nat) (f : Job → Job) : (State.updJob s core slot f).cores.going = s.cores.going := rfl
@[simp] theorem State.updJob_cores_loads (s : State) (core slot : Nat) (f : Job → Job) : (State.updJob s core slot f).cores.loads = s.cores.loads := rfl
@[simp] theorem State.updJob_cores_sweeps (s : State) (core slot : Nat) (f : Job → Job) : (State.updJob s core slot f).cores.sweeps = s.cores.sweeps := rfl
@[simp] theorem State.updJob_cores_serials (s : State) (core slot : Nat) (f : Job → Job) : (State.updJob s core slot f).cores.serials = s.cores.serials := rfl
@[simp] theorem State.updJob_store (s : State) (core slot : Nat) (f : Job → Job) : (State.updJob s core slot f).store = s.store := rfl
@[simp] theorem State.updJob_dies (s : State) (core slot : Nat) (f : Job → Job) : (State.updJob s core slot f).dies = s.dies := rfl
@[simp] theorem State.updJob_pkg (s : State) (core slot : Nat) (f : Job → Job) : (State.updJob s core slot f).pkg = s.pkg := rfl
@[simp] theorem State.updJob_agenda (s : State) (core slot : Nat) (f : Job → Job) : (State.updJob s core slot f).agenda = s.agenda := rfl
@[simp] theorem State.updJob_part (s : State) (core slot : Nat) (f : Job → Job) : (State.updJob s core slot f).part = s.part := rfl
@[simp] theorem State.updJob_inputs (s : State) (core slot : Nat) (f : Job → Job) : (State.updJob s core slot f).inputs = s.inputs := rfl
@[simp] theorem State.updJob_cur (s : State) (core slot : Nat) (f : Job → Job) : (State.updJob s core slot f).cur = s.cur := rfl
@[simp] theorem State.updJob_uid (s : State) (core slot : Nat) (f : Job → Job) : (State.updJob s core slot f).uid = s.uid := rfl
@[simp] theorem State.updJob_free (s : State) (core slot : Nat) (f : Job → Job) : (State.updJob s core slot f).free = s.free := rfl

-- State.updFill
@[simp] theorem State.updFill_fab (s : State) (key : Nat) (f : Fill → Fill) : (State.updFill s key f).fab = s.fab := rfl
@[simp] theorem State.updFill_regions (s : State) (key : Nat) (f : Fill → Fill) : (State.updFill s key f).regions = s.regions := rfl
@[simp] theorem State.updFill_rregs (s : State) (key : Nat) (f : Fill → Fill) : (State.updFill s key f).rregs = s.rregs := rfl
@[simp] theorem State.updFill_cores (s : State) (key : Nat) (f : Fill → Fill) : (State.updFill s key f).cores = s.cores := rfl
@[simp] theorem State.updFill_store (s : State) (key : Nat) (f : Fill → Fill) : (State.updFill s key f).store = s.store := rfl
@[simp] theorem State.updFill_dies_queues (s : State) (key : Nat) (f : Fill → Fill) : (State.updFill s key f).dies.queues = s.dies.queues := rfl
@[simp] theorem State.updFill_dies_inval (s : State) (key : Nat) (f : Fill → Fill) : (State.updFill s key f).dies.inval = s.dies.inval := rfl
@[simp] theorem State.updFill_dies_slotQ (s : State) (key : Nat) (f : Fill → Fill) : (State.updFill s key f).dies.slotQ = s.dies.slotQ := rfl
@[simp] theorem State.updFill_dies_evicts (s : State) (key : Nat) (f : Fill → Fill) : (State.updFill s key f).dies.evicts = s.dies.evicts := rfl
@[simp] theorem State.updFill_dies_dispIn (s : State) (key : Nat) (f : Fill → Fill) : (State.updFill s key f).dies.dispIn = s.dies.dispIn := rfl
@[simp] theorem State.updFill_dies_dispWait (s : State) (key : Nat) (f : Fill → Fill) : (State.updFill s key f).dies.dispWait = s.dies.dispWait := rfl
@[simp] theorem State.updFill_dies_collIn (s : State) (key : Nat) (f : Fill → Fill) : (State.updFill s key f).dies.collIn = s.dies.collIn := rfl
@[simp] theorem State.updFill_dies_tptr (s : State) (key : Nat) (f : Fill → Fill) : (State.updFill s key f).dies.tptr = s.dies.tptr := rfl
@[simp] theorem State.updFill_dies_accepted (s : State) (key : Nat) (f : Fill → Fill) : (State.updFill s key f).dies.accepted = s.dies.accepted := rfl
@[simp] theorem State.updFill_dies_gangs (s : State) (key : Nat) (f : Fill → Fill) : (State.updFill s key f).dies.gangs = s.dies.gangs := rfl
@[simp] theorem State.updFill_dies_order (s : State) (key : Nat) (f : Fill → Fill) : (State.updFill s key f).dies.order = s.dies.order := rfl
@[simp] theorem State.updFill_dies_due (s : State) (key : Nat) (f : Fill → Fill) : (State.updFill s key f).dies.due = s.dies.due := rfl
@[simp] theorem State.updFill_dies_colls (s : State) (key : Nat) (f : Fill → Fill) : (State.updFill s key f).dies.colls = s.dies.colls := rfl
@[simp] theorem State.updFill_dies_contribs (s : State) (key : Nat) (f : Fill → Fill) : (State.updFill s key f).dies.contribs = s.dies.contribs := rfl
@[simp] theorem State.updFill_dies_walks (s : State) (key : Nat) (f : Fill → Fill) : (State.updFill s key f).dies.walks = s.dies.walks := rfl
@[simp] theorem State.updFill_pkg (s : State) (key : Nat) (f : Fill → Fill) : (State.updFill s key f).pkg = s.pkg := rfl
@[simp] theorem State.updFill_agenda (s : State) (key : Nat) (f : Fill → Fill) : (State.updFill s key f).agenda = s.agenda := rfl
@[simp] theorem State.updFill_part (s : State) (key : Nat) (f : Fill → Fill) : (State.updFill s key f).part = s.part := rfl
@[simp] theorem State.updFill_inputs (s : State) (key : Nat) (f : Fill → Fill) : (State.updFill s key f).inputs = s.inputs := rfl
@[simp] theorem State.updFill_cur (s : State) (key : Nat) (f : Fill → Fill) : (State.updFill s key f).cur = s.cur := rfl
@[simp] theorem State.updFill_uid (s : State) (key : Nat) (f : Fill → Fill) : (State.updFill s key f).uid = s.uid := rfl
@[simp] theorem State.updFill_free (s : State) (key : Nat) (f : Fill → Fill) : (State.updFill s key f).free = s.free := rfl

-- State.updSem
@[simp] theorem State.updSem_fab (s : State) (core n : Nat) (f : Sem → Sem) : (State.updSem s core n f).fab = s.fab := rfl
@[simp] theorem State.updSem_regions (s : State) (core n : Nat) (f : Sem → Sem) : (State.updSem s core n f).regions = s.regions := rfl
@[simp] theorem State.updSem_rregs (s : State) (core n : Nat) (f : Sem → Sem) : (State.updSem s core n f).rregs = s.rregs := rfl
@[simp] theorem State.updSem_cores_seqs (s : State) (core n : Nat) (f : Sem → Sem) : (State.updSem s core n f).cores.seqs = s.cores.seqs := rfl
@[simp] theorem State.updSem_cores_bars (s : State) (core n : Nat) (f : Sem → Sem) : (State.updSem s core n f).cores.bars = s.cores.bars := rfl
@[simp] theorem State.updSem_cores_syncs (s : State) (core n : Nat) (f : Sem → Sem) : (State.updSem s core n f).cores.syncs = s.cores.syncs := rfl
@[simp] theorem State.updSem_cores_copyIn (s : State) (core n : Nat) (f : Sem → Sem) : (State.updSem s core n f).cores.copyIn = s.cores.copyIn := rfl
@[simp] theorem State.updSem_cores_jobs (s : State) (core n : Nat) (f : Sem → Sem) : (State.updSem s core n f).cores.jobs = s.cores.jobs := rfl
@[simp] theorem State.updSem_cores_jobSerial (s : State) (core n : Nat) (f : Sem → Sem) : (State.updSem s core n f).cores.jobSerial = s.cores.jobSerial := rfl
@[simp] theorem State.updSem_cores_tlb (s : State) (core n : Nat) (f : Sem → Sem) : (State.updSem s core n f).cores.tlb = s.cores.tlb := rfl
@[simp] theorem State.updSem_cores_going (s : State) (core n : Nat) (f : Sem → Sem) : (State.updSem s core n f).cores.going = s.cores.going := rfl
@[simp] theorem State.updSem_cores_loads (s : State) (core n : Nat) (f : Sem → Sem) : (State.updSem s core n f).cores.loads = s.cores.loads := rfl
@[simp] theorem State.updSem_cores_sweeps (s : State) (core n : Nat) (f : Sem → Sem) : (State.updSem s core n f).cores.sweeps = s.cores.sweeps := rfl
@[simp] theorem State.updSem_cores_serials (s : State) (core n : Nat) (f : Sem → Sem) : (State.updSem s core n f).cores.serials = s.cores.serials := rfl
@[simp] theorem State.updSem_store (s : State) (core n : Nat) (f : Sem → Sem) : (State.updSem s core n f).store = s.store := rfl
@[simp] theorem State.updSem_dies (s : State) (core n : Nat) (f : Sem → Sem) : (State.updSem s core n f).dies = s.dies := rfl
@[simp] theorem State.updSem_pkg (s : State) (core n : Nat) (f : Sem → Sem) : (State.updSem s core n f).pkg = s.pkg := rfl
@[simp] theorem State.updSem_agenda (s : State) (core n : Nat) (f : Sem → Sem) : (State.updSem s core n f).agenda = s.agenda := rfl
@[simp] theorem State.updSem_part (s : State) (core n : Nat) (f : Sem → Sem) : (State.updSem s core n f).part = s.part := rfl
@[simp] theorem State.updSem_inputs (s : State) (core n : Nat) (f : Sem → Sem) : (State.updSem s core n f).inputs = s.inputs := rfl
@[simp] theorem State.updSem_cur (s : State) (core n : Nat) (f : Sem → Sem) : (State.updSem s core n f).cur = s.cur := rfl
@[simp] theorem State.updSem_uid (s : State) (core n : Nat) (f : Sem → Sem) : (State.updSem s core n f).uid = s.uid := rfl
@[simp] theorem State.updSem_free (s : State) (core n : Nat) (f : Sem → Sem) : (State.updSem s core n f).free = s.free := rfl

-- State.updBar
@[simp] theorem State.updBar_fab (s : State) (core n : Nat) (f : Bar → Bar) : (State.updBar s core n f).fab = s.fab := rfl
@[simp] theorem State.updBar_regions (s : State) (core n : Nat) (f : Bar → Bar) : (State.updBar s core n f).regions = s.regions := rfl
@[simp] theorem State.updBar_rregs (s : State) (core n : Nat) (f : Bar → Bar) : (State.updBar s core n f).rregs = s.rregs := rfl
@[simp] theorem State.updBar_cores_seqs (s : State) (core n : Nat) (f : Bar → Bar) : (State.updBar s core n f).cores.seqs = s.cores.seqs := rfl
@[simp] theorem State.updBar_cores_sems (s : State) (core n : Nat) (f : Bar → Bar) : (State.updBar s core n f).cores.sems = s.cores.sems := rfl
@[simp] theorem State.updBar_cores_syncs (s : State) (core n : Nat) (f : Bar → Bar) : (State.updBar s core n f).cores.syncs = s.cores.syncs := rfl
@[simp] theorem State.updBar_cores_copyIn (s : State) (core n : Nat) (f : Bar → Bar) : (State.updBar s core n f).cores.copyIn = s.cores.copyIn := rfl
@[simp] theorem State.updBar_cores_jobs (s : State) (core n : Nat) (f : Bar → Bar) : (State.updBar s core n f).cores.jobs = s.cores.jobs := rfl
@[simp] theorem State.updBar_cores_jobSerial (s : State) (core n : Nat) (f : Bar → Bar) : (State.updBar s core n f).cores.jobSerial = s.cores.jobSerial := rfl
@[simp] theorem State.updBar_cores_tlb (s : State) (core n : Nat) (f : Bar → Bar) : (State.updBar s core n f).cores.tlb = s.cores.tlb := rfl
@[simp] theorem State.updBar_cores_going (s : State) (core n : Nat) (f : Bar → Bar) : (State.updBar s core n f).cores.going = s.cores.going := rfl
@[simp] theorem State.updBar_cores_loads (s : State) (core n : Nat) (f : Bar → Bar) : (State.updBar s core n f).cores.loads = s.cores.loads := rfl
@[simp] theorem State.updBar_cores_sweeps (s : State) (core n : Nat) (f : Bar → Bar) : (State.updBar s core n f).cores.sweeps = s.cores.sweeps := rfl
@[simp] theorem State.updBar_cores_serials (s : State) (core n : Nat) (f : Bar → Bar) : (State.updBar s core n f).cores.serials = s.cores.serials := rfl
@[simp] theorem State.updBar_store (s : State) (core n : Nat) (f : Bar → Bar) : (State.updBar s core n f).store = s.store := rfl
@[simp] theorem State.updBar_dies (s : State) (core n : Nat) (f : Bar → Bar) : (State.updBar s core n f).dies = s.dies := rfl
@[simp] theorem State.updBar_pkg (s : State) (core n : Nat) (f : Bar → Bar) : (State.updBar s core n f).pkg = s.pkg := rfl
@[simp] theorem State.updBar_agenda (s : State) (core n : Nat) (f : Bar → Bar) : (State.updBar s core n f).agenda = s.agenda := rfl
@[simp] theorem State.updBar_part (s : State) (core n : Nat) (f : Bar → Bar) : (State.updBar s core n f).part = s.part := rfl
@[simp] theorem State.updBar_inputs (s : State) (core n : Nat) (f : Bar → Bar) : (State.updBar s core n f).inputs = s.inputs := rfl
@[simp] theorem State.updBar_cur (s : State) (core n : Nat) (f : Bar → Bar) : (State.updBar s core n f).cur = s.cur := rfl
@[simp] theorem State.updBar_uid (s : State) (core n : Nat) (f : Bar → Bar) : (State.updBar s core n f).uid = s.uid := rfl
@[simp] theorem State.updBar_free (s : State) (core n : Nat) (f : Bar → Bar) : (State.updBar s core n f).free = s.free := rfl

-- State.testBars
@[simp] theorem State.testBars_fab (s : State) : (State.testBars s).fab = s.fab := rfl
@[simp] theorem State.testBars_regions (s : State) : (State.testBars s).regions = s.regions := rfl
@[simp] theorem State.testBars_rregs (s : State) : (State.testBars s).rregs = s.rregs := rfl
@[simp] theorem State.testBars_cores_seqs (s : State) : (State.testBars s).cores.seqs = s.cores.seqs := rfl
@[simp] theorem State.testBars_cores_sems (s : State) : (State.testBars s).cores.sems = s.cores.sems := rfl
@[simp] theorem State.testBars_cores_syncs (s : State) : (State.testBars s).cores.syncs = s.cores.syncs := rfl
@[simp] theorem State.testBars_cores_copyIn (s : State) : (State.testBars s).cores.copyIn = s.cores.copyIn := rfl
@[simp] theorem State.testBars_cores_jobs (s : State) : (State.testBars s).cores.jobs = s.cores.jobs := rfl
@[simp] theorem State.testBars_cores_jobSerial (s : State) : (State.testBars s).cores.jobSerial = s.cores.jobSerial := rfl
@[simp] theorem State.testBars_cores_tlb (s : State) : (State.testBars s).cores.tlb = s.cores.tlb := rfl
@[simp] theorem State.testBars_cores_going (s : State) : (State.testBars s).cores.going = s.cores.going := rfl
@[simp] theorem State.testBars_cores_loads (s : State) : (State.testBars s).cores.loads = s.cores.loads := rfl
@[simp] theorem State.testBars_cores_sweeps (s : State) : (State.testBars s).cores.sweeps = s.cores.sweeps := rfl
@[simp] theorem State.testBars_cores_serials (s : State) : (State.testBars s).cores.serials = s.cores.serials := rfl
@[simp] theorem State.testBars_store (s : State) : (State.testBars s).store = s.store := rfl
@[simp] theorem State.testBars_dies (s : State) : (State.testBars s).dies = s.dies := rfl
@[simp] theorem State.testBars_pkg (s : State) : (State.testBars s).pkg = s.pkg := rfl
@[simp] theorem State.testBars_agenda (s : State) : (State.testBars s).agenda = s.agenda := rfl
@[simp] theorem State.testBars_part (s : State) : (State.testBars s).part = s.part := rfl
@[simp] theorem State.testBars_inputs (s : State) : (State.testBars s).inputs = s.inputs := rfl
@[simp] theorem State.testBars_cur (s : State) : (State.testBars s).cur = s.cur := rfl
@[simp] theorem State.testBars_uid (s : State) : (State.testBars s).uid = s.uid := rfl
@[simp] theorem State.testBars_free (s : State) : (State.testBars s).free = s.free := rfl

-- sendSystolic
@[simp] theorem sendSystolic_fab (p : Packet) (s : State) : (sendSystolic p s).fab = s.fab := rfl
@[simp] theorem sendSystolic_regions (p : Packet) (s : State) : (sendSystolic p s).regions = s.regions := rfl
@[simp] theorem sendSystolic_rregs (p : Packet) (s : State) : (sendSystolic p s).rregs = s.rregs := rfl
@[simp] theorem sendSystolic_cores_seqs (p : Packet) (s : State) : (sendSystolic p s).cores.seqs = s.cores.seqs := rfl
@[simp] theorem sendSystolic_cores_sems (p : Packet) (s : State) : (sendSystolic p s).cores.sems = s.cores.sems := rfl
@[simp] theorem sendSystolic_cores_bars (p : Packet) (s : State) : (sendSystolic p s).cores.bars = s.cores.bars := rfl
@[simp] theorem sendSystolic_cores_syncs (p : Packet) (s : State) : (sendSystolic p s).cores.syncs = s.cores.syncs := rfl
@[simp] theorem sendSystolic_cores_copyIn (p : Packet) (s : State) : (sendSystolic p s).cores.copyIn = s.cores.copyIn := rfl
@[simp] theorem sendSystolic_cores_jobs (p : Packet) (s : State) : (sendSystolic p s).cores.jobs = s.cores.jobs := rfl
@[simp] theorem sendSystolic_cores_jobSerial (p : Packet) (s : State) : (sendSystolic p s).cores.jobSerial = s.cores.jobSerial := rfl
@[simp] theorem sendSystolic_cores_tlb (p : Packet) (s : State) : (sendSystolic p s).cores.tlb = s.cores.tlb := rfl
@[simp] theorem sendSystolic_cores_loads (p : Packet) (s : State) : (sendSystolic p s).cores.loads = s.cores.loads := rfl
@[simp] theorem sendSystolic_cores_sweeps (p : Packet) (s : State) : (sendSystolic p s).cores.sweeps = s.cores.sweeps := rfl
@[simp] theorem sendSystolic_cores_serials (p : Packet) (s : State) : (sendSystolic p s).cores.serials = s.cores.serials := rfl
@[simp] theorem sendSystolic_store (p : Packet) (s : State) : (sendSystolic p s).store = s.store := rfl
@[simp] theorem sendSystolic_dies (p : Packet) (s : State) : (sendSystolic p s).dies = s.dies := rfl
@[simp] theorem sendSystolic_pkg (p : Packet) (s : State) : (sendSystolic p s).pkg = s.pkg := rfl
@[simp] theorem sendSystolic_agenda (p : Packet) (s : State) : (sendSystolic p s).agenda = s.agenda := rfl
@[simp] theorem sendSystolic_part (p : Packet) (s : State) : (sendSystolic p s).part = s.part := rfl
@[simp] theorem sendSystolic_inputs (p : Packet) (s : State) : (sendSystolic p s).inputs = s.inputs := rfl
@[simp] theorem sendSystolic_cur (p : Packet) (s : State) : (sendSystolic p s).cur = s.cur := rfl
@[simp] theorem sendSystolic_uid (p : Packet) (s : State) : (sendSystolic p s).uid = s.uid := rfl
@[simp] theorem sendSystolic_free (p : Packet) (s : State) : (sendSystolic p s).free = s.free := rfl

-- State.updSweep
@[simp] theorem State.updSweep_fab (s : State) (id : Nat) (f : Sweep → Sweep) : (State.updSweep s id f).fab = s.fab := rfl
@[simp] theorem State.updSweep_regions (s : State) (id : Nat) (f : Sweep → Sweep) : (State.updSweep s id f).regions = s.regions := rfl
@[simp] theorem State.updSweep_rregs (s : State) (id : Nat) (f : Sweep → Sweep) : (State.updSweep s id f).rregs = s.rregs := rfl
@[simp] theorem State.updSweep_cores_seqs (s : State) (id : Nat) (f : Sweep → Sweep) : (State.updSweep s id f).cores.seqs = s.cores.seqs := rfl
@[simp] theorem State.updSweep_cores_sems (s : State) (id : Nat) (f : Sweep → Sweep) : (State.updSweep s id f).cores.sems = s.cores.sems := rfl
@[simp] theorem State.updSweep_cores_bars (s : State) (id : Nat) (f : Sweep → Sweep) : (State.updSweep s id f).cores.bars = s.cores.bars := rfl
@[simp] theorem State.updSweep_cores_syncs (s : State) (id : Nat) (f : Sweep → Sweep) : (State.updSweep s id f).cores.syncs = s.cores.syncs := rfl
@[simp] theorem State.updSweep_cores_copyIn (s : State) (id : Nat) (f : Sweep → Sweep) : (State.updSweep s id f).cores.copyIn = s.cores.copyIn := rfl
@[simp] theorem State.updSweep_cores_jobs (s : State) (id : Nat) (f : Sweep → Sweep) : (State.updSweep s id f).cores.jobs = s.cores.jobs := rfl
@[simp] theorem State.updSweep_cores_jobSerial (s : State) (id : Nat) (f : Sweep → Sweep) : (State.updSweep s id f).cores.jobSerial = s.cores.jobSerial := rfl
@[simp] theorem State.updSweep_cores_tlb (s : State) (id : Nat) (f : Sweep → Sweep) : (State.updSweep s id f).cores.tlb = s.cores.tlb := rfl
@[simp] theorem State.updSweep_cores_going (s : State) (id : Nat) (f : Sweep → Sweep) : (State.updSweep s id f).cores.going = s.cores.going := rfl
@[simp] theorem State.updSweep_cores_loads (s : State) (id : Nat) (f : Sweep → Sweep) : (State.updSweep s id f).cores.loads = s.cores.loads := rfl
@[simp] theorem State.updSweep_cores_serials (s : State) (id : Nat) (f : Sweep → Sweep) : (State.updSweep s id f).cores.serials = s.cores.serials := rfl
@[simp] theorem State.updSweep_store (s : State) (id : Nat) (f : Sweep → Sweep) : (State.updSweep s id f).store = s.store := rfl
@[simp] theorem State.updSweep_dies (s : State) (id : Nat) (f : Sweep → Sweep) : (State.updSweep s id f).dies = s.dies := rfl
@[simp] theorem State.updSweep_pkg (s : State) (id : Nat) (f : Sweep → Sweep) : (State.updSweep s id f).pkg = s.pkg := rfl
@[simp] theorem State.updSweep_agenda (s : State) (id : Nat) (f : Sweep → Sweep) : (State.updSweep s id f).agenda = s.agenda := rfl
@[simp] theorem State.updSweep_part (s : State) (id : Nat) (f : Sweep → Sweep) : (State.updSweep s id f).part = s.part := rfl
@[simp] theorem State.updSweep_inputs (s : State) (id : Nat) (f : Sweep → Sweep) : (State.updSweep s id f).inputs = s.inputs := rfl
@[simp] theorem State.updSweep_cur (s : State) (id : Nat) (f : Sweep → Sweep) : (State.updSweep s id f).cur = s.cur := rfl
@[simp] theorem State.updSweep_uid (s : State) (id : Nat) (f : Sweep → Sweep) : (State.updSweep s id f).uid = s.uid := rfl
@[simp] theorem State.updSweep_free (s : State) (id : Nat) (f : Sweep → Sweep) : (State.updSweep s id f).free = s.free := rfl

-- State.dropWb
@[simp] theorem State.dropWb_fab_elems (s : State) (id : Nat) : (State.dropWb s id).fab.elems = s.fab.elems := rfl
@[simp] theorem State.dropWb_fab_flits (s : State) (id : Nat) : (State.dropWb s id).fab.flits = s.fab.flits := rfl
@[simp] theorem State.dropWb_fab_credRets (s : State) (id : Nat) : (State.dropWb s id).fab.credRets = s.fab.credRets := rfl
@[simp] theorem State.dropWb_fab_lanes (s : State) (id : Nat) : (State.dropWb s id).fab.lanes = s.fab.lanes := rfl
@[simp] theorem State.dropWb_fab_reqs (s : State) (id : Nat) : (State.dropWb s id).fab.reqs = s.fab.reqs := rfl
@[simp] theorem State.dropWb_fab_recs (s : State) (id : Nat) : (State.dropWb s id).fab.recs = s.fab.recs := rfl
@[simp] theorem State.dropWb_fab_fq (s : State) (id : Nat) : (State.dropWb s id).fab.fq = s.fab.fq := rfl
@[simp] theorem State.dropWb_fab_glitch (s : State) (id : Nat) : (State.dropWb s id).fab.glitch = s.fab.glitch := rfl
@[simp] theorem State.dropWb_regions (s : State) (id : Nat) : (State.dropWb s id).regions = s.regions := rfl
@[simp] theorem State.dropWb_rregs (s : State) (id : Nat) : (State.dropWb s id).rregs = s.rregs := rfl
@[simp] theorem State.dropWb_cores (s : State) (id : Nat) : (State.dropWb s id).cores = s.cores := rfl
@[simp] theorem State.dropWb_store (s : State) (id : Nat) : (State.dropWb s id).store = s.store := rfl
@[simp] theorem State.dropWb_dies (s : State) (id : Nat) : (State.dropWb s id).dies = s.dies := rfl
@[simp] theorem State.dropWb_pkg (s : State) (id : Nat) : (State.dropWb s id).pkg = s.pkg := rfl
@[simp] theorem State.dropWb_agenda (s : State) (id : Nat) : (State.dropWb s id).agenda = s.agenda := rfl
@[simp] theorem State.dropWb_part (s : State) (id : Nat) : (State.dropWb s id).part = s.part := rfl
@[simp] theorem State.dropWb_inputs (s : State) (id : Nat) : (State.dropWb s id).inputs = s.inputs := rfl
@[simp] theorem State.dropWb_cur (s : State) (id : Nat) : (State.dropWb s id).cur = s.cur := rfl
@[simp] theorem State.dropWb_uid (s : State) (id : Nat) : (State.dropWb s id).uid = s.uid := rfl
@[simp] theorem State.dropWb_free (s : State) (id : Nat) : (State.dropWb s id).free = s.free := rfl

-- State.takeGlitch
@[simp] theorem State.takeGlitch_fab_elems (s : State) (key core : Nat) : (State.takeGlitch s key core).fab.elems = s.fab.elems := rfl
@[simp] theorem State.takeGlitch_fab_wbs (s : State) (key core : Nat) : (State.takeGlitch s key core).fab.wbs = s.fab.wbs := rfl
@[simp] theorem State.takeGlitch_fab_flits (s : State) (key core : Nat) : (State.takeGlitch s key core).fab.flits = s.fab.flits := rfl
@[simp] theorem State.takeGlitch_fab_credRets (s : State) (key core : Nat) : (State.takeGlitch s key core).fab.credRets = s.fab.credRets := rfl
@[simp] theorem State.takeGlitch_fab_lanes (s : State) (key core : Nat) : (State.takeGlitch s key core).fab.lanes = s.fab.lanes := rfl
@[simp] theorem State.takeGlitch_fab_reqs (s : State) (key core : Nat) : (State.takeGlitch s key core).fab.reqs = s.fab.reqs := rfl
@[simp] theorem State.takeGlitch_fab_recs (s : State) (key core : Nat) : (State.takeGlitch s key core).fab.recs = s.fab.recs := rfl
@[simp] theorem State.takeGlitch_fab_fq (s : State) (key core : Nat) : (State.takeGlitch s key core).fab.fq = s.fab.fq := rfl
@[simp] theorem State.takeGlitch_regions (s : State) (key core : Nat) : (State.takeGlitch s key core).regions = s.regions := rfl
@[simp] theorem State.takeGlitch_rregs (s : State) (key core : Nat) : (State.takeGlitch s key core).rregs = s.rregs := rfl
@[simp] theorem State.takeGlitch_cores (s : State) (key core : Nat) : (State.takeGlitch s key core).cores = s.cores := rfl
@[simp] theorem State.takeGlitch_store (s : State) (key core : Nat) : (State.takeGlitch s key core).store = s.store := rfl
@[simp] theorem State.takeGlitch_dies (s : State) (key core : Nat) : (State.takeGlitch s key core).dies = s.dies := rfl
@[simp] theorem State.takeGlitch_pkg_links (s : State) (key core : Nat) : (State.takeGlitch s key core).pkg.links = s.pkg.links := rfl
@[simp] theorem State.takeGlitch_pkg_ports (s : State) (key core : Nat) : (State.takeGlitch s key core).pkg.ports = s.pkg.ports := rfl
@[simp] theorem State.takeGlitch_pkg_subs (s : State) (key core : Nat) : (State.takeGlitch s key core).pkg.subs = s.pkg.subs := rfl
@[simp] theorem State.takeGlitch_pkg_msix (s : State) (key core : Nat) : (State.takeGlitch s key core).pkg.msix = s.pkg.msix := rfl
@[simp] theorem State.takeGlitch_pkg_ats (s : State) (key core : Nat) : (State.takeGlitch s key core).pkg.ats = s.pkg.ats := rfl
@[simp] theorem State.takeGlitch_pkg_hostMem (s : State) (key core : Nat) : (State.takeGlitch s key core).pkg.hostMem = s.pkg.hostMem := rfl
@[simp] theorem State.takeGlitch_pkg_farMem (s : State) (key core : Nat) : (State.takeGlitch s key core).pkg.farMem = s.pkg.farMem := rfl
@[simp] theorem State.takeGlitch_pkg_mmio (s : State) (key core : Nat) : (State.takeGlitch s key core).pkg.mmio = s.pkg.mmio := rfl
@[simp] theorem State.takeGlitch_pkg_cyc (s : State) (key core : Nat) : (State.takeGlitch s key core).pkg.cyc = s.pkg.cyc := rfl
@[simp] theorem State.takeGlitch_pkg_net (s : State) (key core : Nat) : (State.takeGlitch s key core).pkg.net = s.pkg.net := rfl
@[simp] theorem State.takeGlitch_pkg_throttle (s : State) (key core : Nat) : (State.takeGlitch s key core).pkg.throttle = s.pkg.throttle := rfl
@[simp] theorem State.takeGlitch_pkg_hot (s : State) (key core : Nat) : (State.takeGlitch s key core).pkg.hot = s.pkg.hot := rfl
@[simp] theorem State.takeGlitch_pkg_temps (s : State) (key core : Nat) : (State.takeGlitch s key core).pkg.temps = s.pkg.temps := rfl
@[simp] theorem State.takeGlitch_pkg_peaks (s : State) (key core : Nat) : (State.takeGlitch s key core).pkg.peaks = s.pkg.peaks := rfl
@[simp] theorem State.takeGlitch_pkg_skipped (s : State) (key core : Nat) : (State.takeGlitch s key core).pkg.skipped = s.pkg.skipped := rfl
@[simp] theorem State.takeGlitch_pkg_skips (s : State) (key core : Nat) : (State.takeGlitch s key core).pkg.skips = s.pkg.skips := rfl
@[simp] theorem State.takeGlitch_pkg_now (s : State) (key core : Nat) : (State.takeGlitch s key core).pkg.now = s.pkg.now := rfl
@[simp] theorem State.takeGlitch_pkg_powered (s : State) (key core : Nat) : (State.takeGlitch s key core).pkg.powered = s.pkg.powered := rfl
@[simp] theorem State.takeGlitch_pkg_boot (s : State) (key core : Nat) : (State.takeGlitch s key core).pkg.boot = s.pkg.boot := rfl
@[simp] theorem State.takeGlitch_pkg_bootErr (s : State) (key core : Nat) : (State.takeGlitch s key core).pkg.bootErr = s.pkg.bootErr := rfl
@[simp] theorem State.takeGlitch_pkg_identity (s : State) (key core : Nat) : (State.takeGlitch s key core).pkg.identity = s.pkg.identity := rfl
@[simp] theorem State.takeGlitch_pkg_tripped (s : State) (key core : Nat) : (State.takeGlitch s key core).pkg.tripped = s.pkg.tripped := rfl
@[simp] theorem State.takeGlitch_pkg_flash (s : State) (key core : Nat) : (State.takeGlitch s key core).pkg.flash = s.pkg.flash := rfl
@[simp] theorem State.takeGlitch_pkg_fuse (s : State) (key core : Nat) : (State.takeGlitch s key core).pkg.fuse = s.pkg.fuse := rfl
@[simp] theorem State.takeGlitch_pkg_rootHash (s : State) (key core : Nat) : (State.takeGlitch s key core).pkg.rootHash = s.pkg.rootHash := rfl
@[simp] theorem State.takeGlitch_pkg_images (s : State) (key core : Nat) : (State.takeGlitch s key core).pkg.images = s.pkg.images := rfl
@[simp] theorem State.takeGlitch_pkg_chain (s : State) (key core : Nat) : (State.takeGlitch s key core).pkg.chain = s.pkg.chain := rfl
@[simp] theorem State.takeGlitch_pkg_amps (s : State) (key core : Nat) : (State.takeGlitch s key core).pkg.amps = s.pkg.amps := rfl
@[simp] theorem State.takeGlitch_pkg_config (s : State) (key core : Nat) : (State.takeGlitch s key core).pkg.config = s.pkg.config := rfl
@[simp] theorem State.takeGlitch_pkg_debugUsed (s : State) (key core : Nat) : (State.takeGlitch s key core).pkg.debugUsed = s.pkg.debugUsed := rfl
@[simp] theorem State.takeGlitch_pkg_errors (s : State) (key core : Nat) : (State.takeGlitch s key core).pkg.errors = s.pkg.errors := rfl
@[simp] theorem State.takeGlitch_pkg_out (s : State) (key core : Nat) : (State.takeGlitch s key core).pkg.out = s.pkg.out := rfl
@[simp] theorem State.takeGlitch_pkg_held (s : State) (key core : Nat) : (State.takeGlitch s key core).pkg.held = s.pkg.held := rfl
@[simp] theorem State.takeGlitch_pkg_farOut (s : State) (key core : Nat) : (State.takeGlitch s key core).pkg.farOut = s.pkg.farOut := rfl
@[simp] theorem State.takeGlitch_pkg_farIn (s : State) (key core : Nat) : (State.takeGlitch s key core).pkg.farIn = s.pkg.farIn := rfl
@[simp] theorem State.takeGlitch_agenda (s : State) (key core : Nat) : (State.takeGlitch s key core).agenda = s.agenda := rfl
@[simp] theorem State.takeGlitch_part (s : State) (key core : Nat) : (State.takeGlitch s key core).part = s.part := rfl
@[simp] theorem State.takeGlitch_inputs (s : State) (key core : Nat) : (State.takeGlitch s key core).inputs = s.inputs := rfl
@[simp] theorem State.takeGlitch_cur (s : State) (key core : Nat) : (State.takeGlitch s key core).cur = s.cur := rfl
@[simp] theorem State.takeGlitch_uid (s : State) (key core : Nat) : (State.takeGlitch s key core).uid = s.uid := rfl
@[simp] theorem State.takeGlitch_free (s : State) (key core : Nat) : (State.takeGlitch s key core).free = s.free := rfl

end Sys2Proof.Machine
end

