-- ==== Sys2Proof/Tests/Slice0.lean ====
section
/-!
SUPPORT. Tests of the model: what the encodings and the worked examples of the spec say, and, for each statement with premises, a small state that
meets them.
-/

namespace Sys2Proof.Tests

open Sys2Proof.Machine Sys2Proof.Claims

-- One theorem at a time, so that the checks of many do not ask for their stacks at once.
set_option Elab.async false

-- Decoding: words put together field by field, as R50 to R52 and the tables of R63 to R69 give them.

/-- No condition. -/
def always : Guard := { pm := 0#8, pv := 0#8, c0 := .ignore, c1 := .ignore, c2 := .ignore, c3 := .ignore, colour := none, kind := .normal }
/-- d0, d1, d2 into d3. -/
def rule : Rule := { guard := always, a := .reg 0, b := .reg 1, c := .reg 2, dq := 0#4, om := 0#8, dst := some 3, pdst := none, imm := 0#16 }

/-- W1: OPC, FN, SA, SB, SC, DQ, TY. -/
def word1 (opc fn sa sb sc dq ty : Nat) : Word :=
  BitVec.ofNat 7 opc ++ BitVec.ofNat 5 fn ++ BitVec.ofNat 4 sa ++ BitVec.ofNat 4 sb ++ BitVec.ofNat 4 sc ++ BitVec.ofNat 4 dq ++ BitVec.ofNat 4 ty
/-- W2: OM, DE, DD, PE, PP, IMM16. -/
def word2 (om de dd pe pp imm : Nat) : Word :=
  BitVec.ofNat 8 om ++ BitVec.ofNat 1 de ++ BitVec.ofNat 3 dd ++ BitVec.ofNat 1 pe ++ BitVec.ofNat 3 pp ++ BitVec.ofNat 16 imm

/-- A row of the tables: OPC, FN, TY, how many sources it reads (codes 4 to 6 are d0 to d2), whether it writes d3, IMM16, and the instruction. -/
structure Row where
  opc : Nat
  fn : Nat
  ty : Nat
  n : Nat
  d : Nat
  imm : Nat
  i : Rule → Instr

def Row.holds (x : Row) : Bool :=
  let code (k : Nat) : Nat := if k < x.n then 4 + k else 0
  let src (k : Nat) : Src := if k < x.n then .reg (BitVec.ofNat 3 k) else .chan 0
  decide (decode 0#32 (word1 x.opc x.fn (code 0) (code 1) (code 2) 0 x.ty) (word2 0 x.d (3 * x.d) 0 0 x.imm) =
    .ok (x.i { rule with a := src 0, b := src 1, c := src 2, dst := if x.d = 1 then some 3 else none, imm := BitVec.ofNat 16 x.imm }))

def rows63 : List Row := [
  ⟨0x00, 0, 0, 0, 0, 0, .nop⟩, ⟨0x01, 0, 0, 1, 1, 0, .mov⟩, ⟨0x02, 0, 0, 1, 1, 0x1234, .movh⟩, ⟨0x03, 5, 0, 2, 1, 0, .sel 5⟩,
  ⟨0x04, 1, 4, 2, 1, 0, .iadd true .i8x4⟩, ⟨0x05, 0, 3, 2, 1, 0, .isub false .u16x2⟩, ⟨0x06, 1, 1, 2, 1, 0, .imul true .u32⟩,
  ⟨0x07, 0, 2, 3, 1, 0, .imad false .i16x2⟩, ⟨0x08, 0, 5, 2, 1, 0, .imin .u8x4⟩, ⟨0x09, 0, 0, 2, 1, 0, .imax .i32⟩,
  ⟨0x0A, 1, 2, 1, 1, 0, .iabs true .i16x2⟩, ⟨0x0B, 3, 1, 2, 1, 0, .iaddx 3 .u32⟩, ⟨0x0C, 0, 0, 2, 1, 0, .andw⟩, ⟨0x0D, 0, 0, 2, 1, 0, .orw⟩,
  ⟨0x0E, 0, 0, 2, 1, 0, .xorw⟩, ⟨0x0F, 0, 0, 2, 1, 0, .andnw⟩, ⟨0x10, 0, 0, 2, 1, 0, .shl⟩, ⟨0x11, 0, 0, 2, 1, 0, .shr⟩,
  ⟨0x12, 0, 0, 2, 1, 0, .sar⟩, ⟨0x13, 0, 0, 2, 1, 0, .rot⟩, ⟨0x14, 0, 0, 1, 1, 0, .clz⟩, ⟨0x15, 0, 0, 1, 1, 0, .popc⟩,
  ⟨0x16, 0, 0, 1, 1, 0, .brev⟩]
def rows63b : List Row := [
  ⟨0x17, 1, 0, 1, 1, 0x103, .bfx true⟩, ⟨0x18, 0, 0, 2, 1, 0x103, .bfi⟩, ⟨0x19, 3, 0, 2, 1, 0, .icmp .le .i32⟩,
  ⟨0x1A, 3, 0, 0, 1, 0x0A, .pset .andn⟩, ⟨0x1B, 0, 0, 1, 1, 7, .pget⟩, ⟨0x1C, 1, 1, 2, 1, 0, .idiv true .u32⟩, ⟨0x1D, 0, 0, 0, 1, 0x20, .sys⟩,
  ⟨0x1E, 0, 0, 0, 1, 3, .cntCh⟩, ⟨0x1E, 1, 0, 0, 1, 7, .cntCr⟩, ⟨0x1F, 1, 5, 3, 1, 0, .idot true .u8x4⟩]
def rows64 : List Row := [
  ⟨0x20, 0, 0, 2, 0, 2, .steer⟩, ⟨0x22, 0, 0, 2, 1, 0, .gate true⟩, ⟨0x22, 1, 0, 2, 1, 0, .gate false⟩, ⟨0x23, 0, 0, 1, 1, 0, .ctl⟩,
  ⟨0x24, 0, 0, 1, 1, 0, .sink⟩, ⟨0x25, 0, 0, 1, 1, 0x15, .tagc false⟩, ⟨0x25, 1, 0, 2, 1, 0x10, .tagc true⟩,
  ⟨0x26, 2, 3, 2, 1, 0, .pack (.sat .u16x2)⟩, ⟨0x27, 0, 4, 1, 1, 3, .unpk .i8x4⟩, ⟨0x28, 1, 0, 1, 1, 100, .seq true⟩,
  ⟨0x29, 0, 0, 2, 1, 0x7610, .perm⟩, ⟨0x2A, 2, 0, 1, 1, 1, .shuf .dn⟩, ⟨0x2B, 1, 6, 1, 1, 0, .tred (.min .f32)⟩,
  ⟨0x2C, 0, 0, 1, 0, 0x77, .trap⟩, ⟨0x2D, 0, 0, 1, 0, 0x77, .brk⟩, ⟨0x2E, 0, 0, 0, 0, 0, .ret⟩, ⟨0x2F, 0, 0, 1, 1, 9, .delay⟩]
def rows66 : List Row := [
  ⟨0x30, 9, 6, 2, 1, 0, .fadd ⟨.rz, true⟩ .f32⟩, ⟨0x31, 2, 7, 2, 1, 0, .fsub ⟨.rd, false⟩ .bf16x2⟩, ⟨0x32, 3, 8, 2, 1, 0, .fmul ⟨.ru, false⟩ .f16x2⟩,
  ⟨0x33, 4, 6, 3, 1, 0, .ffma ⟨.sr, false⟩ .f32⟩, ⟨0x34, 1, 6, 2, 1, 0, .fmin true .f32⟩, ⟨0x35, 0, 7, 2, 1, 0, .fmax false .bf16x2⟩,
  ⟨0x36, 1, 6, 1, 1, 0, .fsgn .neg .f32⟩, ⟨0x37, 6, 8, 2, 1, 0, .fcmp .un .f16x2⟩, ⟨0x38, 0x19, 6, 2, 1, 0x11, .fcvt .f32 .e4m3x4 true⟩,
  ⟨0x39, 0, 11, 3, 1, 0, .fdot ⟨.rn, false⟩ .e2m1x8⟩, ⟨0x3A, 4, 6, 1, 1, 0, .fsfu .log2⟩, ⟨0x3B, 0, 8, 1, 1, 0, .fcls .f16x2⟩,
  ⟨0x3C, 0, 7, 2, 1, 0, .fscl ⟨.rn, false⟩ .bf16x2⟩, ⟨0x3D, 3, 6, 1, 1, 0, .frnd .ru .f32⟩, ⟨0x3E, 8, 6, 3, 1, 0, .flrp ⟨.rn, true⟩⟩,
  ⟨0x3F, 0, 9, 1, 1, 0, .fxqScale .e4m3x4⟩, ⟨0x3F, 1, 11, 3, 1, 0, .fxqQ .e2m1x8⟩]
def rows68 : List Row := [
  ⟨0x40, 1, 0, 1, 1, 0x3682, .ld .h .i32⟩, ⟨0x41, 0, 0, 2, 0, 0x1105, .st .b⟩, ⟨0x42, 0, 0, 2, 1, 0, .aadd .i32⟩, ⟨0x42, 1, 1, 2, 1, 0, .amin .u32⟩,
  ⟨0x42, 2, 0, 2, 1, 0, .amax .i32⟩, ⟨0x42, 3, 1, 2, 1, 0, .aand .u32⟩, ⟨0x42, 4, 0, 2, 1, 0, .aor .i32⟩, ⟨0x42, 5, 0, 2, 1, 0, .axor .i32⟩,
  ⟨0x42, 6, 0, 2, 1, 0, .aswap .i32⟩, ⟨0x42, 7, 0, 3, 1, 0, .amaxU64⟩, ⟨0x42, 8, 0, 2, 1, 0, .axaddF32⟩, ⟨0x43, 0, 0, 3, 1, 0, .acas⟩,
  ⟨0x44, 0, 0, 1, 1, 0, .xrd⟩, ⟨0x44, 1, 0, 1, 1, 0, .xrdClr⟩, ⟨0x45, 0, 0, 2, 1, 0, .waita false⟩, ⟨0x45, 1, 0, 2, 1, 0, .waita true⟩,
  ⟨0x46, 0, 0, 0, 0, 0xB80, .fence⟩, ⟨0x47, 2, 0, 1, 1, 0x405, .lds .w .i32⟩, ⟨0x48, 1, 0, 2, 0, 0x405, .sts .h⟩, ⟨0x49, 0, 0, 1, 1, 9, .rpush⟩,
  ⟨0x49, 1, 0, 1, 1, 9, .rpushTry⟩, ⟨0x4A, 0, 0, 0, 1, 9, .rpop⟩, ⟨0x4A, 1, 0, 0, 1, 9, .rpopTry⟩, ⟨0x4B, 7, 0, 1, 1, 2, .agset 7⟩]
def rows69 : List Row := [
  ⟨0x4C, 0, 0, 0, 1, 3, .agctlStart⟩, ⟨0x4C, 1, 0, 0, 1, 3, .agctlStop⟩, ⟨0x4C, 2, 0, 0, 1, 3, .agctlRew⟩, ⟨0x4C, 3, 0, 0, 1, 3, .agctlStat⟩,
  ⟨0x4D, 0, 0, 1, 1, 0, .trd⟩, ⟨0x4E, 0, 0, 2, 0, 0, .twr⟩, ⟨0x4F, 2, 0, 3, 1, 7, .tex .tri⟩, ⟨0x50, 0, 0, 2, 0, 0, .wld⟩,
  ⟨0x51, 0, 0, 2, 0, 0, .sweep⟩, ⟨0x51, 1, 0, 2, 0, 0, .sweepSwap⟩, ⟨0x52, 0, 0, 1, 0, 0, .cturn⟩, ⟨0x53, 0, 0, 3, 1, 0, .copy⟩,
  ⟨0x54, 0, 0, 1, 0, 40, .semSig⟩, ⟨0x54, 1, 0, 0, 1, 40, .semRd⟩, ⟨0x55, 0, 0, 1, 0, 95, .barx⟩, ⟨0x55, 1, 0, 0, 0, 95, .bara⟩,
  ⟨0x55, 2, 0, 1, 1, 95, .barw⟩, ⟨0x56, 0, 0, 0, 1, 0xFFF, .qrsv⟩, ⟨0x57, 0, 0, 2, 0, 0xFFF, .qput⟩, ⟨0x57, 1, 0, 1, 0, 0xFFF, .qcan⟩]
def rows69b : List Row := [
  ⟨0x58, 0, 0, 1, 1, 0xFFF, .qpop⟩, ⟨0x59, 0, 0, 2, 1, 0, .launch⟩, ⟨0x5A, 0, 0, 0, 1, 0, .pdone⟩, ⟨0x5A, 1, 0, 1, 1, 0, .pfail⟩,
  ⟨0x5A, 2, 0, 2, 1, 0, .pstat⟩, ⟨0x5B, 0, 0, 2, 1, 0, .isectBox4⟩, ⟨0x5B, 1, 0, 2, 1, 0, .isectTri⟩, ⟨0x5B, 2, 0, 2, 1, 0, .isectRib⟩,
  ⟨0x5B, 3, 0, 2, 1, 0, .isectTube⟩, ⟨0x5B, 4, 0, 2, 1, 0, .isectBlp⟩, ⟨0x5C, 0, 0, 2, 1, 0, .cover⟩, ⟨0x5D, 1, 0, 1, 0, 5, .cllct .arExact⟩,
  ⟨0x5E, 0, 0, 2, 1, 0, .tcpy⟩, ⟨0x5F, 0, 0, 1, 0, 0x77, .dbgMark⟩, ⟨0x5F, 1, 0, 0, 0, 0x77, .dbgDump⟩]

theorem test_decode_integer : (rows63.all Row.holds && rows63b.all Row.holds) = true := by decide +kernel
theorem test_decode_token_control : rows64.all Row.holds = true := by decide +kernel
theorem test_decode_float : rows66.all Row.holds = true := by decide +kernel
theorem test_decode_memory : rows68.all Row.holds = true := by decide +kernel
theorem test_decode_engines : (rows69.all Row.holds && rows69b.all Row.holds) = true := by decide +kernel

/-- [c0 c1 ctl, c2 c3 data] with source and dequeue masks: merge o2 <- c0 ? c1 : c2, sink.tag d3 <- c1, and ld.s.w.u32 p6 <- d0. -/
theorem test_decode_special :
    decode (0x0000#16 ++ 0b00010110#8 ++ 0#8) (word1 0x21 0 0 1 2 7 0) (word2 4 0 0 0 0 0) =
      .ok (.merge { rule with guard := { always with c0 := .control, c1 := .data, c2 := .data }, a := .chan 0, b := .chan 1, c := .chan 2, dq := 7#4,
                              om := 4#8, dst := none }) ∧
    decode (0x0000#16 ++ 0b00001100#8 ++ 0#8) (word1 0x24 1 1 0 0 2 0) (word2 0 1 3 0 0 0) =
      .ok (.sinkTag { rule with guard := { always with c1 := .any }, a := .chan 1, b := .chan 0, c := .chan 0, dq := 2#4 }) ∧
    decode 0#32 (word1 0x40 6 4 0 0 0 1) (word2 0 0 0 1 6 0) =
      .ok (.ldS .w .u32 { rule with b := .chan 0, c := .chan 0, dst := none, pdst := some 6 }) := by decide +kernel

/-- [p1 !p3, colour 5 of c2] init: PM 0x0A, PV 0x02, CC c2 data, CT 5, CE, KIND 1. -/
theorem test_decode_guard :
    decode (0x0A#8 ++ 0x02#8 ++ 0b00010000#8 ++ 5#4 ++ 1#1 ++ 1#3) (word1 0x2E 0 0 0 0 4 0) 0#32 =
      .ok (.ret { rule with guard := { always with pm := 0x0A#8, pv := 0x02#8, c2 := .data, colour := some 5#4, kind := .init }, a := .chan 0,
                            b := .chan 0, c := .chan 0, dq := 4#4, dst := none }) := by decide +kernel

/-- The order of the table's bits: W0 is bits 31 to 0, W1 bits 63 to 32, W2 bits 95 to 64. -/
theorem test_table_word : decodeTableWord 96 (2 ^ 32 * 0x02040000 + 2 ^ 64 * 0x00B00000) =
    some (.mov { rule with b := .chan 0, c := .chan 0 }) := by decide +kernel

-- Well-formedness: one breach for each check.

theorem test_ill_formed : ([
    -- PV outside PM; a colour with no required channel (R28, R50).
    .mov { rule with b := .chan 0, c := .chan 0, guard := { always with pv := 1#8 } },
    .mov { rule with b := .chan 0, c := .chan 0, guard := { always with colour := some 1#4 } },
    -- MERGE without a control head on its selector; a MERGE that does not pop one of its channels (R61).
    .merge { rule with guard := { always with c0 := .any, c1 := .data, c2 := .data }, a := .chan 0, b := .chan 1, c := .chan 2, dq := 7#4, dst := none },
    .merge { rule with guard := { always with c0 := .control, c1 := .data, c2 := .data }, a := .chan 0, b := .chan 1, c := .chan 2, dq := 3#4, dst := none },
    -- A type that the form does not take (R57); an unread source that is not zero (R58).
    .icmp .eq .i8x4 { rule with c := .chan 0 }, .mov { rule with c := .chan 0 }, .iadd false .i32 rule,
    -- An immediate where IMM16 is a field, one beside SYS, SYS where IMM16 is a field (R55, R56).
    .movh { rule with a := .imm, b := .chan 0, c := .chan 0 }, .iadd false .i32 { rule with a := .imm, b := .sys, c := .chan 0 },
    .movh { rule with a := .sys, b := .chan 0, c := .chan 0 },
    -- A channel read, or dequeued, that the guard does not require (R28, R48).
    .mov { rule with a := .chan 1, b := .chan 0, c := .chan 0 }, .mov { rule with b := .chan 0, c := .chan 0, dq := 1#4 },
    -- SINK.tag of a register.
    .sinkTag { rule with b := .chan 0, c := .chan 0 }] : List Instr).all (fun i => !i.wellFormed) = true := by decide +kernel

theorem test_ill_formed_destinations : ([
    -- A destination that the form does not write (R58): STEER's register, SINK's routes, ST's predicate.
    .steer { rule with c := .chan 0 }, .sink { rule with b := .chan 0, c := .chan 0, om := 1#8 },
    .st .w { rule with c := .chan 0, dst := none, pdst := some 0 },
    -- IMM16 of a form that has none; unused; out of its field: a bit field over bit 31, byte immediates, selectors (R55, R58, R119).
    .clz { rule with b := .chan 0, c := .chan 0, imm := 1#16 }, .mov { rule with b := .chan 0, c := .chan 0, imm := 1#16 },
    .bfx false { rule with b := .chan 0, c := .chan 0, imm := 0x041F#16 }, .iadd false .i8x4 { rule with b := .imm, c := .chan 0, imm := 0x100#16 },
    .mov { rule with a := .sys, b := .chan 0, c := .chan 0, imm := 0x23#16 }, .sys { rule with a := .chan 0, b := .chan 0, c := .chan 0, imm := 0x23#16 },
    -- SCOPE 6; a load with .rel; a store with .acq; LD.S without a predicate; barrier 96 (R67, R208 to R211).
    .ld .w .i32 { rule with b := .chan 0, c := .chan 0, imm := 0x0C00#16 }, .ld .w .i32 { rule with b := .chan 0, c := .chan 0, imm := 0x0100#16 },
    .st .w { rule with c := .chan 0, dst := none, imm := 0x0080#16 }, .ldS .w .i32 { rule with b := .chan 0, c := .chan 0 },
    .barw { rule with b := .chan 0, c := .chan 0, imm := 96#16 }] : List Instr).all (fun i => !i.wellFormed) = true := by decide +kernel

/-- An event of the device carries no word; the instructions of the rows above are well formed, as their decoding says. -/
theorem test_events_well_formed : Instr.wellFormed (.registerWrite 0x08 0#32) = true ∧ encode (.registerWrite 0x08 0#32) = none := by decide +kernel

-- A small state.

/-- An enabled direct context of element (0, 0), k0, with one slot. -/
def ctx (regs : List Word) : Ctx :=
  { el := 0, k := 0, word := 0x80200000#32, routes := List.replicate 8 0#32, slots := [default], regs, credits := [4, 0, 0, 0, 0, 0, 0, 0],
    armed := 1#16, starv := [0] }
/-- One tile of core 0, with window 0 on a megabyte from 0x100000, a buffer of 8 KiB, and ring 0 of four words at its start. -/
def region (c : Ctx) : Region :=
  { gang := 5, inst := 0, lease := 7, wx := 1, wy := 1, tmap := [(0, 0)], ctxs := [c],
    wins := [{ base := 0x100000, limit := 0xFFFFF, v := true }], bufs := [{ tile := 0, base := 0, size := 8192 }],
    rings := [{ buf := 0, cap := 4, head := 8#32, tail := 11#32 }], rows := 64 }
def gang : Gang := { id := 5#32, die := 0, as_ := 0, recVA := 0x200000, rcd := List.replicate 64 0#32, arg := 0x300000, st := .running, order := 0 }

/-- Entry 0 of die 0's address-space table maps the first GiB onto itself: the entry at PA 0, its root at 0x20000, and a level-1 leaf at
0x8000 (R339, R341, R342). -/
def tables : List Host.Cell :=
  [(0, 0x01#8), (10, 0x02#8), (412316860416, 0x1F#8), (412316868608, 0x01#8), (412316868609, 0x80#8)]

def state (g : Region) : State :=
  { State.reset with
    regions := [(0, g)], dies := { gangs := [(5, gang)] }, store := { cells := tables }, pkg := { mmio := [(0x100008, 1#32)] } }
def regs (a b c : Word) : List Word := [a, b, c, 0#32, 0#32, 0#32, 0#32, 0#32]
def one : State := state (region (ctx (regs 0x10#32 3#32 0x21#32)))
/-- The same context in a round set, its round open. -/
def rounded : State := state { region { ctx (regs 0x10#32 3#32 0x21#32) with word := 0xA0200000#32 } with round := { isOpen := true } }

-- What instructions answer: results of the worked examples.

/-- The result and the predicate of an instruction of fixed latency on d0, d1 and d2. -/
def gives (i : Rule → Instr) (imm : Nat) (a b c : Word) : Option (Word × Bool) :=
  match exec (i { rule with imm := BitVec.ofNat 16 imm }) (state (region (ctx (regs a b c)))) with
  | .next t => t.fab.wbs.head?.map fun w => (w.done.res, w.done.pres)
  | _ => none
/-- The same of a request. -/
def answers (i : Rule → Instr) (r : Rule) (s : State) : Option (Word × Bool) :=
  match exec (i r) s with
  | .next t => t.fab.reqs.head?.bind fun q => match q.stage with
    | .reply d => some (d.res, d.pres)
    | _ => none
  | _ => none

/-- The examples of R90, R118, R124 and R133. -/
theorem test_integer_examples :
    gives (.iadd true .i8x4) 0 0x7F8010F0#32 0x0180F010#32 0#32 = some (0x7F800000#32, true) ∧
    gives (.iadd false .i8x4) 0 0x7F8010F0#32 0x0180F010#32 0#32 = some (0x80000000#32, true) ∧
    gives .movh 0x4049 0x0FDB#32 0#32 0#32 = some (0x40490FDB#32, true) ∧
    gives (.idiv false .i32) 0 0xFFFFFFF9#32 2#32 0#32 = some (0xFFFFFFFD#32, true) ∧
    gives (.idiv true .i32) 0 0xFFFFFFF9#32 2#32 0#32 = some (0xFFFFFFFF#32, true) ∧
    gives (.idiv false .u32) 0 0xFFFFFFF9#32 2#32 0#32 = some (0x7FFFFFFC#32, true) ∧
    gives (.idiv true .u32) 0 0xFFFFFFF9#32 2#32 0#32 = some (1#32, true) ∧
    gives (.pack (.sat .u16x2)) 0 0xFFFFFFFB#32 70000#32 0#32 = some (0xFFFF0000#32, true) ∧
    gives .perm 0x0123 0x11223344#32 0#32 0#32 = some (0x44332211#32, true) ∧
    gives .perm 0xCCC0 0x00000085#32 0#32 0#32 = some (0xFFFFFF85#32, true) := by decide +kernel

/-- Corners of R121 to R127: the most negative number, carries, a shift past the width, a division by zero, and what a comparison delivers. -/
theorem test_integer_corners :
    gives (.iabs true .i32) 0 0x80000000#32 0#32 0#32 = some (0x7FFFFFFF#32, true) ∧
    gives (.iabs false .i32) 0 0x80000000#32 0#32 0#32 = some (0x80000000#32, true) ∧
    gives (.imul true .i32) 0 0x80000000#32 0x80000000#32 0#32 = some (0x40000000#32, true) ∧
    gives (.imul true .u32) 0 0xFFFFFFFF#32 0xFFFFFFFF#32 0#32 = some (0xFFFFFFFE#32, true) ∧
    gives (.iaddx 0 .u32) 0 0xFFFFFFFF#32 1#32 0#32 = some (0#32, true) ∧
    gives (.iaddx 0 .i32) 0 0x7FFFFFFF#32 1#32 0#32 = some (0x80000000#32, true) ∧
    gives .shl 0 1#32 32#32 0#32 = some (0#32, false) ∧
    gives .sar 0 0x80000000#32 40#32 0#32 = some (0xFFFFFFFF#32, true) ∧
    gives (.idiv false .i32) 0 5#32 0#32 0#32 = some (0xFFFFFFFF#32, true) ∧
    gives (.icmp .lt .i32) 0 0xFFFFFFFF#32 0#32 0#32 = some (0xFFFFFFFF#32, true) ∧
    gives (.icmp .lt .u32) 0 0xFFFFFFFF#32 0#32 0#32 = some (0#32, false) ∧
    gives (.seq false) 4 3#32 0#32 0#32 = some (0#32, true) ∧
    gives (.bfx true) 0x103 0x7F8#32 0#32 0#32 = some (0xFFFFFFFF#32, true) := by decide +kernel

/-- The examples of R142, R148, R149, R150, R114 and R105. -/
theorem test_float_examples :
    gives (.fadd ⟨.rz, true⟩ .f32) 0 0x7F7FFFFF#32 0x3FC00000#32 0#32 = some (0x7F7FFFFF#32, true) ∧
    gives (.fcls .bf16x2) 0 0x7F818001#32 0#32 0#32 = some (0x01000004#32, true) ∧
    gives (.fscl ⟨.rn, false⟩ .f32) 0 0x3FC00000#32 0xFFFFFF6A#32 0#32 = some (1#32, true) ∧
    gives (.fscl ⟨.rz, false⟩ .f32) 0 0x3FC00000#32 0xFFFFFF6A#32 0#32 = some (0#32, false) ∧
    gives (.frnd .rn .f32) 0 0x40200000#32 0#32 0#32 = some (0x40000000#32, true) ∧
    gives (.frnd .rd .f32) 0 0xC0200000#32 0#32 0#32 = some (0xC0400000#32, true) ∧
    gives (.frnd .ru .f32) 0 0x3E99999A#32 0#32 0#32 = some (0x3F800000#32, true) ∧
    gives (.frnd .rn .f32) 0 0xBE99999A#32 0#32 0#32 = some (0x80000000#32, true) ∧
    gives (.fcvt .f32 .i16x2 false) 0x0A 0xC0600000#32 0x1111#32 0#32 = some (0xFFFC1111#32, true) ∧
    gives (.fcvt .f32 .i16x2 false) 0x09 0xC0600000#32 0x1111#32 0#32 = some (0xFFFD1111#32, true) ∧
    gives (.fcvt .f32 .i16x2 false) 0x08 0x49742400#32 0#32 0#32 = some (0x7FFF0000#32, true) ∧
    gives (.fxqScale .e4m3x4) 0 0x42C80000#32 0#32 0#32 = some (0x7D#32, true) ∧
    gives (.fxqQ .e4m3x4) 0 0x42C80000#32 0x7D#32 0#32 = some (0x7C000000#32, true) := by decide +kernel

/-- Corners of R95 to R101 and R145 to R147: a NaN, infinities, signed zeros and a subnormal. -/
theorem test_float_corners :
    gives (.fadd ⟨.rn, false⟩ .f32) 0 0x7F800000#32 0xFF800000#32 0#32 = some (0x7FC00000#32, true) ∧
    gives (.fsub ⟨.rd, false⟩ .f32) 0 0x3F800000#32 0x3F800000#32 0#32 = some (0x80000000#32, true) ∧
    gives (.fmul ⟨.rn, false⟩ .f32) 0 0x00800000#32 0x3F000000#32 0#32 = some (0x00400000#32, true) ∧
    gives (.ffma ⟨.rn, false⟩ .f32) 0 0x3F800001#32 0x3F800001#32 0xBF800002#32 = some (0x28800000#32, true) ∧
    gives (.fmin false .f32) 0 0#32 0x80000000#32 0#32 = some (0x80000000#32, true) ∧
    gives (.fmax true .f32) 0 0x7FC00001#32 0x3F800000#32 0#32 = some (0x7FC00000#32, true) ∧
    gives (.fcmp .un .f32) 0 0x7FC00000#32 0#32 0#32 = some (0xFFFFFFFF#32, true) ∧
    gives (.fsgn .neg .f32) 0 0x7FC00001#32 0#32 0#32 = some (0xFFC00001#32, true) ∧
    gives (.fdot ⟨.rn, false⟩ .bf16x2) 0 0x3F803F80#32 0x40004000#32 0x3F800000#32 = some (0x40A00000#32, true) ∧
    gives (.fsfu .rcp) 0 0x40000000#32 0#32 0#32 = some (0x3F000000#32, true) ∧
    gives (.fsfu .sqrt) 0 0xBF800000#32 0#32 0#32 = some (0x7FC00000#32, true) ∧
    gives (.flrp ⟨.rn, false⟩) 0 0x3F800000#32 0x40400000#32 0x3F000000#32 = some (0x40000000#32, true) := by decide +kernel

/-- The worked example of R112: adding 0.1 to a zero sector, and adding −0.1 to what that leaves. -/
theorem test_exact_sum : xsAdd 0 0x3DCCCCCD#32 = 0x199999A0 * 2 ^ 96 ∧ xsAdd (0x199999A0 * 2 ^ 96) 0xBDCCCCCD#32 = 0 ∧
    xsRead (0x199999A0 * 2 ^ 96) = 0x3DCCCCCD#32 := by decide +kernel

/-- The addresses of the worked example of R336. -/
theorem test_interleave : locOf false 0x2A434567 = some (8 * stackBytes + 0x03859567) ∧ locOf true 0x2A434567 = some (2 * stackBytes + 0x0E166567) := by
  decide +kernel

/-- The offsets of the worked example of R429. -/
theorem test_pages : pageOf 0x74B140 = .sync 37 320 ∧ pageOf 0x74A0C4 = .region (32 * 37 + 3) 4 := by decide +kernel

-- Memory.

/-- A state whose context holds these registers, with these bytes of memory after the tables' first, and these of scratchpad. -/
def with_ (a b c : Word) (cells : List Host.Cell) (spad : List Host.Cell := []) : State :=
  let s := state (region (ctx (regs a b c)))
  { s with store := { cells := (tables.take 2) ++ cells ++ tables.drop 2, spad } }
/-- The location of VA 0x100000 + n, n below 4,096: page 256 is in stack 4. -/
def loc (n : Nat) : Nat := 4 * stackBytes + 21 * 4096 + n

/-- LD.b widens by its type (R208); LD.S outside its window answers 0 and false (R209); ACAS and AMAX.u64 as in the example of R213. -/
theorem test_memory_answers :
    answers (.ld .b .i32) { rule with imm := 1#16 } (with_ 0#32 0#32 0#32 [(loc 1, 0x85#8)]) = some (0xFFFFFF85#32, true) ∧
    answers (.ld .b .u32) { rule with imm := 1#16 } (with_ 0#32 0#32 0#32 [(loc 1, 0x85#8)]) = some (0x85#32, true) ∧
    answers (.ldS .w .u32) { rule with pdst := some 0 } (with_ 0xFFFFE#32 0#32 0#32 []) = some (0#32, false) ∧
    answers .acas rule (with_ 0#32 7#32 9#32 [(loc 0, 7#8)]) = some (7#32, true) ∧
    answers .amaxU64 rule (with_ 0#32 0x00000009#32 0x90000000#32 [(loc 0, 5#8), (loc 7, 0x80#8)]) = some (1#32, true) ∧
    answers .amaxU64 rule (with_ 0#32 0x00000002#32 0x8FFFFFFF#32 [(loc 0, 9#8), (loc 7, 0x90#8)]) = some (0#32, false) := by decide +kernel

/-- What the home holds after an atomic, and what the cluster holds after a store (R203, R211, R289). -/
theorem test_memory_effects :
    (match exec (.aadd .u32 rule) (with_ 0#32 0x102#32 0#32 [(loc 0, 0xFF#8)]) with
      | .next t => t.homeBytes (loc 0) 4
      | _ => []) = [0x01#8, 0x02#8, 0#8, 0#8] ∧
    (match exec (.st .h { rule with dst := none }) (with_ 4#32 0xABCD#32 0#32 []) with
      | .next t => (t.clusterByte 0 (loc 4), t.clusterByte 0 (loc 5), t.homeByte (loc 4), t.clusterByte 1 (loc 4))
      | _ => (0#8, 0#8, 1#8, 1#8)) = (0xCD#8, 0xAB#8, 0#8, 0#8) := by decide +kernel

/-- The class and the first bytes of INFO of the record that an access raises. -/
def raises (i : Rule → Instr) (r : Rule) (s : State) : Option (Nat × List Byte × Nat) :=
  match exec (i r) s with
  | .next t => t.fab.recs.head?.map fun p => (p.rcd.cls, p.rcd.info.take 12, p.rcd.va)
  | _ => none

/-- The worked example of R202, with its limits: past the window, across a sector, and not aligned. -/
theorem test_access_checks :
    raises (.ld .w .u32) rule (with_ 0xFFFFE#32 0#32 0#32 []) =
      some (0x03, [0#8, 0#8, 0#8, 0#8, 0xFE#8, 0xFF#8, 0x0F#8, 0#8, 0xFF#8, 0xFF#8, 0x0F#8, 0#8], 0) ∧
    (raises (.ld .w .u32) rule (with_ 0xFFFFC#32 0#32 0#32 [])) = none ∧
    (raises (.ld .h .u32) rule (with_ 0x3F#32 0#32 0#32 [])).map (fun x => (x.1, x.2.2)) = some (0x04, 0x10003F) ∧
    (raises (.ld .w .u32) rule (with_ 0x22#32 0#32 0#32 [])) = none ∧
    (raises (.aadd .i32) rule (with_ 0x22#32 0#32 0#32 [])).map (fun x => (x.1, x.2.2)) = some (0x04, 0x100022) := by decide +kernel

/-- The example of R184's ring, head 8 and tail 11 of four: a push takes entry 11 and answers its number; with one more the ring is full. -/
theorem test_rings :
    answers .rpush rule one = some (11#32, true) ∧
    answers .rpopTry rule (with_ 0#32 0#32 0#32 [] [(0, 0x2A#8)]) = some (0x2A#32, true) := by decide +kernel

/-- The triangle of the example of R403: both blocks, and the classifier. -/
def triangle : List Host.Cell := [(9, 8#8), (21, 8#8)]
theorem test_cover :
    answers .cover rule (with_ 0#32 0#32 0#32 [] triangle) = some (0x0F1F3F7F#32, true) ∧
    answers .cover rule (with_ 0#32 0x80000000#32 0#32 [] triangle) = some (0x00010307#32, true) ∧
    answers .cover rule (with_ 0#32 0xFFFFFFFF#32 0#32 [] triangle) = some (0x20#32, false) := by decide +kernel

/-- Traps and faults freeze the element (R44, R136); a RET retires the context (R138). -/
theorem test_trap_and_return :
    (match exec (.trap { rule with dst := none, imm := 0x77#16 }) one with
      | .next t => (t.fab.recs.map fun p => (p.rcd.cls, p.rcd.info, p.rcd.word), (t.elem 0).freeze)
      | _ => ([], .no)) = ([(0x0D, [0x77#8, 0#8], 0x10#32)], .soon 2) ∧
    (match exec (.ret { rule with dst := none }) one with
      | .next t => (t.ctx fetchCtx).map fun x => x.retired
      | _ => none) = some true := by decide +kernel

/-- Placed as `withFetchWord` places it, an instruction is what the next step runs: MOV of zero into d3, written at the end of its cycle. -/
theorem test_step_runs_fetch_word :
    (match step (State.reset.withFetchWord 96 (2 ^ 32 * 0x020D0000 + 2 ^ 64 * 0x00B00000)) with
      | .next t => t.fab.wbs.map fun w => (w.dst, w.done.res, w.due)
      | _ => []) = [(some 3, 0#32, 0)] := by decide +kernel

/-- Words that are no instruction stop the step by name. -/
theorem test_step_faults : (match step (State.reset.withFetchWord 96 7) with
    | .fault f => decide (f = .illegalWord 7#32 0#32 0#32)
    | _ => false) = true := by decide +kernel

-- Events of the device.

/-- A register write reaches its semaphore, and a barrier is configured (R280, R281); PKGRST needs its key (R427). -/
theorem test_register_writes :
    (match exec (.registerWrite 0x74B140 42#32) State.reset with
      | .next t => (t.sem 37 40).value
      | _ => 0#32) = 42#32 ∧
    (match exec (.registerWrite 0x08 1#32) one with
      | .next t => decide (t = one)
      | _ => false) = true ∧
    (match exec (.registerWrite 0x08 0xA5A50001#32) one with
      | .next t => (t.regions, t.pkg.boot)
      | _ => ([], 9)) = ([], 1) := by decide +kernel

/-- A trip loses what the regions held, and counts (R440). -/
theorem test_package_trip : (match exec .packageTrip one with
    | .next t => (t.pkg.tripped, t.pkg.flash.trips, t.regions)
    | _ => (false, 0, [])) = (true, 1, []) := by decide +kernel

-- Witnesses: for each statement with premises, states and operands that meet them.

/-- A firing may happen, with more on what it reads. -/
def may (i : Instr) (r : Rule) (w : ImmW) (s : State) (more : View → Bool := fun _ => true) : Bool :=
  match view s r w with
  | some v => v.ready (needFor s v i) s && more v
  | none => false
theorem may_fire {i : Instr} {r : Rule} {w : ImmW} {s : State} {more : View → Bool} (h : may i r w s more = true) :
    ∃ v, MayFire i r w s v ∧ more v = true := by
  unfold may at h
  split at h
  · rename_i v hv
    rw [Bool.and_eq_true] at h
    exact ⟨v, ⟨hv, h.1⟩, h.2⟩
  · cases h
theorem all_may {l : List (Instr × ImmW)} {r : Rule} {s : State} {more : View → Bool}
    (h : (l.all fun e => may e.1 r e.2 s more) = true) : ∀ e ∈ l, ∃ v, MayFire e.1 r e.2 s v ∧ more v = true :=
  fun e he => may_fire (List.all_eq_true.mp h e he)

/-- What a slot reads, whether it may fire or not. -/
def sees (r : Rule) (w : ImmW) (s : State) (more : View → Bool) : Bool := ((view s r w).map more).getD false
theorem seen {r : Rule} {w : ImmW} {s : State} {more : View → Bool} (h : sees r w s more = true) :
    ∃ v, view s r w = some v ∧ more v = true := by
  unfold sees at h
  cases hv : view s r w <;> simp_all

/-- An access reaches a location, and the conditions that go with it. -/
def reach (i : Instr) (r : Rule) (size : Nat) (aligned limited rd wr quiet : Bool) (s : State) (more : View → Nat → State → Bool) : Bool :=
  match view s r .s32 with
  | none => false
  | some v => v.ready (needFor s v i) s &&
    ((winOf v).v && decide (offOf v size + size - 1 ≤ (winOf v).limit) && decide (vaOf v size % 32 + size ≤ 32) &&
      (!aligned || decide (vaOf v size % size = 0)) && (!limited || !(winOf v).ro)) &&
    match s.xlate (v.ask s (vaOf v size) rd wr quiet) with
    | (.ok loc, u) => more v loc u
    | _ => false
theorem reaches {i : Instr} {r : Rule} {size : Nat} {aligned limited rd wr quiet : Bool} {s : State} {more : View → Nat → State → Bool}
    (h : reach i r size aligned limited rd wr quiet s more = true) :
    ∃ v loc u, MayFire i r .s32 s v ∧ Reaches s v size aligned limited rd wr quiet loc u ∧ more v loc u = true := by
  unfold reach at h
  split at h
  · cases h
  · rename_i v hv
    simp only [Bool.and_eq_true, decide_eq_true_eq, Bool.or_eq_true, Bool.not_eq_true'] at h
    obtain ⟨⟨h1, ⟨⟨⟨h2, h3⟩, h4⟩, h5⟩, h6⟩, h7⟩ := h
    split at h7
    · rename_i loc u hx
      refine ⟨v, loc, u, ⟨hv, h1⟩, ⟨⟨h2, h3, h4, ?_, ?_⟩, hx⟩, h7⟩
      · intro a
        simpa [a] using h5
      · intro a
        simpa [a] using h6
    · cases h7

/-- Nothing hinders an access. -/
def clear (u : State) (r loc : Nat) : Bool :=
  (u.cut (dieOf r) (homeDie loc)).isNone && (u.store.marks.look (loc / 32)).isNone &&
    !u.store.badDirty.contains (dirtyKey (clusterOf r) (loc / 32 * 32))
theorem unhindered {u : State} {r loc : Nat} (h : clear u r loc = true) : Unhindered u r loc := by
  simp only [clear, Bool.and_eq_true, Option.isNone_iff_eq_none, Bool.not_eq_true', List.contains_eq_mem, decide_eq_false_iff_not] at h
  exact ⟨h.1.1, h.1.2, h.2⟩

/-- Nothing makes an access wait, and its line has room. -/
def calm (u : State) (v : View) (loc : Nat) : Bool :=
  !u.retrains (dieOf v.f.ctx.region) (homeDie loc) && u.fab.reqs.isEmpty && u.store.copies.isEmpty
theorem at_once {u : State} {v : View} {loc : Nat} (h : calm u v loc = true) (va : Nat) : AtOnce u v va loc ∧ Room u (clusterOf v.r) loc := by
  simp only [calm, Bool.and_eq_true, Bool.not_eq_true', List.isEmpty_iff] at h
  exact ⟨⟨h.1.1, by simp [h.1.2], by simp [h.1.2]⟩, .inr (by simp [h.2])⟩
/-- An earlier access of the context to the sector has still to be performed. -/
def later (u : State) (v : View) (va loc : Nat) : Bool :=
  u.fab.reqs.any fun q => decide (q.id < u.uid ∧ q.org.ctx = v.f.ctx ∧ q.org.lease = v.g.lease) && q.stage.owes va loc
theorem not_at_once {u : State} {v : View} {va loc : Nat} (h : later u v va loc = true) : ¬AtOnce u v va loc := by
  intro ⟨_, h2, _⟩
  obtain ⟨q, hq, ha⟩ := List.any_eq_true.mp h
  simp only [Bool.and_eq_true, decide_eq_true_eq] at ha
  exact Bool.false_ne_true ((h2 q hq ha.1.1 ha.1.2.1 ha.1.2.2).symm.trans ha.2)
theorem no_earlier {u : State} {c : CtxId} {lease id va loc : Nat}
    (h : u.retrains (dieOf c.region) (homeDie loc) = false ∧ ∀ q ∈ u.fab.reqs, ¬q.id < id) : Turn u c lease id va loc :=
  ⟨h.1, fun q hq hl => absurd hl (h.2 q hq), .inr fun q hq hl => absurd hl (h.2 q hq)⟩
/-- Every die link retrains. -/
def training (s : State) : State := { s with pkg := { s.pkg with links := List.replicate 4 { retraining := true } } }

/-- What a step answers. -/
def nextOf (o : Host.Outcome State Fault Refusal) : Bool := match o with
  | .next _ => true
  | _ => false

theorem canonical {s : State} (h : (Memory.wf s.store.cells && Memory.wf s.store.spad) = true) : s.memoryOk := by
  rw [Bool.and_eq_true] at h
  exact h
theorem named {s : State} (h : (s.fab.reqs.all fun q => decide (q.id < s.uid)) = true) : Fresh s :=
  fun q hq => of_decide_eq_true (List.all_eq_true.mp h q hq)

-- The machine as a whole, and encoding.

theorem witness_ResetRegisters : (0x100040 < 0x1000000 ∧ 0x100040 % 4 = 0 ∧ 0x100040 ≠ 0 ∧ State.reset.readReg 0x100040 = 0x1C01#32) ∧
    State.reset.readReg 0xA00048 = 0#32 ∧ State.reset.readReg 0xD00040 = 0#32 ∧ State.reset.readReg 0xFFFFFC = 0#32 ∧
    State.reset.readReg 0x140048 = 0x1014#32 ∧ State.reset.readReg 0xFC008 = 0#32 := by decide +kernel
theorem witness_StepKeepsMemoryCanonical : one.memoryOk ∧ nextOf (step one) = true :=
  ⟨canonical (by decide +kernel), by decide +kernel⟩
theorem witness_StepKeepsRequestNames : Fresh one ∧ nextOf (step one) = true :=
  ⟨named (by decide +kernel), by decide +kernel⟩
theorem witness_StepRunsDecoded :
    let s := State.reset.withFetchWord 96 (2 ^ 32 * 0x020D0000 + 2 ^ 64 * 0x00B00000)
    (∃ f w, s.agenda = .fire f :: [] ∧ s.slotWords f = some w ∧ decode w.w0 w.w1 w.w2 = .ok (.mov { rule with a := .zero, b := .chan 0, c := .chan 0 })) ∧
    ∃ i, { one with agenda := [.event .packageTrip] }.agenda = .event i :: [] :=
  ⟨⟨{ ctx := fetchCtx, slot := 0 }, { w0 := 0#32, w1 := 0x020D0000#32, w2 := 0x00B00000#32 }, by decide +kernel, by decide +kernel,
    by decide +kernel⟩, .packageTrip, rfl⟩
theorem witness_DecodeOfEncode : ∃ i w0 w1 w2, i.wellFormed = true ∧ encode i = some (w0, w1, w2) :=
  ⟨.mov { rule with a := .imm, b := .chan 0, c := .chan 0, imm := 0xFFFF#16 }, 0#32, 0x020C0000#32, 0x00B0FFFF#32, by decide +kernel, by decide +kernel⟩
theorem witness_EncodeOfDecode : ∃ i, decode 0#32 0x020C0000#32 0x00B0FFFF#32 = .ok i :=
  ⟨.mov { rule with a := .imm, b := .chan 0, c := .chan 0, imm := 0xFFFF#16 }, by decide +kernel⟩
theorem witness_ReservedWordsRejected : 0x60 ≤ (0xC0000000#32).toNat / 2 ^ 25 ∧ (4 ≤ (4#32).toNat % 8) ∧
    ((0x10#32).getLsbD 3 = false ∧ (0x10#32).toNat / 16 % 16 ≠ 0) := by decide +kernel

-- Firings.

/-- A state as `one`, its context and its element made as the arguments say. -/
def other (f : Ctx → Ctx) (e : Elem := {}) (cur : Firing := { ctx := fetchCtx }) : State :=
  let s := state (region (f (ctx (regs 0x10#32 3#32 0x21#32))))
  { s with fab := { s.fab with elems := [(0, e)] }, cur }
/-- A token of context `k` with a kind and a colour. -/
def token (w : Word) (k : Nat) (control : Bool) (colour : BitVec 4) : Token := { payload := w, tag := mkTag colour control k }

/-- Each reason for which a slot may not fire. -/
theorem witness_IneligibleSlotsDoNothing :
    (∃ fm, Instr.form (.mov rule) = some (fm, rule)) ∧
    sees rule .z (other fun x => { x with word := 0x00200000#32 }) (fun v => !v.x.word.getLsbD 31) = true ∧
    sees rule .z (other fun x => { x with retired := true }) (fun v => v.x.retired) = true ∧
    (other id { freeze := .posted }).elem 0 = { freeze := .posted } ∧
    sees rule .z (other fun x => { x with word := 0x90200000#32 }) (fun v => !v.f.follower && v.x.word.getLsbD 28) = true ∧
    sees { rule with guard := { always with kind := .init } } .z (other fun x => { x with armed := 0#16 })
      (fun v => !v.f.follower && !v.x.armed.getLsbD v.f.slot) = true ∧
    sees { rule with guard := { always with pm := 0x80#8, pv := 0x80#8 } } .z one (fun v => v.x.preds.getD 7 .f = .f && v.rule.guard.pm.getLsbD 7) = true ∧
    sees { rule with guard := { always with pm := 1#8 } } .z (other fun x => { x with preds := Pred.pending :: List.replicate 7 Pred.f })
      (fun v => v.x.preds.getD 0 .f = .pending) = true ∧
    sees { rule with guard := { always with c3 := .data } } .z one (fun v => (one.elem v.p).chan 3 = []) = true ∧
    sees { rule with guard := { always with c0 := .data } } .z (other id { ch := [[token 5#32 1 false 0#4], [], [], []] }) (fun v => v.x.k = 0) = true ∧
    sees { rule with guard := { always with c0 := .data } } .z (other id { ch := [[token 5#32 0 true 0#4], [], [], []] }) (fun _ => true) = true ∧
    sees { rule with guard := { always with c0 := .control } } .z (other id { ch := [[token 5#32 0 false 0#4], [], [], []] }) (fun _ => true) = true ∧
    sees { rule with guard := { always with c0 := .data, colour := some 3#4 } } .z (other id { ch := [[token 5#32 0 false 2#4], [], [], []] })
      (fun v => v.rule.guard.colour = some 3#4) = true ∧
    sees rule .z (other fun x => { x with busy := 8#8 }) (fun v => v.x.busy.getLsbD 3) = true ∧
    sees { rule with pdst := some 7 } .z (other fun x => { x with preds := List.replicate 7 Pred.f ++ [.pending] })
      (fun v => v.x.preds.getD 7 .f = .pending) = true ∧
    sees { rule with om := 0x80#8 } .z one (fun v => v.x.credits.getD 7 0 = 0) = true := by
  refine ⟨⟨_, rfl⟩, ?_⟩
  decide +kernel

theorem witness_SourceValues :
    sees { rule with a := .chan 3, b := .pvec, c := .zero } .z (other id { ch := [[], [], [], [token 5#32 0 false 0#4]] }) (fun _ => true) = true ∧
    ([ImmW.s32, .z, .f32, .s16x2, .f16x2, .s8x4].all fun w => sees { rule with a := .imm, imm := 0x00FD#16 } w one fun _ => true) = true := by
  decide +kernel

/-- The context of `other` with p2 true. -/
def holding : State := other fun x => { x with preds := [.f, .f, .t, .f, .f, .f, .f, .f] }

theorem witness_SelectionAndPredicates :
    (∀ e ∈ ([(.mov rule, .s32), (.movh rule, .s32), (.pget rule, .s32)] ++
        ([ICond.eq, .ne, .lt, .le, .gt, .ge].flatMap fun c => [(.icmp c .i32 rule, .s32), (.icmp c .u32 rule, .s32)]) ++
        ([PFn.and, .or, .xor, .andn, .mov, .not, .true, .false].map fun f => (.pset f rule, .s32)) : List (Instr × ImmW)),
      ∃ v, MayFire e.1 rule e.2 one v ∧ true = true) ∧
    (∃ v, MayFire (.sel 2 rule) rule .s32 holding v ∧ decide (v.x.preds.getD 2 .f = .t) = true) ∧
    (∃ v, MayFire (.sel 7 rule) rule .s32 holding v ∧ decide (v.x.preds.getD 7 .f ≠ .t) = true) :=
  ⟨all_may (by decide +kernel), may_fire (by decide +kernel), may_fire (by decide +kernel)⟩

theorem witness_IntegerLanes :
    ∀ e ∈ (pint.flatMap fun t =>
        [(.iadd true t rule, immS t), (.iadd false t rule, immS t), (.isub true t rule, immS t), (.isub false t rule, immS t), (.imin t rule, immS t),
         (.imax t rule, immS t), (.iabs true t rule, immS t), (.iabs false t rule, immS t), (.imul false t rule, immS t), (.imul true t rule, immS t),
         (.imad true t rule, immS t), (.imad false t rule, immS t)] : List (Instr × ImmW)),
      ∃ v, MayFire e.1 rule e.2 one v ∧ true = true := all_may (by decide +kernel)

theorem witness_WideArithmetic :
    (∀ e ∈ ([Ty.i16x2, .u16x2, .i8x4, .u8x4].flatMap fun t => [(.idot true t rule, .s32), (.idot false t rule, .s32)] : List (Instr × ImmW)),
      ∃ v, MayFire e.1 rule e.2 one v ∧ true = true) ∧
    (∀ e ∈ ([(.iaddx 2 .u32 rule, .s32), (.iaddx 2 .i32 rule, .s32)] : List (Instr × ImmW)),
      ∃ v, MayFire e.1 rule e.2 holding v ∧ decide (v.x.preds.getD 2 .f = .t) = true) ∧
    (∀ e ∈ ([(.iaddx 0 .u32 rule, .s32), (.iaddx 0 .i32 rule, .s32)] : List (Instr × ImmW)),
      ∃ v, MayFire e.1 rule e.2 holding v ∧ decide (v.x.preds.getD 0 .f ≠ .t) = true) ∧
    (∀ e ∈ ([Ty.i32, .u32].flatMap fun t => [(.idiv false t rule, .s32), (.idiv true t rule, .s32)] : List (Instr × ImmW)),
      ∃ v, MayFire e.1 rule e.2 one v ∧ decide (v.b.toNat ≠ 0) = true) ∧
    (∀ e ∈ ([Ty.i32, .u32].flatMap fun t => [(.idiv false t { rule with b := .zero }, .s32), (.idiv true t { rule with b := .zero }, .s32)] : List (Instr × ImmW)),
      ∃ v, MayFire e.1 { rule with b := .zero } e.2 one v ∧ decide (v.b.toNat = 0) = true) :=
  ⟨all_may (by decide +kernel), all_may (by decide +kernel), all_may (by decide +kernel), all_may (by decide +kernel), all_may (by decide +kernel)⟩

/-- lo 0 and width 32, lo 31 and width 1. -/
theorem witness_BitwiseOperations :
    (∀ e ∈ ([(.andw rule, .z), (.orw rule, .z), (.xorw rule, .z), (.andnw rule, .z), (.shl rule, .z), (.shr rule, .z), (.sar rule, .z), (.rot rule, .z),
        (.clz rule, .s32), (.popc rule, .s32), (.brev rule, .s32)] : List (Instr × ImmW)), ∃ v, MayFire e.1 rule e.2 one v ∧ true = true) ∧
    ∀ n ∈ [0x400, 0x3F], let r := { rule with imm := BitVec.ofNat 16 n }
      ∀ e ∈ ([(.bfx true r, .s32), (.bfx false r, .s32), (.bfi r, .s32)] : List (Instr × ImmW)), ∃ v, MayFire e.1 r e.2 one v ∧ true = true := by
  refine ⟨all_may (by decide +kernel), ?_⟩
  intro n hn r
  rcases List.mem_cons.mp hn with rfl | hn
  · exact all_may (by decide +kernel)
  · rcases List.mem_singleton.mp hn with rfl
    exact all_may (by decide +kernel)

theorem witness_SystemValuesAndOccupancy :
    (∃ v, MayFire (.cntCh { rule with imm := 3#16 }) { rule with imm := 3#16 } .s32 one v ∧ decide (((one.elem v.p).chan 3).length ≤ 4) = true) ∧
    (∃ v, MayFire (.cntCr { rule with imm := 7#16 }) { rule with imm := 7#16 } .s32 one v ∧ decide (v.x.credits.getD 7 0 ≤ 4) = true) ∧
    (∃ v, MayFire (.sys { rule with imm := 0x00#16 }) { rule with imm := 0x00#16 } .s32 one v ∧ true = true) ∧
    (∃ v, MayFire (.sys { rule with imm := 0x22#16 }) { rule with imm := 0x22#16 } .s32 one v ∧ true = true) ∧
    (∃ v, MayFire (.sys { rule with imm := 0x20#16 }) { rule with imm := 0x20#16 } .s32 one v ∧ true = true) :=
  ⟨may_fire (by decide +kernel), may_fire (by decide +kernel), may_fire (by decide +kernel), may_fire (by decide +kernel), may_fire (by decide +kernel)⟩

/-- A rule that emits on o0. -/
def sends : Rule := { rule with om := 1#8 }
/-- An element whose c0 holds a control token and c1, c2 data tokens of context 0. -/
def fed (w : Word) : State :=
  other id { ch := [[token w 0 true 0#4], [token 1#32 0 false 5#4], [token 2#32 0 false 6#4], []] }
def mergeRule : Rule :=
  { sends with guard := { always with c0 := .control, c1 := .data, c2 := .data }, a := .chan 0, b := .chan 1, c := .chan 2, dst := none }

theorem witness_TokenControl :
    (∀ e ∈ ([(.gate true sends, .z), (.gate false sends, .z), (.ctl sends, .s32), (.steer sends, .z), (.tagc true sends, .s32), (.tagc false sends, .s32),
        (.delay sends, .s32), (.sink sends, .z)] : List (Instr × ImmW)), ∃ v, MayFire e.1 sends e.2 one v ∧ true = true) ∧
    (∃ v, MayFire (.steer { sends with a := .zero, imm := 1#16 }) { sends with a := .zero, imm := 1#16 } .z one v ∧ decide (v.a = 0#32) = true) ∧
    (∃ v, MayFire (.nop { rule with dst := none }) { rule with dst := none } .z one v ∧ true = true) ∧
    (∃ v, MayFire (.sinkTag { rule with a := .chan 1 }) { rule with a := .chan 1 } .z (fed 1#32) v ∧ (((fed 1#32).elem v.p).head 1).isSome = true) ∧
    (∃ v, MayFire (.delay { sends with imm := 255#16 }) { sends with imm := 255#16 } .s32 one v ∧ true = true) :=
  ⟨all_may (by decide +kernel), may_fire (by decide +kernel), may_fire (by decide +kernel), may_fire (by decide +kernel), may_fire (by decide +kernel)⟩

theorem witness_SequenceAndPacking :
    (∃ v, MayFire (.merge mergeRule) mergeRule .z (fed 1#32) v ∧ (((fed 1#32).elem v.p).head 0).isSome = true) ∧
    (∃ v, MayFire (.merge mergeRule) mergeRule .z (fed 0#32) v ∧ (((fed 0#32).elem v.p).head 2).isSome = true) ∧
    (∀ e ∈ ([(.seq true rule, .s32), (.seq false rule, .s32), (.pack .lo rule, .s32), (.pack .hi rule, .s32), (.pack (.sat .i16x2) rule, .s32),
        (.pack (.sat .u16x2) rule, .s32), (.perm rule, .s32)] ++ (pint.map fun t => (.unpk t rule, .s32)) : List (Instr × ImmW)),
      ∃ v, MayFire e.1 rule e.2 one v ∧ true = true) ∧
    (∃ v, MayFire (.unpk .u8x4 { rule with imm := 3#16 }) { rule with imm := 3#16 } .s32 one v ∧ true = true) ∧
    (∃ v, MayFire (.seq true { rule with imm := 0xFFFF#16 }) { rule with imm := 0xFFFF#16 } .s32 one v ∧ true = true) :=
  ⟨may_fire (by decide +kernel), may_fire (by decide +kernel), all_may (by decide +kernel), may_fire (by decide +kernel), may_fire (by decide +kernel)⟩

/-- A chain of two: the leader is element 0, the follower, which fires, element 1; `got` is what the exchange of slot 0 holds. -/
def chained (got : List LaneIn) : State :=
  let lead : Ctx := { ctx (regs 1#32 2#32 3#32) with hist := [some 0, some 0] }
  let fol : Ctx := { ctx (regs 5#32 0#32 7#32) with el := 1, word := 0x9C200000#32 }
  let s := state { region lead with ctxs := [lead, fol] }
  { s with fab := { s.fab with lanes := [{ lead := fetchCtx, slot := 0, n := 2, got }] },
           cur := { ctx := { region := 0, el := 1, k := 0 }, slot := 0, follower := true } }
def prior : List LaneIn := [{ member := 0, v := 1#32 }]

theorem witness_ChainOperations :
    (∃ v, MayFire (.tred (.add .i32) rule) rule .s32 (chained prior) v ∧
      (decide (v.g.laneOf v.x.el v.x.k = 1) && decide ((v.g.chainOf v.x.el v.x.k).length = 2) && decide (v.lead = fetchCtx) && decide (v.f.slot = 0)) = true) ∧
    (∃ v, MayFire (.shuf .up { rule with imm := 1#16 }) { rule with imm := 1#16 } .s32 (chained prior) v ∧
      (decide (v.g.laneOf v.x.el v.x.k = 1) && decide ((v.g.chainOf v.x.el v.x.k).length = 2) && decide (v.lead = fetchCtx)) = true) :=
  ⟨may_fire (by decide +kernel), may_fire (by decide +kernel)⟩
theorem witness_ChainOperations_alone :
    ∀ e ∈ ([(.tred .and rule, .s32), (.tred .or rule, .s32), (.tred .xor rule, .s32), (.tred (.min .u32) rule, .s32), (.tred (.max .i32) rule, .s32),
        (.shuf .idx rule, .s32), (.shuf .dn rule, .s32), (.shuf .xor rule, .s32)] : List (Instr × ImmW)),
      ∃ v, MayFire e.1 rule e.2 one v ∧ decide ((v.g.chainOf v.x.el v.x.k).length = 1) = true :=
  all_may (by decide +kernel)

/-- A region in which breakpoints stop. -/
def stopping : State := { one with rregs := [(0, { rdbg := 1#32 })] }

theorem witness_TrapsAndRetirement :
    let r := { rule with dst := none }
    (∀ e ∈ ([(.trap r, .z), (.brk r, .z), (.ret r, .z)] : List (Instr × ImmW)),
      (∃ v, MayFire e.1 r e.2 stopping v ∧ (!v.f.follower && !v.x.isRounded && (stopping.rreg v.r).rdbg.getLsbD 0) = true) ∧
      (∃ v, MayFire e.1 r e.2 rounded v ∧ v.x.isRounded = true) ∧
      ∃ v, MayFire e.1 r e.2 (chained prior) v ∧ v.f.follower = true) := by
  intro r e he
  exact ⟨all_may (l := [(.trap r, .z), (.brk r, .z), (.ret r, .z)]) (by decide +kernel) e he,
    all_may (l := [(.trap r, .z), (.brk r, .z), (.ret r, .z)]) (by decide +kernel) e he,
    all_may (l := [(.trap r, .z), (.brk r, .z), (.ret r, .z)]) (by decide +kernel) e he⟩

-- Floating point.

def roundings : List Rnd := [⟨.rn, false⟩, ⟨.rz, true⟩, ⟨.rd, false⟩, ⟨.ru, true⟩, ⟨.sr, false⟩]
theorem witness_ArithmeticRoundsOnce :
    ∀ e ∈ (roundings.flatMap fun m =>
        ([Ty.f32, .bf16x2, .f16x2].flatMap fun t => [(.fadd m t rule, immF t), (.fsub m t rule, immF t), (.fmul m t rule, immF t), (.ffma m t rule, immF t),
          (.fscl m t rule, .s32)]) ++
        ([Ty.bf16x2, .f16x2, .e4m3x4, .e5m2x4, .e2m1x8].map fun t => (.fdot m t rule, .s32)) ++ [(.flrp m rule, .f32)] : List (Instr × ImmW)),
      ∃ v, MayFire e.1 rule e.2 one v ∧ true = true := all_may (by decide +kernel)
theorem witness_MinMaxAndSigns :
    ∀ e ∈ ([Ty.f32, .bf16x2, .f16x2].flatMap fun t => [(.fmin true t rule, immF t), (.fmin false t rule, immF t), (.fmax true t rule, immF t),
        (.fmax false t rule, immF t), (.fsgn .copy t rule, immF t), (.fsgn .neg t rule, immF t), (.fsgn .abs t rule, immF t),
        (.fsgn .xsgn t rule, immF t)] : List (Instr × ImmW)),
      ∃ v, MayFire e.1 rule e.2 one v ∧ true = true := all_may (by decide +kernel)
theorem witness_CompareAndClassify :
    ∀ e ∈ ([Ty.f32, .bf16x2, .f16x2].flatMap fun t => (.fcls t rule, .s32) ::
        [FCond.eq, .ne, .lt, .le, .gt, .ge, .un, .ord].map fun c => (.fcmp c t rule, immF t) : List (Instr × ImmW)),
      ∃ v, MayFire e.1 rule e.2 one v ∧ true = true := all_may (by decide +kernel)
/-- Narrowing into the last lane, widening from it, and no change. -/
theorem witness_ConversionsAndRounding :
    (let r := { rule with imm := 0x1B#16 }
     fcvtPair .f32 .e4m3x4 = true ∧ ∃ v, MayFire (.fcvt .f32 .e4m3x4 true r) r .s32 one v ∧ true = true) ∧
    (let r := { rule with imm := 0x18#16 }
     fcvtPair .e5m2x4 .f32 = true ∧ ∃ v, MayFire (.fcvt .e5m2x4 .f32 false r) r .s32 one v ∧ true = true) ∧
    (let r := { rule with imm := 0x04#16 }
     fcvtPair .f32 .i32 = true ∧ ∃ v, MayFire (.fcvt .f32 .i32 false r) r .s32 one v ∧ true = true) ∧
    ∀ e ∈ ([Ty.f32, .bf16x2, .f16x2].flatMap fun t => [RMode.rn, .rz, .rd, .ru, .sr].map fun m => (.frnd m t rule, .s32) : List (Instr × ImmW)),
      ∃ v, MayFire e.1 rule e.2 one v ∧ true = true :=
  ⟨⟨by decide +kernel, may_fire (by decide +kernel)⟩, ⟨by decide +kernel, may_fire (by decide +kernel)⟩, ⟨by decide +kernel, may_fire (by decide +kernel)⟩,
    all_may (by decide +kernel)⟩
theorem witness_SpecialFunctions :
    ∀ e ∈ ([SfuFn.rcp, .rsq, .sqrt, .exp2, .log2, .sin, .cos, .sigm, .tanh].map fun f => (.fsfu f rule, .s32) : List (Instr × ImmW)),
      ∃ v, MayFire e.1 rule e.2 one v ∧ true = true := all_may (by decide +kernel)
theorem witness_BlockQuantisation :
    ∀ e ∈ ([Ty.e4m3x4, .e5m2x4, .e2m1x8].flatMap fun t => [(.fxqScale t rule, .s32), (.fxqQ t rule, .s32)] : List (Instr × ImmW)),
      ∃ v, MayFire e.1 rule e.2 one v ∧ true = true := all_may (by decide +kernel)

-- Memory.

theorem hindered {u : State} {r loc : Nat} (h : clear u r loc = false) : ¬Unhindered u r loc := by
  intro ⟨h1, h2, h3⟩
  simp [clear, h1, h2, h3] at h
theorem all_reach {l : List (Instr × Nat × Bool × Bool × Bool × Bool)} {r : Rule} {s : State} {more : View → Nat → State → Bool}
    (h : (l.all fun e => reach e.1 r e.2.1 e.2.2.1 e.2.2.2.1 e.2.2.2.2.1 e.2.2.2.2.2 false s more) = true) :
    ∀ e ∈ l, ∃ v loc u, MayFire e.1 r .s32 s v ∧ Reaches s v e.2.1 e.2.2.1 e.2.2.2.1 e.2.2.2.2.1 e.2.2.2.2.2 false loc u ∧ more v loc u = true :=
  fun e he => reaches (List.all_eq_true.mp h e he)

/-- The checks before translation. -/
def inWindow (v : View) (size : Nat) : Bool :=
  (winOf v).v && decide (offOf v size + size - 1 ≤ (winOf v).limit) && decide (vaOf v size % 32 + size ≤ 32)
theorem in_window {v : View} {size : Nat} (h : inWindow v size = true) : InWindow v size false false := by
  simp only [inWindow, Bool.and_eq_true, decide_eq_true_eq] at h
  exact ⟨h.1.1, h.1.2, h.2, nofun, nofun⟩
theorem out_of_window {v : View} {size : Nat} (h : inWindow v size = false) : ¬InWindow v size false false := by
  intro ⟨h1, h2, h3, _, _⟩
  simp [inWindow, h1, h2, h3] at h

/-- A rule without destinations; one whose access is a release at .die; and one that is an acquire. -/
def bare : Rule := { rule with dst := none }
def releasing : Rule := { rule with imm := 0x700#16 }
/-- As `one`, with d0 at the last word of the window; with a sector in error; with the window at the second GiB, which is not mapped; and with
the window read-only, or without entry. -/
def last : State := with_ 0xFFFFC#32 0#32 0#32 []
def inError : State := { one with store := { one.store with marks := [(loc 0 / 32, 1)] } }
def windowed (w : Window) : State :=
  state { region (ctx (regs 0x10#32 3#32 0x21#32)) with wins := [w] }
def unmapped : State := windowed { base := 2 ^ 30, limit := 0xFFFFF, v := true }

/-- A request of the context, and a state in which it is outstanding. -/
def req (stage : Stage) : Req :=
  { id := 1, org := { ctx := fetchCtx, lease := 7, gang := 5 }, dst := some 3, pdst := none, om := 0#8, colour := 0#4, read := true, acq := false, stage }
def asked (stage : Stage) (s : State := one) : State := { s with fab := { s.fab with reqs := [req stage] }, uid := 2 }
/-- An earlier store of the context at an address is held. -/
def behind (s : State) (va : Nat) : State := asked (.held { op := .st, va, loc := (locOf false va).getD 0, size := 4 }) s

theorem witness_Loads :
    (∃ v loc u, MayFire (.ld .b .i32 rule) rule .s32 last v ∧ Reaches last v 1 false false true false false loc u ∧ (clear u v.r loc && calm u v loc) = true) ∧
    (∃ v loc u, MayFire (.ld .w .u32 rule) rule .s32 (behind last 0x1FFFFC) v ∧ Reaches (behind last 0x1FFFFC) v 4 false false true false false loc u ∧
      later u v (vaOf v 4) loc = true) ∧
    (∃ v, MayFire (.ld .h .i32 bare) bare .s32 one v ∧ true = true) ∧
    (∃ v loc u, MayFire (.ldS .w .i32 rule) rule .s32 last v ∧ Reaches last v 4 false false true false true loc u ∧ (clear u v.r loc && calm u v loc) = true) ∧
    (∃ v loc u, MayFire (.ldS .h .u32 rule) rule .s32 (behind last 0x1FFFFC) v ∧ Reaches (behind last 0x1FFFFC) v 2 false false true false true loc u ∧
      later u v (vaOf v 2) loc = true) ∧
    (∃ v loc u, MayFire (.ldS .w .i32 rule) rule .s32 inError v ∧ Reaches inError v 4 false false true false true loc u ∧
      (!clear u v.r loc && !u.allHeld (coreOf v.r) v.x.isRounded loc 4 && calm u v loc) = true) ∧
    (∃ v, MayFire (.ldS .w .u32 rule) rule .s32 (training last) v ∧
      (inWindow v 4 && (match ((training last).xlate (v.ask (training last) (vaOf v 4) true false true)).1 with
        | .deny .wait => true
        | _ => false)) = true) ∧
    (∃ v, MayFire (.ldS .w .u32 rule) rule .s32 (with_ 0xFFFFD#32 0#32 0#32 []) v ∧ (!inWindow v 4) = true) ∧
    ∃ v, MayFire (.ldS .b .u32 rule) rule .s32 unmapped v ∧
      (inWindow v 1 && (match (unmapped.xlate (v.ask unmapped (vaOf v 1) true false true)).1 with
        | .ok _ => false
        | _ => true)) = true :=
  ⟨reaches (by decide +kernel), reaches (by decide +kernel), may_fire (by decide +kernel), reaches (by decide +kernel), reaches (by decide +kernel),
    reaches (by decide +kernel), may_fire (by decide +kernel), may_fire (by decide +kernel), may_fire (by decide +kernel)⟩

theorem witness_Stores : Fresh last ∧
    (∃ v loc u, MayFire (.st .w rule) rule .s32 last v ∧ Reaches last v 4 false true false true false loc u ∧
      (!v.x.isRounded && !wideRelease v && (u.cut (dieOf v.r) (homeDie loc)).isNone && calm u v loc) = true) ∧
    (∃ v loc u, MayFire (.st .w rule) rule .s32 (behind last 0x1FFFFC) v ∧ Reaches (behind last 0x1FFFFC) v 4 false true false true false loc u ∧
      (!v.x.isRounded && !wideRelease v && later u v (vaOf v 4) loc) = true) ∧
    (∃ v loc u, MayFire (.st .b releasing) releasing .s32 last v ∧ Reaches last v 1 false true false true false loc u ∧
      (!v.x.isRounded && wideRelease v) = true) ∧
    ∃ v loc u, MayFire (.st .h rule) rule .s32 rounded v ∧ Reaches rounded v 2 false true false true false loc u ∧ v.x.isRounded = true :=
  ⟨named (by decide +kernel), reaches (by decide +kernel), reaches (by decide +kernel), reaches (by decide +kernel), reaches (by decide +kernel)⟩

def words (r : Rule) : List Instr :=
  [.aadd .i32 r, .amin .u32 r, .amax .i32 r, .aand .u32 r, .aor .i32 r, .axor .u32 r, .aswap .i32 r, .acas r]
theorem witness_Atomics : one.memoryOk ∧ Fresh one ∧
    (∀ e ∈ (words rule).map (fun i => (i, 4, true, true, true, true)) ++ [(.amaxU64 rule, 8, true, true, true, true)],
      ∃ v loc u, MayFire e.1 rule .s32 one v ∧ Reaches one v e.2.1 e.2.2.1 e.2.2.2.1 e.2.2.2.2.1 e.2.2.2.2.2 false loc u ∧
        (clear u v.r loc && !wideRelease v && calm u v loc) = true) ∧
    (∃ v loc u, MayFire (.acas rule) rule .s32 (behind one 0x100010) v ∧ Reaches (behind one 0x100010) v 4 true true true true false loc u ∧
      (!wideRelease v && later u v (vaOf v 4) loc) = true) ∧
    ∀ e ∈ (words releasing).map (fun i => (i, 4, true, true, true, true)) ++ [(.amaxU64 releasing, 8, true, true, true, true)],
      ∃ v loc u, MayFire e.1 releasing .s32 one v ∧ Reaches one v e.2.1 e.2.2.1 e.2.2.2.1 e.2.2.2.2.1 e.2.2.2.2.2 false loc u ∧ wideRelease v = true :=
  ⟨canonical (by decide +kernel), named (by decide +kernel), all_reach (by decide +kernel), reaches (by decide +kernel), all_reach (by decide +kernel)⟩

theorem witness_ExactSums : (with_ 0#32 0x3DCCCCCD#32 0#32 []).memoryOk ∧
    (∀ e ∈ [(.axaddF32 rule, 32, true, true, true, true), (.xrdClr rule, 32, true, true, true, true), (.xrd rule, 32, true, false, true, false)],
      ∃ v loc u, MayFire e.1 rule .s32 (with_ 0#32 0x3DCCCCCD#32 0#32 []) v ∧
        Reaches (with_ 0#32 0x3DCCCCCD#32 0#32 []) v e.2.1 e.2.2.1 e.2.2.2.1 e.2.2.2.2.1 e.2.2.2.2.2 false loc u ∧
        (clear u v.r loc && !wideRelease v && calm u v loc && decide (v.b = 0x3DCCCCCD#32)) = true) ∧
    (∃ v loc u, MayFire (.axaddF32 rule) rule .s32 (with_ 0#32 0xFE800000#32 0#32 []) v ∧
      Reaches (with_ 0#32 0xFE800000#32 0#32 []) v 32 true true true true false loc u ∧ decide (v.b = 0xFE800000#32) = true) ∧
    ∃ v loc u, MayFire (.axaddF32 rule) rule .s32 (with_ 0#32 0x7F800000#32 0#32 []) v ∧
      Reaches (with_ 0#32 0x7F800000#32 0#32 []) v 32 true true true true false loc u ∧ decide (v.b = 0x7F800000#32) = true :=
  ⟨canonical (by decide +kernel), all_reach (by decide +kernel), reaches (by decide +kernel), reaches (by decide +kernel)⟩

/-- As `one`, but every die link has failed. -/
def severed : State := { one with pkg := { one.pkg with links := List.replicate 4 { failed := true } } }
/-- No window; past the limit; across sectors; not aligned; read-only; beyond 56 bits; not mapped; and a link on the way of the walk that retrains,
or has failed. -/
theorem witness_AccessChecks :
    globalForm (.aadd .i32 rule) = some (2, 4, true, true, true, true) ∧ globalForm (.ld .w .u32 rule) = some (0, 4, false, false, true, false) ∧
    (∃ v, MayFire (.ld .w .u32 rule) rule .s32 (windowed {}) v ∧ (!(winOf v).v) = true) ∧
    (∃ v, MayFire (.ld .w .u32 rule) rule .s32 (with_ 0xFFFFD#32 0#32 0#32 []) v ∧ decide ((winOf v).limit < offOf v 4 + 4 - 1) = true) ∧
    (∃ v, MayFire (.ld .w .u32 rule) rule .s32 (with_ 0x1D#32 0#32 0#32 []) v ∧ (inWindow v 1 && decide (32 < vaOf v 4 % 32 + 4)) = true) ∧
    (∃ v, MayFire (.aadd .i32 rule) rule .s32 (with_ 2#32 0#32 0#32 []) v ∧ (inWindow v 4 && decide (vaOf v 4 % 4 ≠ 0)) = true) ∧
    (∃ v, MayFire (.aadd .i32 rule) rule .s32 (windowed { base := 0x100000, limit := 0xFFFFF, v := true, ro := true }) v ∧
      (inWindow v 4 && decide (vaOf v 4 % 4 = 0) && (winOf v).ro) = true) ∧
    (∃ v, MayFire (.ld .b .u32 rule) rule .s32 (windowed { base := 2 ^ 56 - 32, limit := 0xFFFFF, v := true }) v ∧ true = true) ∧
    (∃ v, MayFire (.ld .b .u32 rule) rule .s32 unmapped v ∧
      (inWindow v 1 && (match (unmapped.xlate (v.ask unmapped (vaOf v 1) true false false)).1 with
        | .deny (.fault 1 _ _) => true
        | _ => false)) = true) ∧
    (∃ v, MayFire (.aadd .i32 rule) rule .s32 (training one) v ∧
      (inWindow v 4 && (match ((training one).xlate (v.ask (training one) (vaOf v 4) true true false)).1 with
        | .deny .wait => true
        | _ => false)) = true) ∧
    (∃ v, MayFire (.aadd .i32 rule) rule .s32 severed v ∧
      (inWindow v 4 && (match (severed.xlate (v.ask severed (vaOf v 4) true true false)).1 with
        | .deny (.link _) => true
        | _ => false)) = true) :=
  ⟨by decide, by decide, may_fire (by decide +kernel), may_fire (by decide +kernel), may_fire (by decide +kernel), may_fire (by decide +kernel),
    may_fire (by decide +kernel), may_fire (by decide +kernel), may_fire (by decide +kernel), may_fire (by decide +kernel), may_fire (by decide +kernel)⟩

-- Scratchpad, tile store and rings.

theorem all_fire {l : List (Instr × Rule × ImmW)} {s : State} {more : View → Bool}
    (h : (l.all fun e => may e.1 e.2.1 e.2.2 s more) = true) : ∀ e ∈ l, ∃ v, MayFire e.1 e.2.1 e.2.2 s v ∧ more v = true :=
  fun e he => may_fire (List.all_eq_true.mp h e he)
/-- d0 a TCPY row word: one row from row 63, into the buffer or out of it; d1 a buffer word. -/
def copying (up : Bool) : State := with_ (if up then 0x8000013F#32 else 0x13F#32) 0x1F80#32 0#32 []
def roundedWith (a b : Word) : State := state { region { ctx (regs a b 0#32) with word := 0xA0200000#32 } with round := { isOpen := true } }

/-- A sweep's beat uses the tile's store in this cycle. -/
def beating : State :=
  let s := with_ 0x1F3F#32 0#32 0#32 []
  { s with cores := { s.cores with sweeps := [{ id := 1, pkt := { opc := 0x51 }, serial := 0, sent := 0, tiles := [{ tile := 0, last := some 0 }] }] } }

theorem witness_LocalStorage : (with_ 0x1FFC#32 0#32 0#32 []).memoryOk ∧
    (∀ e ∈ [(.lds .w .i32 rule, rule, .s32), (.sts .w rule, rule, .s32)], ∃ v, MayFire e.1 e.2.1 e.2.2 (with_ 0x1FFC#32 0#32 0#32 []) v ∧
      (decide (v.a.toNat + 4 ≤ v.g.bufSize 0 ∧ v.a.toNat % 4 = 0) && !(with_ 0x1FFC#32 0#32 0#32 []).spadReadBad (coreOf v.r) v.x.isRounded (v.g.spadKey 0 v.a.toNat) 4) = true) ∧
    (∃ v, MayFire (.sts .h rule) rule .s32 (roundedWith 0x1FFE#32 0#32) v ∧ (v.x.isRounded && decide (v.a.toNat + 2 ≤ v.g.bufSize 0)) = true) ∧
    (∃ v, MayFire (.lds .w .i32 rule) rule .s32 (with_ 0x1FFD#32 0#32 0#32 []) v ∧ decide (v.g.bufSize 0 < v.a.toNat + 4) = true) ∧
    (∃ v, MayFire (.sts .h rule) rule .s32 (with_ 1#32 0#32 0#32 []) v ∧ decide (v.a.toNat + 2 ≤ v.g.bufSize 0 ∧ v.a.toNat % 2 ≠ 0) = true) ∧
    (∀ e ∈ [(.trd rule, rule, .z), (.twr rule, rule, .z)], ∃ v, MayFire e.1 e.2.1 e.2.2 (with_ 0x1F3F#32 0#32 0#32 []) v ∧
      (decide (v.a.toNat < 2 ^ 13 ∧ v.a.toNat % 256 < v.g.rows) && !v.x.isRounded &&
        !(with_ 0x1F3F#32 0#32 0#32 []).tsBad (v.g.rowKey (v.x.el / 16) 63 31) && !(with_ 0x1F3F#32 0#32 0#32 []).storeBusy (v.g.rowKey (v.x.el / 16) 63 31 / 8192)) =
        true) ∧
    (∀ e ∈ [(.trd rule, rule, .z), (.twr rule, rule, .z)], ∃ v, MayFire e.1 e.2.1 e.2.2 beating v ∧
      (decide (v.a.toNat < 2 ^ 13 ∧ v.a.toNat % 256 < v.g.rows) && !v.x.isRounded && !beating.tsBad (v.g.rowKey (v.x.el / 16) 63 31) &&
        beating.storeBusy (v.g.rowKey (v.x.el / 16) 63 31 / 8192)) = true) ∧
    (∃ v, MayFire (.twr rule) rule .z (roundedWith 0x1F3F#32 0#32) v ∧ v.x.isRounded = true) ∧
    (∀ e ∈ [(.trd rule, rule, .z), (.twr rule, rule, .z)], ∃ v, MayFire e.1 e.2.1 e.2.2 (with_ 64#32 0#32 0#32 []) v ∧ decide (v.g.rows ≤ v.a.toNat % 256) = true) ∧
    (∀ e ∈ [(.trd rule, rule, .z), (.twr rule, rule, .z)], ∃ v, MayFire e.1 e.2.1 e.2.2 (with_ 0x2000#32 0#32 0#32 []) v ∧ decide (2 ^ 13 ≤ v.a.toNat) = true) :=
  ⟨canonical (by decide +kernel), all_fire (by decide +kernel), may_fire (by decide +kernel), may_fire (by decide +kernel), may_fire (by decide +kernel),
    all_fire (by decide +kernel), all_fire (by decide +kernel), may_fire (by decide +kernel), all_fire (by decide +kernel), all_fire (by decide +kernel)⟩

def copyFits (v : View) (rd : Bool) : Bool :=
  decide (v.a.toNat % 256 + v.a.toNat / 256 % 512 ≤ v.g.rows ∧ v.b.toNat / 2 ^ 23 % 64 < v.g.bufs.length ∧
    v.b.toNat % 2 ^ 17 + 128 * (v.a.toNat / 256 % 512) ≤ v.g.bufSize 0 ∧ v.a.toNat / 2 ^ 17 % 2 ^ 14 = 0 ∧ v.b.toNat / 2 ^ 17 = 0 ∧
    0 < v.a.toNat / 256 % 512 ∧ v.b.toNat % 16 = 0) && decide (v.x.isRounded = rd)
theorem witness_LocalStorage_copies :
    (∃ v, MayFire (.tcpy rule) rule .z (copying true) v ∧ (copyFits v false && v.a.getLsbD 31 && (copying true).store.badWords.isEmpty) = true) ∧
    (∃ v, MayFire (.tcpy rule) rule .z (copying false) v ∧ (copyFits v false && !v.a.getLsbD 31 && (copying false).store.badWords.isEmpty) = true) ∧
    ∃ v, MayFire (.tcpy rule) rule .z (roundedWith 0x13F#32 0x1F80#32) v ∧ copyFits v true = true :=
  ⟨may_fire (by decide +kernel), may_fire (by decide +kernel), may_fire (by decide +kernel)⟩

/-- Head 8 and tail as given, in a direct and in a rounded context; with a brake. -/
def ringed (tail : Word) (round : Bool) (brake : Option Brake := none) : State :=
  let g := region { ctx (regs 0x10#32 3#32 0x21#32) with word := if round then 0xA0200000#32 else 0x80200000#32 }
  state { g with rings := [{ buf := 0, cap := 4, head := 8#32, tail }], brake, round := { isOpen := round } }

/-- What the ring of a rule holds: how many words, against its capacity. -/
def onRing (s : State) (v : View) (n : Nat) : Bool :=
  decide (s.ringOf v.r 0 = (0, 0)) && (match s.ring 0 0 with
    | some x => decide ((ringTail x (if v.x.isRounded then some v.r else none) - ringBase x (if v.x.isRounded then some v.r else none)).toNat = n)
    | none => false) && (s.parkedOn 0 0 true).isEmpty && (s.parkedOn 0 0 false).isEmpty
def ringForms : List (Instr × Rule × ImmW) := [(.rpush rule, rule, .s32), (.rpushTry rule, rule, .s32), (.rpop rule, rule, .s32), (.rpopTry rule, rule, .s32)]

/-- Neither full nor empty, full, and empty; in a rounded context; under the brake; and a parked push that may be served. -/
theorem witness_Rings : (ringed 11#32 false).memoryOk ∧
    (∀ e ∈ ringForms, ∃ v, MayFire e.1 e.2.1 e.2.2 (ringed 11#32 false) v ∧ (onRing (ringed 11#32 false) v 3 && v.g.brake.isNone) = true) ∧
    (∀ e ∈ ringForms, ∃ v, MayFire e.1 e.2.1 e.2.2 (ringed 12#32 false) v ∧ (onRing (ringed 12#32 false) v 4 && v.g.brake.isNone) = true) ∧
    (∀ e ∈ ringForms, ∃ v, MayFire e.1 e.2.1 e.2.2 (ringed 8#32 false) v ∧ (onRing (ringed 8#32 false) v 0 && v.g.brake.isNone) = true) ∧
    (∀ e ∈ ringForms, ∃ v, MayFire e.1 e.2.1 e.2.2 (ringed 11#32 true) v ∧ (onRing (ringed 11#32 true) v 3 && v.g.brake.isNone && v.x.isRounded) = true) ∧
    (∀ e ∈ ringForms, ∃ v, MayFire e.1 e.2.1 e.2.2 (ringed 11#32 false (some { by_ := .izine, since := 0 })) v ∧ v.g.brake.isSome = true) ∧
    ((asked (.parked (.push 0 0 5#32))).parkedOn 0 0 true = [req (.parked (.push 0 0 5#32))] ∧
      (match (asked (.parked (.push 0 0 5#32))).ring 0 0 with
        | some x => decide ((ringTail x none - ringBase x none).toNat ≠ x.cap)
        | none => false) = true) :=
  ⟨canonical (by decide +kernel), all_fire (by decide +kernel), all_fire (by decide +kernel), all_fire (by decide +kernel), all_fire (by decide +kernel),
    all_fire (by decide +kernel), by decide +kernel⟩

/-- An access past its checks, as a parked WAITA holds it. -/
def waits : GAcc := { op := .waita true, va := 0x100000, loc := loc 0, size := 4, a := 3#32 }

theorem witness_WaitsAndFences : one.memoryOk ∧ Fresh one ∧
    (∀ e ∈ [(.waita true rule, 4, true, true, true, false), (.waita false rule, 4, true, true, true, false)],
      ∃ v loc u, MayFire e.1 rule .s32 one v ∧ Reaches one v e.2.1 e.2.2.1 e.2.2.2.1 e.2.2.2.2.1 e.2.2.2.2.2 false loc u ∧
        (clear u v.r loc && calm u v loc && decide ((u.waiting (clusterOf v.r)).length < 4096) && decide (v.b ≠ 0#32) &&
          decide (clusterNat u (clusterOf v.r) loc 4 = 0)) = true) ∧
    (asked (.parked (.waita waits 9 (some 4#32)))).req 1 = some (req (.parked (.waita waits 9 (some 4#32)))) ∧
    (∀ tm ∈ [0, 1], (asked (.parked (.waita waits tm none))).req 1 = some (req (.parked (.waita waits tm none))) ∧
      one.cut 0 (homeDie waits.loc) = none ∧ one.markOf waits.loc = none ∧ one.retrains 0 (homeDie waits.loc) = false) ∧ one.regionClk 0 = 0 ∧
    ((training (asked (.parked (.waita waits 0 none)))).req 1 = some (req (.parked (.waita waits 0 none))) ∧ (training one).retrains 0 (homeDie waits.loc) = true) ∧
    (∃ v, MayFire (.fence rule) rule .z one v ∧ (!v.x.isRounded && !wideRelease v) = true) ∧
    (∃ v, MayFire (.fence rule) rule .z rounded v ∧ v.x.isRounded = true) ∧
    (∃ v, MayFire (.fence releasing) releasing .z one v ∧ (!v.x.isRounded && wideRelease v) = true) ∧
    ∃ q ∈ ({ one with fab := { one.fab with reqs := [{ req (.fence false) with acq := true }] } } : State).reqsOf fetchCtx, q.acq = true :=
  ⟨canonical (by decide +kernel), named (by decide +kernel), all_reach (by decide +kernel), by decide +kernel, by decide +kernel, by decide +kernel, by decide +kernel, may_fire (by decide +kernel), may_fire (by decide +kernel),
    may_fire (by decide +kernel), by decide +kernel⟩

/-- A wide release under way for something. -/
def releases (for_ : WideFor) (lines : List Nat) (s : State := one) : State := { s with store := { s.store with wides := [{ id := 1, lines, for_ }] } }
def storing : GAcc := { op := .st, va := 0x100000, loc := loc 0, size := 4, a := 0x10#32, b := 3#32, wide := true }

theorem witness_WriteBacksAndReleases : one.memoryOk ∧
    (∀ p ∈ [(0, 0), (15, pkgBytes - 1)], p.1 < 16 ∧ p.2 < pkgBytes ∧ one.cut (p.1 / 4) (homeDie p.2) = none ∧ one.training (p.1 / 4) (homeDie p.2) = false) ∧
    one.store.badDirty = [] ∧
    (∀ f ∈ [(WideFor.ccctl, []), (.ccctl, [0]), (.gang 5, [])], (releases f.1 f.2).store.wides.find? (fun x => x.id = 1) = some { id := 1, lines := f.2, for_ := f.1 }) ∧
    ((releases (.req 1) [] (asked (.wide 1 (.fence false)))).req 1).map (fun q => q.stage) = some (.wide 1 (.fence false)) ∧
    ((releases (.req 1) [] (asked (.wide 1 (.access storing)))).req 1).map (fun q => q.stage) = some (.wide 1 (.access storing)) ∧
    storing.op = .st ∧ storing.wide = true ∧ one.cut 0 (homeDie storing.loc) = none ∧ storing.loc < pkgBytes ∧ storing.loc % 32 + storing.size ≤ 32 ∧
    Turn (releases (.req 1) [] (asked (.wide 1 (.access storing)))) fetchCtx 7 1 storing.va storing.loc ∧
    (let s : State := { one with store := { one.store with dirty := [(1, 5#8)] } }
     (List.range 128).any (fun i => (s.store.dirty.look (dirtyKey 0 (0 + i))).isSome) = true) :=
  ⟨canonical (by decide +kernel), by decide +kernel, by decide +kernel, by decide +kernel, by decide +kernel, by decide +kernel, by decide +kernel, by decide +kernel,
    by decide +kernel, by decide +kernel, by decide +kernel, no_earlier (by decide +kernel), by decide +kernel⟩

-- Tokens and replies.

theorem kept {s : State} {p : Nat} (h : (s.regions.all fun e => e.2.ctxs.all fun c => !c.retired && !((s.region e.1).map fun g => g.dead).getD false) = true) (k : Nat) :
    s.discards p k = none := by
  unfold State.discards
  split
  · rename_i r c ho
    unfold State.ownerOf at ho
    obtain ⟨e, he, hc⟩ := List.exists_of_findSome?_eq_some ho
    obtain ⟨x, hx, hy⟩ := Option.map_eq_some_iff.mp hc
    obtain ⟨rfl, rfl⟩ := Prod.mk.injEq .. ▸ hy
    have h2 := List.all_eq_true.mp (List.all_eq_true.mp h e he) x (List.mem_of_find?_eq_some hx)
    rw [Bool.and_eq_true, Bool.not_eq_true', Bool.not_eq_true'] at h2
    simp [h2.1, h2.2]
  · rfl

def due (at_ : Nat) (glitch : Tab Nat := []) (redo : Option Bool := none) : State :=
  { one with fab := { one.fab with wbs := [{ id := 1, ctx := fetchCtx, slot := 0, due := at_, dst := some 3, pdst := none, om := 0#8, done := { res := 5#32 }, redo }], glitch } }
theorem witness_TokensAndReplies_writes :
    (due 1).regionClk 0 < 1 ∧ (due 0).fab.glitch.look ((due 0).physOf fetchCtx) = none ∧
    (due 0 [(0, 1)]).fab.glitch.look ((due 0 [(0, 1)]).physOf fetchCtx) = some 1 ∧
    (∀ x ∈ [none, some false, some true], (due 0 [] x).fab.wbs.find? (fun y => y.id = 1) = (due 0 [] x).fab.wbs.head? ∧
      ((due 0 [] x).fab.wbs.map fun w => (w.redo, decide (w.due ≤ (due 0 [] x).regionClk w.ctx.region))) = [(x, true)]) ∧
    ((one.ctx fetchCtx).map fun x => x.isRounded) = some false := by decide +kernel

/-- The stages of a request, whose region is placed; and with another lease. -/
theorem witness_TokensAndReplies_replies :
    (∀ st ∈ [Stage.reply { res := 5#32 }, .ack, .fence false, .fence true, .bad { cls := 0x0B } { good := false }],
      (asked st).req 1 = some (req st) ∧ ((asked st).region 0).map (fun g => (g.dead, g.lease)) = some (false, 7)) ∧
    (let s := { (asked (.reply {})) with regions := [(0, { region (ctx (regs 0#32 0#32 0#32)) with lease := 8 })] }
     s.req 1 = some (req (.reply {})) ∧ (s.region 0).map (fun g => g.lease) = some 8) := by decide +kernel

def node : Node := { pkt := { opc := 0x44 }, edge := 1, ctx := fetchCtx, o := 0, n := 1, blk := 1 }
def flying (to_ : Option (Nat × Nat)) : State :=
  let s := state { region (ctx (regs 0#32 0#32 0#32)) with nodes := [(1, node)], gens := [(4, {})] }
  { s with fab := { s.fab with flits := [{ id := 1, own := 9, ctx := fetchCtx, o := 0, node := to_, filled := true, payload := 7#32 }],
                               credRets := [{ id := 1, dest := .route fetchCtx 7, at_ := 0 }, { id := 2, dest := .gen 0 4, at_ := 0 },
                                 { id := 3, dest := .node 0 1, at_ := 0 }, { id := 4, dest := .node 0 1, at_ := 1 }] } }
theorem witness_TokensAndReplies_tokens :
    (∀ to_ ∈ [none, some (0, 1)], ∀ f ∈ (flying to_).fab.flits.head?, (flying to_).fab.flits.find? (fun x => x.id = 1) = some f ∧ f.filled = true ∧ f.owes = false ∧
      f.arrive ≤ (flying to_).regionClk f.ctx.region ∧ (flying to_).fab.flits.takeWhile (fun x => x.id != 1) = []) ∧
    routeTarget 0 (((flying none).ctx fetchCtx).map fun x => x.routes.getD 0 0#32).get! = some 0 ∧
    (∀ k, (flying none).discards 0 k = none) ∧
    ((flying (some (0, 1))).region 0).bind (fun g => g.nodes.look 1) = some node ∧
    ((flying none).region 0).bind (fun g => g.gens.look 4) = some {} ∧
    (∀ id ∈ [1, 2, 3, 4], ((flying none).fab.credRets.find? fun x => x.id = id).map (fun c => decide (c.at_ ≤ (flying none).regionClk c.dest.region)) =
      some (decide (id < 4))) :=
  ⟨by decide +kernel, by decide +kernel, kept (by decide +kernel), by decide +kernel, by decide +kernel, by decide +kernel⟩

/-- The follower of a chain, whose slot tests p0, which is false. -/
def masking : State :=
  let slot : Slot := { w0 := 0x01010000#32, w1 := 0x04040000#32, w2 := 0x00804049#32 }
  let lead : Ctx := { ctx (regs 1#32 2#32 3#32) with hist := [some 0, some 0], slots := [slot] }
  let fol : Ctx := { ctx (regs 5#32 0#32 7#32) with el := 1, word := 0x9C200000#32, slots := [slot] }
  state { region lead with ctxs := [lead, fol] }
theorem witness_TokensAndReplies_masked :
    (match slotView masking { ctx := { region := 0, el := 1, k := 0 }, slot := 0, follower := true } with
      | some (i, v) => v.masked i masking && decide (v.dueSlot = some 0)
      | none => false) = true ∧ ∀ p k, masking.discards p k = none :=
  ⟨by decide +kernel, fun _ => kept (by decide +kernel)⟩

-- Generators, graphics and tracing.

/-- Two tokens from 0x100000 on, to channel 0 of the context itself. -/
def block : List Word := [0x100000#32, 0#32, 2#32, 1#32, 1#32, 1#32, 4#32, 0#32, 0#32, 0#32, 0x10000#32, 1#32, 0#32, 0#32, 0#32, 0#32]
def streaming (x : Gen) : State := state { region (ctx (regs 0x10#32 3#32 0x21#32)) with gens := [(0, x)] }
def genForms : List (Instr × Rule × ImmW) :=
  [(.agset 15 bare, bare, .z), (.agctlStart bare, bare, .z), (.agctlStop bare, bare, .z), (.agctlRew bare, bare, .z), (.agctlStat bare, bare, .z)]

theorem witness_Generators :
    (∀ e ∈ genForms, ∃ v, MayFire e.1 e.2.1 e.2.2 (streaming { p := block }) v ∧
      (!(v.g.gens.lookD v.genOf {}).running && decide (v.startCode (streaming { p := block }) v.genOf (v.g.gens.lookD v.genOf {}) = 0)) = true) ∧
    (∀ e ∈ genForms, ∃ v, MayFire e.1 e.2.1 e.2.2 (streaming { p := block, running := true }) v ∧ (v.g.gens.lookD v.genOf {}).running = true) ∧
    (∃ v, MayFire (.agctlStart bare) bare .z (streaming {}) v ∧
      decide (v.startCode (streaming {}) v.genOf (v.g.gens.lookD v.genOf {}) = 4) = true) ∧
    (∀ i ∈ [0, 1], let y : Gen := { p := block, pos := i, running := true, quota := 1, credits := 1, fetch := .reading }
      let s := streaming y
      (s.region 0).map (fun g => (g.gens.look 0, g.genDue 0 0 y)) = some (some y, true) ∧ genSrc y.p = 0 ∧ i < genCnt y.p 0 ∧ 0 < genCnt y.p 1 ∧ 0 < genCnt y.p 2 ∧
      y.pos = i + genCnt y.p 0 * (0 + genCnt y.p 1 * (0 + genCnt y.p 2 * 0)) ∧
      (match s.xlate { die := 0, core := some (microTlb 0 0), as_ := 0, va := 0x100000 + 4 * i, r := true, gang := 5 } with
        | (.ok loc, u) => clear u 0 loc && !u.retrains 0 (homeDie loc)
        | _ => false) = true) ∧
    (let y : Gen := { p := block, pos := 1, running := true, quota := 1, credits := 1, fetch := .ready 5#32 }
     ((streaming y).region 0).map (fun g => (g.gens.look 0, g.genDue 0 0 y)) = some (some y, true) ∧ genEl y.p = 0) ∧
    ∀ k, (streaming {}).discards 0 k = none :=
  ⟨all_fire (by decide +kernel), all_fire (by decide +kernel), may_fire (by decide +kernel), by decide +kernel, by decide +kernel, kept (by decide +kernel)⟩

/-- A locator of the last place in the buffer that takes a record of 24 bytes. -/
theorem witness_Coverage :
    ∀ b ∈ [0xFFFFFFFF#32, 0#32, 0x8FFF0FFF#32], ∃ v, MayFire (.cover rule) rule .z (with_ 0x1FE0#32 b 0#32 []) v ∧
      decide (v.b = b ∧ 0 < v.g.bufs.length ∧ v.a.toNat % 2 ^ 17 + 24 ≤ v.g.bufSize 0 ∧ v.a.toNat / 2 ^ 17 = 0 ∧ v.a.toNat % 32 = 0 ∧
        (with_ 0x1FE0#32 b 0#32 []).spadReadBad (coreOf v.r) v.x.isRounded (v.g.spadKey 0 0x1FE0) 24 = false) = true := by
  intro b hb
  rcases List.mem_cons.mp hb with rfl | hb
  · exact may_fire (by decide +kernel)
  rcases List.mem_cons.mp hb with rfl | hb
  · exact may_fire (by decide +kernel)
  rcases List.mem_singleton.mp hb with rfl
  exact may_fire (by decide +kernel)

/-- A descriptor of one level of one texel at VA 0, and the first GiB in the TLB of the core. -/
def textured : State :=
  let s := state (region (ctx (regs 0#32 0#32 0#32)))
  let u := (s.xlate { die := 0, core := some 0, as_ := 0, va := 0, r := true, gang := 5 }).2
  let at_ : Nat := match (u.xlate { die := 0, core := some 0, as_ := 0, va := 0x30C000, r := true, gang := 5 }).1 with
    | .ok l => l
    | _ => 0
  { u with store := { u.store with cells := cellsPut u.store.cells (at_ + 10) [1#8] } }
def texelLoc (a : Nat) : Nat :=
  match (textured.xlate { die := 0, core := some 0, as_ := 0, va := a, r := true, gang := 5 }).1 with
  | .ok l => l
  | _ => 0
def texHyps (v : View) (f : TexFn) : Bool :=
  let bytes (a n : Nat) : List Byte := (List.range n).map fun i => textured.readByte (coreOf v.r) v.x.isRounded (texelLoc a + i)
  let ask (a : Nat) (tex : Bool) : Ask := { die := dieOf v.r, core := some (coreOf v.r), as_ := 0, va := a, r := true, gang := v.g.gang, tex }
  let taps := texTaps (texDesc (bytes 0x30C000 32)) f (realOf v.a) (realOf v.b) (realOf v.c)
  decide ((textured.gang v.g.gang).map (fun g => (g.arg, g.as_)) = some (0x300000, 0)) && (badTexDesc (bytes 0x30C000 32)).isNone &&
    decide (textured.xlate (ask 0x30C000 false) = (.ok (texelLoc 0x30C000), textured)) &&
    textured.fab.reqs.isEmpty && ((List.range 32).all fun k => clear textured v.r (texelLoc 0x30C000 + k)) && decide (taps ≠ []) &&
    taps.all fun t => decide (textured.xlate (ask t.1 true) = (.ok (texelLoc t.1), textured)) && clear textured v.r (texelLoc t.1)
theorem witness_TextureSamples : Fresh textured ∧
    (∃ v, MayFire (.tex .pt rule) rule .f32 textured v ∧ texHyps v .pt = true) ∧ (∃ v, MayFire (.tex .lin rule) rule .f32 textured v ∧ texHyps v .lin = true) ∧
    ∃ v, MayFire (.tex .tri rule) rule .f32 textured v ∧ texHyps v .tri = true :=
  ⟨named (by decide +kernel), may_fire (by decide +kernel), may_fire (by decide +kernel), may_fire (by decide +kernel)⟩

/-- A ray from (0, 0, −1) along z, from 0 to 2, and a triangle with ID 9 that it meets at 1. -/
def rayWords : List Word := [0#32, 0#32, 0xBF800000#32, 0#32, 0#32, 0#32, 0x3F800000#32, 0#32, 0x40000000#32, 0xFFFFFFFF#32, 0#32, 0#32]
def triWords : List Word :=
  [0xBF800000#32, 0xBF800000#32, 0#32, 0x3F800000#32, 0xBF800000#32, 0#32, 0#32, 0x3F800000#32, 0#32, 9#32, 0#32, 0#32]
def ofWords (at_ : Nat) (ws : List Word) : List Host.Cell :=
  ((ws.map wordLe).flatten.mapIdx fun i b => (at_ + i, b)).filter fun c => c.2 ≠ 0#8
def tracing : State := with_ 0#32 0#32 0#32 (ofWords (loc 0) triWords) (ofWords 0 rayWords)
def finite (w : Word) : Bool := match fpLane .f32 w 0 with
  | .fin .. => true
  | _ => false
theorem is_finite {w : Word} (h : finite w = true) : Finite w := by
  unfold finite at h
  split at h
  · rename_i n x hx
    exact ⟨n, x, hx⟩
  · cases h
def goes (s : State) (fn : Nat) (v : View) (more : List Byte → List Byte → Bool) : Bool :=
  match s.isectGo v.r v.g v.x.isRounded fn v.a v.b v.f.ctx s.uid with
  | (.go _ ray bs none, _) => more ray bs
  | _ => false
theorem gone_to {s : State} {fn : Nat} {v : View} {more : List Byte → List Byte → Bool} (h : goes s fn v more = true) :
    ∃ key ray bs u, s.isectGo v.r v.g v.x.isRounded fn v.a v.b v.f.ctx s.uid = (.go key ray bs none, u) ∧ more ray bs = true := by
  unfold goes at h
  split at h
  · rename_i k r b u he
    exact ⟨k, r, b, u, he, h⟩
  · cases h
def located (v : View) : Bool :=
  decide (v.a.toNat / 2 ^ 23 < v.g.bufs.length ∧ v.a.toNat % 2 ^ 17 + 64 ≤ v.g.bufSize 0 ∧ v.a.toNat / 2 ^ 17 = 0 ∧ v.a.toNat % 64 = 0)

/-- Every form finds its records; the triangle's is a hit that is nearer; a box form's ray is in range. -/
theorem witness_Intersections : tracing.memoryOk ∧ Fresh tracing ∧
    (∃ v, MayFire (.isectBox4 rule) rule .z tracing v ∧ (located v && goes tracing 0 v fun ray _ => decide (ray = (rayWords.map wordLe).flatten)) = true) ∧
    (∃ v, MayFire (.isectTri rule) rule .z tracing v ∧ (located v && goes tracing 1 v fun ray bs => decide (ray = (rayWords.map wordLe).flatten ∧
      bs.take 48 = (triWords.map wordLe).flatten ∧ (match isectTest 1 ray bs with
        | .hit t _ _ => (fpLane .f32 t 0).less (fpLane .f32 (recAt ray 8) 0)
        | _ => false) = true)) = true) ∧
    (∃ v, MayFire (.isectRib rule) rule .z tracing v ∧ (located v && goes tracing 2 v fun _ _ => true) = true) ∧
    (∃ v, MayFire (.isectTube rule) rule .z tracing v ∧ (located v && goes tracing 3 v fun _ _ => true) = true) ∧
    (∃ v, MayFire (.isectBlp rule) rule .z tracing v ∧ (located v && goes tracing 4 v fun _ _ => true) = true) :=
  ⟨canonical (by decide +kernel), named (by decide +kernel), may_fire (by decide +kernel), may_fire (by decide +kernel), may_fire (by decide +kernel),
    may_fire (by decide +kernel), may_fire (by decide +kernel)⟩
/-- The ray is in range, the triangle is none of a line, and the ray lies in it at 1, and nowhere else. -/
theorem witness_Intersections_triangle :
    let ray := (rayWords.map wordLe).flatten
    let bs := (triWords.map wordLe).flatten
    let p (n a : Nat) : ℚ := realOf (recAt bs (3 * n + a))
    let inside (t x y : ℚ) : Prop := 0 ≤ x ∧ 0 ≤ y ∧ x + y ≤ 1 ∧
      ∀ a, a < 3 → rayAt ray t a = p 0 a + x * (p 1 a - p 0 a) + y * (p 2 a - p 0 a)
    (∀ n, n ∈ [0, 1, 2, 3, 4, 5, 6, 8] → Finite (recAt ray n)) ∧ realOf (recAt ray 3) ≤ realOf (recAt ray 8) ∧ realOf (recAt ray 6) ≠ 0 ∧
    (∀ n, n < 9 → Finite (recAt bs n)) ∧ (p 1 0 - p 0 0) * (p 2 1 - p 0 1) ≠ (p 1 1 - p 0 1) * (p 2 0 - p 0 0) ∧
    inside 1 (1 / 4) (1 / 2) ∧ ∀ t x y : ℚ, inside t x y → 1 ≤ t := by
  intro ray bs p inside
  refine ⟨fun n h => is_finite ((by decide +kernel : ∀ n ∈ [0, 1, 2, 3, 4, 5, 6, 8], finite (recAt ray n) = true) n h), by decide +kernel, by decide +kernel,
    fun n h => is_finite ((by decide +kernel : ∀ n < 9, finite (recAt bs n) = true) n h), by decide +kernel, by decide +kernel, ?_⟩
  intro t x y h
  have h2 := h.2.2.2 2 (by decide)
  have e0 : p 0 2 = 0 := by decide +kernel
  have e1 : p 1 2 = 0 := by decide +kernel
  have e2 : p 2 2 = 0 := by decide +kernel
  have o : realOf (recAt ray 2) = -1 := by decide +kernel
  have d : realOf (recAt ray 6) = 1 := by decide +kernel
  rw [e0, e1, e2] at h2
  simp only [rayAt, o] at h2
  rw [show (4 + 2) = 6 from rfl, d] at h2
  linarith

def tracingWith (rdbg tail : Word) : State :=
  { one with rregs := [(0, { rdbg })], pkg := { mmio := [(0x100008, 1#32), (0x101050, tail)] } }
def traceForms : List (Instr × Rule × ImmW) := [(.dbgMark bare, bare, .z), (.dbgDump bare, bare, .z)]
theorem witness_TracesAndStepMode : one.memoryOk ∧
    (∀ e ∈ traceForms, ∃ v, MayFire e.1 e.2.1 e.2.2 one v ∧ (decide (v.x.regs.length = 8) && !(one.rreg v.r).rdbg.getLsbD 4) = true) ∧
    (∀ e ∈ traceForms, ∃ v, MayFire e.1 e.2.1 e.2.2 { rounded with rregs := [(0, { rdbg := 16#32 })] } v ∧ (decide (v.x.regs.length = 8) && v.x.isRounded) = true) ∧
    (∀ e ∈ traceForms, ∃ v, MayFire e.1 e.2.1 e.2.2 (tracingWith 16#32 63#32) v ∧
      (decide (v.x.regs.length = 8) && !v.x.isRounded && ((tracingWith 16#32 63#32).rreg v.r).rdbg.getLsbD 4 &&
        decide ((tracingWith 16#32 63#32).mmio (dispPage 0 + 0x50) 0#32 = 63#32 ∧ 2 ^ min 20 (max 6 ((tracingWith 16#32 63#32).mmio (dispPage 0 + 0x48) 6#32).toNat) = 64)) = true) ∧
    (∀ e ∈ traceForms, ∃ v, MayFire e.1 e.2.1 e.2.2 (tracingWith 16#32 64#32) v ∧
      (decide (v.x.regs.length = 8) && decide ((tracingWith 16#32 64#32).mmio (dispPage 0 + 0x50) 0#32 = 64#32)) = true) ∧
    (let s := state { region (ctx (regs 0#32 0#32 0#32)) with stepping := true }
     (s.region 0).map (fun g => (g.stepping, g.ctxs.all fun c => !c.isRounded)) = some (true, true) ∧ s.fab.wbs = [] ∧ s.fab.reqs = []) ∧
    -- A request of before the step, and one of the step.
    (∀ n ∈ [1, 2], let s := asked .sent (state { region (ctx (regs 0#32 0#32 0#32)) with stepping := true, stepFrom := n })
     (s.region 0).map (fun g => (g.stepping, g.stepFrom)) = some (true, n) ∧ (s.fab.reqs.all fun q => decide (q.id < n)) = decide (n = 2)) ∧
    (one.region 0).map (fun g => g.stepping) = some false :=
  ⟨canonical (by decide +kernel), all_fire (by decide +kernel), all_fire (by decide +kernel), all_fire (by decide +kernel), all_fire (by decide +kernel), by decide +kernel,
    by decide +kernel⟩

-- Engine commands.

def fits64 (w : Word) (align : Nat) : Bool := decide (w.toNat + 64 ≤ 8192 ∧ w.toNat % align = 0)
def engineForms : List (Instr × Rule × ImmW) :=
  [(.wld rule, rule, .s32), (.sweep rule, rule, .s32), (.sweepSwap rule, rule, .s32), (.cturn rule, rule, .s32), (.copy rule, rule, .s32), (.launch rule, rule, .s32)] ++
  [CollFn.arTree, .arExact, .rsTree, .rsExact, .ag, .bc].map fun f => (.cllct f rule, rule, .s32)
/-- The forms that take a locator from a register. -/
def locatorForms : List (Instr × Rule × ImmW) :=
  engineForms.take 6 ++ [(.qput rule, rule, .z), (.qpop rule, rule, .z), (.cover rule, rule, .z)]
def placed (s : State) (align : Nat) (v : View) : Bool :=
  fits64 v.a align && fits64 v.b align && decide (0 < v.g.bufs.length ∧ v.g.bufSize 0 = 8192) && !s.spadReadBad (coreOf v.r) v.x.isRounded (v.g.spadKey 0 v.a.toNat) 64
/-- The gang fills a block in slot 3 of its die, or has filled it. -/
def filling (fills : List Fill) (s : State := one) : State :=
  { s with dies := { s.dies with gangs := [(5, { gang with fill := some 3 })], fills } }
def fill : Fill := { die := 0, slot := 3, as_ := 0, rng := 0, blk := 0, depth := 0, anc := [], gang := 5, since := 0, timeout := 0 }

/-- The record at the end of the buffer. -/
theorem witness_EngineCommands : (with_ 0x1FC0#32 0x1FC0#32 0#32 []).memoryOk ∧ Fresh (with_ 0x1FC0#32 0x1FC0#32 0#32 []) ∧
    (∀ e ∈ engineForms ++ [(.qput rule, rule, .z)], ∃ v, MayFire e.1 e.2.1 e.2.2 (with_ 0x1FC0#32 0x1FC0#32 0#32 []) v ∧
      (placed (with_ 0x1FC0#32 0x1FC0#32 0#32 []) 64 v && !v.x.isRounded) = true) ∧
    (∀ e ∈ engineForms ++ [(.qput rule, rule, .z)], ∃ v, MayFire e.1 e.2.1 e.2.2 (roundedWith 0x1FC0#32 0x1FC0#32) v ∧
      (placed (roundedWith 0x1FC0#32 0x1FC0#32) 64 v && v.x.isRounded) = true) ∧
    (∀ e ∈ locatorForms, ∃ v, MayFire e.1 e.2.1 e.2.2 (with_ 0x2000#32 0x2000#32 0#32 []) v ∧
      decide (v.a.toNat = 8192 ∧ v.b.toNat = 8192 ∧ v.g.bufSize 0 = 8192) = true) ∧
    (∀ e ∈ locatorForms, ∃ v, MayFire e.1 e.2.1 e.2.2 (with_ 8#32 8#32 0#32 []) v ∧ decide (v.a.toNat % 16 = 8 ∧ v.b.toNat % 16 = 8 ∧ v.g.bufSize 0 = 8192) = true) :=
  ⟨canonical (by decide +kernel), named (by decide +kernel), all_fire (by decide +kernel), all_fire (by decide +kernel), all_fire (by decide +kernel),
    all_fire (by decide +kernel)⟩
def fillForms : List (Instr × Rule × ImmW) := [(.pdone rule, rule, .z), (.pfail rule, rule, .s32)]
theorem witness_EngineCommands_fills :
    (∀ e ∈ fillForms, ∃ v, MayFire e.1 e.2.1 e.2.2 one v ∧ (one.fillOfGang v.g.gang).isNone = true) ∧
    (∀ e ∈ fillForms, ∃ v, MayFire e.1 e.2.1 e.2.2 rounded v ∧ v.x.isRounded = true) ∧
    (∀ e ∈ fillForms, ∃ v, MayFire e.1 e.2.1 e.2.2 (filling []) v ∧ ((filling []).fillOfGang v.g.gang).isNone = true) ∧
    (∀ e ∈ fillForms, ∃ v, MayFire e.1 e.2.1 e.2.2 (filling [fill]) v ∧ decide ((filling [fill]).fillOfGang v.g.gang = some fill) = true) :=
  ⟨all_fire (by decide +kernel), all_fire (by decide +kernel), all_fire (by decide +kernel), all_fire (by decide +kernel)⟩

-- The sync unit.

def syncForms : List (Instr × Rule × ImmW) := [(.semSig rule, rule, .s32), (.barx rule, rule, .s32), (.bara rule, rule, .s32)]
def barred (b : Bar) (s : State := one) : State := { s with cores := { s.cores with bars := [(0, b)] } }
def synced (what : SyncDo) (due : Nat) (b : Bar := {}) (req : Nat := 1) : State :=
  let s := barred b (asked .sent)
  { s with cores := { s.cores with syncs := [{ id := 1, core := 0, org := { ctx := fetchCtx }, req, due, what }] } }
/-- A barrier that completes, one that waits, one that breaks for an arrival too many, one that is not configured. -/
theorem witness_SyncUnit :
    (∀ e ∈ syncForms, ∃ v, MayFire e.1 e.2.1 e.2.2 one v ∧ (!v.x.isRounded) = true) ∧
    (∀ e ∈ syncForms, ∃ v, MayFire e.1 e.2.1 e.2.2 rounded v ∧ v.x.isRounded = true) ∧
    (∃ v, MayFire (.semRd rule) rule .z one v ∧ true = true) ∧
    (∃ v, MayFire (.barw rule) rule .z (barred { exp := 2, phase := 0x10 }) v ∧
      decide ((((barred { exp := 2, phase := 0x10 }).bar (coreOf v.r) 0).phase + 65536 - v.a.toNat % 65536) % 65536 < 32768) = true) ∧
    (∃ v, MayFire (.barw rule) rule .z (barred { exp := 2, phase := 0xF }) v ∧
      decide (((barred { exp := 2, phase := 0xF }).bar (coreOf v.r) 0).abt = false ∧
        ¬(((barred { exp := 2, phase := 0xF }).bar (coreOf v.r) 0).phase + 65536 - v.a.toNat % 65536) % 65536 < 32768) = true) ∧
    (∀ w ∈ [0#32, 1#32], (asked (.parked (.barw 0 0 w))).req 1 = some (req (.parked (.barw 0 0 w)))) ∧
    (one.clk 0 < 1 ∧ ∀ x ∈ [(SyncDo.sig 255 7#32, {}, 1), (.bara 0, { exp := 1 }, 1), (.bara 0, { exp := 2 }, 0), (.bara 0, { exp := 1, arr := 1 }, 1), (.bara 0, {}, 0),
        (.barx 0 5#32, { exp := 1 }, 1), (.barx 0 1#32, { exp := 1, pend := 2 ^ 31 - 1 }, 0)],
      ∀ d ∈ [0, 1], ((synced x.1 d x.2.1 x.2.2).cores.syncs.find? fun y => y.id = 1).map (fun o => (o.what, o.due, o.req)) = some (x.1, d, x.2.2) ∧
        (synced x.1 d x.2.1 x.2.2).bar 0 0 = x.2.1) :=
  ⟨all_fire (by decide +kernel), all_fire (by decide +kernel), may_fire (by decide +kernel), may_fire (by decide +kernel), may_fire (by decide +kernel), fun _ _ => rfl,
    by decide +kernel⟩

-- Hardware queues.

/-- Queue 4095 of die 0: four items of 16 bytes from PA 0x40000; some bytes there. -/
def hqueue (h : HQueue) : HQueue := { h with blo := 0x40000#32 }
def queued (h : HQueue) (s : State := one) (bytes : List Byte := []) : State :=
  ({ s with dies := { s.dies with queues := [(4095, hqueue h)] } } : State).physPut 0x40000 bytes
def last4095 : Rule := { rule with imm := 0xFFF#16 }
def linked (s : State) (v : View) (h : HQueue) (w : Word) : Bool :=
  let homes := if h.en then h.slotDies w else []
  !s.queueWaits (dieOf v.r) 0 homes && (s.queueCut (dieOf v.r) 0 homes).isNone
def onQueue (h : HQueue) (v : View) : Bool :=
  decide ((queued h).hq 0 4095 = hqueue h) && decide (v.a = 0x10#32) && ((queued h).queueParked 0 4095 1).isEmpty && ((queued h).queueParked 0 4095 2).isEmpty &&
    [h.res, h.head, v.a].all fun w => linked (queued h) v (hqueue h) w
def en4 : Word := 0x80000002#32
def holder : Holder := { launch := 5#32, inst := 0, actor := 0, el := 0, k := 0 }
theorem witness_HardwareQueues_rules :
    (queued { cfg := en4 } one (List.replicate 64 0x5A#8 ++ [2#8])).memoryOk ∧ Fresh (queued { cfg := en4 }) ∧
    (∃ v, MayFire (.qrsv last4095) last4095 .z (queued {}) v ∧ (onQueue {} v && !(hqueue {}).en && !(hqueue {}).clearing) = true) ∧
    (∃ v, MayFire (.qrsv last4095) last4095 .z (queued { cfg := 0xC0000002#32 }) v ∧ (onQueue { cfg := 0xC0000002#32 } v && (hqueue { cfg := 0xC0000002#32 }).closed) = true) ∧
    (∃ v, MayFire (.qrsv last4095) last4095 .z (queued { cfg := en4, res := 3#32, head := 0xFFFFFFFF#32 }) v ∧
      (onQueue { cfg := en4, res := 3#32, head := 0xFFFFFFFF#32 } v && (hqueue { cfg := en4, res := 3#32, head := 0xFFFFFFFF#32 }).full) = true) ∧
    (∃ v, MayFire (.qrsv last4095) last4095 .z (queued { cfg := en4 }) v ∧
      (onQueue { cfg := en4 } v && (hqueue { cfg := en4 }).en && !(hqueue { cfg := en4 }).closed && !(hqueue { cfg := en4 }).full) = true) ∧
    (hqueue { cfg := en4 }).base + (hqueue { cfg := en4 }).cap * (hqueue { cfg := en4 }).isize + ((hqueue { cfg := en4 }).cap + 3) / 4 ≤ pkgBytes ∧
    (∃ v, MayFire (.qcan last4095) last4095 .z (queued { cfg := en4, res := 0x11#32, head := 0xF#32, held := [(0x10#32, holder)] }) v ∧
      (onQueue { cfg := en4, res := 0x11#32, head := 0xF#32, held := [(0x10#32, holder)] } v &&
        ({ cfg := en4, res := 0x11#32, head := 0xF#32, held := [(0x10#32, holder)] } : HQueue).holds v.a ((queued {}).holder v.f.ctx)) = true) ∧
    (∃ v, MayFire (.qcan last4095) last4095 .z (queued { cfg := en4 }) v ∧ (onQueue { cfg := en4 } v) = true) ∧
    (∃ v, MayFire (.qpop last4095) last4095 .z (queued { cfg := en4 }) v ∧ (onQueue { cfg := en4 } v && decide (v.a.toNat + 64 ≤ v.g.bufSize 0)) = true) ∧
    (∃ v, MayFire (.qpop last4095) last4095 .z (queued { cfg := 0xC0000002#32 }) v ∧ (onQueue { cfg := 0xC0000002#32 } v) = true) ∧
    (∃ v, MayFire (.qpop last4095) last4095 .z (queued { cfg := en4, res := 1#32 } one (List.replicate 64 0x5A#8 ++ [2#8])) v ∧
      (let s := queued { cfg := en4, res := 1#32 } one (List.replicate 64 0x5A#8 ++ [2#8])
       let h := hqueue { cfg := en4, res := 1#32 }
       decide (s.slotState h 0#32 = 2 ∧ (s.ownSlot (clusterOf v.r) h 0#32).store.marks = []) && linked s v h 0#32) = true) ∧
    -- Links on the way retrain: the request waits before its queue.
    (∃ v, MayFire (.qrsv last4095) last4095 .z (training (queued { cfg := en4 })) v ∧
      (!(hqueue { cfg := en4 }).clearing && (training (queued { cfg := en4 })).queueWaits (dieOf v.r) 0 (Park.homes (.qrsv 0 4095) (hqueue { cfg := en4 }))) = true) :=
  ⟨canonical (by decide +kernel), named (by decide +kernel), may_fire (by decide +kernel), may_fire (by decide +kernel), may_fire (by decide +kernel), may_fire (by decide +kernel),
    by decide +kernel, may_fire (by decide +kernel), may_fire (by decide +kernel), may_fire (by decide +kernel), may_fire (by decide +kernel), may_fire (by decide +kernel),
    may_fire (by decide +kernel)⟩
/-- A range of 64 blocks from 0x40000000, its descriptor at PA 0x50000 and its flags at 0x60000. -/
def ranged : State :=
  (((one.physPut 6 [1#8]).physPut 18 [5#8]).physPut 0x50003 [0x40#8]).physPut 0x5000A ([4#8, 0#8, 0#8, 0#8, 0#8, 0#8] ++ [12#8, 0#8, 0#8, 3#8]) |>.physPut 0x5002A [6#8]
theorem witness_HardwareQueues_events :
    (∃ v, MayFire (.pstat rule) rule .s32 one v ∧ ((one.aspace 0 0).map fun a => decide (a.nrng ≤ v.a.toNat)) = some true ∧ one.pstatDeny 0 0 v.a.toNat v.b.toNat = none) ∧
    (∃ v, MayFire (.pstat { rule with a := .zero }) { rule with a := .zero } .s32 ranged v ∧
      ((ranged.aspace 0 0).map fun a => decide (v.a.toNat < a.nrng ∧ (ranged.rangeAt a.rtab 0).bad = false ∧ v.b.toNat < (ranged.rangeAt a.rtab 0).nb)) = some true ∧
      ranged.pstatDeny 0 0 v.a.toNat v.b.toNat = none) ∧
    (∃ v, MayFire (.pstat { rule with a := .zero }) { rule with a := .zero } .s32 (training ranged) v ∧
      decide ((training ranged).pstatDeny 0 0 v.a.toNat v.b.toNat = some .wait) = true) ∧
    (let s := releases (.req 1) [] (queued { cfg := en4 } (asked (.wide 1 (.queue (.qput 0 4095 (List.replicate 64 1#8))))))
     (s.req 1).map (fun q => q.stage) = some (.wide 1 (.queue (.qput 0 4095 (List.replicate 64 1#8)))) ∧ s.store.wides.map (fun w => (w.id, w.lines)) = [(1, [])] ∧
     (s.hq 0 4095).en = true ∧ (s.hq 0 4095).closed = false ∧ (s.hq 0 4095).full = false ∧ (s.hq 0 4095).clearing = false ∧ s.queueParked 0 4095 1 = [] ∧
     s.queueWaits 0 0 ((s.hq 0 4095).slotDies 0#32) = false ∧ s.queueCut 0 0 ((s.hq 0 4095).slotDies 0#32) = none) ∧
    (let s := queued { cfg := en4 } (asked (.parked (.qrsv 0 4095)))
     s.queueParked 0 4095 1 = [.req 1 (.qrsv 0 4095)] ∧ (s.req 1).isSome = true ∧ (s.hq 0 4095).en = true ∧ (s.hq 0 4095).full = false) ∧
    ((hqueue {}).en = false ∧ (0x80000000#32).getLsbD 31 = true ∧ (0#32).getLsbD 31 = false) ∧
    ((queued { cfg := en4, clearing := true }).hq 0 4095).clearing = true ∧ (queued { cfg := en4, clearing := true }).fab.reqs = [] ∧
    ((queued { cfg := en4, clearing := true }).hq 0 4095).posted = [] ∧ ((queued { cfg := en4, clearing := true }).hq 0 4095).en = true ∧
    ((queued { cfg := en4 }).hq 0 4095).en = true ∧ ((queued { cfg := 0xC0000002#32 }).hq 0 4095).closed = true ∧
    (List.replicate 16 1#8).length = ((queued { cfg := en4 }).hq 0 4095).isize :=
  ⟨may_fire (more := fun v => decide (((one.aspace 0 0).map fun a => decide (a.nrng ≤ v.a.toNat)) = some true ∧ one.pstatDeny 0 0 v.a.toNat v.b.toNat = none)) (by decide +kernel) |>.imp
      fun _ h => ⟨h.1, of_decide_eq_true h.2⟩,
    may_fire (more := fun v => decide (((ranged.aspace 0 0).map fun a => decide (v.a.toNat < a.nrng ∧ (ranged.rangeAt a.rtab 0).bad = false ∧ v.b.toNat < (ranged.rangeAt a.rtab 0).nb)) = some true ∧
      ranged.pstatDeny 0 0 v.a.toNat v.b.toNat = none)) (by decide +kernel) |>.imp fun _ h => ⟨h.1, of_decide_eq_true h.2⟩, may_fire (by decide +kernel), by decide +kernel⟩

-- Fault records, and how regions and gangs end.

def record (cls : Nat) : PRec := { id := 3, ctx := fetchCtx, core := 0, ring := 0, frozen := [0], rcd := { cls, lease := 7 } }
def recorded (cls : Nat) (f : Fab → Fab := id) (s : State := one) : State := { s with fab := f { s.fab with recs := [record cls] } }
def queuedRec (waited : Bool := false) : QRec := { id := 1, ctx := fetchCtx, core := 0, ring := 0, rcd := { cls := 1 }, waited }
/-- A record may be posted, also one that cancels a fill; four records wait; a write-back and a request before it; a breakpoint's step runs. -/
theorem witness_FaultRecords_posts :
    (∀ s ∈ [recorded 1, recorded 0x0D, recorded 9 id (filling [fill])], s.fab.recs.find? (fun x => x.id = 3) = s.fab.recs.head? ∧ s.fab.fq = [] ∧ s.fab.wbs = [] ∧
      s.fab.reqs = [] ∧ (s.region 0).map (fun g => g.lease) = some 7) ∧
    ((recorded 9 id (filling [fill])).fillOfGang 5 = some fill) ∧
    ((recorded 1 fun f => { f with fq := List.replicate 4 queuedRec }).fab.fq.filter fun q => decide (q.ctx = fetchCtx ∧ q.core = 0)).length = 4 ∧
    (∃ w ∈ (recorded 1 fun f => { f with wbs := (due 9).fab.wbs }).fab.wbs, w.id < 3 ∧ one.physOf w.ctx ∈ (record 1).frozen) ∧
    (∃ q ∈ (recorded 1 fun f => { f with reqs := [req .sent] }).fab.reqs, q.id < 3 ∧ one.physOf q.org.ctx ∈ (record 1).frozen ∧ q.dst = some 3) ∧
    (let s := recorded 0x0E id (state { region (ctx (regs 0#32 0#32 0#32)) with stepping := true })
     (s.region 0).map (fun g => (g.lease, g.stepping)) = some (7, true) ∧ fetchCtx.el < 65536) := by decide +kernel

/-- A fault ring of 16 slots at PA 0x80000, its entry at 0x70000: with flags, head and tail. -/
def ringing (flags head tail : Byte) (waited : Bool) : State :=
  let s : State := { one with pkg := { mmio := [(0x10, 0x70000#32), (0x18, 1#32), (0x100008, 1#32)] }, fab := { one.fab with fq := [queuedRec waited] } }
  s.physPut 0x70000 [0#8, 0#8, 8#8, 0#8, 0#8, 0#8, 0#8, 0#8, 4#8, flags, 3#8, 0#8, head, 0#8, 0#8, 0#8, tail]
/-- An entry as it should be, with or without messages, full or not. -/
def ringIs (s : State) (ie full waited : Bool) : Bool :=
  !s.badRing 0 && !s.ringAway (queuedRec waited) && decide (s.frEntry 0 = 0x70000) && decide (s.frField 0 0 8 = 0x80000) && decide (s.frField 0 8 1 = 4) && decide (bitOf 1 (s.frField 0 9 1) = ie) &&
    decide (decide (2 ^ 4 ≤ (s.frField 0 0x10 4 + 2 ^ 32 - s.frField 0 0xC 4) % 2 ^ 32) = full) &&
    decide (s.fab.fq.map (fun q => (q.id, q.core, q.waited)) = [(1, 0, waited)])
theorem witness_FaultRecords_rings : (ringing 1#8 0#8 15#8 false).memoryOk ∧
    -- The ring's entry lies beyond a link that retrains.
    (let s : State := { training (ringing 1#8 0#8 15#8 false) with fab := { one.fab with fq := [{ queuedRec with core := 16 }] } }
     s.ringAway { queuedRec with core := 16 } = true ∧ s.fab.fq.find? (fun x => x.core = 16) = some { queuedRec with core := 16 }) ∧
    ringIs (ringing 1#8 0#8 15#8 false) false false false = true ∧ ringIs (ringing 3#8 0#8 0#8 false) true false false = true ∧
    ringIs (ringing 1#8 0#8 16#8 false) false true false = true ∧ ringIs (ringing 1#8 0#8 16#8 true) false true true = true ∧ one.badRing 0 = true ∧
    (∀ on, let s : State := { one with pkg := { msix := [{ ring := 0, vec := 3, since := 0 }], config := if on then [(Config.capAt 0, 0x80000000#32)] else [] } }
     s.pkg.msix.find? (fun x => x.ring = 0) = some { ring := 0, vec := 3, since := 0 } ∧ s.msixOn = on) :=
  ⟨canonical (by decide +kernel), by decide +kernel, by decide +kernel, by decide +kernel, by decide +kernel, by decide +kernel, by decide +kernel,
    fun on => by cases on <;> exact ⟨rfl, by simp [State.msixOn, Tab.lookD, Tab.look]⟩⟩
/-- A token that no slot takes; and a count of starvation that has come to its limit. -/
def stuck : Region := { region (ctx (regs 0#32 0#32 0#32)) with stall := 2 ^ 20 }
def starving (w d : Word) : State :=
  { state (region { ctx (regs 0#32 0#32 0#32) with word := w, starv := [2 ^ 16] }) with rregs := [(0, { dlcfg := d })] }
def stuckState : State := { state stuck with fab := { elems := [(0, { ch := [[token 5#32 0 false 0#4], [], [], []] })] } }
def starves (w d : Word) : Bool := match (starving w d).region 0 with
  | some g => (g.ctx 0 0).map (fun c => decide (c.starv.length = 1 ∧ c.starv.getD 0 0 = 2 ^ (starving w d).svx 0)) == some true
  | none => false
theorem witness_FaultRecords_stalls :
    stuckState.region 0 = some stuck ∧ stuckState.blockers 0 stuck ≠ [] ∧ 2 ^ stuckState.dlx 0 ≤ stuck.stall ∧ stuck.stalled = false ∧
    starves 0x80200000#32 0x00001014#32 = true ∧ starves 0x80200000#32 0x00011014#32 = true ∧ starves 0xA0200000#32 0x00011014#32 = true :=
  ⟨rfl, by decide +kernel, by decide +kernel, rfl, by decide +kernel, by decide +kernel, by decide +kernel⟩

def ended : State := state (region { ctx (regs 0#32 0#32 0#32) with retired := true })
def inGang (g : Gang) : State := { one with dies := { one.dies with gangs := [(5, g)] } }
theorem witness_EndsAndResumes :
    ended.isComplete 0 (region { ctx (regs 0#32 0#32 0#32) with retired := true }) = true ∧ ended.region 0 = some (region { ctx (regs 0#32 0#32 0#32) with retired := true }) ∧
    one.isComplete 0 (region (ctx (regs 0x10#32 3#32 0x21#32))) = false ∧ one.region 0 = some (region (ctx (regs 0x10#32 3#32 0x21#32))) ∧
    (let g := { gang with insts := [{ inst := 0, st := .completed }] }
     (inGang g).gang 5 = some g ∧ g.st = .running ∧ g.saved = [] ∧ ∀ i ∈ g.insts, i.st = .completed) ∧
    (∀ x ∈ [(0#32, none), (0x100000#32, none), (0#32, some ({ opc := 0x59 } : Packet))],
      let g := { gang with st := .completing, step := 2, rcd := setAt 64 0#32 gang.rcd 14 x.1, from_ := x.2 }
      (inGang g).gang 5 = some g ∧ g.id.toNat = 5 ∧ (inGang g).dieWaits g.die = false ∧ (inGang g).waits (.gang 5 0) = false ∧ (training (inGang g)).dieWaits g.die = true ∧
        { (inGang g) with dies := { (inGang g).dies with fills := [{ fill with waiters := [.gang 5 0] }] } }.waits (.gang 5 0) = true ∧
        (∀ k < 4, fieldAt g.rcd (0x80 + 8 * k) 8 = 0) ∧ (inGang g).fillOfGang 5 = none ∧ fieldAt g.rcd 0x38 8 = x.1.toNat ∧
        (x.1 = 0#32 ∨ (match (inGang g).xlate { die := 0, as_ := 0, va := 0x100000, r := true, w := true, gang := 5 } with
          | (.ok loc, u) => clear u 0 loc && decide (loc % 4 = 0)
          | _ => false) = true)) ∧
    (let s := state { region (ctx (regs 0#32 0#32 0#32)) with dead := true }
     (s.region 0).map (fun g => (g.dead, g.round.drain)) = some (true, []) ∧ s.fab.flits = []) ∧
    -- A job, a generator and an element that wait for RESUME.
    (let j : Job := { core := 0, slot := 3, serial := 0, pkt := { opc := 0x53, org := { ctx := fetchCtx, lease := 7 } }, st := .paused }
     let s : State := { streaming { faulted := true } with cores := { one.cores with jobs := [j] }, fab := { elems := [(0, { freeze := .posted })] } }
     s.cores.jobs.filter (fun x => decide (x.core = 0 ∧ (x.st = .running ∨ x.st = .paused))) = [j] ∧ (s.elem 0).freeze = .posted ∧
       (s.region 0).map (fun g => (g.dead, g.lease, g.gens.map fun e => e.2.faulted)) = some (false, 7, [true])) ∧
    (one.region 0).map (fun g => g.dead) = some false ∧ one.memoryOk := by
  refine ⟨by decide +kernel, by decide +kernel, by decide +kernel, by decide +kernel, by decide +kernel, ?_, by decide +kernel, by decide +kernel, by decide +kernel, canonical (by decide +kernel)⟩
  decide +kernel

-- Launches and rounds.

/-- A LAUNCH whose header waits on semaphore 0 for 1, or does not wait; with a field that is not zero. -/
def launching (wait : Bool) (bad : Word) : Packet :=
  { id := 1, opc := 0x59, org := { ctx := fetchCtx, lease := 7, gang := 5 }, req := 1,
    cmd := [if wait then 0x00018000#32 else 0#32, 0#32, 0x200000#32, 0#32, 0#32, 0#32, bad, 0#32] }
def dispatching (p : Packet) (sem : Sem) (waits : Bool) : State :=
  { one with cores := { one.cores with sems := [(0, sem)] },
             dies := { one.dies with dispIn := if waits then [] else [(0, [p])], dispWait := if waits then [(0, [p])] else [] } }
theorem witness_Launches_packets :
    (one.dieWaits 0 = false ∧ (training one).dieWaits 0 = true ∧
      (training (dispatching (launching false 0#32) {} false)).dies.dispIn.lookD 0 [] = [launching false 0#32]) ∧
    (badHeader (launching false 0#32).cmd = none ∧ fieldAt (launching false 0#32).cmd 8 8 = 0x200000 ∧ fieldAt (launching false 0#32).cmd 0x10 8 = 0 ∧
      fieldAt (launching false 0#32).cmd 0x18 8 = 0 ∧ fieldAt (launching false 9#32).cmd 0x18 8 = 9) ∧
    (∀ s ∈ [{}, ({ abt := true } : Sem), { value := 1#32 }], (dispatching (launching true 0#32) s false).dies.dispIn.lookD 0 [] = [launching true 0#32] ∧
      (dispatching (launching true 0#32) s true).dies.dispWait.lookD 0 [] = [launching true 0#32]) ∧
    WaitMet (dispatching (launching false 0#32) {} false) (launching false 0#32) ∧
    WaitMet (dispatching (launching true 0#32) { value := 1#32 } true) (launching true 0#32) ∧
    WaitAborted (dispatching (launching true 0#32) { abt := true } true) (launching true 0#32) ∧
    ¬WaitMet (dispatching (launching true 0#32) {} true) (launching true 0#32) ∧
    ¬WaitAborted (dispatching (launching true 0#32) {} true) (launching true 0#32) := by
  refine ⟨by decide +kernel, by decide +kernel, by decide +kernel, ?_, ?_, ?_, ?_, ?_⟩ <;> first | (unfold WaitMet; decide +kernel) | (unfold WaitAborted; decide +kernel)

def loaderMisses (s : State) (g : Gang) : Bool := match ((s.newLease 0).2.loadFrame g 0 0 (region (ctx []))).1 with
  | .error _ => true
  | _ => false
/-- A gang whose record waits no longer; a dispatcher without a ready gang; a frame that is not mapped; and instances that have loaded, with and
without a fault. -/
theorem witness_Launches_gangs :
    (let g := { gang with st := .pending, predZero := true }
     (inGang g).gang 5 = some g) ∧
    (let s : State := { one with dies := { due := [0] } }
     0 ∈ s.dies.due ∧ 0 ∉ one.dies.due ∧ s.readyGangs 0 = []) ∧
    (let g := { gang with st := .loading, insts := [{ inst := 0, st := .loading }], frame := { va := 2 ^ 30 } }
     (inGang g).gang 5 = some g ∧ g.insts.find? (fun y => y.inst = 0 && y.st = .loading) = some { inst := 0, st := .loading } ∧ (inGang g).region 0 ≠ none ∧
       loaderMisses (inGang g) g = true) ∧
    (∀ f ∈ [none, some ({ cls := 5, flags := 0x20 } : Rec)],
      let g := { gang with st := .loading, insts := [{ inst := 0, st := .loaded, fault := f }] }
      (inGang g).gang 5 = some g ∧ (∃ i ∈ g.insts, i.st = .loaded) ∧ (∀ i ∈ g.insts, i.st ≠ .loading ∧ i.fault = f ∧ ((inGang g).region i.region).isSome = true) ∧
        g.id.toNat = 5 ∧ g.saved = []) ∧
    (∃ g, (inGang g).gang 5 = some g ∧ g.stuck = none) :=
  ⟨by decide +kernel, ⟨by decide +kernel, by decide +kernel, by simp [State.readyGangs]⟩, by decide +kernel, by decide +kernel, gang, by decide +kernel⟩

def closed : Region := { region { ctx (regs 0#32 0#32 0#32) with word := 0xA0200000#32 } with gens := [(0, { p := block, running := true, rounded := true })] }
def draining (e : Held) (released : Bool := false) : Region :=
  { closed with round := { drain := [0], h0 := { entries := [{ age := 1, org := {}, size := 16, eff := e }], bytes := 16, released } } }
/-- A rounded context that has retired, its round open. -/
def dry : State := state { region { ctx (regs 0#32 0#32 0#32) with word := 0xA0200000#32, retired := true } with round := { isOpen := true } }
theorem witness_Rounds :
    -- The store of the tile of key 0 is free, or a sweep's beat uses it; and a link to the home of a wide release's store retrains.
    ((state (draining (.twr 0 5#32))).storeBusy 0 = false ∧
      { state (draining (.twr 0 5#32)) with cores := beating.cores }.storeBusy 0 = true ∧ one.retrains 0 (homeDie (loc 28)) = false ∧
      (training one).retrains 0 (homeDie (loc 28)) = true ∧ one.store.copies = []) ∧
    (state closed).memoryOk ∧ (state closed).region 0 = some closed ∧
    (closed.on = true ∧ closed.dead = false ∧ closed.round.isOpen = false ∧ closed.round.held = false ∧ closed.stepping = false ∧ closed.stepHeld = false ∧
      (∃ c ∈ closed.ctxs, c.isRounded = true ∧ c.retired = false) ∧ (∀ c ∈ closed.ctxs, c.isRounded = true → c.trapped = false) ∧
      closed.round.n % 2 ∉ closed.round.drain ∧ closed.round.half.entries = []) ∧
    (dry.region 0).map (fun g => (dry.quiescent 0 g, g.round.isOpen)) = some (true, true) ∧ one.quiescent 0 closed = false ∧
    (∀ e ∈ [Held.spad 0 [1#8], .twr 0 5#32, .cmd { opc := 0x50 }, .cmd { opc := 0x53 }, .cmd { opc := 0x54 }],
      (draining e).round.drain = [0] ∧ (draining e).round.h0.wait = none ∧ (draining e).round.h0.entries.map (fun x => x.eff) = [e]) ∧
    (∀ x ∈ [(false, false), (true, false), (true, true)], (draining (.st (loc 28) 0 [1#8, 2#8, 3#8, 4#8] x.1) x.2).round.h0.released = x.2 ∧
      one.cut 0 (homeDie (loc 28)) = none ∧ loc 28 % 32 + 4 ≤ 32 ∧ loc 28 + 4 ≤ 2 ^ 40) ∧
    ({ closed with round := { drain := [1] } } : Region).round.h1.entries = [] ∧
    ({ closed with round := { drain := [1], h1 := { wait := some 3 } } } : Region).round.h1.wait.isSome = true :=
  ⟨by decide +kernel, canonical (by decide +kernel), by decide +kernel, by decide +kernel, by decide +kernel, by decide +kernel, by decide +kernel, by decide +kernel, rfl, rfl⟩

-- Engines.

/-- A card that copies 64 bytes of buffer 0 from its start to 0x1000, crediting barrier 95; with a wait on semaphore 0; with no rows. -/
def card (wait : Bool) (rows : Word) (bytes : Word := 64#32) (home : Nat := 7) : Packet :=
  { id := 1, opc := 0x53, org := { ctx := fetchCtx, lease := home, gang := 5 }, req := 1,
    cmd := [if wait then 0x00018000#32 else 0#32, 0#32, 0#32, 0x40000000#32, 0x1000#32, 0x40000000#32, bytes, 0x00010000#32 + rows, 0x805F0001#32, 0#32, 0#32, 0#32, 0#32,
      0#32, 0#32, 0#32, 0#32, 0#32] }
/-- A card that copies 64 bytes of memory to others. -/
def between (home : Nat) : Packet :=
  { card false 1#32 64#32 home with cmd := [0#32, 0#32, 0x100000#32, 0#32, 0x200000#32, 0#32, 64#32, 0x00010001#32, 1#32] ++ List.replicate 9 0#32 }
def arriving (p : Packet) : State := { one with cores := { one.cores with copyIn := [(63, [p])] } }
theorem witness_CopyJobs_cards :
    (∀ p ∈ [card false 1#32, card true 1#32, card false 0#32, card false 1#32 64#32 8], (arriving p).cores.copyIn.lookD 63 [] = [p]) ∧
    -- Of this placement, whose buffer it names; of one that is gone, which has none.
    one.badCard (one.bufsOf (card false 1#32).org) (card false 1#32) = none ∧
    (one.badCard (one.bufsOf (card false 0#32).org) (card false 0#32)).map (fun e => (e.1, e.2.1)) = some (0x1C, 0x0F) ∧
    ((one.badCard (one.bufsOf (card false 1#32 64#32 8).org) (card false 1#32 64#32 8)).isSome = true ∧
      one.badCard (one.bufsOf (between 8).org) (between 8) = none) ∧
    one.cores.jobs = [] := by decide +kernel
def job (p : Packet) (st : JobSt) (x : Option Rec := none) (edges : List (Nat × Nat × Bool) := []) (chunk : Nat := 0) (begun : Bool := false) : Job :=
  { core := 0, slot := 95, serial := 0, pkt := p, st, home := [0], fault := x, edges, chunk, begun }
def jobbing (j : Job) (sem : Sem := {}) : State := { one with cores := { one.cores with jobs := [j], sems := [(0, sem)], bars := [(95, { exp := 1, pend := 64 })] } }
theorem witness_CopyJobs_jobs :
    (∀ j ∈ [job (card true 1#32) .waiting, job (card false 1#32) .waiting, job (card false 1#32) .running, job (card false 1#32) .running (some { cls := 1 }), job (card false 1#32) .aborting,
        job (card false 1#32) .aborting none [] 0 true, job (card false 1#32) .waiting none [(1, 0, true)]], (jobbing j).job 0 95 = some j) ∧
    WaitAborted (jobbing (job (card true 1#32) .waiting) { abt := true }) (card true 1#32) ∧
    (jobbing (job (card false 1#32) .waiting)).startable (job (card false 1#32) .waiting) = true ∧
    ((jobbing (job (card false 1#32) .waiting)).cores.jobs.filter fun x => decide (x.core = 0 ∧ x.st = .running)).length < 32 ∧
    (¬WaitMet (jobbing (job (card true 1#32) .waiting)) (card true 1#32) ∧ ¬WaitAborted (jobbing (job (card true 1#32) .waiting)) (card true 1#32)) ∧
    WaitMet (jobbing (job (card false 1#32) .waiting none [(1, 0, true)])) (card false 1#32) ∧
    (let f (off n : Nat) : Nat := fieldAt (card false 1#32).cmd off n
     f 0x08 8 / 2 ^ 62 = 1 ∧ f 0x10 8 / 2 ^ 62 = 1 ∧ f 0x08 8 % 2 ^ 56 = 0 ∧ f 0x10 8 % 2 ^ 56 = 0x1000 ∧ f 0x1C 2 = 1 ∧ f 0x1E 2 = 1 ∧ f 0x20 2 = 1 ∧ f 0x18 4 = 64 ∧
      (f 0x22 2).testBit 15 = true ∧ f 0x22 2 % 128 = 95 ∧ f 4 2 < 0xC000 ∧ fieldAt (between 7).cmd 0x22 2 = 0 ∧
      (let p : Packet := { between 7 with cmd := setAt 18 0#32 (between 7).cmd 1 0xC05F#32 }
       0xC000 ≤ fieldAt p.cmd 4 2 ∧ fieldAt p.cmd 0x22 2 = 0) ∧ fieldAt (card false 1#32 0x80000#32).cmd 0x18 4 = 0x80000 ∧
      (jobbing (job (card false 1#32) .running)).bar 0 95 = { exp := 1, pend := 64 } ∧ one.store.badWords = []) := by
  refine ⟨fun j hj => ?_, ?_, by decide +kernel, by decide +kernel, ⟨?_, ?_⟩, ?_, by decide +kernel⟩
  · simp only [List.mem_cons, List.not_mem_nil, or_false] at hj
    rcases hj with rfl | rfl | rfl | rfl | rfl | rfl | rfl <;> rfl
  all_goals first | unfold WaitMet; decide +kernel | unfold WaitAborted; decide +kernel

theorem mem_rotated {α : Type} {n : Nat} {l : List α} {x : α} (h : x ∈ l) : x ∈ rotated n l := by
  unfold rotated
  rw [List.mem_append]
  rw [← List.take_append_drop (if l.length = 0 then 0 else n % l.length) l, List.mem_append] at h
  exact h.symm
/-- A gang of one instance, of a frame without contexts, finds a place among no others. -/
def plain : Gang := { gang with st := .ready, insts := [{ inst := 0 }] }
theorem spot_plain (g : Gang) (cog i rot core px py : Nat) (hf : g.cogFrame cog = {}) (hr : fieldAt g.rcd 0x0A 2 = 0) :
    ∃ e, g.spot cog i rot core px py [] = some e ∧ e.2.inst = i := by
  unfold Gang.spot
  have h : ∃ n, (rotated rot (List.range 32)).find? (fun n => ([] : List (Nat × Region)).all fun e => e.1 % 32 ≠ n) = some n := by
    have : (0 : Nat) ∈ rotated rot (List.range 32) := mem_rotated (by decide)
    rw [← Option.isSome_iff_exists, List.find?_isSome]
    exact ⟨0, this, rfl⟩
  obtain ⟨n, h⟩ := h
  simp only [List.filter_nil, h]
  rw [hf, hr]
  simp [Frame.region, Region.settleAmong, Region.loads]
theorem search_plain (g : Gang) (cog i rot : Nat) (cores : List Nat) (hf : g.cogFrame cog = {}) (hr : fieldAt g.rcd 0x0A 2 = 0) (hc : cores ≠ []) :
    ∃ e, g.search cog rot cores [i] [] = some [e] ∧ e.2.inst = i := by
  obtain ⟨c, cs, rfl⟩ := List.exists_cons_of_ne_nil hc
  unfold Gang.search
  rw [hf]
  have h0 : (0, 0) ∈ ({} : Frame).places := by decide +kernel
  have hm : (c, 0, 0) ∈ rotated rot ((c :: cs).map fun c => ({} : Frame).places.map fun p => (c, p.1, p.2)).flatten := by
    refine mem_rotated ?_
    rw [List.map_cons, List.flatten_cons, List.mem_append]
    exact .inl (List.mem_map.mpr ⟨(0, 0), h0, rfl⟩)
  dsimp only
  generalize rotated rot ((c :: cs).map fun c => ({} : Frame).places.map fun p => (c, p.1, p.2)).flatten = l at hm ⊢
  cases l with
  | nil => cases hm
  | cons p l =>
    obtain ⟨e, he, hi⟩ := spot_plain g cog i rot p.1 p.2.1 p.2.2 hf hr
    refine ⟨e, ?_, hi⟩
    simp [List.findSome?, he, Gang.search]
theorem fit_plain {s : State} {g : Gang} (h1 : g.st = .ready) (h2 : g.insts = [{ inst := 0 }]) (hf : g.cogFrame g.cog = {}) (hr : fieldAt g.rcd 0x0A 2 = 0)
    (hc : s.coresOf g ≠ []) : ∃ c e, s.fit g [] = some (c, [e]) ∧ e.2.inst = 0 := by
  obtain ⟨e, he, hi⟩ := search_plain g g.cog 0 (Config.order s.free) (s.coresOf g) hf hr hc
  refine ⟨e.2.cog, e, ?_, hi⟩
  simp [State.fit, h1, State.unplaced, h2, he]
theorem sorted_one {α : Type} {f : α → α → Bool} {l : List α} {x : α} (h : l = [x]) : l.mergeSort f = [x] := by simp [h]
theorem keeps_none {s : State} {g : Gang} (h : g.want = [] ∧ g.freed = []) : s.keeps g = [] := by simp [State.keeps, h.1, h.2]
theorem kept_none {s : State} (p : Gang → Bool) (h : ∀ e ∈ s.dies.gangs, e.2.want = [] ∧ e.2.freed = []) :
    (((List.range 4).flatMap s.readyGangs).filter p).flatMap s.keeps = [] := by
  simp only [List.flatMap_eq_nil_iff, List.mem_filter, List.mem_flatMap, State.readyGangs, List.mem_mergeSort, List.mem_map]
  rintro x ⟨⟨d, _, ⟨e, he, rfl⟩, _⟩, _⟩
  exact keeps_none (h e he)
theorem wanted_none {s : State} {g : Gang} (h : ∀ e ∈ s.dies.gangs, e.2.want = [] ∧ e.2.freed = []) : s.wanted g = [] := kept_none _ h
/-- The machine with no region, and a gang. -/
def empty (g : Gang) : State := { one with regions := [], dies := { gangs := [(g.id.toNat, g)], due := [0] } }
theorem witness_Launches_places :
    (empty plain).readyGangs 0 = [plain] ∧ 0 ∈ (empty plain).dies.due ∧ (empty plain).gang 5 = some plain ∧ plain.id.toNat = 5 ∧
      (∀ e ∈ (empty plain).dies.gangs, e.2.id.toNat = e.1) ∧ (empty plain).wanted plain = [] ∧ (empty plain).regions = [] ∧
      ∃ c e, (empty plain).fit plain [] = some (c, [e]) ∧ e.2.inst = 0 :=
  ⟨sorted_one (by decide +kernel), by decide +kernel, by decide +kernel, by decide +kernel, by decide +kernel, wanted_none (by decide +kernel), rfl,
    fit_plain rfl rfl (by decide +kernel) (by decide +kernel) (by decide +kernel)⟩
/-- Gang 5 runs; gang 6, of a higher PRIO, could not be placed since cycle 0, long ago. -/
def higher : Gang := { plain with id := 6#32, rcd := setAt 64 0#32 plain.rcd 1 0x01000000#32, stuck := some 0 }
def crowded : State := { one with dies := { gangs := [(5, gang), (6, higher)] }, pkg := { one.pkg with cyc := [2 ^ 30, 0, 0, 0] } }
theorem witness_Launches_preempts :
    crowded.gang 6 = some higher ∧ higher.stuck = some 0 ∧ 0 + 2 ^ crowded.pwx higher.die ≤ crowded.clk higher.die ∧ crowded.isReady higher = true ∧ higher.want = [] ∧
      ∃ es, crowded.choose higher (crowded.victims higher) [] crowded.regions = some ([gang], none, es) := by
  refine ⟨by decide +kernel, rfl, by decide +kernel, by decide +kernel, rfl, ?_⟩
  have hr : crowded.regionsOf 5 = [(0, region (ctx (regs 0x10#32 3#32 0x21#32)))] := sorted_one (by decide +kernel)
  have hv : crowded.victims higher = [gang] := by
    refine sorted_one ?_
    show List.filter _ [gang, higher] = [gang]
    rw [List.filter_cons_of_pos, List.filter_cons_of_neg, List.filter_nil]
    · simp [higher, plain]
    · show (_ && _ && (crowded.regionsOf 5).any _ && (crowded.regionsOf 5).all _) = true
      rw [hr]
      decide +kernel
  rw [hv]
  obtain ⟨c, e, he, -⟩ := fit_plain (s := crowded) (g := higher) rfl rfl (by decide +kernel) (by decide +kernel) (by decide +kernel)
  refine ⟨[e], ?_⟩
  have h0 : crowded.regions.filter (fun o => o.2.gang ≠ gang.id.toNat) = [] := by decide +kernel
  simp only [State.choose]
  rw [h0, he]
  rfl
/-- A frame of one element with one context, of one slot: header, element record, block. -/
def imageBytes : List Byte :=
  natLe 4 0x4D52464B ++ natLe 4 0x400001 ++ [1#8, 1#8, 1#8, 0#8] ++ natLe 4 156 ++ natLe 4 0x40 ++ List.replicate 44 0#8 ++
    [0#8, 0#8, 0#8, 1#8] ++ natLe 4 0x80200000 ++ List.replicate 84 0#8
/-- A machine whose memory holds that image at VA 0x400000, and a gang that loads it. -/
def imaged (g : Gang) : State :=
  let s := with_ 0#32 0#32 0#32 ((imageBytes.mapIdx fun i b => (4 * stackBytes + 85 * 4096 + i, b)).filter fun c => c.2 ≠ 0#8)
  { s with dies := { s.dies with gangs := [(5, g)] } }
def loader : Gang := { gang with st := .loading, insts := [{ inst := 0, st := .loading }], frame := { va := 0x400000 } }
/-- Its loader ends well; its buffers and data entries are few. -/
def loads (g : Gang) : Bool :=
  let s := imaged g
  let u := (s.newLease 0).2.updRreg 0 fun q => { q with lease := (s.newLease 0).1, drops := 0, disc := 0, fqcnt := 0 }
  let old := region (ctx (regs 0#32 0#32 0#32))
  match u.loadFrame g 0 (s.newLease 0).1 old with
  | (.ok (f, _), u') => (match u'.loadWins g 0 (s.newLease 0).1 0 with
    | (.ok _, w) => (w.reclaim g 0 old f).isSome && (w.fillFor g).isNone
    | _ => false)
  | _ => false
theorem witness_Launches_loads : (imaged loader).memoryOk ∧ loads loader = true ∧ (imaged loader).dieWaits 0 = false := ⟨canonical (by decide +kernel), by decide +kernel, by decide +kernel⟩
-- Translation and procedural memory.

def walks (s : State) (va : Nat) : Bool := match s.walk 0 0 va with
  | .ok _ => true
  | .error _ => false
theorem witness_TranslationAndFills_walks : one.memoryOk ∧ walks one 0x100000 = true ∧ (one.aspace 0 0).isSome = true ∧ walks one (2 ^ 30) = false ∧
    (one.dies.inval.look 0 = none ∧ (1#32).getLsbD 0 = true) ∧
    (let w : Inval := { reqs := [1], rounds := [(0, 0)], jobs := [(0, 95, 0, 0)] }
     let s : State := { asked (.held waits) with dies := { one.dies with inval := [(0, w)] } }
     s.dies.inval.look 0 = some w ∧ (s.req 1).map (fun q => q.translated.isSome) = some true ∧
       -- Nothing that it waits for is there.
       (let u : State := { one with dies := { one.dies with inval := [(0, w)] } }
        u.dies.inval.look 0 = some w ∧ u.req 1 = none ∧ u.cores.jobs = [] ∧ (u.region 0).map (fun g => (g.round.drain, g.round.isOpen)) = some ([], false))) ∧
    -- What a covered entry may have translated.
    (let s : State := { asked (.held waits) with cores := { one.cores with tlb := [{ core := 0, asid := 0, as_ := 0, va := 0, leaf := 0, level := 1 }] } }
     s.covers 0 { core := 0, asid := 0, as_ := 0, va := 0, leaf := 0, level := 1 } = true ∧ s.staleReq 0 (req (.held waits)) = true) :=
  ⟨canonical (by decide +kernel), by decide +kernel⟩

def slotWait : SlotWait := { die := 0, as_ := 0, rng := 0, blk := 0, depth := 1, anc := [], w := .elem fetchCtx 0 0 4 0 0 0x40000000 }
def fetching (q : List SlotWait) (fills : List Fill := []) (evicts : List Evict := []) : State :=
  { ranged with dies := { ranged.dies with slotQ := q, fills, evicts }, pkg := { ranged.pkg with cyc := [2 ^ 20, 0, 0, 0] } }
def evict (slot : Option Nat) : Evict := { id := 1, die := 0, as_ := 0, rng := 0, blk := 0, slot }
theorem witness_TranslationAndFills_fills : (fetching [slotWait]).memoryOk ∧
    (let s := fetching [slotWait]
     let rg := s.rangeNo 0 0 0
     rg.die = 0 ∧ rg.idx = 0 ∧ s.slotFree 0 1 = true ∧ s.blockState rg 0 = 0 ∧ s.depthFor (s.waiterGang slotWait.w) = 1 ∧ 1 ≤ rg.depth ∧ s.dieWaits 0 = false ∧
       (training s).dieWaits 0 = true ∧ (training s).blockState ((training s).rangeNo 0 0 0) 0 = 0 ∧ (locOf false (rg.fmap + 0 / 4)).isSome = true) ∧
    (∀ t ∈ [20, 21], (fetching [] [{ fill with timeout := t }]).dies.fills.find? (fun f => f.die = 0 && f.slot = 3 && !f.cancelled) = some { fill with timeout := t } ∧
      (decide (0 + 2 ^ t ≤ (fetching []).clk 0) = decide (t = 20))) ∧
    (∀ x ∈ [none, some 3], (fetching [] [{ fill with cancelled := true, waiters := [slotWait.w] }] [evict x]).dies.evicts.find? (fun e => e.id = 1) = some (evict x) ∧
      (fetching [] [{ fill with cancelled := true, waiters := [slotWait.w] }] [evict x]).blockHeld ((fetching []).rangeNo 0 0 0) 0 0 = false) ∧
    (training (fetching [] [] [evict none])).blockHeld ((fetching []).rangeNo 0 0 0) 0 0 = true ∧
    (fetching [] [{ fill with cancelled := true, waiters := [slotWait.w] }]).dies.fills.find? (fun f => f.die = 0 && f.slot = 3 && f.cancelled) =
      some { fill with cancelled := true, waiters := [slotWait.w] } ∧ ((fetching []).region fetchCtx.region).isSome = true :=
  ⟨canonical (by decide +kernel), by decide +kernel⟩

-- Matrix work.

/-- Two tiles by two: tile 0 is systolic, tiles 1 and 8 hold a buffer, and a context of tile 9 has a route with edge 5. -/
def mill (queues : Tab (List Packet) := []) (shadow : PlaneSt := .empty) (nodes : Tab Node := []) : Region :=
  let sys := (List.range 16).map fun e => { ctx (regs 0#32 0#32 0#32) with el := e, word := 0xC0200000#32 }
  let feeder := { ctx (regs 0#32 0#32 0#32) with el := 144, cred := 1#32, routes := 5#32 :: List.replicate 7 0#32 }
  { region feeder with wx := 2, wy := 2, tmap := [(0, 0), (1, 1), (8, 8), (9, 9)], ctxs := sys ++ [feeder], queues, nodes,
                       bufs := [{ tile := 1, base := 0, size := 8192 }, { tile := 8, base := 0, size := 8192 }],
                       active := [(0, { st := .ready })], shadow := [(0, { st := shadow, valid := true })] }
def systolic (opc : Nat) (ws : List Word) (hdr : Word := 0#32) (fn : Nat := 0) : Packet :=
  { id := 1, opc, fn, org := { ctx := fetchCtx, lease := 7, gang := 5 }, cmd := [hdr, 0#32] ++ ws ++ List.replicate (6 - ws.length) 0#32 }
def load (hdr : Word := 0#32) : Packet := systolic 0x50 [0x00010000#32, 1#32] hdr
def beat (fn : Nat := 0) : Packet := systolic 0x51 [0x00010000#32, 0x00010000#32, 0#32, 64#32] 0#32 fn
def turn : Packet := systolic 0x52 [0x00010001#32, 0x00010005#32]
def goingTo (p : Packet) : State := let s := state (mill); { s with cores := { s.cores with going := [p] } }

theorem witness_Systolic_arrivals : (goingTo load).memoryOk ∧
    (let s : State := { goingTo load with regions := [] }
     s.cores.going.find? (fun x => x.id = 1) = some load ∧ s.region load.org.ctx.region = none) ∧
    (∀ p ∈ [load, beat, turn, systolic 0x50 [0#32, 1#32], systolic 0x51 [0x00010000#32, 0x00010000#32, 0#32, 64#32, 64#32]],
      (goingTo p).cores.going.find? (fun x => x.id = 1) = some p ∧ (goingTo p).region p.org.ctx.region = some mill ∧ (goingTo p).current p.org = true ∧
        (goingTo p).cores.going.find? (fun x => x.org.ctx = p.org.ctx && mill.queueTile x = mill.queueTile p) = some p ∧
        ((goingTo p).queued (mill.tmap.lookD (mill.queueTile p) 0)).length < 8) ∧
    (∀ p ∈ [load, beat, turn], mill.badDescriptor p = none ∧ mill.badBound p = none) ∧
    mill.badDescriptor (systolic 0x50 [0#32, 1#32]) = some (0x0A, none) ∧
    (let p := systolic 0x51 [0x00010000#32, 0x00010000#32, 0#32, 64#32, 64#32]
     mill.badDescriptor p = none ∧ mill.badBound p = some (2, 0, 64, 63)) :=
  ⟨canonical (by decide +kernel), by decide +kernel, by decide +kernel, by decide +kernel, by decide +kernel, by decide +kernel⟩

/-- A queue with one command, in tile 8 or 1; with shadow planes as given. -/
def queueing (tile : Nat) (p : Packet) (st : PlaneSt := .empty) (sem : Sem := {}) : State :=
  let s := state (mill [(tile, [p])] st)
  { s with cores := { s.cores with sems := [(0, sem)] } }
theorem witness_Systolic_sends :
    (∀ x ∈ [(8, load, PlaneSt.empty, ({} : Sem)), (8, load, .ready, {}), (8, load 0x00018000#32, .empty, {}), (8, load 0x00018000#32, .empty, { abt := true }), (1, beat, .empty, {}),
        (1, beat 1, .ready, {}), (1, turn, .empty, {})],
      (queueing x.1 x.2.1 x.2.2.1 x.2.2.2).region 0 = some (mill [(x.1, [x.2.1])] x.2.2.1) ∧ (mill [(x.1, [x.2.1])] x.2.2.1).queues.look x.1 = some [x.2.1] ∧
      x.2.1.org.ctx.region = 0 ∧ ((queueing x.1 x.2.1 x.2.2.1 x.2.2.2).rreg 0).rdbg.getLsbD 2 = false ∧
      (queueing x.1 x.2.1 x.2.2.1 x.2.2.2).queued ((mill).tmap.lookD x.1 0) = [(0, x.2.1)]) ∧
    WaitMet (queueing 8 load) load ∧
    (¬WaitMet (queueing 8 (load 0x00018000#32)) (load 0x00018000#32) ∧ ¬WaitAborted (queueing 8 (load 0x00018000#32)) (load 0x00018000#32)) ∧
    WaitAborted (queueing 8 (load 0x00018000#32) .empty { abt := true }) (load 0x00018000#32) ∧
    load.targets = [(0, 0)] ∧ beat.tiles = [0] ∧
    (∀ x ∈ [(beat, PlaneSt.empty), (beat 1, .ready)], (queueing 1 x.1 x.2).sendable (mill [(1, [x.1])] x.2) x.1 1 = true ∧
      ∀ t ∈ x.1.tiles, fmtClass ((queueing 1 x.1 x.2).planeFor 0 (mill [(1, [x.1])] x.2) x.1.swap 0 t).fmt = fmtClass (fieldAt x.1.cmd 0x0B 1)) ∧
    (queueing 1 turn).sendable (mill [(1, [turn])]) turn 1 = true ∧
    ((mill [(1, [turn])]).edgeRoutes (fieldAt turn.cmd 0x0C 2)).length = 1 := by
  refine ⟨by decide +kernel, ?_, ⟨?_, ?_⟩, ?_, by decide +kernel, by decide +kernel, by decide +kernel, by decide +kernel, by decide +kernel⟩ <;>
    first | (unfold WaitMet; decide +kernel) | (unfold WaitAborted; decide +kernel)

def loading (l : Load) : State := let s := state (mill [] .loading); { s with cores := { s.cores with loads := [l] } }
def sweeping (w : List Sweep) (glitch : Tab Nat := []) : State :=
  let s := state mill
  { s with cores := { s.cores with sweeps := w }, fab := { s.fab with glitch } }
def sweep (x : SweepTile) (rows : List (Nat × List Byte × List Byte) := []) (fn : Nat := 0) (id : Nat := 1) : Sweep :=
  { id, pkt := { beat fn with id }, serial := 0, sent := 0, rows, tiles := [x] }
def row0 : List (Nat × List Byte × List Byte) := [(0, List.replicate 32 0#8, [0#8, 0#8])]
theorem witness_Systolic_engines :
    (∀ b ∈ [33, 34], let l : Load := { id := 1, pkt := load, start := 0, tiles := [0], beats := b }
      (loading l).cores.loads.find? (fun x => x.id = 1) = some l ∧ ((loading l).region 0).isSome = true) ∧
    (let w := sweep { tile := 0, offered := some 2 }
     (sweeping [w]).rowReady w = true ∧ (sweeping [w]).sending mill 0 (mill.seqTile w) = some w ∧ (sweeping [w]).busGrants mill w = true ∧
       (sweeping [w]).store.badWords = [] ∧ (sweeping [w]).region w.region = some mill) ∧
    -- A token offered; a beat due; another sweep's row in the way; a result due, the last.
    (∀ fn ∈ [0, 1], let x : SweepTile := { tile := 0, offered := some 0 }
      (sweeping [sweep x [] fn]).cores.sweeps.find? (fun y => y.id = 1) = some (sweep x [] fn) ∧ (sweep x [] fn).tiles.find? (fun y => y.tile = 0) = some x ∧
        (0 : Nat) ≤ (sweeping [sweep x [] fn]).regionClk 0) ∧
    (let x : SweepTile := { tile := 0, took := some 0 }
     let w := sweep x row0
     let v := sweep { tile := 0, took := some 0, beats := 1, rows := [(0, 8, List.replicate 32 0#32)] } row0 0 2
     w.rows.drop 0 = row0 ∧ 0 < w.quota x ∧ x.next + w.lates.getD 0 0 ≤ (sweeping [w]).regionClk 0 ∧ fieldAt w.pkt.cmd 0x18 1 = 0 ∧
       (∃ y ∈ v.tiles, y.tile = 0 ∧ ∃ e ∈ y.rows, e.1 = fieldAt w.pkt.cmd 0x18 1 + 0) ∧ (sweeping [w]).fab.glitch = []) ∧
    (∀ d ∈ [0, 1], let x : SweepTile := { tile := 0, took := some 0, beats := 1, rows := [(0, d, List.replicate 32 0#32)] }
      let w := sweep x row0
      x.rows = [(0, d, List.replicate 32 0#32)] ∧ w.tiles = [x] ∧ x.beats = w.pkt.rowsM ∧ w.rows.length = w.pkt.rowsM ∧ w.pkt.swap = false) := by
  decide +kernel
def noded (n : Node) (brake : Option Brake := none) : State := state { mill [] .empty [(1, n)] with brake }
theorem witness_Systolic_nodes :
    let n : Node := { pkt := turn, edge := 5, ctx := { region := 0, el := 144, k := 0 }, o := 0, n := 1, blk := 1 }
    (∀ x ∈ [{ n with fifo := [token 5#32 0 false 0#4] }, { n with detached := true }, { n with credits := 1, emitting := true, store := [token 5#32 0 false 0#4] },
        { n with credits := 1, emitting := true, store := [token 5#32 0 false 0#4], blk := 0 },
        { n with credits := 1, emitting := true, n := 2, store := List.replicate 4 (token 5#32 0 false 0#4) }],
      ((noded x).region 0).map (fun g => (g.nodes.look 1, g.ckpt)) = some (some x, [])) ∧ n.credits = 0 ∧ n.blk = n.blocks + 1 := by decide +kernel

-- Elastic gangs, the context switch and debugging.

/-- The region of `one` under a brake, with nothing to save; with the gang as given. -/
def braked (f : Region → Region) (g : Gang) (brake : Option Brake := some { by_ := .dispatcher, since := 0 }) : State :=
  let x := f { region { ctx (regs 0#32 0#32 0#32) with retired := true } with brake }
  { one with regions := [(0, x)], dies := { gangs := [(5, { g with insts := [{ inst := 0, st := .running }] })] } }
def bare_ (g : Region) : Region := { g with bufs := [], rings := [], rows := 0 }
def retiring : Gang := { gang with retire := [0] }
def elastic : Gang := { gang with insts := [{ inst := 0, st := .running }], cass := some { elv := 0, nact := 0, qin := some 7, mini := 0, maxi := 2, hiwm := 4, lowm := 2, hyst := 2, cogs := [], maps := [] } }
-- A brake on a running region, with something parked of each kind; and one that stands.
theorem witness_BrakesAndSettlement_applies : one.settled 0 (region (ctx (regs 0x10#32 3#32 0x21#32))) = false ∧
    ∀ p ∈ [Park.push 0 0 5#32, .pop 0 0, .qrsv 0 4, .qpop 0 4 0#32, .barw 0 3 0#32], (asked (.parked p)).region 0 = one.region 0 ∧
      (one.region 0).map (fun g => (g.on, g.dead, g.brake)) = some (true, false, none) ∧ (asked (.parked p)).fab.reqs = [req (.parked p)] ∧
        (req (.parked p)).waitsFill = false := by decide +kernel
theorem witness_BrakesAndSettlement_settles :
    (∀ g ∈ [gang, retiring], ((braked id g).region 0).map (fun x => ((braked id g).settled 0 x, (braked id g).mayEnd 0 x)) = some (true, false) ∧
      ((braked id g).gang 5).isSome = true) ∧
    ((braked bare_ retiring).region 0).map (fun x => ((braked bare_ retiring).settled 0 x, (braked bare_ retiring).mayEnd 0 x)) = some (true, true) := by decide +kernel
-- The brake fails after 2^20 cycles, and its agent chooses anew later.
theorem witness_BrakesAndSettlement_fails :
    (∀ n ∈ [0, 2 ^ 20], ({ (braked id gang) with pkg := { one.pkg with cyc := [n, 0, 0, 0] } } : State).clk 0 = n) ∧ one.btx 0 = 20 ∧
    (∀ b ∈ [BrakeBy.dispatcher, .derailleur, .izine], ((braked (fun g => { g with rechoose := some (0, b) }) gang none).region 0).map (fun g => (g.rechoose, g.brake)) =
      some (some (0, b), none)) ∧
    (braked id elastic none).gang 5 = some elastic ∧ (braked id elastic none).shrinks elastic = true ∧
      ((braked id elastic none).region 0).map (fun h => (h.brake, h.rechoose, h.on, h.dead)) = some (none, none, true, false) := by decide +kernel
def growing : Gang := { elastic with grow := 1 }
def shrinking : Gang := { elastic with shrink := 1 }
/-- An elastic gang of one instance, whose queue holds n items. -/
def sampled (n : Word) (g : Gang) (regions : List (Nat × Region) := [(0, region (ctx []))]) : State :=
  { one with regions, dies := { gangs := [(5, g)], queues := [(7, { cfg := 0x80000008#32, res := n })] } }
theorem witness_ElasticGangs_samples : (sampled 5#32 elastic).memoryOk ∧
    (∀ n ∈ [1, 3, 5], (sampled (BitVec.ofNat 32 n) elastic).dies.gangs.filter (fun e => e.2.die = 0) = [(5, elastic)] ∧
      (sampled (BitVec.ofNat 32 n) elastic).gang 5 = some elastic ∧ ((sampled (BitVec.ofNat 32 n) elastic).hq 0 7).used = n ∧ (elastic.insts.filter fun i => i.st = .running).length = 1) ∧
    elastic.cass.isSome = true ∧ elastic.cass.all (fun c => c.qin = some 7 ∧ c.hiwm = 4 ∧ c.lowm = 2 ∧ c.hyst = 2 ∧ c.mini = 0 ∧ c.maxi = 2 ∧ c.elv = 0) = true ∧
    (∀ e ∈ one.dies.gangs, e.2.die ≠ 3) :=
  ⟨canonical (by decide +kernel), by decide +kernel, by decide +kernel, by decide +kernel, by decide +kernel⟩
-- The last sample before a growth: instance 1 has a place.
theorem witness_ElasticGangs_grows :
    let t := (sampled 5#32 growing []).updGang 5 fun x => { x with grow := 0, shrink := 0 }
    let kept := (((List.range 4).flatMap t.readyGangs).filter fun x => decide (growing.base ≤ t.levelOf x)).flatMap t.keeps
    ∃ e, growing.search ((sampled 5#32 growing []).cogOf growing) (Config.order (sampled 5#32 growing []).free)
        ((sampled 5#32 growing []).coresOf growing) [1] (kept ++ (sampled 5#32 growing []).regions) = some [e] ∧ e.2.inst = 1 := by
  intro t kept
  have hk : kept = [] := kept_none _ (by decide +kernel)
  rw [hk]
  simp only [sampled, List.nil_append]
  refine search_plain _ _ 1 _ _ ?_ (by decide +kernel) (by decide +kernel)
  simp [Gang.cogFrame, growing, elastic, gang]
-- And before a shrink: the instance that is to be braked.
theorem witness_ElasticGangs_shrinks : ((sampled 1#32 shrinking).regionsOf 5).find? (fun e => e.2.on && !e.2.dead) = some (0, region (ctx [])) ∧
    (region (ctx [])).brake = none ∧ (region (ctx [])).rechoose = none := by
  have h : (sampled 1#32 shrinking).regionsOf 5 = [(0, region (ctx []))] := sorted_one (by decide +kernel)
  rw [h]
  decide +kernel
/-- What a save left of the region of `one`. -/
def saved : Saved :=
  { inst := 0, core := 0, region := region (ctx (regs 1#32 2#32 3#32)), rreg := {}, toks := [], jobs := [], colls := [], recs := [], fq := [], spad := [], tstore := [], frozen := [] }
/-- Its instance is loaded again, from a frame at va. -/
def resumes (va : Nat) : Gang := { loader with saved := [saved], frame := { va } }
def restores (va : Nat) : Bool :=
  let g := resumes va
  let s := imaged g
  let u := (s.newLease 0).2.updRreg 0 fun q => { q with lease := (s.newLease 0).1, drops := 0, disc := 0, fqcnt := 0, rdbg := 0#32 }
  let place := region (ctx (regs 0#32 0#32 0#32))
  match u.loadFrame g 0 (s.newLease 0).1 place with
  | (.ok (f, _), w) => (w.reclaim g 0 place f).isSome
  | _ => false
theorem witness_ElasticGangs_restore :
    ∀ va ∈ [0x400000, 2 ^ 30], (imaged (resumes va)).gang 5 = some (resumes va) ∧ (resumes va).insts.find? (fun x => x.inst = 0 && x.st = .loading) = some { inst := 0, st := .loading } ∧
        (resumes va).saved.find? (fun v => v.inst = 0) = some saved ∧ ((imaged (resumes va)).region 0).isSome = true ∧ ((imaged (resumes va)).jobsOf 0).length + saved.jobs.length ≤ 96 ∧
        (imaged (resumes va)).dieWaits 0 = false ∧ (training (imaged (resumes va))).dieWaits 0 = true ∧ restores va = decide (va = 0x400000) := by decide +kernel
-- The tokens of a route with a credit; of a generator; and of a route without one.
def kept_ (e : Via × List Token) : Region := { region (ctx (regs 0#32 0#32 0#32)) with ckpt := [e], gens := [(0, { p := block, credits := 1 })] }
theorem witness_ElasticGangs_places :
    (∀ e ∈ [(Via.route fetchCtx 0, [token 5#32 0 false 0#4]), (.gen 0 0, [token 5#32 0 false 0#4, token 6#32 0 false 0#4])],
      ((state (kept_ e)).region 0).map (fun g => (g.on, g.ckpt, g.gens.look 0, g.ctx 0 0)) = some (true, [e], some { p := block, credits := 1 }, some (ctx (regs 0#32 0#32 0#32)))) ∧
    0 < (ctx (regs 0#32 0#32 0#32)).credits.getD 0 0 ∧ routeTarget 0 ((ctx (regs 0#32 0#32 0#32)).routes.getD 0 0#32) = some 0 ∧
    ((state (kept_ (.route fetchCtx 0, []))).regions.map fun e => e.1).Pairwise (fun a b => a < b) ∧
    (kept_ (.route fetchCtx 1, [token 5#32 0 false 0#4])).holdsCredit (.route fetchCtx 1) = false := by decide +kernel
theorem kept_discards (p k : Nat) : (state (kept_ (.route fetchCtx 0, [token 5#32 0 false 0#4]))).discards p k = none ∧
    (state (kept_ (.gen 0 0, [token 5#32 0 false 0#4, token 6#32 0 false 0#4]))).discards p k = none :=
  ⟨kept (by decide +kernel) k, kept (by decide +kernel) k⟩

-- The fabric.

/-- A collective on 0x100004, to 0x100008, of one word; through a slot of one rank, this die's. -/
def coll (fn : Nat) (dt : Byte) (wait : Bool := false) (cnt : Word := 1#32) : Packet :=
  { id := 1, opc := 0x5D, fn, org := { ctx := fetchCtx, lease := 7, gang := 5 }, req := 1,
    cmd := [if wait then 0x00018000#32 else 0#32, 0x00018000#32, 0x100004#32, 0#32, 0x100008#32, 0#32, cnt, dt.setWidth 32, 0#32] }
def grouped (colls : List Coll) (contribs : List Contrib := []) (glitch : Tab Nat := []) (sem : Sem := {}) : State :=
  let s := with_ 0#32 0#32 0#32 [(loc 3, 0x80#8), (loc 4, 5#8)]
  { s with pkg := { s.pkg with mmio := (s.pkg.mmio.put (cscfg 0 0) 0x80000000#32).put (fabPage 0 + 0x108) 0x100000#32 },
           dies := { s.dies with colls, contribs }, cores := { s.cores with sems := [(0, sem)] }, fab := { s.fab with glitch } }
def collecting (p : Packet) (begun : Bool := false) : Coll := { id := 1, die := 0, slot := 0, pkt := p, begun }
def arrived (p : Packet) : State := let s := grouped []; { s with dies := { s.dies with collIn := [(0, [p])] } }
/-- The same command on slot 1. -/
def elsewhere (p : Packet) : Packet := { p with cmd := p.cmd.dropLast ++ [1#32] }
theorem witness_Collectives_accepts :
    (∀ p ∈ [coll 0 1#8, coll 0 1#8 false 0#32, { coll 0 1#8 with org := { ctx := fetchCtx, lease := 8, gang := 5 } }], (arrived p).dies.collIn.lookD 0 [] = [p]) ∧
    ((arrived (coll 0 1#8)).current (coll 0 1#8).org = true ∧ (arrived (coll 0 1#8)).badColl 0 (coll 0 1#8) = none) ∧
    ((arrived (coll 0 1#8)).current (coll 0 1#8 false 0#32).org = true ∧ (arrived (coll 0 1#8)).badColl 0 (coll 0 1#8 false 0#32) = some 0x18) ∧
    (arrived (coll 0 1#8)).current { ctx := fetchCtx, lease := 8, gang := 5 } = false ∧
    -- Slot 0 is enabled, slot 1 is not.
    (arrived (coll 0 1#8)).slotOn 0 (wordAt (coll 0 1#8).cmd 8).toNat = true ∧ (arrived (elsewhere (coll 0 1#8))).slotOn 0 1 = false ∧
    (arrived (elsewhere (coll 0 1#8))).badColl 0 (elsewhere (coll 0 1#8)) = some 0xFF := by decide +kernel
/-- The words that a collective of one rank reads are 5. -/
def reads5 (p : Packet) (s : State) : Bool := match State.collWords p false (p.srcWords (s.ranks 0 0) (s.rankOf 0 0)) (fieldAt p.cmd 8 8) s with
  | (.ok xs, u) => xs.map (fun x => leWord (u.readPlace 0 x)) = [5#32] && u.collSeq 0 0 < 65536
  | _ => false
theorem witness_Collectives_begins :
    (∀ c ∈ [collecting (coll 0 1#8), collecting (coll 0 1#8 true), collecting (coll 0 1#8) true], (grouped [c]).collHead 0 0 = some c) ∧
    ((grouped [collecting (coll 0 1#8)]).region 0).map (fun g => g.brake) = some none ∧ ((grouped [collecting (coll 0 1#8)]).rreg 0).rdbg.getLsbD 2 = false ∧
      (grouped [collecting (coll 0 1#8)]).waits (.coll 1 0) = false ∧ WaitMet (grouped []) (coll 0 1#8) ∧ reads5 (coll 0 1#8) (grouped [collecting (coll 0 1#8)]) = true ∧
      (grouped []).groupEntry 0 0 0 = 2 ^ 31 ∧ (grouped []).fabid 0 = 0 ∧ (grouped []).cut 0 0 = none ∧ (grouped []).retrains 0 0 = false ∧ (grouped []).pkg.held = [] ∧
    WaitAborted (grouped [] [] [] { abt := true }) (coll 0 1#8 true) ∧
    (¬WaitMet (grouped []) (coll 0 1#8 true) ∧ ¬WaitAborted (grouped []) (coll 0 1#8 true)) := by
  refine ⟨by decide +kernel, by decide +kernel, by decide +kernel, by decide +kernel, ?_, by decide +kernel, by decide +kernel, by decide +kernel, by decide +kernel,
    by decide +kernel, by decide +kernel, ?_, ?_, ?_⟩ <;> first | unfold WaitMet; decide +kernel | unfold WaitAborted; decide +kernel
/-- A command that was aborted before it began takes its number in its turn, and leaves its slot. -/
def passed : Coll := { collecting (coll 0 1#8) with failed := true }
theorem witness_Collectives_passes :
    (grouped [passed]).collHead 0 0 = some passed ∧ passed.failed = true ∧ (collecting (coll 0 1#8)).failed = false ∧ 0 < (grouped [passed]).ranks 0 0 ∧
      (grouped [passed]).cut 0 0 = none ∧ (grouped [passed]).retrains 0 0 = false ∧ (grouped [passed]).pkg.held = [] := by decide +kernel
theorem test_collective_passes : (match exec (.collectiveBegin 0 0) (grouped [passed]) with
    | .next t => t.dies.colls = [] && t.collSeq 0 0 = 1 && t.dies.contribs.map (fun k => (k.die, k.slot, k.seq, k.rank, k.bad)) = [(0, 0, 0, 0, true)]
    | _ => false) = true := by decide +kernel
/-- The contribution of the one rank, and where its result goes. -/
def contrib (fn dt : Nat) : Contrib := { die := 0, slot := 0, seq := 0, rank := 0, fn, cnt := 1, dt, op := 0, root := 0, words := [5#32] }
def writes8 (p : Packet) (s : State) : Bool := match State.collWords p true (p.dstWords (s.ranks 0 0)) (fieldAt p.cmd 0x10 8) s with
  | (.ok xs, _) => decide (xs = [.mem (loc 8)])
  | _ => false
theorem witness_Collectives_fails :
    ∀ k ∈ [{ contrib 0 1 with bad := true }, { contrib 0 1 with link := some 1 }],
      let s := grouped [collecting (coll 0 1#8) true] [k]
      s.collHead 0 0 = some (collecting (coll 0 1#8) true) ∧ s.waits (.coll 1 0) = false ∧ k.die = 0 ∧ k.slot = 0 ∧ k.seq = 0 ∧ k.rank < s.ranks 0 0 ∧
        s.dies.contribs = [k] ∧ (k.bad = true ∧ k.link = none ∨ k.link.isSome = true) := by decide +kernel
theorem witness_Collectives_completes :
    (∀ e ∈ [(0, 0), (0, 1), (1, 0), (2, 1), (4, 1), (5, 1)], let p := coll e.1 (BitVec.ofNat 8 e.2)
      let s := grouped [collecting p true] [contrib e.1 e.2]
      s.collHead 0 0 = some (collecting p true) ∧ s.waits (.coll 1 0) = false ∧ [contrib e.1 e.2].length = s.ranks 0 0 ∧
        (s.dies.contribs.filter fun x => x.die = 0 && x.slot = 0 && x.seq = 0).find? (fun x => x.rank = 0) = some (contrib e.1 e.2) ∧
        e.1 = p.fn ∧ fieldAt p.cmd 0x18 4 = 1 ∧ fieldAt p.cmd 0x1C 1 = e.2 ∧ fieldAt p.cmd 0x1D 1 = 0 ∧ fieldAt p.cmd 0x1E 2 = 0 ∧ [5#32].any xsOutside = false ∧
        writes8 p s = true ∧ loc 8 % 4 = 0 ∧ s.store.badDirty = []) ∧
    (grouped [] [] [(collKey 0 0, 2)]).fab.glitch.look (collKey 0 0) = some 2 ∧
    -- The tree of three values is that of the first two and the third.
    (2 ^ 1 < [1#32, 2#32, 3#32].length ∧ [1#32, 2#32, 3#32].length ≤ 2 ^ (1 + 1) ∧ [1#32, 2#32, 3#32].length < 4) ∧
    -- The group table is right for one rank, and bad for two.
    (∀ e ∈ [(0, true), (1, false)], let s := grouped []
      let rank := s.rankOf 0 0
      (0x80000000 + e.1) / 2 ^ 31 % 2 = 1 ∧ decide (s.groupBase 0 0 % 4 ≠ 0 ∨ e.1 + 1 ≤ rank ∨ s.groupEntry 0 0 rank ≠ 2 ^ 31 + s.fabid 0 ∨
        (List.range (e.1 + 1)).any (fun r => decide (¬(s.groupEntry 0 0 r / 2 ^ 31 % 2 = 1 ∧ s.groupEntry 0 0 r / 2 ^ 16 % 2 ^ 15 = 0 ∧
          s.groupEntry 0 0 r / 2 ^ 10 % 16 = 0)) ) = true) = !e.2) := by decide +kernel

-- Links, ports and endpoints.

/-- Every link and every port as given. -/
def wired (l : Link) : State := { one with pkg := { one.pkg with links := List.replicate 4 l, ports := List.replicate 8 l, now := 10 } }
/-- A generator that reads through endpoint 0 of its gang, and a job that writes through it. -/
def through : Gen := { p := setAt 16 0#32 block 1 0x40000000#32, running := true, fetch := .reading }
def outward : Packet := { between 7 with cmd := setAt 18 0#32 (between 7).cmd 5 0x80000000#32 }
def bound (remote : Bool) : State :=
  let s := streaming through
  { s with dies := { s.dies with gangs := [(5, { gang with epts := [some { addr := 0, len := 4096, flags := 7 }] })] }, cores := { s.cores with jobs := [job outward .running] },
           pkg := { s.pkg with mmio := s.pkg.mmio.put (fabPage 0 + 4) (if remote then 1#32 else 0#32) } }
def linkedGang : State := { wired { retraining := true, fails := [9, 8] } with dies := { gangs := [(5, { gang with insts := [{ inst := 0, st := .running }] })] } }
theorem witness_LinksPortsAndEndpoints : (wired {}).memoryOk ∧
    (∀ l ∈ [{ run := 0 }, { run := 7 }, { failed := true }, { retraining := true }, { retraining := true, fails := [9, 8] }], (wired l).link 3 = l ∧ (wired l).port 7 = l) ∧
    -- The third failure ends gang 5, which has an instance on die 0.
    ((9 :: [8]).filter fun t => decide ((wired {}).pkg.now ≤ t + 4000000000)).length = 2 ∧ (linkedGang.gang 5).map (fun g => g.alive) = some true ∧
      (∃ e ∈ linkedGang.regions, e.2.gang = 5 ∧ dieOf e.1 = 0) ∧ (wired {}).store.marks = [] ∧ 0x100000 + [1#8].length ≤ pkgBytes ∧
    (∀ b ∈ [false, true], ((bound b).region 0).map (fun g => g.gens.look 0) = some (some through) ∧ genSrc through.p = 1 ∧
      ((bound b).eptOf 5 (genEp through.p)).map (fun e => (bound b).isRemote (dieOf 0) e) = some b ∧
      (bound b).job 0 95 = some (job outward .running) ∧ (outward.side true).sp = 2 ∧ (outward.side true).sel = 0) :=
  ⟨canonical (by decide +kernel), by decide +kernel⟩

-- The package and the host.

/-- A launch record of one instance, whose frame no fault stands in the way of, at VA 0x100000. -/
def recordBytes : List Byte :=
  natLe 4 0x48434C4B ++ natLe 4 0x00010001 ++ natLe 8 0 ++ natLe 8 0 ++ natLe 8 (2 ^ 30) ++ List.replicate 32 0#8 ++ natLe 8 (1 + 2 ^ 32)
/-- A machine with fault rings and that record, to which die 0 has been asked to launch what stands at lrec. -/
def submitted (lrec as_ : Nat) : State :=
  let s := (ringing 1#8 0#8 15#8 false).physPut 0x100000 recordBytes
  { s with pkg := { s.pkg with subs := [{ die := 0, lrec, as_ }] } }
def accepts (s : State) (lrec : Nat) : Option Bool := match s.accept { die := 0, lrec, recAs := 0 } with
  | (.ok _, _) => some true
  | (.error e, _) => if e.cls < 256 then some false else none
theorem witness_HostRequests :
    ((submitted 0x100000 0).pkg.subs.find? (fun y => y.die = 0)).isSome = true ∧ (∀ x ∈ (submitted 0x100000 0).pkg.subs, x.die ≠ 1) ∧ (submitted 0x100000 0).dieWaits 0 = false ∧
      (training (submitted 0x100000 0)).dieWaits 0 = true ∧
    ((submitted 0x100000 0).aspace 0 0).map (fun a => a.v) = some true ∧ (submitted 0x100000 1).aspace 0 1 = none ∧
    accepts { submitted 0x100000 0 with pkg := { (submitted 0x100000 0).pkg with subs := [] } } 0x100000 = some true ∧
    accepts { submitted 0x100800 0 with pkg := { (submitted 0x100800 0).pkg with subs := [] } } 0x100800 = some false ∧
    (one.gang (5#32).toNat = some gang ∧ gang.st ≠ .ended ∧ one.gang (6#32).toNat = none ∧ one.region 0 = some (region (ctx (regs 0x10#32 3#32 0x21#32)))) ∧
    one.memoryOk ∧ one.store.marks.look 0 = none ∧ one.pkg.boot < 5 ∧ 5 ≤ ({ one with pkg := { one.pkg with boot := 5 } } : State).pkg.boot :=
  ⟨by decide +kernel, by decide +kernel, by decide +kernel, by decide +kernel, by decide +kernel, by decide +kernel, by decide +kernel, by decide +kernel, by decide +kernel,
    canonical (by decide +kernel), by decide +kernel, by decide +kernel, by decide +kernel⟩
theorem witness_PackageCare :
    ((0xA5A50001#32).toNat / 65536 = 0xA5A5 ∧ (0xA5A50001#32).getLsbD 0 = true ∧ one.pkg.tripped = false) ∧ one.pkg.boot < 4 ∧
    5 ≤ ({ one with pkg := { one.pkg with boot := 5 } } : State).pkg.boot ∧ (∀ l ∈ one.pkg.links, l.failed = false) ∧
    (∀ b ∈ [false, true], ({ one with pkg := { one.pkg with hot := [b, b, b, b], tripped := b } } : State).pkg.hot.getD 3 false = b ∧
      ({ one with pkg := { one.pkg with hot := [b, b, b, b], tripped := b } } : State).pkg.tripped = b) ∧
    (1400000 < 2250000 ∧ ¬2250000 < 2250000) ∧ one.memoryOk ∧ locOf false 0x100000 = some (loc 0) :=
  ⟨by decide +kernel, by decide +kernel, by decide +kernel, by decide +kernel, by decide +kernel, by decide, canonical (by decide +kernel), by decide +kernel⟩
theorem witness_RegisterWrites : (∀ x ∈ one.pkg.subs, x.die ≠ 3) ∧ (∀ w ∈ [1, 2, 3], (BitVec.ofNat 32 w).getLsbD 0 = decide (w ≠ 2) ∧ (BitVec.ofNat 32 w).getLsbD 1 = decide (w ≠ 1)) ∧
    (0xC0000000#32).getLsbD 31 = true ∧ (0xC0000000#32).getLsbD 30 = true ∧ (one.hq 0 4095).en = false ∧
    ((queued { cfg := en4 }).hq 0 4095).en = true := by decide +kernel

-- Further clauses of these statements: what meets their premises.

/-- A member's firing before the last: its exchange has still to begin, or lacks it and another. -/
def joining (wide : Bool) : State :=
  let lead : Ctx := { ctx (regs 1#32 2#32 3#32) with hist := [some 0, some 0] }
  let s := state { region lead with ctxs := [lead, { ctx (regs 5#32 0#32 7#32) with el := 1, word := 0x9C200000#32 }] }
  if wide then { chained prior with fab := { s.fab with lanes := [{ lead := fetchCtx, slot := 0, n := 3, got := prior }] } } else s
theorem witness_ChainOperations_joins :
    let s0 := joining false
    let s1 := joining true
    (∀ e ∈ ([(.tred (.add .i32) rule, .s32), (.shuf .xor rule, .s32)] : List (Instr × ImmW)), ∃ v, MayFire e.1 rule e.2 s0 v ∧
      decide (v.g.laneOf v.x.el v.x.k = 0 ∧ (v.g.chainOf v.x.el v.x.k).length = 2 ∧ s0.fab.lanes = []) = true) ∧
    (∀ e ∈ ([(.tred (.min .f32) rule, .s32), (.shuf .up rule, .s32)] : List (Instr × ImmW)), ∃ v, MayFire e.1 rule e.2 s1 v ∧
      decide (v.g.laneOf v.x.el v.x.k = 1 ∧ ((s1.fab.lanes.head?).map fun x => decide (x.got.length + 1 < x.n) && x.lacks v.lead v.f.slot 1) = some true) = true) ∧
    -- What earlier contributors of a SHUF receive: another's value, or their own.
    Shuffled [(0, 1#32), (1, 5#32)] (some 1) 1#32 5#32 ∧ Shuffled [(0, 1#32), (1, 5#32)] (some 2) 1#32 1#32 ∧ Shuffled [(0, 1#32), (1, 5#32)] none 1#32 1#32 :=
  ⟨all_may (by decide +kernel), all_may (by decide +kernel), .inl ⟨1, rfl, by simp⟩, .inr ⟨rfl, by simp; omega⟩, .inr ⟨rfl, nofun⟩⟩

/-- A rounded context whose round holds an entry. -/
def holds_ (a b : Word) (e : Held) : State :=
  let g := region { ctx (regs a b 0#32) with word := 0xA0200000#32 }
  state { g with round := { isOpen := true, h0 := { entries := [{ age := 1, org := { ctx := fetchCtx }, size := 16, eff := e }], bytes := 16 } } }
/-- Row and buffer words with a reserved bit set; without a row; and off 16 bytes. -/
def malformed : List (Word × Word) := [(0x2013F#32, 0x1F80#32), (0x13F#32, 0x20001F80#32), (0x13F#32, 0x20000#32), (0x3F#32, 0#32), (0x13F#32, 8#32)]
/-- TRD of the last row that finds its word held; TCPY beyond the rows, beyond the buffer, and malformed. -/
theorem witness_LocalStorage_held :
    (∃ v, MayFire (.trd rule) rule .z (holds_ 0x1F3F#32 0#32 (.twr ((region (ctx [])).rowKey 0 63 31) 7#32)) v ∧
      decide (v.a.toNat < 2 ^ 13 ∧ v.a.toNat % 256 < v.g.rows ∧ v.x.isRounded = true ∧
        ((holds_ 0x1F3F#32 0#32 (.twr ((region (ctx [])).rowKey 0 63 31) 7#32)).newest (coreOf v.r) fun h => match h with
          | .twr k w => if k = v.g.rowKey (v.x.el / 16) 63 31 then some w else none
          | _ => none) = some 7#32) = true) ∧
    (∃ v, MayFire (.tcpy rule) rule .z (with_ 0x140#32 0#32 0#32 []) v ∧ decide (v.g.rows < v.a.toNat % 256 + 1) = true) ∧
    (∃ v, MayFire (.tcpy rule) rule .z (with_ 0x13F#32 0x1F90#32 0#32 []) v ∧ decide (v.a.toNat % 256 + 1 ≤ v.g.rows ∧ v.g.bufSize 0 < v.b.toNat % 2 ^ 17 + 128) = true) ∧
    (∀ e ∈ malformed, ∃ v, MayFire (.tcpy rule) rule .z (with_ e.1 e.2 0#32 []) v ∧
      decide (v.a = e.1 ∧ v.b = e.2 ∧ v.g.rows = 64 ∧ v.g.bufs.length = 1 ∧ v.g.bufSize 0 = 8192) = true) :=
  ⟨may_fire (by decide +kernel), may_fire (by decide +kernel), may_fire (by decide +kernel), fun e he => may_fire (List.all_eq_true.mp
    (by decide +kernel : (malformed.all fun e => may (.tcpy rule) rule .z (with_ e.1 e.2 0#32 []) fun v =>
      decide (v.a = e.1 ∧ v.b = e.2 ∧ v.g.rows = 64 ∧ v.g.bufs.length = 1 ∧ v.g.bufSize 0 = 8192)) = true) e he)⟩
/-- A TCPY under way, with the store free or taken by a sweep's beat. -/
theorem witness_LocalStorage_rows :
    ∀ left ∈ [1, 2], ∀ up ∈ [false, true], (asked (.tcpy 256 up left 0 0)).req 1 = some (req (.tcpy 256 up left 0 0)) ∧
      (asked (.tcpy 256 up left 0 0)).storeBusy 0 = false ∧ (asked (.tcpy 256 up left 0 0) beating).storeBusy 0 = true ∧
      (asked (.tcpy 256 up left 0 0)).store.badWords = [] := by decide +kernel
/-- A reader that waits at a ring which holds three words, where no writer waits, or one that waits for room at a full ring. -/
theorem witness_Rings_served :
    (∀ n ∈ [11, 12], (asked (.parked (.pop 0 0)) (ringed (BitVec.ofNat 32 n) false)).parkedOn 0 0 false = [req (.parked (.pop 0 0))] ∧
      (asked (.parked (.pop 0 0)) (ringed (BitVec.ofNat 32 n) false)).parkedOn 0 0 true = [] ∧
      (match (ringed (BitVec.ofNat 32 n) false).ring 0 0 with
        | some x => decide (ringTail x none ≠ ringHead x none) && !(ringed (BitVec.ofNat 32 n) false).spadReadBad 0 false ((ringed (BitVec.ofNat 32 n) false).entryKey 0 x (ringHead x none)) 4
        | none => false) = true) ∧
    (let s : State := { asked (.parked (.push 0 0 5#32)) (ringed 12#32 false) with
      fab := { one.fab with reqs := [req (.parked (.push 0 0 5#32)), { req (.parked (.pop 0 0)) with id := 2 }] } }
     s.parkedOn 0 0 true = [req (.parked (.push 0 0 5#32))] ∧ s.parkedOn 0 0 false = [{ req (.parked (.pop 0 0)) with id := 2 }] ∧
     (match s.ring 0 0 with
        | some x => decide ((ringTail x none - ringBase x none).toNat = x.cap)
        | none => false) = true) := by decide +kernel

/-- No link retrains and none has failed. -/
def linksUp (s : State) : Bool := s.pkg.links.all fun l => !l.retraining && !l.failed
theorem open_links {s : State} (h : linksUp s = true) (d e : Nat) : s.retrains d e = false ∧ s.cut d e = none := by
  have hl : ∀ l : Nat, ((s.pkg.links[l]?).map fun x : Link => x.retraining).getD false = false ∧ ((s.pkg.links[l]?).map fun x : Link => x.failed).getD false = false := by
    intro l
    cases hx : s.pkg.links[l]? with
    | none => simp
    | some x => simpa using List.all_eq_true.mp h x (List.mem_of_getElem? hx)
  simp [State.retrains, State.training, State.cut, hl]
/-- Queue 4095 of die 0, which clears, which the host writes 16 bytes to, or of which a parked QPUT's drain waits. -/
theorem witness_HardwareQueues_host :
    (∀ e, (queued { cfg := en4, clearing := true }).retrains 0 e = false ∧ (queued { cfg := en4, clearing := true }).cut 0 e = none) ∧
    (∀ e ∈ (hqueue { drains := [(1, true, { opc := 0x57 })] }).drains, e.2.1 = true) ∧
    (let h := hqueue { cfg := en4 }
     (queued { cfg := en4 }).hq 0 4095 = h ∧ h.en = true ∧ h.clearing = false ∧ h.closed = false ∧ h.full = false ∧ (List.replicate 16 1#8).length = h.isize ∧
       (queued { cfg := en4 }).queueParked 0 4095 1 = [] ∧ h.base + h.cap * h.isize + ((h.cap + 3) / 4) ≤ pkgBytes ∧
       NoLink (queued { cfg := en4 }) 0 0 h h.res ∧
       (training (queued { cfg := en4 })).queueWaits 0 0 (h.slotDies h.res) = true) ∧
    (let h := hqueue { cfg := 0xC0000002#32 }
     (queued { cfg := 0xC0000002#32 }).hq 0 4095 = h ∧ h.en = true ∧ h.closed = true ∧ (queued { cfg := 0xC0000002#32 }).queueWaits 0 0 (h.slotDies h.res) = false ∧
       (queued { cfg := 0xC0000002#32 }).queueParked 0 4095 1 = []) ∧
    (let h := hqueue { cfg := en4, res := 4#32 }
     (queued { cfg := en4, res := 4#32 }).hq 0 4095 = h ∧ h.en = true ∧ h.full = true ∧ h.clearing = false) ∧
    (let s : State := { queued { cfg := en4 } with pkg := severed.pkg }
     let h := hqueue { cfg := en4 }
     s.hq 0 4095 = h ∧ s.queueWaits 0 0 (h.slotDies h.res) = false ∧ (s.queueCut 0 0 (h.slotDies h.res)).isSome = true ∧ s.queueParked 0 4095 1 = []) ∧
    (let h := hqueue { cfg := en4, clearing := true }
     (queued { cfg := en4, clearing := true }).hq 0 4095 = h ∧ h.en = true ∧ (List.replicate 16 1#8).length = h.isize ∧ h.clearing = true) :=
  ⟨open_links (by decide +kernel) 0, by decide +kernel, by unfold NoLink; decide +kernel, by decide +kernel, by decide +kernel, by decide +kernel, by decide +kernel⟩

/-- The leader of a chain has joined an exchange that the follower can complete; a fault of another context has frozen the leader. -/
def exchanging : State :=
  let s := joining false
  let wb : WB := { id := 1, ctx := fetchCtx, slot := 0, due := 0, dst := some 3, pdst := none, om := 0#8, done := {} }
  { s with fab := { s.fab with recs := [record 1], lanes := [{ lead := fetchCtx, slot := 0, n := 2, got := [{ member := 0, v := 1#32, wb := some wb }] }],
                               elems := [(0, { freeze := .waiting 3 })] } }
theorem witness_FaultRecords_exchanges :
    ∃ x ∈ exchanging.fab.lanes, exchanging.exchGoes x = true ∧ ∃ i ∈ x.got, ∃ w, i.wb = some w ∧ w.id < 3 ∧ exchanging.physOf w.ctx ∈ (record 1).frozen :=
  ⟨_, .head _, by decide +kernel, _, .head _, _, rfl, by decide +kernel, by decide +kernel⟩

/-- Requests that stand after a kill, and some that do not; and a gang that has stood in another cluster, its lines dirty there. -/
theorem witness_EndsAndResumes_standing :
    (∀ st ∈ [Stage.reply {}, .bad { cls := 0x0B } {}, .ack, .sent, .store 0 5#32, .tcpy 1 true 1 0 0, .held storing, .wide 1 (.access storing), .wide 1 (.send { opc := 0x59 }),
      .wide 1 (.queue (.qput 0 0 [])), .parked (.qput 0 0 []), .parked (.qtick 0 0 0#32 []), .queueClear (.qcan 0 0 0#32)], Standing (req st)) ∧
    ¬Standing { req (.held storing) with org := { ctx := fetchCtx, rounded := true } } ∧ ¬Standing (req (.wide 1 (.fence true))) ∧ ¬Standing (req (.parked (.pop 0 0))) ∧
    (let g := { gang with insts := [{ inst := 0, st := .completed }], clusters := [3] }
     let s : State := { inGang g with store := { one.store with dirty := [(dirtyKey 3 0, 5#8)] } }
     s.gang 5 = some g ∧ s.dirtyLines 3 ≠ []) := by
  refine ⟨?_, by simp [Standing, req], by simp [Standing, req], by simp [Standing, req], by decide +kernel, by decide +kernel⟩
  intro st h
  fin_cases h <;> simp [Standing, req, storing]
/-- An instance that has loaded where a gang has claimed its place. -/
theorem witness_Launches_claimed :
    let g := { gang with st := .loading, insts := [{ inst := 0, st := .loaded }] }
    let s : State := { inGang g with regions := [(0, { region (ctx (regs 0x10#32 3#32 0x21#32)) with claimant := some 6 })] }
    s.gang 5 = some g ∧ (∃ i ∈ g.insts, i.st = .loaded) ∧ (∀ i ∈ g.insts, i.st ≠ .loading ∧ i.fault = none ∧ (s.region i.region).isSome = true) ∧
      (s.region 0).map (fun k => (k.claimant.isSome, k.dead, k.brake)) = some (true, false, none) := by decide +kernel

/-- Two round sets, whose ring is bound to that of the second. -/
def boundRing : State :=
  let x : Ring := { buf := 0, cap := 4, head := 8#32, tail := 11#32 }
  { inGang { gang with rcd := setAt 64 0#32 gang.rcd 44 0x80000001#32 } with regions := [(0, { closed with rings := [x] }), (1, { closed with inst := 1, rings := [x] })] }
theorem witness_Rounds_views : boundRing.memoryOk ∧
    (boundRing.region 0).map (fun g => (decide (g.on = true ∧ g.dead = false ∧ g.round.isOpen = false ∧ g.round.held = false ∧ g.stepping = false ∧ g.stepHeld = false ∧
      (∃ c ∈ g.ctxs, c.isRounded = true ∧ c.retired = false) ∧ (∀ c ∈ g.ctxs, c.isRounded = true → c.trapped = false) ∧
      g.round.n % 2 ∉ g.round.drain ∧ g.round.half.entries = []), g.rings.length)) = some (true, 1) ∧
    boundRing.ringOf 0 0 = (1, 0) ∧ (boundRing.region 1).isSome = true ∧
    (match exec (.roundOpen 0) boundRing with
      | .next t => (t.ring 1 0).isSome
      | _ => false) = true :=
  ⟨canonical (by decide +kernel), by decide +kernel, by decide +kernel, by decide +kernel, by decide +kernel⟩
/-- A TCPY at the head of a drain, of one row or of two, its tile store free or taken; and stores whose block has been evicted. -/
theorem witness_Rounds_drains :
    (∀ n ∈ [0x8000013F, 0x13F, 0x8000023E, 0x23E], let s := state (draining (.tcpy (BitVec.ofNat 32 n) 0#32))
      s.storeBusy 0 = false ∧ ({ s with cores := beating.cores } : State).storeBusy 0 = true ∧ closed.rowKey 0 63 0 / 8192 = 0 ∧ closed.rowKey 0 62 0 / 8192 = 0 ∧
      (s.tcopyRow (tcDir (BitVec.ofNat 32 n)) (closed.rowKey 0 (tcRow (BitVec.ofNat 32 n)) 0) (closed.spadKey 0 0)).1 = none) ∧
    (∀ x ∈ [(false, false), (true, true)], let e : Entry := { age := 1, org := {}, size := 16, eff := .st (loc 28) 0 [1#8, 2#8, 3#8, 4#8] x.1, lost := true }
      let g : Region := { closed with round := { drain := [0], h0 := { entries := [e], bytes := 16, released := x.2 } } }
      (state g).region 0 = some g ∧ (x.1 = false ∨ g.round.h0.released = true) ∧ one.cut 0 (homeDie (loc 28)) = none) := by decide +kernel

/-- Jobs that another package has still to acknowledge, and one that it has; which goes on to its second chunk. -/
theorem witness_CopyJobs_acks :
    let far (st : JobSt) : Job := { job outward st with acks := true }
    let acked : Job := { job { between 7 with cmd := setAt 18 0#32 (between 7).cmd 6 0x80000#32 } .running with acked := true }
    (jobbing (far .running)).job 0 95 = some (far .running) ∧ (jobbing (far .aborting)).job 0 95 = some (far .aborting) ∧
    (jobbing acked).job 0 95 = some acked ∧ acked.chunk + 1 < (acked.pkt.total + 262143) / 262144 ∧ fieldAt acked.pkt.cmd 0x22 2 = 0 ∧
    (∀ x ∈ (jobbing (far .aborting)).cores.jobs, x = far .aborting) := by decide +kernel

/-- A token whose first row another sweep has still to write, and one that comes after it. -/
theorem witness_Systolic_rows :
    let x : SweepTile := { tile := 0, offered := some 0 }
    let other (d : Nat) : Sweep := sweep { tile := 0, took := some 0, beats := 1, next := 0, rows := [(0, d, List.replicate 32 0#32)] } row0 0 2
    ((sweeping [sweep x, other 0]).region 0).map (fun g => (g.active.lookD 0 {}).st) = some .ready ∧ (sweep x).pkt.swap = false ∧ 0 < (sweep x).pkt.rowsM ∧
    fieldAt (sweep x).pkt.cmd 0x18 1 = 0 ∧ (∃ v ∈ (sweeping [sweep x, other 0]).cores.sweeps, v.id ≠ 1 ∧ v.region = 0 ∧ ∃ y ∈ v.tiles, y.tile = 0 ∧ ∃ e ∈ y.rows, ¬e.2.1 < 0 + (e.1 - 0)) := by
  decide +kernel

/-- The fill map's sector is marked in error. -/
def badMap : State :=
  let s := fetching [slotWait]
  { s with store := { s.store with marks := [((locOf false (s.rangeNo 0 0 0).fmap).getD 0 / 32, 1)] } }
/-- A range of the first GiB, whose first block an access to VA 0 has passed its check in; and a held store there. -/
def evicting (reqs : List Req) (half : List Entry := []) : State :=
  let s := (fetching [] [] [evict none]).physPut 0x50003 [0#8]
  { s with fab := { s.fab with reqs }, regions := [(0, { region (ctx (regs 0#32 0#32 0#32)) with round := { h0 := { entries := half } } })] }
theorem witness_TranslationAndFills_errors :
    (let rg := badMap.rangeNo 0 0 0
     badMap.blockDeny 0 rg 0 = some (.bad 1) ∧ rg.die = 0 ∧ rg.idx = 0 ∧ badMap.slotFree 0 1 = true ∧ badMap.blockState rg 0 = 0 ∧ badMap.dieWaits 0 = false ∧
       badMap.depthFor (badMap.waiterGang slotWait.w) = 1 ∧ 1 ≤ rg.depth ∧ (badMap.region fetchCtx.region).isSome = true) ∧
    (fetching [slotWait]).blockDeny 0 ((fetching [slotWait]).rangeNo 0 0 0) 0 = none ∧
    (let a : GAcc := { storing with va := 0, loc := (locOf false 0).getD 0 }
     let s := evicting [req (.held a)]
     inGroups (s.blockGroups (s.rangeNo 0 0 0) 0 0) a.loc = true ∧ s.dies.evicts = [evict none] ∧ (evict none).waiters = []) ∧
    (let e : Entry := { age := 1, org := {}, size := 16, eff := .st ((locOf false 0).getD 0) 0 [1#8] false }
     let s := evicting [] [e]
     s.blockHeld (s.rangeNo 0 0 0) 0 0 = false ∧ inGroups ((s.flushBlock (s.rangeNo 0 0 0) 0 0).blockGroups (s.rangeNo 0 0 0) 0 0) ((locOf false 0).getD 0) = true ∧
       ((s.region 0).map fun g => g.round.h0.entries) = some [e]) := by decide +kernel

/-- A braked region with a collective at its slot, and one on its way there. -/
theorem witness_BrakesAndSettlement_collectives :
    let s := braked id gang
    let u : State := { s with dies := { s.dies with colls := [collecting (coll 0 1#8)], collIn := [(0, [coll 0 1#8])] } }
    (u.region 0).map (fun g => (u.settled 0 g, g.owns 0 (coll 0 1#8))) = some (true, true) ∧ (u.gang 5).isSome = true ∧ (collecting (coll 0 1#8)).failed = false ∧
      coll 0 1#8 ∈ u.dies.collIn.lookD (dieOf 0) [] := by decide +kernel

/-- The class of the fault that the reads of a collective find. -/
def faultOf (p : Packet) (s : State) : Option Nat := match (State.collWords p false (p.srcWords (s.ranks 0 0) (s.rankOf 0 0)) (fieldAt p.cmd 8 8) s).1 with
  | .error (.fault cls _ _) => some cls
  | _ => none
/-- Reads that are not mapped, and one of a sector in error; and a command that has ended so after it began. -/
theorem witness_Collectives_faults :
    (let p : Packet := { coll 0 1#8 with cmd := setAt 9 0#32 (coll 0 1#8).cmd 2 0x40000000#32 }
     (grouped [collecting p]).collHead 0 0 = some (collecting p) ∧ faultOf p (grouped [collecting p]) = some 0x01 ∧ WaitMet (grouped [collecting p]) p) ∧
    (let s : State := { grouped [collecting (coll 0 1#8)] with store := { (grouped []).store with marks := [(loc 4 / 32, 1)] } }
     s.collHead 0 0 = some (collecting (coll 0 1#8)) ∧ faultOf (coll 0 1#8) s = some 0x0B ∧ WaitMet s (coll 0 1#8)) ∧
    (let c : Coll := { collecting (coll 0 1#8) true with failed := true }
     (grouped [c]).collHead 0 0 = some c ∧ c.failed = true ∧ c.begun = true) := by
  refine ⟨⟨by decide +kernel, by decide +kernel, ?_⟩, ⟨by decide +kernel, by decide +kernel, ?_⟩, by decide +kernel⟩ <;> (unfold WaitMet; decide +kernel)

/-- A package with a route to package 1 through port 7, and a slot of two ranks, of which the second is that package's. -/
def routed (l : Link := {}) : State :=
  let s := (grouped [collecting (coll 0 1#8) true]).physPut 0x100000 [0#8, 0#8, 0#8, 0x80#8, 1#8, 0#8, 0#8, 0x80#8] |>.physPut 0x100400 [0xFF#8, 7#8]
  { s with pkg := { s.pkg with mmio := (s.pkg.mmio.put (cscfg 0 0) 0x80000001#32).put (fabPage 0 + 8) 0x100400#32, ports := List.replicate 8 l } }
def messages : List FabMsg := [.write 1 0x100000 [1#8], .read 1 0x100000 1, .ack 0 95 0 0, .contrib 0 0 0 1 0 1 1 0 0 [5#32] none false, .contrib 0 0 0 1 0 1 1 0 0 [5#32] none true]
/-- A message comes, at port 7 of die 3, or a link on its way to its die retrains, or has failed. -/
def comes (m : FabMsg) : Bool :=
  !(routed.port 7).failed && !(routed.port 7).retraining && !routed.retrains 3 (farDie m 3) && routed.pkg.farIn.isEmpty && (routed.cut 3 (farDie m 3)).isNone &&
    (training routed).retrains 3 (farDie m 3) && (({ routed with pkg := { routed.pkg with links := severed.pkg.links } } : State).cut 3 (farDie m 3)).isSome
theorem witness_LinksPortsAndEndpoints_messages : messages.all comes = true ∧
    (∃ x ∈ ({ routed with pkg := { routed.pkg with farIn := [(3, .ack 0 95 0 0)] } } : State).pkg.farIn, x.1 = 3 ∧ farDie x.2 x.1 = farDie (.ack 0 95 0 0) 3) ∧
    locOf false 0x100000 = some (loc 0) ∧
    (({ routed with store := { routed.store with marks := [(loc 0 / 32, 1)] } } : State).marked (loc 0) 1).isSome = true ∧ routed.store.marks.isEmpty = true :=
  ⟨by decide +kernel, ⟨_, .head _, rfl, rfl⟩, by decide +kernel, by decide +kernel, by decide +kernel⟩
/-- An answer to package 1 leaves, waits, or finds its port failed. -/
theorem witness_LinksPortsAndEndpoints_answers :
    (!routed.farWaits 0 1 && (routed.farCut 0 1).isNone && routed.pkg.farOut.isEmpty) = true ∧ (routed { retraining := true }).farWaits 0 1 = true ∧
    (!(routed { failed := true }).farWaits 0 1 && ((routed { failed := true }).farCut 0 1).isSome) = true :=
  ⟨by decide +kernel, by decide +kernel, by decide +kernel⟩
/-- A gang that is saved; a job that is being aborted; and a rank that no other package answers, or that has none to wait for. -/
theorem witness_LinksPortsAndEndpoints_ends :
    (let s : State := { linkedGang with regions := [], dies := { gangs := [(5, { gang with st := .saved, insts := [{ inst := 0, st := .saved }], saved := [saved] })] } }
     (s.gang 5).any (fun g => g.alive && g.saved.any fun v => v.core / 16 = 0) = true) ∧
    (let j : Job := { job outward .aborting with acks := true }
     let s : State := { bound true with cores := { one.cores with jobs := [j] } }
     s.job 0 95 = some j ∧ (∀ x ∈ s.cores.jobs, x = j)) ∧ (outward.side true).sp = 2 ∧ ((bound true).eptOf 5 0).isSome = true ∧ through.old = false ∧ through.rounded = false ∧
    (routed.collHead 0 0).any (fun c => c.begun && !c.failed) = true ∧ decide (1 < routed.ranks 0 0 ∧ routed.groupEntry 0 0 1 % 1024 ≠ routed.fabid 0) = true ∧
    routed.dies.contribs.isEmpty = true ∧
    (let s := grouped [collecting (coll 0 1#8) true]
     (s.collHead 0 0).any (fun c => c.begun && !c.failed) = true ∧ decide (s.ranks 0 0 = 1 ∧ s.groupEntry 0 0 0 % 1024 = s.fabid 0) = true) :=
  ⟨by decide +kernel, ⟨by decide +kernel, by decide +kernel⟩, by decide +kernel, by decide +kernel, by decide +kernel, by decide +kernel, by decide +kernel, by decide +kernel,
    by decide +kernel, by decide +kernel, by decide +kernel⟩

/-- The entry of the table of address spaces lies beyond a failed link, or is in error. -/
theorem witness_HostRequests_tables :
    (let s : State := { submitted 0x100000 0 with pkg := { (submitted 0x100000 0).pkg with mmio := ((submitted 0x100000 0).pkg.mmio).put (dieBlock 1 + 8) 1#32, links := severed.pkg.links, subs := [{ die := 1, lrec := 0x100000, as_ := 0 }] } }
     s.dieWaits 1 = false ∧ (match s.tableDeny 1 (s.astBase 1) 0 (s.astN 1) with
       | some (.link _) => true
       | _ => false) = true) ∧
    (let s : State := { submitted 0x100000 0 with store := { (submitted 0x100000 0).store with marks := [(0, 1)] } }
     s.tableDeny 0 (s.astBase 0) 0 (s.astN 0) = some (.bad 1)) ∧
    (submitted 0x100000 0).tableDeny 0 ((submitted 0x100000 0).astBase 0) 0 ((submitted 0x100000 0).astN 0) = none := by decide +kernel
/-- A register of the configuration space that is none of a capability's, and the last of these. -/
theorem witness_HostRequests_registers : (∃ reg, ∀ c ∈ capRegs, Config.capAt c.num ≠ reg) ∧
    (∃ c ∈ capRegs, ∃ reg, Config.capAt c.num = reg ∧ ∀ x ∈ capRegs, c.num < x.num → Config.capAt x.num ≠ reg) ∧
    (∀ n ∈ [0, 1], ∃ c ∈ capRegs, c.num = n ∧ c.val &&& c.fixed = c.val) := by
  refine ⟨⟨Config.capAt 0 + Config.capAt 1 + Config.capAt 2 + Config.capAt 3 + Config.capAt 4 + 1, ?_⟩, ⟨_, .tail _ (.tail _ (.tail _ (.tail _ (.head _)))), _, rfl, ?_⟩, by decide +kernel⟩
  · intro c h
    simp only [capRegs, List.mem_cons, List.not_mem_nil, or_false] at h
    rcases h with rfl | rfl | rfl | rfl | rfl <;> simp only <;> omega
  · intro x h hx
    simp only [capRegs, List.mem_cons, List.not_mem_nil, or_false] at h
    rcases h with rfl | rfl | rfl | rfl | rfl <;> simp only at hx <;> omega
/-- The 1,001st sample above 1,400 A, and the 1,000th; a sensor that reads 100 degrees, and one that reads 99. -/
theorem witness_PackageCare_samples :
    (∀ n ∈ [999, 1000], let s : State := { one with pkg := { one.pkg with peaks := [List.replicate n 0] } }
     let recent := [s.pkg.now] ++ (s.pkg.peaks.getD 0 []).filter fun t => decide (s.pkg.now < t + 40000000)
     decide (1000 < recent.length) = decide (n = 1000)) ∧
    (1400000 < 1400001 ∧ ¬2250000 < 1400001) ∧ (∀ c ∈ [99, 100], (∃ n, n < 64 ∧ 100 ≤ ((setAt 64 0 (one.pkg.temps.getD 3 []) 63 c).getD n 0)) ↔ c = 100) := by decide +kernel
/-- Read-only registers at the ends of their pages, KILL written with RESUME, and CJCTL without ABORT. -/
theorem witness_RegisterWrites_readOnly : (3#32).getLsbD 1 = true ∧ (3#32).getLsbD 0 = true ∧ (0x7FFFFFFF#32).getLsbD 31 = false ∧ (0xFFFFFFFE#32).getLsbD 0 = false ∧
    0xFFF ∉ [0x00, 0x04, 0x08, 0x10, 0x14, 0x18, 0x1C, 0x20, 0x40] ∧ 0x50 ∉ [0x00, 0x04, 0x08, 0x40, 0x44, 0x48, 0x4C] ∧ 0x10 ∉ [0x00, 0x04, 0x08, 0x0C] ∧
    0x1F ∉ [0x00, 0x04, 0x08] ∧ 0x3F ∉ [0x00, 0x04, 0x08, 0x18] ∧ 0x801 % 16 ≠ 0 := by decide

end Sys2Proof.Tests
end

section
/-!
SUPPORT. One step of the machine: what it runs, and when it faults (R29, R34, R49, R53, R58).
-/

namespace Sys2Proof.Machine

/-- Settles O6: by the equation of `step` for each of the two moves. -/
theorem stepRunsDecoded : Obligations.StepRunsDecoded := by
  intro s rest
  refine ⟨fun f w i ha hw hd => ?_, fun i ha => ?_⟩
  · simp only [step, ha, hw, hd]
  · simp only [step, ha]

/-- Every instruction has a meaning, and none of them stops the machine. -/
theorem exec_next (i : Instr) (s : State) : ∃ t, exec i s = .next t := by
  cases i <;> exact ⟨_, rfl⟩

theorem step_of_undecodable {s : State} {f : Firing} {rest : List Move} {w : Slot} (ha : s.agenda = .fire f :: rest)
    (hw : s.slotWords f = some w) (hd : ∀ i, decode w.w0 w.w1 w.w2 ≠ .ok i) : step s = .fault (.illegalWord w.w0 w.w1 w.w2) := by
  cases hx : decode w.w0 w.w1 w.w2 with
  | ok i => exact absurd hx (hd i)
  | error e => simp only [step, ha, hw, hx]

/-- A step answers a next state, unless a slot is chosen whose words are no instruction. -/
theorem step_next_or_illegal (s : State) :
    (∃ t, step s = .next t) ∨
    ∃ f rest w, s.agenda = .fire f :: rest ∧ s.slotWords f = some w ∧ ∀ i, decode w.w0 w.w1 w.w2 ≠ .ok i := by
  cases ha : s.agenda with
  | nil => exact .inl ⟨_, by simp only [step, ha]; rfl⟩
  | cons m rest =>
    cases m with
    | fire f =>
      cases hw : s.slotWords f with
      | none => exact .inl ⟨_, by simp only [step, ha, hw]; rfl⟩
      | some w =>
        cases hd : decode w.w0 w.w1 w.w2 with
        | ok i =>
          left
          simp only [step, ha, hw, hd]
          exact exec_next i _
        | error e => exact .inr ⟨f, rest, w, rfl, hw, fun i hi => by rw [hd] at hi; cases hi⟩
    | event i =>
      left
      simp only [step, ha]
      exact exec_next i _
    | chain | replay | signal | testBars => exact .inl ⟨_, by simp only [step, ha]; rfl⟩

/-- Settles O7: `exec` always answers a next state, so a step faults exactly where a chosen slot's words do not decode. -/
theorem stepFaultsOnlyOnIllegalWords : Obligations.StepFaultsOnlyOnIllegalWords := by
  intro s
  rcases step_next_or_illegal s with ⟨t, ht⟩ | ⟨f, rest, w, ha, hw, hd⟩
  · refine ⟨fun q hq => by simp [ht] at hq, fun e => ⟨fun he => by simp [ht] at he, ?_⟩⟩
    rintro ⟨f, rest, w, ha, hw, -, hd⟩
    simp [step_of_undecodable ha hw hd] at ht
  · have hs := step_of_undecodable ha hw hd
    refine ⟨fun q hq => by simp [hs] at hq, fun e => ⟨fun he => ?_, ?_⟩⟩
    · exact ⟨f, rest, w, ha, hw, (Host.Outcome.fault.inj (hs.symm.trans he)).symm, hd⟩
    · rintro ⟨f', rest', w', ha', hw', rfl, hd'⟩
      exact step_of_undecodable ha' hw' hd'

end Sys2Proof.Machine
end

section
/-!
SUPPORT. Firings that are not ready (R27): what a ready firing has passed, and that every instruction whose firing is not ready leaves
the state as it was.
-/

namespace Sys2Proof.Machine
variable {α : Type} {s : State} {r : Rule} {w : ImmW} {need : View → Need}

theorem fireThen_idle (eff : View → State → State) (h : ∀ v, view s r w = some v → v.ready (need v) s = false) :
    fireThen r w need eff s = s := by
  simp only [fireThen]
  split
  · rfl
  · next v hv => simp [h v hv]

theorem fireGo_idle (eff : View → State → State) (h : ∀ v, view s r w = some v → v.ready (need v) s = false) :
    fireGo r w need eff s = s := by
  simp only [fireGo]
  split
  · rfl
  · next v hv => simp [h v hv]

theorem fireChecked_idle (pre : View → State → Pre α × State) (eff : View → α → State → State) (wait : View → State → State)
    (h : ∀ v, view s r w = some v → v.ready (need v) s = false) : fireChecked r w need pre eff wait s = s := by
  simp only [fireChecked]
  split
  · rfl
  · next v hv => simp [h v hv]

theorem fireLane_idle (want : View → LaneWant)
    (h : ∀ v, view s r .s32 = some v → v.ready { needOf v.rule with lane := true } s = false) : fireLane r want s = s := by
  simp only [fireLane]
  split
  · rfl
  · next v hv => simp [h v hv]

theorem fireIsect_idle (fn : Nat) (h : ∀ v, view s r .z = some v → v.ready (isectNeed fn v) s = false) : fireIsect fn r s = s := by
  simp only [fireIsect]
  split
  · rfl
  · next v hv => simp [h v hv]

theorem execLdS_idle (sz : Size) (t : Ty) (h : ∀ v, view s r .s32 = some v → v.ready (memNeed v) s = false) :
    execLdS sz t r s = .next s := by
  simp only [execLdS]
  split
  · rfl
  · next v hv =>
    have h : v.ready { needOf v.rule with mem := some {} } s = false := h v hv
    simp [h]

theorem execTex_idle (f : TexFn) (h : ∀ v, view s r .f32 = some v → v.ready (memNeed v) s = false) : execTex f r s = .next s := by
  simp only [execTex]
  split
  · rfl
  · next v hv => simp [h v hv]

theorem execLd_idle (sz : Size) (t : Ty)
    (h : ∀ v, view s r .s32 = some v → v.ready (needFor s v (.ld sz t r)) s = false) : execLd sz t r s = .next s := by
  simp only [needFor] at h
  simp only [execLd]
  split
  · next hp =>
    simp only [hp, if_true] at h
    exact congrArg Host.Outcome.next (fireThen_idle _ h)
  · next hp =>
    simp only [hp] at h
    exact congrArg Host.Outcome.next (fireChecked_idle _ _ _ h)

theorem fireAtom_idle (f : Nat) (t : Ty) (h : ∀ v, view s r .s32 = some v → v.ready (gNeed v) s = false) : fireAtom f t r s = s := by
  rw [fireAtom, fireGlobal, fireChecked_idle _ _ _ h]

/-- An instruction whose firing is not ready does nothing. -/
theorem exec_idle {i : Instr} {fm : Form} (hf : i.form = some (fm, r))
    (h : ∀ w v, view s r w = some v → v.ready (needFor s v i) s = false) : exec i s = .next s := by
  cases i <;> cases hf
  case ld => exact execLd_idle _ _ (h _)
  case ldS => exact execLdS_idle _ _ (h _)
  case tex => exact execTex_idle _ (h _)
  case shuf | tred => exact congrArg Host.Outcome.next (fireLane_idle _ (h _))
  case isectBox4 => exact congrArg Host.Outcome.next (fireIsect_idle _ (h _))
  case isectTri | isectRib | isectTube | isectBlp => exact congrArg Host.Outcome.next (fireIsect_idle _ (h _))
  case trap | brk | ret => exact congrArg Host.Outcome.next (fireThen_idle _ (h _))
  case fence | rpush | rpushTry | rpop | rpopTry | agset | agctlStart | agctlStop | agctlRew | agctlStat | semSig | semRd | barx | bara |
      barw | qrsv | qcan | pdone | pfail | pstat | dbgMark | dbgDump =>
    exact congrArg Host.Outcome.next (fireGo_idle _ (h _))
  case aadd | amin | amax | aand | aor | axor | aswap => exact congrArg Host.Outcome.next (fireAtom_idle _ _ (h _))
  case st | amaxU64 | axaddF32 | acas | xrd | xrdClr | waita | lds | sts | trd | twr | wld |
      sweep | sweepSwap | cturn | copy | qput | qpop | launch | cover | cllct | tcpy =>
    exact congrArg Host.Outcome.next (fireChecked_idle _ _ _ (h _))
  all_goals exact congrArg Host.Outcome.next (fireAlu_idle _ _ _ (h _))

-- What a firing that is ready has passed.

/-- The tests of R27 that a ready firing has passed, as far as its context's state decides them. -/
structure Ready (v : View) (n : Need) : Prop where
  en : v.x.en = true
  live : v.x.retired = false
  free : v.e.stopped = false
  leads : v.f.follower = v.x.fol
  kind : v.kindHolds = true
  settledPreds : predsSettled v.rule.guard v.x = true
  preds : ((n.unmasked && v.f.follower) || predsHold v.rule.guard v.x) = true
  chans : v.chansHold n.merge (!(n.unmasked && v.f.follower)) = true
  settled : v.settled n.preds = true
  credits : v.credited n.om = true

theorem View.ready_spec {v : View} {n : Need} (h : v.ready n s = true) : Ready v n := by
  simp only [View.ready, View.live, Bool.and_eq_true, Bool.not_eq_true', beq_iff_eq] at h
  obtain ⟨⟨⟨⟨⟨⟨⟨⟨⟨hl, hk⟩, hs⟩, hp⟩, hc⟩, hd⟩, ho⟩, -⟩, -⟩, -⟩ := h
  obtain ⟨⟨⟨⟨⟨⟨⟨⟨⟨-, hen⟩, -⟩, hret⟩, -⟩, hst⟩, -⟩, -⟩, -⟩, hf⟩ := hl
  exact ⟨hen, hret, hst, hf, hk, hs, hp, hc, hd, ho⟩

/-- Views of one firing differ in the values of their sources only. -/
theorem view_agree {w' : ImmW} {v u : View} (h : view s r w = some v) (h' : view s r w' = some u) :
    ∃ a b c, u = { v with a, b, c } := by
  simp only [view] at h h'
  split at h
  · cases h
  · next hg =>
    rw [hg] at h'
    dsimp only at h'
    split at h
    · cases h
    · next hx => rw [hx] at h'; cases h; cases h'; exact ⟨_, _, _, rfl⟩

theorem needFor_om {i : Instr} (v : View) (h : ∀ q, i ≠ .steer q) : (needFor s v i).om = v.rule.om := by
  cases i
  case steer q => exact absurd rfl (h q)
  case ld => simp only [needFor]; split <;> rfl
  all_goals rfl

theorem needFor_merge {i : Instr} (v : View) (h : ∀ q, i ≠ .merge q) : (needFor s v i).merge = false := by
  cases i
  case merge q => exact absurd rfl (h q)
  case ld => simp only [needFor]; split <;> rfl
  all_goals rfl

theorem Elem.stopped_of_posted {e : Elem} (h : e.freeze = .posted) : e.stopped = true := by
  simp [Elem.stopped, Elem.freezes, h, Freeze.stops]

theorem predTerm_t (b : Bool) : predTerm .t b = b := rfl
theorem predTerm_f (b : Bool) : predTerm .f b = !b := rfl

theorem Ctx.en_eq (x : Ctx) : x.en = x.word.getLsbD 31 := by
  simp [Ctx.en, bitOf, BitVec.getLsbD, Nat.testBit_eq_decide_div_mod_eq]

theorem Ctx.fol_eq (x : Ctx) : x.fol = x.word.getLsbD 28 := by
  simp [Ctx.fol, bitOf, BitVec.getLsbD, Nat.testBit_eq_decide_div_mod_eq]

namespace Ready
variable {v : View} {n : Need} (h : Ready v n)
include h

theorem armed (hf : v.f.follower = false) (hk : v.rule.guard.kind = .init) : v.x.armed.getLsbD v.f.slot = true := by
  simpa [View.kindHolds, hf, hk] using h.kind

theorem pred_ne_pending {m : Nat} (hm : m < 8) (hp : v.rule.guard.pm.getLsbD m = true) : v.x.preds.getD m .f ≠ .pending := by
  have := List.all_eq_true.mp h.settledPreds m (List.mem_range.mpr hm)
  simpa [hp] using this

theorem predTerm_holds (hf : v.f.follower = false) {m : Nat} (hm : m < 8) (hp : v.rule.guard.pm.getLsbD m = true) :
    predTerm (v.x.preds.getD m .f) (v.rule.guard.pv.getLsbD m) = true := by
  have := h.preds
  rw [hf, Bool.and_false, Bool.false_or] at this
  simpa [hp] using List.all_eq_true.mp this m (List.mem_range.mpr hm)

theorem chan {m : Nat} (hm : m < 4) (hn : n.merge = false) :
    chanTest v.rule.guard v.e v.x.k m (!(n.unmasked && v.f.follower)) = true := by
  have := h.chans
  simp only [View.chansHold, hn, Bool.false_eq_true, if_false] at this
  exact List.all_eq_true.mp this m (List.mem_range.mpr hm)

theorem credit {o : Nat} (ho : o < 8) (hm : n.om.getLsbD o = true) : 0 < v.x.credits.getD o 0 := by
  have := List.all_eq_true.mp h.credits o (List.mem_range.mpr ho)
  simp only [hm, Bool.not_true, Bool.false_or, Bool.and_eq_true, decide_eq_true_eq] at this
  exact this.1

theorem dst_free {m : BitVec 3} (hd : v.rule.dst = some m) : v.x.busy.getLsbD m.toNat = false := by
  have := h.settled
  simp only [View.settled, hd, Bool.and_eq_true, Bool.not_eq_true'] at this
  obtain ⟨⟨⟨-, hd⟩, -⟩, -⟩ := this
  exact hd

theorem pdst_free {m : BitVec 3} (hd : v.rule.pdst = some m) : v.x.pred m ≠ .pending := by
  have := h.settled
  simp only [View.settled, hd, Bool.and_eq_true, bne_iff_ne] at this
  obtain ⟨⟨-, hd⟩, -⟩ := this
  exact hd

theorem src_free {m : BitVec 3} (hs : v.rule.a = .reg m ∨ v.rule.b = .reg m ∨ v.rule.c = .reg m) : v.x.busy.getLsbD m.toNat = false := by
  have := h.settled
  simp only [View.settled, Bool.and_eq_true] at this
  obtain ⟨⟨⟨⟨⟨ha, hb⟩, hc⟩, -⟩, -⟩, -⟩ := this
  rcases hs with hs | hs | hs
  · simpa [hs] using ha
  · simpa [hs] using hb
  · simpa [hs] using hc
end Ready

theorem chanTest_spec {g : Guard} {e : Elem} {k m : Nat} {colour : Bool} (h : chanTest g e k m colour = true) (hi : g.cc m ≠ .ignore) :
    ∃ t, e.head m = some t ∧ t.ctx = k ∧ (g.cc m = .data → t.isControl = false) ∧ (g.cc m = .control → t.isControl = true) ∧
      (colour = true → ∀ q, g.colour = some q → t.colour = q) := by
  have hh : (match e.head m with
      | none => false
      | some t => t.ctx = k && !(g.cc m == .data && t.isControl) && !(g.cc m == .control && !t.isControl) &&
        (!colour || match g.colour with
          | some q => decide (t.colour = q)
          | none => true)) = true := by
    refine Eq.trans ?_ h
    rw [chanTest]
    cases hc : g.cc m with
    | ignore => exact absurd hc hi
    | _ => rfl
  cases ht : e.head m with
  | none => simp [ht] at hh
  | some t =>
    simp only [ht, Bool.and_eq_true, decide_eq_true_eq] at hh
    obtain ⟨⟨⟨hk, hd⟩, hc⟩, hq⟩ := hh
    refine ⟨t, rfl, hk, fun h' => ?_, fun h' => ?_, fun h' q hg => ?_⟩
    · simpa [h'] using hd
    · simpa [h'] using hc
    · simpa [h', hg] using hq

/-- Settles O12: each reason given contradicts a test that a ready firing has passed (`Ready`), and a firing that is not ready does nothing
(`exec_idle`). -/
theorem ineligibleSlotsDoNothing : Obligations.IneligibleSlotsDoNothing := by
  intro i fm r s v hf hv g hcond
  refine exec_idle hf fun w u hu => Bool.eq_false_iff.mpr fun hready => ?_
  obtain ⟨-, -, -, -, -, -, -, he, rfl⟩ := view_spec hv
  obtain ⟨a, b, c, rfl⟩ := view_agree hv hu
  have hr := View.ready_spec hready
  rcases hcond with h | h | h | ⟨hl, h⟩ | ⟨hl, hk, h⟩ | ⟨m, hm, hp, h⟩ | ⟨m, hm, hi, hc, h⟩ | ⟨m, hs, h⟩ | ⟨m, hs, h⟩ | ⟨o, ho, hi, hm, h⟩
  · exact Bool.false_ne_true (h.symm.trans ((Ctx.en_eq _).symm.trans hr.en))
  · exact Bool.false_ne_true (hr.live.symm.trans h)
  · exact Bool.false_ne_true (hr.free.symm.trans (Elem.stopped_of_posted (he ▸ h)))
  · exact Bool.false_ne_true (hl.symm.trans (hr.leads.trans ((Ctx.fol_eq _).trans h)))
  · exact Bool.false_ne_true (h.symm.trans (hr.armed hl hk))
  · rcases h with h | ⟨hl, ⟨h, hpv⟩ | ⟨h, hpv⟩⟩
    · exact hr.pred_ne_pending hm hp h
    · exact Bool.false_ne_true (hpv.symm.trans ((predTerm_t _).symm.trans (h ▸ hr.predTerm_holds hl hm hp)))
    · have ht := (predTerm_f _).symm.trans (h ▸ hr.predTerm_holds hl hm hp)
      exact Bool.false_ne_true (((congrArg not hpv).symm.trans ht))
  · obtain ⟨t, hh, hk, hd, hc', hq⟩ := chanTest_spec (hr.chan hm (needFor_merge _ hi)) hc
    rcases h with h | ⟨k, hk', h⟩
    · have hn : v.e.head m = none := by rw [he, Elem.head, h]; rfl
      exact absurd (hn.symm.trans hh) (by simp)
    · obtain rfl : k = t := Option.some.inj (hk'.symm.trans (he ▸ hh))
      rcases h with h | ⟨hg, h⟩ | ⟨hg, h⟩ | ⟨hl, q, hg, h⟩
      · exact h hk
      · exact Bool.false_ne_true ((hd hg).symm.trans h)
      · exact Bool.false_ne_true (h.symm.trans (hc' hg))
      · exact h (hq (by rw [hl, Bool.and_false]; rfl) q hg)
  · rcases hs with hs | hs | hs | hs
    · exact Bool.false_ne_true ((hr.src_free (.inl hs)).symm.trans h)
    · exact Bool.false_ne_true ((hr.src_free (.inr (.inl hs))).symm.trans h)
    · exact Bool.false_ne_true ((hr.src_free (.inr (.inr hs))).symm.trans h)
    · exact Bool.false_ne_true ((hr.dst_free hs).symm.trans h)
  · exact hr.pdst_free hs h
  · exact Nat.ne_of_gt (hr.credit ho ((needFor_om _ hi) ▸ hm)) h
end Sys2Proof.Machine
end

section
/-!
SUPPORT. What giving credits back and writing a result back change (R23, R35, R47, R247).
-/
namespace Sys2Proof.Machine

theorem State.ctx_updCtx (s : State) (c k : CtxId) (f : Ctx → Ctx) (hf : ∀ x, (f x).el = x.el ∧ (f x).k = x.k) :
    (s.updCtx c f).ctx k = if k = c then (s.ctx k).map f else s.ctx k := by
  rcases c with ⟨r, el, k'⟩
  rcases k with ⟨q, el', j⟩
  simp only [State.ctx, State.region_updCtx, CtxId.mk.injEq]
  by_cases hq : q = r
  · subst hq
    cases s.region q with
    | none => simp
    | some g => simp [Region.ctx_updCtx _ _ _ _ _ _ hf]
  · simp [hq]

theorem State.ctx_updCtx_same {s : State} {c : CtxId} {f : Ctx → Ctx} {x : Ctx} (hx : s.ctx c = some x)
    (hf : ∀ x, (f x).el = x.el ∧ (f x).k = x.k := by exact fun _ => ⟨rfl, rfl⟩) : (s.updCtx c f).ctx c = some (f x) := by
  rw [State.ctx_updCtx s c c f hf, if_pos rfl, hx]; rfl

theorem State.ctx_updCtx_other {s : State} {c k : CtxId} {f : Ctx → Ctx} (hk : k ≠ c)
    (hf : ∀ x, (f x).el = x.el ∧ (f x).k = x.k := by exact fun _ => ⟨rfl, rfl⟩) :
    (s.updCtx c f).ctx k = s.ctx k := by
  rw [State.ctx_updCtx s c k f hf, if_neg hk]

theorem State.ctx_updRegion (s : State) (r : Nat) (k : CtxId) {f : Region → Region} (hf : ∀ g, (f g).ctxs = g.ctxs := by exact fun _ => rfl) :
    (s.updRegion r f).ctx k = s.ctx k := by
  simp only [State.ctx, State.region_updRegion]
  split
  · cases s.region k.region with
    | none => rfl
    | some g => simp [Region.ctx, hf]
  · rfl

-- Regions with the same chains.

/-- What decides the chains that a context belongs to (R39). -/
def Ctx.place (c : Ctx) : Nat × Nat × Word := (c.el, c.k, c.word)

/-- The contexts stand at the same elements, in the same chains, on the same tiles. -/
structure SameChains (g h : Region) : Prop where
  tmap : h.tmap = g.tmap
  places : h.ctxs.map Ctx.place = g.ctxs.map Ctx.place

theorem find?_map_eq_of_map_eq {α β : Type} {p : α → Bool} {f : α → β} (q : β → Bool) (hp : ∀ x, p x = q (f x)) {l m : List α}
    (h : m.map f = l.map f) : (m.find? p).map f = (l.find? p).map f := by
  have hpq : p = q ∘ f := funext hp
  rw [hpq, ← List.find?_map, ← List.find?_map, h]

namespace SameChains
variable {g h : Region} (hs : SameChains g h)
include hs

theorem phys (el : Nat) : h.phys el = g.phys el := by rw [Region.phys, Region.phys, hs.tmap]

theorem ctx (el k : Nat) : (h.ctx el k).map Ctx.place = (g.ctx el k).map Ctx.place :=
  find?_map_eq_of_map_eq (fun c : Nat × Nat × Word => decide (c.1 = el ∧ c.2.1 = k)) (fun _ => rfl) hs.places

theorem followerOf (el k : Nat) : (h.followerOf el k).map Ctx.place = (g.followerOf el k).map Ctx.place :=
  find?_map_eq_of_map_eq (fun c : Nat × Nat × Word => decide (c.2.1 = k ∧ c.1 / 16 = el / 16 ∧ bitOf 28 c.2.2.toNat ∧
    (adjacent (c.1 % 16) (bitsOf 26 2 c.2.2.toNat)).map (16 * (c.1 / 16) + ·) = some el)) (fun _ => rfl) hs.places

theorem chainFrom (k n el : Nat) : h.chainFrom k n el = g.chainFrom k n el := by
  induction n generalizing el with
  | zero => rfl
  | succ n ih =>
    have hf := hs.followerOf el k
    simp only [Region.chainFrom]
    rcases hh : h.followerOf el k with - | c <;> rcases hg : g.followerOf el k with - | d <;>
      simp only [hh, hg, Option.map_none, Option.map_some, reduceCtorEq, Option.some.injEq, Ctx.place, Prod.mk.injEq] at hf
    · rfl
    · obtain ⟨he, -⟩ := hf
      simp only [he, ih]

theorem leaderOf (k n el : Nat) : h.leaderOf k n el = g.leaderOf k n el := by
  induction n generalizing el with
  | zero => rfl
  | succ n ih =>
    have hf := hs.ctx el k
    simp only [Region.leaderOf]
    rcases hh : h.ctx el k with - | c <;> rcases hg : g.ctx el k with - | d <;>
      simp only [hh, hg, Option.map_none, Option.map_some, reduceCtorEq, Option.some.injEq, Ctx.place, Prod.mk.injEq] at hf
    · rfl
    · obtain ⟨-, -, hw⟩ := hf
      have hf : c.fol = d.fol := by rw [Ctx.fol, Ctx.fol, hw]
      have hl : c.ldir = d.ldir := by rw [Ctx.ldir, Ctx.ldir, hw]
      simp only [hf, hl, ih]

theorem chainOf (el k : Nat) : h.chainOf el k = g.chainOf el k := by
  rw [Region.chainOf, hs.leaderOf, hs.chainFrom, Region.chainOf]

theorem trans {i : Region} (ht : SameChains h i) : SameChains g i := ⟨ht.tmap.trans hs.tmap, ht.places.trans hs.places⟩

end SameChains

theorem SameChains.updCtx (g : Region) (el k : Nat) {f : Ctx → Ctx} (hf : ∀ x, (f x).place = x.place) : SameChains g (g.updCtx el k f) := by
  refine ⟨rfl, ?_⟩
  simp only [Region.updCtx, mapIf, List.map_map]
  refine List.map_congr_left fun x _ => ?_
  simp only [Function.comp]
  split
  · exact hf x
  · rfl


/-- Every region keeps its chains from one state to another. -/
def KeepsChains (s t : State) : Prop := ∀ r g, s.region r = some g → ∃ h, t.region r = some h ∧ SameChains g h

theorem KeepsChains.refl (s : State) : KeepsChains s s := fun _ g hg => ⟨g, hg, rfl, rfl⟩

theorem KeepsChains.trans {s t u : State} (h : KeepsChains s t) (k : KeepsChains t u) : KeepsChains s u := by
  intro r g hg
  obtain ⟨i, hi, hs⟩ := h r g hg
  obtain ⟨j, hj, ht⟩ := k r i hi
  exact ⟨j, hj, hs.trans ht⟩

theorem KeepsChains.updRegion (s : State) (r : Nat) {f : Region → Region} (hf : ∀ g, SameChains g (f g)) : KeepsChains s (s.updRegion r f) := by
  intro q g hg
  rw [State.region_updRegion, hg]
  split
  · exact ⟨f g, rfl, hf g⟩
  · exact ⟨g, rfl, rfl, rfl⟩

-- Credits that return.

/-- What giving credits back changes: the tokens that a node has left, and credits. -/
structure Credits (s t : State) : Prop where
  rest : t = { s with fab := { s.fab with flits := t.fab.flits }, regions := t.regions }
  chains : KeepsChains s t
  ctx : ∀ k x, s.ctx k = some x → ∃ cr, t.ctx k = some { x with credits := cr }

theorem Credits.refl (s : State) : Credits s s := ⟨rfl, KeepsChains.refl s, fun _ x h => ⟨x.credits, h⟩⟩

theorem Credits.trans {s t u : State} (h : Credits s t) (k : Credits t u) : Credits s u := by
  refine ⟨?_, h.chains.trans k.chains, fun c x hx => ?_⟩
  · have := k.rest; rw [h.rest] at this; exact this
  · obtain ⟨cr, hy⟩ := h.ctx c x hx
    obtain ⟨cr', hz⟩ := k.ctx c _ hy
    exact ⟨cr', hz⟩

theorem Credits.foldl {α : Type} (f : State → α → State) (hf : ∀ s x, Credits s (f s x)) (l : List α) (s : State) :
    Credits s (l.foldl f s) := by
  induction l generalizing s with
  | nil => exact Credits.refl s
  | cons x l ih => exact (hf s x).trans (ih _)

/-- Credits of one context change. -/
theorem Credits.updCtx (s : State) (c : CtxId) (f : Ctx → List Nat) : Credits s (s.updCtx c fun x => { x with credits := f x }) := by
  refine ⟨rfl, KeepsChains.updRegion s _ fun g => SameChains.updCtx g _ _ fun _ => rfl, fun k x hx => ?_⟩
  by_cases hk : k = c
  · subst hk
    exact ⟨_, State.ctx_updCtx_same hx⟩
  · exact ⟨x.credits, (State.ctx_updCtx_other hk).trans hx⟩

theorem Credits.flits (s : State) (fs : List Flit) : Credits s { s with fab := { s.fab with flits := fs } } :=
  ⟨rfl, KeepsChains.refl s, fun _ x h => ⟨x.credits, h⟩⟩

theorem Credits.payDebt (s : State) (c : CtxId) (o : Nat) : Credits s (s.payDebt c o) := by
  unfold State.payDebt
  split
  · exact Credits.refl s
  · split
    · exact Credits.refl s
    · exact (Credits.flits s _).trans (Credits.updCtx _ c _)

theorem Credits.regain (s : State) (c : CtxId) (o : Nat) : Credits s (s.regain c o) :=
  (Credits.updCtx s c _).trans (Credits.foldl _ (fun s _ => Credits.payDebt s c o) _ _)

theorem Credits.refund (s : State) (f : Flit) : Credits s (s.refund f) := by
  unfold State.refund
  split
  · exact Credits.refl s
  · split
    · exact ⟨rfl, KeepsChains.updRegion s _ fun _ => ⟨rfl, rfl⟩, fun k x hx => ⟨x.credits, (State.ctx_updRegion ..).trans hx⟩⟩
    · exact Credits.regain s _ _

theorem Credits.release (s : State) (own : Nat) (keep : BitVec 8) : Credits s (s.release own keep) :=
  (Credits.flits s _).trans (Credits.foldl _ Credits.refund _ _)

/-- Paying a debt touches the context of its route only. -/
theorem State.payDebt_other (s : State) (c : CtxId) (o : Nat) {k : CtxId} (hk : k ≠ c) : (s.payDebt c o).ctx k = s.ctx k := by
  unfold State.payDebt
  split
  · rfl
  · split
    · rfl
    · exact State.ctx_updCtx_other hk

theorem State.payDebts_other (s : State) (c : CtxId) (o : Nat) {k : CtxId} (hk : k ≠ c) : (s.payDebts c o).ctx k = s.ctx k :=
  foldl_keeps (fun t : State => t.ctx k = s.ctx k) _ (fun t _ h => (t.payDebt_other c o hk).trans h) _ rfl

theorem State.regain_other (s : State) (c : CtxId) (o : Nat) {k : CtxId} (hk : k ≠ c) : (s.regain c o).ctx k = s.ctx k :=
  (State.payDebts_other _ c o hk).trans (State.ctx_updCtx_other hk)

theorem State.refund_other (s : State) (f : Flit) {k : CtxId} (hk : k ≠ f.ctx) : (s.refund f).ctx k = s.ctx k := by
  unfold State.refund
  split
  · rfl
  · split
    · exact State.ctx_updRegion ..
    · exact s.regain_other _ _ hk

theorem State.foldl_refund_other {l : List Flit} {k : CtxId} (hk : ∀ f ∈ l, k ≠ f.ctx) (s : State) :
    (l.foldl State.refund s).ctx k = s.ctx k := by
  induction l generalizing s with
  | nil => rfl
  | cons f l ih =>
    exact (ih (fun x hx => hk x (List.mem_cons_of_mem _ hx)) _).trans (s.refund_other f (hk f List.mem_cons_self))

-- No token that a node has left waits for a credit.

/-- No token waits, at a node that has detached, for a credit (R247). -/
def NoDebt (s : State) : Prop := ∀ f ∈ s.fab.flits, f.owes = false

theorem State.payDebt_of_noDebt {s : State} (h : NoDebt s) (c : CtxId) (o : Nat) : s.payDebt c o = s := by
  have : (s.fab.flits.find? fun f => f.ctx = c ∧ f.o = o ∧ f.owes) = none :=
    List.find?_eq_none.mpr fun f hf => by simp [h f hf]
  simp only [State.payDebt, this]

theorem State.payDebts_of_noDebt {s : State} (h : NoDebt s) (c : CtxId) (o : Nat) : s.payDebts c o = s :=
  foldl_keeps (fun t : State => t = s) _ (fun t _ ht => by rw [ht, State.payDebt_of_noDebt h]) _ rfl

theorem State.regain_of_noDebt {s : State} (h : NoDebt s) (c : CtxId) (o : Nat) : s.regain c o = s.updCtx c fun x => x.refund o :=
  State.payDebts_of_noDebt (s := s.updCtx c fun x => x.refund o) h c o

theorem State.refund_flits {s : State} (h : NoDebt s) (f : Flit) : (s.refund f).fab = s.fab := by
  unfold State.refund
  split
  · rfl
  · split
    · rfl
    · rw [State.regain_of_noDebt h]; rfl

theorem State.foldl_refund_fab (l : List Flit) {s : State} (h : NoDebt s) : (l.foldl State.refund s).fab = s.fab := by
  refine foldl_keeps (fun t : State => t.fab = s.fab) _ (fun t f ht => (State.refund_flits (fun x hx => h x (ht ▸ hx)) f).trans ht) _ rfl

theorem Ctx.credits_refund (x : Ctx) (o q : Nat) (hq : q < 8) :
    (x.refund o).credits.getD q 0 = x.credits.getD q 0 + if q = o then 1 else 0 := by
  simp only [Ctx.refund, getD_setAt _ _ _ _ _ _ hq]
  split
  · next h => rw [h]
  · rfl

/-- A region of which no corner-turn node serves a route. -/
def NoNode (s : State) (r : Nat) : Prop := ∀ g, s.region r = some g → g.nodes = []

theorem State.refund_of_noNode {s : State} (hd : NoDebt s) {f : Flit} (hn : NoNode s f.ctx.region) (ho : f.owes = false) :
    s.refund f = s.updCtx f.ctx fun x => x.refund f.o := by
  have : ((s.region f.ctx.region).bind fun g => g.nodeOf f.ctx.el f.ctx.k f.o) = none := by
    cases hg : s.region f.ctx.region with
    | none => rfl
    | some g => simp [Region.nodeOf, hn g hg]
  simp only [State.refund, ho, this, State.regain_of_noDebt hd]
  simp

theorem NoNode.refund {s : State} {r : Nat} (hd : NoDebt s) (hn : NoNode s r) (f : Flit) : NoNode (s.refund f) r := by
  intro g hg
  unfold State.refund at hg
  split at hg
  · exact hn g hg
  · split at hg
    · rw [State.region_updRegion] at hg
      split at hg
      · obtain ⟨i, hi, rfl⟩ := Option.map_eq_some_iff.mp hg
        simp [hn i hi, Tab.upd]
      · exact hn g hg
    · rw [State.regain_of_noDebt hd, State.region_updCtx] at hg
      split at hg
      · obtain ⟨i, hi, rfl⟩ := Option.map_eq_some_iff.mp hg
        exact hn i hi
      · exact hn g hg

/-- The credits that come back to a context, each to its route. -/
theorem State.foldl_refund_credits {l : List Flit} (hl : ∀ f ∈ l, f.owes = false) {c : CtxId} {s : State} (hd : NoDebt s)
    (hn : NoNode s c.region) {x : Ctx} (hx : s.ctx c = some x) :
    ∃ y, (l.foldl State.refund s).ctx c = some y ∧ ∀ o, o < 8 → y.credits.getD o 0 =
      x.credits.getD o 0 + (l.filter fun f => decide (f.ctx = c ∧ f.o = o)).length := by
  induction l generalizing s x with
  | nil => exact ⟨x, hx, fun o _ => rfl⟩
  | cons f l ih =>
    have hd' : NoDebt (s.refund f) := fun y hy => hd y (State.refund_flits hd f ▸ hy)
    have ih := fun x => ih (x := x) (fun y hy => hl y (List.mem_cons_of_mem _ hy)) hd' (hn.refund hd f)
    by_cases hf : f.ctx = c
    · subst hf
      have h1 : (s.refund f).ctx f.ctx = some (x.refund f.o) := by
        rw [State.refund_of_noNode hd hn (hl f List.mem_cons_self)]
        exact State.ctx_updCtx_same hx
      obtain ⟨y, hy, hc⟩ := ih _ h1
      refine ⟨y, hy, fun o ho => ?_⟩
      rw [hc o ho, Ctx.credits_refund _ _ _ ho, List.filter_cons]
      by_cases h : f.o = o
      · simp [h]; omega
      · simp [h, Ne.symm h]
    · obtain ⟨y, hy, hc⟩ := ih x ((s.refund_other f (Ne.symm hf)).trans hx)
      exact ⟨y, hy, fun o ho => by rw [hc o ho, List.filter_cons]; simp [hf]⟩


-- What a write-back makes of its context.

theorem toNat_shift_getLsbD (m q : BitVec 3) : (1#8 <<< m.toNat).getLsbD q.toNat = decide (some m = some q) := by
  revert m q; decide

theorem not_shift_getLsbD (m q : BitVec 3) : (~~~(1#8 <<< m.toNat)).getLsbD q.toNat = decide (some m ≠ some q) := by
  rw [BitVec.getLsbD_not, toNat_shift_getLsbD]
  have : q.toNat < 8 := q.isLt
  simp [this]

theorem Ctx.reg_setReg (c : Ctx) (n q : BitVec 3) (w : Word) : (c.setReg n w).reg q = if q = n then w else c.reg q := by
  have h : q.toNat < 8 := q.isLt
  simp only [Ctx.reg, Ctx.setReg, getD_setAt _ _ _ _ _ _ h, BitVec.toNat_inj]

/-- A firing's destinations are in flight (R34, R36); nothing else of the context changes. -/
theorem Ctx.claim_eq (c : Ctx) (dst pdst : Option (BitVec 3)) :
    c.claim dst pdst = { c with busy := (c.claim dst pdst).busy, preds := (c.claim dst pdst).preds } := by
  cases dst <;> cases pdst <;> rfl

theorem Ctx.claim_busy (c : Ctx) (dst pdst : Option (BitVec 3)) (q : BitVec 3) :
    (c.claim dst pdst).busy.getLsbD q.toNat = (c.busy.getLsbD q.toNat || decide (dst = some q)) := by
  have hb : (c.claim dst pdst).busy = (c.claim dst none).busy := by cases pdst <;> rfl
  rw [hb]
  cases dst with
  | none => simp [Ctx.claim]
  | some m =>
    change (c.busy ||| 1#8 <<< m.toNat).getLsbD q.toNat = _
    rw [BitVec.getLsbD_or, toNat_shift_getLsbD]

theorem Ctx.claim_pred (c : Ctx) (dst pdst : Option (BitVec 3)) (q : BitVec 3) :
    (c.claim dst pdst).pred q = if pdst = some q then Pred.pending else c.pred q := by
  cases pdst with
  | none => cases dst <;> rfl
  | some m =>
    have h : (c.claim dst (some m)).pred q = if q = m then Pred.pending else c.pred q := by
      cases dst <;> exact Ctx.pred_setPred _ _ _ _
    simp only [h, Option.some.injEq, eq_comm]

theorem Ctx.write_eq (c : Ctx) (dst pdst : Option (BitVec 3)) (d : Done) : c.write dst pdst d =
    { c with regs := (c.write dst pdst d).regs, preds := (c.write dst pdst d).preds, busy := (c.write dst pdst d).busy } := by
  unfold Ctx.write
  cases dst <;> cases pdst <;> cases d.good <;> rfl

theorem Ctx.write_reg (c : Ctx) (dst pdst : Option (BitVec 3)) (d : Done) (q : BitVec 3) :
    (c.write dst pdst d).reg q = if d.good = true ∧ dst = some q then d.res else c.reg q := by
  have hp : (c.write dst pdst d).reg q = (c.write dst none d).reg q := by cases pdst <;> rfl
  rw [hp]
  cases dst with
  | none => simp [Ctx.write]
  | some m =>
    simp only [Ctx.write]
    cases d.good with
    | false => simp [Ctx.reg]
    | true =>
      have h := Ctx.reg_setReg c m q d.res
      simp only [true_and, Option.some.injEq, @eq_comm _ m q]
      exact h

theorem Ctx.write_pred (c : Ctx) (dst pdst : Option (BitVec 3)) (d : Done) (q : BitVec 3) :
    (c.write dst pdst d).pred q = if pdst = some q then (if d.good && d.pres then Pred.t else Pred.f) else c.pred q := by
  cases pdst with
  | none => cases dst <;> cases hg : d.good <;> simp [Ctx.write, Ctx.pred, Ctx.setReg, hg]
  | some m =>
    have h : (c.write dst (some m) d).pred q = if q = m then Pred.ofBool (d.good && d.pres) else c.pred q := by
      have h0 : (c.write dst none d).pred q = c.pred q := by
        cases dst <;> cases hg : d.good <;> simp [Ctx.write, Ctx.pred, Ctx.setReg, hg]
      rw [← h0]
      exact Ctx.pred_setPred (c.write dst none d) m q _
    simp only [h, Option.some.injEq, @eq_comm _ m q]
    rfl

theorem Ctx.write_busy (c : Ctx) (dst pdst : Option (BitVec 3)) (d : Done) (q : BitVec 3) :
    (c.write dst pdst d).busy.getLsbD q.toNat = (c.busy.getLsbD q.toNat && decide (dst ≠ some q)) := by
  have hp : (c.write dst pdst d).busy = (c.write dst none d).busy := by cases pdst <;> rfl
  rw [hp]
  cases dst with
  | none => simp [Ctx.write]
  | some m =>
    have h : (c.write (some m) none d).busy = c.busy &&& ~~~(1#8 <<< m.toNat) := by
      cases hg : d.good <;> simp [Ctx.write, hg]
    rw [h, BitVec.getLsbD_and, not_shift_getLsbD]

theorem Ctx.write_place (c : Ctx) (dst pdst : Option (BitVec 3)) (d : Done) : (c.write dst pdst d).place = c.place := by
  rw [Ctx.write_eq]; rfl

-- The tokens of a firing leave.

/-- The token that a reserved place becomes as its firing ends in context `x` of region `g` (R24, R35). -/
def Flit.leave (g : Region) (x : Ctx) (own : Nat) (d : Done) (t : Nat) (f : Flit) : Flit :=
  if f.own = own ∧ d.om.getLsbD f.o = true then
    { f with filled := true, payload := d.res, tag := mkTag d.colour d.control (routeKx (x.routes.getD f.o 0#32)),
             arrive := t + g.hopOf x f.o (f.node.map fun e => e.2) + f.past.getD 0 }
  else f

/-- The place of firing `own` is given back where the firing keeps the routes `keep` (R47). -/
def Flit.freed (own : Nat) (keep : BitVec 8) (f : Flit) : Bool := decide (f.own = own) && !f.filled && !keep.getLsbD f.o

theorem Flit.leave_freed (g : Region) (x : Ctx) (own : Nat) (d : Done) (t : Nat) (f : Flit) :
    (f.leave g x own d t).freed own d.om = f.freed own d.om := by
  unfold Flit.leave
  split
  · next h => simp [Flit.freed, h]
  · rfl

theorem Flit.leave_of_freed {g : Region} {x : Ctx} {own : Nat} {d : Done} {t : Nat} {f : Flit} (h : f.freed own d.om = true) :
    f.leave g x own d t = f := by
  unfold Flit.leave
  split
  · next h' => simp [Flit.freed, h'] at h
  · rfl

theorem State.emit_rest (s : State) (c : CtxId) (own : Nat) (d : Done) (t : Nat) :
    s.emit c own d t = { s with fab := { s.fab with flits := (s.emit c own d t).fab.flits } } := by
  unfold State.emit
  split
  · rfl
  · split <;> rfl

theorem State.emit_flits {s : State} {c : CtxId} {g : Region} {x : Ctx} (hg : s.region c.region = some g) (hx : g.ctx c.el c.k = some x)
    (own : Nat) (d : Done) (t : Nat) : (s.emit c own d t).fab.flits = s.fab.flits.map (Flit.leave g x own d t) := by
  simp only [State.emit, hg, hx, mapIf, decide_eq_true_eq]
  rfl

theorem State.emit_ctx (s : State) (c : CtxId) (own : Nat) (d : Done) (t : Nat) (k : CtxId) : (s.emit c own d t).ctx k = s.ctx k := by
  rw [State.emit_rest]; rfl

theorem State.emit_region (s : State) (c : CtxId) (own : Nat) (d : Done) (t r : Nat) : (s.emit c own d t).region r = s.region r := by
  rw [State.emit_rest]; rfl

theorem filter_map_of_fixed {α : Type} {p : α → Bool} {f : α → α} (hp : ∀ x, p (f x) = p x) (hf : ∀ x, p x = true → f x = x)
    (l : List α) : (l.map f).filter p = l.filter p := by
  rw [List.filter_map, funext hp (f := p ∘ f)]
  exact (List.map_congr_left fun x hx => hf x (List.of_mem_filter hx)).trans (List.map_id _)

theorem State.emit_freed (s : State) (c : CtxId) (own : Nat) (d : Done) (t : Nat) :
    (s.emit c own d t).fab.flits.filter (Flit.freed own d.om) = s.fab.flits.filter (Flit.freed own d.om) := by
  cases hg : s.region c.region with
  | none => simp [State.emit, hg]
  | some g =>
    cases hx : g.ctx c.el c.k with
    | none => simp [State.emit, hg, hx]
    | some x =>
      rw [State.emit_flits hg hx]
      exact filter_map_of_fixed (Flit.leave_freed g x own d t) (fun _ => Flit.leave_of_freed) _

theorem NoDebt.emit {s : State} (h : NoDebt s) (c : CtxId) (own : Nat) (d : Done) (t : Nat) : NoDebt (s.emit c own d t) := by
  unfold State.emit
  split
  · exact h
  · split
    · exact h
    · intro f hf
      simp only [mapIf, List.mem_map] at hf
      obtain ⟨e, he, rfl⟩ := hf
      split
      · exact h e he
      · exact h e he

/-- Releasing: the places that stay, and those given back. -/
theorem State.release_eq (s : State) (own : Nat) (keep : BitVec 8) :
    s.release own keep = (s.fab.flits.filter (Flit.freed own keep)).foldl State.refund
      { s with fab := { s.fab with flits := s.fab.flits.filter fun f => !f.freed own keep } } := by
  have h : ∀ f : Flit, decide (f.own = own ∧ (!f.filled) = true ∧ (!keep.getLsbD f.o) = true) = f.freed own keep := fun f => by
    simp [Flit.freed, Bool.decide_and, Bool.and_assoc]
  unfold State.release
  simp only [h]

-- A result reaches its context.

/-- The state as a write-back has put its result down and its tokens have left, before places are given back. -/
def State.written (s : State) (own : Nat) (c : CtxId) (dst pdst : Option (BitVec 3)) (d : Done) (t : Nat) : State :=
  if d.good then (s.updCtx c fun x => x.write dst pdst d).emit c own d t else s.updCtx c fun x => x.write dst pdst d

theorem State.writeBack_eq (s : State) (own : Nat) (c : CtxId) (dst pdst : Option (BitVec 3)) (d : Done) (t : Nat) :
    s.writeBack own c dst pdst d t = (s.written own c dst pdst d t).release own (if d.good then d.om else 0#8) := rfl

section
variable (s : State) (own : Nat) (c : CtxId) (dst pdst : Option (BitVec 3)) (d : Done) (t : Nat)

theorem State.written_rest : s.written own c dst pdst d t =
    { s with fab := { s.fab with flits := (s.written own c dst pdst d t).fab.flits }, regions := (s.written own c dst pdst d t).regions } := by
  unfold State.written
  split
  · rw [State.emit_rest]; rfl
  · rfl

theorem State.written_ctx (k : CtxId) : (s.written own c dst pdst d t).ctx k = (s.updCtx c fun x => x.write dst pdst d).ctx k := by
  unfold State.written
  split
  · exact State.emit_ctx ..
  · rfl

theorem State.written_region (r : Nat) : (s.written own c dst pdst d t).region r = (s.updCtx c fun x => x.write dst pdst d).region r := by
  unfold State.written
  split
  · exact State.emit_region ..
  · rfl

theorem State.written_freed : (s.written own c dst pdst d t).fab.flits.filter (Flit.freed own (if d.good then d.om else 0#8)) =
    s.fab.flits.filter (Flit.freed own (if d.good then d.om else 0#8)) := by
  unfold State.written
  split
  · exact State.emit_freed ..
  · rfl

variable {s}

theorem NoDebt.written (h : NoDebt s) : NoDebt (s.written own c dst pdst d t) := by
  unfold State.written
  split
  · exact NoDebt.emit (s := s.updCtx c _) h c own d t
  · exact h

theorem KeepsChains.writeBack : KeepsChains s (s.writeBack own c dst pdst d t) := by
  have h : KeepsChains s (s.written own c dst pdst d t) := by
    have h := KeepsChains.updRegion s c.region fun g => SameChains.updCtx g c.el c.k fun x => Ctx.write_place x dst pdst d
    intro r g hg
    rw [State.written_region]
    exact h r g hg
  exact h.trans (Credits.release _ own _).chains

/-- The places that the write-back gives back. -/
def State.freedBy (s : State) (own : Nat) (d : Done) : List Flit := s.fab.flits.filter (Flit.freed own (if d.good then d.om else 0#8))

variable (s) in
/-- The state as those places are gone, and their credits are still to come back. -/
def State.vacated : State :=
  let w := s.written own c dst pdst d t
  { w with fab := { w.fab with flits := w.fab.flits.filter fun f => !f.freed own (if d.good then d.om else 0#8) } }

variable (s) in
theorem State.writeBack_foldl : s.writeBack own c dst pdst d t = (s.freedBy own d).foldl State.refund (s.vacated own c dst pdst d t) := by
  rw [State.writeBack_eq, State.release_eq, State.written_freed]; rfl

theorem NoDebt.vacated (h : NoDebt s) : NoDebt (s.vacated own c dst pdst d t) :=
  fun f hf => NoDebt.written own c dst pdst d t h f (List.mem_of_mem_filter hf)

variable (s) in
theorem State.vacated_ctx (k : CtxId) : (s.vacated own c dst pdst d t).ctx k = (s.updCtx c fun x => x.write dst pdst d).ctx k :=
  State.written_ctx s own c dst pdst d t k

theorem State.vacated_ctx_same {x : Ctx} (hx : s.ctx c = some x) :
    (s.vacated own c dst pdst d t).ctx c = some (x.write dst pdst d) := by
  rw [State.vacated_ctx]
  exact State.ctx_updCtx_same hx fun x => by rw [Ctx.write_eq]; exact ⟨rfl, rfl⟩

theorem State.vacated_ctx_other {k : CtxId} (hk : k ≠ c) : (s.vacated own c dst pdst d t).ctx k = s.ctx k := by
  rw [State.vacated_ctx]
  exact State.ctx_updCtx_other hk fun x => by rw [Ctx.write_eq]; exact ⟨rfl, rfl⟩

theorem NoNode.vacated {r : Nat} (h : NoNode s r) : NoNode (s.vacated own c dst pdst d t) r := by
  intro g hg
  replace hg : (s.updCtx c fun x => x.write dst pdst d).region r = some g := (State.written_region s own c dst pdst d t r).symm.trans hg
  rw [State.region_updCtx] at hg
  split at hg
  · obtain ⟨i, hi, rfl⟩ := Option.map_eq_some_iff.mp hg
    exact h i hi
  · exact h g hg

theorem State.writeBack_others (ho : ∀ f ∈ s.fab.flits, f.own = own → f.ctx = c) {k : CtxId} (hk : k ≠ c) :
    (s.writeBack own c dst pdst d t).ctx k = s.ctx k := by
  rw [State.writeBack_foldl]
  refine (State.foldl_refund_other (fun f hf => ?_) _).trans (State.vacated_ctx_other own c dst pdst d t hk)
  obtain ⟨hm, hp⟩ := List.mem_filter.mp hf
  have : f.own = own := by
    simp only [Flit.freed, Bool.and_eq_true, decide_eq_true_eq] at hp
    exact hp.1.1
  exact ho f hm this ▸ hk

theorem Flit.leave_write (g : Region) (x : Ctx) (el k : Nat) (fn : Ctx → Ctx) :
    Flit.leave (g.updCtx el k fn) (x.write dst pdst d) own d t = Flit.leave g x own d t := by
  rw [Ctx.write_eq]; rfl

theorem State.writeBack_flits {g : Region} {x : Ctx} (hg : s.region c.region = some g) (hx : g.ctx c.el c.k = some x) (hd : NoDebt s) :
    (s.writeBack own c dst pdst d t).fab.flits =
      (if d.good then s.fab.flits.map (Flit.leave g x own d t) else s.fab.flits).filter
        fun f => !f.freed own (if d.good then d.om else 0#8) := by
  rw [State.writeBack_foldl, State.foldl_refund_fab _ (NoDebt.vacated own c dst pdst d t hd)]
  change (s.written own c dst pdst d t).fab.flits.filter _ = _
  congr 1
  unfold State.written
  split
  · have hg' : (s.updCtx c fun x => x.write dst pdst d).region c.region = some (g.updCtx c.el c.k fun x => x.write dst pdst d) := by
      rw [State.region_updCtx, if_pos rfl, hg]; rfl
    have hx' : (g.updCtx c.el c.k fun x => x.write dst pdst d).ctx c.el c.k = some (x.write dst pdst d) := by
      rw [Region.ctx_updCtx _ _ _ _ _ _ fun x => by rw [Ctx.write_eq]; exact ⟨rfl, rfl⟩, if_pos ⟨rfl, rfl⟩, hx]; rfl
    rw [State.emit_flits hg' hx', Flit.leave_write]
    rfl
  · rfl

theorem State.writeBack_credits {g : Region} {x : Ctx} (hg : s.region c.region = some g) (hx : g.ctx c.el c.k = some x) (hn : g.nodes = [])
    (hd : NoDebt s) : ∃ y, (s.writeBack own c dst pdst d t).ctx c = some y ∧ ∀ o, o < 8 → y.credits.getD o 0 =
      x.credits.getD o 0 + ((s.freedBy own d).filter fun f => decide (f.ctx = c ∧ f.o = o)).length := by
  have hc : s.ctx c = some x := by rw [State.ctx, hg]; exact hx
  have hN : NoNode s c.region := fun i hi => by rw [hg] at hi; cases hi; exact hn
  obtain ⟨y, hy, h⟩ := State.foldl_refund_credits (l := s.freedBy own d) (fun f hf => hd f (List.mem_of_mem_filter hf))
    (NoDebt.vacated own c dst pdst d t hd) (NoNode.vacated own c dst pdst d t hN) (State.vacated_ctx_same own c dst pdst d t hc)
  rw [Ctx.write_eq] at h
  rw [State.writeBack_foldl]
  exact ⟨y, hy, h⟩

theorem State.writeBack_ctx {x : Ctx} (hx : s.ctx c = some x) :
    ∃ cr, (s.writeBack own c dst pdst d t).ctx c = some { x.write dst pdst d with credits := cr } := by
  rw [State.writeBack_foldl]
  exact (Credits.foldl _ Credits.refund _ _).ctx c _ (State.vacated_ctx_same own c dst pdst d t hx)

variable (s) in
theorem State.writeBack_rest : s.writeBack own c dst pdst d t = { s with
    fab := { s.fab with flits := (s.writeBack own c dst pdst d t).fab.flits }, regions := (s.writeBack own c dst pdst d t).regions } := by
  have h := (Credits.release (s.written own c dst pdst d t) own (if d.good then d.om else 0#8)).rest
  rw [← State.writeBack_eq] at h
  rw [State.written_rest] at h
  exact h

theorem Flit.freed_masked (own : Nat) (d : Done) (f : Flit) : f.freed own (if d.good then d.om else 0#8) =
    (decide (f.own = own) && !f.filled && !(d.good && d.om.getLsbD f.o)) := by
  cases h : d.good <;> simp [Flit.freed]

variable (s) in
/-- A write-back, as the obligations say it. -/
theorem State.writeBack_spec : Claims.WritesBack s (s.writeBack own c dst pdst d t) own c dst pdst d t where
  rest := State.writeBack_rest s own c dst pdst d t
  context g x hg hx := by
    have hc : s.ctx c = some x := by rw [State.ctx, hg]; exact hx
    obtain ⟨cr, hy⟩ := State.writeBack_ctx own c dst pdst d t hc
    refine ⟨_, hy, Ctx.write_reg x dst pdst d, Ctx.write_pred x dst pdst d, Ctx.write_busy x dst pdst d, ?_, fun hn hd o ho => ?_⟩
    · rw [Ctx.write_eq]
    · obtain ⟨y, hy', h⟩ := State.writeBack_credits own c dst pdst d t hg hx hn hd
      cases hy.symm.trans hy'
      rw [h o ho, State.freedBy, List.filter_filter]
      congr 3
      funext f
      rw [Flit.freed_masked]
      by_cases h1 : f.own = own <;> by_cases h2 : f.ctx = c <;> by_cases h3 : f.o = o <;> simp [h1, h2, h3]
  tokens g x hg hx hd := by
    rw [State.writeBack_flits own c dst pdst d t hg hx hd, funext (Flit.freed_masked own d)]
    rfl
  others ho _ hk := State.writeBack_others own c dst pdst d t ho hk
end

-- A chain freezes.

/-- The chain freezes until the record given is posted. -/
theorem State.freezeBy_eq {s : State} {c : CtxId} {g : Region} (hg : s.region c.region = some g) (how : Nat → Freeze) (r : Rec) :
    ∃ fl, s.freezeBy how c r = ((g.membersOf c).foldl (fun u p => u.updElem p fun e => e.frozenBy (how s.uid) c.region) s).giveRec c
      (coreOf c.region) (s.fringOf g.gang) (g.membersOf c) { r with flags := fl } := by
  have hu : ∀ l : List Nat, ∀ u : State, u.uid = s.uid → u.dies = s.dies →
      (l.foldl (fun u p => u.updElem p fun e => e.frozenBy (how u.uid) c.region) u) =
        (l.foldl (fun u p => u.updElem p fun e => e.frozenBy (how s.uid) c.region) u) ∧
      (l.foldl (fun u p => u.updElem p fun e => e.frozenBy (how s.uid) c.region) u).dies = s.dies := by
    intro l
    induction l with
    | nil => exact fun u _ hd => ⟨rfl, hd⟩
    | cons p l ih =>
      intro u hid hd
      rw [List.foldl_cons, List.foldl_cons, hid]
      exact ih _ hid hd
  obtain ⟨h1, h2⟩ := hu (g.membersOf c) s rfl rfl
  refine ⟨if 1 < (g.membersOf c).length then r.flags + 4 else r.flags, ?_⟩
  simp only [State.freezeBy, hg, h1, State.fringOf, State.gang, h2]
  split <;> rfl

theorem State.foldl_frozenBy (l : List Nat) (f : Freeze) (r : Nat) (s : State) :
    (l.foldl (fun u p => u.updElem p fun e => e.frozenBy f r) s) =
      { s with fab := { s.fab with elems := (l.foldl (fun u p => u.updElem p fun e => e.frozenBy f r) s).fab.elems } } ∧
    ∀ p, p ∈ l ∨ (s.elem p).freeze = f → ((l.foldl (fun u p => u.updElem p fun e => e.frozenBy f r) s).elem p).freeze = f := by
  induction l generalizing s with
  | nil => exact ⟨rfl, fun p h => h.resolve_left List.not_mem_nil⟩
  | cons q l ih =>
    obtain ⟨hrest, hel⟩ := ih (s.updElem q fun e => e.frozenBy f r)
    refine ⟨hrest, fun p h => hel p ?_⟩
    by_cases hp : p = q
    · subst hp
      exact .inr (by rw [State.elem_updElem_same]; rfl)
    · rw [State.elem_updElem_other s hp]
      exact h.imp_left fun h => (List.mem_cons.mp h).resolve_left hp

/-- The chain of context `c` of region `g` has frozen, as `f` says, for the record `q` of what `r` tells (R44). -/
structure Freezes (s t : State) (f : Freeze) (c : CtxId) (g : Region) (r : Rec) (q : PRec) : Prop where
  rest : t = { s with fab := { s.fab with elems := t.fab.elems, recs := s.fab.recs ++ [q] }, uid := s.uid + 1 }
  id : q.id = s.uid
  ctx : q.ctx = c
  rcd : ∃ fl, q.rcd = { r with flags := fl }
  frozen : ∀ el ∈ g.chainOf c.el c.k, (t.elem (g.phys el)).freeze = f

theorem State.freezeBy_spec {s : State} {c : CtxId} {g : Region} (hg : s.region c.region = some g) (how : Nat → Freeze) (r : Rec) :
    ∃ q, Freezes s (s.freezeBy how c r) (how s.uid) c g r q := by
  obtain ⟨fl, h⟩ := State.freezeBy_eq hg how r
  obtain ⟨hrest, hel⟩ := State.foldl_frozenBy (g.membersOf c) (how s.uid) c.region s
  rw [h]
  exact ⟨{ id := s.uid, ctx := c, core := coreOf c.region, ring := s.fringOf g.gang, frozen := g.membersOf c, rcd := { r with flags := fl } },
    by rw [hrest]; rfl, rfl, rfl, ⟨fl, rfl⟩, fun el hm => hel _ (.inl (List.mem_map_of_mem hm))⟩

/-- The same, where the region has changed since but keeps its chains. -/
theorem Freezes.of_sameChains {s t : State} {f : Freeze} {c : CtxId} {g h : Region} {r : Rec} {q : PRec} (hf : Freezes s t f c h r q)
    (hs : SameChains g h) : Freezes s t f c g r q where
  rest := hf.rest
  id := hf.id
  ctx := hf.ctx
  rcd := hf.rcd
  frozen el hm := by
    have := hf.frozen el (by rw [hs.chainOf]; exact hm)
    rwa [hs.phys] at this

end Sys2Proof.Machine
end

section
/-!
PROOFS. The events that write back, reply, bring tokens, give credits back and mask a follower (R23, R24, R35, R40, R47, R193, R205, R442).
-/
namespace Sys2Proof.Machine

-- WRITE_BACK.

theorem Tab.look_drop_same {α : Type} (t : Tab α) (k : Nat) : (t.drop k).look k = none := by
  induction t with
  | nil => rfl
  | cons e t ih =>
    by_cases h : e.1 = k
    · simpa [Tab.drop, h] using ih
    · simpa [Tab.drop, h, Tab.look] using ih

theorem mapIf_eq {α : Type} (p : α → Prop) [DecidablePred p] (f : α → α) (l : List α) :
    mapIf (fun x => decide (p x)) f l = l.map fun x => if p x then f x else x := by
  simp only [mapIf, decide_eq_true_eq]

theorem KeepsChains.deliver (s : State) (w : WB) (d : Done) : KeepsChains s (s.deliver w d) := by
  have h : KeepsChains s ((s.dropWb w.id).writeBack w.id w.ctx w.dst w.pdst d (s.regionClk w.ctx.region + 1)) :=
    KeepsChains.writeBack (s := s.dropWb w.id) w.id w.ctx w.dst w.pdst d _
  unfold State.deliver
  split
  · exact h.trans (KeepsChains.updRegion _ _ fun g => SameChains.updCtx g _ _ fun _ => rfl)
  · exact h

theorem State.deliver_rest (s : State) (w : WB) (d : Done) : s.deliver w d = { s with
    fab := { s.fab with wbs := s.fab.wbs.filter fun x => x.id != w.id, flits := (s.deliver w d).fab.flits },
    regions := (s.deliver w d).regions } := by
  have h := State.writeBack_rest (s.dropWb w.id) w.id w.ctx w.dst w.pdst d (s.regionClk w.ctx.region + 1)
  unfold State.deliver
  split
  · generalize (s.dropWb w.id).writeBack w.id w.ctx w.dst w.pdst d (s.regionClk w.ctx.region + 1) = u at h ⊢
    rw [h]; rfl
  · exact h

theorem State.deliver_ctx {s : State} (w : WB) (d : Done) {x : Ctx} (hx : s.ctx w.ctx = some x) :
    ∃ cr rc, (s.deliver w d).ctx w.ctx = some { x.write w.dst w.pdst d with credits := cr, rcnt := rc } := by
  obtain ⟨cr, h⟩ := State.writeBack_ctx w.id w.ctx w.dst w.pdst d (s.regionClk w.ctx.region + 1) (s := s.dropWb w.id) hx
  unfold State.deliver
  split
  · exact ⟨cr, _, State.ctx_updCtx_same h⟩
  · exact ⟨cr, _, h⟩

/-- A firing that the residue check does not hold up is delivered. -/
theorem State.finish_eq_deliver {s : State} {w : WB}
    (h : (w.redo = none ∧ s.fab.glitch.look (s.physOf w.ctx) = none) ∨ w.redo = some false) : s.finish w = s.deliver w w.done := by
  unfold State.finish
  rcases h with ⟨h1, h2⟩ | h
  · simp only [h1, h2]
  · simp only [h]

theorem State.finish_again {s : State} {w : WB} {n : Nat} (h1 : w.redo = none) (h2 : s.fab.glitch.look (s.physOf w.ctx) = some n) :
    let t := s.finish w
    t.store = s.store ∧ t.fab.glitch.look (s.physOf w.ctx) = none ∧
    (t.fab.wbs = s.fab.wbs.map fun x => if x.id = w.id then { x with due := x.due + 2, redo := some (decide (n ≠ 1)) } else x) ∧
    ∀ x, s.ctx w.ctx = some x → t.ctx w.ctx = some (x.claim w.dst w.pdst) := by
  have hn : (n != 1) = decide (n ≠ 1) := by by_cases h : n = 1 <;> simp [h]
  simp only [State.finish, h1, h2, hn]
  refine ⟨rfl, Tab.look_drop_same _ _, mapIf_eq .., fun x hx => ?_⟩
  refine State.ctx_updCtx_same (x := x) hx fun x => ?_
  rw [Ctx.claim_eq]; exact ⟨rfl, rfl⟩

theorem State.finish_bad {s : State} {w : WB} {g : Region} {x : Ctx} (hr : w.redo = some true) (hg : s.region w.ctx.region = some g)
    (hx : g.ctx w.ctx.el w.ctx.k = some x) (hd : x.isRounded = false) :
    ∃ (q : PRec), (s.finish w).fab.recs = s.fab.recs ++ [q] ∧ q.rcd.cls = 0x0B ∧ q.rcd.info = [0#8, 8#8] ∧
      (∀ el ∈ g.chainOf w.ctx.el w.ctx.k, ((s.finish w).elem (g.phys el)).freeze = .faulted q.id) ∧
      ∃ y, (s.finish w).ctx w.ctx = some y ∧ (∀ n, y.reg n = x.reg n) ∧ ∀ n, w.pdst = some n → y.pred n = Pred.f := by
  have hc : s.ctx w.ctx = some x := by rw [State.ctx, hg]; exact hx
  generalize hs : s.takeGlitch (s.physOf w.ctx) (coreOf w.ctx.region) = s1
  have hc1 : s1.ctx w.ctx = some x := by rw [← hs]; exact hc
  have hg1 : s1.region w.ctx.region = some g := by rw [← hs]; exact hg
  have hrec : s1.fab.recs = s.fab.recs := by rw [← hs]; rfl
  obtain ⟨rcd, hcls, hinfo, hfin⟩ : ∃ rcd : Rec, rcd.cls = 0x0B ∧ rcd.info = [0#8, 8#8] ∧
      s.finish w = (s1.deliver w { w.done with good := false }).freezeFault w.ctx rcd := by
    let f : Firing := { ctx := w.ctx, slot := w.slot }
    refine ⟨s1.mkRec (s1.origin f false) 0x0B (badInfo 0 8), rfl, rfl, ?_⟩
    simp only [State.finish, hr, hs, hc1, Option.map_some, Option.getD_some, hd, State.raise, Bool.false_eq_true, if_false]
    rfl
  have hdel := State.deliver_rest s1 w { w.done with good := false }
  obtain ⟨h, hh, hsame⟩ := KeepsChains.deliver s1 w { w.done with good := false } _ _ hg1
  obtain ⟨cr, rc, hy⟩ := State.deliver_ctx w { w.done with good := false } hc1
  generalize s1.deliver w { w.done with good := false } = u at hdel hh hy hfin
  obtain ⟨q, hq⟩ := State.freezeBy_spec (s := u.spend w.ctx) hh .faulted rcd
  have hq := hq.of_sameChains hsame
  obtain ⟨fl, hqr⟩ := hq.rcd
  rw [hfin, State.freezeFault]
  have hctx := (congrArg (State.ctx · w.ctx) hq.rest).trans hy
  refine ⟨q, ?_, by rw [hqr]; exact hcls, by rw [hqr]; exact hinfo, fun el hm => ?_, _, hctx, fun n => ?_, fun n hn => ?_⟩
  · rw [hq.rest, ← hrec]
    change u.fab.recs ++ [q] = _
    rw [hdel]
  · rw [hq.id]; exact hq.frozen el hm
  · exact (Ctx.write_reg x w.dst w.pdst { w.done with good := false } n).trans (by simp)
  · exact (Ctx.write_pred x w.dst w.pdst { w.done with good := false } n).trans (by simp [hn])

-- REQUEST_REPLY.

theorem sat32_eq_min (n : Nat) : sat32 n = min n 0xFFFFFFFF := by
  unfold sat32; split <;> omega

theorem State.current_iff {s : State} {o : Origin} :
    s.current o = true ↔ ∃ g : Region, s.region o.ctx.region = some g ∧ g.dead = false ∧ g.lease = o.lease := by
  unfold State.current
  cases s.region o.ctx.region with
  | none => simp
  | some g => simp

section
variable {s : State} {id : Nat} {q : Req} (hq : s.req id = some q)
include hq

theorem execRequestReply_placed (hp : s.current q.org = true) : execRequestReply id s = .next (match q.stage with
    | .reply d => (s.dropReq id).writeBack id q.org.ctx q.dst q.pdst d (s.regionClk q.org.ctx.region)
    | .bad r d => s.badReply q r d
    | .ack => s.dropReq id
    | .fence acq => if acq && s.readsBefore q.org.ctx id then s else s.dropReq id
    | .held a => s.actReq id a
    | .fill a => if s.waits (q.waiter a) then s else s.redoReq (q.waiter a) id
    | _ => s) := by
  simp only [execRequestReply, hq, hp, if_true] <;> rfl

theorem execRequestReply_gone (hp : ¬s.current q.org = true) {d : Done} (hd : q.stage = .reply d) : execRequestReply id s =
    .next ((s.dropReq id).updRreg q.org.ctx.region fun x => { x with drops := min (x.drops + 1) 0xFFFFFFFF }) := by
  simp only [execRequestReply, hq, hp, hd, sat32_eq_min]
  rfl

/-- Bad data of a direct firing: what can be written is written, and the chain freezes (R47). -/
theorem badReply_spec (hp : s.current q.org = true) (hr : q.org.rounded = false) (r : Rec) (d : Done) :
    ∃ u, Claims.WritesBack (s.dropReq id) u id q.org.ctx q.dst q.pdst d (s.regionClk q.org.ctx.region) ∧
      ∃ g p, u.region q.org.ctx.region = some g ∧ (s.badReply q r d).fab.recs = s.fab.recs ++ [p] ∧ p.rcd.cls = r.cls ∧
        p.rcd.info = r.info ∧
        ∀ el ∈ g.chainOf q.org.ctx.el q.org.ctx.k, ((s.badReply q r d).elem (g.phys el)).freeze = .waiting p.id := by
  have hid : q.id = id := by simpa using List.find?_some hq
  obtain ⟨g, hg, -⟩ := State.current_iff.mp hp
  have hw := State.writeBack_spec (s.dropReq id) id q.org.ctx q.dst q.pdst d (s.regionClk q.org.ctx.region)
  obtain ⟨h, hh, -⟩ := KeepsChains.writeBack (s := s.dropReq id) id q.org.ctx q.dst q.pdst d (s.regionClk q.org.ctx.region) _ g hg
  have hb : s.badReply q r d =
      ((s.dropReq id).writeBack id q.org.ctx q.dst q.pdst d (s.regionClk q.org.ctx.region)).freezeFor q.org.ctx r := by
    simp only [State.badReply, hr, hid, Bool.false_eq_true, if_false]; rfl
  generalize (s.dropReq id).writeBack id q.org.ctx q.dst q.pdst d (s.regionClk q.org.ctx.region) = u at hw hh hb
  obtain ⟨p, hf⟩ := State.freezeBy_spec hh .waiting r
  obtain ⟨fl, hfl⟩ := hf.rcd
  rw [hb]
  refine ⟨u, hw, h, p, hh, ?_, by rw [hfl], by rw [hfl], fun el hm => ?_⟩
  · have hrec : u.fab.recs = s.fab.recs := by rw [hw.rest]; rfl
    rw [State.freezeFor, hf.rest, ← hrec]
  · rw [hf.id]; exact hf.frozen el hm

end

-- TOKEN_ARRIVE.

theorem find?_of_first {α : Type} {p q : α → Bool} {l : List α} {x : α} (hx : l.find? p = some x) (hq : q x = true)
    (hb : ∀ y ∈ l.takeWhile (fun y => !p y), q y = false) : l.find? q = some x := by
  induction l with
  | nil => cases hx
  | cons y l ih =>
    by_cases hp : p y = true
    · rw [List.find?_cons_of_pos hp] at hx
      cases hx
      exact List.find?_cons_of_pos hq
    · have hp' : (!p y) = true := by simp [hp]
      rw [List.takeWhile_cons_of_pos (p := fun y => !p y) hp'] at hb
      rw [List.find?_cons_of_neg hp] at hx
      rw [List.find?_cons_of_neg (by simp [hb y List.mem_cons_self])]
      exact ih hx fun z hz => hb z (List.mem_cons_of_mem _ hz)

theorem execTokenArrive_due {s : State} {id : Nat} {f : Flit} (hf : s.fab.flits.find? (fun x => x.id = id) = some f) (hfill : f.filled = true)
    (hnow : f.owes = false) (ht : f.arrive ≤ s.regionClk f.ctx.region)
    (hb : ∀ x ∈ s.fab.flits.takeWhile (fun x => x.id != id), ¬(x.ctx = f.ctx ∧ x.o = f.o ∧ x.toNode = f.toNode)) :
    execTokenArrive id s = .next (s.land f) := by
  have hid : f.id = id := by simpa using List.find?_some hf
  have h1 : s.fab.flits.find? (fun x => x.ctx = f.ctx && x.o = f.o && x.toNode = f.toNode) = some f := by
    refine find?_of_first hf (by simp) fun y hy => ?_
    have hy : y ∈ s.fab.flits.takeWhile (fun x => x.id != id) := by
      convert hy using 2
      exact funext fun z => by by_cases h : z.id = id <;> simp [h]
    simpa [and_assoc] using hb y hy
  simp only [execTokenArrive, hf, h1, hfill, hnow, ht, hid, Option.map_some, Bool.not_false, Bool.true_and, decide_true, beq_self_eq_true, if_true]

theorem routeCh_lt (w : Word) : routeCh w < 4 := Nat.mod_lt _ (by decide)

theorem Elem.chan_pushCh (e : Elem) (n c : Nat) (hc : c < 4) (k : Token) :
    (e.pushCh n k).chan c = if c = n then e.chan n ++ [k] else e.chan c := by
  simp only [Elem.pushCh, Elem.chan, getD_setAt _ _ _ _ _ _ hc]

theorem Pops.tidy (s : State) (p : Nat) : Pops s (s.tidy p) p := Pops.foldl p _ (fun s n => Pops.tidyCh s p n 4) _ s

theorem Pops.store {s t : State} {p : Nat} (h : Pops s t p) : t.store = s.store := by rw [h.rest]
theorem Pops.flits {s t : State} {p : Nat} (h : Pops s t p) : t.fab.flits = s.fab.flits := by rw [h.fabric]

/-- A token that lands leaves the routes, and touches no memory. -/
theorem State.land_store_flits (s : State) (f : Flit) :
    (s.land f).store = s.store ∧ (s.land f).fab.flits = s.fab.flits.filter fun x => x.id != f.id := by
  unfold State.land
  dsimp only
  split
  · exact ⟨rfl, rfl⟩
  · split
    · exact ⟨rfl, rfl⟩
    · split
      · exact ⟨(Pops.tidy _ _).store, (Pops.tidy _ _).flits⟩
      · exact ⟨rfl, rfl⟩

/-- What a token comes by: the node that serves its route now, or the route (R23, R247). -/
def State.viaOf (s : State) (f : Flit) : Via :=
  match f.toNode, (s.region f.ctx.region).bind fun g => g.nodeOf f.ctx.el f.ctx.k f.o with
  | none, some e => .node f.ctx.region e.1
  | _, _ => .route f.ctx f.o

/-- A token for a channel comes behind those on it (R24). -/
theorem State.land_chan {s : State} {f : Flit} {g : Region} {x : Ctx} {el : Nat} (hn : f.toNode = none) (hg : s.region f.ctx.region = some g)
    (hx : g.ctx f.ctx.el f.ctx.k = some x) (ht : routeTarget x.el (x.routes.getD f.o 0#32) = some el)
    (hd : ∀ k, s.discards (g.phys el) k = none) :
    s.land f = ({ s with fab := { s.fab with flits := s.fab.flits.filter fun x => x.id != f.id } } : State).updElem (g.phys el)
      fun e => e.pushCh (routeCh (x.routes.getD f.o 0#32)) { payload := f.payload, tag := f.tag, via := s.viaOf f } := by
  generalize hu : ({ s with fab := { s.fab with flits := s.fab.flits.filter fun x => x.id != f.id } } : State) = u
  have hur : u.regions = s.regions := by rw [← hu]
  have hug : u.region f.ctx.region = some g := by rw [State.region, hur]; exact hg
  have hv : u.viaOf f = s.viaOf f := by rw [← hu]; rfl
  have hl : s.land f = (u.updElem (g.phys el) fun e => e.pushCh (routeCh (x.routes.getD f.o 0#32))
      { payload := f.payload, tag := f.tag, via := u.viaOf f }).tidy (g.phys el) := by
    simp only [State.land, hu, State.viaOf, hn, hug, hx, Option.bind_some, ht, Option.map_some, Option.getD_some] <;> rfl
  rw [hl, hv]
  exact State.tidy_none _ _ fun k => (State.discards_congr hur _ k).trans (hd k)

theorem State.land_node {s : State} {f : Flit} {r n : Nat} {g : Region} {x : Node} (hn : f.toNode = some (r, n)) (hg : s.region r = some g)
    (hx : g.nodes.look n = some x) :
    ∃ h : Region, (s.land f).region r = some h ∧
      h.nodes.look n = some { x with fifo := x.fifo ++ [{ payload := f.payload, tag := f.tag, via := s.viaOf f }] } := by
  generalize hu : ({ s with fab := { s.fab with flits := s.fab.flits.filter fun x => x.id != f.id } } : State) = u
  have hug : u.region r = some g := by rw [← hu]; exact hg
  have hv : u.viaOf f = s.viaOf f := by rw [← hu]; rfl
  have hl : s.land f = u.updRegion r fun g => { g with nodes := g.nodes.upd n fun x =>
      { x with fifo := x.fifo ++ [{ payload := f.payload, tag := f.tag, via := u.viaOf f }] } } := by
    simp only [State.land, hu, State.viaOf, hn]
  rw [hl, State.region_updRegion, if_pos rfl, hug]
  refine ⟨_, rfl, ?_⟩
  rw [Tab.look_upd, if_pos rfl, hx, hv]
  rfl

-- CREDIT_RETURN.

theorem State.region_updRegion_same {s : State} {r : Nat} {g : Region} {f : Region → Region} (hg : s.region r = some g) :
    (s.updRegion r f).region r = some (f g) := by
  rw [State.region_updRegion, if_pos rfl, hg]; rfl

theorem Tab.look_upd_same {α : Type} {t : Tab α} {k : Nat} {x : α} {f : α → α} (hx : t.look k = some x) : (t.upd k f).look k = some (f x) := by
  rw [Tab.look_upd, if_pos rfl, hx]; rfl

theorem execCreditReturn_due {s : State} {id : Nat} {c : CredRet} (hc : s.fab.credRets.find? (fun x => x.id = id) = some c)
    (ht : c.at_ ≤ s.regionClk c.dest.region) (hd : NoDebt s) :
    ∃ u : State, u = { s with fab := { s.fab with credRets := s.fab.credRets.filter fun x => x.id != id } } ∧
      execCreditReturn id s = .next (match c.dest with
        | .none => u
        | .route x o => u.updCtx x fun y => y.refund o
        | .gen r n => u.updRegion r fun g => { g with gens := g.gens.upd n fun x => { x with credits := x.credits + 1 } }
        | .node r n => u.updRegion r fun g => { g with nodes := g.nodes.upd n fun x => { x with credits := x.credits + 1 } }) := by
  refine ⟨_, rfl, ?_⟩
  simp only [execCreditReturn, hc, ht, if_true]
  cases c.dest with
  | route x o => exact congrArg _ (State.regain_of_noDebt (s := { s with fab := { s.fab with
      credRets := s.fab.credRets.filter fun x => x.id != id } }) hd x o)
  | none => rfl
  | gen r n => rfl
  | node r n => rfl

-- MASKED_FIRING.

theorem isMerge_eq_false {i : Instr} (h : ∀ q, i ≠ .merge q) : isMerge i = false := by
  unfold isMerge
  split
  · exact absurd rfl (h _)
  · rfl

theorem execMaskedFiring_due {s : State} {c : CtxId} {slot : Nat} {i : Instr} {v : View}
    (h : slotView s { ctx := c, slot, follower := true } = some (i, v)) (hm : v.masked i s = true) (hd : v.dueSlot = some slot) :
    ∃ own, execMaskedFiring c slot s = .next ((((s.bump.popMask v.p (if isMerge i then mergePops v else v.rule.dq)).updElem v.p
      fun e => { e with spent := true }).laneSkip v).updRegion v.r fun g => Region.stepTaken own { g with fired := true }) := by
  simp only [execMaskedFiring, h, hm, hd, beq_self_eq_true, Bool.and_self, if_true]
  exact ⟨_, rfl⟩

theorem Region.stepTaken_ctxs (own : Nat) (g : Region) : (g.stepTaken own).ctxs = g.ctxs := by
  obtain ⟨h, -⟩ := Region.stepTaken_spec own g
  rw [h]

/-- What a masked firing changes of memory, requests, its context and its element. -/
theorem maskedFiring_spec {s : State} {c : CtxId} {slot : Nat} {i : Instr} {v : View}
    (h : slotView s { ctx := c, slot, follower := true } = some (i, v)) (hm : v.masked i s = true) (hd : v.dueSlot = some slot) :
    ∃ t : State, execMaskedFiring c slot s = .next t ∧ t.store = s.store ∧ t.fab.reqs = s.fab.reqs ∧ t.ctx c = s.ctx c ∧
      (t.elem v.p).spent = true ∧
      ((∀ k, s.discards v.p k = none) → (∀ q, i ≠ .merge q) → ∀ n, n < 4 →
        (t.elem v.p).chan n = if v.rule.dq.getLsbD n then ((s.elem v.p).chan n).drop 1 else (s.elem v.p).chan n) := by
  obtain ⟨own, he⟩ := execMaskedFiring_due h hm hd
  generalize hdq : (if isMerge i then mergePops v else v.rule.dq) = dq at he
  have hp := Pops.popMask s.bump v.p dq
  have hch := fun n hn hn' => State.chan_popMask s.bump v.p dq n hn hn'
  generalize s.bump.popMask v.p dq = u at hp hch he
  obtain ⟨hl, hf, -⟩ := State.joinLane_spec (u.updElem v.p fun e => { e with spent := true }) v.lead v.f.slot
    (v.g.chainOf v.x.el v.x.k).length { member := v.g.laneOf v.x.el v.x.k } false (v.clk (u.updElem v.p fun e => { e with spent := true }))
  change (u.updElem v.p fun e => { e with spent := true }).laneSkip v = _ at hl
  change ((u.updElem v.p fun e => { e with spent := true }).laneSkip v).fab = _ at hf
  generalize (u.updElem v.p fun e => { e with spent := true }).laneSkip v = w at hl hf he
  have hel : w.elem v.p = { u.elem v.p with spent := true } := by
    have : w.fab.elems = (u.updElem v.p fun e => { e with spent := true }).fab.elems := by rw [hf]
    rw [State.elem, this]
    exact State.elem_updElem_same ..
  refine ⟨_, he, ?_, ?_, ?_, ?_, fun hnone hmerge n hn => ?_⟩
  · change w.store = s.store
    rw [hl]; exact hp.store
  · change w.fab.reqs = s.fab.reqs
    rw [hf]
    change u.fab.reqs = s.fab.reqs
    rw [hp.fabric]; rfl
  · refine (State.ctx_updRegion _ _ _ fun g => Region.stepTaken_ctxs own { g with fired := true }).trans ?_
    rw [hl]
    change u.ctx c = s.ctx c
    rw [hp.rest]; rfl
  · change (w.elem v.p).spent = true
    rw [hel]
  · change (w.elem v.p).chan n = _
    rw [hel]
    change (u.elem v.p).chan n = _
    rw [hch n hn fun k => (State.discards_congr rfl _ k).trans (hnone k), ← hdq, isMerge_eq_false hmerge]
    rfl



theorem execWriteBack_of_find (s : State) {id : Nat} {w : WB} (hw : s.fab.wbs.find? (fun x => x.id = id) = some w) :
    execWriteBack id s = .next (if w.due ≤ s.regionClk w.ctx.region then s.finish w else s) := by
  simp only [execWriteBack, hw]

/-- Settles O38, one kind of event after the other: each is due or not, and a lemma of its own says what a due one does. -/
theorem tokensAndReplies : Obligations.TokensAndReplies := by
  unfold Obligations.TokensAndReplies
  refine fun s => ⟨fun id w hw => ?_, fun id q hq => ?_, fun id f hf hfill howes ht hb => ?_, fun id c hc => ?_,
    fun c slot i v hv hm hd => maskedFiring_spec hv hm hd⟩
  · have hid : w.id = id := by simpa using List.find?_some hw
    have hdue : w.due ≤ s.regionClk w.ctx.region → exec (.writeBack id) s = .next (s.finish w) := fun h => by
      change execWriteBack id s = _
      rw [execWriteBack_of_find s hw, if_pos h]
    refine ⟨fun h => ?_, fun h hr => ?_, fun n h hr hg => ?_, fun g x h hr hg hx hd => ?_⟩
    · change execWriteBack id s = _
      rw [execWriteBack_of_find s hw, if_neg (Nat.not_le.mpr h)]
    · refine ⟨_, _, (hdue h).trans (congrArg _ (State.finish_eq_deliver hr)), ?_, rfl⟩
      rw [← hid]
      exact State.writeBack_spec (s.dropWb w.id) w.id w.ctx w.dst w.pdst w.done (s.regionClk w.ctx.region + 1)
    · obtain ⟨h1, h2, h3, h4⟩ := State.finish_again hr hg
      refine ⟨_, hdue h, h1, h2, h3, fun x hx => ⟨_, h4 x hx, Ctx.claim_eq .., fun n => Ctx.claim_busy .., fun n => Ctx.claim_pred ..⟩⟩
    · obtain ⟨q, hq⟩ := State.finish_bad hr hg hx hd
      exact ⟨_, q, hdue h, hq⟩
  · refine ⟨fun d hp hst => ?_, fun hp hst => ?_, fun hp hst => ?_, fun hp hst => ?_, fun r d hp hst _ hr => ?_, fun d hp hst => ?_⟩
    · refine ⟨_, (execRequestReply_placed hq (State.current_iff.mpr hp)).trans ?_, State.writeBack_spec (s.dropReq id) ..⟩
      rw [hst]
    · exact (execRequestReply_placed hq (State.current_iff.mpr hp)).trans (by rw [hst]; rfl)
    · exact (execRequestReply_placed hq (State.current_iff.mpr hp)).trans (by rw [hst]; rfl)
    · exact (execRequestReply_placed hq (State.current_iff.mpr hp)).trans (by rw [hst]; rfl)
    · obtain ⟨u, hw, hrest⟩ := badReply_spec hq (State.current_iff.mpr hp) hr r d
      refine ⟨u, _, (execRequestReply_placed hq (State.current_iff.mpr hp)).trans ?_, hw, hrest⟩
      rw [hst]
    · exact execRequestReply_gone hq (fun h => hp (State.current_iff.mp h)) hst
  · have hid : f.id = id := by simpa using List.find?_some hf
    obtain ⟨hs, hfl⟩ := State.land_store_flits s f
    refine ⟨_, execTokenArrive_due hf hfill howes ht hb, hs, hid ▸ hfl, fun g x el hn hg hx hto hdis => ?_, fun r n g x hn hg hx => ?_⟩
    · rw [State.land_chan hn hg hx hto hdis]
      refine ⟨⟨{ payload := f.payload, tag := f.tag, via := s.viaOf f }, rfl, rfl, ?_⟩, fun p c hpc => ?_, rfl⟩
      · rw [State.elem_updElem_same, Elem.chan_pushCh _ _ _ (routeCh_lt _), if_pos rfl]
        rfl
      · by_cases hp : p = g.phys el
        · obtain ⟨hc, hc4⟩ := hpc.resolve_left (not_not_intro hp)
          rw [hp, State.elem_updElem_same, Elem.chan_pushCh _ _ _ hc4, if_neg hc]
          rfl
        · rw [State.elem_updElem_other _ hp]
          rfl
    · obtain ⟨h, hh, hl⟩ := State.land_node hn hg hx
      exact ⟨h, _, { payload := f.payload, tag := f.tag, via := s.viaOf f }, hh, hl, rfl, rfl, rfl⟩
  · refine ⟨fun h => ?_, fun h hd => ?_⟩
    · change execCreditReturn id s = _
      simp only [execCreditReturn, hc, if_neg (Nat.not_le.mpr h)]
    · obtain ⟨u, hu, he⟩ := execCreditReturn_due hc h hd
      refine ⟨_, he, ?_, fun k o x hk ho hx => ?_, fun r n g x hk hg hx => ?_, fun r n g x hk hg hx => ?_⟩
      · rw [hu]
        cases c.dest <;> rfl
      · rw [hk]
        refine ⟨_, State.ctx_updCtx_same (x := x) (by rw [hu]; exact hx), rfl, fun n hn => ?_⟩
        rw [Ctx.credits_refund _ _ _ hn]
        split <;> rfl
      · rw [hk]
        exact ⟨_, State.region_updRegion_same (by rw [hu]; exact hg),
          Tab.look_upd_same (f := fun x : Gen => { x with credits := x.credits + 1 }) hx⟩
      · rw [hk]
        exact ⟨_, State.region_updRegion_same (by rw [hu]; exact hg),
          Tab.look_upd_same (f := fun x : Node => { x with credits := x.credits + 1 }) hx⟩
end Sys2Proof.Machine
end

section
/-!
SUPPORT. What a write at a physical address leaves, and what it reads back as (R335); the bytes of a record (R197).
-/
namespace Sys2Proof.Machine

-- Little-endian bytes.

theorem natLe_length (n v : Nat) : (natLe n v).length = n := by
  induction n generalizing v with
  | zero => rfl
  | succ n ih => rw [natLe, List.length_cons, ih]

theorem leNat_natLe (n v : Nat) : leNat (natLe n v) = v % 256 ^ n := by
  induction n generalizing v with
  | zero => simp [natLe, leNat, Nat.mod_one]
  | succ n ih =>
    rw [natLe, leNat, ih, Nat.pow_succ', Nat.mod_mul, BitVec.toNat_ofNat]

-- Homes of physical addresses.

theorem locOf_some_iff {a l : Nat} : locOf false a = some l ↔
    a < pkgBytes ∧ a / 4096 % 12 * stackBytes + a / 4096 / 12 * 4096 + a % 4096 = l := by
  simp only [locOf, Bool.false_eq_true, if_false]
  split <;> simp [*]

/-- Two physical addresses do not share a home (R335). -/
theorem locOf_injective {a b l : Nat} (ha : locOf false a = some l) (hb : locOf false b = some l) : a = b := by
  obtain ⟨ha, hal⟩ := locOf_some_iff.mp ha
  obtain ⟨hb, hbl⟩ := locOf_some_iff.mp hb
  simp only [pkgBytes, stackBytes] at ha hb hal hbl
  omega

theorem locOf_isSome {a : Nat} (h : a < pkgBytes) : ∃ l, locOf false a = some l := ⟨_, locOf_some_iff.mpr ⟨h, rfl⟩⟩

-- Writing cells.

/-- A cell that holds a value, or is written, and is written nothing else, holds it afterwards. -/
theorem cellAt_foldl_cellPut {ws : List (Nat × Byte)} {l : Nat} {v : Byte} (hv : ∀ w ∈ ws, w.1 = l → w.2 = v) {m : List Host.Cell}
    (hm : Memory.wf m = true) (h : cellAt m l = v ∨ ∃ w ∈ ws, w.1 = l) : cellAt (ws.foldl (fun m w => cellPut m w.1 w.2) m) l = v := by
  induction ws generalizing m with
  | nil => exact h.resolve_right fun ⟨_, hw, _⟩ => List.not_mem_nil hw
  | cons w ws ih =>
    refine ih (fun x hx => hv x (List.mem_cons_of_mem _ hx)) (cellPut_wf hm _ _) ?_
    by_cases hw : w.1 = l
    · rw [← hw, ← hv w List.mem_cons_self hw]
      exact .inl (cellAt_cellPut_same hm _ _)
    · rw [cellAt_cellPut_other m _ (Ne.symm hw)]
      refine h.imp_right fun ⟨x, hx, hl⟩ => ?_
      rcases List.mem_cons.mp hx with rfl | hx
      · exact absurd hl hw
      · exact ⟨x, hx, hl⟩

theorem State.homeByte_writeSector {s : State} {sec l : Nat} {v : Byte} {ws : List (Nat × Byte)} (hm : s.memoryOk)
    (hv : ∀ w ∈ ws, w.1 = l → w.2 = v) (h : s.homeByte l = v ∨ ∃ w ∈ ws, w.1 = l) : (s.writeSector sec ws).homeByte l = v :=
  cellAt_foldl_cellPut hv hm.1 h

/-- The writes of a physical write, sector by sector. -/
theorem State.homeByte_foldl_writeSector {ws : List (Nat × Byte)} {l : Nat} {v : Byte} (hv : ∀ w ∈ ws, w.1 = l → w.2 = v) (secs : List Nat)
    {s : State} (hm : s.memoryOk) (h : s.homeByte l = v ∨ (l / 32 ∈ secs ∧ ∃ w ∈ ws, w.1 = l)) :
    (secs.foldl (fun s sec => s.writeSector sec (ws.filter fun w => w.1 / 32 = sec)) s).homeByte l = v := by
  induction secs generalizing s with
  | nil => exact h.resolve_right fun ⟨h, _⟩ => List.not_mem_nil h
  | cons sec secs ih =>
    have hv' : ∀ w ∈ ws.filter fun w => w.1 / 32 = sec, w.1 = l → w.2 = v := fun w hw => hv w (List.mem_of_mem_filter hw)
    refine ih (State.writeSector_memoryOk hm _ _) ?_
    rcases h with h | ⟨hs, w, hw, hl⟩
    · exact .inl (State.homeByte_writeSector hm hv' (.inl h))
    · rcases List.mem_cons.mp hs with hs | hs
      · exact .inl (State.homeByte_writeSector hm hv' (.inr ⟨w, List.mem_filter.mpr ⟨hw, by simp [hl, hs]⟩, hl⟩))
      · exact .inr ⟨hs, w, hw, hl⟩

/-- The home bytes of a physical write (R335). -/
def physWrites (pa : Nat) (bs : List Byte) : List (Nat × Byte) :=
  (bs.mapIdx fun i b => (pa + i, b)).filterMap fun w => (locOf false w.1).map fun l => (l, w.2)

theorem mem_physWrites {pa : Nat} {bs : List Byte} {w : Nat × Byte} :
    w ∈ physWrites pa bs ↔ ∃ i, ∃ h : i < bs.length, locOf false (pa + i) = some w.1 ∧ bs[i] = w.2 := by
  obtain ⟨l, v⟩ := w
  simp only [physWrites, List.mem_filterMap, List.mem_mapIdx, Option.map_eq_some_iff, Prod.mk.injEq]
  constructor
  · rintro ⟨_, ⟨i, hi, rfl⟩, _, hl, rfl, rfl⟩
    exact ⟨i, hi, hl, rfl⟩
  · rintro ⟨i, hi, hl, rfl⟩
    exact ⟨_, ⟨i, hi, rfl⟩, l, hl, rfl, rfl⟩

theorem State.homeByte_physPut {s : State} {pa l : Nat} {v : Byte} {bs : List Byte} (hm : s.memoryOk)
    (hv : ∀ w ∈ physWrites pa bs, w.1 = l → w.2 = v) (h : s.homeByte l = v ∨ ∃ w ∈ physWrites pa bs, w.1 = l) :
    (s.physPut pa bs).homeByte l = v := by
  refine State.homeByte_foldl_writeSector hv _ hm (h.imp_right fun ⟨w, hw, hl⟩ => ⟨?_, w, hw, hl⟩)
  exact List.mem_dedup.mpr (List.mem_map.mpr ⟨w, hw, by rw [hl]⟩)

-- Reading physical bytes.

/-- A byte that is written reads back. -/
theorem State.homeByte_physPut_same {s : State} {pa l i : Nat} {bs : List Byte} (hm : s.memoryOk) (hi : i < bs.length)
    (hl : locOf false (pa + i) = some l) : (s.physPut pa bs).homeByte l = bs[i] := by
  refine State.homeByte_physPut hm (fun w hw hwl => ?_) (.inr ⟨(l, bs[i]), mem_physWrites.mpr ⟨i, hi, hl, rfl⟩, rfl⟩)
  obtain ⟨j, hj, hlj, hb⟩ := mem_physWrites.mp hw
  have : pa + j = pa + i := locOf_injective hlj (hwl ▸ hl)
  obtain rfl : j = i := by omega
  exact hb.symm

theorem State.homeByte_physPut_other {s : State} {pa l b : Nat} {bs : List Byte} (hm : s.memoryOk) (hl : locOf false b = some l)
    (hb : b < pa ∨ pa + bs.length ≤ b) : (s.physPut pa bs).homeByte l = s.homeByte l := by
  refine State.homeByte_physPut hm (fun w hw hwl => ?_) (.inl rfl)
  obtain ⟨j, hj, hlj, -⟩ := mem_physWrites.mp hw
  have : pa + j = b := locOf_injective hlj (hwl ▸ hl)
  omega

/-- What is written reads back. -/
theorem State.physBytes_physPut_same {s : State} {pa : Nat} {bs : List Byte} (hm : s.memoryOk) (hp : pa + bs.length ≤ pkgBytes) :
    (s.physPut pa bs).physBytes pa bs.length = bs := by
  refine List.ext_getElem (by simp [State.physBytes]) fun i _ hi => ?_
  obtain ⟨l, hl⟩ := locOf_isSome (a := pa + i) (by omega)
  simp only [State.physBytes, List.getElem_map, List.getElem_range, hl]
  exact State.homeByte_physPut_same hm hi hl

/-- The rest reads as before. -/
theorem State.physBytes_physPut_other {s : State} {pa a n : Nat} {bs : List Byte} (hm : s.memoryOk) (h : a + n ≤ pa ∨ pa + bs.length ≤ a) :
    (s.physPut pa bs).physBytes a n = s.physBytes a n := by
  refine List.map_congr_left fun i hi => ?_
  have hi := List.mem_range.mp hi
  split
  · next l hl => exact State.homeByte_physPut_other hm hl (by omega)
  · rfl

-- What a write at a physical address leaves.

/-- A write to memory: it re-evaluates what watches it, and changes nothing else. -/
structure Puts (s t : State) : Prop where
  rest : t = { s with store := t.store, fab := { s.fab with reqs := t.fab.reqs }, dies := { s.dies with gangs := t.dies.gangs } }

theorem Puts.trans {s t u : State} (h : Puts s t) (k : Puts t u) : Puts s u := by
  have := k.rest
  rw [h.rest] at this
  exact ⟨this⟩

theorem Puts.physPut (s : State) (pa : Nat) (bs : List Byte) : Puts s (s.physPut pa bs) :=
  foldl_keeps (Puts s) _ (fun _ _ h => h.trans ⟨rfl⟩) _ ⟨rfl⟩

namespace Puts
variable {s t : State} (h : Puts s t)
include h

theorem fq : t.fab.fq = s.fab.fq := by rw [h.rest]
theorem pkg : t.pkg = s.pkg := by rw [h.rest]

/-- The fault-ring table stays where it is. -/
theorem frField (n off len : Nat) : t.frField n off len = leNat (t.physBytes (s.frEntry n + off) len) := by
  rw [State.frField, State.frEntry, State.mmioNat, State.mmioNat, State.mmio, State.mmio, h.pkg]; rfl

end Puts

-- The 64 bytes of a record.

/-- The bytes of a record that stand before INFO, and those behind it. -/
def Rec.head (r : Rec) : List Byte :=
  natLe 1 r.cls ++ natLe 1 r.flags ++ natLe 2 r.lease ++ natLe 4 r.seq ++ natLe 1 r.tx ++ natLe 1 r.ty ++ natLe 1 r.exy ++
    natLe 1 r.ks ++ natLe 1 r.wsel ++ [0#8] ++ natLe 2 r.inst ++ wordLe r.round ++ wordLe r.word ++ natLe 8 r.va
def Rec.tail (r : Rec) : List Byte := natLe 8 r.lrec ++ natLe 8 r.cyc

theorem Rec.bytes_eq (r : Rec) : r.bytes = r.head ++ ((r.info ++ List.replicate 16 0#8).take 16 ++ r.tail) := by
  simp only [Rec.bytes, Rec.head, Rec.tail, List.append_assoc]

theorem Rec.head_length (r : Rec) : r.head.length = 0x20 := rfl
theorem Rec.info_length (r : Rec) : ((r.info ++ List.replicate 16 0#8).take 16).length = 16 := by simp

theorem Rec.bytes_length (r : Rec) : r.bytes.length = 64 := by
  rw [Rec.bytes_eq, List.length_append, List.length_append, Rec.head_length, Rec.info_length]; rfl

theorem Rec.bytes_info (r : Rec) {n : Nat} (hn : n < 16) : r.bytes.getD (0x20 + n) 0#8 = r.info.getD n 0#8 := by
  rw [Rec.bytes_eq, List.getD_append_right _ _ _ _ (by rw [Rec.head_length]; omega), Rec.head_length, Nat.add_sub_cancel_left,
    List.getD_append _ _ _ _ (by rw [Rec.info_length]; exact hn)]
  simp only [List.getD_eq_getElem?_getD, List.getElem?_take, hn, if_true, List.getElem?_append, List.getElem?_replicate]
  split
  · rfl
  · next h => rw [List.getElem?_eq_none (by omega)]; split <;> rfl

/-- The fields of a record, with their places and sizes (R197). -/
def Rec.fields (r : Rec) : List (Nat × Nat × Nat) :=
  [(0x00, 1, r.cls), (0x01, 1, r.flags), (0x02, 2, r.lease), (0x04, 4, r.seq), (0x08, 1, r.tx), (0x09, 1, r.ty), (0x0A, 1, r.exy),
   (0x0B, 1, r.ks), (0x0C, 1, r.wsel), (0x0D, 1, 0), (0x0E, 2, r.inst), (0x10, 4, r.round.toNat), (0x14, 4, r.word.toNat), (0x18, 8, r.va),
   (0x30, 8, r.lrec), (0x38, 8, r.cyc)]

theorem Rec.drop_tail (r : Rec) (k : Nat) : r.bytes.drop (0x30 + k) = r.tail.drop k := by
  have hl : (r.head ++ (r.info ++ List.replicate 16 0#8).take 16).length = 0x30 := by
    rw [List.length_append, Rec.head_length, Rec.info_length]
  rw [Rec.bytes_eq, ← List.append_assoc, ← hl, List.drop_length_add_append]

theorem Rec.bytes_fields (r : Rec) : ∀ x ∈ r.fields, (r.bytes.drop x.1).take x.2.1 = natLe x.2.1 x.2.2 := by
  have h30 : r.bytes.drop 0x30 = r.tail := r.drop_tail 0
  have h38 : r.bytes.drop 0x38 = r.tail.drop 8 := r.drop_tail 8
  simp only [Rec.fields, List.forall_mem_cons, h30, h38]
  simp [Rec.bytes_eq, Rec.head, Rec.tail, wordLe, natLe]

theorem Rec.field_value (r : Rec) {off n v : Nat} (h : (off, n, v) ∈ r.fields) : leNat ((r.bytes.drop off).take n) = v % 256 ^ n := by
  rw [r.bytes_fields _ h, leNat_natLe]

end Sys2Proof.Machine
end

section
/-!
SUPPORT. The forwarding of fault records to their rings (R428).
-/
namespace Sys2Proof.Machine

theorem find?_id_eq {α : Type} {f : α → Nat} {n : Nat} {l : List α} {x : α} (h : l.find? (fun x => decide (f x = n)) = some x) : f x = n := by
  simpa using List.find?_some h

section
variable {s : State} {id : Nat} {q : QRec} (hq : s.fab.fq.find? (fun x => x.id = id) = some q)
  (hc : s.fab.fq.find? (fun x => x.core = q.core) = some q)
include hq hc

theorem State.tryForward_eq : s.tryForward id =
    if s.badRing q.ring || s.ringAway q then s
    else if s.ringRoom q.ring then s.forward q
    else if q.waited then s
    else ({ s with fab := { s.fab with fq := s.fab.fq.map fun x => if x.id = id then { x with waited := true } else x } } : State).physPut
      (s.frEntry q.ring + 0x18) (natLe 4 (min (s.frField q.ring 0x18 4 + 1) 0xFFFFFFFF)) := by
  have hid : q.id = id := find?_id_eq hq
  simp only [State.tryForward, hq, hc, Option.map_some, hid, ne_eq, not_true, decide_false, Bool.false_or, mapIf_eq, sat32_eq_min]
  rfl

theorem State.tryForward_held (h : s.badRing q.ring = true ∨ s.ringAway q = true ∨ (¬s.ringRoom q.ring = true ∧ q.waited = true)) :
    s.tryForward id = s := by
  rw [State.tryForward_eq hq hc]
  split
  · rfl
  · next hb =>
    simp only [Bool.or_eq_true, not_or] at hb
    obtain ⟨hr, hw⟩ := (h.resolve_left hb.1).resolve_left hb.2
    rw [if_neg hr, if_pos hw]

end

/-- The ring is full (R428). -/
theorem State.ringRoom_iff (s : State) (n : Nat) : s.ringRoom n = true ↔
    ¬2 ^ s.frField n 8 1 ≤ (s.frField n 0x10 4 + 2 ^ 32 - s.frField n 0xC 4) % 2 ^ 32 := by
  simp only [State.ringRoom, decide_eq_true_eq, Nat.not_le]

-- A record is written and published.

/-- The slot of a ring that is next (R428). -/
def State.ringSlot (s : State) (n : Nat) : Nat := s.frField n 0 8 + 64 * (s.frField n 0x10 4 % 2 ^ s.frField n 8 1)

/-- The memory as a record stands in its slot and is published. -/
def State.published (s : State) (q : QRec) : State :=
  let next := natLe 4 (s.frField q.ring 0x10 4 + 1)
  ((s.physPut (s.frEntry q.ring + 0x10) next).physPut (s.ringSlot q.ring) q.rcd.bytes).physPut (s.frEntry q.ring + 0x14) next

theorem Puts.published (s : State) (q : QRec) : Puts s (s.published q) :=
  ((Puts.physPut ..).trans (Puts.physPut ..)).trans (Puts.physPut ..)

section
variable {s : State} {q : QRec} (hm : s.memoryOk)
include hm

/-- What stands outside the slot and the two indices of the entry reads as before. -/
theorem State.physBytes_published_other {a n : Nat} (h1 : a + n ≤ s.frEntry q.ring + 0x10 ∨ s.frEntry q.ring + 0x18 ≤ a)
    (h2 : a + n ≤ s.ringSlot q.ring ∨ s.ringSlot q.ring + 64 ≤ a) : (s.published q).physBytes a n = s.physBytes a n := by
  have m1 := State.physPut_memoryOk hm (s.frEntry q.ring + 0x10) (natLe 4 (s.frField q.ring 0x10 4 + 1))
  have m2 := State.physPut_memoryOk m1 (s.ringSlot q.ring) q.rcd.bytes
  rw [State.published, State.physBytes_physPut_other m2 (by rw [natLe_length]; omega),
    State.physBytes_physPut_other m1 (by rw [Rec.bytes_length]; omega), State.physBytes_physPut_other hm (by rw [natLe_length]; omega)]

variable (he : s.frEntry q.ring + 32 ≤ pkgBytes) (hs : s.ringSlot q.ring + 64 ≤ pkgBytes)
  (hd : s.ringSlot q.ring + 64 ≤ s.frEntry q.ring ∨ s.frEntry q.ring + 32 ≤ s.ringSlot q.ring)
include hd

/-- The fields of the entry before its indices stay. -/
theorem State.frField_published {off len : Nat} (ho : off + len ≤ 0x10) : (s.published q).frField q.ring off len = s.frField q.ring off len := by
  rw [(Puts.published s q).frField, State.physBytes_published_other hm (by omega) (by omega)]
  rfl

include hs in
theorem State.physBytes_published_slot : (s.published q).physBytes (s.ringSlot q.ring) 64 = q.rcd.bytes := by
  have m1 := State.physPut_memoryOk hm (s.frEntry q.ring + 0x10) (natLe 4 (s.frField q.ring 0x10 4 + 1))
  have m2 := State.physPut_memoryOk m1 (s.ringSlot q.ring) q.rcd.bytes
  rw [State.published, State.physBytes_physPut_other m2 (by rw [natLe_length]; omega)]
  have := State.physBytes_physPut_same (bs := q.rcd.bytes) m1 (by rw [Rec.bytes_length]; exact hs)
  rwa [Rec.bytes_length] at this

include he

theorem State.frField_published_reserved : (s.published q).frField q.ring 0x10 4 = (s.frField q.ring 0x10 4 + 1) % 2 ^ 32 := by
  have m1 := State.physPut_memoryOk hm (s.frEntry q.ring + 0x10) (natLe 4 (s.frField q.ring 0x10 4 + 1))
  have m2 := State.physPut_memoryOk m1 (s.ringSlot q.ring) q.rcd.bytes
  have hr := State.physBytes_physPut_same (bs := natLe 4 (s.frField q.ring 0x10 4 + 1)) hm (pa := s.frEntry q.ring + 0x10)
    (by rw [natLe_length]; omega)
  rw [natLe_length] at hr
  rw [(Puts.published s q).frField, State.published, State.physBytes_physPut_other m2 (by omega),
    State.physBytes_physPut_other m1 (by rw [Rec.bytes_length]; omega), hr, leNat_natLe, show 256 ^ 4 = 2 ^ 32 from rfl]

omit hd in
theorem State.frField_published_published : (s.published q).frField q.ring 0x14 4 = (s.frField q.ring 0x10 4 + 1) % 2 ^ 32 := by
  have m1 := State.physPut_memoryOk hm (s.frEntry q.ring + 0x10) (natLe 4 (s.frField q.ring 0x10 4 + 1))
  have m2 := State.physPut_memoryOk m1 (s.ringSlot q.ring) q.rcd.bytes
  have hr := State.physBytes_physPut_same (bs := natLe 4 (s.frField q.ring 0x10 4 + 1)) m2 (pa := s.frEntry q.ring + 0x14)
    (by rw [natLe_length]; omega)
  rw [natLe_length] at hr
  rw [(Puts.published s q).frField, State.published, hr, leNat_natLe, show 256 ^ 4 = 2 ^ 32 from rfl]

end

-- The ring's message.

/-- A ring's message is sent now, and none of it waits; or one waits (R428). -/
structure Messages (s t : State) (ring vec : Nat) : Prop where
  fab : t.fab = s.fab
  store : t.store = s.store
  mmio : t.pkg.mmio = s.pkg.mmio
  message : (t.pkg.out = s.pkg.out ++ [.msix vec] ∧ ∀ m ∈ t.pkg.msix, m.ring ≠ ring) ∨
    (t.pkg.out = s.pkg.out ∧ ∃ m ∈ t.pkg.msix, m.ring = ring)

theorem State.msix_spec (s : State) (die ring vec : Nat) : Messages s (s.msix die ring vec) ring vec := by
  unfold State.msix State.choice
  dsimp only
  split
  · exact ⟨rfl, rfl, rfl, .inl ⟨rfl, fun m hm => by simpa using (List.mem_filter.mp hm).2⟩⟩
  · split
    · next h =>
      obtain ⟨m, hm, hr⟩ := List.any_eq_true.mp h
      exact ⟨rfl, rfl, rfl, .inr ⟨rfl, m, hm, by simpa using hr⟩⟩
    · exact ⟨rfl, rfl, rfl, .inr ⟨rfl, _, List.mem_append_right _ List.mem_cons_self, rfl⟩⟩

/-- A field of a ring's entry depends on memory and on where the table is. -/
theorem State.frField_congr {s t : State} (hs : t.store = s.store) (hp : t.pkg.mmio = s.pkg.mmio) (n off len : Nat) :
    t.frField n off len = s.frField n off len := by
  simp only [State.frField, State.physBytes, State.homeByte, State.frEntry, State.mmioNat, State.mmio, hs, hp]

theorem State.physBytes_congr {s t : State} (hs : t.store = s.store) (a n : Nat) : t.physBytes a n = s.physBytes a n := by
  simp only [State.physBytes, State.homeByte, hs]

/-- The record has left the queue as well. -/
def State.sentOn (s : State) (q : QRec) : State :=
  let u := s.published q
  { u with fab := { u.fab with fq := u.fab.fq.filter fun x => x.id ≠ q.id } }

theorem State.sentOn_store (s : State) (q : QRec) : (s.sentOn q).store = (s.published q).store := by
  unfold State.sentOn; rfl

theorem State.sentOn_pkg (s : State) (q : QRec) : (s.sentOn q).pkg = s.pkg := by
  rw [← (Puts.published s q).pkg]; unfold State.sentOn; rfl

theorem State.sentOn_fq (s : State) (q : QRec) : (s.sentOn q).fab.fq = s.fab.fq.filter fun x => x.id ≠ q.id := by
  rw [← (Puts.published s q).fq]; unfold State.sentOn; rfl

theorem State.forward_eq (s : State) (q : QRec) : s.forward q =
    if bitOf 1 ((s.sentOn q).frField q.ring 9 1) then (s.sentOn q).msix (dieOfCore q.core) q.ring ((s.sentOn q).frField q.ring 0xA 2)
    else s.sentOn q := by
  unfold State.forward State.sentOn State.published State.ringSlot
  rfl

/-- A record goes to its ring: it is written, published, and takes its leave of the queue; then the message. -/
theorem State.forward_spec {s : State} {q : QRec} (hm : s.memoryOk) (he : s.frEntry q.ring + 32 ≤ pkgBytes)
    (hs : s.ringSlot q.ring + 64 ≤ pkgBytes)
    (hd : s.ringSlot q.ring + 64 ≤ s.frEntry q.ring ∨ s.frEntry q.ring + 32 ≤ s.ringSlot q.ring) :
    let t := s.forward q
    let f (off len : Nat) : Nat := s.frField q.ring off len
    t.physBytes (s.ringSlot q.ring) 64 = q.rcd.bytes ∧ t.fab.fq = s.fab.fq.filter (fun x => x.id ≠ q.id) ∧
    t.frField q.ring 0x10 4 = (f 0x10 4 + 1) % 2 ^ 32 ∧ t.frField q.ring 0x14 4 = (f 0x10 4 + 1) % 2 ^ 32 ∧
    (bitOf 1 (f 9 1) = false → t.pkg = s.pkg) ∧
    (bitOf 1 (f 9 1) = true → (t.pkg.out = s.pkg.out ++ [.msix (f 0xA 2)] ∧ ∀ m ∈ t.pkg.msix, m.ring ≠ q.ring) ∨
      (t.pkg.out = s.pkg.out ∧ ∃ m ∈ t.pkg.msix, m.ring = q.ring)) := by
  have hf := State.forward_eq s q
  have hus := State.sentOn_store s q
  have hup := State.sentOn_pkg s q
  have huq := State.sentOn_fq s q
  have hfr := State.frField_congr hus (congrArg _ (hup.trans (Puts.published s q).pkg.symm)) q.ring
  rw [hfr, hfr, State.frField_published hm hd (by decide), State.frField_published hm hd (by decide)] at hf
  generalize s.sentOn q = u at hus hup huq hf
  have hst : (s.forward q).store = (s.published q).store ∧ (s.forward q).pkg.mmio = (s.published q).pkg.mmio ∧
      (s.forward q).fab.fq = u.fab.fq := by
    rw [hf, (Puts.published s q).pkg, ← hup, ← hus]
    split
    · have h := State.msix_spec u (dieOfCore q.core) q.ring (s.frField q.ring 0xA 2)
      exact ⟨h.store, h.mmio, by rw [h.fab]⟩
    · exact ⟨rfl, rfl, rfl⟩
  obtain ⟨hst, hmm, hfq⟩ := hst
  refine ⟨?_, ?_, ?_, ?_, fun hb => ?_, fun hb => ?_⟩
  · rw [State.physBytes_congr hst]
    exact State.physBytes_published_slot hm hs hd
  · rw [hfq, huq]
  · rw [State.frField_congr hst hmm]
    exact State.frField_published_reserved hm he hd
  · rw [State.frField_congr hst hmm]
    exact State.frField_published_published hm he
  · rw [hf, hb]
    exact hup
  · rw [hf, if_pos hb, ← hup]
    exact (State.msix_spec u (dieOfCore q.core) q.ring (s.frField q.ring 0xA 2)).message

/-- A record that finds its ring full is counted once, in the ring's entry. -/
theorem State.tryForward_full {s : State} {id : Nat} {q : QRec} (hq : s.fab.fq.find? (fun x => x.id = id) = some q)
    (hc : s.fab.fq.find? (fun x => x.core = q.core) = some q) (hm : s.memoryOk) (he : s.frEntry q.ring + 32 ≤ pkgBytes)
    (hb : s.badRing q.ring = false) (ha : s.ringAway q = false) (hr : ¬s.ringRoom q.ring = true) (hw : q.waited = false) :
    (s.tryForward id).frField q.ring 0x18 4 = min 0xFFFFFFFF (s.frField q.ring 0x18 4 + 1) ∧
    (s.tryForward id).fab.fq = s.fab.fq.map fun x => if x.id = id then { x with waited := true } else x := by
  rw [State.tryForward_eq hq hc, hb, ha, if_neg hr, hw]
  simp only [Bool.or_self, Bool.false_eq_true, if_false]
  generalize hu : ({ s with fab := { s.fab with fq := s.fab.fq.map fun x => if x.id = id then { x with waited := true } else x } } : State) = u
  have hum : u.memoryOk := by rw [← hu]; exact hm
  have hue : u.frEntry q.ring = s.frEntry q.ring := by rw [← hu]; rfl
  have hp := Puts.physPut u (s.frEntry q.ring + 0x18) (natLe 4 (min (s.frField q.ring 0x18 4 + 1) 0xFFFFFFFF))
  refine ⟨?_, hp.fq.trans (by rw [← hu])⟩
  have hw := State.physBytes_physPut_same (bs := natLe 4 (min (s.frField q.ring 0x18 4 + 1) 0xFFFFFFFF)) hum (pa := s.frEntry q.ring + 0x18)
    (by rw [natLe_length]; omega)
  rw [natLe_length] at hw
  rw [hp.frField, hue, hw, leNat_natLe]
  omega

end Sys2Proof.Machine
end

section
/-!
SUPPORT. The posting of a fault record (R44, R136, R196, R362, R395).
-/
namespace Sys2Proof.Machine

-- When a record may be posted.

theorem State.recRegion_some_iff {s : State} {p : PRec} {g : Region} :
    s.recRegion p = some g ↔ s.region p.ctx.region = some g ∧ g.lease = p.rcd.lease ∧ p.ctx.el < 65536 := by
  simp only [State.recRegion, Option.filter_eq_some_iff, Bool.and_eq_true, decide_eq_true_eq]

theorem State.unwhole_iff {s : State} {p : PRec} : s.unwhole p = true ↔
    (∃ w ∈ s.fab.wbs, w.id < p.id ∧ s.physOf w.ctx ∈ p.frozen) ∨
    (∃ q ∈ s.fab.reqs, q.id < p.id ∧ s.physOf q.org.ctx ∈ p.frozen ∧ ¬(q.dst = none ∧ q.pdst = none ∧ q.om = 0#8)) ∨
    (∃ x ∈ s.fab.lanes, s.exchGoes x = true ∧ ∃ i ∈ x.got, ∃ w, i.wb = some w ∧ w.id < p.id ∧ s.physOf w.ctx ∈ p.frozen) := by
  have hq : ∀ q : Req, (q.dst.isSome || q.pdst.isSome || q.om != 0#8) = true ↔ ¬(q.dst = none ∧ q.pdst = none ∧ q.om = 0#8) := fun q => by
    cases q.dst <;> cases q.pdst <;> simp
  rw [State.unwhole, Bool.or_eq_true, Bool.or_eq_true, or_assoc, or_comm, or_assoc]
  simp only [List.any_eq_true, Bool.and_eq_true, decide_eq_true_eq, List.contains_iff_mem, Option.any_eq_true, hq, and_assoc]

/-- What holds a record up (R44, R196, R395). -/
theorem State.postable_eq_false_iff {s : State} {p : PRec} : s.postable p = false ↔
    4 ≤ (s.fab.fq.filter fun q => decide (q.ctx = p.ctx ∧ q.core = p.core)).length ∨
    (∃ w ∈ s.fab.wbs, w.id < p.id ∧ s.physOf w.ctx ∈ p.frozen) ∨
    (∃ q ∈ s.fab.reqs, q.id < p.id ∧ s.physOf q.org.ctx ∈ p.frozen ∧ ¬(q.dst = none ∧ q.pdst = none ∧ q.om = 0#8)) ∨
    (∃ x ∈ s.fab.lanes, s.exchGoes x = true ∧ ∃ i ∈ x.got, ∃ w, i.wb = some w ∧ w.id < p.id ∧ s.physOf w.ctx ∈ p.frozen) ∨
    (p.rcd.cls = 0x0E ∧ ∃ g : Region, s.region p.ctx.region = some g ∧ g.lease = p.rcd.lease ∧ p.ctx.el < 65536 ∧ g.stepping = true) := by
  have hs : ((s.recRegion p).map fun g => g.stepping).getD false = true ↔
      ∃ g : Region, s.region p.ctx.region = some g ∧ g.lease = p.rcd.lease ∧ p.ctx.el < 65536 ∧ g.stepping = true := by
    constructor
    · intro h
      cases hr : s.recRegion p with
      | none => simp [hr] at h
      | some g =>
        obtain ⟨h1, h2, h3⟩ := State.recRegion_some_iff.mp hr
        exact ⟨g, h1, h2, h3, by simpa [hr] using h⟩
    · rintro ⟨g, h1, h2, h3, h4⟩
      rw [State.recRegion_some_iff.mpr ⟨h1, h2, h3⟩]
      exact h4
  rw [← hs, State.postable, Bool.and_eq_false_iff, Bool.and_eq_false_iff, Bool.not_eq_false', Bool.not_eq_false', State.unwhole_iff,
    Bool.and_eq_true, decide_eq_true_eq, decide_eq_false_iff_not, Nat.not_lt]
  simp only [Bool.decide_and, or_assoc]

-- Freezes that become others.

theorem Elem.freezes_withFreezes (e : Elem) {l : List (Freeze × Nat)} (h : ∀ f ∈ l.head?, f.1 ≠ .no) : (e.withFreezes l).freezes = l := by
  cases l with
  | nil => rfl
  | cons f l => exact if_neg (h f rfl)

/-- No freeze that is listed first is none. -/
theorem Elem.head_freezes {e : Elem} {f : Freeze × Nat} (h : f ∈ e.freezes.head?) : f.1 ≠ .no := by
  unfold Elem.freezes at h
  split at h
  · cases h
  · next hn => cases h; exact hn

theorem Elem.freezes_mapFreeze (e : Elem) {f : Freeze → Freeze} (hf : ∀ x, x ≠ .no → f x ≠ .no) :
    (e.mapFreeze f).freezes = e.freezes.map fun x => (f x.1, x.2) := by
  refine Elem.freezes_withFreezes e fun x hx => ?_
  rw [List.head?_map] at hx
  obtain ⟨y, hy, rfl⟩ := Option.map_eq_some_iff.mp hx
  exact hf _ (Elem.head_freezes hy)

theorem Elem.withFreezes_eq (e : Elem) (l : List (Freeze × Nat)) :
    (e.withFreezes l).ch = e.ch ∧ (e.withFreezes l).ptr = e.ptr ∧ (e.withFreezes l).spent = e.spent := by
  cases l <;> exact ⟨rfl, rfl, rfl⟩

theorem Freeze.post_ne_no (id : Nat) {f : Freeze} (h : f ≠ .no) : f.post id ≠ .no := by
  unfold Freeze.post
  split
  · exact Freeze.noConfusion
  · exact h

theorem Tab.lookD_map {α : Type} (t : Tab α) (k : Nat) {d : α} {f : α → α} (hd : f d = d) :
    Tab.lookD (t.map fun e => (e.1, f e.2)) k d = f (t.lookD k d) := by
  induction t with
  | nil => exact hd.symm
  | cons e t ih =>
    simp only [Tab.lookD, List.map_cons, Tab.look] at ih ⊢
    split
    · rfl
    · exact ih

-- A record takes its number and waits in its context's queue.

/-- The record as it is posted (R197). -/
def State.postedRec (s : State) (p : PRec) : Rec :=
  { p.rcd with seq := s.cores.seqs.lookD p.core 0, round := ((s.ctx p.ctx).map fun c => c.rndn).getD 0#32, cyc := s.clk (p.core / 16) }

/-- The state as the record stands in its context's queue. -/
def State.posted (s : State) (id : Nat) (p : PRec) : State :=
  { s with
    fab := { s.fab with
      recs := s.fab.recs.filter fun x => x.id ≠ id,
      fq := s.fab.fq ++ [{ id := s.uid, ctx := p.ctx, core := p.core, ring := p.ring, rcd := s.postedRec p }],
      elems := s.fab.elems.map fun (e : Nat × Elem) => (e.1, e.2.mapFreeze (Freeze.post id)) },
    cores := { s.cores with seqs := s.cores.seqs.put p.core (((s.postedRec p).seq + 1) % 2 ^ 32) },
    uid := s.uid + 1 }

theorem State.posted_elem (s : State) (id : Nat) (p : PRec) (e : Nat) : (s.posted id p).elem e = (s.elem e).mapFreeze (Freeze.post id) :=
  Tab.lookD_map s.fab.elems e (f := fun x => x.mapFreeze (Freeze.post id)) rfl

theorem State.posted_seqs (s : State) (id : Nat) (p : PRec) (k : Nat) : (s.posted id p).cores.seqs.lookD k 0 =
    if k = p.core then ((s.postedRec p).seq + 1) % 2 ^ 32 else s.cores.seqs.lookD k 0 := by
  change (s.cores.seqs.put p.core _).lookD k 0 = _
  simp only [Tab.lookD]
  split
  · next h => rw [h, Tab.look_put_same]; rfl
  · next h => rw [Tab.look_put_other _ h]

/-- The record is counted in its region, and a trap awaits a resume. -/
def State.counted (s : State) (p : PRec) : State :=
  let s := s.updRreg p.ctx.region fun q => { q with fqcnt := q.fqcnt + 1 }
  if p.rcd.cls = 0x0D ∨ p.rcd.cls = 0x0E then s.updCtx p.ctx fun x => { x with trapped := true } else s

/-- What the record does in its region: a generator gang's fill is cancelled as well. -/
def State.charge (s : State) (p : PRec) (g : Region) : State :=
  let s := s.counted p
  match s.fillOfGang g.gang with
  | some f => if p.rcd.cls = 6 ∨ p.rcd.cls = 0x0E then s
    else s.cancelFill (fillKey f) p.rcd.cls (if p.rcd.cls = 9 ∨ p.rcd.cls = 0x0A then p.rcd.cls else 8) 0#32
  | none => s

/-- The state after the posting. -/
def State.afterPost (s : State) (id : Nat) (p : PRec) : State :=
  ((s.recRegion p).map fun g => (s.posted id p).charge p g).getD (s.posted id p)

theorem execFaultRecordPost_eq {s : State} {id : Nat} {p : PRec} (hp : s.fab.recs.find? (fun x => x.id = id) = some p) :
    execFaultRecordPost id s = .next (if s.postable p = false then s
      else s.afterPost id p) := by
  have hr : (s.posted id p).recRegion p = s.recRegion p := rfl
  simp only [execFaultRecordPost, hp]
  cases hpo : s.postable p with
  | false => rfl
  | true =>
    change Host.Outcome.next (match (s.posted id p).recRegion p with
      | none => s.posted id p
      | some g => (s.posted id p).charge p g) = _
    rw [hr, State.afterPost]
    cases s.recRegion p <;> rfl

-- A fill is cancelled.

/-- A change that leaves records, elements, regions and their registers, and the cores. -/
structure Aside (s t : State) : Prop where
  rest : t = { s with fab := { s.fab with reqs := t.fab.reqs }, store := t.store, dies := t.dies, pkg := t.pkg, uid := t.uid }

theorem Aside.trans {s t u : State} (h : Aside s t) (k : Aside t u) : Aside s u := by
  have := k.rest
  rw [h.rest] at this
  exact ⟨this⟩

theorem Puts.aside {s t : State} (h : Puts s t) : Aside s t := ⟨h.rest.trans (by rw [h.rest])⟩

theorem Puts.fills {s t : State} (h : Puts s t) : t.dies.fills = s.dies.fills := by rw [h.rest]

theorem Puts.setBlock (s : State) (r : Range) (b st : Nat) : Puts s (s.setBlock r b st) := by
  unfold State.setBlock State.mapPut
  dsimp only
  split
  · exact ⟨rfl⟩
  · exact Puts.physPut ..

theorem Aside.cancelFill (s : State) (key cause cls : Nat) (code : Word) : Aside s (s.cancelFill key cause cls code) := by
  unfold State.cancelFill
  split
  · exact ⟨rfl⟩
  · exact (Aside.trans (t := ((s.claimWaiters _).updFill key _).count _) ⟨rfl⟩ (Puts.setBlock ..).aside).trans ⟨rfl⟩

theorem State.mem_updFill {s : State} {x : Fill} (hx : x ∈ s.dies.fills) {key : Nat} (hk : fillKey x = key) (f : Fill → Fill) :
    f x ∈ (s.updFill key f).dies.fills := by
  refine List.mem_map.mpr ⟨x, hx, ?_⟩
  simp [hk]

/-- The fill that is under way under a key is cancelled, for the cause given (R362). -/
theorem State.cancelFill_spec {s : State} {f : Fill} (hf : f ∈ s.dies.fills) (hc : f.cancelled = false) (cause cls : Nat) (code : Word) :
    ∃ g ∈ (s.cancelFill (fillKey f) cause cls code).dies.fills, fillKey g = fillKey f ∧ g.cancelled = true ∧ g.cause = cause ∧
      g.cls = cls := by
  obtain ⟨f', hf'⟩ : ∃ f', s.dies.fills.find? (fun g => fillKey g = fillKey f && !g.cancelled) = some f' :=
    Option.isSome_iff_exists.mp (List.find?_isSome.mpr ⟨f, hf, by simp [hc]⟩)
  have hk : fillKey f = fillKey f' := by
    have := List.find?_some hf'
    simp only [Bool.and_eq_true, decide_eq_true_eq] at this
    exact this.1.symm
  simp only [State.cancelFill, hf', (Puts.setBlock ..).fills]
  have h1 := List.mem_map_of_mem (f := fun x : Fill => { x with
    waiters := x.waiters.filter fun w => !f'.waiters.any w.same, extra := x.extra.filter fun w => !f'.waiters.any w.same }) hf
  have h2 := State.mem_updFill (s := s.unwait fun w => f'.waiters.any w.same) h1 hk fun x => { x with waiters := f'.waiters }
  exact ⟨_, State.mem_updFill (s := s.claimWaiters f') h2 rfl fun x => { x with cancelled := true, cause, code, cls }, rfl, rfl, rfl, rfl⟩

-- What the posting leaves.

theorem State.counted_rest (s : State) (p : PRec) :
    s.counted p = { s with rregs := (s.counted p).rregs, regions := (s.counted p).regions } := by
  unfold State.counted
  dsimp only
  split <;> rfl

theorem State.rreg_updRreg_same (s : State) (r : Nat) (f : RReg → RReg) : (s.updRreg r f).rreg r = f (s.rreg r) := Tab.lookD_alter_same ..

theorem State.counted_fqcnt (s : State) (p : PRec) : ((s.counted p).rreg p.ctx.region).fqcnt = (s.rreg p.ctx.region).fqcnt + 1 := by
  have h : (s.counted p).rregs = (s.updRreg p.ctx.region fun q => { q with fqcnt := q.fqcnt + 1 }).rregs := by
    unfold State.counted
    dsimp only
    split <;> rfl
  rw [State.rreg, h]
  exact congrArg RReg.fqcnt (s.rreg_updRreg_same ..)

theorem State.counted_trapped {s : State} {p : PRec} (hc : p.rcd.cls = 0x0D ∨ p.rcd.cls = 0x0E) {x : Ctx} (hx : s.ctx p.ctx = some x) :
    (s.counted p).ctx p.ctx = some { x with trapped := true } := by
  rw [State.counted, if_pos hc]
  exact State.ctx_updCtx_same (x := x) hx

theorem Aside.charge (s : State) (p : PRec) (g : Region) : Aside (s.counted p) (s.charge p g) := by
  unfold State.charge
  dsimp only
  split
  · split
    · exact ⟨rfl⟩
    · exact Aside.cancelFill ..
  · exact ⟨rfl⟩

theorem State.mem_fills_of_fillOfGang {s : State} {n : Nat} {f : Fill} (hf : s.fillOfGang n = some f) :
    f ∈ s.dies.fills ∧ f.cancelled = false := by
  obtain ⟨_, -, hm⟩ := Option.bind_eq_some_iff.mp hf
  refine ⟨List.mem_of_find?_eq_some hm, ?_⟩
  have := List.find?_some hm
  simp only [Bool.and_eq_true, Bool.not_eq_true'] at this
  exact this.2

/-- A fault of a generator gang cancels its fill (R362). -/
theorem State.charge_fill {s : State} {p : PRec} {g : Region} {f : Fill} (hf : s.fillOfGang g.gang = some f) (h6 : p.rcd.cls ≠ 6)
    (hE : p.rcd.cls ≠ 0x0E) : ∃ h ∈ (s.charge p g).dies.fills, fillKey h = fillKey f ∧ h.cancelled = true ∧ h.cause = p.rcd.cls ∧
      h.cls = if p.rcd.cls = 9 ∨ p.rcd.cls = 0x0A then p.rcd.cls else 8 := by
  have hf' : (s.counted p).fillOfGang g.gang = some f := by rw [State.counted_rest]; exact hf
  have hn : ¬(p.rcd.cls = 6 ∨ p.rcd.cls = 0x0E) := fun h => h.elim h6 hE
  simp only [State.charge, hf', hn, if_false]
  obtain ⟨hm, hc⟩ := State.mem_fills_of_fillOfGang hf'
  exact State.cancelFill_spec hm hc _ _ _

theorem State.afterPost_of_region {s : State} {id : Nat} {p : PRec} {g : Region} (hg : s.region p.ctx.region = some g)
    (hl : g.lease = p.rcd.lease) (he : p.ctx.el < 65536) : s.afterPost id p = (s.posted id p).charge p g := by
  rw [State.afterPost, State.recRegion_some_iff.mpr ⟨hg, hl, he⟩]; rfl

/-- Whatever the record does in its region, queues, numbers and elements are as it has been posted. -/
theorem State.afterPost_rest (s : State) (id : Nat) (p : PRec) :
    (s.afterPost id p).fab = { (s.posted id p).fab with reqs := (s.afterPost id p).fab.reqs } ∧
    (s.afterPost id p).cores = (s.posted id p).cores := by
  unfold State.afterPost
  cases s.recRegion p with
  | none => exact ⟨rfl, rfl⟩
  | some g =>
    have ha := (Aside.charge (s.posted id p) p g).rest
    have hc := State.counted_rest (s.posted id p) p
    simp only [Option.map_some, Option.getD_some]
    generalize (s.posted id p).charge p g = t at ha ⊢
    generalize (s.posted id p).counted p = u at ha hc
    rw [ha, hc]
    exact ⟨rfl, rfl⟩

theorem State.afterPost_elem (s : State) (id : Nat) (p : PRec) (e : Nat) : (s.afterPost id p).elem e = (s.elem e).mapFreeze (Freeze.post id) := by
  rw [← State.posted_elem s id p e, State.elem, (s.afterPost_rest id p).1]; rfl

end Sys2Proof.Machine
end

section
/-!
PROOFS. Region stalled and starvation (R191, R192), and what becomes of fault records.
-/
namespace Sys2Proof.Machine

-- Region stalled and starvation.

theorem execRegionStalled_eq {s : State} {r : Nat} {g : Region} {b : Blocker} {rest : List Blocker} (hg : s.region r = some g)
    (hb : s.blockers r g = b :: rest) (ht : 2 ^ s.dlx r ≤ g.stall) (hs : g.stalled = false) :
    ∃ rcd : Rec, execRegionStalled r s = .next (((({ s with free := s.free + 1 } : State).updRegion r fun g => { g with stalled := true }).updRreg r
        fun q => { q with stall := true }).giveRec b.ctx (coreOf r) (s.fringOf g.gang) [] rcd) ∧
      rcd.cls = 6 ∧ rcd.lease = g.lease ∧ rcd.inst = g.inst ∧ rcd.tx = b.ctx.el / 16 % 8 ∧ rcd.ty = b.ctx.el / 16 / 8 % 16 ∧
      rcd.exy = b.ctx.el % 16 ∧ rcd.word = b.word := by
  have hn : ¬(g.stall < 2 ^ s.dlx r ∨ g.stalled = true) := by simp [hs, Nat.not_lt.mpr ht]
  simp only [execRegionStalled, hg, hb, hn, if_false]
  exact ⟨_, rfl, rfl, rfl, rfl, rfl, rfl, rfl, rfl⟩

/-- The record of starvation at a slot (R192). -/
def State.starveRec (s : State) (c : CtxId) (slot : Nat) (x : Ctx) : Rec :=
  let r := s.mkRec (s.origin { ctx := c, slot } x.isRounded) 0x0D (natLe 2 0xFFFE)
  { r with flags := r.flags + 0x10 }

/-- STARVE is set, and the slot's count begins anew (R192). -/
def State.starved (s : State) (c : CtxId) (slot : Nat) : State :=
  (s.updRreg c.region fun q => { q with starve := true }).updCtx c fun x => { x with starv := x.starv.set slot (2 ^ 24 + 1) }

theorem State.starved_region {s : State} {c : CtxId} {slot : Nat} {g : Region} (hg : s.region c.region = some g) :
    ∃ h, (s.starved c slot).region c.region = some h ∧ h.lease = g.lease ∧ SameChains g h :=
  ⟨_, State.region_updRegion_same (s := s.updRreg c.region fun q => { q with starve := true }) hg, rfl, SameChains.updCtx g _ _ fun _ => rfl⟩

theorem State.starved_rreg (s : State) (c : CtxId) (slot : Nat) :
    (s.starved c slot).rreg c.region = { s.rreg c.region with starve := true } :=
  s.rreg_updRreg_same c.region fun q => { q with starve := true }

theorem State.starved_ctx {s : State} {c : CtxId} (slot : Nat) {x : Ctx} (hx : s.ctx c = some x) :
    (s.starved c slot).ctx c = some { x with starv := x.starv.set slot (2 ^ 24 + 1) } :=
  State.ctx_updCtx_same (s := s.updRreg c.region fun q => { q with starve := true }) (x := x) hx

/-- The record as a rounded context holds it: with the flag of a chain (R189). -/
def Region.roundedRec (g : Region) (x : Ctx) (r : Rec) : Rec := if 1 < (g.chainOf x.el x.k).length then { r with flags := r.flags + 4 } else r

theorem Region.roundedRec_eq (g : Region) (x : Ctx) (r : Rec) : g.roundedRec x r = { r with flags := (g.roundedRec x r).flags } := by
  unfold Region.roundedRec
  split <;> rfl

theorem execStarvation_eq {s : State} {c : CtxId} {slot : Nat} {g : Region} {x : Ctx} (hg : s.region c.region = some g)
    (hx : s.ctx c = some x) (hs : x.starv.getD slot 0 = 2 ^ s.svx c.region) : execStarvation c slot s = .next (
    let u := s.starved c slot
    if !(s.rreg c.region).dlcfg.getLsbD 16 then u
    else if x.isRounded then u.updCtx c fun y => { y with traps := y.traps ++ [g.roundedRec x (u.starveRec c slot x)] }
    else u.freezeFor c (u.starveRec c slot x)) := by
  have hd : ((s.starved c slot).rreg c.region).dlcfg = (s.rreg c.region).dlcfg := by rw [State.starved_rreg]
  rw [← hd]
  simp only [execStarvation, hg, hx, hs, ne_eq, not_true, if_false]
  rfl

/-- What the record of starvation says (R192). -/
theorem State.starveRec_spec {u : State} {c : CtxId} {slot : Nat} {x : Ctx} {h : Region} (hh : u.region c.region = some h) :
    let r := u.starveRec c slot x
    r.cls = 0x0D ∧ r.info = [0xFE#8, 0xFF#8] ∧ r.tx = c.el / 16 % 8 ∧ r.ty = c.el / 16 / 8 % 16 ∧ r.exy = c.el % 16 ∧
      r.ks = c.k + 16 * slot ∧ r.lease = h.lease := by
  have hl : (u.starveRec c slot x).lease = h.lease := by simp only [State.starveRec, State.mkRec, State.origin, hh]
  have hc : (u.origin { ctx := c, slot } x.isRounded).ctx = c := by simp only [State.origin, hh]
  have ho : (u.origin { ctx := c, slot } x.isRounded).slot = slot := by simp only [State.origin, hh]
  refine ⟨rfl, rfl, ?_, ?_, ?_, ?_, hl⟩
  · exact congrArg recTx hc
  · exact congrArg recTy hc
  · exact congrArg recExy hc
  · exact congrArg₂ recKs hc ho


section
variable {s : State} {c : CtxId} {slot : Nat} {g : Region} {x : Ctx} (hg : s.region c.region = some g)
  (hx : s.ctx c = some x) (hs : x.starv.getD slot 0 = 2 ^ s.svx c.region)
include hg hx hs

theorem execStarvation_quiet (hd : (s.rreg c.region).dlcfg.getLsbD 16 = false) : execStarvation c slot s = .next (s.starved c slot) := by
  rw [execStarvation_eq hg hx hs, hd]; rfl

theorem execStarvation_direct (hd : (s.rreg c.region).dlcfg.getLsbD 16 = true) (hr : x.isRounded = false) :
    execStarvation c slot s = .next ((s.starved c slot).freezeFor c ((s.starved c slot).starveRec c slot x)) := by
  rw [execStarvation_eq hg hx hs, hd, hr]; rfl

theorem execStarvation_rounded (hd : (s.rreg c.region).dlcfg.getLsbD 16 = true) (hr : x.isRounded = true) :
    execStarvation c slot s = .next ((s.starved c slot).updCtx c fun y =>
      { y with traps := y.traps ++ [g.roundedRec x ((s.starved c slot).starveRec c slot x)] }) := by
  rw [execStarvation_eq hg hx hs, hd, hr]; rfl

end

/-- Settles O47, clause by clause: posting, bytes, forwarding, messages, region stalled and starvation each have their lemmas above. -/
theorem faultRecords : Obligations.FaultRecords := by
  unfold Obligations.FaultRecords
  refine fun s => ⟨fun id p hp => ?_, fun r => ?_, fun id q hq hc => ?_, fun ring m hm => ?_, fun r g b rest hg hb ht hs => ?_,
    fun c slot g x hg hx _ hs => ?_⟩
  · have he := execFaultRecordPost_eq hp
    dsimp only
    rw [← State.postable_eq_false_iff]
    refine ⟨fun h => he.trans (by rw [if_pos h]), fun h => ⟨s.afterPost id p, s.postedRec p, he.trans (by rw [if_neg h]), rfl, ?_⟩⟩
    obtain ⟨hf, hco⟩ := s.afterPost_rest id p
    refine ⟨by rw [hf]; rfl, by rw [hf]; rfl, fun k => by rw [hco]; exact s.posted_seqs id p k, fun e => ?_, fun e => ?_, fun g hg hl hel => ?_⟩
    · rw [s.afterPost_elem]
      exact Elem.freezes_mapFreeze _ fun _ => Freeze.post_ne_no id
    · rw [s.afterPost_elem]
      exact Elem.withFreezes_eq ..
    · rw [State.afterPost_of_region hg hl hel]
      have ha := (Aside.charge (s.posted id p) p g).rest
      refine ⟨?_, fun hcls x hx => ?_, fun f hfill h6 hE _ => State.charge_fill (s := s.posted id p) hfill h6 hE⟩
      · rw [ha]
        exact State.counted_fqcnt (s.posted id p) p
      · rw [ha]
        exact State.counted_trapped (s := s.posted id p) hcls hx
  · exact ⟨r.bytes_length, fun _ _ _ h => r.field_value h, fun _ h => r.bytes_info h⟩
  · dsimp only
    intro i hi
    have hid : q.id = id := find?_id_eq hq
    have he : exec i s = .next (s.tryForward id) := by rcases hi with rfl | rfl <;> rfl
    have hroom := s.ringRoom_iff q.ring
    refine ⟨fun h => ?_, fun hb ha hm hen => ⟨fun hnf hsl hdj => ?_, fun hf hw => ?_⟩⟩
    · rw [he, State.tryForward_held hq hc]
      exact h.imp_right (Or.imp_right fun h => ⟨fun hr => hroom.mp hr h.1, h.2⟩)
    · refine ⟨s.forward q, he.trans ?_, ?_⟩
      · rw [State.tryForward_eq hq hc, hb, ha, hroom.mpr hnf]
        rfl
      · rw [← hid]
        exact State.forward_spec hm hen hsl hdj
    · exact ⟨_, he, State.tryForward_full hq hc hm hen hb ha (fun hr => hroom.mp hr hf) hw⟩
  · have he : exec (.msixCoalesceDeadline ring) s = execMsixCoalesceDeadline ring s := rfl
    refine ⟨fun h => ?_, fun h => ?_⟩
    · simp only [he, execMsixCoalesceDeadline, hm, h, Bool.not_false, if_true]
    · simp only [he, execMsixCoalesceDeadline, hm, h, Bool.not_true, Bool.false_eq_true, if_false]
  · obtain ⟨rcd, he, hr⟩ := execRegionStalled_eq hg hb ht hs
    refine ⟨_, _, he, rfl, rfl, ?_, ?_, rfl, rfl, hr⟩
    · exact State.region_updRegion_same (s := { s with free := s.free + 1 }) (f := fun g => { g with stalled := true }) hg
    · exact s.rreg_updRreg_same r fun q => { q with stall := true }
  · have hc : s.ctx c = some x := by rw [State.ctx, hg]; exact hx
    obtain ⟨h, hh, hl, hsame⟩ := State.starved_region (slot := slot) hg
    have hrec := State.starveRec_spec (slot := slot) (x := x) hh
    rw [hl] at hrec
    have hrr := State.starved_rreg s c slot
    cases hd : (s.rreg c.region).dlcfg.getLsbD 16 with
    | false => exact ⟨_, execStarvation_quiet hg hc hs hd, hrr, rfl, fun _ => rfl, fun h => Bool.noConfusion h⟩
    | true =>
      cases hr : x.isRounded with
      | false =>
        obtain ⟨q, hq⟩ := State.freezeBy_spec hh .waiting ((s.starved c slot).starveRec c slot x)
        have hq := hq.of_sameChains hsame
        obtain ⟨fl, hfl⟩ := hq.rcd
        refine ⟨_, execStarvation_direct hg hc hs hd hr, ?_, ?_, fun h => Bool.noConfusion h,
          fun _ => ⟨fun _ => ⟨q, ?_, hq.ctx, ?_, ?_⟩, fun h => Bool.noConfusion h⟩⟩
        · rw [State.freezeFor, hq.rest]; exact hrr
        · rw [State.freezeFor, hq.rest]; rfl
        · rw [State.freezeFor, hq.rest]; rfl
        · rw [hfl]; exact hrec
        · rw [hq.id]; exact hq.frozen
      | true =>
        refine ⟨_, execStarvation_rounded hg hc hs hd hr, hrr, rfl, fun h => Bool.noConfusion h,
          fun _ => ⟨fun h => Bool.noConfusion h, fun _ => ⟨rfl, _, _, State.ctx_updCtx_same (State.starved_ctx slot hc), rfl, ?_⟩⟩⟩
        rw [Region.roundedRec_eq]
        exact hrec

end Sys2Proof.Machine
end

section
/-!
SUPPORT. The words of a rule as fields: a word is what encodes to it exactly where its fields are the codes (R50 to R52).
-/

namespace Sys2Proof

-- Fields of a word.

theorem extractLsb'_eq_field (w : Word) (lo n : Nat) : w.extractLsb' lo n = field n lo w := rfl

theorem toNat_field (n lo : Nat) (w : Word) : (field n lo w).toNat = w.toNat / 2 ^ lo % 2 ^ n := by
  rw [field, BitVec.extractLsb'_toNat, Nat.shiftRight_eq_div_pow]

/-- A field of a field is a field of the word. -/
theorem extractLsb'_field (w : Word) {lo n k m : Nat} (h : k + m ≤ n) : (field n lo w).extractLsb' k m = field m (lo + k) w := by
  ext i hi
  have hn : k + i < n := by omega
  simp [field, hn, Nat.add_assoc]

theorem ofBool_eq_field_iff (w : Word) (n : Nat) (b : Bool) : BitVec.ofBool b = field 1 n w ↔ b = w.getLsbD n := by
  rw [BitVec.eq_of_getElem_eq_iff]
  simp [field]

/-- Two parts joined are a word exactly where they are its high and its low field. -/
theorem append_eq_iff (m n : Nat) {a : BitVec m} {b : BitVec n} {w : BitVec (m + n)} :
    a ++ b = w ↔ a = w.extractLsb' n m ∧ b = w.extractLsb' 0 n := by
  constructor
  · rintro rfl
    exact ⟨BitVec.extractLsb'_append_eq_left.symm, BitVec.extractLsb'_append_eq_right.symm⟩
  · rintro ⟨rfl, rfl⟩
    rw [BitVec.extractLsb'_append_extractLsb'_eq_extractLsb' (Nat.zero_add n).symm, BitVec.extractLsb'_eq_self]

/-- An optional field and its presence bit: the field is zero where the bit is clear. -/
theorem optional_eq_iff {n : Nat} (d : Option (BitVec n)) (b : Bool) (x : BitVec n) :
    d.isSome = b ∧ d.getD 0#n = x ↔ d = (if b then some x else none) ∧ (b = false → x = 0#n) := by
  cases d <;> cases b <;> simp
  exact eq_comm

-- The codes of W0 and of the sources (R50, R54).

theorem encSrc_eq_iff (b : BitVec 4) (x : Src) : encSrc x = b ↔ x = decSrc b := by
  have h : ∀ b, encSrc (decSrc b) = b := by decide
  have h' : decSrc (encSrc x) = x := by
    cases x
    case chan n => revert n; decide
    case reg n => revert n; decide
    all_goals rfl
  exact ⟨fun e => e ▸ h'.symm, fun e => e ▸ h b⟩

theorem encChanCond_eq_iff (b : BitVec 2) (x : ChanCond) : encChanCond x = b ↔ x = decChanCond b := by
  revert b; cases x <;> decide

theorem decKind_eq_some_iff (b : BitVec 3) (x : Kind) : decKind b = some x ↔ encKind x = b := by
  revert b; cases x <;> decide

theorem decKind_eq_none {b : BitVec 3} (h : 4 ≤ b.toNat) : decKind b = none := by
  revert b
  decide

-- The three words (R50 to R52).

theorem encW1_eq_iff (p : BitVec 7 × BitVec 5 × BitVec 4) (r : Rule) (w : Word) : encW1 p r = w ↔
    p = (field 7 25 w, field 5 20 w, field 4 0 w) ∧ r.a = decSrc (field 4 16 w) ∧ r.b = decSrc (field 4 12 w) ∧
      r.c = decSrc (field 4 8 w) ∧ r.dq = field 4 4 w := by
  rw [encW1, append_eq_iff 28 4, append_eq_iff 24 4, append_eq_iff 20 4, append_eq_iff 16 4, append_eq_iff 12 4,
    append_eq_iff 7 5]
  simp (disch := decide) only [extractLsb'_eq_field, extractLsb'_field, encSrc_eq_iff, Nat.add_zero, Nat.reduceAdd]
  simp only [Prod.ext_iff]
  tauto

theorem encW2_eq_iff (r : Rule) (w : Word) : encW2 r = w ↔
    r.om = field 8 24 w ∧ encDest r.dst = field 4 20 w ∧ encDest r.pdst = field 4 16 w ∧ r.imm = field 16 0 w := by
  rw [encW2, append_eq_iff 16 16, append_eq_iff 12 4, append_eq_iff 8 4]
  simp (disch := decide) only [extractLsb'_eq_field, extractLsb'_field, Nat.add_zero, Nat.reduceAdd, and_assoc]

theorem encDest_eq_iff (w : Word) (n : Nat) (d : Option (BitVec 3)) : encDest d = field 4 n w ↔
    d = (if w.getLsbD (n + 3) then some (field 3 n w) else none) ∧ (w.getLsbD (n + 3) = false → field 3 n w = 0#3) := by
  rw [encDest, append_eq_iff 1 3, extractLsb'_field w (by decide), extractLsb'_field w (by decide), ofBool_eq_field_iff]
  exact optional_eq_iff d _ _

/-- The guard that W0 holds, of the given kind (R50). -/
def readGuard (w0 : Word) (kind : Kind) : Guard where
  pm := field 8 24 w0
  pv := field 8 16 w0
  c0 := decChanCond (field 2 8 w0)
  c1 := decChanCond (field 2 10 w0)
  c2 := decChanCond (field 2 12 w0)
  c3 := decChanCond (field 2 14 w0)
  colour := if w0.getLsbD 3 then some (field 4 4 w0) else none
  kind := kind

theorem decGuard_eq_some_iff_readGuard (w : Word) (g : Guard) : decGuard w = some g ↔
    decKind (field 3 0 w) = some g.kind ∧ (w.getLsbD 3 = false → field 4 4 w = 0#4) ∧ g = readGuard w g.kind := by
  unfold decGuard
  cases decKind (field 3 0 w) with
  | none => simp
  | some k =>
    change (if _ then none else some (readGuard w k)) = some g ↔ _
    simp only [Option.ite_none_left_eq_some, Bool.and_eq_true, Bool.not_eq_true', bne_iff_ne, not_and, not_not,
      Option.some.injEq]
    constructor
    · rintro ⟨hz, rfl⟩
      exact ⟨rfl, hz, rfl⟩
    · rintro ⟨rfl, hz, hg⟩
      exact ⟨hz, hg.symm⟩

theorem encGuard_eq_iff (w : Word) (g : Guard) : encGuard g = w ↔
    encKind g.kind = field 3 0 w ∧ (w.getLsbD 3 = false → field 4 4 w = 0#4) ∧ g = readGuard w g.kind := by
  rw [encGuard, append_eq_iff 29 3, append_eq_iff 28 1, append_eq_iff 24 4, append_eq_iff 22 2, append_eq_iff 20 2,
    append_eq_iff 18 2, append_eq_iff 16 2, append_eq_iff 8 8]
  simp (disch := decide) only [extractLsb'_eq_field, extractLsb'_field, encChanCond_eq_iff, ofBool_eq_field_iff, Nat.add_zero,
    Nat.reduceAdd]
  have hc := optional_eq_iff g.colour (w.getLsbD 3) (field 4 4 w)
  cases g
  simp only [readGuard, Guard.mk.injEq]
  tauto

/-- The guard word: what decodes is what encodes to it (R50). -/
theorem decGuard_eq_some_iff (w : Word) (g : Guard) : decGuard w = some g ↔ encGuard g = w := by
  rw [decGuard_eq_some_iff_readGuard, encGuard_eq_iff, decKind_eq_some_iff]

theorem decGuard_eq_none_of_kind {w0 : Word} (h : 4 ≤ w0.toNat % 8) : decGuard w0 = none := by
  have hk : decKind (field 3 0 w0) = none := decKind_eq_none (by simpa [toNat_field] using h)
  simp only [decGuard, hk]

theorem decGuard_eq_none_of_colour {w0 : Word} (hce : w0.getLsbD 3 = false) (hct : w0.toNat / 16 % 16 ≠ 0) : decGuard w0 = none := by
  rw [Option.eq_none_iff_forall_ne_some]
  intro g hg
  obtain ⟨-, hz, -⟩ := (decGuard_eq_some_iff_readGuard w0 g).mp hg
  have h0 : (field 4 4 w0).toNat = 0 := congrArg BitVec.toNat (hz hce)
  rw [toNat_field] at h0
  exact hct h0

/-- The rule that W1 and W2 hold besides the operation, under a guard (R51, R52). -/
def readRule (guard : Guard) (w1 w2 : Word) : Rule where
  guard := guard
  a := decSrc (field 4 16 w1)
  b := decSrc (field 4 12 w1)
  c := decSrc (field 4 8 w1)
  dq := field 4 4 w1
  om := field 8 24 w2
  dst := if w2.getLsbD 23 then some (field 3 20 w2) else none
  pdst := if w2.getLsbD 19 then some (field 3 16 w2) else none
  imm := field 16 0 w2

/-- OPC, FN and TY of an operation word (R51). -/
def readOp (w1 : Word) : BitVec 7 × BitVec 5 × BitVec 4 := (field 7 25 w1, field 5 20 w1, field 4 0 w1)

/-- The numbers of absent destinations are zero (R52, R58). -/
def AbsentZero (w2 : Word) : Prop :=
  (w2.getLsbD 23 = false → field 3 20 w2 = 0#3) ∧ (w2.getLsbD 19 = false → field 3 16 w2 = 0#3)

/-- A rule's words are those that the rule is read from. -/
theorem words_eq_iff (p : BitVec 7 × BitVec 5 × BitVec 4) (r : Rule) (w1 w2 : Word) :
    encW1 p r = w1 ∧ encW2 r = w2 ↔ p = readOp w1 ∧ r = readRule r.guard w1 w2 ∧ AbsentZero w2 := by
  rw [encW1_eq_iff, encW2_eq_iff, encDest_eq_iff, encDest_eq_iff]
  cases r
  simp only [readOp, readRule, AbsentZero, Rule.mk.injEq]
  tauto

end Sys2Proof
end

section
/-!
SUPPORT. The opcode map and the codes of each instruction, inverse to each other (R57, R62 to R69).
-/

namespace Sys2Proof

-- The codes of types and functions: each decodes to the value that it is the code of, and to no other (R57, R63 to R69).

theorem decTy_eq_some_iff (b : BitVec 4) (t : Ty) : decTy b = some t ↔ encTy t = b := by
  revert b; cases t <;> decide

theorem flag_eq_some_iff (b : BitVec 5) (x : Bool) : flag b.toNat = some x ↔ (BitVec.ofBool x).setWidth 5 = b := by
  revert b; cases x <;> decide

theorem not_flag_eq_some_iff (b : BitVec 5) (x : Bool) :
    (flag b.toNat).map not = some x ↔ (BitVec.ofBool !x).setWidth 5 = b := by
  revert b; cases x <;> decide

theorem predFn_eq_some_iff (b : BitVec 5) (p : BitVec 3) : predFn b.toNat = some p ↔ p.setWidth 5 = b := by
  revert p b; decide

theorem zeroFn_eq_some_iff (b : BitVec 5) (x : Unit) : zeroFn b.toNat = some x ↔ 0#5 = b := by
  revert b; cases x; decide

theorem decRnd_eq_some_iff (b : BitVec 5) (m : Rnd) : decRnd b = some m ↔ encRnd m = b := by
  obtain ⟨m, s⟩ := m
  revert b; cases s <;> cases m <;> decide

theorem decSize_eq_some_iff (b : BitVec 5) (x : Size) : decSize b.toNat = some x ↔ encSize x = b := by
  revert b; cases x <;> decide

theorem decICond_eq_some_iff (b : BitVec 5) (x : ICond) : decICond b.toNat = some x ↔ encICond x = b := by
  revert b; cases x <;> decide

theorem decFCond_eq_some_iff (b : BitVec 5) (x : FCond) : decFCond b.toNat = some x ↔ encFCond x = b := by
  revert b; cases x <;> decide

theorem decPFn_eq_some_iff (b : BitVec 5) (x : PFn) : decPFn b.toNat = some x ↔ encPFn x = b := by
  revert b; cases x <;> decide

theorem decSfu_eq_some_iff (b : BitVec 5) (x : SfuFn) : decSfu b.toNat = some x ↔ encSfu x = b := by
  revert b; cases x <;> decide

theorem decSgn_eq_some_iff (b : BitVec 5) (x : SgnFn) : decSgn b.toNat = some x ↔ encSgn x = b := by
  revert b; cases x <;> decide

theorem decShuf_eq_some_iff (b : BitVec 5) (x : ShufFn) : decShuf b.toNat = some x ↔ encShuf x = b := by
  revert b; cases x <;> decide

theorem decTex_eq_some_iff (b : BitVec 5) (x : TexFn) : decTex b.toNat = some x ↔ encTex x = b := by
  revert b; cases x <;> decide

theorem decColl_eq_some_iff (b : BitVec 5) (x : CollFn) : decColl b.toNat = some x ↔ encColl x = b := by
  revert b; cases x <;> decide

/-- The sizes of LD's speculative forms (R68). -/
theorem decSizeS_eq_some_iff {b : BitVec 5} (h : ¬b.toNat < 4) (x : Size) :
    decSize (b.toNat - 4) = some x ↔ encSize x + 4#5 = b := by
  revert b; cases x <;> decide

/-- The number of the parameter word that AGSET writes (R68). -/
theorem agsetFn_iff (b : BitVec 5) (n : BitVec 4) : b.toNat < 16 ∧ BitVec.ofNat 4 b.toNat = n ↔ n.setWidth 5 = b := by
  revert n b; decide

/-- The function of FCVT: its destination type under its saturation bit (R66). -/
theorem fcvtFn_iff (b : BitVec 5) (sat : Bool) (d : Ty) :
    decTy (b.setWidth 4) = some d ∧ b.getLsbD 4 = sat ↔ BitVec.ofBool sat ++ encTy d = b := by
  revert b; cases sat <;> cases d <;> decide

-- What the rows of the map answer.

/-- `op` builds the rule instructions of one opcode, function and type. -/
def Builds (o : Nat) (fn : BitVec 5) (ty : BitVec 4) (op : Rule → Instr) : Prop :=
  ∀ r, (op r).op = (BitVec.ofNat 7 o, fn, ty) ∧ ∃ f, (op r).form = some (f, r)

/-- Whatever a row of the opcode map answers builds the instructions of the codes that the row was read with. -/
def Reads (o f : Nat) (ty : BitVec 4) (d : Option (Rule → Instr)) : Prop :=
  ∀ op, d = some op → Builds o (BitVec.ofNat 5 f) ty op

section
variable {o f : Nat} {fn : BitVec 5} {ty : BitVec 4} {α : Type} {d : Option α} {enc : α → BitVec 5}

theorem reads_none : Reads o f ty none := nofun

theorem reads_some {i : Rule → Instr} (h : Builds o (BitVec.ofNat 5 f) ty i) : Reads o f ty (some i) := by
  rintro _ ⟨⟩
  exact h

/-- A row that answers one operation, whose codes are those read. -/
theorem reads_coded {fn' : BitVec 5} {ty' : BitVec 4} {i : Rule → Instr} (hf : fn' = fn) (ht : ty' = ty)
    (h : Builds o fn' ty' i) : Reads o fn.toNat ty (some i) := by
  subst hf ht
  exact reads_some (by rwa [BitVec.ofNat_toNat, BitVec.setWidth_eq])

theorem reads_ite {p : Prop} [Decidable p] {d : Option (Rule → Instr)} (h : p → Reads o f ty d) :
    Reads o f ty (if p then d else none) := by
  split
  case isTrue hp => exact h hp
  case isFalse => exact reads_none

/-- A row without a type. -/
theorem reads_bare {d : Option (Rule → Instr)} (h : Reads o f 0 d) : Reads o f ty (if ty.toNat = 0 then d else none) :=
  reads_ite fun ht => BitVec.eq_of_toNat_eq (x := ty) (y := 0#4) ht ▸ h

/-- A row of type f32 alone. -/
theorem reads_f32 {d : Option (Rule → Instr)} (h : Reads o f 6 d) :
    Reads o f ty (if decTy ty = some .f32 then d else none) :=
  reads_ite fun ht => (decTy_eq_some_iff ty .f32).mp ht ▸ h

theorem reads_mapFn {i : α → Rule → Instr} (hd : ∀ x, d = some x ↔ enc x = fn) (h : ∀ x, Builds o (enc x) ty (i x)) :
    Reads o fn.toNat ty (d.map i) := by
  cases d with
  | none => exact reads_none
  | some x => exact reads_coded ((hd x).mp rfl) rfl (h x)

theorem reads_mapTy {i : Ty → Rule → Instr} (h : ∀ t, Builds o (BitVec.ofNat 5 f) (encTy t) (i t)) :
    Reads o f ty ((decTy ty).map i) := by
  cases ht : decTy ty with
  | none => exact reads_none
  | some t => exact (decTy_eq_some_iff ty t).mp ht ▸ reads_some (h t)

theorem reads_only {i : Rule → Instr} (h : Builds o 0 0 i) : Reads o fn.toNat ty (only fn.toNat ty.toNat i) :=
  reads_ite fun ⟨hf, ht⟩ =>
    reads_coded (BitVec.eq_of_toNat_eq (x := 0#5) hf.symm) (BitVec.eq_of_toNat_eq (x := 0#4) ht.symm) h

theorem reads_untyped {i : α → Rule → Instr} (hd : ∀ x, d = some x ↔ enc x = fn) (h : ∀ x, Builds o (enc x) 0 (i x)) :
    Reads o fn.toNat ty (untyped ty.toNat d i) :=
  reads_bare (reads_mapFn hd h)

theorem reads_typed {i : α → Ty → Rule → Instr} (hd : ∀ x, d = some x ↔ enc x = fn)
    (h : ∀ x t, Builds o (enc x) (encTy t) (i x t)) : Reads o fn.toNat ty (typed (decTy ty) d i) := by
  unfold typed
  split
  next t x ht => exact reads_coded ((hd x).mp rfl) ((decTy_eq_some_iff ty t).mp ht) (h x t)
  next => exact reads_none

end

/-- Every row of the opcode map reads the codes it is listed under (R62 to R69). Case `h_n` is the row of
opcode `n - 1`. -/
theorem reads_decOp (o : BitVec 7) (fn : BitVec 5) (ty : BitVec 4) : Reads o.toNat fn.toNat ty (decOp o fn ty) := by
  unfold decOp
  dsimp only
  generalize o.toNat = o
  split
  -- Rows with one function and no type.
  case h_1 | h_2 | h_3 | h_13 | h_14 | h_15 | h_16 | h_17 | h_18 | h_19 | h_20 | h_21 | h_22 | h_23 | h_25 | h_28 | h_30
      | h_33 | h_34 | h_36 | h_42 | h_45 | h_46 | h_47 | h_48 | h_68 | h_71 | h_78 | h_79 | h_81 | h_83 | h_84 | h_87 | h_89
      | h_90 | h_93 | h_95 => exact reads_only fun _ => ⟨rfl, _, rfl⟩
  -- Rows with a function and no type; in the second group the function's bit chooses between two instructions.
  case h_24 | h_38 | h_41 | h_70 => exact reads_untyped (flag_eq_some_iff fn) fun _ _ => ⟨rfl, _, rfl⟩
  case h_31 | h_37 | h_69 | h_74 | h_75 | h_82 | h_85 | h_88 | h_96 =>
    exact reads_untyped (flag_eq_some_iff fn) fun
      | false, _ => ⟨rfl, _, rfl⟩
      | true, _ => ⟨rfl, _, rfl⟩
  case h_35 => exact reads_untyped (not_flag_eq_some_iff fn) fun _ _ => ⟨rfl, _, rfl⟩
  case h_4 => exact reads_untyped (predFn_eq_some_iff fn) fun _ _ => ⟨rfl, _, rfl⟩
  case h_27 => exact reads_untyped (decPFn_eq_some_iff fn) fun _ _ => ⟨rfl, _, rfl⟩
  case h_43 => exact reads_untyped (decShuf_eq_some_iff fn) fun _ _ => ⟨rfl, _, rfl⟩
  case h_66 | h_73 => exact reads_untyped (decSize_eq_some_iff fn) fun _ _ => ⟨rfl, _, rfl⟩
  case h_80 => exact reads_untyped (decTex_eq_some_iff fn) fun _ _ => ⟨rfl, _, rfl⟩
  case h_94 => exact reads_untyped (decColl_eq_some_iff fn) fun _ _ => ⟨rfl, _, rfl⟩
  -- Rows with a function and a type.
  case h_5 | h_6 | h_7 | h_8 | h_11 | h_29 | h_32 | h_53 | h_54 =>
    exact reads_typed (flag_eq_some_iff fn) fun _ _ _ => ⟨rfl, _, rfl⟩
  case h_64 => exact reads_typed (flag_eq_some_iff fn) fun
      | false, _, _ => ⟨rfl, _, rfl⟩
      | true, _, _ => ⟨rfl, _, rfl⟩
  case h_9 | h_10 | h_40 | h_60 => exact reads_typed (zeroFn_eq_some_iff fn) fun _ _ _ => ⟨rfl, _, rfl⟩
  case h_12 => exact reads_typed (predFn_eq_some_iff fn) fun _ _ _ => ⟨rfl, _, rfl⟩
  case h_26 => exact reads_typed (decICond_eq_some_iff fn) fun _ _ _ => ⟨rfl, _, rfl⟩
  case h_49 | h_50 | h_51 | h_52 | h_58 | h_61 => exact reads_typed (decRnd_eq_some_iff fn) fun _ _ _ => ⟨rfl, _, rfl⟩
  case h_55 => exact reads_typed (decSgn_eq_some_iff fn) fun _ _ _ => ⟨rfl, _, rfl⟩
  case h_56 => exact reads_typed (decFCond_eq_some_iff fn) fun _ _ _ => ⟨rfl, _, rfl⟩
  case h_72 => exact reads_typed (decSize_eq_some_iff fn) fun _ _ _ => ⟨rfl, _, rfl⟩
  -- PACK, TRED and the atomics: some of their functions take a type.
  case h_39 | h_44 | h_67 =>
    generalize fn.toNat = f
    split
    any_goals exact reads_mapTy fun _ _ => ⟨rfl, _, rfl⟩
    any_goals exact reads_bare (reads_some fun _ => ⟨rfl, _, rfl⟩)
    exact reads_none
  -- AGCTL, the barriers, PFILL and ISECT: each function is an instruction of its own.
  case h_77 | h_86 | h_91 | h_92 =>
    refine reads_bare ?_
    generalize fn.toNat = f
    split
    any_goals exact reads_some fun _ => ⟨rfl, _, rfl⟩
    exact reads_none
  -- FCVT.
  case h_57 =>
    split
    next s d hs hd =>
      exact reads_coded ((fcvtFn_iff fn _ d).mp ⟨hd, rfl⟩) ((decTy_eq_some_iff ty s).mp hs) fun _ => ⟨rfl, _, rfl⟩
    next => exact reads_none
  -- FSFU.
  case h_59 => exact reads_f32 (reads_mapFn (decSfu_eq_some_iff fn) fun _ _ => ⟨rfl, _, rfl⟩)
  -- FRND, which cannot saturate.
  case h_62 =>
    split
    next t m ht hm =>
      obtain ⟨mode, sat⟩ := m
      cases sat with
      | true => exact reads_none
      | false => exact reads_coded ((decRnd_eq_some_iff fn _).mp hm) ((decTy_eq_some_iff ty t).mp ht) fun _ => ⟨rfl, _, rfl⟩
    next => exact reads_none
  -- FLRP.
  case h_63 => exact reads_f32 (reads_mapFn (decRnd_eq_some_iff fn) fun _ _ => ⟨rfl, _, rfl⟩)
  -- LD.
  case h_65 =>
    split
    · exact reads_typed (decSize_eq_some_iff fn) fun _ _ _ => ⟨rfl, _, rfl⟩
    next h => exact reads_typed (decSizeS_eq_some_iff h) fun _ _ _ => ⟨rfl, _, rfl⟩
  -- AGSET.
  case h_76 =>
    exact reads_ite fun ⟨hf, ht⟩ =>
      reads_coded ((agsetFn_iff fn _).mp ⟨hf, rfl⟩) (BitVec.eq_of_toNat_eq (x := 0#4) ht.symm) fun _ => ⟨rfl, _, rfl⟩
  -- The reserved opcodes.
  case h_97 => exact reads_none

/-- The map lists nothing for the reserved opcodes (R62). -/
theorem decOp_reserved {o : BitVec 7} (h : 0x60 ≤ o.toNat) (fn : BitVec 5) (ty : BitVec 4) : decOp o fn ty = none := by
  unfold decOp
  dsimp only
  generalize o.toNat = o at h
  split
  case h_97 => rfl
  all_goals contradiction

-- What the map answers for an instruction's codes.

section
variable {α : Type} {d : Option α} {x : α} {t : Ty} (h : d = some x)

theorem decTy_encTy (t : Ty) : decTy (encTy t) = some t := (decTy_eq_some_iff _ t).mpr rfl
theorem mapTy_encTy (i : Ty → Rule → Instr) : (decTy (encTy t)).map i = some (i t) := by rw [decTy_encTy]; rfl

include h
theorem map_of_some (i : α → Rule → Instr) : d.map i = some (i x) := by rw [h]; rfl
theorem untyped_of_some (i : α → Rule → Instr) : untyped 0 d i = some (i x) := by rw [h]; rfl
theorem typed_of_some (i : α → Ty → Rule → Instr) : typed (decTy (encTy t)) d i = some (i x t) := by
  rw [h, decTy_encTy]; rfl
end

/-- The opcode map answers each rule instruction's codes with the operation that builds it (R62 to R69). -/
theorem decOp_op {i : Instr} {f : Form} {r : Rule} (h : i.form = some (f, r)) :
    ∃ op, decOp i.op.1 i.op.2.1 i.op.2.2 = some op ∧ op r = i := by
  cases i
  all_goals cases h
  case pack f =>
    cases f with
    | sat t => exact ⟨_, mapTy_encTy _, rfl⟩
    | lo | hi => exact ⟨_, rfl, rfl⟩
  case tred f =>
    cases f with
    | add t | min t | max t => exact ⟨_, mapTy_encTy _, rfl⟩
    | and | or | xor => exact ⟨_, rfl, rfl⟩
  all_goals dsimp only [Instr.op]
  case iadd | isub | imul | imad | iabs | idiv | idot | fmin | fmax =>
    exact ⟨_, typed_of_some ((flag_eq_some_iff _ _).mpr rfl) _, rfl⟩
  case imin | imax | unpk | fcls => exact ⟨_, typed_of_some (x := ()) rfl _, rfl⟩
  case fxqScale => exact ⟨_, typed_of_some (x := false) rfl _, rfl⟩
  case fxqQ => exact ⟨_, typed_of_some (x := true) rfl _, rfl⟩
  case aadd | amin | amax | aand | aor | axor | aswap => exact ⟨_, mapTy_encTy _, rfl⟩
  case iaddx => exact ⟨_, typed_of_some ((predFn_eq_some_iff _ _).mpr rfl) _, rfl⟩
  case sel => exact ⟨_, untyped_of_some ((predFn_eq_some_iff _ _).mpr rfl) _, rfl⟩
  case bfx | tagc | seq | waita => exact ⟨_, untyped_of_some ((flag_eq_some_iff _ _).mpr rfl) _, rfl⟩
  case gate => exact ⟨_, untyped_of_some ((not_flag_eq_some_iff _ _).mpr rfl) _, rfl⟩
  case icmp => exact ⟨_, typed_of_some ((decICond_eq_some_iff _ _).mpr rfl) _, rfl⟩
  case fcmp => exact ⟨_, typed_of_some ((decFCond_eq_some_iff _ _).mpr rfl) _, rfl⟩
  case fsgn => exact ⟨_, typed_of_some ((decSgn_eq_some_iff _ _).mpr rfl) _, rfl⟩
  case fadd | fsub | fmul | ffma | fdot | fscl => exact ⟨_, typed_of_some ((decRnd_eq_some_iff _ _).mpr rfl) _, rfl⟩
  case lds => exact ⟨_, typed_of_some ((decSize_eq_some_iff _ _).mpr rfl) _, rfl⟩
  case ld z _ | ldS z _ => cases z <;> exact ⟨_, typed_of_some rfl _, rfl⟩
  case pset => exact ⟨_, untyped_of_some ((decPFn_eq_some_iff _ _).mpr rfl) _, rfl⟩
  case shuf => exact ⟨_, untyped_of_some ((decShuf_eq_some_iff _ _).mpr rfl) _, rfl⟩
  case st | sts => exact ⟨_, untyped_of_some ((decSize_eq_some_iff _ _).mpr rfl) _, rfl⟩
  case tex => exact ⟨_, untyped_of_some ((decTex_eq_some_iff _ _).mpr rfl) _, rfl⟩
  case cllct => exact ⟨_, untyped_of_some ((decColl_eq_some_iff _ _).mpr rfl) _, rfl⟩
  case fsfu => exact ⟨_, map_of_some ((decSfu_eq_some_iff _ _).mpr rfl) _, rfl⟩
  case flrp => exact ⟨_, map_of_some ((decRnd_eq_some_iff _ _).mpr rfl) _, rfl⟩
  case frnd m t =>
    have hm := (decRnd_eq_some_iff _ ⟨m, false⟩).mpr rfl
    refine ⟨.frnd m t, ?_, rfl⟩
    change (match decTy (encTy t), decRnd (encRnd ⟨m, false⟩) with | some _, some _ => _ | _, _ => none) = _
    rw [decTy_encTy, hm]
    rfl
  case fcvt s d sat =>
    obtain ⟨hd, hs⟩ := (fcvtFn_iff _ sat d).mpr rfl
    refine ⟨.fcvt s d sat, ?_, rfl⟩
    change (match decTy (encTy s), decTy ((BitVec.ofBool sat ++ encTy d).setWidth 4) with
      | some _, some _ => _
      | _, _ => none) = _
    rw [decTy_encTy, hd]
    exact congrArg (fun b => some (Instr.fcvt s d b)) hs
  case agset n =>
    obtain ⟨hlt, hn⟩ := (agsetFn_iff _ n).mpr rfl
    exact ⟨_, if_pos ⟨hlt, rfl⟩, congrArg (Instr.agset · _) hn⟩
  all_goals exact ⟨_, rfl, rfl⟩

end Sys2Proof
end

section
/-!
SUPPORT. Decoding and encoding, inverse to each other (R49, R53, R58), and the words that are no instruction.
-/

namespace Sys2Proof

theorem ite_error_eq_ok_iff {ε α : Type} (p : Prop) [Decidable p] (e : ε) (x : Except ε α) (a : α) :
    (if p then .error e else x) = .ok a ↔ ¬p ∧ x = .ok a := by
  by_cases hp : p <;> simp [hp]

theorem not_destBreach_iff (w2 : Word) (b : Bool) :
    ¬((!w2.getLsbD 23 && field 3 20 w2 != 0#3) || (!w2.getLsbD 19 && field 3 16 w2 != 0#3) || b) = true ↔
      AbsentZero w2 ∧ ¬b = true := by
  simp only [AbsentZero, Bool.or_eq_true, Bool.and_eq_true, Bool.not_eq_true', bne_iff_ne, not_or, not_and, not_not]

/-- What decodes is an operation of the map, applied to the rule that the words hold, in breach of no field rule (R49, R58). -/
theorem decode_eq_ok_iff (w0 w1 w2 : Word) (i : Instr) : decode w0 w1 w2 = .ok i ↔
    ∃ g op, decGuard w0 = some g ∧ decOp (readOp w1).1 (readOp w1).2.1 (readOp w1).2.2 = some op ∧ op (readRule g w1 w2) = i ∧
      AbsentZero w2 ∧ g.wf = true ∧ ¬i.badW0 = true ∧ ¬i.badW1 = true ∧ ¬i.badW2 = true := by
  unfold decode readOp
  cases decGuard w0 with
  | none => simp
  | some g =>
    cases decOp (field 7 25 w1) (field 5 20 w1) (field 4 0 w1) with
    | none => simp [ite_error_eq_ok_iff]
    | some op =>
      simp only [ite_error_eq_ok_iff, not_destBreach_iff, Except.ok.injEq, Bool.not_eq_true', Bool.not_eq_false]
      constructor
      · rintro ⟨hg, h0, h1, ⟨hz, h2⟩, rfl⟩
        exact ⟨g, op, rfl, rfl, rfl, hz, hg, h0, h1, h2⟩
      · rintro ⟨_, _, ⟨⟩, ⟨⟩, rfl, hz, hg, h0, h1, h2⟩
        exact ⟨hg, h0, h1, ⟨hz, h2⟩, rfl⟩

theorem encode_eq_some_iff (i : Instr) (w0 w1 w2 : Word) : encode i = some (w0, w1, w2) ↔
    ∃ f r, i.form = some (f, r) ∧ encGuard r.guard = w0 ∧ encW1 i.op r = w1 ∧ encW2 r = w2 := by
  unfold encode
  cases i.form with
  | none => simp
  | some p => simp [Prod.ext_iff]

theorem wellFormed_iff {i : Instr} {f : Form} {r : Rule} (h : i.form = some (f, r)) : i.wellFormed = true ↔
    r.guard.wf = true ∧ ¬i.badW0 = true ∧ ¬i.badW1 = true ∧ ¬i.badW2 = true := by
  simp only [Instr.wellFormed, h, Bool.and_eq_true, Bool.not_eq_true', Bool.not_eq_true, and_assoc]

theorem decOp_readOp {w1 : Word} {op : Rule → Instr} (h : decOp (readOp w1).1 (readOp w1).2.1 (readOp w1).2.2 = some op)
    (r : Rule) : (op r).op = readOp w1 ∧ ∃ f, (op r).form = some (f, r) := by
  have hr := reads_decOp _ _ _ op h r
  simpa only [BitVec.ofNat_toNat, BitVec.setWidth_eq] using hr

/-- Decoding is the inverse of encoding, on well-formed rule instructions. -/
theorem decode_eq_ok_iff_encode (w0 w1 w2 : Word) (i : Instr) :
    decode w0 w1 w2 = .ok i ↔ encode i = some (w0, w1, w2) ∧ i.wellFormed = true := by
  rw [decode_eq_ok_iff, encode_eq_some_iff]
  constructor
  · rintro ⟨g, op, hg, ho, rfl, hz, hwf⟩
    obtain ⟨hop, f, hf⟩ := decOp_readOp ho (readRule g w1 w2)
    have hw := (words_eq_iff _ (readRule g w1 w2) w1 w2).mpr ⟨hop, rfl, hz⟩
    exact ⟨⟨f, _, hf, (decGuard_eq_some_iff w0 g).mp hg, hw⟩, (wellFormed_iff hf).mpr hwf⟩
  · rintro ⟨⟨f, r, hf, hg, hw⟩, hwf⟩
    obtain ⟨hop, hr, hz⟩ := (words_eq_iff i.op r w1 w2).mp hw
    obtain ⟨op, ho, hi⟩ := decOp_op hf
    rw [hop] at ho
    rw [hr] at hi
    exact ⟨r.guard, op, (decGuard_eq_some_iff w0 r.guard).mpr hg, ho, hi, hz, (wellFormed_iff hf).mp hwf⟩

theorem decode_ne_ok_of_reserved {w1 : Word} (h : 0x60 ≤ w1.toNat / 2 ^ 25) (w0 w2 : Word) (i : Instr) :
    decode w0 w1 w2 ≠ .ok i := by
  intro hd
  obtain ⟨g, op, -, ho, -⟩ := (decode_eq_ok_iff w0 w1 w2 i).mp hd
  have hopc : 0x60 ≤ (readOp w1).1.toNat := by
    have hlt := w1.isLt
    simp only [readOp, toNat_field]
    omega
  rw [decOp_reserved hopc] at ho
  cases ho

theorem decode_of_no_guard {w0 : Word} (h : decGuard w0 = none) (w1 w2 : Word) : decode w0 w1 w2 = .error .guardWord := by
  simp only [decode, h]

/-- Settles O8: it is one direction of `decode_eq_ok_iff_encode`. -/
theorem decodeOfEncode : Obligations.DecodeOfEncode :=
  fun i w0 w1 w2 hwf he => (decode_eq_ok_iff_encode w0 w1 w2 i).mpr ⟨he, hwf⟩

/-- Settles O9: it is the other direction of `decode_eq_ok_iff_encode`. -/
theorem encodeOfDecode : Obligations.EncodeOfDecode :=
  fun i w0 w1 w2 hd => (decode_eq_ok_iff_encode w0 w1 w2 i).mp hd

/-- Settles O11: the map lists no reserved opcode, and neither KIND 4 to 7 nor a colour without CE makes a guard. -/
theorem reservedWordsRejected : Obligations.ReservedWordsRejected := by
  refine ⟨fun w0 w1 w2 h i => decode_ne_ok_of_reserved h w0 w2 i, fun w0 w1 w2 h => decode_of_no_guard ?_ w1 w2⟩
  rcases h with hkind | ⟨hce, hct⟩
  · exact decGuard_eq_none_of_kind hkind
  · exact decGuard_eq_none_of_colour hce hct

end Sys2Proof
end

section
/-!
SUPPORT. The values that sources name (R17, R34, R54, R55).
-/

namespace Sys2Proof.Machine

-- The predicate vector (R17).

/-- The sum of the powers of two below `2 ^ k` whose exponents satisfy `p`. -/
def bitSum (p : Nat → Prop) [DecidablePred p] (k : Nat) : Nat := ((List.range k).map fun n => if p n then 2 ^ n else 0).sum

section
variable (p : Nat → Prop) [DecidablePred p]

theorem bitSum_succ (k : Nat) : bitSum p (k + 1) = (if p k then 2 ^ k else 0) + bitSum p k := by
  simp [bitSum, List.range_succ, Nat.add_comm]

theorem bitSum_lt (k : Nat) : bitSum p k < 2 ^ k := by
  induction k with
  | zero => exact Nat.one_pos
  | succ k ih =>
    rw [bitSum_succ]
    split <;> omega

theorem testBit_bitSum_of_le {k n : Nat} (h : k ≤ n) : (bitSum p k).testBit n = false :=
  Nat.testBit_lt_two_pow (Nat.lt_of_lt_of_le (bitSum_lt p k) (Nat.pow_le_pow_right (by decide) h))

theorem testBit_bitSum_of_lt {k n : Nat} (h : n < k) : (bitSum p k).testBit n = true ↔ p n := by
  induction k with
  | zero => exact absurd h (Nat.not_lt_zero n)
  | succ k ih =>
    rw [bitSum_succ]
    rcases Nat.lt_succ_iff_lt_or_eq.mp h with hn | rfl
    · split
      · rw [Nat.testBit_two_pow_add_gt hn, ih hn]
      · rw [Nat.zero_add, ih hn]
    · have hz := testBit_bitSum_of_le p (Nat.le_refl n)
      by_cases hp : p n <;> simp [hp, hz, Nat.testBit_two_pow_add_eq]

theorem testBit_bitSum (k n : Nat) : (bitSum p k).testBit n = true ↔ n < k ∧ p n := by
  by_cases h : n < k
  · simp [h, testBit_bitSum_of_lt p h]
  · simp [h, testBit_bitSum_of_le p (Nat.not_lt.mp h)]

end

theorem Ctx.getLsbD_pvec (x : Ctx) {n : Nat} (hn : n < 32) : x.pvec.getLsbD n = true ↔ n < 8 ∧ x.preds.getD n .f = .t := by
  have h : x.pvec = BitVec.ofNat 32 (bitSum (fun n => x.preds.getD n .f = .t) 8) := rfl
  rw [h, BitVec.getLsbD_ofNat, decide_eq_true hn, Bool.true_and, testBit_bitSum]

-- Immediates (R55).

theorem immValue_s32 (imm : BitVec 16) : (immValue .s32 imm).toInt = imm.toInt :=
  BitVec.toInt_signExtend_of_le (by decide)

theorem immValue_z (imm : BitVec 16) : (immValue .z imm).toNat = imm.toNat := BitVec.toNat_setWidth_of_le (by decide)

theorem immValue_f32 (imm : BitVec 16) : (immValue .f32 imm).toNat = imm.toNat * 2 ^ 16 :=
  (BitVec.toNat_append imm 0#16).trans (by simp [Nat.shiftLeft_eq])

theorem append_self_halves (imm : BitVec 16) : (imm ++ imm).extractLsb' 0 16 = imm ∧ (imm ++ imm).extractLsb' 16 16 = imm :=
  ⟨BitVec.extractLsb'_append_eq_right, BitVec.extractLsb'_append_eq_left⟩

theorem immValue_s8x4 (imm : BitVec 16) {i : Nat} (hi : i < 4) :
    (immValue .s8x4 imm).extractLsb' (8 * i) 8 = imm.extractLsb' 0 8 := by
  have hb : imm.extractLsb' 0 8 = imm.setWidth 8 := (BitVec.setWidth_eq_extractLsb' (by decide)).symm
  rw [hb]
  simp only [immValue]
  generalize imm.setWidth 8 = b
  interval_cases i
  · exact BitVec.extractLsb'_append_eq_right
  · rw [BitVec.extractLsb'_append_eq_of_le (by decide)]; exact BitVec.extractLsb'_append_eq_right
  · rw [BitVec.extractLsb'_append_eq_of_le (by decide), BitVec.extractLsb'_append_eq_of_le (by decide)]
    exact BitVec.extractLsb'_append_eq_right
  · rw [BitVec.extractLsb'_append_eq_of_le (by decide), BitVec.extractLsb'_append_eq_of_le (by decide)]
    exact BitVec.extractLsb'_append_eq_left

/-- The sources of a view hold the values that their codes name (R34, R54). -/
theorem view_sources {s : State} {r : Rule} {w : ImmW} {v : View} (h : view s r w = some v) {src : Src} {x : Word}
    (hx : (src, x) ∈ [(r.a, v.a), (r.b, v.b), (r.c, v.c)]) : x = srcValue s v.r v.g v.x (s.elem v.p) w r.imm src := by
  simp only [view] at h
  split at h
  · cases h
  next g hg =>
    split at h
    · cases h
    next x hx' =>
      cases h
      simp only [List.mem_cons, List.not_mem_nil, or_false, Prod.mk.injEq] at hx
      rcases hx with ⟨rfl, rfl⟩ | ⟨rfl, rfl⟩ | ⟨rfl, rfl⟩ <;> rfl

/-- Settles O13, source code by source code: the values of immediates and of the predicate vector have their lemmas above. -/
theorem sourceValues : Obligations.SourceValues := by
  unfold Obligations.SourceValues
  intro s r w v hv src x hx
  rw [view_sources hv hx]
  refine ⟨?_, ?_, ?_, ?_, ?_⟩
  · rintro n k rfl hk
    simp only [srcValue, hk]
    rfl
  · rintro n rfl
    rfl
  · rintro rfl
    cases w with
    | s32 => exact immValue_s32 r.imm
    | z => exact immValue_z r.imm
    | f32 => exact immValue_f32 r.imm
    | s16x2 | f16x2 => exact append_self_halves r.imm
    | s8x4 => exact fun i hi => immValue_s8x4 r.imm hi
  · rintro rfl
    rfl
  · rintro rfl n hn
    exact v.x.getLsbD_pvec hn

end Sys2Proof.Machine
end

section
/-!
SUPPORT. The values of codes (R92), and that the model's one rounding step is RoundTo (R97 to R101).
-/
namespace Sys2Proof.Machine
open Claims

-- Fractions.

/-- A number under a sign. -/
def underSign (neg : Bool) (x : ℚ) : ℚ := if neg then -x else x

theorem abs_underSign (neg : Bool) {x : ℚ} (hx : 0 ≤ x) : |underSign neg x| = x := by
  cases neg <;> simp [underSign, abs_of_nonneg hx]

theorem underSign_eq_zero_iff (neg : Bool) (x : ℚ) : underSign neg x = 0 ↔ x = 0 := by
  cases neg <;> simp [underSign]

theorem underSign_lt_zero_iff (neg : Bool) {x : ℚ} (hx : 0 < x) : underSign neg x < 0 ↔ neg = true := by
  cases neg
  · simpa [underSign] using hx.le
  · simpa [underSign] using hx

theorem underSign_div (s : Bool) (x y : ℚ) : underSign s (x / y) = underSign s x / y := by
  cases s <;> simp [underSign, neg_div]

theorem underSign_natAbs (n : Int) : underSign (decide (n < 0)) (n.natAbs : ℚ) = n := by
  rw [Nat.cast_natAbs, Int.cast_abs]
  by_cases h : n < 0
  · have hq : (n : ℚ) < 0 := by exact_mod_cast h
    simp [underSign, h, abs_of_neg hq]
  · have hq : (0 : ℚ) ≤ n := by exact_mod_cast not_lt.mp h
    simp [underSign, h, abs_of_nonneg hq]

theorem two_zpow_pos (e : Int) : (0 : ℚ) < 2 ^ e := zpow_pos two_pos e

theorem zpow_toNat_neg {e : Int} (he : ¬0 ≤ e) : (2 : ℚ) ^ e = (2 ^ (-e).toNat)⁻¹ := by
  rw [← zpow_natCast, Int.toNat_of_nonneg (by omega), zpow_neg, inv_inv]

theorem zpow_toNat {e : Int} (he : 0 ≤ e) : (2 : ℚ) ^ e = 2 ^ e.toNat := by
  rw [← zpow_natCast, Int.toNat_of_nonneg he]

/-- A fraction over a power of two is the fraction that `roundMag` and `fracOf` make of it. -/
theorem scaled_frac (n d : Nat) (e : Int) :
    ((if 0 ≤ e then (n, d * 2 ^ e.toNat) else (n * 2 ^ (-e).toNat, d) : Nat × Nat).1 : ℚ) /
      (if 0 ≤ e then (n, d * 2 ^ e.toNat) else (n * 2 ^ (-e).toNat, d) : Nat × Nat).2 = n / d / 2 ^ e := by
  split
  · next he =>
    rw [zpow_toNat he]
    push_cast
    rw [div_div]
  · next he =>
    rw [zpow_toNat_neg he]
    push_cast
    rw [div_inv_eq_mul, div_mul_eq_mul_div]

theorem scaled_frac_pos (n : Nat) {d : Nat} (hd : 0 < d) (e : Int) :
    0 < (if 0 ≤ e then (n, d * 2 ^ e.toNat) else (n * 2 ^ (-e).toNat, d) : Nat × Nat).2 := by
  split
  · exact Nat.mul_pos hd (Nat.two_pow_pos _)
  · exact hd

theorem fracOf_pos (m : Nat) (e : Int) : 0 < (fracOf m e).2 := by
  unfold fracOf
  split
  · exact one_pos
  · exact Nat.two_pow_pos _

theorem fracOf_value (m : Nat) (e : Int) : ((fracOf m e).1 : ℚ) / (fracOf m e).2 = m * 2 ^ e := by
  unfold fracOf
  split
  · next he => rw [zpow_toNat he]; push_cast; rw [div_one]
  · next he =>
    rw [zpow_toNat_neg he]
    push_cast
    rw [div_eq_mul_inv]

theorem fracOf_num_pos {m : Nat} (hm : m ≠ 0) (e : Int) : 0 < (fracOf m e).1 := by
  have h : (0 : ℚ) < m * 2 ^ e := mul_pos (by exact_mod_cast Nat.pos_of_ne_zero hm) (two_zpow_pos e)
  rw [← fracOf_value] at h
  refine Nat.pos_of_ne_zero fun h0 => ?_
  rw [h0, Nat.cast_zero, zero_div] at h
  exact h.false

/-- The exponent of a positive fraction. -/
theorem floorLog2_spec {n d : Nat} (hn : 0 < n) (hd : 0 < d) :
    (2 : ℚ) ^ floorLog2 n d ≤ n / d ∧ (n : ℚ) / d < 2 ^ (floorLog2 n d + 1) := by
  have hdq : (0 : ℚ) < d := by exact_mod_cast hd
  have hn1 : (2 : ℚ) ^ (n.log2 : Int) ≤ n := by exact_mod_cast Nat.log2_self_le hn.ne'
  have hn2 : (n : ℚ) < 2 ^ ((n.log2 : Int) + 1) := by exact_mod_cast Nat.lt_log2_self (n := n)
  have hd1 : (2 : ℚ) ^ (d.log2 : Int) ≤ d := by exact_mod_cast Nat.log2_self_le hd.ne'
  have hd2 : (d : ℚ) < 2 ^ ((d.log2 : Int) + 1) := by exact_mod_cast Nat.lt_log2_self (n := d)
  -- The quotient lies within a factor of two of the quotient of the powers.
  have hhi : (n : ℚ) / d < 2 ^ ((n.log2 : Int) - d.log2 + 1) := by
    rw [div_lt_iff₀ hdq]
    calc (n : ℚ) < 2 ^ ((n.log2 : Int) + 1) := hn2
      _ = 2 ^ ((n.log2 : Int) - d.log2 + 1) * 2 ^ (d.log2 : Int) := by rw [← zpow_add₀ two_ne_zero]; congr 1; ring
      _ ≤ 2 ^ ((n.log2 : Int) - d.log2 + 1) * d := mul_le_mul_of_nonneg_left hd1 (two_zpow_pos _).le
  have hlo : (2 : ℚ) ^ ((n.log2 : Int) - d.log2 - 1) ≤ n / d := by
    rw [le_div_iff₀ hdq]
    calc (2 : ℚ) ^ ((n.log2 : Int) - d.log2 - 1) * d ≤ 2 ^ ((n.log2 : Int) - d.log2 - 1) * 2 ^ ((d.log2 : Int) + 1) :=
          mul_le_mul_of_nonneg_left hd2.le (two_zpow_pos _).le
      _ = 2 ^ (n.log2 : Int) := by rw [← zpow_add₀ two_ne_zero]; congr 1; ring
      _ ≤ n := hn1
  -- The comparison that `floorLog2` makes.
  have hge : ∀ k : Int, (if 0 ≤ k then d * 2 ^ k.toNat ≤ n else d ≤ n * 2 ^ (-k).toNat) ↔ (2 : ℚ) ^ k ≤ n / d := by
    intro k
    rw [le_div_iff₀ hdq]
    split
    · next hk => rw [zpow_toNat hk, mul_comm]; exact_mod_cast Iff.rfl
    · next hk =>
      rw [zpow_toNat_neg hk, inv_mul_le_iff₀ (by positivity), mul_comm]
      exact_mod_cast Iff.rfl
  simp only [floorLog2, hge]
  split
  · next h => exact ⟨h, hhi⟩
  · next h => exact ⟨hlo, by rw [sub_add_cancel]; exact lt_of_not_ge h⟩

-- The magnitudes of codes (R92).

/-- The exponent of the least subnormal magnitude. -/
def Fmt.qmin (f : Fmt) : Int := 1 - f.bias - f.m

theorem magValue_subnormal (f : Fmt) {k : Nat} (hk : k < 2 ^ f.m) : magValue f k = k * 2 ^ f.qmin := by
  have hm : (2 : ℚ) ^ f.m ≠ 0 := by positivity
  have hz : (2 : ℚ) ^ f.qmin = 2 ^ (1 - (f.bias : Int)) / 2 ^ f.m := by
    rw [Fmt.qmin, zpow_sub₀ two_ne_zero, zpow_natCast]
  rw [magValue, Nat.div_eq_of_lt hk, Nat.mod_eq_of_lt hk, Nat.cast_zero, if_pos rfl, hz]
  ring

theorem magValue_normal (f : Fmt) (E : Nat) {r : Nat} (hr : r < 2 ^ f.m) :
    magValue f ((E + 1) * 2 ^ f.m + r) = (2 ^ f.m + r) * 2 ^ ((E : Int) + f.qmin) := by
  have hp : 0 < 2 ^ f.m := Nat.two_pow_pos _
  have hm : (2 : ℚ) ^ f.m ≠ 0 := by positivity
  have hq : ((E + 1) * 2 ^ f.m + r) / 2 ^ f.m = E + 1 := by
    rw [Nat.add_comm, Nat.add_mul_div_right _ _ hp, Nat.div_eq_of_lt hr, Nat.zero_add]
  have hr' : ((E + 1) * 2 ^ f.m + r) % 2 ^ f.m = r := by rw [Nat.add_comm, Nat.add_mul_mod_self_right, Nat.mod_eq_of_lt hr]
  have hz : (2 : ℚ) ^ ((E : Int) + f.qmin) = 2 ^ (((E + 1 : Nat) : Int) - (f.bias : Int)) / 2 ^ f.m := by
    rw [← zpow_natCast, ← zpow_sub₀ two_ne_zero, Fmt.qmin]
    congr 1
    push_cast
    ring
  rw [magValue, hq, hr', if_neg (by omega), hz]
  field_simp

/-- The multiples of an ulp: place `k` of binade `E`, its upper end included. -/
theorem magValue_grid (f : Fmt) {E k : Nat} (hk : k ≤ 2 ^ (f.m + 1)) (hE : E = 0 ∨ 2 ^ f.m ≤ k) :
    magValue f (E * 2 ^ f.m + k) = k * 2 ^ ((E : Int) + f.qmin) := by
  have hp : 0 < 2 ^ f.m := Nat.two_pow_pos _
  have h2 : 2 ^ (f.m + 1) = 2 * 2 ^ f.m := by rw [Nat.pow_succ']
  rcases Nat.lt_or_ge k (2 ^ f.m) with hlt | hge
  · obtain rfl : E = 0 := hE.resolve_right (by omega)
    rw [Nat.zero_mul, Nat.zero_add, magValue_subnormal f hlt]
    simp
  · obtain ⟨r, rfl⟩ := Nat.exists_eq_add_of_le hge
    rcases Nat.lt_or_ge r (2 ^ f.m) with hr | hr
    · rw [show E * 2 ^ f.m + (2 ^ f.m + r) = (E + 1) * 2 ^ f.m + r by ring, magValue_normal f E hr]
      push_cast
      ring
    · obtain rfl : r = 2 ^ f.m := by omega
      rw [show E * 2 ^ f.m + (2 ^ f.m + 2 ^ f.m) = (E + 1 + 1) * 2 ^ f.m + 0 by ring, magValue_normal f (E + 1) hp]
      push_cast
      rw [add_right_comm, zpow_add_one₀ two_ne_zero]
      ring

/-- Every code stands on the grid. -/
theorem exists_grid (f : Fmt) (g : Nat) : ∃ E k, g = E * 2 ^ f.m + k ∧ k < 2 ^ (f.m + 1) ∧ (E = 0 ∨ 2 ^ f.m ≤ k) := by
  have hp : 0 < 2 ^ f.m := Nat.two_pow_pos _
  have h2 : 2 ^ (f.m + 1) = 2 * 2 ^ f.m := by rw [Nat.pow_succ']
  have hg := Nat.div_add_mod' g (2 ^ f.m)
  have hr := Nat.mod_lt g hp
  rcases Nat.eq_zero_or_pos (g / 2 ^ f.m) with h0 | h0
  · rw [h0, Nat.zero_mul] at hg
    exact ⟨0, g, by omega, by omega, .inl rfl⟩
  · obtain ⟨E, hE⟩ := Nat.exists_eq_add_of_le' h0
    rw [hE, Nat.add_mul] at hg
    exact ⟨E, 2 ^ f.m + g % 2 ^ f.m, by omega, by omega, .inr (by omega)⟩

theorem magValue_strictMono (f : Fmt) : StrictMono (magValue f) := by
  refine strictMono_nat_of_lt_succ fun g => ?_
  obtain ⟨E, k, rfl, hk, hE⟩ := exists_grid f g
  rw [magValue_grid f hk.le hE, Nat.add_assoc, magValue_grid f (Nat.succ_le_of_lt hk) (hE.imp_right (Nat.le_trans · (Nat.le_succ k)))]
  push_cast
  exact mul_lt_mul_of_pos_right (lt_add_one _) (two_zpow_pos _)

theorem magValue_zero (f : Fmt) : magValue f 0 = 0 := by simp [magValue]

-- Values of the model as the exact arithmetic sees them.

/-- A value of the model as the exact arithmetic sees it. -/
def Fv.ext : Fv → Ext
  | .nan => .nan
  | .inf s => .inf s
  | .fin s m e => .fin s (underSign s (m * 2 ^ e))

theorem codeExt_val (f : Fmt) (c : Nat) : (f.val c).ext = codeExt f c := by
  have hfin : magValue f (f.mag c) = if f.mag c / 2 ^ f.m = 0 then ((f.mag c % 2 ^ f.m : Nat) : ℚ) * 2 ^ f.qmin
      else ((2 ^ f.m + f.mag c % 2 ^ f.m : Nat) : ℚ) * 2 ^ (((f.mag c / 2 ^ f.m : Nat) : Int) - f.bias - f.m) := by
    have hr := Nat.mod_lt (f.mag c) (Nat.two_pow_pos f.m)
    generalize f.mag c = g at hr ⊢
    split
    · next h => 
      rw [Nat.mod_eq_of_lt ((Nat.div_eq_zero_iff_lt (Nat.two_pow_pos _)).mp h)]
      exact magValue_subnormal f ((Nat.div_eq_zero_iff_lt (Nat.two_pow_pos _)).mp h)
    · next h =>
      obtain ⟨E, hE⟩ := Nat.exists_eq_add_of_le' (Nat.pos_of_ne_zero h)
      rw [hE]
      conv_lhs => rw [← Nat.div_add_mod' g (2 ^ f.m), hE, magValue_normal f E hr]
      push_cast
      congr 2
      rw [Fmt.qmin]
      ring
  have hnum : (if f.mag c / 2 ^ f.m = 0 then Fv.fin (f.sign c) (f.mag c % 2 ^ f.m) (1 - f.bias - f.m : Int)
      else .fin (f.sign c) (2 ^ f.m + f.mag c % 2 ^ f.m) (((f.mag c / 2 ^ f.m : Nat) : Int) - f.bias - f.m)).ext =
      .fin (f.sign c) (underSign (f.sign c) (magValue f (f.mag c))) := by
    rw [hfin]
    split <;> rfl
  have hsign : decide (c / 2 ^ (f.bits - 1) % 2 = 1) = f.sign c := rfl
  have hmag : c % 2 ^ (f.bits - 1) = f.mag c := rfl
  simp only [Fmt.val, Fmt.isNan, codeExt, hsign, hmag]
  cases f.inf with
  | none =>
    by_cases hn : f.maxMag < f.mag c
    · simp [hn, Fv.ext]
    · simpa [hn, underSign] using hnum
  | some i =>
    rcases lt_trichotomy (f.mag c) i with h | h | h
    · simpa [h.ne, h.not_gt, underSign] using hnum
    · simp [h, Fv.ext]
    · simp [h, h.ne', Fv.ext]

-- The rounding step (R97, R98, R101).

/-- The model's choice between two neighbours is that of the exact fraction. -/
theorem goesUp_eq_toUpper (mode : RMode) (neg : Bool) (q : Nat) (even : Bool) (rn : Nat) {rd : Nat} (hd : 0 < rd) :
    goesUp mode neg q even rn rd = toUpper mode neg q even (rn / rd) := by
  have hdq : (0 : ℚ) < rd := by exact_mod_cast hd
  rcases Nat.eq_zero_or_pos rn with rfl | hn
  · simp [goesUp, toUpper]
  · have h0 : (rn : ℚ) / rd ≠ 0 := by positivity
    rw [goesUp.eq_def, if_neg hn.ne', toUpper.eq_def, decide_eq_true h0, Bool.true_and]
    cases mode with
    | rn =>
      have hlt : (1 : ℚ) / 2 < rn / rd ↔ rd < 2 * rn := by
        rw [div_lt_div_iff₀ two_pos hdq, one_mul, mul_comm]
        exact_mod_cast Iff.rfl
      have heq : (rn : ℚ) / rd = 1 / 2 ↔ 2 * rn = rd := by
        rw [div_eq_div_iff hdq.ne' two_ne_zero, one_mul, mul_comm]
        exact_mod_cast Iff.rfl
      simp only [hlt, heq]
    | rz | rd | ru => rfl
    | sr =>
      have hfl : ⌊(rn : ℚ) / rd * 2 ^ 32⌋ = ((rn * 2 ^ 32 / rd : Nat) : Int) := by
        rw [div_mul_eq_mul_div, show (rn : ℚ) * 2 ^ 32 = ((rn * 2 ^ 32 : Nat) : ℚ) by push_cast; rfl, Rat.floor_natCast_div_natCast,
          Int.natCast_div]
      simp only [hfl, Nat.cast_lt]

/-- Where a magnitude lies at or beyond M + ulp, only the mode decides (R98). -/
theorem goesUp_beyond (mode : RMode) (neg : Bool) {q : Nat} (hq : q < 2 ^ 32) {frac : ℚ} (hf : 1 ≤ frac) :
    goesUp mode neg q false 1 1 = toUpper mode neg q false frac := by
  have h0 : frac ≠ 0 := by linarith
  rw [goesUp.eq_def, if_neg one_ne_zero, toUpper.eq_def, decide_eq_true h0, Bool.true_and]
  cases mode with
  | rn =>
    have : (2 : ℚ)⁻¹ < frac := by linarith
    simp [this]
  | rz | rd | ru => rfl
  | sr =>
    have : (q : Int) < ⌊frac * 2 ^ 32⌋ := by
      refine lt_of_lt_of_le (b := (2 ^ 32 : Int)) (by exact_mod_cast hq) (Int.le_floor.mpr ?_)
      push_cast
      linarith
    simpa [this] using hq

/-- Where a positive number stands among the magnitudes of a format, and what is chosen for it: what `RoundsTo` says but for sign and overflow. -/
def RoundsMag (f : Fmt) (mode : RMode) (neg : Bool) (q : Nat) (x : ℚ) (c : Nat) : Prop :=
  ∃ g, g ≤ f.maxMag ∧ magValue f g ≤ x ∧ (x < magValue f (g + 1) ∨ g = f.maxMag) ∧
    c = if toUpper mode neg q (decide (g % 2 = 0 ∧ g ≠ f.maxMag)) ((x - magValue f g) / (magValue f (g + 1) - magValue f g)) then g + 1 else g

/-- The place of a positive number on the grid of a format. -/
theorem grid_place (f : Fmt) {x : ℚ} {fl e : Int} {k : Nat} (hlo : (2 : ℚ) ^ fl ≤ x) (hhi : x < 2 ^ (fl + 1)) (he : e = max (fl - f.m) f.qmin)
    (hk1 : (k : ℚ) ≤ x / 2 ^ e) (hk2 : x / 2 ^ e < k + 1) : k < 2 ^ (f.m + 1) ∧ ((e - f.qmin).toNat = 0 ∨ 2 ^ f.m ≤ k) := by
  have hp := two_zpow_pos e
  constructor
  · have : x / 2 ^ e < 2 ^ (f.m + 1) := by
      rw [div_lt_iff₀ hp, ← zpow_natCast, ← zpow_add₀ two_ne_zero]
      exact hhi.trans_le (zpow_le_zpow_right₀ one_le_two (by push_cast; omega))
    exact_mod_cast hk1.trans_lt this
  · rcases le_or_gt e f.qmin with h | h
    · exact .inl (by omega)
    · refine .inr ?_
      have : (2 : ℚ) ^ f.m ≤ x / 2 ^ e := by
        rw [le_div_iff₀ hp, ← zpow_natCast, ← zpow_add₀ two_ne_zero]
        exact le_trans (zpow_le_zpow_right₀ one_le_two (by omega)) hlo
      exact Nat.lt_succ_iff.mp (by exact_mod_cast this.trans_lt hk2)

/-- The choice between the magnitudes on either side of a number, as the model makes it. -/
theorem roundsMag_of_between (f : Fmt) (mode : RMode) (neg : Bool) {q : Nat} (hq : q < 2 ^ 32) {x : ℚ} {c : Nat} (hlo : magValue f c ≤ x)
    (hhi : x < magValue f (c + 1)) :
    RoundsMag f mode neg q x
      (if f.maxMag < c then (if goesUp mode neg q false 1 1 then f.maxMag + 1 else f.maxMag)
       else if toUpper mode neg q (decide (c % 2 = 0 ∧ c ≠ f.maxMag)) ((x - magValue f c) / (magValue f (c + 1) - magValue f c)) then c + 1
       else c) := by
  split
  · next h =>
    have hmono := magValue_strictMono f
    have hc : magValue f (f.maxMag + 1) ≤ x := (hmono.monotone h).trans hlo
    have hM := hmono (Nat.lt_succ_self f.maxMag)
    refine ⟨f.maxMag, le_rfl, hM.le.trans hc, .inr rfl, ?_⟩
    rw [goesUp_beyond mode neg hq ((one_le_div (sub_pos.mpr hM)).mpr (sub_le_sub_right hc _))]
    simp
  · next h => exact ⟨c, Nat.le_of_not_lt h, hlo, .inl hhi, rfl⟩

theorem roundMag_spec (f : Fmt) (mode : RMode) (neg : Bool) {q : Nat} (hq : q < 2 ^ 32) {n d : Nat} (hn : 0 < n) (hd : 0 < d) :
    RoundsMag f mode neg q (n / d) (f.roundMag mode neg q n d) := by
  obtain ⟨hlo, hhi⟩ := floorLog2_spec hn hd
  -- The exponent of an ulp, and the fraction in ulps.
  obtain ⟨e, he⟩ : ∃ e, e = max (floorLog2 n d - f.m) f.qmin := ⟨_, rfl⟩
  obtain ⟨n', d', hnd⟩ : ∃ n' d', (if 0 ≤ e then (n, d * 2 ^ e.toNat) else (n * 2 ^ (-e).toNat, d) : Nat × Nat) = (n', d') := ⟨_, _, rfl⟩
  have hval := scaled_frac n d e
  have hd' := scaled_frac_pos n hd e
  rw [hnd] at hval hd'
  have hd0 : (0 : ℚ) < d' := by exact_mod_cast hd'
  have hk1 : ((n' / d' : Nat) : ℚ) ≤ n / d / 2 ^ e := by rw [← hval]; exact Nat.cast_div_le
  have hk2 : (n : ℚ) / d / 2 ^ e < (n' / d' : Nat) + 1 := by
    rw [← hval, div_lt_iff₀ hd0]
    exact_mod_cast Nat.lt_mul_of_div_lt (Nat.lt_succ_self _) hd'
  obtain ⟨hk, hE⟩ := grid_place f hlo hhi he hk1 hk2
  have hr : ((n' - n' / d' * d' : Nat) : ℚ) / d' = n / d / 2 ^ e - (n' / d' : Nat) := by
    rw [Nat.cast_sub (Nat.div_mul_le_self _ _), Nat.cast_mul, sub_div, mul_div_cancel_right₀ _ hd0.ne', hval]
  have hround : f.roundMag mode neg q n d =
      let c := (e - f.qmin).toNat * 2 ^ f.m + n' / d'
      if f.maxMag < c then (if goesUp mode neg q false 1 1 then f.maxMag + 1 else f.maxMag)
      else if goesUp mode neg q (c % 2 = 0 && c != f.maxMag) (n' - n' / d' * d') d' then c + 1 else c := by
    simp only [Fmt.roundMag, show (1 - (f.bias : Int) - f.m) = f.qmin from rfl, ← he, hnd]
  rw [hround]
  -- The magnitudes on either side.
  have hp := two_zpow_pos e
  have hexp : (((e - f.qmin).toNat : Nat) : Int) + f.qmin = e := by omega
  have hg := magValue_grid f hk.le hE
  have hg' := magValue_grid f (Nat.succ_le_of_lt hk) (hE.imp_right (Nat.le_trans · (Nat.le_succ _)))
  rw [hexp] at hg hg'
  generalize n' / d' = k at *
  dsimp only
  generalize hc : (e - f.qmin).toNat * 2 ^ f.m + k = c at *
  have hg' : magValue f (c + 1) = (k + 1) * 2 ^ e := by rw [← hc, Nat.add_assoc, ← Nat.cast_add_one]; exact hg'
  have hfrac : (n / d - magValue f c) / (magValue f (c + 1) - magValue f c) = ((n' - k * d' : Nat) : ℚ) / d' := by
    rw [hr, hg, hg']
    field_simp
    ring
  have := roundsMag_of_between f mode neg hq (x := n / d) (c := c) (by rwa [hg, ← le_div_iff₀ hp]) (by rwa [hg', ← div_lt_iff₀ hp])
  rwa [hfrac, ← goesUp_eq_toUpper mode neg q _ _ hd', show decide (c % 2 = 0 ∧ c ≠ f.maxMag) = (decide (c % 2 = 0) && c != f.maxMag) 
    from Bool.eq_iff_iff.mpr (by simp)] at this

/-- The codes of a format fit its width, with those of its special values above those of numbers; only E2M1 has neither infinity nor NaN (R92, R99). -/
structure Fmt.Sound (f : Fmt) : Prop where
  wide : 0 < f.bits
  finite : f.maxMag < 2 ^ (f.bits - 1)
  infinite : ∀ i ∈ f.inf, f.maxMag < i ∧ i < 2 ^ (f.bits - 1)
  nan : f.nan < 2 ^ f.bits
  bare : f.inf = none → (f.nan = 0 ↔ f = e2m1)

theorem fmtOf_sound (t : Ty) : (fmtOf t).Sound := by
  cases t <;> exact ⟨by decide, by decide, by decide, by decide, by decide⟩

theorem Fmt.overflow_eq {f : Fmt} (hf : f.Sound) (sat neg : Bool) : f.overflow sat neg = overflowCode f sat neg := by
  unfold Fmt.overflow overflowCode
  cases hi : f.inf with
  | some i => rfl
  | none =>
    have : (sat || decide (f.nan = 0)) = true ↔ f = e2m1 ∨ sat = true := by simp [hf.bare hi, or_comm]
    simp only [this]
    rfl

/-- The model's rounding of a fraction is RoundTo (R97 to R99). -/
theorem roundFrac_spec {f : Fmt} (hf : f.Sound) (mode : RMode) (sat : Bool) {q : Nat} (hq : q < 2 ^ 32) (neg : Bool) {n d : Nat} (hn : 0 < n)
    (hd : 0 < d) : RoundsTo f mode sat q (underSign neg (n / d)) (f.roundFrac mode sat q neg n d) := by
  have hx : (0 : ℚ) < n / d := by positivity
  obtain ⟨g, hg, hlo, hhi, hc⟩ := roundMag_spec f mode neg hq hn hd
  have hneg : decide (underSign neg ((n : ℚ) / d) < 0) = neg := by simp [underSign_lt_zero_iff neg hx]
  refine ⟨g, hg, by rwa [abs_underSign neg hx.le], by rwa [abs_underSign neg hx.le], ?_⟩
  rw [hneg, abs_underSign neg hx.le, Fmt.roundFrac, if_neg hn.ne', hc, Fmt.overflow_eq hf]
  dsimp only
  split
  · rcases hg.lt_or_eq with h | rfl
    · rw [if_neg (by omega), if_neg h.ne]; rfl
    · rw [if_pos (Nat.lt_succ_self _), if_pos rfl]
  · rw [if_neg (by omega)]; rfl

/-- The model's rounding of a value is RoundTo (R97 to R101). -/
theorem round_spec {f : Fmt} (hf : f.Sound) (mode : RMode) (sat : Bool) {q : Nat} (hq : q < 2 ^ 32) (v : Fv) :
    Rounded f mode sat q v.ext (f.round mode sat q v) := by
  cases v with
  | nan => rfl
  | inf s => exact Fmt.overflow_eq hf sat s
  | fin s m e =>
    have hv := fracOf_value m e
    have hd := fracOf_pos m e
    have hm : (fracOf m e).1 = 0 ↔ underSign s ((m : ℚ) * 2 ^ e) = 0 := by
      rw [underSign_eq_zero_iff, ← hv, div_eq_zero_iff, Nat.cast_eq_zero, Nat.cast_eq_zero, or_iff_left hd.ne']
    change if underSign s ((m : ℚ) * 2 ^ e) = 0 then f.roundFrac mode sat q s (fracOf m e).1 (fracOf m e).2 = signCode f s 0
      else RoundsTo f mode sat q (underSign s (m * 2 ^ e)) (f.roundFrac mode sat q s (fracOf m e).1 (fracOf m e).2)
    split
    · next h => rw [Fmt.roundFrac, if_pos (hm.mpr h)]; rfl
    · next h => rw [← hv]; exact roundFrac_spec hf mode sat hq s (Nat.pos_of_ne_zero fun h0 => h (hm.mp h0)) hd

-- What a rounded code is.

theorem signCode_lt {f : Fmt} (hf : f.Sound) (neg : Bool) {g : Nat} (hg : g < 2 ^ (f.bits - 1)) : signCode f neg g < 2 ^ f.bits := by
  have h : 2 ^ f.bits = 2 ^ (f.bits - 1) + 2 ^ (f.bits - 1) := by
    obtain ⟨b, hb⟩ := Nat.exists_eq_add_of_le' hf.wide
    rw [hb, Nat.add_sub_cancel, Nat.pow_succ]; omega
  unfold signCode
  split <;> omega

theorem overflowCode_lt {f : Fmt} (hf : f.Sound) (sat neg : Bool) : overflowCode f sat neg < 2 ^ f.bits := by
  unfold overflowCode
  cases hi : f.inf with
  | some i => 
    refine signCode_lt hf neg ?_
    split
    · exact hf.finite
    · exact (hf.infinite i hi).2
  | none =>
    dsimp only
    split
    · exact signCode_lt hf neg hf.finite
    · exact hf.nan

theorem lt_of_roundsTo {f : Fmt} (hf : f.Sound) {mode : RMode} {sat : Bool} {q : Nat} {x : ℚ} {c : Nat} (h : RoundsTo f mode sat q x c) :
    c < 2 ^ f.bits := by
  obtain ⟨g, hg, -, -, rfl⟩ := h
  split
  · split
    · exact overflowCode_lt hf _ _
    · have := hf.finite
      exact signCode_lt hf _ (by omega)
  · exact signCode_lt hf _ (hg.trans_lt hf.finite)

theorem lt_of_rounded {f : Fmt} (hf : f.Sound) {mode : RMode} {sat : Bool} {q : Nat} {v : Ext} {c : Nat} (h : Rounded f mode sat q v c) :
    c < 2 ^ f.bits := by
  cases v with
  | nan => exact h.trans_lt hf.nan
  | inf s => exact h.trans_lt (overflowCode_lt hf sat s)
  | fin s x =>
    change if x = 0 then c = signCode f s 0 else RoundsTo f mode sat q x c at h
    split at h
    · exact h.trans_lt (signCode_lt hf s (Nat.two_pow_pos _))
    · exact lt_of_roundsTo hf h

/-- The value of a number's code. -/
theorem codeExt_signCode {f : Fmt} (hf : f.Sound) (neg : Bool) {g : Nat} (hg : g ≤ f.maxMag) :
    codeExt f (signCode f neg g) = .fin neg (underSign neg (magValue f g)) := by
  have hp := Nat.two_pow_pos (f.bits - 1)
  have hlt : g < 2 ^ (f.bits - 1) := hg.trans_lt hf.finite
  have hmod : signCode f neg g % 2 ^ (f.bits - 1) = g := by
    cases neg <;> simp [signCode, Nat.mod_eq_of_lt hlt]
  have hdiv : decide (signCode f neg g / 2 ^ (f.bits - 1) % 2 = 1) = neg := by
    cases neg <;> simp [signCode, Nat.add_div_left, hp, Nat.div_eq_of_lt hlt]
  unfold codeExt
  dsimp only
  rw [hmod, hdiv]
  cases hi : f.inf with
  | none => simp [hg.not_gt, underSign]
  | some i =>
    have := (hf.infinite i hi).1
    simp [show g ≠ i by omega, show ¬i < g by omega, underSign]

/-- A number that is the magnitude of a code is rounded to it, under every mode. -/
theorem eq_signCode_of_roundsTo {f : Fmt} {mode : RMode} {sat : Bool} {q : Nat} {x : ℚ} {c g : Nat} (h : RoundsTo f mode sat q x c)
    (hg : g ≤ f.maxMag) (hx : |x| = magValue f g) : c = signCode f (decide (x < 0)) g := by
  have hmono := magValue_strictMono f
  obtain ⟨g', hg', hlo, hhi, hc⟩ := h
  rw [hx] at hlo hhi hc
  obtain rfl : g = g' := by
    refine le_antisymm ?_ (hmono.le_iff_le.mp hlo)
    exact hhi.elim (fun h => Nat.lt_succ_iff.mp (hmono.lt_iff_lt.mp h)) (fun h => h ▸ hg)
  rw [hc, sub_self, zero_div]
  simp [toUpper]

/-- A number of few bits on the scale of a format is the magnitude of a code. -/
theorem exists_code {f : Fmt} {k : Nat} {j : Int} (hk : k < 2 ^ (f.m + 1)) (hj : f.qmin ≤ j) (hmax : (k : ℚ) * 2 ^ j ≤ magValue f f.maxMag) :
    ∃ g, g ≤ f.maxMag ∧ (k : ℚ) * 2 ^ j = magValue f g := by
  rcases eq_or_ne k 0 with rfl | hk0
  · exact ⟨0, Nat.zero_le _, by simp [magValue_zero]⟩
  -- Its neighbours among the magnitudes.
  obtain ⟨g, hg, hlo, hhi, -⟩ := roundMag_spec f .rz false (q := 0) (by norm_num) (n := (fracOf k j).1) (d := (fracOf k j).2)
    (fracOf_num_pos hk0 j) (fracOf_pos k j)
  rw [fracOf_value] at hlo hhi
  refine ⟨g, hg, le_antisymm ?_ hlo⟩
  rcases hhi with hhi | rfl
  · obtain ⟨E, k', rfl, hk', hE⟩ := exists_grid f g
    rw [magValue_grid f hk'.le hE] at hlo ⊢
    rw [Nat.add_assoc, magValue_grid f (Nat.succ_le_of_lt hk') (hE.imp_right (Nat.le_trans · (Nat.le_succ k')))] at hhi
    have hp := two_zpow_pos (E + f.qmin)
    rcases le_or_gt ((E : Int) + f.qmin) j with he | he
    · -- It is a multiple of the ulp.
      have hj' : (2 : ℚ) ^ j = 2 ^ (j - (E + f.qmin)).toNat * 2 ^ ((E : Int) + f.qmin) := by
        rw [← zpow_toNat (by omega), ← zpow_add₀ two_ne_zero, sub_add_cancel]
      rw [hj', ← mul_assoc] at hhi ⊢
      have := lt_of_mul_lt_mul_right hhi hp.le
      have : k * 2 ^ (j - (E + f.qmin)).toNat < k' + 1 := by exact_mod_cast this
      exact mul_le_mul_of_nonneg_right (by exact_mod_cast Nat.lt_succ_iff.mp this) hp.le
    · -- Or the ulp is that of a binade that it does not reach.
      exfalso
      have hE' : (2 : ℚ) ^ f.m ≤ k' := by exact_mod_cast hE.resolve_left (by omega)
      have h1 : (k : ℚ) < 2 ^ (f.m + 1) := by exact_mod_cast hk
      have h2 : (2 : ℚ) * 2 ^ j ≤ 2 ^ ((E : Int) + f.qmin) := by
        rw [← zpow_one_add₀ two_ne_zero]
        exact zpow_le_zpow_right₀ one_le_two (by omega)
      have h3 : (k : ℚ) * 2 ^ j < 2 ^ (f.m + 1) * 2 ^ j := mul_lt_mul_of_pos_right h1 (two_zpow_pos j)
      have h4 : (2 : ℚ) ^ f.m * (2 * 2 ^ j) ≤ k' * 2 ^ ((E : Int) + f.qmin) := mul_le_mul hE' h2 (by positivity) (by positivity)
      rw [pow_succ, mul_assoc] at h3
      linarith
  · exact hmax

end Sys2Proof.Machine
end

section
/-!
PROOFS. FP32, and the special functions of FSFU: the reciprocal and exact results (R106, R107).
-/
namespace Sys2Proof.Machine
open Claims

-- FP32.

theorem fp32_sound : fp32.Sound := fmtOf_sound .f32

theorem fpLane_f32 (w : Word) : fpLane .f32 w 0 = (fp32.val w.toNat).ext := by
  rw [codeExt_val]
  change codeExt fp32 (w.extractLsb' 0 32).toNat = _
  rw [BitVec.extractLsb'_eq_self]

/-- What a finite FP32 value is made of (R92). -/
theorem fp32_val_bounds {c m : Nat} {s : Bool} {e : Int} (h : fp32.val c = .fin s m e) : m < 2 ^ 24 ∧ -149 ≤ e ∧ e ≤ 104 := by
  have hg : fp32.mag c < 2 ^ 31 := Nat.mod_lt _ (by decide)
  have hm : fp32.m = 23 := rfl
  have hb : fp32.bias = 127 := rfl
  simp only [Fmt.val, hm, hb] at h
  split at h
  · cases h
  · next hn =>
    split at h
    · cases h
    · next hi =>
      have hlt : fp32.mag c < 0x7F800000 := by
        have hinf : fp32.inf = some 0x7F800000 := rfl
        simp only [Fmt.isNan, hinf, decide_eq_true_eq, Option.some.injEq] at hn hi
        omega
      split at h <;> cases h <;> omega

/-- The word of a rounded code. -/
theorem toNat_word_of_rounded {mode : RMode} {sat : Bool} {q : Nat} {v : Ext} {c : Nat} (h : Rounded fp32 mode sat q v c) :
    (BitVec.ofNat 32 c).toNat = c := by
  rw [BitVec.toNat_ofNat]
  exact Nat.mod_eq_of_lt (lt_of_rounded fp32_sound h)

theorem toNat_word_of_roundsTo {mode : RMode} {sat : Bool} {q : Nat} {x : ℚ} {c : Nat} (h : RoundsTo fp32 mode sat q x c) :
    (BitVec.ofNat 32 c).toNat = c := by
  rw [BitVec.toNat_ofNat]
  exact Nat.mod_eq_of_lt (lt_of_roundsTo fp32_sound h)

theorem exactFrac_spec (neg : Bool) {n d : Nat} (hn : 0 < n) (hd : 0 < d) :
    RoundsTo fp32 .rn false 0 (underSign neg (n / d)) (exactFrac neg n d).toNat := by
  have h := roundFrac_spec fp32_sound .rn false (q := 0) (by norm_num) neg hn hd
  rw [exactFrac, toNat_word_of_roundsTo h]
  exact h

/-- A number of at most 24 bits, and no greater than 2^127, is a value of FP32: rounding delivers it. -/
theorem fpLane_of_roundsTo_exact {mode : RMode} {sat : Bool} {q k : Nat} {j : Int} {x : ℚ} {w : Word} (h : RoundsTo fp32 mode sat q x w.toNat)
    (hk : k < 2 ^ 24) (hj : -149 ≤ j) (hx : |x| = k * 2 ^ j) (hmax : |x| ≤ 2 ^ 127) :
    fpLane .f32 w 0 = .fin (decide (x < 0)) x := by
  have hM : (2 : ℚ) ^ 127 ≤ magValue fp32 fp32.maxMag := by norm_num [magValue, fp32]
  obtain ⟨g, hg, hv⟩ := exists_code (f := fp32) hk hj (hx ▸ hmax.trans hM)
  have hc := eq_signCode_of_roundsTo h hg (hx.trans hv)
  rw [fpLane_f32, codeExt_val, hc, codeExt_signCode fp32_sound _ hg, ← hv, ← hx]
  congr 1
  by_cases hn : x < 0
  · simp [underSign, hn, abs_of_neg hn]
  · simp [underSign, hn, abs_of_nonneg (not_lt.mp hn)]

-- Square roots.

theorem isqrtFrom_eq {n : Nat} (k : Nat) {r : Nat} (hlo : r * r ≤ n) (hhi : n < (r + 2 ^ k) * (r + 2 ^ k)) : isqrtFrom n k r = n.sqrt := by
  induction k generalizing r with
  | zero => exact (Nat.eq_sqrt.mpr ⟨hlo, hhi⟩)
  | succ k ih =>
    have h2 : 2 ^ (k + 1) = 2 ^ k + 2 ^ k := by rw [Nat.pow_succ]; omega
    simp only [isqrtFrom]
    split
    · next h => exact ih h (by rwa [Nat.add_assoc, ← h2])
    · next h => exact ih hlo (Nat.lt_of_not_le h)

theorem isqrt_eq (n : Nat) : isqrt n = n.sqrt := by
  refine isqrtFrom_eq _ (Nat.zero_le _) ?_
  have h := Nat.lt_log2_self (n := n)
  have : 2 ^ (n.log2 + 1) ≤ 2 ^ (n.log2 / 2 + 1) * 2 ^ (n.log2 / 2 + 1) := by
    rw [← Nat.pow_add]
    exact Nat.pow_le_pow_right (by decide) (by omega)
  rw [Nat.zero_add]
  omega

/-- The root of a square with few bits has few bits. -/
theorem exists_root_bits {r m E : Nat} (hm : m < 2 ^ 24) (h : r * r = m * 2 ^ E) : ∃ k, k < 2 ^ 24 ∧ r = k * 2 ^ (E / 2) := by
  have hE : m * 2 ^ E = m * 2 ^ (E % 2) * (2 ^ (E / 2) * 2 ^ (E / 2)) := by
    rw [mul_assoc, ← pow_add, ← pow_add]
    congr 2
    omega
  obtain ⟨k, rfl⟩ : 2 ^ (E / 2) ∣ r := by
    rw [← Nat.pow_dvd_pow_iff two_ne_zero, sq, sq, h, hE]
    exact Nat.dvd_mul_left _ _
  refine ⟨k, ?_, Nat.mul_comm _ _⟩
  have hkk : k * k = m * 2 ^ (E % 2) := by
    have hp : 0 < 2 ^ (E / 2) * 2 ^ (E / 2) := by positivity
    refine Nat.eq_of_mul_eq_mul_right hp ?_
    rw [← hE, ← h]
    ring
  have h2 : 2 ^ (E % 2) ≤ 2 := by
    rcases Nat.mod_two_eq_zero_or_one E with h | h <;> simp [h]
  nlinarith [Nat.mul_le_mul_left m h2]

/-- An exact root is delivered exactly (R106, R107). -/
theorem sfuSqrt_exact {w : Word} {m : Nat} {e : Int} {y : ℚ} (hm : m < 2 ^ 24) (he : -149 ≤ e) (he' : e ≤ 104) (hy : 0 < y)
    (hx : m * 2 ^ e = y * y) : fpLane .f32 (sfuSqrt w m e) 0 = .fin false y := by
  obtain ⟨E, hE⟩ : ∃ E : Nat, e + 512 = E := ⟨(e + 512).toNat, by omega⟩
  -- The root over 2^256 is a whole number.
  have hsq : ((m * 2 ^ E : Nat) : ℚ) = (y * 2 ^ 256) * (y * 2 ^ 256) := by
    have : (2 : ℚ) ^ E = 2 ^ e * (2 ^ 256 * 2 ^ 256) := by
      rw [← zpow_natCast, ← hE, zpow_add₀ two_ne_zero, ← pow_add]
      rfl
    push_cast
    rw [this, ← mul_assoc, hx]
    ring
  obtain ⟨r, hr⟩ : IsSquare (m * 2 ^ E) := Rat.isSquare_natCast_iff.mp ⟨_, hsq⟩
  have hry : (r : ℚ) = y * 2 ^ 256 := by
    have : (r : ℚ) * r = (y * 2 ^ 256) * (y * 2 ^ 256) := by rw [← hsq, hr]; push_cast; rfl
    exact (mul_self_inj (Nat.cast_nonneg r) (by positivity)).mp this
  have hroot : isqrt (m * 2 ^ E) = r := by rw [isqrt_eq, hr, Nat.sqrt_eq]
  have hfx : (fx : ℚ) = 2 ^ 256 := by norm_num [fx]
  have hval : (r : ℚ) / fx = y := by rw [hry, hfx]; field_simp
  have hres : sfuSqrt w m e = exactFrac false r fx := by
    simp only [sfuSqrt, hE, Int.toNat_natCast, hroot, ← hr, if_true]
  -- It has few bits.
  have hr0 : 0 < r := Nat.pos_of_ne_zero fun h => by rw [h] at hry; norm_num at hry; linarith
  have hround := exactFrac_spec false hr0 (d := fx) (Nat.two_pow_pos 256)
  obtain ⟨k, hk, hrk⟩ := exists_root_bits hm hr.symm
  have hx127 : |underSign false ((r : ℚ) / fx)| ≤ 2 ^ 127 := by
    have h1 : (m : ℚ) ≤ 2 ^ 24 := by exact_mod_cast hm.le
    have h2 : (2 : ℚ) ^ e ≤ 2 ^ (104 : Int) := zpow_le_zpow_right₀ one_le_two he'
    have h3 : y * y ≤ 2 ^ 24 * 2 ^ (104 : Int) := by rw [← hx]; gcongr
    have h4 : y ≤ 2 ^ 127 := by
      refine le_of_not_gt fun h => ?_
      have : (2 : ℚ) ^ 127 * 2 ^ 127 < y * y := by gcongr
      norm_num at h3 this
      linarith
    rwa [abs_underSign false (by positivity), hval]
  have hbits : |underSign false ((r : ℚ) / fx)| = k * 2 ^ (((E / 2 : Nat) : Int) - 256) := by
    rw [abs_underSign false (by positivity), hrk, hfx, zpow_sub₀ two_ne_zero, zpow_natCast]
    push_cast
    rw [mul_div_assoc]
    rfl
  rw [hres, fpLane_of_roundsTo_exact hround hk (by omega) hbits hx127, hval]
  simp [underSign, hy.le]

/-- 2^n for an exponent n of FP32 is delivered exactly (R106, R107). -/
theorem exactFrac_two_pow {n : Int} (hlo : -149 ≤ n) (hhi : n ≤ 127) :
    fpLane .f32 (exactFrac false (fracOf 1 n).1 (fracOf 1 n).2) 0 = .fin false (2 ^ n) := by
  have hv : ((fracOf 1 n).1 : ℚ) / (fracOf 1 n).2 = 2 ^ n := by rw [fracOf_value, Nat.cast_one, one_mul]
  have hround := exactFrac_spec false (fracOf_num_pos one_ne_zero n) (fracOf_pos 1 n)
  have habs : |underSign false ((2 : ℚ) ^ n)| = 2 ^ n := abs_underSign false (two_zpow_pos n).le
  rw [hv] at hround
  rw [fpLane_of_roundsTo_exact hround (k := 1) (j := n) (by norm_num) hlo (by rw [habs, Nat.cast_one, one_mul])
    (by rw [habs]; exact zpow_le_zpow_right₀ one_le_two hhi)]
  simp [underSign, (two_zpow_pos n).le]

/-- The same of a value, with its sign. -/
theorem fpLane_of_rounded_exact {mode : RMode} {sat : Bool} {q k : Nat} {j : Int} {neg : Bool} {x : ℚ} {w : Word}
    (h : Rounded fp32 mode sat q (.fin neg x) w.toNat) (hneg : x ≠ 0 → neg = decide (x < 0)) (hk : k < 2 ^ 24) (hj : -149 ≤ j)
    (hx : |x| = k * 2 ^ j) (hmax : |x| ≤ 2 ^ 127) : fpLane .f32 w 0 = .fin neg x := by
  change if x = 0 then w.toNat = signCode fp32 neg 0 else RoundsTo fp32 mode sat q x w.toNat at h
  split at h
  · next h0 => rw [fpLane_f32, codeExt_val, h, codeExt_signCode fp32_sound neg (Nat.zero_le _), magValue_zero, h0]; simp [underSign]
  · next h0 => rw [fpLane_of_roundsTo_exact h hk hj hx hmax, hneg h0]

theorem sfuExp2_exact {w : Word} {s : Bool} {m : Nat} {e n : Int} (hlo : -149 ≤ n) (hhi : n ≤ 127) (hx : underSign s (m * 2 ^ e) = n) :
    fpLane .f32 (sfuExp2 w s m e) 0 = .fin false (2 ^ n) := by
  have hd := fracOf_pos m e
  have hn : (fracOf m e).1 = n.natAbs * (fracOf m e).2 := by
    have hv := fracOf_value m e
    have habs : (m : ℚ) * 2 ^ e = n.natAbs := by
      have h0 : (0 : ℚ) ≤ m * 2 ^ e := by positivity
      rw [← abs_underSign s h0, hx, Nat.cast_natAbs, Int.cast_abs]
    rw [habs, div_eq_iff (by exact_mod_cast hd.ne')] at hv
    exact_mod_cast hv
  have hsgn : (if s then -(n.natAbs : Int) else n.natAbs) = n := by
    have h0 : (0 : ℚ) ≤ m * 2 ^ e := by positivity
    cases s
    · rw [underSign, if_neg Bool.false_ne_true] at hx
      rw [hx] at h0
      have : 0 ≤ n := by exact_mod_cast h0
      rw [if_neg Bool.false_ne_true, Int.natAbs_of_nonneg this]
    · rw [underSign, if_pos rfl] at hx
      have : (n : ℚ) ≤ 0 := by rw [← hx]; linarith
      have : n ≤ 0 := by exact_mod_cast this
      rw [if_pos rfl, Int.ofNat_natAbs_of_nonpos this, neg_neg]
  have hres : sfuExp2 w s m e = exactFrac false (fracOf 1 n).1 (fracOf 1 n).2 := by
    have h200 : ¬200 * (fracOf m e).2 ≤ n.natAbs * (fracOf m e).2 := by
      rw [Nat.mul_le_mul_right_iff hd]; omega
    simp only [sfuExp2, hn, h200, if_false, Nat.mul_div_cancel _ hd, Nat.sub_self, if_true, sub_zero, hsgn]
  rw [hres, exactFrac_two_pow hlo hhi]

theorem sfuLog2_exact {w : Word} {m : Nat} {e n : Int} (hm0 : m ≠ 0) (hm : m < 2 ^ 24) (he : -149 ≤ e) (he' : e ≤ 104)
    (hx : (m : ℚ) * 2 ^ e = 2 ^ n) : fpLane .f32 (sfuLog2 w m e) 0 = .fin (decide (n < 0)) n := by
  -- The exponent is that of the leading bit, which is the only one.
  have hlo : (2 : ℚ) ^ (m.log2 : Int) ≤ m := by exact_mod_cast Nat.log2_self_le hm0
  have hhi : (m : ℚ) < 2 ^ ((m.log2 : Int) + 1) := by exact_mod_cast Nat.lt_log2_self (n := m)
  have hk : (m.log2 : Int) < 24 := by exact_mod_cast (Nat.log2_lt hm0).mpr hm
  have hme : (m : ℚ) = 2 ^ (n - e) := by
    rw [zpow_sub₀ two_ne_zero, ← hx, mul_div_cancel_right₀ _ (two_zpow_pos e).ne']
  rw [hme] at hlo hhi
  have h1 := (zpow_le_zpow_iff_right₀ (one_lt_two (α := ℚ))).mp hlo
  have h2 := (zpow_lt_zpow_iff_right₀ (one_lt_two (α := ℚ))).mp hhi
  have hn : e + m.log2 = n := by omega
  have hmk : m = 2 ^ m.log2 := by
    have : (m : ℚ) = 2 ^ (m.log2 : Int) := by rw [hme]; congr 1; omega
    exact_mod_cast this
  have hfrac : m * fx / 2 ^ m.log2 = fx := by
    conv_lhs => rw [show m * fx = 2 ^ m.log2 * fx by rw [← hmk]]
    exact Nat.mul_div_cancel_left _ (Nat.two_pow_pos _)
  have hres : sfuLog2 w m e = BitVec.ofNat 32 (fp32.round .rn false 0 (Fv.ofInt n)) := by
    simp only [sfuLog2, hfrac, if_true, hn]
  -- It is a small whole number.
  have hext : (Fv.ofInt n).ext = .fin (decide (n < 0)) n := by
    rw [Fv.ofInt, Fv.ext, zpow_zero, mul_one, underSign_natAbs]
  have hround := round_spec fp32_sound .rn false (q := 0) (by norm_num) (Fv.ofInt n)
  have habs : |(n : ℚ)| = n.natAbs * 2 ^ (0 : Int) := by rw [zpow_zero, mul_one, Nat.cast_natAbs, Int.cast_abs]
  have hsmall : n.natAbs < 2 ^ 8 := by omega
  rw [hext, ← toNat_word_of_rounded hround] at hround
  rw [hres]
  refine fpLane_of_rounded_exact hround (fun _ => by simp) (hsmall.trans (by norm_num)) (by norm_num) habs ?_
  rw [habs, zpow_zero, mul_one]
  exact_mod_cast hsmall.le.trans (by norm_num)

-- The functions of FSFU (R106, R107).

theorem sfuRcp_spec (w : Word) (s : Bool) {m : Nat} (hm : m ≠ 0) (e : Int) :
    RoundsTo fp32 .rn false 0 (1 / underSign s (m * 2 ^ e)) (sfuFinite .rcp w s m e).toNat := by
  have h := exactFrac_spec s (fracOf_pos m e) (fracOf_num_pos hm e)
  have : underSign s ((fracOf m e).2 / (fracOf m e).1) = 1 / underSign s ((m : ℚ) * 2 ^ e) := by
    rw [← fracOf_value]
    cases s <;> simp [underSign]
  rwa [this] at h

/-- A firing whose result depends on its sources alone delivers it (R34, R35, R37). -/
theorem delivers_of_fireFn {i : Instr} {r : Rule} {w : ImmW} {s : State} {v : View} {lat : Nat} {f : Word → Word → Word → Word}
    (hi : exec i s = .next (fireFn r w lat f s)) (hn : needFor s v i = needOf v.rule) (hf : MayFire i r w s v) (hl : 1 ≤ lat) :
    Delivers i s v lat (f v.a v.b v.c) (isSet (f v.a v.b v.c)) := by
  obtain ⟨hv, hr⟩ := hf
  rw [hn] at hr
  obtain ⟨hc, hw⟩ := fireAlu_spec false (fun _ => false) false hv hr hl (d := fun v _ => v.data (f v.a v.b v.c)) (need := fun v => needOf v.rule)
  exact ⟨_, hi, by rw [hn]; exact hc, hw⟩

theorem sfuFn_of_fin {f : SfuFn} {w : Word} {s : Bool} {m : Nat} {e : Int} (h : fp32.val w.toNat = .fin s m e) :
    sfuFn f w = if m = 0 then sfuZero f s else sfuFinite f w s m e := by rw [sfuFn, h]

theorem sfuFinite_sqrt (w : Word) (m : Nat) (e : Int) : sfuFinite .sqrt w false m e = sfuSqrt w m e := by
  rw [sfuFinite, if_neg Bool.false_ne_true]
theorem sfuFinite_log2 (w : Word) (m : Nat) (e : Int) : sfuFinite .log2 w false m e = sfuLog2 w m e := by
  rw [sfuFinite, if_neg Bool.false_ne_true]

/-- Settles O27: the special values by the tables of `sfuInf` and `sfuZero`, exact results because they have few enough bits. -/
theorem specialFunctions : Obligations.SpecialFunctions := by
  unfold Obligations.SpecialFunctions
  intro s v r f hf lat
  have hlat : lat = sfuLat f := by cases f <;> rfl
  have hone : 1 ≤ sfuLat f := by cases f <;> decide
  refine ⟨sfuFn f v.a, hlat ▸ delivers_of_fireFn rfl rfl hf hone, ?_⟩
  rw [fpLane_f32]
  cases hx : fp32.val v.a.toNat with
  | nan => simp only [sfuFn, hx]; rfl
  | inf neg => simp only [Fv.ext, sfuFn, hx]; cases f <;> rfl
  | fin neg m e =>
    obtain ⟨hm, he, he'⟩ := fp32_val_bounds hx
    have hx0 : underSign neg ((m : ℚ) * 2 ^ e) = 0 ↔ m = 0 := by
      rw [underSign_eq_zero_iff, mul_eq_zero, or_iff_left (two_zpow_pos e).ne', Nat.cast_eq_zero]
    rw [sfuFn_of_fin hx]
    simp only [Fv.ext, hx0]
    split
    · cases f <;> rfl
    · next hm0 =>
      have hpos : (0 : ℚ) < m * 2 ^ e := mul_pos (by exact_mod_cast Nat.pos_of_ne_zero hm0) (two_zpow_pos e)
      -- A positive value bears no sign.
      have hplain : 0 < underSign neg ((m : ℚ) * 2 ^ e) → neg = false ∧ underSign neg ((m : ℚ) * 2 ^ e) = m * 2 ^ e := by
        cases neg with
        | false => exact fun _ => ⟨rfl, rfl⟩
        | true => exact fun h => absurd h (not_lt.mpr (neg_nonpos.mpr hpos.le))
      refine ⟨?_, ?_, ?_, ?_, ?_⟩
      · rintro rfl
        exact sfuRcp_spec v.a neg hm0 e
      · rintro ⟨rfl | rfl | rfl, rfl⟩ <;> rfl
      · rintro y hy rfl hsq
        obtain ⟨rfl, hp⟩ := hplain (hsq ▸ mul_pos hy hy)
        rw [sfuFinite_sqrt]
        exact sfuSqrt_exact hm he he' hy (hp.symm.trans hsq)
      · rintro n hlo hhi rfl hn
        exact sfuExp2_exact hlo hhi hn
      · rintro n rfl hn
        obtain ⟨rfl, hp⟩ := hplain (hn ▸ two_zpow_pos n)
        rw [sfuFinite_log2]
        exact sfuLog2_exact hm0 hm he he' (hp.symm.trans hn)

end Sys2Proof.Machine
end

section
/-!
PROOFS. Block quantisation (R105, R156, R157).
-/
namespace Sys2Proof.Machine
open Claims

theorem laneVal_f32 (w : Word) : laneVal .f32 w 0 = fp32.val w.toNat := by
  change fp32.val (w.toNat / 2 ^ 0 % 2 ^ 32) = _
  rw [pow_zero, Nat.div_one, Nat.mod_eq_of_lt w.isLt]

theorem clampTo_eq_max_min {lo hi : Int} (h : lo ≤ hi) (v : Int) : clampTo lo hi v = max lo (min hi v) := by
  unfold clampTo
  split
  · omega
  · split <;> omega

/-- The exponent of a number (R105). -/
theorem zpow_log2_le {m : Nat} (hm : m ≠ 0) (e : Int) :
    (2 : ℚ) ^ ((m.log2 : Int) + e) ≤ m * 2 ^ e ∧ (m : ℚ) * 2 ^ e < 2 ^ ((m.log2 : Int) + e + 1) := by
  have hlo : (2 : ℚ) ^ (m.log2 : Int) ≤ m := by exact_mod_cast Nat.log2_self_le hm
  have hhi : (m : ℚ) < 2 ^ ((m.log2 : Int) + 1) := by exact_mod_cast Nat.lt_log2_self (n := m)
  rw [add_right_comm, zpow_add₀ two_ne_zero, zpow_add₀ two_ne_zero]
  exact ⟨mul_le_mul_of_nonneg_right hlo (two_zpow_pos e).le, mul_lt_mul_of_pos_right hhi (two_zpow_pos e)⟩

/-- A nonzero block's scale code (R105, R156). -/
theorem fxqScaleFn_of_fin {t : Ty} {w : Word} {s : Bool} {m : Nat} {e : Int} (hx : fp32.val w.toNat = .fin s m e) (hm : m ≠ 0) :
    ((fxqScaleFn t w).toNat : Int) = max (-127) (min 127 ((m.log2 : Int) + e - emaxOf t)) + 127 := by
  rw [fxqScaleFn, laneVal_f32, hx]
  dsimp only
  rw [if_neg hm, clampTo_eq_max_min (by norm_num), BitVec.toNat_ofInt, Int.toNat_of_nonneg (Int.emod_nonneg _ (by norm_num))]
  exact Int.emod_eq_of_lt (by omega) (by norm_num; omega)

/-- An element is shifted in above the elements before it (R157). -/
theorem toNat_shifted_in (x : Word) {w e : Nat} (hw : w ≤ 32) (he : e < 2 ^ w) :
    (BitVec.ofNat 32 (x.toNat / 2 ^ w + e * 2 ^ (32 - w))).toNat = x.toNat / 2 ^ w + e * 2 ^ (32 - w) := by
  rw [BitVec.toNat_ofNat]
  refine Nat.mod_eq_of_lt ?_
  have h32 : 2 ^ 32 = 2 ^ w * 2 ^ (32 - w) := by rw [← pow_add, Nat.add_sub_of_le hw]
  have hx : x.toNat / 2 ^ w < 2 ^ (32 - w) := Nat.div_lt_of_lt_mul (h32 ▸ x.isLt)
  calc x.toNat / 2 ^ w + e * 2 ^ (32 - w) < (e + 1) * 2 ^ (32 - w) := by rw [Nat.succ_mul]; omega
    _ ≤ 2 ^ w * 2 ^ (32 - w) := Nat.mul_le_mul_right _ he
    _ = 2 ^ 32 := h32.symm

/-- A value over a power of two (R157). -/
def Fv.over (v : Fv) (k : Int) : Fv :=
  match v with
  | .fin s g e => .fin s g (e - k)
  | v => v

theorem Fv.ext_over_fin (s : Bool) (m : Nat) (e k : Int) : ((Fv.fin s m e).over k).ext = .fin s (underSign s (m * 2 ^ e) / 2 ^ k) := by
  rw [Fv.over, Fv.ext, zpow_sub₀ two_ne_zero, ← mul_div_assoc, underSign_div]

/-- The code of an element under the scale code `n`: that of NaN where the scale is NaN (R157). -/
def fxqCode (t : Ty) (x : Word) (n : Nat) : Nat :=
  if n = 0xFF then (if t = .e4m3x4 then 0x7F else if t = .e5m2x4 then 0x7E else 0)
  else (fmtOf t).round .rn true 0 ((fp32.val x.toNat).over ((n : Int) - 127))

theorem fxqQFn_eq (t : Ty) (x sc m : Word) :
    fxqQFn t x sc m = BitVec.ofNat 32 (m.toNat / 2 ^ t.width + fxqCode t x (sc.toNat % 256) * 2 ^ (32 - t.width)) := by
  unfold fxqQFn fxqCode
  rw [laneVal_f32]
  cases t <;> rfl

theorem fxqCode_nan (t : Ty) (x : Word) : fxqCode t x 0xFF = if t = .e4m3x4 then 0x7F else if t = .e5m2x4 then 0x7E else 0 := if_pos rfl

theorem fxqCode_rounded (t : Ty) (x : Word) {n : Nat} (hn : n ≠ 0xFF) :
    Rounded (fmtOf t) .rn true 0 ((fp32.val x.toNat).over ((n : Int) - 127)).ext (fxqCode t x n) := by
  rw [fxqCode, if_neg hn]
  exact round_spec (fmtOf_sound t) .rn true (by norm_num) _

theorem fxqCode_lt (t : Ty) (ht : t = .e4m3x4 ∨ t = .e5m2x4 ∨ t = .e2m1x8) (x : Word) (n : Nat) : fxqCode t x n < 2 ^ (fmtOf t).bits := by
  by_cases hn : n = 0xFF
  · rw [hn, fxqCode_nan]
    rcases ht with rfl | rfl | rfl <;> decide
  · exact lt_of_rounded (fmtOf_sound t) (fxqCode_rounded t x hn)

/-- Settles O28: the scale code by the exponent of the leading bit, the element's code because `Fmt.round` is RoundTo. -/
theorem blockQuantisation : Obligations.BlockQuantisation := by
  unfold Obligations.BlockQuantisation
  intro s v r t emax ht
  obtain ⟨ht, hemax, hw, h32⟩ : (t = .e4m3x4 ∨ t = .e5m2x4 ∨ t = .e2m1x8) ∧ emaxOf t = emax ∧ t.width = (fmtOf t).bits ∧ (fmtOf t).bits ≤ 32 := by
    simp only [List.mem_cons, Prod.mk.injEq, List.not_mem_nil, or_false] at ht
    rcases ht with ⟨rfl, rfl⟩ | ⟨rfl, rfl⟩ | ⟨rfl, rfl⟩ <;> decide
  refine ⟨fun hf => ⟨_, delivers_of_fireFn rfl rfl hf (by decide), ?_⟩, fun hf => ?_⟩
  · rw [fpLane_f32]
    cases hx : fp32.val v.a.toNat with
    | nan | inf => simp only [fxqScaleFn, laneVal_f32, hx, Fv.ext]
    | fin neg m e =>
      simp only [Fv.ext, underSign_eq_zero_iff, mul_eq_zero, (two_zpow_pos e).ne', or_false, Nat.cast_eq_zero]
      split
      · next hm => simp only [fxqScaleFn, laneVal_f32, hx, hm, if_true]
      · next hm =>
        obtain ⟨hlo, hhi⟩ := zpow_log2_le hm e
        have habs : |underSign neg ((m : ℚ) * 2 ^ e)| = m * 2 ^ e := abs_underSign neg (by positivity)
        exact ⟨_, by rwa [habs], by rwa [habs], hemax ▸ fxqScaleFn_of_fin hx hm⟩
  · refine ⟨_, fxqCode t v.a (v.b.toNat % 256), delivers_of_fireFn rfl rfl hf (by decide), ?_, fun hn => ?_, fun hn => ?_⟩
    · rw [fxqQFn_eq, hw]
      exact toNat_shifted_in v.c h32 (fxqCode_lt t ht v.a _)
    · rw [hn, fxqCode_nan]
    · have h := fxqCode_rounded t v.a hn
      rw [fpLane_f32]
      cases hx : fp32.val v.a.toNat with
      | nan | inf => rw [hx] at h; exact h
      | fin neg m e => rw [hx, Fv.ext_over_fin] at h; exact h

end Sys2Proof.Machine
end

section
/-!
SUPPORT. The arithmetic of XS256 sectors (R111 to R113).
-/
namespace Sys2Proof.Machine
open Claims

-- The arithmetic of XS256 (R111 to R113).

theorem xsOutside_of_fin {w : Word} {s : Bool} {m : Nat} {e : Int} (hx : fp32.val w.toNat = .fin s m e) :
    xsOutside w = true ↔ (2 : ℚ) ^ 126 ≤ m * 2 ^ e := by
  have hd : (0 : ℚ) < (fracOf m e).2 := by exact_mod_cast fracOf_pos m e
  rw [xsOutside, hx, ← fracOf_value, le_div_iff₀ hd, mul_comm]
  change decide ((fracOf m e).2 * 2 ^ 126 ≤ (fracOf m e).1) = true ↔ _
  rw [decide_eq_true_eq]
  exact_mod_cast Iff.rfl

/-- An addend is truncated to a multiple of 2^−128 (R112). -/
theorem xsOf_of_fin {w : Word} {s : Bool} {m : Nat} {e : Int} (hx : fp32.val w.toNat = .fin s m e) :
    xsOf w = if s then -⌊(m : ℚ) * 2 ^ e * 2 ^ 128⌋ else ⌊(m : ℚ) * 2 ^ e * 2 ^ 128⌋ := by
  have hfl : ⌊(m : ℚ) * 2 ^ e * 2 ^ 128⌋ = (((fracOf m (e + 128)).1 / (fracOf m (e + 128)).2 : Nat) : Int) := by
    rw [Int.natCast_div, ← Rat.floor_natCast_div_natCast, fracOf_value, zpow_add₀ two_ne_zero, mul_assoc]
    rfl
  rw [xsOf, hx, hfl]

/-- XRD's rounding of a sector's value (R113). -/
theorem xsRead_spec {n : Nat} (hn : n < 2 ^ 256) :
    Rounded fp32 .rn false 0 (.fin (decide (2 ^ 255 ≤ n)) ((if n < 2 ^ 255 then (n : ℚ) else (n : ℚ) - 2 ^ 256) / 2 ^ 128)) (xsRead n).toNat := by
  obtain ⟨v, hv⟩ : ∃ v : Int, v = if n < 2 ^ 255 then (n : Int) else n - 2 ^ 256 := ⟨_, rfl⟩
  have hval : (if n < 2 ^ 255 then (n : ℚ) else (n : ℚ) - 2 ^ 256) = v := by rw [hv]; split <;> push_cast <;> rfl
  have hneg : decide (2 ^ 255 ≤ n) = decide (v < 0) := by rw [hv]; exact decide_eq_decide.mpr (by split <;> omega)
  have hread : xsRead n = BitVec.ofNat 32 (if v = 0 then 0 else fp32.roundFrac .rn false 0 (decide (v < 0)) v.natAbs (2 ^ 128)) := by
    rw [xsRead, xsRead.signedOfXs, Nat.mod_eq_of_lt hn, hv]
  have hsign : underSign (decide (v < 0)) ((v.natAbs : ℚ) / 2 ^ 128) = v / 2 ^ 128 := by
    rw [underSign_div, underSign_natAbs]
  rw [hval, hneg, hread]
  change if (v : ℚ) / 2 ^ 128 = 0 then _ = signCode fp32 (decide (v < 0)) 0 else RoundsTo fp32 .rn false 0 ((v : ℚ) / 2 ^ 128) _
  rcases eq_or_ne v 0 with rfl | h0
  · simp [signCode]
  · have h0' : (v : ℚ) / 2 ^ 128 ≠ 0 := div_ne_zero (by exact_mod_cast h0) (by positivity)
    have h := roundFrac_spec fp32_sound .rn false (q := 0) (by norm_num) (decide (v < 0)) (Int.natAbs_pos.mpr h0) (Nat.two_pow_pos 128)
    rw [Nat.cast_pow, Nat.cast_ofNat, hsign] at h
    rw [if_neg h0', if_neg h0, toNat_word_of_roundsTo h]
    exact h

end Sys2Proof.Machine
end

section
/-!
SUPPORT. Writes at homes: what they wake, and the write-back of a sector (R288 to R290, R293, R335).
-/
namespace Sys2Proof.Machine
open Claims

-- Little-endian numbers (R3).

theorem natLe_getElem (n v : Nat) {i : Nat} (hi : i < (natLe n v).length) : (natLe n v)[i] = BitVec.ofNat 8 (v / 256 ^ i) := by
  induction n generalizing v i with
  | zero => simp [natLe] at hi
  | succ n ih =>
    cases i with
    | zero => simp [natLe]
    | succ i =>
      simp only [natLe, List.getElem_cons_succ]
      rw [ih, Nat.div_div_eq_div_mul, Nat.pow_succ']

theorem leNat_map_range (n : Nat) (f : Nat → Byte) :
    leNat ((List.range n).map f) = ((List.range n).map fun i => (f i).toNat * 256 ^ i).sum := by
  induction n generalizing f with
  | zero => rfl
  | succ n ih =>
    rw [List.range_succ_eq_map, List.map_cons, List.map_cons, List.sum_cons, List.map_map, List.map_map, leNat, ih, ← List.sum_map_mul_left]
    simp [Function.comp_def, Nat.pow_succ', Nat.mul_left_comm]

theorem leNat_lt (bs : List Byte) : leNat bs < 256 ^ bs.length := by
  induction bs with
  | nil => exact Nat.one_pos
  | cons b bs ih =>
    have := b.isLt
    rw [leNat, List.length_cons, Nat.pow_succ]
    omega

theorem natLe_leNat (bs : List Byte) : natLe bs.length (leNat bs) = bs := by
  induction bs with
  | nil => rfl
  | cons b bs ih =>
    have hb := b.isLt
    rw [List.length_cons, natLe, leNat, Nat.add_mul_div_left _ _ (by norm_num), Nat.div_eq_of_lt hb, Nat.zero_add, ih]
    congr 1
    refine BitVec.eq_of_toNat_eq ?_
    rw [BitVec.toNat_ofNat, Nat.add_mul_mod_self_left, Nat.mod_eq_of_lt hb]

/-- Byte `i` of the number that some bytes make. -/
theorem byte_of_leNat {n i : Nat} (f : Nat → Byte) (hi : i < n) : BitVec.ofNat 8 (leNat ((List.range n).map f) / 256 ^ i) = f i := by
  have hlen : ((List.range n).map f).length = n := by simp
  have h := natLe_leNat ((List.range n).map f)
  rw [← natLe_getElem n _ (by rw [natLe_length]; exact hi)]
  simp only [hlen] at h
  simp [h]

theorem State.clusterNat_eq (s : State) (cl loc n : Nat) : clusterNat s cl loc n = leNat ((List.range n).map fun i => s.clusterByte cl (loc + i)) :=
  (leNat_map_range n _).symm

-- A write at a home re-evaluates what watches its sector (R293, R299).

/-- A parked WAITA on whose word a write has made its condition hold (R293). -/
def Req.WokenAs (x y : Req) : Prop :=
  y = x ∨ ∃ a tm w, x.stage = .parked (.waita a tm none) ∧ y = { x with stage := .parked (.waita a tm (some w)) }

theorem Req.WokenAs.trans {x y z : Req} (h : x.WokenAs y) (k : y.WokenAs z) : x.WokenAs z := by
  rcases h with rfl | ⟨a, tm, w, hx, rfl⟩
  · exact k
  · rcases k with rfl | ⟨a', tm', w', hy, -⟩
    · exact .inr ⟨a, tm, w, hx, rfl⟩
    · simp at hy

theorem Req.WokenAs.id {x y : Req} (h : x.WokenAs y) : y.id = x.id := by
  rcases h with rfl | ⟨_, _, _, _, rfl⟩ <;> rfl

theorem Req.WokenAs.of_held {x y : Req} {a : GAcc} (h : x.WokenAs y) (hx : x.stage = .held a) : y = x := by
  rcases h with rfl | ⟨_, _, _, hp, _⟩
  · rfl
  · rw [hx] at hp; cases hp

/-- A gang, but for whether its predicate has been met. -/
def Gang.unmet (g : Gang) : Gang := { g with predZero := false }

/-- Writes at homes have woken parked WAITAs and met gangs' predicates, and changed nothing else but what the store holds. -/
structure Wakes (s t : State) : Prop where
  puts : Puts s t
  reqs : ∃ woken : Req → Req, (∀ x : Req, x.WokenAs (woken x)) ∧ t.fab.reqs = s.fab.reqs.map woken
  gangs : ∀ g, (t.gang g).map Gang.unmet = (s.gang g).map Gang.unmet

theorem Wakes.refl_store {s t : State} (h : t = { s with store := t.store }) : Wakes s t := by
  refine ⟨⟨by rw [h]⟩, ⟨id, fun _ => .inl rfl, ?_⟩, fun g => ?_⟩
  · rw [h, List.map_id]
  · rw [h]; rfl

theorem Wakes.trans {s t u : State} (h : Wakes s t) (k : Wakes t u) : Wakes s u := by
  obtain ⟨f, hf, hfs⟩ := h.reqs
  obtain ⟨f', hf', hfs'⟩ := k.reqs
  exact ⟨h.puts.trans k.puts, ⟨f' ∘ f, fun x => (hf x).trans (hf' _), by rw [hfs', hfs, List.map_map]⟩,
    fun g => (k.gangs g).trans (h.gangs g)⟩

/-- What a change of a table's values leaves of them. -/
theorem Tab.look_map_of_fixed {α β : Type} {f : Nat × α → Nat × α} {u : α → β} (hk : ∀ e, (f e).1 = e.1) (hu : ∀ e, u (f e).2 = u e.2)
    (t : Tab α) (k : Nat) : (Tab.look (t.map f) k).map u = (t.look k).map u := by
  induction t with
  | nil => rfl
  | cons e t ih =>
    simp only [List.map_cons, Tab.look, hk]
    split
    · simp [hu]
    · exact ih

theorem Wakes.wake {s : State} {sec : Nat} (hm : s.store.marks.look sec = none) : Wakes s (s.wake sec) := by
  refine ⟨⟨rfl⟩, ⟨_, fun x => ?_, rfl⟩, fun g => ?_⟩
  · -- A request.
    dsimp only
    split
    · next a tm hx =>
      rw [hm]
      dsimp only
      split
      · exact .inl rfl
      · split
        · exact .inr ⟨a, tm, _, hx, rfl⟩
        · exact .inl rfl
    · exact .inl rfl
  · -- A gang.
    unfold State.gang State.wake
    dsimp only
    refine Tab.look_map_of_fixed ?_ (fun e => ?_) _ g
    · exact fun _ => rfl
    dsimp only
    split
    · split <;> rfl
    · rfl

-- A write to a sector (R335, R337).

/-- A write to a sector that is not marked leaves it unmarked, changes bytes of homes alone, and wakes what watches it. -/
theorem State.writeSector_spec {s : State} {sec : Nat} (hm : s.store.marks.look sec = none) (ws : List (Nat × Byte)) :
    Wakes s (s.writeSector sec ws) ∧ (s.writeSector sec ws).store.marks.look sec = none ∧
    (s.writeSector sec ws).store = { s.store with cells := (s.writeSector sec ws).store.cells, stale := (s.writeSector sec ws).store.stale,
                                                  marks := (s.writeSector sec ws).store.marks } := by
  have hm' : (if ws.length = 32 then s.store.marks.drop sec else s.store.marks).look sec = none := by
    split
    · exact Tab.look_drop_same _ _
    · exact hm
  exact ⟨(Wakes.refl_store rfl).trans (Wakes.wake hm'), hm', rfl⟩

theorem State.homeByte_writeSector_other {s : State} {sec l : Nat} {ws : List (Nat × Byte)} (hm : s.memoryOk) (h : ∀ w ∈ ws, w.1 ≠ l) :
    (s.writeSector sec ws).homeByte l = s.homeByte l :=
  State.homeByte_writeSector hm (fun w hw hl => absurd hl (h w hw)) (.inl rfl)

theorem located_eq (loc : Nat) (bs : List Byte) {w : Nat × Byte} : w ∈ located loc bs ↔ ∃ i, ∃ h : i < bs.length, w = (loc + i, bs[i]) := by
  simp only [located, List.mem_mapIdx, eq_comm]

/-- A write of a whole sector. -/
theorem State.homePut_sector (s : State) {loc : Nat} (hl : loc % 32 = 0) {bs : List Byte} (hb : bs.length = 32) :
    s.homePut loc bs = s.writeSector (loc / 32) (located loc bs) := by
  have hr : (loc + bs.length + 31) / 32 - loc / 32 = 1 := by omega
  have hf : (located loc bs).filter (fun w => decide (w.1 / 32 = loc / 32 + 0)) = located loc bs := by
    refine List.filter_eq_self.mpr fun w hw => ?_
    obtain ⟨i, hi, rfl⟩ := (located_eq loc bs).mp hw
    simp only [decide_eq_true_eq]
    omega
  have hne : located loc bs ≠ [] := by
    intro h
    have := congrArg List.length h
    simp [located, hb] at this
  unfold State.homePut
  rw [hr, List.range_one, List.foldl_cons, List.foldl_nil]
  dsimp only
  rw [hf]
  split
  · next h => exact absurd h hne
  · rfl

theorem State.homeByte_homePut_same {s : State} (hm : s.memoryOk) {loc : Nat} (hl : loc % 32 = 0) {bs : List Byte} (hb : bs.length = 32)
    {i : Nat} (hi : i < bs.length) : (s.homePut loc bs).homeByte (loc + i) = bs[i] := by
  rw [State.homePut_sector s hl hb]
  refine State.homeByte_writeSector hm (fun w hw hwl => ?_) (.inr ⟨_, (located_eq loc bs).mpr ⟨i, hi, rfl⟩, rfl⟩)
  obtain ⟨j, hj, rfl⟩ := (located_eq loc bs).mp hw
  obtain rfl : j = i := by omega
  rfl

theorem State.homeByte_homePut_other {s : State} (hm : s.memoryOk) {loc : Nat} (hl : loc % 32 = 0) {bs : List Byte} (hb : bs.length = 32)
    {a : Nat} (ha : a < loc ∨ loc + bs.length ≤ a) : (s.homePut loc bs).homeByte a = s.homeByte a := by
  rw [State.homePut_sector s hl hb]
  refine State.homeByte_writeSector_other hm fun w hw => ?_
  obtain ⟨j, hj, rfl⟩ := (located_eq loc bs).mp hw
  dsimp only
  omega

-- A sector's write-back (R288, R289).

theorem dirtyKey_div (cl sec i : Nat) (hi : i < 32) : dirtyKey cl (32 * sec + i) / 32 = dirtyKey cl (32 * sec) / 32 := by
  simp only [dirtyKey]; omega

theorem dirtyKey_div_eq_iff {c cl a sec : Nat} (ha : a < 2 ^ 40) (hs : sec < 2 ^ 35) :
    dirtyKey c a / 32 = dirtyKey cl (32 * sec) / 32 ↔ c = cl ∧ a / 32 = sec := by
  simp only [dirtyKey]; omega

theorem Tab.look_filter {α : Type} (t : Tab α) (p : Nat → Bool) (k : Nat) :
    Tab.look (t.filter fun e => p e.1) k = if p k then t.look k else none := by
  induction t with
  | nil => simp [Tab.look]
  | cons e t ih =>
    by_cases hp : p e.1 = true
    · rw [List.filter_cons_of_pos (by exact hp), Tab.look, Tab.look, ih]
      by_cases he : e.1 = k
      · subst he; simp [hp]
      · simp [he]
    · rw [List.filter_cons_of_neg (by exact hp), ih]
      by_cases he : e.1 = k
      · subst he; simp [hp]
      · simp [Tab.look, he]

/-- The bytes of a sector that a write-back writes are those that its cluster holds dirty. -/
theorem State.mem_dirtyOf {s : State} {cl sec : Nat} {w : Nat × Byte} : w ∈ s.dirtyOf cl sec ↔
    w.1 / 32 = sec ∧ s.store.dirty.look (dirtyKey cl w.1) = some w.2 := by
  obtain ⟨l, b⟩ := w
  simp only [State.dirtyOf, List.mem_filterMap, List.mem_range, Option.map_eq_some_iff, Prod.mk.injEq]
  constructor
  · rintro ⟨i, hi, b', hb, rfl, rfl⟩
    exact ⟨by omega, hb⟩
  · rintro ⟨hl, hb⟩
    have : 32 * sec + l % 32 = l := by omega
    exact ⟨l % 32, Nat.mod_lt _ (by norm_num), b, by rwa [this], this, rfl⟩

theorem Store.prune_spec (t : Store) (line : Nat) : t.prune line = { t with wides := (t.prune line).wides } ∧
    ((t.prune line).wides = t.wides ∨ (t.prune line).wides = t.wides.map fun w => { w with lines := w.lines.filter fun l => l ≠ line }) := by
  unfold Store.prune
  split
  · exact ⟨rfl, .inl rfl⟩
  · exact ⟨rfl, .inr rfl⟩

/-- A cluster holds no dirty byte of a sector any more: its bytes are at the home, and every other byte stands (R288, R289, R290). -/
structure CleansSector (s t : State) (cl sec : Nat) : Prop where
  wakes : Wakes s t
  memoryOk : t.memoryOk
  unmarked : t.store.marks.look sec = none
  home : ∀ a, t.homeByte a = if a / 32 = sec then s.clusterByte cl a else s.homeByte a
  dirty : ∀ c a, a < 2 ^ 40 → t.store.dirty.look (dirtyKey c a) = if c = cl ∧ a / 32 = sec then none else s.store.dirty.look (dirtyKey c a)
  wides : t.store.wides = s.store.wides ∨
    t.store.wides = s.store.wides.map fun w => { w with lines := w.lines.filter fun l => l ≠ dirtyKey cl (32 * sec / 128 * 128) }
  store : t.store = { s.store with cells := t.store.cells, stale := t.store.stale, marks := t.store.marks, dirty := t.store.dirty,
                                   badDirty := t.store.badDirty, wides := t.store.wides }

/-- The state in which a cluster's dirty bytes of a sector are on their way to the home. -/
def State.unDirty (s : State) (cl sec : Nat) : State :=
  { s with store := { s.store with dirty := s.store.dirty.filter fun e => e.1 / 32 ≠ dirtyKey cl (32 * sec) / 32,
                                   badDirty := s.store.badDirty.filter fun x => x ≠ dirtyKey cl (32 * sec) }.prune
                                     (dirtyKey cl (32 * sec) / 128 * 128) }

theorem State.writeBackSector_eq {s : State} {cl sec : Nat} (hb : dirtyKey cl (32 * sec) ∉ s.store.badDirty) (hd : s.dirtyOf cl sec ≠ []) :
    s.writeBackSector cl sec = (s.unDirty cl sec).writeSector sec (s.dirtyOf cl sec) := by
  unfold State.writeBackSector
  split
  · next h => exact absurd h hd
  · dsimp only
    rw [if_neg (by simpa using hb)]
    rfl

theorem State.unDirty_store (s : State) (cl sec : Nat) : (s.unDirty cl sec).store =
    { s.store with dirty := s.store.dirty.filter fun e => e.1 / 32 ≠ dirtyKey cl (32 * sec) / 32, badDirty := (s.unDirty cl sec).store.badDirty,
                   wides := (s.unDirty cl sec).store.wides } := by
  unfold State.unDirty
  dsimp only
  rw [(Store.prune_spec _ _).1]

theorem State.unDirty_dirty (s : State) {c cl a sec : Nat} (ha : a < 2 ^ 40) (hs : sec < 2 ^ 35) :
    (s.unDirty cl sec).store.dirty.look (dirtyKey c a) = if c = cl ∧ a / 32 = sec then none else s.store.dirty.look (dirtyKey c a) := by
  rw [State.unDirty_store]
  refine (Tab.look_filter s.store.dirty (fun k => decide (k / 32 ≠ dirtyKey cl (32 * sec) / 32)) (dirtyKey c a)).trans ?_
  simp only [decide_eq_true_eq, ne_eq, dirtyKey_div_eq_iff ha hs, ite_not]

theorem State.writeBackSector_spec {s : State} {cl sec : Nat} (hm : s.memoryOk) (hs : sec < 2 ^ 35) (hk : s.store.marks.look sec = none)
    (hb : dirtyKey cl (32 * sec) ∉ s.store.badDirty) : CleansSector s (s.writeBackSector cl sec) cl sec := by
  have hok := State.writeBackSector_memoryOk hm cl sec
  by_cases hd : s.dirtyOf cl sec = []
  · -- Nothing is dirty.
    have hnone : ∀ a, a / 32 = sec → s.store.dirty.look (dirtyKey cl a) = none := by
      intro a ha
      refine Option.eq_none_iff_forall_ne_some.mpr fun b hb => ?_
      have : (a, b) ∈ s.dirtyOf cl sec := State.mem_dirtyOf.mpr ⟨ha, hb⟩
      rw [hd] at this
      exact List.not_mem_nil this
    have heq : s.writeBackSector cl sec = s := by
      unfold State.writeBackSector
      rw [hd]
    rw [heq]
    refine ⟨Wakes.refl_store rfl, hm, hk, fun a => ?_, fun c a ha => ?_, .inl rfl, rfl⟩
    · split
      · next h => rw [State.clusterByte, hnone a h]; rfl
      · rfl
    · split
      · next h => rw [h.1]; exact hnone a h.2
      · rfl
  · rw [State.writeBackSector_eq hb hd] at hok ⊢
    have hst := s.unDirty_store cl sec
    have hcells : (s.unDirty cl sec).store.cells = s.store.cells := by rw [hst]
    have hmem : (s.unDirty cl sec).memoryOk := by
      have : (s.unDirty cl sec).store.spad = s.store.spad := by rw [hst]
      exact ⟨hcells ▸ hm.1, this ▸ hm.2⟩
    obtain ⟨hw, hk', hrest⟩ := State.writeSector_spec (s := s.unDirty cl sec) (sec := sec) (by rw [hst]; exact hk) (s.dirtyOf cl sec)
    have hkey : dirtyKey cl (32 * sec) / 128 * 128 = dirtyKey cl (32 * sec / 128 * 128) := by simp only [dirtyKey]; omega
    refine ⟨(Wakes.refl_store rfl).trans hw, hok, hk', fun a => ?_, fun c a ha => ?_, ?_, ?_⟩
    · -- What the home holds.
      have hdirty : ∀ w ∈ s.dirtyOf cl sec, w.1 = a → a / 32 = sec ∧ s.store.dirty.look (dirtyKey cl a) = some w.2 := by
        rintro w hw rfl
        exact State.mem_dirtyOf.mp hw
      refine State.homeByte_writeSector hmem (fun w hw hwa => ?_) ?_
      · obtain ⟨ha, hl⟩ := hdirty w hw hwa
        rw [if_pos ha, State.clusterByte, hl]
        rfl
      · split
        · next ha =>
          cases hl : s.store.dirty.look (dirtyKey cl a) with
          | none => exact .inl (by rw [State.clusterByte, hl, State.homeByte, hcells]; rfl)
          | some b => exact .inr ⟨(a, b), State.mem_dirtyOf.mpr ⟨ha, hl⟩, rfl⟩
        · exact .inl (by rw [State.homeByte, hcells]; rfl)
    · rw [hrest]
      exact s.unDirty_dirty ha hs
    · rw [hrest, ← hkey]
      exact (Store.prune_spec _ _).2
    · rw [hrest, hst]

/-- Of the bytes that a cluster sees, the write-back of its own changes none. -/
theorem CleansSector.clusterByte {s t : State} {cl sec : Nat} (h : CleansSector s t cl sec) {c a : Nat} (ha : a < 2 ^ 40)
    (hc : c = cl ∨ a / 32 ≠ sec) : t.clusterByte c a = s.clusterByte c a := by
  rw [State.clusterByte, h.dirty c a ha, h.home]
  by_cases hs : a / 32 = sec
  · obtain rfl := hc.resolve_right (not_not.mpr hs)
    simp [hs]
  · simp [hs, State.clusterByte]

theorem WritesHome.congr {s s' t t' : State} {cl loc n x : Nat} (hs : s'.store = s.store) (ht : t'.store = t.store)
    (h : WritesHome s t cl loc n x) : WritesHome s' t' cl loc n x := by
  unfold WritesHome State.clusterByte State.homeByte at *
  rwa [hs, ht]

/-- The write-back of a whole sector is a write at the home of what its cluster sees. -/
theorem CleansSector.writesHome {s t : State} {cl loc : Nat} (h : CleansSector s t cl (loc / 32)) (hl : loc % 32 = 0) (hlt : loc < 2 ^ 40) :
    WritesHome s t cl loc 32 (clusterNat s cl loc 32) := by
  have hout : ∀ a, a < loc ∨ loc + 32 ≤ a → a / 32 ≠ loc / 32 := fun a ha => by omega
  have hline : 32 * (loc / 32) / 128 * 128 = loc / 128 * 128 := by omega
  refine ⟨fun i hi => ?_, fun a ha => ?_, fun a c ha hr hc => ?_, hline ▸ h.wides, h.store⟩
  · have hsec : (loc + i) / 32 = loc / 32 := by omega
    rw [State.clusterNat_eq, byte_of_leNat (fun i => s.clusterByte cl (loc + i)) hi, h.home, if_pos hsec]
    exact ⟨rfl, h.clusterByte (by omega) (.inl rfl)⟩
  · rw [h.home, if_neg (hout a ha)]
  · exact h.clusterByte ha hc

/-- A write of a whole sector after it (R203, R288). -/
theorem CleansSector.homePut {s t : State} {cl loc : Nat} (h : CleansSector s t cl (loc / 32)) (hl : loc % 32 = 0) (hlt : loc < 2 ^ 40)
    {bs : List Byte} (hb : bs.length = 32) {x : Nat} (hx : ∀ i, (hi : i < bs.length) → bs[i] = BitVec.ofNat 8 (x / 256 ^ i)) :
    WritesHome s (t.homePut loc bs) cl loc 32 x ∧ Wakes s (t.homePut loc bs) := by
  have hout : ∀ a, a < loc ∨ loc + 32 ≤ a → a / 32 ≠ loc / 32 := fun a ha => by omega
  have hline : 32 * (loc / 32) / 128 * 128 = loc / 128 * 128 := by omega
  obtain ⟨hw, -, hst⟩ := State.writeSector_spec h.unmarked (located loc bs)
  rw [← State.homePut_sector t hl hb] at hw hst
  have hin : ∀ i, i < 32 → (t.homePut loc bs).homeByte (loc + i) = BitVec.ofNat 8 (x / 256 ^ i) := fun i hi => by
    rw [State.homeByte_homePut_same h.memoryOk hl hb (hb.symm ▸ hi), hx]
  have hother : ∀ a, a < loc ∨ loc + 32 ≤ a → (t.homePut loc bs).homeByte a = t.homeByte a := fun a ha =>
    State.homeByte_homePut_other h.memoryOk hl hb (hb.symm ▸ ha)
  generalize t.homePut loc bs = u at *
  have hsees : ∀ c a, u.clusterByte c a = (t.store.dirty.look (dirtyKey c a)).getD (u.homeByte a) := fun c a => by
    rw [State.clusterByte, hst]
  refine ⟨⟨fun i hi => ?_, fun a ha => ?_, fun a c ha hr hc => ?_, ?_, ?_⟩, h.wakes.trans hw⟩
  · have hsec : (loc + i) / 32 = loc / 32 := by omega
    rw [hsees, h.dirty cl _ (by omega), if_pos ⟨rfl, hsec⟩, hin i hi]
    exact ⟨rfl, rfl⟩
  · rw [hother a ha, h.home, if_neg (hout a ha)]
  · rw [hsees, hother a hr]
    exact h.clusterByte ha hc
  · rw [hst, ← hline]
    exact h.wides
  · rw [hst, h.store]

end Sys2Proof.Machine
end

section
/-!
SUPPORT. What a translation leaves, and where it finds a location (R335, R341 to R353).
-/
namespace Sys2Proof.Machine
open Claims

-- What a translation leaves (R343 to R347, R353).

/-- A translation changes what translations keep and, where it sets a reference bit, memory: every request keeps its name. -/
structure Translates (s u : State) : Prop where
  rest : u = { s with fab := { s.fab with reqs := u.fab.reqs }, cores := u.cores, store := u.store, dies := u.dies, pkg := u.pkg, free := u.free }
  ids : u.fab.reqs.map Req.id = s.fab.reqs.map Req.id
  memoryOk : s.memoryOk → u.memoryOk

theorem Translates.trans {s t u : State} (h : Translates s t) (k : Translates t u) : Translates s u := by
  refine ⟨?_, k.ids.trans h.ids, fun hm => k.memoryOk (h.memoryOk hm)⟩
  have := k.rest
  rw [h.rest] at this
  exact this

/-- A change of what is neither the fabric nor memory. -/
theorem Translates.of_eq {s u : State} (h : u = { s with cores := u.cores, dies := u.dies, pkg := u.pkg, free := u.free }) : Translates s u := by
  refine ⟨?_, ?_, ?_⟩
  · rw [h]
  · rw [h]
  · rw [h]; exact id

theorem Translates.refl (s : State) : Translates s s := .of_eq rfl

theorem State.wake_ids (s : State) (sec : Nat) : (s.wake sec).fab.reqs.map Req.id = s.fab.reqs.map Req.id := by
  simp only [State.wake, List.map_map]
  refine List.map_congr_left fun x _ => ?_
  simp only [Function.comp]
  repeat' split
  all_goals rfl

theorem Translates.writeSector (s : State) (sec : Nat) (ws : List (Nat × Byte)) : Translates s (s.writeSector sec ws) :=
  ⟨rfl, State.wake_ids _ sec, fun hm => State.writeSector_memoryOk hm sec ws⟩

theorem Translates.physPut (s : State) (pa : Nat) (bs : List Byte) : Translates s (s.physPut pa bs) := by
  exact foldl_keeps (Translates s) _ (fun u sec h => h.trans (.writeSector u sec _)) _ (.refl s)

theorem Translates.setRef (s : State) (r : Range) (b : Nat) (x : Bool) : Translates s (s.setRef r b x) := by
  unfold State.setRef State.mapPut
  dsimp only
  split
  · exact .refl s
  · exact .physPut s _ _

theorem Translates.walked (s : State) (d as_ va : Nat) : Translates s (s.walked d as_ va) := .of_eq rfl

theorem Translates.leafFor (s : State) (d : Nat) (core : Option Nat) (as_ va : Nat) : Translates s (s.leafFor d core as_ va).2 := by
  unfold State.leafFor
  dsimp only
  split
  · exact .walked s d as_ va
  · split
    · split
      · exact .refl s
      · split
        · exact .of_eq rfl
        · split
          · exact .of_eq rfl
          · exact .of_eq rfl
    · split
      · exact .of_eq rfl
      · exact .of_eq rfl

theorem Translates.procedural (s : State) (q : Ask) (l : Leaf) (loc : Nat) (r : Range) : Translates s (s.procedural q l loc r).2 := by
  unfold State.procedural
  dsimp only
  repeat' split
  any_goals exact .refl s
  all_goals exact .setRef s _ _ _

theorem Translates.xlate (s : State) (q : Ask) : Translates s (s.xlate q).2 := by
  have h := Translates.leafFor s q.die q.core q.as_ q.va
  unfold State.xlate
  split
  · exact .refl s
  · generalize s.leafFor q.die q.core q.as_ q.va = lu at h
    obtain ⟨l, u⟩ := lu
    dsimp only at h ⊢
    repeat' split
    any_goals exact h
    exact h.trans (.procedural ..)

-- Where a translation finds a location (R335, R341).

theorem locOf_place {i : Bool} {pa loc : Nat} (h : locOf i pa = some loc) : loc % 32 = pa % 32 ∧ loc < 2 ^ 40 := by
  cases i
  · obtain ⟨ha, hl⟩ := locOf_some_iff.mp h
    simp only [pkgBytes, stackBytes] at ha hl
    omega
  · simp only [locOf, if_true, Option.ite_none_right_eq_some, Option.some.injEq, stackBytes] at h
    omega

/-- A page holds whole sectors. -/
def Leaf.Whole (l : Leaf) : Prop := 32 ∣ l.size

theorem thirty_two_dvd_page (lv : Nat) : 32 ∣ 2 ^ pageShift lv := by
  refine (Nat.pow_dvd_pow_iff_le_right (x := 2) (k := 5) (by norm_num)).mpr ?_
  unfold pageShift
  split <;> norm_num

theorem State.walkFrom_whole {s : State} {d va n lv t : Nat} {l : Leaf} (h : s.walkFrom d va n lv t = .ok l) : l.Whole := by
  induction n generalizing lv t with
  | zero => cases h
  | succ n ih =>
    unfold State.walkFrom at h
    dsimp only at h
    split at h
    · cases h
    · split at h
      · cases h
      · split at h
        · cases h
        · split at h
          · split at h
            · cases h
            · cases h
              exact thirty_two_dvd_page lv
          · exact ih h

theorem State.walk_whole {s : State} {d as_ va : Nat} {l : Leaf} (h : s.walk d as_ va = .ok l) : l.Whole := by
  unfold State.walk at h
  split at h
  · cases h
  · split at h
    · cases h
    · split at h
      · cases h
      · split at h
        · cases h
        · exact State.walkFrom_whole h

theorem State.leafFor_whole {s : State} {d : Nat} {core : Option Nat} {as_ va : Nat} {l : Leaf} (h : (s.leafFor d core as_ va).1 = .ok l) :
    l.Whole := by
  unfold State.leafFor at h
  dsimp only at h
  split at h
  · exact State.walk_whole h
  · split at h
    · next e _ =>
      split at h
      · exact State.walk_whole h
      · split at h
        · cases h
          exact thirty_two_dvd_page e.level
        · split at h
          · exact State.walk_whole h
          · exact State.walk_whole h
    · split at h
      · exact State.walk_whole h
      · exact State.walk_whole h

theorem State.procedural_ok {s : State} {q : Ask} {l : Leaf} {loc loc' : Nat} {r : Range} (h : (s.procedural q l loc r).1 = .ok loc') : loc' = loc := by
  unfold State.procedural at h
  dsimp only at h
  repeat' split at h
  all_goals cases h
  all_goals rfl

theorem State.xlate_ok {s : State} {q : Ask} {loc : Nat} (h : (s.xlate q).1 = .ok loc) :
    ∃ l, (s.leafFor q.die q.core q.as_ q.va).1 = .ok l ∧ l.loc q.va = some loc := by
  unfold State.xlate at h
  split at h
  · cases h
  · generalize s.leafFor q.die q.core q.as_ q.va = lu at h ⊢
    obtain ⟨l, u⟩ := lu
    dsimp only at h ⊢
    split at h
    · cases h
    · next l =>
      split at h
      · cases h
      · next loc' hl =>
        refine ⟨l, rfl, ?_⟩
        rw [hl]
        repeat' split at h
        case h_2 => rw [State.procedural_ok h]
        all_goals cases h
        rfl

theorem State.xlate_place {s : State} {q : Ask} {loc : Nat} (h : (s.xlate q).1 = .ok loc) : loc % 32 = q.va % 32 ∧ loc < 2 ^ 40 := by
  obtain ⟨l, hl, hloc⟩ := State.xlate_ok h
  obtain ⟨hmod, hlt⟩ := locOf_place hloc
  obtain ⟨k, hk⟩ := State.leafFor_whole hl
  have : q.va % l.size % 32 = q.va % 32 := by rw [hk, Nat.mod_mul_right_mod]
  have hpa : l.pa % 32 = 0 := by simp only [Leaf.pa]; omega
  exact ⟨by omega, hlt⟩

end Sys2Proof.Machine
end

section
/-!
SUPPORT. The checks of a global access, and an access that is performed at its firing (R202 to R207).
-/
namespace Sys2Proof.Machine
open Claims

-- The checks of a firing, and what it commits after them.

theorem immWin_eq (i : BitVec 16) : immWin i = i.toNat / 2 ^ 12 := by
  have := i.isLt
  simp only [immWin, bitsOf]
  omega

theorem immDisp_eq (i : BitVec 16) : immDisp i = i.toNat % 2 ^ 7 := by
  rw [immDisp, bitsOf, pow_zero, Nat.div_one]

theorem bitOf_toNat {w : Nat} (n : Nat) (i : BitVec w) : bitOf n i.toNat = i.getLsbD n := by
  rw [bitOf, BitVec.getLsbD, Nat.testBit_eq_decide_div_mod_eq]

theorem immWide_eq (v : View) : immWide v.rule.imm = wideRelease v := by
  rw [immWide, immRel, immScope, bitOf_toNat, bitsOf]
  rfl

/-- The access of a firing, once its address is translated. -/
def View.access (v : View) (op : GOp) (size loc : Nat) (a b : Word) : GAcc :=
  { op, va := vaOf v size, loc, size, win := immWin v.rule.imm, off := offOf v size, a, b, wide := immWide v.rule.imm && op.writes }

/-- An access that reaches a location passes its checks (R202, R207). -/
theorem View.checkG_of_reaches {s u : State} {v : View} {op : GOp} {size loc : Nat} {quiet : Bool} (a b : Word) (hs : 0 < size)
    (h : Reaches s v size op.aligned op.noRO op.reads op.writes quiet loc u) :
    v.checkG s op size v.a a b quiet = (.go (v.access op size loc a b), u) := by
  obtain ⟨⟨hv, hlim, hsec, hal, hro⟩, hx⟩ := h
  have hwin : v.g.wins.getD (immWin v.rule.imm) {} = winOf v := by rw [immWin_eq]; rfl
  have hoff : v.a.toNat + immDisp v.rule.imm * size = offOf v size := by rw [immDisp_eq]; rfl
  have hva : (winOf v).base + offOf v size = vaOf v size := rfl
  have hal' : (op.aligned && decide (vaOf v size % size ≠ 0)) = false := by
    cases ha : op.aligned with
    | false => rfl
    | true => simp [hal ha]
  have hro' : (op.noRO && (winOf v).ro) = false := by
    cases ha : op.noRO with
    | false => rfl
    | true => simp [hro ha]
  unfold View.checkG
  dsimp only
  rw [hwin, hoff, hva, hal', hro', if_neg (by simp [hv, hlim]), if_neg (by omega), if_neg Bool.false_ne_true, if_neg Bool.false_ne_true, hx]
  rfl

theorem fireChecked_go {α : Type} {s t : State} {r : Rule} {w : ImmW} {need : View → Need} {pre : View → State → Pre α × State} {x : α}
    {v : View} (hv : view s r w = some v) (hr : v.ready (need v) s = true) (hp : pre v s = (.go x, t)) (eff : View → α → State → State)
    (wait : View → State → State) : fireChecked r w need pre eff wait s = eff v x t := by
  simp only [fireChecked, hv, hr, if_true, hp]

theorem fireChecked_fault {α : Type} {s t : State} {r : Rule} {w : ImmW} {need : View → Need} {pre : View → State → Pre α × State}
    {v : View} {cls va : Nat} {info : List Byte} {word : Word} (hv : view s r w = some v) (hr : v.ready (need v) s = true)
    (hp : pre v s = (.fault cls info va word, t)) (eff : View → α → State → State) (wait : View → State → State) :
    fireChecked r w need pre eff wait s = t.raise v.f v.x.isRounded (t.mkRec (t.origin v.f v.x.isRounded) cls info va word) := by
  simp only [fireChecked, hv, hr, if_true, hp]

/-- After a translation a firing sees what it saw, but for the values of its sources. -/
theorem Translates.view {s u : State} {r : Rule} {w : ImmW} {v : View} (h : Translates s u) (hv : view s r w = some v) :
    ∃ a b c, view u r w = some { v with a, b, c } := by
  have hcur : u.cur = s.cur := by rw [h.rest]
  have hreg : ∀ n, u.region n = s.region n := fun n => by rw [h.rest]; rfl
  have hel : ∀ p, u.elem p = s.elem p := fun p => by rw [h.rest]; rfl
  simp only [Machine.view] at hv ⊢
  rw [hcur, hreg]
  split at hv
  · cases hv
  · split at hv
    · cases hv
    · cases hv
      rw [hel]
      exact ⟨_, _, _, rfl⟩

/-- A commit does not depend on the values of the sources. -/
theorem Commits.of_sources {s t : State} {v : View} {n : Need} {fl : Bool} {a b c : Word} (h : Claims.Commits s t { v with a, b, c } n fl) :
    Claims.Commits s t v n fl :=
  ⟨h.rest, h.fabric, h.elements, h.element, h.channels, h.regions, h.region, h.places⟩

theorem Translates.commits {s u : State} {r : Rule} {w : ImmW} {v : View} (h : Translates s u) (hv : Machine.view s r w = some v) (n : Need)
    (fl : Bool) : Claims.Commits u (v.commit n fl u) v n fl := by
  obtain ⟨a, b, c, hu⟩ := h.view hv
  exact Commits.of_sources (View.commit_spec hu n fl)

theorem Translates.fresh {s u : State} (h : Translates s u) (hf : Fresh s) : Fresh u := by
  have hid : u.uid = s.uid := by rw [h.rest]
  intro q hq
  have hm : q.id ∈ s.fab.reqs.map Req.id := h.ids ▸ List.mem_map_of_mem hq
  obtain ⟨q', hq', he⟩ := List.mem_map.mp hm
  rw [hid, ← he]
  exact hf q' hq'

-- What a core's store buffers hold is not touched by a commit (R183).

/-- The round sets of the regions, by region. -/
def State.rounds (s : State) : List (Nat × Round) := s.regions.map fun e => (e.1, e.2.round)

theorem State.rounds_updRegion (s : State) (r : Nat) {f : Region → Region} (hf : ∀ g, (f g).round = g.round) :
    (s.updRegion r f).rounds = s.rounds := by
  simp only [State.rounds, State.updRegion, Tab.upd, List.map_map]
  refine List.map_congr_left fun e _ => ?_
  simp only [Function.comp]
  split
  · rw [hf]
  · rfl

theorem State.rounds_updCtx (s : State) (c : CtxId) (f : Ctx → Ctx) : (s.updCtx c f).rounds = s.rounds :=
  s.rounds_updRegion c.region fun _ => rfl

theorem Pops.rounds {s t : State} {p : Nat} (h : Pops s t p) : t.rounds = s.rounds := by
  rw [State.rounds, h.rest]
  rfl

theorem View.commit_rounds (v : View) (n : Need) (fl : Bool) (s : State) : (v.commit n fl s).rounds = s.rounds := by
  have hpop : (s.bump.popMask v.p n.dq).rounds = s.rounds := (Pops.popMask s.bump v.p n.dq).rounds
  have hres : ∀ u : State, ∀ c own, (u.reserve c own n.om).rounds = u.rounds := fun u c own => by
    rw [State.rounds, (State.reserve_spec u c own n.om).1]
    rfl
  have hskip : ∀ u : State, (u.laneSkip v).rounds = u.rounds := fun u => by
    rw [State.rounds, State.laneSkip, (State.joinLane_spec ..).1]
    rfl
  have hstep : ∀ g : Region, (Region.stepTaken s.uid { g with fired := g.fired || v.rule.guard.kind != .idle }).round = g.round := fun g => by
    rw [(Region.stepTaken_spec s.uid _).1]
  have helem : ∀ u : State, ∀ p f, (u.updElem p f).rounds = u.rounds := fun _ _ _ => rfl
  unfold View.commit
  dsimp only
  rw [apply_ite State.rounds, hskip, ite_self, State.rounds_updRegion _ _ hstep, hres, apply_ite State.rounds, State.rounds_updCtx, ite_self,
    helem, State.rounds_updCtx, hpop]

theorem State.heldByte_congr {s t : State} (h : t.rounds = s.rounds) (core loc : Nat) : t.heldByte core loc = s.heldByte core loc := by
  have hr : ∀ u : State, u.heldOf core = ((u.rounds.filter fun e => coreOf e.1 = core).map fun e => e.2.h0.entries ++ e.2.h1.entries).flatten := by
    intro u
    simp only [State.heldOf, State.rounds, List.filter_map, List.map_map]
    rfl
  have : t.heldOf core = s.heldOf core := by rw [hr, hr, h]
  simp only [State.heldByte, State.newest, this]

-- The turn of a request just issued (R204, R317, R422, R423).

theorem State.req_addReq {s : State} {q : Req} (h : ∀ x ∈ s.fab.reqs, x.id ≠ q.id) : (s.addReq q).req q.id = some q := by
  have : s.fab.reqs.find? (fun x => decide (x.id = q.id)) = none := List.find?_eq_none.mpr fun x hx => by simp [h x hx]
  simp [State.req, State.addReq, this]

theorem State.ownFirst_addReq {s : State} {q : Req} {c : CtxId} {lease id va loc : Nat} (h : id ≤ q.id) :
    (s.addReq q).ownFirst c lease id va loc = s.ownFirst c lease id va loc := by
  have hq : decide (q.id < id) = false := decide_eq_false (by omega)
  simp only [State.ownFirst, State.reqsFrom, State.addReq, List.filter_append, List.any_append]
  by_cases hc : (q.org.ctx = c && q.org.lease = lease) = true <;> simp [hc, hq]

theorem State.ownFirst_congr {s t : State} (h : t.fab.reqs = s.fab.reqs) : t.ownFirst = s.ownFirst := by
  funext c lease id va loc
  rw [State.ownFirst, State.ownFirst, State.reqsFrom, State.reqsFrom, h]

theorem State.retrains_congr {s t : State} (h : t.pkg = s.pkg) : t.retrains = s.retrains := by
  funext a b
  simp only [State.retrains, State.training, h]

/-- A request whose turn has come does not wait. -/
theorem State.mustWait_addReq {u c : State} {q : Req} {a : GAcc} (hp : c.pkg = u.pkg) (hr : c.fab.reqs = u.fab.reqs)
    (h : Turn u q.org.ctx q.org.lease q.id a.va a.loc) : (c.addReq q).mustWait q a = false := by
  obtain ⟨hlink, hown, hfar⟩ := h
  have hown' : (c.addReq q).ownFirst q.org.ctx q.org.lease q.id a.va a.loc = false := by
    rw [State.ownFirst_addReq (Nat.le_refl _), State.ownFirst_congr hr, State.ownFirst, List.any_eq_false]
    intro x hx hb
    obtain ⟨hmem, hc⟩ := List.mem_filter.mp hx
    simp only [Bool.and_eq_true, decide_eq_true_eq] at hc hb
    rw [hown x hmem hb.1 hc.1 hc.2] at hb
    exact Bool.false_ne_true hb.2
  have hbeh : (c.addReq q).behind q a.loc = false := by
    rw [State.behind, Bool.and_eq_false_iff]
    refine hfar.imp (fun h => by simp [h]) fun h => ?_
    rw [List.any_eq_false]
    intro x hx hb
    simp only [Bool.and_eq_true, decide_eq_true_eq] at hb
    obtain ⟨⟨hlt, hcl⟩, hb⟩ := hb
    have hmem : x ∈ u.fab.reqs := by
      rw [State.addReq, hr, List.mem_append, List.mem_singleton] at hx
      exact hx.resolve_right fun e => Nat.lt_irrefl _ (e ▸ hlt)
    split at hb
    · next b hs =>
      rw [State.ownFirst_addReq (Nat.le_of_lt hlt), State.ownFirst_congr hr] at hb
      obtain ⟨hd, hn⟩ := (Bool.and_eq_true _ _).mp hb
      simp [h x hmem hlt hcl b hs (of_decide_eq_true hd)] at hn
    · exact Bool.false_ne_true hb
  rw [State.mustWait, hown', hbeh, State.retrains_congr (t := c.addReq q) (s := u) hp, hlink]
  rfl

-- An access performed at its firing.

/-- The request of a firing whose access is to be made. -/
def View.held (v : View) (u : State) (a : GAcc) : Req :=
  v.req (v.commit (gNeed v) true u) u.uid a.op.reads (immAcq v.rule.imm) (.held a)
/-- The state in which it is made: the firing has committed. -/
def View.asked (v : View) (u : State) (a : GAcc) : State := (v.commit (gNeed v) true u).addReq (v.held u a)

theorem View.held_request {u : State} {v : View} (a : GAcc) (hr : v.r = v.f.ctx.region)
    (hc : Commits u (v.commit (gNeed v) true u) v (gNeed v) true) :
    Request u v (v.held u a) a.op.reads (v.rule.imm.getLsbD 7) (.held a) := by
  obtain ⟨g, hg, hgv, -⟩ := hc.region
  rw [hr] at hg
  have horg : (v.commit (gNeed v) true u).origin v.f v.x.isRounded =
      { ctx := v.f.ctx, slot := v.f.slot, lease := v.g.lease, gang := v.g.gang, inst := v.g.inst, rounded := v.x.isRounded } := by
    rw [State.origin, hg, hgv]
  refine ⟨rfl, ?_, ⟨rfl, rfl, rfl, rfl⟩, ⟨rfl, bitOf_toNat 7 _⟩, rfl, rfl⟩
  simp only [View.held, View.req, horg]
  exact ⟨trivial, trivial, trivial, trivial, trivial, trivial⟩

theorem View.issue_eq {u t : State} {v : View} {a : GAcc} {p : Perf} (hr : v.r = v.f.ctx.region) (hf : Fresh u)
    (hc : Commits u (v.commit (gNeed v) true u) v (gNeed v) true) (hw : a.wide = false) (ho : ∀ eq, a.op ≠ .waita eq)
    (ht : AtOnce u v a.va a.loc) (hp : (v.asked u a).perform (coreOf v.r) v.x.isRounded a = (p, t)) :
    v.issue (gNeed v) a u = t.updReq u.uid fun q => { q with stage := t.stageOf q a.va p } := by
  obtain ⟨hname, ⟨hctx, -, hlease, -, -, hrnd⟩, -⟩ := View.held_request a hr hc
  have hpkg : (v.commit (gNeed v) true u).pkg = u.pkg := by rw [hc.rest]
  have hreqs : (v.commit (gNeed v) true u).fab.reqs = u.fab.reqs := by rw [hc.fabric]
  have hreq : (v.asked u a).req (v.held u a).id = some (v.held u a) :=
    State.req_addReq fun x hx => Nat.ne_of_lt (hf x (hreqs ▸ hx))
  have hgo : (v.asked u a).mustWait (v.held u a) a = false :=
    State.mustWait_addReq hpkg hreqs (by rw [hctx, hlease, hname]; exact ht)
  have hissue : v.issue (gNeed v) a u = (v.asked u a).actReq (v.held u a).id a := by
    simp only [View.issue, hw, Bool.false_eq_true, if_false]
    rfl
  rw [hissue, State.actReq, hreq]
  simp only [hgo, Bool.false_eq_true, if_false]
  simp only [State.performReq, hreq, hctx, hrnd, ← hr, hp]
  rw [hname]

/-- An access that is performed at its firing leaves the request with its reply (R203, R205). -/
theorem View.issue_asksHome {u t : State} {v : View} {a : GAcc} {res : Word} {pres : Bool} (hr : v.r = v.f.ctx.region) (hf : Fresh u)
    (hc : Commits u (v.commit (gNeed v) true u) v (gNeed v) true) (hw : a.wide = false) (ho : ∀ eq, a.op ≠ .waita eq)
    (ht : AtOnce u v a.va a.loc) (hp : (v.asked u a).perform (coreOf v.r) v.x.isRounded a = (.done res pres, t)) (hk : Wakes (v.asked u a) t) :
    AsksHome u (v.issue (gNeed v) a u) v (gNeed v) true a.op.reads (v.rule.imm.getLsbD 7) (replies v res pres) ∧
    (v.issue (gNeed v) a u).store = t.store := by
  rw [View.issue_eq hr hf hc hw ho ht hp]
  have hq := View.held_request a hr hc
  obtain ⟨woken, hwoken, hreqs⟩ := hk.reqs
  have hold : (v.commit (gNeed v) true u).fab.reqs = u.fab.reqs := by rw [hc.fabric]
  have hdies : (v.commit (gNeed v) true u).dies = u.dies := by rw [hc.rest]
  refine ⟨⟨v.commit (gNeed v) true u, { v.held u a with stage := replies v res pres }, woken, hc,
    ⟨hq.name, hq.issuer, hq.dests, hq.order, rfl, rfl⟩, hwoken, fun g => ?_, ?_⟩, rfl⟩
  · have : (v.asked u a).gang g = u.gang g := by rw [State.gang, State.gang, ← hdies]; rfl
    rw [← this]
    exact hk.gangs g
  · have hnew : woken (v.held u a) = v.held u a := (hwoken _).of_held rfl
    have hupd : mapIf (fun q : Req => decide (q.id = u.uid)) (fun q => { q with stage := t.stageOf q a.va (.done res pres) }) t.fab.reqs =
        (v.commit (gNeed v) true u).fab.reqs.map woken ++ [{ v.held u a with stage := replies v res pres }] := by
      rw [hreqs, View.asked, State.addReq, List.map_append, List.map_singleton, hnew, mapIf_eq, List.map_append, List.map_singleton,
        if_pos hq.name]
      congr 1
      refine (List.map_congr_left fun x hx => if_neg ?_).trans (List.map_id _)
      obtain ⟨y, hy, rfl⟩ := List.mem_map.mp hx
      rw [(hwoken y).id]
      exact Nat.ne_of_lt (hf y (hold ▸ hy))
    rw [State.updReq, hupd]
    have hput := hk.puts.rest
    rw [hput]
    rfl

-- What stands when a firing's access is made.

section
variable {u : State} {v : View} (a : GAcc) (hc : Commits u (v.commit (gNeed v) true u) v (gNeed v) true)
include hc

theorem View.asked_store : (v.asked u a).store = u.store := by
  have : (v.commit (gNeed v) true u).store = u.store := by rw [hc.rest]
  exact this

theorem View.asked_pkg : (v.asked u a).pkg = u.pkg := by
  have : (v.commit (gNeed v) true u).pkg = u.pkg := by rw [hc.rest]
  exact this

end

theorem View.asked_rounds (v : View) (u : State) (a : GAcc) : (v.asked u a).rounds = u.rounds := v.commit_rounds (gNeed v) true u

-- The operations that are performed at their home (R212 to R216).

/-- The operation is performed at the home, behind the write-back of its cluster's bytes of the sector (R203, R288). -/
def GOp.atHome : GOp → Bool
  | .ld _ | .ldS _ | .st => false
  | _ => true

/-- The bytes that it sees: XRD in the round set takes held bytes first (R183). -/
def State.seenAtHome (s : State) (core : Nat) (rounded : Bool) (a : GAcc) : List Byte :=
  if a.op = .xrd then s.readBytes core rounded a.loc a.size else s.homeBytes a.loc a.size

/-- What it writes there. -/
def State.putAtHome (s : State) (loc : Nat) : Option (List Byte) → State
  | some bs => s.homePut loc bs
  | none => s

theorem State.perform_atHome {s t : State} {core : Nat} {rounded : Bool} {a : GAcc} (ha : a.op.atHome = true)
    (ht : s.writeBackSector (clusterOfCore core) (a.loc / 32) = t) (hcut : t.cut (dieOfCore core) (homeDie a.loc) = none)
    (hmark : t.markOf a.loc = none) :
    s.perform core rounded a = (.done (a.apply (t.seenAtHome core rounded a)).2.1 (a.apply (t.seenAtHome core rounded a)).2.2,
      t.putAtHome a.loc (a.apply (t.seenAtHome core rounded a)).1) := by
  have hobs : t.obstacle (dieOfCore core) (clusterOfCore core) a.loc a.op.kind false = none := by
    simp [State.obstacle, hcut, hmark]
  unfold State.perform
  dsimp only
  rw [ht, hobs, ite_self]
  split
  · next h => rw [h] at ha; cases ha
  · next h => rw [h] at ha; cases ha
  · next h => rw [h] at ha; cases ha
  · unfold State.seenAtHome State.putAtHome
    by_cases h : a.op = .xrd
    · simp only [h, if_true]
      split <;> simp [*]
    · simp only [h, if_false]
      split <;> simp [*]

-- What the operations see.

theorem clusterNat_congr {s t : State} (h : t.store = s.store) (cl loc n : Nat) : clusterNat t cl loc n = clusterNat s cl loc n := by
  simp only [clusterNat, State.clusterByte, State.homeByte, h]

theorem State.readByte_congr {s t : State} (hs : t.store = s.store) (hr : t.rounds = s.rounds) (core : Nat) (rounded : Bool) (loc : Nat) :
    t.readByte core rounded loc = s.readByte core rounded loc := by
  simp only [State.readByte, State.heldByte_congr hr, State.clusterByte, State.homeByte, hs]

section
variable {s t : State} {core loc : Nat} (h : CleansSector s t (clusterOfCore core) (loc / 32)) (hl : loc % 32 = 0) (hlt : loc < 2 ^ 40)
include h hl

theorem CleansSector.homeBytes : leNat (t.homeBytes loc 32) = clusterNat s (clusterOfCore core) loc 32 := by
  rw [State.clusterNat_eq, State.homeBytes]
  congr 1
  refine List.map_congr_left fun i hi => ?_
  have := List.mem_range.mp hi
  rw [h.home, if_pos (by omega)]

include hlt

theorem CleansSector.readBytes (rounded : Bool) : leNat (t.readBytes core rounded loc 32) =
    ((List.range 32).map fun i => (s.readByte core rounded (loc + i)).toNat * 256 ^ i).sum := by
  have hrounds : t.rounds = s.rounds := by rw [State.rounds, h.wakes.puts.rest]; rfl
  have hread : ∀ i, i < 32 → t.readByte core rounded (loc + i) = s.readByte core rounded (loc + i) := fun i hi => by
    simp only [State.readByte, State.heldByte_congr hrounds, h.clusterByte (show loc + i < 2 ^ 40 by omega) (.inl rfl)]
  have hmap : t.readBytes core rounded loc 32 = (List.range 32).map fun i => s.readByte core rounded (loc + i) :=
    List.map_congr_left fun i hi => hread i (List.mem_range.mp hi)
  rw [hmap, leNat_map_range]

end

/-- The number that an operation at the home sees in a sector. -/
def State.sectorNat (s : State) (core : Nat) (rounded : Bool) (op : GOp) (loc : Nat) : Nat :=
  if op = .xrd ∧ rounded = true then ((List.range 32).map fun i => (s.readByte core true (loc + i)).toNat * 256 ^ i).sum
  else clusterNat s (clusterOfCore core) loc 32

theorem State.sectorNat_congr {s t : State} (hs : t.store = s.store) (hr : t.rounds = s.rounds) (core : Nat) (rounded : Bool) (op : GOp)
    (loc : Nat) : t.sectorNat core rounded op loc = s.sectorNat core rounded op loc := by
  simp only [State.sectorNat, State.readByte_congr hs hr, clusterNat_congr hs]

theorem CleansSector.seenAtHome {s t : State} {core : Nat} {a : GAcc} (h : CleansSector s t (clusterOfCore core) (a.loc / 32))
    (hl : a.loc % 32 = 0) (hlt : a.loc < 2 ^ 40) (hz : a.size = 32) (rounded : Bool) :
    leNat (t.seenAtHome core rounded a) = s.sectorNat core rounded a.op a.loc := by
  rw [State.seenAtHome, State.sectorNat, hz]
  by_cases hx : a.op = .xrd
  · rw [if_pos hx, h.readBytes hl hlt]
    cases rounded
    · rw [if_neg (by simp)]
      rfl
    · rw [if_pos ⟨hx, rfl⟩]
  · rw [if_neg hx, h.homeBytes hl, if_neg (fun hh => hx hh.1)]

/-- An operation leaves `x` in a sector that held `n`: what it writes, if anything, are the bytes of `x`. -/
def LeavesSector (n x : Nat) : Option (List Byte) → Prop
  | none => x = n
  | some bs => bs.length = 32 ∧ ∀ i, (hi : i < bs.length) → bs[i] = BitVec.ofNat 8 (x / 256 ^ i)

theorem CleansSector.putAtHome {s t : State} {cl loc x : Nat} {wr : Option (List Byte)} (h : CleansSector s t cl (loc / 32)) (hl : loc % 32 = 0)
    (hlt : loc < 2 ^ 40) (hx : LeavesSector (clusterNat s cl loc 32) x wr) :
    WritesHome s (t.putAtHome loc wr) cl loc 32 x ∧ Wakes s (t.putAtHome loc wr) := by
  cases wr with
  | none =>
    rw [show x = _ from hx]
    exact ⟨h.writesHome hl hlt, h.wakes⟩
  | some bs =>
    obtain ⟨hbs, hbx⟩ := hx
    exact h.homePut hl hlt hbs hbx

/-- The access of a firing that its home performs at once: what it writes there is `x`, or the sector as its cluster sees it. -/
theorem View.issue_atHome {u : State} {v : View} {op : GOp} {loc : Nat} {p q res : Word} {pres : Bool} {x : Nat}
    {wr : Option (List Byte)}
    (hr : v.r = v.f.ctx.region) (hf : Fresh u) (hm : u.memoryOk) (hc : Commits u (v.commit (gNeed v) true u) v (gNeed v) true)
    (hop : op.atHome = true) (ho : ∀ eq, op ≠ .waita eq) (hw : (immWide v.rule.imm && op.writes) = false)
    (hl : loc % 32 = 0) (hlt : loc < 2 ^ 40) (hu : Unhindered u v.r loc) (ht : AtOnce u v (vaOf v 32) loc)
    (hout : ∀ bs : List Byte, leNat bs = u.sectorNat (coreOf v.r) v.x.isRounded op loc → (v.access op 32 loc p q).apply bs = (wr, res, pres))
    (hx : LeavesSector (clusterNat u (clusterOf v.r) loc 32) x wr) :
    AsksHome u (v.issue (gNeed v) (v.access op 32 loc p q) u) v (gNeed v) true op.reads (v.rule.imm.getLsbD 7) (replies v res pres) ∧
    WritesHome u (v.issue (gNeed v) (v.access op 32 loc p q) u) (clusterOf v.r) loc 32 x := by
  obtain ⟨hcut, hmark, hbad⟩ := hu
  generalize ha : v.access op 32 loc p q = a at *
  have haop : a.op = op := by rw [← ha]; rfl
  have haloc : a.loc = loc := by rw [← ha]; rfl
  have hasz : a.size = 32 := by rw [← ha]; rfl
  have hava : a.va = vaOf v 32 := by rw [← ha]; rfl
  have hawide : a.wide = false := by rw [← ha]; exact hw
  have hstore := View.asked_store a hc
  have hmem : (v.asked u a).memoryOk := by rwa [State.memoryOk, hstore]
  have hclean : CleansSector (v.asked u a) ((v.asked u a).writeBackSector (clusterOf v.r) (loc / 32)) (clusterOf v.r) (loc / 32) :=
    State.writeBackSector_spec hmem (by omega) (by rwa [hstore]) (by rwa [hstore, Nat.mul_comm])
  obtain ⟨t, htdef⟩ : ∃ t, t = (v.asked u a).writeBackSector (clusterOf v.r) (loc / 32) := ⟨_, rfl⟩
  rw [← htdef] at hclean
  have hpkg : t.pkg = u.pkg := by
    have : t.pkg = (v.asked u a).pkg := by rw [hclean.wakes.puts.rest]
    rw [this, View.asked_pkg a hc]
  have hperf := State.perform_atHome (rounded := v.x.isRounded) (core := coreOf v.r) (haop ▸ hop) (haloc ▸ htdef.symm)
    (by rw [haloc, State.cut, hpkg]; exact hcut) (by rw [haloc]; exact hclean.unmarked)
  have hseen := hout _ ((CleansSector.seenAtHome (haloc ▸ hclean) (haloc ▸ hl) (haloc ▸ hlt) hasz v.x.isRounded).trans (by
    rw [haop, haloc, State.sectorNat_congr hstore (View.asked_rounds v u a)]))
  rw [hseen] at hperf
  rw [← clusterNat_congr hstore] at hx
  have hwr := hclean.putAtHome hl hlt hx
  rw [haloc] at hperf
  obtain ⟨hask, hst⟩ := View.issue_asksHome hr hf hc hawide (haop ▸ ho) (by rw [hava, haloc]; exact ht) hperf hwr.2
  exact ⟨haop ▸ hask, WritesHome.congr hstore.symm hst hwr.1⟩

end Sys2Proof.Machine
end

section
/-!
SUPPORT. The fault of a firing, direct and rounded (R43, R44, R189).
-/
namespace Sys2Proof.Machine
open Claims

-- A fault in a direct context (R43, R44).

theorem State.freezeBy_recs {s : State} {c : CtxId} {g : Region} (hg : s.region c.region = some g) (how : Nat → Freeze) (r : Rec) :
    (s.freezeBy how c r).fab.recs.map PRec.rcd =
      s.fab.recs.map PRec.rcd ++ [if 1 < (g.membersOf c).length then { r with flags := r.flags + 4 } else r] := by
  have hfold := foldl_keeps (fun u : State => u.fab.recs = s.fab.recs) (fun u p => u.updElem p fun e => e.frozenBy (how u.uid) c.region)
    (fun _ _ h => h) (g.membersOf c) rfl
  simp only [State.freezeBy, hg, State.giveRec, hfold, List.map_append, List.map_singleton]

/-- What the freezes of a chain leave of an element. -/
theorem State.foldl_frozenBy_elem (l : List Nat) (f : Freeze) (r : Nat) (s : State) (p : Nat) :
    (p ∉ l → (l.foldl (fun u p => u.updElem p fun e => e.frozenBy f r) s).elem p = s.elem p) ∧
    ((l.foldl (fun u p => u.updElem p fun e => e.frozenBy f r) s).elem p).ch = (s.elem p).ch ∧
    ((l.foldl (fun u p => u.updElem p fun e => e.frozenBy f r) s).elem p).ptr = (s.elem p).ptr ∧
    ((l.foldl (fun u p => u.updElem p fun e => e.frozenBy f r) s).elem p).spent = (s.elem p).spent := by
  induction l generalizing s with
  | nil => exact ⟨fun _ => rfl, rfl, rfl, rfl⟩
  | cons q l ih =>
    obtain ⟨hout, hch, hptr, hspent⟩ := ih (s.updElem q fun e => e.frozenBy f r)
    have hone : p ≠ q → (s.updElem q fun e => e.frozenBy f r).elem p = s.elem p := fun h => State.elem_updElem_other s h _
    rw [List.foldl_cons, hch, hptr, hspent]
    refine ⟨fun h => ?_, ?_⟩
    · obtain ⟨hpq, hpl⟩ := not_or.mp (List.mem_cons.not.mp h)
      rw [hout hpl, hone hpq]
    · by_cases h : p = q
      · subst h
        rw [State.elem_updElem_same]
        exact ⟨rfl, rfl, rfl⟩
      · rw [hone h]
        exact ⟨rfl, rfl, rfl⟩

/-- A firing of context `c` of region `g` is cancelled, for the record `q` of what `r` tells, and its chain freezes (R29, R44). -/
structure Cancels (s t : State) (c : CtxId) (g : Region) (r : Rec) (q : PRec) : Prop where
  ctx : q.ctx = c
  core : q.core = coreOf c.region
  rcd : q.rcd = if 1 < (g.membersOf c).length then { r with flags := r.flags + 4 } else r
  rest : t = { s with fab := { s.fab with elems := t.fab.elems, recs := s.fab.recs ++ [q] }, uid := t.uid }
  frozen : ∀ p ∈ g.membersOf c, (t.elem p).freeze = .faulted q.id
  spent : (t.elem (g.phys c.el)).spent = true
  others : ∀ p, p ≠ g.phys c.el → p ∉ g.membersOf c → t.elem p = s.elem p
  kept : ∀ p, (t.elem p).ch = (s.elem p).ch ∧ (t.elem p).ptr = (s.elem p).ptr

theorem State.freezeFault_spec {s : State} {c : CtxId} {g : Region} (hg : s.region c.region = some g) (r : Rec) :
    ∃ q, Cancels s (s.freezeFault c r) c g r q := by
  have hphys : s.physOf c = g.phys c.el := by rw [State.physOf, hg]; rfl
  have hg' : (s.spend c).region c.region = some g := hg
  obtain ⟨fl, heq⟩ := State.freezeBy_eq hg' .faulted r
  have hrecs := State.freezeBy_recs hg' .faulted r
  obtain ⟨hrest, hel⟩ := State.foldl_frozenBy (g.membersOf c) (.faulted (s.spend c).uid) c.region (s.spend c)
  have helem := State.foldl_frozenBy_elem (g.membersOf c) (.faulted (s.spend c).uid) c.region (s.spend c)
  have hspend : (s.spend c).elem (g.phys c.el) = { s.elem (g.phys c.el) with spent := true } := by
    rw [State.spend, hphys, State.elem_updElem_same]
  have hother : ∀ p, p ≠ g.phys c.el → (s.spend c).elem p = s.elem p := fun p hp => by
    rw [State.spend, hphys, State.elem_updElem_other s hp]
  rw [heq] at hrecs
  rw [State.freezeFault, heq]
  generalize List.foldl _ _ _ = u at *
  have hufab : u.fab.recs = s.fab.recs := by rw [hrest]; rfl
  refine ⟨{ id := u.uid, ctx := c, core := coreOf c.region, ring := (s.spend c).fringOf g.gang, frozen := g.membersOf c,
            rcd := { r with flags := fl } }, rfl, rfl, ?_, ?_, fun p hp => ?_, ?_, fun p hp hm => ?_, fun p => ?_⟩
  · rw [State.giveRec, hufab, List.map_append] at hrecs
    exact List.singleton_inj.mp (List.append_cancel_left hrecs)
  · rw [State.giveRec, hufab, hrest]
    rfl
  · have hid : u.uid = (s.spend c).uid := by rw [hrest]
    rw [hid]
    exact hel p (.inl hp)
  · refine ((helem _).2.2.2).trans ?_
    rw [hspend]
  · exact ((helem p).1 hm).trans (hother p hp)
  · obtain ⟨-, hch, hptr, -⟩ := helem p
    by_cases hp : p = g.phys c.el
    · subst hp
      exact ⟨hch.trans (by rw [hspend]), hptr.trans (by rw [hspend])⟩
    · exact ⟨hch.trans (by rw [hother p hp]), hptr.trans (by rw [hother p hp])⟩

-- A fault in a rounded context (R189).

theorem Tab.look_map_snd {α β : Type} (f : α → β) (t : Tab α) (k : Nat) : Tab.look (t.map fun e => (e.1, f e.2)) k = (t.look k).map f := by
  induction t with
  | nil => rfl
  | cons e t ih =>
    simp only [List.map_cons, Tab.look]
    split
    · rfl
    · exact ih

theorem State.region_round (s : State) (r : Nat) : (s.region r).map (fun g => g.round) = Tab.look s.rounds r :=
  (Tab.look_map_snd (fun g : Region => g.round) s.regions r).symm

theorem State.seat_rounds (s : State) (r t : Nat) (n : Node) : (s.seat r t n).rounds = s.rounds := by
  unfold State.seat
  dsimp only
  rw [State.rounds_updCtx, State.rounds_updRegion]
  · rfl
  · exact fun _ => rfl

theorem State.payDebt_rounds (s : State) (c : CtxId) (o : Nat) : (s.payDebt c o).rounds = s.rounds := by
  unfold State.payDebt
  split
  · rfl
  · split
    · rfl
    · rw [State.rounds_updCtx]
      rfl

/-- Records, memory and round sets stand. -/
def KeepsRounds (s t : State) : Prop := t.fab.recs = s.fab.recs ∧ t.store = s.store ∧ t.rounds = s.rounds

theorem KeepsRounds.refl (s : State) : KeepsRounds s s := ⟨rfl, rfl, rfl⟩
theorem KeepsRounds.trans {s t u : State} (h : KeepsRounds s t) (k : KeepsRounds t u) : KeepsRounds s u :=
  ⟨k.1.trans h.1, k.2.1.trans h.2.1, k.2.2.trans h.2.2⟩
theorem KeepsRounds.foldl {α : Type} {f : State → α → State} (hf : ∀ s x, KeepsRounds s (f s x)) (l : List α) (s : State) :
    KeepsRounds s (l.foldl f s) :=
  foldl_keeps (KeepsRounds s) f (fun t x h => h.trans (hf t x)) l (.refl s)

theorem KeepsRounds.seat (s : State) (r t : Nat) (n : Node) : KeepsRounds s (s.seat r t n) := ⟨rfl, rfl, State.seat_rounds s r t n⟩

theorem KeepsRounds.payDebts (s : State) (c : CtxId) (o : Nat) : KeepsRounds s (s.payDebts c o) :=
  .foldl (fun s _ => ⟨by rw [(Credits.payDebt s c o).rest], by rw [(Credits.payDebt s c o).rest], State.payDebt_rounds s c o⟩) _ s

/-- The round of a region ends, and the region is held: records and memory stand. -/
structure Voids (s t : State) (r : Nat) : Prop where
  recs : t.fab.recs = s.fab.recs
  store : t.store = s.store
  held : (t.region r).map (fun g => (g.round.isOpen, g.round.held)) = some (false, true)

theorem Voids.updRegion {s t : State} {r : Nat} {g : Region} {f : Region → Region} (hr : t.fab.recs = s.fab.recs) (hs : t.store = s.store)
    (hg : t.region r = some g) (hf : ((f g).round.isOpen, (f g).round.held) = (false, true)) : Voids s (t.updRegion r f) r := by
  refine ⟨hr, hs, ?_⟩
  rw [State.region_updRegion_same hg]
  exact congrArg some hf

theorem Voids.after {s t u : State} {r : Nat} (h : Voids s t r) (k : KeepsRounds t u) : Voids s u r := by
  obtain ⟨hrecs, hstore, hrounds⟩ := k
  have hlook : ∀ x : State, (x.region r).map (fun g => (g.round.isOpen, g.round.held)) =
      (Tab.look x.rounds r).map fun d => (d.isOpen, d.held) := fun x => by
    rw [← State.region_round, Option.map_map]
    rfl
  refine ⟨hrecs.trans h.recs, hstore.trans h.store, ?_⟩
  rw [hlook, hrounds, ← hlook, h.held]

/-- Changes of elements leave all else. -/
theorem State.foldl_updElem {α : Type} (s : State) (p : α → Nat) (f : α → Elem → Elem) (l : List α) :
    l.foldl (fun t e => t.updElem (p e) (f e)) s =
      { s with fab := { s.fab with elems := (l.foldl (fun t e => t.updElem (p e) (f e)) s).fab.elems } } := by
  induction l generalizing s with
  | nil => rfl
  | cons e l ih => exact ih _

theorem State.voidRound_spec {s : State} {r : Nat} {g : Region} (hg : s.region r = some g) : Voids s (s.voidRound r) r := by
  unfold State.voidRound
  rw [hg]
  dsimp only
  split
  · exact .updRegion rfl rfl hg rfl
  · next sh _ =>
    refine Voids.after (Voids.after ?_ (KeepsRounds.foldl (fun t (e : Nat × Node) => .seat t r e.1 e.2.anew) _ _))
      (KeepsRounds.foldl (fun t (f : Flit) => .payDebts t f.ctx f.o) sh.late _)
    rw [State.foldl_updElem]
    refine .updRegion (g := g.rewind r) rfl rfl ?_ rfl
    refine (Tab.look_map_snd (fun q : Region => q.rewind r) _ r).trans ?_
    exact congrArg (Option.map fun q : Region => q.rewind r) hg

-- The record of a fault that a firing raises (R43, R197).

/-- The places that a firing's view names are those of the state. -/
structure View.Stands (v : View) (s : State) : Prop where
  r : v.r = v.f.ctx.region
  region : s.region v.f.ctx.region = some v.g
  el : v.x.el = v.f.ctx.el
  k : v.x.k = v.f.ctx.k
  p : v.p = v.g.phys v.f.ctx.el

theorem View.Stands.of_view {s : State} {r : Rule} {w : ImmW} {v : View} (h : view s r w = some v) : v.Stands s := by
  obtain ⟨hf, hr, hg, -, hel, hk, hp, -⟩ := view_spec h
  rw [← hf] at hr hel hk hp
  exact ⟨hr, hr ▸ hg, hel, hk, hp⟩

theorem View.Stands.translates {s u : State} {v : View} (h : v.Stands s) (k : Translates s u) : v.Stands u := by
  refine ⟨h.r, ?_, h.el, h.k, h.p⟩
  rw [k.rest]
  exact h.region

section
variable {u : State} {v : View} (h : v.Stands u)
include h

theorem View.Stands.origin (b : Bool) : u.origin v.f b =
    { ctx := v.f.ctx, slot := v.f.slot, lease := v.g.lease, gang := v.g.gang, inst := v.g.inst, rounded := b } := by
  rw [State.origin, h.region]

/-- Whether the element of a firing has a chain of more than itself. -/
theorem View.Stands.chained : (v.g.membersOf v.f.ctx).length = (v.g.chainOf v.x.el v.x.k).length := by
  rw [Region.membersOf, List.length_map, h.el, h.k]

theorem View.Stands.faultRecord {cls va : Nat} {info : List Byte} {q : Rec}
    (hq : q = { u.mkRec (u.origin v.f v.x.isRounded) cls info va with flags := q.flags })
    (hfl : q.flags = (if v.x.isRounded then 3 else 0) + if 1 < (v.g.chainOf v.x.el v.x.k).length then 4 else 0) :
    FaultRecord u v cls info va q := by
  rw [h.origin] at hq
  have hbits : ∀ b c : Bool, ∀ n : Nat, n = (if b then 3 else 0) + (if c then 4 else 0) →
      n.testBit 0 = b ∧ n.testBit 1 = b ∧ n.testBit 3 = false ∧ n.testBit 4 = false ∧ n.testBit 2 = c := by
    rintro b c _ rfl
    revert b c
    decide
  rw [FaultRecord, h.el, h.k]
  refine ⟨?_, ?_, ?_, ?_, ?_, ?_, ?_, ?_, ?_, ?_, hbits _ _ _ ?_⟩
  case refine_11 => rw [hfl, h.el, h.k]; simp only [decide_eq_true_eq]
  all_goals rw [hq]; rfl

theorem View.Stands.flags (cls va : Nat) (info : List Byte) (b : Bool) :
    (u.mkRec (u.origin v.f b) cls info va).flags = if b then 1 else 0 := by
  rw [h.origin]
  rfl

/-- A fault in a direct context. -/
theorem View.Stands.faults_direct (hd : v.x.isRounded = false) (cls : Nat) (info : List Byte) (va : Nat) :
    Faults u (u.freezeFault v.f.ctx (u.mkRec (u.origin v.f false) cls info va)) v cls info va := by
  obtain ⟨q, hq⟩ := State.freezeFault_spec h.region (u.mkRec (u.origin v.f false) cls info va)
  have hflags := h.flags cls va info false
  refine ⟨q, hq.ctx, by rw [hq.core, h.r]; rfl, ?_, fun _ => ⟨hq.rest, fun el hel => hq.frozen _ ?_, by rw [h.p]; exact hq.spent,
    fun p hp hn => hq.others p (h.p ▸ hp) fun hm => ?_, hq.kept⟩, fun hr => absurd (hd.symm.trans hr) Bool.false_ne_true⟩
  · -- Its record.
    rw [hq.rcd, h.chained, ← hd]
    split
    · next hc => exact h.faultRecord rfl (by rw [hd, hflags, if_pos hc]; rfl)
    · next hc => exact h.faultRecord rfl (by rw [hd, hflags, if_neg hc]; rfl)
  · rw [h.el, h.k] at hel
    exact List.mem_map_of_mem hel
  · obtain ⟨e, he, rfl⟩ := List.mem_map.mp hm
    rw [h.el, h.k] at hn
    exact hn e he rfl

/-- A fault in a rounded context. -/
theorem View.Stands.faults_rounded (hd : v.x.isRounded = true) (cls : Nat) (info : List Byte) (va : Nat) :
    Faults u (u.raise v.f true (u.mkRec (u.origin v.f true) cls info va)) v cls info va := by
  have hvoid := State.voidRound_spec h.region
  have hflags := h.flags cls va info true
  rw [State.raise, if_pos rfl, h.region]
  obtain ⟨t, ht⟩ : ∃ t, t = u.voidRound v.f.ctx.region := ⟨_, rfl⟩
  rw [← ht] at hvoid ⊢
  refine ⟨_, rfl, ?_, ?_, fun hr => absurd (hr.symm.trans hd) Bool.false_ne_true, fun _ => ⟨congrArg (· ++ _) hvoid.recs, hvoid.store, ?_⟩⟩
  · rw [h.r]; rfl
  · rw [← hd]
    refine h.faultRecord rfl ?_
    dsimp only
    rw [hd, hflags, h.el, h.k]
    by_cases hc : 1 < (v.g.chainOf v.f.ctx.el v.f.ctx.k).length <;> simp [hc]
  · rw [h.r]; exact hvoid.held

theorem View.Stands.faults (cls : Nat) (info : List Byte) (va : Nat) :
    Faults u (u.raise v.f v.x.isRounded (u.mkRec (u.origin v.f v.x.isRounded) cls info va)) v cls info va := by
  cases hd : v.x.isRounded with
  | false => exact h.faults_direct hd cls info va
  | true => exact h.faults_rounded hd cls info va

end

end Sys2Proof.Machine
end

section
/-!
PROOFS. Exact sums in XS256 sectors (R111 to R113, R214, R216).
-/
namespace Sys2Proof.Machine
open Claims

-- AXADD, XRD and XRD.clr, performed at their firing (R203, R214, R216).

theorem translates_of_reaches {s u : State} {v : View} {size loc : Nat} {aligned limited rd wr quiet : Bool}
    (h : Reaches s v size aligned limited rd wr quiet loc u) : Translates s u := by
  have := Translates.xlate s (v.ask s (vaOf v size) rd wr quiet)
  rwa [h.2] at this

/-- A whole sector lies at its own boundary. -/
theorem sector_of_reaches {s u : State} {v : View} {loc : Nat} {limited rd wr quiet : Bool}
    (h : Reaches s v 32 true limited rd wr quiet loc u) : loc % 32 = 0 ∧ loc < 2 ^ 40 := by
  obtain ⟨⟨-, -, -, hal, -⟩, hx⟩ := h
  obtain ⟨hmod, hlt⟩ := State.xlate_place (congrArg Prod.fst hx)
  exact ⟨hmod.trans (hal rfl), hlt⟩

theorem fireGlobal_go {s u : State} {v : View} {r : Rule} {op : GOp} {size loc : Nat} (hs : 0 < size) (hv : view s r .s32 = some v)
    (hr : v.ready (gNeed v) s = true) (h : Reaches s v size op.aligned op.noRO op.reads op.writes false loc u) (operands : View → Word × Word) :
    fireGlobal r op size operands s = v.issue (gNeed v) (v.access op size loc (operands v).1 (operands v).2) u :=
  fireChecked_go hv hr (View.checkG_of_reaches _ _ hs h) _ _

/-- An access to a whole sector that its home performs at once. -/
theorem View.issue_sector {s u : State} {v : View} {r : Rule} {loc : Nat} {op : GOp} {p q res : Word} {pres : Bool} {x : Nat}
    {wr : Option (List Byte)} (hm : s.memoryOk) (hf : Fresh s) (hv : view s r .s32 = some v) (hop : op.atHome = true) (ho : ∀ eq, op ≠ .waita eq) (hal : op.aligned = true)
    (hre : Reaches s v 32 op.aligned op.noRO op.reads op.writes false loc u) (hw : (wideRelease v && op.writes) = false)
    (hu : Unhindered u v.r loc) (ht : AtOnce u v (vaOf v 32) loc)
    (hout : ∀ bs : List Byte, leNat bs = u.sectorNat (coreOf v.r) v.x.isRounded op loc → (v.access op 32 loc p q).apply bs = (wr, res, pres))
    (hx : LeavesSector (clusterNat u (clusterOf v.r) loc 32) x wr) :
    AsksHome u (v.issue (gNeed v) (v.access op 32 loc p q) u) v (gNeed v) true op.reads (v.rule.imm.getLsbD 7) (replies v res pres) ∧
    WritesHome u (v.issue (gNeed v) (v.access op 32 loc p q) u) (clusterOf v.r) loc 32 x := by
  have htr := translates_of_reaches hre
  rw [hal] at hre
  obtain ⟨hl, hlt⟩ := sector_of_reaches hre
  exact View.issue_atHome (View.Stands.of_view hv).r (htr.fresh hf) (htr.memoryOk hm) (htr.commits hv _ _) hop ho (by rw [immWide_eq]; exact hw)
    hl hlt hu ht hout hx

theorem xsAdd_int (n : Nat) (w : Word) : (xsAdd n w : Int) = (n + xsOf w) % 2 ^ 256 :=
  Int.toNat_of_nonneg (Int.emod_nonneg _ (by norm_num))

theorem LeavesSector.unwritten (n : Nat) : LeavesSector n n none := rfl

theorem LeavesSector.natLe (n x : Nat) : LeavesSector n x (some (natLe 32 x)) :=
  ⟨natLe_length 32 x, fun _ hi => natLe_getElem 32 x hi⟩

theorem State.sectorNat_lt (s : State) (core : Nat) (rounded : Bool) (op : GOp) (loc : Nat) : s.sectorNat core rounded op loc < 2 ^ 256 := by
  have hlt : ∀ f : Nat → Byte, leNat ((List.range 32).map f) < 2 ^ 256 := fun f => by
    refine (leNat_lt _).trans_eq ?_
    rw [List.length_map, List.length_range]
    norm_num
  rw [State.sectorNat]
  split
  · rw [← leNat_map_range]; exact hlt _
  · rw [State.clusterNat_eq]; exact hlt _

theorem State.sectorNat_home (s : State) {op : GOp} (ho : op ≠ .xrd) (r : Nat) (rounded : Bool) (loc : Nat) :
    s.sectorNat (coreOf r) rounded op loc = clusterNat s (clusterOf r) loc 32 := if_neg fun h => ho h.1

section
variable {s u : State} {v : View} {r : Rule} {loc : Nat}

/-- AXADD.F32 within the limits (R214). -/
theorem axaddF32_home (hm : s.memoryOk) (hf : Fresh s) (hfire : MayFire (.axaddF32 r) r .s32 s v) (hre : Reaches s v 32 true true true true false loc u)
    (hin : xsOutside v.b = false) (hu : Unhindered u v.r loc) (hw : wideRelease v = false) (ht : AtOnce u v (vaOf v 32) loc) :
    ∃ t : State, exec (.axaddF32 r) s = .next t ∧
      AsksHome u t v (needFor s v (.axaddF32 r)) true true (v.rule.imm.getLsbD 7) (replies v v.b (isSet v.b)) ∧
      WritesHome u t (clusterOf v.r) loc 32 (xsAdd (clusterNat u (clusterOf v.r) loc 32) v.b) := by
  obtain ⟨hv, hr⟩ := hfire
  have hout : ∀ bs : List Byte, leNat bs = u.sectorNat (coreOf v.r) v.x.isRounded .axadd loc → (v.access .axadd 32 loc v.b 0#32).apply bs =
      (some (natLe 32 (xsAdd (clusterNat u (clusterOf v.r) loc 32) v.b)), v.b, isSet v.b) := fun bs hbs => by
    rw [← State.sectorNat_home u (op := .axadd) (by decide) v.r v.x.isRounded loc, ← hbs]
    rfl
  refine ⟨_, congrArg Host.Outcome.next (fireChecked_go hv hr ?_ _ _),
    View.issue_sector (op := .axadd) hm hf hv rfl (fun _ => nofun) rfl hre (by rw [hw]; rfl) hu ht hout (.natLe _ _)⟩
  rw [View.checkG_of_reaches v.b 0#32 (by norm_num) hre]
  dsimp only [View.access]
  rw [hin]
  rfl

/-- AXADD.F32 outside the limits (R214). -/
theorem axaddF32_fault (hfire : MayFire (.axaddF32 r) r .s32 s v) (hre : Reaches s v 32 true true true true false loc u)
    (hout : xsOutside v.b = true) : ∃ t : State, exec (.axaddF32 r) s = .next t ∧ Faults u t v 0x13 [] (vaOf v 32) := by
  obtain ⟨hv, hr⟩ := hfire
  refine ⟨_, congrArg Host.Outcome.next (fireChecked_fault hv hr ?_ _ _),
    ((View.Stands.of_view hv).translates (translates_of_reaches hre)).faults _ _ _⟩
  rw [View.checkG_of_reaches v.b 0#32 (by norm_num) hre]
  dsimp only [View.access]
  rw [hout]
  rfl

/-- XRD.clr (R216). -/
theorem xrdClr_home (hm : s.memoryOk) (hf : Fresh s) (hfire : MayFire (.xrdClr r) r .s32 s v) (hre : Reaches s v 32 true true true true false loc u)
    (hu : Unhindered u v.r loc) (hw : wideRelease v = false) (ht : AtOnce u v (vaOf v 32) loc) :
    ∃ t : State, exec (.xrdClr r) s = .next t ∧
      AsksHome u t v (needFor s v (.xrdClr r)) true true (v.rule.imm.getLsbD 7)
        (replies v (xsRead (clusterNat u (clusterOf v.r) loc 32)) (isSet (xsRead (clusterNat u (clusterOf v.r) loc 32)))) ∧
      WritesHome u t (clusterOf v.r) loc 32 0 := by
  obtain ⟨hv, hr⟩ := hfire
  refine ⟨_, congrArg Host.Outcome.next (fireGlobal_go (op := .xrdClr) (by norm_num) hv hr hre _),
    View.issue_sector (op := .xrdClr) hm hf hv rfl (fun _ => nofun) rfl hre (by rw [hw]; rfl) hu ht
      (fun bs hbs => ?_) (.natLe _ 0)⟩
  rw [← State.sectorNat_home u (op := .xrdClr) (by decide) v.r v.x.isRounded loc, ← hbs]
  rfl

/-- XRD (R216): what the round set holds goes before what memory holds. -/
theorem xrd_home (hm : s.memoryOk) (hf : Fresh s) (hfire : MayFire (.xrd r) r .s32 s v) (hre : Reaches s v 32 true false true false false loc u)
    (hu : Unhindered u v.r loc) (ht : AtOnce u v (vaOf v 32) loc) :
    ∃ t : State, exec (.xrd r) s = .next t ∧
      AsksHome u t v (needFor s v (.xrd r)) true true (v.rule.imm.getLsbD 7)
        (replies v (xsRead (u.sectorNat (coreOf v.r) v.x.isRounded .xrd loc)) (isSet (xsRead (u.sectorNat (coreOf v.r) v.x.isRounded .xrd loc)))) ∧
      WritesHome u t (clusterOf v.r) loc 32 (clusterNat u (clusterOf v.r) loc 32) := by
  obtain ⟨hv, hr⟩ := hfire
  refine ⟨_, congrArg Host.Outcome.next (fireGlobal_go (op := .xrd) (by norm_num) hv hr hre _),
    View.issue_sector (op := .xrd) hm hf hv rfl (fun _ => nofun) rfl hre (Bool.and_false _) hu ht
      (fun bs hbs => ?_) (.unwritten _)⟩
  rw [← hbs]
  rfl

end

/-- Settles O32: AXADD.F32, XRD and XRD.clr are accesses that their home performs at their firing (`axaddF32_home`, `xrd_home`, `xrdClr_home`);
the value of an XS256 sector is `xsRead_spec`, and that of an addend `xsOf_of_fin`. -/
theorem exactSums : Obligations.ExactSums := by
  intro s u v r loc hm hf acq cl sum reads
  have hcl : sum = u.sectorNat (coreOf v.r) false .xrd loc := (if_neg fun h => Bool.false_ne_true h.2).symm
  refine ⟨fun hfire hre => ?_, fun hfire hre hu hw ht => ?_, fun hfire hre hu ht => ?_⟩
  · -- AXADD.F32.
    have hbad : xsOutside v.b = true → ∃ t : State, exec (.axaddF32 r) s = .next t ∧ Faults u t v 0x13 [] (vaOf v 32) := axaddF32_fault hfire hre
    rw [fpLane_f32]
    cases hx : fp32.val v.b.toNat with
    | nan => exact hbad (by rw [xsOutside, hx])
    | inf neg => exact hbad (by rw [xsOutside, hx])
    | fin neg m e =>
      have habs : |underSign neg ((m : ℚ) * 2 ^ e)| = m * 2 ^ e := abs_underSign neg (mul_nonneg (Nat.cast_nonneg m) (zpow_nonneg zero_le_two e))
      simp only [Fv.ext, habs]
      refine ⟨fun hin hu hw ht => ?_, fun hout => hbad ((xsOutside_of_fin hx).mpr hout)⟩
      obtain ⟨t, hexec, hask, hwr⟩ := axaddF32_home hm hf hfire hre
        (Bool.eq_false_iff.mpr fun h => absurd ((xsOutside_of_fin hx).mp h) (not_le.mpr hin)) hu hw ht
      exact ⟨t, _, hexec, hask, by rw [xsAdd_int, xsOf_of_fin hx], hwr⟩
  · -- XRD.clr.
    obtain ⟨t, hexec, hask, hwr⟩ := xrdClr_home hm hf hfire hre hu hw ht
    exact ⟨t, _, hexec, xsRead_spec (hcl ▸ State.sectorNat_lt ..), hask, hwr⟩
  · -- XRD.
    intro n
    have hn : n = u.sectorNat (coreOf v.r) v.x.isRounded .xrd loc := by
      simp only [State.sectorNat, true_and]
      rfl
    obtain ⟨t, hexec, hask, hwr⟩ := xrd_home hm hf hfire hre hu ht
    rw [← hn] at hask
    exact ⟨t, _, hexec, xsRead_spec (hn ▸ State.sectorNat_lt ..), hask, hwr⟩

end Sys2Proof.Machine
end

section
/-!
SUPPORT. What a commit makes of contexts (R34, R40), and that it leaves chains (R39) and the breakpoint enable (R392).
-/
namespace Sys2Proof.Machine

theorem State.ctx_congr {s t : State} (h : t.regions = s.regions) (k : CtxId) : t.ctx k = s.ctx k := by
  rw [State.ctx, State.ctx, State.region, State.region, h]

/-- What a firing makes of its own context. -/
def View.stamped (v : View) (n : Need) (fl : Bool) (x : Ctx) : Ctx := if v.f.follower then v.stamp n fl x else (v.stamp n fl x).note v.f.slot

theorem View.commit_ctx (v : View) (n : Need) (fl : Bool) (s : State) (k : CtxId) :
    (v.commit n fl s).ctx k = if k = v.f.ctx then (s.ctx k).map (v.stamped n fl) else s.ctx k := by
  have hpop : (s.bump.popMask v.p n.dq).ctx k = s.ctx k := State.ctx_congr (congrArg State.regions (Pops.popMask s.bump v.p n.dq).rest) k
  have hres : ∀ u : State, ∀ c own, (u.reserve c own n.om).ctx k = u.ctx k := fun u c own =>
    State.ctx_congr (congrArg State.regions (State.reserve_spec u c own n.om).1) k
  have hskip : ∀ u : State, (u.laneSkip v).ctx k = u.ctx k := fun u =>
    State.ctx_congr (congrArg State.regions (State.joinLane_spec ..).1) k
  have hstep : ∀ g : Region, (Region.stepTaken s.uid { g with fired := g.fired || v.rule.guard.kind != .idle }).ctxs = g.ctxs := fun g => by
    rw [(Region.stepTaken_spec s.uid _).1]
  have hnote : ∀ u : State, (u.updCtx v.f.ctx fun x => x.note v.f.slot).ctx k =
      if k = v.f.ctx then (u.ctx k).map fun x => x.note v.f.slot else u.ctx k := fun u => State.ctx_updCtx _ _ _ _ fun _ => ⟨rfl, rfl⟩
  have helem : ∀ u : State, ∀ p f, (u.updElem p f).ctx k = u.ctx k := fun _ _ _ => rfl
  unfold View.commit
  dsimp only
  rw [apply_ite (fun t => State.ctx t k), hskip, ite_self, State.ctx_updRegion _ _ _ hstep, hres, apply_ite (fun t => State.ctx t k),
    hnote, helem, State.ctx_updCtx _ _ _ _ (View.stamp_place v n fl), hpop]
  by_cases hk : k = v.f.ctx
  · simp only [if_pos hk, Option.map_map]
    unfold View.stamped
    split <;> rfl
  · simp only [if_neg hk, ite_self]

theorem View.schedule_ctx (v : View) (own lat : Nat) (d : Done) (om : BitVec 8) (s : State) (idiv sr mem read : Bool) (k : CtxId) :
    (v.schedule own lat d om s idiv sr mem read).ctx k = s.ctx k := by
  unfold View.schedule
  split <;> rfl

/-- The context of a firing is there. -/
theorem ctx_of_view {s : State} {r : Rule} {w : ImmW} {v : View} (hv : view s r w = some v) : s.ctx v.f.ctx = some v.x := by
  obtain ⟨hf, hr, hg, hx, -⟩ := view_spec hv
  rw [hf, State.ctx, ← hr, hg]
  exact hx

-- Chains (R39).

theorem KeepsChains.of_regions {s t : State} (h : t.regions = s.regions) : KeepsChains s t := fun r g hg =>
  ⟨g, by rw [State.region, h]; exact hg, rfl, rfl⟩

theorem KeepsChains.updCtx (s : State) (c : CtxId) {f : Ctx → Ctx} (hf : ∀ x, (f x).place = x.place) : KeepsChains s (s.updCtx c f) :=
  .updRegion s c.region fun g => .updCtx g c.el c.k hf

theorem KeepsChains.updElem (s : State) (p : Nat) (f : Elem → Elem) : KeepsChains s (s.updElem p f) := .of_regions rfl

theorem KeepsChains.ite {s t u : State} {p : Prop} [Decidable p] (ht : KeepsChains s t) (hu : KeepsChains s u) :
    KeepsChains s (if p then t else u) := by
  split
  · exact ht
  · exact hu

theorem View.commit_chains (v : View) (n : Need) (fl : Bool) (s : State) : KeepsChains s (v.commit n fl s) := by
  have hstamp : ∀ x, (v.stamp n fl x).place = x.place := fun x => by rw [View.stamp_eq]; rfl
  have hstep : ∀ g : Region, SameChains g (Region.stepTaken s.uid { g with fired := g.fired || v.rule.guard.kind != .idle }) := fun g => by
    rw [(Region.stepTaken_spec s.uid _).1]
    exact ⟨rfl, rfl⟩
  have hpop : KeepsChains s (s.bump.popMask v.p n.dq) := .of_regions ((congrArg State.regions (Pops.popMask s.bump v.p n.dq).rest).trans rfl)
  have hstamped := hpop.trans (.updCtx _ v.f.ctx hstamp)
  have hspent := hstamped.trans (.updElem _ v.p fun e => { e with spent := true, ptr := if v.f.follower then e.ptr else (v.x.k + 1) % 8 })
  have hnoted := KeepsChains.ite (p := v.f.follower = true) hspent (hspent.trans (.updCtx _ v.f.ctx (f := fun x => x.note v.f.slot) fun _ => rfl))
  have hreserved := hnoted.trans (.of_regions ((congrArg State.regions (State.reserve_spec _ v.f.ctx s.uid n.om).1).trans rfl))
  have hstepped := hreserved.trans (.updRegion _ v.r hstep)
  exact .ite (hstepped.trans (.of_regions ((congrArg State.regions (State.joinLane_spec ..).1).trans rfl))) hstepped

-- The breakpoint enable (R392).

theorem State.pop_rregs (s : State) (p n : Nat) : (s.pop p n).rregs = s.rregs := by
  unfold State.pop
  split
  · rfl
  · unfold State.returnCredit
    split <;> rfl

theorem State.rdbg_pop (s : State) (p n r : Nat) : ((s.pop p n).rreg r).rdbg = (s.rreg r).rdbg := by
  rw [State.rreg, State.pop_rregs, State.rreg]

theorem State.rdbg_updRreg (s : State) (q r : Nat) {f : RReg → RReg} (hf : ∀ x, (f x).rdbg = x.rdbg) :
    ((s.updRreg q f).rreg r).rdbg = (s.rreg r).rdbg := by
  by_cases h : r = q
  · rw [h, State.rreg_updRreg_same, hf]
  · exact congrArg RReg.rdbg (Tab.lookD_alter_other s.rregs h {} f)

theorem State.rdbg_tidyCh (s : State) (p n m r : Nat) : ((s.tidyCh p n m).rreg r).rdbg = (s.rreg r).rdbg := by
  induction m generalizing s with
  | zero => rfl
  | succ m ih =>
    simp only [State.tidyCh]
    split
    · rfl
    · split
      · rw [ih, State.rdbg_updRreg, State.rdbg_pop]
        exact fun _ => rfl
      · rfl

theorem State.rdbg_popMask (s : State) (p : Nat) (dq : BitVec 4) (r : Nat) : ((s.popMask p dq).rreg r).rdbg = (s.rreg r).rdbg := by
  unfold State.popMask
  split
  · rfl
  · refine foldl_keeps (fun u : State => (u.rreg r).rdbg = (s.rreg r).rdbg) _ (fun u n h => (State.rdbg_tidyCh u p n 4 r).trans h) _ ?_
    refine foldl_keeps (fun u : State => (u.rreg r).rdbg = (s.rreg r).rdbg) _ (fun u n h => ?_) _ rfl
    split
    · exact (State.rdbg_pop u p n r).trans h
    · exact h

theorem View.commit_rdbg (v : View) (n : Need) (fl : Bool) (s : State) (r : Nat) :
    ((v.commit n fl s).rreg r).rdbg = (s.rreg r).rdbg := by
  have hres : ∀ u : State, ∀ c own, (u.reserve c own n.om).rregs = u.rregs := fun u c own =>
    (congrArg State.rregs (State.reserve_spec u c own n.om).1).trans rfl
  have hskip : ∀ u : State, (u.laneSkip v).rregs = u.rregs := fun u => (congrArg State.rregs (State.joinLane_spec ..).1).trans rfl
  have hregion : ∀ u : State, ∀ q f, (u.updRegion q f).rregs = u.rregs := fun _ _ _ => rfl
  have hctx : ∀ u : State, ∀ c f, (u.updCtx c f).rregs = u.rregs := fun _ _ _ => rfl
  have helem : ∀ u : State, ∀ p f, (u.updElem p f).rregs = u.rregs := fun _ _ _ => rfl
  have hpop := State.rdbg_popMask s.bump v.p n.dq r
  unfold View.commit
  dsimp only
  rw [State.rreg, apply_ite State.rregs, hskip, ite_self, hregion, hres, apply_ite State.rregs, hctx, ite_self, helem, hctx]
  exact hpop

end Sys2Proof.Machine
end

section
/-!
SUPPORT. The lanes of a word as integers, and a word put together from its lanes (R90, R91, R117).
-/
namespace Sys2Proof.Machine
open Claims

-- Digits.

/-- The digits of a sum of digits to the base 2^w. -/
theorem sum_digits (w : Nat) (g : Nat → Nat) (hg : ∀ j, g j < 2 ^ w) {n i : Nat} (hi : i < n) :
    ((List.range n).map fun j => g j * 2 ^ (w * j)).sum / 2 ^ (w * i) % 2 ^ w = g i := by
  induction n generalizing g i with
  | zero => exact absurd hi (Nat.not_lt_zero i)
  | succ n ih =>
    -- The sum is its lowest digit and 2^w times the sum of the others.
    have hsum : ((List.range (n + 1)).map fun j => g j * 2 ^ (w * j)).sum =
        g 0 + 2 ^ w * ((List.range n).map fun j => g (j + 1) * 2 ^ (w * j)).sum := by
      rw [List.range_succ_eq_map, List.map_cons, List.map_map, List.sum_cons, Nat.mul_zero, Nat.pow_zero, Nat.mul_one, ← List.sum_map_mul_left]
      refine congrArg (g 0 + List.sum ·) (List.map_congr_left fun j _ => ?_)
      rw [Function.comp, Nat.mul_succ, Nat.pow_add]
      ring
    rw [hsum]
    cases i with
    | zero => rw [Nat.mul_zero, Nat.pow_zero, Nat.div_one, Nat.add_mul_mod_self_left, Nat.mod_eq_of_lt (hg 0)]
    | succ i =>
      rw [Nat.mul_succ, Nat.add_comm (w * i), Nat.pow_add, ← Nat.div_div_eq_div_mul, Nat.add_mul_div_left _ _ (Nat.two_pow_pos w),
        Nat.div_eq_of_lt (hg 0), Nat.zero_add]
      exact ih (fun j => g (j + 1)) (fun j => hg (j + 1)) (Nat.lt_of_succ_lt_succ hi)

-- Lanes.

/-- The types that R121 names, as the model and the statements see them. -/
theorem pint_lanes {t : Ty} (ht : t ∈ pint) :
    t.width = laneWidth t ∧ t.lanes = laneCount t ∧ t.isSigned = laneSigned t ∧ laneWidth t * laneCount t = 32 ∧ 0 < laneWidth t := by
  revert t
  decide

theorem laneNat_eq {t : Ty} {w : Nat} (hw : t.width = w) (x : Word) (i : Nat) : laneNat t x i = (x.extractLsb' (w * i) w).toNat := by
  rw [laneNat, BitVec.extractLsb'_toNat, Nat.shiftRight_eq_div_pow, hw]

theorem lane_eq_laneInt {t : Ty} (ht : t ∈ pint) (x : Word) (i : Nat) : lane t x i = laneInt t x i := by
  obtain ⟨hw, -, hs, -, hpos⟩ := pint_lanes ht
  have hpow : 2 * 2 ^ (laneWidth t - 1) = 2 ^ laneWidth t := by rw [← Nat.pow_succ', Nat.succ_eq_add_one, Nat.sub_add_cancel hpos]
  simp only [lane, laneInt, laneNat_eq hw, hs]
  rw [hw]
  generalize x.extractLsb' _ (laneWidth t) = y
  cases laneSigned t with
  | false => rfl
  | true =>
    rw [if_pos rfl, BitVec.toInt_eq_toNat_cond]
    simp only [Bool.true_and, decide_eq_true_eq]
    by_cases h : 2 * y.toNat < 2 ^ laneWidth t
    · rw [if_pos h, if_neg (by omega)]
    · rw [if_neg h, if_pos (by omega)]
      push_cast
      rfl

theorem extractLsb'_ofNat_eq (S : Nat) {lo n : Nat} (h : lo + n ≤ 32) : (BitVec.ofNat 32 S).extractLsb' lo n = BitVec.ofNat n (S / 2 ^ lo) := by
  refine BitVec.eq_of_getLsbD_eq fun j hj => ?_
  rw [BitVec.getLsbD_extractLsb', BitVec.getLsbD_ofNat, BitVec.getLsbD_ofNat, Nat.testBit_div_two_pow, Nat.add_comm,
    decide_eq_true (show j + lo < 32 by omega), decide_eq_true hj, Bool.true_and]

/-- Each lane of a word put together holds the low bits of its integer (R117). -/
theorem packLanes_lanesAre {t : Ty} (ht : t ∈ pint) (f : Nat → Int) : LanesAre t (packLanes t f) f := by
  intro i hi
  obtain ⟨hw, hn, -, h32, -⟩ := pint_lanes ht
  have hfits : laneWidth t * i + laneWidth t ≤ 32 := by rw [← Nat.mul_succ, ← h32]; exact Nat.mul_le_mul_left _ hi
  have hlt : ∀ j, (f j % 2 ^ laneWidth t).toNat < 2 ^ laneWidth t := fun j => by
    have hpos : (0 : Int) < 2 ^ laneWidth t := by positivity
    have := Int.emod_lt_of_pos (f j) hpos
    have := Int.emod_nonneg (f j) hpos.ne'
    zify
    omega
  rw [packLanes, hw, hn, extractLsb'_ofNat_eq _ hfits]
  refine BitVec.eq_of_toNat_eq ?_
  rw [BitVec.toNat_ofNat, sum_digits _ _ hlt hi, BitVec.toNat_ofInt]
  push_cast
  rfl

theorem clampTo_eq {lo hi : Int} (h : lo ≤ hi) (x : Int) : clampTo lo hi x = max lo (min hi x) := by
  unfold clampTo
  split
  · omega
  · split <;> omega

/-- The range of a lane (R91). -/
theorem pint_range {t : Ty} (ht : t ∈ pint) : laneMin t ≤ laneMax t ∧
    laneMin t = (if laneSigned t then -(2 ^ (laneWidth t - 1)) else 0) ∧
    laneMax t = if laneSigned t then 2 ^ (laneWidth t - 1) - 1 else 2 ^ laneWidth t - 1 := by
  revert t
  decide

theorem fit_eq_limited {t : Ty} (ht : t ∈ pint) (sat : Bool) (x : Int) : fit t sat x = limited t sat x := by
  obtain ⟨hle, hlo, hhi⟩ := pint_range ht
  rw [fit, clampTo_eq hle, hlo, hhi]
  rfl

/-- A word of one lane is the low bits of its integer. -/
theorem packLanes_one {t : Ty} (ht : t = .i32 ∨ t = .u32) (f : Nat → Int) : packLanes t f = BitVec.ofInt 32 (f 0) := by
  have h := packLanes_lanesAre (t := t) (by rcases ht with rfl | rfl <;> decide) f 0 (by rcases ht with rfl | rfl <;> decide)
  rcases ht with rfl | rfl <;> exact (BitVec.extractLsb'_eq_self.symm).trans h

theorem laneInt_i32 (x : Word) : laneInt .i32 x 0 = x.toInt := congrArg BitVec.toInt (BitVec.extractLsb'_eq_self (x := x))
theorem laneInt_u32 (x : Word) : laneInt .u32 x 0 = x.toNat := congrArg (fun y : Word => (y.toNat : Int)) (BitVec.extractLsb'_eq_self (x := x))

theorem toNat_append_halves (x y : BitVec 16) : (x ++ y : Word).toNat = x.toNat * 2 ^ 16 + y.toNat := by
  rw [BitVec.toNat_append, ← Nat.shiftLeft_add_eq_or_of_lt y.isLt, Nat.shiftLeft_eq]

end Sys2Proof.Machine
end

section
/-!
PROOFS. Firings of fixed latency complete (R34, R35, R37); moves, selection and predicates (R118, R127), and the words that the manual
writes out.
-/
namespace Sys2Proof.Machine
open Claims

/-- Settles O10: `decode` reads the five rule words. -/
theorem specWordsDecode : Obligations.SpecWordsDecode := ⟨rfl, rfl, rfl, rfl, rfl⟩

section
variable {i : Instr} {r : Rule} {w : ImmW} {need : View → Need} {lat : Nat} {d : View → State → Done} {s : State} {v : View} {idiv : Bool}
  {sr : View → Bool} {latch : Bool}

/-- The rule of a firing that may happen is the one that its view names. -/
theorem rule_of_mayFire (hf : MayFire i r w s v) : v.rule = r := by
  obtain ⟨-, -, -, -, -, -, -, -, hr⟩ := view_spec hf.1
  exact hr

/-- A firing of fixed latency commits with what it needs, and writes on the routes that its needs name (R34, R35). -/
theorem fires_of_fireAlu (hi : exec i s = .next (fireAlu r w need lat d s idiv sr latch)) (hn : needFor s v i = need v)
    (hf : MayFire i r w s v) (hl : 1 ≤ lat) :
    ∃ t, exec i s = .next t ∧ Commits s t v (need v) (decide (1 < lat)) ∧ Writes s t v lat (need v).om (d v s) := by
  obtain ⟨hv, hr⟩ := hf
  exact ⟨_, hi, fireAlu_spec idiv sr latch hv (hn ▸ hr) hl⟩

/-- It completes, where its needs name the routes of its rule. -/
theorem completes_of_fireAlu {e : Done} (hi : exec i s = .next (fireAlu r w need lat d s idiv sr latch)) (hn : needFor s v i = need v)
    (ho : (need v).om = v.rule.om) (hf : MayFire i r w s v) (hl : 1 ≤ lat) (hd : d v s = e) : Completes i s v lat e := by
  obtain ⟨t, ht, hc, hw⟩ := fires_of_fireAlu hi hn hf hl
  exact ⟨t, ht, hn ▸ hc, hd ▸ ho ▸ hw⟩

theorem delivers_of_fireAlu {res : Word} {pres : Bool} (hi : exec i s = .next (fireAlu r w need lat d s idiv sr latch))
    (hn : needFor s v i = need v) (ho : (need v).om = v.rule.om) (hf : MayFire i r w s v) (hl : 1 ≤ lat)
    (hd : d v s = { res, pres, om := v.rule.om, colour := v.colour }) : Delivers i s v lat res pres :=
  completes_of_fireAlu hi hn ho hf hl hd

end

-- Moves, selection and predicates (R118, R127).

theorem toNat_movh (hi : BitVec 16) (a : Word) : (hi ++ a.setWidth 16).toNat = hi.toNat * 2 ^ 16 + a.toNat % 2 ^ 16 := by
  rw [toNat_append_halves, BitVec.toNat_setWidth]

/-- The conditions of ICMP, each by its name (R127). -/
theorem icondHolds_of_mem {cc : ICond} {c : Bool} {x y : Int}
    (h : (cc, c) ∈ [(ICond.eq, decide (x = y)), (.ne, decide (x ≠ y)), (.lt, decide (x < y)), (.le, decide (x ≤ y)),
      (.gt, decide (x > y)), (.ge, decide (x ≥ y))]) : icondHolds cc x y = c := by
  simp only [List.mem_cons, Prod.mk.injEq, List.not_mem_nil, or_false] at h
  rcases h with ⟨rfl, rfl⟩ | ⟨rfl, rfl⟩ | ⟨rfl, rfl⟩ | ⟨rfl, rfl⟩ | ⟨rfl, rfl⟩ | ⟨rfl, rfl⟩ <;> rfl

theorem holds_iff {v : View} {p : BitVec 3} : Holds v p ↔ v.x.pred p = .t := Iff.rfl

theorem psetFn_eq (f : PFn) {c : Bool} {p q : Prop} [Decidable p] [Decidable q] (h : c = true ↔ match f with
    | .and => p ∧ q | .or => p ∨ q | .xor => (p ∧ ¬q) ∨ (¬p ∧ q) | .andn => p ∧ ¬q
    | .mov => p | .not => ¬p | .true => True | .false => False) : psetFn f (decide p) (decide q) = c := by
  rw [Bool.eq_iff_iff, h]
  by_cases hp : p <;> by_cases hq : q <;> cases f <;> simp [psetFn, hp, hq]

theorem toNat_pget (a : Word) (p : Bool) : ((a <<< 1) ||| (if p then 1#32 else 0#32)).toNat = a.toNat * 2 % 2 ^ 32 + p.toNat := by
  have hp : (if p then 1#32 else 0#32 : Word).toNat = p.toNat := by cases p <;> rfl
  have ha : (a <<< 1).toNat = (a.toNat % 2 ^ 31) <<< 1 := by
    rw [BitVec.toNat_shiftLeft, Nat.shiftLeft_eq, Nat.shiftLeft_eq]
    omega
  rw [BitVec.toNat_or, hp, ha, ← Nat.shiftLeft_add_eq_or_of_lt p.toNat_lt, Nat.shiftLeft_eq]
  omega

/-- Settles O14: each firing delivers what its definition computes, and the values are those of the lemmas above. -/
theorem selectionAndPredicates : Obligations.SelectionAndPredicates := by
  refine ⟨fun s v r p => ⟨fun hf => ?mov, fun hf => ?movh, fun hf hp => ?selTrue, fun hf hp => ?selFalse⟩, fun s v r t ht => ?_⟩
  case mov => exact delivers_of_fireFn rfl rfl hf le_rfl
  case movh => exact ⟨_, toNat_movh r.imm v.a, delivers_of_fireFn (f := fun a _ _ => r.imm ++ a.setWidth 16) rfl rfl hf le_rfl⟩
  case selTrue => exact delivers_of_fireAlu rfl rfl rfl hf le_rfl (by rw [if_pos (holds_iff.mp hp)]; rfl)
  case selFalse => exact delivers_of_fireAlu rfl rfl rfl hf le_rfl (by rw [if_neg (holds_iff.not.mp hp)]; rfl)
  intro x y pa pb
  have himm : immS t = .s32 := by rcases ht with rfl | rfl <;> rfl
  have hpint : t ∈ pint := by rcases ht with rfl | rfl <;> decide
  have hlow : r.imm.setWidth 3 = r.imm.extractLsb' 0 3 := BitVec.setWidth_eq_extractLsb' (by decide)
  refine ⟨fun cc c hc hf => ?icmp, fun f c hc hf => ?pset, fun c hc hf => ⟨_, toNat_pget v.a c, ?pget⟩⟩
  case icmp =>
    refine delivers_of_fireAlu rfl rfl rfl (himm ▸ hf) le_rfl ?_
    rw [lane_eq_laneInt hpint, lane_eq_laneInt hpint, icondHolds_of_mem hc]
    rfl
  case pset =>
    refine delivers_of_fireAlu rfl rfl rfl hf le_rfl ?_
    rw [hlow, psetFn_eq f (p := v.x.pred _ = .t) (q := v.x.pred _ = .t) hc]
    rfl
  case pget =>
    have hp : decide (v.x.pred (r.imm.extractLsb' 0 3) = .t) = c := Bool.eq_iff_iff.mpr (decide_eq_true_iff.trans hc.symm)
    refine delivers_of_fireAlu rfl rfl rfl hf le_rfl ?_
    rw [hlow, hp]
    rfl

end Sys2Proof.Machine
end

section
/-!
PROOFS. Integer arithmetic (R121 to R124).
-/
namespace Sys2Proof.Machine
open Claims

/-- A firing whose result is put together from lanes, each as the statement has it, delivers it. -/
theorem delivers_lanes {i : Instr} {r : Rule} {w : ImmW} {s : State} {v : View} {lat : Nat} {t : Ty} {f : Word → Word → Word → Nat → Int}
    {g : Nat → Int} (hi : exec i s = .next (fireFn r w lat (fun a b c => packLanes t (f a b c)) s)) (hn : needFor s v i = needOf v.rule)
    (ht : t ∈ pint) (hg : f v.a v.b v.c = g) (hf : MayFire i r w s v) (hl : 1 ≤ lat) :
    ∃ res, LanesAre t res g ∧ Delivers i s v lat res (isSet res) :=
  ⟨_, packLanes_lanesAre ht g, hg ▸ delivers_of_fireFn (f := fun a b c => packLanes t (f a b c)) hi hn hf hl⟩

theorem natAbs_eq_ite (x : Int) : (x.natAbs : Int) = if 0 ≤ x then x else -x := by
  split <;> omega

/-- Settles O15: every firing puts its result together lane by lane, and the lanes are those of the statement. -/
theorem integerLanes : Obligations.IntegerLanes := by
  intro s v r t sat ht x y z
  have hx : ∀ i, lane t v.a i = x i := lane_eq_laneInt ht v.a
  have hy : ∀ i, lane t v.b i = y i := lane_eq_laneInt ht v.b
  have hz : ∀ i, lane t v.c i = z i := lane_eq_laneInt ht v.c
  have hfit : ∀ n, fit t sat n = limited t sat n := fit_eq_limited ht sat
  refine ⟨fun hf => ?iadd, fun hf => ?isub, fun hf => ?imin, fun hf => ?imax, fun _ hf => ?iabs, fun hf => ?lo, fun _ hf => ?hi, fun _ hf => ?imad⟩
  case iadd =>
    exact delivers_lanes (f := fun a b _ i => fit t sat (lane t a i + lane t b i)) rfl rfl ht (by simp only [hx, hy, hfit]) hf le_rfl
  case isub =>
    exact delivers_lanes (f := fun a b _ i => fit t sat (lane t a i - lane t b i)) rfl rfl ht (by simp only [hx, hy, hfit]) hf le_rfl
  case imin =>
    exact delivers_lanes (f := fun a b _ i => min (lane t a i) (lane t b i)) rfl rfl ht (by simp only [hx, hy, min_def]) hf le_rfl
  case imax =>
    exact delivers_lanes (f := fun a b _ i => max (lane t a i) (lane t b i)) rfl rfl ht (by simp only [hx, hy, max_def]) hf le_rfl
  case iabs =>
    exact delivers_lanes (f := fun a _ _ i => fit t sat (lane t a i).natAbs) rfl rfl ht (by simp only [hx, hfit, natAbs_eq_ite]) hf le_rfl
  case lo =>
    exact delivers_lanes (f := fun a b _ i => lane t a i * lane t b i) rfl rfl ht (by simp only [hx, hy]) hf (by decide)
  case hi =>
    exact delivers_lanes (f := fun a b _ i => (lane t a i * lane t b i) / 2 ^ 32) rfl rfl ht (by simp only [hx, hy]) hf (by decide)
  case imad =>
    exact delivers_lanes (f := fun a b c i => fit t sat (lane t a i * lane t b i + lane t c i)) rfl rfl ht (by simp only [hx, hy, hz, hfit]) hf
      (by decide)

-- IDOT (R122).

theorem pint_of_lanes {t : Ty} (h : 2 ≤ laneCount t) : t ∈ pint := by
  revert h
  cases t <;> decide

theorem idotFn_eq {t : Ty} (ht : t ∈ pint) (sat : Bool) (a b c : Word) :
    idotFn sat t a b c = BitVec.ofInt 32 (limited (if laneSigned t then .i32 else .u32) sat (laneInt (if laneSigned t then .i32 else .u32) c 0 +
      ((List.range (laneCount t)).map fun i => laneInt t a i * laneInt t b i).sum)) := by
  obtain ⟨-, hn, hs, -, -⟩ := pint_lanes ht
  have hacc : (if laneSigned t then .i32 else .u32 : Ty) = .i32 ∨ (if laneSigned t then .i32 else .u32 : Ty) = .u32 := by
    cases laneSigned t
    · exact .inr rfl
    · exact .inl rfl
  have hpint : (if laneSigned t then .i32 else .u32 : Ty) ∈ pint := by rcases hacc with h | h <;> rw [h] <;> decide
  simp only [idotFn, accTy, hs, hn, lane_eq_laneInt ht, lane_eq_laneInt hpint, fit_eq_limited hpint, packLanes_one hacc]

-- IADDX (R123).

theorem iaddxSum_u32 (cin : Bool) (a b : Word) : iaddxSum .u32 cin a b = a.toNat + b.toNat + if cin then 1 else 0 := by
  rw [iaddxSum, lane_eq_laneInt (by decide), lane_eq_laneInt (by decide), laneInt_u32, laneInt_u32]

theorem iaddxSum_i32 (cin : Bool) (a b : Word) : iaddxSum .i32 cin a b = a.toInt + b.toInt + if cin then 1 else 0 := by
  rw [iaddxSum, lane_eq_laneInt (by decide), lane_eq_laneInt (by decide), laneInt_i32, laneInt_i32]

/-- The carry out: no sum lies below the range. -/
theorem iaddxOut_u32 (cin : Bool) (a b : Word) : iaddxOut .u32 cin a b = decide (2 ^ 32 ≤ iaddxSum .u32 cin a b) := by
  have h0 : ¬iaddxSum .u32 cin a b < laneMin .u32 := not_lt.mpr (by rw [iaddxSum_u32]; positivity)
  rw [iaddxOut, decide_eq_false h0, Bool.false_or]
  exact decide_eq_decide.mpr (Int.lt_iff_add_one_le ..)

/-- Signed overflow. -/
theorem iaddxOut_i32 (cin : Bool) (a b : Word) :
    iaddxOut .i32 cin a b = decide (iaddxSum .i32 cin a b < -2 ^ 31 ∨ 2 ^ 31 - 1 < iaddxSum .i32 cin a b) :=
  (Bool.decide_or _ _).symm

-- IDIV (R124).

/-- Division toward zero: the remainder is smaller than the divisor, and zero or of the sign of the dividend. -/
theorem tdiv_tmod_spec (x : Int) {y : Int} (hy : y ≠ 0) : x = x.tdiv y * y + x.tmod y ∧ (x.tmod y).natAbs < y.natAbs ∧
    (0 ≤ x → 0 ≤ x.tmod y) ∧ (x ≤ 0 → x.tmod y ≤ 0) := by
  refine ⟨(Int.tdiv_mul_add_tmod x y).symm, ?_, fun hx => Int.tmod_nonneg y hx, fun hx => ?_⟩
  · rw [Int.natAbs_tmod]
    exact Nat.mod_lt _ (Int.natAbs_pos.mpr hy)
  · have h := Int.tmod_nonneg y (neg_nonneg.mpr hx)
    rwa [Int.neg_tmod, neg_nonneg] at h

theorem idivFn_zero {t : Ty} {a b : Word} (h : lane t b 0 = 0) (rem : Bool) : idivFn rem t a b = if rem then a else 0xFFFFFFFF#32 := if_pos h
theorem idivFn_of_ne {t : Ty} {a b : Word} (h : lane t b 0 ≠ 0) (rem : Bool) : idivFn rem t a b =
    if rem then BitVec.ofInt 32 ((lane t a 0).tmod (lane t b 0)) else BitVec.ofInt 32 ((lane t a 0).tdiv (lane t b 0)) := if_neg h

/-- Settles O16: the values of the three operations are those of the lemmas above. -/
theorem wideArithmetic : Obligations.WideArithmetic := by
  refine ⟨fun s v r t sat p => ⟨fun hn hf => ?idot, fun c hc => ?_⟩, fun s v r t ht => ?_⟩
  case idot =>
    intro acc sum res
    have h := delivers_of_fireFn (f := idotFn sat t) rfl rfl hf (by decide)
    rwa [idotFn_eq (pint_of_lanes hn)] at h
  · -- IADDX.
    have hcin : (if decide (v.x.pred p = .t) = true then 1 else 0) = c := by
      rcases hc with ⟨rfl, h⟩ | ⟨rfl, h⟩
      · rw [decide_eq_false (holds_iff.not.mp h)]; rfl
      · rw [decide_eq_true (holds_iff.mp h)]; rfl
    refine ⟨fun hf => delivers_of_fireAlu rfl rfl rfl hf le_rfl ?_, fun hf => delivers_of_fireAlu rfl rfl rfl hf le_rfl ?_⟩
    · dsimp only
      rw [iaddxOut_u32, iaddxSum_u32, hcin]
      rfl
    · dsimp only
      rw [iaddxOut_i32, iaddxSum_i32, hcin]
      rfl
  · -- IDIV.
    intro x y
    have hpint : t ∈ pint := by rcases ht with rfl | rfl <;> decide
    have himm : immS t = .s32 := by rcases ht with rfl | rfl <;> rfl
    have hx : lane t v.a 0 = x := lane_eq_laneInt hpint v.a 0
    have hy : lane t v.b 0 = y := lane_eq_laneInt hpint v.b 0
    have hdiv : ∀ rem res, idivFn rem t v.a v.b = res → MayFire (.idiv rem t r) r .s32 s v → Delivers (.idiv rem t r) s v 18 res (isSet res) :=
      fun rem res he hf => delivers_of_fireAlu rfl rfl rfl (himm ▸ hf) (by decide) (he ▸ rfl)
    refine ⟨fun h0 => hdiv false _ (idivFn_zero (hy.trans h0) _), fun h0 => hdiv true _ (idivFn_zero (hy.trans h0) _), fun h0 => ?_⟩
    obtain ⟨hsum, hlt, hpos, hneg⟩ := tdiv_tmod_spec x h0
    have hne := fun rem => idivFn_of_ne (t := t) (a := v.a) (hy.trans_ne h0) rem
    rw [hx, hy] at hne
    exact ⟨x.tdiv y, x.tmod y, hsum, hlt, hpos, hneg, hdiv false _ (hne false), hdiv true _ (hne true)⟩

end Sys2Proof.Machine
end

section
/-!
PROOFS. Logic, shifts, bit counts and bit fields (R125, R126).
-/
namespace Sys2Proof.Machine
open Claims

-- Shifts.

theorem toNat_shlFn (a b : Word) : (shlFn a b).toNat = if b.toNat < 32 then a.toNat * 2 ^ b.toNat % 2 ^ 32 else 0 := by
  unfold shlFn
  split
  · rw [BitVec.toNat_shiftLeft, Nat.shiftLeft_eq]
  · rfl

theorem toNat_shrFn (a b : Word) : (shrFn a b).toNat = if b.toNat < 32 then a.toNat / 2 ^ b.toNat else 0 := by
  unfold shrFn
  split
  · rw [BitVec.toNat_ushiftRight, Nat.shiftRight_eq_div_pow]
  · rfl

theorem toInt_sarFn (a b : Word) :
    (sarFn a b).toInt = if b.toNat < 32 then a.toInt / 2 ^ b.toNat else if a.getLsbD 31 then -1 else 0 := by
  unfold sarFn
  split
  · rw [BitVec.toInt_sshiftRight, Int.shiftRight_eq_div_pow]
    rfl
  · -- The 31 bits below the sign are gone.
    rw [BitVec.toInt_sshiftRight, Int.shiftRight_eq_div_pow]
    have hlt := BitVec.toInt_lt (x := a)
    have hle := BitVec.le_toInt (x := a)
    have hmsb : a.getLsbD 31 = decide (a.toInt < 0) := (BitVec.msb_eq_getLsbD_last a).symm.trans (BitVec.msb_eq_toInt)
    rw [hmsb]
    by_cases h : a.toInt < 0
    · rw [if_pos (decide_eq_true h)]
      omega
    · rw [if_neg (by simpa using h)]
      omega

theorem getLsbD_rotFn (a b : Word) {i : Nat} (hi : i < 32) : (rotFn a b).getLsbD ((i + b.toNat) % 32) = a.getLsbD i := by
  have hr : b.toNat % 32 < 32 := Nat.mod_lt _ (by decide)
  rw [rotFn, BitVec.getLsbD_rotateLeft, Nat.mod_mod, Nat.add_mod, Nat.mod_eq_of_lt hi]
  generalize b.toNat % 32 = n at hr ⊢
  by_cases h : i + n < 32
  · rw [Nat.mod_eq_of_lt h, decide_eq_false (by omega), cond_false, decide_eq_true h, Bool.true_and, Nat.add_sub_cancel]
  · rw [Nat.mod_eq_sub_mod (Nat.le_of_not_lt h), Nat.mod_eq_of_lt (by omega), decide_eq_true (by omega), cond_true]
    congr 1
    omega

-- Bit counts.

/-- The bits above the highest one of the lowest `n` are counted. -/
theorem leadingZeros_spec (a : Word) (n : Nat) : leadingZeros a n ≤ n ∧ (∀ j, j < leadingZeros a n → a.getLsbD (n - 1 - j) = false) ∧
    (leadingZeros a n < n → a.getLsbD (n - 1 - leadingZeros a n) = true) := by
  induction n with
  | zero => exact ⟨le_rfl, fun j hj => absurd hj (Nat.not_lt_zero j), fun h => absurd h (Nat.lt_irrefl 0)⟩
  | succ n ih =>
    obtain ⟨hle, hzero, hone⟩ := ih
    rw [leadingZeros]
    by_cases h : a.getLsbD n = true
    · rw [if_pos h]
      exact ⟨Nat.zero_le _, fun j hj => absurd hj (Nat.not_lt_zero j), fun _ => h⟩
    · rw [if_neg h]
      refine ⟨by omega, fun j hj => ?_, fun hlt => ?_⟩
      · cases j with
        | zero => exact Bool.eq_false_iff.mpr h
        | succ j =>
          rw [show n + 1 - 1 - (j + 1) = n - 1 - j by omega]
          exact hzero j (by omega)
      · rw [show n + 1 - 1 - (1 + leadingZeros a n) = n - 1 - leadingZeros a n by omega]
        exact hone (by omega)

theorem length_filter_range (p : Nat → Bool) (n : Nat) : ((List.range n).filter p).length = ((Finset.range n).filter fun i => p i = true).card := by
  simp [Finset.filter, Finset.card, Finset.range, Multiset.range]

theorem getLsbD_brevFn (a : Word) {i : Nat} (hi : i < 32) : (brevFn a).getLsbD (31 - i) = a.getLsbD i := by
  rw [brevFn, BitVec.getLsbD_reverse, BitVec.getMsbD, decide_eq_true (show 31 - i < 32 by omega), Bool.true_and]
  congr 1
  omega

/-- A count of bits is not zero exactly where its word is not. -/
theorem isSet_ofNat {n : Nat} (h : n < 2 ^ 32) : isSet (BitVec.ofNat 32 n) = decide (n ≠ 0) := by
  have : BitVec.ofNat 32 n ≠ 0#32 ↔ n ≠ 0 := by
    rw [Ne, ← BitVec.toNat_inj, BitVec.toNat_ofNat, Nat.mod_eq_of_lt h]
    rfl
  exact Bool.eq_iff_iff.mpr (by rw [isSet, bne_iff_ne, decide_eq_true_iff, this])

-- Bit fields (R126).

theorem bf_fields {imm : BitVec 16} {lo w : Nat} (h : imm.toNat = lo + 32 * w) (hlo : lo < 32) (hw : lo + w ≤ 32) :
    bfLo imm = lo ∧ bfWidth imm = w := by
  rw [bfLo, bfWidth, h]
  omega

/-- BFX extends the field, with its sign or with zeros. -/
theorem bfxFn_eq (signed : Bool) (imm : BitVec 16) (a : Word) (hw : 0 < bfWidth imm) : bfxFn signed imm a =
    if signed then (a.extractLsb' (bfLo imm) (bfWidth imm)).signExtend 32 else (a.extractLsb' (bfLo imm) (bfWidth imm)).setWidth 32 := by
  unfold bfxFn
  dsimp only
  rw [← Nat.shiftRight_eq_div_pow, ← BitVec.extractLsb'_toNat]
  generalize a.extractLsb' (bfLo imm) (bfWidth imm) = y
  have hpow : 2 * 2 ^ (bfWidth imm - 1) = 2 ^ bfWidth imm := by rw [← Nat.pow_succ', Nat.succ_eq_add_one, Nat.sub_add_cancel hw]
  cases signed with
  | false => exact BitVec.ofNat_toNat ..
  | true =>
    simp only [Bool.true_and, decide_eq_true_eq, if_true]
    rw [BitVec.signExtend, BitVec.toInt_eq_toNat_cond]
    by_cases h : 2 * y.toNat < 2 ^ bfWidth imm
    · rw [if_neg (by omega), if_pos h]
      rfl
    · rw [if_pos (by omega), if_neg h]
      push_cast
      rfl

theorem getLsbD_bfxFn {signed : Bool} {imm : BitVec 16} (a : Word) (hw : 0 < bfWidth imm) {i : Nat} (hi : i < 32) :
    (bfxFn signed imm a).getLsbD i =
      if i < bfWidth imm then a.getLsbD (bfLo imm + i) else signed && a.getLsbD (bfLo imm + bfWidth imm - 1) := by
  rw [bfxFn_eq signed imm a hw]
  cases signed with
  | false =>
    rw [if_neg Bool.false_ne_true, BitVec.getLsbD_setWidth, BitVec.getLsbD_extractLsb', decide_eq_true hi]
    by_cases h : i < bfWidth imm <;> simp [h]
  | true =>
    rw [if_pos rfl, BitVec.getLsbD_signExtend, decide_eq_true hi, Bool.true_and, Bool.true_and, BitVec.msb_eq_getLsbD_last,
      BitVec.getLsbD_extractLsb', BitVec.getLsbD_extractLsb', decide_eq_true (Nat.sub_lt hw Nat.one_pos), Bool.true_and, Nat.add_sub_assoc hw]
    by_cases h : i < bfWidth imm <;> simp [h]

theorem getLsbD_bfiFn (imm : BitVec 16) (a b : Word) {i : Nat} (hi : i < 32) :
    (bfiFn imm a b).getLsbD i = if bfLo imm ≤ i ∧ i < bfLo imm + bfWidth imm then a.getLsbD (i - bfLo imm) else b.getLsbD i := by
  have hm : (BitVec.ofNat 32 ((2 ^ bfWidth imm - 1) * 2 ^ bfLo imm)).getLsbD i =
      decide (bfLo imm ≤ i ∧ i < bfLo imm + bfWidth imm) := by
    rw [BitVec.getLsbD_ofNat, Nat.testBit_mul_two_pow, Nat.testBit_two_pow_sub_one, decide_eq_true hi, Bool.true_and, ← Bool.decide_and]
    exact decide_eq_decide.mpr (by omega)
  unfold bfiFn
  dsimp only
  rw [BitVec.getLsbD_or, BitVec.getLsbD_and, BitVec.getLsbD_and, BitVec.getLsbD_not, BitVec.getLsbD_shiftLeft, hm, decide_eq_true hi]
  by_cases h : bfLo imm ≤ i ∧ i < bfLo imm + bfWidth imm
  · simp [h]
  · simp [h]

/-- Settles O17: the bits and numbers of each result are those of the lemmas above. -/
theorem bitwiseOperations : Obligations.BitwiseOperations := by
  refine ⟨fun s v r => ⟨fun hf => ?and, fun hf => ?or, fun hf => ?xor, fun hf => ?andn, fun hf => ?shl, fun hf => ?shr, fun hf => ?sar,
    fun hf => ?rot⟩, fun s v r => ⟨fun hf => ?clz, fun hf => ?popc, fun hf => ?brev, fun lo w himm hlo hw hfit => ?_⟩⟩
  case and => exact ⟨_, fun i _ => BitVec.getLsbD_and, delivers_of_fireFn (f := fun a b _ => a &&& b) rfl rfl hf le_rfl⟩
  case or => exact ⟨_, fun i _ => BitVec.getLsbD_or, delivers_of_fireFn (f := fun a b _ => a ||| b) rfl rfl hf le_rfl⟩
  case xor => exact ⟨_, fun i _ => BitVec.getLsbD_xor, delivers_of_fireFn (f := fun a b _ => a ^^^ b) rfl rfl hf le_rfl⟩
  case andn =>
    refine ⟨_, fun i hi => ?_, delivers_of_fireFn (f := fun a b _ => a &&& ~~~b) rfl rfl hf le_rfl⟩
    rw [BitVec.getLsbD_and, BitVec.getLsbD_not, decide_eq_true hi, Bool.true_and]
  case shl => exact ⟨_, toNat_shlFn v.a v.b, delivers_of_fireFn (f := fun a b _ => shlFn a b) rfl rfl hf le_rfl⟩
  case shr => exact ⟨_, toNat_shrFn v.a v.b, delivers_of_fireFn (f := fun a b _ => shrFn a b) rfl rfl hf le_rfl⟩
  case sar => exact ⟨_, toInt_sarFn v.a v.b, delivers_of_fireFn (f := fun a b _ => sarFn a b) rfl rfl hf le_rfl⟩
  case rot => exact ⟨_, fun i => getLsbD_rotFn v.a v.b, delivers_of_fireFn (f := fun a b _ => rotFn a b) rfl rfl hf le_rfl⟩
  case clz =>
    obtain ⟨hle, hzero, hone⟩ := leadingZeros_spec v.a 32
    refine ⟨_, hle, hzero, hone, ?_⟩
    rw [← isSet_ofNat (hle.trans_lt (by decide))]
    exact delivers_of_fireFn (f := fun a _ _ => clzFn a) rfl rfl hf le_rfl
  case popc =>
    refine ⟨_, length_filter_range v.a.getLsbD 32, ?_⟩
    rw [← isSet_ofNat ((List.length_filter_le ..).trans_lt (by decide))]
    exact delivers_of_fireFn (f := fun a _ _ => popcFn a) rfl rfl hf le_rfl
  case brev => exact ⟨_, fun i => getLsbD_brevFn v.a, delivers_of_fireFn (f := fun a _ _ => brevFn a) rfl rfl hf le_rfl⟩
  · -- BFX and BFI.
    obtain ⟨rfl, rfl⟩ := bf_fields himm hlo hfit
    exact ⟨fun signed hf => ⟨_, fun i => getLsbD_bfxFn v.a hw, delivers_of_fireFn (f := fun a _ _ => bfxFn signed r.imm a) rfl rfl hf le_rfl⟩,
      fun hf => ⟨_, fun i => getLsbD_bfiFn r.imm v.a v.b, delivers_of_fireFn (f := fun a b _ => bfiFn r.imm a b) rfl rfl hf le_rfl⟩⟩

end Sys2Proof.Machine
end

section
/-!
PROOFS. System values and occupancy (R119, R120), and token control (R128, R129, R139).
-/
namespace Sys2Proof.Machine
open Claims

-- SYS (R119).

theorem regionClk_eq (s : State) (r : Nat) : s.regionClk r = s.pkg.cyc.getD (r / 512) 0 := by
  rw [State.regionClk, State.clk, dieOf, dieOfCore, coreOf, Nat.div_div_eq_div_mul]

/-- The selectors of R119 but LANE, CLEN, LIDXn and LEXTn, with their values. -/
def sysList (s : State) (r : Nat) (g : Region) (x : Ctx) : List (Nat × Nat) :=
  let t := x.el / 16
  let e := x.el % 16
  [(0x00, t % 8), (0x01, t / 8 % 16), (0x02, e % 4), (0x03, e / 4), (0x04, x.k),
    (0x05, (4 * (t / 8 % 16) + e / 4) * 4 * g.wx + 4 * (t % 8) + e % 4), (0x06, g.wx), (0x07, g.wy), (0x08, g.inst),
    (0x0B, if x.mode = 1 then 1 else 0), (0x0C, x.rcnt.toNat), (0x0D, g.lease),
    (0x0E, (((s.gang g.gang).map fun g => g.rcd.getD 4 0#32).getD 0#32).toNat), (0x0F, x.actor),
    (0x20, s.pkg.cyc.getD (r / 512) 0), (0x21, x.cych.toNat), (0x22, x.rndn.toNat)]

/-- Each selector fits IMM16, and names its value. -/
theorem sysValue_of_mem {s : State} {r : Nat} {g : Region} {x : Ctx} : ∀ e ∈ sysList s r g x,
    e.1 < 2 ^ 16 ∧ sysValue s r g x e.1 = BitVec.ofNat 32 e.2 := by
  have hmode : (if x.isRounded then 1#32 else 0#32) = BitVec.ofNat 32 (if x.mode = 1 then 1 else 0) := by
    simp only [Ctx.isRounded, decide_eq_true_eq]
    split <;> rfl
  have hseed : wordAt (((s.gang g.gang).map fun x => x.rcd).getD []) 4 = ((s.gang g.gang).map fun g => g.rcd.getD 4 0#32).getD 0#32 := by
    cases s.gang g.gang <;> rfl
  simp only [sysList, List.forall_mem_cons]
  refine ⟨⟨by decide, rfl⟩, ⟨by decide, rfl⟩, ⟨by decide, ?ex⟩, ⟨by decide, rfl⟩, ⟨by decide, rfl⟩, ⟨by decide, rfl⟩, ⟨by decide, rfl⟩,
    ⟨by decide, rfl⟩, ⟨by decide, rfl⟩, ⟨by decide, hmode⟩, ⟨by decide, ?rcnt⟩, ⟨by decide, rfl⟩, ⟨by decide, ?seed⟩, ⟨by decide, rfl⟩,
    ⟨by decide, ?cycl⟩, ⟨by decide, ?cych⟩, ⟨by decide, ?rndn⟩, nofun⟩
  case ex => rw [Nat.mod_mod_of_dvd _ (by decide)]; rfl
  case seed => rw [BitVec.ofNat_toNat, BitVec.setWidth_eq, ← hseed]; rfl
  case cycl => rw [← regionClk_eq]; rfl
  all_goals rw [BitVec.ofNat_toNat, BitVec.setWidth_eq]; rfl

/-- Reading CYCL latches the high half of the counter. -/
theorem fireAlu_latches {r : Rule} {w : ImmW} {need : View → Need} {lat : Nat} {d : View → State → Done} {s : State} {v : View} {idiv : Bool}
    {sr : View → Bool} (hv : view s r w = some v) (hr : v.ready (need v) s = true) (hi : v.rule.imm = 0x20#16) :
    ∃ x, (fireAlu r w need lat d s idiv sr true).ctx v.f.ctx = some x ∧ x.cych = BitVec.ofNat 32 (s.regionClk v.r / 2 ^ 32) := by
  have hlatch : v.readsCycl true = true := by rw [View.readsCycl, decide_eq_true hi]; rfl
  have hx : (v.commit (need v) (decide (1 < lat)) s).ctx v.f.ctx = some _ :=
    (View.commit_ctx v _ _ s v.f.ctx).trans ((if_pos rfl).trans (congrArg (Option.map _) (ctx_of_view hv)))
  simp only [fireAlu, hv, hr, hlatch, if_true, View.schedule_ctx]
  exact ⟨_, State.ctx_updCtx_same hx, rfl⟩

/-- Settles O18: the values of SYS are those of `sysValue_of_mem`, and the counts fit a word. -/
theorem systemValuesAndOccupancy : Obligations.SystemValuesAndOccupancy := by
  refine ⟨fun s v r => ⟨fun n hn himm hf hlen => ?ch, fun n hn himm hf hlen => ?cr⟩, fun s v r hf => ⟨fun sel n hmem himm => ?sys, fun himm => ?latch⟩⟩
  case ch =>
    obtain ⟨-, -, -, -, -, -, -, he, -⟩ := view_spec hf.1
    have hn : r.imm.toNat % 4 = n := by rw [himm, BitVec.toNat_ofNat]; omega
    have hset : isSet (BitVec.ofNat 32 ((s.elem v.p).chan n).length) = decide ((s.elem v.p).chan n ≠ []) := by
      rw [isSet_ofNat (by omega)]
      exact decide_eq_decide.mpr (not_congr List.length_eq_zero_iff)
    refine delivers_of_fireAlu rfl rfl rfl hf le_rfl ?_
    rw [hn, he, ← hset]
    rfl
  case cr =>
    have hn : r.imm.toNat % 8 = n := by rw [himm, BitVec.toNat_ofNat]; omega
    have hset : isSet (BitVec.ofNat 32 (v.x.credits.getD n 0)) = decide (0 < v.x.credits.getD n 0) := by
      rw [isSet_ofNat (by omega)]
      exact decide_eq_decide.mpr Nat.pos_iff_ne_zero.symm
    refine delivers_of_fireAlu rfl rfl rfl hf le_rfl ?_
    rw [hn, ← hset]
    rfl
  case sys =>
    obtain ⟨hlt, hval⟩ := sysValue_of_mem (s := s) (r := v.r) (g := v.g) (x := v.x) (sel, n) hmem
    refine delivers_of_fireAlu rfl rfl rfl hf le_rfl ?_
    rw [himm, BitVec.toNat_ofNat, Nat.mod_eq_of_lt hlt, hval]
    rfl
  case latch =>
    have hready : v.ready (needOf v.rule) s = true := hf.2
    obtain ⟨x, hx, hc⟩ := fireAlu_latches (lat := 1) (need := fun v => needOf v.rule)
      (d := fun v s => v.data (sysValue s v.r v.g v.x r.imm.toNat)) (idiv := false) (sr := fun _ => false) hf.1 hready (rule_of_mayFire hf ▸ himm)
    exact ⟨_, x, rfl, hx, regionClk_eq s v.r ▸ hc⟩

-- Token control (R128, R129, R139).

/-- STEER selects the routes of OM where its decision is not zero, and those of IMM16[7:0] where it is (R129). -/
theorem steerMask_eq (v : View) : steerMask v = if v.a = 0#32 then v.rule.imm.extractLsb' 0 8 else v.rule.om := by
  rw [steerMask, BitVec.setWidth_eq_extractLsb' (by decide)]
  by_cases h : v.a = 0#32 <;> simp [h]

/-- Settles O19: each firing writes what its definition computes. -/
theorem tokenControl : Obligations.TokenControl := by
  refine fun s v r => ⟨fun hf _ _ _ => ?nop, fun m hm hf => ?steer, fun onTrue pass hp hf => ?gate, fun hf => ?ctl, fun hf => ?sink,
    fun n k ha hk hf => ?sinkTag, fun byReg hf => ?tagc, fun n hn himm hf => ?delay⟩
  all_goals obtain rfl := rule_of_mayFire hf
  case nop =>
    obtain ⟨t, ht, hc, -⟩ := fires_of_fireAlu rfl rfl hf le_rfl
    exact ⟨t, ht, hc⟩
  case steer =>
    obtain ⟨t, ht, hc, hw⟩ := fires_of_fireAlu rfl rfl hf le_rfl
    rw [← steerMask_eq] at hm
    subst hm
    exact ⟨t, ht, hc, hw⟩
  case gate =>
    have hpass : ((v.b != 0#32) == onTrue) = pass := by
      rw [Bool.eq_iff_iff, hp, beq_iff_eq, Bool.eq_iff_iff, bne_iff_ne]
    refine completes_of_fireAlu rfl rfl rfl hf le_rfl ?_
    dsimp only
    rw [hpass]
    rfl
  case ctl => exact completes_of_fireAlu rfl rfl rfl hf le_rfl rfl
  case sink => exact delivers_of_fireFn (f := fun a _ _ => a) rfl rfl hf le_rfl
  case sinkTag =>
    obtain ⟨-, -, -, -, -, -, -, he, -⟩ := view_spec hf.1
    have hhead : v.rule.a.chan?.bind v.e.head = some k := by rw [ha, he]; exact hk
    refine delivers_of_fireAlu rfl rfl rfl hf le_rfl ?_
    rw [hhead]
    rfl
  case tagc =>
    have hlow : ∀ {n : Nat} (x : BitVec n), 4 ≤ n → x.setWidth 4 = x.extractLsb' 0 4 := fun x h => BitVec.setWidth_eq_extractLsb' h
    refine completes_of_fireAlu rfl rfl rfl hf le_rfl ?_
    rw [hlow v.b (by decide), hlow v.rule.imm (by decide)]
    rfl
  case delay =>
    have hlat : v.rule.imm.toNat % 256 = n := by rw [himm, BitVec.toNat_ofNat]; omega
    have h := delivers_of_fireFn (f := fun a _ _ => a) rfl rfl hf (Nat.le_add_right ..)
    rwa [hlat] at h

end Sys2Proof.Machine
end

section
/-!
PROOFS. MERGE, SEQ, packing and permutation (R61, R130 to R133).
-/
namespace Sys2Proof.Machine
open Claims

-- MERGE (R61, R130).

/-- A commit depends on the channels and the routes of the needs only. -/
theorem Commits.of_need {s t : State} {v : View} {m n : Need} {fl : Bool} (h : Commits s t v m fl) (hdq : m.dq = n.dq) (hom : m.om = n.om) :
    Commits s t v n fl :=
  ⟨h.rest, h.fabric, h.elements, h.element, hdq ▸ h.channels, h.regions, hom ▸ h.region, hom ▸ h.places⟩

theorem mergePick_eq {v : View} {a b c : BitVec 2} {k : Token} (ha : v.rule.a = .chan a) (hb : v.rule.b = .chan b) (hc : v.rule.c = .chan c)
    (hk : v.e.head a.toNat = some k) : v.mergePick = some (if k.payload = 0#32 then c else b).toNat := by
  have hhead : v.mergePick = if k.payload != 0#32 then some b.toNat else some c.toNat := by
    simp only [View.mergePick, ha, hb, hc, Src.chan?, hk]
  rw [hhead]
  by_cases h : k.payload = 0#32 <;> simp [h]

-- SEQ (R131).

theorem seqMod_eq (imm : BitVec 16) : seqMod imm = if imm = 0#16 then 2 ^ 32 else imm.toNat := by
  simp only [seqMod, ← BitVec.toNat_inj, BitVec.toNat_ofNat, Nat.zero_mod]

-- PACK, UNPK and PERM (R132, R133).

theorem toNat_high_half (x : Word) : (x.extractLsb' 16 16).toNat = x.toNat / 2 ^ 16 := by
  rw [BitVec.extractLsb'_toNat, Nat.shiftRight_eq_div_pow]
  omega

/-- Each byte of PERM is the one that its selector names. -/
theorem byte_permFn (imm : BitVec 16) (a b : Word) {i : Nat} (hi : i < 4) :
    (permFn imm a b).extractLsb' (8 * i) 8 = permByte (imm.toNat / 2 ^ (4 * i) % 16) a b := by
  unfold permFn
  interval_cases i
  · exact BitVec.extractLsb'_append_eq_right
  · rw [BitVec.extractLsb'_append_eq_of_le (by decide)]; exact BitVec.extractLsb'_append_eq_right
  · rw [BitVec.extractLsb'_append_eq_of_le (by decide), BitVec.extractLsb'_append_eq_of_le (by decide)]
    exact BitVec.extractLsb'_append_eq_right
  · rw [BitVec.extractLsb'_append_eq_of_le (by decide), BitVec.extractLsb'_append_eq_of_le (by decide)]
    exact BitVec.extractLsb'_append_eq_left

theorem permByte_spec (n : Nat) (a b : Word) :
    (n < 4 → permByte n a b = a.extractLsb' (8 * n) 8) ∧ (4 ≤ n ∧ n < 8 → permByte n a b = b.extractLsb' (8 * (n - 4)) 8) ∧
    (n = 8 → permByte n a b = 0x00#8) ∧ (n = 9 → permByte n a b = 0xFF#8) ∧
    (12 ≤ n → permByte n a b = if a.getLsbD (8 * (n - 12) + 7) then 0xFF#8 else 0x00#8) := by
  have hsign : (byteOf a (n - 12)).getLsbD 7 = a.getLsbD (8 * (n - 12) + 7) := by
    rw [byteOf, BitVec.getLsbD_extractLsb', decide_eq_true (by decide), Bool.true_and]
  unfold permByte
  refine ⟨fun h => if_pos h, fun ⟨h4, h8⟩ => ?_, ?_, ?_, fun h => ?_⟩
  · rw [if_neg (by omega), if_pos h8]
    rfl
  · rintro rfl; rfl
  · rintro rfl; rfl
  · rw [if_neg (by omega), if_neg (by omega), if_neg (by omega), if_neg (by omega), if_pos h, hsign]

/-- Settles O20: what each firing takes and delivers is what the lemmas above say. -/
theorem sequenceAndPacking : Obligations.SequenceAndPacking := by
  refine ⟨fun s v r => ⟨fun a b c k d ha hb hc hk hd hf => ?merge, fun m hm => ⟨fun hf => ?up, fun hf => ?down⟩⟩,
    fun s v r => ⟨fun hf => ?lo, fun hf => ?hi, fun t ht hf => ?sat, fun t i ht _ hi himm hf => ?unpk, fun hf => ?perm⟩⟩
  case merge =>
    obtain ⟨-, -, -, -, -, -, -, he, -⟩ := view_spec hf.1
    obtain rfl := rule_of_mayFire hf
    have hpick := mergePick_eq ha hb hc (he ▸ hk)
    have hpops : mergePops v = (1#4 <<< a.toNat) ||| (1#4 <<< (if k.payload = 0#32 then c else b).toNat) := by
      simp only [mergePops, ha, hpick, Src.chan?]
      rfl
    have hdata : v.mergePick.bind v.e.head = some d := by rw [hpick, he]; exact hd
    obtain ⟨t, ht, hcommit, hw⟩ := fires_of_fireAlu rfl rfl hf le_rfl
    rw [hdata] at hw
    exact ⟨t, ht, fun n hdq hom => Commits.of_need hcommit (hpops.trans hdq.symm) hom.symm, hw⟩
  case up =>
    rw [← seqMod_eq] at hm
    subst hm
    exact delivers_of_fireAlu rfl rfl rfl hf le_rfl rfl
  case down =>
    rw [← seqMod_eq] at hm
    subst hm
    exact delivers_of_fireAlu rfl rfl rfl hf le_rfl rfl
  case lo =>
    refine ⟨_, ?_, delivers_of_fireFn (f := fun a b _ => packFn .lo a b) rfl rfl hf le_rfl⟩
    rw [packFn, toNat_append_halves, BitVec.toNat_setWidth, BitVec.toNat_setWidth]
  case hi =>
    refine ⟨_, ?_, delivers_of_fireFn (f := fun a b _ => packFn .hi a b) rfl rfl hf le_rfl⟩
    rw [packFn, toNat_append_halves, toNat_high_half, toNat_high_half]
  case sat =>
    have hpint : t ∈ pint := by rcases ht with rfl | rfl <;> decide
    exact delivers_lanes (f := fun a b _ i => fit t true (if i = 0 then a.toInt else b.toInt)) rfl rfl hpint
      (funext fun i => fit_eq_limited hpint true _) hf le_rfl
  case unpk =>
    have hcount : laneCount t ≤ 4 := by cases t <;> decide
    have hlane : r.imm.toNat % 4 = i := by rw [himm, BitVec.toNat_ofNat]; omega
    refine ⟨_, ?_, delivers_of_fireFn (f := fun a _ _ => unpkFn t r.imm a) rfl rfl hf le_rfl⟩
    rw [unpkFn, hlane, lane_eq_laneInt ht]
  case perm =>
    refine ⟨_, fun i hi n hn => ?_, delivers_of_fireFn (f := fun a b _ => permFn r.imm a b) rfl rfl hf le_rfl⟩
    dsimp only
    rw [byte_permFn r.imm v.a v.b hi, ← hn]
    exact permByte_spec n v.a v.b

end Sys2Proof.Machine
end

section
/-!
SUPPORT. Exact sums (R100, R108), and that a rounded code is determined by its value.
-/
namespace Sys2Proof.Machine
open Claims

-- One value is rounded to one code.

theorem roundsTo_unique {f : Fmt} {mode : RMode} {sat : Bool} {q : Nat} {x : ℚ} {c d : Nat} (h : RoundsTo f mode sat q x c)
    (k : RoundsTo f mode sat q x d) : c = d := by
  have hmono := magValue_strictMono f
  obtain ⟨g, hg, hlo, hhi, hc⟩ := h
  obtain ⟨g', hg', hlo', hhi', hd⟩ := k
  -- Each of the two magnitudes lies below the other's successor.
  have hle : ∀ {a b}, a ≤ f.maxMag → magValue f a ≤ |x| → (|x| < magValue f (b + 1) ∨ b = f.maxMag) → a ≤ b := fun ha hlo hhi =>
    hhi.elim (fun h => Nat.lt_succ_iff.mp (hmono.lt_iff_lt.mp (hlo.trans_lt h))) (fun h => h ▸ ha)
  obtain rfl : g = g' := le_antisymm (hle hg hlo hhi') (hle hg' hlo' hhi)
  exact hc.trans hd.symm

theorem rounded_unique {f : Fmt} {mode : RMode} {sat : Bool} {q : Nat} {v : Ext} {c d : Nat} (h : Rounded f mode sat q v c)
    (k : Rounded f mode sat q v d) : c = d := by
  cases v with
  | nan => exact h.trans k.symm
  | inf s => exact h.trans k.symm
  | fin s x =>
    simp only [Rounded] at h k
    split at h
    · next h0 => rw [if_pos h0] at k; exact h.trans k.symm
    · next h0 => rw [if_neg h0] at k; exact roundsTo_unique h k

-- The model's exact sum.

theorem underSign_mul (s : Bool) (x y : ℚ) : underSign s (x * y) = underSign s x * y := by
  cases s <;> simp [underSign]

/-- No finite term that is not zero has a smaller exponent. -/
theorem minExp_le (ts : List Fv) (z : Int) : minExp ts z ≤ z ∧ ∀ s m e, .fin s m e ∈ ts → m ≠ 0 → minExp ts z ≤ e := by
  induction ts generalizing z with
  | nil => exact ⟨le_rfl, fun _ _ _ h => absurd h List.not_mem_nil⟩
  | cons t ts ih =>
    cases t with
    | fin s m e =>
      obtain ⟨hz, hts⟩ := ih (if m ≠ 0 ∧ e < z then e else z)
      rw [minExp]
      refine ⟨hz.trans (by split <;> omega), fun s' m' e' h hm => ?_⟩
      rcases List.mem_cons.mp h with h | h
      · cases h
        exact hz.trans (by split <;> omega)
      · exact hts s' m' e' h hm
    | nan | inf s =>
      obtain ⟨hz, hts⟩ := ih z
      refine ⟨hz, fun s' m' e' h hm => ?_⟩
      rcases List.mem_cons.mp h with h | h
      · cases h
      · exact hts s' m' e' h hm

/-- The sum of finite terms on a scale that all of them lie on. -/
theorem sumFin_value (z : Int) (ts : List Fv) (hz : ∀ s m e, .fin s m e ∈ ts → m ≠ 0 → z ≤ e) :
    (sumFin z ts : ℚ) * 2 ^ z = ((ts.map Fv.ext).map Ext.num).sum := by
  induction ts with
  | nil => simp [sumFin]
  | cons t ts ih =>
    have ih := ih fun s m e h => hz s m e (List.mem_cons_of_mem _ h)
    cases t with
    | fin s m e =>
      have hterm : ((m * 2 ^ (e - z).toNat : Nat) : ℚ) * 2 ^ z = m * 2 ^ e := by
        rcases eq_or_ne m 0 with rfl | hm
        · simp
        · have := hz s m e List.mem_cons_self hm
          push_cast
          rw [← zpow_toNat (by omega), mul_assoc, ← zpow_add₀ two_ne_zero, sub_add_cancel]
      rw [sumFin, List.map_cons, List.map_cons, List.sum_cons, ← ih]
      push_cast at hterm ⊢
      rw [add_mul]
      congr 1
      rw [Fv.ext, Ext.num, ← hterm]
      cases s <;> simp [underSign]
    | nan | inf s =>
      rw [List.map_cons, List.map_cons, List.sum_cons, ← ih]
      exact (zero_add _).symm

theorem Fv.ext_eq_nan_iff (t : Fv) : t.ext = .nan ↔ t.isNan = true := by cases t <;> simp [Fv.ext, Fv.isNan]
theorem Fv.ext_eq_inf_iff (t : Fv) (s : Bool) : t.ext = .inf s ↔ t = .inf s := by cases t <;> simp [Fv.ext]

/-- A list of zeros of one sign, as the model tests it. -/
theorem all_zero_iff {p : Bool → Bool} {s : Bool} (hp : ∀ b, p b = true ↔ b = s) (ts : List Fv) :
    (∀ t ∈ ts.map Fv.ext, t = .fin s 0) ↔ (ts.all fun t => match t with
      | .fin s' m _ => p s' && decide (m = 0)
      | _ => false) = true := by
  simp only [List.forall_mem_map, List.all_eq_true]
  refine forall₂_congr fun t _ => ?_
  cases t with
  | nan | inf _ => simp [Fv.ext]
  | fin s' m e => simp [Fv.ext, hp, underSign_eq_zero_iff, (two_zpow_pos e).ne']

/-- The sign of a sum that is zero (R100). -/
theorem zero_sign {P Q : Prop} [Decidable P] [Decidable Q] {a b : Bool} (ha : P ↔ a = true) (hb : Q ↔ b = true) (rd : Bool) :
    (a || (rd && !b)) = if P then true else if Q then false else rd := by
  by_cases hP : P
  · rw [if_pos hP, ha.mp hP, Bool.true_or]
  · rw [if_neg hP, Bool.eq_false_iff.mpr (ha.not.mp hP), Bool.false_or]
    by_cases hQ : Q
    · rw [if_pos hQ, hb.mp hQ, Bool.not_true, Bool.and_false]
    · rw [if_neg hQ, Bool.eq_false_iff.mpr (hb.not.mp hQ), Bool.not_false, Bool.and_true]

/-- The exact sum of the model is the exact sum of its values. -/
theorem Fv.ext_sum (rd : Bool) (ts : List Fv) : (Fv.sum rd ts).ext = Ext.sum rd (ts.map Fv.ext) := by
  have hnan : (.nan ∈ ts.map Fv.ext) ↔ ts.any Fv.isNan = true := by simp [Fv.ext_eq_nan_iff]
  have hinf : ∀ s, (.inf s ∈ ts.map Fv.ext) ↔ (ts.any fun t => decide (t = .inf s)) = true := fun s => by simp [Fv.ext_eq_inf_iff]
  have hsum := sumFin_value (minExp ts 400) ts (minExp_le ts 400).2
  unfold Fv.sum Ext.sum
  simp only [Bool.and_eq_true, ← hnan, ← hinf, ← hsum]
  by_cases h1 : .nan ∈ ts.map Fv.ext
  · simp only [h1, if_true, true_or, Fv.ext]
  by_cases h2 : .inf true ∈ ts.map Fv.ext
  · by_cases h3 : .inf false ∈ ts.map Fv.ext <;> simp only [h1, h2, h3, and_true, and_false, or_true, or_false, if_true, if_false, Fv.ext]
  by_cases h3 : .inf false ∈ ts.map Fv.ext
  · simp only [h1, h2, h3, and_true, and_false, or_false, if_true, if_false, Fv.ext]
  -- All terms are finite.
  simp only [h1, h2, h3, and_false, or_false, if_false]
  have hpos := two_zpow_pos (minExp ts 400)
  generalize minExp ts 400 = z at hpos ⊢
  by_cases h0 : sumFin z ts = 0
  · have hz : (sumFin z ts : ℚ) * 2 ^ z = 0 := by rw [h0, Int.cast_zero, zero_mul]
    have hzero : ∀ b, (Fv.fin b 0 0).ext = .fin b 0 := fun b => by simp [Fv.ext, underSign]
    rw [if_pos h0, if_neg (not_not.mpr hz), hzero]
    exact congrArg (Ext.fin · 0) (zero_sign (all_zero_iff (p := fun b => b) (fun _ => Iff.rfl) ts)
      (all_zero_iff (p := fun b => !b) (fun b => by rw [Bool.not_eq_true']) ts) rd)
  · have hsign : sumFin z ts < 0 ↔ (sumFin z ts : ℚ) * 2 ^ z < 0 := by
      rw [mul_neg_iff, or_iff_right (fun h => absurd h.2 hpos.not_gt), and_iff_left hpos, Int.cast_lt_zero]
    rw [if_neg h0, if_pos (mul_ne_zero (Int.cast_ne_zero.mpr h0) hpos.ne'), Fv.ext, underSign_mul, underSign_natAbs]
    exact congrArg (Ext.fin · _) (decide_eq_decide.mpr hsign)

end Sys2Proof.Machine
end

section
/-!
SUPPORT. The reductions of TRED (R134).
-/
namespace Sys2Proof.Machine
open Claims

-- The order of FP32 codes (R145).

theorem fpLane_f32_eq_nan_iff (w : Word) : fpLane .f32 w 0 = .nan ↔ fp32.isNan w.toNat = true := by
  rw [fpLane_f32, Fv.ext_eq_nan_iff]
  simp only [Fmt.val]
  split
  · next h => simp [h, Fv.isNan]
  · next h =>
    simp only [h]
    split
    · simp [Fv.isNan]
    · split <;> simp [Fv.isNan]

/-- The magnitude of a code that is no NaN is at most that of the infinity. -/
theorem mag_le_of_not_nan {c : Nat} (h : ¬fp32.isNan c = true) : fp32.mag c ≤ 0x7F800000 := by
  have hinf : fp32.inf = some 0x7F800000 := rfl
  simp only [Fmt.isNan, hinf, decide_eq_true_eq] at h
  omega

/-- The value of a code that is no NaN. -/
theorem codeExt_fp32 {c : Nat} (h : ¬fp32.isNan c = true) : codeExt fp32 c =
    if fp32.mag c = 0x7F800000 then .inf (fp32.sign c) else .fin (fp32.sign c) (underSign (fp32.sign c) (magValue fp32 (fp32.mag c))) := by
  have hle := mag_le_of_not_nan h
  have hmag : fp32.mag c = c % 2 ^ 31 := rfl
  have hsign : fp32.sign c = decide (c / 2 ^ 31 % 2 = 1) := rfl
  rw [hmag] at hle
  rw [hmag, hsign]
  simp only [codeExt, show fp32.inf = some 0x7F800000 from rfl, show fp32.bits - 1 = 31 from rfl]
  by_cases hi : c % 2 ^ 31 = 0x7F800000
  · simp only [hi, if_true]
  · simp only [hi, if_false, show ¬0x7F800000 < c % 2 ^ 31 by omega, underSign, decide_eq_true_eq]

/-- A number below another by its code is below it by its value, −0 being below +0. -/
theorem below_of_key_lt {a b : Word} (ha : ¬fp32.isNan a.toNat = true) (hb : ¬fp32.isNan b.toNat = true)
    (h : fp32.key a.toNat < fp32.key b.toNat) : (fpLane .f32 a 0).Below (fpLane .f32 b 0) := by
  have hmono : ∀ {x y}, x < y → magValue fp32 x < magValue fp32 y := fun h => magValue_strictMono fp32 h
  have hla := mag_le_of_not_nan ha
  have hlb := mag_le_of_not_nan hb
  rw [fpLane_f32, codeExt_val, fpLane_f32, codeExt_val, codeExt_fp32 ha, codeExt_fp32 hb]
  unfold Fmt.key at h
  generalize fp32.mag a.toNat = g at *
  generalize fp32.mag b.toNat = k at *
  have hg0 : 0 ≤ magValue fp32 g := magValue_zero fp32 ▸ (magValue_strictMono fp32).monotone (Nat.zero_le g)
  have hk0 : 0 ≤ magValue fp32 k := magValue_zero fp32 ▸ (magValue_strictMono fp32).monotone (Nat.zero_le k)
  generalize fp32.sign a.toNat = m at *
  generalize fp32.sign b.toNat = n at *
  cases m <;> cases n <;> simp only [if_true, if_false, Bool.false_eq_true] at h
  case false.false =>
    rw [if_neg (show g ≠ 0x7F800000 by omega)]
    have hlt : magValue fp32 g < magValue fp32 k := hmono (by omega)
    split
    · exact .inl rfl
    · exact .inl (decide_eq_true hlt)
  case false.true => omega
  case true.false =>
    by_cases hzero : g = 0 ∧ k = 0
    · obtain ⟨rfl, rfl⟩ := hzero
      refine .inr ⟨?_, ?_⟩ <;> simp [underSign, magValue_zero]
    · have hpos : 0 < magValue fp32 g ∨ 0 < magValue fp32 k := by
        rw [← magValue_zero fp32]
        rcases Nat.eq_zero_or_pos g with rfl | h
        · exact .inr (hmono (by omega))
        · exact .inl (hmono h)
      have hlt : -magValue fp32 g < magValue fp32 k := by rcases hpos with h | h <;> linarith
      left
      split <;> split
      · rfl
      · rfl
      · rfl
      · exact decide_eq_true hlt
  case true.true =>
    rw [if_neg (show k ≠ 0x7F800000 by omega)]
    have hlt : magValue fp32 k < magValue fp32 g := hmono (by omega)
    split
    · exact .inl rfl
    · exact .inl (decide_eq_true (neg_lt_neg hlt))

/-- The key tells two words apart. -/
theorem fp32_key_injective {a b : Word} (h : fp32.key a.toNat = fp32.key b.toNat) : a = b := by
  have hkey : ∀ w : Word, fp32.key w.toNat = if w.toNat < 2 ^ 31 then (w.toNat : Int) else 2 ^ 31 - 1 - w.toNat := fun w => by
    have hw := w.isLt
    have hmag : fp32.mag w.toNat = w.toNat % 2 ^ 31 := rfl
    have hsign : fp32.sign w.toNat = decide (w.toNat / 2 ^ 31 % 2 = 1) := rfl
    rw [Fmt.key, hmag, hsign]
    simp only [decide_eq_true_eq]
    split <;> split <;> omega
  rw [hkey, hkey] at h
  refine BitVec.eq_of_toNat_eq ?_
  split at h <;> split at h <;> omega

-- Picking the least of a list.

/-- A fold that keeps the one of two whose key is not greater ends with a least one. -/
theorem foldl_pick {α : Type} {key : α → Int} {op : α → α → α} {p : α → Prop}
    (hop : ∀ a b, p a → p b → op a b = a ∧ key a ≤ key b ∨ op a b = b ∧ key b ≤ key a) (x : α) (xs : List α) (hp : ∀ y ∈ x :: xs, p y) :
    xs.foldl op x ∈ x :: xs ∧ ∀ y ∈ x :: xs, key (xs.foldl op x) ≤ key y := by
  induction xs generalizing x with
  | nil => exact ⟨List.mem_cons_self, fun y hy => by rw [List.mem_singleton.mp hy]; exact le_rfl⟩
  | cons z zs ih =>
    have hx : p x := hp x List.mem_cons_self
    have hz : p z := hp z (List.mem_cons_of_mem _ List.mem_cons_self)
    have hzs : ∀ y ∈ zs, p y := fun y hy => hp y (List.mem_cons_of_mem _ (List.mem_cons_of_mem _ hy))
    rw [List.foldl_cons]
    rcases hop x z hx hz with ⟨he, hle⟩ | ⟨he, hle⟩
    · rw [he]
      obtain ⟨hmem, hleast⟩ := ih x (List.forall_mem_cons.mpr ⟨hx, hzs⟩)
      have hfold := hleast x List.mem_cons_self
      refine ⟨?_, List.forall_mem_cons.mpr ⟨hfold, List.forall_mem_cons.mpr ⟨hfold.trans hle, fun y hy => hleast y (List.mem_cons_of_mem _ hy)⟩⟩⟩
      rcases List.mem_cons.mp hmem with h | h
      · rw [h]; exact List.mem_cons_self
      · exact List.mem_cons_of_mem _ (List.mem_cons_of_mem _ h)
    · rw [he]
      obtain ⟨hmem, hleast⟩ := ih z (List.forall_mem_cons.mpr ⟨hz, hzs⟩)
      exact ⟨List.mem_cons_of_mem _ hmem, List.forall_mem_cons.mpr ⟨(hleast z List.mem_cons_self).trans hle, hleast⟩⟩

-- Integers.

theorem ofInt_laneInt {t : Ty} (ht : t = .i32 ∨ t = .u32) (x : Word) : BitVec.ofInt 32 (laneInt t x 0) = x := by
  rcases ht with rfl | rfl
  · rw [laneInt_i32, BitVec.ofInt_toInt]
  · rw [laneInt_u32, BitVec.ofInt_natCast, BitVec.ofNat_toNat, BitVec.setWidth_eq]

theorem laneInt_injective {t : Ty} (ht : t = .i32 ∨ t = .u32) {a b : Word} (h : laneInt t a 0 = laneInt t b 0) : a = b := by
  rw [← ofInt_laneInt ht a, h, ofInt_laneInt ht]

theorem iminFn_eq {t : Ty} (ht : t = .i32 ∨ t = .u32) (a b : Word) :
    iminFn t a b = a ∧ laneInt t a 0 ≤ laneInt t b 0 ∨ iminFn t a b = b ∧ laneInt t b 0 ≤ laneInt t a 0 := by
  have hpint : t ∈ pint := by rcases ht with rfl | rfl <;> decide
  rw [iminFn, packLanes_one ht, lane_eq_laneInt hpint, lane_eq_laneInt hpint]
  rcases le_total (laneInt t a 0) (laneInt t b 0) with h | h
  · exact .inl ⟨by rw [min_eq_left h, ofInt_laneInt ht], h⟩
  · exact .inr ⟨by rw [min_eq_right h, ofInt_laneInt ht], h⟩

theorem imaxFn_eq {t : Ty} (ht : t = .i32 ∨ t = .u32) (a b : Word) :
    imaxFn t a b = a ∧ -laneInt t a 0 ≤ -laneInt t b 0 ∨ imaxFn t a b = b ∧ -laneInt t b 0 ≤ -laneInt t a 0 := by
  have hpint : t ∈ pint := by rcases ht with rfl | rfl <;> decide
  rw [imaxFn, packLanes_one ht, lane_eq_laneInt hpint, lane_eq_laneInt hpint]
  rcases le_total (laneInt t a 0) (laneInt t b 0) with h | h
  · exact .inr ⟨by rw [max_eq_right h, ofInt_laneInt ht], neg_le_neg h⟩
  · exact .inl ⟨by rw [max_eq_left h, ofInt_laneInt ht], neg_le_neg h⟩

/-- The least of a list by an injective key is what a fold from its head picks. -/
theorem foldl_head_pick_eq {key : Word → Int} {op : Word → Word → Word}
    (hop : ∀ a b, op a b = a ∧ key a ≤ key b ∨ op a b = b ∧ key b ≤ key a) (hinj : ∀ a b, key a = key b → a = b) {vs : List Word} {res d : Word}
    (hres : res ∈ vs) (hleast : ∀ y ∈ vs, key res ≤ key y) : vs.foldl op (vs.headD d) = res := by
  have hhead : vs.headD d ∈ vs := by
    cases vs with
    | nil => exact absurd hres List.not_mem_nil
    | cons x xs => exact List.mem_cons_self
  obtain ⟨hmem, hle⟩ := foldl_pick (p := fun _ => True) (fun a b _ _ => hop a b) (vs.headD d) vs fun _ _ => trivial
  refine hinj _ _ (le_antisymm (hle res (List.mem_cons_of_mem _ hres)) ?_)
  rcases List.mem_cons.mp hmem with h | h
  · rw [h]; exact hleast _ hhead
  · exact hleast _ h

theorem foldl_add_eq (vs : List Word) (x : Word) : vs.foldl (· + ·) x = x + BitVec.ofNat 32 (vs.map BitVec.toNat).sum := by
  induction vs generalizing x with
  | nil => simp
  | cons y ys ih => rw [List.foldl_cons, ih, List.map_cons, List.sum_cons, BitVec.ofNat_add, BitVec.ofNat_toNat, BitVec.setWidth_eq, BitVec.add_assoc]

-- Bits.

theorem getLsbD_foldl_and (vs : List Word) (x : Word) (i : Nat) :
    (vs.foldl (· &&& ·) x).getLsbD i = true ↔ x.getLsbD i = true ∧ ∀ y ∈ vs, y.getLsbD i = true := by
  induction vs generalizing x with
  | nil => simp
  | cons y ys ih => rw [List.foldl_cons, ih, BitVec.getLsbD_and, Bool.and_eq_true, List.forall_mem_cons, and_assoc]

theorem getLsbD_foldl_or (vs : List Word) (x : Word) (i : Nat) :
    (vs.foldl (· ||| ·) x).getLsbD i = true ↔ x.getLsbD i = true ∨ ∃ y ∈ vs, y.getLsbD i = true := by
  induction vs generalizing x with
  | nil => simp
  | cons y ys ih => rw [List.foldl_cons, ih, BitVec.getLsbD_or, Bool.or_eq_true, List.exists_mem_cons_iff, or_assoc]

theorem getLsbD_foldl_xor (vs : List Word) (x : Word) (i : Nat) :
    (vs.foldl (· ^^^ ·) x).getLsbD i = (x.getLsbD i ^^ decide ((vs.filter fun y => y.getLsbD i).length % 2 = 1)) := by
  induction vs generalizing x with
  | nil => simp
  | cons y ys ih =>
    rw [List.foldl_cons, ih, BitVec.getLsbD_xor, Bool.xor_assoc, List.filter_cons]
    congr 1
    cases y.getLsbD i with
    | false => simp
    | true =>
      rw [if_pos rfl, List.length_cons, Bool.true_xor, ← decide_not]
      exact decide_eq_decide.mpr (by omega)

-- FP32 values.

/-- The key by which the least or the greatest is picked. -/
def pickKey (max : Bool) (c : Nat) : Int := if max then -fp32.key c else fp32.key c

theorem fminmaxCode_eq (max : Bool) {x y : Nat} (hx : ¬fp32.isNan x = true) (hy : ¬fp32.isNan y = true) :
    fminmaxCode fp32 false max x y = x ∧ pickKey max x ≤ pickKey max y ∨ fminmaxCode fp32 false max x y = y ∧ pickKey max y ≤ pickKey max x := by
  simp only [fminmaxCode, pickKey, Bool.eq_false_iff.mpr hx, Bool.eq_false_iff.mpr hy]
  cases max <;> simp only [if_true, if_false, Bool.false_eq_true] <;> split
  · exact .inr ⟨rfl, by omega⟩
  · exact .inl ⟨rfl, by omega⟩
  · exact .inr ⟨rfl, by omega⟩
  · exact .inl ⟨rfl, by omega⟩

/-- The pick among FP32 values, where a smaller key is better. -/
theorem tredF32Pick_eq {max : Bool} {better : Ext → Ext → Prop} {vs : List Word} {res : Word}
    (hb : ∀ a b : Word, ¬fp32.isNan a.toNat = true → ¬fp32.isNan b.toNat = true → pickKey max a.toNat < pickKey max b.toNat →
      better (fpLane .f32 a 0) (fpLane .f32 b 0)) (h : PicksF32 better vs res) : tredF32Pick max vs = res := by
  obtain ⟨hall, hsome⟩ := h
  have hmem : ∀ w, w ∈ vs.filter (fun w => !fp32.isNan w.toNat) ↔ w ∈ vs ∧ ¬fp32.isNan w.toNat = true := fun w => by
    rw [List.mem_filter, Bool.not_eq_true', Bool.not_eq_true]
  simp only [ne_eq, fpLane_f32_eq_nan_iff] at hall hsome
  unfold tredF32Pick
  generalize vs.filter (fun w => !fp32.isNan w.toNat) = ns at hmem
  cases ns with
  | nil => exact (hall fun x hx => not_not.mp fun hn => List.not_mem_nil ((hmem x).mpr ⟨hx, hn⟩)).symm
  | cons x r =>
    obtain ⟨hxv, hxn⟩ := (hmem x).mp List.mem_cons_self
    obtain ⟨hrv, hrn, hbest⟩ := hsome ⟨x, hxv, hxn⟩
    -- The fold goes over the codes.
    obtain ⟨hpick, hleast⟩ := foldl_pick (fun a b => fminmaxCode_eq max) x.toNat (r.map BitVec.toNat) (by
      rw [← List.map_cons, List.forall_mem_map]
      exact fun y hy => ((hmem y).mp hy).2)
    rw [← List.map_cons] at hpick hleast
    obtain ⟨y, hy, hcode⟩ := List.mem_map.mp hpick
    obtain ⟨hyv, hyn⟩ := (hmem y).mp hy
    have hle := hleast res.toNat (List.mem_map_of_mem ((hmem res).mpr ⟨hrv, hrn⟩))
    rw [← hcode] at hle
    have heq : pickKey max y.toNat = pickKey max res.toNat := le_antisymm hle (not_lt.mp fun hlt => hbest y hyv hyn (hb y res hyn hrn hlt))
    have hyr : y = res := fp32_key_injective (by
      unfold pickKey at heq
      split at heq
      · exact neg_injective heq
      · exact heq)
    rw [List.foldl_map] at hcode
    dsimp only
    rw [← hcode, BitVec.ofNat_toNat, BitVec.setWidth_eq, hyr]

/-- The sum of FP32 values, exact and rounded once. -/
theorem tredF32Sum_eq {vs : List Word} {res : Word} (h : Rounded fp32 .rn false 0 (Ext.sum false (vs.map fun x => fpLane .f32 x 0)) res.toNat) :
    tredF32Sum vs = res := by
  have hround := round_spec fp32_sound .rn false (q := 0) (by norm_num) (Fv.sum false (vs.map fun w => laneVal .f32 w 0))
  have hvals : (vs.map fun w => laneVal .f32 w 0).map Fv.ext = vs.map fun x => fpLane .f32 x 0 := by
    rw [List.map_map]
    exact List.map_congr_left fun w _ => by rw [Function.comp, laneVal_f32, fpLane_f32]
  rw [Fv.ext_sum, hvals] at hround
  refine BitVec.eq_of_toNat_eq ?_
  rw [tredF32Sum, toNat_word_of_rounded hround]
  exact rounded_unique hround h

/-- The reduction that the statements describe is the one that the model computes. -/
theorem tredFn_of_reduces {f : TredFn} {vs : List Word} {res : Word} (h : Reduces f vs res) : tredFn f vs = res := by
  have hmin : ∀ {t : Ty}, t = .i32 ∨ t = .u32 → res ∈ vs → (∀ x ∈ vs, laneInt t res 0 ≤ laneInt t x 0) →
      vs.foldl (iminFn t) (vs.headD 0#32) = res := fun ht => foldl_head_pick_eq (iminFn_eq ht) fun _ _ => laneInt_injective ht
  have hmax : ∀ {t : Ty}, t = .i32 ∨ t = .u32 → res ∈ vs → (∀ x ∈ vs, laneInt t x 0 ≤ laneInt t res 0) →
      vs.foldl (imaxFn t) (vs.headD 0#32) = res := fun ht hr hle => foldl_head_pick_eq (key := fun w => -laneInt _ w 0) (imaxFn_eq ht)
        (fun _ _ he => laneInt_injective ht (neg_injective he)) hr fun x hx => neg_le_neg (hle x hx)
  cases f with
  | add t =>
    have hadd : ∀ {x : Word}, x = BitVec.ofNat 32 (vs.map BitVec.toNat).sum → vs.foldl (· + ·) 0#32 = x := fun h => by
      rw [foldl_add_eq, BitVec.zero_add, h]
    cases t
    case f32 => exact tredF32Sum_eq h
    case i32 | u32 => exact hadd h
    all_goals exact h.elim
  | min t =>
    cases t
    case f32 => exact tredF32Pick_eq (fun _ _ ha hb hlt => below_of_key_lt ha hb hlt) h
    case i32 => exact hmin (.inl rfl) h.1 fun x hx => by rw [laneInt_i32, laneInt_i32]; exact h.2 x hx
    case u32 => exact hmin (.inr rfl) h.1 fun x hx => by rw [laneInt_u32, laneInt_u32]; exact Int.ofNat_le.mpr (h.2 x hx)
    all_goals exact h.elim
  | max t =>
    cases t
    case f32 => exact tredF32Pick_eq (better := fun a b => b.Below a) (fun _ _ ha hb hlt => below_of_key_lt hb ha (neg_lt_neg_iff.mp hlt)) h
    case i32 => exact hmax (.inl rfl) h.1 fun x hx => by rw [laneInt_i32, laneInt_i32]; exact h.2 x hx
    case u32 => exact hmax (.inr rfl) h.1 fun x hx => by rw [laneInt_u32, laneInt_u32]; exact Int.ofNat_le.mpr (h.2 x hx)
    all_goals exact h.elim
  | and =>
    refine BitVec.eq_of_getLsbD_eq fun i hi => Bool.eq_iff_iff.mpr ?_
    have hones : (0xFFFFFFFF#32).getLsbD i = true := (BitVec.getLsbD_allOnes (v := 32)).trans (decide_eq_true hi)
    rw [tredFn, getLsbD_foldl_and, h i hi, and_iff_right hones]
  | or =>
    refine BitVec.eq_of_getLsbD_eq fun i hi => Bool.eq_iff_iff.mpr ?_
    rw [tredFn, getLsbD_foldl_or, h i hi, or_iff_right (by simp)]
  | xor =>
    refine BitVec.eq_of_getLsbD_eq fun i hi => Bool.eq_iff_iff.mpr ?_
    rw [tredFn, getLsbD_foldl_xor, h i hi]
    simp

end Sys2Proof.Machine
end

section
/-!
PROOFS. The exchange of values among the members of a chain (R134, R135).
-/
namespace Sys2Proof.Machine
open Claims

-- A firing joins an exchange.

/-- A firing of an exchange changes neither the exchanges nor the write-backs before it joins. -/
theorem View.commit_lanes (v : View) {n : Need} (hn : n.lane = true) (fl : Bool) (s : State) :
    (v.commit n fl s).fab.lanes = s.fab.lanes ∧ (v.commit n fl s).fab.wbs = s.fab.wbs := by
  have hpop : (s.bump.popMask v.p n.dq).fab.lanes = s.fab.lanes ∧ (s.bump.popMask v.p n.dq).fab.wbs = s.fab.wbs := by
    rw [(Pops.popMask s.bump v.p n.dq).fabric]
    exact ⟨rfl, rfl⟩
  have hres : ∀ u : State, ∀ c own, (u.reserve c own n.om).fab.lanes = u.fab.lanes ∧ (u.reserve c own n.om).fab.wbs = u.fab.wbs := fun u c own => by
    rw [(State.reserve_spec u c own n.om).2.1]
    exact ⟨rfl, rfl⟩
  unfold View.commit
  dsimp only
  rw [hn, Bool.not_true, Bool.and_false, if_neg Bool.false_ne_true, State.updRegion_fab, (hres ..).1, (hres ..).2]
  split <;> exact hpop

/-- A member that joins an exchange after its commit changes nothing else that a commit fixes. -/
theorem Commits.joinLane {s t : State} {v : View} {n : Need} {fl : Bool} (h : Commits s t v n fl) (lead : CtxId) (slot m : Nat) (i : LaneIn)
    (create : Bool) (clk : Nat) : Commits s (t.joinLane lead slot m i create clk) v n fl := by
  refine ⟨?_, ?_, h.elements, h.element, h.channels, h.regions, h.region, h.places⟩
  · have := h.rest
    rw [(State.joinLane_spec ..).1, this]
  · have := h.fabric
    rw [(State.joinLane_spec ..).2.1, this]

/-- What a firing of `v` gives to the exchange of its slot. -/
def View.laneIn (v : View) (own : Nat) (want : LaneWant) : LaneIn :=
  { member := v.g.laneOf v.x.el v.x.k, v := v.a, want,
    wb := some { id := own, ctx := v.f.ctx, slot := v.f.slot, due := 0, dst := v.rule.dst, pdst := v.rule.pdst, om := v.rule.om,
                 done := v.data v.a } }

/-- What a SHUF wants: the value of the member that it names (R134). -/
def shufWant (f : ShufFn) (r : Rule) (v : View) : LaneWant := .from_ (shufFrom f r.imm (v.g.laneOf v.x.el v.x.k) v.b)

/-- The exchanges after the firing of `v`, and the one that it completes. -/
def View.joined (v : View) (s : State) (want : LaneWant) : List Exch × Option Exch :=
  joinExch v.lead v.f.slot (v.g.chainOf v.x.el v.x.k).length (v.laneIn s.uid want) true s.fab.lanes

/-- What a firing of SHUF or TRED does: it commits and joins, and where it completes the exchange every contributor is to be written back. -/
theorem fireLane_spec {r : Rule} {want : View → LaneWant} {s : State} {v : View} (hv : view s r .s32 = some v)
    (hr : v.ready { needOf v.rule with lane := true } s = true) :
    Commits s (fireLane r want s) v { needOf v.rule with lane := true } true ∧
    (fireLane r want s).fab.lanes = (v.joined s (want v)).1 ∧
    (fireLane r want s).fab.wbs = s.fab.wbs ++ (((v.joined s (want v)).2.map fun x => x.writeBacks (s.regionClk v.r)).getD []) := by
  have hc := View.commit_spec hv { needOf v.rule with lane := true } true
  obtain ⟨hlanes, hwbs⟩ := v.commit_lanes (n := { needOf v.rule with lane := true }) rfl true s
  simp only [fireLane, hv, hr, if_true]
  refine ⟨Commits.joinLane hc .., ?_, ?_⟩
  · unfold State.joinLane View.joined
    dsimp only
    rw [hlanes]
    rfl
  · unfold State.joinLane View.joined
    dsimp only
    rw [hlanes, hwbs]
    rfl

-- Which exchange it joins.

section
variable {lead : CtxId} {slot n : Nat} {i : LaneIn}

/-- Exchanges that do not lack the member are passed over. -/
theorem joinExch_append {pre : List Exch} (hpre : ∀ y ∈ pre, y.lacks lead slot i.member = false) (create : Bool) (ls : List Exch) :
    joinExch lead slot n i create (pre ++ ls) =
      (pre ++ (joinExch lead slot n i create ls).1, (joinExch lead slot n i create ls).2) := by
  induction pre with
  | nil => rfl
  | cons y ys ih =>
    obtain ⟨hy, hys⟩ := List.forall_mem_cons.mp hpre
    rw [List.cons_append, joinExch, hy, if_neg Bool.false_ne_true, ih hys]
    rfl

theorem joinExch_cons {x : Exch} (hx : x.lacks lead slot i.member = true) (create : Bool) (ls : List Exch) :
    joinExch lead slot n i create (x :: ls) =
      if x.n ≤ x.got.length + 1 then (ls, some { x with got := x.got ++ [i] }) else ({ x with got := x.got ++ [i] } :: ls, none) := by
  rw [joinExch, hx, if_pos rfl]
  simp only [List.length_append, List.length_singleton]

/-- The exchange that a member begins. -/
def begun (lead : CtxId) (slot n : Nat) (i : LaneIn) : Exch :=
  { lead, slot, n, got := ((List.range i.member).map fun m => { member := m }) ++ [i] }

theorem joinExch_nil : joinExch lead slot n i true [] =
    if n ≤ i.member + 1 then ([], some (begun lead slot n i)) else ([begun lead slot n i], none) := by
  rw [joinExch, if_pos rfl]
  simp only [List.length_append, List.length_map, List.length_range, List.length_singleton]
  rfl

end

/-- The last member completes the exchange of the firings before its own. -/
theorem View.joined_last {s : State} {v : View} {prior : List LaneIn} (h : LastMember s v prior) (want : LaneWant) :
    ∃ x, (v.joined s want).2 = some x ∧ x.got = prior ++ [v.laneIn s.uid want] := by
  obtain ⟨hn, ⟨rfl, hm, hlacks⟩ | ⟨pre, x, post, hls, hgot, hxn, hx, hpre⟩⟩ := h
  · have hmember : (v.laneIn s.uid want).member = 0 := hm
    have hjoin := joinExch_append (n := (v.g.chainOf v.x.el v.x.k).length) (i := v.laneIn s.uid want) hlacks true []
    rw [List.append_nil, joinExch_nil, if_pos (by rw [hn, hmember]; rfl)] at hjoin
    refine ⟨_, congrArg Prod.snd hjoin, ?_⟩
    rw [begun, hmember]
    rfl
  · unfold View.joined
    rw [hls, joinExch_append hpre, joinExch_cons hx, hxn, hn, hgot, if_pos le_rfl]
    exact ⟨_, rfl, rfl⟩

/-- A member that is not the last joins, and completes nothing. -/
theorem View.joined_joins {s : State} {v : View} {want : LaneWant} {ls : List Exch} (h : JoinsLane v (v.laneIn s.uid want) s.fab.lanes ls) :
    v.joined s want = (ls, none) := by
  unfold View.joined
  rcases h with ⟨hn, hlacks, rfl⟩ | ⟨pre, x, post, hls, hxn, hx, hpre, rfl⟩
  · have hjoin := joinExch_append (n := (v.g.chainOf v.x.el v.x.k).length) hlacks true []
    rwa [List.append_nil, joinExch_nil, if_neg (by omega)] at hjoin
  · rw [hls, joinExch_append hpre, joinExch_cons hx, if_neg (by omega)]

-- What a contributor receives.

/-- The contributors of a complete exchange are to be written back at the end of the next cycle, with their results. -/
theorem receives_of_complete {s t : State} {x : Exch} {i : LaneIn} {w : WB} {r : Nat} {old : List WB}
    (ht : t.fab.wbs = old ++ x.writeBacks (s.regionClk r)) (hi : i ∈ x.got) (hw : i.wb = some w) :
    Receives s t r w.id w.ctx w.dst w.pdst (x.result i) := by
  have hmem : { w with due := s.regionClk r + 1, done := { w.done with res := x.result i, pres := presOf (x.result i) } } ∈
      x.writeBacks (s.regionClk r) := List.mem_filterMap.mpr ⟨i, hi, by rw [hw]; rfl⟩
  have hold := List.mem_append_right old hmem
  rw [← ht] at hold
  exact ⟨_, hold, rfl, rfl, rfl, rfl, rfl, rfl, rfl⟩

/-- The value of the member that a contributor names, or its own. -/
theorem result_of_shuffled {x : Exch} {i : LaneIn} {j : Option Nat} {res : Word} (hwant : i.want = .from_ j)
    (hnodup : (x.contributors.map fun y => y.member).Nodup) (h : Shuffled (x.contributors.map fun y => (y.member, y.v)) j i.v res) :
    x.result i = res := by
  unfold Exch.result
  rw [hwant]
  rcases h with ⟨j, rfl, hmem⟩ | ⟨rfl, hnone⟩
  · obtain ⟨y, hy, he⟩ := List.mem_map.mp hmem
    cases he
    dsimp only
    -- The first contributor of that number is the only one.
    cases hfind : x.contributors.find? fun c => decide (c.member = y.member) with
    | none => exact absurd (decide_eq_true rfl) (List.find?_eq_none.mp hfind y hy)
    | some z =>
      have hz : z.member = y.member := of_decide_eq_true (List.find?_some (p := fun c : LaneIn => decide (c.member = y.member)) hfind)
      rw [List.inj_on_of_nodup_map hnodup (List.mem_of_find?_eq_some hfind) hy hz]
      rfl
  · cases j with
    | none => rfl
    | some j =>
      have hfind : (x.contributors.find? fun c => decide (c.member = j)) = none := List.find?_eq_none.mpr fun y hy hm =>
        hnone j y.v rfl (List.mem_map.mpr ⟨y, hy, by rw [of_decide_eq_true hm]⟩)
      dsimp only
      rw [hfind]
      rfl

-- The firing of the last member.

/-- The values and members of a complete exchange, that of its last member at the end. -/
theorem contributors_of_last {s : State} {v : View} {prior : List LaneIn} {want : LaneWant} {x : Exch}
    (hx : x.got = prior ++ [v.laneIn s.uid want]) : x.contributors = (prior.filter fun i => i.wb.isSome) ++ [v.laneIn s.uid want] := by
  rw [Exch.contributors, hx, List.filter_append]
  rfl

/-- The firing of the last member: every contributor receives its result. -/
theorem fireLane_last {r : Rule} {want : View → LaneWant} {s : State} {v : View} {prior : List LaneIn} (hv : view s r .s32 = some v)
    (hr : v.ready { needOf v.rule with lane := true } s = true) (hlast : LastMember s v prior) :
    ∃ x : Exch, x.contributors = (prior.filter fun i => i.wb.isSome) ++ [v.laneIn s.uid (want v)] ∧
      Receives s (fireLane r want s) v.r s.uid v.f.ctx v.rule.dst v.rule.pdst (x.result (v.laneIn s.uid (want v))) ∧
      ∀ i ∈ prior, ∀ w, i.wb = some w → Receives s (fireLane r want s) v.r w.id w.ctx w.dst w.pdst (x.result i) := by
  obtain ⟨x, hx, hgot⟩ := View.joined_last hlast (want v)
  obtain ⟨-, -, hwbs⟩ := fireLane_spec (want := want) hv hr
  rw [hx] at hwbs
  refine ⟨x, contributors_of_last hgot, receives_of_complete hwbs (hgot ▸ List.mem_append_right _ (List.mem_singleton_self _)) rfl,
    fun i hi w hw => receives_of_complete hwbs (hgot ▸ List.mem_append_left _ hi) hw⟩

/-- The firing of a member that is not the last. -/
theorem fireLane_joins {r : Rule} {want : View → LaneWant} {s : State} {v : View} {ls : List Exch} (hv : view s r .s32 = some v)
    (hr : v.ready { needOf v.rule with lane := true } s = true) (hjoin : JoinsLane v (v.laneIn s.uid (want v)) s.fab.lanes ls) :
    (fireLane r want s).fab.wbs = s.fab.wbs ∧ (fireLane r want s).fab.lanes = ls := by
  obtain ⟨-, hlanes, hwbs⟩ := fireLane_spec (want := want) hv hr
  rw [View.joined_joins hjoin] at hlanes hwbs
  exact ⟨hwbs.trans (List.append_nil _), hlanes⟩

/-- The members of a complete exchange differ, where those before the last do and the last is new. -/
theorem members_nodup {prior : List LaneIn} {m : Nat} (hnodup : (prior.map fun i => i.member).Nodup) (hnew : ∀ i ∈ prior, i.member ≠ m) :
    (((prior.filter fun i => i.wb.isSome).map fun i => i.member) ++ [m]).Nodup := by
  refine List.nodup_append.mpr ⟨hnodup.sublist (List.filter_sublist.map _), List.nodup_singleton m, fun a ha b hb => ?_⟩
  obtain ⟨i, hi, rfl⟩ := List.mem_map.mp ha
  rw [List.mem_singleton.mp hb]
  exact hnew i (List.mem_of_mem_filter hi)

/-- The value that the last member of a SHUF receives, where it names member `j`, or names none and `j` stands for itself. -/
theorem shuffled_of_last {prior : List LaneIn} {m j : Nat} {from_ : Option Nat} {own res : Word} (hfrom : from_ = some j ∨ from_ = none ∧ j = m)
    (hnew : ∀ i ∈ prior, i.member ≠ m) (hres : res = own ∧ (∀ i ∈ prior, i.wb.isSome = true → i.member ≠ j) ∨
      ∃ i ∈ prior, i.wb.isSome = true ∧ i.member = j ∧ res = i.v) :
    Shuffled (((prior.filter fun i => i.wb.isSome).map fun i => (i.member, i.v)) ++ [(m, own)]) from_ own res := by
  rcases hfrom with rfl | ⟨rfl, rfl⟩
  · rcases hres with ⟨rfl, hnone⟩ | ⟨i, hi, hsome, rfl, rfl⟩
    · by_cases hjm : j = m
      · exact .inl ⟨j, rfl, List.mem_append_right _ (hjm ▸ List.mem_singleton_self _)⟩
      · refine .inr ⟨rfl, fun k y hk hmem => ?_⟩
        cases hk
        rcases List.mem_append.mp hmem with hmem | hmem
        · obtain ⟨i, hi, he⟩ := List.mem_map.mp hmem
          obtain ⟨hi, hsome⟩ := List.mem_filter.mp hi
          exact hnone i hi hsome (congrArg Prod.fst he)
        · exact hjm (congrArg Prod.fst (List.mem_singleton.mp hmem))
    · exact .inl ⟨_, rfl, List.mem_append_left _ (List.mem_map.mpr ⟨i, List.mem_filter.mpr ⟨hi, hsome⟩, rfl⟩)⟩
  · rcases hres with ⟨rfl, -⟩ | ⟨i, hi, -, hm, -⟩
    · exact .inr ⟨rfl, fun _ _ h => nomatch h⟩
    · exact absurd hm (hnew i hi)

/-- Settles O21: the last member's firing completes the exchange (`fireLane_last`), and another's joins it (`fireLane_joins`). -/
theorem chainOperations : Obligations.ChainOperations := by
  refine ⟨fun s v r f prior res hf hlast hred => ?_, fun s v r f prior j res hf hlast => ?_, fun s v r want ls => ?_⟩
  · -- TRED.
    obtain rfl := rule_of_mayFire hf
    obtain ⟨hc, -, -⟩ := fireLane_spec (want := fun _ => .red f) hf.1 hf.2
    obtain ⟨x, hx, hown, hothers⟩ := fireLane_last (want := fun _ => .red f) hf.1 hf.2 hlast
    have hresult : ∀ i : LaneIn, i.want = .red f → x.result i = res := fun i hi => by
      unfold Exch.result
      rw [hi, hx, List.map_append]
      exact tredFn_of_reduces hred
    rw [hresult (v.laneIn s.uid (.red f)) rfl] at hown
    exact ⟨_, rfl, hc, hown, fun i hi w hw hwant => hresult i hwant ▸ hothers i hi w hw⟩
  · -- SHUF.
    intro m d hj hnodup hnew hres
    obtain rfl := rule_of_mayFire hf
    have hfrom : shufFrom f v.rule.imm m v.b = some j ∨ shufFrom f v.rule.imm m v.b = none ∧ j = m := by
      cases f with
      | idx | dn | xor => exact .inl (congrArg some hj.symm)
      | up =>
        have hup : shufFrom .up v.rule.imm m v.b = if d ≤ m then some (m - d) else none := rfl
        rw [hup]
        rcases hj with hj | ⟨hlt, hj⟩
        · exact .inl (by rw [if_pos (by omega)]; exact congrArg some (by omega))
        · exact .inr ⟨if_neg (by omega), hj⟩
    obtain ⟨hc, -, -⟩ := fireLane_spec (want := shufWant f v.rule) hf.1 hf.2
    obtain ⟨x, hx, hown, hothers⟩ := fireLane_last (want := shufWant f v.rule) hf.1 hf.2 hlast
    have hmembers : (x.contributors.map fun y => y.member).Nodup := by
      rw [hx, List.map_append]
      exact members_nodup hnodup hnew
    have hpairs : (x.contributors.map fun y => (y.member, y.v)) =
        ((prior.filter fun y => y.wb.isSome).map fun y => (y.member, y.v)) ++ [(m, v.a)] := by
      rw [hx, List.map_append]
      rfl
    rw [result_of_shuffled rfl hmembers (hpairs ▸ shuffled_of_last hfrom hnew hres)] at hown
    exact ⟨_, rfl, hc, hown, fun i hi w jo y hw hwant hy => result_of_shuffled hwant hmembers (hpairs ▸ hy) ▸ hothers i hi w hw⟩
  · -- A member that is not the last.
    intro m d wb i hjoin
    refine ⟨fun f hw hf => ?_, fun f hw hf => ?_⟩
    · obtain rfl := rule_of_mayFire hf
      subst hw
      obtain ⟨hc, -, -⟩ := fireLane_spec (want := fun _ => .red f) hf.1 hf.2
      exact ⟨_, rfl, hc, fireLane_joins (want := fun _ => .red f) hf.1 hf.2 hjoin⟩
    · obtain rfl := rule_of_mayFire hf
      subst hw
      obtain ⟨hc, -, -⟩ := fireLane_spec (want := shufWant f v.rule) hf.1 hf.2
      exact ⟨_, rfl, hc, fireLane_joins (want := shufWant f v.rule) hf.1 hf.2 hjoin⟩

end Sys2Proof.Machine
end

section
/-!
PROOFS. Traps, breakpoints and retirement (R136 to R138, R197, R198).
-/
namespace Sys2Proof.Machine
open Claims

-- Traps and breakpoints (R136, R137).

theorem fireThen_go {s : State} {r : Rule} {w : ImmW} {v : View} {need : View → Need} (hv : view s r w = some v)
    (hr : v.ready (need v) s = true) (eff : View → State → State) : fireThen r w need eff s = eff v (v.commit (need v) false s) := by
  simp only [fireThen, hv, hr, if_true]

theorem natLe_imm (x : BitVec 16) : natLe 2 x.toNat = [x.extractLsb' 0 8, x.extractLsb' 8 8] := by
  simp only [natLe, List.cons.injEq, and_true, ← BitVec.toNat_inj, BitVec.toNat_ofNat, BitVec.extractLsb'_toNat, Nat.shiftRight_eq_div_pow]
  omega

section
variable {s u : State} {v : View} {n : Need} {fl : Bool} (h : v.Stands s) (hc : Commits s u v n fl)
include h hc

theorem View.Stands.origin_of_commits (b : Bool) : u.origin v.f b = s.origin v.f b := by
  obtain ⟨g, hg, heq, -⟩ := hc.region
  rw [h.origin, State.origin, ← h.r, hg]
  dsimp only
  rw [heq]

/-- The record that a trap makes once its firing has committed, whatever it later holds as flags. -/
theorem View.Stands.trapRecord {cls : Nat} {q : Rec}
    (hq : q = { u.mkRec (u.origin v.f v.x.isRounded) cls (natLe 2 v.rule.imm.toNat) 0 v.a with flags := q.flags })
    (hfl : q.flags = (if v.x.isRounded then 1 else 0) + if 1 < (v.g.chainOf v.x.el v.x.k).length then 4 else 0) : TrapRecord s v cls q := by
  have hl : u.lrecOf v.g.gang = s.lrecOf v.g.gang := by rw [hc.rest]; rfl
  have hbits : ∀ b c : Bool, ∀ m : Nat, m = (if b then 1 else 0) + (if c then 4 else 0) → m.testBit 0 = b ∧ m.testBit 2 = c := by
    rintro b c _ rfl
    revert b c
    decide
  rw [h.origin_of_commits hc, h.origin, natLe_imm] at hq
  rw [TrapRecord, ← hl]
  refine ⟨?_, ?_, ?_, ?_, ?_, ?_, ?_, ?_, ?_, ?_, ?_, hbits _ _ _ ?_⟩
  case refine_12 => rw [hfl]; simp only [decide_eq_true_eq]
  case refine_5 | refine_6 | refine_7 => rw [hq, h.el]; rfl
  case refine_8 => rw [hq, h.k]; rfl
  all_goals rw [hq]; rfl

end

/-- A trap freezes its chain, or leaves its record to the commit of the round. -/
theorem View.Stands.traps {s : State} {v : View} {r : Rule} {w : ImmW} (h : v.Stands s) (hv : view s r w = some v) (hl : v.f.follower = false)
    (n : Need) (cls : Nat) : Traps s (trapEffect cls v (v.commit n false s)) v n cls := by
  have hc := View.commit_spec hv n false
  have hch := v.commit_chains n false s
  generalize v.commit n false s = u at hc hch ⊢
  obtain ⟨g, hg, hsame⟩ := hch _ _ h.region
  have hflags : (u.mkRec (u.origin v.f v.x.isRounded) cls (natLe 2 v.rule.imm.toNat) 0 v.a).flags = if v.x.isRounded then 1 else 0 := by
    rw [h.origin_of_commits hc, h.origin]; rfl
  have hrecord : TrapRecord s v cls (if 1 < (v.g.chainOf v.x.el v.x.k).length then
      { u.mkRec (u.origin v.f v.x.isRounded) cls (natLe 2 v.rule.imm.toNat) 0 v.a with
        flags := (u.mkRec (u.origin v.f v.x.isRounded) cls (natLe 2 v.rule.imm.toNat) 0 v.a).flags + 4 }
      else u.mkRec (u.origin v.f v.x.isRounded) cls (natLe 2 v.rule.imm.toNat) 0 v.a) := by
    split
    · next hlt => exact h.trapRecord hc rfl (by rw [if_pos hlt, ← hflags])
    · next hle => exact h.trapRecord hc rfl (by rw [if_neg hle, hflags]; rfl)
  rw [trapEffect, if_neg (by rw [hl]; exact Bool.false_ne_true)]
  dsimp only
  generalize u.mkRec (u.origin v.f v.x.isRounded) cls (natLe 2 v.rule.imm.toNat) 0 v.a = q at hrecord ⊢
  refine ⟨u, hc, fun hd => ?direct, fun hd => ?rounded⟩
  case direct =>
    rw [if_neg (by rw [hd]; exact Bool.false_ne_true), State.freezeNext]
    obtain ⟨p, hf⟩ := State.freezeBy_spec hg .soon q
    have hrecs := State.freezeBy_recs hg .soon q
    have hlast : (u.freezeBy .soon v.f.ctx q).fab.recs = u.fab.recs ++ [p] := by rw [hf.rest]
    rw [hlast, List.map_append, List.append_cancel_left_eq, List.map_singleton, List.singleton_inj, Region.membersOf, List.length_map,
      hsame.chainOf, ← h.el, ← h.k] at hrecs
    refine ⟨p, hlast, hf.ctx, hrecs ▸ hrecord, fun el hm => ?_, by rw [hf.rest]⟩
    rw [hf.id]
    exact (hf.of_sameChains hsame).frozen el (by rw [← h.el, ← h.k]; exact hm)
  case rounded =>
    rw [if_pos hd]
    exact ⟨_, hrecord, rfl⟩

theorem View.Stands.trapEffect {s : State} {v : View} {r : Rule} {w : ImmW} (h : v.Stands s) (hv : view s r w = some v) (n : Need) (cls : Nat) :
    (v.f.follower = true → Commits s (trapEffect cls v (v.commit n false s)) v n false) ∧
    (v.f.follower = false → Traps s (trapEffect cls v (v.commit n false s)) v n cls) := by
  refine ⟨fun hfol => ?_, fun hl => h.traps hv hl n cls⟩
  rw [Machine.trapEffect, if_pos hfol]
  exact View.commit_spec hv n false

-- Retirement (R138).

/-- What the firing of a RET does once it has committed. -/
def View.retire (v : View) (s : State) : State :=
  if v.x.isRounded then s.updCtx v.f.ctx fun x => { x with retiring := true }
  else (s.updCtx v.f.ctx fun x => { x with retired := true }).tidy v.p

/-- What a firing without results in flight makes of its context leaves registers, predicates and retirement. -/
theorem View.stamped_kept (v : View) (n : Need) (x : Ctx) :
    (v.stamped n false x).regs = x.regs ∧ (v.stamped n false x).preds = x.preds ∧ (v.stamped n false x).retired = x.retired := by
  unfold View.stamped
  split <;> rw [View.stamp_eq] <;> exact ⟨rfl, rfl, rfl⟩

theorem State.ctx_retire (v : View) (s : State) (k : CtxId) : (v.retire s).ctx k = if k = v.f.ctx then
    (s.ctx k).map fun x => if v.x.isRounded then { x with retiring := true } else { x with retired := true } else s.ctx k := by
  have htidy : ∀ u : State, (u.tidy v.p).ctx k = u.ctx k := fun u =>
    State.ctx_congr ((congrArg State.regions (Pops.tidy u v.p).rest).trans rfl) k
  unfold View.retire
  split
  · exact State.ctx_updCtx _ _ _ _ fun _ => ⟨rfl, rfl⟩
  · rw [htidy]
    exact State.ctx_updCtx _ _ _ _ fun _ => ⟨rfl, rfl⟩

theorem State.store_retire (v : View) (s : State) : (v.retire s).store = s.store := by
  unfold View.retire
  split
  · rfl
  · rw [(Pops.tidy _ v.p).rest]
    rfl

/-- A firing that writes nothing completes with its further effect on its commit. -/
theorem exec_of_fireThen {i : Instr} {s : State} {r : Rule} {w : ImmW} {v : View} {need : View → Need} {eff : View → State → State}
    (hi : exec i s = .next (fireThen r w need eff s)) (hn : needFor s v i = need v) (hf : MayFire i r w s v) :
    exec i s = .next (eff v (v.commit (need v) false s)) := by
  rw [hi, fireThen_go hf.1 (hn ▸ hf.2)]

/-- The own context of a RET, and the others, once it has fired. -/
theorem ctx_of_ret {s : State} {r : Rule} {w : ImmW} {v : View} (hv : view s r w = some v) (n : Need) (k : CtxId) :
    (v.retire (v.commit n false s)).ctx k = if k = v.f.ctx then
      some (if v.x.isRounded then { v.stamped n false v.x with retiring := true } else { v.stamped n false v.x with retired := true })
    else s.ctx k := by
  rw [State.ctx_retire, View.commit_ctx]
  split
  · next hk => rw [hk, ctx_of_view hv]; rfl
  · rfl

/-- Settles O22: a trap freezes its chain after the commit, a RET marks its context after the commit. -/
theorem trapsAndRetirement : Obligations.TrapsAndRetirement := by
  refine ⟨fun s v r => ⟨fun hf => ?trap, fun hf => ?brk⟩, fun s v r hf => ?ret⟩
  case trap =>
    obtain rfl := rule_of_mayFire hf
    exact ⟨_, exec_of_fireThen rfl rfl hf, (View.Stands.of_view hf.1).trapEffect hf.1 _ _⟩
  case brk =>
    obtain rfl := rule_of_mayFire hf
    obtain ⟨hfol, hlead⟩ := (View.Stands.of_view hf.1).trapEffect hf.1 (needOf v.rule) 0x0E
    refine ⟨_, exec_of_fireThen rfl rfl hf, ?_⟩
    rw [View.commit_rdbg]
    cases (s.rreg v.r).rdbg.getLsbD 0 with
    | true => exact ⟨fun h => hfol (h.resolve_right (by decide)), fun h => hlead h.1⟩
    | false => exact ⟨fun _ => View.commit_spec hf.1 _ _, fun h => absurd h.2 (by decide)⟩
  case ret =>
    have hctx := ctx_of_ret hf.1 { needOf v.rule with unmasked := true }
    obtain ⟨hregs, hpreds, hret⟩ := v.stamped_kept { needOf v.rule with unmasked := true } v.x
    have hstore : (v.retire (v.commit { needOf v.rule with unmasked := true } false s)).store = s.store := by
      rw [State.store_retire, (View.commit_spec hf.1 _ _).rest]
    refine ⟨_, _, exec_of_fireThen (eff := View.retire) rfl rfl hf, (hctx _).trans (if_pos rfl), ?_⟩
    cases v.x.isRounded with
    | true => exact ⟨hregs, hpreds, fun h => absurd h (by decide), fun _ => ⟨rfl, hret⟩, hstore, fun c hc => (hctx c).trans (if_neg hc)⟩
    | false => exact ⟨hregs, hpreds, fun _ => rfl, fun h => absurd h (by decide), hstore, fun c hc => (hctx c).trans (if_neg hc)⟩

end Sys2Proof.Machine
end

section
/-!
SUPPORT. The value that a stochastic rounding draws (R102, R103), and that no other mode depends on it.
-/
namespace Sys2Proof.Machine
open Claims

-- The mixing step of R102, on numbers and on words.

/-- A field joins a word whose low bits are free. -/
theorem toNat_or_eq_add {w n X Y : Nat} {x y : BitVec w} (hx : x.toNat = X) (hy : y.toNat = Y) (hX : 2 ^ n ∣ X) (hY : Y < 2 ^ n) :
    (x ||| y).toNat = X + Y := by
  obtain ⟨a, rfl⟩ := hX
  rw [BitVec.toNat_or, hx, hy, Nat.two_pow_add_eq_or_of_lt hY]

theorem toNat_ofNat_shiftLeft {w b k : Nat} (h : b * 2 ^ k < 2 ^ w) : (BitVec.ofNat w b <<< k).toNat = b * 2 ^ k := by
  have hb : b < 2 ^ w := (Nat.le_mul_of_pos_right b (Nat.two_pow_pos k)).trans_lt h
  rw [BitVec.toNat_shiftLeft, BitVec.toNat_ofNat, Nat.mod_eq_of_lt hb, Nat.shiftLeft_eq, Nat.mod_eq_of_lt h]

/-- The fields of the key, from the counter down to the lane. -/
theorem srKey_toNat {rcnt inst ty tx ey ex k lane : Nat} (hr : rcnt < 2 ^ 32) (hi : inst < 2 ^ 15) (hty : ty < 16) (htx : tx < 8) (hey : ey < 4)
    (hex : ex < 4) (hk : k < 8) (hl : lane < 8) :
    (BitVec.ofNat 64 rcnt <<< 32 ||| BitVec.ofNat 64 inst <<< 17 ||| BitVec.ofNat 64 ty <<< 13 ||| BitVec.ofNat 64 tx <<< 10 |||
      BitVec.ofNat 64 ey <<< 8 ||| BitVec.ofNat 64 ex <<< 6 ||| BitVec.ofNat 64 k <<< 3 ||| BitVec.ofNat 64 lane).toNat =
    rcnt * 2 ^ 32 + inst * 2 ^ 17 + ty * 2 ^ 13 + tx * 2 ^ 10 + ey * 2 ^ 8 + ex * 2 ^ 6 + k * 2 ^ 3 + lane := by
  have hcount := toNat_ofNat_shiftLeft (w := 64) (b := rcnt) (k := 32) (by omega)
  have hinst := toNat_or_eq_add (n := 32) hcount (toNat_ofNat_shiftLeft (b := inst) (k := 17) (by omega)) (by omega) (by omega)
  have hrow := toNat_or_eq_add (n := 17) hinst (toNat_ofNat_shiftLeft (b := ty) (k := 13) (by omega)) (by omega) (by omega)
  have hcol := toNat_or_eq_add (n := 13) hrow (toNat_ofNat_shiftLeft (b := tx) (k := 10) (by omega)) (by omega) (by omega)
  have hely := toNat_or_eq_add (n := 10) hcol (toNat_ofNat_shiftLeft (b := ey) (k := 8) (by omega)) (by omega) (by omega)
  have helx := toNat_or_eq_add (n := 8) hely (toNat_ofNat_shiftLeft (b := ex) (k := 6) (by omega)) (by omega) (by omega)
  have hctx := toNat_or_eq_add (n := 6) helx (toNat_ofNat_shiftLeft (b := k) (k := 3) (by omega)) (by omega) (by omega)
  exact toNat_or_eq_add (n := 3) hctx (BitVec.toNat_ofNat lane 64 ▸ Nat.mod_eq_of_lt (by omega)) (by omega) (by omega)

theorem toNat_mixed (h c : BitVec 64) (n : Nat) :
    ((h ^^^ (h >>> n)) * c).toNat = Nat.xor h.toNat (h.toNat / 2 ^ n) * c.toNat % 2 ^ 64 := by
  rw [BitVec.toNat_mul, BitVec.toNat_xor, BitVec.toNat_ushiftRight, Nat.shiftRight_eq_div_pow]
  exact rfl

/-- The mixing step on numbers is that on words. -/
theorem srQ_eq_srMix (seed inst home k rcnt lane : Nat) :
    srQ seed inst home k rcnt lane =
      srMix seed inst (home / 16 % 8) (home / 16 / 8 % 16) (home % 4) (home % 16 / 4) k (rcnt % 2 ^ 32) lane := by
  have hkey := srKey_toNat (rcnt := rcnt % 2 ^ 32) (inst := inst % 2 ^ 15) (ty := home / 16 / 8 % 16 % 16) (tx := home / 16 % 8 % 8)
    (ey := home % 16 / 4 % 4) (ex := home % 4 % 4) (k := k % 8) (lane := lane % 8) (by omega) (by omega) (by omega) (by omega) (by omega)
    (by omega) (by omega) (by omega)
  have hseed : ∀ x : BitVec 64, (x ^^^ (BitVec.ofNat 64 seed * 0x9E3779B97F4A7C15#64)).toNat =
      Nat.xor x.toNat (seed * 0x9E3779B97F4A7C15 % 2 ^ 64) := fun x => by
    rw [BitVec.toNat_xor, BitVec.toNat_mul, BitVec.toNat_ofNat, Nat.mod_mul_mod]
    exact rfl
  have hlast : ∀ x : BitVec 64, ((x ^^^ (x >>> 31)) >>> 32).toNat = Nat.xor x.toNat (x.toNat / 2 ^ 31) / 2 ^ 32 := fun x => by
    rw [BitVec.toNat_ushiftRight, BitVec.toNat_xor, BitVec.toNat_ushiftRight, Nat.shiftRight_eq_div_pow, Nat.shiftRight_eq_div_pow]
    exact rfl
  have hc1 : (0xBF58476D1CE4E5B9#64).toNat = 0xBF58476D1CE4E5B9 := BitVec.toNat_ofNat _ _
  have hc2 : (0x94D049BB133111EB#64).toNat = 0x94D049BB133111EB := BitVec.toNat_ofNat _ _
  have hmod : home / 16 / 8 % 16 % 16 = home / 16 / 8 % 16 ∧ home / 16 % 8 % 8 = home / 16 % 8 ∧ home % 16 / 4 % 4 = home % 16 / 4 ∧
      home % 4 % 4 = home % 4 := by omega
  obtain ⟨hty, htx, hey, hex⟩ := hmod
  unfold srQ srMix
  dsimp only
  rw [hlast, toNat_mixed, toNat_mixed, hseed, hkey, hc1, hc2, hty, htx, hey, hex]

theorem srMix_lt (seed inst tx ty ex ey k rcnt lane : Nat) : srMix seed inst tx ty ex ey k rcnt lane < 2 ^ 32 := by
  unfold srMix
  dsimp only
  generalize (_ ^^^ _ : BitVec 64) = h
  have := h.isLt
  rw [BitVec.toNat_ushiftRight, Nat.shiftRight_eq_div_pow]
  omega

-- The value of a firing's lane.

theorem srOf_eq_srValue (s : State) (v : View) (lane : Nat) : srOf s v lane = srValue s v lane := by
  have hflying : (s.fab.wbs.filter fun w => decide (w.sr ∧ w.ctx = v.f.ctx)) = s.fab.wbs.filter fun w => w.sr && decide (w.ctx = v.f.ctx) :=
    List.filter_congr fun w _ => by rw [Bool.decide_and, Bool.decide_eq_true]
  unfold srOf srValue wordAt
  dsimp only
  rw [hflying, srQ_eq_srMix, BitVec.toNat_add, BitVec.toNat_ofNat]
  congr 1
  exact (Nat.add_mod_mod ..).symm

theorem srValue_lt (s : State) (v : View) (lane : Nat) : srValue s v lane < 2 ^ 32 := by
  unfold srValue
  exact srMix_lt _ _ _ _ _ _ _ _ _

/-- What a firing draws for a lane under a mode. -/
def drawn (s : State) (v : View) (mode : RMode) (lane : Nat) : Nat := if mode = .sr then srOf s v lane else 0

theorem drawn_lt (s : State) (v : View) (mode : RMode) (lane : Nat) : drawn s v mode lane < 2 ^ 32 := by
  rw [drawn, srOf_eq_srValue]
  split
  · exact srValue_lt s v lane
  · exact Nat.two_pow_pos 32

section
variable (s : State) (v : View) (mode : RMode) (lane : Nat)

/-- Only the stochastic mode looks at what is drawn. -/
theorem toUpper_drawn (neg even : Bool) (frac : ℚ) :
    toUpper mode neg (drawn s v mode lane) even frac = toUpper mode neg (srValue s v lane) even frac := by
  cases mode with
  | sr => rw [drawn, if_pos rfl, srOf_eq_srValue]
  | rn | rz | rd | ru => rw [toUpper, toUpper]

theorem roundsTo_drawn {f : Fmt} {sat : Bool} {x : ℚ} {c : Nat} :
    RoundsTo f mode sat (drawn s v mode lane) x c ↔ RoundsTo f mode sat (srValue s v lane) x c := by
  simp only [RoundsTo, toUpper_drawn]

theorem rounded_drawn {f : Fmt} {sat : Bool} {x : Ext} {c : Nat} :
    Rounded f mode sat (drawn s v mode lane) x c ↔ Rounded f mode sat (srValue s v lane) x c := by
  cases x with
  | nan | inf => simp only [Rounded]
  | fin => simp only [Rounded, roundsTo_drawn]

theorem intRound_drawn (x : ℚ) : intRound mode (drawn s v mode lane) x = intRound mode (srValue s v lane) x := by
  simp only [intRound, toUpper_drawn]

theorem converts_drawn {t : Ty} {sat : Bool} {x : Ext} {c : Nat} :
    Converts t mode sat (drawn s v mode lane) x c ↔ Converts t mode sat (srValue s v lane) x c := by
  cases t with
  | i32 | u32 | i16x2 | u16x2 | i8x4 | u8x4 => simp only [Converts, intRound_drawn]
  | e8m0x4 => simp only [Converts, toUpper_drawn]
  | f32 | bf16x2 | f16x2 | e4m3x4 | e5m2x4 | e2m1x8 => exact rounded_drawn s v mode lane

end

end Sys2Proof.Machine
end

section
/-!
SUPPORT. The lanes of a word as codes and their values, and a word put together from codes (R3, R57, R92).
-/
namespace Sys2Proof.Machine
open Claims

theorem width_mul_lanes (t : Ty) : t.width * t.lanes = 32 := by cases t <;> rfl

/-- A lane of a word put together from codes. -/
theorem lane_packCodes {t : Ty} (f : Nat → Nat) {i : Nat} (hi : i < t.lanes) :
    ((packCodes t f).extractLsb' (t.width * i) t.width).toNat = f i % 2 ^ t.width := by
  have hfits : t.width * i + t.width ≤ 32 := by rw [← Nat.mul_succ, ← width_mul_lanes t]; exact Nat.mul_le_mul_left _ hi
  rw [packCodes, extractLsb'_ofNat_eq _ hfits, BitVec.toNat_ofNat]
  exact sum_digits t.width (fun j => f j % 2 ^ t.width) (fun _ => Nat.mod_lt _ (Nat.two_pow_pos _)) hi

/-- The types whose lanes are codes of floating-point formats (R57, R92). -/
def floats : List Ty := [.f32, .bf16x2, .f16x2, .e4m3x4, .e5m2x4, .e2m1x8]

section
variable {t : Ty} (ht : t ∈ floats)
include ht

theorem width_of_float : t.width = (fmtOf t).bits := by revert t; decide
theorem lanes_of_float : t.lanes = fpLanes t := by revert t; decide

theorem laneNat_of_float (x : Word) (i : Nat) : laneNat t x i = fpCode t x i := laneNat_eq (width_of_float ht) x i

theorem ext_laneVal_of_float (x : Word) (i : Nat) : (laneVal t x i).ext = fpLane t x i := by
  have hval : laneVal t x i = (fmtOf t).val (laneNat t x i) := by
    simp only [floats, List.mem_cons, List.not_mem_nil, or_false] at ht
    rcases ht with rfl | rfl | rfl | rfl | rfl | rfl <;> rfl
  rw [hval, codeExt_val, laneNat_of_float ht, fpLane]

theorem fpCode_packCodes (f : Nat → Nat) {i : Nat} (hi : i < fpLanes t) (hf : f i < 2 ^ (fmtOf t).bits) : fpCode t (packCodes t f) i = f i := by
  have h := lane_packCodes f (lanes_of_float ht ▸ hi)
  rw [width_of_float ht, Nat.mod_eq_of_lt hf] at h
  exact h

end

theorem fpCode_lt (t : Ty) (x : Word) (i : Nat) : fpCode t x i < 2 ^ (fmtOf t).bits := BitVec.isLt _

/-- The types that R62 calls fp. -/
theorem float_of_fp {t : Ty} (ht : t = .f32 ∨ t = .bf16x2 ∨ t = .f16x2) : t ∈ floats := by
  rcases ht with rfl | rfl | rfl <;> decide

end Sys2Proof.Machine
end

section
/-!
PROOFS. Arithmetic: exact, and rounded once (R97, R100, R108, R144, R149, R151, R152).
-/
namespace Sys2Proof.Machine
open Claims

-- Exact values.

theorem Fv.ext_neg (x : Fv) : x.neg.ext = x.ext.opp := by
  cases x with
  | nan | inf => rfl
  | fin s m e => cases s <;> simp [Fv.neg, Fv.ext, Ext.opp, underSign]

theorem underSign_bne (s u : Bool) (x y : ℚ) : underSign (s != u) (x * y) = underSign s x * underSign u y := by
  cases s <;> cases u <;> simp [underSign]

theorem underSign_scaled_eq_zero_iff (s : Bool) (m : Nat) (e : Int) : underSign s (m * 2 ^ e) = 0 ↔ m = 0 := by
  rw [underSign_eq_zero_iff, mul_eq_zero, or_iff_left (two_zpow_pos e).ne', Nat.cast_eq_zero]

/-- The exact product of the model is the exact product of its values. -/
theorem Fv.ext_mul (x y : Fv) : (x.mul y).ext = x.ext.prod y.ext := by
  cases x with
  | nan => rfl
  | inf s =>
    cases y with
    | nan | inf => rfl
    | fin u m e =>
      rw [Fv.mul, apply_ite Fv.ext]
      simp only [Fv.ext, Ext.prod, underSign_scaled_eq_zero_iff]
  | fin s m e =>
    cases y with
    | nan => rfl
    | inf u =>
      rw [Fv.mul, apply_ite Fv.ext, bne_comm]
      simp only [Fv.ext, Ext.prod, underSign_scaled_eq_zero_iff]
    | fin u n f =>
      simp only [Fv.mul, Fv.ext, Ext.prod, ← underSign_bne]
      rw [zpow_add₀ two_ne_zero, mul_mul_mul_comm, Nat.cast_mul]

/-- The exact value of a lane: its one term, or the sum of its terms. -/
def exactOf (rd : Bool) (ts : List Fv) : Fv :=
  match ts with
  | [x] => x
  | ts => Fv.sum rd ts

theorem ext_exactOf_pair (rd : Bool) (x y : Fv) : (exactOf rd [x, y]).ext = Ext.sum rd [x.ext, y.ext] := Fv.ext_sum rd [x, y]

theorem lanes_pos (t : Ty) : 0 < t.lanes := by cases t <;> decide

/-- The terms of FDOT (R152). -/
theorem ext_exactOf_dot {n : Nat} (hn : 0 < n) (rd : Bool) (z : Fv) (f : Nat → Fv) :
    (exactOf rd (z :: (List.range n).map f)).ext = Ext.sum rd ((z :: (List.range n).map f).map Fv.ext) := by
  obtain ⟨k, rfl⟩ := Nat.exists_eq_add_of_le' hn
  rw [List.range_succ_eq_map]
  exact Fv.ext_sum rd _

/-- What FLRP takes 1 − t for (R151). -/
def oneMinus (x : Fv) : Fv :=
  match x with
  | .nan => .nan
  | .inf s => .inf !s
  | _ => Fv.sum false [.fin false 1 0, x.neg]

theorem Fv.ext_oneMinus (x : Fv) : (oneMinus x).ext = Ext.sum false [.fin false 1, x.ext.opp] := by
  cases x with
  | nan => rfl
  | inf s => cases s <;> rfl
  | fin s m e =>
    have hone : (Fv.fin false 1 0).ext = .fin false 1 := by simp [Fv.ext, underSign]
    exact (Fv.ext_sum false _).trans (by rw [List.map_cons, List.map_cons, Fv.ext_neg, hone]; rfl)

-- Rounding every lane.

theorem arithFn_eq (m : Rnd) (t : Ty) (q : Nat → Nat) (terms : Nat → List Fv) :
    arithFn m t q terms = packCodes t fun i => (fmtOf t).round m.mode m.sat (q i) (exactOf (decide (m.mode = .rd)) (terms i)) := rfl

/-- Every lane of an arithmetic result is the exact value of its terms, rounded once. -/
theorem lanesRound_arithFn {t : Ty} (ht : t ∈ floats) (s : State) (v : View) (m : Rnd) (terms : Nat → List Fv) :
    LanesRound s v m t (arithFn m t (drawn s v m.mode) terms) fun i => (exactOf (decide (m.mode = .rd)) (terms i)).ext := by
  intro i hi
  have h := round_spec (fmtOf_sound t) m.mode m.sat (drawn_lt s v m.mode i) (exactOf (decide (m.mode = .rd)) (terms i))
  rw [arithFn_eq, fpCode_packCodes ht _ hi (lt_of_rounded (fmtOf_sound t) h), ← rounded_drawn]
  exact h

section
variable {i : Instr} {r : Rule} {w : ImmW} {s : State} {v : View}

/-- A firing that rounds delivers what its sources and its draws give (R34, R35, R102). -/
theorem delivers_of_fireRnd {mode : RMode} {f : (Nat → Nat) → Word → Word → Word → Word} (hi : exec i s = .next (fireRnd r w mode f s))
    (hn : needFor s v i = needOf v.rule) (hf : MayFire i r w s v) :
    Delivers i s v 4 (f (drawn s v mode) v.a v.b v.c) (isSet (f (drawn s v mode) v.a v.b v.c)) :=
  delivers_of_fireAlu hi hn rfl hf (by decide) rfl

/-- A firing of R144 delivers the exact values of its lanes, rounded once. -/
theorem delivers_rounded {m : Rnd} {t : Ty} {terms : Word → Word → Word → Nat → List Fv} {g : Nat → Ext}
    (hi : exec i s = .next (fireRnd r w m.mode (fun q a b c => arithFn m t q (terms a b c)) s)) (hn : needFor s v i = needOf v.rule)
    (ht : t ∈ floats) (hg : ∀ j, (exactOf (decide (m.mode = .rd)) (terms v.a v.b v.c j)).ext = g j) (hf : MayFire i r w s v) :
    ∃ res, LanesRound s v m t res g ∧ Delivers i s v 4 res (isSet res) := by
  obtain rfl : (fun j => (exactOf (decide (m.mode = .rd)) (terms v.a v.b v.c j)).ext) = g := funext hg
  exact ⟨_, lanesRound_arithFn ht s v m _, delivers_of_fireRnd hi hn hf⟩

end

-- FSCL (R149): an exponent beyond ±1000 rounds as ±1000 does.

/-- Numbers at or beyond M + ulp round alike (R98). -/
theorem roundsTo_of_beyond {f : Fmt} {mode : RMode} {sat : Bool} {q : Nat} (hq : q < 2 ^ 32) {x y : ℚ} {c : Nat}
    (hx : magValue f (f.maxMag + 1) ≤ |x|) (hy : magValue f (f.maxMag + 1) ≤ |y|) (hs : x < 0 ↔ y < 0) (h : RoundsTo f mode sat q x c) :
    RoundsTo f mode sat q y c := by
  have hulp : 0 < magValue f (f.maxMag + 1) - magValue f f.maxMag := sub_pos.mpr (magValue_strictMono f (Nat.lt_succ_self _))
  have hfrac : ∀ {z : ℚ}, magValue f (f.maxMag + 1) ≤ z →
      1 ≤ (z - magValue f f.maxMag) / (magValue f (f.maxMag + 1) - magValue f f.maxMag) := fun hz =>
    (one_le_div hulp).mpr (sub_le_sub_right hz _)
  obtain ⟨g, hg, -, hhi, hc⟩ := h
  obtain rfl : g = f.maxMag := hhi.resolve_left fun hlt => absurd (hx.trans_lt hlt)
    (not_lt.mpr ((magValue_strictMono f).monotone (Nat.succ_le_succ hg)))
  have hodd : decide (f.maxMag % 2 = 0 ∧ f.maxMag ≠ f.maxMag) = false := by simp
  refine ⟨f.maxMag, le_rfl, le_trans (sub_pos.mp hulp).le hy, .inr rfl, ?_⟩
  dsimp only at hc ⊢
  rw [hodd, ← goesUp_beyond mode _ hq (hfrac hx)] at hc
  rw [hodd, ← goesUp_beyond mode _ hq (hfrac hy), ← decide_eq_decide.mpr hs]
  exact hc

/-- A positive fraction below 2^−32 is taken upwards by the direction of the mode alone (R98, R101). -/
theorem toUpper_of_tiny (mode : RMode) (neg : Bool) (q : Nat) (even : Bool) {x y : ℚ} (hx : 0 < x) (hy : 0 < y) (hx' : x * 2 ^ 32 < 1)
    (hy' : y * 2 ^ 32 < 1) : toUpper mode neg q even x = toUpper mode neg q even y := by
  have hfloor : ∀ {z : ℚ}, 0 < z → z * 2 ^ 32 < 1 → ⌊z * 2 ^ 32⌋ = 0 := fun hz hz' => Int.floor_eq_zero_iff.mpr ⟨by positivity, hz'⟩
  have hhalf : ∀ {z : ℚ}, z * 2 ^ 32 < 1 → ¬1 / 2 < z ∧ z ≠ 1 / 2 := fun hz' =>
    ⟨fun h => by linarith, fun h => by rw [h] at hz'; norm_num at hz'⟩
  rw [toUpper.eq_def, toUpper.eq_def, decide_eq_true hx.ne', decide_eq_true hy.ne']
  cases mode with
  | rn =>
    obtain ⟨hx1, hx2⟩ := hhalf hx'
    obtain ⟨hy1, hy2⟩ := hhalf hy'
    simp only [hx1, hx2, hy1, hy2]
  | rz | rd | ru => rfl
  | sr => simp only [hfloor hx hx', hfloor hy hy']

/-- Numbers below the least magnitude over 2^32 round alike. -/
theorem roundsTo_of_tiny {f : Fmt} {mode : RMode} {sat : Bool} {q : Nat} {x y : ℚ} {c : Nat} (hx0 : x ≠ 0) (hy0 : y ≠ 0)
    (hx : |x| * 2 ^ 32 < magValue f 1) (hy : |y| * 2 ^ 32 < magValue f 1) (hs : x < 0 ↔ y < 0) (h : RoundsTo f mode sat q x c) :
    RoundsTo f mode sat q y c := by
  have hpos : ∀ {z : ℚ}, z ≠ 0 → 0 < |z| := abs_pos.mpr
  have hone : ∀ {z : ℚ}, |z| * 2 ^ 32 < magValue f 1 → |z| < magValue f 1 := fun {z} hz => by
    have := abs_nonneg z
    linarith
  have hleast : 0 < magValue f 1 := magValue_zero f ▸ magValue_strictMono f Nat.one_pos
  have hfrac : ∀ {z : ℚ}, z ≠ 0 → |z| * 2 ^ 32 < magValue f 1 → 0 < |z| / magValue f 1 ∧ |z| / magValue f 1 * 2 ^ 32 < 1 := fun hz hlt =>
    ⟨div_pos (hpos hz) hleast, by rwa [div_mul_eq_mul_div, div_lt_one hleast]⟩
  obtain ⟨g, hg, hlo, -, hc⟩ := h
  obtain rfl : g = 0 := Nat.lt_one_iff.mp ((magValue_strictMono f).lt_iff_lt.mp (hlo.trans_lt (hone hx)))
  refine ⟨0, hg, by rw [magValue_zero]; exact abs_nonneg y, .inl (hone hy), ?_⟩
  rw [magValue_zero, sub_zero, sub_zero, zero_add] at hc ⊢
  rw [hc, decide_eq_decide.mpr hs, toUpper_of_tiny mode _ q _ (hfrac hx0 hx).1 (hfrac hy0 hy).1 (hfrac hx0 hx).2 (hfrac hy0 hy).2]

/-- The formats with infinities of their own next to their numbers (R92): those of the lane types that R62 calls fp. -/
def Fmt.Ieee (f : Fmt) : Prop := f.inf = some (f.maxMag + 1)

theorem ieee_of_fp {t : Ty} (ht : t = .f32 ∨ t = .bf16x2 ∨ t = .f16x2) : (fmtOf t).Ieee := by
  rcases ht with rfl | rfl | rfl <;> rfl

/-- The value of a code, by its sign and magnitude (R92). -/
theorem codeExt_of_ieee {f : Fmt} (hf : f.Ieee) (c : Nat) : codeExt f c =
    if f.mag c ≤ f.maxMag then .fin (f.sign c) (underSign (f.sign c) (magValue f (f.mag c)))
    else if f.mag c = f.maxMag + 1 then .inf (f.sign c) else .nan := by
  have hmag : c % 2 ^ (f.bits - 1) = f.mag c := rfl
  have hsign : decide (c / 2 ^ (f.bits - 1) % 2 = 1) = f.sign c := rfl
  simp only [codeExt, hmag, hsign, show f.inf = some (f.maxMag + 1) from hf, ← underSign.eq_def]
  rcases lt_trichotomy (f.mag c) (f.maxMag + 1) with h | h | h
  · rw [if_neg h.ne, if_neg h.not_gt, if_pos (Nat.lt_succ_iff.mp h)]
  · rw [if_pos h, if_neg (by omega), if_pos h]
  · rw [if_neg h.ne', if_pos h, if_neg (by omega), if_neg h.ne']

/-- The range of the formats of fp: 2^400 leads from the least magnitude beyond the greatest, and more. -/
theorem magValue_range {t : Ty} (ht : t = .f32 ∨ t = .bf16x2 ∨ t = .f16x2) :
    magValue (fmtOf t) ((fmtOf t).maxMag + 1) * 2 ^ 32 < magValue (fmtOf t) 1 * 2 ^ (400 : Int) := by
  rw [show (400 : Int) = 200 + 200 by rfl, zpow_add₀ two_ne_zero]
  rcases ht with rfl | rfl | rfl <;> norm_num [fmtOf, magValue, fp32, bf16, fp16]

/-- A number of a format lies between its least magnitude and M + ulp. -/
theorem abs_codeExt_bounds {f : Fmt} (hf : f.Ieee) {c : Nat} {s : Bool} {x : ℚ} (hc : codeExt f c = .fin s x) (hx : x ≠ 0) :
    magValue f 1 ≤ |x| ∧ |x| < magValue f (f.maxMag + 1) := by
  have hmono := magValue_strictMono f
  rw [codeExt_of_ieee hf] at hc
  split at hc
  · next hg =>
    cases hc
    have hpos : f.mag c ≠ 0 := fun h => hx (by rw [h, magValue_zero]; exact (underSign_eq_zero_iff _ 0).mpr rfl)
    rw [abs_underSign _ (magValue_zero f ▸ hmono.monotone (Nat.zero_le _))]
    exact ⟨hmono.monotone (Nat.pos_of_ne_zero hpos), hmono (Nat.lt_succ_of_le hg)⟩
  · split at hc <;> cases hc

/-- An exponent added to a lane's value rounds as what FSCL takes it for (R149). -/
theorem rounded_scaled {t : Ty} (ht : t = .f32 ∨ t = .bf16x2 ∨ t = .f16x2) {mode : RMode} {sat : Bool} {q : Nat} (hq : q < 2 ^ 32) {c d : Nat}
    {s : Bool} {x : ℚ} (hc : codeExt (fmtOf t) c = .fin s x) (n : Int)
    (h : Rounded (fmtOf t) mode sat q (.fin s (x * 2 ^ clampTo (-1000) 1000 n)) d) : Rounded (fmtOf t) mode sat q (.fin s (x * 2 ^ n)) d := by
  have hrange := magValue_range ht
  have hz : ∀ k : Int, x * 2 ^ k = 0 ↔ x = 0 := fun k => by rw [mul_eq_zero, or_iff_left (two_zpow_pos k).ne']
  have hs : ∀ k : Int, x * 2 ^ k < 0 ↔ x < 0 := fun k => by
    rw [mul_neg_iff, or_iff_right fun h => absurd h.2 (two_zpow_pos k).not_gt, and_iff_left (two_zpow_pos k)]
  have habs : ∀ k : Int, |x * 2 ^ k| = |x| * 2 ^ k := fun k => by rw [abs_mul, abs_of_pos (two_zpow_pos k)]
  simp only [Rounded, hz] at h ⊢
  split
  · next h0 => rwa [if_pos h0] at h
  · next h0 =>
    rw [if_neg h0] at h
    obtain ⟨hlo, hhi⟩ := abs_codeExt_bounds (ieee_of_fp ht) hc h0
    have hbig : ∀ k : Int, 400 ≤ k → magValue (fmtOf t) ((fmtOf t).maxMag + 1) ≤ |x * 2 ^ k| := fun k hk => by
      have hpow := hrange.trans_le (mul_le_mul hlo (zpow_le_zpow_right₀ one_le_two hk) (two_zpow_pos _).le (abs_nonneg x))
      rw [habs]
      exact (le_mul_of_one_le_right ((abs_nonneg x).trans hhi.le) (by norm_num)).trans hpow.le
    have htiny : ∀ k : Int, k ≤ -400 → |x * 2 ^ k| * 2 ^ 32 < magValue (fmtOf t) 1 := fun k hk => by
      have hpow : |x| * 2 ^ k ≤ |x| * 2 ^ (-400 : Int) := mul_le_mul_of_nonneg_left (zpow_le_zpow_right₀ one_le_two hk) (abs_nonneg x)
      have hinv : |x| * 2 ^ 32 * 2 ^ (-400 : Int) < magValue (fmtOf t) 1 := by
        rw [zpow_neg, mul_inv_lt_iff₀ (two_zpow_pos _)]
        linarith
      rw [habs]
      linarith
    have hsign : ∀ k : Int, x * 2 ^ k < 0 ↔ x * 2 ^ n < 0 := fun k => (hs k).trans (hs n).symm
    unfold clampTo at h
    split at h
    · next hn => exact roundsTo_of_tiny ((hz _).not.mpr h0) ((hz _).not.mpr h0) (htiny _ (by decide)) (htiny n (by omega)) (hsign _) h
    · split at h
      · next hn => exact roundsTo_of_beyond hq (hbig _ (by decide)) (hbig n (by omega)) (hsign _) h
      · exact h

/-- A value times a power of two (R149). -/
def Fv.times (x : Fv) (n : Int) : Fv :=
  match x with
  | .fin s g e => .fin s g (e + n)
  | x => x

theorem fsclFn_eq (m : Rnd) (t : Ty) (q : Nat → Nat) (a b : Word) :
    fsclFn m t q a b = arithFn m t q fun i => [(laneVal t a i).times (clampTo (-1000) 1000 b.toInt)] := rfl

theorem Fv.ext_times_fin (s : Bool) (g : Nat) (e n : Int) :
    ((Fv.fin s g e).times n).ext = .fin s (underSign s (g * 2 ^ e) * 2 ^ n) := by
  rw [Fv.times, Fv.ext, zpow_add₀ two_ne_zero, ← mul_assoc, underSign_mul]

/-- FSCL's lanes are the operand's values times a power of two, rounded once (R149). -/
theorem lanesRound_fsclFn {t : Ty} (ht : t = .f32 ∨ t = .bf16x2 ∨ t = .f16x2) (s : State) (v : View) (m : Rnd) (a b : Word) :
    LanesRound s v m t (fsclFn m t (drawn s v m.mode) a b) fun i => match fpLane t a i with
      | .fin neg w => .fin neg (w * 2 ^ b.toInt)
      | e => e := by
  intro i hi
  have hround := lanesRound_arithFn (float_of_fp ht) s v m (fun i => [(laneVal t a i).times (clampTo (-1000) 1000 b.toInt)]) i hi
  rw [← fsclFn_eq] at hround
  have hlane := ext_laneVal_of_float (float_of_fp ht) a i
  dsimp only at hround ⊢
  rw [← hlane]
  cases hx : laneVal t a i with
  | nan | inf => simpa only [exactOf, hx, Fv.times, Fv.ext] using hround
  | fin neg g e =>
    simp only [exactOf, hx, Fv.ext_times_fin] at hround
    rw [hx] at hlane
    exact rounded_scaled ht (srValue_lt s v i) hlane.symm _ hround

/-- Settles O23: each lane is the exact value of its terms, rounded once (`lanesRound_arithFn`), the terms' sum and products being exact
(`Fv.ext_sum`, `Fv.ext_mul`). -/
theorem arithmeticRoundsOnce : Obligations.ArithmeticRoundsOnce := by
  intro s v r m t rd x y z
  refine ⟨fun ht => ?fp, fun ht hf => ?fdot, fun hf => ?flrp⟩
  case fp =>
    have hx := ext_laneVal_of_float (float_of_fp ht)
    refine ⟨fun hf => ?fadd, fun hf => ?fsub, fun hf => ?fmul, fun hf => ?ffma, fun hf => ?fscl⟩
    case fadd => exact delivers_rounded rfl rfl (float_of_fp ht) (fun i => by rw [ext_exactOf_pair, hx, hx]) hf
    case fsub => exact delivers_rounded rfl rfl (float_of_fp ht) (fun i => by rw [ext_exactOf_pair, Fv.ext_neg, hx, hx]) hf
    case fmul => exact delivers_rounded rfl rfl (float_of_fp ht) (fun i => by rw [exactOf, Fv.ext_mul, hx, hx]) hf
    case ffma => exact delivers_rounded rfl rfl (float_of_fp ht) (fun i => by rw [ext_exactOf_pair, Fv.ext_mul, hx, hx, hx]) hf
    case fscl => exact ⟨_, lanesRound_fsclFn ht s v m v.a v.b, delivers_of_fireRnd (f := fun q a b _ => fsclFn m t q a b) rfl rfl hf⟩
  case fdot =>
    have ht' : t ∈ floats := by rcases ht with rfl | rfl | rfl | rfl | rfl <;> decide
    have hz : (laneVal .f32 v.c 0).ext = fpLane .f32 v.c 0 := ext_laneVal_of_float (by decide) v.c 0
    refine delivers_rounded rfl rfl (by decide) (fun _ => ?_) hf
    rw [ext_exactOf_dot (lanes_pos t), List.map_cons, List.map_map, hz, lanes_of_float ht']
    refine congrArg (fun ts => Ext.sum _ (_ :: ts)) (List.map_congr_left fun i _ => ?_)
    rw [Function.comp, Fv.ext_mul, ext_laneVal_of_float ht', ext_laneVal_of_float ht']
  case flrp =>
    have hlane : ∀ w, (laneVal .f32 w 0).ext = fpLane .f32 w 0 := fun w => ext_laneVal_of_float (by decide) w 0
    refine delivers_rounded rfl rfl (by decide) (fun _ => ?_) hf
    change (exactOf _ [(laneVal .f32 v.a 0).mul (oneMinus (laneVal .f32 v.c 0)), (laneVal .f32 v.b 0).mul (laneVal .f32 v.c 0)]).ext = _
    rw [ext_exactOf_pair, Fv.ext_mul, Fv.ext_mul, Fv.ext_oneMinus, hlane, hlane, hlane]

end Sys2Proof.Machine
end

section
/-!
SUPPORT. The order of the codes of a format, and their classes (R145, R147, R148).
-/
namespace Sys2Proof.Machine
open Claims

theorem magValue_nonneg (f : Fmt) (g : Nat) : 0 ≤ magValue f g := magValue_zero f ▸ (magValue_strictMono f).monotone (Nat.zero_le g)

theorem magValue_eq_zero_iff (f : Fmt) {g : Nat} : magValue f g = 0 ↔ g = 0 := by
  rw [← magValue_zero f, (magValue_strictMono f).injective.eq_iff]

/-- A magnitude code under its sign, as a number: what `Fmt.lt` compares. -/
def signedMag (s : Bool) (g : Nat) : Int := if s then -(g : Int) else g

/-- Signed magnitudes are ordered as their values are. -/
theorem underSign_magValue_lt_iff (f : Fmt) (s u : Bool) (g k : Nat) :
    underSign s (magValue f g) < underSign u (magValue f k) ↔ signedMag s g < signedMag u k := by
  have hg := magValue_nonneg f g
  have hk := magValue_nonneg f k
  have hlt : ∀ a b, magValue f a < magValue f b ↔ a < b := fun a b => (magValue_strictMono f).lt_iff_lt
  cases s <;> cases u <;> simp only [underSign, signedMag, if_true, if_false, Bool.false_eq_true]
  case false.false => rw [hlt, Nat.cast_lt]
  case false.true => exact iff_of_false (by linarith) (by omega)
  case true.false =>
    have hzero : (magValue f g = 0 ∧ magValue f k = 0) ↔ g = 0 ∧ k = 0 := by rw [magValue_eq_zero_iff, magValue_eq_zero_iff]
    by_cases h : g = 0 ∧ k = 0
    · obtain ⟨hg0, hk0⟩ := hzero.mpr h
      exact iff_of_false (by linarith) (by omega)
    · refine iff_of_true (lt_of_not_ge fun hle => h (hzero.mp ⟨?_, ?_⟩)) (by omega)
      · linarith
      · linarith
  case true.true => rw [neg_lt_neg_iff, hlt]; omega

theorem codeExt_eq_nan_iff (f : Fmt) (c : Nat) : codeExt f c = .nan ↔ f.isNan c = true := by
  rw [← codeExt_val, Fv.ext_eq_nan_iff, Fmt.val]
  split
  · next h => simp [h, Fv.isNan]
  · next h =>
    refine iff_of_false ?_ h
    split
    · exact Bool.false_ne_true
    · dsimp only
      split <;> exact Bool.false_ne_true

section
variable {f : Fmt} (hf : f.Ieee)
include hf

theorem isNan_iff_of_ieee (c : Nat) : f.isNan c = true ↔ f.maxMag + 1 < f.mag c := by
  rw [Fmt.isNan, show f.inf = some (f.maxMag + 1) from hf]
  exact decide_eq_true_iff

/-- The value of a code that is no NaN. -/
theorem codeExt_of_not_nan {c : Nat} (hc : ¬f.isNan c = true) : codeExt f c =
    if f.mag c = f.maxMag + 1 then .inf (f.sign c) else .fin (f.sign c) (underSign (f.sign c) (magValue f (f.mag c))) := by
  rw [isNan_iff_of_ieee hf] at hc
  rw [codeExt_of_ieee hf]
  by_cases h : f.mag c = f.maxMag + 1
  · rw [if_neg (by omega), if_pos h, if_pos h]
  · rw [if_pos (by omega), if_neg h]

theorem codeExt_eq_zero_iff {c : Nat} (hc : ¬f.isNan c = true) (s : Bool) : codeExt f c = .fin s 0 ↔ f.sign c = s ∧ f.mag c = 0 := by
  rw [codeExt_of_not_nan hf hc]
  split
  · next h => exact iff_of_false nofun (by omega)
  · rw [Ext.fin.injEq, underSign_eq_zero_iff, magValue_eq_zero_iff]

/-- Numbers and infinities are ordered as their signed magnitudes are. -/
theorem less_codeExt_of_not_nan {x y : Nat} (hx : ¬f.isNan x = true) (hy : ¬f.isNan y = true) :
    (codeExt f x).less (codeExt f y) = decide (signedMag (f.sign x) (f.mag x) < signedMag (f.sign y) (f.mag y)) := by
  have hmx := (isNan_iff_of_ieee hf x).not.mp hx
  have hmy := (isNan_iff_of_ieee hf y).not.mp hy
  rw [codeExt_of_not_nan hf hx, codeExt_of_not_nan hf hy]
  generalize f.mag x = g at *
  generalize f.mag y = k at *
  generalize f.sign x = s
  generalize f.sign y = u
  have hlt := underSign_magValue_lt_iff f s u g k
  split <;> split
  case isFalse.isFalse => exact decide_eq_decide.mpr hlt
  -- An infinity's magnitude is above every number's.
  all_goals cases s <;> cases u <;> simp [Ext.less, signedMag] <;> omega

/-- The model's comparison is that of the values, none of which is NaN (R147). -/
theorem less_codeExt (x y : Nat) : (codeExt f x).less (codeExt f y) = (!(f.isNan x || f.isNan y) && f.lt x y) := by
  by_cases hx : f.isNan x = true
  · rw [(codeExt_eq_nan_iff f x).mpr hx, hx]
    rfl
  by_cases hy : f.isNan y = true
  · rw [(codeExt_eq_nan_iff f y).mpr hy, hy, Bool.or_true]
    cases codeExt f x with
    | inf s => cases s <;> rfl
    | nan | fin => rfl
  · rw [less_codeExt_of_not_nan hf hx hy, Bool.eq_false_iff.mpr hx, Bool.eq_false_iff.mpr hy]
    rfl

/-- The key orders the codes by value, −0 below +0 (R145). -/
theorem below_codeExt_iff {x y : Nat} (hx : ¬f.isNan x = true) (hy : ¬f.isNan y = true) :
    (codeExt f x).Below (codeExt f y) ↔ f.key x < f.key y := by
  rw [Ext.Below, less_codeExt_of_not_nan hf hx hy, codeExt_eq_zero_iff hf hx, codeExt_eq_zero_iff hf hy, Fmt.key, Fmt.key, decide_eq_true_iff]
  cases f.sign x <;> cases f.sign y <;> simp [signedMag] <;> omega

end

end Sys2Proof.Machine
end

section
/-!
PROOFS. FMIN and FMAX, and FSGN (R145, R146).
-/
namespace Sys2Proof.Machine
open Claims

-- FMIN and FMAX.

theorem fminmaxCode_lt {f : Fmt} (hs : f.Sound) (nan max : Bool) {x y : Nat} (hx : x < 2 ^ f.bits) (hy : y < 2 ^ f.bits) :
    fminmaxCode f nan max x y < 2 ^ f.bits := by
  have hite : ∀ {p : Prop} [Decidable p] {a b : Nat}, a < 2 ^ f.bits → b < 2 ^ f.bits → (if p then a else b) < 2 ^ f.bits := fun ha hb => by
    split
    · exact ha
    · exact hb
  rw [fminmaxCode.eq_def]
  cases f.isNan x <;> cases f.isNan y
  · exact hite (hite hy hx) (hite hy hx)
  · exact hite hs.nan hx
  · exact hite hs.nan hy
  · exact hs.nan

/-- What FMIN and FMAX pick (R145): the second operand where `takesY`, NaN being treated as `nan` says. -/
def Picks (f : Fmt) (nan : Bool) (x y c : Nat) (takesY : Prop) : Prop :=
  (codeExt f x = .nan ∧ codeExt f y = .nan → c = f.nan) ∧
  (codeExt f x = .nan ∧ codeExt f y ≠ .nan → c = if nan then f.nan else y) ∧
  (codeExt f x ≠ .nan ∧ codeExt f y = .nan → c = if nan then f.nan else x) ∧
  (codeExt f x ≠ .nan ∧ codeExt f y ≠ .nan → (takesY → c = y) ∧ (¬takesY → c = x))

theorem picks_fminmaxCode {f : Fmt} (hf : f.Ieee) (nan max : Bool) (x y : Nat) :
    Picks f nan x y (fminmaxCode f nan max x y)
      (if max then (codeExt f x).Below (codeExt f y) else (codeExt f y).Below (codeExt f x)) := by
  simp only [Picks, ne_eq, codeExt_eq_nan_iff, Bool.not_eq_true]
  refine ⟨fun ⟨hx, hy⟩ => ?_, fun ⟨hx, hy⟩ => ?_, fun ⟨hx, hy⟩ => ?_, fun ⟨hx, hy⟩ => ?_⟩
  · simp only [fminmaxCode, hx, hy]
  · simp only [fminmaxCode, hx, hy]
  · simp only [fminmaxCode, hx, hy]
  · rw [below_codeExt_iff hf (Bool.eq_false_iff.mp hx) (Bool.eq_false_iff.mp hy),
      below_codeExt_iff hf (Bool.eq_false_iff.mp hy) (Bool.eq_false_iff.mp hx)]
    simp only [fminmaxCode, hx, hy]
    cases max with
    | true => exact ⟨fun h => if_pos h, fun h => if_neg h⟩
    | false => exact ⟨fun h => if_pos h, fun h => if_neg h⟩

/-- Every lane of the result is what is picked. -/
theorem fpCode_fminmaxFn {t : Ty} (ht : t ∈ floats) (nan max : Bool) (a b : Word) {i : Nat} (hi : i < fpLanes t) :
    fpCode t (fminmaxFn nan max t a b) i = fminmaxCode (fmtOf t) nan max (fpCode t a i) (fpCode t b i) := by
  have hlt := fminmaxCode_lt (fmtOf_sound t) nan max (fpCode_lt t a i) (fpCode_lt t b i)
  rw [← laneNat_of_float ht a, ← laneNat_of_float ht b] at hlt ⊢
  exact fpCode_packCodes ht (fun i => fminmaxCode (fmtOf t) nan max (laneNat t a i) (laneNat t b i)) hi hlt

-- FSGN.

/-- The bits of a word by the lanes they stand in. -/
theorem getLsbD_eq_testBit_fpCode (t : Ty) (x : Word) (n : Nat) :
    x.getLsbD n = (fpCode t x (n / (fmtOf t).bits)).testBit (n % (fmtOf t).bits) := by
  have hw := Nat.mod_lt n (fmtOf_sound t).wide
  rw [fpCode, BitVec.testBit_toNat, BitVec.getLsbD_extractLsb', decide_eq_true hw, Bool.true_and, Nat.div_add_mod]

/-- A sign over the magnitude of a code changes the sign bit alone. -/
theorem testBit_signed_mag {f : Fmt} (s : Bool) (x : Nat) {k : Nat} (hk : k < f.bits) :
    (f.signed s (f.mag x)).testBit k = if k = f.bits - 1 then s else x.testBit k := by
  have hmag : f.mag x < 2 ^ (f.bits - 1) := Nat.mod_lt _ (Nat.two_pow_pos _)
  have hlow : (f.mag x).testBit k = (decide (k < f.bits - 1) && x.testBit k) := Nat.testBit_mod_two_pow ..
  rw [Fmt.signed]
  by_cases h : k = f.bits - 1
  · subst h
    have hzero := Nat.testBit_lt_two_pow hmag
    cases s with
    | true => rw [if_pos rfl, if_pos rfl, Nat.testBit_two_pow_add_eq, hzero]; rfl
    | false => rw [if_pos rfl]; exact hzero
  · rw [if_neg h]
    rw [decide_eq_true (by omega), Bool.true_and] at hlow
    cases s with
    | true => rw [if_pos rfl, Nat.testBit_two_pow_add_gt (by omega), hlow]
    | false => exact hlow

/-- The sign that FSGN gives (R146). -/
def sgnOf (f : SgnFn) (sx sy : Bool) : Bool :=
  match f with
  | .copy => sy
  | .neg => !sx
  | .abs => false
  | .xsgn => sx != sy

theorem fsgnFn_eq (f : SgnFn) (t : Ty) (a b : Word) : fsgnFn f t a b = packCodes t fun i =>
    (fmtOf t).signed (sgnOf f ((fmtOf t).sign (laneNat t a i)) ((fmtOf t).sign (laneNat t b i))) ((fmtOf t).mag (laneNat t a i)) := by
  cases f <;> rfl

theorem signed_mag_lt {f : Fmt} (hs : f.Sound) (s : Bool) (x : Nat) : f.signed s (f.mag x) < 2 ^ f.bits :=
  signCode_lt hs s (Nat.mod_lt _ (Nat.two_pow_pos _))

theorem sign_eq_testBit (f : Fmt) (x : Nat) : f.sign x = x.testBit (f.bits - 1) := (Nat.testBit_eq_decide_div_mod_eq ..).symm

theorem getLsbD_fsgnFn {t : Ty} (ht : t ∈ floats) (f : SgnFn) (a b : Word) {n : Nat} (hn : n < 32) :
    (fsgnFn f t a b).getLsbD n =
      if n % (fmtOf t).bits = (fmtOf t).bits - 1 then sgnOf f (a.getLsbD n) (b.getLsbD n) else a.getLsbD n := by
  have hw := (fmtOf_sound t).wide
  have hi : n / (fmtOf t).bits < fpLanes t := by
    have hword := width_mul_lanes t
    rw [width_of_float ht, lanes_of_float ht] at hword
    exact Nat.div_lt_of_lt_mul (hword ▸ hn)
  rw [getLsbD_eq_testBit_fpCode t (fsgnFn f t a b), getLsbD_eq_testBit_fpCode t a, getLsbD_eq_testBit_fpCode t b, fsgnFn_eq,
    fpCode_packCodes ht _ hi (signed_mag_lt (fmtOf_sound t) _ _), laneNat_of_float ht, laneNat_of_float ht,
    testBit_signed_mag _ _ (Nat.mod_lt n hw), sign_eq_testBit, sign_eq_testBit]
  split
  · next h => rw [h]
  · rfl

/-- Settles O24: FMIN and FMAX pick by the key of the codes, which orders them by value (`below_codeExt_iff`); FSGN moves the sign bit of each
lane. -/
theorem minMaxAndSigns : Obligations.MinMaxAndSigns := by
  intro s v r t nan f ht x y below picks
  have hpick : ∀ max i, i < fpLanes t → Picks (fmtOf t) nan (fpCode t v.a i) (fpCode t v.b i) (fpCode t (fminmaxFn nan max t v.a v.b) i)
      (if max then (x i).Below (y i) else (y i).Below (x i)) := fun max i hi => by
    rw [fpCode_fminmaxFn (float_of_fp ht) nan max v.a v.b hi]
    exact picks_fminmaxCode (ieee_of_fp ht) nan max _ _
  refine ⟨fun hf => ⟨_, fun i hi => hpick false i hi, ?fmin⟩, fun hf => ⟨_, fun i hi => hpick true i hi, ?fmax⟩,
    fun hf => ⟨fsgnFn f t v.a v.b, ?fsgn, ?bits⟩⟩
  case fmin => exact delivers_of_fireFn rfl rfl hf (by decide)
  case fmax => exact delivers_of_fireFn rfl rfl hf (by decide)
  case fsgn => exact delivers_of_fireFn (f := fun a b _ => fsgnFn f t a b) rfl rfl hf (by decide)
  case bits =>
    intro n hn
    rw [getLsbD_fsgnFn (float_of_fp ht) f v.a v.b hn]
    cases f <;> rfl

end Sys2Proof.Machine
end

section
/-!
PROOFS. FCMP and FCLS (R147, R148).
-/
namespace Sys2Proof.Machine
open Claims

/-- The condition of FCMP on values (R147). -/
def condOf (cc : FCond) (x y : Ext) : Bool :=
  match cc with
  | .eq => decide (x ≠ .nan ∧ y ≠ .nan) && !x.less y && !y.less x
  | .ne => decide (x = .nan ∨ y = .nan) || x.less y || y.less x
  | .lt => x.less y
  | .le => decide (x ≠ .nan ∧ y ≠ .nan) && !y.less x
  | .gt => y.less x
  | .ge => decide (x ≠ .nan ∧ y ≠ .nan) && !x.less y
  | .un => decide (x = .nan ∨ y = .nan)
  | .ord => decide (x ≠ .nan ∧ y ≠ .nan)

/-- The model's condition on codes is that on their values. -/
theorem fcondHolds_eq {f : Fmt} (hf : f.Ieee) (cc : FCond) (x y : Nat) : fcondHolds f cc x y = condOf cc (codeExt f x) (codeExt f y) := by
  have hun : decide (codeExt f x = .nan ∨ codeExt f y = .nan) = (f.isNan x || f.isNan y) := by
    simp only [codeExt_eq_nan_iff, Bool.decide_or, Bool.decide_eq_true]
  have hord : decide (codeExt f x ≠ .nan ∧ codeExt f y ≠ .nan) = !(f.isNan x || f.isNan y) := by
    rw [← hun, ← decide_not]
    exact decide_eq_decide.mpr not_or.symm
  have hxy := less_codeExt hf x y
  have hyx := less_codeExt hf y x
  rw [Bool.or_comm] at hyx
  cases cc <;> simp only [fcondHolds, condOf, hun, hord, hxy, hyx]
  all_goals cases (f.isNan x || f.isNan y) <;> rfl

theorem fpCode_fcmpFn {t : Ty} (ht : t ∈ floats) (cc : FCond) (a b : Word) {i : Nat} (hi : i < fpLanes t) :
    fpCode t (fcmpFn cc t a b) i = if fcmpLane cc t a b i then 2 ^ (fmtOf t).bits - 1 else 0 := by
  have hpos := Nat.two_pow_pos (fmtOf t).bits
  rw [← width_of_float ht] at hpos ⊢
  refine fpCode_packCodes ht (fun i => if fcmpLane cc t a b i then 2 ^ t.width - 1 else 0) hi ?_
  rw [← width_of_float ht]
  split <;> omega

theorem fcmpLane_eq {t : Ty} (ht : t = .f32 ∨ t = .bf16x2 ∨ t = .f16x2) (cc : FCond) (a b : Word) (i : Nat) :
    fcmpLane cc t a b i = condOf cc (fpLane t a i) (fpLane t b i) := by
  rw [fcmpLane, laneNat_of_float (float_of_fp ht), laneNat_of_float (float_of_fp ht), fcondHolds_eq (ieee_of_fp ht)]
  rfl

theorem all_range_eq (n : Nat) {p q : Nat → Bool} (h : ∀ i, i < n → p i = q i) : (List.range n).all p = decide (∀ i, i < n → q i = true) := by
  rw [Bool.eq_iff_iff, List.all_eq_true, decide_eq_true_iff]
  exact forall_congr' fun i => by rw [List.mem_range]; exact forall_congr' fun hi => by rw [h i hi]

-- FCLS.

/-- The class of a value (R148), the magnitude `g` telling subnormal from normal and quiet from signalling. -/
def fpClass (f : Fmt) (g : Nat) (x : Ext) : Nat :=
  match x with
  | .inf neg => if neg then 0 else 7
  | .fin neg w => if w = 0 then (if neg then 3 else 4) else if g < 2 ^ f.m then (if neg then 2 else 5) else (if neg then 1 else 6)
  | .nan => if g / 2 ^ (f.m - 1) % 2 = 1 then 9 else 8

theorem classBit_eq {f : Fmt} (hf : f.Ieee) (c : Nat) : classBit f c = fpClass f (f.mag c) (codeExt f c) := by
  unfold classBit
  dsimp only
  split
  · next hn => rw [(codeExt_eq_nan_iff f c).mpr hn, fpClass]
  · next hn =>
    rw [codeExt_of_not_nan hf hn]
    simp only [show f.inf = some (f.maxMag + 1) from hf, Option.some.injEq]
    split
    · rfl
    · simp only [fpClass, underSign_eq_zero_iff, magValue_eq_zero_iff, Nat.div_eq_zero_iff_lt (Nat.two_pow_pos f.m)]

theorem classBit_le (f : Fmt) (c : Nat) : classBit f c ≤ 9 := by
  unfold classBit
  dsimp only
  repeat' split
  all_goals decide

theorem fpCode_fclsFn {t : Ty} (ht : t = .f32 ∨ t = .bf16x2 ∨ t = .f16x2) (a : Word) {i : Nat} (hi : i < fpLanes t) :
    fpCode t (fclsFn t a) i = 2 ^ fpClass (fmtOf t) ((fmtOf t).mag (fpCode t a i)) (fpLane t a i) := by
  have hbits : 9 < (fmtOf t).bits := by rcases ht with rfl | rfl | rfl <;> decide
  have hlt : 2 ^ classBit (fmtOf t) (laneNat t a i) < 2 ^ (fmtOf t).bits :=
    Nat.pow_lt_pow_right (by decide) ((classBit_le (fmtOf t) (laneNat t a i)).trans_lt hbits)
  rw [fclsFn, fpCode_packCodes (float_of_fp ht) (fun i => 2 ^ classBit (fmtOf t) (laneNat t a i)) hi hlt, laneNat_of_float (float_of_fp ht), classBit_eq (ieee_of_fp ht)]
  rfl

theorem fclsAny_eq {t : Ty} (ht : t ∈ floats) (a : Word) : fclsAny t a = decide (∃ i, i < fpLanes t ∧ fpLane t a i = .nan) := by
  rw [Bool.eq_iff_iff, fclsAny, List.any_eq_true, decide_eq_true_iff]
  exact exists_congr fun i => by rw [List.mem_range, lanes_of_float ht, laneNat_of_float ht, fpLane, codeExt_eq_nan_iff]

/-- Settles O25: the model's conditions and classes of codes are those of their values (`fcondHolds_eq`, `classBit_eq`). -/
theorem compareAndClassify : Obligations.CompareAndClassify := by
  intro s v r t ht x y f
  refine ⟨fun cc h hh hf => ?fcmp, fun hf => ?fcls⟩
  case fcmp =>
    have hlane : ∀ i, i < fpLanes t → fcmpLane cc t v.a v.b i = h i := fun i hi => by
      rw [fcmpLane_eq ht, hh i hi]
      cases cc <;> rfl
    refine ⟨fcmpFn cc t v.a v.b, fun i hi => by rw [fpCode_fcmpFn (float_of_fp ht) cc v.a v.b hi, hlane i hi], ?_⟩
    refine delivers_of_fireAlu rfl rfl rfl hf (by decide) ?_
    rw [← all_range_eq (fpLanes t) hlane, ← lanes_of_float (float_of_fp ht)]
    rfl
  case fcls =>
    refine ⟨fclsFn t v.a, ?_, fun i hi => ?_⟩
    · refine delivers_of_fireAlu rfl rfl rfl hf (by decide) ?_
      rw [← fclsAny_eq (float_of_fp ht)]
      rfl
    · refine (fpCode_fclsFn ht v.a hi).trans (congrArg (2 ^ ·) ?_)
      change fpClass f _ (x i) = _
      cases x i <;> rfl

end Sys2Proof.Machine
end

section
/-!
SUPPORT. Rounding to an integer (R114, R150), and conversions of one lane (R98, R99, R114, R154).
-/
namespace Sys2Proof.Machine
open Claims

-- Rounding to an integer.

/-- The integer that a fraction rounds to lies next to its floor, under its sign. -/
theorem exists_roundInt (mode : RMode) (q : Nat) (neg : Bool) (n d : Nat) :
    ∃ k, k ≤ n / d + 1 ∧ roundInt mode q neg n d = if neg then -(k : Int) else k := by
  refine ⟨if goesUp mode neg q (n / d % 2 = 0) (n - n / d * d) d then n / d + 1 else n / d, ?_, rfl⟩
  split <;> omega

theorem roundInt_cast (mode : RMode) (q : Nat) (neg : Bool) (n d : Nat) :
    (roundInt mode q neg n d : ℚ) = underSign neg (roundInt mode q neg n d).natAbs := by
  obtain ⟨k, -, hk⟩ := exists_roundInt mode q neg n d
  rw [hk]
  cases neg <;> simp [underSign]

/-- The model's rounding to an integer is that of the exact value. -/
theorem intRound_underSign (mode : RMode) (q : Nat) (neg : Bool) (n : Nat) {d : Nat} (hd : 0 < d) :
    intRound mode q (underSign neg (n / d)) = roundInt mode q neg n d := by
  rcases Nat.eq_zero_or_pos n with rfl | hn
  · have hzero : underSign neg (((0 : Nat) : ℚ) / d) = 0 := by rw [underSign_eq_zero_iff, Nat.cast_zero, zero_div]
    rw [hzero]
    simp [intRound, roundInt, goesUp, toUpper]
  · have hdq : (0 : ℚ) < d := by exact_mod_cast hd
    have hx : (0 : ℚ) < n / d := div_pos (by exact_mod_cast hn) hdq
    have hneg : decide (underSign neg ((n : ℚ) / d) < 0) = neg := by simp [underSign_lt_zero_iff neg hx]
    have hfloor : ⌊(n : ℚ) / d⌋ = ((n / d : Nat) : Int) := by rw [Rat.floor_natCast_div_natCast, Int.natCast_div]
    have hfrac : (n : ℚ) / d - ((n / d : Nat) : Int) = ((n - n / d * d : Nat) : ℚ) / d := by
      rw [Nat.cast_sub (Nat.div_mul_le_self _ _), Nat.cast_mul, sub_div, mul_div_cancel_right₀ _ hdq.ne', Int.cast_natCast]
    have heven : decide (((n / d : Nat) : Int) % 2 = 0) = decide (n / d % 2 = 0) := decide_eq_decide.mpr (by omega)
    rw [intRound, abs_underSign neg hx.le, hfloor, hneg, hfrac, heven, ← goesUp_eq_toUpper mode neg q _ _ hd, roundInt]
    simp only [underSign_lt_zero_iff neg hx, Nat.cast_ite, Nat.cast_add, Nat.cast_one]

theorem intRound_intCast (mode : RMode) (q : Nat) (n : Int) : intRound mode q n = n := by
  have h := intRound_underSign mode q (decide (n < 0)) n.natAbs Nat.one_pos
  rw [Nat.cast_one, div_one, underSign_natAbs] at h
  rw [h]
  simp only [roundInt, Nat.div_one, Nat.mul_one, Nat.sub_self, goesUp, if_true, Bool.false_eq_true, if_false, decide_eq_true_eq]
  omega

-- Conversion to integers.

/-- The integer that a value converts to in an integer lane (R99, R114). -/
def intOf (t : Ty) (mode : RMode) (q : Nat) (x : Ext) : Int :=
  match x with
  | .nan => 0
  | .inf neg => if neg then laneMin t else laneMax t
  | .fin _ x => max (laneMin t) (min (laneMax t) (intRound mode q x))

theorem toIntLane_eq {t : Ty} (ht : t ∈ pint) (mode : RMode) (q : Nat) (v : Fv) : toIntLane t mode q v = intOf t mode q v.ext := by
  cases v with
  | nan | inf => rfl
  | fin s m e =>
    obtain ⟨hle, -, -⟩ := pint_range ht
    have h : toIntLane t mode q (.fin s m e) = clampTo (laneMin t) (laneMax t) (roundInt mode q s (fracOf m e).1 (fracOf m e).2) := rfl
    rw [h, clampTo_eq hle, ← intRound_underSign mode q s _ (fracOf_pos m e), fracOf_value]
    rfl

-- Conversion to E8M0.

/-- The E8M0 code of a positive fraction. -/
def e8m0Code (mode : RMode) (sat : Bool) (q n d : Nat) : Nat :=
  let k := floorLog2 n d
  let ov := if sat then 0xFE else 0xFF
  if k < -127 then 0x00
  else if 127 < k then (if goesUp mode false q false 1 1 then ov else 0xFE)
  else
    let code := (k + 127).toNat
    let (n', d') := if 0 ≤ k then (n, d * 2 ^ k.toNat) else (n * 2 ^ (-k).toNat, d)
    if goesUp mode false q (code % 2 = 0 && code != 0xFE) (n' - d') d' then (if code = 0xFE then ov else code + 1) else code

theorem roundE8m0_fin (mode : RMode) (sat : Bool) (q : Nat) (s : Bool) (m : Nat) (e : Int) :
    roundE8m0 mode sat q (.fin s m e) = if s || m = 0 then 0xFF else e8m0Code mode sat q (fracOf m e).1 (fracOf m e).2 := rfl

/-- How far a number is above the power of two below it, as a fraction of that power. -/
theorem scaled_sub_one {n d : Nat} {k : Int} (h : (2 : ℚ) ^ k ≤ n / d) (hd : 0 < d) :
    let p : Nat × Nat := if 0 ≤ k then (n, d * 2 ^ k.toNat) else (n * 2 ^ (-k).toNat, d)
    ((p.1 - p.2 : Nat) : ℚ) / p.2 = n / d / 2 ^ k - 1 := by
  have hval := scaled_frac n d k
  have hpos := scaled_frac_pos n hd k
  dsimp only
  generalize (if 0 ≤ k then (n, d * 2 ^ k.toNat) else (n * 2 ^ (-k).toNat, d) : Nat × Nat) = p at *
  have hp : (0 : ℚ) < p.2 := by exact_mod_cast hpos
  have hle : (p.2 : ℚ) ≤ p.1 := by rwa [← one_le_div hp, hval, one_le_div (two_zpow_pos k)]
  rw [Nat.cast_sub (by exact_mod_cast hle), sub_div, div_self hp.ne', hval]

theorem e8m0Code_spec (mode : RMode) (sat : Bool) {q : Nat} (hq : q < 2 ^ 32) {n d : Nat} (hn : 0 < n) (hd : 0 < d) :
    Converts .e8m0x4 mode sat q (.fin false (n / d)) (e8m0Code mode sat q n d) := by
  obtain ⟨hlo, hhi⟩ := floorLog2_spec hn hd
  have hx : (0 : ℚ) < n / d := div_pos (by exact_mod_cast hn) (by exact_mod_cast hd)
  have hle : ∀ {a b : Int}, a ≤ b → (2 : ℚ) ^ a ≤ 2 ^ b := zpow_le_zpow_right₀ one_le_two
  unfold Converts e8m0Code
  dsimp only
  rw [if_neg (not_le.mpr hx)]
  generalize floorLog2 n d = k at *
  split
  · next hlt =>
    have hk : k < -127 := (zpow_lt_zpow_iff_right₀ one_lt_two).mp (hlo.trans_lt hlt)
    rw [if_pos hk]
  · next hge =>
    have hk0 : -127 ≤ k := not_lt.mp fun hk => hge (hhi.trans_le (hle (by omega)))
    rw [if_neg hk0.not_gt]
    split
    · next hk =>
      -- Beyond the greatest code.
      have hfrac : (1 : ℚ) ≤ n / d / 2 ^ ((0xFE : Int) - 127) - 1 := by
        have htwo : (2 : ℚ) * 2 ^ ((0xFE : Int) - 127) ≤ n / d := by
          rw [← zpow_one_add₀ two_ne_zero]
          exact (hle (by omega)).trans hlo
        rw [← le_div_iff₀ (two_zpow_pos _)] at htwo
        linarith
      refine ⟨0xFE, le_rfl, (hle (by omega)).trans hlo, .inr rfl, ?_⟩
      rw [show decide ((0xFE : Int) % 2 = 0 ∧ (0xFE : Int) ≠ 0xFE) = false by decide, ← goesUp_beyond mode false hq hfrac]
      split
      · rw [if_pos rfl]
        split <;> rfl
      · rfl
    · next hk =>
      have hcode : k + 127 - 127 = k := by omega
      refine ⟨k + 127, by omega, by rwa [hcode], .inl ?_, ?_⟩
      · rwa [show k + 127 - 126 = k + 1 by omega]
      · rw [hcode]
        have heven : decide ((k + 127) % 2 = 0 ∧ k + 127 ≠ 0xFE) = (decide ((k + 127).toNat % 2 = 0) && (k + 127).toNat != 0xFE) := by
          rw [Bool.eq_iff_iff, decide_eq_true_iff, Bool.and_eq_true, decide_eq_true_iff, bne_iff_ne]
          omega
        rw [← scaled_sub_one hlo hd, heven, ← goesUp_eq_toUpper mode false q _ _ (scaled_frac_pos n hd k)]
        generalize goesUp mode false q _ _ _ = up
        split
        · split <;> split <;> omega
        · omega

theorem roundE8m0_spec (mode : RMode) (sat : Bool) {q : Nat} (hq : q < 2 ^ 32) (v : Fv) :
    Converts .e8m0x4 mode sat q v.ext (roundE8m0 mode sat q v) := by
  cases v with
  | nan => rfl
  | inf s => cases s <;> cases sat <;> rfl
  | fin s m e =>
    rw [roundE8m0_fin, Fv.ext]
    by_cases h : s = true ∨ m = 0
    · have hx : underSign s ((m : ℚ) * 2 ^ e) ≤ 0 := by
        rcases h with rfl | rfl
        · exact neg_nonpos.mpr (mul_nonneg (Nat.cast_nonneg m) (two_zpow_pos e).le)
        · exact ((underSign_scaled_eq_zero_iff s 0 e).mpr rfl).le
      have hsm : (s || decide (m = 0)) = true := by rwa [Bool.or_eq_true, decide_eq_true_iff]
      rw [Converts, if_pos hx, if_pos hsm]
    · obtain ⟨hs, hm⟩ := not_or.mp h
      obtain rfl : s = false := Bool.eq_false_iff.mpr hs
      have hspec := e8m0Code_spec mode sat hq (fracOf_num_pos hm e) (fracOf_pos m e)
      rw [fracOf_value] at hspec
      rw [Bool.false_or, decide_eq_false hm]
      exact hspec

theorem e8m0Code_lt (mode : RMode) (sat : Bool) (q n d : Nat) : e8m0Code mode sat q n d < 2 ^ 8 := by
  unfold e8m0Code
  dsimp only
  repeat' split
  all_goals omega

theorem roundE8m0_lt (mode : RMode) (sat : Bool) (q : Nat) (v : Fv) : roundE8m0 mode sat q v < 2 ^ 8 := by
  cases v with
  | nan => exact Nat.lt_succ_self 0xFF
  | inf s =>
    rw [roundE8m0]
    split_ifs <;> decide
  | fin s m e =>
    rw [roundE8m0_fin]
    split
    · decide
    · exact e8m0Code_lt mode sat q _ _

-- Conversion of one lane.

theorem converts_toIntLane {t : Ty} (ht : t ∈ pint) (mode : RMode) (sat : Bool) (q : Nat) (v : Fv) :
    Converts t mode sat q v.ext (toIntLane t mode q v % 2 ^ t.width).toNat := by
  have hpos : (0 : Int) < 2 ^ t.width := by positivity
  have hint : Converts t mode sat q v.ext (toIntLane t mode q v % 2 ^ t.width).toNat ↔
      ((toIntLane t mode q v % 2 ^ t.width).toNat : Int) = intOf t mode q v.ext % 2 ^ t.width := by
    simp only [pint, List.mem_cons, List.not_mem_nil, or_false] at ht
    cases v <;> rcases ht with rfl | rfl | rfl | rfl | rfl | rfl <;> rfl
  rw [hint, Int.toNat_of_nonneg (Int.emod_nonneg _ hpos.ne'), toIntLane_eq ht]

/-- The code that a lane is converted to is the one that RoundTo or the rounding to integers gives (R99, R114, R154). -/
theorem convCode_spec (t : Ty) (mode : RMode) (sat : Bool) {q : Nat} (hq : q < 2 ^ 32) (v : Fv) :
    Converts t mode sat q v.ext (convCode t mode sat q v) ∧ convCode t mode sat q v < 2 ^ t.width := by
  have hround := round_spec (fmtOf_sound t) mode sat hq v
  have hlt := lt_of_rounded (fmtOf_sound t) hround
  have hint : (toIntLane t mode q v % 2 ^ t.width).toNat < 2 ^ t.width := by
    have hpos : (0 : Int) < 2 ^ t.width := by positivity
    have := Int.emod_lt_of_pos (toIntLane t mode q v) hpos
    zify
    omega
  cases t with
  | i32 | u32 | i16x2 | u16x2 | i8x4 | u8x4 => exact ⟨converts_toIntLane (by decide) mode sat q v, hint⟩
  | e8m0x4 => exact ⟨roundE8m0_spec mode sat hq v, roundE8m0_lt mode sat q v⟩
  | f32 | bf16x2 | f16x2 | e4m3x4 | e5m2x4 | e2m1x8 => exact ⟨hround, hlt⟩

end Sys2Proof.Machine
end

section
/-!
PROOFS. FCVT and FRND (R114, R150, R153, R154).
-/
namespace Sys2Proof.Machine
open Claims

-- FCVT.

theorem anyWidth_eq (t : Ty) : anyWidth t = t.width := by cases t <;> rfl
theorem anyLanes_eq (t : Ty) : anyLanes t = t.lanes := by cases t <;> rfl

theorem ext_laneVal (t : Ty) (x : Word) (i : Nat) : (laneVal t x i).ext = anyLane t x i := by
  cases t with
  | i32 | u32 | i16x2 | u16x2 | i8x4 | u8x4 =>
    have hint : ∀ n : Int, (Fv.ofInt n).ext = .fin (decide (n < 0)) n := fun n => by
      rw [Fv.ofInt, Fv.ext, zpow_zero, mul_one, underSign_natAbs]
    refine (hint _).trans ?_
    rw [lane_eq_laneInt (by decide)]
    rfl
  | e8m0x4 =>
    rw [laneVal, laneNat_eq (w := 8) rfl, e8m0Val, apply_ite Fv.ext, anyLane]
    simp [Fv.ext, underSign]
  | f32 | bf16x2 | f16x2 | e4m3x4 | e5m2x4 | e2m1x8 => exact ext_laneVal_of_float (by decide) x i

/-- A lane of FCVT's result: one of source B, where it narrows and the lane is not one of those converted, or a converted one (R154). -/
theorem lane_fcvtFn (src dst : Ty) (mode : RMode) (sat : Bool) (off : Nat) {q : Nat → Nat} (hq : ∀ j, q j < 2 ^ 32) (a b : Word) {i : Nat}
    (hi : i < dst.lanes) :
    ((fcvtFn src dst mode sat off q a b).extractLsb' (dst.width * i) dst.width).toNat =
      if src.lanes < dst.lanes ∧ ¬(off ≤ i ∧ i < off + src.lanes) then (b.extractLsb' (dst.width * i) dst.width).toNat
      else convCode dst mode sat (q i)
        (laneVal src a (if src.lanes < dst.lanes then i - off else if dst.lanes < src.lanes then off + i else i)) := by
  have hconv : ∀ x, convCode dst mode sat (q i) x % 2 ^ dst.width = convCode dst mode sat (q i) x := fun x =>
    Nat.mod_eq_of_lt (convCode_spec dst mode sat (hq i) x).2
  unfold fcvtFn
  dsimp only
  split
  · next hnarrow =>
    rw [lane_packCodes _ hi]
    by_cases hin : off ≤ i ∧ i < off + src.lanes
    · rw [if_pos hin, if_neg (fun h => h.2 hin), hconv]
    · rw [if_neg hin, if_pos ⟨hnarrow, hin⟩, laneNat_eq rfl, Nat.mod_eq_of_lt (BitVec.isLt _)]
  · next hnarrow =>
    have hall : ¬(src.lanes < dst.lanes ∧ ¬(off ≤ i ∧ i < off + src.lanes)) := fun h => hnarrow h.1
    rw [if_neg hall]
    split <;> rw [lane_packCodes _ hi, hconv]

/-- The mode and the offset that FCVT's immediate names (R65, R154). -/
theorem fcvt_imm {mode : RMode} {off code : Nat} {imm : BitVec 16} (hm : (mode, code) ∈ [(RMode.rn, 0), (.rz, 1), (.rd, 2), (.ru, 3), (.sr, 4)])
    (hi : imm = BitVec.ofNat 16 (8 * off + code)) (ho : off < 8) : modeOf (imm.toNat % 8) = mode ∧ imm.toNat / 8 % 8 = off := by
  obtain ⟨hmode, hcode⟩ : modeOf code = mode ∧ code < 8 := by
    simp only [List.mem_cons, Prod.mk.injEq, List.not_mem_nil, or_false] at hm
    rcases hm with ⟨rfl, rfl⟩ | ⟨rfl, rfl⟩ | ⟨rfl, rfl⟩ | ⟨rfl, rfl⟩ | ⟨rfl, rfl⟩ <;> decide
  have himm : imm.toNat = 8 * off + code := by
    rw [hi, BitVec.toNat_ofNat]
    exact Nat.mod_eq_of_lt (by omega)
  rw [himm, show (8 * off + code) % 8 = code by omega]
  exact ⟨hmode, by omega⟩

-- FRND.

/-- FRND on a code (R150). -/
def frndCode (f : Fmt) (mode : RMode) (q c : Nat) : Nat :=
  match f.val c with
  | .nan => f.nan
  | .inf _ => c
  | .fin s g e => if 0 ≤ e ∨ g = 0 then c else f.roundFrac .rn false 0 s (roundInt mode q s (fracOf g e).1 (fracOf g e).2).natAbs 1

theorem frndCode_of_nan {f : Fmt} {mode : RMode} {q c : Nat} (h : codeExt f c = .nan) : frndCode f mode q c = f.nan := by
  rw [← codeExt_val] at h
  cases hv : f.val c with
  | nan => rw [frndCode, hv]
  | inf | fin => rw [hv] at h; cases h

theorem frndCode_of_inf {f : Fmt} {mode : RMode} {q c : Nat} {s : Bool} (h : codeExt f c = .inf s) : frndCode f mode q c = c := by
  rw [← codeExt_val, Fv.ext_eq_inf_iff] at h
  rw [frndCode, h]

/-- The significand of a number has at most m + 1 bits (R92). -/
theorem val_significand_lt {f : Fmt} {c g : Nat} {s : Bool} {e : Int} (h : f.val c = .fin s g e) : g < 2 ^ (f.m + 1) := by
  have hfrac := Nat.mod_lt (f.mag c) (Nat.two_pow_pos f.m)
  have h2 : 2 ^ (f.m + 1) = 2 * 2 ^ f.m := Nat.pow_succ'
  rw [Fmt.val] at h
  split at h
  · cases h
  · split at h
    · cases h
    · dsimp only at h
      split at h <;> cases h <;> omega

/-- The formats of fp hold every integer of m + 1 bits that they need. -/
theorem integers_of_fp {t : Ty} (ht : t = .f32 ∨ t = .bf16x2 ∨ t = .f16x2) :
    (fmtOf t).qmin ≤ 0 ∧ (2 : ℚ) ^ (fmtOf t).m ≤ magValue (fmtOf t) (fmtOf t).maxMag := by
  rcases ht with rfl | rfl | rfl <;> exact ⟨by decide, by norm_num [fmtOf, magValue, fp32, bf16, fp16]⟩

/-- An integer of few bits is delivered as it is. -/
theorem codeExt_roundFrac_nat {f : Fmt} (hs : f.Sound) (hq : f.qmin ≤ 0) (hmax : (2 : ℚ) ^ f.m ≤ magValue f f.maxMag) {k : Nat} (hk : k ≤ 2 ^ f.m)
    (neg : Bool) : codeExt f (f.roundFrac .rn false 0 neg k 1) = .fin neg (underSign neg k) := by
  rcases Nat.eq_zero_or_pos k with rfl | hpos
  · have h := codeExt_signCode hs neg (Nat.zero_le f.maxMag)
    rw [magValue_zero] at h
    rw [Nat.cast_zero]
    exact h
  · have hkq : (0 : ℚ) < k := by exact_mod_cast hpos
    have hround := roundFrac_spec hs .rn false (q := 0) (by norm_num) neg hpos Nat.one_pos
    rw [Nat.cast_one, div_one] at hround
    have hle : (k : ℚ) * 2 ^ (0 : Int) ≤ magValue f f.maxMag := by
      rw [zpow_zero, mul_one]
      exact le_trans (by exact_mod_cast hk) hmax
    obtain ⟨g, hg, hval⟩ := exists_code (hk.trans_lt (Nat.pow_lt_pow_right (by decide) (Nat.lt_succ_self _))) hq hle
    rw [zpow_zero, mul_one] at hval
    have hcode := eq_signCode_of_roundsTo hround hg (by rw [abs_underSign neg hkq.le, hval])
    rw [show decide (underSign neg (k : ℚ) < 0) = neg by simp [underSign_lt_zero_iff neg hkq]] at hcode
    rw [hcode, codeExt_signCode hs neg hg, hval]

/-- A value with no fraction bits is an integer. -/
theorem exists_int_of_scaled (s : Bool) {g : Nat} {e : Int} (h : 0 ≤ e ∨ g = 0) : ∃ n : Int, underSign s ((g : ℚ) * 2 ^ e) = n := by
  rcases h with he | rfl
  · refine ⟨if s then -((g * 2 ^ e.toNat : Nat) : Int) else (g * 2 ^ e.toNat : Nat), ?_⟩
    rw [zpow_toNat he]
    cases s <;> simp [underSign]
  · exact ⟨0, by simp [underSign]⟩

/-- A value with fraction bits has at most m integer bits. -/
theorem fracOf_div_lt {f : Fmt} {c g : Nat} {s : Bool} {e : Int} (h : f.val c = .fin s g e) (he : ¬0 ≤ e) :
    (fracOf g e).1 / (fracOf g e).2 < 2 ^ f.m := by
  have htwo : 2 ≤ 2 ^ (-e).toNat := Nat.le_self_pow (by omega) 2
  rw [fracOf, if_neg he]
  refine Nat.div_lt_of_lt_mul ((val_significand_lt h).trans_le ?_)
  rw [Nat.pow_succ']
  exact Nat.mul_le_mul_right _ htwo

/-- A number is rounded to an integral one (R150). -/
theorem codeExt_frndCode {t : Ty} (ht : t = .f32 ∨ t = .bf16x2 ∨ t = .f16x2) (mode : RMode) (q : Nat) {c : Nat} {s : Bool} {x : ℚ}
    (hc : codeExt (fmtOf t) c = .fin s x) : codeExt (fmtOf t) (frndCode (fmtOf t) mode q c) = .fin s (intRound mode q x) := by
  rw [← codeExt_val] at hc
  cases hv : (fmtOf t).val c with
  | nan | inf => rw [hv] at hc; cases hc
  | fin s' g e =>
    rw [hv] at hc
    cases hc
    rw [frndCode, hv]
    dsimp only
    split
    · next h =>
      obtain ⟨n, hn⟩ := exists_int_of_scaled s h
      rw [← codeExt_val, hv, Fv.ext, hn, intRound_intCast]
    · next h =>
      obtain ⟨hq, hmax⟩ := integers_of_fp ht
      obtain ⟨k, hk, hround⟩ := exists_roundInt mode q s (fracOf g e).1 (fracOf g e).2
      have hlt := fracOf_div_lt hv fun he => h (.inl he)
      rw [← fracOf_value, intRound_underSign mode q s _ (fracOf_pos g e), roundInt_cast]
      refine codeExt_roundFrac_nat (fmtOf_sound t) hq hmax ?_ s
      rw [hround]
      split <;> omega

theorem roundFrac_lt {f : Fmt} (hs : f.Sound) (mode : RMode) (sat : Bool) {q : Nat} (hq : q < 2 ^ 32) (neg : Bool) (n : Nat) {d : Nat} (hd : 0 < d) :
    f.roundFrac mode sat q neg n d < 2 ^ f.bits := by
  rcases Nat.eq_zero_or_pos n with rfl | hn
  · exact signCode_lt hs neg (Nat.two_pow_pos _)
  · exact lt_of_roundsTo hs (roundFrac_spec hs mode sat hq neg hn hd)

theorem frndCode_lt {f : Fmt} (hs : f.Sound) (mode : RMode) (q : Nat) {c : Nat} (hc : c < 2 ^ f.bits) : frndCode f mode q c < 2 ^ f.bits := by
  unfold frndCode
  split
  · exact hs.nan
  · exact hc
  · split
    · exact hc
    · exact roundFrac_lt hs .rn false (by norm_num) _ _ Nat.one_pos

theorem fpCode_frndFn {t : Ty} (ht : t ∈ floats) (mode : RMode) (q : Nat → Nat) (a : Word) {i : Nat} (hi : i < fpLanes t) :
    fpCode t (frndFn mode t q a) i = frndCode (fmtOf t) mode (q i) (fpCode t a i) := by
  have hfn : frndFn mode t q a = packCodes t fun i => frndCode (fmtOf t) mode (q i) (laneNat t a i) := by
    simp only [floats, List.mem_cons, List.not_mem_nil, or_false] at ht
    rcases ht with rfl | rfl | rfl | rfl | rfl | rfl <;> rfl
  have hlt := frndCode_lt (fmtOf_sound t) mode (q i) (fpCode_lt t a i)
  rw [hfn]
  rw [← laneNat_of_float ht a] at hlt ⊢
  exact fpCode_packCodes ht (fun i => frndCode (fmtOf t) mode (q i) (laneNat t a i)) hi hlt

/-- Settles O26: FCVT converts lane by lane (`lane_fcvtFn`, `convCode_spec`); FRND's integers are values of the format (`codeExt_frndCode`). -/
theorem conversionsAndRounding : Obligations.ConversionsAndRounding := by
  refine ⟨fun s v r src dst sat mode off code _ hm himm ho _ _ _ hf => ?fcvt, fun s v r mode t ht hf => ?frnd⟩
  case fcvt =>
    obtain ⟨hmode, hoff⟩ := fcvt_imm hm himm ho
    refine ⟨fcvtFn src dst mode sat off (drawn s v mode) v.a v.b, ?_, ?_⟩
    · have h := delivers_of_fireRnd (i := .fcvt src dst sat r) (mode := modeOf (r.imm.toNat % 8))
        (f := fun q a b _ => fcvtFn src dst (modeOf (r.imm.toNat % 8)) sat (r.imm.toNat / 8 % 8) q a b) rfl rfl hf
      rwa [hmode, hoff] at h
    · rw [anyWidth_eq, anyLanes_eq, anyLanes_eq]
      intro i hi c
      have hc : c = _ := lane_fcvtFn src dst mode sat off (drawn_lt s v mode) v.a v.b hi
      split
      · next h => rw [hc, if_pos h]
      · next h =>
        dsimp only
        rw [hc, if_neg h, ← ext_laneVal, ← converts_drawn]
        exact (convCode_spec dst mode sat (drawn_lt s v mode i) _).1
  case frnd =>
    refine ⟨frndFn mode t (drawn s v mode) v.a, delivers_of_fireRnd (f := fun q a _ _ => frndFn mode t q a) rfl rfl hf, fun i hi => ?_⟩
    have hcode := fpCode_frndFn (float_of_fp ht) mode (drawn s v mode) v.a hi
    cases hx : fpLane t v.a i with
    | nan => exact hcode.trans (frndCode_of_nan hx)
    | inf neg => exact hcode.trans (frndCode_of_inf hx)
    | fin neg x =>
      dsimp only
      rw [← intRound_drawn, fpLane, hcode]
      exact codeExt_frndCode ht mode _ hx

end Sys2Proof.Machine
end

section
/-!
SUPPORT. The state after reset (R164, R166, R171, R205).
-/
namespace Sys2Proof.Machine
open Claims

/-- Settles O3: the memories after reset are canonical, and no request is listed. -/
theorem resetMeetsInvariants : Obligations.ResetMeetsInvariants := by
  unfold Obligations.ResetMeetsInvariants
  exact ⟨State.reset_memoryOk, fun q hq => absurd hq List.not_mem_nil⟩

end Sys2Proof.Machine
end

section
/-!
SUPPORT. The registers of BAR0: where their pages lie (R426, R429), and what a write to a register that holds a value of its own leaves (R6).
-/
namespace Sys2Proof.Machine
open Claims

-- Places (R426, R429).

section
variable {off d o : Nat} (hd : d < 4)
include hd

theorem pageOf_die (ho : o < 0x300000) (h : off = dieBlock d + o) : pageOf off =
    (if o < 0x1000 then .mem d o
    else if o < 0x2000 then .disp d (o - 0x1000)
    else if o < 0x3000 then .gfx d (o - 0x2000)
    else if o < 0x10000 then .fab d (o - 0x3000)
    else if o < 0x14000 then .cluster (4 * d + (o - 0x10000) / 0x1000) (o % 0x1000)
    else if o < 0x20000 then .nothing
    else if o < 0x40000 then .queue d ((o - 0x20000) / 0x20) (o % 0x20)
    else if o < 0x60000 then
      if o % 0x2000 < 0x800 then .region (32 * (16 * d + (o - 0x40000) / 0x2000) + o % 0x2000 / 0x40) (o % 0x40)
      else if 0x1000 ≤ o % 0x2000 then .sync (16 * d + (o - 0x40000) / 0x2000) (o % 0x1000)
      else .nothing
    else .nothing) := by
  simp only [dieBlock] at h
  have hq : (off - 0x100000) / 0x300000 = d := by omega
  have hr : (off - 0x100000) % 0x300000 = o := by omega
  rw [pageOf, if_neg (by omega), if_neg (by omega)]
  simp only [hq, hr]

theorem pageOf_mem (ho : o < 0x1000) (h : off = dieBlock d + o) : pageOf off = .mem d o := by
  rw [pageOf_die hd (by omega) h, if_pos ho]

theorem pageOf_disp (ho : o < 0x1000) (h : off = dieBlock d + 0x1000 + o) : pageOf off = .disp d o := by
  rw [pageOf_die hd (o := 0x1000 + o) (by omega) (by omega), if_neg (by omega), if_pos (by omega), Nat.add_sub_cancel_left]

theorem pageOf_gfx (ho : o < 0x1000) (h : off = dieBlock d + 0x2000 + o) : pageOf off = .gfx d o := by
  rw [pageOf_die hd (o := 0x2000 + o) (by omega) (by omega), if_neg (by omega), if_neg (by omega), if_pos (by omega),
    Nat.add_sub_cancel_left]

theorem pageOf_fab (ho : o < 0xD000) (h : off = dieBlock d + 0x3000 + o) : pageOf off = .fab d o := by
  rw [pageOf_die hd (o := 0x3000 + o) (by omega) (by omega), if_neg (by omega), if_neg (by omega), if_neg (by omega), if_pos (by omega),
    Nat.add_sub_cancel_left]

theorem pageOf_cluster {c : Nat} (hc : c < 4) (ho : o < 0x1000) (h : off = dieBlock d + 0x10000 + 0x1000 * c + o) :
    pageOf off = .cluster (4 * d + c) o := by
  rw [pageOf_die hd (o := 0x10000 + 0x1000 * c + o) (by omega) (by omega)]
  have hq : (0x10000 + 0x1000 * c + o - 0x10000) / 0x1000 = c := by omega
  have hr : (0x10000 + 0x1000 * c + o) % 0x1000 = o := by omega
  rw [if_neg (by omega), if_neg (by omega), if_neg (by omega), if_neg (by omega), if_pos (by omega), hq, hr]

theorem pageOf_queue {q : Nat} (hq : q < 4096) (ho : o < 0x20) (h : off = dieBlock d + 0x20000 + 0x20 * q + o) :
    pageOf off = .queue d q o := by
  rw [pageOf_die hd (o := 0x20000 + 0x20 * q + o) (by omega) (by omega)]
  have h1 : (0x20000 + 0x20 * q + o - 0x20000) / 0x20 = q := by omega
  have h2 : (0x20000 + 0x20 * q + o) % 0x20 = o := by omega
  rw [if_neg (by omega), if_neg (by omega), if_neg (by omega), if_neg (by omega), if_neg (by omega), if_neg (by omega), if_pos (by omega),
    h1, h2]

theorem pageOf_region {core slot : Nat} (hc : core < 16) (hs : slot < 32) (ho : o < 0x40)
    (h : off = dieBlock d + 0x40000 + 0x2000 * core + 0x40 * slot + o) : pageOf off = .region (32 * (16 * d + core) + slot) o := by
  rw [pageOf_die hd (o := 0x40000 + 0x2000 * core + 0x40 * slot + o) (by omega) (by omega)]
  have h1 : (0x40000 + 0x2000 * core + 0x40 * slot + o - 0x40000) / 0x2000 = core := by omega
  have h2 : (0x40000 + 0x2000 * core + 0x40 * slot + o) % 0x2000 = 0x40 * slot + o := by omega
  have h3 : (0x40 * slot + o) / 0x40 = slot := by omega
  have h4 : (0x40000 + 0x2000 * core + 0x40 * slot + o) % 0x40 = o := by omega
  rw [if_neg (by omega), if_neg (by omega), if_neg (by omega), if_neg (by omega), if_neg (by omega), if_neg (by omega), if_neg (by omega),
    if_pos (by omega), h1, h2, if_pos (by omega), h3, h4]

theorem pageOf_sync {core : Nat} (hc : core < 16) (ho : o < 0x1000) (h : off = dieBlock d + 0x41000 + 0x2000 * core + o) :
    pageOf off = .sync (16 * d + core) o := by
  rw [pageOf_die hd (o := 0x41000 + 0x2000 * core + o) (by omega) (by omega)]
  have h1 : (0x41000 + 0x2000 * core + o - 0x40000) / 0x2000 = core := by omega
  have h2 : (0x41000 + 0x2000 * core + o) % 0x2000 = 0x1000 + o := by omega
  have h3 : (0x41000 + 0x2000 * core + o) % 0x1000 = o := by omega
  rw [if_neg (by omega), if_neg (by omega), if_neg (by omega), if_neg (by omega), if_neg (by omega), if_neg (by omega), if_neg (by omega),
    if_pos (by omega), h1, h2, h3, if_neg (by omega), if_pos (by omega)]

end

theorem pageOf_global {o : Nat} (h : o < 0x1000) : pageOf o = .global o := by rw [pageOf, if_pos h]

theorem pageOf_nothing {off : Nat} (h : 0x1000 ≤ off ∧ off < 0x100000 ∨ 0xD00000 ≤ off) : pageOf off = .nothing := by
  rw [pageOf, if_neg (by omega), if_pos (by omega)]

/-- An offset lies on the global page, on a die's pages, or nowhere. -/
theorem offset_cases (off : Nat) : pageOf off = .global off ∨ pageOf off = .nothing ∨ ∃ d o, d < 4 ∧ o < 0x300000 ∧ off = dieBlock d + o := by
  by_cases h1 : off < 0x1000
  · exact .inl (pageOf_global h1)
  by_cases h2 : off < 0x100000 ∨ 0xD00000 ≤ off
  · exact .inr (.inl (pageOf_nothing (by omega)))
  · exact .inr (.inr ⟨(off - 0x100000) / 0x300000, (off - 0x100000) % 0x300000, by omega, by omega, by simp only [dieBlock]; omega⟩)

theorem eq_of_pageOf_global {off o : Nat} (h : pageOf off = .global o) : off = o := by
  rcases offset_cases off with h1 | h1 | ⟨d, a, hd, ha, rfl⟩
  · rw [h1] at h; cases h; rfl
  · rw [h1] at h; cases h
  · rw [pageOf_die hd ha rfl] at h
    repeat' split at h
    all_goals cases h

theorem eq_of_pageOf_mem {off d o : Nat} (h : pageOf off = .mem d o) : off = memPage d + o := by
  rcases offset_cases off with h1 | h1 | ⟨d, a, hd, ha, rfl⟩
  · rw [h1] at h; cases h
  · rw [h1] at h; cases h
  · rw [pageOf_die hd ha rfl] at h
    repeat' split at h
    all_goals cases h
    rfl

-- Registers that hold a value of their own.

@[simp] theorem State.mmio_setMmio_same (s : State) (off : Nat) (w r : Word) : (s.setMmio off w).mmio off r = w := by
  simp only [State.mmio, State.setMmio, Tab.lookD, Tab.look_put_same, Option.getD_some]

theorem State.mmio_setMmio_other (s : State) {off o : Nat} (h : o ≠ off) (w r : Word) : (s.setMmio off w).mmio o r = s.mmio o r := by
  simp only [State.mmio, State.setMmio, Tab.lookD, Tab.look_put_other _ h]

/-- No register but the one written changes its value. -/
theorem State.readReg_setMmio_other (s : State) {off o : Nat} (h : o ≠ off) (w : Word) : (s.setMmio off w).readReg o = s.readReg o := by
  have hm : ∀ r, (s.setMmio off w).mmio o r = s.mmio o r := s.mmio_setMmio_other h w
  unfold State.readReg
  cases hp : pageOf o with
  | global a =>
    obtain rfl := eq_of_pageOf_global hp
    simp only [State.readGlobal, hm]
    rfl
  | mem d a =>
    dsimp only
    split
    · rfl
    · have ht : tidone d = o := (eq_of_pageOf_mem hp).symm
      simp only [State.mmioNat, ht, hm]
      rfl
    · exact hm _
    · rfl
    · exact hm _
  | disp d a =>
    dsimp only
    split
    · exact hm _
    · rfl
    · exact hm _
    · exact hm _
  | gfx d a => exact hm _
  | fab d a => simp only [hm]; rfl
  | cluster cl a =>
    dsimp only
    split
    · exact hm _
    · rfl
    · rfl
    · rfl
    · exact hm _
  | _ => rfl

end Sys2Proof.Machine
end

section
/-!
SUPPORT. What a write to a register does, page by page.
-/
namespace Sys2Proof.Machine
open Claims

-- Registers that hold what is written.

/-- A write of `v` at `off` leaves `w` in that register, and changes no other. -/
def RegHolds (s : State) (v : Word) (off : Nat) (w : Word) : Prop :=
  ∃ t : State, exec (.registerWrite off v) s = .next t ∧ t = { s with pkg := { s.pkg with mmio := t.pkg.mmio } } ∧ t.readReg off = w ∧
    ∀ o, o ≠ off → t.readReg o = s.readReg o

theorem RegHolds.of_eq {s : State} {v w : Word} {off : Nat} (hw : s.writeReg off v = s.setMmio off w)
    (hr : (s.setMmio off w).readReg off = w) : RegHolds s v off w :=
  ⟨s.setMmio off w, congrArg Host.Outcome.next hw, rfl, hr, fun _ ho => s.readReg_setMmio_other ho w⟩

section
variable {s : State} {v w : Word} {d o : Nat}

/-- The registers of the global page that are plain. -/
theorem RegHolds.global (ho : o < 0x1000) (hw : s.writeGlobal o v = s.setMmio o w) (hr : (s.setMmio o w).readGlobal o = (s.setMmio o w).mmio o 0#32) :
    RegHolds s v o w := by
  refine .of_eq ?_ ?_
  · rw [State.writeReg, pageOf_global ho]; exact hw
  · rw [State.readReg, pageOf_global ho]; exact hr.trans (s.mmio_setMmio_same ..)

variable (hd : d < 4)
include hd

theorem RegHolds.mem (ho : o < 0x1000) (hr : o ∉ [0x20, 0x24, 0x44]) (hw : s.writeMem d o v = s.setMmio (memPage d + o) w) :
    RegHolds s v (dieBlock d + o) w := by
  have hp := pageOf_mem hd ho rfl
  refine .of_eq ?_ ?_
  · rw [State.writeReg, hp]; exact hw
  · rw [State.readReg, hp]
    simp only [List.mem_cons, List.not_mem_nil, not_or] at hr
    dsimp only
    split
    · omega
    · omega
    · exact s.mmio_setMmio_same ..
    · omega
    · exact s.mmio_setMmio_same ..

theorem RegHolds.disp {off : Nat} (h : off = dispPage d + o) (ho : o < 0x1000) (hr : o ≠ 0x0C)
    (hw : s.writeDisp d o v = s.setMmio (dispPage d + o) w) : RegHolds s v off w := by
  subst h
  have hp := pageOf_disp hd ho (off := dispPage d + o) rfl
  refine .of_eq ?_ ?_
  · rw [State.writeReg, hp]; exact hw
  · rw [State.readReg, hp]
    dsimp only
    split
    · exact s.mmio_setMmio_same ..
    · omega
    · exact s.mmio_setMmio_same ..
    · exact s.mmio_setMmio_same ..

theorem RegHolds.gfx : RegHolds s v (gfxPage d) (v &&& 0x0000FFFF#32) := by
  have hp := pageOf_gfx hd (o := 0) (off := gfxPage d) (by omega) rfl
  refine .of_eq ?_ ?_
  · rw [State.writeReg, hp]; rfl
  · rw [State.readReg, hp]; exact s.mmio_setMmio_same ..

theorem RegHolds.fab {off : Nat} (h : off = fabPage d + o) (ho : o < 0x10)
    (hw : s.writeFab d o v = s.setMmio (fabPage d + o) w) : RegHolds s v off w := by
  subst h
  have hp := pageOf_fab hd (o := o) (off := fabPage d + o) (by omega) rfl
  refine .of_eq ?_ ?_
  · rw [State.writeReg, hp]; exact hw
  · rw [State.readReg, hp]
    dsimp only
    rw [if_neg (by omega), if_neg (by omega)]
    exact s.mmio_setMmio_same ..

end

-- Fields with limits.

/-- A field held between limits, as a number. -/
theorem clampBits_eq {lo n least most : Nat} (h : least ≤ most) (v : Word) :
    clampBits lo n least most v = BitVec.ofNat 32 (2 ^ lo * max least (min most (v.toNat / 2 ^ lo % 2 ^ n))) := by
  rw [clampBits, bitsOf]
  congr 2
  omega

/-- Fields that lie apart make the number that is their sum. -/
theorem ofNat_or_ofNat {k x y : Nat} (hy : y < 2 ^ k) :
    BitVec.ofNat 32 (2 ^ k * x) ||| BitVec.ofNat 32 y = BitVec.ofNat 32 (2 ^ k * x + y) := by
  refine BitVec.eq_of_toNat_eq ?_
  rw [BitVec.toNat_or, BitVec.toNat_ofNat, BitVec.toNat_ofNat, BitVec.toNat_ofNat, Nat.two_pow_add_eq_or_of_lt hy, Nat.or_mod_two_pow]

/-- One bit of a word. -/
theorem and_twoPow_eq (v : Word) : v &&& 0x00010000#32 = BitVec.ofNat 32 (2 ^ 16 * (v.toNat / 2 ^ 16 % 2 ^ 1)) := by
  refine BitVec.eq_of_toNat_eq ?_
  rw [BitVec.toNat_and, BitVec.toNat_ofNat, BitVec.toNat_ofNat]
  have h := Nat.and_two_pow v.toNat 16
  have hb : (v.toNat.testBit 16).toNat = v.toNat / 2 ^ 16 % 2 := Nat.toNat_testBit ..
  norm_num at h hb ⊢
  rw [h, hb]
  omega

/-- Two fields with limits of one register. -/
theorem clampBits_or {lo n a b a' b' : Nat} (h : a ≤ b) (h' : a' ≤ b') (hb : b' < 2 ^ lo) (v : Word) :
    clampBits lo n a b v ||| clampBits 0 5 a' b' v = BitVec.ofNat 32 (2 ^ lo * max a (min b (v.toNat / 2 ^ lo % 2 ^ n)) +
      max a' (min b' (v.toNat / 2 ^ 0 % 2 ^ 5))) := by
  rw [clampBits_eq h, clampBits_eq h', pow_zero, Nat.one_mul]
  exact ofNat_or_ofNat (by omega)

end Sys2Proof.Machine
end

section
/-!
SUPPORT. Plain registers and fields with limits, registers that do an event, and offsets that take no write (R6, R195, R280, R281, R311, R312,
R370, R392, R397, R404, R427, R453).
-/
namespace Sys2Proof.Machine
open Claims

-- Plain registers.

theorem regHolds_global_plain (s : State) (v : Word) :
    ∀ e ∈ ([(0x10, 0xFFFFF000#32), (0x14, 0x000FFFFF#32), (0x18, 0x0001FFFF#32), (0x1C, 0xFFFFFFFF#32), (0x68, 0x0001FFFF#32),
            (0x6C, 0x0001FFFF#32), (0x70, 0x0001FFFF#32), (0x74, 0x0001FFFF#32)] : List (Nat × Word)), RegHolds s v e.1 (v &&& e.2) := by
  have hall : v &&& 0xFFFFFFFF#32 = v := BitVec.and_allOnes
  simp only [List.forall_mem_cons, hall]
  refine ⟨?_, ?_, ?_, ?_, ?_, ?_, ?_, ?_, nofun⟩
  all_goals exact .global (by decide) rfl rfl

theorem regHolds_sublo {s : State} (v : Word) {d : Nat} (hd : d < 4) (hs : ∀ x ∈ s.pkg.subs, x.die ≠ d) :
    RegHolds s v (0x20 + 16 * d) (v &&& 0xFFFFFF00#32) := by
  have hq : (0x20 + 16 * d - 0x20) / 16 = d := by omega
  have hbusy : s.subBusy d = false := by
    rw [State.subBusy, List.any_eq_false]
    exact fun x hx => by simpa using hs x hx
  refine .global (by omega) ?_ ?_
  · simp only [State.writeGlobal, hq, hbusy]
    rw [if_neg (by omega), if_neg (by omega), if_neg (by omega), if_neg (by omega), if_neg (by omega), if_pos (by omega)]
    rfl
  · simp only [State.readGlobal]
    rw [if_neg (by omega), if_neg (by omega), if_neg (by omega), if_neg (by omega), if_neg (by omega)]

theorem regHolds_die_plain (s : State) (v : Word) {d : Nat} (hd : d < 4) :
    ∀ e ∈ ([(0x0000, 0xFFFFF000#32), (0x0004, 0x000FFFFF#32), (0x0008, 0x0001FFFF#32), (0x0010, 0xFFFC0000#32),
            (0x0014, 0x00FFFFFF#32), (0x0018, 0xFFFFFFFF#32), (0x001C, 0x30000FFF#32), (0x1004, 0xFFFFFFFF#32),
            (0x1008, 0x000FFFFF#32), (0x104C, 0xFFFFFFFF#32), (0x2000, 0x0000FFFF#32), (0x3000, 0x000003FF#32),
            (0x3004, 0xC0000001#32), (0x3008, 0xFFFFFC00#32), (0x300C, 0x000FFFFF#32)] : List (Nat × Word)),
      RegHolds s v (dieBlock d + e.1) (v &&& e.2) := by
  have hall : v &&& 0xFFFFFFFF#32 = v := BitVec.and_allOnes
  simp only [List.forall_mem_cons, hall]
  refine ⟨?_, ?_, ?_, ?_, ?_, ?_, ?_, ?_, ?_, ?_, .gfx hd, ?_, ?_, ?_, ?_, nofun⟩
  -- The memory page.
  iterate 7 exact .mem hd (by decide) (by decide) rfl
  -- The dispatcher page.
  · exact .disp hd (o := 0x04) rfl (by decide) (by decide) rfl
  · exact .disp hd (o := 0x08) rfl (by decide) (by decide) rfl
  · exact .disp hd (o := 0x4C) rfl (by decide) (by decide) rfl
  -- The fabric page.
  · exact .fab hd (o := 0x00) rfl (by decide) rfl
  · exact .fab hd (o := 0x04) rfl (by decide) rfl
  · exact .fab hd (o := 0x08) rfl (by decide) rfl
  · exact .fab hd (o := 0x0C) rfl (by decide) rfl

-- Fields with limits.

theorem regHolds_fdcfg (s : State) (v : Word) {d : Nat} (hd : d < 4) : RegHolds s v (dieBlock d + 0x40)
    (BitVec.ofNat 32 (2 ^ 8 * max 20 (min 31 (v.toNat / 2 ^ 8 % 2 ^ 5)) + max 0 (min 16 (v.toNat / 2 ^ 0 % 2 ^ 5)))) := by
  rw [← clampBits_or (by decide) (by decide) (by decide) v]
  exact .mem hd (by decide) (by decide) rfl

theorem regHolds_dscfg (s : State) (v : Word) {d : Nat} (hd : d < 4) : RegHolds s v (dieBlock d + 0x1000)
    (BitVec.ofNat 32 (2 ^ 16 * max 12 (min 30 (v.toNat / 2 ^ 16 % 2 ^ 5)) + max 12 (min 30 (v.toNat / 2 ^ 0 % 2 ^ 5)))) := by
  rw [← clampBits_or (by decide) (by decide) (by decide) v]
  exact .disp hd (o := 0) rfl (by decide) (by decide) rfl

theorem regHolds_wtcfg (s : State) (v : Word) {d c : Nat} (hd : d < 4) (hc : c < 4) : RegHolds s v (dieBlock d + 0x10000 + 0x1000 * c)
    (BitVec.ofNat 32 (max 12 (min 30 (v.toNat / 2 ^ 0 % 2 ^ 5)))) := by
  have hp := pageOf_cluster (off := dieBlock d + 0x10000 + 0x1000 * c) hd hc (o := 0) (by decide) rfl
  have hoff : clusterPage (4 * d + c) = dieBlock d + 0x10000 + 0x1000 * c := by
    rw [clusterPage]
    congr 3 <;> omega
  have hw : BitVec.ofNat 32 (max 12 (min 30 (v.toNat / 2 ^ 0 % 2 ^ 5))) = clampBits 0 5 12 30 v := by
    rw [clampBits_eq (by decide), pow_zero, Nat.one_mul]
  refine .of_eq ?_ ?_
  · rw [State.writeReg, hp, hw, ← hoff]
    rfl
  · rw [State.readReg, hp]
    exact s.mmio_setMmio_same ..

theorem dlcfg_eq (v : Word) : (v &&& 0x00010000#32) ||| clampBits 8 5 10 24 v ||| clampBits 0 5 12 30 v =
    BitVec.ofNat 32 (2 ^ 16 * (v.toNat / 2 ^ 16 % 2 ^ 1) + 2 ^ 8 * max 10 (min 24 (v.toNat / 2 ^ 8 % 2 ^ 5)) +
      max 12 (min 30 (v.toNat / 2 ^ 0 % 2 ^ 5))) := by
  rw [BitVec.or_assoc, clampBits_or (by decide) (by decide) (by decide), and_twoPow_eq, ofNat_or_ofNat (by omega), Nat.add_assoc]

-- The registers of a region slot (R195, R392).

theorem writeReg_region (s : State) (v : Word) {d core slot o : Nat} (hd : d < 4) (hc : core < 16) (hs : slot < 32) (ho : o < 0x40) :
    s.writeReg (dieBlock d + 0x40000 + 0x2000 * core + 0x40 * slot + o) v = s.writeRegion (32 * (16 * d + core) + slot) o v := by
  rw [State.writeReg, pageOf_region hd hc hs ho rfl]

theorem State.rreg_updRreg_other (s : State) {r q : Nat} (h : q ≠ r) (f : RReg → RReg) : (s.updRreg r f).rreg q = s.rreg q :=
  Tab.lookD_alter_other _ h ..

theorem write_dlcfg (s : State) (v : Word) {d core slot : Nat} (hd : d < 4) (hc : core < 16) (hs : slot < 32) :
    let r := 32 * (16 * d + core) + slot
    let off := dieBlock d + 0x40000 + 0x2000 * core + 0x40 * slot
    ∃ t : State, exec (.registerWrite (off + 8) v) s = .next t ∧ t = { s with rregs := t.rregs } ∧ (∀ q, q ≠ r → t.rreg q = s.rreg q) ∧
      t.rreg r = { s.rreg r with dlcfg := t.readReg (off + 8) } ∧
      t.readReg (off + 8) = BitVec.ofNat 32 (2 ^ 16 * (v.toNat / 2 ^ 16 % 2 ^ 1) + 2 ^ 8 * max 10 (min 24 (v.toNat / 2 ^ 8 % 2 ^ 5)) +
        max 12 (min 30 (v.toNat / 2 ^ 0 % 2 ^ 5))) := by
  intro r off
  let w := (v &&& 0x00010000#32) ||| clampBits 8 5 10 24 v ||| clampBits 0 5 12 30 v
  let t := s.updRreg r fun x => { x with dlcfg := w }
  have hself : t.rreg r = { s.rreg r with dlcfg := w } := s.rreg_updRreg_same r _
  have hread : t.readReg (off + 8) = w := by
    rw [State.readReg, pageOf_region hd hc hs (by decide) rfl]
    exact congrArg RReg.dlcfg hself
  refine ⟨t, congrArg Host.Outcome.next (writeReg_region s v hd hc hs (by decide)), rfl, fun q hq => s.rreg_updRreg_other hq _, ?_, ?_⟩
  · rw [hself, hread]
  · rw [hread]
    exact dlcfg_eq v

theorem write_rstat (s : State) (v : Word) {d core slot : Nat} (hd : d < 4) (hc : core < 16) (hs : slot < 32) :
    let r := 32 * (16 * d + core) + slot
    ∃ t : State, exec (.registerWrite (dieBlock d + 0x40000 + 0x2000 * core + 0x40 * slot) v) s = .next t ∧ t = { s with rregs := t.rregs } ∧
      (∀ q, q ≠ r → t.rreg q = s.rreg q) ∧
      t.rreg r = { s.rreg r with starve := (s.rreg r).starve && !v.getLsbD 12, stall := (s.rreg r).stall && !v.getLsbD 11 } :=
  ⟨_, congrArg Host.Outcome.next (writeReg_region s v hd hc hs (o := 0) (by decide)), rfl, fun _ hq => s.rreg_updRreg_other hq _,
    s.rreg_updRreg_same ..⟩

theorem write_rdbg (s : State) (v : Word) {d core slot : Nat} (hd : d < 4) (hc : core < 16) (hs : slot < 32) :
    let r := 32 * (16 * d + core) + slot
    ∃ t : State, exec (.registerWrite (dieBlock d + 0x40000 + 0x2000 * core + 0x40 * slot + 0x18) v) s = .next t ∧ t.store = s.store ∧
      (t.rreg r).rdbg = v &&& 0x1F#32 ∧ ∀ q, q ≠ r → t.rreg q = s.rreg q := by
  refine ⟨_, congrArg Host.Outcome.next (writeReg_region s v hd hc hs (by decide)), rfl, ?_, fun q hq => ?_⟩
  · exact congrArg RReg.rdbg (s.rreg_updRreg_same (32 * (16 * d + core) + slot) fun x => { x with rdbg := v &&& 0x1F#32 })
  · exact s.rreg_updRreg_other hq fun x => { x with rdbg := v &&& 0x1F#32 }

-- KILL goes before RESUME (R194).

theorem Aside.skipVoid (die q n : Nat) (s : State) : Aside s (State.skipVoid die q n s) := by
  induction n generalizing s with
  | zero => exact ⟨rfl⟩
  | succ n ih =>
    rw [State.skipVoid]
    repeat' split
    · exact ⟨rfl⟩
    · exact ((Puts.physPut s _ _).aside.trans ⟨rfl⟩).trans (ih _)
    · exact ⟨rfl⟩

theorem Aside.voidSlot (s : State) (die q : Nat) (t : Word) : Aside s (s.voidSlot die q t) :=
  ((Puts.physPut s _ _).aside.trans ⟨rfl⟩).trans (.skipVoid ..)

theorem Aside.voidReservations (s : State) (gang inst : Nat) : Aside s (s.voidReservations gang inst) :=
  foldl_keeps (Aside s) _ (fun _ _ h => foldl_keeps (Aside s) _ (fun _ _ k => k.trans (.voidSlot ..)) _ h) _ ⟨rfl⟩

theorem Aside.regions {s t : State} (h : Aside s t) : t.regions = s.regions := by rw [h.rest]

/-- No region that stands in a slot is alive. -/
def DeadIn (s : State) (r : Nat) : Prop := ∀ g, s.region r = some g → g.dead = true

theorem DeadIn.of_regions {s t : State} {r : Nat} (h : DeadIn s r) (ht : t.regions = s.regions) : DeadIn t r := by
  unfold DeadIn State.region
  rw [ht]
  exact h

theorem DeadIn.updRegion (s : State) (r : Nat) {f : Region → Region} (hf : ∀ g, (f g).dead = true) : DeadIn (s.updRegion r f) r := by
  intro g hg
  rw [s.region_updRegion, if_pos rfl, Option.map_eq_some_iff] at hg
  obtain ⟨x, -, rfl⟩ := hg
  exact hf x

/-- A kill leaves its region dead. -/
theorem DeadIn.killRegion (s : State) (r : Nat) : DeadIn (s.killRegion r) r := by
  unfold State.killRegion
  split
  · next hg => exact fun h hh => by rw [hg] at hh; cases hh
  next g hg =>
  split
  · next hd => exact fun h hh => by rw [hg] at hh; cases hh; exact hd
  extract_lets _ _ _ _ _ _ _ _ _ _ _ _ _ u marked killed voided ended _
  have hmarked : DeadIn marked r := .updRegion u r fun _ => rfl
  have hended : DeadIn ended r := hmarked.of_regions (Aside.voidReservations killed _ _).regions
  split
  · exact hended
  split
  · exact hended.of_regions (Aside.cancelFill ..).regions
  · exact hended

/-- A resume does nothing to a region that has been killed. -/
theorem State.resume_killRegion (s : State) (r : Nat) : (s.killRegion r).resume r = s.killRegion r := by
  rw [State.resume]
  split
  · rfl
  · next hg => rw [if_pos (DeadIn.killRegion s r _ hg)]

end Sys2Proof.Machine
end

section
/-!
SUPPORT. Registers that do what an event does, and offsets that take no write; every register write (R6, R194, R195, R280, R281, R311, R312,
R370, R392, R397, R404, R427, R453).
-/
namespace Sys2Proof.Machine
open Claims

/-- A write to RCTL: any of them arms the deadlock detector again; KILL goes before RESUME (R191, R194). -/
theorem write_rctl (s : State) (v : Word) {d core slot : Nat} (hd : d < 4) (hc : core < 16) (hs : slot < 32) :
    let r := 32 * (16 * d + core) + slot
    let u := s.updRegion r fun g => { g with stalled := false, stall := 0 }
    let t := exec (.registerWrite (dieBlock d + 0x40000 + 0x2000 * core + 0x40 * slot + 4) v) s
    (v.getLsbD 1 = true → t = exec (.kill r) u) ∧ (v.getLsbD 1 = false → v.getLsbD 0 = true → t = exec (.resume r) u) ∧
      (v.getLsbD 1 = false → v.getLsbD 0 = false → t = .next u) := by
  intro r u t
  have ht : t = .next (if v.getLsbD 0 then (if v.getLsbD 1 then u.killRegion r else u).resume r
      else if v.getLsbD 1 then u.killRegion r else u) :=
    congrArg Host.Outcome.next (writeReg_region s v hd hc hs (by decide))
  refine ⟨fun h1 => ?_, fun h1 h0 => ?_, fun h1 h0 => ?_⟩
  · rw [ht, h1, if_pos rfl, State.resume_killRegion, ite_self]
    rfl
  · rw [ht, h1, h0]
    rfl
  · rw [ht, h1, h0]
    rfl

-- The sync page (R280, R281).

theorem writeReg_sync (s : State) (v : Word) {d core o : Nat} (hd : d < 4) (hc : core < 16) (ho : o < 0x1000) :
    s.writeReg (dieBlock d + 0x41000 + 0x2000 * core + o) v = s.writeSync (16 * d + core) o v := by
  rw [State.writeReg, pageOf_sync hd hc ho rfl]

theorem State.sem_updSem_same (s : State) (c n : Nat) (f : Sem → Sem) : (s.updSem c n f).sem c n = f (s.sem c n) :=
  Tab.lookD_alter_same ..

theorem State.sem_updSem_other (s : State) {c k n m : Nat} (hn : n < 256) (hm : m < 256) (h : (k, m) ≠ (c, n)) (f : Sem → Sem) :
    (s.updSem c n f).sem k m = s.sem k m := by
  refine Tab.lookD_alter_other _ (fun he => h ?_) ..
  rw [Prod.mk.injEq]
  omega

/-- A semaphore's two registers: its value, and its abort bit. -/
theorem write_sem (s : State) (v : Word) {d core n : Nat} (hd : d < 4) (hc : core < 16) (hn : n < 256) :
    let off := dieBlock d + 0x41000 + 0x2000 * core + 8 * n
    let c := 16 * d + core
    let only (t : State) : Prop := (∀ k m, m < 256 → (k, m) ≠ (c, n) → t.sem k m = s.sem k m) ∧ t.store = s.store ∧ t.fab = s.fab ∧ t.regions = s.regions
    (∃ t : State, exec (.registerWrite off v) s = .next t ∧ t.sem c n = { s.sem c n with value := v } ∧ only t) ∧
      ∃ t : State, exec (.registerWrite (off + 4) v) s = .next t ∧ t.sem c n = { s.sem c n with abt := (s.sem c n).abt && !v.getLsbD 31 } ∧ only t := by
  intro off c only
  have honly : ∀ f, only (s.updSem c n f) := fun f => ⟨fun _ _ hm h => s.sem_updSem_other hn hm h f, rfl, rfl, rfl⟩
  have h0 : 8 * n % 8 = 0 ∧ 8 * n / 8 = n := by omega
  have h4 : (8 * n + 4) % 8 = 4 ∧ (8 * n + 4) / 8 = n := by omega
  have hw : s.writeReg off v = s.updSem c n fun x => { x with value := v } := by
    rw [writeReg_sync s v hd hc (by omega), State.writeSync, if_pos (by omega), h0.1, h0.2]
    rfl
  have ha : s.writeReg (off + 4) v = s.updSem c n fun x => { x with abt := x.abt && !v.getLsbD 31 } := by
    rw [show off + 4 = dieBlock d + 0x41000 + 0x2000 * core + (8 * n + 4) from rfl, writeReg_sync s v hd hc (by omega), State.writeSync,
      if_pos (by omega), h4.1, h4.2]
    rfl
  exact ⟨⟨_, congrArg Host.Outcome.next hw, s.sem_updSem_same .., honly _⟩, _, congrArg Host.Outcome.next ha, s.sem_updSem_same .., honly _⟩

theorem write_sbcfg (s : State) (v : Word) {d core n : Nat} (hd : d < 4) (hc : core < 16) (hn : n < 96) :
    exec (.registerWrite (dieBlock d + 0x41800 + 0x2000 * core + 16 * n) v) s = exec (.sbcfgWrite (16 * d + core) n v) s := by
  have hoff : dieBlock d + 0x41800 + 0x2000 * core + 16 * n = dieBlock d + 0x41000 + 0x2000 * core + (0x800 + 16 * n) := by omega
  have hbar : (0x800 + 16 * n - 0x800) / 16 = n := by omega
  refine congrArg Host.Outcome.next ?_
  rw [hoff, writeReg_sync s v hd hc (by omega), State.writeSync, if_neg (by omega), if_pos (by omega), if_pos (by omega), hbar]

theorem write_cjctl (s : State) {v : Word} {d core : Nat} (hd : d < 4) (hc : core < 16) (hv : v.getLsbD 31 = true) :
    exec (.registerWrite (dieBlock d + 0x41E00 + 0x2000 * core) v) s = exec (.cjctlAbort (16 * d + core) (v.toNat % 128)) s := by
  have hoff : dieBlock d + 0x41E00 + 0x2000 * core = dieBlock d + 0x41000 + 0x2000 * core + 0xE00 := by omega
  refine congrArg Host.Outcome.next ?_
  rw [hoff, writeReg_sync s v hd hc (by decide), State.writeSync, if_neg (by decide), if_neg (by decide), if_pos ⟨rfl, hv⟩]

-- Registers that do what an event does.

theorem bitOf_31 (v : Word) : bitOf 31 v.toNat = v.getLsbD 31 := by
  rw [bitOf, BitVec.getLsbD, Nat.testBit_eq_decide_div_mod_eq]

theorem bitOf_30 (v : Word) : bitOf 30 v.toNat = v.getLsbD 30 := by
  rw [bitOf, BitVec.getLsbD, Nat.testBit_eq_decide_div_mod_eq]

theorem write_subhi (s : State) (v : Word) {d : Nat} (hd : d < 4) :
    exec (.registerWrite (0x24 + 16 * d) v) s = exec (.submit d v) s := by
  have hq : (0x24 + 16 * d - 0x20) / 16 = d := by omega
  refine congrArg Host.Outcome.next ?_
  rw [State.writeReg, pageOf_global (by omega)]
  simp only [State.writeGlobal, hq]
  rw [if_neg (by omega), if_neg (by omega), if_neg (by omega), if_neg (by omega), if_neg (by omega), if_neg (by omega), if_pos (by omega)]

theorem write_tigo (s : State) (v : Word) {d : Nat} (hd : d < 4) :
    exec (.registerWrite (dieBlock d + 0x20) v) s = exec (.tigo d v) s := by
  refine congrArg Host.Outcome.next ?_
  rw [State.writeReg, pageOf_mem hd (by decide) rfl]
  rfl

theorem write_trace (s : State) (v : Word) {d : Nat} (hd : d < 4) :
    ∀ o, o ∈ [0x1040, 0x1044, 0x1048] → exec (.registerWrite (dieBlock d + o) v) s = exec (.traceConfigWrite (dieBlock d + o) v) s := by
  have key : ∀ o off, o < 0x1000 → off = dispPage d + o → s.writeDisp d o v = s.writeTrace (dispPage d + o) v →
      exec (.registerWrite off v) s = exec (.traceConfigWrite off v) s := fun o off ho h hw => by
    refine congrArg Host.Outcome.next ?_
    rw [State.writeReg, pageOf_disp hd ho h, h]
    exact hw
  simp only [List.forall_mem_cons]
  have hoff : ∀ o, dieBlock d + (0x1000 + o) = dispPage d + o := fun o => (Nat.add_assoc ..).symm
  exact ⟨key 0x40 _ (by decide) (hoff 0x40) (by simp only [State.writeDisp]), key 0x44 _ (by decide) (hoff 0x44) (by simp only [State.writeDisp]),
    key 0x48 _ (by decide) (hoff 0x48) (by simp only [State.writeDisp]), nofun⟩

theorem write_ccctl (s : State) {v : Word} {d c : Nat} (hd : d < 4) (hc : c < 4) (hv : v.getLsbD 0 = true) :
    exec (.registerWrite (dieBlock d + 0x10000 + 0x1000 * c + 0x10) v) s = exec (.ccctlWb (4 * d + c)) s := by
  refine congrArg Host.Outcome.next ?_
  rw [State.writeReg, pageOf_cluster hd hc (by decide) rfl]
  dsimp only
  rw [if_neg (by decide), if_pos ⟨rfl, hv⟩]

theorem write_cscfg (s : State) {v : Word} {d n : Nat} (hd : d < 4) (hn : n < 256) (hv : v.getLsbD 31 = true) :
    exec (.registerWrite (dieBlock d + 0x3100 + 16 * n) v) s = exec (.cscfgEnable d n v) s := by
  have hoff : dieBlock d + 0x3100 + 16 * n = dieBlock d + 0x3000 + (0x100 + 16 * n) := by omega
  have hq : (0x100 + 16 * n) % 16 = 0 ∧ (0x100 + 16 * n - 0x100) / 16 = n := by omega
  refine congrArg Host.Outcome.next ?_
  rw [State.writeReg, pageOf_fab hd (by omega) hoff]
  simp only [State.writeFab, hq, bitOf_31, hv]
  rw [if_neg (by omega), if_pos (by omega)]
  simp [hn]

theorem writeReg_queue (s : State) (v : Word) {d q o : Nat} (hd : d < 4) (hq : q < 4096) (ho : o < 0x20) :
    s.writeReg (dieBlock d + 0x20000 + 0x20 * q + o) v = s.writeQueue d q o v := by
  rw [State.writeReg, pageOf_queue hd hq ho rfl]

theorem write_qcfg (s : State) (v : Word) {d q : Nat} (hd : d < 4) (hq : q < 4096) :
    let off := dieBlock d + 0x20000 + 0x20 * q
    ((s.hq d q).en = false → v.getLsbD 31 = true → exec (.registerWrite off v) s = exec (.qcfgEnable d q v) s) ∧
    ((s.hq d q).en = true → v.getLsbD 31 = true → v.getLsbD 30 = true → exec (.registerWrite off v) s = exec (.qcfgClose d q v) s) ∧
    ((s.hq d q).en = true → exec (.registerWrite (off + 4) v) s = .next s ∧ exec (.registerWrite (off + 8) v) s = .next s) := by
  intro off
  have h0 := writeReg_queue s v hd hq (o := 0) (by decide)
  refine ⟨fun he h31 => congrArg Host.Outcome.next (h0.trans ?_), fun he h31 h30 => congrArg Host.Outcome.next (h0.trans ?_), fun he => ⟨?_, ?_⟩⟩
  · simp only [State.writeQueue, State.writeQcfg, he, bitOf_31, h31, Bool.not_true, Bool.not_false, Bool.or_self, if_true]
    rfl
  · simp only [State.writeQueue, State.writeQcfg, he, bitOf_31, bitOf_30, h31, h30, Bool.not_true, Bool.and_self, if_true]
    rfl
  · exact congrArg Host.Outcome.next ((writeReg_queue s v hd hq (o := 4) (by decide)).trans (if_pos he))
  · exact congrArg Host.Outcome.next ((writeReg_queue s v hd hq (o := 8) (by decide)).trans (if_pos he))

-- What takes no write (R6).

/-- A write that meets no trace register of a dispatcher's page changes nothing (R397). -/
theorem writeTrace_of_ne {s : State} {v : Word} {off : Nat}
    (h : ∀ d, d < 4 → off ≠ dispPage d + 0x40 ∧ off ≠ dispPage d + 0x44 ∧ off ≠ dispPage d + 0x48) :
    s.writeTrace off v = s := by
  -- The constant is unfolded, and not its application: the kernel would evaluate a difference of large numbers.
  generalize hf : State.writeTrace = f
  delta State.writeTrace at hf
  subst hf
  beta_reduce
  extract_lets e keep
  have hk : keep = none := by
    simp only [keep]
    split_ifs with h0 h1 h2 h3
    · rfl
    · exact absurd h1 (h e (by omega)).1
    · exact absurd h2 (h e (by omega)).2.1
    · exact absurd h3 (h e (by omega)).2.2
    · rfl
  clear_value keep
  subst hk
  rfl

theorem writeTrace_none {s : State} {v : Word} {d o : Nat} (ho : o < 0x1000) (h40 : o ≠ 0x40) (h44 : o ≠ 0x44) (h48 : o ≠ 0x48) :
    s.writeTrace (dispPage d + o) v = s := by
  refine writeTrace_of_ne fun e _ => ?_
  have hpage : ∀ k, dispPage k = 0x101000 + 0x300000 * k := fun k => by rw [dispPage, dieBlock]; omega
  rw [hpage, hpage]
  omega
section
variable {s : State} {v : Word} {off d o : Nat}

theorem write_ignored (h : s.writeReg off v = s) : exec (.registerWrite off v) s = .next s := congrArg Host.Outcome.next h

theorem write_global_none (ho : off < 0x100000) (hn : off ∉ [0x08, 0x10, 0x14, 0x18, 0x1C, 0x60, 0x68, 0x6C, 0x70, 0x74])
    (hs : ¬(0x20 ≤ off ∧ off < 0x60 ∧ off % 16 ∈ [0, 4])) : exec (.registerWrite off v) s = .next s := by
  refine write_ignored ?_
  rw [State.writeReg]
  by_cases h : off < 0x1000
  · simp only [List.mem_cons, List.not_mem_nil, not_or, or_false] at hn hs
    obtain ⟨h1, h2, h3, h4, h5, h6, h7, h8, h9, h10⟩ := hn
    rw [pageOf_global h]
    simp only [State.writeGlobal]
    rw [if_neg h1, if_neg h2, if_neg h3, if_neg h4, if_neg h5, if_neg (by omega), if_neg (by omega), if_neg h6, if_neg (by omega)]
  · rw [pageOf_nothing (by omega)]

theorem write_beyond (ho : 0xD00000 ≤ off) : exec (.registerWrite off v) s = .next s := by
  refine write_ignored ?_
  rw [State.writeReg, pageOf_nothing (.inr ho)]

section
variable (hd : d < 4)
include hd

theorem write_mem_none (ho : o < 0x1000) (hn : o ∉ [0x00, 0x04, 0x08, 0x10, 0x14, 0x18, 0x1C, 0x20, 0x40]) :
    exec (.registerWrite (dieBlock d + o) v) s = .next s := by
  refine write_ignored ?_
  simp only [List.mem_cons, List.not_mem_nil, not_or] at hn
  rw [State.writeReg, pageOf_mem hd ho rfl]
  dsimp only [State.writeMem]
  split
  any_goals omega
  rfl

theorem write_disp_none (ho : o < 0x1000) (hn : o ∉ [0x00, 0x04, 0x08, 0x40, 0x44, 0x48, 0x4C]) :
    exec (.registerWrite (dieBlock d + 0x1000 + o) v) s = .next s := by
  refine write_ignored ?_
  simp only [List.mem_cons, List.not_mem_nil, not_or] at hn
  rw [State.writeReg, pageOf_disp hd ho rfl]
  dsimp only [State.writeDisp]
  split
  · omega
  · omega
  · omega
  · omega
  · exact writeTrace_none ho (by omega) (by omega) (by omega)

theorem write_gfx_none (h0 : 0 < o) (ho : o < 0x1000) : exec (.registerWrite (dieBlock d + 0x2000 + o) v) s = .next s := by
  refine write_ignored ?_
  rw [State.writeReg, pageOf_gfx hd ho rfl]
  exact if_neg (by omega)

theorem write_fab_none (ho : o < 0x100) (hn : o ∉ [0x00, 0x04, 0x08, 0x0C]) :
    exec (.registerWrite (dieBlock d + 0x3000 + o) v) s = .next s := by
  refine write_ignored ?_
  simp only [List.mem_cons, List.not_mem_nil, not_or] at hn
  rw [State.writeReg, pageOf_fab hd (by omega) rfl]
  dsimp only [State.writeFab]
  rw [if_pos ho]
  split
  any_goals omega
  rfl

theorem write_cluster_none {c : Nat} (hc : c < 4) (ho : o < 0x1000) (h0 : o ≠ 0) (hv : o = 0x10 → v.getLsbD 0 = false) :
    exec (.registerWrite (dieBlock d + 0x10000 + 0x1000 * c + o) v) s = .next s := by
  refine write_ignored ?_
  have hb : ¬(o = 0x10 ∧ v.getLsbD 0 = true) := fun h => by rw [hv h.1] at h; exact Bool.noConfusion h.2
  rw [State.writeReg, pageOf_cluster hd hc ho rfl]
  dsimp only
  rw [if_neg h0, if_neg hb]

theorem write_queue_none {q : Nat} (hq : q < 4096) (ho : o < 0x20) (hn : o ∉ [0x00, 0x04, 0x08]) :
    exec (.registerWrite (dieBlock d + 0x20000 + 0x20 * q + o) v) s = .next s := by
  refine write_ignored ?_
  simp only [List.mem_cons, List.not_mem_nil, not_or] at hn
  rw [writeReg_queue s v hd hq ho]
  dsimp only [State.writeQueue]
  split
  any_goals omega
  rfl

theorem write_region_none {core slot : Nat} (hc : core < 16) (hs : slot < 32) (ho : o < 0x40) (hn : o ∉ [0x00, 0x04, 0x08, 0x18]) :
    exec (.registerWrite (dieBlock d + 0x40000 + 0x2000 * core + 0x40 * slot + o) v) s = .next s := by
  refine write_ignored ?_
  simp only [List.mem_cons, List.not_mem_nil, not_or] at hn
  rw [writeReg_region s v hd hc hs ho]
  dsimp only [State.writeRegion]
  split
  any_goals omega
  rfl

theorem write_sync_none {core : Nat} (hc : core < 16) (h8 : 0x800 ≤ o) (ho : o < 0x1000) (hb : o < 0xE00 → o % 16 ≠ 0)
    (hv : o = 0xE00 → v.getLsbD 31 = false) : exec (.registerWrite (dieBlock d + 0x41000 + 0x2000 * core + o) v) s = .next s := by
  refine write_ignored ?_
  have hj : ¬(o = 0xE00 ∧ v.getLsbD 31 = true) := fun h => by rw [hv h.1] at h; exact Bool.noConfusion h.2
  rw [writeReg_sync s v hd hc ho, State.writeSync, if_neg (by omega)]
  split
  · next hlt => exact if_neg (hb hlt)
  · rfl

end
end

/-- Settles O60: page by page, a write to a BAR0 offset is what the page's registers make of it. -/
theorem registerWrites : Obligations.RegisterWrites := by
  unfold Obligations.RegisterWrites
  intro s v die write holds field fit
  refine ⟨regHolds_global_plain s v, fun d hd hs => regHolds_sublo v hd hs, fun d hd => regHolds_die_plain s v hd,
    fun d hd => ⟨regHolds_fdcfg s v hd, regHolds_dscfg s v hd, fun c hc => regHolds_wtcfg s v hd hc,
      fun core slot hc hs => write_dlcfg s v hd hc hs⟩,
    fun d core slot hd hc hs => ?rctl,
    fun d core n hd hc hn => ?sync, rfl, rfl,
    fun d hd => ⟨write_subhi s v hd, write_tigo s v hd, write_trace s v hd, fun c hc hv => write_ccctl s hd hc hv,
      fun n hn hv => write_cscfg s hd hn hv, fun q hq => write_qcfg s v hd hq⟩,
    fun off ho hn hs => write_global_none ho hn hs, fun off ho => write_beyond ho,
    fun d o hd => ⟨write_mem_none hd, write_disp_none hd, write_gfx_none hd, write_fab_none hd,
      fun c hc ho h0 hv => write_cluster_none hd hc ho h0 hv, fun q hq ho hn => write_queue_none hd hq ho hn,
      fun core slot hc hs ho hn => write_region_none hd hc hs ho hn,
      fun core hc h8 ho hb hv => write_sync_none hd hc h8 ho hb hv⟩⟩
  case rctl =>
    obtain ⟨hkill, hresume, hplain⟩ := write_rctl s v hd hc hs
    exact ⟨hkill, hresume, hplain, write_rdbg s v hd hc hs, write_rstat s v hd hc hs⟩
  case sync =>
    obtain ⟨hval, habt⟩ := write_sem s v hd hc hn
    exact ⟨hval, habt, fun hn => write_sbcfg s v hd hc hn, fun hv => write_cjctl s hd hc hv⟩

end Sys2Proof.Machine
end

section
/-!
SUPPORT. A kill against a freeze that is none: what an element keeps of its freezes then is not what the statement says (R46, R194).
-/
namespace Sys2Proof.Machine
open Claims

/-- A region with no contexts, under no gang. -/
def bareRegion : Region := { gang := 0, inst := 0, lease := 0, wx := 1, wy := 1, tmap := [] }

/-- Element 0 is frozen by region 0, and lists under that freeze one of region 1 that is none. -/
def frozenOverNone : State :=
  { State.reset with regions := [(0, bareRegion)], fab := { State.reset.fab with elems := [(0, { freeze := .posted, owner := 0, under := [(.no, 1)] })] } }

theorem freezes_frozenOverNone : (frozenOverNone.elem 0).freezes = [(.posted, 0), (.no, 1)] := rfl

/-- The kill leaves a freeze that is none in front, where it counts as no freeze. -/
theorem freezes_killRegion_frozenOverNone : ((frozenOverNone.killRegion 0).elem 0).freezes = [] := by decide +kernel

/-- Refutes O48: the clause on a kill says of every state that an element keeps the freezes of the other regions. In `frozenOverNone` an
element lists, under a freeze of the region killed, one of another region that is none (`Freeze.no`), which the statement keeps and the model
does not count. No firing makes such a list; the statement does not ask that its state has none. -/
theorem not_endsAndResumes : ¬ Obligations.EndsAndResumes := by
  unfold Obligations.EndsAndResumes
  intro h
  obtain ⟨-, -, hregion⟩ := h frozenOverNone
  obtain ⟨-, hkill, -⟩ := hregion 0 bareRegion rfl
  obtain ⟨t, k, hstep, -, -, -, -, -, -, -, -, -, -, -, -, -, -, -, -, hfreezes, -⟩ := hkill rfl
  obtain rfl : frozenOverNone.killRegion 0 = t := Host.Outcome.next.inj hstep
  have h0 := hfreezes 0
  rw [freezes_killRegion_frozenOverNone, freezes_frozenOverNone] at h0
  exact absurd h0 (by decide)

end Sys2Proof.Machine
end

section
/-!
SUPPORT. The counters that a round set keeps of the rings that it reaches (R184), and the opening of a round (R181, R188).
-/
namespace Sys2Proof.Machine
open Claims

-- Folds and tables.

/-- What one element of a list brings about in a fold, and what every later one keeps, holds at the end. -/
theorem foldl_reaches {σ α : Type} {P Q : σ → Prop} {f : σ → α → σ} (hQ : ∀ s x, Q s → Q (f s x)) (hP : ∀ s x, P s → P (f s x))
    {l : List α} {y : α} (hy : y ∈ l) (h : ∀ s, Q s → P (f s y)) {s : σ} (hs : Q s) : P (l.foldl f s) := by
  induction l generalizing s with
  | nil => exact absurd hy List.not_mem_nil
  | cons x xs ih =>
    rcases List.mem_cons.mp hy with rfl | hy
    · exact foldl_keeps P f hP xs (h s hs)
    · exact ih hy (hQ s x hs)

theorem Tab.mem_of_look {α : Type} {t : Tab α} {k : Nat} {x : α} (h : t.look k = some x) : (k, x) ∈ t := by
  induction t with
  | nil => cases h
  | cons e t ih =>
    rw [Tab.look] at h
    split at h
    · next hk => cases h; subst hk; exact List.mem_cons_self
    · exact List.mem_cons_of_mem _ (ih h)

/-- The tables that list related values under the same keys. -/
theorem Tab.look_of_forall₂ {α β : Type} {R : α → β → Prop} {t : Tab α} {u : Tab β} (h : List.Forall₂ (fun e f => f.1 = e.1 ∧ R e.2 f.2) t u)
    (k : Nat) : (t.look k = none → u.look k = none) ∧ ∀ x, t.look k = some x → ∃ y, u.look k = some y ∧ R x y := by
  induction h with
  | nil => exact ⟨fun _ => rfl, fun x hx => absurd hx (by simp [Tab.look])⟩
  | cons hef _ ih =>
    obtain ⟨hkey, hR⟩ := hef
    simp only [Tab.look, hkey]
    split
    · exact ⟨fun h => absurd h (by simp), fun x hx => ⟨_, rfl, Option.some.inj hx ▸ hR⟩⟩
    · exact ih

-- Views of rings.

/-- Ring `b` is `a`, with views of its outside counters for some round sets that had none. -/
def Ring.Viewed (a b : Ring) : Prop :=
  b = { a with views := b.views } ∧
    ∀ (k : Nat) (v : RView), (a.views.look k = some v → b.views.look k = some v) ∧
      (a.views.look k = none → b.views.look k = some v → v = { head := a.head, tail := a.tail, committed := a.head })

theorem Ring.Viewed.refl (a : Ring) : a.Viewed a := ⟨rfl, fun _ _ => ⟨id, fun h h' => absurd (h.symm.trans h') (by simp)⟩⟩

theorem Ring.Viewed.trans {a b c : Ring} (h : a.Viewed b) (k : b.Viewed c) : a.Viewed c := by
  obtain ⟨hb, hv⟩ := h
  obtain ⟨hc, kv⟩ := k
  have hcount : b.head = a.head ∧ b.tail = a.tail := by rw [hb]; exact ⟨rfl, rfl⟩
  refine ⟨by rw [hc, hb], fun n v => ⟨fun h => (kv n v).1 ((hv n v).1 h), fun hn hs => ?_⟩⟩
  cases hbn : b.views.look n with
  | none => rw [(kv n v).2 hbn hs, hcount.1, hcount.2]
  | some w =>
    obtain rfl : w = v := Option.some.inj (((kv n w).1 hbn).symm.trans hs)
    exact (hv n w).2 hn hbn

/-- Region `y` is `x`, with views of some of its rings for round sets that had none. -/
def Region.Viewed (x y : Region) : Prop :=
  y = { x with rings := y.rings } ∧ y.rings.length = x.rings.length ∧
    ∀ (n : Nat) (a b : Ring), x.rings[n]? = some a → y.rings[n]? = some b → a.Viewed b

theorem Region.Viewed.refl (x : Region) : x.Viewed x :=
  ⟨rfl, rfl, fun _ a _ ha hb => Option.some.inj (ha.symm.trans hb) ▸ .refl a⟩

theorem Region.Viewed.trans {x y z : Region} (h : x.Viewed y) (k : y.Viewed z) : x.Viewed z := by
  obtain ⟨hy, hlen, hring⟩ := h
  obtain ⟨hz, klen, kring⟩ := k
  refine ⟨by rw [hz, hy], klen.trans hlen, fun n a c ha hc => ?_⟩
  have hn : n < y.rings.length := hlen ▸ (List.getElem?_eq_some_iff.mp ha).1
  exact (hring n a _ ha (List.getElem?_eq_getElem hn)).trans (kring n _ c (List.getElem?_eq_getElem hn) hc)

/-- From `s` to `t` nothing changes but that round sets gain views of rings. -/
structure Views (s t : State) : Prop where
  rest : t = { s with regions := t.regions }
  regions : List.Forall₂ (fun e f => f.1 = e.1 ∧ Region.Viewed e.2 f.2) s.regions t.regions

theorem Views.refl (s : State) : Views s s := ⟨rfl, List.forall₂_same.mpr fun e _ => ⟨rfl, .refl e.2⟩⟩

theorem Views.trans {s t u : State} (h : Views s t) (k : Views t u) : Views s u := by
  refine ⟨by rw [k.rest, h.rest], ?_⟩
  have hst := h.regions
  have htu := k.regions
  generalize s.regions = a, t.regions = b, u.regions = c at hst htu
  induction hst generalizing c with
  | nil => exact htu
  | cons hab _ ih =>
    cases htu with
    | cons hbc htu => exact .cons ⟨hbc.1.trans hab.1, hab.2.trans hbc.2⟩ (ih _ htu)

theorem Views.region_none {s t : State} (h : Views s t) {r : Nat} (hr : s.region r = none) : t.region r = none :=
  (Tab.look_of_forall₂ h.regions r).1 hr

theorem Views.region_some {s t : State} (h : Views s t) {r : Nat} {x : Region} (hr : s.region r = some x) :
    ∃ y, t.region r = some y ∧ x.Viewed y :=
  (Tab.look_of_forall₂ h.regions r).2 x hr

/-- The round set of region `k` has a view of a ring, if that is one. -/
def State.Sees (s : State) (k a n : Nat) : Prop := ∀ x, s.ring a n = some x → (x.views.look k).isSome = true

/-- A view stays. -/
theorem State.Sees.views {s t : State} {k a n : Nat} (hs : s.Sees k a n) (h : Views s t) : t.Sees k a n := by
  intro y hy
  obtain ⟨y', hy', hyn⟩ := Option.bind_eq_some_iff.mp hy
  cases hr : s.region a with
  | none => rw [h.region_none hr] at hy'; cases hy'
  | some x =>
    obtain ⟨z, hz, -, hlen, hring⟩ := h.region_some hr
    obtain rfl : z = y' := Option.some.inj (hz.symm.trans hy')
    have hn : n < x.rings.length := hlen ▸ (List.getElem?_eq_some_iff.mp hyn).1
    obtain ⟨v, hv⟩ := Option.isSome_iff_exists.mp (hs x.rings[n] (by rw [State.ring, hr]; exact List.getElem?_eq_getElem hn))
    rw [((hring n _ y (List.getElem?_eq_getElem hn) hyn).2 k v).1 hv]
    rfl

/-- A round set takes a view of a ring of which it has none. -/
def Ring.viewedBy (k : Nat) (q : Ring) : Ring := if (q.views.look k).isSome then q else { q with views := q.views.put k (q.sees none) }

theorem Ring.viewedBy_viewed (k : Nat) (q : Ring) : q.Viewed (q.viewedBy k) := by
  unfold Ring.viewedBy
  split
  · exact .refl q
  · next hk =>
    have hnone : q.views.look k = none := by simpa using hk
    refine ⟨rfl, fun n v => ?_⟩
    by_cases hn : n = k
    · subst hn
      rw [hnone]
      exact ⟨fun h => absurd h (by simp), fun _ h => ((Tab.look_put_same ..).symm.trans h |> Option.some.inj).symm⟩
    · refine ⟨fun h => (Tab.look_put_other _ hn _).trans h, fun h h' => ?_⟩
      rw [Tab.look_put_other _ hn] at h'
      exact absurd (h.symm.trans h') (by simp)

theorem Ring.viewedBy_isSome (k : Nat) (q : Ring) : ((q.viewedBy k).views.look k).isSome = true := by
  unfold Ring.viewedBy
  split
  · assumption
  · rw [Tab.look_put_same]; rfl

theorem Region.viewed_mapIdx (g : Region) (n k : Nat) :
    g.Viewed { g with rings := g.rings.mapIdx fun i q => if i = n then q.viewedBy k else q } := by
  refine ⟨rfl, List.length_mapIdx, fun i a b ha hb => ?_⟩
  rw [List.getElem?_mapIdx, ha, Option.map_some, Option.some.injEq] at hb
  subst hb
  split
  · exact Ring.viewedBy_viewed k a
  · exact .refl a

theorem Views.updRing (s : State) (a n k : Nat) : Views s (s.updRing a n (Ring.viewedBy k)) := by
  refine ⟨rfl, List.forall₂_map_right_iff.mpr (List.forall₂_same.mpr fun e _ => ?_)⟩
  dsimp only
  split
  · exact ⟨rfl, Region.viewed_mapIdx e.2 n k⟩
  · exact ⟨rfl, .refl e.2⟩

theorem State.Sees.updRing (s : State) (k a n : Nat) : (s.updRing a n (Ring.viewedBy k)).Sees k a n := by
  intro x h
  rw [State.ring, State.updRing, State.region_updRegion, if_pos rfl] at h
  cases hr : s.region a with
  | none => rw [hr] at h; cases h
  | some g =>
    rw [hr, Option.map_some, Option.bind_some, List.getElem?_mapIdx] at h
    obtain ⟨q, -, rfl⟩ := Option.map_eq_some_iff.mp h
    rw [if_pos rfl]
    exact Ring.viewedBy_isSome k q

-- Where the rings of a region are.

/-- The places of the regions: what the numbers of their rings depend on (R303). -/
def State.places (s : State) : Tab (Nat × Nat) := s.regions.map fun e => (e.1, e.2.gang, e.2.inst)

theorem State.region_place (s : State) (r : Nat) : (s.region r).map (fun g => (g.gang, g.inst)) = s.places.look r :=
  (Tab.look_map_snd (fun g : Region => (g.gang, g.inst)) s.regions r).symm

theorem State.find?_place (s : State) (gang inst : Nat) :
    (s.regions.find? fun e => e.2.gang = gang && e.2.inst = inst).map (fun e => e.1) =
      (s.places.find? fun e => e.2.1 = gang && e.2.2 = inst).map fun e => e.1 := by
  rw [State.places, List.find?_map, Option.map_map]
  rfl

theorem State.ringOf_congr {s t : State} (hp : s.places = t.places) (hd : s.dies = t.dies) (r n : Nat) : s.ringOf r n = t.ringOf r n := by
  have hreg := (s.region_place r).trans ((congrArg (Tab.look · r) hp).trans (t.region_place r).symm)
  have hfind : ∀ gang inst, (s.regions.find? fun e => e.2.gang = gang && e.2.inst = inst).map (fun e => e.1) =
      (t.regions.find? fun e => e.2.gang = gang && e.2.inst = inst).map fun e => e.1 := fun gang inst => by
    rw [s.find?_place, t.find?_place, hp]
  have hgang : ∀ n, s.gang n = t.gang n := fun n => by rw [State.gang, State.gang, hd]
  unfold State.ringOf
  cases hs : s.region r with
  | none =>
    rw [hs, Option.map_none, eq_comm, Option.map_eq_none_iff] at hreg
    rw [hreg]
  | some g =>
    rw [hs, Option.map_some, eq_comm, Option.map_eq_some_iff] at hreg
    obtain ⟨h, ht, hpl⟩ := hreg
    obtain ⟨hg, hi⟩ := Prod.mk.inj hpl
    rw [ht]
    dsimp only
    rw [hgang, hg, hi]
    split
    · rfl
    · split
      · next b _ =>
        have := hfind g.gang b.2
        split
        · rfl
        · split <;> split <;> simp_all
      · rfl

theorem Views.places {s t : State} (h : Views s t) : t.places = s.places := by
  have key := h.regions
  unfold State.places
  generalize s.regions = a, t.regions = b at key
  induction key with
  | nil => rfl
  | cons hef _ ih =>
    obtain ⟨hk, hy, -, -⟩ := hef
    rw [List.map_cons, List.map_cons, ih, hk, hy]

theorem Views.ringOf {s t : State} (h : Views s t) (r n : Nat) : t.ringOf r n = s.ringOf r n :=
  State.ringOf_congr h.places (by rw [h.rest]) r n

-- All round sets.

/-- A round set of a region takes views of the rings of a list of places. -/
def State.viewAll (k : Nat) (s : State) (l : List (Nat × Nat)) : State := l.foldl (fun s x => s.updRing x.1 x.2 (Ring.viewedBy k)) s

theorem State.viewRings_eq (s : State) : s.viewRings = (s.regions.filter fun e => e.2.on && !e.2.roundSet.isEmpty).foldl (fun s e =>
    s.viewAll e.1 ((List.range e.2.rings.length).map (s.ringOf e.1))) s := rfl

theorem Views.viewAll {s t : State} (h : Views s t) (k : Nat) (l : List (Nat × Nat)) : Views s (t.viewAll k l) :=
  foldl_keeps (Views s ·) _ (fun _ _ h => h.trans (Views.updRing ..)) l h

theorem Views.viewRings (s : State) : Views s s.viewRings :=
  foldl_keeps (Views s ·) _ (fun _ _ h => h.viewAll ..) _ (.refl s)

/-- Each round set has a view of every ring that it reaches (R184). -/
theorem State.viewRings_sees {s : State} {r : Nat} {g : Region} (hg : s.region r = some g) (hon : g.on = true) (hset : g.roundSet ≠ []) {m : Nat}
    (hm : m < g.rings.length) : s.viewRings.Sees r (s.ringOf r m).1 (s.ringOf r m).2 := by
  have hmem : (r, g) ∈ s.regions.filter fun e => e.2.on && !e.2.roundSet.isEmpty := by
    rw [List.mem_filter, hon, Bool.true_and, Bool.not_eq_true', List.isEmpty_eq_false_iff]
    exact ⟨Tab.mem_of_look hg, hset⟩
  refine foldl_reaches (Q := Views s) (P := fun t : State => t.Sees r (s.ringOf r m).1 (s.ringOf r m).2)
    (fun t e h => h.viewAll ..) (fun t e h => h.views ((Views.refl t).viewAll ..)) hmem (fun t ht => ?_) (.refl s)
  exact foldl_reaches (Q := fun _ => True) (P := fun t : State => t.Sees r (s.ringOf r m).1 (s.ringOf r m).2) (fun _ _ h => h)
    (fun t e h => h.views (Views.updRing ..)) (List.mem_map.mpr ⟨m, List.mem_range.mpr hm, ht.ringOf r m⟩)
    (fun u _ => State.Sees.updRing u _ _ _) trivial

-- Opening.

/-- What the conditions of an open round say (R136, R181, R188, R189, R393). -/
theorem Region.mayOpen_iff (g : Region) :
    g.mayOpen = true ↔ g.on = true ∧ g.dead = false ∧ g.round.isOpen = false ∧ g.round.held = false ∧ g.stepping = false ∧ g.stepHeld = false ∧
      (∃ c ∈ g.ctxs, c.isRounded = true ∧ c.retired = false) ∧ (∀ c ∈ g.ctxs, c.isRounded = true → c.trapped = false) ∧
      g.round.n % 2 ∉ g.round.drain ∧ g.round.half.entries = [] := by
  simp only [Region.mayOpen, Region.roundSet, Bool.and_eq_true, Bool.not_eq_true', List.any_eq_true, List.all_eq_true, List.mem_filter,
    List.isEmpty_iff, List.contains_eq_mem, decide_eq_false_iff_not, and_assoc, and_imp]

/-- A region as its round opens, before the views of its rings. -/
def Region.opened (g : Region) (stepGo : Bool) : Region :=
  { g with
    round := { g.round with isOpen := true, early := false, held := false, quiet := false }
    stepGo
    ctxs := mapIf Ctx.isRounded (fun c => { c with armed := 0xFFFF#16 }) g.ctxs
    gens := g.gens.map fun e => (e.1, if e.2.rounded && e.2.running then { e.2 with quota := g.grantFor e.2 } else e.2) }

theorem State.openRound_eq (s : State) (r : Nat) :
    s.openRound r = (s.updRegion r fun g => g.opened ((s.rreg r).rdbg.getLsbD 1)).viewRings := rfl

theorem State.places_updRegion (s : State) (r : Nat) {f : Region → Region} (hf : ∀ g, (f g).gang = g.gang ∧ (f g).inst = g.inst) :
    (s.updRegion r f).places = s.places := by
  simp only [State.places, State.updRegion, Tab.upd, List.map_map]
  refine List.map_congr_left fun e _ => ?_
  obtain ⟨h1, h2⟩ := hf e.2
  simp only [Function.comp_apply]
  split <;> simp [*]

section
variable {s : State} {r : Nat}

theorem State.openRound_region {g : Region} (hg : s.region r = some g) :
    ∃ h : Region, (s.openRound r).region r = some h ∧ (g.opened ((s.rreg r).rdbg.getLsbD 1)).Viewed h :=
  (Views.viewRings _).region_some (State.region_updRegion_same hg)

theorem State.openRound_other {q : Nat} (hq : q ≠ r) : (s.region q = none → (s.openRound r).region q = none) ∧
    ∀ x : Region, s.region q = some x → ∃ y : Region, (s.openRound r).region q = some y ∧ x.Viewed y := by
  have hu : (s.updRegion r fun g => g.opened ((s.rreg r).rdbg.getLsbD 1)).region q = s.region q := by
    rw [State.region_updRegion, if_neg hq]
  exact ⟨fun h => (Views.viewRings _).region_none (hu.trans h), fun x h => (Views.viewRings _).region_some (hu.trans h)⟩

theorem State.openRound_rest : s.openRound r = { s with regions := (s.openRound r).regions } := (Views.viewRings _).rest

theorem State.openRound_sees {g : Region} (hg : s.region r = some g) (hon : g.on = true) (hset : g.roundSet ≠ []) {m : Nat}
    (hm : m < g.rings.length) : (s.openRound r).Sees r (s.ringOf r m).1 (s.ringOf r m).2 := by
  have hof : (s.updRegion r fun g => g.opened ((s.rreg r).rdbg.getLsbD 1)).ringOf r m = s.ringOf r m :=
    State.ringOf_congr (s.places_updRegion r (f := fun g => g.opened _) fun _ => ⟨rfl, rfl⟩) rfl r m
  rw [← hof]
  refine State.viewRings_sees (State.region_updRegion_same hg) hon (fun h => hset ?_) hm
  rw [Region.roundSet, List.filter_eq_nil_iff] at h ⊢
  intro c hc hr
  refine h (if c.isRounded then { c with armed := 0xFFFF#16 } else c) (List.mem_map_of_mem hc) ?_
  rw [if_pos hr]
  exact hr

end

end Sys2Proof.Machine
end

section
/-!
SUPPORT. The commit of a round (R138, R180, R184, R187).
-/
namespace Sys2Proof.Machine
open Claims

-- A region as its round commits.

/-- The round that a commit leaves: the half that was written begins to drain, or is free where nothing is held. -/
def Round.committed (x : Round) : Round :=
  let y : Round := { x with n := x.n + 1, isOpen := false, early := false,
                            drain := if (x.halfNo (x.n % 2)).entries.isEmpty then x.drain else x.drain ++ [x.n % 2] }
  if (x.halfNo (x.n % 2)).entries.isEmpty then y.setHalfNo (x.n % 2) {} else y

/-- The region that a commit leaves, its shadow apart. -/
def Region.committed (g : Region) (r : Nat) : Region :=
  { g with ctxs := mapIf Ctx.isRounded Ctx.commit g.ctxs, rings := g.rings.map fun q => q.publish r, round := g.round.committed }

/-- The traps of a region's contexts are given over for posting (R136, R189). -/
def State.giveTraps (s : State) (r : Nat) (g : Region) : State :=
  g.roundSet.foldl (fun s c => c.traps.foldl (fun s rcd => s.giveRec (c.id r) (coreOf r) (s.fringOf g.gang) [] rcd) s) s

theorem Round.halfNo_parity (x : Round) : x.halfNo (x.n % 2) = x.half := rfl

theorem Round.committed_n (x : Round) : x.committed.n = x.n + 1 := by
  unfold Round.committed Round.setHalfNo
  dsimp only
  split
  · split <;> rfl
  · rfl

theorem Round.committed_isOpen (x : Round) : x.committed.isOpen = false := by
  unfold Round.committed Round.setHalfNo
  dsimp only
  split
  · split <;> rfl
  · rfl

theorem Round.committed_drain (x : Round) :
    x.committed.drain = if x.half.entries = [] then x.drain else x.drain ++ [x.n % 2] := by
  simp only [Round.committed, Round.halfNo_parity, List.isEmpty_iff, Round.setHalfNo]
  split
  · split <;> rfl
  · rfl

/-- The round after a commit is held in the other half (R188). -/
theorem Round.committed_half (x : Round) : x.committed.half = if x.n % 2 = 0 then x.h1 else x.h0 := by
  have hpar : (x.n + 1) % 2 = 0 ↔ ¬x.n % 2 = 0 := by omega
  rw [Round.half, Round.committed_n, if_congr hpar rfl rfl]
  unfold Round.committed Round.setHalfNo
  by_cases hn : x.n % 2 = 0
  · rw [if_neg (not_not_intro hn), if_pos hn]
    split <;> simp
  · rw [if_pos hn, if_neg hn]
    split <;> simp

/-- A context whose round has trapped stands still until RESUME (R136). -/
theorem Ctx.commit_trapped (c : Ctx) : c.commit.trapped = decide (c.traps ≠ []) := by
  rw [Ctx.commit]
  cases c.traps <;> rfl

/-- What a commit publishes of a ring (R184, R187). -/
theorem Ring.publish_spec {x : Ring} {r : Nat} {w : RView} (h : x.views.look r = some w) :
    ∃ v : RView, (x.publish r).tail = w.tail ∧ (x.publish r).head = (if w.head = w.committed then x.head else w.head) ∧
      (x.publish r).views.look r = some v ∧ v.head = (x.publish r).head ∧ v.tail = w.tail ∧ v.committed = (x.publish r).head := by
  rw [Ring.publish, h]
  exact ⟨_, rfl, rfl, Tab.look_put_same .., rfl, rfl, rfl⟩

-- The traps.

/-- The records to be posted that a fold of records leaves hold those from before. -/
theorem State.giveTraps_spec (s : State) (r : Nat) (g : Region) :
    s.giveTraps r g = { s with fab := { s.fab with recs := (s.giveTraps r g).fab.recs }, uid := (s.giveTraps r g).uid } := by
  refine foldl_keeps (fun t : State => t = { s with fab := { s.fab with recs := t.fab.recs }, uid := t.uid }) _ (fun t c ht => ?_) g.roundSet rfl
  refine foldl_keeps (fun t : State => t = { s with fab := { s.fab with recs := t.fab.recs }, uid := t.uid }) _ (fun t rcd ht => ?_) c.traps ht
  rw [ht]; rfl

/-- Every trap of a round's contexts has its record. -/
theorem State.giveTraps_recs (s : State) (r : Nat) (g : Region) {c : Ctx} (hc : c ∈ g.ctxs) (hr : c.isRounded = true) {x : Rec}
    (hx : x ∈ c.traps) : ∃ q ∈ (s.giveTraps r g).fab.recs, q.rcd = x ∧ q.ctx = c.id r := by
  have hstep : ∀ (t : State) (d : Ctx) (rcd : Rec), (∃ q ∈ t.fab.recs, q.rcd = x ∧ q.ctx = c.id r) →
      ∃ q ∈ (t.giveRec (d.id r) (coreOf r) (t.fringOf g.gang) [] rcd).fab.recs, q.rcd = x ∧ q.ctx = c.id r :=
    fun t d rcd ⟨q, hq, h⟩ => ⟨q, List.mem_append_left _ hq, h⟩
  refine foldl_reaches (Q := fun _ => True) (P := fun t : State => ∃ q ∈ t.fab.recs, q.rcd = x ∧ q.ctx = c.id r) (fun _ _ h => h)
    (fun t d h => foldl_keeps _ _ (fun t rcd => hstep t d rcd) d.traps h) (List.mem_filter.mpr ⟨hc, hr⟩) (fun t _ => ?_) trivial
  exact foldl_reaches (Q := fun _ => True) (P := fun t : State => ∃ q ∈ t.fab.recs, q.rcd = x ∧ q.ctx = c.id r) (fun _ _ h => h)
    (fun t rcd => hstep t c rcd) hx (fun u _ => ⟨_, List.mem_append_right _ List.mem_cons_self, rfl, rfl⟩) trivial

-- The commit.

/-- Discarding at some elements changes no region, no memory and no record. -/
theorem State.tidyAll_keeps (s : State) (l : List Nat) :
    (l.foldl State.tidy s).regions = s.regions ∧ (l.foldl State.tidy s).store = s.store ∧ (l.foldl State.tidy s).fab.recs = s.fab.recs := by
  refine foldl_keeps (fun t : State => t.regions = s.regions ∧ t.store = s.store ∧ t.fab.recs = s.fab.recs) _ (fun t p ⟨h1, h2, h3⟩ => ?_) l
    ⟨rfl, rfl, rfl⟩
  have hp := Pops.tidy t p
  exact ⟨by rw [hp.rest]; exact h1, hp.store.trans h2, by rw [hp.fabric]; exact h3⟩

theorem State.region_map (s : State) (f : Region → Region) (r : Nat) :
    ({ s with regions := s.regions.map fun (e : Nat × Region) => (e.1, f e.2) } : State).region r = (s.region r).map f :=
  Tab.look_map_snd f s.regions r

/-- The steps of a commit, by what each does to the region. -/
def Region.ctxsCommitted (g : Region) : Region := { g with ctxs := mapIf Ctx.isRounded Ctx.commit g.ctxs }
def Region.published (r : Nat) (g : Region) : Region := { g with rings := g.rings.map fun q => q.publish r }
def Region.roundClosed (h : Nat) (g : Region) : Region :=
  { g with round := { g.round with n := g.round.n + 1, isOpen := false, early := false,
                                   drain := if (g.round.halfNo h).entries.isEmpty then g.round.drain else g.round.drain ++ [h] } }
def Region.halfFreed (h : Nat) (g : Region) : Region :=
  if (g.round.halfNo h).entries.isEmpty then { g with round := g.round.setHalfNo h {} } else g

theorem Region.committed_eq (g : Region) (r : Nat) :
    ((g.ctxsCommitted.published r).roundClosed (g.round.n % 2)).halfFreed (g.round.n % 2) = g.committed r := by
  simp only [Region.committed, Round.committed, Region.halfFreed, Region.roundClosed, Region.published, Region.ctxsCommitted, Round.halfNo]
  split <;> split <;> simp_all

/-- The state of a commit before it publishes the counters of rings. -/
def State.tidied (s : State) (r : Nat) (g : Region) : State :=
  (g.roundSet.map fun c => g.phys c.el).dedup.foldl State.tidy ((s.giveTraps r g).updRegion r Region.ctxsCommitted)

/-- The state of a commit before it takes the checkpoint. -/
def State.committing (s : State) (r : Nat) (g : Region) : State :=
  let u := s.tidied r g
  ((({ u with regions := u.regions.map fun (e : Nat × Region) => (e.1, e.2.published r) } : State).updRegion r
    (Region.roundClosed (g.round.n % 2))).updRegion r (Region.halfFreed (g.round.n % 2)))

theorem State.commitRound_eq (s : State) (r : Nat) (g : Region) :
    s.commitRound r g = match (s.committing r g).region r with
      | none => s.committing r g
      | some h =>
        let sh := (s.committing r g).checkpoint r h
        let sh := { sh with ctxs := sh.ctxs.map fun c => { c with trapped := false } }
        (s.committing r g).updRegion r fun g => { g with round := { g.round with shadow := some sh } } := rfl

theorem State.committing_keeps (s : State) (r : Nat) (g : Region) :
    (s.committing r g).store = s.store ∧ (s.committing r g).fab.recs = (s.giveTraps r g).fab.recs := by
  obtain ⟨-, hstore, hrecs⟩ := State.tidyAll_keeps ((s.giveTraps r g).updRegion r Region.ctxsCommitted) (g.roundSet.map fun c => g.phys c.el).dedup
  refine ⟨hstore.trans ?_, hrecs⟩
  rw [State.updRegion_store, s.giveTraps_spec r g]

theorem State.committing_region {s : State} {r : Nat} {g : Region} (hg : s.region r = some g) :
    (s.committing r g).region r = some (g.committed r) := by
  have htraps : (s.giveTraps r g).region r = some g := by rw [s.giveTraps_spec r g]; exact hg
  have htidy : (s.tidied r g).region r = some g.ctxsCommitted := by
    rw [State.region, State.tidied, (State.tidyAll_keeps _ _).1]
    exact State.region_updRegion_same htraps
  rw [← g.committed_eq r]
  exact State.region_updRegion_same (State.region_updRegion_same ((State.region_map _ _ r).trans (congrArg _ htidy)))

/-- What a commit leaves: the region with its checkpoint, the memory as it was, and the records given over (R187). -/
theorem State.commitRound_spec {s : State} {r : Nat} {g : Region} (hg : s.region r = some g) :
    ∃ sh : Shadow, (s.commitRound r g).region r = some { g.committed r with round := { (g.committed r).round with shadow := some sh } } ∧
      sh.ctxs.map (fun c => (c.el, c.k, c.regs, c.preds)) = ((g.committed r).ctxs.filter fun c => c.isRounded).map (fun c => (c.el, c.k, c.regs, c.preds)) ∧
      (s.commitRound r g).store = s.store ∧ (s.commitRound r g).fab.recs = (s.giveTraps r g).fab.recs := by
  have hreg := State.committing_region hg
  obtain ⟨hstore, hrecs⟩ := s.committing_keeps r g
  rw [State.commitRound_eq, hreg]
  refine ⟨_, State.region_updRegion_same hreg, ?_, hstore, hrecs⟩
  simp only [State.checkpoint, List.map_map]
  rfl

end Sys2Proof.Machine
end

section
/-!
SUPPORT. What a cluster reads after a store of its own, and after a write of its own at the home (R288, R289, R290).
-/
namespace Sys2Proof.Machine
open Claims

-- What a store changes.

theorem Puts.refl (s : State) : Puts s s := ⟨rfl⟩
theorem Puts.regions {s t : State} (h : Puts s t) : t.regions = s.regions := by rw [h.rest]
theorem Puts.region {s t : State} (h : Puts s t) (r : Nat) : t.region r = s.region r := by rw [h.rest]; rfl

theorem Puts.markLine (s : State) (loc : Nat) : Puts s (s.markLine loc) := foldl_keeps (Puts s) _ (fun _ _ h => h.trans ⟨rfl⟩) _ ⟨rfl⟩

theorem Puts.writeBackSector (s : State) (cl sec : Nat) : Puts s (s.writeBackSector cl sec) := by
  unfold State.writeBackSector
  split
  · exact .refl s
  · dsimp only
    split
    · exact Puts.trans ⟨rfl⟩ (.markLine ..)
    · exact ⟨rfl⟩

theorem Puts.writeBackLine (s : State) (line : Nat) : Puts s (s.writeBackLine line) := by
  have h : Puts s ((List.range 4).foldl (fun s i => s.writeBackSector (line / 2 ^ 40) (line % 2 ^ 40 / 32 + i)) s) :=
    foldl_keeps (Puts s) _ (fun _ _ h => h.trans (.writeBackSector ..)) _ (.refl s)
  unfold State.writeBackLine
  dsimp only
  split
  · exact h.trans (.markLine ..)
  · exact h

theorem Puts.homePut (s : State) (loc : Nat) (bs : List Byte) : Puts s (s.homePut loc bs) := by
  refine foldl_keeps (Puts s) _ (fun t i h => ?_) _ (.refl s)
  dsimp only
  split
  · exact h
  · exact h.trans ⟨rfl⟩

theorem State.makeRoom_regions (s : State) (cl : Nat) : (s.makeRoom cl).regions = s.regions := by
  unfold State.makeRoom
  dsimp only
  split
  · rfl
  · split
    · rfl
    · next k _ => exact (Puts.writeBackLine ({ s with free := s.free + 1 } : State) k).regions

theorem State.cachePut_regions (s : State) (cl loc : Nat) (bs : List Byte) : (s.cachePut cl loc bs).regions = s.regions := by
  rw [State.cachePut, State.dirtyPut_regions, State.touch]
  dsimp only
  split
  · rfl
  · exact s.makeRoom_regions cl

theorem State.homeWrite_regions (s : State) (cl loc : Nat) (bs : List Byte) : (s.homeWrite cl loc bs).regions = s.regions :=
  ((Puts.writeBackSector s cl (loc / 32)).trans (.homePut ..)).regions

/-- A store for which the cache has room writes nothing at the home (R288). -/
theorem State.cachePut_cells {s : State} {cl loc : Nat} (h : Room s cl loc) (bs : List Byte) : (s.cachePut cl loc bs).store.cells = s.store.cells := by
  rw [State.cachePut, State.dirtyPut_store_cells, State.touch]
  dsimp only
  split
  · rfl
  · next hc =>
    rcases h with h | h
    · exact absurd (List.contains_iff_mem.mpr h) hc
    · rw [State.makeRoom]
      dsimp only
      rw [if_pos (show _ < clusterLines from h)]

-- What a cluster reads.

theorem dirtyKey_inj {cl a b : Nat} : dirtyKey cl a = dirtyKey cl b ↔ a = b := Nat.add_left_cancel_iff

theorem Tab.look_foldl_put {α : Type} {key : Nat → Nat} (hk : ∀ a b, key a = key b ↔ a = b) {ws : List (Nat × α)} {l : Nat} {v : α}
    (hv : ∀ w ∈ ws, w.1 = l → w.2 = v) {t : Tab α} (h : t.look (key l) = some v ∨ ∃ w ∈ ws, w.1 = l) :
    (ws.foldl (fun t w => t.put (key w.1) w.2) t).look (key l) = some v := by
  induction ws generalizing t with
  | nil => exact h.resolve_right fun ⟨_, hw, _⟩ => List.not_mem_nil hw
  | cons w ws ih =>
    refine ih (fun x hx => hv x (List.mem_cons_of_mem _ hx)) ?_
    beta_reduce
    by_cases hw : w.1 = l
    · rw [hw, Tab.look_put_same, hv w List.mem_cons_self hw]
      exact .inl rfl
    · refine h.imp (fun h => ?_) fun ⟨x, hx, hxl⟩ => ⟨x, (List.mem_cons.mp hx).resolve_left fun e => hw (e ▸ hxl), hxl⟩
      rwa [Tab.look_put_other _ fun e => hw ((hk ..).mp e).symm]

theorem located_value {loc i : Nat} {bs : List Byte} (hi : i < bs.length) :
    (∀ w ∈ located loc bs, w.1 = loc + i → w.2 = bs[i]) ∧ ∃ w ∈ located loc bs, w.1 = loc + i := by
  refine ⟨fun w hw hl => ?_, _, (located_eq loc bs).mpr ⟨i, hi, rfl⟩, rfl⟩
  obtain ⟨j, hj, rfl⟩ := (located_eq loc bs).mp hw
  obtain rfl : j = i := Nat.add_left_cancel hl
  rfl

/-- A cluster reads what it has stored (R289). -/
theorem State.clusterByte_cachePut (s : State) (cl loc : Nat) {bs : List Byte} {i : Nat} (hi : i < bs.length) :
    (s.cachePut cl loc bs).clusterByte cl (loc + i) = bs[i] := by
  obtain ⟨hv, hmem⟩ := located_value (loc := loc) hi
  have h := Tab.look_foldl_put (key := dirtyKey cl) (fun _ _ => dirtyKey_inj) hv (t := (s.touch cl loc).store.dirty) (.inr hmem)
  rw [State.clusterByte, State.cachePut, State.dirtyPut, h]
  rfl

theorem dirtyKey_sector (cl a : Nat) : dirtyKey cl a / 32 = cl * 2 ^ 35 + a / 32 := by
  rw [dirtyKey]; omega

theorem State.dirty_markLine (s : State) (loc : Nat) : (s.markLine loc).store.dirty = s.store.dirty :=
  foldl_keeps (fun t : State => t.store.dirty = s.store.dirty) _ (fun t _ h => (t.setMark_store_dirty ..).trans h) _ rfl

theorem Store.prune_dirty (t : Store) (line : Nat) : (t.prune line).dirty = t.dirty := by
  unfold Store.prune
  split <;> rfl

/-- A sector that has been written back holds no dirty byte (R289). -/
theorem State.dirty_writeBackSector (s : State) {cl a sec : Nat} (ha : a / 32 = sec) :
    (s.writeBackSector cl sec).store.dirty.look (dirtyKey cl a) = none := by
  unfold State.writeBackSector
  split
  · next h =>
    have hnone := (List.filterMap_eq_nil_iff.mp h) (a % 32) (List.mem_range.mpr (Nat.mod_lt _ (by decide)))
    rw [Option.map_eq_none_iff, ← ha, Nat.div_add_mod] at hnone
    exact hnone
  · have hgone : Tab.look (s.store.dirty.filter fun e => decide (e.1 / 32 ≠ dirtyKey cl (32 * sec) / 32)) (dirtyKey cl a) = none := by
      rw [Tab.look_filter s.store.dirty fun k => decide (k / 32 ≠ dirtyKey cl (32 * sec) / 32), if_neg]
      rw [dirtyKey_sector, dirtyKey_sector, ha]
      simp
    dsimp only
    split
    · rw [State.dirty_markLine, Store.prune_dirty]
      exact hgone
    · exact (congrArg (Tab.look · _) (Store.prune_dirty ..)).trans hgone

/-- Bytes that lie in one sector are one write. -/
theorem State.homePut_within (s : State) {loc : Nat} {bs : List Byte} (hb : bs ≠ []) (hl : loc % 32 + bs.length ≤ 32) :
    s.homePut loc bs = s.writeSector (loc / 32) (located loc bs) := by
  have hpos := List.length_pos_iff.mpr hb
  have hr : (loc + bs.length + 31) / 32 - loc / 32 = 1 := by omega
  have hf : (located loc bs).filter (fun w => decide (w.1 / 32 = loc / 32 + 0)) = located loc bs := by
    refine List.filter_eq_self.mpr fun w hw => ?_
    obtain ⟨i, hi, rfl⟩ := (located_eq loc bs).mp hw
    simp only [decide_eq_true_eq]
    omega
  rw [State.homePut, hr]
  rw [List.range_one, List.foldl_cons, List.foldl_nil]
  dsimp only
  rw [hf]
  split
  · next h => exact absurd (congrArg List.length h) (by simpa [located] using hb)
  · rfl

section
variable {s : State} {cl loc i : Nat} {bs : List Byte} (hl : loc % 32 + bs.length ≤ 32) (hi : i < bs.length)
include hl hi

/-- A cluster's write at the home is there (R288). -/
theorem State.homeByte_homeWrite (hm : s.memoryOk) : (s.homeWrite cl loc bs).homeByte (loc + i) = bs[i] := by
  obtain ⟨hv, hmem⟩ := located_value (loc := loc) hi
  rw [State.homeWrite, State.homePut_within _ (List.length_pos_iff.mp (by omega)) hl]
  exact State.homeByte_writeSector (State.writeBackSector_memoryOk hm ..) hv (.inr hmem)

theorem State.clusterByte_homeWrite (hm : s.memoryOk) : (s.homeWrite cl loc bs).clusterByte cl (loc + i) = bs[i] := by
  have hd : (s.homeWrite cl loc bs).store.dirty.look (dirtyKey cl (loc + i)) = none := by
    rw [State.homeWrite, State.homePut_within _ (List.length_pos_iff.mp (by omega)) hl]
    exact s.dirty_writeBackSector (by omega)
  rw [State.clusterByte, hd]
  exact State.homeByte_homeWrite hl hi hm

end

end Sys2Proof.Machine
end

section
/-!
SUPPORT. How a half of the store buffer drains (R187, R188, R219, R232, R257, R290), and the rounds of a region.
-/
namespace Sys2Proof.Machine
open Claims

-- Halves.

@[simp] theorem Round.halfNo_setHalfNo (x : Round) (n : Nat) (y : Half) : (x.setHalfNo n y).halfNo n = y := by
  unfold Round.setHalfNo Round.halfNo
  split <;> rfl

/-- In `t` half `n` of a region's store buffer is as `f` says. -/
def HalfIs (t : State) (r n : Nat) (f : Half → Prop) : Prop := ∃ h : Region, t.region r = some h ∧ f (h.round.halfNo n)

theorem HalfIs.updHalf {s : State} {r n : Nat} {g : Region} (hg : s.region r = some g) {f : Half → Half} {p : Half → Prop}
    (hp : p (f (g.round.halfNo n))) : HalfIs (s.updHalf r n f) r n p :=
  ⟨_, State.region_updRegion_same hg, by rw [Round.halfNo_setHalfNo]; exact hp⟩

-- Bytes and words.

theorem cellsAt_cellsPut_same {m : List Host.Cell} (h : Memory.wf m = true) (a : Nat) (bs : List Byte) :
    cellsAt (cellsPut m a bs) a bs.length = bs := by
  refine List.ext_getElem (by simp [cellsAt]) fun i _ hi => ?_
  simp only [cellsAt, List.getElem_map, List.getElem_range]
  exact cellAt_cellsPut_same h a bs hi

theorem State.tsWord_tsPut (s : State) (key : Nat) (w : Word) : (s.tsPut key w).store.tstore.lookD key 0#32 = w := by
  rw [State.tsPut, Tab.lookD]
  dsimp only
  split
  · next h => rw [Tab.look_drop_same, h]; rfl
  · rw [Tab.look_put_same]; rfl

/-- A row of a TCPY changes no region (R232). -/
theorem State.tcopyRow_regions (s : State) (into : Bool) (row buf : Nat) : (s.tcopyRow into row buf).2.regions = s.regions := by
  unfold State.tcopyRow
  generalize List.range 32 = l
  refine foldl_keeps (fun acc : Option Nat × State => acc.2.regions = s.regions) _ (fun acc i h => ?_) l rfl
  obtain ⟨_ | c, u⟩ := acc
  · dsimp only
    split <;> split <;> exact h
  · exact h

-- One entry.

section
variable {s : State} {r n : Nat} {g : Region} {rest : List Nat}

/-- What the drain of a half does next (R187, R188, R290). -/
theorem exec_drainEntry (hg : s.region r = some g) (hd : g.round.drain = n :: rest) :
    exec (.drainEntry r) s = .next (
      if (g.round.halfNo n).wait.isSome then s
      else match (g.round.halfNo n).entries with
        | [] => s.updRegion r fun g => { g with round := { g.round.setHalfNo n {} with drain := g.round.drain.drop 1 } }
        | e :: es =>
          if e.eff.wide && !(g.round.halfNo n).released then
            (s.updHalf r n fun x => { x with wait := some s.uid }).beginWide [clusterOf r] (.drain r n)
          else match s.performEntry r e with
            | none => s
            | some (wait, left, t) => t.updHalf r n fun x =>
                { x with entries := (left.map fun f => { e with eff := f }).toList ++ es, wait, released := false }) := by
  refine (show exec (.drainEntry r) s = execDrainEntry r s from rfl).trans ?_
  rw [execDrainEntry, hg]
  dsimp only
  rw [hd] <;> rfl

variable (hg : s.region r = some g) (hd : g.round.drain = n :: rest)
include hg hd

theorem drainEntry_waits (hw : (g.round.halfNo n).wait.isSome = true) : exec (.drainEntry r) s = .next s := by
  rw [exec_drainEntry hg hd, if_pos hw]

/-- A half that has drained is free (R188). -/
theorem drainEntry_frees (hw : (g.round.halfNo n).wait = none) (he : (g.round.halfNo n).entries = []) :
    ∃ (t : State) (h : Region), exec (.drainEntry r) s = .next t ∧ t.region r = some h ∧ h.round.drain = rest ∧
      h.round.halfNo n = {} ∧ t.store = s.store := by
  rw [exec_drainEntry hg hd, hw, he]
  refine ⟨_, _, rfl, State.region_updRegion_same hg, ?_, ?_, rfl⟩
  · simp only [hd, List.drop_succ_cons, List.drop_zero]
  · exact g.round.halfNo_setHalfNo n {}

variable {e : Entry} {es : List Entry} (hw : (g.round.halfNo n).wait = none) (he : (g.round.halfNo n).entries = e :: es)
include hw he

/-- An entry that is a wide release waits for that release (R290). -/
theorem drainEntry_releases (hwide : e.eff.wide = true) (hrel : (g.round.halfNo n).released = false) :
    ∃ (t : State) (w : Nat), exec (.drainEntry r) s = .next t ∧ HalfIs t r n (fun y => y.entries = e :: es ∧ y.wait = some w) ∧
      t.store.wides = s.store.wides ++ [{ id := w, lines := s.dirtyLines (clusterOf r), for_ := .drain r n }] := by
  rw [exec_drainEntry hg hd, hw, he]
  simp only [hwide, hrel, Option.isSome_none, Bool.not_false, Bool.and_self, Bool.false_eq_true, if_false, if_true]
  have hhalf : HalfIs (s.updHalf r n fun x => { x with wait := some s.uid }) r n fun y => y.entries = e :: es ∧ y.wait = some s.uid :=
    .updHalf hg ⟨he, rfl⟩
  refine ⟨_, s.uid, rfl, hhalf, ?_⟩
  exact congrArg (fun l => s.store.wides ++ [{ id := s.uid, lines := l, for_ := .drain r n }]) (List.append_nil _)

variable (hready : e.eff.wide = false ∨ (g.round.halfNo n).released = true)
include hready

/-- An entry that cannot be performed yet stays. -/
theorem drainEntry_stays (hp : s.performEntry r e = none) : exec (.drainEntry r) s = .next s := by
  have hgo : (e.eff.wide && !(g.round.halfNo n).released) = false := by rcases hready with h | h <;> simp [h]
  rw [exec_drainEntry hg hd, hw, he]
  dsimp only
  rw [hgo, hp]
  rfl

/-- An entry that is performed leaves the half, or what is left of it stays at its head. -/
theorem drainEntry_performs {wait : Option Nat} {left : Option Held} {t : State} (hp : s.performEntry r e = some (wait, left, t))
    (ht : t.regions = s.regions) :
    ∃ u : State, exec (.drainEntry r) s = .next u ∧ u = { t with regions := u.regions } ∧
      HalfIs u r n (fun y => y.entries = (left.map fun f => { e with eff := f }).toList ++ es ∧ y.wait = wait) := by
  have hgo : (e.eff.wide && !(g.round.halfNo n).released) = false := by rcases hready with h | h <;> simp [h]
  have htg : t.region r = some g := (congrArg (Tab.look · r) ht).trans hg
  rw [exec_drainEntry hg hd, hw, he]
  simp only [hgo, hp, Option.isSome_none, Bool.false_eq_true, if_false]
  exact ⟨_, rfl, rfl, HalfIs.updHalf htg ⟨rfl, rfl⟩⟩

end

-- The kinds of entries.

section
variable {s : State} {r n : Nat} {g : Region} {rest : List Nat} {e : Entry} {es : List Entry}
  (hg : s.region r = some g) (hd : g.round.drain = n :: rest) (hw : (g.round.halfNo n).wait = none) (he : (g.round.halfNo n).entries = e :: es)
include hg hd hw he

/-- A store to a buffer (R166). -/
theorem drainEntry_spad (hm : s.memoryOk) {key : Nat} {bs : List Byte} (heff : e.eff = .spad key bs) :
    ∃ t : State, exec (.drainEntry r) s = .next t ∧ HalfIs t r n (fun y => y.entries = es ∧ y.wait = none) ∧
      cellsAt t.store.spad key bs.length = bs := by
  obtain ⟨u, hu, hrest, hhalf⟩ := drainEntry_performs hg hd hw he (.inl (by rw [heff]; rfl))
    (show s.performEntry r e = some (none, none, s.spadPut key bs) by rw [State.performEntry, heff]) rfl
  refine ⟨u, hu, hhalf, ?_⟩
  rw [hrest]
  exact cellsAt_cellsPut_same hm.2 key bs

/-- A word of the tile store, in a cycle that no sweep beat takes (R230). -/
theorem drainEntry_twr {key : Nat} {w : Word} (heff : e.eff = .twr key w) :
    (s.storeBusy (key / 8192) = true → exec (.drainEntry r) s = .next s) ∧
    (s.storeBusy (key / 8192) = false → ∃ t : State, exec (.drainEntry r) s = .next t ∧
      HalfIs t r n (fun y => y.entries = es ∧ y.wait = none) ∧ t.store.tstore.lookD key 0#32 = w) := by
  have hready : e.eff.wide = false ∨ (g.round.halfNo n).released = true := .inl (by rw [heff]; rfl)
  have hp : s.performEntry r e = if s.storeBusy (key / 8192) then none else some (none, none, s.tsPut key w) := by rw [State.performEntry, heff]
  refine ⟨fun hb => drainEntry_stays hg hd hw he hready (by rw [hp, hb]; rfl), fun hb => ?_⟩
  obtain ⟨u, hu, hrest, hhalf⟩ := drainEntry_performs (t := s.tsPut key w) hg hd hw he hready (by rw [hp, hb]; rfl) rfl
  refine ⟨u, hu, hhalf, ?_⟩
  rw [hrest]
  exact s.tsWord_tsPut key w

/-- One row of a TCPY (R232). -/
theorem drainEntry_tcpy {rw_ bw : Word} (heff : e.eff = .tcpy rw_ bw) :
    (s.storeBusy (g.rowKey (e.org.ctx.el / 16) (tcRow rw_) 0 / 8192) = true → exec (.drainEntry r) s = .next s) ∧
    (∀ u : State, s.storeBusy (g.rowKey (e.org.ctx.el / 16) (tcRow rw_) 0 / 8192) = false →
      s.tcopyRow (tcDir rw_) (g.rowKey (e.org.ctx.el / 16) (tcRow rw_) 0) (g.spadKey (tcBuf bw) (tcOff bw)) = (none, u) →
        ∃ t : State, exec (.drainEntry r) s = .next t ∧ t.store = u.store ∧ HalfIs t r n (fun y => y.wait = none ∧
          y.entries = (if tcCount rw_ ≤ 1 then es else { e with eff := .tcpy (rw_ - 0xFF#32) (bw + 128#32) } :: es))) := by
  have hready : e.eff.wide = false ∨ (g.round.halfNo n).released = true := .inl (by rw [heff]; rfl)
  have hp : s.performEntry r e = (s.drainRow r e rw_ bw).map fun t => (none, t) := by rw [State.performEntry, heff]
  refine ⟨fun hb => drainEntry_stays hg hd hw he hready ?_, fun u hb hrow => ?_⟩
  · rw [hp, State.drainRow, hg]
    dsimp only
    rw [hb]
    rfl
  · have hu : u.regions = s.regions := by
      have := s.tcopyRow_regions (tcDir rw_) (g.rowKey (e.org.ctx.el / 16) (tcRow rw_) 0) (g.spadKey (tcBuf bw) (tcOff bw))
      rwa [hrow] at this
    have hrowDone : s.drainRow r e rw_ bw = some (if tcCount rw_ ≤ 1 then none else some (.tcpy (rw_ - 0xFF#32) (bw + 128#32)), u) := by
      rw [State.drainRow, hg]
      dsimp only
      rw [hb, hrow]
      rfl
    obtain ⟨t, ht, hrest, h, hh, hent, hwait⟩ := drainEntry_performs hg hd hw he hready (by rw [hp, hrowDone]; rfl) hu
    refine ⟨t, ht, by rw [hrest], h, hh, hwait, hent.trans ?_⟩
    split <;> rfl

/-- A store to memory that is not dropped (R206, R289, R290). -/
theorem drainEntry_st (hm : s.memoryOk) {loc va : Nat} {bs : List Byte} {wide : Bool} (heff : e.eff = .st loc va bs wide)
    (hcut : s.cut (dieOf r) (homeDie loc) = none) (hloc : loc % 32 + bs.length ≤ 32) (hlost : e.lost = false)
    (hgo : wide = false ∨ ((g.round.halfNo n).released = true ∧ s.retrains (dieOf r) (homeDie loc) = false)) :
    ∃ t : State, exec (.drainEntry r) s = .next t ∧ HalfIs t r n (fun y => y.entries = es ∧ y.wait = none) ∧
      (∀ i, i < bs.length → t.clusterByte (clusterOf r) (loc + i) = bs.getD i 0#8) ∧
      (wide = true → ∀ i, i < bs.length → t.homeByte (loc + i) = bs.getD i 0#8) ∧
      (wide = false → Room s (clusterOf r) loc → t.store.cells = s.store.cells) := by
  have hp : s.performEntry r e =
      if wide then (if s.retrains (dieOf r) (homeDie loc) then none else some (none, none, s.homeWrite (clusterOf r) loc bs))
      else some (none, none, s.cachePut (clusterOf r) loc bs) := by
    rw [State.performEntry, heff]
    dsimp only
    rw [hlost, hcut]
    cases wide <;> rfl
  have hgetD : ∀ i (hi : i < bs.length), bs.getD i 0#8 = bs[i] := fun i hi => by simp [hi]
  cases wide with
  | false =>
    obtain ⟨t, ht, hrest, hhalf⟩ := drainEntry_performs hg hd hw he (.inl (by rw [heff]; rfl)) hp (s.cachePut_regions ..)
    refine ⟨t, ht, hhalf, fun i hi => ?_, nofun, fun _ hroom => ?_⟩
    · rw [hgetD i hi, hrest]
      exact s.clusterByte_cachePut (clusterOf r) loc hi
    · rw [hrest]
      exact State.cachePut_cells hroom bs
  | true =>
    obtain ⟨hrel, htrain⟩ := hgo.resolve_left nofun
    obtain ⟨t, ht, hrest, hhalf⟩ := drainEntry_performs hg hd hw he (.inr hrel) (hp.trans (by rw [htrain]; rfl)) (s.homeWrite_regions ..)
    refine ⟨t, ht, hhalf, fun i hi => ?_, fun _ i hi => ?_, nofun⟩
    · rw [hgetD i hi, hrest]
      exact State.clusterByte_homeWrite hloc hi hm
    · rw [hgetD i hi, hrest]
      exact State.homeByte_homeWrite hloc hi hm

/-- A store of a firing that has been voided is dropped. -/
theorem drainEntry_lost {loc va : Nat} {bs : List Byte} {wide : Bool} (heff : e.eff = .st loc va bs wide) (hlost : e.lost = true)
    (hgo : wide = false ∨ (g.round.halfNo n).released = true) :
    ∃ t : State, exec (.drainEntry r) s = .next t ∧ HalfIs t r n (fun y => y.entries = es ∧ y.wait = none) ∧ t.store = s.store := by
  obtain ⟨t, ht, hrest, hhalf⟩ := drainEntry_performs hg hd hw he (hgo.imp_left fun h => by rw [heff]; exact h)
    (show s.performEntry r e = some (none, none, s) by rw [State.performEntry, heff]; exact if_pos hlost) rfl
  exact ⟨t, ht, hhalf, by rw [hrest]⟩

/-- A wide store waits while the link to its home retrains (R423). -/
theorem drainEntry_st_waits {loc va : Nat} {bs : List Byte} (heff : e.eff = .st loc va bs true) (hlost : e.lost = false)
    (hcut : s.cut (dieOf r) (homeDie loc) = none) (hrel : (g.round.halfNo n).released = true)
    (htrain : s.retrains (dieOf r) (homeDie loc) = true) : exec (.drainEntry r) s = .next s := by
  refine drainEntry_stays hg hd hw he (.inr hrel) ?_
  rw [State.performEntry, heff]
  dsimp only
  rw [hlost, hcut, htrain]
  rfl

/-- A held command leaves for its engine, and the drain awaits its acceptance (R257). -/
theorem drainEntry_cmd {p : Packet} (hwide : e.eff.wide = false) {t : State}
    (hp : s.performEntry r e = some (some p.id, none, t)) (ht : t.regions = s.regions) :
    ∃ u : State, exec (.drainEntry r) s = .next u ∧ u.cores = t.cores ∧ HalfIs u r n (fun y => y.entries = es ∧ y.wait = some p.id) := by
  obtain ⟨u, hu, hrest, hhalf⟩ := drainEntry_performs hg hd hw he (.inl hwide) hp ht
  exact ⟨u, hu, by rw [hrest], hhalf⟩

theorem drainEntry_systolic {p : Packet} (heff : e.eff = .cmd p) (hopc : p.opc = 0x50 ∨ p.opc = 0x51 ∨ p.opc = 0x52) :
    ∃ t : State, exec (.drainEntry r) s = .next t ∧ t.cores.going = s.cores.going ++ [p] ∧
      HalfIs t r n (fun y => y.entries = es ∧ y.wait = some p.id) := by
  have hwide : e.eff.wide = false := by rw [heff]; rcases hopc with h | h | h <;> simp [Held.wide, h]
  have hp : s.performEntry r e = some (some p.id, none, sendSystolic p s) := by
    rw [State.performEntry, heff]; rcases hopc with h | h | h <;> simp only [h]
  obtain ⟨u, hu, hcores, hhalf⟩ := drainEntry_cmd hg hd hw he hwide hp rfl
  exact ⟨u, hu, by rw [hcores]; rfl, hhalf⟩

theorem drainEntry_copy {p : Packet} (heff : e.eff = .cmd p) (hopc : p.opc = 0x53) :
    ∃ t : State, exec (.drainEntry r) s = .next t ∧ HalfIs t r n (fun y => y.entries = es ∧ y.wait = some p.id) ∧
      t.cores.copyIn.lookD (coreOf p.org.ctx.region) [] = s.cores.copyIn.lookD (coreOf p.org.ctx.region) [] ++ [p] := by
  have hwide : e.eff.wide = false := by rw [heff]; simp [Held.wide, hopc]
  have hp : s.performEntry r e = some (some p.id, none, sendCopy p s) := by rw [State.performEntry, heff]; simp only [hopc]
  obtain ⟨u, hu, hcores, hhalf⟩ := drainEntry_cmd hg hd hw he hwide hp rfl
  refine ⟨u, hu, hhalf, ?_⟩
  rw [hcores]
  exact Tab.lookD_alter_same s.cores.copyIn (coreOf p.org.ctx.region) [] fun l => l ++ [p]

theorem drainEntry_sync {p : Packet} (heff : e.eff = .cmd p) (hopc : p.opc = 0x54 ∨ p.opc = 0x55) :
    ∃ (t : State) (o : SyncOp), exec (.drainEntry r) s = .next t ∧ HalfIs t r n (fun y => y.entries = es ∧ y.wait = some p.id) ∧
      t.cores.syncs = s.cores.syncs ++ [o] ∧ o.what = p.syncDo ∧ o.due = s.regionClk r := by
  have hwide : e.eff.wide = false := by rw [heff]; rcases hopc with h | h <;> simp [Held.wide, h]
  have hp : s.performEntry r e = some (some p.id, none, s.toSync p (s.regionClk r)) := by
    rw [State.performEntry, heff]; rcases hopc with h | h <;> simp only [h] <;> rfl
  obtain ⟨u, hu, hcores, hhalf⟩ := drainEntry_cmd hg hd hw he hwide hp rfl
  exact ⟨u, _, hu, hhalf, by rw [hcores]; rfl, rfl, rfl⟩

end

-- The rounds of a region.

/-- Settles O50: the opening from the views that an opening adds, the commit from its region and its records, the drain entry by entry. -/
theorem rounds : Obligations.Rounds := by
  unfold Obligations.Rounds
  intro s hm r g hg mayOpen viewed
  have hopen : exec (.roundOpen r) s = .next (if g.mayOpen then s.openRound r else s) := by
    refine (show exec (.roundOpen r) s = execRoundOpen r s from rfl).trans ?_
    rw [execRoundOpen, hg]
  have hcommit : exec (.roundCommit r) s = .next (if s.quiescent r g then s.commitRound r g else s) := by
    refine (show exec (.roundCommit r) s = execRoundCommit r s from rfl).trans ?_
    rw [execRoundCommit, hg]
  refine ⟨fun hmay => ?opens, fun hmay => ?_, fun hq => ?_, fun hq => ?commits, fun hd => ?_, fun n rest hd hn => ?drains⟩
  case opens =>
    obtain ⟨h, hreg, hview, -, -⟩ := State.openRound_region hg
    have hset : g.roundSet ≠ [] := by
      obtain ⟨-, -, -, -, -, -, ⟨c, hc, hcr, -⟩, -⟩ := hmay
      exact List.ne_nil_of_mem (List.mem_filter.mpr ⟨hc, hcr⟩)
    rw [hopen, if_pos (g.mayOpen_iff.mpr hmay)]
    refine ⟨_, h, rfl, State.openRound_rest, hreg, fun q hq => State.openRound_other hq,
      fun m x hlt hx => State.openRound_sees hg hmay.1 hset hlt x hx, by rw [hview]; rfl, by rw [hview]; rfl, by rw [hview]; rfl, fun e he hr hrun => ?_⟩
    rw [hview]
    refine List.mem_map.mpr ⟨e, he, ?_⟩
    rw [hr, hrun]
    rfl
  case commits =>
    obtain ⟨sh, hreg, hsh, hstore, hrecs⟩ := State.commitRound_spec hg
    rw [hcommit, if_pos hq]
    refine ⟨_, _, rfl, hreg, hstore, g.round.committed_n, g.round.committed_isOpen, g.round.committed_drain, g.round.committed_half,
      List.length_map _, fun c hc hr => ?_, fun c hc hr => ?_, fun c hc hr x hx => ?_, fun n x w hx hw => ?_, sh, rfl, hsh⟩
    · exact ⟨c, List.mem_map.mpr ⟨c, hc, by rw [hr]; rfl⟩, rfl, rfl, rfl, rfl, rfl⟩
    · refine ⟨c.commit, List.mem_map.mpr ⟨c, hc, by rw [if_pos hr]⟩, rfl, rfl, rfl, rfl, rfl, rfl, c.commit_trapped, rfl⟩
    · rw [hrecs]
      exact s.giveTraps_recs r g hc hr hx
    · obtain ⟨v, ht, hh, hlook, hv⟩ := Ring.publish_spec hw
      refine ⟨x.publish r, v, ?_, ht, hh, hlook, hv⟩
      rw [Region.committed, ← List.map_drop, ← List.map_drop, hx]
      rfl
  case drains =>
    intro x now
    refine ⟨drainEntry_waits hg hd, drainEntry_frees hg hd, fun e es hw he => ⟨fun key bs => drainEntry_spad hg hd hw he hm,
      fun key w heff => (drainEntry_twr hg hd hw he heff).1, fun key w heff => (drainEntry_twr hg hd hw he heff).2,
      fun rw_ bw => drainEntry_tcpy hg hd hw he, fun loc va bs wide heff hcut hloc _ => ⟨fun hlost hgo => ?_, fun hwide hrel => ?_,
        fun hwide hlost hrel htrain => ?_, fun hlost => drainEntry_st hg hd hw he hm heff hcut hloc hlost⟩,
      fun p heff => ⟨drainEntry_systolic hg hd hw he heff, drainEntry_copy hg hd hw he heff, drainEntry_sync hg hd hw he heff⟩⟩⟩
    · exact drainEntry_lost hg hd hw he heff hlost hgo
    · exact drainEntry_releases hg hd hw he (by rw [heff]; exact hwide) hrel
    · subst hwide
      exact drainEntry_st_waits hg hd hw he heff hlost hcut hrel htrain
  · rw [hopen, if_neg fun h => hmay (g.mayOpen_iff.mp h)]
  · rw [hcommit, hq]
    rfl
  · refine (show exec (.drainEntry r) s = execDrainEntry r s from rfl).trans ?_
    rw [execDrainEntry, hg]
    dsimp only
    rw [hd]

end Sys2Proof.Machine
end

section
/-!
SUPPORT. Packets of LAUNCH: the wait of a header, the reply, the abort of a signal, and what is rejected (R252, R257, R258, R259, R302).
-/
namespace Sys2Proof.Machine
open Claims

-- The wait (R252, R258).

theorem bitOf_eq_testBit (n v : Nat) : bitOf n v = v.testBit n := (Nat.testBit_eq_decide_div_mod_eq ..).symm

theorem State.waitOf_met_iff (s : State) (p : Packet) : s.waitOf p = .met ↔ WaitMet s p := by
  unfold State.waitOf State.waitSt WaitMet hdrWE hdrWsem hdrWval
  rw [bitOf_eq_testBit]
  dsimp only
  split_ifs <;> simp_all

theorem State.waitOf_aborted_iff (s : State) (p : Packet) : s.waitOf p = .aborted ↔ WaitAborted s p := by
  unfold State.waitOf State.waitSt WaitAborted hdrWE hdrWsem
  rw [bitOf_eq_testBit]
  dsimp only
  split_ifs <;> simp_all

theorem State.waitOf_unmet {s : State} {p : Packet} (hm : ¬WaitMet s p) (ha : ¬WaitAborted s p) : s.waitOf p = .unmet := by
  cases h : s.waitOf p with
  | met => exact absurd ((s.waitOf_met_iff p).mp h) hm
  | aborted => exact absurd ((s.waitOf_aborted_iff p).mp h) ha
  | unmet => rfl

-- The abort of a signal (R259).

theorem State.bar_updBar_same (s : State) (c n : Nat) (f : Bar → Bar) : (s.updBar c n f).bar c n = f (s.bar c n) := Tab.lookD_alter_same ..

theorem State.bar_updBar_other (s : State) {c k n m : Nat} (hn : n < 128) (hm : m < 128) (h : (k, m) ≠ (c, n)) (f : Bar → Bar) :
    (s.updBar c n f).bar k m = s.bar k m := by
  refine Tab.lookD_alter_other _ (fun he => h ?_) ..
  rw [Prod.mk.injEq]
  omega

theorem State.abortSignal_cores (s : State) (org : Origin) (c : List Word) : s.abortSignal org c = { s with cores := (s.abortSignal org c).cores } := by
  unfold State.abortSignal
  dsimp only
  split
  · rfl
  · split <;> rfl

/-- An abort is told by the semaphores and barriers alone. -/
theorem aborts_of_cores {s t u : State} {core : Nat} {c : List Word} (h : Aborts s t core c) (hu : u.cores = t.cores) : Aborts s u core c := by
  have hsem : ∀ k n, u.sem k n = t.sem k n := fun k n => by rw [State.sem, State.sem, hu]
  have hbar : ∀ k n, u.bar k n = t.bar k n := fun k n => by rw [State.bar, State.bar, hu]
  exact ⟨fun k n hn => (hsem k n).trans (h.1 k n hn), fun k n hn => (hbar k n).trans (h.2 k n hn)⟩

theorem aborts_of_before {s s' t : State} {core : Nat} {c : List Word} (h : Aborts s' t core c) (hs : s'.cores = s.cores) : Aborts s t core c := by
  have hsem : s'.sem = s.sem := by funext k n; rw [State.sem, State.sem, hs]
  have hbar : s'.bar = s.bar := by funext k n; rw [State.bar, State.bar, hs]
  unfold Aborts at h ⊢
  rwa [hsem, hbar] at h

section
variable (s : State) (org : Origin) {c : List Word}

theorem State.abortSignal_none (h : (fieldAt c 4 2).testBit 15 = false) : s.abortSignal org c = s := by
  rw [State.abortSignal, hdrSE, bitOf_eq_testBit, h]; rfl

theorem State.abortSignal_sem (h : (fieldAt c 4 2).testBit 15 = true) (hb : (fieldAt c 4 2).testBit 14 = false) :
    s.abortSignal org c = s.updSem (coreOf org.ctx.region) (fieldAt c 4 2 % 256) fun x => { x with abt := true, aborts := min 0xFFFF (x.aborts + 1) } := by
  rw [State.abortSignal, hdrSE, hdrSbar, bitOf_eq_testBit, bitOf_eq_testBit, h, hb]; rfl

theorem State.abortSignal_bar (h : (fieldAt c 4 2).testBit 15 = true) (hb : (fieldAt c 4 2).testBit 14 = true) :
    s.abortSignal org c = s.updBar (coreOf org.ctx.region) (fieldAt c 4 2 % 128) fun b => { b with abt := true } := by
  have h128 : hdrSsem c % 128 = fieldAt c 4 2 % 128 := by rw [hdrSsem]; omega
  rw [State.abortSignal, hdrSE, hdrSbar, bitOf_eq_testBit, bitOf_eq_testBit, h, hb, h128]; rfl

end

/-- A command's semaphore or barrier records its abort (R259). -/
theorem State.abortSignal_aborts (s : State) (org : Origin) (c : List Word) : Aborts s (s.abortSignal org c) (coreOf org.ctx.region) c := by
  cases h15 : (fieldAt c 4 2).testBit 15 with
  | false =>
    rw [s.abortSignal_none org h15]
    exact ⟨fun k n _ => (if_neg fun h => absurd (h15.symm.trans h.1) (by simp)).symm, fun k n _ => (if_neg fun h => absurd (h15.symm.trans h.1) (by simp)).symm⟩
  | true =>
    cases h14 : (fieldAt c 4 2).testBit 14 with
    | false =>
      rw [s.abortSignal_sem org h15 h14]
      refine ⟨fun k n hn => ?_, fun k n _ => (if_neg fun h => absurd (h14.symm.trans h.2.1) (by simp)).symm⟩
      by_cases hat : k = coreOf org.ctx.region ∧ n = fieldAt c 4 2 % 256
      · obtain ⟨rfl, rfl⟩ := hat
        rw [if_pos ⟨h15, h14, rfl, rfl⟩]
        exact s.sem_updSem_same ..
      · rw [if_neg fun h => hat ⟨h.2.2.1, h.2.2.2⟩]
        exact s.sem_updSem_other (Nat.mod_lt _ (by decide)) hn (fun h => hat (by simpa using h)) _
    | true =>
      rw [s.abortSignal_bar org h15 h14]
      refine ⟨fun k n _ => (if_neg fun h => absurd (h14.symm.trans h.2.1) (by simp)).symm, fun k n hn => ?_⟩
      by_cases hat : k = coreOf org.ctx.region ∧ n = fieldAt c 4 2 % 128
      · obtain ⟨rfl, rfl⟩ := hat
        rw [if_pos ⟨h15, h14, rfl, rfl⟩]
        exact s.bar_updBar_same ..
      · rw [if_neg fun h => hat ⟨h.2.2.1, h.2.2.2⟩]
        exact s.bar_updBar_other (Nat.mod_lt _ (by decide)) (Nat.lt_trans hn (by decide)) (fun h => hat (by simpa using h)) _

-- The reply (R257).

theorem State.req_id {s : State} {n : Nat} {q : Req} (h : s.req n = some q) : q.id = n := by simpa using List.find?_some h

theorem State.req_updReq {s : State} {n : Nat} {q : Req} {f : Req → Req} (h : s.req n = some q) (hf : ∀ x, (f x).id = x.id) :
    (s.updReq n f).req n = some (f q) := by
  unfold State.req State.updReq mapIf at *
  dsimp only
  rw [List.find?_map]
  have hid : ((fun x : Req => decide (x.id = n)) ∘ fun x => if decide (x.id = n) then f x else x) = fun x => decide (x.id = n) := by
    funext x
    simp only [Function.comp_apply]
    split <;> simp [hf]
  rw [hid, h, Option.map_some]
  simp [State.req_id (s := s) h]

/-- What a reply changes: the request, or the half of a store buffer that waits (R257). -/
theorem State.packetReply_rest (s : State) (p : Packet) (res : Word) (pres : Bool) :
    s.packetReply p res pres = { s with fab := { s.fab with reqs := (s.packetReply p res pres).fab.reqs }, regions := (s.packetReply p res pres).regions } := by
  unfold State.packetReply
  split
  · split <;> rfl
  · rfl

theorem State.packetReply_dies (s : State) (p : Packet) (res : Word) (pres : Bool) : (s.packetReply p res pres).dies = s.dies := by
  rw [s.packetReply_rest]
theorem State.packetReply_cores (s : State) (p : Packet) (res : Word) (pres : Bool) : (s.packetReply p res pres).cores = s.cores := by
  rw [s.packetReply_rest]
theorem State.packetReply_recs (s : State) (p : Packet) (res : Word) (pres : Bool) : (s.packetReply p res pres).fab.recs = s.fab.recs := by
  rw [s.packetReply_rest]
theorem State.packetReply_elems (s : State) (p : Packet) (res : Word) (pres : Bool) : (s.packetReply p res pres).fab.elems = s.fab.elems := by
  rw [s.packetReply_rest]

theorem State.halfDone_waits (s : State) (id : Nat) {r : Nat} {g : Region} (h : (s.halfDone id).region r = some g) :
    g.round.h0.wait ≠ some id ∧ g.round.h1.wait ≠ some id := by
  have hdone : ∀ x : Half, (x.done id).wait ≠ some id := fun x => by
    unfold Half.done
    split
    · exact nofun
    · assumption
  rw [State.halfDone, State.region_map s fun g : Region => { g with round := { g.round with h0 := g.round.h0.done id, h1 := g.round.h1.done id } },
    Option.map_eq_some_iff] at h
  obtain ⟨x, -, rfl⟩ := h
  exact ⟨hdone _, hdone _⟩

theorem State.packetReply_replied {s u : State} (p : Packet) (res : Word) (pres : Bool) (hu : u.fab.reqs = s.fab.reqs) :
    Replied s (u.packetReply p res pres) p res pres := by
  have hreq : ∀ n, u.req n = s.req n := fun n => by rw [State.req, State.req, hu]
  refine ⟨fun q hp hq => ?_, fun hp r g hg => ?_⟩
  · rw [← hreq] at hq
    have hreply : u.packetReply p res pres = u.replyWith p.req (q.done res pres) := by
      unfold State.packetReply
      rw [hq]
      dsimp only
      rw [if_neg hp, State.req_id hq]
    rw [hreply]
    exact State.req_updReq hq fun _ => rfl
  · have hhalf : u.packetReply p res pres = u.halfDone p.id := by
      unfold State.packetReply
      split
      · exact if_pos hp
      · rfl
    rw [hhalf] at hg
    exact State.halfDone_waits _ _ hg

-- What is rejected (R302).

/-- An engine's fault is one record more (R271). -/
theorem State.engineFault_posts {s v : State} (h : v.fab = s.fab) (u : State) (org : Origin) (cls : Nat) (info : List Byte) (va : Nat) (word : Word) :
    Posts s (v.engineFault org (u.mkRec org cls info va word)) org cls info := by
  refine ⟨{ id := v.uid, ctx := org.ctx, core := coreOf org.ctx.region, ring := v.fringOf org.gang, frozen := [], rcd := u.mkRec org cls info va word },
    by rw [← h]; rfl, by rw [← h]; rfl, rfl, rfl, rfl, rfl, rfl, rfl, rfl, rfl, rfl, rfl, ?_⟩
  show (if org.rounded then 1 else 0 : Nat).testBit 0 = org.rounded
  cases org.rounded <;> rfl

theorem posts_of_fab {s t u : State} {org : Origin} {cls : Nat} {info : List Byte} (h : Posts s t org cls info) (hr : u.fab.recs = t.fab.recs)
    (he : u.fab.elems = t.fab.elems) : Posts s u org cls info := by
  obtain ⟨q, hrecs, helems, hq⟩ := h
  exact ⟨q, hr.trans hrecs, he.trans helems, hq⟩

/-- A LAUNCH that is aborted, or rejected, changes neither the dies nor the cores beyond its signal. -/
theorem State.rejectLaunch_spec {s u : State} (p : Packet) {o : Nat} (hu : u = { s with dies := u.dies }) :
    (u.rejectLaunch p { off := o }).dies = u.dies ∧ Aborts s (u.rejectLaunch p { off := o }) (coreOf p.org.ctx.region) p.cmd ∧
      Replied s (u.rejectLaunch p { off := o }) p 0xFFFFFFFF#32 false ∧
      Posts s (u.rejectLaunch p { off := o }) p.org 0x0F ([0x59#8, BitVec.ofNat 8 o, 0xFF#8, 0xFF#8] ++ natLe 4 0 ++ wordLe p.loc) := by
  have hcores : u.cores = s.cores := by rw [hu]
  have hfab : u.fab = s.fab := by rw [hu]
  have hrest := u.abortSignal_cores p.org p.cmd
  have habt := aborts_of_before (u.abortSignal_aborts p.org p.cmd) hcores
  unfold State.rejectLaunch
  generalize u.abortSignal p.org p.cmd = v at hrest habt
  have hvfab : v.fab = s.fab := by rw [hrest]; exact hfab
  have hpost := State.engineFault_posts hvfab u p.org 0x0F (Reject.info { off := o } p.loc) 0 0xFFFFFFFF#32
  refine ⟨?_, aborts_of_cores habt ?_, State.packetReply_replied p _ _ (by rw [State.engineFault, State.giveRec_fab_reqs, hvfab]),
    posts_of_fab hpost (State.packetReply_recs ..) (State.packetReply_elems ..)⟩
  · rw [State.packetReply_dies, State.engineFault, State.giveRec_dies, hrest]
  · rw [State.packetReply_cores, State.engineFault, State.giveRec_cores]

theorem State.abortWait_spec {s u : State} (p : Packet) (hu : u = { s with dies := u.dies }) :
    (u.abortWait p).dies = u.dies ∧ Aborts s (u.abortWait p) (coreOf p.org.ctx.region) p.cmd ∧ Replied s (u.abortWait p) p 0xFFFFFFFF#32 false ∧
      (u.abortWait p).fab.recs = s.fab.recs := by
  have hcores : u.cores = s.cores := by rw [hu]
  have hfab : u.fab = s.fab := by rw [hu]
  have hrest := u.abortSignal_cores p.org p.cmd
  have habt := aborts_of_before (u.abortSignal_aborts p.org p.cmd) hcores
  unfold State.abortWait
  generalize u.abortSignal p.org p.cmd = v at hrest habt
  have hvfab : v.fab = s.fab := by rw [hrest]; exact hfab
  refine ⟨?_, aborts_of_cores habt (State.packetReply_cores ..), State.packetReply_replied p _ _ (by rw [hvfab]), ?_⟩
  · rw [State.packetReply_dies, hrest]
  · rw [State.packetReply_recs, hvfab]

-- The packets of a dispatcher (R302).

/-- What a launch command breaks of its layout. -/
theorem badLaunch_iff (p : Packet) (o : Nat) : badLaunch p = some o ↔ badHeader p.cmd = some o ∨ (badHeader p.cmd = none ∧
    (if fieldAt p.cmd 8 8 % 256 ≠ 0 ∨ 2 ^ 56 ≤ fieldAt p.cmd 8 8 then o = 8 else if 2 ^ 56 ≤ fieldAt p.cmd 0x10 8 then o = 0x10
      else fieldAt p.cmd 0x18 8 ≠ 0 ∧ o = 0x18)) := by
  unfold badLaunch badAddr Packet.f
  cases badHeader p.cmd with
  | some x => simp
  | none =>
    simp only [Bool.or_eq_true, decide_eq_true_eq, reduceCtorEq, true_and, false_or]
    split_ifs <;> simp_all [eq_comm]

theorem badLaunch_none {p : Packet} (h : badHeader p.cmd = none ∧ fieldAt p.cmd 8 8 % 256 = 0 ∧ fieldAt p.cmd 8 8 < 2 ^ 56 ∧
    fieldAt p.cmd 0x10 8 < 2 ^ 56 ∧ fieldAt p.cmd 0x18 8 = 0) : badLaunch p = none := by
  obtain ⟨h0, h8, h8', h10, h18⟩ := h
  cases hb : badLaunch p with
  | none => rfl
  | some o =>
    rcases (badLaunch_iff p o).mp hb with h | ⟨-, h⟩
    · rw [h0] at h; cases h
    · rw [if_neg (by omega), if_neg (by omega)] at h
      exact absurd h18 h.1

end Sys2Proof.Machine
end

section
/-!
SUPPORT. The packets of a dispatcher: accepted, waiting, and met (R258, R302).
-/
namespace Sys2Proof.Machine
open Claims

/-- What a dispatcher is asked by a LAUNCH packet (R302). -/
def State.asked (s : State) (die : Nat) (p : Packet) : Submission :=
  let as_ := ((s.gang p.org.gang).map fun g => g.as_).getD 0
  { die, lrec := fieldAt p.cmd 8 8, recAs := as_, as_ := some as_, argo := fieldAt p.cmd 0x10 8, adj := p.adj.toInt, pkt := some p }

/-- An accepted packet's firing has the launch ID (R302). -/
theorem State.takeLaunch_accepts {u v : State} {die : Nat} {p : Packet} {id : Word} (h : u.accept (u.asked die p) = (.ok id, v)) :
    Replied v (u.takeLaunch die p) p id true ∧ (u.takeLaunch die p).dies = v.dies := by
  have ht : u.takeLaunch die p = v.packetReply p id true := by
    rw [State.asked] at h
    rw [State.takeLaunch]
    simp only [Packet.f]
    rw [h]
  rw [ht]
  exact ⟨State.packetReply_replied p id true rfl, State.packetReply_dies ..⟩

section
variable {s : State} {die : Nat} {p : Packet} {rest : List Packet}

/-- A packet of the inbox, while no link of the die retrains (R302, R423). -/
theorem exec_launchPacketAccept (hp : s.dies.dispIn.lookD die [] = p :: rest) (hw : s.dieWaits die = false) :
    exec (.launchPacketAccept die) s = .next (
      let t : State := { s with dies := { s.dies with dispIn := s.dies.dispIn.put die rest } }
      match badLaunch p with
      | some o => t.rejectLaunch p { off := o }
      | none => match s.waitOf p with
        | .met => t.takeLaunch die p
        | .aborted => t.abortWait p
        | .unmet =>
          if (s.dies.dispWait.lookD die []).length < 256 then
            let t := { t with dies := { t.dies with dispWait := t.dies.dispWait.alter die [] fun l => l ++ [p] } }
            if p.req = 0 then t.halfDone p.id else t
          else s) := by
  refine (show exec (.launchPacketAccept die) s = execLaunchPacketAccept die s from rfl).trans ?_
  rw [execLaunchPacketAccept, hw, hp] <;> rfl

theorem dispIn_put : (s.dies.dispIn.put die rest).lookD die [] = rest := by rw [Tab.lookD, Tab.look_put_same]; rfl

theorem launchPacketAccept_waits (hw : s.dieWaits die = true) : exec (.launchPacketAccept die) s = .next s := by
  refine (show exec (.launchPacketAccept die) s = execLaunchPacketAccept die s from rfl).trans ?_
  rw [execLaunchPacketAccept, hw]
  rfl

variable (hp : s.dies.dispIn.lookD die [] = p :: rest) (hw : s.dieWaits die = false)
include hp hw

theorem launchPacketAccept_rejects {o : Nat} (ho : badLaunch p = some o) : ∃ t : State, exec (.launchPacketAccept die) s = .next t ∧
    t.dies.dispIn.lookD die [] = rest ∧ Aborts s t (coreOf p.org.ctx.region) p.cmd ∧ Replied s t p 0xFFFFFFFF#32 false ∧
    Posts s t p.org 0x0F ([0x59#8, BitVec.ofNat 8 o, 0xFF#8, 0xFF#8] ++ natLe 4 0 ++ wordLe p.loc) := by
  obtain ⟨hdies, h⟩ := State.rejectLaunch_spec (s := s) (u := { s with dies := { s.dies with dispIn := s.dies.dispIn.put die rest } }) p (o := o) rfl
  rw [exec_launchPacketAccept hp hw, ho]
  exact ⟨_, rfl, by rw [hdies]; exact dispIn_put, h⟩

theorem launchPacketAccept_met (hb : badLaunch p = none) (hm : WaitMet s p) : ∃ t : State, exec (.launchPacketAccept die) s = .next t ∧
    ∀ (id : Word) (v : State), ({ s with dies := { s.dies with dispIn := s.dies.dispIn.put die rest } } : State).accept (s.asked die p) = (.ok id, v) →
      Replied v t p id true ∧ t.dies = v.dies := by
  rw [exec_launchPacketAccept hp hw, hb, (s.waitOf_met_iff p).mpr hm]
  exact ⟨_, rfl, fun id v h => State.takeLaunch_accepts h⟩

theorem launchPacketAccept_aborted (hb : badLaunch p = none) (ha : WaitAborted s p) : ∃ t : State, exec (.launchPacketAccept die) s = .next t ∧
    t.dies.dispIn.lookD die [] = rest ∧ Aborts s t (coreOf p.org.ctx.region) p.cmd ∧ Replied s t p 0xFFFFFFFF#32 false ∧ t.fab.recs = s.fab.recs := by
  obtain ⟨hdies, h⟩ := State.abortWait_spec (s := s) (u := { s with dies := { s.dies with dispIn := s.dies.dispIn.put die rest } }) p rfl
  rw [exec_launchPacketAccept hp hw, hb, (s.waitOf_aborted_iff p).mpr ha]
  exact ⟨_, rfl, by rw [hdies]; exact dispIn_put, h⟩

/-- A packet whose wait is not met waits in the wait list, where that has room (R302). -/
theorem launchPacketAccept_unmet (hb : badLaunch p = none) (hm : ¬WaitMet s p) (ha : ¬WaitAborted s p) :
    ∃ t : State, exec (.launchPacketAccept die) s = .next t ∧
      ((s.dies.dispWait.lookD die []).length < 256 → t.dies.dispIn.lookD die [] = rest ∧
        t.dies.dispWait.lookD die [] = s.dies.dispWait.lookD die [] ++ [p]) ∧
      (256 ≤ (s.dies.dispWait.lookD die []).length → t = s) := by
  rw [exec_launchPacketAccept hp hw, hb, State.waitOf_unmet hm ha]
  refine ⟨_, rfl, fun hl => ?_, fun hl => ?_⟩
  · dsimp only
    rw [if_pos hl]
    have hdies : ∀ t : State, (if p.req = 0 then t.halfDone p.id else t).dies = t.dies := fun t => by split <;> rfl
    rw [hdies]
    exact ⟨dispIn_put, Tab.lookD_alter_same s.dies.dispWait die [] fun l => l ++ [p]⟩
  · dsimp only
    rw [if_neg (by omega)]

/-- Every case of a packet at the head of a dispatcher's inbox (R302). -/
theorem launchPacketAccept_spec : ∃ t : State, exec (.launchPacketAccept die) s = .next t ∧
    (∀ o : Nat, badLaunch p = some o → t.dies.dispIn.lookD die [] = rest ∧ Aborts s t (coreOf p.org.ctx.region) p.cmd ∧
      Replied s t p 0xFFFFFFFF#32 false ∧ Posts s t p.org 0x0F ([0x59#8, BitVec.ofNat 8 o, 0xFF#8, 0xFF#8] ++ natLe 4 0 ++ wordLe p.loc)) ∧
    (badLaunch p = none → WaitMet s p → ∀ (id : Word) (v : State),
      ({ s with dies := { s.dies with dispIn := s.dies.dispIn.put die rest } } : State).accept (s.asked die p) = (.ok id, v) →
        Replied v t p id true ∧ t.dies = v.dies) ∧
    (badLaunch p = none → WaitAborted s p → t.dies.dispIn.lookD die [] = rest ∧ Aborts s t (coreOf p.org.ctx.region) p.cmd ∧
      Replied s t p 0xFFFFFFFF#32 false ∧ t.fab.recs = s.fab.recs) ∧
    (badLaunch p = none → ¬WaitMet s p → ¬WaitAborted s p →
      ((s.dies.dispWait.lookD die []).length < 256 → t.dies.dispIn.lookD die [] = rest ∧
        t.dies.dispWait.lookD die [] = s.dies.dispWait.lookD die [] ++ [p]) ∧
      (256 ≤ (s.dies.dispWait.lookD die []).length → t = s)) := by
  cases hb : badLaunch p with
  | some o =>
    obtain ⟨t, ht, h⟩ := launchPacketAccept_rejects hp hw hb
    exact ⟨t, ht, fun o' ho => Option.some.inj ho ▸ h, nofun, nofun, nofun⟩
  | none =>
    have hexcl : WaitMet s p → ¬WaitAborted s p := fun hm ha => by
      have := ((s.waitOf_met_iff p).mpr hm).symm.trans ((s.waitOf_aborted_iff p).mpr ha)
      exact absurd this (by decide)
    by_cases hm : WaitMet s p
    · obtain ⟨t, ht, h⟩ := launchPacketAccept_met hp hw hb hm
      exact ⟨t, ht, nofun, fun _ _ => h, fun _ ha => absurd ha (hexcl hm), fun _ hm' => absurd hm hm'⟩
    · by_cases ha : WaitAborted s p
      · obtain ⟨t, ht, h⟩ := launchPacketAccept_aborted hp hw hb ha
        exact ⟨t, ht, nofun, fun _ hm' => absurd hm' hm, fun _ _ => h, fun _ _ ha' => absurd ha ha'⟩
      · obtain ⟨t, ht, h⟩ := launchPacketAccept_unmet hp hw hb hm ha
        exact ⟨t, ht, nofun, fun _ hm' => absurd hm' hm, fun _ ha' => absurd ha' ha, fun _ _ _ => h⟩

end

-- The wait list (R302).

section
variable {s : State} {die : Nat} {p : Packet} {pre post : List Packet}
  (hl : s.dies.dispWait.lookD die [] = pre ++ p :: post) (hpre : ∀ x ∈ pre, ¬WaitMet s x ∧ ¬WaitAborted s x)
  (hid : ∀ x ∈ pre ++ post, x.id ≠ p.id) (hw : s.dieWaits die = false)
include hl hpre hw

/-- The first packet of the wait list that no longer waits. -/
theorem exec_launchWaitMet_unmet (hm : ¬WaitMet s p) (ha : ¬WaitAborted s p) (hid : ∀ x ∈ pre ++ post, x.id ≠ p.id) :
    exec (.launchWaitMet die p.id) s = .next s := by
  refine (show exec (.launchWaitMet die p.id) s = execLaunchWaitMet die p.id s from rfl).trans ?_
  rw [execLaunchWaitMet, hw, hl]
  dsimp only
  rw [if_neg (by decide), List.find?_append, List.find?_eq_none.mpr fun x hx => ?_, List.find?_cons_of_neg]
  · rw [Option.none_or]
    cases hf : post.find? fun x => decide (s.waitOf x ≠ .unmet) with
    | none => rfl
    | some x => exact congrArg Host.Outcome.next (if_neg (hid x (List.mem_append_right _ (List.mem_of_find?_eq_some hf))))
  · simp [State.waitOf_unmet hm ha]
  · simp [State.waitOf_unmet (hpre x hx).1 (hpre x hx).2]

include hid in
theorem exec_launchWaitMet (hst : s.waitOf p ≠ .unmet) : exec (.launchWaitMet die p.id) s = .next (
    let t : State := { s with dies := { s.dies with dispWait := s.dies.dispWait.put die (pre ++ post) } }
    if s.waitOf p = .met then t.takeLaunch die p else t.abortWait p) := by
  have hkeep : (pre ++ p :: post).filter (fun x => decide (x.id ≠ p.id)) = pre ++ post := by
    have hself : ∀ l : List Packet, (∀ x ∈ l, x.id ≠ p.id) → l.filter (fun x => decide (x.id ≠ p.id)) = l := fun l h =>
      List.filter_eq_self.mpr fun x hx => decide_eq_true (h x hx)
    rw [List.filter_append, List.filter_cons_of_neg (by simp), hself pre fun x hx => hid x (List.mem_append_left _ hx),
      hself post fun x hx => hid x (List.mem_append_right _ hx)]
  refine (show exec (.launchWaitMet die p.id) s = execLaunchWaitMet die p.id s from rfl).trans ?_
  rw [execLaunchWaitMet, hw, hl]
  dsimp only
  rw [if_neg (by decide), List.find?_append, List.find?_eq_none.mpr fun x hx => ?_, List.find?_cons_of_pos (by simpa using hst), Option.none_or]
  · dsimp only
    rw [if_pos rfl, hkeep]
  · simp [State.waitOf_unmet (hpre x hx).1 (hpre x hx).2]

include hid in
/-- Every case of a packet of the wait list that none before it precedes (R302). -/
theorem launchWaitMet_spec : ∃ t : State, exec (.launchWaitMet die p.id) s = .next t ∧
    (WaitMet s p → ∀ (id : Word) (v : State),
      ({ s with dies := { s.dies with dispWait := s.dies.dispWait.put die (pre ++ post) } } : State).accept (s.asked die p) = (.ok id, v) →
        Replied v t p id true ∧ t.dies = v.dies) ∧
    (WaitAborted s p → t.dies.dispWait.lookD die [] = pre ++ post ∧ Aborts s t (coreOf p.org.ctx.region) p.cmd ∧
      Replied s t p 0xFFFFFFFF#32 false ∧ t.fab.recs = s.fab.recs) ∧
    (¬WaitMet s p → ¬WaitAborted s p → t = s) := by
  have hexec := exec_launchWaitMet hl hpre hid hw
  rw [← s.waitOf_met_iff p, ← s.waitOf_aborted_iff p]
  cases hst : s.waitOf p with
  | met =>
    rw [hst] at hexec
    exact ⟨_, hexec nofun, fun _ id v h => State.takeLaunch_accepts h, nofun, fun h => absurd rfl h⟩
  | aborted =>
    rw [hst] at hexec
    obtain ⟨hdies, h⟩ := State.abortWait_spec (s := s) (u := { s with dies := { s.dies with dispWait := s.dies.dispWait.put die (pre ++ post) } }) p rfl
    refine ⟨_, hexec nofun, nofun, fun _ => ⟨?_, h⟩, fun _ h => absurd rfl h⟩
    rw [if_neg (by decide), hdies, Tab.lookD, Tab.look_put_same]
    rfl
  | unmet =>
    refine ⟨s, exec_launchWaitMet_unmet hl hpre hw ?_ ?_ hid, nofun, nofun, fun _ _ => rfl⟩
    · rw [← s.waitOf_met_iff p, hst]; exact nofun
    · rw [← s.waitOf_aborted_iff p, hst]; exact nofun

end

end Sys2Proof.Machine
end

section
/-!
SUPPORT. What a read of virtual memory leaves (R341 to R347, R353).
-/
namespace Sys2Proof.Machine
open Claims

-- Gangs that a write wakes (R299).

/-- From `s` to `t` the gangs stand as they were, but that the PRED of some may have been seen zero. -/
def GangsWoken (s t : State) : Prop :=
  ∃ f : Gang → Gang, (∀ g, ∃ b, f g = { g with predZero := b }) ∧ t.dies.gangs = s.dies.gangs.map fun e => (e.1, f e.2)

theorem GangsWoken.of_eq {s t : State} (h : t.dies.gangs = s.dies.gangs) : GangsWoken s t :=
  ⟨id, fun g => ⟨g.predZero, rfl⟩, h.trans (List.map_id _).symm⟩

theorem GangsWoken.trans {s t u : State} (h : GangsWoken s t) (k : GangsWoken t u) : GangsWoken s u := by
  obtain ⟨f, hf, hfs⟩ := h
  obtain ⟨f', hf', hfs'⟩ := k
  refine ⟨f' ∘ f, fun g => ?_, by rw [hfs', hfs, List.map_map]; rfl⟩
  obtain ⟨b, hb⟩ := hf g
  obtain ⟨b', hb'⟩ := hf' (f g)
  exact ⟨b', by rw [Function.comp_apply, hb', hb]⟩

theorem GangsWoken.gang {s t : State} (h : GangsWoken s t) {n : Nat} {g : Gang} (hg : s.gang n = some g) :
    ∃ b, t.gang n = some { g with predZero := b } := by
  obtain ⟨f, hf, hfs⟩ := h
  obtain ⟨b, hb⟩ := hf g
  refine ⟨b, ?_⟩
  rw [State.gang, hfs, Tab.look_map_snd f, show s.dies.gangs.look n = some g from hg, Option.map_some, hb]

/-- A gang after a write to a sector, which may hold its PRED (R299). -/
def State.wokenGang (s : State) (sec : Nat) (g : Gang) : Gang :=
  match g.predLoc with
  | some l => if l / 32 = sec ∧ (s.store.marks.look sec).isNone ∧ s.homeBytes l 2 = [0#8, 0#8] then { g with predZero := true } else g
  | none => g

theorem State.wake_gangs (s : State) (sec : Nat) : (s.wake sec).dies.gangs = s.dies.gangs.map fun e => (e.1, s.wokenGang sec e.2) := rfl

theorem GangsWoken.wake (s : State) (sec : Nat) : GangsWoken s (s.wake sec) := by
  refine ⟨s.wokenGang sec, fun g => ?_, s.wake_gangs sec⟩
  unfold State.wokenGang
  split
  · split
    · exact ⟨true, rfl⟩
    · exact ⟨g.predZero, rfl⟩
  · exact ⟨g.predZero, rfl⟩

theorem GangsWoken.writeSector (s : State) (sec : Nat) (ws : List (Nat × Byte)) : GangsWoken s (s.writeSector sec ws) :=
  .trans (.of_eq rfl) (.wake _ sec)

theorem GangsWoken.physPut (s : State) (pa : Nat) (bs : List Byte) : GangsWoken s (s.physPut pa bs) :=
  foldl_keeps (GangsWoken s) _ (fun _ _ h => h.trans (.writeSector ..)) _ (.of_eq rfl)

theorem GangsWoken.mapPut (s : State) (pa : Nat) (b : Byte) : GangsWoken s (s.mapPut pa b) := by
  unfold State.mapPut
  split
  · exact .of_eq rfl
  · exact .physPut ..

-- What a read leaves.

/-- From `s` to `t` a die has read virtual memory: translations may have changed TLBs and walkers, counted, and set a reference bit, and
the gangs and requests that such a write wakes. -/
structure Looks (s t : State) : Prop where
  rest : t = { s with fab := { s.fab with reqs := t.fab.reqs }, cores := { s.cores with tlb := t.cores.tlb }, store := t.store,
                      dies := { s.dies with gangs := t.dies.gangs, walks := t.dies.walks }, pkg := t.pkg, free := t.free }
  gangs : GangsWoken s t

theorem Looks.trans {s t u : State} (h : Looks s t) (k : Looks t u) : Looks s u := by
  refine ⟨?_, h.gangs.trans k.gangs⟩
  have := k.rest
  rw [h.rest] at this
  exact this

theorem Looks.of_eq {s t : State}
    (h : t = { s with cores := { s.cores with tlb := t.cores.tlb }, dies := { s.dies with walks := t.dies.walks }, pkg := t.pkg, free := t.free }) :
    Looks s t := ⟨by rw [h], .of_eq (by rw [h])⟩

theorem Looks.refl (s : State) : Looks s s := .of_eq rfl

theorem Looks.mapPut (s : State) (pa : Nat) (b : Byte) : Looks s (s.mapPut pa b) := by
  refine ⟨?_, .mapPut ..⟩
  unfold State.mapPut
  split
  · rfl
  · rw [(Puts.physPut s pa [b]).rest]

theorem Looks.leafFor (s : State) (d : Nat) (core : Option Nat) (as_ va : Nat) : Looks s (s.leafFor d core as_ va).2 := by
  unfold State.leafFor
  dsimp only
  split
  · exact .of_eq rfl
  · split
    · split
      · exact .refl s
      · split
        · exact .of_eq rfl
        · split <;> exact .of_eq rfl
    · split <;> exact .of_eq rfl

theorem Looks.procedural (s : State) (q : Ask) (l : Leaf) (loc : Nat) (r : Range) : Looks s (s.procedural q l loc r).2 := by
  unfold State.procedural
  dsimp only
  repeat' split
  any_goals exact .refl s
  all_goals exact .mapPut ..

theorem Looks.xlate (s : State) (q : Ask) : Looks s (s.xlate q).2 := by
  have h := Looks.leafFor s q.die q.core q.as_ q.va
  unfold State.xlate
  split
  · exact .refl s
  · generalize s.leafFor q.die q.core q.as_ q.va = lu at h
    obtain ⟨l, u⟩ := lu
    dsimp only at h ⊢
    repeat' split
    any_goals exact h
    exact h.trans (.procedural ..)

theorem Looks.vpage (s : State) (q : Ask) (va n : Nat) : Looks s (s.vpage q va n).2 := by
  have h := Looks.xlate s { q with va }
  unfold State.vpage
  generalize s.xlate { q with va } = xu at h
  obtain ⟨x, u⟩ := xu
  repeat' split
  all_goals simp_all

theorem Looks.vreadGo (q : Ask) (f va n : Nat) (s : State) : Looks s (State.vreadGo q f va n s).2 := by
  induction f generalizing va n s with
  | zero => exact .refl s
  | succ f ih =>
    unfold State.vreadGo
    split
    · exact .refl s
    · have h := Looks.vpage s q va (min n (4096 - va % 4096))
      dsimp only
      generalize s.vpage q va (min n (4096 - va % 4096)) = r at h
      obtain ⟨_ | bs, u⟩ := r
      · exact h
      · have k := ih (va + min n (4096 - va % 4096)) (n - min n (4096 - va % 4096)) u
        dsimp only
        generalize State.vreadGo q f (va + min n (4096 - va % 4096)) (n - min n (4096 - va % 4096)) u = r' at k
        obtain ⟨_ | cs, w⟩ := r' <;> exact h.trans k

theorem Looks.vread (s : State) (q : Ask) (va n : Nat) : Looks s (s.vread q va n).2 := .vreadGo ..

theorem Looks.readImage (s : State) (q : Ask) (va : Nat) : Looks s (s.readImage q va).2 := by
  have h := Looks.vread s q va 64
  unfold State.readImage
  generalize s.vread q va 64 = r at h
  obtain ⟨_ | bs, u⟩ := r
  · exact h
  · exact h.trans (.vread ..)

theorem Looks.readFrame (s : State) (q : Ask) (va : Nat) : Looks s (s.readFrame q va).2 := by
  have h := Looks.readImage s q va
  unfold State.readFrame
  generalize s.readImage q va = r at h
  obtain ⟨_ | bs, u⟩ := r <;> exact h

theorem Looks.readCogs (q : Ask) (cva : Nat) (hdr : Array Byte) (n c : Nat) (s : State) : Looks s (State.readCogs q cva hdr n c s).2 := by
  induction n generalizing c s with
  | zero => exact .refl s
  | succ n ih =>
    have h := Looks.readFrame s q (imgNat hdr (0x40 + 16 * c) 8)
    unfold State.readCogs
    generalize s.readFrame q (imgNat hdr (0x40 + 16 * c) 8) = r at h
    obtain ⟨_ | f, u⟩ := r
    · exact h
    · have k := Looks.vread u q (cva + imgNat hdr (0x48 + 16 * c) 4) (4 * imgNat hdr 8 2)
      dsimp only
      generalize u.vread q (cva + imgNat hdr (0x48 + 16 * c) 4) (4 * imgNat hdr 8 2) = r at k
      obtain ⟨_ | bs, w⟩ := r
      · exact h.trans k
      · have m := ih (c + 1) w
        dsimp only
        generalize State.readCogs q cva hdr n (c + 1) w = r at m
        obtain ⟨_ | cs, z⟩ := r <;> exact (h.trans k).trans m

theorem Looks.readCass (s : State) (q : Ask) (rcd : List Word) : Looks s (s.readCass q rcd).2 := by
  have h := Looks.vread s q (fieldAt rcd 0xD0 8) (0x40 + 16 * 8)
  unfold State.readCass
  dsimp only
  generalize s.vread q (fieldAt rcd 0xD0 8) (0x40 + 16 * 8) = r at h
  obtain ⟨_ | bs, u⟩ := r
  · exact h
  · dsimp only
    split
    · exact h
    · have k := Looks.readCogs q (fieldAt rcd 0xD0 8) bs.toArray (imgNat bs.toArray 6 1) 0 u
      generalize State.readCogs q (fieldAt rcd 0xD0 8) bs.toArray (imgNat bs.toArray 6 1) 0 u = r at k
      obtain ⟨_ | cs, w⟩ := r
      · exact h.trans k
      · dsimp only
        repeat' split
        all_goals exact h.trans k

end Sys2Proof.Machine
end

section
/-!
SUPPORT. The gang that a dispatcher accepts (R298, R299, R302).
-/
namespace Sys2Proof.Machine
open Claims

/-- What a record that has been read makes of a gang, its identity apart (R296, R298, R299). -/
structure Accepts (a : Submission) (order predLoc : Nat) (g : Gang) : Prop where
  die : g.die = a.die
  record : g.recVA = a.lrec
  from_ : g.from_ = a.pkt
  fill : g.fill = a.fill
  order : g.order = order
  st : g.st = if fieldAt g.rcd 8 2 = 0 then .ready else .pending
  pred : g.predLoc = if fieldAt g.rcd 8 2 = 0 then none else some predLoc
  insts : g.insts = (List.range (instCount (levelsOf g.rcd))).map fun i => { inst := i }
  saved : g.saved = []

/-- The endpoints that a record names, as `examine` reads them (R433). -/
def State.readEpts (s : State) (a : Submission) (rd : Ask) (rcd : List Word) : Except Reject (List (Option Ept)) × State :=
  if fieldAt rcd 0x30 8 = 0 then (.ok [], s)
  else match s.vread rd (fieldAt rcd 0x30 8) 2048 with
    | (.error e, s) => (.error (.ofRead 0x30 e), s)
    | (.ok bs, s) =>
      if (List.range 64).any (s.badEpt a.die bs.toArray) then (.error { off := 0x30 }, s)
      else (.ok ((List.range 64).map (eptAt bs.toArray)), s)

/-- The cassette that a record names, if any, as `examine` reads it (R375). -/
def State.readCassIf (s : State) (fl : Ask) (rcd : List Word) : Except Reject (Option Cass) × State :=
  if fieldAt rcd 0xD0 8 = 0 then (.ok none, s)
  else match s.readCass fl rcd with
    | (.error e, s) => (.error e, s)
    | (.ok c, s) => (.ok (some c), s)

theorem Looks.readEpts (s : State) (a : Submission) (rd : Ask) (rcd : List Word) : Looks s (s.readEpts a rd rcd).2 := by
  unfold State.readEpts
  split
  · exact .refl s
  · have h := Looks.vread s rd (fieldAt rcd 0x30 8) 2048
    generalize s.vread rd (fieldAt rcd 0x30 8) 2048 = r at h
    obtain ⟨_ | bs, u⟩ := r
    · exact h
    · dsimp only
      split <;> exact h

theorem Looks.readCassIf (s : State) (fl : Ask) (rcd : List Word) : Looks s (s.readCassIf fl rcd).2 := by
  unfold State.readCassIf
  split
  · exact .refl s
  · have h := Looks.readCass s fl rcd
    generalize s.readCass fl rcd = r at h
    obtain ⟨_ | c, u⟩ := r <;> exact h

/-- What `examine` makes of a record once its fields hold. -/
def State.describe (s : State) (a : Submission) (rcd : List Word) (predLoc as_ : Nat) : Except Reject Gang × State :=
  let pred := fieldAt rcd 8 2
  let rd : Ask := { die := a.die, as_, va := 0, r := true }
  let fl : Ask := { die := a.die, as_, va := 0, x := true }
  let (epts, s) := s.readEpts a rd rcd
  match epts with
  | .error e => (.error e, s)
  | .ok epts =>
    let (cass, s) := s.readCassIf fl rcd
    match cass with
    | .error e => (.error e, s)
    | .ok cass =>
      let (frame, s) := s.readFrame fl (fieldAt rcd 0x18 8)
      let g : Gang :=
        { id := 0xFFFFFFFF#32, die := a.die, as_, recVA := a.lrec, rcd, arg := a.arg rcd,
          frame := frame.getD { va := fieldAt rcd 0x18 8 }, cass, epts,
          st := if pred = 0 then .ready else .pending, order := s.dies.order, since := s.clk a.die, from_ := a.pkt,
          fill := a.fill, predLoc := if pred = 0 then none else some predLoc,
          insts := (List.range (instCount (levelsOf rcd))).map fun i => { inst := i } }
      match s.frameTest g frame with
      | some o => (.error { off := o }, { s with free := s.free + 1 })
      | none => (.ok g, s)

theorem State.describe_ok {s u : State} {a : Submission} {rcd : List Word} {predLoc as_ : Nat} {g : Gang}
    (h : s.describe a rcd predLoc as_ = (.ok g, u)) : Looks s u ∧ Accepts a s.dies.order predLoc g := by
  unfold State.describe at h
  dsimp only at h
  have h1 := Looks.readEpts s a { die := a.die, as_, va := 0, r := true } rcd
  generalize s.readEpts a { die := a.die, as_, va := 0, r := true } rcd = r at h h1
  obtain ⟨_ | epts, s1⟩ := r
  · cases h
  have h2 := Looks.readCassIf s1 { die := a.die, as_, va := 0, x := true } rcd
  dsimp only at h
  generalize s1.readCassIf { die := a.die, as_, va := 0, x := true } rcd = r at h h2
  obtain ⟨_ | cass, s2⟩ := r
  · cases h
  have h3 := Looks.readFrame s2 { die := a.die, as_, va := 0, x := true } (fieldAt rcd 0x18 8)
  dsimp only at h
  generalize s2.readFrame { die := a.die, as_, va := 0, x := true } (fieldAt rcd 0x18 8) = r at h h3
  obtain ⟨frame, s3⟩ := r
  dsimp only at h
  have hlook : Looks s s3 := (h1.trans h2).trans h3
  have horder : s3.dies.order = s.dies.order := by rw [hlook.rest]
  split at h
  · cases h
  · cases h
    exact ⟨hlook, rfl, rfl, rfl, rfl, horder, rfl, rfl, rfl, rfl⟩

theorem eq_of_ite_error {ε α σ : Type} {c : Prop} [Decidable c] {e : ε} {s u : σ} {k : Except ε α × σ} {g : α}
    (h : (if c then (.error e, s) else k) = (.ok g, u)) : k = (.ok g, u) := by
  split at h
  · cases h
  · exact h

theorem State.examine_describes {s u : State} {a : Submission} {rcd : List Word} {predLoc : Nat} {g : Gang}
    (h : s.examine a rcd predLoc = (.ok g, u)) : s.describe a rcd predLoc (a.as_.getD (fieldAt rcd 0x0C 2)) = (.ok g, u) := by
  unfold State.examine at h
  dsimp only at h
  cases hf : recordFault rcd a.fill.isSome with
  | some o => rw [hf] at h; cases h
  | none =>
    rw [hf] at h
    dsimp only at h
    cases ht : if a.as_ = none then s.tableDeny a.die (s.astBase a.die) (fieldAt rcd 0x0C 2) (s.astN a.die) else none with
    | some d => rw [ht] at h; cases h
    | none =>
      rw [ht] at h
      dsimp only at h
      replace h := eq_of_ite_error h
      cases hr : s.tableDeny a.die s.ringTable (fieldAt rcd 0x0E 2) (s.mmioNat 0x18 0) with
      | some d => rw [hr] at h; cases h
      | none =>
        rw [hr] at h
        dsimp only at h
        replace h := eq_of_ite_error (eq_of_ite_error (eq_of_ite_error (eq_of_ite_error h)))
        exact h

end Sys2Proof.Machine
end

section
/-!
SUPPORT. A record is accepted, and a gang is ready (R298, R299, R302).
-/
namespace Sys2Proof.Machine
open Claims

theorem State.nextId_congr {s t : State} (h : t.dies.accepted = s.dies.accepted) (die : Nat) : t.nextId die = s.nextId die := by
  rw [State.nextId, State.nextId, h]

/-- A gang takes a launch ID, and its place in the order of acceptance (R298, R302). -/
def State.enroll (s : State) (a : Submission) (g : Gang) (next : Word × Nat) : Except Reject Word × State :=
  let (id, n) := next
  (.ok id, { s with dies := { s.dies with
    accepted := s.dies.accepted.put a.die n, order := s.dies.order + 1, gangs := s.dies.gangs.put id.toNat { g with id },
    due := if g.st = .ready then (a.die :: s.dies.due).dedup else s.dies.due } })

/-- An acceptance with an answer has read a record, examined it and enrolled the gang that it describes. -/
theorem State.enrolls_of_accepts {a : Submission} {r : VRes × State} {examine : State → List Byte → Except Reject Gang × State}
    {next : State → Nat → Word × Nat} {id : Word} {u : State}
    (h : (match r with
      | (.error e, s) => (.error (.ofRead (Config.failField s.free) e), { s with free := s.free + 1 })
      | (.ok bs, s) =>
        match examine s bs with
        | (.error e, s) => (.error e, s)
        | (.ok g, s) =>
          let (id, n) := next s a.die
          (.ok id, { s with dies := { s.dies with
            accepted := s.dies.accepted.put a.die n, order := s.dies.order + 1, gangs := s.dies.gangs.put id.toNat { g with id },
            due := if g.st = .ready then (a.die :: s.dies.due).dedup else s.dies.due } }) : Except Reject Word × State) = (.ok id, u)) :
    ∃ (bs : List Byte) (s1 : State) (g : Gang) (s2 : State), r = (.ok bs, s1) ∧ examine s1 bs = (.ok g, s2) ∧ s2.enroll a g (next s2 a.die) = (.ok id, u) := by
  obtain ⟨_ | bs, s1⟩ := r
  · cases h
  · dsimp only at h
    generalize he : examine s1 bs = x at h
    obtain ⟨_ | g, s2⟩ := x
    · cases h
    · exact ⟨bs, s1, g, s2, rfl, he, h⟩

theorem State.enroll_ok {s u : State} {a : Submission} {g : Gang} {id : Word} {next : Word × Nat} (h : s.enroll a g next = (.ok id, u)) :
    u.gang id.toNat = some { g with id } ∧ u.dies.order = s.dies.order + 1 ∧ id = next.1 ∧ (g.st = .ready → a.die ∈ u.dies.due) := by
  obtain ⟨i, c⟩ := next
  obtain rfl : i = id := Except.ok.inj (congrArg Prod.fst h)
  obtain rfl : (s.enroll a g (i, c)).2 = u := congrArg Prod.snd h
  refine ⟨Tab.look_put_same .., rfl, rfl, fun hst => ?_⟩
  show a.die ∈ if g.st = .ready then (a.die :: s.dies.due).dedup else s.dies.due
  rw [if_pos hst, List.mem_dedup]
  exact List.mem_cons_self

/-- The gang that an accepted record makes, and the counts that its acceptance moves (R298, R302). -/
theorem State.accept_ok {s u : State} {a : Submission} {id : Word} (h : s.accept a = (.ok id, u)) :
    ∃ (g : Gang) (predLoc : Nat), Accepts a s.dies.order predLoc g ∧ u.gang id.toNat = some { g with id } ∧ u.dies.order = s.dies.order + 1 ∧
      id = (s.nextId a.die).1 ∧ (g.st = .ready → a.die ∈ u.dies.due) := by
  let q : Ask := { die := a.die, as_ := a.recAs, va := 0, r := true }
  let predLoc (s : State) : Nat := (match (s.xlate { q with va := a.lrec }).1 with | .ok l => l | _ => 0) + 8
  obtain ⟨bs, s1, g, s2, hr, he, hu⟩ := State.enrolls_of_accepts (r := s.vread q a.lrec 256)
    (examine := fun s bs => s.examine a (leWords 64 bs) (predLoc s)) (next := State.nextId) (a := a) (id := id) (u := u) h
  have h1 : Looks s s1 := by simpa only [hr] using Looks.vread s q a.lrec 256
  obtain ⟨h2, hg⟩ := State.describe_ok (State.examine_describes he)
  have hlook := h1.trans h2
  obtain ⟨hgang, horder, hid, hdue⟩ := State.enroll_ok hu
  rw [State.nextId_congr (s := s) (by rw [hlook.rest])] at hid
  have hord : s1.dies.order = s.dies.order := by rw [h1.rest]
  have hord2 : s2.dies.order = s.dies.order := by rw [hlook.rest]
  exact ⟨g, predLoc s1, hord ▸ hg, hgang, hord2 ▸ horder, hid, hdue⟩

/-- A launch ID counts a die's acceptances; that of all ones is left out (R302). -/
theorem State.nextId_eq (s : State) (die : Nat) (h : die * 2 ^ 30 + s.dies.accepted.lookD die 0 % 2 ^ 30 ≠ 0xFFFFFFFF) :
    (s.nextId die).1 = BitVec.ofNat 32 (die * 2 ^ 30 + s.dies.accepted.lookD die 0 % 2 ^ 30) := by
  rw [State.nextId, if_neg h]

theorem State.gang_updGang_same {s : State} {n : Nat} {g : Gang} {f : Gang → Gang} (h : s.gang n = some g) : (s.updGang n f).gang n = some (f g) :=
  Tab.look_upd_same h

/-- A gang whose record waits no longer. -/
def State.readied (s : State) (g : Gang) : Gang := { g with st := .ready, predLoc := none, since := s.clk g.die }

/-- A gang becomes ready, and its dispatcher tries in the next network cycle (R299, R372). -/
theorem exec_gangReady {s : State} {n : Nat} {g : Gang} (hg : s.gang n = some g) :
    exec (.gangReady n) s = .next (if g.st = .pending ∧ g.predZero then
      { s with dies := { (s.updGang n s.readied).dies with due := (g.die :: s.dies.due).dedup } } else s) := by
  refine (show exec (.gangReady n) s = execGangReady n s from rfl).trans ?_
  rw [execGangReady, hg] <;> rfl

end Sys2Proof.Machine
end

section
/-!
SUPPORT. What the brake leaves of the regions and of the gangs (R382).
-/
namespace Sys2Proof.Machine
open Claims

/-- Where a region stands: its place, whether it runs, and who holds it up. -/
structure Stance where
  gang : Nat
  inst : Nat
  on : Bool
  dead : Bool
  claimant : Option Nat
  brake : Option Brake

def Region.stance (g : Region) : Stance := { gang := g.gang, inst := g.inst, on := g.on, dead := g.dead, claimant := g.claimant, brake := g.brake }

/-- The stances of the regions, by region. -/
def State.stances (s : State) : Tab Stance := s.regions.map fun e => (e.1, e.2.stance)

theorem State.region_stance (s : State) (r : Nat) : (s.region r).map Region.stance = s.stances.look r := (Tab.look_map_snd Region.stance s.regions r).symm

/-- Each region stands as it stood, and so do the registers of the regions and the gangs. -/
structure Stands (s t : State) : Prop where
  stances : t.stances = s.stances
  rregs : t.rregs = s.rregs
  gangs : t.dies.gangs = s.dies.gangs

namespace Stands

theorem refl (s : State) : Stands s s := ⟨rfl, rfl, rfl⟩

theorem trans {s t u : State} (h : Stands s t) (k : Stands t u) : Stands s u :=
  ⟨k.stances.trans h.stances, k.rregs.trans h.rregs, k.gangs.trans h.gangs⟩

theorem of_eq {s t : State} (h : t.regions = s.regions) (hr : t.rregs = s.rregs) (hg : t.dies.gangs = s.dies.gangs) : Stands s t :=
  ⟨by rw [State.stances, h, State.stances], hr, hg⟩

theorem foldl {α : Type} {f : State → α → State} (hf : ∀ s x, Stands s (f s x)) (l : List α) (s : State) : Stands s (l.foldl f s) :=
  foldl_keeps (Stands s) f (fun t x h => h.trans (hf t x)) l (.refl s)

theorem updRegion (s : State) (r : Nat) {f : Region → Region} (hf : ∀ g, (f g).stance = g.stance) : Stands s (s.updRegion r f) := by
  refine ⟨?_, rfl, rfl⟩
  simp only [State.stances, State.updRegion, Tab.upd, List.map_map]
  refine List.map_congr_left fun e _ => ?_
  simp only [Function.comp]
  split
  · rw [hf]
  · rfl

theorem mapRegions (s : State) {f : Region → Region} (hf : ∀ g, (f g).stance = g.stance) :
    Stands s { s with regions := s.regions.map fun (e : Nat × Region) => (e.1, f e.2) } := by
  refine ⟨?_, rfl, rfl⟩
  simp only [State.stances, List.map_map]
  exact List.map_congr_left fun e _ => congrArg (Prod.mk e.1) (hf e.2)

theorem updCtx (s : State) (c : CtxId) (f : Ctx → Ctx) : Stands s (s.updCtx c f) := .updRegion s c.region fun _ => rfl

theorem payDebt (s : State) (c : CtxId) (o : Nat) : Stands s (s.payDebt c o) := by
  unfold State.payDebt
  split
  · exact .refl s
  · split
    · exact .refl s
    · refine Stands.trans ?_ (.updCtx _ c _)
      exact of_eq rfl rfl rfl

theorem payDebts (s : State) (c : CtxId) (o : Nat) : Stands s (s.payDebts c o) := .foldl (fun s _ => .payDebt s c o) _ s

theorem seat (s : State) (r t : Nat) (n : Node) : Stands s (s.seat r t n) := by
  refine Stands.trans (Stands.trans ?_ (.updRegion _ r ?_)) (.updCtx _ n.ctx _)
  · exact of_eq rfl rfl rfl
  · exact fun _ => rfl

theorem voidRound (s : State) (r : Nat) : Stands s (s.voidRound r) := by
  unfold State.voidRound
  split
  · exact .refl s
  · dsimp only
    split
    · exact .updRegion s r fun _ => rfl
    · next sh _ =>
      rw [State.foldl_updElem]
      refine (Stands.trans ?_ (.foldl (fun t (e : Nat × Node) => .seat t r e.1 e.2.anew) _ _)).trans (.foldl (fun t (f : Flit) => .payDebts t f.ctx f.o) sh.late _)
      refine Stands.trans (Stands.trans ?_ (.mapRegions _ (f := fun q => q.rewind r) ?_)) (.updRegion _ r ?_)
      · exact of_eq rfl rfl rfl
      · exact fun _ => rfl
      · exact fun _ => rfl

theorem unwait (s : State) (p : Waiter → Bool) : Stands s (s.unwait p) := of_eq rfl rfl rfl

theorem shedFills (s : State) (r : Nat) : Stands s (s.shedFills r) := by
  unfold State.shedFills
  split
  · exact .refl s
  · have hshed : ∀ p f, (∀ g, (f g).stance = g.stance) → Stands s ((s.unwait p).updRegion r f) := fun p _ hf => (Stands.unwait s p).trans (.updRegion _ r hf)
    dsimp only
    split
    · refine Stands.trans (Stands.trans (hshed _ _ ?_) (.voidRound _ r)) (.updRegion _ r ?_)
      · exact fun _ => rfl
      · exact fun _ => rfl
    · exact hshed _ _ fun _ => rfl

theorem updReq (s : State) (id : Nat) (f : Req → Req) : Stands s (s.updReq id f) := of_eq rfl rfl rfl

theorem wakeNow (s : State) (id : Nat) : Stands s (s.wakeNow id) := by
  unfold State.wakeNow
  split
  · split
    · exact .updReq ..
    · split
      · exact .updReq ..
      · exact .updReq ..
    · exact .refl s
  · exact .refl s

theorem brakeReq (s : State) (q : Req) : Stands s (s.brakeReq q) := by
  unfold State.brakeReq
  split
  · exact .updReq ..
  · exact .updReq ..
  · exact .updReq ..
  · exact .updReq ..
  · exact .wakeNow ..
  · exact .updReq ..
  · exact .refl s

theorem brakeHolds (s : State) (r : Nat) : Stands s (s.brakeHolds r) := (Stands.foldl Stands.brakeReq _ s).trans (.shedFills ..)

theorem region_none {s t : State} (h : Stands s t) {r : Nat} (hr : s.region r = none) : t.region r = none := by
  have := t.region_stance r
  rw [h.stances, ← s.region_stance, hr] at this
  exact Option.map_eq_none_iff.mp this

theorem region_some {s t : State} (h : Stands s t) {r : Nat} {g : Region} (hr : s.region r = some g) : ∃ k, t.region r = some k ∧ k.stance = g.stance := by
  have := t.region_stance r
  rw [h.stances, ← s.region_stance, hr] at this
  exact Option.map_eq_some_iff.mp this

theorem rreg {s t : State} (h : Stands s t) (r : Nat) : t.rreg r = s.rreg r := by rw [State.rreg, h.rregs, State.rreg]

end Stands

-- The brake.

/-- What braking `r` leaves of the regions, and where it applies. -/
structure Braking (s t : State) (r : Nat) : Prop where
  gangs : t.dies.gangs = s.dies.gangs
  absent : ∀ q, s.region q = none → t.region q = none
  present : ∀ q g, s.region q = some g → ∃ k, t.region q = some k ∧ k.stance = { g.stance with brake := k.brake } ∧
    (g.brake.isSome = true → k.brake.isSome = true) ∧ (q ≠ r → k.brake = g.brake) ∧ (q = r → g.on = true → g.dead = false → k.brake.isSome = true)
  rreg : ∀ q, q ≠ r → t.rreg q = s.rreg q
  state : ∀ g, s.region r = some g → g.on = true → g.dead = false → g.brake = none → (t.rreg r).state = 3
  idle : ∀ g, s.region r = some g → g.brake.isSome = true → t = s

theorem Braking.of_idle {s : State} {r : Nat} (h : ∀ g, s.region r = some g → g.on = true → g.dead = false → g.brake.isSome = true) :
    Braking s s r := by
  refine ⟨rfl, fun _ => id, fun q g hq => ⟨g, hq, rfl, id, fun _ => rfl, fun hr => h g (hr ▸ hq)⟩, fun _ _ => rfl, fun g hg h1 h2 h3 => ?_,
    fun _ _ _ => rfl⟩
  exact absurd (h g hg h1 h2) (by rw [h3]; simp)

theorem State.braking {s : State} (r : Nat) (agent : BrakeBy) : Braking s (s.brakeRegion r agent) r := by
  unfold State.brakeRegion
  split
  · next hr => exact .of_idle fun g hg => absurd hg (by rw [hr]; simp)
  · next g hr =>
    split
    · next hstop =>
      refine .of_idle fun x hx h1 h2 => ?_
      obtain rfl : g = x := Option.some.inj (hr.symm.trans hx)
      simpa [h1, h2] using hstop
    · next hgo =>
      dsimp only
      set f : Region → Region := fun g => { g with
        brake := some { by_ := agent, since := s.regionClk r }, rechoose := none, gens := g.gens.map fun e => (e.1, { e.2 with quota := 0 }) }
      set u : State := (s.updRegion r f).updRreg r fun q => { q with state := 3 } with hu
      have hh := Stands.brakeHolds u r
      have hreg : ∀ q, u.region q = if q = r then (s.region q).map f else s.region q := fun q => State.region_updRegion s r q f
      refine ⟨hh.gangs, fun q hq => ?_, fun q x hq => ?_, fun q hq => ?_, fun x _ _ _ _ => ?_, fun x hx hb => ?_⟩
      · refine hh.region_none ?_
        rw [hreg, hq]
        split <;> rfl
      · have hux : u.region q = some (if q = r then f x else x) := by
          rw [hreg, hq]
          split <;> rfl
        obtain ⟨k, hk, hst⟩ := hh.region_some hux
        have hbrake : k.brake = (if q = r then f x else x).brake := congrArg Stance.brake hst
        refine ⟨k, hk, ?_, fun hb => ?_, fun hq => ?_, fun hq _ _ => ?_⟩
        · rw [hst, hbrake]
          split <;> rfl
        · rw [hbrake]
          split
          · rfl
          · exact hb
        · rw [hbrake, if_neg hq]
        · rw [hbrake, if_pos hq]
          rfl
      · rw [hh.rreg, hu, State.rreg_updRreg_other _ hq]
        rfl
      · rw [hh.rreg, hu, State.rreg_updRreg_same]
      · obtain rfl : g = x := Option.some.inj (hr.symm.trans hx)
        exact absurd (by simp [hb]) hgo

end Sys2Proof.Machine
end

section
/-!
SUPPORT. Pre-emption (R373).
-/
namespace Sys2Proof.Machine
open Claims

/-- Where a region stood, one stands that belongs to its gang, runs as it ran, and is braked if it was. -/
def Steady (s t : State) : Prop :=
  ∀ (r : Nat) (g : Region), s.region r = some g →
    ∃ k, t.region r = some k ∧ k.gang = g.gang ∧ k.on = g.on ∧ k.dead = g.dead ∧ (g.brake.isSome = true → k.brake.isSome = true)

namespace Steady

theorem refl (s : State) : Steady s s := fun _ g h => ⟨g, h, rfl, rfl, rfl, id⟩

theorem trans {s t u : State} (h : Steady s t) (k : Steady t u) : Steady s u := by
  intro r g hg
  obtain ⟨g1, hg1, a1, b1, c1, d1⟩ := h r g hg
  obtain ⟨g2, hg2, a2, b2, c2, d2⟩ := k r g1 hg1
  exact ⟨g2, hg2, a2.trans a1, b2.trans b1, c2.trans c1, d2 ∘ d1⟩

theorem updGang (s : State) (n : Nat) (f : Gang → Gang) : Steady s (s.updGang n f) := refl s

theorem brakeRegion (s : State) (r : Nat) (agent : BrakeBy) : Steady s (s.brakeRegion r agent) := by
  intro q g hq
  obtain ⟨k, hk, hst, hb, -⟩ := (State.braking r agent).present q g hq
  exact ⟨k, hk, congrArg Stance.gang hst, congrArg Stance.on hst, congrArg Stance.dead hst, hb⟩

theorem claim (s : State) (r : Nat) (x : Option Nat) : Steady s (s.updRegion r fun g => { g with claimant := x }) := by
  intro q g hq
  rw [State.region_updRegion, hq]
  split
  · exact ⟨_, rfl, rfl, rfl, rfl, id⟩
  · exact ⟨_, rfl, rfl, rfl, rfl, id⟩

theorem brakeAll (s : State) (x : Nat) (rs : List Nat) : Steady s (s.brakeAll x rs) :=
  foldl_keeps (Steady s) _ (fun t r h => (h.trans (brakeRegion t r _)).trans (claim _ r (some x))) rs (updGang s x _)

end Steady

/-- A region that is braked among others stands braked, if it runs. -/
theorem State.brakeAll_brakes {s : State} {x r : Nat} {rs : List Nat} {g : Region} (hr : r ∈ rs) (hg : s.region r = some g) (hon : g.on = true)
    (hdead : g.dead = false) : ∃ k, (s.brakeAll x rs).region r = some k ∧ k.brake.isSome = true := by
  refine foldl_reaches (Q := Steady s) (P := fun t : State => ∃ k, t.region r = some k ∧ k.brake.isSome = true)
    (fun t q h => (h.trans (.brakeRegion t q _)).trans (.claim _ q (some x))) (fun t q ⟨k, hk, hb⟩ => ?_) hr (fun t ht => ?_) (Steady.updGang s x _)
  · obtain ⟨k', hk', -, -, -, hb'⟩ := ((Steady.brakeRegion t q .dispatcher).trans (.claim _ q (some x))) r k hk
    exact ⟨k', hk', hb' hb⟩
  · obtain ⟨k, hk, -, hon', hdead', -⟩ := ht r g hg
    obtain ⟨k1, hk1, -, -, -, hb⟩ := (State.braking (s := t) r .dispatcher).present r k hk
    obtain ⟨k2, hk2, -, -, -, hb2⟩ := Steady.claim (t.brakeRegion r .dispatcher) r (some x) r k1 hk1
    exact ⟨k2, hk2, hb2 (hb rfl (hon'.trans hon) (hdead'.trans hdead))⟩

/-- The gangs that a gang pre-empts, whole or in part, are victims of it. -/
theorem State.mem_of_choose {s : State} {x : Gang} {vs whole : List Gang} {others : List (Nat × Region)} {w : List Gang}
    {part : Option (Gang × List Nat × List Nat)} {es : List (Nat × Region)} (h : s.choose x vs whole others = some (w, part, es)) :
    (∀ v ∈ w, v ∈ whole ∨ v ∈ vs) ∧ ∀ p, part = some p → p.1 ∈ vs := by
  induction vs generalizing whole others with
  | nil => cases h
  | cons g rest ih =>
    have happend : ∀ v ∈ whole ++ [g], v ∈ whole ∨ v ∈ g :: rest := fun v hv =>
      (List.mem_append.mp hv).imp_right fun hv => List.mem_cons.mpr (.inl (List.mem_singleton.mp hv))
    unfold State.choose at h
    dsimp only at h
    split at h
    · cases h
      exact ⟨fun v hv => .inl hv, fun p hp => Option.some.inj hp ▸ List.mem_cons_self⟩
    · split at h
      · cases h
        exact ⟨happend, fun p hp => absurd hp (by simp)⟩
      · obtain ⟨hw, hp⟩ := ih h
        exact ⟨fun v hv => (hw v hv).elim (happend v) fun hv => .inr (List.mem_cons_of_mem _ hv), fun p h => List.mem_cons_of_mem _ (hp p h)⟩

/-- A victim runs, and is of lower PRIO. -/
theorem State.mem_victims {s : State} {x v : Gang} (h : v ∈ s.victims x) : v ∈ s.dies.gangs.map (fun e => e.2) ∧ v.st = .running ∧ v.base < x.base := by
  obtain ⟨hmem, hv⟩ := List.mem_filter.mp (List.mem_mergeSort.mp h)
  simp only [Bool.and_eq_true, decide_eq_true_eq] at hv
  obtain ⟨⟨⟨hst, hbase⟩, -⟩, -⟩ := hv
  exact ⟨hmem, hst, hbase⟩

theorem State.mem_regionsOf {s : State} {r : Nat} {g : Region} (hg : s.region r = some g) : r ∈ (s.regionsOf g.gang).map fun e => e.1 := by
  refine List.mem_map.mpr ⟨(r, g), List.mem_mergeSort.mpr (List.mem_filter.mpr ⟨Tab.mem_of_look hg, ?_⟩), rfl⟩
  exact decide_eq_true rfl

/-- A gang has been unplaceable for as long as a die's dispatcher waits (R373). -/
def State.Ripe (s : State) (x : Gang) : Prop := ∃ t0, x.stuck = some t0 ∧ t0 + 2 ^ s.pwx x.die ≤ s.clk x.die

/-- The regions of the gangs chosen whole are braked, one gang after another. -/
def State.brakeWhole (s : State) (n : Nat) (whole : List Gang) : State :=
  whole.foldl (fun s g => s.brakeAll n ((s.regionsOf g.id.toNat).map fun e => e.1)) s

/-- The instances chosen of an elastic gang are to be shifted or retired (R381). -/
def State.brakePart (s : State) (n : Nat) : Option (Gang × List Nat × List Nat) → State
  | none => s
  | some (g, sh, re) =>
    (s.updGang g.id.toNat fun y => { y with shift := y.shift ++ sh, retire := y.retire ++ re }).brakeAll n
      (((s.regionsOf g.id.toNat).filter fun e => (sh ++ re).contains e.2.inst).map fun e => e.1)

theorem State.preempt_of_ripe {s : State} {n : Nat} {x : Gang} {whole : List Gang} {part : Option (Gang × List Nat × List Nat)} {es : List (Nat × Region)}
    (hx : s.gang n = some x) (hripe : s.Ripe x) (hready : s.isReady x = true) (hwant : x.want = [])
    (hc : s.choose x (s.victims x) [] s.regions = some (whole, part, es)) :
    s.preempt n = ((s.updGang n fun g => { g with want := es }).brakeWhole n whole).brakePart n part := by
  obtain ⟨t0, ht0, hle⟩ := hripe
  unfold State.preempt
  simp only [hx, ht0, hle, hready, hwant, hc, decide_true, Bool.not_true, List.isEmpty_nil, Bool.or_self, Bool.false_eq_true, if_false]
  cases part <;> rfl

/-- A gang that is not ripe or not ready, that has its place already, or for which no victims make place, pre-empts nothing. -/
theorem State.preempt_of_idle {s : State} {n : Nat} {x : Gang} (hx : s.gang n = some x)
    (h : ¬(s.Ripe x ∧ s.isReady x = true ∧ x.want = [] ∧ ∃ c, s.choose x (s.victims x) [] s.regions = some c)) : s.preempt n = s := by
  unfold State.preempt
  rw [hx]
  dsimp only
  cases ht : x.stuck with
  | none => exact if_pos rfl
  | some t0 =>
    dsimp only
    split
    · rfl
    · next hgo =>
      simp only [Bool.or_eq_true, Bool.not_eq_true', not_or, Bool.not_eq_false, List.isEmpty_iff, decide_eq_true_eq] at hgo
      obtain ⟨⟨hle, hready⟩, hwant⟩ := hgo
      split
      · rfl
      · next c hc => exact absurd ⟨⟨t0, ht, hle⟩, hready, hwant, _, hc⟩ h

theorem Steady.brakeWhole (s : State) (n : Nat) (whole : List Gang) : Steady s (s.brakeWhole n whole) :=
  foldl_keeps (Steady s) _ (fun t _ h => h.trans (brakeAll t _ _)) whole (.refl s)

theorem Steady.brakePart (s : State) (n : Nat) (part : Option (Gang × List Nat × List Nat)) : Steady s (s.brakePart n part) := by
  cases part with
  | none => exact .refl s
  | some p => exact (Steady.updGang s _ _).trans (.brakeAll _ _ _)

/-- A pre-emption brakes the regions of every gang that is chosen whole. -/
theorem State.brakeWhole_brakes {s : State} {n r : Nat} {whole : List Gang} {v : Gang} {g : Region} (hv : v ∈ whole) (hg : s.region r = some g)
    (hgang : g.gang = v.id.toNat) (hon : g.on = true) (hdead : g.dead = false) :
    ∃ k, (s.brakeWhole n whole).region r = some k ∧ k.brake.isSome = true := by
  refine foldl_reaches (Q := Steady s) (P := fun t : State => ∃ k, t.region r = some k ∧ k.brake.isSome = true)
    (fun t _ h => h.trans (.brakeAll t _ _)) (fun t w ⟨k, hk, hb⟩ => ?_) hv (fun t ht => ?_) (.refl s)
  · obtain ⟨k', hk', -, -, -, hb'⟩ := Steady.brakeAll t n ((t.regionsOf w.id.toNat).map fun e => e.1) r k hk
    exact ⟨k', hk', hb' hb⟩
  · obtain ⟨k, hk, hkg, hon', hdead', -⟩ := ht r g hg
    exact State.brakeAll_brakes ((hkg.trans hgang) ▸ State.mem_regionsOf hk) hk (hon'.trans hon) (hdead'.trans hdead)

theorem preemptionWaitExpiry_spec {s : State} {n : Nat} {x : Gang} (hx : s.gang n = some x) :
    (¬s.Ripe x → exec (.preemptionWaitExpiry n) s = .next s) ∧
    (∀ (whole : List Gang) (part : Option (Gang × List Nat × List Nat)) (es : List (Nat × Region)), s.Ripe x → s.isReady x = true → x.want = [] →
      s.choose x (s.victims x) [] s.regions = some (whole, part, es) →
      ∃ t : State, exec (.preemptionWaitExpiry n) s = .next t ∧ (∀ v ∈ whole, v ∈ s.victims x ∧ v.st = .running ∧ v.base < x.base) ∧
        ∀ v ∈ whole, ∀ (r : Nat) (h : Region), s.region r = some h → h.gang = v.id.toNat → h.on = true → h.dead = false →
          ∃ k : Region, t.region r = some k ∧ k.brake.isSome = true) := by
  refine ⟨fun h => congrArg Host.Outcome.next (State.preempt_of_idle hx fun hgo => h hgo.1), fun whole part es hripe hready hwant hc => ?_⟩
  refine ⟨_, congrArg Host.Outcome.next (State.preempt_of_ripe hx hripe hready hwant hc), fun v hv => ?_, fun v hv r h hr hgang hon hdead => ?_⟩
  · have hvic : v ∈ s.victims x := ((State.mem_of_choose hc).1 v hv).resolve_left List.not_mem_nil
    exact ⟨hvic, (State.mem_victims hvic).2⟩
  · obtain ⟨k, hk, hb⟩ := State.brakeWhole_brakes (s := s.updGang n fun g => { g with want := es }) (n := n) hv hr hgang hon hdead
    obtain ⟨k', hk', -, -, -, hb'⟩ := Steady.brakePart _ n part r k hk
    exact ⟨k', hk', hb' hb⟩

end Sys2Proof.Machine
end

section
/-!
SUPPORT. A dispatcher that holds one ready gang (R371, R372, R374).
-/
namespace Sys2Proof.Machine
open Claims

-- What a dispatcher does beside a gang that loads.

/-- Every gang stands under its launch ID, and gang `n` loads. -/
def State.Loads (n : Nat) (s : State) : Prop := ∀ e ∈ s.dies.gangs, e.2.id.toNat = e.1 ∧ (e.1 = n → e.2.st = .loading)

/-- A gang keeps its launch ID, and, if it is gang `n`, its state, its cog and its instances. -/
def Gang.Kept (n : Nat) (a b : Gang) : Prop := b.id = a.id ∧ (a.id.toNat = n → b.st = a.st ∧ b.cog = a.cog ∧ b.insts = a.insts)

theorem Gang.Kept.refl (n : Nat) (a : Gang) : a.Kept n a := ⟨rfl, fun _ => ⟨rfl, rfl, rfl⟩⟩

theorem Gang.Kept.trans {n : Nat} {a b c : Gang} (h : a.Kept n b) (k : b.Kept n c) : a.Kept n c := by
  refine ⟨k.1.trans h.1, fun hn => ?_⟩
  obtain ⟨h1, h2, h3⟩ := h.2 hn
  obtain ⟨k1, k2, k3⟩ := k.2 (h.1 ▸ hn)
  exact ⟨k1.trans h1, k2.trans h2, k3.trans h3⟩

/-- Gang `n` is kept, no gang comes or goes, and no place is given up. -/
structure Beside (n : Nat) (s t : State) : Prop where
  gangs : List.Forall₂ (fun a b => b.1 = a.1 ∧ Gang.Kept n a.2 b.2) s.dies.gangs t.dies.gangs
  regions : ∀ r, (s.region r).isSome = true → (t.region r).isSome = true

namespace Beside

variable {n : Nat} {s t u : State}

theorem of_gangs (h : t.dies.gangs = s.dies.gangs) (hr : ∀ r, (s.region r).isSome = true → (t.region r).isSome = true) : Beside n s t :=
  ⟨h ▸ List.forall₂_same.mpr fun _ _ => ⟨rfl, .refl n _⟩, hr⟩

theorem refl (s : State) : Beside n s s := of_gangs rfl fun _ => id

theorem trans (h : Beside n s t) (k : Beside n t u) : Beside n s u := by
  refine ⟨?_, fun r hr => k.regions r (h.regions r hr)⟩
  have hst := h.gangs
  have htu := k.gangs
  generalize s.dies.gangs = a, t.dies.gangs = b, u.dies.gangs = c at hst htu
  induction hst generalizing c with
  | nil => exact htu
  | cons hab _ ih =>
    cases htu with
    | cons hbc htu => exact .cons ⟨hbc.1.trans hab.1, hab.2.trans hbc.2⟩ (ih _ htu)

theorem loads (h : Beside n s t) (hs : s.Loads n) : t.Loads n := by
  have hst := h.gangs
  unfold State.Loads at hs ⊢
  generalize s.dies.gangs = a, t.dies.gangs = b at hst hs
  induction hst with
  | nil => exact hs
  | @cons x y xs ys hxy _ ih =>
    obtain ⟨hx, hxs⟩ := List.forall_mem_cons.mp hs
    obtain ⟨hkey, hid, hkept⟩ := hxy
    refine List.forall_mem_cons.mpr ⟨⟨by rw [hid, hkey]; exact hx.1, fun hn => ?_⟩, ih hxs⟩
    rw [hkey] at hn
    exact ((hkept (hx.1.trans hn)).1).trans (hx.2 hn)

/-- What each element of a list does beside gang `n`, the whole list does. -/
theorem foldl {α : Type} {f : State → α → State} {l : List α} (hf : ∀ t, t.Loads n → ∀ x ∈ l, Beside n t (f t x)) (hs : s.Loads n) :
    Beside n s (l.foldl f s) := by
  induction l generalizing s with
  | nil => exact .refl s
  | cons x xs ih =>
    have hx := hf s hs x List.mem_cons_self
    exact hx.trans (ih (fun t ht y hy => hf t ht y (List.mem_cons_of_mem x hy)) (hx.loads hs))

theorem updGang (hs : s.Loads n) {m : Nat} {f : Gang → Gang} (hid : ∀ x, (f x).id = x.id)
    (hf : m = n → ∀ x, (f x).st = x.st ∧ (f x).cog = x.cog ∧ (f x).insts = x.insts) : Beside n s (s.updGang m f) := by
  refine ⟨List.forall₂_map_right_iff.mpr (List.forall₂_same.mpr fun e he => ?_), fun _ => id⟩
  split
  · next hm => exact ⟨rfl, hid e.2, fun hn => hf (hm.symm.trans ((hs e he).1.symm.trans hn)) e.2⟩
  · exact ⟨rfl, .refl n e.2⟩

theorem brakeRegion (s : State) (r : Nat) (agent : BrakeBy) : Beside n s (s.brakeRegion r agent) := by
  refine of_gangs (State.braking r agent).gangs fun q hq => ?_
  obtain ⟨g, hg⟩ := Option.isSome_iff_exists.mp hq
  obtain ⟨k, hk, -⟩ := (State.braking r agent).present q g hg
  rw [hk]; rfl

theorem updRegion (s : State) (r : Nat) (f : Region → Region) : Beside n s (s.updRegion r f) := by
  refine of_gangs rfl fun q hq => ?_
  rw [State.region_updRegion]
  split
  · rw [Option.isSome_map]; exact hq
  · exact hq

theorem brakeAll (hs : s.Loads n) (x : Nat) (rs : List Nat) : Beside n s (s.brakeAll x rs) := by
  have hfreed : ∀ freed, Beside n s (s.updGang x fun g => { g with freed := g.freed ++ freed }) := fun freed =>
    .updGang hs (fun _ => rfl) fun _ _ => ⟨rfl, rfl, rfl⟩
  exact (hfreed _).trans (.foldl (fun t _ r _ => (brakeRegion t r _).trans (.updRegion _ r _)) ((hfreed _).loads hs))

theorem brakeWhole (hs : s.Loads n) (m : Nat) (whole : List Gang) : Beside n s (s.brakeWhole m whole) :=
  .foldl (fun _ ht _ _ => brakeAll ht _ _) hs

theorem brakePart (hs : s.Loads n) (m : Nat) {part : Option (Gang × List Nat × List Nat)} (hp : ∀ p, part = some p → p.1.id.toNat ≠ n) :
    Beside n s (s.brakePart m part) := by
  cases part with
  | none => exact .refl s
  | some p =>
    have hshift : Beside n s (s.updGang p.1.id.toNat fun y => { y with shift := y.shift ++ p.2.1, retire := y.retire ++ p.2.2 }) :=
      .updGang hs (fun _ => rfl) fun h => absurd h (hp p rfl)
    exact hshift.trans (brakeAll (hshift.loads hs) _ _)

end Beside

section
variable {n : Nat} {s : State}

theorem State.Loads.id_ne (hs : s.Loads n) {g : Gang} (hg : g ∈ s.dies.gangs.map fun e => e.2) (hst : g.st ≠ .loading) : g.id.toNat ≠ n := by
  obtain ⟨e, he, rfl⟩ := List.mem_map.mp hg
  intro hn
  exact hst ((hs e he).2 ((hs e he).1.symm.trans hn))

theorem State.mem_readyGangs {d : Nat} {g : Gang} (h : g ∈ s.readyGangs d) : g ∈ s.dies.gangs.map (fun e => e.2) ∧ g.st ≠ .loading := by
  obtain ⟨hmem, hg⟩ := List.mem_filter.mp (List.mem_mergeSort.mp h)
  refine ⟨hmem, fun hst => ?_⟩
  simp [State.isReady, State.unplaced, hst] at hg

theorem State.Loads.ready_ne (hs : s.Loads n) {d : Nat} {g : Gang} (h : g ∈ s.readyGangs d) : g.id.toNat ≠ n :=
  hs.id_ne (State.mem_readyGangs h).1 (State.mem_readyGangs h).2

theorem Beside.preempt (hs : s.Loads n) (m : Nat) : Beside n s (s.preempt m) := by
  cases hx : s.gang m with
  | none =>
    rw [State.preempt, hx]
    exact .refl s
  | some x =>
    by_cases hgo : s.Ripe x ∧ s.isReady x = true ∧ x.want = [] ∧ ∃ c, s.choose x (s.victims x) [] s.regions = some c
    · obtain ⟨hripe, hready, hwant, ⟨whole, part, es⟩, hc⟩ := hgo
      rw [State.preempt_of_ripe hx hripe hready hwant hc]
      have hw : Beside n s (s.updGang m fun g => { g with want := es }) := .updGang hs (fun _ => rfl) fun _ _ => ⟨rfl, rfl, rfl⟩
      have hb := hw.trans (.brakeWhole (hw.loads hs) m whole)
      refine hb.trans (.brakePart (hb.loads hs) m fun p hp => ?_)
      obtain ⟨hmem, hst, -⟩ := State.mem_victims ((State.mem_of_choose hc).2 p hp)
      exact hs.id_ne hmem (by rw [hst]; decide)
    · rw [State.preempt_of_idle hx hgo]
      exact .refl s

end

end Sys2Proof.Machine
end

section
/-!
SUPPORT. The try of a dispatcher that holds no gang, or one (R372, R374).
-/
namespace Sys2Proof.Machine
open Claims

-- The claim of a place.

/-- An instance whose place has been claimed loads there. -/
def Inst.placed (es : List (Nat × Region)) (i : Inst) : Inst := match es.find? fun e => e.2.inst = i.inst with
  | some e => { i with region := e.1, st := .loading, fault := none }
  | none => i

/-- A gang whose place has been claimed loads. -/
def Gang.claimed (es : List (Nat × Region)) (c now : Nat) (x : Gang) : Gang :=
  { x with insts := x.insts.map (Inst.placed es), st := .loading, cog := c, placed := now, stuck := none, want := [], freed := [] }

section
variable {s : State} {g : Gang} {c : Nat} {es : List (Nat × Region)}

/-- The registers of the places say that they load (R195). -/
theorem State.foldl_updRreg (s : State) (es : List (Nat × Region)) (f : RReg → RReg) :
    es.foldl (fun s e => s.updRreg e.1 f) s = { s with rregs := (es.foldl (fun s e => s.updRreg e.1 f) s).rregs } :=
  foldl_keeps (fun t : State => t = { s with rregs := t.rregs }) (fun t e => t.updRreg e.1 f) (fun t e h => by rw [h]; rfl) es rfl

theorem State.claim_eq : ∃ rr, s.claim g c es = { s with
    regions := es.foldl (fun t e => t.put e.1 e.2) s.regions, free := s.free + 1, rregs := rr,
    dies := { s.dies with gangs := s.dies.gangs.upd g.id.toNat (Gang.claimed es c (s.clk g.die)) } } := by
  unfold State.claim
  dsimp only
  rw [State.foldl_updRreg]
  exact ⟨_, rfl⟩

theorem State.claim_gangs : (s.claim g c es).dies.gangs = s.dies.gangs.upd g.id.toNat (Gang.claimed es c (s.clk g.die)) := by
  obtain ⟨rr, h⟩ := State.claim_eq (s := s) (g := g) (c := c) (es := es)
  rw [h]

theorem State.claim_regions : (s.claim g c es).regions = es.foldl (fun t e => t.put e.1 e.2) s.regions := by
  obtain ⟨rr, h⟩ := State.claim_eq (s := s) (g := g) (c := c) (es := es)
  rw [h]

theorem Tab.look_put_isSome {α : Type} {t : Tab α} {k : Nat} {x : Nat × α} (h : (t.look k).isSome = true) : ((t.put x.1 x.2).look k).isSome = true := by
  by_cases hk : k = x.1
  · rw [hk, Tab.look_put_same]; rfl
  · rw [Tab.look_put_other _ hk]; exact h

theorem State.claim_region {r : Nat} (h : (s.region r).isSome = true) : ((s.claim g c es).region r).isSome = true := by
  rw [State.region, State.claim_regions]
  exact foldl_keeps (fun t : Tab Region => (t.look r).isSome = true) _ (fun _ _ => Tab.look_put_isSome) es h

/-- A claimed place is taken. -/
theorem State.claim_takes {e : Nat × Region} (he : e ∈ es) : ((s.claim g c es).region e.1).isSome = true := by
  rw [State.region, State.claim_regions]
  refine foldl_reaches (Q := fun _ => True) (P := fun t : Tab Region => (t.look e.1).isSome = true) (fun _ _ h => h) (fun _ _ => Tab.look_put_isSome) he
    (fun t _ => ?_) trivial
  rw [Tab.look_put_same]; rfl

theorem Beside.claim {n : Nat} (hs : s.Loads n) (hg : g.id.toNat ≠ n) : Beside n s (s.claim g c es) := by
  refine ⟨?_, fun _ => State.claim_region⟩
  rw [State.claim_gangs]
  exact (Beside.updGang hs (m := g.id.toNat) (f := Gang.claimed es c (s.clk g.die)) (fun _ => rfl) fun h => absurd h hg).gangs

/-- The gang whose place is claimed loads. -/
theorem State.claim_loads {n : Nat} (hid : ∀ e ∈ s.dies.gangs, e.2.id.toNat = e.1) (hg : g.id.toNat = n) : (s.claim g c es).Loads n := by
  intro e he
  rw [State.claim_gangs] at he
  obtain ⟨x, hx, rfl⟩ := List.mem_map.mp he
  split
  · exact ⟨hid x hx, fun _ => rfl⟩
  · next h => exact ⟨hid x hx, fun hn => absurd (hn.trans hg.symm) h⟩

end

-- The levels.

theorem State.tryPlace_eq_some {s t : State} {g : Gang} (h : s.tryPlace g = some t) : ∃ c es, t = s.claim g c es := by
  obtain ⟨e, -, rfl⟩ := Option.map_eq_some_iff.mp h
  exact ⟨_, _, rfl⟩

theorem State.tryTenant_succ (d lv u k : Nat) (s : State) :
    State.tryTenant d lv u (k + 1) s = match ((s.readyGangs d).filter fun g => s.levelOf g = lv && g.tenant = u).findSome? s.tryPlace with
      | none => (0, s)
      | some t => ((State.tryTenant d lv u k t).1 + 1, (State.tryTenant d lv u k t).2) := by
  rw [State.tryTenant] <;> rfl

theorem Beside.tryTenant {n : Nat} {s : State} (hs : s.Loads n) (d lv u k : Nat) : Beside n s (State.tryTenant d lv u k s).2 := by
  induction k generalizing s with
  | zero => exact .refl s
  | succ k ih =>
    rw [State.tryTenant_succ]
    cases hf : ((s.readyGangs d).filter fun g => s.levelOf g = lv && g.tenant = u).findSome? s.tryPlace with
    | none => exact .refl s
    | some t =>
      obtain ⟨g, hg, hp⟩ := List.exists_of_findSome?_eq_some hf
      obtain ⟨c, es, rfl⟩ := State.tryPlace_eq_some hp
      have hc : Beside n s (s.claim g c es) := .claim hs (hs.ready_ne (List.mem_of_mem_filter hg))
      exact hc.trans (ih (hc.loads hs))

/-- One tenant's turn at a level. -/
def State.tenantTurn (d lv : Nat) (acc : Option Nat × State) (u : Nat) : Option Nat × State :=
  match State.tryTenant d lv u (acc.2.weight d u) acc.2 with
  | (0, s) => (acc.1, s)
  | (_, s) => (some u, s)

theorem State.tenantTurn_state (d lv : Nat) (acc : Option Nat × State) (u : Nat) :
    (State.tenantTurn d lv acc u).2 = (State.tryTenant d lv u (acc.2.weight d u) acc.2).2 := by
  unfold State.tenantTurn
  split <;> next h => rw [h]

/-- The tenants of the ready gangs of a level, in the order in which they have their turns (R372). -/
def State.tenants (s : State) (d lv : Nat) : List Nat :=
  let us := (((s.readyGangs d).filter fun g => s.levelOf g = lv).map Gang.tenant).dedup.mergeSort fun a b => decide (a ≤ b)
  let p := s.dies.tptr.lookD (8 * d + lv) 0
  (us.filter fun u => p ≤ u) ++ us.filter fun u => u < p

/-- What the turns of a level leave, with the pointer of the level after the last tenant that was served. -/
def State.served (d lv : Nat) (acc : Option Nat × State) : Bool × State :=
  match acc.1 with
  | none => (false, acc.2)
  | some u => (true, { acc.2 with dies := { acc.2.dies with tptr := acc.2.dies.tptr.put (8 * d + lv) ((u + 1) % 65536) } })

theorem State.tryLevel_eq (s : State) (d lv : Nat) : s.tryLevel d lv = State.served d lv ((s.tenants d lv).foldl (State.tenantTurn d lv) (none, s)) :=
  rfl

theorem Beside.served {n : Nat} (d lv : Nat) (acc : Option Nat × State) : Beside n acc.2 (State.served d lv acc).2 := by
  unfold State.served
  split
  · exact .refl _
  · exact .of_gangs rfl fun _ => id

theorem State.mem_tenants {s : State} {d : Nat} {g : Gang} (h : g ∈ s.readyGangs d) : g.tenant ∈ s.tenants d (s.levelOf g) := by
  have hmem : g.tenant ∈ (((s.readyGangs d).filter fun x => s.levelOf x = s.levelOf g).map Gang.tenant).dedup.mergeSort fun a b => decide (a ≤ b) :=
    List.mem_mergeSort.mpr (List.mem_dedup.mpr (List.mem_map_of_mem (List.mem_filter.mpr ⟨h, decide_eq_true rfl⟩)))
  by_cases hp : s.dies.tptr.lookD (8 * d + s.levelOf g) 0 ≤ g.tenant
  · exact List.mem_append_left _ (List.mem_filter.mpr ⟨hmem, decide_eq_true hp⟩)
  · exact List.mem_append_right _ (List.mem_filter.mpr ⟨hmem, decide_eq_true (not_le.mp hp)⟩)

theorem State.tenants_nil {s : State} {d : Nat} (h : s.readyGangs d = []) (lv : Nat) : s.tenants d lv = [] := by
  simp [State.tenants, h]

theorem State.weight_pos (s : State) (d u : Nat) : 0 < s.weight d u := by
  unfold State.weight
  dsimp only
  split
  · exact Nat.one_pos
  · exact lt_of_lt_of_le Nat.one_pos (Nat.le_max_left ..)

theorem State.levelOf_mem (s : State) (g : Gang) : s.levelOf g ∈ [7, 6, 5, 4, 3, 2, 1, 0] := by
  have h : s.levelOf g ≤ 7 := by
    unfold State.levelOf
    split
    · exact le_rfl
    · exact (min_le_left ..).trans (by decide)
  simp only [List.mem_cons, List.not_mem_nil, or_false]
  omega

-- One ready gang.

section
variable {s : State} {die n c : Nat} {g : Gang} {es : List (Nat × Region)}

/-- The gang's place has been claimed, and what else has been done leaves it there. -/
def State.Placed (s : State) (g : Gang) (c : Nat) (es : List (Nat × Region)) (t : State) : Prop := Beside g.id.toNat (s.claim g c es) t

theorem State.tryTenant_one (hr : s.readyGangs die = [g]) (hw : s.wanted g = []) (hfit : s.fit g s.regions = some (c, es))
    (hid : ∀ e ∈ s.dies.gangs, e.2.id.toNat = e.1) (lv u k : Nat) :
    (¬(s.levelOf g = lv ∧ g.tenant = u) → State.tryTenant die lv u k s = (0, s)) ∧
    (s.levelOf g = lv ∧ g.tenant = u → 0 < k → s.Placed g c es (State.tryTenant die lv u k s).2) := by
  cases k with
  | zero => exact ⟨fun _ => rfl, fun _ h => absurd h (lt_irrefl 0)⟩
  | succ k =>
    rw [State.tryTenant_succ, hr]
    constructor
    · intro hne
      rw [List.filter_cons_of_neg (by simpa using hne)]
      rfl
    · intro heq _
      have hp : s.tryPlace g = some (s.claim g c es) := by
        rw [State.tryPlace, hw, List.nil_append, hfit]
        rfl
      rw [List.filter_cons_of_pos (by simpa using heq), List.filter_nil, List.findSome?_cons_of_isSome (by rw [hp]; rfl), hp]
      exact Beside.tryTenant (State.claim_loads hid rfl) ..

theorem State.tenantTurn_none {s : State} {d lv u : Nat} {last : Option Nat} (h : ∀ k, State.tryTenant d lv u k s = (0, s)) :
    State.tenantTurn d lv (last, s) u = (last, s) := by
  unfold State.tenantTurn
  rw [h] <;> rfl

/-- The one ready gang has its turn at its own level, and at no other. -/
theorem State.tryLevel_one (hr : s.readyGangs die = [g]) (hw : s.wanted g = []) (hfit : s.fit g s.regions = some (c, es))
    (hid : ∀ e ∈ s.dies.gangs, e.2.id.toNat = e.1) (lv : Nat) :
    (s.levelOf g ≠ lv → s.tryLevel die lv = (false, s)) ∧ (s.levelOf g = lv → s.Placed g c es (s.tryLevel die lv).2) := by
  have hone := State.tryTenant_one hr hw hfit hid lv
  have hturn : ∀ acc u, s.Placed g c es acc.2 → s.Placed g c es (State.tenantTurn die lv acc u).2 := fun acc u h => by
    rw [State.tenantTurn_state]
    exact h.trans (Beside.tryTenant (h.loads (State.claim_loads hid rfl)) ..)
  have hfirst : s.levelOf g = lv → s.Placed g c es (State.tenantTurn die lv (none, s) g.tenant).2 := fun hlv => by
    rw [State.tenantTurn_state]
    exact (hone g.tenant _).2 ⟨hlv, rfl⟩ (s.weight_pos die g.tenant)
  rw [State.tryLevel_eq]
  constructor
  · intro hne
    rw [foldl_keeps (fun acc : Option Nat × State => acc = (none, s)) _ (fun acc u h => ?_) (s.tenants die lv) rfl]
    · rfl
    · rw [h]
      exact State.tenantTurn_none fun k => (hone u k).1 fun h => hne h.1
  · intro hlv
    have hfold : s.Placed g c es ((s.tenants die lv).foldl (State.tenantTurn die lv) (none, s)).2 := by
      refine foldl_reaches (Q := fun acc : Option Nat × State => acc = (none, s) ∨ s.Placed g c es acc.2)
        (P := fun acc : Option Nat × State => s.Placed g c es acc.2) (fun acc u h => ?_) hturn
        (hlv ▸ State.mem_tenants (hr ▸ List.mem_cons_self)) (fun acc h => ?_) (.inl rfl)
      · rcases h with rfl | h
        · by_cases hu : g.tenant = u
          · exact .inr (hu ▸ hfirst hlv)
          · exact .inl (State.tenantTurn_none fun k => (hone u k).1 fun h => hu h.2)
        · exact .inr (hturn acc u h)
      · rcases h with rfl | h
        · exact hfirst hlv
        · exact hturn acc _ h
    exact hfold.trans (Beside.served ..)

end

-- The try.

/-- The try of a level, after those of the levels above it. -/
def State.levelTurn (die : Nat) (acc : Bool × State) (lv : Nat) : Bool × State := (acc.1 || (acc.2.tryLevel die lv).1, (acc.2.tryLevel die lv).2)

/-- The turns of all the levels. -/
def State.allLevels (die : Nat) (s : State) : Bool × State := [7, 6, 5, 4, 3, 2, 1, 0].foldl (State.levelTurn die) (false, s)

/-- What a try does about the gangs that it has left without a place (R373). -/
def State.leftOver (die : Nat) (s : State) : State :=
  let s := (s.markStuck die).dropKept die
  (s.readyGangs die).foldl (fun s g => s.preempt g.id.toNat) s

theorem dispatcherTry_eq (die : Nat) (s : State) : exec (.dispatcherTry die) s = .next (if !s.dies.due.contains die then s
    else
      let t := (State.allLevels die s).2.leftOver die
      { t with dies := { t.dies with due := (t.dies.due.filter fun d => d ≠ die) ++ if (State.allLevels die s).1 then [die] else [] } }) := rfl

theorem State.leftOver_idle {s : State} {die : Nat} (h : s.readyGangs die = []) : s.leftOver die = s := by
  have hmark : s.markStuck die = s := by rw [State.markStuck, h]; rfl
  have hdrop : s.dropKept die = s := by rw [State.dropKept, h]; rfl
  simp only [State.leftOver, hmark, hdrop, h, List.foldl_nil]

theorem State.allLevels_idle {s : State} {die : Nat} (h : s.readyGangs die = []) : State.allLevels die s = (false, s) := by
  refine foldl_keeps (fun acc : Bool × State => acc = (false, s)) _ (fun acc lv hacc => ?_) _ rfl
  have hlevel : s.tryLevel die lv = (false, s) := by rw [State.tryLevel_eq, State.tenants_nil h]; rfl
  rw [State.levelTurn, hacc, hlevel]
  rfl

section
variable {n : Nat} {s : State}

theorem Beside.tryLevel (hs : s.Loads n) (d lv : Nat) : Beside n s (s.tryLevel d lv).2 := by
  rw [State.tryLevel_eq]
  refine Beside.trans ?_ (Beside.served ..)
  refine foldl_keeps (fun acc : Option Nat × State => Beside n s acc.2) _ (fun acc u h => ?_) _ (.refl s)
  rw [State.tenantTurn_state]
  exact h.trans (Beside.tryTenant (h.loads hs) ..)

theorem Beside.leftOver (hs : s.Loads n) (d : Nat) : Beside n s (s.leftOver d) := by
  have hmark : Beside n s (s.markStuck d) := by
    have hl : ∀ g ∈ s.readyGangs d, g.id.toNat ≠ n := fun g hg => hs.ready_ne hg
    exact .foldl (fun t ht g hg => .updGang ht (fun _ => rfl) fun h => absurd h (hl g hg)) hs
  have hdrop : ∀ t : State, t.Loads n → Beside n t (t.dropKept d) := fun t ht => by
    have hl : ∀ g ∈ t.readyGangs d, g.id.toNat ≠ n := fun g hg => ht.ready_ne hg
    refine .foldl (fun u hu g hg => ?_) ht
    split
    · exact .refl u
    · exact .updGang hu (fun _ => rfl) fun h => absurd h (hl g hg)
  have h := hmark.trans (hdrop _ (hmark.loads hs))
  exact h.trans (.foldl (fun t ht g _ => .preempt ht g.id.toNat) (h.loads hs))

end

section
variable {s : State} {die n c : Nat} {g : Gang} {es : List (Nat × Region)}

theorem State.allLevels_one (hr : s.readyGangs die = [g]) (hw : s.wanted g = []) (hfit : s.fit g s.regions = some (c, es))
    (hid : ∀ e ∈ s.dies.gangs, e.2.id.toNat = e.1) : s.Placed g c es (State.allLevels die s).2 := by
  have hlevel := State.tryLevel_one hr hw hfit hid
  have hturn : ∀ acc lv, s.Placed g c es acc.2 → s.Placed g c es (State.levelTurn die acc lv).2 := fun acc lv h =>
    h.trans (Beside.tryLevel (h.loads (State.claim_loads hid rfl)) ..)
  refine foldl_reaches (Q := fun acc : Bool × State => acc = (false, s) ∨ s.Placed g c es acc.2)
    (P := fun acc : Bool × State => s.Placed g c es acc.2) (fun acc lv h => ?_) hturn (s.levelOf_mem g) (fun acc h => ?_) (.inl rfl)
  · rcases h with rfl | h
    · by_cases hlv : s.levelOf g = lv
      · exact .inr ((hlevel lv).2 hlv)
      · refine .inl ?_
        rw [State.levelTurn, (hlevel lv).1 hlv]
        rfl
    · exact .inr (hturn acc lv h)
  · rcases h with rfl | h
    · exact (hlevel _).2 rfl
    · exact hturn acc _ h

/-- What beside a claimed gang has been done leaves it loading in its place. -/
theorem State.Placed.spec {t : State} (h : s.Placed g c es t) (hg : s.gang g.id.toNat = some g) :
    (∃ x : Gang, t.gang g.id.toNat = some x ∧ x.st = .loading ∧ x.cog = c ∧ x.insts = g.insts.map (Inst.placed es)) ∧
      ∀ e ∈ es, (t.region e.1).isSome = true := by
  refine ⟨?_, fun e he => h.regions e.1 (State.claim_takes he)⟩
  have hclaim : (s.claim g c es).gang g.id.toNat = some (g.claimed es c (s.clk g.die)) := by
    rw [State.gang, State.claim_gangs]
    exact Tab.look_upd_same hg
  obtain ⟨x, hx, -, hkept⟩ := (Tab.look_of_forall₂ h.gangs g.id.toNat).2 _ hclaim
  obtain ⟨hst, hcog, hinsts⟩ := hkept rfl
  exact ⟨x, hx, hst, hcog, hinsts⟩

theorem dispatcherTry_spec (s : State) (die : Nat) : (die ∉ s.dies.due → exec (.dispatcherTry die) s = .next s) ∧
    (die ∈ s.dies.due → ∃ t : State, exec (.dispatcherTry die) s = .next t ∧
      (s.readyGangs die = [] → t = { s with dies := { s.dies with due := s.dies.due.filter fun d => d ≠ die } }) ∧
      (∀ (g : Gang) (n c : Nat) (es : List (Nat × Region)), s.readyGangs die = [g] → s.gang n = some g → g.id.toNat = n →
        (∀ e ∈ s.dies.gangs, e.2.id.toNat = e.1) → s.wanted g = [] → s.fit g s.regions = some (c, es) →
        (∃ x : Gang, t.gang n = some x ∧ x.st = .loading ∧ x.cog = c ∧ x.insts = g.insts.map (Inst.placed es)) ∧
          ∀ e ∈ es, (t.region e.1).isSome = true)) := by
  have hdue : (!s.dies.due.contains die) = true ↔ die ∉ s.dies.due := by simp
  rw [dispatcherTry_eq]
  refine ⟨fun h => by rw [if_pos (hdue.mpr h)], fun h => ⟨_, rfl, fun hr => ?_, fun g n c es hr hg hn hid hw hfit => ?_⟩⟩
  · rw [if_neg (mt hdue.mp (not_not_intro h)), State.allLevels_idle hr]
    dsimp only
    rw [State.leftOver_idle hr]
    simp
  · subst hn
    rw [if_neg (mt hdue.mp (not_not_intro h))]
    have hone := State.allLevels_one hr hw hfit hid
    have hleft := hone.trans (Beside.leftOver (hone.loads (State.claim_loads hid rfl)) die)
    exact State.Placed.spec (hleft.trans (.of_gangs rfl fun _ => id)) hg

end

end Sys2Proof.Machine
end

section
/-!
SUPPORT. The loader (R58, R174, R201, R298).
-/
namespace Sys2Proof.Machine
open Claims

theorem Looks.free {s t : State} (h : Looks s t) (n : Nat) : Looks s { t with free := n } :=
  h.trans (.of_eq rfl)

section
variable (s : State) (g : Gang) (lease inst : Nat)

theorem State.denyRec_flags (kind base : Nat) (e : Nat × Deny) : (s.denyRec g lease inst kind base e).flags = 0x20 := by
  unfold State.denyRec
  split <;> rfl

/-- A load has read, and the record of a fault that it finds is flagged as the loader's (R298). -/
def LoadsOrFaults {α : Type} (s : State) (x : Except Rec α × State) : Prop := Looks s x.2 ∧ ∀ rcd, x.1 = .error rcd → rcd.flags = 0x20

theorem LoadsOrFaults.error {α : Type} {s t : State} {rcd : Rec} (h : Looks s t) (hf : rcd.flags = 0x20) :
    LoadsOrFaults (α := α) s (.error rcd, t) :=
  ⟨h, fun _ he => Except.error.inj he ▸ hf⟩

theorem LoadsOrFaults.ok {α : Type} {s t : State} {x : α} (h : Looks s t) : LoadsOrFaults s (.ok x, t) := ⟨h, fun _ he => nomatch he⟩

theorem State.loadFrame_spec (r : Nat) (old : Region) : LoadsOrFaults s (s.loadFrame g r lease old) := by
  have h := Looks.readImage s { die := dieOf r, core := some (coreOf r), as_ := g.as_, va := (g.cogFrame old.cog).va, x := true } (g.cogFrame old.cog).va
  unfold State.loadFrame
  dsimp only
  generalize s.readImage { die := dieOf r, core := some (coreOf r), as_ := g.as_, va := (g.cogFrame old.cog).va, x := true } (g.cogFrame old.cog).va = x at h
  obtain ⟨e | bs, u⟩ := x
  · exact .error (h.free _) (State.denyRec_flags ..)
  · dsimp only at h ⊢
    split
    · exact .error h rfl
    · split
      · exact .error h rfl
      · exact .ok h

theorem State.loadWins_spec (r : Nat) : LoadsOrFaults s (s.loadWins g r lease inst) := by
  have h := Looks.vread s { die := dieOf r, core := some (coreOf r), as_ := g.as_, va := fieldAt g.rcd 0x28 8, r := true } (fieldAt g.rcd 0x28 8) 256
  unfold State.loadWins
  dsimp only
  split
  · exact .ok (.refl s)
  · generalize s.vread { die := dieOf r, core := some (coreOf r), as_ := g.as_, va := fieldAt g.rcd 0x28 8, r := true } (fieldAt g.rcd 0x28 8) 256 = x at h
    obtain ⟨e | ws, u⟩ := x
    · exact .error (h.free _) (State.denyRec_flags ..)
    · dsimp only at h ⊢
      split
      · exact .error h rfl
      · exact .ok h

end

-- What a loaded region holds.

theorem cellAt_filter {m : List Host.Cell} {p : Nat → Bool} {k : Nat} (h : p k = false) : cellAt (m.filter fun c => p c.1) k = 0#8 := by
  induction m with
  | nil => rfl
  | cons c m ih =>
    rw [List.filter_cons]
    split
    · next hc =>
      have hk : c.1 ≠ k := fun hk => by rw [hk, h] at hc; cases hc
      rw [cellAt, if_neg hk, ih]
    · exact ih

/-- A byte of a buffer, once the buffers have been zeroed (R174). -/
theorem State.zeroBufs_cell (s : State) {g : Region} {b off : Nat} (hb : b < g.bufs.length) (hoff : off < g.bufSize b) :
    cellAt (s.zeroBufs g).store.spad (g.spadKey b off) = 0#8 := by
  refine cellAt_filter (p := fun k => !g.bufs.any fun b => decide (131072 * g.tmap.lookD b.tile 0 + b.base ≤ k ∧ k < 131072 * g.tmap.lookD b.tile 0 + b.base + b.size))
    ?_
  have hsize : g.bufSize b = g.bufs[b].size := by rw [Region.bufSize, List.getElem?_eq_getElem hb]; rfl
  have hkey : g.spadKey b off = 131072 * g.tmap.lookD g.bufs[b].tile 0 + g.bufs[b].base + off := by
    rw [Region.spadKey, List.getD_eq_getElem?_getD, List.getElem?_eq_getElem hb]; rfl
  rw [Bool.not_eq_false', List.any_eq_true]
  exact ⟨g.bufs[b], List.getElem_mem hb, decide_eq_true (by rw [hkey]; omega)⟩

/-- The bytes that no data entry of the image reaches stay. -/
theorem State.copyDatas_cell (s : State) (g : Region) (f : Frame) (m : Array Byte) {k : Nat}
    (h : ∀ d ∈ f.datas, k < g.spadKey d.1 d.2.1 ∨ g.spadKey d.1 d.2.1 + d.2.2.1 ≤ k) :
    cellAt (s.copyDatas g f m).store.spad k = cellAt s.store.spad k := by
  refine List.foldlRecOn f.datas _ (motive := fun t : State => cellAt t.store.spad k = cellAt s.store.spad k) rfl fun t ht d hd => ?_
  have hlen : (imgBytes m d.2.2.2 d.2.2.1).length = d.2.2.1 := by rw [imgBytes, List.length_map, List.length_range]
  exact (cellAt_cellsPut_other t.store.spad _ _ (by rw [hlen]; exact h d hd)).trans ht

theorem State.copyDatas_rest (s : State) (g : Region) (f : Frame) (m : Array Byte) :
    s.copyDatas g f m = { s with store := (s.copyDatas g f m).store } :=
  foldl_keeps (fun t : State => t = { s with store := t.store }) (fun t (d : Nat × Nat × Nat × Nat) => t.spadPut (g.spadKey d.1 d.2.1) (imgBytes m d.2.2.2 d.2.2.1))
    (fun t d h => by rw [h]; rfl) f.datas rfl

/-- A region as the loader leaves it, its instance apart (R174). -/
def State.installed (s : State) (g : Gang) (r : Nat) (new : Region) (f : Frame) (m : Array Byte) : State :=
  let s := ({ s with regions := s.regions.put r new }.zeroBufs new).copyDatas new f m
  match s.fillFor g with
  | some x => s.spadPut (new.spadKey 0 0) (s.fillRecord x)
  | none => s

theorem State.installed_rest (s : State) (g : Gang) (r : Nat) (new : Region) (f : Frame) (m : Array Byte) :
    s.installed g r new f m = { s with regions := s.regions.put r new, store := (s.installed g r new f m).store } := by
  have h := State.copyDatas_rest ({ s with regions := s.regions.put r new }.zeroBufs new) new f m
  unfold State.installed
  dsimp only
  split
  · rw [h]; rfl
  · rw [h]; rfl

theorem State.installed_cell {s : State} {g : Gang} {r : Nat} {new : Region} {f : Frame} {m : Array Byte} {b off : Nat} (hfill : s.fillFor g = none)
    (hb : b < new.bufs.length) (hoff : off < new.bufSize b)
    (h : ∀ d ∈ f.datas, new.spadKey b off < new.spadKey d.1 d.2.1 ∨ new.spadKey d.1 d.2.1 + d.2.2.1 ≤ new.spadKey b off) :
    cellAt (s.installed g r new f m).store.spad (new.spadKey b off) = 0#8 := by
  have hfill' : (({ s with regions := s.regions.put r new }.zeroBufs new).copyDatas new f m).fillFor g = none := by
    rw [State.fillFor, State.copyDatas_rest]
    exact hfill
  unfold State.installed
  dsimp only
  rw [hfill']
  exact (State.copyDatas_cell _ new f m h).trans (State.zeroBufs_cell _ hb hoff)

-- The load.

/-- A loader's answer reaches an instance. -/
def Inst.loadedWith (f : Option Rec) (i : Inst) : Inst := { i with st := .loaded, fault := f }

/-- The lease of a region slot that is loaded, with its counters cleared (R174, R193). -/
def State.leased (s : State) (r : Nat) : State :=
  (s.newLease (coreOf r)).2.updRreg r fun q => { q with lease := (s.newLease (coreOf r)).1, drops := 0, disc := 0, fqcnt := 0 }

/-- What becomes of a load once its frame and its windows are known. -/
def State.loadEnd (g : Gang) (n i r lease : Nat) (old : Region) : Except Rec (Frame × Array Byte) × State → State
  | (.error rcd, s) => s.updInst n i (Inst.loadedWith (some rcd))
  | (.ok (f, m), s) => match s.loadWins g r lease i with
    | (.error rcd, s) => s.updInst n i (Inst.loadedWith (some rcd))
    | (.ok wins, s) => match s.reclaim g r old f with
      | none => s.replace g old.cog f
      | some new => (s.installed g r { new with lease, wins } f m).updInst n i fun i => { i with st := .loaded }

section
variable {s : State} {n i : Nat} {g : Gang} {x : Inst} {old : Region}

theorem exec_frameLoad (hg : s.gang n = some g) (hx : g.insts.find? (fun y => y.inst = i && y.st = .loading) = some x)
    (hsaved : ∀ v ∈ g.saved, v.inst ≠ i) (hold : s.region x.region = some old) :
    exec (.frameLoad n i) s = .next (if s.dieWaits (dieOf x.region) then s else
      State.loadEnd g n i x.region (s.newLease (coreOf x.region)).1 old
        ((s.leased x.region).loadFrame g x.region (s.newLease (coreOf x.region)).1 old)) := by
  have hfind : (g.insts.find? fun y => y.inst = i && y.st = .loading && g.saved.all fun v => v.inst ≠ i) = some x := by
    have hall : (g.saved.all fun v => v.inst ≠ i) = true := List.all_eq_true.mpr fun v hv => decide_eq_true (hsaved v hv)
    simp only [hall, Bool.and_true]
    exact hx
  refine (show exec (.frameLoad n i) s = execFrameLoad n i s from rfl).trans ?_
  unfold execFrameLoad
  rw [hg]
  dsimp only
  rw [hfind]
  dsimp only
  rw [hold] <;> rfl

end

end Sys2Proof.Machine
end

section
/-!
SUPPORT. What a load leaves (R174, R193, R298).
-/
namespace Sys2Proof.Machine
open Claims

/-- The instances of a gang once one of them has been loaded. -/
def Gang.instsLoaded (g : Gang) (i : Nat) (f : Inst → Option Rec) : List Inst :=
  g.insts.map fun j => if j.inst = i then { j with st := .loaded, fault := f j } else j

/-- Instance `i` of gang `n` has been loaded, with or without a fault. -/
def State.Loaded (s t : State) (n i : Nat) (f : Inst → Option Rec) : Prop :=
  ∀ g, s.gang n = some g → ∃ y : Gang, t.gang n = some y ∧ y.insts = g.instsLoaded i f

theorem State.Loaded.updInst {s t : State} (h : GangsWoken s t) (n i : Nat) {f : Inst → Option Rec} {k : Inst → Inst}
    (hk : ∀ j, k j = { j with st := .loaded, fault := f j }) : s.Loaded (t.updInst n i k) n i f := by
  intro g hg
  obtain ⟨b, hb⟩ := h.gang hg
  refine ⟨_, State.gang_updGang_same hb, ?_⟩
  simp only [mapIf, Gang.instsLoaded, hk, decide_eq_true_eq]

theorem State.loadEnd_error {s : State} (g : Gang) (n i r lease : Nat) (old : Region) (rcd : Rec) :
    State.loadEnd g n i r lease old (.error rcd, s) = s.updInst n i (Inst.loadedWith (some rcd)) := rfl

theorem State.loadEnd_wins_error {s w : State} {g : Gang} {n i r lease : Nat} {old : Region} {f : Frame} {m : Array Byte} {rcd : Rec}
    (h : s.loadWins g r lease i = (.error rcd, w)) :
    State.loadEnd g n i r lease old (.ok (f, m), s) = w.updInst n i (Inst.loadedWith (some rcd)) := by
  rw [State.loadEnd, h]

theorem State.loadEnd_installed {s w : State} {g : Gang} {n i r lease : Nat} {old new : Region} {f : Frame} {m : Array Byte} {wins : List Window}
    (h : s.loadWins g r lease i = (.ok wins, w)) (hnew : w.reclaim g r old f = some new) :
    State.loadEnd g n i r lease old (.ok (f, m), s) =
      (w.installed g r { new with lease, wins } f m).updInst n i fun i => { i with st := .loaded } := by
  rw [State.loadEnd, h]
  dsimp only
  rw [hnew]

section
variable {s u w : State} {g : Gang} {n i r lease : Nat} {old new : Region} {f : Frame} {m : Array Byte} {wins : List Window}

theorem State.rreg_leased (s : State) (r : Nat) : ((s.leased r).rreg r).lease = (s.newLease (coreOf r)).1 := by
  rw [State.leased, State.rreg_updRreg_same]

theorem GangsWoken.leased (s : State) (r : Nat) : GangsWoken s (s.leased r) := .of_eq rfl

theorem Looks.rregs {s t : State} (h : Looks s t) : t.rregs = s.rregs := by rw [h.rest]

/-- A region whose frame and windows hold stands loaded in its place, its buffers zero where no data entry reaches (R174). -/
theorem State.installed_spec (hnew : { new with lease, wins } = q) :
    let t := (w.installed g r q f m).updInst n i fun i => { i with st := .loaded }
    w.Loaded t n i (fun j => j.fault) ∧ t.region r = some q ∧ t.rregs = w.rregs ∧
      (w.fillFor g = none → ∀ b off : Nat, b < new.bufs.length → off < new.bufSize b →
        (∀ d ∈ f.datas, new.spadKey b off < new.spadKey d.1 d.2.1 ∨ new.spadKey d.1 d.2.1 + d.2.2.1 ≤ new.spadKey b off) →
        cellAt t.store.spad (new.spadKey b off) = 0#8) := by
  have hrest := State.installed_rest w g r q f m
  subst hnew
  refine ⟨.updInst (.of_eq (by rw [hrest])) n i fun _ => rfl, ?_, ?_, fun hfill b off hb hoff hd => State.installed_cell hfill hb hoff hd⟩
  · show (w.installed g r _ f m).regions.look r = _
    rw [hrest]
    exact Tab.look_put_same ..
  · show (w.installed g r _ f m).rregs = _
    rw [hrest]

end

theorem frameLoad_spec {s : State} {n i : Nat} {g : Gang} {x : Inst} {old : Region} (hg : s.gang n = some g)
    (hx : g.insts.find? (fun y => y.inst = i && y.st = .loading) = some x) (hsaved : ∀ v ∈ g.saved, v.inst ≠ i)
    (hold : s.region x.region = some old) :
    let r := x.region
    let lease := (s.newLease (coreOf r)).1
    let u := s.leased r
    (s.dieWaits (dieOf r) = true → exec (.frameLoad n i) s = .next s) ∧
      (s.dieWaits (dieOf r) = false → ∃ t : State, exec (.frameLoad n i) s = .next t ∧
        (∀ (rcd : Rec) (u' : State), u.loadFrame g r lease old = (.error rcd, u') → s.Loaded t n i (fun _ => some rcd) ∧ rcd.flags = 0x20) ∧
        (∀ (f : Frame) (m : Array Byte) (u' : State) (rcd : Rec) (w : State), u.loadFrame g r lease old = (.ok (f, m), u') →
          u'.loadWins g r lease i = (.error rcd, w) → s.Loaded t n i (fun _ => some rcd) ∧ rcd.flags = 0x20) ∧
        (∀ (f : Frame) (m : Array Byte) (u' : State) (wins : List Window) (w : State) (h : Region), u.loadFrame g r lease old = (.ok (f, m), u') →
          u'.loadWins g r lease i = (.ok wins, w) → w.reclaim g r old f = some h →
          s.Loaded t n i (fun j => j.fault) ∧ t.region r = some { h with lease, wins } ∧ (t.rreg r).lease = lease ∧
          (w.fillFor g = none → ∀ b off : Nat, b < h.bufs.length → off < h.bufSize b →
            (∀ d ∈ f.datas, h.spadKey b off < h.spadKey d.1 d.2.1 ∨ h.spadKey d.1 d.2.1 + d.2.2.1 ≤ h.spadKey b off) →
            cellAt t.store.spad (h.spadKey b off) = 0#8))) := by
  intro r lease u
  have hexec := exec_frameLoad hg hx hsaved hold
  have hframe := State.loadFrame_spec u g lease r old
  have hwoken := (GangsWoken.leased s r).trans hframe.1.gangs
  refine ⟨fun h => by rw [hexec, if_pos h], fun h => ⟨_, by rw [hexec, if_neg (by rw [h]; decide)], fun rcd u' hf => ?_, fun f m u' rcd w hf hw => ?_,
    fun f m u' wins w new hf hw hnew => ?_⟩⟩
  · rw [show (s.leased x.region).loadFrame g x.region (s.newLease (coreOf x.region)).1 old = _ from hf, State.loadEnd_error]
    rw [hf] at hframe hwoken
    exact ⟨.updInst hwoken n i fun _ => rfl, hframe.2 rcd rfl⟩
  · rw [show (s.leased x.region).loadFrame g x.region (s.newLease (coreOf x.region)).1 old = _ from hf, State.loadEnd_wins_error hw]
    rw [hf] at hwoken
    have hwins := State.loadWins_spec u' g lease i r
    rw [hw] at hwins
    exact ⟨.updInst (hwoken.trans hwins.1.gangs) n i fun _ => rfl, hwins.2 rcd rfl⟩
  · rw [show (s.leased x.region).loadFrame g x.region (s.newLease (coreOf x.region)).1 old = _ from hf, State.loadEnd_installed hw hnew]
    rw [hf] at hframe hwoken
    have hwins := State.loadWins_spec u' g lease i r
    rw [hw] at hwins
    have hw' : GangsWoken s w := hwoken.trans hwins.1.gangs
    obtain ⟨hloaded, hregion, hrregs, hcell⟩ := State.installed_spec (w := w) (g := g) (n := n) (i := i) (r := r) (f := f) (m := m) (lease := lease) (new := new) (wins := wins) rfl
    refine ⟨fun y hy => ?_, hregion, ?_, hcell⟩
    · obtain ⟨b, hb⟩ := hw'.gang hy
      have hy' := hloaded _ hb
      exact hy'
    · rw [State.rreg, hrregs, hwins.1.rregs, hframe.1.rregs]
      exact State.rreg_leased s r

end Sys2Proof.Machine
end

section
/-!
SUPPORT. A gang is enabled (R174, R373, R388).
-/
namespace Sys2Proof.Machine
open Claims

-- A region starts.

theorem Region.Viewed.stance {x y : Region} (h : x.Viewed y) : y.stance = x.stance := by
  rw [h.1]; rfl

theorem Views.stands {s t : State} (h : Views s t) : Stands s t := by
  refine ⟨?_, by rw [h.rest], by rw [h.rest]⟩
  have key := h.regions
  unfold State.stances
  generalize s.regions = a, t.regions = b at key
  induction key with
  | nil => rfl
  | cons hef _ ih =>
    obtain ⟨hk, hv⟩ := hef
    rw [List.map_cons, List.map_cons, ih, hk, hv.stance]

theorem Stands.openRound (s : State) (r : Nat) : Stands s (s.openRound r) := by
  rw [State.openRound_eq]
  exact (Stands.updRegion s r (f := fun g => g.opened _) fun _ => rfl).trans (Views.viewRings _).stands

theorem Stands.resetPtrs (s : State) (r : Nat) (g : Region) : Stands s (s.resetPtrs r g) := by
  unfold State.resetPtrs
  dsimp only
  rw [State.foldl_updElem]
  exact .of_eq rfl rfl rfl

/-- A region starts: it runs from now on, its register says so, and its gang lists its cluster. -/
structure Enables (s t : State) (r : Nat) : Prop where
  stances : t.stances = s.stances.upd r fun x => { x with on := true }
  rregs : t.rregs = s.rregs.alter r {} fun q => { q with state := 2 }
  gang : ∀ n g, s.gang n = some g → ∃ cl, t.gang n = some { g with clusters := cl }

theorem Enables.of_stands {s t u : State} {r : Nat} (h : Enables s t r) (k : Stands t u) : Enables s u r :=
  ⟨k.stances.trans h.stances, k.rregs.trans h.rregs, fun n g hg => by rw [State.gang, k.gangs]; exact h.gang n g hg⟩

theorem Enables.updGang {s t : State} {r : Nat} (h : Enables s t r) (m : Nat) (f : Gang → List Nat) :
    Enables s (t.updGang m fun x => { x with clusters := f x }) r := by
  refine ⟨h.stances, h.rregs, fun n g hg => ?_⟩
  obtain ⟨cl, hcl⟩ := h.gang n g hg
  have hlook : (t.updGang m fun x => { x with clusters := f x }).gang n = if n = m then (t.gang n).map (fun x => { x with clusters := f x }) else t.gang n :=
    Tab.look_upd t.dies.gangs n m fun x => { x with clusters := f x }
  rw [hlook, hcl]
  split
  · exact ⟨_, rfl⟩
  · exact ⟨cl, rfl⟩

/-- A region that starts, before what its round set needs. -/
def State.turnedOn (s : State) (r : Nat) : State :=
  (s.updRegion r fun g => { g with on := true, stepGo := g.roundSet.isEmpty && (s.rreg r).rdbg.getLsbD 1 }).updRreg r fun q => { q with state := 2 }

theorem Enables.turnedOn (s : State) (r : Nat) : Enables s (s.turnedOn r) r := by
  refine ⟨?_, rfl, fun n g hg => ⟨g.clusters, hg⟩⟩
  simp only [State.stances, State.turnedOn, State.updRreg_regions, State.updRegion, Tab.upd, List.map_map]
  refine List.map_congr_left fun e _ => ?_
  simp only [Function.comp]
  split <;> rfl

theorem Enables.enableRegion (s : State) (r : Nat) : Enables s (s.enableRegion r) r := by
  have h := Enables.turnedOn s r
  unfold State.enableRegion
  dsimp only
  change Enables s (match (s.turnedOn r).region r with | none => s.turnedOn r | some g => _) r
  cases (s.turnedOn r).region r with
  | none => exact h
  | some g =>
    have hck : Stands (s.turnedOn r) (if g.roundSet.isEmpty then s.turnedOn r
        else (s.turnedOn r).updRegion r fun q => { q with round := { q.round with shadow := some ((s.turnedOn r).checkpoint r q) } }) := by
      split
      · exact .refl _
      · exact .updRegion _ r fun _ => rfl
    have hv := (((h.of_stands hck).of_stands (.resetPtrs _ r g)).updGang g.gang fun x => (clusterOf r :: x.clusters).dedup).of_stands
      (Views.viewRings _).stands
    refine Enables.of_stands ?_ (.of_eq (s := ite (g.mayOpen = true) _ _) rfl rfl rfl)
    split
    · exact hv.of_stands (.openRound _ r)
    · exact hv

section
variable {s t : State} {r : Nat}

theorem Enables.region (h : Enables s t r) {q : Nat} {g : Region} (hq : s.region q = some g) :
    ∃ k, t.region q = some k ∧ k.stance = if q = r then { g.stance with on := true } else g.stance := by
  have hlook := t.region_stance q
  rw [h.stances, Tab.look_upd, ← s.region_stance, hq] at hlook
  split at hlook <;> next hqr =>
    obtain ⟨k, hk, hst⟩ := Option.map_eq_some_iff.mp hlook
    exact ⟨k, hk, by simp [hqr, hst]⟩

theorem Enables.state_same (h : Enables s t r) : (t.rreg r).state = 2 := by
  rw [State.rreg, h.rregs, Tab.lookD_alter_same]

theorem Enables.state_other (h : Enables s t r) {q : Nat} (hq : q ≠ r) : t.rreg q = s.rreg q := by
  rw [State.rreg, h.rregs, Tab.lookD_alter_other _ hq]
  rfl

end

/-- The regions of some instances start, one after another. -/
def State.enableAll (s : State) (l : List Inst) : State := l.foldl (fun s i => s.enableRegion i.region) s

theorem State.enableAll_gang (s : State) (l : List Inst) {n : Nat} {g : Gang} (hg : s.gang n = some g) :
    ∃ cl, (s.enableAll l).gang n = some { g with clusters := cl } := by
  refine foldl_keeps (fun t : State => ∃ cl, t.gang n = some { g with clusters := cl }) _ (fun t i ⟨cl, h⟩ => ?_) l ⟨g.clusters, hg⟩
  obtain ⟨cl', h'⟩ := (Enables.enableRegion t i.region).gang n _ h
  exact ⟨cl', h'⟩

/-- A region is, but for its start, as a stance says. -/
def State.Starting (s : State) (r : Nat) (x : Stance) : Prop := ∃ k, s.region r = some k ∧ { k.stance with on := true } = x

/-- A region has started, its register says so, and it is as a stance says. -/
def State.Started (s : State) (r : Nat) (x : Stance) : Prop := ∃ k, s.region r = some k ∧ k.stance = x ∧ (s.rreg r).state = 2

section
variable {s : State} {r : Nat} {x : Stance}

theorem State.Starting.enableRegion (h : s.Starting r x) (q : Nat) : (s.enableRegion q).Starting r x := by
  obtain ⟨k, hk, hst⟩ := h
  obtain ⟨k', hk', hst'⟩ := (Enables.enableRegion s q).region hk
  refine ⟨k', hk', ?_⟩
  rw [hst', ← hst]
  split <;> rfl

theorem State.Starting.started (h : s.Starting r x) : (s.enableRegion r).Started r x := by
  obtain ⟨k, hk, hst⟩ := h
  obtain ⟨k', hk', hst'⟩ := (Enables.enableRegion s r).region hk
  exact ⟨k', hk', hst'.trans ((if_pos rfl).trans hst), (Enables.enableRegion s r).state_same⟩

theorem State.Started.enableRegion (h : s.Started r x) (hx : x.on = true) (q : Nat) : (s.enableRegion q).Started r x := by
  obtain ⟨k, hk, hst, hstate⟩ := h
  by_cases hq : r = q
  · subst hq
    have hon : { x with on := true } = x := by rw [← hx]
    exact State.Starting.started ⟨k, hk, (congrArg (fun y : Stance => { y with on := true }) hst).trans hon⟩
  · have hen := Enables.enableRegion s q
    obtain ⟨k', hk', hst'⟩ := hen.region hk
    exact ⟨k', hk', hst'.trans ((if_neg hq).trans hst), by rw [hen.state_other hq]; exact hstate⟩

/-- A region of one of the instances runs, and is otherwise as it was. -/
theorem State.enableAll_region {l : List Inst} {i : Inst} (hi : i ∈ l) {g : Region} (hg : s.region i.region = some g) :
    (s.enableAll l).Started i.region { g.stance with on := true } :=
  foldl_reaches (Q := fun t : State => t.Starting i.region { g.stance with on := true })
    (P := fun t : State => t.Started i.region { g.stance with on := true }) (fun _ _ h => h.enableRegion _) (fun _ _ h => h.enableRegion rfl _) hi
    (fun _ h => h.started) ⟨g, hg, rfl⟩

end

-- Places claimed meanwhile.

/-- The regions of some instances are braked, one after another. -/
def State.brakeEach (s : State) (l : List Inst) : State := l.foldl (fun s i => s.brakeRegion i.region .dispatcher) s

theorem State.brakeEach_gangs (s : State) (l : List Inst) : (s.brakeEach l).dies.gangs = s.dies.gangs :=
  foldl_keeps (fun t : State => t.dies.gangs = s.dies.gangs) _ (fun _ _ h => (State.braking ..).gangs.trans h) l rfl

theorem State.brakeEach_on {s : State} (l : List Inst) {r : Nat} {g : Region} (hg : s.region r = some g) (hon : g.on = true) :
    ∃ k, (s.brakeEach l).region r = some k ∧ k.on = true := by
  refine foldl_keeps (fun t : State => ∃ k, t.region r = some k ∧ k.on = true) _ (fun t i ⟨k, hk, h⟩ => ?_) l ⟨g, hg, hon⟩
  obtain ⟨k', hk', hst, -⟩ := (State.braking i.region .dispatcher).present r k hk
  exact ⟨k', hk', (congrArg Stance.on hst).trans h⟩

theorem State.brakeEach_other {s : State} {l : List Inst} {r : Nat} (h : ∀ i ∈ l, i.region ≠ r) : (s.brakeEach l).rreg r = s.rreg r :=
  List.foldlRecOn l _ (motive := fun t : State => t.rreg r = s.rreg r) rfl fun _ ht i hi => ((State.braking ..).rreg r (h i hi).symm).trans ht

/-- A region is braked, and its register says so. -/
def State.Braked (s : State) (r : Nat) : Prop := ∃ k, s.region r = some k ∧ k.on = true ∧ k.brake.isSome = true ∧ (s.rreg r).state = 3

theorem State.Braked.brakeRegion {s : State} {r : Nat} (h : s.Braked r) (q : Nat) (agent : BrakeBy) : (s.brakeRegion q agent).Braked r := by
  obtain ⟨k, hk, hon, hb, hst⟩ := h
  have hbr := State.braking (s := s) q agent
  by_cases hq : r = q
  · subst hq
    rw [hbr.idle k hk hb]
    exact ⟨k, hk, hon, hb, hst⟩
  · obtain ⟨k', hk', hstance, hb', -⟩ := hbr.present r k hk
    exact ⟨k', hk', (congrArg Stance.on hstance).trans hon, hb' hb, by rw [hbr.rreg r hq]; exact hst⟩

theorem State.brakeEach_brakes {s : State} {l : List Inst} {i : Inst} (hi : i ∈ l) {g : Region} (hg : s.region i.region = some g) (hon : g.on = true)
    (hdead : g.dead = false) (hbrake : g.brake = none) : (s.brakeEach l).Braked i.region := by
  have hready : ∀ (t : State) (k : Region), t.region i.region = some k → k.on = true → k.dead = false → k.brake = none →
      (t.brakeRegion i.region .dispatcher).Braked i.region := fun t k hk h1 h2 h3 => by
    have hbr := State.braking (s := t) i.region .dispatcher
    obtain ⟨k', hk', hstance, -, -, hb⟩ := hbr.present i.region k hk
    exact ⟨k', hk', (congrArg Stance.on hstance).trans h1, hb rfl h1 h2, hbr.state k hk h1 h2 h3⟩
  refine foldl_reaches
    (Q := fun t : State => (∃ k, t.region i.region = some k ∧ k.on = true ∧ k.dead = false ∧ k.brake = none) ∨ t.Braked i.region)
    (P := fun t : State => t.Braked i.region) (fun t j h => ?_) (fun t j h => h.brakeRegion ..) hi (fun t h => ?_) (.inl ⟨g, hg, hon, hdead, hbrake⟩)
  · rcases h with ⟨k, hk, h1, h2, h3⟩ | h
    · by_cases hij : i.region = j.region
      · exact .inr (hij ▸ hready t k hk h1 h2 h3)
      · obtain ⟨k', hk', hstance, -, hb, -⟩ := (State.braking j.region .dispatcher).present i.region k hk
        exact .inl ⟨k', hk', (congrArg Stance.on hstance).trans h1, (congrArg Stance.dead hstance).trans h2, (hb hij).trans h3⟩
    · exact .inr (h.brakeRegion ..)
  · rcases h with ⟨k, hk, h1, h2, h3⟩ | h
    · exact hready t k hk h1 h2 h3
    · exact h.brakeRegion ..

end Sys2Proof.Machine
end

section
/-!
SUPPORT. The end of a gang's load: it runs, or its launch fails (R174, R298, R302, R373).
-/
namespace Sys2Proof.Machine
open Claims

/-- The instances of a gang that have been loaded. -/
def Gang.loadedInsts (g : Gang) : List Inst := g.insts.filter fun i => i.st = .loaded

/-- The lowest instance that has been loaded with a fault, and its record. -/
def Gang.firstFault (g : Gang) : Option (Inst × Rec) :=
  (g.loadedInsts.mergeSort fun a b => decide (a.inst ≤ b.inst)).findSome? fun i => i.fault.map fun f => (i, f)

/-- A gang whose instances have been loaded runs. -/
def Gang.enabled (g : Gang) (ls : List Inst) : Gang :=
  { g with
    st := .running
    saved := g.saved.filter fun v => ls.all fun i => i.inst ≠ v.inst
    insts := g.insts.map fun i => if i.st = .loaded then { i with st := .running } else i }

/-- Every loaded instance of a gang starts, and those whose places have been claimed meanwhile are braked (R373). -/
def State.start (s : State) (n : Nat) (ls : List Inst) : State :=
  let s := (s.enableAll ls).updGang n fun g => g.enabled ls
  s.brakeEach (ls.filter fun i => (s.region i.region).any fun x => x.claimant.isSome)

section
variable {s : State} {n : Nat} {g : Gang}

theorem Gang.mem_loadedInsts {i : Inst} : i ∈ g.loadedInsts ↔ i ∈ g.insts ∧ i.st = .loaded := by
  rw [Gang.loadedInsts, List.mem_filter, decide_eq_true_eq]

theorem exec_gangEnable (hg : s.gang n = some g) (hloaded : ∃ i ∈ g.insts, i.st = .loaded) (hloading : ∀ i ∈ g.insts, i.st ≠ .loading) :
    exec (.gangEnable n) s = .next (g.firstFault.elim (s.start n g.loadedInsts) fun p => s.launchFails g p.1 p.2) := by
  have hgo : (g.loadedInsts.isEmpty || g.insts.any fun i => i.st = .loading) = false := by
    obtain ⟨i, hi, hst⟩ := hloaded
    rw [Bool.or_eq_false_iff, List.isEmpty_eq_false_iff]
    refine ⟨List.ne_nil_of_mem (Gang.mem_loadedInsts.mpr ⟨hi, hst⟩), ?_⟩
    rw [List.any_eq_false]
    exact fun j hj => by simpa using hloading j hj
  refine (show exec (.gangEnable n) s = execGangEnable n s from rfl).trans ?_
  unfold execGangEnable
  rw [hg]
  dsimp only
  rw [show (g.insts.filter fun i => i.st = .loaded) = g.loadedInsts from rfl, hgo]
  rw [show ((g.loadedInsts.mergeSort fun a b => decide (a.inst ≤ b.inst)).findSome? fun i => i.fault.map fun f => (i, f)) = g.firstFault from rfl]
  cases g.firstFault <;> rfl

theorem Gang.firstFault_none (h : ∀ i ∈ g.insts, i.st = .loaded → i.fault = none) : g.firstFault = none := by
  rw [Gang.firstFault, List.findSome?_eq_none_iff]
  intro i hi
  obtain ⟨hmem, hst⟩ := Gang.mem_loadedInsts.mp (List.mem_mergeSort.mp hi)
  rw [h i hmem hst]
  rfl

/-- The first fault is that of the lowest instance, if it has one. -/
theorem Gang.firstFault_lowest {i : Inst} {rcd : Rec} (hi : i ∈ g.insts) (hst : i.st = .loaded) (hf : i.fault = some rcd)
    (hlow : ∀ j ∈ g.insts, j.st = .loaded → j = i ∨ i.inst < j.inst) : g.firstFault = some (i, rcd) := by
  have hmem : i ∈ g.loadedInsts.mergeSort fun a b => decide (a.inst ≤ b.inst) := List.mem_mergeSort.mpr (Gang.mem_loadedInsts.mpr ⟨hi, hst⟩)
  have hsorted : (g.loadedInsts.mergeSort fun a b => decide (a.inst ≤ b.inst)).Pairwise fun a b => decide (a.inst ≤ b.inst) = true :=
    List.pairwise_mergeSort (fun a b c => by simp only [decide_eq_true_eq]; omega) (fun a b => by simp only [Bool.or_eq_true, decide_eq_true_eq]; omega) _
  have hof : ∀ j ∈ g.loadedInsts.mergeSort fun a b => decide (a.inst ≤ b.inst), j = i ∨ i.inst < j.inst := fun j hj => by
    obtain ⟨hj1, hj2⟩ := Gang.mem_loadedInsts.mp (List.mem_mergeSort.mp hj)
    exact hlow j hj1 hj2
  unfold Gang.firstFault
  generalize (g.loadedInsts.mergeSort fun a b => decide (a.inst ≤ b.inst)) = l at hmem hsorted hof
  cases l with
  | nil => exact absurd hmem List.not_mem_nil
  | cons j l =>
    have hj : j = i := by
      rcases hof j List.mem_cons_self with h | h
      · exact h
      · rcases List.mem_cons.mp hmem with h' | h'
        · exact h'.symm
        · have := List.rel_of_pairwise_cons hsorted h'
          rw [decide_eq_true_eq] at this
          omega
    rw [List.findSome?_cons_of_isSome (by rw [hj, hf]; rfl), hj, hf]
    rfl

-- The gang runs.

theorem State.start_gang {ls : List Inst} (hg : s.gang n = some g) :
    ∃ x : Gang, (s.start n ls).gang n = some x ∧ x.st = .running ∧ x.insts = (g.enabled ls).insts := by
  obtain ⟨cl, hcl⟩ := s.enableAll_gang ls hg
  refine ⟨Gang.enabled { g with clusters := cl } ls, ?_, rfl, rfl⟩
  rw [State.start, State.gang, State.brakeEach_gangs]
  exact State.gang_updGang_same hcl

theorem State.start_region {ls : List Inst} {i : Inst} (hi : i ∈ ls) {k : Region} (hk : s.region i.region = some k) :
    ∃ h : Region, (s.start n ls).region i.region = some h ∧ h.on = true ∧
      (k.claimant = none → ((s.start n ls).rreg i.region).state = 2) ∧
      (k.claimant.isSome = true → k.dead = false → k.brake = none → ((s.start n ls).rreg i.region).state = 3 ∧ h.brake.isSome = true) := by
  obtain ⟨x, hx, hst, hstate⟩ := State.enableAll_region hi hk
  set u : State := (s.enableAll ls).updGang n fun g => g.enabled ls
  have hu : u.region i.region = some x := hx
  have hstart : s.start n ls = u.brakeEach (ls.filter fun i => (u.region i.region).any fun x => x.claimant.isSome) := rfl
  have hon : x.on = true := congrArg Stance.on hst
  have hclaim : x.claimant = k.claimant := congrArg Stance.claimant hst
  rw [hstart]
  obtain ⟨h, hh, hhon⟩ := u.brakeEach_on (ls.filter fun i => (u.region i.region).any fun x => x.claimant.isSome) hu hon
  refine ⟨h, hh, hhon, fun hnone => ?_, fun hsome hdead hbrake => ?_⟩
  · rw [State.brakeEach_other fun j hj hr => ?_]
    · exact hstate
    · have := (List.mem_filter.mp hj).2
      rw [hr, hu, Option.any_some, hclaim, hnone] at this
      cases this
  · have hmem : i ∈ ls.filter fun i => (u.region i.region).any fun x => x.claimant.isSome := by
      rw [List.mem_filter, hu, Option.any_some, hclaim]
      exact ⟨hi, hsome⟩
    obtain ⟨h', hh', -, hb, hs⟩ := State.brakeEach_brakes hmem hu hon ((congrArg Stance.dead hst).trans hdead) ((congrArg Stance.brake hst).trans hbrake)
    obtain rfl : h' = h := Option.some.inj (hh'.symm.trans hh)
    exact ⟨hs, hb⟩

end

-- The launch fails.

/-- Regions leave their slots: elements, registers and the dispatchers' turns change besides. -/
structure Releases (s t : State) : Prop where
  rest : t = { s with fab := { s.fab with elems := t.fab.elems, credRets := t.fab.credRets }, regions := t.regions, rregs := t.rregs,
                      dies := { s.dies with due := t.dies.due } }
  gone : ∀ r, s.region r = none → t.region r = none

theorem Releases.refl (s : State) : Releases s s := ⟨rfl, fun _ => id⟩

theorem Releases.trans {s t u : State} (h : Releases s t) (k : Releases t u) : Releases s u := by
  refine ⟨?_, fun r hr => k.gone r (h.gone r hr)⟩
  have := k.rest
  rw [h.rest] at this
  exact this

/-- A region without its views of the rings that a region has held. -/
def Region.unseen (r : Nat) (g : Region) : Region := { g with rings := g.rings.map fun q => { q with views := q.views.drop r } }

theorem State.releaseRegion_regions {s : State} {r : Nat} {g : Region} (hg : s.region r = some g) (code : Nat) :
    (s.releaseRegion r code).regions = (Tab.drop s.regions r).map fun e => (e.1, e.2.unseen r) := by
  rw [State.releaseRegion, hg]
  rfl

/-- Of a release a region is left only if it was there, and is not the one that is released. -/
theorem State.releaseRegion_region (s : State) (r code q : Nat) (h : ((s.releaseRegion r code).region q).isSome = true) :
    q ≠ r ∧ (s.region q).isSome = true := by
  cases hr : s.region r with
  | none =>
    rw [State.releaseRegion, hr] at h
    exact ⟨fun hq => absurd h (by rw [hq, hr]; simp), h⟩
  | some g =>
    rw [State.region, State.releaseRegion_regions hr, Tab.look_map_snd, Option.isSome_map] at h
    by_cases hq : q = r
    · rw [hq, Tab.look_drop_same] at h
      cases h
    · rw [Tab.drop, Tab.look_filter _ (· != r), if_pos (bne_iff_ne.mpr hq)] at h
      exact ⟨hq, h⟩

theorem Releases.releaseRegion (s : State) (r code : Nat) : Releases s (s.releaseRegion r code) := by
  refine ⟨?_, fun q hq => ?_⟩
  · unfold State.releaseRegion
    split <;> rfl
  · rw [← Option.not_isSome_iff_eq_none] at hq ⊢
    exact fun h => hq (s.releaseRegion_region r code q h).2

theorem Releases.unclaim (s : State) (g : Gang) (code : Nat) : Releases s (s.unclaim g code) :=
  foldl_keeps (Releases s) _ (fun _ _ h => h.trans (.releaseRegion ..)) _ (.refl s)

theorem State.unclaim_gone (s : State) {g : Gang} (code : Nat) {j : Inst} (hj : j ∈ g.insts) (hst : j.st = .loaded) :
    (s.unclaim g code).region j.region = none := by
  refine foldl_reaches (Q := fun _ => True) (P := fun t : State => t.region j.region = none) (fun _ _ h => h)
    (fun t i h => (Releases.releaseRegion t ..).gone _ h) (List.mem_filter.mpr ⟨hj, by rw [hst]; rfl⟩) (fun t _ => ?_) trivial
  rw [← Option.not_isSome_iff_eq_none]
  exact fun h => (t.releaseRegion_region j.region code _ h).1 rfl

theorem GangsWoken.cancelFill (s : State) (key cause cls : Nat) (code : Word) : GangsWoken s (s.cancelFill key cause cls code) := by
  unfold State.cancelFill
  split
  · exact .of_eq rfl
  · refine GangsWoken.trans (t := State.setBlock _ _ _ _) ?_ (.of_eq rfl)
    exact GangsWoken.trans (.of_eq rfl) (.mapPut ..)

/-- A failed launch, before a fill that its gang had to make is cancelled (R298, R302). -/
def State.launchEnds (s : State) (g : Gang) (i : Inst) (rcd : Rec) : State :=
  (((s.giveRec { region := i.region, el := 65536, k := 0 } (coreOf i.region) g.fring [] rcd).unclaim g 5).updGang g.id.toNat fun g =>
    { g with st := .ended, insts := g.insts.map fun i => { i with st := .failed } }).abortLaunch g

section
variable {s : State} {n : Nat} {g : Gang} {i : Inst} {rcd : Rec}

theorem State.launchFails_eq (hst : g.st = .loading) (hsaved : g.saved = []) :
    s.launchFails g i rcd = ((s.launchEnds g i rcd).fillOfGang g.id.toNat).elim (s.launchEnds g i rcd) fun f =>
      (s.launchEnds g i rcd).cancelFill (fillKey f) 0xF5 8 0#32 := by
  unfold State.launchFails
  simp only [hst, hsaved, ne_eq, not_true_eq_false, decide_false, Bool.false_and, Bool.false_eq_true, if_false, List.isEmpty_nil, if_true]
  change (match (s.launchEnds g i rcd).fillOfGang g.id.toNat with | some f => _ | none => _) = _
  cases (s.launchEnds g i rcd).fillOfGang g.id.toNat <;> rfl

theorem State.abortLaunch_cores (s : State) (g : Gang) : s.abortLaunch g = { s with cores := (s.abortLaunch g).cores } := by
  unfold State.abortLaunch
  split
  · exact State.abortSignal_cores ..
  · rfl

theorem State.abortLaunch_aborts (s : State) {p : Packet} (hp : g.from_ = some p) : Aborts s (s.abortLaunch g) (coreOf p.org.ctx.region) p.cmd := by
  rw [State.abortLaunch, hp]
  exact State.abortSignal_aborts ..

/-- What a failed launch leaves. -/
theorem State.launchEnds_spec (hg : s.gang n = some g) (hid : g.id.toNat = n) :
    (∃ q, (s.launchEnds g i rcd).fab.recs = s.fab.recs ++ [q] ∧ q.rcd = rcd) ∧
    (∀ j ∈ g.insts, j.st = .loaded → (s.launchEnds g i rcd).region j.region = none) ∧
    ((s.launchEnds g i rcd).gang n = some { g with st := .ended, insts := g.insts.map fun i => { i with st := .failed } }) ∧
    ∀ p, g.from_ = some p → Aborts s (s.launchEnds g i rcd) (coreOf p.org.ctx.region) p.cmd := by
  have hrel := Releases.unclaim (s.giveRec { region := i.region, el := 65536, k := 0 } (coreOf i.region) g.fring [] rcd) g 5
  have hgone := fun j hj hst => State.unclaim_gone (s.giveRec { region := i.region, el := 65536, k := 0 } (coreOf i.region) g.fring [] rcd) (g := g) 5 (j := j) hj hst
  unfold State.launchEnds
  generalize (s.giveRec { region := i.region, el := 65536, k := 0 } (coreOf i.region) g.fring [] rcd).unclaim g 5 = u at hrel hgone
  have hu : u.gang n = some g := by
    rw [State.gang, hrel.rest]
    exact hg
  have hab := fun p (hp : g.from_ = some p) => State.abortLaunch_aborts (u.updGang g.id.toNat fun g =>
    { g with st := .ended, insts := g.insts.map fun i => { i with st := .failed } }) (g := g) hp
  subst hid
  refine ⟨⟨{ id := s.uid, ctx := { region := i.region, el := 65536, k := 0 }, core := coreOf i.region, ring := g.fring, frozen := [], rcd }, ?_, rfl⟩,
    fun j hj hst => ?_, ?_, fun p hp => ?_⟩
  · rw [State.abortLaunch_cores]
    show u.fab.recs = _
    rw [hrel.rest]
    rfl
  · rw [State.abortLaunch_cores]
    exact hgone j hj hst
  · rw [State.abortLaunch_cores]
    exact State.gang_updGang_same hu
  · exact aborts_of_before (hab p hp) (show u.cores = s.cores by rw [hrel.rest]; rfl)

end

theorem gangEnable_spec {s : State} {n : Nat} {g : Gang} (hg : s.gang n = some g) (hloaded : ∃ i ∈ g.insts, i.st = .loaded)
    (hloading : ∀ i ∈ g.insts, i.st ≠ .loading) :
    ∃ t : State, exec (.gangEnable n) s = .next t ∧
      ((∀ i ∈ g.insts, i.st = .loaded → i.fault = none ∧ (s.region i.region).isSome = true) →
        (∃ x : Gang, t.gang n = some x ∧ x.st = .running ∧
          x.insts = g.insts.map fun i => if i.st = .loaded then { i with st := .running } else i) ∧
        ∀ i ∈ g.insts, i.st = .loaded → ∃ h : Region, t.region i.region = some h ∧ h.on = true ∧
          ∀ k : Region, s.region i.region = some k → (k.claimant = none → (t.rreg i.region).state = 2) ∧
            (k.claimant.isSome = true → k.dead = false → k.brake = none → (t.rreg i.region).state = 3 ∧ h.brake.isSome = true)) ∧
      (∀ (i : Inst) (rcd : Rec), i ∈ g.insts → i.st = .loaded → i.fault = some rcd → g.st = .loading → g.saved = [] → g.id.toNat = n →
        (∀ j ∈ g.insts, j.st = .loaded → j = i ∨ i.inst < j.inst) →
        (∃ q, t.fab.recs = s.fab.recs ++ [q] ∧ q.rcd = rcd) ∧ (∀ j ∈ g.insts, j.st = .loaded → t.region j.region = none) ∧
        (∃ x : Gang, t.gang n = some x ∧ x.st = .ended ∧ ∀ j ∈ x.insts, j.st = .failed) ∧
        ∀ p, g.from_ = some p → Aborts s t (coreOf p.org.ctx.region) p.cmd) := by
  refine ⟨_, exec_gangEnable hg hloaded hloading, fun hok => ?_, fun i rcd hi hst hf hload hsaved hid hlow => ?_⟩
  · rw [Gang.firstFault_none fun i hi hst => (hok i hi hst).1]
    refine ⟨State.start_gang hg, fun i hi hst => ?_⟩
    obtain ⟨k, hk⟩ := Option.isSome_iff_exists.mp (hok i hi hst).2
    obtain ⟨h, hh, hon, hfree, hclaimed⟩ := State.start_region (n := n) (Gang.mem_loadedInsts.mpr ⟨hi, hst⟩) hk
    refine ⟨h, hh, hon, fun k' hk' => ?_⟩
    obtain rfl : k = k' := Option.some.inj (hk.symm.trans hk')
    exact ⟨hfree, hclaimed⟩
  · rw [Gang.firstFault_lowest hi hst hf hlow]
    obtain ⟨hrecs, hgone, hgang, hab⟩ := State.launchEnds_spec (i := i) (rcd := rcd) hg hid
    rw [Option.elim_some, State.launchFails_eq hload hsaved]
    have hfailed : ∀ j ∈ g.insts.map (fun i => { i with st := InstSt.failed }), j.st = .failed := fun j hj => by
      obtain ⟨i, -, rfl⟩ := List.mem_map.mp hj
      rfl
    cases (s.launchEnds g i rcd).fillOfGang g.id.toNat with
    | none => exact ⟨hrecs, hgone, ⟨_, hgang, rfl, hfailed⟩, hab⟩
    | some f =>
      rw [Option.elim_some]
      have haside := Aside.cancelFill (s.launchEnds g i rcd) (fillKey f) 0xF5 8 0#32
      obtain ⟨b, hb⟩ := (GangsWoken.cancelFill (s.launchEnds g i rcd) (fillKey f) 0xF5 8 0#32).gang hgang
      refine ⟨?_, fun j hj hjst => ?_, ⟨_, hb, rfl, hfailed⟩, fun p hp => aborts_of_cores (hab p hp) (by rw [haside.rest])⟩
      · rw [haside.rest]; exact hrecs
      · rw [State.region, haside.rest]; exact hgone j hj hjst

end Sys2Proof.Machine
end

section
/-!
SUPPORT. Launches, from their packets to the end of their loads (R174, R258, R296 to R302, R371 to R373, R423).
-/
namespace Sys2Proof.Machine
open Claims

/-- The gang that an accepted record makes, by the fields of the record (R298, R299, R302). -/
theorem State.accept_spec {s u : State} {a : Submission} {id : Word} (h : s.accept a = (.ok id, u)) :
    ∃ g : Gang, u.gang id.toNat = some g ∧ g.id = id ∧ g.die = a.die ∧ g.recVA = a.lrec ∧ g.from_ = a.pkt ∧ g.fill = a.fill ∧
      g.order = s.dies.order ∧ u.dies.order = s.dies.order + 1 ∧
      (a.die * 2 ^ 30 + s.dies.accepted.lookD a.die 0 % 2 ^ 30 ≠ 0xFFFFFFFF →
        id = BitVec.ofNat 32 (a.die * 2 ^ 30 + s.dies.accepted.lookD a.die 0 % 2 ^ 30)) ∧
      (fieldAt g.rcd 8 2 = 0 → g.st = .ready ∧ a.die ∈ u.dies.due) ∧ (fieldAt g.rcd 8 2 ≠ 0 → g.st = .pending ∧ g.predLoc.isSome = true) ∧
      g.insts = (List.range (instCount (levelsOf g.rcd))).map (fun i => { inst := i }) ∧ g.saved = [] := by
  obtain ⟨g, predLoc, hg, hgang, horder, hid, hdue⟩ := State.accept_ok h
  refine ⟨{ g with id }, hgang, rfl, hg.die, hg.record, hg.from_, hg.fill, hg.order, horder, fun hn => hid.trans (s.nextId_eq a.die hn), fun h0 => ?_,
    fun h0 => ?_, hg.insts, hg.saved⟩
  · have hst : g.st = .ready := hg.st.trans (if_pos h0)
    exact ⟨hst, hdue hst⟩
  · refine ⟨hg.st.trans (if_neg h0), ?_⟩
    show g.predLoc.isSome = true
    rw [hg.pred, if_neg h0]
    rfl

/-- A gang becomes ready once its PRED has been seen zero, and only then (R299). -/
theorem gangReady_spec {s : State} {n : Nat} {g : Gang} (hg : s.gang n = some g) :
    (g.st = .pending ∧ g.predZero = true → ∃ t : State, exec (.gangReady n) s = .next t ∧ g.die ∈ t.dies.due ∧
      t.gang n = some { g with st := .ready, predLoc := none, since := s.clk g.die }) ∧
    (¬(g.st = .pending ∧ g.predZero = true) → exec (.gangReady n) s = .next s) := by
  rw [exec_gangReady hg]
  refine ⟨fun h => ⟨_, rfl, ?_, ?_⟩, fun h => by rw [if_neg h]⟩
  · rw [if_pos h]
    exact List.mem_dedup.mpr List.mem_cons_self
  · rw [if_pos h]
    exact State.gang_updGang_same (f := s.readied) hg

/-- Settles O49. The gang that loads is followed through all else that a try does (`Beside`), the regions of the gangs that are pre-empted through the
brakes of all the others (`Steady`), and an instance that starts through the starts and the brakes of the others. -/
theorem launches : Obligations.Launches := by
  unfold Obligations.Launches
  intro s
  refine ⟨fun die p rest hp => ⟨launchPacketAccept_waits, fun hw => ?_⟩, fun die p pre post hl hpre hid hw => launchWaitMet_spec hl hpre hid hw,
    fun a id u h => State.accept_spec h, fun n g hg => gangReady_spec hg, fun die => ?_, fun n i g x old hg hx hsaved hold => ?_,
    fun n g hg hloaded hloading => gangEnable_spec hg hloaded hloading, fun n x hx => preemptionWaitExpiry_spec hx⟩
  · obtain ⟨t, ht, hbad, hmet, habort, hunmet⟩ := launchPacketAccept_spec hp hw
    exact ⟨t, ht, fun o ho => hbad o ((badLaunch_iff p o).mpr ho), fun hs => hmet (badLaunch_none hs), fun hs => habort (badLaunch_none hs),
      fun hs => hunmet (badLaunch_none hs)⟩
  · obtain ⟨hidle, hdue⟩ := dispatcherTry_spec s die
    refine ⟨hidle, fun hd => ?_⟩
    obtain ⟨t, ht, hnone, hone⟩ := hdue hd
    refine ⟨t, ht, hnone, fun g n c es hr hg hn hid hwant hfit => ?_⟩
    obtain ⟨⟨x, hx, hst, hcog, hinsts⟩, hregions⟩ := hone g n c es hr hg hn hid hwant hfit
    exact ⟨x, hx, hst, hcog, hregions, hinsts⟩
  · obtain ⟨hwait, hgo⟩ := frameLoad_spec hg hx hsaved hold
    refine ⟨hwait, fun hw => ?_⟩
    obtain ⟨t, ht, hframe, hwins, hok⟩ := hgo hw
    refine ⟨t, ht, fun rcd u' h => ?_, fun f m u' rcd w hf h => ?_, fun f m u' wins w new hf h hnew => ?_⟩
    · obtain ⟨hl, hfl⟩ := hframe rcd u' h
      exact ⟨hl g hg, hfl⟩
    · obtain ⟨hl, hfl⟩ := hwins f m u' rcd w hf h
      exact ⟨hl g hg, hfl⟩
    · obtain ⟨hl, hrest⟩ := hok f m u' wins w new hf h hnew
      exact ⟨hl g hg, hrest⟩

end Sys2Proof.Machine
end
